-- ==== Sys2Proof/Word.lean ====
section
/-!
DEFINITION. The plain data types the whole model is written with: bytes, and the
sparse map that holds memories, register fields and tables.
-/

namespace Sys2Proof

/-- A byte (R7: multi-byte fields are little-endian sequences of these). -/
abbrev Byte := BitVec 8

/-- A sparse map from Nat keys: keys strictly rising, no entry that equals the map's default. -/
abbrev Map (α : Type) := List (Nat × α)

end Sys2Proof
end

