-- ==== Sys2Proof/Syntax.lean ====
section
/-!
DEFINITION. The commands of the package, one constructor for each row of the table of
operations and events, with the operands the rows' rules give them.
-/

namespace Sys2Proof

/-- Compute die d0 to d3. -/
abbrev Die := Fin 4
/-- Caldera half, lobe or PCIe port: 0 West, 1 East. -/
abbrev Half := Fin 2
/-- Fabric port: 0 XP, 1 XN, 2 YP, 3 YN, 4 ZP, 5 ZN. -/
abbrev FabPort := Fin 6
/-- Physical cluster of a die (R13). -/
abbrev Cluster := Fin 33
/-- Tile of a cluster. -/
abbrev TileIx := Fin 16
/-- Cluster group of a die (R132). -/
abbrev Group := Fin 11

/-- Who issues a register access (R342). -/
inductive Requester where
  | pcie0 | pcie1 | management | testAccess
  deriving DecidableEq, Repr

/-- Where a register access goes: BAR0 register pages, a port's BAR2 command ports, the size of a port's
BAR4, which the function's resizable BAR capability holds (R320), the configuration space of a port's
function (R428), or the management bus's enable of in-band interrupts (R424). -/
inductive Bar where
  | bar0
  | bar2 (p : Half)
  | bar4Size (p : Half)
  | config (p : Half)
  | ibiEnable
  deriving DecidableEq, Repr

/-- Where a register is accessed: its place, byte offset and width in bytes. -/
structure RegAt where
  bar   : Bar
  off   : Nat
  width : Nat
  deriving DecidableEq, Repr

/-- A register write: the value, and in their places the W1C bits that hardware sets in the same cycle (R10). -/
structure RegWrite where
  val : Nat
  set : Nat
  deriving DecidableEq, Repr

/-- Bytes that a write brings and its byte mask, one bit for each byte (R171). -/
structure MaskedBytes where
  bytes : List Byte
  mask  : Nat
  deriving DecidableEq, Repr

/-- A Nyosh packet: the fields of the header flit (R231) and its payload bytes.
`resv` is the OR of the header's reserved bits, `blk` is BLK. -/
structure Packet where
  type    : Nat := 0
  detour  : Bool := false
  blk     : Nat := 0
  len     : Nat := 0
  dest    : Nat := 0
  src     : Nat := 0
  job     : Nat := 0
  epoch   : Nat := 0
  status  : Nat := 0
  group   : Nat := 0
  bucket  : Nat := 0
  chunk   : Nat := 0
  node    : Nat := 0
  tag     : Nat := 0
  addr    : Nat := 0
  bytes   : Nat := 0
  rseq    : Nat := 0
  exps    : List Byte := []
  resv    : Nat := 0
  payload : List Byte := []
  deriving DecidableEq, Repr

/-- Who reads a sector (R180): a tile's task by its main path, which reads the whole granule, or by its
narrow path (R171, R172), a host DMA, a BAR4 access or a remote one; also a die's sequencer or a Geyser,
collective engine or attestation block at a Caldera half, whose reads the same code checks (R179). -/
inductive Reader where
  | task (d : Die) (c : Cluster) (t : TileIx) (narrow : Bool)
  | hostDma | bar4 | remote
  | sequencer (d : Die)
  | caldera (h : Half)
  deriving DecidableEq, Repr

/-- One end of a Rilun edge. Edges 0, 1 are the in-lobe edges, 2 + D is die D's Caldera edge. -/
structure EdgeEnd where
  edge : Fin 6
  far  : Bool
  deriving DecidableEq, Repr

/-- A data flit as received (R195): the 64 columns of 34 bits, payload word in bits 0–31 and check bits in
32–33, and the edge sequence number. Of the transaction that it carries the model sees, of a request, the
requester and the job that issued it, 0 for none (R207). -/
structure DataFlit where
  cols    : List Nat
  seq     : Nat
  request : Option Reader := none
  job     : Nat := 0
  deriving DecidableEq, Repr

/-- A control flit as received (R200): 192 payload bits, CRC-32C, sequence number; `ack` is set on
an acknowledgement, which names `seq`. -/
structure ControlFlit where
  payload : Nat
  crc     : Nat
  seq     : Nat
  ack     : Bool
  deriving DecidableEq, Repr

/-- The KIND of a link codeword (R228). -/
inductive CwKind where
  | data | idle | nak | reserved
  deriving DecidableEq, Repr

/-- A link flit (R229): a credit return for a virtual channel and class, or a truncation mark. -/
inductive LinkFlit where
  | credit (vc : Fin 4) (detour : Bool) (flits : Nat)
  | truncate (vc : Fin 4)
  deriving DecidableEq, Repr

/-- A link flit alone in its codeword, with the SEQ and ACK that the codeword carries (R229). -/
structure SentLinkFlit where
  seq  : Nat
  ack  : Nat
  flit : LinkFlit
  deriving DecidableEq, Repr

/-- A 64-byte flit of a link (R229, R231): the header flit of a packet, which here stands for all of the
packet's contents, a payload flit of the packet open on a virtual channel, or a link flit. -/
inductive Flit where
  | head (p : Packet)
  | body (vc : Fin 4)
  | link (f : LinkFlit)
  deriving DecidableEq, Repr

/-- A codeword of a bulk lane, or of the fumarole lane (R228): how many of its ten-bit symbols arrive in
error, its link field, and the flits in its slots, the last PAD of which carry none. `lane` is the place of the
bulk lane that carries it among those of the port. -/
structure Codeword where
  fum   : Bool := false
  lane  : Nat := 0
  bad   : Nat := 0
  kind  : CwKind := .data
  pad   : Nat := 0
  seq   : Nat := 0
  ack   : Nat := 0
  flits : List Flit := []
  deriving DecidableEq, Repr

/-- What a Geyser's read of its slot memory finds (R267). -/
inductive SlotRead where
  | clean | corrected | uncorrectable
  deriving DecidableEq, Repr

/-- A packet that reaches a Geyser, and what the Geyser's reads of slot memory for it find, in their order;
clean from where the list ends (R267). -/
structure GeyserPacket where
  pkt : Packet
  mem : List SlotRead
  deriving DecidableEq, Repr

/-- Why a receive lane may have failed (R221): its receive power in 0.1 dBm, or the loss of its lock. -/
inductive LaneCause where
  | power (p : Int)
  | lock
  deriving DecidableEq, Repr

/-- A receive lane that may have failed, and why. -/
structure LaneFail where
  lane  : Fin 8
  cause : LaneCause
  deriving DecidableEq, Repr

/-- An edge whose ends compare their maps after a warm reset, and which control bundles have trained (R206). -/
structure EdgeCheck where
  edge   : Fin 6
  ctrlUp : Fin 4
  deriving DecidableEq, Repr

/-- What an OE die answers at admission: its descriptor's 256 bytes over the sideband (none when
there is no sideband) and, for each module, whether it trains at 32 GT/s and at 16 GT/s; and the powers of its laser inputs as the check
before training finds them (R220), wavelength k of fiber f at 4 f + k, in 0.1 dBm. -/
structure OeAnswer where
  descriptor : Option (List Byte)
  train32    : Nat
  train16    : Nat
  light      : List Int
  deriving DecidableEq, Repr

/-- What the end of a group's training or retrain finds (R220, R227): light, the partner's data and
the passing lanes of each direction as masks of the group's 8 lanes. -/
structure GroupResult where
  partner : Nat
  shape   : Nat
  tx      : Nat
  rx      : Nat
  deriving DecidableEq, Repr

/-- The levels on the strap pins (R418). -/
structure Straps where
  meshX : Nat := 0
  meshY : Nat := 0
  meshZ : Nat := 0
  shape : Nat := 0
  plan  : Nat := 0
  test  : Bool := false
  deriving DecidableEq, Repr

/-- What the training of one edge measured (R203): for each data bundle the eye margin of each of
its 68 lanes, and the least margin a lane must reach. -/
structure EdgeMargins where
  least   : Nat
  bundles : List (List Nat)
  ctrlUp  : Nat
  deriving DecidableEq, Repr

/-- The answer of the host to a DMA (R330): the bytes it read, or an error. -/
inductive HostAnswer where
  | data (bytes : List Byte)
  | error
  | timeout
  deriving DecidableEq, Repr

/-- A reset target: what a reset level acts on (R355). -/
inductive Scope where
  | tile (d : Die) (c : Cluster) (t : TileIx)
  | cluster (d : Die) (c : Cluster)
  | die (d : Die)
  | lobe (l : Half)
  | package
  | full
  deriving DecidableEq, Repr

/-- What the end of a reset finds: the lobes that pass bring-up self-test, the channels that failed
training (R188), and the clusters that failed self-test (R129), numbered 33 × die + cluster. -/
structure BringUp where
  west     : Bool
  east     : Bool
  channels : List Nat
  clusters : List Nat
  deriving DecidableEq, Repr

/-- An engine that can be restarted (R357). -/
inductive Engine where
  | geyser (h : Half)
  | collective (h : Half)
  | hostDma (n : Fin 32)
  deriving DecidableEq, Repr

/-- What runs of the recovery ladder: a reset level, or the restart of an engine (R355, R357). -/
inductive Recovery where
  | level (sc : Scope)
  | engine (e : Engine)
  deriving DecidableEq, Repr

/-- An abort that the hang engine has started (R353). -/
inductive Abort where
  | queueJob (h : Half) (job : Nat)
  | dma (n : Fin 32)
  deriving DecidableEq, Repr

/-- A cause that the brake can be engaged by and that clears by itself (R386). -/
inductive BrakeCause where
  | therm | vin
  deriving DecidableEq, Repr

/-- A monitored sensor or state (R423). -/
inductive Sensor where
  | vin | iin | pinAvg | vaux | vio
  | temp (n : Fin 32)
  | faultSummary
  | powerState
  deriving DecidableEq, Repr

/-- JTAG instructions (R426); `other` is any instruction beyond boundary scan. Beside them what the port's pins
can do else: a scan shifts new contents into the boundary-scan register, the levels on the pins being `pins`, and
TRST_N goes low or high (R418). -/
inductive Jtag where
  | bypass | idcode | samplePreload | extest | clamp | highz
  | other (opcode : Nat)
  | scan (pins shiftIn : Nat)
  | testReset (low : Bool)
  deriving DecidableEq, Repr

/-- Bytes of a firmware update, from where the bytes before them ended; with the last the update is closed and
its copy open no more (R423). -/
structure FirmwarePart where
  bytes : List Byte
  last  : Bool
  deriving DecidableEq, Repr

/-- A calibration step of a channel (R372): does its drift exceed the correction range, and is it one of the
periodic steps, or one that a change of temperature asks for? -/
structure CalStep where
  retrain  : Bool
  periodic : Bool
  deriving DecidableEq, Repr

/-- Firmware images (R387). -/
inductive Image where
  | solfatara | caldera | die
  deriving DecidableEq, Repr

/-- What recalibrates (R373). -/
inductive LinkUnit where
  | bundle (edge : Fin 6) (b : Fin 40)
  | group (g : Fin 32)
  deriving DecidableEq, Repr

/-- How the recalibration of a link ends (R373): a bundle passes or fails on a physical lane; of a group which
lanes pass in each direction. -/
inductive RecalEnd where
  | bundle (edge : Fin 6) (b : Fin 40) (failed : Option (Fin 68))
  | group (g : Fin 32) (tx rx : Nat)
  deriving DecidableEq, Repr

/-- The commands. A register write that has a row of its own takes the 32-bit value written; the
bit that makes it that row's write is taken as the row says, whatever the value's bit. `set` of a register
write are the bits of the register that hardware sets in the same cycle (R10), `events` of a read what
happens in the cycle of the read to the register's RAC fields, each in its field's place (R11). `symbols`
are the symbols in error that a sector holds when the controller's code reads it (R179): of each sector of
the access in a read by a task's main path. The bytes of a sector write whose bit of `mask` is set are
written. -/
inductive Instr where
  -- host, register accesses
  | registerWrite (r : Requester) (bar : Bar) (off width : Nat) (w : RegWrite)
  | racRead (r : Requester) (at_ : RegAt) (events : Nat)
  | bar0BadAccess (p : Half) (write : Bool) (off width : Nat)
  | lobeModeWrite (r : Requester) (val : BitVec 32)
  | censusSnap (r : Requester) (d : Die) (val : BitVec 32)
  | censusClear (r : Requester) (d : Die)
  | censusOpDone (d : Die)
  | seqStart (r : Requester) (d : Die) (val : BitVec 32)
  | seqStop (r : Requester) (d : Die) (val : BitVec 32)
  | digClear (r : Requester) (d : Die) (val : BitVec 32)
  | jwCtlWrite (r : Requester) (val : BitVec 32)
  | memSplitWrite (r : Requester) (val : BitVec 32)
  | mapoutReqWrite (r : Requester) (val : BitVec 32)
  | oeRetry (r : Requester) (o : Fin 8)
  | jobDataWrite (r : Requester) (val : BitVec 32)
  | rtDataWrite (r : Requester) (val : BitVec 32)
  | gqQuotaWrite (r : Requester) (h : Half) (val : BitVec 32)
  | queueEnable (r : Requester) (h : Half) (val : BitVec 32)
  | queueDisable (r : Requester) (h : Half) (val : BitVec 32)
  | portCfgWrite (r : Requester) (p : Half) (val : BitVec 32)
  | ringCfgWrite (r : Requester) (p : Half) (val : BitVec 32)
  | ringHeadWrite (r : Requester) (p : Half) (val : BitVec 32)
  | resetReq (r : Requester) (val : BitVec 32)
  | powerReqP0 (r : Requester)
  | powerReqP2 (r : Requester) (l : Half)
  | powerReqP3 (r : Requester)
  | powerReqP4 (r : Requester)
  | mrExtend (r : Requester) (val : BitVec 32)
  | faultInject (r : Requester) (val : BitVec 32)
  | logCapture (r : Requester) (val : BitVec 32)
  | ftLoRead (r : Requester)
  -- host, commands through SUBMIT
  | cmdNop (p : Half) (n : Fin 256) (width : Nat)
  | cmdDma (p : Half) (n : Fin 256) (width : Nat)
  | cmdSeqRun (p : Half) (n : Fin 256) (width : Nat)
  | cmdAbort (p : Half) (n : Fin 256) (width : Nat)
  | cmdTest (p : Half) (n : Fin 256) (width : Nat)
  | cmdWaitFault (p : Half) (n : Fin 256) (width : Nat)
  | queuePostHost (p : Half) (n : Fin 256) (width : Nat)
  -- segment requests
  | segOpen (r : Requester)
  | segPeriodic (r : Requester)
  | segCheckpoint (r : Requester)
  | segClose (r : Requester)
  | segState (r : Requester)
  | segmentComplete
  -- host, device memory
  | bar4Read (p : Half) (off len : Nat)
  | bar4Write (p : Half) (off : Nat) (data : List Byte)
  -- tiles and clusters
  | taskDispatch (d : Die)
  | taskTake (d : Die) (c : Cluster) (t : TileIx)
  | taskComplete (d : Die) (c : Cluster) (t : TileIx)
  | tileClockGate (d : Die) (c : Cluster) (t : TileIx)
  | clusterGroupGate (d : Die) (g : Group)
  | clusterGroupReady (d : Die) (g : Group)
  | tileRestart (d : Die) (c : Cluster) (t : TileIx)
  | rotationStart (d : Die)
  | rotationComplete (d : Die)
  | onlineTestPassEnd (d : Die) (pass : Bool)
  | clusterFence (d : Die) (c : Cluster)
  -- training sequencer
  | phaseStart (d : Die)
  | phaseAttemptEnd (d : Die) (ph : Nat)
  | phaseComplete (d : Die) (ph : Nat)
  | stepEnd (d : Die)
  | leafTake (d : Die) (layer : Nat)
  | crossDieDepSignal (src dst : Die) (ph : Nat)
  | mirrorExchangeReceive (d : Die) (ph : Nat)
  | pairSelfTestStart
  | pairSelfTestResult (west east : Bool)
  -- memory
  | sectorRead (addr : Nat) (by_ : Reader) (symbols : List Nat)
  | sectorWrite (addr : Nat) (data : MaskedBytes) (symbols : Nat)
  | scrubRead (addr symbols : Nat)
  | bankRefresh (chan : Fin 1024)
  | memCalibration (chan : Fin 1024) (corrections : Nat) (x : CalStep)
  | channelHoldStart (d : Die)
  | channelHoldRelease (d : Die) (pass readable : Bool)
  -- Rilun
  | dataFlitReceive (e : EdgeEnd) (b : Fin 40) (f : DataFlit)
  | sparingComplete (edge : Fin 6) (b : Fin 40) (agreed : Bool)
  | dataFlitAck (e : EdgeEnd) (seq : Nat)
  | laneCountDecay
  | controlFlitReceive (e : EdgeEnd) (cb : Half) (f : ControlFlit)
  | controlAckTimeout (e : EdgeEnd) (cb : Half)
  | reconcileHashExchange (x : EdgeCheck)
  | edgeTrainingComplete (edge : Fin 6) (m : EdgeMargins)
  -- optics
  | oeAdmission (o : Fin 8) (a : OeAnswer)
  | laserMonitor (o : Fin 8) (power : List Int)
  | groupTrainingComplete (g : Fin 32) (r : GroupResult)
  | groupAbsent (g : Fin 32)
  | absentGroupProbe (g : Fin 32) (light : Bool)
  | optLaneFail (g : Fin 32) (f : LaneFail)
  | groupRetrainComplete (g : Fin 32) (r : GroupResult)
  -- router
  | routerPacketEnter (src : Option FabPort) (p : Packet)
  | packetLinkStart (port : FabPort) (vc : Fin 4) (detour : Bool)
  | codewordReceive (port : FabPort) (cw : Codeword)
  | linkFlitReceive (port : FabPort) (f : SentLinkFlit)
  | portDown (port : FabPort)
  | adminExchangeSend
  | adminReceive (port : FabPort) (up : Nat)
  | detourCreditTimeout (n : Nat)
  | packetWaitTimeout (n : Nat)
  -- remote accesses
  | remoteLoad (p : Packet)
  | remoteStore (p : Packet)
  | remoteFetchAdd (p : Packet)
  | remoteResponse (p : Packet)
  | nackReceive (p : Packet)
  | remoteRequestTimeout (tag : Nat)
  -- fabric time
  | tsyncSend
  | tsyncReceive (port : FabPort) (master hops time : Nat)
  | ftHoldover
  -- eruption, Geysers, collectives
  | eruptReceive (p : Packet)
  | queueAbortComplete (job : Nat)
  | redChunkReceive (h : Half) (x : GeyserPacket)
  | resvGrantReceive (x : GeyserPacket)
  | resvCreditReceive (x : GeyserPacket)
  | collOpStart (q : Fin 64)
  | ctsReceive (p : Packet)
  | msgDataReceive (p : Packet)
  | msgDoneReceive (p : Packet)
  | msgResultReceive (p : Packet)
  | fumReceive (p : Packet)
  | collOpComplete (q : Fin 64) (op : Nat)
  -- host engines
  | dmaComplete (p : Half) (n : Fin 256) (a : HostAnswer)
  | completionRecordWrite (p : Half) (ring : Fin 64)
  | msixHoldoffExpiry (p : Half) (ring : Fin 64)
  -- faults, hangs, resets
  | quietPeriodExpiry
  | tremorWindowExpiry (slot : Nat)
  | resetEnd (x : Recovery) (b : BringUp)
  | resetEscalation (x : Recovery)
  | abortTimeout (a : Abort)
  -- self-test
  | testStart (n : Nat)
  | testEnd (n : Nat) (pass readable : Bool) (failUnit elapsed : Nat)
  | testDeadlineExpiry (n : Nat)
  | linkRecalibration (u : LinkUnit)
  | linkRecalibrationEnd (x : RecalEnd)
  -- power, clocks, supplies
  | brakePinAssert
  | brakePinRelease
  | limiterStep (watts : Nat)
  | supVinLow
  | supVinHigh
  | supOvercurrent
  | supVauxLow
  | thermWarn (sensor : Fin 32)
  | thermHot (sensor : Fin 32)
  | thermTrip (sensor : Fin 32)
  | brakeCauseClear (c : BrakeCause)
  | supplyRestart
  | refclkLoss (n : Half)
  | slowclkLoss
  | vinCollapse
  | vauxLoss
  | vioLoss
  | vioRestore
  | powerOn
  | strapSample (p : Straps)
  | vin48Ready
  | fuseCommit (img : Image)
  | perstAssert (p : Half)
  | perstDeassert (p : Half)
  | functionLevelReset (p : Half)
  | i3cEntdaa (addr : BitVec 7)
  | pldmSensorRead (x : Sensor)
  | pldmFirmwareUpdate (img : Image) (x : FirmwarePart)
  | pldmPollEvent
  | jtagInstruction (j : Jtag)
  -- rows added at the table's end
  | promotionLatchReceive (src dst : Die) (ph : Nat)
  | groupLightRecheck (g : Fin 32) (power : List Int)
  | refclkRestore (n : Half)
  | slowclkRestore
  | powerStateEntered
  | stackTempBelow85 (stack : Fin 16)
  deriving DecidableEq, Repr

end Sys2Proof
end

