-- ==== Sys2Proof/Decode.lean ====
section
/-!
DEFINITION. Commands and words: no row of the table of operations and events has bits, so no word
spells a command.
-/

namespace Sys2Proof

/-- The command that the bits of a word spell: none, since no row of the table gives bits. -/
def decodeTableWord (_nbits _w : Nat) : Option Instr := none

end Sys2Proof
end

