-- ==== Sys2Proof/Machine/State.lean ====
section
/-!
DEFINITION. The machine's state as plain data: everything the spec gives the package,
the queue of waiting commands, and the state after reset.
-/

namespace Sys2Proof.Machine

/-- Why the machine can stop with a fault. Nothing in this model raises one: the package reports
every error by a status or a fault event (R343). -/
inductive Fault where
  /-- Raised by no command; kept so that a stop can be named if a later repair needs one. Safe. -/
  | impossible
  deriving DecidableEq, Repr

/-- Why a command has no meaning. -/
inductive Refusal where
  /-- Raised by an arm of the dispatch that is not modelled yet. Safe: nothing runs. -/
  | notModelled (mnemonic : String)
  deriving DecidableEq, Repr

/-- The access codes of R9. -/
inductive Acc where
  | rw | ro | w1c | wo | rts | rac
  deriving DecidableEq, Repr

/-- A register field of a page: byte offset of its register, low bit, width, access code, reset
value. -/
structure Fld where
  off   : Nat
  lo    : Nat
  w     : Nat
  acc   : Acc
  reset : Nat
  deriving DecidableEq, Repr

/-! ### Memory system -/

/-- A job memory window entry (R165); base and size in units of 64 KiB. -/
structure Jw where
  valid : Bool := false
  base  : Nat := 0
  units : Nat := 0
  job   : Nat := 0
  deriving DecidableEq, Repr

/-- An entry of the sector table of a memory gateway (R183). -/
structure SectorEntry where
  addr  : Nat
  count : Nat
  deriving DecidableEq, Repr

/-- Why a channel is held (R191). -/
inductive HoldKind where
  | retrain | softRepair (row : Nat)
  /-- a CHANNEL test (R367) -/
  | test
  deriving DecidableEq, Repr

/-- Where traffic comes from (R17, R18): a die; what lies at a Caldera half: its host port, its Geyser, its
collective engine; or the fabric, whose ports draw on OE dies of both halves (R216). -/
inductive Source where
  | die (d : Nat)
  | half (h : Nat)
  | fabric
  deriving DecidableEq, Repr

/-- A store of bytes of one sector that its source has issued and that waits for an edge on its path (R17,
R18, R207). -/
structure Posted where
  src   : Source
  bytes : List (Nat × Byte)
  deriving DecidableEq, Repr

/-- An access to a sector, or to a granule, that waits at its controller (R175, R191): its reader, none for
a write, the bytes that a write writes, the symbols in error that its sectors hold, and when it came on the
model's clock (R406). Where its effect stands already, `turns` are the directions that the bus takes for it, 1
read and 2 write. -/
structure Access where
  addr    : Nat
  reader  : Option Reader
  bytes   : List (Nat × Byte) := []
  symbols : List Nat := []
  since   : Nat := 0
  turns   : List Nat := []
  deriving DecidableEq, Repr

/-- A held channel: the retrain attempts made, the writes in the hold buffer and the accesses that wait behind
it, oldest first. -/
structure Hold where
  chan   : Nat
  kind   : HoldKind
  tries  : Nat := 0
  buffer : List Access := []
  queue  : List Access := []
  deriving DecidableEq, Repr

/-- Memory controller state of one die beside its registers. -/
structure MemCtl where
  /-- the 64-entry table of corrected sectors, least recently updated first (R183) -/
  sectors  : List SectorEntry := []
  /-- rows awaiting hard repair, channel and row (R186) -/
  repairQ  : List (Nat × Nat) := []
  /-- rows with no hard-repair resource left that stay in service (R187) -/
  unfixed  : List (Nat × Nat) := []
  /-- channels whose retrain has failed: the next reset that trains them maps them out (R192) -/
  failing  : List Nat := []
  /-- rows repaired by a soft repair, and those whose soft repair is lost (R187) -/
  soft     : List (Nat × Nat) := []
  softLost : List (Nat × Nat) := []
  /-- direction of a channel's bus, 1 read and 2 write, 0 before its first access (R175); where accesses that
  are not followed one by one have passed, the direction of a channel not listed is not known -/
  dirs     : Map Nat := []
  mixed    : Bool := false
  /-- accesses of a channel that have not been issued to it, oldest first (R175) -/
  queue    : Map (List Access) := []
  /-- the held channel (R191) -/
  hold     : Option Hold := none
  /-- hold requests that wait, in arrival order (R191) -/
  waiting  : List (Nat × HoldKind) := []
  deriving DecidableEq, Repr

/-! ### Tiles, clusters and tasks -/

/-- What a dispatched task waits for (R126, R122, R123, R149). -/
inductive TaskSt where
  | held
  | queued
  | running (tile : Nat)
  /-- ended, but its phase has not committed (R149) -/
  | ended
  deriving DecidableEq, Repr

/-- A dispatched task that has not completed (R126). `words` are the 1,024 bits of its descriptor as
read at dispatch (R117); `piece` marks a piece of an OPT phase (R158). `src` is the phase whose list
holds it: the replayed phase of a RECOMP, else `phase`. `late` marks an index that does not exceed that
of the descriptor before it in its list (R121). `deps` are the ids of the tasks that it depends on, as found
at its dispatch (R126). -/
structure LiveTask where
  id       : Nat
  phase    : Nat
  src      : Nat
  index    : Nat
  addr     : Nat
  words    : Nat
  tdt      : Nat
  tdtCount : Nat
  home     : Nat
  st       : TaskSt
  ordered  : Bool
  late     : Bool := false
  piece    : Option Nat := none
  reads    : List (Nat × Nat) := []
  writes   : List (Nat × Nat) := []
  reruns   : Nat := 0
  deps     : List Nat := []
  deriving DecidableEq, Repr

/-- What a tile holds: the entry it runs, its five tensor descriptors as read at the start (R91), whether
it has received an uncorrectable sector (R180), which of its descriptors take the narrow path and whether
its ordered adds run there, as NARROW_EN was when it started (R108, R109, R172). -/
structure RunTask where
  id  : Nat
  tds : List (Option Nat)
  spoiled : Bool := false
  narrow  : List Bool := []
  adder   : Bool := false
  deriving DecidableEq, Repr

/-- A tile (R113): its task, its clock gate and whether a restart of its clock has been demanded (R132), and
the generation of its scratchpad's contents, which changes whenever a task has used it (R114). -/
structure Tile where
  task    : Option RunTask := none
  gated   : Bool := false
  restart : Bool := false
  pad     : Nat := 0
  deriving DecidableEq, Repr

/-- A rotation in progress (R130): physical clusters and the logical index that moves. -/
structure Rotation where
  incoming : Nat
  outgoing : Nat
  logical  : Nat
  deriving DecidableEq, Repr

/-! ### Training sequencer -/

/-- How far a phase has come (R139, R309). -/
inductive Stage where
  | unread
  /-- its descriptor has been read, it has not started (R138) -/
  | read
  /-- started, its own work under way -/
  | working
  /-- own work done, waiting for the mirror die (R309) -/
  | exchange
  /-- own work done; posting its list and waiting for its posted operations -/
  | posting
  /-- complete, with its CODE -/
  | complete
  deriving DecidableEq, Repr

/-- A phase of the step (R138-R149, R309). `desc` is its descriptor as read and `entry` its layer's entry
as read at its start, `next` the number of
tasks (or pieces) dispatched in this attempt, `last` the previous TASK_INDEX of the list, `sub` the
FWD phase that a RECOMP replays, `replays` the descriptors of all of those, `block` the OPT block and `acc` the ACC
block (R151), as read at the start, `checked` the DEPs on other dies that R140 has passed, `skipped` a RECOMP under
RECOMP_EN = 0 (R146), `postNext` the descriptors posted, `ops` the posted operations not
complete as (queue, id), `tries` the attempts that a mirror mismatch has ended. -/
structure Phase where
  desc      : Nat := 0
  entry     : Nat := 0
  stage     : Stage := .unread
  code      : Nat := 0
  rung      : Nat := 0
  rungStart : Nat := 0
  next      : Nat := 0
  sub       : Nat := 0
  replays   : List Nat := []
  block     : Nat := 0
  acc       : Nat := 0
  checked   : List (Nat × Nat) := []
  skipped   : Bool := false
  last      : Option Nat := none
  latch     : Bool := false
  /-- PROMOTE armed under the PROMO_EN read at the start (R410) -/
  promote   : Bool := false
  /-- the attempt has ended and waits for the latches of its group (R150) -/
  latched   : Bool := false
  committed : Bool := false
  drops     : Nat := 0
  postNext  : Nat := 0
  ops       : List (Nat × Nat) := []
  failed    : Bool := false
  tries     : Nat := 0
  /-- the comparison of R309 is waived: the surviving lobe runs it unchecked (R310) -/
  unchecked : Bool := false
  digest    : Nat := 0
  deriving DecidableEq, Repr

/-- A gradient counter (R151-R154): the fields of its layer's ACC blocks, the next rank, and the
leaves that wait as (rank, LEAF address). -/
structure Counter where
  buf     : Nat := 0
  elems   : Nat := 0
  kLog2   : Nat := 0
  dir     : Nat := 0
  next    : Nat := 0
  waiting : List (Nat × Nat) := []
  /-- digest of the sectors it has written, for the EXCHANGE phase of its layer (R308) -/
  digest  : Nat := 0
  deriving DecidableEq, Repr

/-- The step constants of a layer (R156), as F32 patterns. -/
structure StepConst where
  c1   : Nat := 0
  c2   : Nat := 0
  lrs  : Nat := 0
  lrwd : Nat := 0
  deriving DecidableEq, Repr

/-- Why a sequencer stops other than at a step's end (R326). -/
inductive StopCause where
  | failed | aborted | peer (origin : Nat)
  deriving DecidableEq, Repr

/-- A training sequencer beside its registers: the job block it runs (R135), and the step's state.
`cmd` is the SEQ_RUN that started it: PCIe port and handle. -/
structure Seq where
  progBase  : Nat := 0
  layerBase : Nat := 0
  lrBase    : Nat := 0
  evtBase   : Nat := 0
  progCount : Nat := 0
  lrCount   : Nat := 0
  evtCount  : Nat := 0
  job       : Nat := 0
  epoch     : Nat := 0
  /-- SEQ_STEP of the step that the phases belong to (R143) -/
  stepNo    : Nat := 0
  phases    : Map Phase := []
  counters  : Map Counter := []
  consts    : Map StepConst := []
  /-- RECV counts of the queues sampled at the start of the step (R280) -/
  recvBase  : Map Nat := []
  /-- events of the ring copied into the record (R150) -/
  copied    : Nat := 0
  cmd       : Option (Nat × Nat) := none
  /-- a START waits until its job block can be read (R191) -/
  wants     : Bool := false
  /-- first cause of a stop that waits for its started phases (R141) -/
  stop      : Option StopCause := none
  deriving DecidableEq, Repr

/-- A compute die beside its registers. -/
structure DieSt where
  live       : List LiveTask := []
  nextId     : Nat := 0
  rot        : Option Rotation := none
  rotCount   : Nat := 0
  /-- logical indices without a cluster of their own (R131) -/
  orphans    : List Nat := []
  /-- the spare has passed a full test pass since it became the spare (R130, R370) -/
  spareTested : Bool := false
  /-- generation of the contents of its tiles' scratchpads, which a reset of the die makes undefined (R355) -/
  padEra     : Nat := 0
  censusOp   : Option Bool := none
  seq        : Seq := {}
  mem        : MemCtl := {}
  /-- phases of this die whose completion a die has been told: key 4 × phase + receiver, value 1 + the step
  in which they completed (R143) -/
  told       : Map Nat := []
  /-- latches received from other dies: key 4 × phase + sender, value 1 + latch + 2 × step (R150) -/
  latches    : Map Nat := []
  /-- digest and status word received from the mirror for a phase (R309), plus one -/
  mirror     : Map Nat := []
  deriving DecidableEq, Repr

/-! ### Rilun edges -/

/-- One end of a data bundle: up, the mask of the lanes that carry data, the mask of the lanes excluded
by fuse (R202), the mask of free spares, corrections per lane, failing lanes in use, and of a sparing the
failing lane and the spare that it trains. -/
structure BundleEnd where
  up      : Bool := false
  mask    : Nat := 0
  fused   : Nat := 0
  spares  : Nat := 0
  counts  : Map Nat := []
  failing : List Nat := []
  sparing : Option (Nat × Nat) := none
  /-- its traffic is moved aside for a test or a recalibration (R367, R373) -/
  aside   : Bool := false
  lastCorr : Nat := 0x7F
  deriving DecidableEq, Repr

/-- One end of a control bundle: up, consecutive failed attempts, unacknowledged flits, next
sequence number. -/
structure CtrlEnd where
  up      : Bool := false
  fails   : Nat := 0
  unacked : List (Nat × Nat) := []
  nextSeq : Nat := 0
  received : List Nat := []
  deriving DecidableEq, Repr

/-- A data flit that its sender keeps until it is acknowledged (R199): its sequence number and bundle, and
of a request the requester and the job that issued it (R207). -/
structure Kept where
  seq     : Nat
  bundle  : Nat
  request : Option Reader := none
  job     : Nat := 0
  deriving DecidableEq, Repr

/-- One end of a Rilun edge (R193-R207). `replay` is the flits sent and not acknowledged, `turn` the place of
the next bundle in their round, `rxNext` the next sequence to deliver, `rxHeld` those that came early as
(sequence, payload), `delivered` the flits delivered, `held` the traffic that the end holds back while
the edge is not up (R207), and `ended` the requests of this end that have completed at their requesters with
status EDGE_RESET, oldest first. -/
structure EdgeSide where
  epoch   : Nat := 1
  bundles : Map BundleEnd := []
  ctrl    : Map CtrlEnd := []
  txNext  : Nat := 0
  replay  : List Kept := []
  turn    : Nat := 0
  rxNext  : Nat := 0
  rxHeld  : List (Nat × List Nat) := []
  held    : List DataFlit := []
  ended   : List Kept := []
  delivered : List (List Nat) := []
  deriving DecidableEq, Repr

/-! ### Progress -/

/-- Progress of an engine with a tremor counter (R334, R353): COUNT, when it last moved and when PENDING last
rose on the model's clock of microseconds, and PENDING as it was last seen. -/
structure Tremor where
  count : Nat := 0
  moved : Option Int := none
  rose  : Option Int := none
  pend  : Bool := false
  deriving DecidableEq, Repr

/-! ### Optics -/

/-- An OE die beside its registers: thresholds of the admitted descriptor in 0.1 dBm (R224), and
the wavelengths below LASER_MIN, bit 4 f + k. -/
structure Oe where
  laserMin : Int := 0
  rxSens   : Int := 0
  low      : Nat := 0
  deriving DecidableEq, Repr

/-- A lane group beside its registers. -/
structure OptGroup where
  /-- waits at bring-up for its laser light (R215) -/
  waitLight : Bool := false
  /-- receive and transmit lanes that failed and wait for the retrain to exclude them -/
  failed    : Nat := 0
  failedTx  : Nat := 0
  retraining : Bool := false
  /-- held down by a partner that is not the expected neighbour (R227) -/
  miswired  : Bool := false
  /-- the retrain is a recalibration (R373) or a test, which changes no width by itself -/
  recal     : Bool := false
  /-- waits for its turn to retrain after a package compute reset (R356) -/
  due       : Bool := false
  deriving DecidableEq, Repr

/-! ### Fabric -/

/-- JOB_DATA of a job (R239-R241). -/
structure Job where
  member  : Bool := false
  transit : Bool := false
  state   : Nat := 0
  epoch   : Nat := 0
  deriving DecidableEq, Repr

/-- A packet that waits at the router for an output link (R234). -/
structure OutWait where
  port   : Nat
  vc     : Nat
  detour : Bool
  pkt    : Packet
  /-- the port on which it arrived, with the packet as it arrived: it fills that port's buffer (R234) -/
  src    : Option (Nat × Packet) := none
  /-- part of it is still to arrive on that port (R230) -/
  cut    : Bool := false
  deriving DecidableEq, Repr

/-- A packet that has arrived in part (R229): its virtual channel, itself, the flits still to come, and the
codeword that holds its first flit; whether the router has taken it already, and the port on which it is being
forwarded, with the packet as it leaves (R230). -/
structure PartIn where
  vc      : Nat
  pkt     : Packet
  left    : Nat
  first   : Nat
  entered : Bool := false
  out     : Option (Nat × Packet) := none
  deriving DecidableEq, Repr

/-- The link of a port (R228-R230, R234). `tx` and `rx` are the next SEQ to send and to accept, `ack` the last
codeword acknowledged to the partner, `seen` the first SEQ whose flits have not been taken, `replay` the data
codewords sent and not acknowledged, `early` those that came ahead of their turn, `used` the credits that
packets of this side have taken, keyed vc + 4 × detour class, `owed` the credits to return to the partner,
`part` the packets that have arrived in part, and `turn` the bulk lane whose turn it is (R228). -/
structure Link where
  tx      : Nat := 0
  rx      : Nat := 0
  seen    : Nat := 0
  ack     : Nat := 16383
  replay  : List Codeword := []
  early   : List Codeword := []
  used    : Map Nat := []
  owed    : Map Nat := []
  part    : List PartIn := []
  turn    : Nat := 0
  isDown  : Bool := false
  /-- which of reduction (1) and bulk (2) started last (R234) -/
  last    : Nat := 2
  deriving DecidableEq, Repr

/-- Who issued a remote request (R248): a DMA command as (port, handle) or a BAR4 access. -/
inductive Owner where
  | dma (p handle : Nat)
  /-- a BAR4 read of a port by its number, or a BAR4 write -/
  | bar4 (p : Nat) (read : Option Nat)
  deriving DecidableEq, Repr

/-- A remote request (R248): target position, job, load or store, package-local address at the target,
length, data of a store, owner, and the offset in the owner's transfer (the BAR4 offset for a BAR4
access). -/
structure Request where
  target : Nat
  job    : Nat
  load   : Bool
  addr   : Nat
  len    : Nat
  data   : List Byte
  owner  : Owner
  off    : Nat
  deriving DecidableEq, Repr

/-- An outstanding remote request with its tag (R248). -/
structure Outstanding where
  tag    : Nat
  target : Nat
  job    : Nat
  load   : Bool
  len    : Nat
  owner  : Owner
  off    : Nat
  deriving DecidableEq, Repr

/-- A BAR4 read that waits for remote parts: BAR4 offset, length, the parts that have come by their
BAR4 offset, parts that have not, whether one has failed, and whether one was uncorrectable. -/
structure BarRead where
  off    : Nat
  len    : Nat
  got    : Map (List Byte) := []
  left   : Nat := 0
  failed : Bool := false
  poison : Bool := false
  deriving DecidableEq, Repr

/-- A BAR4 access: PCIe port, offset and length, with the window base and the job that it carries (R322). -/
structure BarReq where
  port : Nat
  off  : Nat
  len  : Nat
  base : Nat
  job  : Nat
  deriving DecidableEq, Repr

/-- Remote-access state (R248-R250): issuer's outstanding requests, next tag, RSEQ to send and to
expect keyed by (position, job, epoch), early arrivals. -/
structure Remote where
  out     : List Outstanding := []
  /-- requests that wait for room among the outstanding ones, oldest first -/
  waiting : List Request := []
  nextTag : Nat := 0
  reads   : Map BarRead := []
  nextRead : Nat := 0
  txSeq   : Map Nat := []
  rxSeq   : Map Nat := []
  early   : List Packet := []
  deriving DecidableEq, Repr

/-- Fabric time beside its registers (R251, R253): the counter in nanoseconds, the nanoseconds it
still holds for a large correction backward, the small correction still to be slewed, the port of its
parent, and what each port's neighbour advertises as 1 + 256 × master index + hops. -/
structure FabTime where
  t       : Nat := 0
  behind  : Nat := 0
  slew    : Int := 0
  parent  : Option Nat := none
  adv     : Map Nat := []
  deriving DecidableEq, Repr

/-! ### Geysers and collectives -/

/-- A slot of a Geyser (R259, R260): its key, with the operation that the chunk belongs to, the chunk, the
children that have come, whether its combined result waits for its turn or a credit (R263), and whether a read
of its memory was uncorrectable, so that its chunk is not sent (R267). -/
structure Slot where
  job    : Nat
  group  : Nat
  bucket : Nat
  chunk  : Nat
  host   : Nat
  op     : Nat
  len    : Nat
  exps   : List Byte
  data   : List Byte
  got    : List Nat
  done   : Bool
  lost   : Bool := false
  deriving DecidableEq, Repr

/-- The reservation of a hosted node for one bucket of an operation (R261): queue and id of the operation, its
descriptor and number, its window, credits outstanding per child (NODE field), chunks sent up or delivered, and
chunks of the bucket. -/
structure Resv where
  job    : Nat
  group  : Nat
  bucket : Nat
  host   : Nat
  q      : Nat
  op     : Nat
  desc   : Nat
  num    : Nat
  win    : Nat
  credit : List (Nat × Nat)
  sent   : Nat
  chunks : Nat
  /-- tree of the bucket (R257) and the tree set's FANIN_LOG2, MEMBERS and ORDER -/
  tree   : Nat
  fan    : Nat
  members : Nat
  order  : Nat
  /-- (chunk, child) pairs that have come (R267) -/
  seen   : List (Nat × Nat)
  deriving DecidableEq, Repr

/-- A grant of credits that a sender holds for a bucket of a child node (R261), one for each operation: the
credits left and those returned so far. Once the sender has sent the bucket's last chunk, `ended`, what is left
lapses, and `left` returns are still to come. -/
structure Credit where
  job    : Nat
  group  : Nat
  bucket : Nat
  node   : Nat
  n      : Nat
  back   : Nat := 0
  ended  : Bool := false
  left   : Nat := 0
  deriving DecidableEq, Repr

/-- Who posted an operation (R271): a die's sequencer, with the phase and the descriptor's address,
or the host through a command port. -/
inductive Poster where
  | seq (d ph addr : Nat)
  | host (p handle : Nat)
  deriving DecidableEq, Repr

/-- A posted operation (R271-R284). `num` is its operation number or, for SEND and RECV, its tag;
`rx` counts the packets received from each rank, `rxed` holds the packets of a broadcast or an
all-gather that have come, by index, `sent` the ranks whose grant it holds, `doneBy` the ranks whose DONE has
come, `leaf` the leaf chunks injected of each bucket. -/
structure Op where
  id      : Nat
  desc    : Nat
  poster  : Poster
  num     : Nat
  started : Bool := false
  /-- place of its start among the starts of the package (R353) -/
  start   : Nat := 0
  /-- every transfer of it is finished: ready for its completion -/
  ready   : Bool := false
  code    : Nat := 0
  detail  : Nat := 0
  origin  : Nat := 0
  rx      : Map Nat := []
  sent    : List Nat := []
  doneBy  : List Nat := []
  leaf    : Map Nat := []
  rxed    : List (Nat × List Byte) := []
  deriving DecidableEq, Repr

/-- A Geyser (R260-R268): slots, reservations, operations whose reservation waits with their queues, as they started,
quotas keyed job × 1,024 + group, and GQ_DATA.REJ. `past` holds the last reservation of each bucket of a node
that has been released, by which a repeated chunk is known (R267). -/
structure Geyser where
  slots   : List Slot := []
  resv    : List Resv := []
  past    : List Resv := []
  waiting : List (Nat × Op) := []
  quota   : Map Nat := []
  rej     : Bool := false
  deriving DecidableEq, Repr

/-- A communication queue beside its registers (R269-R280): the tree set copied at EN = 1, its
operations in posting order, the next operation number and id, and the fumarole slot of R284: the
child nodes that have come, with their tag and bytes. `rt` holds RT0 to RT7, 6 bits each. -/
structure Cq where
  en      : Bool := false
  order   : Nat := 0
  fan     : Nat := 1
  trees   : Nat := 1
  group   : Nat := 0
  job     : Nat := 0
  members : Nat := 1
  rt      : Nat := 0
  state   : Nat := 0
  reason  : Nat := 0
  rank    : Nat := 0
  ops     : List Op := []
  num     : Nat := 0
  nextId  : Nat := 0
  recv    : Map Nat := []
  fum     : List (Nat × Nat × List Byte) := []
  deriving DecidableEq, Repr

/-- A grant (CTS) for an operation that has not started locally (R277); `done` where the DONE of a pair of zero
bytes has come too (R280). -/
structure Grant where
  half  : Nat
  job   : Nat
  group : Nat
  src   : Nat
  tag   : Nat
  bytes : Nat
  op    : Nat
  done  : Bool := false
  deriving DecidableEq, Repr

/-! ### Host interface -/

/-- A completion record (R328); `irq` is the command's FLAGS.IRQ. -/
structure CRec where
  handle : Nat
  result : Nat
  time   : Nat
  detail : Nat
  status : Nat
  irq    : Bool
  deriving DecidableEq, Repr

/-- A completion ring (R328, R329). -/
structure Ring where
  base    : Nat := 0
  en      : Bool := false
  size    : Nat := 8
  vector  : Nat := 0
  irqEn   : Bool := false
  holdoff : Nat := 0
  tail    : Nat := 0
  head    : Nat := 0
  waiting : List CRec := []
  /-- a holdoff runs; a record has completed within it -/
  holding : Bool := false
  owed    : Bool := false
  deriving DecidableEq, Repr

/-- An accepted command that has not completed (R324-R327): `raw` are its 64 bytes. Of a DMA, `issued`
is the bytes asked of a remote source or sent from a local one, `buf` the pieces read and still to be
stored remotely by their offset, `left` the remote requests outstanding, `moved` the bytes written,
`err` the first error status, `counted` the units of 2,048 bytes moved that its engine's tremor counter has
counted (R353). -/
structure Cmd where
  handle  : Nat
  raw     : Nat
  queueKind : Bool := false
  started : Bool := false
  issued  : Nat := 0
  buf     : List (Nat × List Byte) := []
  left    : Nat := 0
  moved   : Nat := 0
  err     : Nat := 0
  counted : Nat := 0
  deriving DecidableEq, Repr

/-- A command port (R323-R327). `desc` are the 64 bytes of DESC. -/
structure CPort where
  en    : Bool := false
  kind  : Nat := 0
  queue : Nat := 0
  ring  : Nat := 0
  desc  : Nat := 0
  seq   : Nat := 1
  cmds  : List Cmd := []
  deriving DecidableEq, Repr

/-- A write of the device to host memory: PCIe port, host address and bytes. -/
structure HostWrite where
  port : Nat
  addr : Nat
  data : List Byte
  deriving DecidableEq, Repr

/-- What the last read or submission returned to its requester. -/
inductive Resp where
  | none
  | value (n : Nat)
  | bytes (b : List Byte)
  | completerAbort
  | poisoned
  | pending
  /-- Configuration Request Retry Status (R428) -/
  | retry
  deriving DecidableEq, Repr

/-! ### Faults, resets, tests -/

/-- A fault log entry (R351); `detail` is the little-endian value of bytes 0x14 to 0x1F. -/
structure LogEntry where
  time   : Nat := 0
  index  : Nat := 0
  slot   : Nat := 0
  source : Nat := 0
  flags  : Nat := 0
  job    : Nat := 0
  epoch  : Nat := 0
  part   : Nat := 0
  detail : Nat := 0
  deriving DecidableEq, Repr

/-- A fault event: the page and source, the job and epoch it names, its part of the block, and the
DETAIL bytes (R351). -/
structure Event where
  slot     : Nat
  src      : Nat
  job      : Nat := 0
  part     : Nat := 0
  detail   : Nat := 0
  injected : Bool := false
  /-- logged whatever its class and sticky bit (R357, R364) -/
  forced   : Bool := false
  /-- a job-fatal fault that no source of R346 stands for (R332, assumption 124): `src` is what its log entry
  shows -/
  bare     : Bool := false
  /-- fabric time of its detection and whether it was out of step, where what it switched off would show others
  (R351, R386) -/
  stamp    : Option (Nat × Bool) := none
  deriving DecidableEq, Repr

/-- A queued PLDM event message (R424). -/
structure AlertMsg where
  slot   : Nat
  source : Nat
  cls    : Nat
  job    : Nat
  deriving DecidableEq, Repr

/-- A reset in progress (R355). `wait` holds a full package reset back until a shut-off's restart
condition holds (R386), `fn` holds FAULT_N low, as it was when the level began (R349), and `booted` says that a
full package reset has reset the router and the host side, and booted (R361, R389). -/
structure ActiveReset where
  scope     : Scope
  escalated : Bool := false
  wait      : Bool := false
  fn        : Bool := false
  booted    : Bool := false
  deriving DecidableEq, Repr

/-- A self-test (R366, R367): `cmd` is the TEST command that asked for it, as (port, handle). -/
structure Test where
  id      : Nat
  kind    : Nat
  die     : Nat
  unit    : Nat
  deadline : Nat
  cmd     : Option (Nat × Nat)
  started : Bool := false
  deriving DecidableEq, Repr

/-- The lobe self-test of R310. -/
inductive PairTest where
  | idle
  /-- wanted for a phase: waits until the posted operations have completed -/
  | wanted (ph : Nat)
  /-- runs for a phase of some dies, each with its job, also where the job has ended (R312) -/
  | running (ph : Nat) (dies : List (Nat × Nat))
  deriving DecidableEq, Repr

/-- A power state request held or in progress (R382): REQ and LOBE. -/
structure PowerReq where
  req  : Nat
  lobe : Nat
  deriving DecidableEq, Repr

/-- A shut-off whose restart condition is awaited (R386, R430). -/
inductive Shutoff where
  | vinHigh | overcurrent | vauxLow | thermTrip | vinCollapse | vaux
  deriving DecidableEq, Repr

/-! ### Security -/

/-- An open Landom record (R395-R398). `pairs` are the events of Paired mode since its last segment that have
not entered the fault log, each with the index of the entry that comes next there (R315); `lost` and `snapped` are
its dies whose EVT_LOST has been set, and whose SNAP_COUNT has advanced, since that segment (R398). -/
structure Record where
  isOpen : Bool := false
  epoch  : Nat := 0
  dies   : Nat := 0
  index  : Nat := 0
  prev   : List Byte := []
  lost   : List Nat := []
  snapped : List Nat := []
  logAt  : Nat := 0
  pairs  : List LogEntry := []
  deriving DecidableEq, Repr

/-- A segment request in progress (R396): the code of its checks, its fields, EVT_HEAD of each die as read at its
start, and whether its job was aborted before it (R397). -/
structure SegRun where
  code    : Nat
  kind    : Nat := 0
  job     : Nat := 0
  dest    : Nat := 0
  destLen : Nat := 0
  src     : Nat := 0
  srcLen  : Nat := 0
  heads   : Map Nat := []
  aborted : Bool := false
  deriving DecidableEq, Repr

/-- What the Solfatara domain keeps of the boot (R389, R400): whether its firmware runs, from which copy,
its image digest, factory test mode with the token's scope and digest, whether the Caldera firmware and the die
firmware were found valid at the last boot, the copies that booted last, and the firmware updates that hold a copy
open, with the bytes that they have written, keyed 2 × image type + copy; `solNew` says that an update of the
Solfatara firmware waits for the next full package reset (R423). -/
structure Boot where
  solOk     : Bool := true
  solB      : Bool := false
  solDigest : List Byte := []
  test      : Bool := false
  scope     : Nat := 0
  token     : List Byte := []
  dieOk     : Bool := true
  calOk     : Bool := true
  calB      : Bool := false
  dieB      : Bool := false
  updates   : Map Nat := []
  solNew    : Bool := false
  deriving DecidableEq, Repr

/-- Pins and supplies as the package sees them (R418, R427, R430). -/
structure Pins where
  straps   : Straps := ⟨0, 0, 0, 0, 0, false⟩
  sampled  : Bool := true
  perst    : Map Bool := []
  brakeLow : Bool := false
  vioOk    : Bool := true
  vauxOk   : Bool := true
  vin48On  : Bool := true
  ref0     : Bool := true
  ref1     : Bool := true
  slow     : Bool := true
  /-- TRST_N is low (R418) -/
  trstLow  : Bool := false
  deriving DecidableEq, Repr

/-- The state of the package. -/
structure State where
  /-- the commands that wait, first in, first out -/
  pending : List Instr := []
  /-- register fields, keyed by their bit address in BAR0; an unlisted one has its reset value -/
  regs    : Map Nat := []
  /-- stacked memory and die buffers by package-local address (R247) -/
  mem     : Map Byte := []
  /-- stores that wait for an edge on their path, oldest first (R17, R207) -/
  posted  : List Posted := []
  /-- sectors known to be in error (R180), keyed by sector address: 1 correctable, 2 uncorrectable -/
  errs    : Map Nat := []
  /-- errors that a reader has met by a sector read of its own, ahead of the access it belongs to -/
  seen    : List (Reader × Nat) := []
  /-- MEM_REPAIR.MODE as the last reset that trained stacks took it (R185) -/
  repairCur : Nat := 0
  /-- job window table (R165) and JW_CTL.REJ -/
  jw      : Map Jw := []
  jwRej   : Bool := false
  /-- pseudo-channels mapped out of their die and lobe domains, and of the package domain (R190) -/
  outDie  : List Nat := []
  outPkg  : List Nat := []
  pkgShut : Bool := false
  hot     : Map Nat := []
  bankNext : Map Nat := []
  census  : Map Nat := []
  dies    : Map DieSt := []
  tiles   : Map Tile := []
  queues  : Map (List Nat) := []
  served  : Map Nat := []
  /-- cluster groups that wake, keyed die × 11 + group, 1 + the microsecond of the demand, and the die whose turn it
  is (R380) -/
  waking  : Map Nat := []
  wakeTurn : Nat := 0
  edges   : Map EdgeSide := []
  oe      : Map Oe := []
  groups  : Map OptGroup := []
  planOf  : Map Nat := []
  jobs    : Map Job := []
  rtHdr   : Map Nat := []
  rtEnt   : Map Nat := []
  inject  : List Packet := []
  inbox   : List Packet := []
  /-- packets that have arrived on a port and have not entered the router -/
  arrived : List (Nat × Packet) := []
  outq    : List OutWait := []
  /-- codewords that have left on the ports -/
  tx      : List (Nat × Codeword) := []
  links   : Map Link := []
  sidestep : Map Nat := []
  nbrUp   : Map Nat := []
  ft      : FabTime := {}
  remote  : Remote := {}
  geysers : Map Geyser := []
  credits : List Credit := []
  cqs     : Map Cq := []
  /-- queue operations started so far (R353) -/
  starts  : Nat := 0
  grants  : List Grant := []
  rings   : Map Ring := []
  cports  : Map CPort := []
  msixTab : Map Nat := []
  /-- pending bits of masked vectors, keyed port × 2,048 + vector, 1 when set (R333) -/
  msixPend : Map Nat := []
  hostOut : List HostWrite := []
  /-- BAR4 reads that wait for a held channel, oldest first (R191) -/
  barWait : List BarReq := []
  msix    : List (Nat × Nat) := []
  resp    : Resp := .none
  /-- events raised and not yet taken by the aggregator; empty between commands -/
  due     : List Event := []
  log     : Map LogEntry := []
  logCap  : LogEntry := {}
  alertQ  : List AlertMsg := []
  /-- in-band interrupts raised on the management bus (R424) -/
  ibis    : Nat := 0
  resets  : List ActiveReset := []
  restarts : List Engine := []
  aborts  : List Abort := []
  /-- lobes that have come back while a job is active and stay idle until the last one ends (R23), by lobe -/
  lobeIdle : Map Nat := []
  heldPower : Option PowerReq := none
  enterPower : Option PowerReq := none
  shutoff : Option Shutoff := none
  limSteps : Nat := 0
  tests   : List Test := []
  nextTest : Nat := 0
  pairTest : PairTest := .idle
  mr      : Map (List Byte) := []
  bootId  : List Byte := List.replicate 8 0
  akSeed  : List Byte := List.replicate 32 0
  records : Map Record := []
  seg     : Option SegRun := none
  flash   : Map Byte := []
  boot    : Boot := {}
  eruptT  : Map Nat := []
  pairPol : Map Nat := []
  pins    : Pins := {}
  jtag    : Jtag := .bypass
  /-- the boundary-scan register (R426) -/
  boundary : Nat := 0
  /-- microseconds that have passed, and those of them counted as up and as down (R365) -/
  clock   : Nat := 0
  upTime  : Nat := 0
  downTime : Nat := 0
  /-- tremor counters by page slot (R334) -/
  tremor  : Map Tremor := []
  /-- size code of each function's BAR4, its base-2 logarithm less 20 (R320) -/
  bar4Size : Map Nat := []
  /-- counter of the free values used so far -/
  free    : Nat := 0
  deriving DecidableEq, Repr

/-- The machine right after reset: every register at the value its table's Reset column gives, no
memory listed, every engine idle, every queue empty. -/
def State.reset : State := {}

end Sys2Proof.Machine
end

