-- ==== Sys2Proof/Machine/RegTable.lean ====
section
/-!
DEFINITION. The register fields of the block-specific part of every page: offset, bits, access code
and reset value as the register tables of the chapters give them, and the fields of each page type.
-/

namespace Sys2Proof.Machine

/-- SET_MAJOR of ARITH_VER (die control page, offset 0x080) (R47). -/
def arithVerSetMajor : Fld := ⟨0x80, 24, 8, .ro, 3⟩
/-- SET_MINOR of ARITH_VER (die control page, offset 0x080) (R47). -/
def arithVerSetMinor : Fld := ⟨0x80, 16, 8, .ro, 0⟩
/-- FUNC_REV of ARITH_VER (die control page, offset 0x080) (R47). -/
def arithVerFuncRev : Fld := ⟨0x80, 8, 8, .ro, 1⟩
/-- MAX_K_LOG2 of MX_CAPS (die control page, offset 0x084) (R69). -/
def mxCapsMaxKLog2 : Fld := ⟨0x84, 24, 8, .ro, 26⟩
/-- MAX_SPAN_LOG2 of MX_CAPS (die control page, offset 0x084) (R69). -/
def mxCapsMaxSpanLog2 : Fld := ⟨0x84, 16, 8, .ro, 16⟩
/-- OPND_FMT_MASK of MX_CAPS (die control page, offset 0x084) (R69). -/
def mxCapsOpndFmtMask : Fld := ⟨0x84, 0, 16, .ro, 2046⟩
/-- CLEAR of CENSUS_CTL (die control page, offset 0x088) (R90). -/
def censusCtlClear : Fld := ⟨0x88, 1, 1, .wo, 0⟩
/-- SNAP of CENSUS_CTL (die control page, offset 0x088) (R90). -/
def censusCtlSnap : Fld := ⟨0x88, 0, 1, .wo, 0⟩
/-- BUSY of CENSUS_STATUS (die control page, offset 0x08C) (R90). -/
def censusStatusBusy : Fld := ⟨0x8c, 31, 1, .ro, 0⟩
/-- SAT of CENSUS_STATUS (die control page, offset 0x08C) (R90). -/
def censusStatusSat : Fld := ⟨0x8c, 30, 1, .w1c, 0⟩
/-- SKIPPED of CENSUS_STATUS (die control page, offset 0x08C) (R90). -/
def censusStatusSkipped : Fld := ⟨0x8c, 29, 1, .w1c, 0⟩
/-- SNAP_COUNT of CENSUS_STATUS (die control page, offset 0x08C) (R90). -/
def censusStatusSnapCount : Fld := ⟨0x8c, 0, 29, .ro, 0⟩
/-- ADDR_LO of CENSUS_BASE_LO (die control page, offset 0x090) (R90). -/
def censusBaseLo : Fld := ⟨0x90, 12, 20, .rw, 0⟩
/-- ADDR_HI of CENSUS_BASE_HI (die control page, offset 0x094) (R90). -/
def censusBaseHi : Fld := ⟨0x94, 0, 32, .rw, 0⟩
/-- COUNT of TA_IDX_CLAMP (die control page, offset 0x098) (R112). -/
def taIdxClamp : Fld := ⟨0x98, 0, 32, .rac, 0⟩
/-- COUNT of TA_WR_CLAMP (die control page, offset 0x09C) (R112). -/
def taWrClamp : Fld := ⟨0x9c, 0, 32, .rac, 0⟩
/-- RADIUS of STEAL_CTL (die control page, offset 0x0A0) (R124). -/
def stealCtl : Fld := ⟨0xa0, 0, 3, .rw, 2⟩
/-- PHYS3 of CLUSTER_MAPn, n 0–7 (die control page, offset 0x0C0 + 4n) (R129). -/
def clusterMapPhys3 (n : Nat) : Fld := ⟨0xc0 + 4 * n, 24, 6, .ro, 4 * n + 3⟩
/-- PHYS2 of CLUSTER_MAPn, n 0–7 (die control page, offset 0x0C0 + 4n) (R129). -/
def clusterMapPhys2 (n : Nat) : Fld := ⟨0xc0 + 4 * n, 16, 6, .ro, 4 * n + 2⟩
/-- PHYS1 of CLUSTER_MAPn, n 0–7 (die control page, offset 0x0C0 + 4n) (R129). -/
def clusterMapPhys1 (n : Nat) : Fld := ⟨0xc0 + 4 * n, 8, 6, .ro, 4 * n + 1⟩
/-- PHYS0 of CLUSTER_MAPn, n 0–7 (die control page, offset 0x0C0 + 4n) (R129). -/
def clusterMapPhys0 (n : Nat) : Fld := ⟨0xc0 + 4 * n, 0, 6, .ro, 4 * n + 0⟩
/-- ROT_STATE of SPARE_STATUS (die control page, offset 0x0A4) (R131). -/
def spareStatusRotState : Fld := ⟨0xa4, 30, 2, .ro, 0⟩
/-- SPARE of SPARE_STATUS (die control page, offset 0x0A4) (R131). -/
def spareStatusSpare : Fld := ⟨0xa4, 0, 6, .ro, 32⟩
/-- EN of ROTATE_CTL (die control page, offset 0x0A8) (R131). -/
def rotateCtlEn : Fld := ⟨0xa8, 31, 1, .rw, 1⟩
/-- PERIOD of ROTATE_CTL (die control page, offset 0x0A8) (R131). -/
def rotateCtlPeriod : Fld := ⟨0xa8, 0, 16, .rw, 600⟩
/-- FAILED of CLUSTER_FAILED_LO (die control page, offset 0x0B8) (R131). -/
def clusterFailedLo : Fld := ⟨0xb8, 0, 32, .ro, 0⟩
/-- FAILED32 of CLUSTER_FAILED_HI (die control page, offset 0x0BC) (R131). -/
def clusterFailedHi : Fld := ⟨0xbc, 0, 1, .ro, 0⟩
/-- COUNT of TASK_STOLEN (die control page, offset 0x0AC) (R134). -/
def taskStolen : Fld := ⟨0xac, 0, 32, .rac, 0⟩
/-- COUNT of BOX_DROP (die control page, offset 0x0B0) (R134). -/
def boxDrop : Fld := ⟨0xb0, 0, 32, .rac, 0⟩
/-- COUNT of TASK_HELD (die control page, offset 0x0B4) (R134). -/
def taskHeld : Fld := ⟨0xb4, 0, 32, .rac, 0⟩
/-- WINDOW of SEQ_CTL (training sequencer page, offset 0x080) (R159). -/
def seqCtlWindow : Fld := ⟨0x80, 8, 6, .rw, 4⟩
/-- PROMO_EN of SEQ_CTL (training sequencer page, offset 0x080) (R159). -/
def seqCtlPromoEn : Fld := ⟨0x80, 4, 1, .rw, 1⟩
/-- RECOMP_EN of SEQ_CTL (training sequencer page, offset 0x080) (R159). -/
def seqCtlRecompEn : Fld := ⟨0x80, 3, 1, .rw, 1⟩
/-- LOOP of SEQ_CTL (training sequencer page, offset 0x080) (R159). -/
def seqCtlLoop : Fld := ⟨0x80, 2, 1, .rw, 0⟩
/-- STOP of SEQ_CTL (training sequencer page, offset 0x080) (R159). -/
def seqCtlStop : Fld := ⟨0x80, 1, 1, .wo, 0⟩
/-- START of SEQ_CTL (training sequencer page, offset 0x080) (R159). -/
def seqCtlStart : Fld := ⟨0x80, 0, 1, .wo, 0⟩
/-- STATE of SEQ_STATUS (training sequencer page, offset 0x084) (R159). -/
def seqStatusState : Fld := ⟨0x84, 30, 2, .ro, 0⟩
/-- EVT_LOST of SEQ_STATUS (training sequencer page, offset 0x084) (R159). -/
def seqStatusEvtLost : Fld := ⟨0x84, 29, 1, .w1c, 0⟩
/-- RUNNING of SEQ_STATUS (training sequencer page, offset 0x084) (R159). -/
def seqStatusRunning : Fld := ⟨0x84, 16, 4, .ro, 0⟩
/-- OLDEST of SEQ_STATUS (training sequencer page, offset 0x084) (R159). -/
def seqStatusOldest : Fld := ⟨0x84, 0, 16, .ro, 0⟩
/-- ADDR_LO of SEQ_JOB_LO (training sequencer page, offset 0x088) (R159). -/
def seqJobLo : Fld := ⟨0x88, 6, 26, .rw, 0⟩
/-- ADDR_HI of SEQ_JOB_HI (training sequencer page, offset 0x08C) (R159). -/
def seqJobHi : Fld := ⟨0x8c, 0, 32, .rw, 0⟩
/-- STEP of SEQ_STEP (training sequencer page, offset 0x090) (R159). -/
def seqStep : Fld := ⟨0x90, 0, 32, .rw, 0⟩
/-- COUNT of PROMO_COUNT (training sequencer page, offset 0x094) (R159). -/
def promoCount : Fld := ⟨0x94, 0, 32, .rac, 0⟩
/-- NEXT of EVT_HEAD (training sequencer page, offset 0x098) (R159). -/
def evtHead : Fld := ⟨0x98, 0, 32, .ro, 0⟩
/-- ENTRY of JW_SEL (Solfatara controller page, offset 0x150) (R165). -/
def jwSel : Fld := ⟨0x150, 0, 8, .rw, 0⟩
/-- ADDR_LO of JW_BASE_LO (Solfatara controller page, offset 0x154) (R165). -/
def jwBaseLo : Fld := ⟨0x154, 16, 16, .rw, 0⟩
/-- ADDR_HI of JW_BASE_HI (Solfatara controller page, offset 0x158) (R165). -/
def jwBaseHi : Fld := ⟨0x158, 0, 16, .rw, 0⟩
/-- UNITS of JW_SIZE (Solfatara controller page, offset 0x15C) (R165). -/
def jwSize : Fld := ⟨0x15c, 0, 25, .rw, 0⟩
/-- VALID of JW_CTL (Solfatara controller page, offset 0x160) (R165). -/
def jwCtlValid : Fld := ⟨0x160, 31, 1, .rw, 0⟩
/-- REJ of JW_CTL (Solfatara controller page, offset 0x160) (R165). -/
def jwCtlRej : Fld := ⟨0x160, 30, 1, .ro, 0⟩
/-- JOB of JW_CTL (Solfatara controller page, offset 0x160) (R165). -/
def jwCtlJob : Fld := ⟨0x160, 0, 12, .rw, 0⟩
/-- CUR_PKG of MEM_SPLIT (Solfatara controller page, offset 0x0C0) (R177). -/
def memSplitCurPkg : Fld := ⟨0xc0, 24, 5, .ro, 8⟩
/-- CUR_LOBE of MEM_SPLIT (Solfatara controller page, offset 0x0C0) (R177). -/
def memSplitCurLobe : Fld := ⟨0xc0, 16, 5, .ro, 4⟩
/-- NEXT_LOBE of MEM_SPLIT (Solfatara controller page, offset 0x0C0) (R177). -/
def memSplitNextLobe : Fld := ⟨0xc0, 8, 5, .rw, 4⟩
/-- NEXT_PKG of MEM_SPLIT (Solfatara controller page, offset 0x0C0) (R177). -/
def memSplitNextPkg : Fld := ⟨0xc0, 0, 5, .rw, 8⟩
/-- BATCH of MEM_CTL (memory gateway page, offset 0x080) (R177). -/
def memCtlBatch : Fld := ⟨0x80, 8, 7, .rw, 32⟩
/-- NARROW_EN of MEM_CTL (memory gateway page, offset 0x080) (R177). -/
def memCtlNarrowEn : Fld := ⟨0x80, 0, 1, .rw, 1⟩
/-- LIVE_PKG of MEM_LIVE (memory gateway page, offset 0x084) (R177). -/
def memLiveLivePkg : Fld := ⟨0x84, 21, 11, .ro, 1024⟩
/-- LIVE_LOBE of MEM_LIVE (memory gateway page, offset 0x084) (R177). -/
def memLiveLiveLobe : Fld := ⟨0x84, 11, 10, .ro, 512⟩
/-- LIVE_DIE of MEM_LIVE (memory gateway page, offset 0x084) (R177). -/
def memLiveLiveDie : Fld := ⟨0x84, 0, 9, .ro, 256⟩
/-- DOMAIN of CHT_SEL (memory gateway page, offset 0x088) (R177). -/
def chtSelDomain : Fld := ⟨0x88, 12, 2, .rw, 0⟩
/-- INDEX of CHT_SEL (memory gateway page, offset 0x088) (R177). -/
def chtSelIndex : Fld := ⟨0x88, 0, 12, .rw, 0⟩
/-- INVALID of CHT_DATA (memory gateway page, offset 0x08C) (R177). -/
def chtDataInvalid : Fld := ⟨0x8c, 31, 1, .ro, 0⟩
/-- CHANNEL of CHT_DATA (memory gateway page, offset 0x08C) (R177). -/
def chtDataChannel : Fld := ⟨0x8c, 0, 10, .ro, 0⟩
/-- OUT of MAPOUTn, n 0–7 (memory gateway page, offset 0x0A0 + 4n) (R177). -/
def mapout (n : Nat) : Fld := ⟨0xa0 + 4 * n, 0, 32, .ro, 0⟩
/-- COUNT of TURN_COUNT (memory gateway page, offset 0x0C0) (R177). -/
def turnCount : Fld := ⟨0xc0, 0, 32, .rac, 0⟩
/-- QUEUED of MEM_REPAIR (Solfatara controller page, offset 0x0C4) (R192). -/
def memRepairQueued : Fld := ⟨0xc4, 12, 8, .ro, 0⟩
/-- SOFT_EN of MEM_REPAIR (Solfatara controller page, offset 0x0C4) (R192). -/
def memRepairSoftEn : Fld := ⟨0xc4, 1, 1, .rw, 1⟩
/-- MODE of MEM_REPAIR (Solfatara controller page, offset 0x0C4) (R192). -/
def memRepairMode : Fld := ⟨0xc4, 0, 1, .rw, 0⟩
/-- PENDING of MAPOUT_REQ (Solfatara controller page, offset 0x0C8) (R192). -/
def mapoutReqPending : Fld := ⟨0xc8, 31, 1, .rw, 0⟩
/-- CHANNEL of MAPOUT_REQ (Solfatara controller page, offset 0x0C8) (R192). -/
def mapoutReqChannel : Fld := ⟨0xc8, 0, 10, .rw, 0⟩
/-- COUNT of CE_COUNT (memory gateway page, offset 0x0D0) (R192). -/
def ceCount : Fld := ⟨0xd0, 0, 32, .rac, 0⟩
/-- COUNT of UE_COUNT (memory gateway page, offset 0x0D4) (R192). -/
def ueCount : Fld := ⟨0xd4, 0, 32, .rac, 0⟩
/-- COUNT of STACK_CE_COUNT (memory gateway page, offset 0x0D8) (R192). -/
def stackCeCount : Fld := ⟨0xd8, 0, 32, .rac, 0⟩
/-- ADDR_LO of ERR_ADDR_LO (memory gateway page, offset 0x0DC) (R192). -/
def errAddrLo : Fld := ⟨0xdc, 5, 27, .ro, 0⟩
/-- ADDR_HI of ERR_ADDR_HI (memory gateway page, offset 0x0E0) (R192). -/
def errAddrHi : Fld := ⟨0xe0, 0, 32, .ro, 0⟩
/-- VALID of ERR_INFO (memory gateway page, offset 0x0E4) (R192). -/
def errInfoValid : Fld := ⟨0xe4, 31, 1, .w1c, 0⟩
/-- KIND of ERR_INFO (memory gateway page, offset 0x0E4) (R192). -/
def errInfoKind : Fld := ⟨0xe4, 29, 2, .ro, 0⟩
/-- CB of ERR_INFO (memory gateway page, offset 0x0E4) (R192). -/
def errInfoCb : Fld := ⟨0xe4, 0, 26, .ro, 0⟩
/-- CHANNEL of ERR_CHAN (memory gateway page, offset 0x0E8) (R192). -/
def errChan : Fld := ⟨0xe8, 0, 10, .ro, 0⟩
/-- THRESH of CE_THRESH (memory gateway page, offset 0x0EC) (R192). -/
def ceThresh : Fld := ⟨0xec, 0, 8, .rw, 3⟩
/-- EN of SCRUB_CTL (memory gateway page, offset 0x0F0) (R192). -/
def scrubCtlEn : Fld := ⟨0xf0, 31, 1, .rw, 1⟩
/-- PERIOD of SCRUB_CTL (memory gateway page, offset 0x0F0) (R192). -/
def scrubCtlPeriod : Fld := ⟨0xf0, 0, 8, .rw, 24⟩
/-- ACTIVE of HOLD_STATUS (memory gateway page, offset 0x0F4) (R192). -/
def holdStatusActive : Fld := ⟨0xf4, 31, 1, .ro, 0⟩
/-- CHANNEL of HOLD_STATUS (memory gateway page, offset 0x0F4) (R192). -/
def holdStatusChannel : Fld := ⟨0xf4, 16, 10, .ro, 0⟩
/-- HOLDS of HOLD_STATUS (memory gateway page, offset 0x0F4) (R192). -/
def holdStatusHolds : Fld := ⟨0xf4, 0, 16, .rac, 0⟩
/-- STATE of EDGE_STATUS (edge set, offset +0x00) (R211). -/
def edgeStatusState (b : Nat) : Fld := ⟨b + 0x0, 29, 3, .ro, 0⟩
/-- BUNDLES_UP of EDGE_STATUS (edge set, offset +0x00) (R211). -/
def edgeStatusBundlesUp (b : Nat) : Fld := ⟨b + 0x0, 16, 6, .ro, 0⟩
/-- CTRL_UP of EDGE_STATUS (edge set, offset +0x00) (R211). -/
def edgeStatusCtrlUp (b : Nat) : Fld := ⟨b + 0x0, 8, 2, .ro, 0⟩
/-- HOLD_FULL of EDGE_STATUS (edge set, offset +0x00) (R211). -/
def edgeStatusHoldFull (b : Nat) : Fld := ⟨b + 0x0, 0, 1, .ro, 0⟩
/-- UP of BUNDLE_UP_LO (edge set, offset +0x04) (R211). -/
def bundleUpLo (b : Nat) : Fld := ⟨b + 0x4, 0, 32, .ro, 0⟩
/-- UP of BUNDLE_UP_HI (edge set, offset +0x08) (R211). -/
def bundleUpHi (b : Nat) : Fld := ⟨b + 0x8, 0, 8, .ro, 0⟩
/-- LAST of MAP_EPOCH (edge set, offset +0x0C) (R211). -/
def mapEpochLast (b : Nat) : Fld := ⟨b + 0xc, 30, 2, .ro, 0⟩
/-- EPOCH of MAP_EPOCH (edge set, offset +0x0C) (R211). -/
def mapEpochEpoch (b : Nat) : Fld := ⟨b + 0xc, 0, 16, .ro, 1⟩
/-- COUNT of CORR_COUNT (edge set, offset +0x10) (R211). -/
def corrCount (b : Nat) : Fld := ⟨b + 0x10, 0, 32, .rac, 0⟩
/-- COUNT of CTRL_RETRY (edge set, offset +0x14) (R211). -/
def ctrlRetry (b : Nat) : Fld := ⟨b + 0x14, 0, 32, .rac, 0⟩
/-- BUNDLE of LANE_SEL (edge set, offset +0x18) (R211). -/
def laneSel (b : Nat) : Fld := ⟨b + 0x18, 0, 6, .rw, 0⟩
/-- FUSED of LANE_DATA (edge set, offset +0x1C) (R211). -/
def laneDataFused (b : Nat) : Fld := ⟨b + 0x1c, 29, 3, .ro, 0⟩
/-- SPARES of LANE_DATA (edge set, offset +0x1C) (R211). -/
def laneDataSpares (b : Nat) : Fld := ⟨b + 0x1c, 26, 3, .ro, 0⟩
/-- MARGINAL of LANE_DATA (edge set, offset +0x1C) (R211). -/
def laneDataMarginal (b : Nat) : Fld := ⟨b + 0x1c, 25, 1, .ro, 0⟩
/-- FAIL_LANE of LANE_DATA (edge set, offset +0x1C) (R211). -/
def laneDataFailLane (b : Nat) : Fld := ⟨b + 0x1c, 10, 7, .ro, 127⟩
/-- LAST_CORR of LANE_DATA (edge set, offset +0x1C) (R211). -/
def laneDataLastCorr (b : Nat) : Fld := ⟨b + 0x1c, 0, 7, .ro, 127⟩
/-- SPARE_EN of LANE_CTL (edge set, offset +0x20) (R211). -/
def laneCtlSpareEn (b : Nat) : Fld := ⟨b + 0x20, 16, 1, .rw, 1⟩
/-- FAIL_THRESH of LANE_CTL (edge set, offset +0x20) (R211). -/
def laneCtlFailThresh (b : Nat) : Fld := ⟨b + 0x20, 0, 16, .rw, 1024⟩
/-- ADMIT of OE_STATUS (OE attach page, offset 0x080) (R211). -/
def oeStatusAdmit : Fld := ⟨0x80, 29, 3, .ro, 0⟩
/-- REASON of OE_STATUS (OE attach page, offset 0x080) (R211). -/
def oeStatusReason : Fld := ⟨0x80, 24, 5, .ro, 0⟩
/-- MOD_UP of OE_STATUS (OE attach page, offset 0x080) (R211). -/
def oeStatusModUp : Fld := ⟨0x80, 8, 4, .ro, 0⟩
/-- MOD_16GT of OE_STATUS (OE attach page, offset 0x080) (R211). -/
def oeStatusMod16gt : Fld := ⟨0x80, 4, 4, .ro, 0⟩
/-- KEY_ID of OE_STATUS (OE attach page, offset 0x080) (R211). -/
def oeStatusKeyId : Fld := ⟨0x80, 0, 2, .ro, 0⟩
/-- RETRY of OE_CTL (OE attach page, offset 0x084) (R211). -/
def oeCtl : Fld := ⟨0x84, 0, 1, .wo, 0⟩
/-- PLAN of OPT_PLAN (Solfatara controller page, offset 0x0E0) (R224). -/
def optPlanPlan : Fld := ⟨0xe0, 29, 3, .ro, 0⟩
/-- FLASH_OK of OPT_PLAN (Solfatara controller page, offset 0x0E0) (R224). -/
def optPlanFlashOk : Fld := ⟨0xe0, 28, 1, .ro, 0⟩
/-- DARK_CUR of OPT_PLAN (Solfatara controller page, offset 0x0E0) (R224). -/
def optPlanDarkCur : Fld := ⟨0xe0, 8, 6, .ro, 0⟩
/-- DARK of OPT_PLAN (Solfatara controller page, offset 0x0E0) (R224). -/
def optPlanDark : Fld := ⟨0xe0, 0, 6, .rw, 0⟩
/-- COUNTn of PORT_GROUPS (Solfatara controller page, offset 0x0E4) (R224). -/
def portGroups : Fld := ⟨0xe4, 0, 30, .ro, 0⟩
/-- STATE of GROUP_STATUSm, m 0–3 (OE attach page, offset 0x088 + 4m) (R224). -/
def groupStatusState (n : Nat) : Fld := ⟨0x88 + 4 * n, 29, 3, .ro, 0⟩
/-- WIDTH of GROUP_STATUSm, m 0–3 (OE attach page, offset 0x088 + 4m) (R224). -/
def groupStatusWidth (n : Nat) : Fld := ⟨0x88 + 4 * n, 25, 4, .ro, 0⟩
/-- FUM of GROUP_STATUSm, m 0–3 (OE attach page, offset 0x088 + 4m) (R224). -/
def groupStatusFum (n : Nat) : Fld := ⟨0x88 + 4 * n, 24, 1, .ro, 0⟩
/-- TX_LANES of GROUP_STATUSm, m 0–3 (OE attach page, offset 0x088 + 4m) (R224). -/
def groupStatusTxLanes (n : Nat) : Fld := ⟨0x88 + 4 * n, 16, 8, .ro, 0⟩
/-- RX_LANES of GROUP_STATUSm, m 0–3 (OE attach page, offset 0x088 + 4m) (R224). -/
def groupStatusRxLanes (n : Nat) : Fld := ⟨0x88 + 4 * n, 8, 8, .ro, 0⟩
/-- RETRAINS of GROUP_STATUSm, m 0–3 (OE attach page, offset 0x088 + 4m) (R224). -/
def groupStatusRetrains (n : Nat) : Fld := ⟨0x88 + 4 * n, 0, 8, .ro, 0⟩
/-- POWk of LASER_MONf, f 0–1 (OE attach page, offset 0x098 + 4f) (R224). -/
def laserMon (n : Nat) : Fld := ⟨0x98 + 4 * n, 0, 32, .ro, 0⟩
/-- LANE of RX_PWR_SEL (OE attach page, offset 0x0A0) (R224). -/
def rxPwrSel : Fld := ⟨0xa0, 0, 5, .rw, 0⟩
/-- LOCK of RX_PWR_DATA (OE attach page, offset 0x0A4) (R224). -/
def rxPwrDataLock : Fld := ⟨0xa4, 31, 1, .ro, 0⟩
/-- POWER of RX_PWR_DATA (OE attach page, offset 0x0A4) (R224). -/
def rxPwrDataPower : Fld := ⟨0xa4, 0, 8, .ro, 128⟩
/-- SLOT of FAB_POS (router page, offset 0x080) (R253). -/
def fabPosSlot : Fld := ⟨0x80, 24, 5, .ro, 0⟩
/-- SHAPE of FAB_POS (router page, offset 0x080) (R253). -/
def fabPosShape : Fld := ⟨0x80, 22, 2, .ro, 0⟩
/-- X of FAB_POS (router page, offset 0x080) (R253). -/
def fabPosX : Fld := ⟨0x80, 16, 6, .ro, 0⟩
/-- Y of FAB_POS (router page, offset 0x080) (R253). -/
def fabPosY : Fld := ⟨0x80, 10, 6, .ro, 0⟩
/-- Z of FAB_POS (router page, offset 0x080) (R253). -/
def fabPosZ : Fld := ⟨0x80, 2, 4, .ro, 0⟩
/-- MISWIRE of PORT_STATE (router page, offset 0x084) (R253). -/
def portStateMiswire : Fld := ⟨0x84, 24, 6, .ro, 0⟩
/-- DETOUR_OK of PORT_STATE (router page, offset 0x084) (R253). -/
def portStateDetourOk : Fld := ⟨0x84, 18, 6, .ro, 0⟩
/-- DOWN of PORT_STATE (router page, offset 0x084) (R253). -/
def portStateDown : Fld := ⟨0x84, 12, 6, .ro, 0⟩
/-- UP of PORT_STATE (router page, offset 0x084) (R253). -/
def portStateUp : Fld := ⟨0x84, 6, 6, .ro, 0⟩
/-- DARK of PORT_STATE (router page, offset 0x084) (R253). -/
def portStateDark : Fld := ⟨0x84, 0, 6, .ro, 0⟩
/-- JOB of JOB_SEL (router page, offset 0x088) (R253). -/
def jobSel : Fld := ⟨0x88, 0, 12, .rw, 0⟩
/-- MEMBER of JOB_DATA (router page, offset 0x08C) (R253). -/
def jobDataMember : Fld := ⟨0x8c, 31, 1, .rw, 0⟩
/-- TRANSIT of JOB_DATA (router page, offset 0x08C) (R253). -/
def jobDataTransit : Fld := ⟨0x8c, 30, 1, .rw, 0⟩
/-- STATE of JOB_DATA (router page, offset 0x08C) (R253). -/
def jobDataState : Fld := ⟨0x8c, 28, 2, .rw, 0⟩
/-- EPOCH of JOB_DATA (router page, offset 0x08C) (R253). -/
def jobDataEpoch : Fld := ⟨0x8c, 0, 8, .rw, 0⟩
/-- TABLE of RT_SEL (router page, offset 0x090) (R253). -/
def rtSelTable : Fld := ⟨0x90, 26, 6, .rw, 0⟩
/-- HDR of RT_SEL (router page, offset 0x090) (R253). -/
def rtSelHdr : Fld := ⟨0x90, 15, 1, .rw, 0⟩
/-- INDEX of RT_SEL (router page, offset 0x090) (R253). -/
def rtSelIndex : Fld := ⟨0x90, 0, 15, .rw, 0⟩
/-- DATA of RT_DATA (router page, offset 0x094) (R253). -/
def rtData : Fld := ⟨0x94, 0, 32, .rw, 0⟩
/-- COUNT of DISC_TRANSIT, DISC_STALE, DISC_ROUTE, DISC_MALF (router page, offsets 0x098, 0x09C, 0x0A0, 0x0A4) (R253). -/
def discTransit : Fld := ⟨0x98, 0, 32, .rac, 0⟩
/-- COUNT of DISC_TRANSIT, DISC_STALE, DISC_ROUTE, DISC_MALF (router page, offsets 0x098, 0x09C, 0x0A0, 0x0A4) (R253). -/
def discStale : Fld := ⟨0x9c, 0, 32, .rac, 0⟩
/-- COUNT of DISC_TRANSIT, DISC_STALE, DISC_ROUTE, DISC_MALF (router page, offsets 0x098, 0x09C, 0x0A0, 0x0A4) (R253). -/
def discRoute : Fld := ⟨0xa0, 0, 32, .rac, 0⟩
/-- COUNT of DISC_TRANSIT, DISC_STALE, DISC_ROUTE, DISC_MALF (router page, offsets 0x098, 0x09C, 0x0A0, 0x0A4) (R253). -/
def discMalf : Fld := ⟨0xa4, 0, 32, .rac, 0⟩
/-- CAND of FT_CTL (router page, offset 0x0A8) (R253). -/
def ftCtl : Fld := ⟨0xa8, 0, 1, .rw, 1⟩
/-- SYNC of FT_STATUS (router page, offset 0x0AC) (R253). -/
def ftStatusSync : Fld := ⟨0xac, 31, 1, .ro, 0⟩
/-- HOLDOVER of FT_STATUS (router page, offset 0x0AC) (R253). -/
def ftStatusHoldover : Fld := ⟨0xac, 30, 1, .ro, 0⟩
/-- MASTER of FT_STATUS (router page, offset 0x0AC) (R253). -/
def ftStatusMaster : Fld := ⟨0xac, 29, 1, .ro, 0⟩
/-- HOPS of FT_STATUS (router page, offset 0x0AC) (R253). -/
def ftStatusHops : Fld := ⟨0xac, 16, 8, .ro, 0⟩
/-- MASTER_IDX of FT_STATUS (router page, offset 0x0AC) (R253). -/
def ftStatusMasterIdx : Fld := ⟨0xac, 0, 16, .ro, 0⟩
/-- TIME_LO of FT_LO (router page, offset 0x0B0) (R253). -/
def ftLo : Fld := ⟨0xb0, 0, 32, .ro, 0⟩
/-- TIME_HI of FT_HI (router page, offset 0x0B4) (R253). -/
def ftHi : Fld := ⟨0xb4, 0, 32, .ro, 0⟩
/-- UNASSIGNED of GEY_SLOTS (Geyser page, offset 0x080) (R268). -/
def geySlotsUnassigned : Fld := ⟨0x80, 15, 15, .ro, 24576⟩
/-- RESERVED of GEY_SLOTS (Geyser page, offset 0x080) (R268). -/
def geySlotsReserved : Fld := ⟨0x80, 0, 15, .ro, 0⟩
/-- GROUP of GQ_SEL (Geyser page, offset 0x084) (R268). -/
def gqSelGroup : Fld := ⟨0x84, 12, 10, .rw, 0⟩
/-- JOB of GQ_SEL (Geyser page, offset 0x084) (R268). -/
def gqSelJob : Fld := ⟨0x84, 0, 12, .rw, 0⟩
/-- REJ of GQ_DATA (Geyser page, offset 0x088) (R268). -/
def gqDataRej : Fld := ⟨0x88, 31, 1, .ro, 0⟩
/-- HELD of GQ_DATA (Geyser page, offset 0x088) (R268). -/
def gqDataHeld : Fld := ⟨0x88, 15, 15, .ro, 0⟩
/-- QUOTA of GQ_DATA (Geyser page, offset 0x088) (R268). -/
def gqDataQuota : Fld := ⟨0x88, 0, 15, .rw, 0⟩
/-- COUNT of COMBINE_COUNT (Geyser page, offset 0x08C) (R268). -/
def combineCount : Fld := ⟨0x8c, 0, 32, .rac, 0⟩
/-- COUNT of SPECIAL_COUNT (Geyser page, offset 0x090) (R268). -/
def specialCount : Fld := ⟨0x90, 0, 32, .rac, 0⟩
/-- VALID of GEY_ERR_INFO (Geyser page, offset 0x094) (R268). -/
def geyErrInfoValid : Fld := ⟨0x94, 31, 1, .w1c, 0⟩
/-- KIND of GEY_ERR_INFO (Geyser page, offset 0x094) (R268). -/
def geyErrInfoKind : Fld := ⟨0x94, 28, 3, .ro, 0⟩
/-- GROUP of GEY_ERR_INFO (Geyser page, offset 0x094) (R268). -/
def geyErrInfoGroup : Fld := ⟨0x94, 12, 10, .ro, 0⟩
/-- JOB of GEY_ERR_INFO (Geyser page, offset 0x094) (R268). -/
def geyErrInfoJob : Fld := ⟨0x94, 0, 12, .ro, 0⟩
/-- BUCKET of GEY_ERR_KEY (Geyser page, offset 0x098) (R268). -/
def geyErrKeyBucket : Fld := ⟨0x98, 16, 16, .ro, 0⟩
/-- NODE of GEY_ERR_KEY (Geyser page, offset 0x098) (R268). -/
def geyErrKeyNode : Fld := ⟨0x98, 0, 16, .ro, 0⟩
/-- QUEUE of Q_SEL (collective engine page, offset 0x080) (R286). -/
def qSel : Fld := ⟨0x80, 0, 5, .rw, 0⟩
/-- EN of Q_CFG (collective engine page, offset 0x084) (R286). -/
def qCfgEn : Fld := ⟨0x84, 31, 1, .rw, 0⟩
/-- ORDER of Q_CFG (collective engine page, offset 0x084) (R286). -/
def qCfgOrder : Fld := ⟨0x84, 30, 1, .rw, 0⟩
/-- FANIN_LOG2 of Q_CFG (collective engine page, offset 0x084) (R286). -/
def qCfgFaninLog2 : Fld := ⟨0x84, 27, 3, .rw, 1⟩
/-- TREES of Q_CFG (collective engine page, offset 0x084) (R286). -/
def qCfgTrees : Fld := ⟨0x84, 23, 4, .rw, 1⟩
/-- GROUP of Q_CFG (collective engine page, offset 0x084) (R286). -/
def qCfgGroup : Fld := ⟨0x84, 13, 10, .rw, 0⟩
/-- JOB of Q_CFG (collective engine page, offset 0x084) (R286). -/
def qCfgJob : Fld := ⟨0x84, 0, 12, .rw, 0⟩
/-- MEMBERS of Q_MEMBERS (collective engine page, offset 0x088) (R286). -/
def qMembers : Fld := ⟨0x88, 0, 16, .rw, 1⟩
/-- RTt of Q_RT_LO (collective engine page, offset 0x08C) (R286). -/
def qRtLo : Fld := ⟨0x8c, 0, 30, .rw, 0⟩
/-- RTt of Q_RT_HI (collective engine page, offset 0x090) (R286). -/
def qRtHi : Fld := ⟨0x90, 0, 18, .rw, 0⟩
/-- STATE of Q_STATUS (collective engine page, offset 0x094) (R286). -/
def qStatusState : Fld := ⟨0x94, 30, 2, .ro, 0⟩
/-- REASON of Q_STATUS (collective engine page, offset 0x094) (R286). -/
def qStatusReason : Fld := ⟨0x94, 25, 5, .ro, 0⟩
/-- INFLIGHT of Q_STATUS (collective engine page, offset 0x094) (R286). -/
def qStatusInflight : Fld := ⟨0x94, 20, 5, .ro, 0⟩
/-- RANK of Q_STATUS (collective engine page, offset 0x094) (R286). -/
def qStatusRank : Fld := ⟨0x94, 0, 15, .ro, 0⟩
/-- COUNT of Q_RECV_DONEd, d 0–3 (collective engine page, offset 0x098 + 4d) (R286). -/
def qRecvDone (n : Nat) : Fld := ⟨0x98 + 4 * n, 0, 32, .ro, 0⟩
/-- COUNT of COLL_DISC (collective engine page, offset 0x0A8) (R286). -/
def collDisc : Fld := ⟨0xa8, 0, 32, .rac, 0⟩
/-- REJECTED of LOBE_MODE (Solfatara controller page, offset 0x0A0) (R316). -/
def lobeModeRejected : Fld := ⟨0xa0, 24, 8, .rac, 0⟩
/-- CUR of LOBE_MODE (Solfatara controller page, offset 0x0A0) (R316). -/
def lobeModeCur : Fld := ⟨0xa0, 8, 2, .ro, 0⟩
/-- FENCED_E of LOBE_MODE (Solfatara controller page, offset 0x0A0) (R316). -/
def lobeModeFencedE : Fld := ⟨0xa0, 7, 1, .ro, 0⟩
/-- FENCED_W of LOBE_MODE (Solfatara controller page, offset 0x0A0) (R316). -/
def lobeModeFencedW : Fld := ⟨0xa0, 6, 1, .ro, 0⟩
/-- PRIMARY of LOBE_MODE (Solfatara controller page, offset 0x0A0) (R316). -/
def lobeModePrimary : Fld := ⟨0xa0, 4, 1, .ro, 0⟩
/-- MODE of LOBE_MODE (Solfatara controller page, offset 0x0A0) (R316). -/
def lobeModeMode : Fld := ⟨0xa0, 0, 1, .rw, 0⟩
/-- KEY of PAIR_KEYn, n 0–3 (Solfatara controller page, offset 0x0A4 + 4n) (R316). -/
def pairKey (n : Nat) : Fld := ⟨0xa4 + 4 * n, 0, 32, .rw, 0⟩
/-- JOB of PAIR_SEL (Solfatara controller page, offset 0x0B4) (R316). -/
def pairSel : Fld := ⟨0xb4, 0, 12, .rw, 0⟩
/-- CONTINUE of PAIR_POL (Solfatara controller page, offset 0x0B8) (R316). -/
def pairPol : Fld := ⟨0xb8, 0, 1, .rw, 0⟩
/-- CLR of DIG_CTL (training sequencer page, offset 0x0A0) (R316). -/
def digCtlClr : Fld := ⟨0xa0, 1, 1, .wo, 0⟩
/-- DIG_EN of DIG_CTL (training sequencer page, offset 0x0A0) (R316). -/
def digCtlDigEn : Fld := ⟨0xa0, 0, 1, .rw, 0⟩
/-- DIG of RUN_DIGn, n 0–3 (training sequencer page, offset 0x0A4 + 4n) (R316). -/
def runDig (n : Nat) : Fld := ⟨0xa4 + 4 * n, 0, 32, .ro, 0⟩
/-- PHASE of PAIR_LAST (training sequencer page, offset 0x0B4) (R316). -/
def pairLastPhase : Fld := ⟨0xb4, 16, 16, .ro, 0⟩
/-- OUTCOME of PAIR_LAST (training sequencer page, offset 0x0B4) (R316). -/
def pairLastOutcome : Fld := ⟨0xb4, 0, 2, .ro, 0⟩
/-- COUNT of PAIR_TRANSIENT (training sequencer page, offset 0x0B8) (R316). -/
def pairTransient : Fld := ⟨0xb8, 0, 32, .rac, 0⟩
/-- SPEED of HI_LINK (host interface page, offset 0x080) (R332). -/
def hiLinkSpeed : Fld := ⟨0x80, 6, 2, .ro, 0⟩
/-- FLIT of HI_LINK (host interface page, offset 0x080) (R332). -/
def hiLinkFlit : Fld := ⟨0x80, 5, 1, .ro, 0⟩
/-- WIDTH of HI_LINK (host interface page, offset 0x080) (R332). -/
def hiLinkWidth : Fld := ⟨0x80, 0, 5, .ro, 0⟩
/-- RING of RING_SEL (host interface page, offset 0x084) (R332). -/
def ringSel : Fld := ⟨0x84, 0, 6, .rw, 0⟩
/-- ADDR_LO of RING_BASE_LO (host interface page, offset 0x088) (R332). -/
def ringBaseLo : Fld := ⟨0x88, 12, 20, .rw, 0⟩
/-- ADDR_HI of RING_BASE_HI (host interface page, offset 0x08C) (R332). -/
def ringBaseHi : Fld := ⟨0x8c, 0, 32, .rw, 0⟩
/-- EN of RING_CFG (host interface page, offset 0x090) (R332). -/
def ringCfgEn : Fld := ⟨0x90, 31, 1, .rw, 0⟩
/-- SIZE_LOG2 of RING_CFG (host interface page, offset 0x090) (R332). -/
def ringCfgSizeLog2 : Fld := ⟨0x90, 27, 4, .rw, 8⟩
/-- VECTOR of RING_CFG (host interface page, offset 0x090) (R332). -/
def ringCfgVector : Fld := ⟨0x90, 16, 11, .rw, 0⟩
/-- IRQ_EN of RING_CFG (host interface page, offset 0x090) (R332). -/
def ringCfgIrqEn : Fld := ⟨0x90, 15, 1, .rw, 0⟩
/-- HOLDOFF of RING_CFG (host interface page, offset 0x090) (R332). -/
def ringCfgHoldoff : Fld := ⟨0x90, 0, 8, .rw, 0⟩
/-- HEAD of RING_HEAD (host interface page, offset 0x094) (R332). -/
def ringHead : Fld := ⟨0x94, 0, 16, .rw, 0⟩
/-- TAIL of RING_TAIL (host interface page, offset 0x098) (R332). -/
def ringTail : Fld := ⟨0x98, 0, 16, .ro, 0⟩
/-- PORT of PORT_SEL (host interface page, offset 0x09C) (R332). -/
def portSel : Fld := ⟨0x9c, 0, 8, .rw, 0⟩
/-- EN of PORT_CFG (host interface page, offset 0x0A0) (R332). -/
def portCfgEn : Fld := ⟨0xa0, 31, 1, .rw, 0⟩
/-- KIND of PORT_CFG (host interface page, offset 0x0A0) (R332). -/
def portCfgKind : Fld := ⟨0xa0, 30, 1, .rw, 0⟩
/-- QUEUE of PORT_CFG (host interface page, offset 0x0A0) (R332). -/
def portCfgQueue : Fld := ⟨0xa0, 24, 6, .rw, 0⟩
/-- RING of PORT_CFG (host interface page, offset 0x0A0) (R332). -/
def portCfgRing : Fld := ⟨0xa0, 18, 6, .rw, 0⟩
/-- OUTSTANDING of PORT_CFG (host interface page, offset 0x0A0) (R332). -/
def portCfgOutstanding : Fld := ⟨0xa0, 0, 7, .ro, 0⟩
/-- ADDR_LO of BAR4_WIN_LO (host interface page, offset 0x0A4) (R332). -/
def bar4WinLo : Fld := ⟨0xa4, 30, 2, .rw, 0⟩
/-- ADDR_HI of BAR4_WIN_HI (host interface page, offset 0x0A8) (R332). -/
def bar4WinHi : Fld := ⟨0xa8, 0, 17, .rw, 0⟩
/-- JOB of BAR4_JOB (host interface page, offset 0x0AC) (R332). -/
def bar4Job : Fld := ⟨0xac, 0, 12, .rw, 0⟩
/-- VALID of HI_ERR (host interface page, offset 0x0B0) (R332). -/
def hiErrValid : Fld := ⟨0xb0, 31, 1, .w1c, 0⟩
/-- STATUS of HI_ERR (host interface page, offset 0x0B0) (R332). -/
def hiErrStatus : Fld := ⟨0xb0, 24, 7, .ro, 0⟩
/-- OFFSET of HI_ERR (host interface page, offset 0x0B0) (R332). -/
def hiErrOffset : Fld := ⟨0xb0, 0, 24, .ro, 0⟩
/-- COUNT of REG_DROP (Solfatara controller page, offset 0x100) (R342). -/
def regDrop : Fld := ⟨0x100, 0, 32, .rac, 0⟩
/-- OFFSET of REG_DROP_ADDR (Solfatara controller page, offset 0x104) (R342). -/
def regDropAddrOffset : Fld := ⟨0x104, 2, 24, .ro, 0⟩
/-- SOURCE of REG_DROP_ADDR (Solfatara controller page, offset 0x104) (R342). -/
def regDropAddrSource : Fld := ⟨0x104, 0, 2, .ro, 0⟩
/-- QUIET_EN of FA_CTL (fault aggregator page, offset 0x080) (R352). -/
def faCtlQuietEn : Fld := ⟨0x80, 4, 1, .rw, 1⟩
/-- FN_THRESH of FA_CTL (fault aggregator page, offset 0x080) (R352). -/
def faCtlFnThresh : Fld := ⟨0x80, 0, 4, .rw, 2⟩
/-- SECONDS of FAULT_QUIET (fault aggregator page, offset 0x084) (R352). -/
def faultQuiet : Fld := ⟨0x84, 0, 12, .rw, 10⟩
/-- COUNT of RECOVERY_COUNT (fault aggregator page, offset 0x088) (R352). -/
def recoveryCount : Fld := ⟨0x88, 0, 32, .ro, 0⟩
/-- CLEAR of CLASS_ACTn, n 0–4 (fault aggregator page, offset 0x090 + 4n) (R352). -/
def classActClear (n : Nat) : Fld := ⟨0x90 + 4 * n, 5, 1, .rw, if n < 3 then 1 else 0⟩
/-- RESET of CLASS_ACTn, n 0–4 (fault aggregator page, offset 0x090 + 4n) (R352). -/
def classActReset (n : Nat) : Fld := ⟨0x90 + 4 * n, 4, 1, .rw, if n = 4 then 1 else 0⟩
/-- FENCE of CLASS_ACTn, n 0–4 (fault aggregator page, offset 0x090 + 4n) (R352). -/
def classActFence (n : Nat) : Fld := ⟨0x90 + 4 * n, 3, 1, .rw, if n = 3 then 1 else 0⟩
/-- ABORT of CLASS_ACTn, n 0–4 (fault aggregator page, offset 0x090 + 4n) (R352). -/
def classActAbort (n : Nat) : Fld := ⟨0x90 + 4 * n, 2, 1, .rw, if n = 2 then 1 else 0⟩
/-- ALERT of CLASS_ACTn, n 0–4 (fault aggregator page, offset 0x090 + 4n) (R352). -/
def classActAlert (n : Nat) : Fld := ⟨0x90 + 4 * n, 1, 1, .rw, if n = 0 then 0 else 1⟩
/-- LOG of CLASS_ACTn, n 0–4 (fault aggregator page, offset 0x090 + 4n) (R352). -/
def classActLog (n : Nat) : Fld := ⟨0x90 + 4 * n, 0, 1, .rw, if n = 0 then 0 else 1⟩
/-- COUNT of CLASS_COUNTn, n 0–4 (fault aggregator page, offset 0x0A4 + 4n) (R352). -/
def classCount (n : Nat) : Fld := ⟨0xa4 + 4 * n, 0, 32, .rac, 0⟩
/-- FAULT_N of FAULT_SUMMARY (fault aggregator page, offset 0x0B8) (R352). -/
def faultSummaryFaultN : Fld := ⟨0xb8, 31, 1, .ro, 0⟩
/-- CLASSES of FAULT_SUMMARY (fault aggregator page, offset 0x0B8) (R352). -/
def faultSummaryClasses : Fld := ⟨0xb8, 14, 5, .ro, 0⟩
/-- FIRST_SLOT of FAULT_SUMMARY (fault aggregator page, offset 0x0B8) (R352). -/
def faultSummaryFirstSlot : Fld := ⟨0xb8, 0, 14, .ro, 0⟩
/-- GO of INJECT (fault aggregator page, offset 0x0BC) (R352). -/
def injectGo : Fld := ⟨0xbc, 31, 1, .wo, 0⟩
/-- SOURCE of INJECT (fault aggregator page, offset 0x0BC) (R352). -/
def injectSource : Fld := ⟨0xbc, 26, 4, .rw, 0⟩
/-- JOB of INJECT (fault aggregator page, offset 0x0BC) (R352). -/
def injectJob : Fld := ⟨0xbc, 14, 12, .rw, 0⟩
/-- SLOT of INJECT (fault aggregator page, offset 0x0BC) (R352). -/
def injectSlot : Fld := ⟨0xbc, 0, 14, .rw, 0⟩
/-- NEXT of LOG_STATUS (fault log page, offset 0x080) (R352). -/
def logStatus : Fld := ⟨0x80, 0, 32, .ro, 0⟩
/-- INDEX of LOG_SEL (fault log page, offset 0x084) (R352). -/
def logSel : Fld := ⟨0x84, 0, 32, .rw, 0⟩
/-- DATA of LOG_DATAn, n 0–7 (fault log page, offset 0x088 + 4n) (R352). -/
def logData (n : Nat) : Fld := ⟨0x88 + 4 * n, 0, 32, .ro, 0⟩
/-- RERUN_MAX of HE_CTL (hang engine page, offset 0x080) (R365). -/
def heCtl : Fld := ⟨0x80, 0, 3, .rw, 1⟩
/-- SKIPPED of SAMPLE_CTL (hang engine page, offset 0x084) (R365). -/
def sampleCtlSkipped : Fld := ⟨0x84, 4, 4, .w1c, 0⟩
/-- EN of SAMPLE_CTL (hang engine page, offset 0x084) (R365). -/
def sampleCtlEn : Fld := ⟨0x84, 0, 4, .rw, 0⟩
/-- ADDR_LO of SAMPLE_BASE_LOd, d 0–3 (hang engine page, offset 0x090 + 8d) (R365). -/
def sampleBaseLo (n : Nat) : Fld := ⟨0x90 + 8 * n, 16, 16, .rw, 0⟩
/-- ADDR_HI of SAMPLE_BASE_HId, d 0–3 (hang engine page, offset 0x094 + 8d) (R365). -/
def sampleBaseHi (n : Nat) : Fld := ⟨0x94 + 8 * n, 0, 32, .rw, 0⟩
/-- COUNT of SAMPLE_COUNT (hang engine page, offset 0x0B0) (R365). -/
def sampleCount : Fld := ⟨0xb0, 0, 32, .rac, 0⟩
/-- TARGET of ERUPT_SEL (hang engine page, offset 0x0B4) (R365). -/
def eruptSelTarget : Fld := ⟨0xb4, 12, 3, .rw, 0⟩
/-- JOB of ERUPT_SEL (hang engine page, offset 0x0B4) (R365). -/
def eruptSelJob : Fld := ⟨0xb4, 0, 12, .rw, 0⟩
/-- VALID of ERUPT_DATA (hang engine page, offset 0x0B8) (R365). -/
def eruptDataValid : Fld := ⟨0xb8, 31, 1, .rw, 0⟩
/-- POS of ERUPT_DATA (hang engine page, offset 0x0B8) (R365). -/
def eruptDataPos : Fld := ⟨0xb8, 0, 16, .rw, 0⟩
/-- COUNT of ERUPT_SENT (hang engine page, offset 0x0BC) (R365). -/
def eruptSent : Fld := ⟨0xbc, 0, 32, .rac, 0⟩
/-- GO of RESET_REQ (Solfatara controller page, offset 0x110) (R365). -/
def resetReqGo : Fld := ⟨0x110, 31, 1, .wo, 0⟩
/-- LEVEL of RESET_REQ (Solfatara controller page, offset 0x110) (R365). -/
def resetReqLevel : Fld := ⟨0x110, 4, 3, .rw, 4⟩
/-- TARGET of RESET_REQ (Solfatara controller page, offset 0x110) (R365). -/
def resetReqTarget : Fld := ⟨0x110, 0, 2, .rw, 0⟩
/-- LAST_LEVEL of RESET_STATUS (Solfatara controller page, offset 0x114) (R365). -/
def resetStatusLastLevel : Fld := ⟨0x114, 29, 3, .ro, 7⟩
/-- IN_PROGRESS of RESET_STATUS (Solfatara controller page, offset 0x114) (R365). -/
def resetStatusInProgress : Fld := ⟨0x114, 28, 1, .ro, 0⟩
/-- HELD of RESET_STATUS (Solfatara controller page, offset 0x114) (R365). -/
def resetStatusHeld : Fld := ⟨0x114, 27, 1, .ro, 0⟩
/-- ESCALATED of RESET_STATUS (Solfatara controller page, offset 0x114) (R365). -/
def resetStatusEscalated : Fld := ⟨0x114, 26, 1, .ro, 0⟩
/-- COUNT of RESET_COUNTn, n 0–5 (Solfatara controller page, offset 0x118 + 4n) (R365). -/
def resetCount (n : Nat) : Fld := ⟨0x118 + 4 * n, 0, 32, .ro, 0⟩
/-- SECONDS of AVAIL_UP (Solfatara controller page, offset 0x130) (R365). -/
def availUp : Fld := ⟨0x130, 0, 32, .ro, 0⟩
/-- MS of AVAIL_DOWN (Solfatara controller page, offset 0x134) (R365). -/
def availDown : Fld := ⟨0x134, 0, 32, .ro, 0⟩
/-- QUEUED of ST_STATUS (self-test controller page, offset 0x080) (R373). -/
def stStatusQueued : Fld := ⟨0x80, 24, 8, .ro, 0⟩
/-- RUNNING of ST_STATUS (self-test controller page, offset 0x080) (R373). -/
def stStatusRunning : Fld := ⟨0x80, 16, 8, .ro, 0⟩
/-- COUNT of ONLINE_PASSESd, d 0–3 (self-test controller page, offset 0x090 + 4d) (R373). -/
def onlinePasses (n : Nat) : Fld := ⟨0x90 + 4 * n, 0, 32, .ro, 0⟩
/-- EN of CAL_CTL (memory PHY page, offset 0x080) (R373). -/
def calCtlEn : Fld := ⟨0x80, 31, 1, .rw, 1⟩
/-- PERIOD of CAL_CTL (memory PHY page, offset 0x080) (R373). -/
def calCtlPeriod : Fld := ⟨0x80, 0, 16, .rw, 100⟩
/-- RETRAINS of CAL_COUNT (memory PHY page, offset 0x084) (R373). -/
def calCountRetrains : Fld := ⟨0x84, 16, 16, .rac, 0⟩
/-- STEPS of CAL_COUNT (memory PHY page, offset 0x084) (R373). -/
def calCountSteps : Fld := ⟨0x84, 0, 16, .rac, 0⟩
/-- GO of PWR_STATE (power sequencer page, offset 0x080) (R386). -/
def pwrStateGo : Fld := ⟨0x80, 31, 1, .wo, 0⟩
/-- REQ of PWR_STATE (power sequencer page, offset 0x080) (R386). -/
def pwrStateReq : Fld := ⟨0x80, 28, 3, .rw, 0⟩
/-- LOBE of PWR_STATE (power sequencer page, offset 0x080) (R386). -/
def pwrStateLobe : Fld := ⟨0x80, 26, 1, .rw, 0⟩
/-- REJECTED of PWR_STATE (power sequencer page, offset 0x080) (R386). -/
def pwrStateRejected : Fld := ⟨0x80, 8, 8, .rac, 0⟩
/-- OFF_E of PWR_STATE (power sequencer page, offset 0x080) (R386). -/
def pwrStateOffE : Fld := ⟨0x80, 5, 1, .ro, 0⟩
/-- OFF_W of PWR_STATE (power sequencer page, offset 0x080) (R386). -/
def pwrStateOffW : Fld := ⟨0x80, 4, 1, .ro, 0⟩
/-- CUR of PWR_STATE (power sequencer page, offset 0x080) (R386). -/
def pwrStateCur : Fld := ⟨0x80, 0, 3, .ro, 0⟩
/-- PIN of BRAKE_STATUS (power sequencer page, offset 0x084) (R386). -/
def brakeStatusPin : Fld := ⟨0x84, 31, 1, .ro, 0⟩
/-- THERM of BRAKE_STATUS (power sequencer page, offset 0x084) (R386). -/
def brakeStatusTherm : Fld := ⟨0x84, 30, 1, .ro, 0⟩
/-- VIN of BRAKE_STATUS (power sequencer page, offset 0x084) (R386). -/
def brakeStatusVin : Fld := ⟨0x84, 29, 1, .ro, 0⟩
/-- LIMIT of BRAKE_STATUS (power sequencer page, offset 0x084) (R386). -/
def brakeStatusLimit : Fld := ⟨0x84, 28, 1, .ro, 0⟩
/-- ENGAGED of BRAKE_STATUS (power sequencer page, offset 0x084) (R386). -/
def brakeStatusEngaged : Fld := ⟨0x84, 0, 16, .rac, 0⟩
/-- PEAK_SLEW of WAKE_STATUS (power sequencer page, offset 0x088) (R386). -/
def wakeStatusPeakSlew : Fld := ⟨0x88, 16, 16, .rac, 0⟩
/-- DEFERRED of WAKE_STATUS (power sequencer page, offset 0x088) (R386). -/
def wakeStatusDeferred : Fld := ⟨0x88, 0, 16, .rac, 0⟩
/-- IIN of VIN_MON (supply monitor page, offset 0x080) (R386). -/
def vinMonIin : Fld := ⟨0x80, 16, 16, .ro, 0⟩
/-- VIN of VIN_MON (supply monitor page, offset 0x080) (R386). -/
def vinMonVin : Fld := ⟨0x80, 0, 16, .ro, 0⟩
/-- PEAK of PIN_AVG (supply monitor page, offset 0x084) (R386). -/
def pinAvgPeak : Fld := ⟨0x84, 16, 16, .rac, 0⟩
/-- AVG of PIN_AVG (supply monitor page, offset 0x084) (R386). -/
def pinAvgAvg : Fld := ⟨0x84, 0, 16, .ro, 0⟩
/-- VIO18 of AUX_MON (supply monitor page, offset 0x088) (R386). -/
def auxMonVio18 : Fld := ⟨0x88, 16, 16, .ro, 0⟩
/-- VAUX33 of AUX_MON (supply monitor page, offset 0x088) (R386). -/
def auxMonVaux33 : Fld := ⟨0x88, 0, 16, .ro, 0⟩
/-- SENSOR of TEMP_SEL (thermal monitor page, offset 0x080) (R386). -/
def tempSel : Fld := ⟨0x80, 0, 5, .rw, 0⟩
/-- VALID of TEMP_DATA (thermal monitor page, offset 0x084) (R386). -/
def tempDataValid : Fld := ⟨0x84, 31, 1, .ro, 0⟩
/-- TEMP of TEMP_DATA (thermal monitor page, offset 0x084) (R386). -/
def tempDataTemp : Fld := ⟨0x84, 0, 16, .ro, 0⟩
/-- DIE_WARN of THERM_WARN_SET (thermal monitor page, offset 0x088) (R386). -/
def thermWarnSet : Fld := ⟨0x88, 0, 8, .rw, 95⟩
/-- REF0_OK of CLK_STATUS (package clock page, offset 0x080) (R386). -/
def clkStatusRef0Ok : Fld := ⟨0x80, 31, 1, .ro, 0⟩
/-- REF1_OK of CLK_STATUS (package clock page, offset 0x080) (R386). -/
def clkStatusRef1Ok : Fld := ⟨0x80, 30, 1, .ro, 0⟩
/-- REF_SEL of CLK_STATUS (package clock page, offset 0x080) (R386). -/
def clkStatusRefSel : Fld := ⟨0x80, 29, 1, .ro, 0⟩
/-- HOLDOVER of CLK_STATUS (package clock page, offset 0x080) (R386). -/
def clkStatusHoldover : Fld := ⟨0x80, 28, 1, .ro, 0⟩
/-- SLOW_OK of CLK_STATUS (package clock page, offset 0x080) (R386). -/
def clkStatusSlowOk : Fld := ⟨0x80, 27, 1, .ro, 0⟩
/-- BACKUP of CLK_STATUS (package clock page, offset 0x080) (R386). -/
def clkStatusBackup : Fld := ⟨0x80, 26, 1, .ro, 0⟩
/-- GATED of GROUP_GATED (die power page, offset 0x080) (R386). -/
def groupGated : Fld := ⟨0x80, 0, 11, .ro, 0⟩
/-- STAGE of SEC_STATUS (security controller page, offset 0x080) (R401). -/
def secStatusStage : Fld := ⟨0x80, 29, 3, .ro, 0⟩
/-- SOL_B of SEC_STATUS (security controller page, offset 0x080) (R401). -/
def secStatusSolB : Fld := ⟨0x80, 28, 1, .ro, 0⟩
/-- CAL_B of SEC_STATUS (security controller page, offset 0x080) (R401). -/
def secStatusCalB : Fld := ⟨0x80, 27, 1, .ro, 0⟩
/-- DIE_B of SEC_STATUS (security controller page, offset 0x080) (R401). -/
def secStatusDieB : Fld := ⟨0x80, 26, 1, .ro, 0⟩
/-- TEST of SEC_STATUS (security controller page, offset 0x080) (R401). -/
def secStatusTest : Fld := ⟨0x80, 25, 1, .ro, 0⟩
/-- COMMIT_BUSY of SEC_STATUS (security controller page, offset 0x080) (R401). -/
def secStatusCommitBusy : Fld := ⟨0x80, 24, 1, .ro, 0⟩
/-- REV_QUAL of FUSE_STATE (fuse page, offset 0x080) (R401). -/
def fuseStateRevQual : Fld := ⟨0x80, 28, 4, .ro, 0⟩
/-- REV_FW of FUSE_STATE (fuse page, offset 0x080) (R401). -/
def fuseStateRevFw : Fld := ⟨0x80, 24, 4, .ro, 0⟩
/-- SVN_DIE of FUSE_STATE (fuse page, offset 0x080) (R401). -/
def fuseStateSvnDie : Fld := ⟨0x80, 14, 7, .ro, 0⟩
/-- SVN_CAL of FUSE_STATE (fuse page, offset 0x080) (R401). -/
def fuseStateSvnCal : Fld := ⟨0x80, 7, 7, .ro, 0⟩
/-- SVN_SOL of FUSE_STATE (fuse page, offset 0x080) (R401). -/
def fuseStateSvnSol : Fld := ⟨0x80, 0, 7, .ro, 0⟩
/-- SERIAL of SERIALn, n 0–3 (fuse page, offset 0x084 + 4n) (R401). -/
def serial (n : Nat) : Fld := ⟨0x84 + 4 * n, 0, 32, .ro, 0⟩
/-- MR of MR_SEL (attestation page, offset 0x080) (R401). -/
def mrSel : Fld := ⟨0x80, 0, 3, .rw, 0⟩
/-- DATA of MR_DATAn, n 0–15 (attestation page, offset 0x084 + 4n) (R401). -/
def mrData (n : Nat) : Fld := ⟨0x84 + 4 * n, 0, 32, .ro, 0⟩
/-- DATA of EXT_DATAn, n 0–15 (attestation page, offset 0x0C4 + 4n) (R401). -/
def extData (n : Nat) : Fld := ⟨0xc4 + 4 * n, 0, 32, .rw, 0⟩
/-- GO of EXT_CTL (attestation page, offset 0x104) (R401). -/
def extCtlGo : Fld := ⟨0x104, 31, 1, .wo, 0⟩
/-- SEL of EXT_CTL (attestation page, offset 0x104) (R401). -/
def extCtlSel : Fld := ⟨0x104, 0, 1, .rw, 0⟩
/-- ADDR of SEG_REQ (attestation page, offsets 0x108 for bits [31:0] and 0x10C for bits [63:32]) (R401). -/
def segReqLo : Fld := ⟨0x108, 6, 26, .rw, 0⟩
/-- ADDR of SEG_REQ (attestation page, offsets 0x108 for bits [31:0] and 0x10C for bits [63:32]) (R401). -/
def segReqHi : Fld := ⟨0x10c, 0, 32, .rw, 0⟩
/-- GO of SEG_CTL (attestation page, offset 0x110) (R401). -/
def segCtlGo : Fld := ⟨0x110, 31, 1, .wo, 0⟩
/-- REJECTED of SEG_CTL (attestation page, offset 0x110) (R401). -/
def segCtlRejected : Fld := ⟨0x110, 0, 8, .rac, 0⟩
/-- BUSY of SEG_STATUS (attestation page, offset 0x114) (R401). -/
def segStatusBusy : Fld := ⟨0x114, 31, 1, .ro, 0⟩
/-- CODE of SEG_STATUS (attestation page, offset 0x114) (R401). -/
def segStatusCode : Fld := ⟨0x114, 28, 3, .ro, 0⟩
/-- LEN of SEG_STATUS (attestation page, offset 0x114) (R401). -/
def segStatusLen : Fld := ⟨0x114, 0, 28, .ro, 0⟩
/-- SEED of SEQ_SEED (training sequencer page, offsets 0x0C0 for bits [31:0] and 0x0C4 for bits [63:32]) (R401). -/
def seqSeedLo : Fld := ⟨0xc0, 0, 32, .ro, 0⟩
/-- SEED of SEQ_SEED (training sequencer page, offsets 0x0C0 for bits [31:0] and 0x0C4 for bits [63:32]) (R401). -/
def seqSeedHi : Fld := ⟨0xc4, 0, 32, .ro, 0⟩
/-- INTERVAL of SPINE_CTL (spine page, offset 0x080) (R408). -/
def spineCtl : Fld := ⟨0x80, 0, 16, .rw, 100⟩
/-- OUT of SPINE_UTIL (spine page, offset 0x084) (R408). -/
def spineUtilOut : Fld := ⟨0x84, 16, 10, .ro, 0⟩
/-- IN of SPINE_UTIL (spine page, offset 0x084) (R408). -/
def spineUtilIn : Fld := ⟨0x84, 0, 10, .ro, 0⟩
/-- OUT of SPINE_PEAK (spine page, offset 0x088) (R408). -/
def spinePeakOut : Fld := ⟨0x88, 16, 10, .rac, 0⟩
/-- IN of SPINE_PEAK (spine page, offset 0x088) (R408). -/
def spinePeakIn : Fld := ⟨0x88, 0, 10, .rac, 0⟩
/-- TEST_MODE of STRAPS (Solfatara controller page, offset 0x140) (R430). -/
def strapsTestMode : Fld := ⟨0x140, 31, 1, .ro, 0⟩
/-- PORT_PLAN of STRAPS (Solfatara controller page, offset 0x140) (R430). -/
def strapsPortPlan : Fld := ⟨0x140, 28, 3, .ro, 0⟩
/-- BOARD_SHAPE of STRAPS (Solfatara controller page, offset 0x140) (R430). -/
def strapsBoardShape : Fld := ⟨0x140, 26, 2, .ro, 0⟩
/-- MESH_Z of STRAPS (Solfatara controller page, offset 0x140) (R430). -/
def strapsMeshZ : Fld := ⟨0x140, 12, 4, .ro, 0⟩
/-- MESH_Y of STRAPS (Solfatara controller page, offset 0x140) (R430). -/
def strapsMeshY : Fld := ⟨0x140, 6, 6, .ro, 0⟩
/-- MESH_X of STRAPS (Solfatara controller page, offset 0x140) (R430). -/
def strapsMeshX : Fld := ⟨0x140, 0, 6, .ro, 0⟩
/-- COUNT of VIN_LOSS (supply monitor page, offset 0x08C) (R430). -/
def vinLoss : Fld := ⟨0x8c, 0, 32, .ro, 0⟩
/-- ASSIGNED of MGMT_STATUS (management endpoint page, offset 0x080) (R430). -/
def mgmtStatusAssigned : Fld := ⟨0x80, 31, 1, .ro, 0⟩
/-- IBI_EN of MGMT_STATUS (management endpoint page, offset 0x080) (R430). -/
def mgmtStatusIbiEn : Fld := ⟨0x80, 30, 1, .ro, 0⟩
/-- VIO_OK of MGMT_STATUS (management endpoint page, offset 0x080) (R430). -/
def mgmtStatusVioOk : Fld := ⟨0x80, 29, 1, .ro, 0⟩
/-- DYN_ADDR of MGMT_STATUS (management endpoint page, offset 0x080) (R430). -/
def mgmtStatusDynAddr : Fld := ⟨0x80, 0, 7, .ro, 0⟩
/-- ALERT of EVT_STATUS (management endpoint page, offset 0x084) (R430). -/
def evtStatusAlert : Fld := ⟨0x84, 31, 1, .ro, 0⟩
/-- QUEUED of EVT_STATUS (management endpoint page, offset 0x084) (R430). -/
def evtStatusQueued : Fld := ⟨0x84, 16, 7, .ro, 0⟩
/-- EVT_DROP of EVT_STATUS (management endpoint page, offset 0x084) (R430). -/
def evtStatusEvtDrop : Fld := ⟨0x84, 0, 16, .rac, 0⟩
/-- VERSION of JTAG_ID (test access page, offset 0x080) (R430). -/
def jtagIdVersion : Fld := ⟨0x80, 28, 4, .ro, 1⟩
/-- PART of JTAG_ID (test access page, offset 0x080) (R430). -/
def jtagIdPart : Fld := ⟨0x80, 12, 16, .ro, 29700⟩
/-- MANUF of JTAG_ID (test access page, offset 0x080) (R430). -/
def jtagIdManuf : Fld := ⟨0x80, 1, 11, .ro, 0⟩
/-- ONE of JTAG_ID (test access page, offset 0x080) (R430). -/
def jtagIdOne : Fld := ⟨0x80, 0, 1, .ro, 1⟩
/-- DEBUG of JTAG_STATUS (test access page, offset 0x084) (R430). -/
def jtagStatusDebug : Fld := ⟨0x84, 31, 1, .ro, 0⟩
/-- SCAN_ACTIVE of JTAG_STATUS (test access page, offset 0x084) (R430). -/
def jtagStatusScanActive : Fld := ⟨0x84, 30, 1, .ro, 0⟩

/-- Stored fields of page type 0x01. -/
def fieldsOf01 : List Fld :=
  [jwSel, memSplitCurPkg, memSplitCurLobe, memSplitNextLobe, memSplitNextPkg, memRepairQueued,
   memRepairSoftEn, memRepairMode, mapoutReqPending, mapoutReqChannel, optPlanPlan,
   optPlanFlashOk, optPlanDarkCur, optPlanDark, lobeModeRejected, lobeModeCur, lobeModeFencedE,
   lobeModeFencedW, lobeModePrimary, lobeModeMode, pairSel, regDrop, regDropAddrOffset,
   regDropAddrSource, resetReqGo, resetReqLevel, resetReqTarget, resetStatusLastLevel,
   resetStatusInProgress, resetStatusHeld, resetStatusEscalated]
    ++ (List.range 4).map pairKey
    ++ (List.range 6).map resetCount

/-- Stored fields of page type 0x02. -/
def fieldsOf02 : List Fld :=
  [faCtlQuietEn, faCtlFnThresh, faultQuiet, recoveryCount, injectGo, injectSource, injectJob,
   injectSlot]
    ++ (List.range 5).map classActClear
    ++ (List.range 5).map classActReset
    ++ (List.range 5).map classActFence
    ++ (List.range 5).map classActAbort
    ++ (List.range 5).map classActAlert
    ++ (List.range 5).map classActLog
    ++ (List.range 5).map classCount

/-- Stored fields of page type 0x03. -/
def fieldsOf03 : List Fld :=
  [logStatus, logSel]

/-- Stored fields of page type 0x04. -/
def fieldsOf04 : List Fld :=
  [jobSel, rtSelTable, rtSelHdr, rtSelIndex, discTransit, discStale, discRoute, discMalf,
   ftCtl, ftStatusSync, ftStatusHoldover, ftStatusMaster, ftStatusHops, ftStatusMasterIdx, ftHi]

/-- Stored fields of page type 0x05. -/
def fieldsOf05 : List Fld :=
  [pwrStateGo, pwrStateReq, pwrStateLobe, pwrStateRejected, pwrStateOffE, pwrStateOffW,
   pwrStateCur, brakeStatusPin, brakeStatusTherm, brakeStatusVin, brakeStatusLimit,
   brakeStatusEngaged, wakeStatusPeakSlew, wakeStatusDeferred]

/-- Stored fields of page type 0x06. -/
def fieldsOf06 : List Fld :=
  [clkStatusRef0Ok, clkStatusRef1Ok, clkStatusRefSel, clkStatusHoldover, clkStatusSlowOk,
   clkStatusBackup]

/-- Stored fields of page type 0x07. -/
def fieldsOf07 : List Fld :=
  [vinLoss, vinMonIin, vinMonVin, pinAvgPeak, pinAvgAvg, auxMonVio18, auxMonVaux33]

/-- Stored fields of page type 0x08. -/
def fieldsOf08 : List Fld :=
  [tempSel, thermWarnSet, tempDataValid, tempDataTemp]

/-- Stored fields of page type 0x09. -/
def fieldsOf09 : List Fld :=
  [secStatusStage, secStatusSolB, secStatusCalB, secStatusDieB, secStatusTest,
   secStatusCommitBusy]

/-- Stored fields of page type 0x0A. -/
def fieldsOf0A : List Fld :=
  [mrSel, extCtlGo, extCtlSel, segReqLo, segReqHi, segCtlGo, segCtlRejected, segStatusBusy,
   segStatusCode, segStatusLen]
    ++ (List.range 16).map extData

/-- Stored fields of page type 0x0B. -/
def fieldsOf0B : List Fld :=
  [fuseStateRevQual, fuseStateRevFw, fuseStateSvnDie, fuseStateSvnCal, fuseStateSvnSol]
    ++ (List.range 4).map serial

/-- Stored fields of page type 0x0C. -/
def fieldsOf0C : List Fld :=
  [mgmtStatusAssigned, mgmtStatusIbiEn, mgmtStatusVioOk, mgmtStatusDynAddr, evtStatusEvtDrop]

/-- Stored fields of page type 0x0E. -/
def fieldsOf0E : List Fld :=
  [jtagStatusDebug, jtagStatusScanActive]

/-- Stored fields of page type 0x0F. -/
def fieldsOf0F : List Fld :=
  []
    ++ (List.range 4).map onlinePasses

/-- Stored fields of page type 0x10. -/
def fieldsOf10 : List Fld :=
  [heCtl, sampleCtlSkipped, sampleCtlEn, sampleCount, eruptSelTarget, eruptSelJob, eruptSent]
    ++ (List.range 4).map sampleBaseLo
    ++ (List.range 4).map sampleBaseHi

/-- Stored fields of page type 0x12. -/
def fieldsOf12 : List Fld :=
  [gqSelGroup, gqSelJob, combineCount, specialCount, geyErrInfoValid, geyErrInfoKind,
   geyErrInfoGroup, geyErrInfoJob, geyErrKeyBucket, geyErrKeyNode]

/-- Stored fields of page type 0x13. -/
def fieldsOf13 : List Fld :=
  [qSel, collDisc]

/-- Stored fields of page type 0x14. -/
def fieldsOf14 : List Fld :=
  [hiLinkSpeed, hiLinkFlit, hiLinkWidth, ringSel, portSel, bar4WinLo, bar4WinHi, bar4Job,
   hiErrValid, hiErrStatus, hiErrOffset]

/-- Stored fields of page type 0x18. -/
def fieldsOf18 : List Fld :=
  [spineCtl, spineUtilOut, spineUtilIn, spinePeakOut, spinePeakIn]

/-- Stored fields of page type 0x19. -/
def edgeFields (b : Nat) : List Fld :=
  [edgeStatusState b, edgeStatusBundlesUp b, edgeStatusCtrlUp b, edgeStatusHoldFull b,
   mapEpochLast b, mapEpochEpoch b, corrCount b, ctrlRetry b, laneSel b, laneCtlSpareEn b,
   laneCtlFailThresh b]

/-- Stored fields of page type 0x1A. -/
def fieldsOf1A : List Fld :=
  [oeStatusAdmit, oeStatusReason, oeStatusModUp, oeStatusMod16gt, oeStatusKeyId, oeCtl, rxPwrSel,
   rxPwrDataLock, rxPwrDataPower]
    ++ (List.range 4).map groupStatusState
    ++ (List.range 4).map groupStatusWidth
    ++ (List.range 4).map groupStatusFum
    ++ (List.range 4).map groupStatusTxLanes
    ++ (List.range 4).map groupStatusRxLanes
    ++ (List.range 4).map groupStatusRetrains
    ++ (List.range 2).map laserMon

/-- Stored fields of page type 0x1C. -/
def fieldsOf1C : List Fld :=
  [arithVerSetMajor, arithVerSetMinor, arithVerFuncRev, mxCapsMaxKLog2, mxCapsMaxSpanLog2,
   mxCapsOpndFmtMask, censusCtlClear, censusCtlSnap, censusStatusBusy, censusStatusSat,
   censusStatusSkipped, censusStatusSnapCount, censusBaseLo, censusBaseHi, taIdxClamp,
   taWrClamp, stealCtl, spareStatusRotState, spareStatusSpare, rotateCtlEn, rotateCtlPeriod,
   clusterFailedLo, clusterFailedHi, taskStolen, boxDrop, taskHeld]
    ++ (List.range 8).map clusterMapPhys3
    ++ (List.range 8).map clusterMapPhys2
    ++ (List.range 8).map clusterMapPhys1
    ++ (List.range 8).map clusterMapPhys0

/-- Stored fields of page type 0x1D. -/
def fieldsOf1D : List Fld :=
  [seqCtlWindow, seqCtlPromoEn, seqCtlRecompEn, seqCtlLoop, seqCtlStop, seqCtlStart,
   seqStatusState, seqStatusEvtLost, seqStatusRunning, seqStatusOldest, seqJobLo, seqJobHi,
   seqStep, promoCount, evtHead, digCtlClr, digCtlDigEn, pairLastPhase, pairLastOutcome,
   pairTransient, seqSeedLo, seqSeedHi]
    ++ (List.range 4).map runDig

/-- Stored fields of page type 0x1E. -/
def fieldsOf1E : List Fld :=
  [memCtlBatch, memCtlNarrowEn, chtSelDomain, chtSelIndex, turnCount, ceCount, ueCount,
   stackCeCount, errAddrLo, errAddrHi, errInfoValid, errInfoKind, errInfoCb, errChan, ceThresh,
   scrubCtlEn, scrubCtlPeriod, holdStatusActive, holdStatusChannel, holdStatusHolds]

/-- Stored fields of page type 0x23. -/
def fieldsOf23 : List Fld :=
  [groupGated]

/-- Stored fields of page type 0x26. -/
def fieldsOf26 : List Fld :=
  [calCtlEn, calCtlPeriod, calCountRetrains, calCountSteps]

/-- The stored block-specific fields of a page type. -/
def blockFields : Nat → List Fld
  | 0x01 => fieldsOf01
  | 0x02 => fieldsOf02
  | 0x03 => fieldsOf03
  | 0x04 => fieldsOf04
  | 0x05 => fieldsOf05
  | 0x06 => fieldsOf06
  | 0x07 => fieldsOf07
  | 0x08 => fieldsOf08
  | 0x09 => fieldsOf09
  | 0x0A => fieldsOf0A
  | 0x0B => fieldsOf0B
  | 0x0C => fieldsOf0C
  | 0x0E => fieldsOf0E
  | 0x0F => fieldsOf0F
  | 0x10 => fieldsOf10
  | 0x12 => fieldsOf12
  | 0x13 => fieldsOf13
  | 0x14 => fieldsOf14
  | 0x18 => fieldsOf18
  | 0x19 => edgeFields 0x80
  | 0x20 => edgeFields 0x80 ++ edgeFields 0xC0
  | 0x1A => fieldsOf1A
  | 0x1C => fieldsOf1C
  | 0x1D => fieldsOf1D
  | 0x1E => fieldsOf1E
  | 0x23 => fieldsOf23
  | 0x26 => fieldsOf26
  | _ => []

end Sys2Proof.Machine
end

