-- ==== Sys2Proof/Machine/Ops.lean ====
section
/-!
DEFINITION. The named operations over the parts of the state: sparse maps in canonical form, bytes
and words, memory, register fields and the tables of dies, tiles, halves and ports.
-/

namespace Sys2Proof.Machine

/-! ### Sparse maps -/

/-- The entry of key `k`, or the default. -/
def mget {α : Type} (d : α) : Map α → Nat → α
  | [], _ => d
  | (a, v) :: m, k => if a = k then v else mget d m k

/-- Without key `k`. -/
def mdel {α : Type} : Map α → Nat → Map α
  | [], _ => []
  | (a, v) :: m, k => if a = k then mdel m k else (a, v) :: mdel m k

/-- With `v` at key `k`, in the order of the keys. -/
def mins {α : Type} : Map α → Nat → α → Map α
  | [], k, v => [(k, v)]
  | (a, w) :: m, k, v =>
    if a < k then (a, w) :: mins m k v
    else if a = k then (k, v) :: m
    else (k, v) :: (a, w) :: m

/-- Writing `v` at key `k`; writing the default removes the entry, so equal maps are equal data. -/
def mset {α : Type} [DecidableEq α] (d : α) (m : Map α) (k : Nat) (v : α) : Map α :=
  if v = d then mdel m k else mins m k v

/-- Keys strictly rising, no default entry. -/
def mwf {α : Type} [DecidableEq α] (d : α) : Map α → Bool
  | [] => true
  | (a, v) :: m => v != d && m.all (fun e => a < e.1) && mwf d m

/-- Keys strictly rising: no key twice. -/
def keysUp {α : Type} : Map α → Bool
  | [] => true
  | (a, _) :: m => m.all (fun e => a < e.1) && keysUp m

/-- Keeping the entries whose key satisfies `p`. -/
def mkeep {α : Type} (m : Map α) (p : Nat → Bool) : Map α := m.filter (fun e => p e.1)

/-! ### Numbers, bits and bytes -/

/-- Bits [lo + w − 1:lo] of `n`. -/
def bits (n lo w : Nat) : Nat := n / 2 ^ lo % 2 ^ w

/-- Bit `i` of `n`. -/
def bit (n i : Nat) : Bool := n.testBit i

/-- `n` with bits [lo + w − 1:lo] replaced by `v`. -/
def setBits (n lo w v : Nat) : Nat := n - bits n lo w * 2 ^ lo + v % 2 ^ w * 2 ^ lo

/-- 1 for true. -/
def b2n (b : Bool) : Nat := if b then 1 else 0

/-- The number of ones among the low `w` bits. -/
def popcount (n w : Nat) : Nat := (List.range w).countP (fun i => n.testBit i)

/-- Adding to a counter of `w` bits that saturates. -/
def satAdd (w n k : Nat) : Nat := min (n + k) (2 ^ w - 1)

/-- The little-endian number of a list of bytes (R7). -/
def leNat : List Byte → Nat
  | [] => 0
  | b :: bs => b.toNat + 256 * leNat bs

/-- The `k` low bytes of `n`, little-endian (R7). -/
def leBytes : Nat → Nat → List Byte
  | 0, _ => []
  | k + 1, n => BitVec.ofNat 8 n :: leBytes k (n / 256)

/-- ⌈a / b⌉. -/
def cdiv (a b : Nat) : Nat := (a + b - 1) / b

/-- The base-2 logarithm rounded up, at most 64. -/
def clog2 (n : Nat) : Nat := (List.range 65).find? (fun k => n ≤ 2 ^ k) |>.getD 65

/-! ### Memory

Stacked memory and die buffers are one map from package-local addresses (R163, R247) to bytes. A
byte that nothing has written, or whose contents a reset has made undefined, reads 0 (assumption 2). -/

/-- What an unlisted byte reads as. -/
def memDefault : Byte := 0

/-- Memory is in canonical form: addresses strictly rising, no entry equal to what an unlisted address
reads as. -/
def memoryWf (s : State) : Bool := mwf memDefault s.mem

/-- One byte of memory. -/
def rdByte (s : State) (a : Nat) : Byte := mget memDefault s.mem a

/-- Writing one byte. -/
def wrByte (s : State) (a : Nat) (b : Byte) : State := { s with mem := mset memDefault s.mem a b }

/-- `n` bytes from `a`. -/
def rdBytes (s : State) : Nat → Nat → List Byte
  | _, 0 => []
  | a, n + 1 => rdByte s a :: rdBytes s (a + 1) n

/-- Writing the bytes at `a`, the first at the lowest address. -/
def wrBytes (s : State) : Nat → List Byte → State
  | _, [] => s
  | a, b :: bs => wrBytes (wrByte s a b) (a + 1) bs

/-- The little-endian value of `n` bytes at `a`. -/
def rdLe (s : State) (a n : Nat) : Nat := leNat (rdBytes s a n)

/-- Storing the `n` low bytes of `v` at `a`. -/
def wrLe (s : State) (a n v : Nat) : State := wrBytes s a (leBytes n v)

/-! ### Register fields -/

/-- BAR0 slots of the pages of the package (R337). -/
def dieSlot (d off : Nat) : Nat := 0x400 + 0x400 * d + off
/-- Slot of a page of Caldera half `h`. -/
def halfSlot (h off : Nat) : Nat := 0x100 + 0x100 * h + off
/-- Slot of a cluster page. -/
def clusterSlot (d c : Nat) : Nat := dieSlot d (0x20 + c)
/-- Slot of a tile page. -/
def tileSlot (d c t : Nat) : Nat := dieSlot d (0x80 + 16 * c + t)
/-- Package pages. -/
def solSlot : Nat := 0
/-- Fault aggregator page. -/
def faSlot : Nat := 1
/-- Fault log page. -/
def logSlot : Nat := 2
/-- Nyosh router page. -/
def routerSlot : Nat := 3
/-- Power sequencer page. -/
def pwrSlot : Nat := 4
/-- Package clock page. -/
def clkSlot : Nat := 5
/-- Supply monitor page. -/
def supSlot : Nat := 6
/-- Thermal monitor page. -/
def thermSlot : Nat := 7
/-- Security controller page. -/
def secSlot : Nat := 8
/-- Attestation page. -/
def attSlot : Nat := 9
/-- Fuse page. -/
def fuseSlot : Nat := 0xA
/-- Management endpoint page. -/
def mgmtSlot : Nat := 0xB
/-- Test access page. -/
def testSlot : Nat := 0xD
/-- Self-test controller page. -/
def stSlot : Nat := 0xE
/-- Hang engine page. -/
def hangSlot : Nat := 0xF
/-- Geyser page of half `h`. -/
def geySlot (h : Nat) : Nat := halfSlot h 1
/-- Collective engine page of half `h`. -/
def collSlot (h : Nat) : Nat := halfSlot h 2
/-- Host interface page of port `p`. -/
def hiSlot (p : Nat) : Nat := halfSlot p 3
/-- Caldera edge page of die `d`. -/
def cedgeSlot (d : Nat) : Nat := halfSlot (d / 2) (8 + d % 2)
/-- OE attach page of OE die `o`: a half's four are its two at the north and its two at the south
end (R15). -/
def oeSlot (o : Nat) : Nat := halfSlot (o / 2 % 2) (0xC + o % 2 + 2 * (o / 4))
/-- Host DMA engine page `n`, 0–31. -/
def dmaSlot (n : Nat) : Nat := halfSlot (n / 16) (0x10 + n % 16)
/-- Die control page. -/
def dcSlot (d : Nat) : Nat := dieSlot d 0
/-- Training sequencer page. -/
def seqSlot (d : Nat) : Nat := dieSlot d 1
/-- Memory gateway page. -/
def mgSlot (d : Nat) : Nat := dieSlot d 2
/-- Rilun gateway page. -/
def rilSlot (d : Nat) : Nat := dieSlot d 4
/-- Die power page. -/
def dpSlot (d : Nat) : Nat := dieSlot d 7
/-- Memory PHY page of stack `s`. -/
def phySlot (s : Nat) : Nat := dieSlot (s / 4) (0x10 + s % 4)

/-- The key of a field in the field store: its bit address in BAR0. -/
def fkey (slot : Nat) (f : Fld) : Nat := (slot * 4096 + f.off) * 8 + f.lo

/-- A register field's value. -/
def rg (s : State) (slot : Nat) (f : Fld) : Nat := mget f.reset s.regs (fkey slot f)

/-- Setting a register field (by hardware, or by a write that takes effect). -/
def wg (s : State) (slot : Nat) (f : Fld) (v : Nat) : State :=
  { s with regs := mset f.reset s.regs (fkey slot f) (v % 2 ^ f.w) }

/-- Adding to a saturating counter field. -/
def incr (s : State) (slot : Nat) (f : Fld) (k : Nat := 1) : State :=
  wg s slot f (satAdd f.w (rg s slot f) k)

/-- A field takes a value that is not known: it is listed whatever the value is. -/
def wgFree (s : State) (slot : Nat) (f : Fld) (v : Nat) : State :=
  { s with regs := mins s.regs (fkey slot f) (v % 2 ^ f.w) }

/-- Is the one-bit field set? -/
def rgB (s : State) (slot : Nat) (f : Fld) : Bool := rg s slot f = 1

/-- A field's bits of a register value. -/
def fget (f : Fld) (v : Nat) : Nat := bits v f.lo f.w

/-- A register field's bits put into place. -/
def fput (f : Fld) (v : Nat) : Nat := v % 2 ^ f.w * 2 ^ f.lo

/-! ### Tables of the state -/

/-- Die `d`. -/
def die (s : State) (d : Nat) : DieSt := mget {} s.dies d
/-- Setting die `d`. -/
def setDie (s : State) (d : Nat) (x : DieSt) : State := { s with dies := mset {} s.dies d x }
/-- Changing die `d`. -/
def updDie (s : State) (d : Nat) (f : DieSt → DieSt) : State := setDie s d (f (die s d))
/-- The sequencer of die `d`. -/
def seqOf (s : State) (d : Nat) : Seq := (die s d).seq
/-- Changing the sequencer of die `d`. -/
def updSeq (s : State) (d : Nat) (f : Seq → Seq) : State :=
  updDie s d (fun x => { x with seq := f x.seq })
/-- The memory control state of die `d`. -/
def memCtl (s : State) (d : Nat) : MemCtl := (die s d).mem
/-- Changing it. -/
def updMem (s : State) (d : Nat) (f : MemCtl → MemCtl) : State :=
  updDie s d (fun x => { x with mem := f x.mem })
/-- Phase `ph` of die `d`. -/
def phaseOf (s : State) (d ph : Nat) : Phase := mget {} (seqOf s d).phases ph
/-- Changing phase `ph` of die `d`. -/
def updPhase (s : State) (d ph : Nat) (f : Phase → Phase) : State :=
  updSeq s d (fun q => { q with phases := mset {} q.phases ph (f (mget {} q.phases ph)) })
/-- The key of a tile: die, physical cluster, tile. -/
def tileKey (d c t : Nat) : Nat := (d * 33 + c) * 16 + t
/-- Tile `t` of cluster `c` of die `d`. -/
def tileOf (s : State) (d c t : Nat) : Tile := mget {} s.tiles (tileKey d c t)
/-- Setting a tile. -/
def setTile (s : State) (d c t : Nat) (x : Tile) : State :=
  { s with tiles := mset {} s.tiles (tileKey d c t) x }
/-- The queue in the task-queue engine of physical cluster `c` of die `d`: ids of waiting tasks,
head first (R122). -/
def queueOf (s : State) (d c : Nat) : List Nat := mget [] s.queues (d * 33 + c)
/-- Setting a task queue. -/
def setQueue (s : State) (d c : Nat) (q : List Nat) : State :=
  { s with queues := mset [] s.queues (d * 33 + c) q }
/-- One end of an edge: key 2 × edge + end, the Caldera's end (or the second die's) far. -/
def edgeSide (s : State) (e : EdgeEnd) : EdgeSide := mget {} s.edges (2 * e.edge.val + b2n e.far)
/-- Setting one end of an edge. -/
def setEdgeSide (s : State) (e : EdgeEnd) (x : EdgeSide) : State :=
  { s with edges := mset {} s.edges (2 * e.edge.val + b2n e.far) x }
/-- The link of a port. -/
def linkOf (s : State) (p : Nat) : Link := mget {} s.links p
/-- Setting the link of a port. -/
def setLink (s : State) (p : Nat) (x : Link) : State := { s with links := mset {} s.links p x }
/-- The JOB_DATA of a job. -/
def jobOf (s : State) (j : Nat) : Job := mget {} s.jobs j
/-- Setting it. -/
def setJob (s : State) (j : Nat) (x : Job) : State := { s with jobs := mset {} s.jobs j x }
/-- A Geyser. -/
def geyser (s : State) (h : Nat) : Geyser := mget {} s.geysers h
/-- Changing a Geyser. -/
def updGeyser (s : State) (h : Nat) (f : Geyser → Geyser) : State :=
  { s with geysers := mset {} s.geysers h (f (geyser s h)) }
/-- Communication queue `q`, 0–63; the West half's are 0–31. -/
def cqOf (s : State) (q : Nat) : Cq := mget {} s.cqs q
/-- Changing a communication queue. -/
def updCq (s : State) (q : Nat) (f : Cq → Cq) : State :=
  { s with cqs := mset {} s.cqs q (f (cqOf s q)) }
/-- Completion ring `r` of port `p`. -/
def ringOf (s : State) (p r : Nat) : Ring := mget {} s.rings (64 * p + r)
/-- Changing a completion ring. -/
def updRing (s : State) (p r : Nat) (f : Ring → Ring) : State :=
  { s with rings := mset {} s.rings (64 * p + r) (f (ringOf s p r)) }
/-- Command port `n` of PCIe port `p`. -/
def cportOf (s : State) (p n : Nat) : CPort := mget {} s.cports (256 * p + n)
/-- Changing a command port. -/
def updCPort (s : State) (p n : Nat) (f : CPort → CPort) : State :=
  { s with cports := mset {} s.cports (256 * p + n) (f (cportOf s p n)) }

/-- Changing the first element that satisfies `p`. -/
def updFirst {α : Type} (p : α → Bool) (f : α → α) : List α → List α
  | [] => []
  | x :: xs => if p x then f x :: xs else x :: updFirst p f xs

/-- Folding a state change over a list. -/
def forEach {α : Type} (xs : List α) (s : State) (f : State → α → State) : State := xs.foldl f s

/-- Every part but the queue and the answer is the commands' business; the free-value counter
advances with each free value used. -/
def useFree (s : State) : Nat × State := (s.free, { s with free := s.free + 1 })

end Sys2Proof.Machine
end

