-- ==== Sys2Proof/Machine/Crypto.lean ====
section
/-!
DEFINITION. The hashes and codes that the spec names by their standards: SHA-512, SipHash-2-4 with
128-bit output (R308), CRC-32C (R200) and the field of the Rilun flit code (R196).
-/

namespace Sys2Proof.Machine

/-! ### SHA-512 -/

/-- Round constants 0 to 19. -/
def shaK0 : List Nat :=
  [0x428A2F98D728AE22, 0x7137449123EF65CD, 0xB5C0FBCFEC4D3B2F, 0xE9B5DBA58189DBBC,
   0x3956C25BF348B538, 0x59F111F1B605D019, 0x923F82A4AF194F9B, 0xAB1C5ED5DA6D8118,
   0xD807AA98A3030242, 0x12835B0145706FBE, 0x243185BE4EE4B28C, 0x550C7DC3D5FFB4E2,
   0x72BE5D74F27B896F, 0x80DEB1FE3B1696B1, 0x9BDC06A725C71235, 0xC19BF174CF692694,
   0xE49B69C19EF14AD2, 0xEFBE4786384F25E3, 0x0FC19DC68B8CD5B5, 0x240CA1CC77AC9C65]

/-- Round constants 20 to 39. -/
def shaK1 : List Nat :=
  [0x2DE92C6F592B0275, 0x4A7484AA6EA6E483, 0x5CB0A9DCBD41FBD4, 0x76F988DA831153B5,
   0x983E5152EE66DFAB, 0xA831C66D2DB43210, 0xB00327C898FB213F, 0xBF597FC7BEEF0EE4,
   0xC6E00BF33DA88FC2, 0xD5A79147930AA725, 0x06CA6351E003826F, 0x142929670A0E6E70,
   0x27B70A8546D22FFC, 0x2E1B21385C26C926, 0x4D2C6DFC5AC42AED, 0x53380D139D95B3DF,
   0x650A73548BAF63DE, 0x766A0ABB3C77B2A8, 0x81C2C92E47EDAEE6, 0x92722C851482353B]

/-- Round constants 40 to 59. -/
def shaK2 : List Nat :=
  [0xA2BFE8A14CF10364, 0xA81A664BBC423001, 0xC24B8B70D0F89791, 0xC76C51A30654BE30,
   0xD192E819D6EF5218, 0xD69906245565A910, 0xF40E35855771202A, 0x106AA07032BBD1B8,
   0x19A4C116B8D2D0C8, 0x1E376C085141AB53, 0x2748774CDF8EEB99, 0x34B0BCB5E19B48A8,
   0x391C0CB3C5C95A63, 0x4ED8AA4AE3418ACB, 0x5B9CCA4F7763E373, 0x682E6FF3D6B2B8A3,
   0x748F82EE5DEFB2FC, 0x78A5636F43172F60, 0x84C87814A1F0AB72, 0x8CC702081A6439EC]

/-- Round constants 60 to 79. -/
def shaK3 : List Nat :=
  [0x90BEFFFA23631E28, 0xA4506CEBDE82BDE9, 0xBEF9A3F7B2C67915, 0xC67178F2E372532B,
   0xCA273ECEEA26619C, 0xD186B8C721C0C207, 0xEADA7DD6CDE0EB1E, 0xF57D4F7FEE6ED178,
   0x06F067AA72176FBA, 0x0A637DC5A2C898A6, 0x113F9804BEF90DAE, 0x1B710B35131C471B,
   0x28DB77F523047D84, 0x32CAAB7B40C72493, 0x3C9EBE0A15C9BEBC, 0x431D67C49C100D4C,
   0x4CC5D4BECB3E42B6, 0x597F299CFC657E2A, 0x5FCB6FAB3AD6FAEC, 0x6C44198C4A475817]

/-- The round constants. -/
def shaK : List Nat := shaK0 ++ shaK1 ++ shaK2 ++ shaK3

/-- The initial hash value. -/
def shaInit : List Nat :=
  [0x6A09E667F3BCC908, 0xBB67AE8584CAA73B, 0x3C6EF372FE94F82B, 0xA54FF53A5F1D36F1,
   0x510E527FADE682D1, 0x9B05688C2B3E6C1F, 0x1F83D9ABFB41BD6B, 0x5BE0CD19137E2179]

/-- Rotation right of a 64-bit word. -/
def rotr64 (x n : Nat) : Nat := (x / 2 ^ n + x * 2 ^ (64 - n)) % 2 ^ 64

/-- Big-endian number of bytes. -/
def beNat (bs : List Byte) : Nat := bs.foldl (fun a b => 256 * a + b.toNat) 0

/-- `k` bytes of a number, big-endian. -/
def beBytes (k n : Nat) : List Byte := (leBytes k n).reverse

/-- Words `t` on of the message schedule, the last 16 words given latest first. -/
def shaSched : Nat → List Nat → List Nat
  | 0, ws => ws
  | k + 1, ws =>
    let w (i : Nat) : Nat := ws.getD (i - 1) 0
    let s0 := rotr64 (w 15) 1 ^^^ rotr64 (w 15) 8 ^^^ (w 15 / 2 ^ 7)
    let s1 := rotr64 (w 2) 19 ^^^ rotr64 (w 2) 61 ^^^ (w 2 / 2 ^ 6)
    shaSched k ((w 16 + s0 + w 7 + s1) % 2 ^ 64 :: ws)

/-- One round on the eight working variables. -/
def shaRound (v : List Nat) (kw : Nat) : List Nat :=
  match v with
  | [a, b, c, d, e, f, g, h] =>
    let s1 := rotr64 e 14 ^^^ rotr64 e 18 ^^^ rotr64 e 41
    let ch := (e &&& f) ^^^ ((2 ^ 64 - 1 - e) &&& g)
    let t1 := h + s1 + ch + kw
    let s0 := rotr64 a 28 ^^^ rotr64 a 34 ^^^ rotr64 a 39
    let maj := (a &&& b) ^^^ (a &&& c) ^^^ (b &&& c)
    [(t1 + s0 + maj) % 2 ^ 64, a, b, c, (d + t1) % 2 ^ 64, e, f, g]
  | v => v

/-- One 128-byte block. -/
def shaBlock (h : List Nat) (blk : List Byte) : List Nat :=
  let ws := (List.range 16).map (fun i => beNat ((blk.drop (8 * i)).take 8))
  let sched := (shaSched 64 ws.reverse).reverse
  let v := (sched.zip shaK).foldl (fun v (w, k) => shaRound v (w + k)) h
  (h.zip v).map (fun (x, y) => (x + y) % 2 ^ 64)

/-- The blocks of a padded message. -/
def shaBlocks : Nat → List Byte → List Nat → List Nat
  | 0, _, h => h
  | n + 1, bs, h => shaBlocks n (bs.drop 128) (shaBlock h (bs.take 128))

/-- SHA-512 of a message. -/
def sha512 (msg : List Byte) : List Byte :=
  let n := msg.length
  let zeros := (239 - n % 128) % 128
  let padded := msg ++ [0x80] ++ List.replicate zeros 0 ++ beBytes 16 (8 * n)
  (shaBlocks (padded.length / 128) padded shaInit).flatMap (beBytes 8)

/-! ### SipHash-2-4, 128-bit output -/

/-- Rotation left of a 64-bit word. -/
def rotl64 (x n : Nat) : Nat := rotr64 x (64 - n)

/-- The state of SipHash. -/
structure Sip where
  v0 : Nat
  v1 : Nat
  v2 : Nat
  v3 : Nat
  deriving DecidableEq, Repr

/-- One SipRound. -/
def sipRound (s : Sip) : Sip :=
  let a := (s.v0 + s.v1) % 2 ^ 64
  let b := rotl64 s.v1 13 ^^^ a
  let a := rotl64 a 32
  let c := (s.v2 + s.v3) % 2 ^ 64
  let d := rotl64 s.v3 16 ^^^ c
  let a := (a + d) % 2 ^ 64
  let d := rotl64 d 21 ^^^ a
  let c := (c + b) % 2 ^ 64
  let b := rotl64 b 17 ^^^ c
  let c := rotl64 c 32
  ⟨a, b, c, d⟩

/-- Two compression rounds with a message word. -/
def sipWord (s : Sip) (m : Nat) : Sip :=
  let s := sipRound (sipRound { s with v3 := s.v3 ^^^ m })
  { s with v0 := s.v0 ^^^ m }

/-- Four finalisation rounds. -/
def sipFour (s : Sip) : Sip := sipRound (sipRound (sipRound (sipRound s)))

/-- SipHash-2-4 with 128-bit output of a message under a 128-bit key, as a number (R308). -/
def sipHash128 (key : Nat) (msg : List Byte) : Nat :=
  let k0 := key % 2 ^ 64
  let k1 := key / 2 ^ 64 % 2 ^ 64
  let s : Sip := ⟨k0 ^^^ 0x736F6D6570736575, k1 ^^^ 0x646F72616E646F6D ^^^ 0xEE,
    k0 ^^^ 0x6C7967656E657261, k1 ^^^ 0x7465646279746573⟩
  let n := msg.length
  let s := (List.range (n / 8)).foldl (fun s i => sipWord s (leNat ((msg.drop (8 * i)).take 8))) s
  let s := sipWord s (leNat (msg.drop (8 * (n / 8))) + n % 256 * 2 ^ 56)
  let s := sipFour { s with v2 := s.v2 ^^^ 0xEE }
  let lo := s.v0 ^^^ s.v1 ^^^ s.v2 ^^^ s.v3
  let s := sipFour { s with v1 := s.v1 ^^^ 0xDD }
  lo + (s.v0 ^^^ s.v1 ^^^ s.v2 ^^^ s.v3) * 2 ^ 64

/-! ### CRC-32C -/

/-- Eight bit steps of the reflected CRC register. -/
def crcByte (crc : Nat) (b : Byte) : Nat :=
  (List.range 8).foldl (fun c _ => if c % 2 = 1 then c / 2 ^^^ 0x82F63B78 else c / 2)
    (crc ^^^ b.toNat)

/-- CRC-32C of a message. -/
def crc32c (msg : List Byte) : Nat := msg.foldl crcByte 0xFFFFFFFF ^^^ 0xFFFFFFFF

/-! ### GF(2^32) -/

/-- Multiplication by x modulo the given low terms of a degree-32 polynomial. -/
def gfX (low a : Nat) : Nat := if a ≥ 2 ^ 31 then (a * 2 - 2 ^ 32) ^^^ low else a * 2

/-- Multiplication by x^j. -/
def gfXPow (low : Nat) : Nat → Nat → Nat
  | 0, a => a
  | j + 1, a => gfXPow low j (gfX low a)

end Sys2Proof.Machine
end

