-- ==== Sys2Proof/Config.lean ====
section
/-!
DEFINITION. What the spec leaves to the part or does not state: constants without a body, so that
nothing can be proved about their values. Each is named in a log entry.
-/

namespace Sys2Proof

/-- The value of a result that the spec leaves open, by the number of free values used before it
(assumption 6). -/
opaque Config.freeValue : Nat → Nat

/-- Which of the results within its error bound FUNC function `op` gives on F32 pattern `x`: R79 publishes
the algorithm elsewhere (assumption 7). -/
opaque Config.func (op x : Nat) : Nat

/-- Ed25519 verification of a signature over a message by a public key (assumption 8). -/
opaque Config.edVerify (key msg sig : List Byte) : Bool

/-- Ed25519 signature over a message by the key with the given seed, 64 bytes, the first in the low bits
(assumption 8). -/
opaque Config.edSign (seed msg : List Byte) : BitVec 512

/-- Ed25519 public key of a seed, 32 bytes, the first in the low bits (assumption 8). -/
opaque Config.edPublic (seed : List Byte) : BitVec 256

/-- Oluolmavo's public keys of the key slots: `false` qualification keys, `true` firmware keys; none
where the slot holds no key (assumption 8). -/
opaque Config.keySlot (fw : Bool) (slot : Nat) : Option (List Byte)

/-- The unique device seed burnt into the fuses, 32 bytes, the first in the low bits (R392, assumption 8). -/
opaque Config.deviceSeed : BitVec 256

/-- The test unlock key that the ROM holds (assumption 8). -/
opaque Config.unlockKey : List Byte

/-- Output of the hardware random generator (assumption 6). -/
opaque Config.random : Nat → Byte

/-- What scratchpad byte `a` of a tile holds, by the generations of its die's and its own contents (R114,
assumption 116). -/
opaque Config.scratch (era gen tile a : Nat) : Nat

/-- The status of a response whose sector was uncorrectable at the target: R180 names a data-error
status of the interface and R250 gives none (assumption 24). -/
opaque Config.remoteDataError : Nat

/-- The bytes whose digest MR5 takes: R391 names the straps, OPT_PLAN, the CUR fields of MEM_SPLIT, MODE and
the flash plan, and does not state their layout (assumption 25). -/
opaque Config.mr5Bytes (straps optPlan split mode : Nat) (plan : List Byte) : List Byte

/-- Fixed bits of the JTAG identification that the spec does not state (assumption 3). -/
opaque Config.jtagManuf : Nat

/-- The serial number words burnt into the fuses (assumption 3). -/
opaque Config.serial (n : Nat) : Nat

/-- The vendor's MIPI manufacturer ID, bits 47 to 33 of the provisional ID (R423); the spec gives no value. -/
opaque Config.mipiManuf : BitVec 15

end Sys2Proof
end

