-- ==== Sys2Proof/Machine/MemMap.lean ====
section
/-!
DEFINITION. Where an address lies: domain windows and their sizes (R162 to R166), die buffers
(R247), job memory windows (R165), the mirror copy (R306), and the placement of a byte on a
pseudo-channel with its inverse (R168, R169, R182).
-/

namespace Sys2Proof.Machine

/-- An address domain: a stacked-memory window or a die buffer. -/
inductive Dom where
  | pkg
  | lobe (l : Nat)
  | dieLocal (d : Nat)
  | buffer (d : Nat)
  deriving DecidableEq, Repr

/-- Base of a domain's window (R163, R247). -/
def domBase : Dom → Nat
  | .pkg => 0
  | .lobe l => 0x010000000000 + 0x008000000000 * l
  | .dieLocal d => 0x020000000000 + 0x004000000000 * d
  | .buffer d => 0x040000000000 + 0x04000000 * d

/-- Maximum size of a domain's window. -/
def domMax : Dom → Nat
  | .pkg => 2 ^ 40
  | .lobe _ => 2 ^ 39
  | .dieLocal _ => 2 ^ 38
  | .buffer _ => 48 * 2 ^ 20

/-- All domains. -/
def allDoms : List Dom :=
  [.pkg, .lobe 0, .lobe 1, .dieLocal 0, .dieLocal 1, .dieLocal 2, .dieLocal 3,
   .buffer 0, .buffer 1, .buffer 2, .buffer 3]

/-- The domain whose window (at its maximum size) holds the address. -/
def domOf (a : Nat) : Option Dom :=
  allDoms.find? (fun d => domBase d ≤ a && a < domBase d + domMax d)

/-- Pseudo-channels of a domain when all are live (R163). -/
def domChannels : Dom → List Nat
  | .pkg => List.range 1024
  | .lobe l => (List.range 512).map (· + 512 * l)
  | .dieLocal d => (List.range 256).map (· + 256 * d)
  | .buffer _ => []

/-- Live pseudo-channels of a domain, ascending (R168, R190). -/
def liveOf (s : State) (d : Dom) : List Nat :=
  let out := match d with | .pkg => s.outPkg | _ => s.outDie
  (domChannels d).filter (fun c => !out.contains c)

/-- Units of 64 MiB per channel that a domain holds (R162). -/
def unitsOf (s : State) : Dom → Nat
  | .pkg => rg s solSlot memSplitCurPkg
  | .lobe _ => rg s solSlot memSplitCurLobe
  | .dieLocal _ => 16 - rg s solSlot memSplitCurPkg - rg s solSlot memSplitCurLobe
  | .buffer _ => 0

/-- Is the lobe mode in force Joint? -/
def isJoint (s : State) : Bool := rg s solSlot lobeModeCur = 0

/-- The package-wide window is closed in Paired and Degraded modes and while a channel waits to be
mapped out of it; a domain with no live channel is closed too (R166, R190). -/
def domClosed (s : State) (d : Dom) : Bool :=
  match d with
  | .pkg => !isJoint s || s.pkgShut || (liveOf s d).isEmpty
  | .buffer _ => false
  | _ => (liveOf s d).isEmpty

/-- Bytes that a domain holds on its live channels, whether or not its window is open. -/
def domSpan (s : State) (d : Dom) : Nat :=
  match d with
  | .buffer _ => 48 * 2 ^ 20
  | d => unitsOf s d * 64 * 2 ^ 20 * (liveOf s d).length

/-- Current size of a domain's window (R163). -/
def domSize (s : State) (d : Dom) : Nat := if domClosed s d then 0 else domSpan s d

/-- Does the byte range reach memory, each byte below the current size of the window that holds it (R164)?
A range runs from a full window into the next one; `k` bounds the windows. -/
def reachFrom : Nat → State → Nat → Nat → Bool
  | 0, _, _, n => n = 0
  | k + 1, s, a, n =>
    n = 0 || (match domOf a with
      | some d =>
        let m := domBase d + domSize s d - a
        m ≠ 0 && reachFrom k s (a + min m n) (n - min m n)
      | none => false)

/-- Does every byte of the range reach memory? -/
def allReach (s : State) (a n : Nat) : Bool := reachFrom allDoms.length s a n

/-- Does the byte range, one byte at least, reach memory? -/
def reaches (s : State) (a n : Nat) : Bool := n ≠ 0 && allReach s a n

/-- The lobes whose memory a domain takes. -/
def domLobes : Dom → List Nat
  | .pkg => [0, 1]
  | .lobe l => [l]
  | .dieLocal d => [d / 2]
  | .buffer d => [d / 2]

/-! ### The mirror copy (R306) -/

/-- The East copy of a West-form address; none where the address has none. -/
def mirrorOf (a : Nat) : Option Nat :=
  match domOf a with
  | some (.lobe 0) => some (a + 0x008000000000)
  | some (.dieLocal 0) => some (a + 0x008000000000)
  | some (.dieLocal 1) => some (a + 0x008000000000)
  | some (.buffer 0) => some (a + 0x08000000)
  | some (.buffer 1) => some (a + 0x08000000)
  | _ => none

/-- The West form of an address of the East copy. -/
def westForm (a : Nat) : Nat :=
  match domOf a with
  | some (.lobe 1) => a - 0x008000000000
  | some (.dieLocal 2) => a - 0x008000000000
  | some (.dieLocal 3) => a - 0x008000000000
  | some (.buffer 2) => a - 0x08000000
  | some (.buffer 3) => a - 0x08000000
  | _ => a

/-- Are addresses of jobs in West form? So they are while LOBE_MODE.MODE is Paired, and in Degraded
mode entered from it (R306, assumption 10). -/
def pairedForm (s : State) : Bool := rg s solSlot lobeModeMode = 1

/-- Is the mode in force Paired? -/
def isPaired (s : State) : Bool := rg s solSlot lobeModeCur = 1

/-- The address a die uses for a written address: an East die adds the mirror offset (R306). -/
def dieAddr (s : State) (d a : Nat) : Nat :=
  if pairedForm s && d ≥ 2 then (mirrorOf a).getD a else a

/-! ### Job memory windows (R165) -/

/-- Size of an entry in bytes. -/
def jwBytes (e : Jw) : Nat := e.units * 65536

/-- Does the entry's range lie inside the maximum size of one domain? -/
def jwInDomain (e : Jw) : Bool :=
  match domOf (e.base * 65536) with
  | some d => e.base * 65536 + jwBytes e ≤ domBase d + domMax d
  | none => false

/-- Do two ranges intersect? -/
def meet (a n b m : Nat) : Bool := a < b + m && b < a + n && n ≠ 0 && m ≠ 0

/-- Ranges that an entry takes: with mirrors, also its mirror range. -/
def jwRanges (mir : Bool) (e : Jw) : List (Nat × Nat) :=
  (e.base * 65536, jwBytes e) ::
    (if mir then (mirrorOf (e.base * 65536)).toList.map (fun b => (b, jwBytes e)) else [])

/-- Do the ranges of two entries intersect? -/
def jwClash (mir : Bool) (e f : Jw) : Bool :=
  (jwRanges mir e).any (fun x => (jwRanges mir f).any (fun y => meet x.1 x.2 y.1 y.2))

/-- Does the mirror of a West-form range reach memory, where Paired mode keeps a copy there (R413 note D)? -/
def mirrorReaches (s : State) (w n : Nat) : Bool :=
  !isPaired s || (match mirrorOf w with
    | some b => allReach s b n
    | none => true)

/-- Is the range within one valid entry of the job and below the current size of that entry's window, in
Paired mode also of its mirror's (R165, R413 note D)? An access to the East copy is tested at its West-form
address. -/
def inWindows (s : State) (job a n : Nat) : Bool :=
  let w := if pairedForm s then westForm a else a
  allReach s w n && mirrorReaches s w n && s.jw.any (fun (_, e) =>
    e.valid && e.job == job && e.base * 65536 ≤ w && w + n ≤ e.base * 65536 + jwBytes e)

/-- The job whose window holds the address, 0 for none. -/
def jobAt (s : State) (a : Nat) : Nat :=
  let w := if pairedForm s then westForm a else a
  match s.jw.find? (fun (_, e) =>
    e.valid && e.base * 65536 ≤ w && w < e.base * 65536 + jwBytes e) with
  | some (_, e) => e.job
  | none => 0

/-- The address at which the host and the Caldera read a job's data: the primary copy (R307). An address
in no job's window is taken as it is. -/
def primaryAddr (s : State) (a : Nat) : Nat :=
  if pairedForm s && rg s solSlot lobeModePrimary = 1 && jobAt s a ≠ 0 then (mirrorOf a).getD a else a

/-! ### From address to pseudo-channel (R168, R169) and back (R182) -/

/-- XOR of the 12-bit chunks of x. -/
def fold12 (x : Nat) : Nat :=
  (List.range 6).foldl (fun f k => f ^^^ bits x (12 * k) 12) 0

/-- Channel byte address at which a domain's share begins. -/
def shareBase (s : State) : Dom → Nat
  | .pkg => 0
  | .lobe _ => rg s solSlot memSplitCurPkg * 2 ^ 26
  | .dieLocal _ => (rg s solSlot memSplitCurPkg + rg s solSlot memSplitCurLobe) * 2 ^ 26
  | .buffer _ => 0

/-- Entry `i` of a domain's channel table (R168). -/
def tableEntry (s : State) (d : Dom) (i : Nat) : Option Nat :=
  let live := liveOf s d
  if live.isEmpty then none else live[i % live.length]?

/-- Channel and channel byte address of an address in a stacked-memory window (R169). -/
def locate (s : State) (a : Nat) : Option (Nat × Nat) :=
  match domOf a with
  | none => none
  | some (.buffer _) => none
  | some d =>
    let off := a - domBase d
    let n := (liveOf s d).length
    if n = 0 then none
    else
      let g := off / 256
      let line := g / 4096
      let h := g % 4096 ^^^ fold12 line
      let i := h + line * 4096 % n
      let i := if i ≥ 4096 then i - n else i
      let sl := line * 4096 + h
      match tableEntry s d i with
      | some ch => some (ch, shareBase s d + sl / n * 256 + off % 256)
      | none => none

/-- The domain whose share of a channel holds a channel byte address (R162). -/
def shareOf (s : State) (ch cb : Nat) : Dom :=
  if cb < shareBase s (.lobe 0) then .pkg
  else if cb < shareBase s (.dieLocal 0) then .lobe (ch / 512)
  else .dieLocal (ch / 256)

/-- The address whose byte lies at a channel byte address: the inverse of `locate` (R169, R182). -/
def addrOf (s : State) (ch cb : Nat) : Nat :=
  let d := shareOf s ch cb
  let live := liveOf s d
  let rel := cb - shareBase s d
  let sl := rel / 256 * live.length + live.idxOf ch
  let line := sl / 4096
  domBase d + (line * 4096 + (sl % 4096 ^^^ fold12 line)) * 256 + rel % 256

/-- The die whose memory controllers own a channel (R161). -/
def chanDie (ch : Nat) : Nat := ch / 256

/-- The die that owns the memory at an address: its channel's die, or the buffer's die. -/
def ownerDie (s : State) (a : Nat) : Nat :=
  match domOf a with
  | some (.buffer d) => d
  | _ => match locate s a with
    | some (ch, _) => chanDie ch
    | none => 0

/-- The sector that holds a byte. -/
def sectorOf (a : Nat) : Nat := a / 32 * 32

end Sys2Proof.Machine
end

