-- ==== Sys2Proof/Machine/Plan.lean ====
section
/-!
DEFINITION. Positions (R231), the port plan in force (R216 to R218) and dark ports (R219).
-/

namespace Sys2Proof.Machine

/-- A position as DEST encodes it (R231). -/
def encPos (x y z : Nat) : Nat := x % 64 + y % 64 * 64 + z % 16 * 4096

/-! ### Port plans -/

/-- The group at a position of the plan order (R216). -/
def planGroup (i : Nat) : Nat := 4 * ([0, 2, 4, 6, 1, 3, 5, 7].getD (i % 8) 0) + i / 8

/-- Groups per port of the built-in plans. -/
def planCounts (plan : Nat) : List Nat :=
  match plan with
  | 0 => [6, 6, 5, 5, 5, 5]
  | 1 => [8, 8, 4, 4, 4, 4]
  | 2 => [4, 4, 6, 6, 6, 6]
  | 3 => [8, 8, 8, 8, 0, 0]
  | 4 => [8, 8, 0, 0, 8, 8]
  | 5 => [16, 16, 0, 0, 0, 0]
  | 6 => [0, 0, 8, 8, 8, 8]
  | _ => []

/-- The port whose run holds position `i`, counting from `n`. -/
def runPort : List Nat → Nat → Nat → Option Nat
  | [], _, _ => none
  | c :: cs, n, i => if i < c then some n else runPort cs (n + 1) (i - c)

/-- Is a flash plan in force? -/
def flashPlan (s : State) : Bool := rg s solSlot optPlanPlan = 7

/-- The port of group `g` under the plan in force, none when unused. -/
def groupPort (s : State) (g : Nat) : Option Nat :=
  if flashPlan s then
    let v := mget 0 s.planOf g
    if v = 0 then none else some (v - 1)
  else
    match (List.range 32).find? (fun i => planGroup i = g) with
    | some i => runPort (planCounts (rg s solSlot optPlanPlan)) 0 i
    | none => none

/-- The groups of a port in plan order. -/
def portGroupList (s : State) (p : Nat) : List Nat :=
  ((List.range 32).map planGroup).filter (fun g => groupPort s g = some p)

/-- PORT_GROUPS. -/
def portGroupCounts (s : State) : Nat :=
  ((List.range 6).map (fun n => (portGroupList s n).length % 32 * 2 ^ (5 * n))).sum

/-! ### Ports -/

/-- The position one step along a port, none outside the coordinate space. -/
def neighbourPos (s : State) (p : Nat) : Option Nat :=
  let x := s.pins.straps.meshX
  let y := s.pins.straps.meshY
  let z := s.pins.straps.meshZ
  match p with
  | 0 => if x < 63 then some (encPos (x + 1) y z) else none
  | 1 => if 0 < x then some (encPos (x - 1) y z) else none
  | 2 => if y < 63 then some (encPos x (y + 1) z) else none
  | 3 => if 0 < y then some (encPos x (y - 1) z) else none
  | 4 => if z < 15 then some (encPos x y (z + 1)) else none
  | 5 => if 0 < z then some (encPos x y (z - 1)) else none
  | _ => none

/-- Is the port dark (R219)? -/
def portDark (s : State) (p : Nat) : Bool :=
  (portGroupList s p).isEmpty || (neighbourPos s p).isNone || bit (rg s solSlot optPlanDarkCur) p

/-- The dark ports as a mask (DARK_CUR). -/
def darkMask (s : State) : Nat :=
  ((List.range 6).map (fun p => b2n (portDark s p) * 2 ^ p)).sum

end Sys2Proof.Machine
end

