-- ==== Sys2Proof/Machine/Pages.lean ====
section
/-!
DEFINITION. The register pages: the directory of page slots (R337) with each page's reset level,
domains and fault sources (R346, R353, R432), the common header (R334), and the state of a block
that decides what an access to its page does (R339 to R341).
-/

namespace Sys2Proof.Machine

/-! ### Directory (R337) -/

/-- The block type of a page slot, 0 for an unassigned one. -/
def pgType (slot : Nat) : Nat :=
  if slot < 0x10 then slot + 1
  else if 0x100 ≤ slot ∧ slot < 0x300 then
    let o := slot % 0x100
    if o < 8 then 0x11 + o
    else if o < 10 then 0x19
    else if 12 ≤ o ∧ o < 16 then 0x1A
    else if 16 ≤ o ∧ o < 32 then 0x1B
    else 0
  else if 0x400 ≤ slot ∧ slot < 0x1400 then
    let o := slot % 0x400
    if o < 9 then 0x1C + o
    else if 12 ≤ o ∧ o < 16 then 0x25
    else if 16 ≤ o ∧ o < 20 then 0x26
    else if 0x20 ≤ o ∧ o < 0x20 + 33 then 0x27
    else if 0x80 ≤ o ∧ o < 0x80 + 528 then 0x28
    else 0
  else 0

/-- The Caldera half of a half page. -/
def pgHalf (slot : Nat) : Nat := slot / 0x100 - 1

/-- The die of a die page. -/
def pgDie (slot : Nat) : Nat := slot / 0x400 - 1

/-- Is it a page of a die region? -/
def isDiePage (slot : Nat) : Bool := 0x400 ≤ slot && slot < 0x1400

/-- INSTANCE of a page. -/
def pgInstance (slot : Nat) : Nat :=
  let h := pgHalf slot
  let d := pgDie slot
  match pgType slot with
  | 0x19 => 2 * h + (slot % 0x100 - 8)
  | 0x1A =>
    let k := slot % 0x100 - 12
    2 * h + k % 2 + 4 * (k / 2)
  | 0x1B => 16 * h + (slot % 0x100 - 16)
  | 0x25 => 4 * d + (slot % 0x400 - 12)
  | 0x26 => 4 * d + (slot % 0x400 - 16)
  | 0x27 => 33 * d + (slot % 0x400 - 0x20)
  | 0x28 => 528 * d + (slot % 0x400 - 0x80)
  | ty => if ty < 0x11 then 0 else if ty < 0x19 then h else d

/-- RESET_LEVEL of a page type. -/
def pgLevel (ty : Nat) : Nat :=
  if ty = 0x28 then 0
  else if ty = 0x27 then 1
  else if ty ∈ [0x1C, 0x1D, 0x1F, 0x21, 0x22] then 2
  else if ty ∈ [0x1E, 0x20, 0x23, 0x24, 0x25, 0x26] then 3
  else if ty ∈ [0x0F, 0x12, 0x13, 0x1A, 0x1B] then 4
  else if ty ∈ [0x01, 0x02, 0x03, 0x05, 0x07, 0x08, 0x0B, 0x0C, 0x0E] then 6
  else 5

/-- The cluster of a cluster or tile page. -/
def pgCluster (slot : Nat) : Nat :=
  if pgType slot = 0x28 then (slot % 0x400 - 0x80) / 16 else slot % 0x400 - 0x20

/-- POWER_DOMAIN of a page (R432). -/
def pgPower (slot : Nat) : Nat :=
  let h := pgHalf slot
  let d := pgDie slot
  match pgType slot with
  | 0x04 => 56
  | 0x09 => 59 | 0x0A => 59 | 0x0F => 59 | 0x10 => 59
  | 0x11 => 56 + 4 * h | 0x18 => 56 + 4 * h
  | 0x12 => 57 + 4 * h | 0x13 => 57 + 4 * h | 0x19 => 57 + 4 * h | 0x1B => 57 + 4 * h
  | 0x14 => 58 + 4 * h | 0x15 => 58 + 4 * h
  | 0x16 => 59 + 4 * h | 0x17 => 59 + 4 * h | 0x1A => 59 + 4 * h
  | 0x1E => 14 * d + 12 | 0x25 => 14 * d + 12 | 0x26 => 14 * d + 12
  | 0x20 => 14 * d + 13
  | 0x27 => 14 * d + pgCluster slot / 3 | 0x28 => 14 * d + pgCluster slot / 3
  | ty => if ty < 0x11 then 64 else 14 * d + 11

/-- CLOCK_DOMAIN of a page (R432). -/
def pgClock (slot : Nat) : Nat :=
  let h := pgHalf slot
  let d := pgDie slot
  match pgType slot with
  | 0x04 => 24
  | 0x09 => 28 | 0x0A => 28 | 0x0F => 28 | 0x10 => 28
  | 0x11 => 24 + h | 0x12 => 24 + h | 0x13 => 24 + h | 0x18 => 24 + h | 0x19 => 24 + h
  | 0x14 => 26 + h | 0x15 => 26 + h | 0x1B => 26 + h
  | 0x16 => 28 | 0x17 => 28 | 0x1A => 28
  | 0x25 => 6 * d + 2 + (slot % 0x400 - 12)
  | 0x26 => 6 * d + 2 + (slot % 0x400 - 16)
  | 0x27 => 6 * d | 0x28 => 6 * d
  | ty => if ty < 0x11 then 37 else 6 * d + 1

/-- Has the page type a tremor counter (R353)? -/
def pgTremor (ty : Nat) : Bool := [0x28, 0x27, 0x1D, 0x1F, 0x1E, 0x20, 0x12, 0x13, 0x1B].contains ty

/-- Reset value of TREMOR_WINDOW (R353). -/
def pgWindow (ty : Nat) : Nat :=
  match ty with
  | 0x27 => 200000
  | 0x1D => 10000000
  | 0x13 => 1000000
  | 0x1B => 1000000
  | _ => if pgTremor ty then 100000 else 0

/-! ### Fault sources (R346) -/

/-- Default classes of a page type's sources, by bit number. -/
def pgClasses (ty : Nat) : List Nat :=
  match ty with
  | 0x01 => [1]
  | 0x04 => [1, 1, 2]
  | 0x07 => [1, 4, 4, 4]
  | 0x08 => [0, 1, 4]
  | 0x09 => [1, 1]
  | 0x12 => [2, 2, 2, 2, 2, 0, 2]
  | 0x13 => [2, 2]
  | 0x14 => [0, 2, 2]
  | 0x19 => [0, 1, 1, 1, 3, 0, 1, 3, 2]
  | 0x20 => [0, 1, 1, 1, 3, 0, 1, 3, 2]
  | 0x1A => [1, 1, 1, 1, 0]
  | 0x1C => [2, 0, 1, 1]
  | 0x1D => [2, 2, 0, 1, 2, 2]
  | 0x1E => [0, 2, 1, 0, 1, 1, 3, 1]
  | _ => []

/-- Source number of HANG. -/
def srcHang : Nat := 15

/-- Has the page type source HANG? The hang engine's page has it too, since R364 logs it there
(assumption 13). -/
def hasHang (ty : Nat) : Bool := pgTremor ty || ty = 0x10

/-- Is `n` a source of a page of this type? -/
def hasSource (ty n : Nat) : Bool := n < (pgClasses ty).length || (n = srcHang && hasHang ty)

/-- Default class of source `n`. -/
def defaultClass (ty n : Nat) : Nat :=
  if n = srcHang then (if !hasHang ty then 0 else if ty = 0x27 ∨ ty = 0x28 then 1 else 2)
  else (pgClasses ty).getD n 0

/-- The class at which a Job-fatal event without a job acts (R345): Corrected for HI_BAR4_ERR,
Deferred for every other source. -/
def noJobClass (ty n : Nat) : Nat := if ty = 0x14 ∧ n = 1 then 0 else 1

/-- SOURCES of a page type. -/
def pgSources (ty : Nat) : Nat := (pgClasses ty).length + b2n (hasHang ty)

/-! ### The common header (R334) -/

/-- TREMOR_EN of CTL. -/
def hdrTremorEn : Fld := ⟨0x10, 0, 1, .rw, 1⟩
/-- SRC of FAULT_STICKY. -/
def hdrSticky : Fld := ⟨0x18, 0, 16, .w1c, 0⟩
/-- SRC of FAULT_MASK. -/
def hdrMask : Fld := ⟨0x1C, 0, 16, .rw, 0⟩
/-- CLASSn of FAULT_CLASS of a page type. -/
def hdrClass (ty n : Nat) : Fld := ⟨0x20 + 4 * (n / 8), 4 * (n % 8), 4, .rw, defaultClass ty n⟩
/-- WINDOW of TREMOR_WINDOW of a page type. -/
def hdrWindow (ty : Nat) : Fld := ⟨0x2C, 0, 32, .rw, pgWindow ty⟩

/-- The class programmed for a source. -/
def classOf (s : State) (slot n : Nat) : Nat := rg s slot (hdrClass (pgType slot) n)

/-- The slots whose FAULT_STICKY is not zero, ascending, with their sticky bits. -/
def stickyPages (s : State) : List (Nat × Nat) :=
  s.regs.filterMap (fun (k, v) => if k % 32768 = 0x18 * 8 then some (k / 32768, v) else none)

/-! ### Block state (R339 to R341) -/

/-- The lobe of a die. -/
def lobeOf (d : Nat) : Nat := d / 2

/-- Is the lobe fenced (LOBE_MODE.FENCED_W, FENCED_E)? -/
def lobeFenced (s : State) (l : Nat) : Bool :=
  rgB s solSlot (if l = 0 then lobeModeFencedW else lobeModeFencedE)

/-- Is the lobe off (PWR_STATE.OFF_W, OFF_E)? -/
def lobeOff (s : State) (l : Nat) : Bool :=
  rgB s pwrSlot (if l = 0 then pwrStateOffW else pwrStateOffE)

/-- Has the physical cluster failed a test or been fenced (CLUSTER_FAILED)? -/
def clusterFailed (s : State) (d c : Nat) : Bool :=
  if c < 32 then bit (rg s (dcSlot d) clusterFailedLo) c else rgB s (dcSlot d) clusterFailedHi

/-- The reset level of a scope (R355). -/
def scopeLevel : Scope → Nat
  | .tile .. => 0
  | .cluster .. => 1
  | .die _ => 2
  | .lobe _ => 3
  | .package => 4
  | .full => 5

/-- Is the page's block among the instances that the scope names? -/
def scopeNames (slot : Nat) : Scope → Bool
  | .tile d c t => slot = tileSlot d c t
  | .cluster d c =>
    isDiePage slot && pgDie slot = d && pgLevel (pgType slot) ≤ 1 && pgCluster slot = c
  | .die d => isDiePage slot && pgDie slot = d
  | .lobe l => isDiePage slot && lobeOf (pgDie slot) = l
  | _ => true

/-- Does a reset of the scope reset the page (R335)? -/
def resetsPage (sc : Scope) (slot : Nat) : Bool :=
  pgType slot ≠ 0 && pgLevel (pgType slot) ≤ scopeLevel sc && scopeNames slot sc

/-- This package's position, from its straps (R225). -/
def myPos (s : State) : Nat := encPos s.pins.straps.meshX s.pins.straps.meshY s.pins.straps.meshZ

/-- Are ERUPT packets of this package still to leave it? -/
def eruptsLeave (s : State) : Bool :=
  let mine (p : Packet) : Bool := p.type = 0xA && p.src = myPos s
  s.inject.any mine || s.outq.any (fun w => mine w.pkt)

/-- The pages of the router and of the optical engines: a full package reset leaves them until its own ERUPT
packets have left (R361). -/
def carriesErupts (slot : Nat) : Bool := pgType slot = 0x04 || pgType slot = 0x1A

/-- Is the page's block in reset? While the package is held, all but the Solfatara domain is. -/
def pageInReset (s : State) (slot : Nat) : Bool :=
  s.resets.any (fun r => !r.wait && resetsPage r.scope slot &&
    !(r.scope = .full && carriesErupts slot && !r.booted)) ||
  (rgB s solSlot resetStatusHeld && pgPower slot ≠ 64)

/-- Is the page's block fenced (R340)? -/
def pageFenced (s : State) (slot : Nat) : Bool :=
  isDiePage slot && (lobeFenced s (lobeOf (pgDie slot)) ||
    (pgLevel (pgType slot) ≤ 1 && clusterFailed s (pgDie slot) (pgCluster slot)))

/-- Is an OE die off: the ports of its four groups are dark, or it has been refused (R378, R381)? One that has not
been read yet is on, so that it can be (assumption 135). -/
def oeOff (s : State) (o : Nat) : Bool :=
  rg s (oeSlot o) oeStatusAdmit = 3 ||
  (List.range 4).all (fun k => match groupPort s (4 * o + k) with
    | some p => portDark s p
    | none => true)

/-- Has a reset in progress switched the domain on, to train and to test what it holds (R355, R381, assumption
137)? -/
def resetPowers (s : State) (dom : Nat) : Bool :=
  s.resets.any (fun r => match r.scope with
    | .full => r.booted
    | .package => true
    | .lobe l => dom < 56 && lobeOf (dom / 14) = l
    | _ => false)

/-- Is the power domain on or gated with retention, in the power state in force (R378, R381)? -/
def domainOn (s : State) (dom : Nat) : Bool :=
  let cur := rg s pwrSlot pwrStateCur
  if dom = 64 then s.pins.vauxOk
  else if dom ≥ 65 && oeOff s (dom - 65) then false
  else if resetPowers s dom then true
  else if cur = 4 then false
  else if dom ≥ 56 then !(cur = 3 && (dom = 57 || dom = 61))
  else dom % 14 = 12 || !(cur = 3 || lobeOff s (lobeOf (dom / 14)))

/-- Does a clock run (R376 to R378)? A PLL is stopped where the domains that need it are off: of a die where all of its
fabric, memory and Rilun domains are, of an OE die with that die's own domain; a PCIe clock is its port's reference. -/
def clockRuns (s : State) (clk : Nat) : Bool :=
  if clk < 24 then
    let d := clk / 6
    if clk % 6 ≤ 1 then [11, 12, 13].any (fun k => domainOn s (14 * d + k)) else domainOn s (14 * d + 12)
  else if clk < 26 then domainOn s (56 + 4 * (clk - 24))
  else if clk < 28 then domainOn s (58 + 4 * (clk - 26)) && (if clk = 26 then s.pins.ref0 else s.pins.ref1)
  else if clk = 28 then domainOn s 59 || domainOn s 63
  else if clk < 37 then domainOn s (65 + (clk - 29))
  else if clk = 37 then s.pins.vauxOk
  else domainOn s 56

/-- POWER of a page's STATE. -/
def pagePower (s : State) (slot : Nat) : Nat :=
  if !domainOn s (pgPower slot) then 0
  else if isDiePage slot && pgLevel (pgType slot) ≤ 1 then
    let d := pgDie slot
    let g := pgCluster slot / 3
    if mget 0 s.waking (d * 11 + g) ≠ 0 then 2
    else if bit (rg s (dpSlot d) groupGated) g then 1 else 3
  else 3

/-- RESET of a page's STATE. -/
def pageReset (s : State) (slot : Nat) : Nat :=
  if pageInReset s slot then 1 else if pageFenced s slot then 2 else 0

/-- Are accesses to the block's own registers performed (R340)? Not where the block is off, in reset or
fenced. -/
def performs (s : State) (slot : Nat) : Bool := pagePower s slot ≠ 0 && pageReset s slot = 0

/-! ### The management endpoint and the test port (R423, R426) -/

/-- Is the endpoint on the bus: powered, served by the Solfatara firmware or, without a valid copy of it, by
the ROM (R389)? -/
def endpointOn (s : State) : Bool := s.pins.vauxOk && s.pins.vioOk

/-- Does the endpoint take firmware updates: it is on the bus with a dynamic address? -/
def takesUpdates (s : State) : Bool := endpointOn s && rgB s mgmtSlot mgmtStatusAssigned

/-- Does it answer other requests too: the ROM serves firmware update only (R389)? -/
def answers (s : State) : Bool := takesUpdates s && s.boot.solOk

/-- Is debug access through JTAG open: factory test mode with scope bit 1 of the unlock token, its supplies there
and TRST_N high (R400, R418, R426)? -/
def debugOpen (s : State) : Bool :=
  s.boot.test && bit s.boot.scope 1 && s.pins.vauxOk && s.pins.vioOk && !s.pins.trstLow

/-- Does an access of a requester reach the package: the endpoint answers, or debug access is open? -/
def reached (s : State) : Requester → Bool
  | .pcie0 => true
  | .pcie1 => true
  | .management => answers s
  | .testAccess => debugOpen s

/-- The domain that holds the header of a page is on and out of reset (R339): a die's fabric, a Caldera
half's control and security domain, or the Solfatara domain. -/
def parentRuns (s : State) (slot : Nat) : Bool :=
  if isDiePage slot then
    domainOn s (14 * pgDie slot + 11) && !pageInReset s (dcSlot (pgDie slot))
  else if 0x100 ≤ slot then
    domainOn s (59 + 4 * pgHalf slot) && !pageInReset s (halfSlot (pgHalf slot) 5)
  else s.pins.vauxOk

/-- Are the header fields of a page read and written as they are held (R339, R340)? Where not, only PAGE_ID,
PAGE_VER, PAGE_CAPS and STATE are answered. -/
def headerRuns (s : State) (slot : Nat) : Bool := performs s slot && parentRuns s slot

/-- An access to a block-specific register wakes a gated group (R340): the group is on afterwards. -/
def wakeFor (s : State) (slot : Nat) : State :=
  if pagePower s slot = 1 ∨ pagePower s slot = 2 then
    let d := pgDie slot
    let g := pgCluster slot / 3
    let s := { s with waking := mdel s.waking (d * 11 + g) }
    wg s (dpSlot d) groupGated (setBits (rg s (dpSlot d) groupGated) g 1 0)
  else s

/-- A field of the header read. -/
def readHeader (s : State) (slot off : Nat) : Nat :=
  let ty := pgType slot
  match off with
  | 0x00 => ty * 2 ^ 24 + pgInstance slot
  | 0x04 => 0x41010100
  | 0x08 => b2n (pgTremor ty) * 2 ^ 31 + pgLevel ty * 2 ^ 28 + pgPower slot * 2 ^ 21 +
      pgClock slot * 2 ^ 15 + pgSources ty * 2 ^ 5
  | 0x14 => pagePower s slot * 2 ^ 29 + pageReset s slot * 2 ^ 27
  | _ =>
    if !headerRuns s slot then 0
    else match off with
    | 0x10 => rg s slot hdrTremorEn
    | 0x18 => rg s slot hdrSticky
    | 0x1C => rg s slot hdrMask
    | 0x20 => ((List.range 8).map (fun n => classOf s slot n * 2 ^ (4 * n))).sum
    | 0x24 => ((List.range 8).map (fun n => classOf s slot (8 + n) * 2 ^ (4 * n))).sum
    | 0x2C => if pgTremor ty then rg s slot (hdrWindow ty) else 0
    | _ => 0

/-- Sources of a page type as a mask of bits. -/
def sourceMask (ty : Nat) : Nat :=
  ((List.range 16).map (fun n => if hasSource ty n then 2 ^ n else 0)).sum

/-- A write to a header register: class nibbles take no reserved code, bits of absent sources are
ignored, TREMOR_WINDOW takes 10 to 60,000,000 (R334, R336). On a page without a tremor counter TREMOR_EN is ignored
(R431): the write changes nothing, so that the field reads as before (DESIGN CHOICE, assumption 136). -/
def writeHeader (s : State) (slot off val : Nat) : State :=
  let ty := pgType slot
  match off with
  | 0x10 => if pgTremor ty then wg s slot hdrTremorEn (val % 2) else s
  | 0x18 =>
    let v := rg s slot hdrSticky
    wg s slot hdrSticky (v - (v &&& val))
  | 0x1C => wg s slot hdrMask (val &&& sourceMask ty)
  | 0x2C => if pgTremor ty ∧ 10 ≤ val ∧ val ≤ 60000000 then wg s slot (hdrWindow ty) val else s
  | _ =>
    if off = 0x20 ∨ off = 0x24 then
      forEach (List.range 8) s (fun s k =>
        let n := 2 * (off - 0x20) + k
        let c := bits val (4 * k) 4
        if hasSource ty n ∧ c ≤ 4 then wg s slot (hdrClass ty n) c else s)
    else s

/-- The sum of the stored fields of a register; an action bit reads as zero. -/
def storedRead (s : State) (slot off : Nat) : Nat :=
  (((blockFields (pgType slot)).filter (fun f => f.off = off && f.acc ≠ .wo)).map
    (fun f => fput f (rg s slot f))).sum

/-! ### Progress (R334, R353) -/

/-- The tremor counter of a page. -/
def tremorOf (s : State) (slot : Nat) : Tremor := mget {} s.tremor slot

/-- Setting it. -/
def setTremor (s : State) (slot : Nat) (x : Tremor) : State :=
  { s with tremor := mset {} s.tremor slot x }

/-- `k` retirement events of a page's engine: COUNT moves, wrapping. -/
def retire (s : State) (slot : Nat) (k : Nat := 1) : State :=
  let x := tremorOf s slot
  setTremor s slot (if k = 0 then x
    else { x with count := (x.count + k) % 2 ^ 32, moved := some s.clock })

/-- Microseconds since a moment. -/
def since (s : State) (t : Int) : Nat := ((s.clock : Int) - t).toNat

/-- AGE before it saturates: the time since COUNT last moved or PENDING last rose, whichever is later; 0
where neither has happened since the page's reset (assumption 114). -/
def tremorAge (s : State) (slot : Nat) : Nat :=
  let x := tremorOf s slot
  match x.moved, x.rose with
  | some a, some b => min (since s a) (since s b)
  | some a, none => since s a
  | none, some b => since s b
  | none, none => 0

/-- AGE of TREMOR_STATUS, saturating. -/
def ageField (s : State) (slot : Nat) : Nat := min (tremorAge s slot) (2 ^ 30 - 1)

/-- Has COUNT of an engine with pending work not moved for more than half of its window? Where COUNT has
never moved, the time since PENDING rose counts (assumption 114). -/
def isStalled (s : State) (slot : Nat) : Bool :=
  let x := tremorOf s slot
  let t := match x.moved, x.rose with
    | some a, _ => since s a
    | none, some b => since s b
    | none, none => 0
  rg s slot (hdrWindow (pgType slot)) < 2 * t

end Sys2Proof.Machine
end

