-- ==== Sys2Proof/Machine/Flags.lean ====
section
/-!
DEFINITION. The flags of the package: completion records owed to the host (R328), sticky bits,
class counts, FAULT_N and the fault summary (R343 to R349), the fault log (R351) and the alert
queue (R424). An event is recorded here; the actions that its class takes are listed, and taken by
the reset ladder.
-/

namespace Sys2Proof.Machine

/-! ### Source numbers (R346) -/

/-- OPT_PLAN_BAD (page 0x01). -/
def srcOptPlanBad : Nat := 0
/-- FAB_MISWIRE (page 0x04). -/
def srcFabMiswire : Nat := 0
/-- FAB_PORT_DOWN. -/
def srcFabPortDown : Nat := 1
/-- FAB_NACK. -/
def srcFabNack : Nat := 2
/-- SUP_VIN_LOW (page 0x07). -/
def srcVinLow : Nat := 0
/-- SUP_VIN_HIGH. -/
def srcVinHigh : Nat := 1
/-- SUP_OVERCURRENT. -/
def srcOvercurrent : Nat := 2
/-- SUP_VAUX_LOW. -/
def srcVauxLow : Nat := 3
/-- THERM_WARN (page 0x08). -/
def srcThermWarn : Nat := 0
/-- THERM_HOT. -/
def srcThermHot : Nat := 1
/-- THERM_TRIP. -/
def srcThermTrip : Nat := 2
/-- SEC_AUTH_FAIL (page 0x09). -/
def srcAuthFail : Nat := 0
/-- SEC_ROLLBACK. -/
def srcRollback : Nat := 1
/-- GEY_DUP (page 0x12). -/
def srcGeyDup : Nat := 0
/-- GEY_OVERRUN. -/
def srcGeyOverrun : Nat := 1
/-- GEY_SHAPE. -/
def srcGeyShape : Nat := 2
/-- GEY_NOT_HOST. -/
def srcGeyNotHost : Nat := 3
/-- GEY_NO_QUOTA. -/
def srcGeyNoQuota : Nat := 4
/-- GEY_MEM_CE. -/
def srcGeyMemCe : Nat := 5
/-- GEY_MEM_UE. -/
def srcGeyMemUe : Nat := 6
/-- COLL_OP_ERR (page 0x13). -/
def srcCollOpErr : Nat := 0
/-- COLL_GRANT_FULL. -/
def srcCollGrantFull : Nat := 1
/-- HI_BAD_ACCESS (page 0x14). -/
def srcBadAccess : Nat := 0
/-- HI_BAR4_ERR. -/
def srcBar4Err : Nat := 1
/-- HI_HOST_ERR. -/
def srcHostErr : Nat := 2
/-- RIL_CORR (pages 0x19, 0x20). -/
def srcRilCorr : Nat := 0
/-- RIL_LANE_SPARED. -/
def srcLaneSpared : Nat := 1
/-- RIL_LANE_MARGINAL. -/
def srcLaneMarginal : Nat := 2
/-- RIL_BUNDLE_DOWN. -/
def srcBundleDown : Nat := 3
/-- RIL_EDGE_DOWN. -/
def srcEdgeDown : Nat := 4
/-- RIL_CTRL_RETRY. -/
def srcCtrlRetry : Nat := 5
/-- RIL_CTRL_DOWN. -/
def srcCtrlDown : Nat := 6
/-- RIL_CTRL_LOST. -/
def srcCtrlLost : Nat := 7
/-- RIL_EDGE_RESET. -/
def srcEdgeReset : Nat := 8
/-- OE_ADMIT_FAIL (page 0x1A). -/
def srcAdmitFail : Nat := 0
/-- OPT_LANE_FAIL. -/
def srcOptLaneFail : Nat := 1
/-- OPT_GROUP_DOWN. -/
def srcOptGroupDown : Nat := 2
/-- OPT_LASER_LOW. -/
def srcLaserLow : Nat := 3
/-- OPT_LASER_HIGH. -/
def srcLaserHigh : Nat := 4
/-- TASK_MALFORMED (page 0x1C). -/
def srcTaskMalformed : Nat := 0
/-- TASK_BOX_DROP. -/
def srcTaskBoxDrop : Nat := 1
/-- CLUSTER_NO_SPARE. -/
def srcNoSpare : Nat := 2
/-- CLUSTER_FENCED. -/
def srcClusterFenced : Nat := 3
/-- SEQ_MALFORMED (page 0x1D). -/
def srcSeqMalformed : Nat := 0
/-- SEQ_PHASE_FAIL. -/
def srcSeqPhaseFail : Nat := 1
/-- PAIR_TRANSIENT. -/
def srcPairTransient : Nat := 2
/-- PAIR_PERSIST. -/
def srcPairPersist : Nat := 3
/-- PAIR_UNRESOLVED. -/
def srcPairUnresolved : Nat := 4
/-- SEQ_LEAF_ERR. -/
def srcSeqLeafErr : Nat := 5
/-- MEM_CE (page 0x1E). -/
def srcMemCe : Nat := 0
/-- MEM_UE. -/
def srcMemUe : Nat := 1
/-- MEM_UE_SCRUB. -/
def srcMemUeScrub : Nat := 2
/-- MEM_CE_REPEAT. -/
def srcMemCeRepeat : Nat := 3
/-- MEM_REPAIR_FULL. -/
def srcMemRepairFull : Nat := 4
/-- MEM_MAPOUT. -/
def srcMemMapout : Nat := 5
/-- MEM_CH_FAIL. -/
def srcMemChFail : Nat := 6
/-- MEM_RETRAIN. -/
def srcMemRetrain : Nat := 7

/-! ### Completion status codes (R275, R330) -/

/-- OK. -/
def stOk : Nat := 0x01
/-- MALFORMED. -/
def stMalformed : Nat := 0x02
/-- WINDOW. -/
def stWindow : Nat := 0x03
/-- ABORTED. -/
def stAborted : Nat := 0x04
/-- ABORTED_BY_PEER. -/
def stAbortedByPeer : Nat := 0x05
/-- MISMATCH. -/
def stMismatch : Nat := 0x06
/-- Q_STOPPED. -/
def stQStopped : Nat := 0x07
/-- DATA_ERROR. -/
def stDataError : Nat := 0x08
/-- ADDR_ERR. -/
def stAddrErr : Nat := 0x09
/-- HOST_ERROR. -/
def stHostError : Nat := 0x0A
/-- TIMEOUT. -/
def stTimeout : Nat := 0x0B
/-- BUSY. -/
def stBusy : Nat := 0x0C
/-- FAILED. -/
def stFailed : Nat := 0x0D
/-- TARGET_RESET. -/
def stTargetReset : Nat := 0x0E

/-! ### Commands and their records -/

/-- OPCODE of a command (R326). -/
def cmdOp (c : Cmd) : Nat := bits c.raw 0 8
/-- JOB of a command. -/
def cmdJob (c : Cmd) : Nat := bits c.raw 16 12
/-- FENCE of a command's FLAGS; a queue post has no flags. -/
def cmdFence (c : Cmd) : Bool := !c.queueKind && bit c.raw 9
/-- IRQ of a command's FLAGS; a queue post counts as if it were set (assumption 14). -/
def cmdIrq (c : Cmd) : Bool := c.queueKind || bit c.raw 8

/-- The command with a handle on a port. -/
def cmdOf (s : State) (p n h : Nat) : Option Cmd := (cportOf s p n).cmds.find? (fun c => c.handle = h)

/-- Changing a command of a port. -/
def updCmd (s : State) (p n h : Nat) (f : Cmd → Cmd) : State :=
  updCPort s p n (fun cp => { cp with cmds := updFirst (fun c => c.handle = h) f cp.cmds })

/-- The command port of a handle (R324): PCIe port and command port. -/
def handlePort (h : Nat) : Nat × Nat := (h / 2 ^ 48 / 256, h / 2 ^ 48 % 256)

/-- A command completes: it leaves its port, and its record waits for its ring (R328, R329). A
handle whose port has been reset is unknown, and nothing happens (R318). -/
def complete (s : State) (h status result : Nat) (detail : Nat := 0) : State :=
  let (p, n) := handlePort h
  match cmdOf s p n h with
  | none => s
  | some c =>
    let cp := cportOf s p n
    let s := updCPort s p n (fun cp => { cp with cmds := cp.cmds.filter (fun x => x.handle ≠ h) })
    updRing s p cp.ring (fun r => { r with waiting := r.waiting ++
      [⟨h, result, s.ft.t, detail, status, cmdIrq c⟩] })

/-- Every accepted command of the package: handle and command. -/
def allCmds (s : State) : List Cmd := s.cports.flatMap (fun (_, cp) => cp.cmds)

/-! ### The log, the alert queue and the class counts -/

/-- A fault source of a block is raised: the event waits for the aggregator, which takes it at the
end of the step. -/
def raise (s : State) (e : Event) : State := { s with due := s.due ++ [e] }

/-- The class at which an event acts (R345). -/
def actingClass (s : State) (e : Event) : Nat :=
  let c := classOf s e.slot e.src
  if e.bare then 2
  else if c = 2 ∧ e.job = 0 then noJobClass (pgType e.slot) e.src else c

/-- Is the source masked? -/
def isMasked (s : State) (e : Event) : Bool := !e.bare && bit (rg s e.slot hdrMask) e.src

/-- Is its sticky bit set? -/
def isSticky (s : State) (e : Event) : Bool := !e.bare && bit (rg s e.slot hdrSticky) e.src

/-- Fabric time is in holdover or unsynchronised (R351, R253). -/
def unsynced (s : State) : Bool :=
  rgB s routerSlot ftStatusHoldover ||
  !(rgB s routerSlot ftStatusSync || rgB s routerSlot ftStatusMaster)

/-- The log entry of an event, at the next index (R351). -/
def logEntry (s : State) (e : Event) (c : Nat) (masked first : Bool) : LogEntry :=
  let (t, u) := e.stamp.getD (s.ft.t, unsynced s)
  { time := t, index := rg s logSlot logStatus, slot := e.slot, source := e.src
    flags := c + 16 * b2n masked + 32 * b2n first + 64 * b2n u + 128 * b2n e.injected
    job := e.job, epoch := if e.job = 0 then 0 else (jobOf s e.job).epoch, part := e.part
    detail := e.detail }

/-- Writing the entry of an event into the log. -/
def logWrite (s : State) (e : Event) (c : Nat) (masked first : Bool) : State :=
  let i := rg s logSlot logStatus
  wg { s with log := mset {} s.log (i % 4096) (logEntry s e c masked first) } logSlot logStatus (i + 1)

/-- Is it one of the events of Paired mode, which every record carries (R315)? -/
def isPairEvent (slot src : Nat) : Bool :=
  pgType slot = 0x1D && (src = srcPairTransient || src = srcPairPersist || src = srcPairUnresolved)

/-- An event of Paired mode that does not enter the log is kept for the open Landom records (R315,
assumption 120). -/
def keepPair (s : State) (e : Event) (c : Nat) (masked first : Bool) : State :=
  if isPairEvent e.slot e.src ∧ !e.bare then
    let x := logEntry s e c masked first
    { s with records := s.records.map (fun (j, r) => (j, if r.isOpen then { r with pairs := r.pairs ++ [x] } else r)) }
  else s

/-- Started WAIT_FAULT commands of class `c` or below complete with the log index (R326). A later
command never waits for one. -/
def waitFaults (s : State) (c index : Nat) : State :=
  forEach (allCmds s) s (fun s x =>
    if !x.queueKind ∧ cmdOp x = 5 ∧ x.started ∧ bits x.raw 64 64 ≤ c then
      complete s x.handle stOk index
    else s)

/-- Queueing a PLDM event message: a full queue of 64 loses its oldest (R424). -/
def alert (s : State) (e : Event) (c : Nat) : State :=
  let s := if s.alertQ.isEmpty ∧ rgB s mgmtSlot mgmtStatusIbiEn then { s with ibis := s.ibis + 1 }
    else s
  let m : AlertMsg := ⟨e.slot, e.src, c, e.job⟩
  if s.alertQ.length < 64 then { s with alertQ := s.alertQ ++ [m] }
  else incr { s with alertQ := s.alertQ.drop 1 ++ [m] } mgmtSlot evtStatusEvtDrop

/-- Recording an event, whatever its class's actions on jobs, lobes and resets: sticky bit, class
count, log with the waiting commands, alert (R347, R348, R351). -/
def record (s : State) (e : Event) : State :=
  let c := actingClass s e
  let masked := isMasked s e
  let first := !isSticky s e
  let s := if e.bare then s else wg s e.slot hdrSticky (rg s e.slot hdrSticky ||| 2 ^ e.src)
  let s := incr s faSlot (classCount c)
  let s :=
    if e.forced ∨ (rgB s faSlot (classActLog c) ∧ (first ∨ c ≥ 2)) then
      let i := rg s logSlot logStatus
      let s := logWrite s e c masked first
      if masked then s else waitFaults s c i
    else keepPair s e c masked first
  if rgB s faSlot (classActAlert c) ∧ !masked then alert s e c else s

/-! ### FAULT_N and the summary (R349) -/

/-- The unmasked sticky bits of a page with their classes. -/
def shownBits (s : State) (slot sticky : Nat) : List Nat :=
  (List.range 16).filterMap (fun n =>
    if bit sticky n && !bit (rg s slot hdrMask) n then some (classOf s slot n) else none)

/-- Pages that hold an unmasked sticky bit at or above FN_THRESH, ascending. -/
def faultSlots (s : State) : List Nat :=
  (stickyPages s).filterMap (fun (slot, v) =>
    if (shownBits s slot v).any (fun c => rg s faSlot faCtlFnThresh ≤ c) then some slot else none)

/-- Is FAULT_N driven low? A reset in progress holds the level that it had at the start (R349). -/
def faultN (s : State) : Bool := !(faultSlots s).isEmpty || s.resets.any ActiveReset.fn

/-- FAULT_SUMMARY.CLASSES. -/
def summaryClasses (s : State) : Nat :=
  let cs := (stickyPages s).flatMap (fun (slot, v) => shownBits s slot v)
  ((List.range 5).map (fun n => if cs.contains n then 2 ^ n else 0)).sum

/-- FAULT_SUMMARY. Without VIO18 no output is driven (R430). -/
def faultSummary (s : State) : Nat :=
  fput faultSummaryFaultN (b2n (faultN s && s.pins.vioOk)) + fput faultSummaryClasses (summaryClasses s) +
    fput faultSummaryFirstSlot ((faultSlots s).headD 0)

/-- Bits of a page's sticky register whose class has CLEAR set (R350). -/
def clearable (s : State) (slot sticky : Nat) : Nat :=
  ((List.range 16).map (fun n =>
    if bit sticky n && rgB s faSlot (classActClear (classOf s slot n)) then 2 ^ n else 0)).sum

/-! ### Jobs (R241) -/

/-- Is the job active on the package? -/
def jobActive (s : State) (j : Nat) : Bool :=
  let x := jobOf s j
  1 ≤ j && j ≤ 4095 && x.member && (x.state = 1 || x.state = 2)

/-- Active jobs, ascending. -/
def activeJobs (s : State) : List Nat :=
  s.jobs.filterMap (fun (j, _) => if jobActive s j then some j else none)

/-- Is the sequencer of die `d` running or stopping? -/
def seqRunning (s : State) (d : Nat) : Bool :=
  let st := rg s (seqSlot d) seqStatusState
  st = 1 || st = 2

/-- The job that the sequencer of die `d` runs for, 0 for none. -/
def seqJob (s : State) (d : Nat) : Nat := if seqRunning s d then (seqOf s d).job else 0

/-- Does the job hold a window entry in a domain that takes memory of the lobe (R241)? A die buffer
counts with its die's lobe (assumption 15). -/
def windowInLobe (s : State) (j l : Nat) : Bool :=
  s.jw.any (fun (_, e) => e.valid && e.job = j &&
    (match domOf (e.base * 65536) with
     | some dom => (domLobes dom).contains l
     | none => false))

/-- Is the job active in the lobe? -/
def jobInLobe (s : State) (j l : Nat) : Bool :=
  jobActive s j && (seqJob s (2 * l) = j || seqJob s (2 * l + 1) = j || windowInLobe s j l)

end Sys2Proof.Machine
end

