-- ==== Sys2Proof/Machine/Access.lean ====
section
/-!
DEFINITION. Accesses to memory with the controllers' code: error reports and repair candidates
(R180 to R187), and stores that leave an uncorrectable sector unchanged when they cover only part
of it (R171, R181).
-/

namespace Sys2Proof.Machine

/-! ### Paths (R16 to R18) -/

/-- The page and the base of the edge set that shows an end. -/
def edgeSet (e : EdgeEnd) : Nat × Nat :=
  let k := e.edge.val
  if k < 2 then (rilSlot (2 * k + b2n e.far), 0x80)
  else if e.far then (cedgeSlot (k - 2), 0x80) else (rilSlot (k - 2), 0xC0)

/-- A field of an end's edge set. -/
def erg (s : State) (e : EdgeEnd) (f : Nat → Fld) : Nat := rg s (edgeSet e).1 (f (edgeSet e).2)

/-- The in-lobe edge of a die. -/
def lobeEdge (d : Nat) : Fin 6 := ⟨d / 2 % 6, Nat.mod_lt _ (by decide)⟩

/-- The edge of a die to its Caldera half. -/
def calderaEdge (d : Nat) : Fin 6 := ⟨(2 + d) % 6, Nat.mod_lt _ (by decide)⟩

/-- What a path leads over: an edge, or the Caldera's spine. -/
inductive Hop where
  | edge (k : Fin 6)
  | spine
  deriving DecidableEq, Repr

/-- The fixed path to a die (R17, R18). -/
def pathTo (src : Source) (dst : Nat) : List Hop :=
  match src with
  | .die d =>
    if d = dst then []
    else if lobeOf d = lobeOf dst then [.edge (lobeEdge d)]
    else [.edge (calderaEdge d), .spine, .edge (calderaEdge dst)]
  | .half h => (if h = lobeOf dst then [] else [.spine]) ++ [.edge (calderaEdge dst)]
  | .fabric => [.spine, .edge (calderaEdge dst)]

/-- Does traffic pass: is the edge up at both ends? The spine always is. -/
def hopOpen (s : State) : Hop → Bool
  | .edge k => erg s ⟨k, false⟩ edgeStatusState = 3 && erg s ⟨k, true⟩ edgeStatusState = 3
  | .spine => true

/-- Is the whole path to a die open? -/
def pathOpen (s : State) (src : Source) (dst : Nat) : Bool := (pathTo src dst).all (hopOpen s)

/-- Is every edge of the package open? -/
def edgesOpen (s : State) : Bool := (List.finRange 6).all (fun k => hopOpen s (.edge k))

/-- Do control messages pass between two dies: is a control bundle up at both ends of every edge on their
path (R17, R200)? -/
def ctrlOpen (s : State) (src dst : Nat) : Bool := (pathTo (.die src) dst).all (fun h => match h with
  | .edge k => erg s ⟨k, false⟩ edgeStatusCtrlUp ≠ 0 && erg s ⟨k, true⟩ edgeStatusCtrlUp ≠ 0
  | .spine => true)

/-! ### Errors of sectors (R180 to R187) -/

/-- What the code of the sector that holds `a` is known to find: 0 no error, 1 an error that it corrects, 2
one that it only detects. -/
def errOf (s : State) (a : Nat) : Nat := mget 0 s.errs (sectorOf a)

/-- Setting it; a sector without an error has no report outstanding. -/
def setErr (s : State) (a n : Nat) : State :=
  { s with
    errs := mset 0 s.errs (sectorOf a) n
    seen := if n = 0 then s.seen.filter (fun x => x.2 ≠ sectorOf a) else s.seen }

/-- Is the sector that holds `a` known to be uncorrectable? -/
def isBad (s : State) (a : Nat) : Bool := 2 ≤ errOf s a

/-- Channel, channel byte address and owning die of a sector of stacked memory. -/
def sectorPlace (s : State) (a : Nat) : Nat × Nat × Nat :=
  match locate s (sectorOf a) with
  | some (ch, cb) => (ch, cb, chanDie ch)
  | none => (0, 0, 0)

/-- The error registers of a die take a report: KIND 0 corrected-error repeat, 1 uncorrectable, 2
uncorrectable on scrub. A CE report does not replace a UE report while VALID is set. -/
def reportError (s : State) (d kind a ch cb : Nat) : State :=
  let m := mgSlot d
  if kind = 0 ∧ rgB s m errInfoValid ∧ rg s m errInfoKind ≠ 0 then s
  else
    let s := wg (wg s m errAddrLo (a / 32)) m errAddrHi (a / 2 ^ 32)
    let s := wg (wg s m errInfoValid 1) m errInfoKind kind
    wg (wg s m errInfoCb (cb / 32)) m errChan ch

/-- The event of a memory source for a sector: DETAIL holds the domain address and the channel
(R351). -/
def memEvent (d src job a ch : Nat) : Event :=
  { slot := mgSlot d, src := src, job := job, part := ch / 64 % 4,
    detail := sectorOf a + ch * 2 ^ 64 }

/-- A row is queued for hard repair (R186): 32 rows per die, a further one raises MEM_REPAIR_FULL. -/
def queueRepair (s : State) (d ch row : Nat) (a : Nat) : State :=
  let q := (memCtl s d).repairQ
  if q.contains (ch, row) then s
  else if q.length < 32 then
    let s := updMem s d (fun m => { m with repairQ := m.repairQ ++ [(ch, row)] })
    wg s solSlot memRepairQueued (rg s solSlot memRepairQueued + 1)
  else raise s (memEvent d srcMemRepairFull 0 a ch)

/-- The row of a channel byte address: the row of R169, one granule of a channel. -/
def rowOf (cb : Nat) : Nat := cb / 256

/-- The sectors in error of a row: address and what their code finds. -/
def rowErrs (s : State) (ch row : Nat) : List (Nat × Nat) :=
  s.errs.filter (fun (a, _) => match locate s a with
    | some (c, cb) => c = ch && rowOf cb = row
    | none => false)

/-- A row becomes a repair candidate in KV-T2-compatible mode (R185, R186). One whose sectors are all
correctable is repaired softly, unless it has lost a soft repair (R187). Whether its bank group has a free
soft-repair resource is a free value. -/
def repairCandidate (s : State) (d ch cb a : Nat) : State :=
  if s.repairCur = 0 then s
  else
    let row := rowOf cb
    if (rowErrs s ch row).all (fun x => x.2 < 2) ∧ rgB s solSlot memRepairSoftEn ∧
        !(memCtl s d).softLost.contains (ch, row) then
      let (i, s) := useFree s
      if Config.freeValue i % 2 = 1 then
        updMem s d (fun m => { m with waiting := m.waiting ++ [(ch, .softRepair row)] })
      else queueRepair s d ch row a
    else queueRepair s d ch row a

/-- A read or a read-modify-write finds a sector uncorrectable: UE_COUNT, the error registers, and
MEM_UE for the job whose window holds the address, or MEM_UE_SCRUB (R180, R181). -/
def foundBad (s : State) (a : Nat) (scrub : Bool) : State :=
  let (ch, cb, d) := sectorPlace s a
  let s := setErr s a 2
  let s := incr s (mgSlot d) ueCount
  let s := reportError s d (if scrub then 2 else 1) (sectorOf a) ch cb
  let s := repairCandidate s d ch cb a
  raise s (memEvent d (if scrub then srcMemUeScrub else srcMemUe)
    (if scrub then 0 else jobAt s a) a ch)

/-- The table of corrected sectors with one more correction at `a`: the count that the sector has
reached, 0 when the table has no room (R183). The list is least recently updated first. -/
def countSector (t : List SectorEntry) (a : Nat) : List SectorEntry × Nat :=
  match t.find? (fun e => e.addr = a) with
  | some e => (t.filter (fun x => x.addr ≠ a) ++ [⟨a, e.count + 1⟩], e.count + 1)
  | none =>
    if t.length < 64 then (t ++ [⟨a, 1⟩], 1)
    else match t.find? (fun e => e.count = 1) with
    | some e => (t.filter (fun x => x.addr ≠ e.addr) ++ [⟨a, 1⟩], 1)
    | none => (t, 0)

/-- A read is corrected by the controller's code (R180, R183). A read that belongs to a repair of the row makes it
no candidate again. -/
def foundCorrected (s : State) (a : Nat) (repairs : Bool := false) : State :=
  let (ch, cb, d) := sectorPlace s a
  let m := mgSlot d
  let s := incr s m ceCount
  let s := raise s (memEvent d srcMemCe (jobAt s a) a ch)
  let (t, n) := countSector (memCtl s d).sectors (sectorOf a)
  let s := updMem s d (fun x => { x with sectors := t })
  if n = rg s m ceThresh then
    let s := reportError s d 0 (sectorOf a) ch cb
    let s := if repairs then s else repairCandidate s d ch cb a
    raise s (memEvent d srcMemCeRepeat (jobAt s a) a ch)
  else s

/-- The read half of a read-modify-write of a sector, as far as its errors are known: the state, and whether
the sector is written (R171, R181). -/
def rmwRead (s : State) (a : Nat) : State × Bool :=
  match errOf s a with
  | 0 => (s, true)
  | 1 => (foundCorrected (setErr s a 0) a, true)
  | _ => (foundBad s a false, false)

/-- Bytes at their addresses, written one by one. -/
def wrPairs (s : State) (ps : List (Nat × Byte)) : State := forEach ps s (fun s (a, b) => wrByte s a b)

/-- `n` bytes of free values. -/
def freeBytes (s : State) (n : Nat) : List Byte × State :=
  ((List.range n).map (fun k => BitVec.ofNat 8 (Config.freeValue (s.free + k))),
   { s with free := s.free + n })

/-- What the code of a sector finds: the symbols in error decide up to two; what it makes of more is a free
value, and where it finds no more than one, what it gives for the data is free too (R179, assumption 118). -/
def codeFinds (s : State) (a symbols : Nat) : State × Nat :=
  if symbols ≤ 2 then (s, symbols)
  else
    let (i, s) := useFree s
    let c := Config.freeValue i % 3
    if c = 2 then (s, c)
    else
      let (bs, s) := freeBytes s 32
      (wrBytes s (sectorOf a) bs, c)

/-! ### The controllers' queues (R175, R406) -/

/-- A controller's bus turns when an access of the other direction follows (R175): 1 read, 2 write. Where its
direction is not known, it is a free value. -/
def turnBus (s : State) (d ch dir : Nat) : State :=
  let m := memCtl s d
  let (x, s) := if mget 0 m.dirs ch = 0 ∧ m.mixed then
      let (i, s) := useFree s
      (1 + Config.freeValue i % 2, s)
    else (mget 0 m.dirs ch, s)
  let s := updMem s d (fun m => { m with dirs := mset 0 m.dirs ch dir })
  if x = 0 ∨ x = dir then s else incr s (mgSlot d) turnCount

/-- The bus takes the directions of an access. -/
def turnFor (s : State) (d ch : Nat) (ts : List Nat) : State := forEach ts s (fun s t => turnBus s d ch t)

/-- An access whose effect stands waits in its channel's queue to be issued (R175). -/
def joinQueue (s : State) (d ch : Nat) (x : Access) (ts : List Nat) : State :=
  updMem s d (fun m => { m with
    queue := mset [] m.queue ch (mget [] m.queue ch ++
      [{ addr := x.addr, reader := x.reader, since := s.clock, turns := ts }]) })

/-- A task that has received an uncorrectable sector never completes DONE (R180). -/
def spoilTask (s : State) (by_ : Reader) : State :=
  match by_ with
  | .task d c t _ =>
    let x := tileOf s d c t
    setTile s d c t { x with task := x.task.map (fun r => { r with spoiled := true }) }
  | _ => s

/-- The reader has met the sector's error by a sector read of its own. -/
def noteSeen (s : State) (by_ : Reader) (a : Nat) : State :=
  if s.seen.contains (by_, sectorOf a) then s else { s with seen := s.seen ++ [(by_, sectorOf a)] }

/-- A sector with so many symbols in error is read: corrected data is returned and not written back, an
uncorrectable sector is reported, and spoils the task that receives it (R179, R180). -/
def readOne (s : State) (by_ : Reader) (a symbols : Nat) : State :=
  match codeFinds s a symbols with
  | (s, 0) => setErr s a 0
  | (s, 1) => noteSeen (foundCorrected (setErr s a 1) a) by_ a
  | (s, _) => spoilTask (noteSeen (foundBad s a false) by_ a) by_

/-- The sectors that a reader's access covers: a task's main path reads the whole granule (R171). -/
def sectorsRead (by_ : Reader) (a : Nat) : List Nat :=
  match by_ with
  | .task _ _ _ false => (List.range 8).map (fun k => a / 256 * 256 + 32 * k)
  | _ => [sectorOf a]

/-- A read takes effect. -/
def readerEffect (s : State) (d : Nat) (by_ : Reader) (x : Access) : State :=
  let secs := sectorsRead by_ x.addr
  let s := forEach (List.range secs.length) s (fun s i =>
    let a := secs.getD i 0
    readOne s by_ a (x.symbols.getD i (errOf s a)))
  retire s (mgSlot d)

/-- A write of bytes of one sector takes effect: part of a sector by read-modify-write, which leaves an
uncorrectable one unchanged (R171, R181). Bytes of a write from the hold buffer stand in memory already.
Answers the directions that the bus takes for it. -/
def writeEffect (s : State) (d : Nat) (x : Access) (buffered : Bool) : State × List Nat :=
  let put (s : State) : State := if buffered then s else wrPairs s x.bytes
  let s := retire s (mgSlot d)
  if x.bytes.length = 32 then (put (setErr s x.addr 0), [2])
  else match codeFinds s x.addr (x.symbols.getD 0 (errOf s x.addr)) with
    | (s, 0) => (put (setErr s x.addr 0), [1, 2])
    | (s, 1) => (put (setErr (foundCorrected s x.addr) x.addr 0), [1, 2])
    | (s, _) => (foundBad s x.addr false, [1])

/-- An access takes effect, and the directions that the bus takes for it. -/
def accessEffect (s : State) (d : Nat) (x : Access) : State × List Nat :=
  match x.reader with
  | some r => (readerEffect s d r x, [1])
  | none => writeEffect s d x false

/-- An access that reaches its controller takes effect and joins its channel's queue. -/
def performAccess (s : State) (d ch : Nat) (x : Access) : State :=
  let (t, ts) := accessEffect s d x
  joinQueue t d ch x ts

/-- A queued access is issued: one that waited for a held channel takes effect now. -/
def issueAccess (s : State) (d ch : Nat) (x : Access) : State :=
  let (s, ts) := if x.turns.isEmpty then accessEffect s d x else (s, x.turns)
  turnFor s d ch ts

/-- Is the queued access among the reads? A read-modify-write is among the writes. -/
def isRead (x : Access) : Bool := if x.turns.isEmpty then x.reader.isSome else x.turns.getLast? == some 1

/-- Do two waiting accesses touch a sector in common? -/
def sameSectors (x y : Access) : Bool :=
  let secs (x : Access) : List Nat := match x.reader with
    | some r => sectorsRead r x.addr
    | none => [sectorOf x.addr]
  (secs x).any (secs y).contains

/-- Place of the first queued access of a direction that no earlier one of a common sector holds back. -/
def nextQueued (q : List Access) (read : Bool) : Option Nat :=
  (List.range q.length).find? (fun i => match q[i]? with
    | some x => isRead x == read && (q.take i).all (fun y => !sameSectors x y)
    | none => false)

/-- The place of the queued access that issues next: one that has waited 10 µs goes ahead of its batch (R406);
else up to BATCH of one direction go, then of the other (R175). `n` counts those of the direction so far. -/
def issueNext (s : State) (d : Nat) (q : List Access) (read : Bool) (n : Nat) : Option Nat :=
  let more := nextQueued q read
  let other := nextQueued q (!read)
  if (q.head?.map (fun x => decide (x.since + 10 ≤ s.clock))).getD false then some 0
  else if other.isSome && (more.isNone || rg s (mgSlot d) memCtlBatch ≤ n) then other
  else more

/-- Queued accesses of a channel issue, those of a common sector in order; `k` bounds them. -/
def issueQueue : Nat → State → Nat → Nat → List Access → Bool → Nat → State
  | 0, s, _, _, _, _, _ => s
  | k + 1, s, d, ch, q, read, n =>
    match issueNext s d q read n with
    | none => s
    | some i =>
      match q[i]? with
      | none => s
      | some x => issueQueue k (issueAccess s d ch x) d ch (q.eraseIdx i) (isRead x)
          (if isRead x = read then n + 1 else 1)

/-- What is queued for a channel issues, with what waited behind its hold. -/
def issueChannel (s : State) (d ch : Nat) (behind : List Access) : State :=
  let q := mget [] (memCtl s d).queue ch ++ behind
  let s := updMem s d (fun m => { m with queue := mset [] m.queue ch [] })
  issueQueue (q.length + 1) s d ch q (mget 0 (memCtl s d).dirs ch ≠ 2) 0

/-- The channel that a die holds. -/
def heldChan (s : State) (d : Nat) : Option Nat := (memCtl s d).hold.map Hold.chan

/-- The queues of a die's channels issue, but for a held one (R175, R406). -/
def issueDie (s : State) (d : Nat) : State :=
  forEach ((memCtl s d).queue.map Prod.fst) s (fun s ch =>
    if heldChan s d = some ch then s else issueChannel s d ch [])

/-- Reads of narrow paths of a die's tasks that are in flight: issued to a controller and not served (R172). -/
def narrowReads (s : State) (d : Nat) : Nat :=
  ((List.range 4).map (fun e =>
    let m := memCtl s e
    ((m.queue.flatMap Prod.snd) ++ (m.hold.map Hold.queue).getD []).countP (fun x => match x.reader with
      | some (.task f _ _ true) => f.val = d
      | _ => false))).sum

/-- The hold of a die ends: its buffer drains in arrival order, then what waited issues (R191). -/
def dropHold (s : State) (d : Nat) : State :=
  match (memCtl s d).hold with
  | none => s
  | some h =>
    let s := wg (updMem s d (fun m => { m with hold := none })) (mgSlot d) holdStatusActive 0
    let s := forEach h.buffer s (fun s x =>
      let (s, ts) := writeEffect s d x true
      turnFor s d h.chan ts)
    issueChannel s d h.chan h.queue

/-! ### Stores (R171, R181, R191) -/

/-- Is the sector in the hold buffer? -/
def inBuffer (h : Hold) (a : Nat) : Bool := h.buffer.any (fun x => sectorOf x.addr = sectorOf a)

/-- Bytes in the hold buffer of a die. -/
def bufferBytes (h : Hold) : Nat := (h.buffer.map (fun x => x.bytes.length)).sum

/-- An access waits behind the held channel of its die. -/
def waitHeld (s : State) (d : Nat) (h : Hold) (x : Access) : State :=
  updMem s d (fun m => { m with hold := some { h with queue := h.queue ++ [x] } })

/-- A write enters the hold buffer, where reads see it; one that would find its sector uncorrectable is not
seen (R181, R191). -/
def bufferWrite (s : State) (d : Nat) (h : Hold) (x : Access) : State :=
  let (s, c) := if x.bytes.length = 32 then (s, 0)
    else codeFinds s x.addr (x.symbols.getD 0 (errOf s x.addr))
  let s := updMem s d (fun m => { m with
    hold := some { h with buffer := h.buffer ++ [{ x with symbols := [c] }] } })
  if c < 2 then wrPairs s x.bytes else s

/-- A write to the held channel: into the hold buffer, or behind it where the buffer is full (R191). -/
def writeHeld (s : State) (d : Nat) (h : Hold) (x : Access) : State :=
  if h.queue.any (fun y => y.reader.isNone) ∨ bufferBytes h + x.bytes.length > 262144 then waitHeld s d h x
  else bufferWrite s d h x

/-- The hold of the channel that a sector lies on, with its die, if it is held. -/
def heldAt (s : State) (a : Nat) : Option (Nat × Hold) :=
  if (List.range 4).all (fun d => (memCtl s d).hold.isNone) then none
  else match locate s (sectorOf a) with
    | some (ch, _) => ((memCtl s (chanDie ch)).hold.filter (fun h => h.chan = ch)).map (fun h => (chanDie ch, h))
    | none => none

/-- Is a channel held on any die? -/
def anyHold (s : State) : Bool := (List.range 4).any (fun d => (memCtl s d).hold.isSome)

/-- A store of bytes of one sector at its controller: a whole sector is written directly with a new code, part
of one by read-modify-write (R171, R181); a held channel's hold buffer takes it (R191). -/
def storeMasked (s : State) (ps : List (Nat × Byte)) : State :=
  match ps with
  | [] => s
  | (a, _) :: _ =>
    match heldAt s a with
    | some (d, h) =>
      writeHeld s d h { addr := a, reader := none, bytes := ps, symbols := [errOf s a], since := s.clock }
    | none =>
      if ps.length = 32 then wrPairs (setErr s a 0) ps
      else match rmwRead s a with
        | (s, true) => wrPairs s ps
        | (s, false) => s

/-- A store of bytes of one sector by its source: it waits for a shut edge on its path, and behind the stores of
its source to the same die that do (R17, R18, R207). -/
def storeVia (s : State) (src : Source) (ps : List (Nat × Byte)) : State :=
  match ps with
  | [] => s
  | (a, _) :: _ =>
    if s.posted.isEmpty && edgesOpen s then storeMasked s ps
    else
      let d := ownerDie s a
      let before (x : Posted) : Bool := x.src == src && x.bytes.any (fun y => ownerDie s y.1 = d)
      if pathOpen s src d && !s.posted.any before then storeMasked s ps
      else { s with posted := s.posted ++ [⟨src, ps⟩] }

/-- The stores that wait go on where their paths are open. -/
def flushPosted (s : State) : State :=
  if s.posted.isEmpty then s
  else forEach s.posted { s with posted := [] } (fun s x => storeVia s x.src x.bytes)

/-- Bytes with their addresses, the first at `a`. -/
def withAddrs (a : Nat) : List Byte → List (Nat × Byte)
  | [] => []
  | b :: bs => (a, b) :: withAddrs (a + 1) bs

/-- A store of bytes, sector by sector; `n` bounds the sectors. -/
def storeSectors : Nat → State → Source → Nat → List Byte → State
  | 0, s, _, _, _ => s
  | n + 1, s, src, a, bs =>
    if bs.isEmpty then s
    else
      let k := 32 - a % 32
      storeSectors n (storeVia s src (withAddrs a (bs.take k))) src (a + k) (bs.drop k)

/-- A store of bytes at an address that reaches memory. -/
def store (s : State) (src : Source) (a : Nat) (bs : List Byte) : State :=
  storeSectors (bs.length + 1) s src a bs

/-- A store, if every byte reaches memory. -/
def storeIf (s : State) (src : Source) (a : Nat) (bs : List Byte) : State :=
  if allReach s a bs.length then store s src a bs else s

/-- The addresses that a store of the host and the Caldera writes: both copies in Paired mode where the address
lies in a job's window, else the primary copy (R307). -/
def copyAddrs (s : State) (a : Nat) : List Nat :=
  if isPaired s && jobAt s a ≠ 0 then a :: (mirrorOf a).toList else [primaryAddr s a]

/-- A store as the host and the Caldera make it. -/
def storeBoth (s : State) (src : Source) (a : Nat) (bs : List Byte) : State :=
  forEach (copyAddrs s a) s (fun s b => store s src b bs)

/-- A store of a die at a written address: the East dies add the mirror offset (R306). -/
def storeDie (s : State) (d a : Nat) (bs : List Byte) : State := storeIf s (.die d) (dieAddr s d a) bs
/-- Sectors in error among `n` bytes from `a`, with what their code finds. -/
def errsIn (s : State) (a n : Nat) : List (Nat × Nat) := s.errs.filter (fun (k, _) => meet k 32 a n)

/-- Uncorrectable sectors among `n` bytes from `a`. -/
def badIn (s : State) (a n : Nat) : List Nat :=
  (errsIn s a n).filterMap (fun (k, v) => if 2 ≤ v then some k else none)

/-- A reader reads sectors in error: each is counted and reported, unless a sector read of
the reader's own has reported it (R180). Answers the first uncorrectable sector. -/
def checkErrs (s : State) (bys : List Reader) (es : List (Nat × Nat)) : State × Option Nat :=
  let s := forEach es s (fun s (k, v) =>
    if s.seen.any (fun x => bys.contains x.1 && x.2 = k) then
      { s with seen := s.seen.filter (fun x => !(bys.contains x.1 && x.2 = k)) }
    else if 2 ≤ v then foundBad s k false
    else foundCorrected s k)
  (s, (es.filter (fun x => 2 ≤ x.2)).head?.map Prod.fst)

/-- A reader reads `n` bytes from `a`. -/
def checkRead (s : State) (by_ : Reader) (a n : Nat) : State × Option Nat :=
  checkErrs s [by_] (errsIn s a n)

/-- Accesses have passed that are not followed one by one: how often the buses of a die have turned, and
which way they stand, is not known (R175, assumption 119). -/
def dieTraffic (s : State) (d : Nat) : State :=
  let (i, s) := useFree s
  let n := satAdd 32 (rg s (mgSlot d) turnCount) (Config.freeValue i)
  updMem (wgFree s (mgSlot d) turnCount n) d (fun m => { m with dirs := [], mixed := true })

/-- Accesses of the package have passed. -/
def traffic (s : State) : State := forEach (List.range 4) s dieTraffic

/-- The channels of the granules that `n` bytes from `a` cover; 4,096 granules in a row cover every live
channel of a domain. -/
def chansOf (s : State) (a n : Nat) : List Nat :=
  (List.range (min ((a % 256 + n + 255) / 256) 8192)).filterMap (fun k =>
    (locate s (a / 256 * 256 + 256 * k)).map Prod.fst)

/-- The dies whose memory `n` bytes from `a` lie in. -/
def diesOf (s : State) (a n : Nat) : List Nat :=
  match domOf a with
  | some (.buffer d) => if n = 0 then [] else [d]
  | _ => ((chansOf s a n).map chanDie).eraseDups

/-- Must traffic to `n` bytes from `a` wait for an edge (R17, R207)? -/
def pathShut (s : State) (src : Source) (a n : Nat) : Bool :=
  (diesOf s a n).any (fun d => !pathOpen s src d)

/-- The ranges of `n` bytes from `a` by granule. -/
def granules (a n : Nat) : List (Nat × Nat) :=
  if n = 0 then []
  else (List.range (min ((a % 256 + n + 255) / 256) 8192)).map (fun k =>
    let lo := max a (a / 256 * 256 + 256 * k)
    (lo, min (a + n) (a / 256 * 256 + 256 * (k + 1)) - lo))

/-- Does a held channel make a read inside one granule wait? The hold buffer serves the sectors that it holds
(R191). -/
def granuleHeld (s : State) (g : Nat × Nat) : Bool :=
  match heldAt s g.1 with
  | some (_, h) => (List.range 8).any (fun k =>
      let a := g.1 / 256 * 256 + 32 * k
      meet a 32 g.1 g.2 && !inBuffer h a)
  | none => false

/-- Must a read of `n` bytes from `a` wait, for a held channel, for an edge on its path, or for a store of its
source that waits for one? -/
def isHeld (s : State) (src : Source) (a n : Nat) : Bool :=
  (anyHold s && (granules a n).any (granuleHeld s)) || (!edgesOpen s && pathShut s src a n) ||
  s.posted.any (fun x => x.src == src && x.bytes.any (fun y => meet a n y.1 1))

/-- Must a store of `n` bytes at `a` wait, for an edge on its path or for room in a hold buffer (R17, R191,
R407)? -/
def storeWaits (s : State) (src : Source) (a n : Nat) : Bool :=
  (!edgesOpen s && pathShut s src a n) || (anyHold s && (granules a n).any (fun g =>
    match heldAt s g.1 with
    | some (_, h) => h.queue.any (fun y => y.reader.isNone) || bufferBytes h + n > 262144
    | none => false))

/-- Must a store of the host and the Caldera wait? -/
def bothWait (s : State) (src : Source) (a n : Nat) : Bool := (copyAddrs s a).any (fun b => storeWaits s src b n)

/-- Ranges at the addresses that a die uses. -/
def dieRanges (s : State) (d : Nat) (rs : List (Nat × Nat)) : List (Nat × Nat) :=
  rs.map (fun r => (dieAddr s d r.1, r.2))

/-- Must a read of these ranges by a die wait? -/
def waitsDie (s : State) (d : Nat) (rs : List (Nat × Nat)) : Bool :=
  (dieRanges s d rs).any (fun r => isHeld s (.die d) r.1 r.2)

/-- The sequencer of a die reads these ranges: errors of their sectors are counted and reported (R179,
R180). -/
def checkDie (s : State) (d : Nat) (rs : List (Nat × Nat)) : State :=
  let es := s.errs.filter (fun (k, _) => (dieRanges s d rs).any (fun r => meet k 32 r.1 r.2))
  (checkErrs s [.sequencer ⟨d % 4, Nat.mod_lt _ (by decide)⟩] es).1
/-- The little-endian word of `n` bytes that a die reads at a written address. -/
def loadDie (s : State) (d a n : Nat) : Nat := rdLe s (dieAddr s d a) n

/-! ### Position and board addresses (R225, R226, R247) -/

/-- Extent in X of a board shape (R226). -/
def boardX (shape : Nat) : Nat :=
  match shape with | 0 => 1 | 1 => 2 | _ => 4

/-- Extent in Y of a board shape. -/
def boardY (shape : Nat) : Nat :=
  match shape with | 0 => 1 | 1 => 2 | 2 => 4 | _ => 8

/-- The board origin of a position under a shape. -/
def boardOrigin (shape pos : Nat) : Nat :=
  let x := bits pos 0 6
  let y := bits pos 6 6
  encPos (x - x % boardX shape) (y - y % boardY shape) (bits pos 12 4)

/-- The slot of a position under a shape. -/
def boardSlot (shape pos : Nat) : Nat :=
  bits pos 0 6 % boardX shape + boardX shape * (bits pos 6 6 % boardY shape)

/-- The package's own slot. -/
def mySlot (s : State) : Nat := boardSlot s.pins.straps.shape (myPos s)

/-- Position of a slot of the package's board, none where the board has no such slot. -/
def slotPos (s : State) (slot : Nat) : Option Nat :=
  let sh := s.pins.straps.shape
  if slot < boardX sh * boardY sh then
    some (boardOrigin sh (myPos s) + slot % boardX sh + slot / boardX sh * 64)
  else none

/-- Target slot of a board address. -/
def bdSlot (a : Nat) : Nat := bits a 44 5
/-- Package-local part of a board address. -/
def bdLocal (a : Nat) : Nat := bits a 0 44

/-! ### DMA descriptors (R326) -/

/-- SRC of a DMA. -/
def dmaSrc (c : Cmd) : Nat := bits c.raw 64 64
/-- DST of a DMA. -/
def dmaDst (c : Cmd) : Nat := bits c.raw 128 64
/-- BYTES of a DMA. -/
def dmaBytes (c : Cmd) : Nat := bits c.raw 192 64
/-- Is SRC a host address? -/
def dmaSrcHost (c : Cmd) : Bool := bit c.raw 256
/-- Is DST a host address? -/
def dmaDstHost (c : Cmd) : Bool := bit c.raw 257
/-- Is SRC in another slot? -/
def dmaSrcFar (s : State) (c : Cmd) : Bool := !dmaSrcHost c && bdSlot (dmaSrc c) ≠ mySlot s
/-- Is DST in another slot? -/
def dmaDstFar (s : State) (c : Cmd) : Bool := !dmaDstHost c && bdSlot (dmaDst c) ≠ mySlot s

/-- Bytes written to a DMA's destination on this package or in host memory, from `off`. -/
def dmaStore (s : State) (c : Cmd) (off : Nat) (bs : List Byte) : State :=
  if dmaDstHost c then
    { s with hostOut := s.hostOut ++ [⟨(handlePort c.handle).1, dmaDst c + off, bs⟩] }
  else storeBoth s (.half (handlePort c.handle).1) (bdLocal (dmaDst c) + off) bs

/-- Must what a DMA stores on this package wait (R407)? -/
def dmaStoreWaits (s : State) (c : Cmd) : Bool :=
  !dmaDstHost c && !dmaDstFar s c && bothWait s (.half (handlePort c.handle).1) (bdLocal (dmaDst c)) (dmaBytes c)

/-- A DMA that is stopped leaves its destination partly written (R331, R318): how many of the bytes
not yet accounted for have been written is free, and so are those read from the host; none from an
uncorrectable sector on (R180). Answers the bytes written. -/
def dmaCut (s : State) (c : Cmd) : State × Nat :=
  if !c.started ∨ dmaSrcFar s c ∨ dmaDstFar s c then (s, c.moved)
  else
    let (i, s) := useFree s
    let k := min (dmaBytes c) (max (2048 * c.counted) (Config.freeValue i % (dmaBytes c + 1)))
    if dmaSrcHost c then
      let (bs, s) := freeBytes s k
      (dmaStore s c 0 bs, k)
    else
      let a := primaryAddr s (bdLocal (dmaSrc c))
      let (s, bad) := checkRead s .hostDma a k
      let k := match bad with | some x => min k (x - a) | none => k
      (dmaStore s c 0 (rdBytes s a k), k)

end Sys2Proof.Machine
end

