-- ==== Sys2Proof/Machine/Operands.lean ====
section
/-!
DEFINITION. The layouts of every descriptor that memory, a command port or a request block holds:
one accessor per field, from the tables of the chapters. Descriptors are little-endian numbers (R7).
-/

namespace Sys2Proof.Machine

/-! ### Tensor descriptor (R91, R92) -/

/-- RESV2 of the tensor descriptor (R91, R92). -/
def tdResv2 (w : Nat) : Nat := bits w 752 16
/-- IDXBASE of the tensor descriptor (R91, R92). -/
def tdIdxBase (w : Nat) : Nat := bits w 256 64
/-- SCALEBASE of the tensor descriptor (R91, R92). -/
def tdScaleBase (w : Nat) : Nat := bits w 192 64
/-- BASE of the tensor descriptor (R91, R92). -/
def tdBase (w : Nat) : Nat := bits w 128 64
/-- IDXLIM of the tensor descriptor (R91, R92). -/
def tdIdxLim (w : Nat) : Nat := bits w 96 32
/-- TENSORID of the tensor descriptor (R91, R92). -/
def tdTensorId (w : Nat) : Nat := bits w 64 32
/-- RESV1 of the tensor descriptor (R91, R92). -/
def tdResv1 (w : Nat) : Nat := bits w 40 24
/-- PATH of the tensor descriptor (R91, R92). -/
def tdPath (w : Nat) : Nat := bits w 38 2
/-- STMODE of the tensor descriptor (R91, R92). -/
def tdStMode (w : Nat) : Nat := bits w 36 2
/-- IDXEN of the tensor descriptor (R91, R92). -/
def tdIdxEn (w : Nat) : Nat := bits w 35 1
/-- IDXAXIS of the tensor descriptor (R91, R92). -/
def tdIdxAxis (w : Nat) : Nat := bits w 32 3
/-- REV of the tensor descriptor (R91, R92). -/
def tdRev (w : Nat) : Nat := bits w 26 6
/-- ROT of the tensor descriptor (R91, R92). -/
def tdRot (w : Nat) : Nat := bits w 24 2
/-- RESV0 of the tensor descriptor (R91, R92). -/
def tdResv0 (w : Nat) : Nat := bits w 8 16
/-- FMT of the tensor descriptor (R91, R92). -/
def tdFmt (w : Nat) : Nat := bits w 4 4
/-- RESVBIT of the tensor descriptor (R91, R92). -/
def tdResvBit (w : Nat) : Nat := bits w 3 1
/-- NDIM of the tensor descriptor (R91, R92). -/
def tdNdim (w : Nat) : Nat := bits w 0 3

/-! ### Task descriptor (R117) -/

/-- STATUS of the task descriptor (R117). -/
def tkStatus (w : Nat) : Nat := bits w 960 64
/-- RESV5 of the task descriptor (R117). -/
def tkResv5 (w : Nat) : Nat := bits w 896 64
/-- BOX1LEN of the task descriptor (R117). -/
def tkBox1Len (w : Nat) : Nat := bits w 864 32
/-- BOX1BASE of the task descriptor (R117). -/
def tkBox1Base (w : Nat) : Nat := bits w 800 64
/-- BOX0LEN of the task descriptor (R117). -/
def tkBox0Len (w : Nat) : Nat := bits w 768 32
/-- BOX0BASE of the task descriptor (R117). -/
def tkBox0Base (w : Nat) : Nat := bits w 704 64
/-- CFG of the task descriptor (R117). -/
def tkCfg (w : Nat) : Nat := bits w 256 448
/-- RESV4 of the task descriptor (R117). -/
def tkResv4 (w : Nat) : Nat := bits w 208 48
/-- RESV3 of the task descriptor (R117). -/
def tkResv3 (w : Nat) : Nat := bits w 96 32
/-- INDEX of the task descriptor (R117). -/
def tkIndex (w : Nat) : Nat := bits w 64 32
/-- RESV2 of the task descriptor (R117). -/
def tkResv2 (w : Nat) : Nat := bits w 40 24
/-- LAYER of the task descriptor (R117). -/
def tkLayer (w : Nat) : Nat := bits w 28 12
/-- HOME of the task descriptor (R117). -/
def tkHome (w : Nat) : Nat := bits w 23 5
/-- RESV1 of the task descriptor (R117). -/
def tkResv1 (w : Nat) : Nat := bits w 18 5
/-- TYPE of the task descriptor (R117). -/
def tkType (w : Nat) : Nat := bits w 16 2
/-- RESV0 of the task descriptor (R117). -/
def tkResv0 (w : Nat) : Nat := bits w 0 16

/-! ### MXCFG (R65) -/

/-- RESV2 of the MXCFG (R65). -/
def mxResv2 (w : Nat) : Nat := bits w 108 20
/-- TREEBASE of the MXCFG (R65). -/
def mxTreeBase (w : Nat) : Nat := bits w 100 8
/-- FMTPRE of the MXCFG (R65). -/
def mxFmtPre (w : Nat) : Nat := bits w 96 4
/-- FMTA of the MXCFG (R65). -/
def mxFmtA (w : Nat) : Nat := bits w 92 4
/-- FMTB of the MXCFG (R65). -/
def mxFmtB (w : Nat) : Nat := bits w 88 4
/-- FMTOUT of the MXCFG (R65). -/
def mxFmtOut (w : Nat) : Nat := bits w 84 4
/-- RMODE of the MXCFG (R65). -/
def mxRmode (w : Nat) : Nat := bits w 82 2
/-- PRELOAD of the MXCFG (R65). -/
def mxPreload (w : Nat) : Nat := bits w 80 2
/-- SRC of the MXCFG (R65). -/
def mxSrc (w : Nat) : Nat := bits w 79 1
/-- DST of the MXCFG (R65). -/
def mxDst (w : Nat) : Nat := bits w 78 1
/-- SPAN of the MXCFG (R65). -/
def mxSpan (w : Nat) : Nat := bits w 73 5
/-- IN of the MXCFG (R65). -/
def mxIn (w : Nat) : Nat := bits w 68 5
/-- RESV1 of the MXCFG (R65). -/
def mxResv1 (w : Nat) : Nat := bits w 64 4
/-- SEGBASE of the MXCFG (R65). -/
def mxSegBase (w : Nat) : Nat := bits w 48 16
/-- RESV0 of the MXCFG (R65). -/
def mxResv0 (w : Nat) : Nat := bits w 27 21
/-- KEXT of the MXCFG (R65). -/
def mxKExt (w : Nat) : Nat := bits w 0 27

/-! ### VXCFG (R72) -/

/-- PASS of the VXCFG (R72). -/
def vxPass (w : Nat) : Nat := bits w 126 2
/-- LONGROW of the VXCFG (R72). -/
def vxLongRow (w : Nat) : Nat := bits w 125 1
/-- RESV1 of the VXCFG (R72). -/
def vxResv1 (w : Nat) : Nat := bits w 124 1
/-- COUNT of the VXCFG (R72). -/
def vxCount (w : Nat) : Nat := bits w 109 15
/-- ROWS of the VXCFG (R72). -/
def vxRows (w : Nat) : Nat := bits w 93 16
/-- FMTX of the VXCFG (R72). -/
def vxFmtX (w : Nat) : Nat := bits w 89 4
/-- FMTY of the VXCFG (R72). -/
def vxFmtY (w : Nat) : Nat := bits w 85 4
/-- FMTOUT of the VXCFG (R72). -/
def vxFmtOut (w : Nat) : Nat := bits w 81 4
/-- FMTROW of the VXCFG (R72). -/
def vxFmtRow (w : Nat) : Nat := bits w 77 4
/-- RMODE of the VXCFG (R72). -/
def vxRmode (w : Nat) : Nat := bits w 75 2
/-- YEN of the VXCFG (R72). -/
def vxYEn (w : Nat) : Nat := bits w 74 1
/-- STOREEN of the VXCFG (R72). -/
def vxStoreEn (w : Nat) : Nat := bits w 73 1
/-- AOP of the VXCFG (R72). -/
def vxAOp (w : Nat) : Nat := bits w 69 4
/-- AA of the VXCFG (R72). -/
def vxAA (w : Nat) : Nat := bits w 65 4
/-- AB of the VXCFG (R72). -/
def vxAB (w : Nat) : Nat := bits w 61 4
/-- AC of the VXCFG (R72). -/
def vxAC (w : Nat) : Nat := bits w 57 4
/-- FUNC of the VXCFG (R72). -/
def vxFunc (w : Nat) : Nat := bits w 52 5
/-- BOP of the VXCFG (R72). -/
def vxBOp (w : Nat) : Nat := bits w 48 4
/-- BA of the VXCFG (R72). -/
def vxBA (w : Nat) : Nat := bits w 44 4
/-- BB of the VXCFG (R72). -/
def vxBB (w : Nat) : Nat := bits w 40 4
/-- BC of the VXCFG (R72). -/
def vxBC (w : Nat) : Nat := bits w 36 4
/-- REDOP of the VXCFG (R72). -/
def vxRedOp (w : Nat) : Nat := bits w 32 4
/-- REDB of the VXCFG (R72). -/
def vxRedB (w : Nat) : Nat := bits w 28 4
/-- ROWIN of the VXCFG (R72). -/
def vxRowIn (w : Nat) : Nat := bits w 24 4
/-- ROWOUT of the VXCFG (R72). -/
def vxRowOut (w : Nat) : Nat := bits w 20 4
/-- RESV0 of the VXCFG (R72). -/
def vxResv0 (w : Nat) : Nat := bits w 0 20

/-! ### Scalar instruction (R85) -/

/-- OP of the scalar instruction (R85). -/
def scOp (w : Nat) : Nat := bits w 11 5
/-- DST of the scalar instruction (R85). -/
def scDst (w : Nat) : Nat := bits w 9 2
/-- A of the scalar instruction (R85). -/
def scA (w : Nat) : Nat := bits w 6 3
/-- B of the scalar instruction (R85). -/
def scB (w : Nat) : Nat := bits w 3 3
/-- C of the scalar instruction (R85). -/
def scC (w : Nat) : Nat := bits w 0 3

/-! ### Sequencer job block (R135) -/

/-- PROGBASE of the sequencer job block (R135). -/
def jbProgBase (w : Nat) : Nat := bits w 448 64
/-- LAYERBASE of the sequencer job block (R135). -/
def jbLayerBase (w : Nat) : Nat := bits w 384 64
/-- LRBASE of the sequencer job block (R135). -/
def jbLrBase (w : Nat) : Nat := bits w 320 64
/-- EVTBASE of the sequencer job block (R135). -/
def jbEvtBase (w : Nat) : Nat := bits w 256 64
/-- PROGCOUNT of the sequencer job block (R135). -/
def jbProgCount (w : Nat) : Nat := bits w 240 16
/-- LRCOUNT of the sequencer job block (R135). -/
def jbLrCount (w : Nat) : Nat := bits w 224 16
/-- EVTCOUNT of the sequencer job block (R135). -/
def jbEvtCount (w : Nat) : Nat := bits w 208 16
/-- JOB of the sequencer job block (R135). -/
def jbJob (w : Nat) : Nat := bits w 196 12
/-- RESV of the sequencer job block (R135). -/
def jbResv (w : Nat) : Nat := bits w 0 196

/-! ### Phase descriptor (R138) -/

/-- STATUS of the phase descriptor (R138). -/
def phStatus (w : Nat) : Nat := bits w 448 64
/-- ADDR0 of the phase descriptor (R138). -/
def phAddr0 (w : Nat) : Nat := bits w 384 64
/-- ADDR1 of the phase descriptor (R138). -/
def phAddr1 (w : Nat) : Nat := bits w 320 64
/-- POSTLIST of the phase descriptor (R138). -/
def phPostList (w : Nat) : Nat := bits w 256 64
/-- TASKVS of the phase descriptor (R138). -/
def phTaskVs (w : Nat) : Nat := bits w 224 32
/-- TDTVS of the phase descriptor (R138). -/
def phTdtVs (w : Nat) : Nat := bits w 192 32
/-- COUNT0 of the phase descriptor (R138). -/
def phCount0 (w : Nat) : Nat := bits w 176 16
/-- COUNT1 of the phase descriptor (R138). -/
def phCount1 (w : Nat) : Nat := bits w 160 16
/-- DEP0 of the phase descriptor (R138). -/
def phDep0 (w : Nat) : Nat := bits w 144 16
/-- DEP1 of the phase descriptor (R138). -/
def phDep1 (w : Nat) : Nat := bits w 128 16
/-- WAITCOUNT of the phase descriptor (R138). -/
def phWaitCount (w : Nat) : Nat := bits w 112 16
/-- MB of the phase descriptor (R138). -/
def phMb (w : Nat) : Nat := bits w 100 12
/-- LAYER of the phase descriptor (R138). -/
def phLayer (w : Nat) : Nat := bits w 88 12
/-- TYPE of the phase descriptor (R138). -/
def phType (w : Nat) : Nat := bits w 84 4
/-- WAITQ of the phase descriptor (R138). -/
def phWaitQ (w : Nat) : Nat := bits w 78 6
/-- WAITEN of the phase descriptor (R138). -/
def phWaitEn (w : Nat) : Nat := bits w 77 1
/-- DEP1DIE of the phase descriptor (R138). -/
def phDep1Die (w : Nat) : Nat := bits w 75 2
/-- DEP0DIE of the phase descriptor (R138). -/
def phDep0Die (w : Nat) : Nat := bits w 73 2
/-- PROMOTE of the phase descriptor (R138). -/
def phPromote (w : Nat) : Nat := bits w 72 1
/-- POSTN of the phase descriptor (R138). -/
def phPostN (w : Nat) : Nat := bits w 67 5
/-- RESV of the phase descriptor (R138). -/
def phResv (w : Nat) : Nat := bits w 64 3
/-- AUX of the phase descriptor (R138). -/
def phAux (w : Nat) : Nat := bits w 0 64

/-! ### Layer table entry (R147) -/

/-- LRSCALE of the layer table entry (R147). -/
def lyLrScale (w : Nat) : Nat := bits w 480 32
/-- WD of the layer table entry (R147). -/
def lyWd (w : Nat) : Nat := bits w 448 32
/-- EPS of the layer table entry (R147). -/
def lyEps (w : Nat) : Nat := bits w 416 32
/-- BETA1 of the layer table entry (R147). -/
def lyBeta1 (w : Nat) : Nat := bits w 384 32
/-- BETA2 of the layer table entry (R147). -/
def lyBeta2 (w : Nat) : Nat := bits w 352 32
/-- B1T of the layer table entry (R147). -/
def lyB1t (w : Nat) : Nat := bits w 320 32
/-- B2T of the layer table entry (R147). -/
def lyB2t (w : Nat) : Nat := bits w 288 32
/-- RESV2 of the layer table entry (R147). -/
def lyResv2 (w : Nat) : Nat := bits w 256 32
/-- LREXP of the layer table entry (R147). -/
def lyLrExp (w : Nat) : Nat := bits w 248 8
/-- MEXP of the layer table entry (R147). -/
def lyMExp (w : Nat) : Nat := bits w 240 8
/-- VEXP of the layer table entry (R147). -/
def lyVExp (w : Nat) : Nat := bits w 232 8
/-- UPDFMT of the layer table entry (R147). -/
def lyUpdFmt (w : Nat) : Nat := bits w 228 4
/-- MOMFMT of the layer table entry (R147). -/
def lyMomFmt (w : Nat) : Nat := bits w 224 4
/-- WCFMT of the layer table entry (R147). -/
def lyWcFmt (w : Nat) : Nat := bits w 220 4
/-- RMODE of the layer table entry (R147). -/
def lyRmode (w : Nat) : Nat := bits w 218 2
/-- TRIG of the layer table entry (R147). -/
def lyTrig (w : Nat) : Nat := bits w 216 2
/-- LADDERLEN of the layer table entry (R147). -/
def lyLadderLen (w : Nat) : Nat := bits w 213 3
/-- STARTPOS of the layer table entry (R147). -/
def lyStartPos (w : Nat) : Nat := bits w 210 3
/-- RESV1 of the layer table entry (R147). -/
def lyResv1 (w : Nat) : Nat := bits w 208 2
/-- RESV0 of the layer table entry (R147). -/
def lyResv0 (w : Nat) : Nat := bits w 0 188

/-! ### ACC block (R151) -/

/-- LEAF of the ACC block (R151). -/
def acLeaf (w : Nat) : Nat := bits w 192 64
/-- BUF of the ACC block (R151). -/
def acBuf (w : Nat) : Nat := bits w 128 64
/-- ELEMS of the ACC block (R151). -/
def acElems (w : Nat) : Nat := bits w 96 32
/-- SHARD of the ACC block (R151). -/
def acShard (w : Nat) : Nat := bits w 80 16
/-- KLOG2 of the ACC block (R151). -/
def acKLog2 (w : Nat) : Nat := bits w 75 5
/-- DIR of the ACC block (R151). -/
def acDir (w : Nat) : Nat := bits w 74 1
/-- RESV of the ACC block (R151). -/
def acResv (w : Nat) : Nat := bits w 0 74

/-! ### OPT block (R155) -/

/-- MASTER of the OPT block (R155). -/
def obMaster (w : Nat) : Nat := bits w 448 64
/-- MOMM of the OPT block (R155). -/
def obMomM (w : Nat) : Nat := bits w 384 64
/-- MOMV of the OPT block (R155). -/
def obMomV (w : Nat) : Nat := bits w 320 64
/-- GRAD of the OPT block (R155). -/
def obGrad (w : Nat) : Nat := bits w 256 64
/-- WCOPY of the OPT block (R155). -/
def obWcopy (w : Nat) : Nat := bits w 192 64
/-- WCSCALE of the OPT block (R155). -/
def obWcScale (w : Nat) : Nat := bits w 128 64
/-- ELEMS of the OPT block (R155). -/
def obElems (w : Nat) : Nat := bits w 96 32
/-- RESV of the OPT block (R155). -/
def obResv (w : Nat) : Nat := bits w 0 96

/-- Extent of axis `d` of a tensor descriptor. -/
def tdExt (w d : Nat) : Nat := bits w (320 + 32 * d) 32

/-- Signed element stride of axis `d`. -/
def tdStride (w d : Nat) : Int :=
  let v := bits w (512 + 40 * d) 40
  if v ≥ 2 ^ 39 then (v : Int) - 2 ^ 40 else v

/-- Slot `k` of a task descriptor: a table index, 0xFFFF for none. -/
def tkSlot (w k : Nat) : Nat := bits w (128 + 16 * k) 16

/-- FMT code of rung `r` of a layer's ladder. -/
def lyRung (w r : Nat) : Nat := bits w (188 + 4 * r) 4

/-- Instruction `k` of a scalar program in a 64-bit half of VXROW: the first in the top bits. -/
def vxInstr (prog k : Nat) : Nat := bits prog (48 - 16 * k) 16

/-- A signed 8-bit exponent field. -/
def sx8 (v : Nat) : Int := if v ≥ 128 then (v : Int) - 256 else v

end Sys2Proof.Machine
end

