-- ==== Sys2Proof/Machine/TaskState.lean ====
section
/-!
DEFINITION. The shared operations on dispatched tasks, task queues and phases: the dispatch check
(R126, R149), enqueues with the wakes they start (R122, R132), the ends of tasks and phases with
their status words (R120, R142), and the stop of a sequencer (R141, R326).
-/

namespace Sys2Proof.Machine

/-! ### Logical and physical clusters (R129, R131) -/

/-- The CLUSTER_MAP field of logical cluster `l`. -/
def mapField (l : Nat) : Fld :=
  match l % 4 with
  | 0 => clusterMapPhys0 (l / 4)
  | 1 => clusterMapPhys1 (l / 4)
  | 2 => clusterMapPhys2 (l / 4)
  | _ => clusterMapPhys3 (l / 4)

/-- The physical cluster that serves logical cluster `l` of die `d`. -/
def mapPhys (s : State) (d l : Nat) : Nat := rg s (dcSlot d) (mapField l)

/-- The spare of a die, 0x3F for none. -/
def spareOf (s : State) (d : Nat) : Nat := rg s (dcSlot d) spareStatusSpare

/-- Is the cluster in the map? -/
def isMapped (s : State) (d c : Nat) : Bool := (List.range 32).any (fun l => mapPhys s d l = c)

/-- Is the group of cluster `c` power-gated? -/
def isGated (s : State) (d g : Nat) : Bool := bit (rg s (dpSlot d) groupGated) g

/-- Is the group waking? -/
def isWaking (s : State) (d g : Nat) : Bool := mget 0 s.waking (d * 11 + g) ≠ 0

/-- A demand for a cluster starts the wake of its group if that is gated (R132). -/
def startWake (s : State) (d c : Nat) : State :=
  let g := c / 3
  if isGated s d g then
    let s := wg s (dpSlot d) groupGated (setBits (rg s (dpSlot d) groupGated) g 1 0)
    { s with waking := mset 0 s.waking (d * 11 + g) (s.clock + 1) }
  else s

/-! ### Dispatched tasks -/

/-- The tasks of a die that have been dispatched and have not completed. -/
def liveTasks (s : State) (d : Nat) : List LiveTask := (die s d).live

/-- Changing a dispatched task. -/
def updLive (s : State) (d id : Nat) (f : LiveTask → LiveTask) : State :=
  updDie s d (fun x => { x with live := updFirst (fun t => t.id = id) f x.live })

/-- The task with an id. -/
def liveOfId (s : State) (d id : Nat) : Option LiveTask := (liveTasks s d).find? (fun t => t.id = id)

/-- Does `u` precede `t` (R126)? Within a RECOMP phase, replayed phases come in order. -/
def precedes (u t : LiveTask) : Bool :=
  u.phase < t.phase || (u.phase = t.phase &&
    (u.src < t.src || (u.src = t.src && u.index < t.index)))

/-- Do two sets of byte ranges intersect? -/
def anyMeet (xs ys : List (Nat × Nat)) : Bool :=
  xs.any (fun x => ys.any (fun y => meet x.1 x.2 y.1 y.2))

/-- Do the regions of two tasks conflict (R126)? -/
def conflict (t u : LiveTask) : Bool :=
  anyMeet t.writes u.writes || anyMeet t.writes u.reads || anyMeet t.reads u.writes

/-- Does `t` depend on `u`, which was dispatched before it (R126)? -/
def dependsOn (t u : LiveTask) : Bool := precedes u t && conflict t u

/-- Does `u` hold `t`, which depends on it? An ended task of an uncommitted phase holds the tasks of later
phases only (R149, assumption 16). -/
def holdsBack (t u : LiveTask) : Bool :=
  t.deps.contains u.id && !(u.st = .ended && u.phase = t.phase)

/-- Must `t` be held? Its dependencies are those of its dispatch: a task dispatched after it holds it not
(R145). -/
def isBlocked (s : State) (d : Nat) (t : LiveTask) : Bool := (liveTasks s d).any (holdsBack t)

/-- Does a CLUSTER test of a cluster run (R368)? -/
def underTest (s : State) (d c : Nat) : Bool :=
  s.tests.any (fun t => t.started && t.kind = 1 && t.die = d && t.unit = c)

/-- Has the HOME queue of `t` room (R122)? None is enqueued on a cluster that is tested (R368). -/
def hasRoom (s : State) (d : Nat) (t : LiveTask) : Bool :=
  (queueOf s d (mapPhys s d t.home)).length < 256 && !underTest s d (mapPhys s d t.home)

/-- The restart of the clocks of a cluster's gated tiles is demanded (R132). -/
def demandTiles (s : State) (d c : Nat) : State :=
  forEach (List.range 16) s (fun s t =>
    if (tileOf s d c t).gated then setTile s d c t { tileOf s d c t with restart := true } else s)

/-- A queue of cluster `c` has taken entries: its gated tiles are to restart, its group wakes, and the
package leaves P1 (R132, R381). -/
def wakeServer (s : State) (d c : Nat) : State :=
  let s := startWake (demandTiles s d c) d c
  if rg s pwrSlot pwrStateCur = 1 then wg s pwrSlot pwrStateCur 0 else s

/-- A task enters the tail of its HOME queue (R122). -/
def enqueue (s : State) (d : Nat) (t : LiveTask) : State :=
  let c := mapPhys s d t.home
  let s := setQueue s d c (queueOf s d c ++ [t.id])
  wakeServer (updLive s d t.id (fun x => { x with st := .queued })) d c

/-- A task re-run under R359 enters the head of its HOME queue, full or not (R122). -/
def requeue (s : State) (d : Nat) (t : LiveTask) : State :=
  let c := mapPhys s d t.home
  let s := setQueue s d c (t.id :: queueOf s d c)
  wakeServer (updLive s d t.id (fun x => { x with st := .queued, reruns := x.reruns + 1 })) d c

/-- The released tasks that wait for their queue, in order of dispatch (R122, R126). -/
def released (s : State) (d : Nat) : List LiveTask :=
  (liveTasks s d).filter (fun t => t.st = .held && !isBlocked s d t)

/-- Released tasks enter their queues in order of dispatch; the first whose queue is full makes the later
ones wait behind it (R122). -/
def enqueueAll : List LiveTask → State → Nat → State
  | [], s, _ => s
  | t :: ts, s, d => if hasRoom s d t then enqueueAll ts (enqueue s d t) d else s

/-- Held tasks that wait for nothing any more are enqueued (R126). -/
def releaseHeld (s : State) (d : Nat) : State := enqueueAll (released s d) s d

/-- Writing a TASK_STATUS word (R120); the pieces of an OPT phase have none. -/
def writeTaskStatus (s : State) (d : Nat) (t : LiveTask) (code drops : Nat) : State :=
  if t.piece.isSome then s
  else storeDie s d (t.addr + 120) (leBytes 8 (code + min drops (2 ^ 24 - 1) * 2 ^ 32))

/-- Is the phase still to commit a promotion (R148)? -/
def awaitsCommit (p : Phase) : Bool := p.promote && !p.committed && !p.failed

/-- A task has ended: it leaves the dispatch check, or stays in it until its phase commits (R149). -/
def endLive (s : State) (d : Nat) (t : LiveTask) : State :=
  if awaitsCommit (phaseOf s d t.phase) then updLive s d t.id (fun x => { x with st := .ended })
  else updDie s d (fun x => { x with live := x.live.filter (fun u => u.id ≠ t.id) })

/-- The ended tasks of a phase leave the dispatch check: the phase commits, or ends without
committing (R149). -/
def dropEnded (s : State) (d ph : Nat) : State :=
  updDie s d (fun x => { x with live := x.live.filter (fun u => !(u.phase = ph && u.st = .ended)) })

/-- A task ends ABORTED (R120), and its phase fails (R141) unless its job's abort ends it. -/
def abortTask (s : State) (d : Nat) (t : LiveTask) : State :=
  endLive (writeTaskStatus s d t 4 0) d t

/-- The contents of a tile's scratchpad have changed: what it holds is not known (R114). -/
def scratchUsed (s : State) (d c t : Nat) : State :=
  setTile { s with free := s.free + 1 } d c t { tileOf s d c t with pad := s.free + 1 }

/-- A tile holds no task any more; the task has used its scratchpad. -/
def dropTask (s : State) (d c t : Nat) : State :=
  scratchUsed (setTile s d c t { tileOf s d c t with task := none }) d c t

/-- Tiles of a die that hold a task, as cluster and tile. -/
def runningTiles (s : State) (d : Nat) : List (Nat × Nat) :=
  s.tiles.filterMap (fun (k, x) =>
    if k / 528 = d && x.task.isSome then some (k / 16 % 33, k % 16) else none)

/-- Every tile of the die drops its task; its queues and dispatched tasks are gone. -/
def clearTasks (s : State) (d : Nat) : State :=
  let s := forEach (runningTiles s d) s (fun s (c, t) => dropTask s d c t)
  let s := { s with queues := s.queues.filter (fun (k, _) => k / 33 ≠ d) }
  updDie s d (fun x => { x with live := [] })

/-! ### Phases -/

/-- Has the phase started and not completed? -/
def isStarted (p : Phase) : Bool := p.stage = .working || p.stage = .exchange || p.stage = .posting

/-- Is the phase complete, so that what depends on it may start? A failed, aborted or malformed one
is not. -/
def isDone (p : Phase) : Bool := p.stage = .complete && (p.code = 1 || p.code = 2 || p.code = 5)

/-- Phases of a die that have started and have not completed, ascending. -/
def startedPhases (s : State) (d : Nat) : List Nat :=
  (seqOf s d).phases.filterMap (fun (k, p) => if isStarted p then some k else none)

/-- The phase STATUS word (R142). -/
def phaseStatus (p : Phase) (code : Nat) : Nat :=
  code + p.rungStart * 2 ^ 21 + p.rung * 2 ^ 24 + min p.drops (2 ^ 24 - 1) * 2 ^ 32

/-- Address of the descriptor of phase `ph` (R138). -/
def phaseAddr (s : State) (d ph : Nat) : Nat := (seqOf s d).progBase + 64 * ph

/-- A phase ends with a CODE: STATUS is written (R142). -/
def endPhase (s : State) (d ph code : Nat) : State :=
  let p := phaseOf s d ph
  let s := storeDie s d (phaseAddr s d ph + 56) (leBytes 8 (phaseStatus p code))
  let s := retire (updPhase s d ph (fun p => { p with stage := .complete, code := code })) (seqSlot d)
  if code = 3 ∨ code = 4 ∨ code = 6 then
    dropEnded (updPhase s d ph (fun p => { p with failed := true })) d ph
  else s

/-- RESULT of a command that ends with an error status: SEQ_STEP for a SEQ_RUN of a die, else zero (R328). -/
def stepResult (s : State) (c : Cmd) : Nat :=
  if cmdOp c = 2 ∧ bits c.raw 128 8 ≤ 3 then rg s (seqSlot (bits c.raw 128 8)) seqStep else 0

/-- SEQ_RUN of a sequencer that stops completes, with SEQ_STEP in RESULT (R326). -/
def finishRun (s : State) (d status : Nat) (detail : Nat := 0) : State :=
  match (seqOf s d).cmd with
  | none => s
  | some (_, h) =>
    let s := updSeq s d (fun q => { q with cmd := none })
    complete s h status (rg s (seqSlot d) seqStep) detail

/-- The status of a sequencer's stop by its first cause (R326). -/
def finishStopped (s : State) (d : Nat) : State :=
  match (seqOf s d).stop with
  | none => s
  | some .failed => finishRun s d stFailed
  | some .aborted => finishRun s d stAborted
  | some (.peer o) => finishRun s d stAbortedByPeer o

/-- The first cause of a stop stands (R326). -/
def noteStop (s : State) (d : Nat) (c : StopCause) : State :=
  updSeq s d (fun q => { q with stop := some (q.stop.getD c) })

/-- A failed or malformed phase, or a refused leaf, has stopped the sequencer: when the last started
phase has ended, STATE reads failed (R141). -/
def settleSeq (s : State) (d : Nat) : State :=
  if seqRunning s d ∧ (seqOf s d).stop.isSome ∧ (startedPhases s d).isEmpty then
    finishStopped (wg s (seqSlot d) seqStatusState 3) d
  else s

/-- A sequencer event that names its job (R136). -/
def seqEvent (s : State) (d src : Nat) : State :=
  raise s { slot := seqSlot d, src := src, job := (seqOf s d).job }

/-- A phase fails (R141): SEQ_PHASE_FAIL is raised, the sequencer starts no further phase, and the
phase's ended tasks hold no other any more (R149). Its STATUS waits for its last task and posted
operation. -/
def markFailed (s : State) (d ph : Nat) : State :=
  let p := phaseOf s d ph
  if !isStarted p ∨ p.failed then s
  else
    let s := updPhase s d ph (fun p => { p with failed := true })
    let s := dropEnded s d ph
    seqEvent (noteStop s d .failed) d srcSeqPhaseFail

/-- Tasks of a phase that have been dispatched and have not left the dispatch check. -/
def phaseTasks (s : State) (d ph : Nat) : List LiveTask :=
  (liveTasks s d).filter (fun t => t.phase = ph)

/-- Pieces of 16,384 elements of an OPT block (R158). -/
def pieceCount (ob : Nat) : Nat := cdiv (obElems ob) 16384

/-- Number of tasks or pieces of the list that a working phase dispatches: of a RECOMP, that of the FWD phase
it replays now. -/
def listCount (p : Phase) : Nat :=
  match phType p.desc with
  | 3 => phCount0 (p.replays.getD (p.sub - phCount0 p.desc) 0)
  | 6 => pieceCount p.block
  | _ => phCount0 p.desc

/-- Has a RECOMP a further FWD phase to replay after the present one? -/
def replaysMore (p : Phase) : Bool :=
  phType p.desc = 3 && p.sub + 1 < phCount0 p.desc + phCount1 p.desc

/-- Has the phase run its list out, and posted its own (R141: a failed phase runs to its end)? -/
def ranOut (p : Phase) : Bool :=
  match p.stage with
  | .working => listCount p ≤ p.next && !replaysMore p
  | .posting => phPostN p.desc ≤ p.postNext
  | _ => true

/-- Has every task of the attempt been dispatched, and ended? -/
def attemptEnded (s : State) (d ph : Nat) : Bool :=
  let p := phaseOf s d ph
  p.stage = .working && listCount p ≤ p.next && (phaseTasks s d ph).all (fun t => t.st = .ended)

/-- A RECOMP goes on to the next FWD phase that it replays, past those that hold no task; `n` bounds them. -/
def nextReplay : Nat → State → Nat → Nat → State
  | 0, s, _, _ => s
  | n + 1, s, d, ph =>
    if attemptEnded s d ph ∧ replaysMore (phaseOf s d ph) then
      nextReplay n (updPhase s d ph (fun p => { p with sub := p.sub + 1, next := 0, last := none })) d ph
    else s

/-- A failed phase that has run to its end, its dispatched tasks and posted operations all ended, ends with
FAILED. -/
def endFailed (s : State) (d ph : Nat) : State :=
  let s := nextReplay (phCount1 (phaseOf s d ph).desc) s d ph
  let p := phaseOf s d ph
  if isStarted p ∧ p.failed ∧ (phaseTasks s d ph).isEmpty ∧ p.ops.isEmpty ∧ ranOut p then
    endPhase s d ph 3
  else s

/-- A job abort reaches the sequencer of die `d`: started phases and their tasks end ABORTED
(FAILED where they had failed), and STATE reads failed. -/
def abortSeq (s : State) (d : Nat) (c : StopCause) : State :=
  let s := noteStop s d c
  let s := forEach (liveTasks s d) s (fun s t =>
    if t.st = .ended then s else writeTaskStatus s d t 4 0)
  let s := clearTasks s d
  let s := forEach (startedPhases s d) s (fun s ph =>
    endPhase s d ph (if (phaseOf s d ph).failed then 3 else 4))
  finishStopped (wg s (seqSlot d) seqStatusState 3) d

end Sys2Proof.Machine
end

