-- ==== Sys2Proof/Machine/OptCore.lean ====
section
/-!
DEFINITION. Lane groups and fabric ports: the fields of a group, up groups, the fumarole lane (R222), the codewords and credits of a link (R228 to
R230, R234), and the starts of retrains.
-/

namespace Sys2Proof.Machine

/-! ### Groups -/

/-- A group's state beside its registers. -/
def optGroup (s : State) (g : Nat) : OptGroup := mget {} s.groups g
/-- Changing it. -/
def updGroup (s : State) (g : Nat) (f : OptGroup → OptGroup) : State :=
  { s with groups := mset {} s.groups g (f (optGroup s g)) }
/-- A field of GROUP_STATUS of a group. -/
def ggt (s : State) (g : Nat) (f : Nat → Fld) : Nat := rg s (oeSlot (g / 4)) (f (g % 4))
/-- Setting it. -/
def gst (s : State) (g : Nat) (f : Nat → Fld) (v : Nat) : State := wg s (oeSlot (g / 4)) (f (g % 4)) v

/-- STATE up. -/
def groupUp (s : State) (g : Nat) : Bool := ggt s g groupStatusState = 3

/-- STATE down. -/
def groupDown (s : State) (g : Nat) : Bool := ggt s g groupStatusState = 4

/-- The up groups of a port, in plan order. -/
def upGroups (s : State) (p : Nat) : List Nat := (portGroupList s p).filter (groupUp s)

/-- Has the port an up group? -/
def portUp (s : State) (p : Nat) : Bool := !(upGroups s p).isEmpty

/-- Is the port down (R230)? A dark port never is. -/
def portIsDown (s : State) (p : Nat) : Bool := !portDark s p && (linkOf s p).isDown

/-- Event of a group's page; PART is its module. -/
def groupEvent (g src : Nat) : Event := { slot := oeSlot (g / 4), src := src, part := g % 4 }

/-- An event of a port on the router page; PART is the port. -/
def portEvent (p src : Nat) : Event := { slot := routerSlot, src := src, part := p }

/-! ### The fumarole lane (R222) -/

/-- The groups after `h` in plan order, then those before it. -/
def rotateAfter (gs : List Nat) (h : Nat) : List Nat :=
  (gs.dropWhile (fun g => g ≠ h)).drop 1 ++ gs.takeWhile (fun g => g ≠ h)

/-- The fumarole role of a port stays where it is while that group is up, else it moves to the next up
group in plan order. -/
def moveFum (s : State) (p : Nat) : State :=
  let gs := portGroupList s p
  let holder := gs.find? (fun g => ggt s g groupStatusFum = 1)
  match holder with
  | some h =>
    if groupUp s h then s
    else
      let s := gst s h groupStatusFum 0
      match (rotateAfter gs h).find? (groupUp s) with
      | some g => gst s g groupStatusFum 1
      | none => s
  | none =>
    match gs.find? (groupUp s) with
    | some g => gst s g groupStatusFum 1
    | none => s

/-! ### Packets on a link (R231, R232, R234) -/

/-- Virtual channel of a type: 0 control, 1 reduction, 2 bulk, 3 fumarole (R232). -/
def packetVc (type : Nat) : Nat :=
  match type with
  | 1 => 1
  | 3 => 2 | 4 => 2 | 5 => 2 | 6 => 2
  | 9 => 3 | 0xA => 3 | 0xB => 3
  | _ => 0

/-- A virtual channel, by number. -/
def vcN (v : Nat) : Fin 4 := ⟨v % 4, Nat.mod_lt _ (by decide)⟩

/-- Flits of a packet. -/
def flitsOf (p : Packet) : Nat := 1 + p.len

/-- The flits themselves. -/
def packetFlits (p : Packet) : List Flit :=
  .head p :: List.replicate p.len (.body (vcN (packetVc p.type)))

/-- Credits that a packet takes: flits, or packets on the fumarole channel. -/
def creditCost (p : Packet) : Nat := if packetVc p.type = 3 then 1 else flitsOf p

/-- Receive credits that an up group adds to a virtual channel: normal class, detour class. -/
def groupCredits (vc : Nat) (detour : Bool) : Nat :=
  if detour then 64 else match vc with | 0 => 64 | 1 => 1024 | _ => 1792

/-- Key of a link's credits: virtual channel and class. -/
def creditKey (vc : Nat) (detour : Bool) : Nat := vc + 4 * b2n detour

/-- All the receive credits of a port: of its up groups, and 32 fumarole packets of each class. -/
def creditTotal (s : State) (p k : Nat) : Nat :=
  if k % 4 = 3 then 32 else (upGroups s p).length * groupCredits (k % 4) (k ≥ 4)

/-- The credits that are left. -/
def creditsLeft (s : State) (p k : Nat) : Nat := creditTotal s p k - mget 0 (linkOf s p).used k

/-! ### Codewords (R228, R229) -/

/-- Flit slots of a codeword: four, one on the fumarole lane. -/
def slotsOf (fum : Bool) : Nat := if fum then 1 else 4

/-- Flits dealt out to codewords; the last one's other slots are padded. -/
def dealFlits (fum : Bool) (fs : List Flit) : List (List Flit) :=
  (List.range (cdiv fs.length (slotsOf fum))).map (fun i => (fs.drop (i * slotsOf fum)).take (slotsOf fum))

/-- Bulk lanes of a port: the lanes of its up groups but for the fumarole lane (R222). -/
def bulkLanes (s : State) (p : Nat) : Nat :=
  ((upGroups s p).map (fun g => ggt s g groupStatusWidth)).sum - 1

/-- A codeword leaves on a port, with the ACK of the moment. Data codewords take the bulk lanes in turn; the lane
of an idle or a NAK codeword, which the spec does not name, is written 0 (R228). -/
def putCodeword (s : State) (p : Nat) (cw : Codeword) : State :=
  let l := linkOf s p
  if cw.kind = .data ∧ !cw.fum then
    let lane := l.turn % max 1 (bulkLanes s p)
    setLink { s with tx := s.tx ++ [(p, { cw with lane := lane, ack := l.ack })] } p { l with turn := lane + 1 }
  else { s with tx := s.tx ++ [(p, { cw with lane := 0, ack := l.ack })] }

/-- A data codeword leaves: it takes the next SEQ and is kept until it is acknowledged. A port without an up group
sends none: it leaves with the replay when one comes up (R230). -/
def sendCodeword (s : State) (p : Nat) (fum : Bool) (fs : List Flit) : State :=
  let l := linkOf s p
  let cw : Codeword := { fum := fum, pad := slotsOf fum - fs.length, seq := l.tx, flits := fs }
  let s := setLink s p { l with tx := (l.tx + 1) % 16384, replay := l.replay ++ [cw] }
  if portUp s p then putCodeword s p cw else s

/-- An idle or a NAK codeword leaves. -/
def sendBare (s : State) (p : Nat) (kind : CwKind) (seq : Nat) : State :=
  putCodeword s p { kind := kind, seq := seq }

/-- Has the replay store of a port room for more bulk codewords (R229)? Each takes its four slots of it, padded ones
too; those of the fumarole lane, which shares nothing but arbitration (R408), take none (assumption 151). -/
def replayRoom (s : State) (p n : Nat) : Bool :=
  4 * (((linkOf s p).replay.filter (fun cw => !cw.fum)).length + n) ≤ 3072 * (portGroupList s p).length

/-- Every data codeword that is not acknowledged leaves again. -/
def replayAll (s : State) (p : Nat) : State := forEach (linkOf s p).replay s (fun s cw => putCodeword s p cw)

/-- The credits owed to the partner leave in link flits, where the port is up and has room for them. -/
def payCredits (s : State) (p : Nat) : State :=
  let l := linkOf s p
  let fs := l.owed.map (fun (k, n) => Flit.link (.credit (vcN k) (4 ≤ k) n))
  if fs.isEmpty ∨ !portUp s p ∨ !replayRoom s p (dealFlits false fs).length then s
  else forEach (dealFlits false fs) (setLink s p { l with owed := [] }) (fun s x => sendCodeword s p false x)

/-- A packet leaves the receive buffer of the port on which it arrived: its credits go back (R234). -/
def returnCredit (s : State) (src : Option (Nat × Packet)) : State :=
  match src with
  | none => s
  | some (p, pkt) =>
    let l := linkOf s p
    let k := creditKey (packetVc pkt.type) pkt.detour
    if l.isDown then s
    else payCredits (setLink s p { l with owed := mset 0 l.owed k (mget 0 l.owed k + creditCost pkt) }) p

/-! ### Packets forwarded in part (R230) -/

/-- A truncation mark leaves on a port: the packet open on the virtual channel will not complete. -/
def sendTruncate (s : State) (p vc : Nat) : State := sendCodeword s p false [.link (.truncate (vcN vc))]

/-- Is it the waiting packet that is arriving in part on a port? -/
def waitsCut (port : Nat) (x : PartIn) (w : OutWait) : Bool := w.cut && w.src = some (port, x.pkt)

/-- A packet that the router took in part and that will not complete: a truncation mark follows what has been
forwarded of it; what waits is discarded. -/
def dropCut (s : State) (port : Nat) (x : PartIn) : State :=
  if !x.entered then s
  else match x.out with
    | some (o, q) => sendTruncate s o (packetVc q.type)
    | none => { s with outq := s.outq.filter (fun w => !waitsCut port x w) }

/-- The packets that are being forwarded on a port, in part. -/
def cutOnto (s : State) (port : Nat) : List Packet :=
  s.links.flatMap (fun (_, l) => l.part.filterMap (fun x => match x.out with
    | some (o, q) => if o = port then some q else none
    | none => none))

/-- The router gives up forwarding on a port what has not arrived whole: it takes such a packet again when it has. -/
def unCut (s : State) (port : Nat) : State :=
  let back (i : Nat) (x : PartIn) : Bool := match x.out with
    | some (o, _) => o = port
    | none => s.outq.any (fun w => w.port = port && waitsCut i x w)
  forEach s.links { s with outq := s.outq.filter (fun w => !(w.cut && w.port = port)) } (fun s (i, l) =>
    setLink s i { linkOf s i with part := l.part.map (fun x =>
      if x.entered && back i x then { x with entered := false, out := none } else x) })

/-- A waiting packet leaves its buffer; one that has not arrived whole does so with its last flit. -/
def freeWait (s : State) (w : OutWait) : State := if w.cut then s else returnCredit s w.src

/-- A port comes up when its first group does (R230). Within 2 ms of the last one the receiver discards what
has arrived in part, and replay resumes from the last ACK; after longer the link starts afresh (assumption
125). -/
def portComes (s : State) (p : Nat) (wasUp : Bool) : State :=
  if wasUp then s
  else
    let s := forEach (linkOf s p).part s (fun s x => dropCut s p x)
    let l := linkOf s p
    let l := if l.isDown then {} else { l with rx := (l.ack + 1) % 16384, part := [], early := [] }
    payCredits (replayAll (setLink s p l) p) p

/-! ### Retrains (R221, R356) and tests of groups (R373) -/

/-- A group leaves traffic for a test or a recalibration. -/
def groupAside (s : State) (g : Nat) : State :=
  let s := updGroup (gst s g groupStatusState 2) g (fun x => { x with recal := true })
  match groupPort s g with
  | some p => moveFum s p
  | none => s

/-- A retrain of a group starts: it carries no traffic, the fumarole role moves, and the port's other groups
replay from the last acknowledged flit (R221, R222). -/
def startRetrain (s : State) (g : Nat) : State :=
  let up := groupUp s g
  let s := gst s g groupStatusState 2
  let s := gst s g groupStatusRetrains (ggt s g groupStatusRetrains + 1)
  let s := updGroup s g (fun x => { x with retraining := true, due := false, failed := 0, failedTx := 0 })
  match groupPort s g with
  | some p => if up && portUp s p then replayAll (moveFum s p) p else if up then moveFum s p else s
  | none => s

/-- A group is to retrain: during a package compute reset it waits while another group of its port does
(R356). -/
def wantRetrain (s : State) (g : Nat) : State :=
  let turns := s.resets.any (fun r => r.scope = .package)
  let busy := (groupPort s g).any (fun p => (portGroupList s p).any (fun x => (optGroup s x).retraining))
  if turns && busy then updGroup s g (fun x => { x with due := true }) else startRetrain s g

/-- A group that a test or a recalibration had taken aside is in service as it was. -/
def groupReturn (s : State) (g : Nat) : State :=
  if !(optGroup s g).recal then s
  else
    match groupPort s g with
    | none => s
    | some p =>
      let wasUp := portUp s p
      let s := updGroup (gst s g groupStatusState 3) g (fun x => { x with recal := false })
      portComes (moveFum s p) p wasUp

/-- Is module `g % 4` of its OE die up? -/
def moduleUp (s : State) (g : Nat) : Bool := bit (rg s (oeSlot (g / 4)) oeStatusModUp) (g % 4)

/-- Lanes 8 g to 8 g + 7 on wavelengths below LASER_MIN, as a mask of the group's lanes: lane l of a group
lies on wavelength l mod 4 of the laser-input fiber of its half of the die (R212). -/
def lowLanes (s : State) (g : Nat) : Nat :=
  let low := (mget {} s.oe (g / 4)).low
  let f := g % 4 / 2
  ((List.range 8).map (fun l => b2n (bit low (4 * f + l % 4)) * 2 ^ l)).sum

/-- A group begins its first training, unless its port is dark or its module down; without laser light it
waits, dark (R215, R219, R220). -/
def startTraining (s : State) (g : Nat) : State :=
  match groupPort s g with
  | none => s
  | some p =>
    if portDark s p ∨ !moduleUp s g then s
    else if lowLanes s g ≠ 0 then
      gst (updGroup s g (fun x => { x with waitLight := true })) g groupStatusState 0
    else gst (updGroup s g (fun x => { x with waitLight := false, failed := 0, failedTx := 0 })) g
      groupStatusState 2

/-- It returns to service; lanes of it that have failed meanwhile make it retrain (R221). -/
def groupBack (s : State) (g : Nat) : State :=
  let s := groupReturn s g
  let x := optGroup s g
  if groupUp s g ∧ (x.failed ≠ 0 ∨ x.failedTx ≠ 0) ∧ !x.due then wantRetrain s g else s

/-- The next group of a port that waits for its turn retrains, where none of the port does (R356). -/
def nextRetrain (s : State) (p : Nat) : State :=
  let gs := portGroupList s p
  if gs.any (fun g => (optGroup s g).retraining) then s
  else match gs.find? (fun g => (optGroup s g).due) with
    | some g => startRetrain s g
    | none => s

end Sys2Proof.Machine
end

