-- ==== Sys2Proof/Machine/Resets.lean ====
section
/-!
DEFINITION. What the package does about a fault: job aborts with their eruption packets (R285, R348,
R361), lobe fences (R23), the reset ladder with the effect of entering each level (R355 to R360,
R364), and the aggregator that takes the events raised in a step one after another (R348).
-/

namespace Sys2Proof.Machine

/-! ### Operations of communication queues -/

/-- The operation status word (R275). -/
def opStatus (code detail origin freeOrder : Nat) : Nat :=
  code % 256 + freeOrder % 2 * 2 ^ 8 + detail % 2 ^ 16 * 2 ^ 32 + origin % 2 ^ 16 * 2 ^ 48

/-- Is `op` a reduction (R273)? -/
def isReduction (op : Nat) : Bool := op = 5 || op = 6 || op = 7

/-- OP of a queue descriptor (R272). -/
def qdOp (w : Nat) : Nat := bits w 166 4

/-- The event COLL_OP_ERR of an operation of queue `q` (R275). -/
def opErrEvent (q job : Nat) : Event :=
  { slot := collSlot (q / 32), src := srcCollOpErr, job := job }

/-- A completed operation's status goes where it was posted from: into the descriptor of a
sequencer's post, whose phase then waits for one fewer, or into the record of the host's command
(R275, R328). An error status fails the phase (R141). -/
def deliverStatus (s : State) (q : Nat) (poster : Poster) (id code detail origin fo : Nat) : State :=
  let w := opStatus code detail origin fo
  match poster with
  | .host _ h => complete s h code w (if code = stAbortedByPeer then origin else 0)
  | .seq d ph addr =>
    let s := storeDie s d addr (leBytes 8 w)
    if isStarted (phaseOf s d ph) then
      let s := updPhase s d ph (fun p => { p with ops := p.ops.filter (fun x => x ≠ (q, id)) })
      if code = stOk then s else endFailed (markFailed s d ph) d ph
    else s

/-- An operation completes (R275, R276): it leaves its queue; a RECV of a die's sequencer that
completed OK is counted (R280); an error raises COLL_OP_ERR. -/
def completeOp (s : State) (q : Nat) (o : Op) : State :=
  let cq := cqOf s q
  let ok := o.code = stOk
  let fo := if ok ∧ isReduction (qdOp o.desc) then cq.order else 0
  let s := updCq s q (fun c => { c with ops := c.ops.filter (fun x => x.id ≠ o.id) })
  let s := retire s (collSlot (q / 32))
  let s := match o.poster with
    | .seq d _ _ =>
      if ok ∧ qdOp o.desc = 2 then
        updCq s q (fun c => { c with recv := mset 0 c.recv d ((mget 0 c.recv d + 1) % 2 ^ 32) })
      else s
    | _ => s
  let s := if o.code = stMalformed ∨ o.code = stWindow ∨ o.code = stMismatch ∨ o.code = stDataError
    then raise s (opErrEvent q cq.job) else s
  deliverStatus s q o.poster o.id o.code o.detail o.origin fo

/-- An aborted job's queue stops: its operations are to complete ABORTED, or ABORTED_BY_PEER with the
eruption's origin, those too that are finished and have not completed (R285). -/
def stopQueue (s : State) (q : Nat) (from_ : Option Nat) : State :=
  updCq s q (fun c => { c with
    state := 2
    ops := c.ops.map (fun o => match from_ with
      | none => { o with code := stAborted, detail := 0, ready := true }
      | some src => { o with code := stAbortedByPeer, detail := 0, origin := src, ready := true }) })

/-! ### Job aborts -/

/-- Sending the ERUPT packets of a job to its valid targets but `skip` (R361). `src` is the position
that the packets name as their origin. -/
def sendErupts (s : State) (j src : Nat) (skip : Option Nat) : State :=
  forEach (List.range 6) s (fun s t =>
    let v := mget 0 s.eruptT (j * 8 + t)
    let dest := v % 2 ^ 16
    if bit v 31 ∧ some dest ≠ skip then
      let p : Packet := { type := 0xA, dest := dest, src := src, job := j, epoch := (jobOf s j).epoch }
      incr { s with inject := s.inject ++ [p] } hangSlot eruptSent
    else s)

/-- Does the packet belong to queue traffic of job `j` (RED, RESV, MSG, FUM)? -/
def isQueueTraffic (j : Nat) (p : Packet) : Bool :=
  p.job = j && (p.type = 1 || p.type = 2 || p.type = 3 || p.type = 9)

/-- The queues of a job that are enabled. -/
def queuesOf (s : State) (j : Nat) : List Nat :=
  s.cqs.filterMap (fun (q, c) => if c.job = j && c.state = 1 then some q else none)

/-- Geysers free every slot and reservation of a job and hold no credit for it (R266). -/
def freeGeysers (s : State) (j : Nat) : State :=
  let s := forEach [0, 1] s (fun s h => updGeyser s h (fun g => { g with
    slots := g.slots.filter (fun x => x.job ≠ j)
    resv := g.resv.filter (fun x => x.job ≠ j)
    past := g.past.filter (fun x => x.job ≠ j)
    waiting := g.waiting.filter (fun (q, _) => (cqOf s q).job ≠ j) }))
  { s with credits := s.credits.filter (fun c => c.job ≠ j) }

/-- The dies with a phase whose mismatch a second attempt has not removed (R310). -/
def stuckDies (s : State) : List Nat :=
  (List.range 4).filter (fun d =>
    (startedPhases s d).any (fun ph => (phaseOf s d ph).tries ≥ 2))

/-- The dies that the self-test serves, each with its job: those with a mismatch that stays, and those for which a
running one has started, though their job has ended since (R310, R312). -/
def pairDies (s : State) : List (Nat × Nat) :=
  let now := (stuckDies s).map (fun d => (d, (seqOf s d).job))
  match s.pairTest with
  | .running _ ds => ds ++ now.filter (fun x => ds.all (fun y => y.1 ≠ x.1))
  | _ => now

/-- PAIR_LAST.OUTCOME of some dies. -/
def setOutcome (s : State) (ds : List Nat) (outcome : Nat) : State :=
  forEach ds s (fun s d => wg s (seqSlot d) pairLastOutcome outcome)

/-- The self-test that a job's end leaves without a mismatch is wanted no more (R312). -/
def dropWanted (s : State) : State :=
  match s.pairTest with
  | .wanted _ => if (stuckDies s).isEmpty then { s with pairTest := .idle } else s
  | _ => s

/-- What is on its way for an aborted job is gone: grants, queue traffic at the engines, and at a member's
router every packet but the ERUPTs, which count in DISC_STALE (R285, R240); a truncation mark follows one that
was being forwarded in part (R230). -/
def dropTraffic (s : State) (j : Nat) : State :=
  let s := { s with
    grants := s.grants.filter (fun g => g.job ≠ j)
    inject := s.inject.filter (fun p => !isQueueTraffic j p)
    inbox := s.inbox.filter (fun p => !isQueueTraffic j p) }
  if !(jobOf s j).member then s
  else
    let goes (w : OutWait) : Bool := w.pkt.job = j && w.pkt.type ≠ 0xA
    let ws := s.outq.filter goes
    let s := forEach ws { s with outq := s.outq.filter (fun w => !goes w) } (fun s w =>
      freeWait (incr s routerSlot discStale) w)
    forEach s.links s (fun s (i, l) => forEach l.part s (fun s x => match x.out with
      | some (o, q) =>
        if q.job = j ∧ q.type ≠ 0xA then
          let s := sendTruncate (incr s routerSlot discStale) o (packetVc q.type)
          let l := linkOf s i
          setLink s i { l with part := l.part.map (fun y => if y = x then { y with out := none } else y) }
        else s
      | none => s))

/-- A job is aborted on this package (R348, R285, R266, R361): by a fault that arose here
(`none`), or by the eruption whose source is given. An active job becomes aborted (assumption 121), and one
that is aborted already sends no second eruption. -/
def abortJob (s : State) (j : Nat) (from_ : Option Nat) : State :=
  if j = 0 then s
  else
    let again := (jobOf s j).state = 2
    let s := if (jobOf s j).state = 1 then setJob s j { jobOf s j with state := 2 } else s
    let s := forEach (queuesOf s j) s (fun s q => stopQueue s q from_)
    let s := freeGeysers (dropTraffic s j) j
    let s := forEach (List.range 4) s (fun s d =>
      if seqJob s d = j then
        abortSeq s d (match from_ with | none => .aborted | some o => .peer o)
      else s)
    let s := dropWanted s
    match from_ with
    | none => if again then s else sendErupts s j (myPos s) none
    | some src => sendErupts s j src (some src)

/-! ### Lists of channels -/

/-- Inserting a channel in ascending order, once. -/
def insertCh (xs : List Nat) (c : Nat) : List Nat :=
  match xs with
  | [] => [c]
  | x :: r => if x < c then x :: insertCh r c else if x = c then xs else c :: xs

/-- The contents of a domain's window become undefined: its bytes read as nothing written
(assumption 2). -/
def clearDom (s : State) (d : Dom) : State :=
  let keep (a : Nat) : Bool := !(domBase d ≤ a && a < domBase d + domMax d)
  { s with mem := mkeep s.mem keep, errs := mkeep s.errs keep }

/-- A channel leaves its die-local and lobe-wide domains (R188, R190). -/
def mapOutDie (s : State) (ch : Nat) : State :=
  if s.outDie.contains ch then s
  else
    let s := { s with outDie := insertCh s.outDie ch }
    clearDom (clearDom s (.dieLocal (ch / 256))) (.lobe (ch / 512))

/-- The package-wide live list takes every channel that is mapped out of a die, and the window opens
again (R190). -/
def mapOutPkg (s : State) : State :=
  let s' := { s with pkgShut := false }
  if s.outDie.all (fun c => s.outPkg.contains c) then s'
  else clearDom { s' with outPkg := s.outDie.foldl insertCh s.outPkg } .pkg

/-! ### Rilun edges (R205 to R207) -/

/-- The two edges of die `d`: its in-lobe edge and its Caldera edge. -/
def edgesOfDie (d : Nat) : List (Fin 6) := [lobeEdge d, calderaEdge d]

/-- Setting a field of an end's edge set. -/
def ewg (s : State) (e : EdgeEnd) (f : Nat → Fld) (v : Nat) : State :=
  wg s (edgeSet e).1 (f (edgeSet e).2) v

/-- The die at an end: none at the Caldera's. -/
def endDie (e : EdgeEnd) : Option Nat :=
  let k := e.edge.val
  if k < 2 then some (2 * k + b2n e.far) else if e.far then none else some (k - 2)

/-- An event of an end's page; the edge set is its part. -/
def edgeEvent (e : EdgeEnd) (src job detail : Nat) : Event :=
  { slot := (edgeSet e).1, src := src, job := job,
    part := if e.edge.val ≥ 2 ∧ !e.far then 1 else 0, detail := detail }

/-- The edge of a BUNDLE test: the in-lobe edge of the die, or with bit 8 of UNIT its Caldera edge (R367). -/
def testEdge (d unit : Nat) : Fin 6 :=
  if bit unit 8 then calderaEdge d else lobeEdge d

/-- The bundle whose turn it is among those in service, `turn` being the least that may come next (R194). -/
def turnOf (up : List Nat) (turn : Nat) : Option Nat :=
  match up.find? (fun b => turn ≤ b) with
  | some b => some b
  | none => up.head?

/-- The kept flits of bundles that are not in service go to those that are, round-robin in flit order: the flits
and the next turn. -/
def respread (up : List Nat) : List Kept → Nat → List Kept × Nat
  | [], t => ([], t)
  | f :: rest, t =>
    match (if up.contains f.bundle then none else turnOf up t) with
    | some c =>
      let (fs, t) := respread up rest (c + 1)
      ({ f with bundle := c } :: fs, t)
    | none =>
      let (fs, t) := respread up rest t
      (f :: fs, t)

/-- Up bundles of an end that are in service. -/
def serving (s : State) (e : EdgeEnd) : List Nat :=
  (edgeSide s e).bundles.filterMap (fun (k, b) => if b.up && b.sparing.isNone && !b.aside then some k else none)

/-- What bundles out of service carried and is not acknowledged is sent again on the others; where there are none,
it waits for one that returns (R198, R199). -/
def moveTraffic (s : State) (k : Fin 6) : State :=
  forEach [false, true] s (fun s far =>
    let x := edgeSide s ⟨k, far⟩
    let (fs, t) := respread (serving s ⟨k, far⟩) x.replay x.turn
    setEdgeSide s ⟨k, far⟩ { x with replay := fs, turn := t })

/-- A bundle's traffic is moved aside, or it returns to service, at both ends of its edge. -/
def setAside (s : State) (k : Fin 6) (b : Nat) (on : Bool) : State :=
  let s := forEach [false, true] s (fun s far =>
    let x := edgeSide s ⟨k, far⟩
    setEdgeSide s ⟨k, far⟩ { x with
      bundles := mset {} x.bundles b { mget {} x.bundles b with aside := on } })
  moveTraffic s k

/-- Does a started BUNDLE test hold a bundle? A reset that contains it holds the test (R370). -/
def bundleTested (s : State) (k : Fin 6) (b : Nat) : Bool :=
  s.tests.any (fun t => t.started && t.kind = 5 && testEdge t.die t.unit = k && t.unit % 64 = b)

/-- The traffic of an end is discarded when a die at its edge resets (R207): what is in flight is
gone, a sparing is abandoned, the control bundles are to be trained. -/
def flushEnd (s : State) (e : EdgeEnd) : State :=
  let x := edgeSide s e
  setEdgeSide s e { x with
    replay := [], rxHeld := [], ctrl := []
    txNext := 0, rxNext := 0, turn := 0
    bundles := x.bundles.map (fun (k, b) => (k, { b with sparing := none, aside := bundleTested s e.edge k })) }

/-- What the end of a die that resets holds back is gone too. -/
def dropHeld (s : State) (e : EdgeEnd) : State := setEdgeSide s e { edgeSide s e with held := [] }

/-- The end that survives a reset completes its outstanding requests at their requesters with EDGE_RESET, and
raises it for the job of each: a request is outstanding while its flit is unacknowledged (assumption 17). -/
def edgeReset (s : State) (e : EdgeEnd) : State :=
  let x := edgeSide s e
  let rs := x.replay.filter (fun k => k.request.isSome)
  forEach rs (setEdgeSide s e { x with ended := x.ended ++ rs }) (fun s k =>
    raise s (edgeEvent e srcEdgeReset k.job 0))

/-- The edges of dies that enter reset lose their traffic (R205, R207). An end survives whose die is not among
them; the Caldera's survives where it is not reset itself. -/
def resetEdges (s : State) (ds : List Nat) (caldera : Bool) : State :=
  forEach (ds.flatMap edgesOfDie).eraseDups s (fun s k =>
    forEach [false, true] s (fun s far =>
      let e : EdgeEnd := ⟨k, far⟩
      let gone := match endDie e with
        | some d => ds.contains d
        | none => caldera
      flushEnd (if gone then dropHeld s e else edgeReset s e) e))

/-- Stores that sources in reset have issued and that wait are gone (R207). -/
def dropPosted (s : State) (gone : Source → Bool) : State :=
  { s with posted := s.posted.filter (fun x => !gone x.src) }

/-- The edges of a die are to train: EDGE_STATUS.STATE of both ends becomes `st`, 2 reconcile or 1 full
training, and the control bundles are down (R205, R206). -/
def markEdges (s : State) (d st : Nat) : State :=
  forEach (edgesOfDie d) s (fun s k =>
    forEach [false, true] s (fun s far =>
      ewg (ewg s ⟨k, far⟩ edgeStatusState st) ⟨k, far⟩ edgeStatusCtrlUp 0))

/-- The edges of a fenced lobe (R201). -/
def fenceEdges (s : State) (l : Half) : State := markEdges (markEdges s (2 * l.val) 4) (2 * l.val + 1) 4

/-- The edges that a level trains again (R205, R355): those of a die reconcile, those of a lobe or of the
package train fully. -/
def trainEdges (s : State) : Scope → State
  | .die d => markEdges s d 2
  | .lobe l => forEach [2 * l.val, 2 * l.val + 1] s (fun s d => markEdges s d 1)
  | .package => forEach (List.range 4) s (fun s d => markEdges s d 1)
  | .full => forEach (List.range 4) s (fun s d => markEdges s d 1)
  | _ => s

/-! ### The scratchpad sample (R360) -/

/-- The logical index of an enabled physical cluster. -/
def logicalOf (s : State) (d c : Nat) : Option Nat :=
  (List.range 32).find? (fun l => mapPhys s d l = c)

/-- Base of the sample area of die `d`. -/
def sampleBase (s : State) (d : Nat) : Nat :=
  rg s hangSlot (sampleBaseHi d) * 2 ^ 32 + rg s hangSlot (sampleBaseLo d) * 2 ^ 16

/-- Is the task repeatable (R125)? -/
def isRepeatable (t : LiveTask) : Bool := !t.ordered && !anyMeet t.reads t.writes

/-- The task that a tile holds. -/
def tileTask (s : State) (d c t : Nat) : Option LiveTask :=
  match (tileOf s d c t).task with
  | some r => liveOfId s d r.id
  | none => none

/-- The layer under which a task's outputs are counted (R61, R88): of a piece that of its OPT phase. -/
def censusLayer (s : State) (d : Nat) (k : LiveTask) : Nat :=
  if k.piece.isSome then phLayer (phaseOf s d k.phase).desc else tkLayer k.words

/-- The index record of a sample, 64 bytes. Which output pass a task has come to is a free value, and so is TYPE
of a piece of an OPT phase, which has none (assumption 138). -/
def sampleRecord (s : State) (d c t level : Nat) (hung : Bool) : List Byte :=
  let slot := tileSlot d c t
  let k := tileTask s d c t
  let g (f : LiveTask → Nat) : Nat := match k with | some x => f x | none => 0
  let flags := level % 8 + 8 + 16 * b2n k.isSome + 32 * b2n hung +
    64 * b2n (match k with | some x => isRepeatable x | none => false)
  leBytes 8 s.ft.t ++ leBytes 4 (g (·.index)) ++ leBytes 2 (g (·.phase)) ++
    leBytes 2 (if k.isSome then seqJob s d else 0) ++
    leBytes 2 (g (censusLayer s d)) ++ leBytes 1 c ++ leBytes 1 t ++ leBytes 1 flags ++
    leBytes 1 (g (fun x => if x.piece.isSome then Config.freeValue (s.free + 1) % 4 else tkType x.words)) ++
    leBytes 2 (if k.isSome then Config.freeValue s.free else 0) ++
    leBytes 4 (tremorOf s slot).count ++ leBytes 4 (ageField s slot) ++
    leBytes 32 0

/-- Bank of a scratchpad byte (R113). -/
def padBank (a : Nat) : Nat := a / 16 % 64

/-- Row of a scratchpad byte in its bank. -/
def padRow (a : Nat) : Nat := a / 1024

/-- Byte `a` of a tile's scratchpad, 64 banks of 1,024 rows of 16 bytes. What a task leaves there is not
stated, but stays as it is until another one runs (R114, assumption 116). -/
def padByte (s : State) (d c t a : Nat) : Byte :=
  BitVec.ofNat 8 (Config.scratch (die s d).padEra (tileOf s d c t).pad (tileKey d c t)
    ((padBank a * 1024 + padRow a) * 16 + a % 16))

/-- The sampled scratchpad bytes: the first 4 KiB, then the line at the start of each 4 KiB. -/
def sampleBytes (s : State) (d c t : Nat) : List Byte :=
  (List.range 4096).map (padByte s d c t) ++
  (List.range 256).flatMap (fun k => (List.range 16).map (fun i => padByte s d c t (4096 * k + i)))

/-- Sampling one tile. -/
def sampleTile (s : State) (d c t level : Nat) (hung : Bool) : State :=
  match logicalOf s d c with
  | none => s
  | some l =>
    if !bit (rg s hangSlot sampleCtlEn) d then s
    else
      let base := sampleBase s d
      if !allReach s base (4 * 2 ^ 20 + 32768) then
        wg s hangSlot sampleCtlSkipped (rg s hangSlot sampleCtlSkipped ||| 2 ^ d)
      else
        let i := 16 * l + t
        let rec_ := sampleRecord s d c t level hung
        let data := sampleBytes s d c t
        let s := { s with free := s.free + 2 }
        let s := store (store s (.die d) (base + i * 8192) data) (.die d) (base + 4 * 2 ^ 20 + i * 64) rec_
        incr s hangSlot sampleCount

/-- Tiles in a scope, as die, cluster, tile; none at a full package reset. -/
def scopeTiles : Scope → List (Nat × Nat × Nat)
  | .tile d c t => [(d, c, t)]
  | .cluster d c => (List.range 16).map (fun t => (d.val, c.val, t))
  | .die d => allTiles d
  | .lobe l => allTiles (2 * l) ++ allTiles (2 * l + 1)
  | .package => (List.range 4).flatMap allTiles
  | .full => []
where
  /-- Every tile of a die. -/
  allTiles (d : Nat) : List (Nat × Nat × Nat) :=
    (List.range 33).flatMap (fun c => (List.range 16).map (fun t => (d, c, t)))

/-- Sampling the tiles of a scope that an escalated reset has not sampled already. -/
def sampleScope (s : State) (sc : Scope) (before : Option Scope) (hung : Option (Nat × Nat × Nat)) :
    State :=
  let done := match before with | some b => scopeTiles b | none => []
  forEach (scopeTiles sc) s (fun s (d, c, t) =>
    if done.contains (d, c, t) then s
    else sampleTile s d c t (scopeLevel sc) (hung == some (d, c, t)))

/-! ### Entering a reset level (R355) -/

/-- Does a register field keep its value across a level that resets its page? An admitted OE die stays
admitted, and its groups stay up, through a package compute reset (R210, R356); a refused die's entry and
the counts of retrains are reset. -/
def keptAcross (s : State) (sc : Scope) (key : Nat) : Bool :=
  let slot := key / 32768
  let off := key % 32768 / 8
  let retrains : List Nat := (List.range 4).map (fun n => fkey slot (groupStatusRetrains n))
  sc = .package && pgType slot = 0x1A && 0x80 ≤ off && off < 0x98 && rg s slot oeStatusAdmit = 2 &&
    !retrains.contains key

/-- The pages of a scope take their reset values (R335), but for the fields that `keep` names. -/
def resetPages (s : State) (sc : Scope) (keep : Nat → Bool := fun _ => false) : State :=
  { s with
    regs := s.regs.filter (fun (k, _) => !resetsPage sc (k / 32768) || keptAcross s sc k || keep k)
    tremor := mkeep s.tremor (fun k => !resetsPage sc k) }

/-- HOLD_STATUS shows a hold that outlives the reset of its page (R370). -/
def showHolds (s : State) : State :=
  forEach (List.range 4) s (fun s d => match (memCtl s d).hold with
    | some h => wg (wg s (mgSlot d) holdStatusActive 1) (mgSlot d) holdStatusChannel h.chan
    | none => s)

/-- The fields that the trainings and the boot within a level have set: they stay at its end (R205, R355, R389). -/
def wasTrained (sc : Scope) (k : Nat) : Bool :=
  let ty := pgType (k / 32768)
  ty = 0x20 || ty = 0x19 || (ty = 0x1A && 4 ≤ scopeLevel sc) ||
    ((ty = 0x04 || ty = 0x06 || ty = 0x09) && sc = .full)

/-- A tile is reset: its task is put back or ends ABORTED, its clock runs (R359). -/
def resetTile (s : State) (d c t : Nat) : State :=
  let s := match tileTask s d c t with
    | none => s
    | some k =>
      let s := if isRepeatable k ∧ k.reruns < rg s hangSlot heCtl then requeue s d k
        else
          let s := abortTask s d k
          endFailed (markFailed s d k.phase) d k.phase
      dropTask s d c t
  setTile s d c t { tileOf s d c t with gated := false, restart := false }

/-- The phases that a die warm reset finds started fail, and raise it (R355, R141). The tasks that it ends get no
TASK_STATUS: ABORTED names a tile abort and a job abort (R120; DESIGN CHOICE, assumption 139). -/
def failStarted (s : State) (d : Nat) : State :=
  let started := startedPhases s d
  let s := forEach started (clearTasks s d) (fun s ph => endPhase s d ph 3)
  forEach started s (fun s _ => seqEvent s d srcSeqPhaseFail)

/-- What a die holds in its fabric is cleared by a reset of level 2 or higher: the sequencer ends, tasks,
queues, map and census go, the buffer and the scratchpads are undefined (R355, R116, R129). -/
def resetDie (s : State) (d : Nat) : State :=
  let s := clearTasks s d
  let s := finishStopped (noteStop s d .aborted) d
  let n := s.free + 1
  let s := updDie { s with free := n } d (fun x => { mem := x.mem, padEra := n })
  let s := { s with
    tiles := s.tiles.filter (fun (k, _) => k / 528 ≠ d)
    served := s.served.filter (fun (k, _) => k / 33 ≠ d)
    waking := s.waking.filter (fun (k, _) => k / 11 ≠ d)
    census := s.census.filter (fun (k, _) => k / 65536 ≠ d) }
  clearDom s (.buffer d)

/-- An event is placed in the fault log at its acting class, whatever LOG says, and completes the waits that
it meets; nothing else follows it (R187, R326). -/
def logOnly (s : State) (e : Event) : State :=
  let c := actingClass s e
  let masked := isMasked s e
  let i := rg s logSlot logStatus
  let s := logWrite s e c masked (!isSticky s e)
  if masked then s else waitFaults s c i

/-- A queued row is hard-repaired (R187). Whether a repair resource is left is a free value; without one the
row stays in service and is logged. Where the level keeps memory, the row is read and corrected (R179), and a sector
that cannot be corrected is written back as zeros and logged. -/
def repairRow (s : State) (d : Nat) (keep : Bool) (ch row : Nat) : State :=
  let (i, s) := useFree s
  if Config.freeValue i % 2 = 0 then
    let s := updMem s d (fun m => { m with unfixed := m.unfixed ++ [(ch, row)] })
    logOnly s (memEvent d srcMemUeScrub 0 (addrOf s ch (256 * row)) ch)
  else if keep then
    forEach (rowErrs s ch row) s (fun s (a, v) =>
      let s := setErr s a 0
      if v < 2 then foundCorrected s a true
      else logOnly (wrBytes s a (List.replicate 32 0)) (memEvent d srcMemUeScrub 0 a ch))
  else s

/-- Rows queued for hard repair are repaired at a reset that trains their stacks. -/
def hardRepair (s : State) (d : Nat) (keep : Bool) : State :=
  let q := (memCtl s d).repairQ
  let s := updMem s d (fun m => { m with
    repairQ := [], softLost := m.softLost.filter (fun x => !q.contains x) })
  let s := wg s solSlot memRepairQueued (rg s solSlot memRepairQueued - q.length)
  forEach q s (fun s (ch, row) => repairRow s d keep ch row)

/-- The memory controllers of a die restart, and its stacks train: sector table, queues and bank refresh go, and
the hold but for that of a CHANNEL test, which the reset holds (R370); the list of queued rows is repaired (R183,
R187). -/
def resetMemory (s : State) (d : Nat) (keep : Bool) : State :=
  let s := hardRepair s d keep
  let s := updMem s d (fun m =>
    { repairQ := m.repairQ, unfixed := m.unfixed, failing := m.failing, soft := m.soft, softLost := m.softLost
      hold := (m.hold.filter (fun h => h.kind = .test)).map (fun h => { chan := h.chan, kind := .test }) })
  { s with
    bankNext := s.bankNext.filter (fun (k, _) => k / 256 ≠ d)
    repairCur := rg s solSlot memRepairMode }

/-- The stacks of a die lose power, and with it their soft repairs (R187). -/
def losePower (s : State) (d : Nat) : State :=
  updMem s d (fun m => { m with soft := [], softLost := m.softLost ++ m.soft })

/-- The host's commands that end ABORTED when compute resets: DMA and every command that names a job
(R355, assumption 18), and every TEST (R370). A SEQ_RUN that has started ends with its sequencer, by the first
cause (R326). -/
def abortCommands (s : State) : State :=
  forEach (allCmds s) s (fun s c =>
    if !c.queueKind ∧ cmdOp c = 1 then
      let (s, n) := dmaCut s c
      complete s c.handle stAborted n
    else if !c.queueKind ∧ (cmdOp c = 4 ∨ cmdJob c ≠ 0 ∧ !(cmdOp c = 2 ∧ c.started)) then
      complete s c.handle stAborted (stepResult s c)
    else s)

/-- Every operation of every queue ends ABORTED. -/
def abortOps (s : State) (qs : List Nat) : State :=
  forEach qs s (fun s q =>
    let s := if (cqOf s q).state = 1 then stopQueue s q none else s
    forEach (cqOf s q).ops s (fun s o =>
      completeOp s q (if o.ready then o else { o with code := stAborted })))

/-- The groups of a dark port are off (R219); what waited at the port is routed again. -/
def darkenGroups (s : State) : State :=
  forEach ((List.range 6).filter (portDark s)) s (fun s p =>
    let s := forEach (portGroupList s p) s (fun s g =>
      let s := gst (gst (gst s g groupStatusState 0) g groupStatusWidth 0) g groupStatusFum 0
      updGroup (gst (gst s g groupStatusTxLanes 0) g groupStatusRxLanes 0) g (fun _ => {}))
    let s := forEach (linkOf s p).part (unCut s p) (fun s x => dropCut s p x)
    let again := s.outq.filter (fun w => w.port = p)
    let s := setLink s p {}
    let s := { s with
      outq := s.outq.filter (fun w => w.port ≠ p), inject := s.inject ++ again.map OutWait.pkt }
    forEach again s (fun s w => returnCredit s w.src))

/-- The settings that take effect at a package compute reset or a full package reset are taken at the
moment it begins (R355, R167, R189, R219). -/
def takeSettings (s : State) : State :=
  let np := rg s solSlot memSplitNextPkg
  let nl := rg s solSlot memSplitNextLobe
  let changed := np ≠ rg s solSlot memSplitCurPkg ∨ nl ≠ rg s solSlot memSplitCurLobe
  let s := wg (wg s solSlot memSplitCurPkg np) solSlot memSplitCurLobe nl
  let s := if changed then
      let s := forEach [.pkg, .lobe 0, .lobe 1, .dieLocal 0, .dieLocal 1, .dieLocal 2, .dieLocal 3]
        s clearDom
      { s with jw := s.jw.map (fun (k, e) => (k, { e with valid := false })) }
    else s
  let s := if rgB s solSlot mapoutReqPending then
      wg (mapOutDie s (rg s solSlot mapoutReqChannel)) solSlot mapoutReqPending 0
    else s
  let s := mapOutPkg s
  darkenGroups (wg s solSlot optPlanDarkCur (rg s solSlot optPlanDark))

/-- The tiles of a tile abort or a cluster reset are reset once their transactions have drained, at its end
(R357, R359). -/
def resetTiles (s : State) (sc : Scope) : State :=
  forEach (scopeTiles sc) s (fun s (d, c, t) => resetTile s d c t)

/-- Entering a compute die warm reset. -/
def enterDie (s : State) (d : Nat) : State :=
  dropPosted (resetEdges (resetDie (failStarted s d) d) [d] false) (fun x => x == .die d)

/-- Entering a lobe reset: both dies, their stacks, and the lobe's three edges (R205). What becomes of the
lobe's jobs is for the fence that begins it (R23, R355). -/
def enterLobe (s : State) (l : Nat) : State :=
  let s := forEach [2 * l, 2 * l + 1] s (fun s d => resetMemory (resetDie s d) d true)
  let ds := [2 * l, 2 * l + 1]
  dropPosted (resetEdges s ds false) (fun x => ds.any (fun d => x == .die d))

/-- Every job ends, with its operations and the host's commands of it (R355). -/
def endWork (s : State) : State :=
  let s := forEach (activeJobs s) s (fun s j => abortJob s j none)
  abortCommands (abortOps s (s.cqs.map (·.1)))

/-- What the engines of the Caldera halves hold is gone: Geysers, collective engines, DMA engines with
their remote requests, tests with their holds, and aborts in progress. -/
def clearEngines (s : State) : State :=
  { forEach (List.range 4) s (fun s d => updMem s d (fun m => { m with hold := none })) with
    geysers := [], credits := [], grants := [], cqs := [], tests := [], restarts := [],
    aborts := [], pairTest := .idle, posted := []
    remote := {} }

/-- Entering a package compute reset: every job and every host command of a job ends; compute,
stacks, edges, Geysers, collective engines and DMA engines are reset (R355). -/
def enterPackage (s : State) (takes : Bool) (keep : Bool := true) : State :=
  let s := endWork s
  let s := if takes then takeSettings s else s
  let s := forEach (List.range 4) s (fun s d => resetMemory (resetDie s d) d keep)
  clearEngines (resetEdges s (List.range 4) true)

/-- The dies of a lobe and its edges lose what they hold: tasks, queues, sequencers, buffers (R355). -/
def dropLobe (s : State) (l : Nat) : State :=
  let ds := [2 * l, 2 * l + 1]
  let s := resetEdges (resetDie (resetDie s (2 * l)) (2 * l + 1)) ds false
  let s := dropPosted s (fun x => ds.any (fun d => x == .die d))
  markEdges (markEdges s (2 * l) 1) (2 * l + 1) 1

/-- What lies outside compute is cleared with a full package reset, once its own ERUPT packets have left (R361):
router, links, route tables and jobs, fabric time, host interfaces, attestation records with their key, and optical engines (R335,
R393, R396), with the pages of the router and of the optical engines. -/
def clearOutside (s : State) : State :=
  { s with
    jobs := [], rtHdr := [], rtEnt := [], inject := [], inbox := [], arrived := [], outq := [], tx := []
    links := [], sidestep := [], nbrUp := [], ft := {}, remote := {}, rings := [], cports := []
    msixTab := [], msixPend := [], records := [], seg := none, eruptT := [], oe := [], groups := []
    hot := [], barWait := [], bar4Size := [], bootId := List.replicate 8 0, akSeed := List.replicate 32 0
    regs := s.regs.filter (fun (k, _) => !carriesErupts (k / 32768)) }

/-- Entering a full package reset: all that a package compute reset clears, and memory. The router
and the host side are cleared once its own ERUPT packets have left (R361). -/
def enterFull (s : State) (takes : Bool) : State :=
  let s := enterPackage s takes false
  { s with mem := [], errs := [], seen := [] }

/-- Entering a level: a tile abort and a cluster reset first wait for the transactions of their tiles to
drain. -/
def enterScope (s : State) (sc : Scope) (takes : Bool) : State :=
  match sc with
  | .tile .. => s
  | .cluster .. => s
  | .die d => enterDie s d
  | .lobe l => enterLobe s l
  | .package => enterPackage s takes
  | .full => enterFull s takes

/-- Does the first scope contain the second (R358)? -/
def scopeContains (a b : Scope) : Bool :=
  match a, b with
  | .full, _ => true
  | .package, .full => false
  | .package, _ => true
  | .lobe l, .lobe m => l = m
  | .lobe l, .die d => d.val / 2 = l.val
  | .lobe l, .cluster d _ => d.val / 2 = l.val
  | .lobe l, .tile d _ _ => d.val / 2 = l.val
  | .die d, .die e => d = e
  | .die d, .cluster e _ => d = e
  | .die d, .tile e _ _ => d = e
  | .cluster d c, .cluster e f => d = e && c = f
  | .cluster d c, .tile e f _ => d = e && c = f
  | .tile d c t, .tile e f u => d = e && c = f && t = u
  | _, _ => false

/-- Is a reset of level 2 or higher in progress (RESET_STATUS.IN_PROGRESS)? -/
def bigReset (s : State) : Bool := s.resets.any (fun r => 2 ≤ scopeLevel r.scope)

/-- Is the lobe in lobe reset? -/
def inLobeReset (s : State) (l : Half) : Bool := s.resets.any (fun r => r.scope = .lobe l)

/-- RESET_STATUS follows the resets in progress. -/
def showResets (s : State) : State := wg s solSlot resetStatusInProgress (b2n (bigReset s))

/-- The groups of a package compute reset retrain in turn, those of each port that are up or down (R356); one that
a test or a recalibration had taken aside is among them. Groups whose port is dark no more begin their first
training (R219). -/
def retrainGroups (s : State) : State :=
  let s := forEach (List.range 32) s groupReturn
  let s := forEach (List.range 32) s (fun s g => match groupPort s g with
    | none => s
    | some p =>
      if portDark s p then s
      else if groupUp s g ∨ groupDown s g then updGroup s g (fun x => { x with due := true })
      else if ggt s g groupStatusState = 0 then startTraining s g else s)
  forEach (List.range 6) s nextRetrain

/-- Starting a level whose tiles have been sampled (R355, R358): the effects, the page resets, the trainings
and the counters. `before` is the scope that escalated into it. A full package reset waits while a shut-off
holds it back (R386). -/
def startLevel (s : State) (sc : Scope) (before : Option Scope) : State :=
  let wait := sc = .full && s.shutoff.isSome
  let fn := faultN s
  let takes := !wait && before != some .package
  let s := enterScope s sc takes
  let s := trainEdges (showHolds (resetPages s sc (fun k => sc = .full && carriesErupts (k / 32768)))) sc
  let s := if sc = .package then retrainGroups s else s
  let s := { s with
    resets := s.resets.filter (fun r => !scopeContains sc r.scope) ++ [⟨sc, before.isSome, wait, fn, false⟩] }
  let s := incr s solSlot (resetCount (scopeLevel sc))
  let s := wg s solSlot resetStatusLastLevel (scopeLevel sc)
  let s := wg s solSlot resetStatusEscalated (b2n before.isSome)
  showResets s

/-- A level begins: its tiles are sampled, and it starts (R360, R355). -/
def beginReset (s : State) (sc : Scope) : State := startLevel (sampleScope s sc none none) sc none

/-- Which reset a demand comes to (R358, R24): none while the package is held or inside a reset in
progress, nor a full package reset without valid Solfatara firmware (R389); a lobe reset beside a fenced or resetting lobe is a package compute reset. -/
def demandScope (s : State) (sc : Scope) : Option Scope :=
  let sc := match sc with
    | .lobe l =>
      let o : Half := if l = 0 then 1 else 0
      if lobeFenced s o ∨ inLobeReset s o then .package else sc
    | _ => sc
  if rgB s solSlot resetStatusHeld && sc != .full || sc == .full && !s.boot.solOk then none
  else if s.resets.any (fun r => scopeContains r.scope sc) then none
  else some sc

/-! ### Fences (R23, R24, R307, R310) -/

/-- The attempt of a phase starts over (R148, R310): its list is dispatched from the beginning. -/
def restartAttempt (p : Phase) : Phase :=
  { p with stage := .working, next := 0, last := none, latch := false, latched := false,
           committed := false, drops := 0, digest := 0,
           sub := if phType p.desc = 3 then phCount0 p.desc else 0 }

/-- Has a phase a list to run again? OPT and EXCHANGE are not run again (R311), PREFETCH runs nothing
itself, and a RECOMP may replay no phase or be skipped (R411). -/
def isReplayable (p : Phase) : Bool :=
  let ty := phType p.desc
  ty = 1 || ty = 2 || (ty = 3 && phCount1 p.desc ≠ 0 && !p.skipped)

/-- On the surviving lobe, a phase that a mismatch has stopped runs once more without a check; one
that is being run again is not checked, and the others go on as they are (R310 to R312). -/
def surviveMismatch (s : State) (l : Nat) : State :=
  forEach [2 * l, 2 * l + 1] s (fun s d =>
    forEach (startedPhases s d) s (fun s ph =>
      let p := phaseOf s d ph
      if p.tries = 0 then s
      else if p.stage = .exchange ∧ isReplayable p then
        updPhase s d ph (fun p => { restartAttempt p with unchecked := true, rung := p.rungStart })
      else updPhase s d ph (fun p => { p with unchecked := true })))

/-- Setting the fence bit of a lobe, its fenced mode, and the primary lobe: East once West is fenced, and
West where East is fenced in Paired mode (R23, R307, R310). -/
def setFence (s : State) (l : Half) : State :=
  let s := wg s solSlot (if l = 0 then lobeModeFencedW else lobeModeFencedE) 1
  let s := if l = 0 then wg s solSlot lobeModePrimary 1
    else if isPaired s then wg s solSlot lobeModePrimary 0 else s
  wg s solSlot lobeModeCur 2

/-- The effect of a fence on the active jobs, by the mode before it (R23, R310). In Degraded mode the spec
states none: the jobs go on (assumption 105). -/
def fenceJobs (s : State) (l : Half) (cur : Nat) : State :=
  forEach (activeJobs s) s (fun s j =>
    if cur = 1 then
      if mget 0 s.pairPol j = 1 then s else abortJob s j none
    else if cur = 0 then
      if jobInLobe s j l then abortJob s j none else s
    else s)

/-- The dies that run a mismatched phase again, or wait for the self-test (R310). -/
def triedDies (s : State) : List Nat :=
  (List.range 4).filter (fun d => (startedPhases s d).any (fun ph => (phaseOf s d ph).tries ≥ 1))

/-- A lobe that is not fenced is fenced (R23, R310); a re-run or a self-test of Paired mode ends with it
(R312). -/
def fenceOnly (s : State) (l : Half) : State :=
  let cur := rg s solSlot lobeModeCur
  if lobeFenced s l then s
  else if cur = 1 then
    let s := setOutcome { s with pairTest := .idle } (triedDies s ++ (pairDies s).map Prod.fst) 2
    surviveMismatch (fenceEdges (setFence (fenceJobs s l cur) l) l) (1 - l.val)
  else fenceEdges (setFence (fenceJobs s l cur) l) l

/-- A lobe is fenced, and its lobe reset begins (R23, R355); with both lobes fenced, the package
compute reset (R24). The sample comes before the fence ends any task (R360). -/
def fenceLobe (s : State) (l : Half) : State :=
  match demandScope s (.lobe l) with
  | some sc => startLevel (fenceOnly (sampleScope s sc none none) l) sc none
  | none => fenceOnly s l

/-- Both lobes are fenced at once: the package compute reset (R348, R24). -/
def fenceBoth (s : State) : State :=
  let fenced (s : State) : State := fenceOnly (fenceOnly s 0) 1
  match demandScope s .package with
  | some sc => startLevel (fenced (sampleScope s sc none none)) sc none
  | none => fenced s

/-- The lobes that have come back while a job was active take part again once no job is, and the mode in
LOBE_MODE.MODE is entered where no lobe is fenced (R23). PRIMARY stays as it is (R307). -/
def restoreLobes (s : State) : State :=
  if s.lobeIdle.isEmpty ∨ !(activeJobs s).isEmpty then s
  else
    let s := { s with lobeIdle := [] }
    if lobeFenced s 0 ∨ lobeFenced s 1 then s
    else wg s solSlot lobeModeCur (rg s solSlot lobeModeMode)

/-! ### The aggregator (R348) -/

/-- A demand for a reset: a lobe reset begins by fencing its lobe. -/
def demand (s : State) (sc : Scope) : State :=
  match demandScope s sc with
  | none => s
  | some (.lobe l) => fenceLobe s l
  | some sc => beginReset s sc

/-- The lobe that FENCE takes for a page: the lobe of a die page, or of a Caldera edge page's die. -/
def fenceTarget (slot : Nat) : Option Half :=
  if isDiePage slot then some (if lobeOf (pgDie slot) = 0 then 0 else 1)
  else if pgType slot = 0x19 then some (if pgHalf slot = 0 then 0 else 1)
  else none

/-- The scope of RESET for a page: full for a page of level 5 or 6. -/
def resetTarget (slot : Nat) : Scope := if pgLevel (pgType slot) ≥ 5 then .full else .package

/-- Does an event of class `c` call for a reset (R348)? -/
def callsReset (s : State) (e : Event) (c : Nat) : Bool :=
  rgB s faSlot (classActReset c) || (rgB s faSlot (classActFence c) && (fenceTarget e.slot).isNone)

/-- The lobe that an event of class `c` fences, unless a reset in progress contains it. -/
def callsFence (s : State) (e : Event) (c : Nat) : Option Half :=
  match fenceTarget e.slot with
  | some l =>
    if rgB s faSlot (classActFence c) && !s.resets.any (fun r => scopeContains r.scope (.lobe l)) then some l
    else none
  | none => none

/-- The actions of the classes of simultaneous events, each taken once (R348): a RESET absorbs every FENCE and
ABORT, fences of both lobes are one package compute reset (R24), and several events of a job cause one
abort. -/
def classActions (s : State) (es : List (Event × Nat)) : State :=
  match es.filter (fun (e, c) => callsReset s e c) with
  | x :: xs => demand s (if (x :: xs).any (fun y => resetTarget y.1.slot = .full) then .full else .package)
  | [] =>
    let lobes := es.filterMap (fun (e, c) => callsFence s e c)
    let jobs := (es.filterMap (fun (e, c) =>
      if rgB s faSlot (classActAbort c) then some e.job else none)).eraseDups
    let s := if lobes.contains 0 && lobes.contains 1 then fenceBoth s
      else match lobes with
        | l :: _ => fenceLobe s l
        | [] => s
    forEach jobs s (fun s j => abortJob s j none)

/-- Events of one step in the order of their page slots, those of one page as they arose (R351). -/
def bySlot (es : List Event) : List Event := es.foldl after []
where
  /-- An event behind those of its own and lower slots. -/
  after (xs : List Event) (e : Event) : List Event :=
    xs.takeWhile (fun x => x.slot ≤ e.slot) ++ e :: xs.dropWhile (fun x => x.slot ≤ e.slot)

/-- The aggregator takes the events of one step: they are recorded, and then their classes act. -/
def takeBatch (s : State) (es : List Event) : State :=
  let xs := (bySlot es).map (fun e => (e, actingClass s e))
  classActions (forEach xs s (fun s (e, _) => record s e)) xs

/-- The aggregator takes the events that have been raised, then those that its own actions have raised; `n`
bounds the rounds. -/
def drain : Nat → State → State
  | 0, s => s
  | n + 1, s =>
    match s.due with
    | [] => s
    | es => drain n (takeBatch { s with due := [] } es)

/-- Every raised event is taken, and a sequencer whose last started phase has ended stops. -/
def takeEvents (s : State) : State :=
  forEach (List.range 4) (drain 64 s) (fun s d => settleSeq (releaseHeld s d) d)

/-! ### Escalation (R357) -/

/-- The page on which an overrun is logged (assumption 19). -/
def scopePage : Scope → Nat
  | .tile d c t => tileSlot d c t
  | .cluster d c => clusterSlot d c
  | .die d => seqSlot d
  | .lobe l => mgSlot (2 * l)
  | _ => hangSlot

/-- The next level of the ladder. -/
def nextScope : Scope → Option Scope
  | .tile d c _ => some (.cluster d c)
  | .cluster d _ => some (.die d)
  | .die d => some (.lobe (if d.val < 2 then 0 else 1))
  | .lobe _ => some .package
  | .package => some .full
  | .full => none

/-- HANG of a page with a level in DETAIL (R351), logged in any case (R357, R364). -/
def hangEvent (slot level : Nat) (job : Nat := 0) (forced : Bool := true) : Event :=
  { slot := slot, src := srcHang, job := job, detail := level, forced := forced }

end Sys2Proof.Machine
end

