-- ==== Sys2Proof/Machine/BootCore.lean ====
section
/-!
DEFINITION. Measurement registers (R391), firmware images with their checks (R387, R388), the VIN48 domains' switching
off (R381), and the boot within a full package reset (R389, R393).
-/

namespace Sys2Proof.Machine

/-! ### Bytes and measurements -/

/-- Are the bytes [lo, hi) of a list zero? -/
def zeroBytes (bs : List Byte) (lo hi : Nat) : Bool :=
  (bs.drop lo |>.take (hi - lo)).all (· == 0)

/-- The little-endian value of `n` bytes at `lo`. -/
def fieldOf (bs : List Byte) (lo n : Nat) : Nat := leNat ((bs.drop lo).take n)

/-- A measurement register's 64 bytes (R391). -/
def mrBytes (s : State) (i : Nat) : List Byte :=
  let b := mget [] s.mr i
  b ++ List.replicate (64 - b.length) 0

/-- A measurement register is extended with a digest: MR ← SHA-512(MR ‖ d). -/
def extendMr (s : State) (i : Nat) (d : List Byte) : State :=
  { s with mr := mset [] s.mr i (sha512 (mrBytes s i ++ d)) }

/-- Bytes of the boot flash; an erased byte reads 0xFF. -/
def flashBytes (s : State) (a n : Nat) : List Byte :=
  (List.range n).map (fun k => mget 0xFF s.flash (a + k))

/-- Serial number bytes. -/
def serialBytes : List Byte := (List.range 4).flatMap (fun n => leBytes 4 (Config.serial n))

/-! ### Images (R387, R388) -/

/-- Start and size of a firmware copy in the flash, `b` the second. -/
def copyAt (img : Image) (b : Bool) : Nat × Nat :=
  match img with
  | .solfatara => (if b then 0x100000 else 0, 0x100000)
  | .caldera => (if b then 0x400000 else 0x200000, 0x200000)
  | .die => (if b then 0x800000 else 0x600000, 0x200000)

/-- TYPE of an image. -/
def imageType : Image → Nat
  | .solfatara => 1
  | .caldera => 2
  | .die => 3

/-- The floor field of an image type. -/
def floorField : Image → Fld
  | .solfatara => fuseStateSvnSol
  | .caldera => fuseStateSvnCal
  | .die => fuseStateSvnDie

/-- The header of a copy. -/
def copyHeader (s : State) (img : Image) (b : Bool) : List Byte := flashBytes s (copyAt img b).1 256

/-- SVN of a copy. -/
def copySvn (s : State) (img : Image) (b : Bool) : Nat := fieldOf (copyHeader s img b) 8 1

/-- The image digest of a copy. -/
def imageDigest (s : State) (img : Image) (b : Bool) : List Byte :=
  sha512 ((copyHeader s img b).take 0xC0)

/-- Every row of R388 but the floor. -/
def copySigned (s : State) (img : Image) (b : Bool) : Bool :=
  let h := copyHeader s img b
  let len := fieldOf h 0x0C 4
  let slot := fieldOf h 9 1
  let start := (copyAt img b).1
  fieldOf h 0 4 = 0x4B465731 && fieldOf h 4 2 = 1 && fieldOf h 6 1 = imageType img &&
  zeroBytes h 0x50 0xC0 && bits (fieldOf h 7 1) 1 7 = 0 && bits (fieldOf h 0x0A 1) 4 4 = 0 &&
  bits (fieldOf h 0x0B 1) 4 4 = 0 && fieldOf h 8 1 ≤ 64 &&
  256 + len ≤ (copyAt img b).2 &&
  (h.drop 0x10).take 64 = sha512 (flashBytes s (start + 256) len) &&
  slot < 4 && !bit (rg s fuseSlot fuseStateRevFw) slot &&
  (match Config.keySlot true slot with
   | some key => Config.edVerify key (imageDigest s img b) ((h.drop 0xC0).take 64)
   | none => false)

/-- Is the SVN of a copy at least the floor? -/
def copyFresh (s : State) (img : Image) (b : Bool) : Bool :=
  rg s fuseSlot (floorField img) ≤ copySvn s img b

/-- Key of a copy among the updates. -/
def copyKey (img : Image) (b : Bool) : Nat := 2 * imageType img + b2n b

/-- Does a firmware update hold a copy open (R423)? -/
def copyOpen (s : State) (img : Image) (b : Bool) : Bool := mget 0 s.boot.updates (copyKey img b) ≠ 0

/-- Is a copy valid? One that an update holds open is not. -/
def copyValid (s : State) (img : Image) (b : Bool) : Bool :=
  !copyOpen s img b && copySigned s img b && copyFresh s img b

/-- The report of a copy that is not valid (R389). -/
def reportCopy (s : State) (img : Image) (b : Bool) : State :=
  raise s { slot := secSlot, src := if copySigned s img b && !copyOpen s img b then srcRollback else srcAuthFail }

/-- Copy A is tried first and copy B second: the first valid one, if there is one. -/
def pickCopy (s : State) (img : Image) : State × Option Bool :=
  if copyValid s img false then (s, some false)
  else
    let s := reportCopy s img false
    if copyValid s img true then (s, some true) else (reportCopy s img true, none)

/-! ### The Solfatara firmware (R389) -/

/-- The Solfatara ROM verifies the Solfatara firmware, keeps its digest and runs it; without a valid copy
the package stays in P4. -/
def bootSolfatara (s : State) : State :=
  let (s, c) := pickCopy s .solfatara
  match c with
  | none => wg { s with boot := { s.boot with solOk := false, solNew := false } } secSlot secStatusStage 7
  | some b =>
    let s := { s with boot := { s.boot with
      solOk := true, solB := b, solDigest := imageDigest s .solfatara b, solNew := false } }
    wg (wg s secSlot secStatusStage 1) secSlot secStatusSolB (b2n b)

/-! ### Power and clocks -/

/-- The VIN48 domains switch off, all at once: everything but the Solfatara domain loses what it holds,
memory included (R381, R386, R430). A package that was held is held no more (R357). -/
def powerDown (s : State) : State :=
  let s := clearEngines (dropLobe (dropLobe (endWork s) 0) 1)
  let s := clearOutside (resetPages s .full (fun k => pgPower (k / 32768) = 64))
  let s := forEach (List.range 4) s losePower
  let s := { s with
    mem := [], errs := [], seen := [], resets := [], heldPower := none, enterPower := none, barWait := [] }
  let s := wg (wg (wg s pwrSlot pwrStateOffW 0) pwrSlot pwrStateOffE 0) solSlot resetStatusHeld 0
  showResets (wg s pwrSlot pwrStateCur 4)

/-- CLK_STATUS shows the clocks that are present. The package reference leaves REFCLK100_0 when that is
lost while REFCLK100_1 is there, and does not come back by itself; nor does the slow clock. -/
def showClocks (s : State) : State :=
  let p := s.pins
  let s := wg (wg s clkSlot clkStatusRef0Ok (b2n p.ref0)) clkSlot clkStatusRef1Ok (b2n p.ref1)
  let s := if !p.ref0 && p.ref1 then wg s clkSlot clkStatusRefSel 1 else s
  let s := wg s clkSlot clkStatusHoldover (b2n (!p.ref0 && !p.ref1))
  let s := wg s clkSlot clkStatusSlowOk (b2n p.slow)
  if p.slow then s else wg s clkSlot clkStatusBackup 1

/-! ### The full package reset's boot (R389, R391, R393) -/

/-- Drawing `n` bytes from the random generator. -/
def drawBytes (s : State) (n : Nat) : List Byte × State :=
  ((List.range n).map (fun k => Config.random (s.free + k)), { s with free := s.free + n })

/-- FUSE_STATE. -/
def fuseState (s : State) : Nat := storedRead s fuseSlot 0x80

/-- 64 bytes, or zeros where there are none. -/
def orZeros (b : List Byte) : List Byte := if b.isEmpty then List.replicate 64 0 else b

/-- The security controller ROM clears the measurements, extends MR0 and MR3 and verifies the Caldera
firmware; false where neither copy is valid. -/
def bootCaldera (s : State) : State × Bool :=
  let s := extendMr { s with mr := [] } 0 (orZeros s.boot.solDigest)
  let s := extendMr s 3 (sha512 (leBytes 4 (fuseState s) ++ serialBytes ++ orZeros s.boot.token))
  let s := wg (wg s secSlot secStatusSolB (b2n s.boot.solB)) secSlot secStatusTest (b2n s.boot.test)
  let (s, c) := pickCopy (wg s secSlot secStatusStage 2) .caldera
  match c with
  | none => (wg { s with boot := { s.boot with calOk := false } } secSlot secStatusStage 7, false)
  | some b =>
    let s := extendMr { s with boot := { s.boot with calOk := true, calB := b } } 1 (imageDigest s .caldera b)
    (wg (wg s secSlot secStatusCalB (b2n b)) secSlot secStatusStage 3, true)

/-- The Caldera firmware draws the attestation key and BOOT_ID, and verifies the die firmware. -/
def bootDies (s : State) : State :=
  let (k, s) := drawBytes s 32
  let (b, s) := drawBytes s 8
  let s := { s with akSeed := k, bootId := b }
  let (s, c) := pickCopy s .die
  match c with
  | none => { s with boot := { s.boot with dieOk := false } }
  | some b =>
    let s := extendMr { s with boot := { s.boot with dieOk := true, dieB := b } } 2 (imageDigest s .die b)
    wg s secSlot secStatusDieB (b2n b)

/-- Outside P4 boundary scan drives no pin: EXTEST and CLAMP act as BYPASS (R426). -/
def leaveScan (s : State) : State :=
  if s.jtag = .extest ∨ s.jtag = .clamp then wg { s with jtag := .bypass } testSlot jtagStatusScanActive 0
  else s

/-- HI_LINK of a port whose link trains, with its reference clock there (R377): what rate and width it comes to is a
free value (R317). -/
def trainLink (s : State) (p : Nat) : State :=
  if mget false s.pins.perst p ∨ !clockRuns s (26 + p) then s
  else
    let (i, s) := useFree s
    let v := Config.freeValue i
    let speed := 1 + v % 3
    let s := wgFree (wgFree s (hiSlot p) hiLinkSpeed speed) (hiSlot p) hiLinkFlit (b2n (speed = 3))
    wgFree s (hiSlot p) hiLinkWidth ([4, 8, 16].getD (v / 3 % 3) 16)

/-- The router and the host side are reset, and the package boots: an update of the Solfatara firmware is activated
(R423, assumption 140), the Caldera firmware and the die firmware are verified, and the package reference is
REFCLK100_0 again where that is there (R377). Without valid Solfatara or Caldera firmware the package goes back to
P4. -/
def bootFull (s : State) : State :=
  let s := clearOutside s
  let s := { s with resets := s.resets.map (fun r => if r.scope = .full then { r with booted := true } else r) }
  let s := if s.boot.solNew then bootSolfatara s else s
  let (s, ok) := if s.boot.solOk then bootCaldera s else (s, false)
  if !ok then wg (powerDown s) secSlot secStatusStage 7
  else
    let s := leaveScan (bootDies s)
    wg (showClocks s) clkSlot clkStatusRefSel (b2n (!s.pins.ref0 && s.pins.ref1))

/-- A full package reset boots as soon as the package's own ERUPT packets have left (R361). -/
def bootWhenDue (s : State) : State :=
  if s.resets.any (fun r => r.scope = .full && !r.wait && !r.booted) && !eruptsLeave s then
    takeEvents (bootFull s)
  else s

end Sys2Proof.Machine
end

