-- ==== Sys2Proof/Machine/CollCore.lean ====
section
/-!
DEFINITION. Communication queues: the check of a configuration (R254, R270), queue descriptors with
their footprints and validity (R272 to R274), posting (R271, R278), the packets of queue traffic
(R279), and the canonical trees over member ranks (R255, R256, R282).
-/

namespace Sys2Proof.Machine

/-! ### Queue descriptor (R272) -/

/-- SRC. -/
def qdSrc (w : Nat) : Nat := bits w 448 64
/-- DST. -/
def qdDst (w : Nat) : Nat := bits w 384 64
/-- AUX. -/
def qdAux (w : Nat) : Nat := bits w 320 64
/-- BYTES. -/
def qdBytes (w : Nat) : Nat := bits w 256 40
/-- B_FIRST. -/
def qdFirst (w : Nat) : Nat := bits w 240 16
/-- B_LAST. -/
def qdLast (w : Nat) : Nat := bits w 224 16
/-- CHUNKS. -/
def qdChunks (w : Nat) : Nat := bits w 208 16
/-- PEER. -/
def qdPeer (w : Nat) : Nat := bits w 192 16
/-- TAG. -/
def qdTag (w : Nat) : Nat := bits w 176 16
/-- QUEUE. -/
def qdQueue (w : Nat) : Nat := bits w 170 6
/-- TFMT. -/
def qdTfmt (w : Nat) : Nat := bits w 163 3
/-- WIN. -/
def qdWin (w : Nat) : Nat := bits w 156 7
/-- The reserved bits. -/
def qdResv (w : Nat) : Nat := bits w 296 24 + bits w 64 92

/-- Buckets of a reduction. -/
def qdBuckets (w : Nat) : Nat := qdLast w + 1 - qdFirst w

/-! ### Route tables and ranks -/

/-- Route table of tree `t` of a queue. -/
def rtOf (c : Cq) (t : Nat) : Nat := bits c.rt (6 * t) 6

/-- Job bound to a route table (R237). -/
def rtJob (s : State) (n : Nat) : Nat := bits (mget 0 s.rtHdr n) 16 12
/-- Rank count of a route table. -/
def rtCount (s : State) (n : Nat) : Nat := bits (mget 0 s.rtHdr n) 0 16
/-- Position of rank `r` in route table `n`. -/
def rtPos (s : State) (n r : Nat) : Nat := mget 0 s.rtEnt (n * 32768 + r) % 65536

/-- Position of rank `r` in tree `t` of a queue. -/
def posAt (s : State) (c : Cq) (t r : Nat) : Nat := rtPos s (rtOf c t) r
/-- Rank of a position in tree `t` of a queue. -/
def rankAt (s : State) (c : Cq) (t pos : Nat) : Option Nat :=
  (List.range c.members).find? (fun r => posAt s c t r = pos)

/-- The queue that serves a job and group, if one is enabled. -/
def queueFor (s : State) (job group : Nat) : Option Nat :=
  (s.cqs.find? (fun (_, c) => c.state = 1 && c.job = job && c.group = group)).map Prod.fst

/-- REASON of a refused configuration, 0 when every check of R270 passes. -/
def queueReason (s : State) (q : Nat) (c : Cq) : Nat :=
  let ts := List.range c.trees
  let rs := List.range c.members
  if c.job = 0 ∨ !(jobOf s c.job).member then 1
  else if (if c.order = 1 then !(2 ≤ c.fan && c.fan ≤ 4) else c.fan ≠ 1) then 2
  else if c.members = 0 ∨ c.members > 32768 ∨ c.trees = 0 ∨ c.trees > 8 then 3
  else if ts.any (fun t => rtJob s (rtOf c t) ≠ c.job || rtCount s (rtOf c t) ≠ c.members) ||
      (List.range 8).any (fun t => c.trees ≤ t && rtOf c t ≠ 0) then 4
  else if ts.any (fun t => rs.any (fun r =>
      (rankAt s c 0 (posAt s c t r)).isNone || (rankAt s c t (posAt s c 0 r)).isNone)) then 5
  else if (rankAt s c 0 (myPos s)).isNone then 6
  else if s.cqs.any (fun (k, x) => k ≠ q && x.en && x.state ≠ 3 && x.job = c.job && x.group = c.group) then 7
  else 0

/-! ### Footprints -/

/-- Bytes of a chunk in memory (R152). -/
def chunkBytes : Nat := 2112

/-- The bytes that the Caldera reads at an address: the primary copy (R307). -/
def calRead (s : State) (a n : Nat) : List Byte := rdBytes s (primaryAddr s a) n

/-- Where the engine that serves a queue sends its traffic from (R18, R269). -/
def engineSource (q : Nat) : Source := .half (q / 32)

/-- Must the engine of a queue wait to read one of these ranges, for a held channel or an edge (R18, R191)? -/
def engineWaits (s : State) (q : Nat) (rs : List (Nat × Nat)) : Bool :=
  rs.any (fun r => r.2 ≠ 0 && isHeld s (engineSource q) (primaryAddr s r.1) r.2)

/-- The engine of a queue reads `n` bytes from `a`: errors of their sectors are counted and reported, and an
uncorrectable one is answered (R179, R180, R275, assumption 128). -/
def readSource (s : State) (q a n : Nat) : State × Bool :=
  let (s, bad) := checkRead s (.caldera ⟨q / 32 % 2, Nat.mod_lt _ (by decide)⟩) (primaryAddr s a) n
  (s, bad.isSome)

/-- Entry `k` of an ALL_TO_ALLV size table: bytes to send to the rank, bytes expected from it. -/
def sizeEntry (s : State) (aux k : Nat) : Nat × Nat :=
  let w := leNat (calRead s (aux + 8 * k) 8)
  (bits w 0 32, bits w 32 32)

/-- Sum of the first `k` entries of a size table. -/
def sizeSum (s : State) (aux k : Nat) (f : Nat × Nat → Nat) : Nat :=
  ((List.range k).map (fun i => f (sizeEntry s aux i))).sum

/-- The owner of bucket `b` of a reduction (R281): none for an all-reduce. -/
def ownerOf (s : State) (c : Cq) (w b : Nat) : Option Nat :=
  match qdOp w with
  | 6 => some ((b - qdFirst w) * c.members / qdBuckets w)
  | 7 => some (leNat (calRead s (qdAux w + 2 * (b - qdFirst w)) 2))
  | _ => none

/-- The buckets of a reduction. -/
def bucketList (w : Nat) : List Nat := (List.range (qdBuckets w)).map (· + qdFirst w)

/-- Buckets whose result is written at rank `r`, ascending. -/
def myBuckets (s : State) (c : Cq) (w r : Nat) : List Nat :=
  (bucketList w).filter (fun b => match ownerOf s c w b with | some o => o = r | none => true)

/-- Does the operation read at SRC at rank `r`, and write at DST (R273)? -/
def usesSrc (w r : Nat) : Bool :=
  match qdOp w with
  | 2 => false
  | 9 => qdPeer w = r
  | 0xA => false
  | _ => true

/-- Does the operation write at DST at rank `r`? -/
def usesDst (w r : Nat) : Bool :=
  match qdOp w with
  | 1 => false
  | 9 => qdPeer w ≠ r
  | 0xA => false
  | _ => true

/-- The table that an operation reads at AUX (R280, R281). -/
def auxReads (c : Cq) (w : Nat) : List (Nat × Nat) :=
  match qdOp w with
  | 4 => [(qdAux w, 8 * c.members)]
  | 7 => [(qdAux w, 2 * qdBuckets w)]
  | _ => []

/-- Is every owner that an owner table names a rank of the group (R281)? -/
def ownersOk (s : State) (c : Cq) (w : Nat) : Bool :=
  qdOp w ≠ 7 || (bucketList w).all (fun b => match ownerOf s c w b with
    | some o => o < c.members
    | none => true)

/-- Byte ranges read at rank `r`. -/
def opReads (s : State) (c : Cq) (w r : Nat) : List (Nat × Nat) :=
  if !usesSrc w r then []
  else match qdOp w with
    | 3 => [(qdSrc w, c.members * qdBytes w)]
    | 4 => (qdSrc w, sizeSum s (qdAux w) c.members Prod.fst) :: auxReads c w
    | 5 => [(qdSrc w, qdBuckets w * qdChunks w * chunkBytes)]
    | 6 => [(qdSrc w, qdBuckets w * qdChunks w * chunkBytes)]
    | 7 => (qdSrc w, qdBuckets w * qdChunks w * chunkBytes) :: auxReads c w
    | 0xB => [(qdSrc w, 4 * qdBytes w)]
    | _ => [(qdSrc w, qdBytes w)]

/-- Byte ranges written at rank `r`. -/
def opWrites (s : State) (c : Cq) (w r : Nat) : List (Nat × Nat) :=
  if !usesDst w r then []
  else match qdOp w with
    | 3 => [(qdDst w, c.members * qdBytes w)]
    | 4 => [(qdDst w, sizeSum s (qdAux w) c.members Prod.snd)]
    | 5 => [(qdDst w, qdBuckets w * qdChunks w * chunkBytes)]
    | 6 => [(qdDst w, (myBuckets s c w r).length * qdChunks w * chunkBytes)]
    | 7 => [(qdDst w, (myBuckets s c w r).length * qdChunks w * chunkBytes)]
    | 8 => [(qdDst w, c.members * qdBytes w)]
    | 0xB => [(qdDst w, 4 * qdBytes w)]
    | _ => [(qdDst w, qdBytes w)]

/-- The rows of R274. `port` is the queue that a descriptor is posted to. -/
def qdValid (s : State) (port : Nat) (w : Nat) : Bool :=
  let c := cqOf s port
  let r := c.rank
  let p := c.members
  let op := qdOp w
  qdResv w = 0 && 1 ≤ op && op ≤ 0xB && qdQueue w = port &&
  (qdSrc w ≠ 0) == usesSrc w r && (qdDst w ≠ 0) == usesDst w r &&
  (match op with
   | 1 => 1 ≤ qdBytes w && qdPeer w < p && qdPeer w ≠ r
   | 2 => 1 ≤ qdBytes w && qdPeer w < p && qdPeer w ≠ r
   | 3 => 1 ≤ qdBytes w
   | 4 => qdAux w % 8 = 0 && qdBytes w = 0
   | 8 => 1 ≤ qdBytes w
   | 9 => 1 ≤ qdBytes w && qdPeer w < p
   | 0xA => qdBytes w = 0
   | 0xB => 1 ≤ qdBytes w && qdBytes w ≤ 16 && qdTfmt w ≤ 3
   | _ => qdFirst w ≤ qdLast w && 1 ≤ qdWin w && qdWin w ≤ 64 && 1 ≤ qdChunks w &&
      qdSrc w % 64 = 0 && qdDst w % 64 = 0 &&
      (op ≠ 6 || qdBuckets w % p = 0) &&
      (op ≠ 7 || (qdAux w % 2 = 0 && ownersOk s c w))) &&
  (!anyMeet (opReads s c w r) (opWrites s c w r) || (op = 5 && qdSrc w = qdDst w))

/-! ### Posting -/

/-- Has the queue room for a posted operation (R271)? -/
def queueRoom (s : State) (q : Nat) : Bool := (cqOf s q).ops.length < 256

/-- Posting a descriptor to queue `q` (R271, R274, R278): it completes at once with Q_STOPPED or
MALFORMED, or is accepted with the next id. Answers the id of an accepted operation. -/
def postOp (s : State) (q w : Nat) (poster : Poster) : State × Option Nat :=
  let c := cqOf s q
  let s := if c.state ≠ 1 then s else forEach (auxReads c w) s (fun s r => (readSource s q r.1 r.2).1)
  if c.state ≠ 1 then (deliverStatus s q poster c.nextId stQStopped 0 0 0, none)
  else if !qdValid s q w then
    let s := raise s (opErrEvent q c.job)
    (deliverStatus s q poster c.nextId stMalformed 0 0 0, none)
  else
    let tagged := qdOp w = 1 ∨ qdOp w = 2
    let o : Op := { id := c.nextId, desc := w, poster := poster,
                    num := if tagged then qdTag w else c.num % 65536 }
    (updCq s q (fun c => { c with
      ops := c.ops ++ [o], nextId := c.nextId + 1, num := if tagged then c.num else c.num + 1 }),
     some c.nextId)

/-- Changing an operation of a queue. -/
def updOp (s : State) (q id : Nat) (f : Op → Op) : State :=
  updCq s q (fun c => { c with ops := updFirst (fun o => o.id = id) f c.ops })

/-- An operation of a queue. -/
def opOf (s : State) (q id : Nat) : Option Op := (cqOf s q).ops.find? (fun o => o.id = id)

/-- An operation is finished with a code: it waits for its completion. -/
def finishOp (s : State) (q id code : Nat) (detail : Nat := 0) : State :=
  updOp s q id (fun o => if o.ready then o else { o with ready := true, code := code, detail := detail })

/-- Operations started and not complete (INFLIGHT). -/
def inflight (c : Cq) : Nat := c.ops.countP (fun o => o.started)

/-! ### Packets -/

/-- A packet leaves the package's own blocks: to the router, or inside the Caldera when its destination
is this package (R257). -/
def sendPkt (s : State) (p : Packet) : State :=
  if p.dest = myPos s then { s with inbox := s.inbox ++ [p] }
  else { s with inject := s.inject ++ [p] }

/-- A packet of a queue's job. -/
def queuePkt (s : State) (c : Cq) (type dest : Nat) : Packet :=
  { type := type, dest := dest, src := myPos s, job := c.job, epoch := (jobOf s c.job).epoch,
    group := c.group }

/-- Payload padded to whole flits, and their number. -/
def flitPad (bs : List Byte) : List Byte × Nat :=
  let n := cdiv bs.length 64
  (bs ++ List.replicate (64 * n - bs.length) 0, n)

/-- An MSG packet to rank `r` of tree `t`; packet index `i` as BUCKET × 65,536 + CHUNK (R279). -/
def msgPkt (s : State) (c : Cq) (t r node tag i : Nat) (bs : List Byte) : Packet :=
  let (pay, len) := flitPad bs
  { queuePkt s c 3 (posAt s c t r) with
    node := node, tag := tag, bucket := i / 65536, chunk := i % 65536, len := len, payload := pay }

/-- Packet index of a DATA packet. -/
def msgIndex (p : Packet) : Nat := p.bucket * 65536 + p.chunk

/-- A CTS to rank `r`: bytes expected, and the OP expected of the sender (R277, R279). -/
def sendCts (s : State) (c : Cq) (r tag bytes op : Nat) : State :=
  sendPkt s (msgPkt s c 0 r 0x1000 tag 0 (leBytes 8 bytes ++ leBytes 1 op ++ leBytes 55 0))

/-- A DONE to rank `r`: a receiver's report, or a sender's of a mismatch, which BYTES tells (assumption
126). -/
def sendDone (s : State) (c : Cq) (r tag : Nat) (mismatch : Bool := false) : State :=
  sendPkt s { msgPkt s c 0 r 0x2000 tag 0 [] with bytes := b2n mismatch }

/-- Packets that collective engines have sent: MSG, FUM, and RED with a leaf. -/
def enginePackets (s : State) : Nat :=
  (s.inject ++ s.inbox).countP (fun p => p.type = 3 || p.type = 9 || (p.type = 1 && p.node < 0x8000))

/-- What the collective engine that serves a queue does, with the packets that it sends and the `n` that it has
received counted as its progress (R353). -/
def engineDoes (s : State) (q n : Nat) (f : State → State) : State :=
  let s' := f s
  retire s' (collSlot (q / 32)) (n + (enginePackets s' - enginePackets s))

/-- Packets of a transfer of `n` bytes. -/
def packetsOf (n : Nat) : Nat := cdiv n 2048

/-! ### The canonical trees (R255, R256) -/

/-- The number of existing children of node (l, j). -/
def childCount (l j p f : Nat) : Nat :=
  ((List.range (2 ^ f)).filter (fun i => (j * 2 ^ f + i) * 2 ^ (f * (l - 1)) < p)).length

/-- The effective node of (l, j): a node with one child passes it up unchanged. -/
def effective : Nat → Nat → Nat → Nat → Nat × Nat
  | 0, j, _, _ => (0, j)
  | l + 1, j, p, f => if childCount (l + 1) j p f = 1 then effective l (j * 2 ^ f) p f else (l + 1, j)

/-- The node that combines the value of effective node (l, j), none at the root; `n` bounds the levels. -/
def parentNode : Nat → Nat → Nat → Nat → Nat → Option (Nat × Nat)
  | 0, _, _, _, _ => none
  | n + 1, l, j, p, f =>
    if 2 ^ (f * l) < p then
      let j' := j / 2 ^ f
      if 2 ≤ childCount (l + 1) j' p f then some (l + 1, j') else parentNode n (l + 1) j' p f
    else none

/-- The rank that combines node (l, j). -/
def hostRank (l j f : Nat) : Nat := (j * 2 ^ f + 1) * 2 ^ (f * (l - 1))

/-- The NODE field of an effective node (R257). -/
def nodeField (f : Nat) (n : Nat × Nat) : Nat := if n.1 = 0 then n.2 else 0x8000 + hostRank n.1 n.2 f

/-- Trailing zero base-2^f digits of `h`, at most `n`. -/
def zeroDigits : Nat → Nat → Nat → Nat
  | 0, _, _ => 0
  | n + 1, f, h => if h % 2 ^ f = 0 then 1 + zeroDigits n f (h / 2 ^ f) else 0

/-- The node that rank `h` hosts, none for a rank that hosts none (R256). -/
def hostedNode (f h : Nat) : Option (Nat × Nat) :=
  if h = 0 then none
  else
    let k := zeroDigits 16 f h
    let r := h / 2 ^ (f * k)
    if r % 2 ^ f = 1 then some (k + 1, (r - 1) / 2 ^ f) else none

/-- The effective node that a NODE field names (R257). -/
def nodeOf (f field : Nat) : Option (Nat × Nat) :=
  if field < 0x8000 then some (0, field) else hostedNode f (field - 0x8000)

/-- The effective children of node (l, j), ascending. -/
def childNodes (l j p f : Nat) : List (Nat × Nat) :=
  ((List.range (2 ^ f)).filter (fun i => (j * 2 ^ f + i) * 2 ^ (f * (l - 1)) < p)).map
    (fun i => effective (l - 1) (j * 2 ^ f + i) p f)

/-- Parent of an effective node. -/
def parentOf (n : Nat × Nat) (p f : Nat) : Option (Nat × Nat) := parentNode 17 n.1 n.2 p f

/-- The root of the tree over `p` members. -/
def rootNode (p f : Nat) : Nat × Nat :=
  let l := ((List.range 17).find? (fun l => p ≤ 2 ^ (f * l))).getD 16
  effective l 0 p f

/-- Position that sends the value of an effective node in tree `t`: RT0 for a leaf (R256). -/
def senderPos (s : State) (c : Cq) (t : Nat) (n : Nat × Nat) : Nat :=
  if n.1 = 0 then posAt s c 0 n.2 else posAt s c t (hostRank n.1 n.2 c.fan)

/-! ### Delivery trees (R282) -/

/-- Relative ranks to which relative rank `d` sends among `p`. -/
def relChildren (d p : Nat) : List Nat :=
  (List.range 16).filterMap (fun k => if d < 2 ^ k ∧ d + 2 ^ k < p then some (d + 2 ^ k) else none)

/-- Relative rank from which relative rank `d` ≥ 1 receives. -/
def relParent (d : Nat) : Nat := d - 2 ^ (Nat.log2 d)

/-- Ranks in table `t` to which rank `r` sends when `root` is the root. -/
def treeChildren (p r root : Nat) : List Nat :=
  (relChildren ((r + p - root) % p) p).map (fun d => (d + root) % p)

/-- Rank in table `t` from which rank `r` receives. -/
def treeParent (p r root : Nat) : Nat := (relParent ((r + p - root) % p) + root) % p

end Sys2Proof.Machine
end

