-- ==== Sys2Proof/Machine/CollRun.lean ====
section
/-!
DEFINITION. The transfers of queue operations: grants and their matching (R277, R278), what each
operation sends and writes (R280 to R283), and when it is finished. Ranks are those of RT0 unless a tree
is named.
-/

namespace Sys2Proof.Machine

/-- The rank of a position in RT0, 0 when it has none. -/
def rank0 (s : State) (c : Cq) (pos : Nat) : Nat := (rankAt s c 0 pos).getD 0

/-- The ranks of a queue but its own. -/
def otherRanks (c : Cq) : List Nat := (List.range c.members).filter (fun r => r ≠ c.rank)

/-! ### Broadcast trees (R282) -/

/-- Own rank and root's rank in tree `t` of a broadcast. -/
def bcastRanks (s : State) (c : Cq) (w t : Nat) : Nat × Nat :=
  ((rankAt s c t (myPos s)).getD 0, (rankAt s c t (posAt s c 0 (qdPeer w))).getD 0)

/-- Trees that carry a packet of the broadcast. -/
def bcastTrees (c : Cq) (w : Nat) : List Nat := List.range (min c.trees (packetsOf (qdBytes w)))

/-- The ranks to which this package forwards the packets of tree `t`. -/
def bcastKids (s : State) (c : Cq) (w t : Nat) : List Nat :=
  let (r, root) := bcastRanks s c w t
  (treeChildren c.members r root).map (fun k => rank0 s c (posAt s c t k))

/-- The rank from which this package receives the packets of tree `t`, none at the root. -/
def bcastParent (s : State) (c : Cq) (w t : Nat) : Option Nat :=
  if qdPeer w = c.rank then none
  else
    let (r, root) := bcastRanks s c w t
    some (rank0 s c (posAt s c t (treeParent c.members r root)))

/-- The ranks to which a broadcast sends, and those from which it receives. -/
def bcastAllKids (s : State) (c : Cq) (w : Nat) : List Nat :=
  ((bcastTrees c w).flatMap (bcastKids s c w)).eraseDups

/-- The ranks from which a broadcast receives. -/
def bcastParents (s : State) (c : Cq) (w : Nat) : List Nat :=
  ((bcastTrees c w).filterMap (bcastParent s c w)).eraseDups

/-! ### Peers of an operation -/

/-- The next and the previous rank of the ring (R283). -/
def ringNext (c : Cq) : Nat := (c.rank + 1) % c.members
/-- The previous rank. -/
def ringPrev (c : Cq) : Nat := (c.rank + c.members - 1) % c.members

/-- The ranks to which an operation sends data. -/
def sendsTo (s : State) (c : Cq) (w : Nat) : List Nat :=
  match qdOp w with
  | 1 => [qdPeer w]
  | 3 => otherRanks c
  | 4 => otherRanks c
  | 8 => if c.members = 1 then [] else [ringNext c]
  | 9 => bcastAllKids s c w
  | _ => []

/-- The ranks from which it receives, to which it sends grants. -/
def receivesFrom (s : State) (c : Cq) (w : Nat) : List Nat :=
  match qdOp w with
  | 2 => [qdPeer w]
  | 3 => otherRanks c
  | 4 => otherRanks c
  | 8 => if c.members = 1 then [] else [ringPrev c]
  | 9 => bcastParents s c w
  | _ => []

/-- Bytes that the operation's descriptor gives a sending pair with rank `r`. -/
def sendBytes (s : State) (w r : Nat) : Nat :=
  if qdOp w = 4 then (sizeEntry s (qdAux w) r).1 else qdBytes w

/-- Bytes that it expects from rank `r`. -/
def recvBytes (s : State) (w r : Nat) : Nat :=
  if qdOp w = 4 then (sizeEntry s (qdAux w) r).2 else qdBytes w

/-- DATA packets that it receives from rank `r`. -/
def recvPackets (s : State) (c : Cq) (w r : Nat) : Nat :=
  match qdOp w with
  | 8 => (c.members - 1) * packetsOf (qdBytes w)
  | 9 => ((List.range (packetsOf (qdBytes w))).filter
      (fun i => bcastParent s c w (i % c.trees) = some r)).length
  | _ => packetsOf (recvBytes s w r)

/-- The OP that it expects of a sender's descriptor (R277). -/
def expectedOp (w : Nat) : Nat := if qdOp w = 2 then 1 else qdOp w

/-! ### Sending -/

/-- Packet `i` of `n` bytes at `a`, to rank `r`; `base` is added to its index. -/
def sendData (s : State) (c : Cq) (r tag a n base i : Nat) : State :=
  let k := min 2048 (n - 2048 * i)
  sendPkt s (msgPkt s c 0 r 0 tag (base + i) (calRead s (a + 2048 * i) k))

/-- A whole transfer of `n` bytes at `a` to rank `r`. -/
def sendAll (s : State) (c : Cq) (r tag a n base : Nat) : State :=
  forEach (List.range (packetsOf n)) s (fun s i => sendData s c r tag a n base i)

/-- Packet `i` of an all-gather: the piece and the packet in it. -/
def gatherPiece (w i : Nat) : Nat × Nat :=
  (i / packetsOf (qdBytes w), i % packetsOf (qdBytes w))

/-- A packet of a broadcast or of an all-gather goes on to rank `r` as it arrived, with no read of memory
(R282, R283). -/
def forward (s : State) (c : Cq) (o : Op) (r i : Nat) (bs : List Byte) : State :=
  let w := o.desc
  let on := if qdOp w = 8 then (gatherPiece w i).1 ≠ r else (bcastKids s c w (i % c.trees)).contains r
  if on then sendPkt s (msgPkt s c 0 r 0 o.num i bs) else s

/-- Address and bytes of what a pair with rank `r` sends of this package's own data. -/
def ownData (s : State) (c : Cq) (w r : Nat) : Nat × Nat :=
  match qdOp w with
  | 3 => (qdSrc w + r * qdBytes w, qdBytes w)
  | 4 => (qdSrc w + sizeSum s (qdAux w) r Prod.fst, (sizeEntry s (qdAux w) r).1)
  | 9 => if qdPeer w = c.rank then (qdSrc w, qdBytes w) else (0, 0)
  | _ => (qdSrc w, qdBytes w)

/-- What the grant of rank `r` lets go: the pair's own data, and what is to be forwarded and has come.
An uncorrectable source ends the operation with DATA_ERROR. -/
def sendGranted (s : State) (q : Nat) (o : Op) (r : Nat) : State :=
  let c := cqOf s q
  let w := o.desc
  let (a, n) := ownData s c w r
  match readSource s q a n with
  | (s, true) => finishOp s q o.id stDataError
  | (s, false) =>
    let s := match qdOp w with
      | 9 => if qdPeer w = c.rank then
          forEach (List.range (packetsOf n)) s (fun s i =>
            if (bcastKids s c w (i % c.trees)).contains r then sendData s c r o.num a n 0 i else s)
        else s
      | 8 => sendAll s c r o.num a n (c.rank * packetsOf n)
      | _ => sendAll s c r o.num a n 0
    forEach o.rxed s (fun s (i, bs) => forward s c o r i bs)

/-! ### Finished operations -/

/-- Result chunks that a reduction writes on this package. -/
def resultChunks (s : State) (c : Cq) (w : Nat) : Nat :=
  (myBuckets s c w c.rank).length * qdChunks w

/-- Has every transfer of the operation come to its end (R280 to R283)? -/
def isFinished (s : State) (c : Cq) (o : Op) : Bool :=
  let w := o.desc
  let got (r : Nat) : Bool := mget 0 o.rx r = recvPackets s c w r
  if isReduction (qdOp w) then
    mget 0 o.rx 0 = resultChunks s c w &&
    (c.members = 1 || (bucketList w).all (fun b => mget 0 o.leaf b = qdChunks w))
  else if qdOp w = 0xA ∨ qdOp w = 0xB then false
  else (receivesFrom s c w).all got && (sendsTo s c w).all (fun r => o.doneBy.contains r)

/-- Marking the operation finished when it is. -/
def checkFinished (s : State) (q id : Nat) : State :=
  match opOf s q id with
  | some o => if o.started ∧ isFinished s (cqOf s q) o then finishOp s q id stOk else s
  | none => s

/-! ### Grants (R277) -/

/-- Does a grant with an OP belong to the operation (R278)? SEND is matched by its tag, with grants of a RECV,
every other operation by its number; where the members have posted different operations under a number, the
grant meets it all the same. -/
def grantFits (s : State) (c : Cq) (o : Op) (r tag op : Nat) : Bool :=
  let send := qdOp o.desc = 1
  o.num = tag && qdOp o.desc ≠ 2 && decide send == decide (op = 1) && !o.sent.contains r &&
  ((sendsTo s c o.desc).contains r || (!send && op ≠ qdOp o.desc)) && !(send && o.sent ≠ [])

/-- Has every byte from rank `r` been written? -/
def receivedAll (s : State) (c : Cq) (o : Op) (r : Nat) : Bool := mget 0 o.rx r = recvPackets s c o.desc r

/-- Does the DONE to rank `r` wait for that rank's grant? In an ALL_TO_ALLV it does, so that neither end of a pair
whose sizes disagree completes OK (R277, R292, assumption 126). -/
def awaitsGrant (o : Op) (r : Nat) : Bool := qdOp o.desc = 4 && !o.sent.contains r

/-- A grant for `bytes` and `op` from rank `r` meets a started operation: sizes and operations are
compared; a mismatch is reported by a DONE (R277, R279). `done` where the pair's DONE has come already. -/
def takeGrant (s : State) (q : Nat) (o : Op) (r bytes op : Nat) (done : Bool) : State :=
  let c := cqOf s q
  if op ≠ qdOp o.desc ∨ bytes ≠ sendBytes s o.desc r then
    finishOp (sendDone s c r o.num true) q o.id stMismatch r
  else
    let owed := awaitsGrant o r && receivedAll s c o r
    let s := updOp s q o.id (fun o => { o with
      sent := o.sent ++ [r], doneBy := if done then o.doneBy ++ [r] else o.doneBy })
    let s := sendGranted s q o r
    checkFinished (if owed then sendDone s c r o.num else s) q o.id

/-- A starting operation takes the grants that wait for it, the oldest of each rank. -/
def takeWaiting (s : State) (q id : Nat) : State :=
  let c := cqOf s q
  forEach (otherRanks c) s (fun s r =>
    match opOf s q id with
    | none => s
    | some o =>
      let mine (g : Grant) : Bool :=
        g.half = q / 32 && g.job = c.job && g.group = c.group && g.src = posAt s c 0 r &&
        grantFits s c o r g.tag g.op
      match s.grants.find? mine with
      | some g =>
        if o.ready then s else takeGrant { s with grants := s.grants.erase g } q o r g.bytes g.op g.done
      | none => s)

/-! ### Local parts -/

/-- Copying `n` bytes on the package as the collective engine does. -/
def calCopy (s : State) (q a b n : Nat) : State := storeBoth s (engineSource q) b (calRead s a n)

/-- The part that stays on the package (R280, R283): an all-to-all's own pair, an all-gather's own
piece. An own pair of ALL_TO_ALLV whose sizes disagree ends with MISMATCH (assumption 21). -/
def localPart (s : State) (q : Nat) (o : Op) : State :=
  let c := cqOf s q
  let w := o.desc
  let r := c.rank
  let copy (a b n : Nat) : State :=
    match readSource s q a n with
    | (s, true) => finishOp s q o.id stDataError
    | (s, false) => calCopy s q a b n
  match qdOp w with
  | 3 => copy (qdSrc w + r * qdBytes w) (qdDst w + r * qdBytes w) (qdBytes w)
  | 4 =>
    let (x, y) := sizeEntry s (qdAux w) r
    if x ≠ y then finishOp s q o.id stMismatch r
    else copy (qdSrc w + sizeSum s (qdAux w) r Prod.fst) (qdDst w + sizeSum s (qdAux w) r Prod.snd) x
  | 8 => copy (qdSrc w) (qdDst w + r * qdBytes w) (qdBytes w)
  | _ => s

/-- A transfer operation starts: its local part, its grants to those it receives from, and the grants
that wait for it. -/
def startTransfer (s : State) (q : Nat) (o : Op) : State :=
  let c := cqOf s q
  let w := o.desc
  let s := localPart s q o
  match opOf s q o.id with
  | none => s
  | some o' =>
    if o'.ready then s
    else
      let s := forEach (receivesFrom s c w) s (fun s r => sendCts s c r o.num (recvBytes s w r) (expectedOp w))
      checkFinished (takeWaiting s q o.id) q o.id

/-! ### DATA and DONE -/

/-- Does a started operation expect a DATA packet from rank `r` under the tag? -/
def expectsData (s : State) (c : Cq) (o : Op) (r tag : Nat) : Bool :=
  o.started && !o.ready && o.num = tag && (receivesFrom s c o.desc).contains r &&
  mget 0 o.rx r < recvPackets s c o.desc r

/-- Where packet `i` from rank `r` is written, and how many bytes (R279). -/
def dataPlace (s : State) (o : Op) (r i : Nat) : Nat × Nat :=
  let w := o.desc
  match qdOp w with
  | 3 => (qdDst w + r * qdBytes w + 2048 * i, min 2048 (qdBytes w - 2048 * i))
  | 4 => (qdDst w + sizeSum s (qdAux w) r Prod.snd + 2048 * i, min 2048 (recvBytes s w r - 2048 * i))
  | 8 =>
    let (p, k) := gatherPiece w i
    (qdDst w + p * qdBytes w + 2048 * k, min 2048 (qdBytes w - 2048 * k))
  | _ => (qdDst w + 2048 * i, min 2048 (qdBytes w - 2048 * i))

/-- A DATA packet is written, counted and forwarded; the last packet from a rank is answered by DONE
(R280). -/
def takeData (s : State) (q : Nat) (o : Op) (r i : Nat) (pay : List Byte) : State :=
  let c := cqOf s q
  let w := o.desc
  let (a, n) := dataPlace s o r i
  let s := storeBoth s (engineSource q) a (pay.take n)
  let fwd := qdOp w = 8 ∨ qdOp w = 9
  let s := updOp s q o.id (fun o => { o with
    rx := mset 0 o.rx r (mget 0 o.rx r + 1)
    rxed := if fwd then o.rxed ++ [(i, pay.take n)] else o.rxed })
  let s := if fwd then forEach o.sent s (fun s k => forward s c o k i (pay.take n)) else s
  let s := if mget 0 o.rx r + 1 = recvPackets s c w r ∧ !awaitsGrant o r then sendDone s c r o.num else s
  checkFinished s q o.id

/-- A DONE from rank `r`: a receiver's report of what this operation has sent it, or a sender's of a mismatch
(R277, R279). -/
def takeDone (s : State) (q : Nat) (o : Op) (r : Nat) (mismatch : Bool) : State :=
  if mismatch then finishOp s q o.id stMismatch r
  else checkFinished (updOp s q o.id (fun o => { o with doneBy := o.doneBy ++ [r] })) q o.id

/-- Does a started operation expect a DONE from rank `r` under the tag? A report one that has sent to that rank,
a mismatch one that receives from it, also where it expects no bytes (R277, R279). -/
def expectsDone (s : State) (c : Cq) (o : Op) (r tag : Nat) (mismatch : Bool) : Bool :=
  o.started && !o.ready && o.num = tag &&
  (if mismatch then (receivesFrom s c o.desc).contains r
   else o.sent.contains r && !o.doneBy.contains r)

/-! ### Discards (R433) -/

/-- An MSG packet is discarded: COLL_DISC of the engine that serves the queue, or of the West engine. -/
def discardMsg (s : State) (q : Option Nat) : State :=
  incr s (collSlot (match q with | some q => q / 32 | none => 0)) collDisc

end Sys2Proof.Machine
end

