-- ==== Sys2Proof/Machine/Numbers.lean ====
section
/-!
DEFINITION. Number formats and rounding (R27 to R45, R71 to R83): exact values, their decoding from
every element format, the one rounding of each conversion with its census class, and F32
arithmetic.
-/

namespace Sys2Proof.Machine

/-- An exact value: NaN, an infinity, or (−1)^neg × m × 2^e; a zero keeps its sign (R29). -/
inductive Val where
  | nan
  | inf (neg : Bool)
  | fin (neg : Bool) (m : Nat) (e : Int)
  deriving DecidableEq, Repr

/-- Positive zero. -/
def Val.zero : Val := .fin false 0 0

/-- A binary floating-point element format (R27): exponent and mantissa widths, bias, the pattern of
the largest finite value, whether the all-ones exponent holds infinities and NaNs, and whether only
the all-ones pattern is NaN (F8A). -/
structure Flo where
  eb : Nat
  mb : Nat
  bias : Nat
  maxPat : Nat
  ieee : Bool
  nanOnes : Bool
  deriving DecidableEq, Repr

/-- F32. -/
def floF32 : Flo := ⟨8, 23, 127, 0x7F7FFFFF, true, false⟩
/-- BF16. -/
def floBF16 : Flo := ⟨8, 7, 127, 0x7F7F, true, false⟩
/-- F16. -/
def floF16 : Flo := ⟨5, 10, 15, 0x7BFF, true, false⟩
/-- F8A (E4M3). -/
def floF8A : Flo := ⟨4, 3, 7, 0x7E, false, true⟩
/-- F8B (E5M2). -/
def floF8B : Flo := ⟨5, 2, 15, 0x7B, true, false⟩
/-- F6A (E2M3). -/
def floF6A : Flo := ⟨2, 3, 1, 0x1F, false, false⟩
/-- F6B (E3M2). -/
def floF6B : Flo := ⟨3, 2, 3, 0x1F, false, false⟩
/-- F4 (E2M1). -/
def floF4 : Flo := ⟨2, 1, 1, 0x7, false, false⟩

/-- The element format of an FMT code (R30), none for the integer codes. -/
def floOf : Nat → Option Flo
  | 0x0 => some floF32
  | 0x1 => some floBF16
  | 0x2 => some floF16
  | 0x3 => some floF8A
  | 0x4 => some floF8B
  | 0x5 => some floF8A
  | 0x6 => some floF8B
  | 0x7 => some floF6A
  | 0x8 => some floF6B
  | 0x9 => some floF4
  | _ => none

/-- Is the FMT code one of the /B32 formats? -/
def isB32 (fmt : Nat) : Bool := 0x5 ≤ fmt && fmt ≤ 0x9

/-- Bits per stored element of an FMT code (R30). -/
def fmtBits : Nat → Nat
  | 0x0 => 32
  | 0x1 => 16
  | 0x2 => 16
  | 0x7 => 6
  | 0x8 => 6
  | 0x9 => 4
  | 0xB => 32
  | 0xC => 16
  | _ => 8

/-- Bits of an element of a format. -/
def Flo.width (f : Flo) : Nat := 1 + f.eb + f.mb

/-- The value of an element pattern (R28). -/
def floDecode (f : Flo) (p : Nat) : Val :=
  let neg := p.testBit (f.eb + f.mb)
  let e := bits p f.mb f.eb
  let m := bits p 0 f.mb
  let ones := 2 ^ f.eb - 1
  if f.ieee && e == ones then (if m = 0 then .inf neg else .nan)
  else if f.nanOnes && e == ones && m == 2 ^ f.mb - 1 then .nan
  else if e = 0 then .fin neg m (1 - (f.bias : Int) - f.mb)
  else .fin neg (2 ^ f.mb + m) ((e : Int) - f.bias - f.mb)

/-- Two's-complement value of a `w`-bit pattern. -/
def intDecode (w p : Nat) : Int := if p.testBit (w - 1) then (p : Int) - 2 ^ w else p

/-- An integer as an exact value. -/
def valOfInt (n : Int) : Val := .fin (n < 0) n.natAbs 0

/-- An exact value times 2^x. -/
def vscale (v : Val) (x : Int) : Val :=
  match v with
  | .fin neg m e => .fin neg m (e + x)
  | v => v

/-- The exact value of an element of FMT code `fmt`; `scale` is the block's scale byte, 127 for
formats without one (R32, R36). -/
def elDecode (fmt p scale : Nat) : Val :=
  if fmt = 0xA then valOfInt (intDecode 8 p)
  else if fmt = 0xB then valOfInt (intDecode 32 p)
  else match floOf fmt with
    | none => .nan
    | some f =>
      if isB32 fmt then
        (if scale = 0xFF then .nan else vscale (floDecode f p) ((scale : Int) - 127))
      else floDecode f p

/-! ### The one rounding of a conversion -/

/-- Rounding mode of a conversion (R39); a stochastic one carries its random word r (R44). -/
inductive Rmode where
  | nearest
  | zero
  | stoch (r : Nat)
  deriving DecidableEq, Repr

/-- Census class of a written element (R42). -/
inductive Cls where
  | plain | overflowed | vanished | subnormal | nan
  deriving DecidableEq, Repr

/-- `m × 2^e` as a multiple of 2^q: the multiple, the remainder and its denominator. -/
def quant (m : Nat) (e q : Int) : Nat × Nat × Nat :=
  if q ≤ e then (m * 2 ^ (e - q).toNat, 0, 1)
  else
    let d := 2 ^ (q - e).toNat
    (m / d, m % d, d)

/-- Does the mode round away from the lower neighbour, whose multiple is `n`? (R39, R45) -/
def roundsUp (rm : Rmode) (n r d : Nat) : Bool :=
  match rm with
  | .nearest => 2 * r > d || (2 * r == d && n % 2 == 1)
  | .zero => false
  | .stoch rnd => r * 2 ^ 24 / d + rnd ≥ 2 ^ 24

/-- Compare m × 2^e with n × 2^q: is the first at least (or, when strict, above) the second? -/
def magGe (m : Nat) (e : Int) (n : Nat) (q : Int) (strict : Bool) : Bool :=
  let lo := min e q
  let a := m * 2 ^ (e - lo).toNat
  let b := n * 2 ^ (q - lo).toNat
  if strict then a > b else a ≥ b

/-- Does the exact magnitude fall in an overflow row of R41, `n × 2^q` being the largest finite
value and 2^q its unit? -/
def overflows (rm : Rmode) (m : Nat) (e : Int) (n : Nat) (q : Int) : Bool :=
  match rm with
  | .nearest => magGe m e (2 * n + 1) (q - 1) false
  | .zero => magGe m e (n + 1) q false
  | .stoch _ => magGe m e n q true

/-- Conversion into a floating-point element format (R40 to R43): the pattern and its class. A NaN
gives the canonical NaN of the format, or an all-zero element where the format has none. -/
def floConv (f : Flo) (rm : Rmode) (v : Val) : Nat × Cls :=
  let sgn (neg : Bool) (p : Nat) : Nat := if neg then p + 2 ^ (f.eb + f.mb) else p
  let infPat := (2 ^ f.eb - 1) * 2 ^ f.mb
  match v with
  | .nan =>
    (if f.ieee then infPat + 2 ^ (f.mb - 1) else if f.nanOnes then 2 ^ (f.eb + f.mb) - 1 else 0,
      .nan)
  | .inf neg => (sgn neg (if f.ieee then infPat else f.maxPat), .overflowed)
  | .fin neg m e =>
    if m = 0 then (sgn neg 0, .plain)
    else
      let qmin : Int := 1 - (f.bias : Int) - f.mb
      let mx := floDecode f f.maxPat
      let big := match mx with
        | .fin _ mm me => overflows rm m e mm me
        | _ => false
      if big then
        (sgn neg (if f.ieee && rm != .zero then infPat else f.maxPat), .overflowed)
      else
        let q := max ((Nat.log2 m : Int) + e - f.mb) qmin
        let (n, r, d) := quant m e q
        let n' := if roundsUp rm n r d then n + 1 else n
        let p := min (n' + (q - qmin).toNat * 2 ^ f.mb) f.maxPat
        (sgn neg p, if p = 0 then .vanished else if p < 2 ^ f.mb then .subnormal else .plain)

/-- Rounding an exact value to an integer (R39): sign and magnitude. -/
def roundInt (rm : Rmode) (m : Nat) (e : Int) : Nat :=
  let (n, r, d) := quant m e 0
  if roundsUp rm n r d then n + 1 else n

/-- Conversion into a `w`-bit integer (R41). -/
def intConv (w : Nat) (rm : Rmode) (v : Val) : Nat × Cls :=
  let lim (neg : Bool) : Nat := if neg then 2 ^ (w - 1) else 2 ^ (w - 1) - 1
  let enc (neg : Bool) (n : Nat) : Nat := if neg && n != 0 then 2 ^ w - n else n
  match v with
  | .nan => (0, .nan)
  | .inf neg => (enc neg (lim neg), .overflowed)
  | .fin neg m e =>
    if m = 0 then (0, .plain)
    else if overflows rm m e (lim neg) 0 then (enc neg (lim neg), .overflowed)
    else
      let n := min (roundInt rm m e) (lim neg)
      (enc neg n, if n = 0 then .vanished else .plain)

/-- Conversion of one element into an FMT code without block scale. -/
def elConv (fmt : Nat) (rm : Rmode) (v : Val) : Nat × Cls :=
  if fmt = 0xA then intConv 8 rm v
  else if fmt = 0xB then intConv 32 rm v
  else match floOf fmt with
    | some f => floConv f rm v
    | none => (0, .plain)

/-- The larger of two finite magnitudes. -/
def magMax (a b : Nat × Int) : Nat × Int := if magGe b.1 b.2 a.1 a.2 true then b else a

/-- The largest magnitude among the finite values, zero where there is none. -/
def maxFinite (vs : List Val) : Nat × Int :=
  vs.foldl (fun acc v => match v with | .fin _ m e => magMax acc (m, e) | _ => acc) (0, 0)

/-- The smallest `x` from `lo` on, within `fuel`, with a × 2^(−x) ≤ mx. -/
def smallestX (a : Nat) (e : Int) (mx : Nat) (me : Int) (lo : Int) (fuel : Nat) : Int :=
  match (List.range fuel).find? (fun k => magGe mx (me + lo + Int.ofNat k) a e false) with
  | some k => lo + Int.ofNat k
  | none => lo + Int.ofNat fuel

/-- The scale exponent X of a block (R34), clamped to −127 to 127. -/
def blockX (f : Flo) (vs : List Val) : Int :=
  let (a, e) := maxFinite vs
  if a = 0 then 0
  else match floDecode f f.maxPat with
    | .fin _ mm me => smallestX a e mm me (-127) 254
    | _ => 0

/-- Conversion of a block into a /B32 format (R34, R35, R41): scale byte, elements and classes.
`rm` gives the rounding mode of each position. -/
def blockConv (fmt : Nat) (rm : Nat → Rmode) (vs : List Val) : Nat × List (Nat × Cls) :=
  match floOf fmt with
  | none => (127, [])
  | some f =>
    if vs.any (· == .nan) then (0xFF, vs.map (fun _ => (0, .nan)))
    else
      let x := blockX f vs
      ((x + 127).toNat, vs.zipIdx.map (fun (v, i) => floConv f (rm i) (vscale v (-x))))

/-! ### W16B (R37, R38) -/

/-- The value of a significand under a block exponent. -/
def w16Decode (e q : Nat) : Val :=
  if e = 0xFF then
    (if q = 0x7FFF then .inf false else if q = 0x8001 then .inf true else .nan)
  else vscale (valOfInt (intDecode 16 q)) ((e : Int) - 141)

/-- A signed 16-bit significand. -/
def enc16 (neg : Bool) (n : Nat) : Nat := if neg && n != 0 then 2 ^ 16 - n else n

/-- Conversion of a block into W16B: exponent byte and significands. -/
def w16Conv (rm : Rmode) (vs : List Val) : Nat × List Nat :=
  let special (v : Val) : Nat :=
    match v with
    | .nan => 0x8000
    | .inf neg => if neg then 0x8001 else 0x7FFF
    | .fin _ _ _ => 0
  if vs.any (fun v => match v with | .fin _ _ _ => false | _ => true) then
    (0xFF, vs.map special)
  else
    let (a, e) := maxFinite vs
    if a = 0 then (127, vs.map (fun _ => 0))
    else
      let x := smallestX a e 32767 0 (-141) 255
      if x > 113 then
        (0xFF, vs.map (fun v => match v with
          | .fin neg m k => if magGe m k 32767 113 true then special (.inf neg) else 0
          | v => special v))
      else
        ((x + 141).toNat, vs.map (fun v => match v with
          | .fin neg m k => enc16 neg (min (roundInt rm m (k - x)) 32767)
          | v => special v))

/-! ### Stochastic rounding (R44) -/

/-- The mixing function. -/
def srMix (x : Nat) : Nat :=
  let x := x ^^^ (x >>> 32)
  let x := x * 0x6A5D39E1B7C42F95 % 2 ^ 64
  let x := x ^^^ (x >>> 29)
  let x := x * 0x8F3AC52D17B964E1 % 2 ^ 64
  x ^^^ (x >>> 32)

/-- The random word of an element. -/
def srRandom (seed tensor index : Nat) : Nat :=
  let x := seed ^^^ (tensor * 0x8F3AC52D17B964E1 % 2 ^ 64) ^^^ (index * 0xC4B29D7E5A13F08B % 2 ^ 64)
  let x := srMix x
  srMix (x ^^^ 0xC4B29D7E5A13F08B) >>> 40

/-- The rounding of element `index` of tensor `tensor` under RMODE code `c` (R39). -/
def rmodeOf (c seed tensor index : Nat) : Rmode :=
  if c = 0 then .nearest else if c = 1 then .zero else .stoch (srRandom seed tensor index)

/-! ### Exact arithmetic -/

/-- Signed mantissa of a finite value. -/
def sgnd (neg : Bool) (m : Nat) : Int := if neg then -(m : Int) else m

/-- Exact sum of two dyadics. -/
def dadd (a : Int × Int) (b : Int × Int) : Int × Int :=
  if a.2 ≤ b.2 then (a.1 + b.1 * 2 ^ (b.2 - a.2).toNat, a.2)
  else (a.1 * 2 ^ (a.2 - b.2).toNat + b.1, b.2)

/-- Negation. -/
def vneg : Val → Val
  | .nan => .nan
  | .inf n => .inf !n
  | .fin n m e => .fin (!n) m e

/-- Exact product. -/
def vmul (a b : Val) : Val :=
  match a, b with
  | .nan, _ => .nan
  | _, .nan => .nan
  | .inf p, .inf q => .inf (p != q)
  | .inf p, .fin q m _ => if m = 0 then .nan else .inf (p != q)
  | .fin q m _, .inf p => if m = 0 then .nan else .inf (p != q)
  | .fin p m e, .fin q n f => .fin (p != q) (m * n) (e + f)

/-- Exact sum of addends with the special-value rules of R52 and the zero rule of R53. -/
def vsum (vs : List Val) : Val :=
  if vs.any (· == .nan) then .nan
  else if vs.any (· == .inf false) && vs.any (· == .inf true) then .nan
  else if vs.any (· == .inf false) then .inf false
  else if vs.any (· == .inf true) then .inf true
  else
    let d := vs.foldl (fun acc v => match v with
      | .fin n m e => dadd acc (sgnd n m, e)
      | _ => acc) (0, 0)
    if d.1 = 0 then
      .fin (!vs.isEmpty && vs.all (fun v => match v with | .fin n m _ => n && m == 0 | _ => false))
        0 0
    else .fin (d.1 < 0) d.1.natAbs d.2

/-- Rounding into F32 to nearest, ties to even: the internal roundings of R39. -/
def toF32 (v : Val) : Nat := (floConv floF32 .nearest v).1

/-- The value of an F32 pattern. -/
def f32v (p : Nat) : Val := floDecode floF32 p

/-- The canonical F32 NaN. -/
def f32nan : Nat := 0x7FC00000

/-- 1.0. -/
def f32one : Nat := 0x3F800000

/-- F32 of a natural number. -/
def f32ofNat (n : Nat) : Nat := toF32 (.fin false n 0)

/-- F32 addition. -/
def fadd (a b : Nat) : Nat := toF32 (vsum [f32v a, f32v b])
/-- F32 subtraction. -/
def fsub (a b : Nat) : Nat := toF32 (vsum [f32v a, vneg (f32v b)])
/-- F32 multiplication. -/
def fmul (a b : Nat) : Nat := toF32 (vmul (f32v a) (f32v b))
/-- a × b + c, rounded once. -/
def ffma (a b c : Nat) : Nat := toF32 (vsum [vmul (f32v a) (f32v b), f32v c])

/-- An exact quotient, with a sticky bit below 66 bits more than the operands hold. -/
def vdiv (a b : Val) : Val :=
  match a, b with
  | .nan, _ => .nan
  | _, .nan => .nan
  | .inf _, .inf _ => .nan
  | .inf p, .fin q _ _ => .inf (p != q)
  | .fin p _ _, .inf q => .fin (p != q) 0 0
  | .fin p m e, .fin q n f =>
    if n = 0 then (if m = 0 then .nan else .inf (p != q))
    else
      let num := m * 2 ^ 80
      .fin (p != q) (2 * (num / n) + b2n (num % n != 0)) (e - f - 81)

/-- F32 division, correctly rounded. -/
def fdiv (a b : Nat) : Nat := toF32 (vdiv (f32v a) (f32v b))

/-- Integer square root by bits from 2^(k − 1) down. -/
def isqrt (n : Nat) : Nat → Nat → Nat
  | 0, r => r
  | k + 1, r => isqrt n k (if (r + 2 ^ k) * (r + 2 ^ k) ≤ n then r + 2 ^ k else r)

/-- Square root, with a sticky bit. -/
def vsqrt (v : Val) : Val :=
  match v with
  | .nan => .nan
  | .inf neg => if neg then .nan else .inf false
  | .fin neg m e =>
    if m = 0 then .fin neg 0 0
    else if neg then .nan
    else
      let odd := (e % 2 == 1)
      let m' := (if odd then 2 * m else m) * 2 ^ 60
      let e' := (if odd then e - 1 else e) - 60
      let r := isqrt m' 64 0
      .fin false (2 * r + b2n (r * r != m')) (e' / 2 - 1)

/-- A float order for MAX, MIN and ARGMAX: is `a` greater than `b`, +0 above −0? Neither is NaN. -/
def vgt (a b : Val) : Bool :=
  match a, b with
  | .inf p, .inf q => !p && q
  | .inf p, _ => !p
  | _, .inf q => q
  | .fin p m e, .fin q n f =>
    if m = 0 && n = 0 then !p && q
    else
      let d := dadd (sgnd p m, e) (-(sgnd q n), f)
      d.1 > 0
  | _, _ => false

/-- Larger of two F32 patterns (R74). -/
def fmax (a b : Nat) : Nat :=
  if f32v a = .nan ∨ f32v b = .nan then f32nan else if vgt (f32v b) (f32v a) then b else a
/-- Smaller of two F32 patterns (R74). -/
def fmin (a b : Nat) : Nat :=
  if f32v a = .nan ∨ f32v b = .nan then f32nan else if vgt (f32v a) (f32v b) then b else a

/-- The ALU operations of R74 on F32 patterns. -/
def aluOp (op a b c : Nat) : Nat :=
  let va := f32v a
  let vb := f32v b
  let vc := f32v c
  match op with
  | 0x0 => toF32 va
  | 0x1 => fadd a b
  | 0x2 => fsub a b
  | 0x3 => fmul a b
  | 0x4 => ffma a b c
  | 0x5 => toF32 (vsum [vmul va vb, vneg vc])
  | 0x6 => toF32 (vsum [vc, vneg (vmul va vb)])
  | 0x7 => toF32 (vmul (vsum [va, vneg vb]) vc)
  | 0x8 => fmax a b
  | 0x9 => fmin a b
  | 0xA => toF32 (match va with | .fin _ m e => .fin false m e | .inf _ => .inf false | .nan => .nan)
  | 0xB => toF32 (vneg va)
  | 0xC => match va with
    | .fin false m _ => if m = 0 then toF32 vc else toF32 vb
    | .inf false => toF32 vb
    | _ => toF32 vc
  | _ => fdiv a b

/-- One level of the canonical tree of R55: pairs, a lone last node passing up. -/
def treeLevel {α : Type} (add : α → α → α) : List α → List α
  | a :: b :: xs => add a b :: treeLevel add xs
  | xs => xs

/-- The canonical tree over at most 2^fuel values. -/
def treeFuel {α : Type} (add : α → α → α) : Nat → List α → List α
  | 0, xs => xs
  | k + 1, xs => treeFuel add k (treeLevel add xs)

/-- The root of the canonical tree. -/
def canonicalTree {α : Type} (add : α → α → α) (empty : α) (xs : List α) : α :=
  (treeFuel add 40 xs).headD empty

end Sys2Proof.Machine
end

