-- ==== Sys2Proof/Machine/GeyserCore.lean ====
section
/-!
DEFINITION. In-network reduction: chunks and their combine (R258, R268), reservations, quotas and
credits (R260 to R263), slots (R259), delivery of the root's result (R264, R281, R282), and the tiny
collectives of the fumarole path (R284).
-/

namespace Sys2Proof.Machine

/-! ### Chunks -/

/-- Values of block `b` of a chunk: 32 significands under one exponent byte (R37). -/
def chunkBlock (exps data : List Byte) (b : Nat) : List Val :=
  let e := (exps.getD b 0).toNat
  (List.range 32).map (fun k => w16Decode e (leNat ((data.drop (64 * b + 2 * k)).take 2)))

/-- The canonical node on two chunks of `len` blocks, `a` the left child: exponents and significands
(R258). -/
def geyserNode (len : Nat) (a b : List Byte × List Byte) : List Byte × List Byte :=
  let blks := (List.range len).map (fun k =>
    w16Conv .nearest ((chunkBlock a.1 a.2 k).zip (chunkBlock b.1 b.2 k) |>.map (fun (x, y) => vsum [x, y])))
  (blks.map (fun x => BitVec.ofNat 8 x.1), blks.flatMap (fun x => x.2.flatMap (leBytes 2)))

/-- Blocks of a result that are special (SPECIAL_COUNT). -/
def specialBlocks (exps : List Byte) : Nat := exps.countP (fun e => e == 0xFF)

/-- A chunk in memory (R152): exponents, reserved bytes, significands. -/
def chunkToBytes (exps data : List Byte) : List Byte := exps ++ List.replicate 32 0 ++ data

/-! ### Quotas and reservations -/

/-- The quota of a job and group in Geyser `h`. -/
def quotaOf (s : State) (h job group : Nat) : Nat := mget 0 (geyser s h).quota (job * 1024 + group)

/-- Slots that a job and group hold reserved in Geyser `h`. -/
def heldBy (s : State) (h job group : Nat) : Nat :=
  (((geyser s h).resv.filter (fun r => r.job = job && r.group = group)).map Resv.win).sum

/-- KIND of a report. -/
def geyKind (src : Nat) : Nat := if src = srcGeyMemUe then 5 else src

/-- A report of a Geyser (R267): the registers take it only while VALID is clear, and the source is
raised. A corrected read has no KIND. -/
def geyError (s : State) (h src job group bucket node : Nat) : State :=
  let g := geySlot h
  let s := if rgB s g geyErrInfoValid ∨ src = srcGeyMemCe then s
    else
      let s := wg (wg s g geyErrInfoValid 1) g geyErrInfoKind (geyKind src)
      let s := wg (wg s g geyErrInfoGroup group) g geyErrInfoJob job
      wg (wg s g geyErrKeyBucket bucket) g geyErrKeyNode node
  raise s { slot := g, src := src, job := job
            detail := group + bucket * 2 ^ 16 + node * 2 ^ 32 }

/-- The node that this package hosts in tree `t` of a queue, with its NODE field. -/
def myNode (s : State) (c : Cq) (t : Nat) : Option ((Nat × Nat) × Nat) :=
  match rankAt s c t (myPos s) with
  | none => none
  | some r =>
    if r < c.members then (hostedNode c.fan r).map (fun n => (n, 0x8000 + r)) else none

/-- The buckets of an operation that tree `t` carries. -/
def treeBuckets (c : Cq) (w t : Nat) : List Nat := (bucketList w).filter (fun b => b % c.trees = t)

/-- The trees whose nodes Geyser `h` combines on this package, with their nodes (R256). -/
def treesOf (s : State) (c : Cq) (h : Nat) : List (Nat × (Nat × Nat) × Nat) :=
  (List.range c.trees).filterMap (fun t =>
    if t % 2 = h then (myNode s c t).map (fun (n, f) => (t, n, f)) else none)

/-- Slots that an operation needs in Geyser `h` (R261). -/
def slotsNeeded (s : State) (c : Cq) (w h : Nat) : Nat :=
  ((treesOf s c h).map (fun (t, _, _) => (treeBuckets c w t).length * qdWin w)).sum

/-- The children of node `n` as NODE fields, ascending. -/
def childFields (c : Cq) (n : Nat × Nat) : List Nat :=
  (childNodes n.1 n.2 c.members c.fan).map (nodeField c.fan)

/-- A RESV packet to the sender of a child: with `len` 1 the grant of WIN credits for buckets `b0` to
`b1`, with `len` 0 one credit for bucket and chunk (R261, R263). -/
def sendResv (s : State) (c : Cq) (t node len win b0 b1 : Nat) : State :=
  match nodeOf c.fan node with
  | none => s
  | some n =>
    let p := queuePkt s c 2 (senderPos s c t n)
    if len = 1 then
      sendPkt s { p with node := node, len := 1,
                         payload := leBytes 2 win ++ leBytes 2 b0 ++ leBytes 2 b1 ++ leBytes 58 0 }
    else sendPkt s { p with node := node, bucket := b0, chunk := b1 }

/-- Are two reservations of one bucket of one node? -/
def sameNode (r x : Resv) : Bool :=
  x.job = r.job && x.group = r.group && x.bucket = r.bucket && x.host = r.host

/-- Geyser `h` reserves for an operation and grants its children's senders their credits (R261). The
buckets of a grant are those of the tree between its first and its last. -/
def reserve (s : State) (q h : Nat) (o : Op) : State :=
  let c := cqOf s q
  let w := o.desc
  forEach (treesOf s c h) s (fun s (t, n, f) =>
    let bs := treeBuckets c w t
    let kids := childFields c n
    let new : List Resv := bs.map (fun b =>
      { job := c.job, group := c.group, bucket := b, host := f, q := q, op := o.id, desc := w, num := o.num
        win := qdWin w, credit := kids.map (fun k => (k, qdWin w)), sent := 0, chunks := qdChunks w
        tree := t, fan := c.fan, members := c.members, order := c.order, seen := [] })
    let s := updGeyser s h (fun g => { g with
      resv := g.resv ++ new, past := g.past.filter (fun y => !new.any (sameNode y)) })
    if bs.isEmpty then s
    else forEach kids s (fun s k => sendResv s c t k 1 (qdWin w) (bs.headD 0) (bs.getLastD 0)))

/-- Operations whose reservation waits at Geyser `h` reserve in posting order of their group as far as
its quota goes (R262). -/
def reserveWaiting (s : State) (h : Nat) : State :=
  let step (acc : State × List (Nat × Nat)) (x : Nat × Op) : State × List (Nat × Nat) :=
    let (s, blocked) := acc
    let c := cqOf s x.1
    if blocked.contains (c.job, c.group) ∨
        heldBy s h c.job c.group + slotsNeeded s c x.2.desc h > quotaOf s h c.job c.group then
      (s, (c.job, c.group) :: blocked)
    else
      (reserve (updGeyser s h (fun g => { g with waiting := g.waiting.erase x })) x.1 h x.2, blocked)
  ((geyser s h).waiting.foldl step (s, [])).1

/-- A reduction starts at Geyser `h`: it reserves, waits for its group's quota, or exceeds it (R262). -/
def startReserve (s : State) (q : Nat) (o : Op) (h : Nat) : State :=
  let c := cqOf s q
  let need := slotsNeeded s c o.desc h
  if need = 0 then s
  else if need > quotaOf s h c.job c.group then
    geyError s h srcGeyNoQuota c.job c.group (qdFirst o.desc) (((treesOf s c h).head?.map (·.2.2)).getD 0)
  else reserveWaiting (updGeyser s h (fun g => { g with waiting := g.waiting ++ [(q, o)] })) h

/-! ### Credits of a sender -/

/-- Is the grant one of a bucket of a node? -/
def isCredit (job group bucket node : Nat) (c : Credit) : Bool :=
  c.job = job && c.group = group && c.bucket = bucket && c.node = node

/-- Credits held for a bucket of a node: those of the first grant that is not over. -/
def creditOf (s : State) (job group bucket node : Nat) : Nat :=
  match s.credits.find? (fun c => isCredit job group bucket node c && !c.ended) with
  | some c => c.n
  | none => 0

/-- A new grant. -/
def addCredit (s : State) (job group bucket node n : Nat) : State :=
  { s with credits := s.credits ++ [{ job := job, group := group, bucket := bucket, node := node, n := n }] }

/-- Grants that are over and have all their returns are gone. -/
def dropSpent (cs : List Credit) : List Credit := cs.filter (fun c => !(c.ended && c.left = 0))

/-- A chunk of a bucket of `chunks` chunks is sent: it spends a credit of the first grant that is not over, and
the last one ends that grant (R261). -/
def spendCredit (s : State) (job group bucket node chunks : Nat) (last : Bool) : State :=
  let f (c : Credit) : Credit :=
    if last then { c with n := 0, ended := true, left := chunks - c.back } else { c with n := c.n - 1 }
  let cs := updFirst (fun c => isCredit job group bucket node c && !c.ended) f s.credits
  { s with credits := dropSpent cs }

/-- A credit comes back: for the first grant with returns still to come. One of a grant that is over is of no
use. -/
def backCredit (s : State) (job group bucket node : Nat) : State :=
  let f (c : Credit) : Credit :=
    if c.ended then { c with left := c.left - 1 } else { c with n := c.n + 1, back := c.back + 1 }
  let cs := updFirst (isCredit job group bucket node) f s.credits
  { s with credits := dropSpent cs }

/-! ### Delivery (R264, R281, R282) -/

/-- Where the chunk of a bucket is written at this rank (R281): none where another rank owns it. -/
def resultPlace (s : State) (c : Cq) (w b chunk : Nat) : Option Nat :=
  match (myBuckets s c w c.rank).idxOf? b with
  | some k => some (qdDst w + (k * qdChunks w + chunk) * chunkBytes)
  | none => none

/-- The RESULT packet of a chunk to rank `r` of tree `t`. -/
def resultPkt (s : State) (c : Cq) (t r tag b chunk : Nat) (exps data : List Byte) : Packet :=
  { queuePkt s c 3 (posAt s c t r) with
    node := 0x3000, tag := tag, bucket := b, chunk := chunk, len := 32, exps := exps, payload := data }

/-- Rank in tree `t` of its root's host. -/
def rootHost (c : Cq) : Nat :=
  let n := rootNode c.members c.fan
  if n.1 = 0 then n.2 else hostRank n.1 n.2 c.fan

/-- The reduction of a queue that covers a bucket: the first started and unfinished one. -/
def opForBucket (c : Cq) (b : Nat) : Option Op :=
  c.ops.find? (fun o => o.started && !o.ready && isReduction (qdOp o.desc) &&
    qdFirst o.desc ≤ b && b ≤ qdLast o.desc)

/-- Is an operation of a queue still to take results? -/
def takesResults (s : State) (q id : Nat) : Bool := (opOf s q id).any (fun o => !o.ready)

/-- A result chunk is written here if this rank is to have it, and an all-reduce's is forwarded down the
delivery tree (R282). -/
def takeResult (s : State) (q : Nat) (o : Op) (b chunk : Nat) (exps data : List Byte) : State :=
  let c := cqOf s q
  let w := o.desc
  let t := b % c.trees
  if !ownersOk s c w then finishOp s q o.id stMalformed else
  let s := match (if takesResults s q o.id then resultPlace s c w b chunk else none) with
    | some a =>
      let s := storeBoth s (engineSource q) a (chunkToBytes exps data)
      updOp s q o.id (fun o => { o with rx := mset 0 o.rx 0 (mget 0 o.rx 0 + 1) })
    | none => s
  let s := if qdOp w = 5 then
      match rankAt s c t (myPos s) with
      | some r => forEach (treeChildren c.members r (rootHost c)) s (fun s k =>
          sendPkt s (resultPkt s c t k o.num b chunk exps data))
      | none => s
    else s
  checkFinished s q o.id

/-- The operation of a reservation, as it was posted; it may have completed on this package already. -/
def resvOp (r : Resv) : Op := { id := r.op, desc := r.desc, poster := .host 0 0, num := r.num }

/-- The root's result reaches the engine that serves the group's queue, which delivers it to every member or to
the owner of its bucket (R264, R281). -/
def deliverRoot (s : State) (r : Resv) (chunk : Nat) (exps data : List Byte) : State :=
  let c := cqOf s r.q
  let o := resvOp r
  engineDoes s r.q 0 (fun s =>
    match ownerOf s c r.desc r.bucket with
    | none => takeResult s r.q o r.bucket chunk exps data
    | some k =>
      if c.members ≤ k then finishOp s r.q r.op stMalformed
      else if k = c.rank then takeResult s r.q o r.bucket chunk exps data
      else sendPkt s (resultPkt s c 0 k r.num r.bucket chunk exps data))

/-! ### Slots -/

/-- Does a slot hold the chunk of a reservation? -/
def isSlotOf (r : Resv) (chunk : Nat) (x : Slot) : Bool :=
  x.job = r.job && x.group = r.group && x.bucket = r.bucket && x.chunk = chunk && x.host = r.host && x.op = r.op

/-- The slot of a chunk of a reservation. -/
def slotOf (s : State) (h : Nat) (r : Resv) (chunk : Nat) : Option Slot :=
  (geyser s h).slots.find? (isSlotOf r chunk)

/-- Writing a slot. -/
def putSlot (s : State) (h : Nat) (r : Resv) (x : Slot) : State :=
  updGeyser s h (fun g => { g with slots := g.slots.filter (fun y => !isSlotOf r x.chunk y) ++ [x] })

/-- The reservations of a hosted node for a bucket, in posting order. -/
def resvsOf (s : State) (h job group b host : Nat) : List Resv :=
  (geyser s h).resv.filter (fun r => r.job = job && r.group = group && r.bucket = b && r.host = host)

/-- The reservation to which a child's next chunk belongs: the first of which it has not sent every chunk, else
the last one (R262, R263). -/
def resvFor (s : State) (h job group b host child : Nat) : Option Resv :=
  let rs := resvsOf s h job group b host
  match rs.find? (fun r => (r.seen.filter (fun x => x.2 = child)).length < r.chunks) with
  | some r => some r
  | none => rs.getLast?

/-- The reservation of a slot. -/
def resvOfSlot (s : State) (h : Nat) (x : Slot) : Option Resv :=
  (resvsOf s h x.job x.group x.bucket x.host).find? (fun r => r.op = x.op)

/-- Is it the same reservation? -/
def sameResv (r x : Resv) : Bool := sameNode r x && x.op = r.op

/-- Changing it. -/
def updResv (s : State) (h : Nat) (r : Resv) (f : Resv → Resv) : State :=
  updGeyser s h (fun g => { g with resv := updFirst (sameResv r) f g.resv })

/-- A slot is freed, its chunk having been sent up or delivered: one credit goes back to each child, and after
the bucket's last chunk its slots are released (R262, R263). -/
def freeSlot (s : State) (h : Nat) (r : Resv) (chunk : Nat) : State :=
  let s := retire s (geySlot h)
  let s := updGeyser s h (fun g => { g with slots := g.slots.filter (fun y => !isSlotOf r chunk y) })
  let c := cqOf s r.q
  let s := updResv s h r (fun r => { r with
    sent := r.sent + 1
    credit := r.credit.map (fun (k, n) => (k, n + 1)) })
  let s := forEach r.credit s (fun s (k, _) => sendResv s c r.tree k 0 0 r.bucket chunk)
  if r.sent + 1 = r.chunks then
    let s := updGeyser s h (fun g => { g with
      resv := g.resv.filter (fun y => !sameResv r y)
      past := g.past.filter (fun y => !sameNode r y) ++ [r] })
    reserveWaiting s h
  else s

/-- A RED packet with a chunk's value of node `node` toward the node that combines it. -/
def sendRed (s : State) (c : Cq) (t node b chunk len : Nat) (exps data : List Byte) : State :=
  match nodeOf c.fan node with
  | none => s
  | some n =>
    match parentOf n c.members c.fan with
    | none => s
    | some p =>
      sendPkt s { queuePkt s c 1 (posAt s c t (hostRank p.1 p.2 c.fan)) with
        node := node, bucket := b, chunk := chunk, len := len, exps := exps, payload := data }

/-- Has a node a result to send up next: of the first reservation of its bucket, the chunk after those it has
sent, with a credit for it (R263)? -/
def maySendUp (s : State) (h : Nat) (r : Resv) (x : Slot) : Bool :=
  x.chunk = r.sent && !x.lost && 0 < creditOf s r.job r.group r.bucket r.host &&
  (resvsOf s h r.job r.group r.bucket r.host).head?.any (sameResv r)

/-- A result goes up to the node's parent, and its slot is freed. -/
def sendUp (s : State) (h : Nat) (r : Resv) (x : Slot) : State :=
  let s := spendCredit s r.job r.group r.bucket r.host r.chunks (decide (r.sent + 1 = r.chunks))
  freeSlot (sendRed s (cqOf s r.q) r.tree r.host r.bucket x.chunk x.len x.exps x.data) h r x.chunk

/-- A slot's memory is read: a corrected read is raised and goes on; an uncorrectable one is raised, and its
chunk is not sent (R267). `mem` is what this read and those after it find. -/
def readSlot (s : State) (h : Nat) (r : Resv) (mem : List SlotRead) : State × Bool :=
  match mem.headD .clean with
  | .clean => (s, true)
  | .corrected => (geyError s h srcGeyMemCe r.job r.group r.bucket r.host, true)
  | .uncorrectable => (geyError s h srcGeyMemUe r.job r.group r.bucket r.host, false)

/-- The results of a bucket that wait in a node's slots go up as far as turn and credits let them; `mem` is
what the reads of them find, and `n` bounds them. -/
def sendWaiting : Nat → State → Nat → Nat → Nat → Nat → Nat → List SlotRead → State
  | 0, s, _, _, _, _, _, _ => s
  | n + 1, s, h, job, group, b, host, mem =>
    match (resvsOf s h job group b host).head? with
    | none => s
    | some r =>
      match slotOf s h r r.sent with
      | none => s
      | some x =>
        if !x.done ∨ !maySendUp s h r x then s
        else match readSlot s h r mem with
          | (s, true) => sendWaiting n (sendUp s h r x) h job group b host (mem.drop 1)
          | (s, false) => putSlot s h r { x with done := false, lost := true }

/-- A combined chunk leaves its slot: to delivery at the root, else up when its turn and a credit are there,
and the results that waited behind it (R263, R264). -/
def releaseResult (s : State) (h : Nat) (r : Resv) (x : Slot) (mem : List SlotRead) : State :=
  match nodeOf r.fan r.host with
  | none => s
  | some n =>
    if n = rootNode r.members r.fan then deliverRoot (freeSlot s h r x.chunk) r x.chunk x.exps x.data
    else if !maySendUp s h r x then putSlot s h r { x with done := true }
    else sendWaiting (geyser s h).slots.length (sendUp s h r x) h r.job r.group r.bucket r.host mem

/-- A chunk of child `child` is combined with what its slot holds, the lower-rank child left (R258, R259) or, in
free order, at once (R268). -/
def combineInto (r : Resv) (x : Slot) (child len : Nat) (exps data : List Byte) : Slot :=
  let order := r.credit.map Prod.fst
  let firstLeft := r.order = 1 || decide (order.idxOf (x.got.headD 0) ≤ order.idxOf child)
  let (e, dt) := if firstLeft then geyserNode len (x.exps, x.data) (exps, data)
    else geyserNode len (exps, data) (x.exps, x.data)
  { x with exps := e, data := dt, got := x.got ++ [child] }

/-- A chunk of child `child` enters its slot of the node: stored when it is the first, else combined with
what the slot holds. A slot whose memory could not be read takes its other children and sends nothing (R267). -/
def enterSlot (s : State) (h : Nat) (r : Resv) (chunk child len : Nat) (exps data : List Byte)
    (mem : List SlotRead) : State :=
  let take (r : Resv) : Resv := { r with
    credit := r.credit.map (fun (k, n) => if k = child then (k, n - 1) else (k, n))
    seen := r.seen ++ [(chunk, child)] }
  let s := updResv s h r take
  let r := take r
  match slotOf s h r chunk with
  | none => putSlot s h r
      { job := r.job, group := r.group, bucket := r.bucket, chunk := chunk, host := r.host, op := r.op
        len := len, exps := exps, data := data, got := [child], done := false }
  | some x =>
    if x.lost then putSlot s h r { x with got := x.got ++ [child] }
    else match readSlot s h r mem with
    | (s, false) => putSlot s h r { x with got := x.got ++ [child], lost := true }
    | (s, true) =>
      let x := combineInto r x child len exps data
      let s := incr (retire s (geySlot h)) (geySlot h) combineCount
      let s := incr s (geySlot h) specialCount (specialBlocks x.exps)
      if x.got.length = r.credit.length then releaseResult s h r x (mem.drop 1) else putSlot s h r x

/-- Is a chunk of child `child` one that a released reservation of the bucket has combined (R267)? -/
def wasCombined (s : State) (h job group b host child chunk : Nat) : Bool :=
  (geyser s h).past.any (fun r => r.job = job && r.group = group && r.bucket = b && r.host = host &&
    r.credit.any (fun x => x.1 = child) && chunk < r.chunks)

/-- The check of a RED packet at Geyser `h` (R267): the source it raises, or none. -/
def redError (s : State) (h : Nat) (p : Packet) : Option Nat :=
  match queueFor s p.job p.group with
  | none => some srcGeyNotHost
  | some q =>
    let c := cqOf s q
    let t := p.bucket % c.trees
    match myNode s c t, nodeOf c.fan p.node with
    | some (n, f), some k =>
      if parentOf k c.members c.fan ≠ some n then some srcGeyNotHost
      else match resvFor s h p.job p.group p.bucket f p.node with
        | some r =>
          if p.chunk ≥ r.chunks then some srcGeyShape
          else if r.seen.contains (p.chunk, p.node) then some srcGeyDup
          else if (r.credit.find? (fun x => x.1 = p.node)).all (fun x => x.2 = 0) then some srcGeyOverrun
          else match slotOf s h r p.chunk with
            | some x => if x.len ≠ p.len then some srcGeyShape else none
            | none => none
        | none =>
          if wasCombined s h p.job p.group p.bucket f p.node p.chunk then some srcGeyDup
          else if c.ops.any (fun o => o.started && isReduction (qdOp o.desc)) ∧ (opForBucket c p.bucket).isNone
          then some srcGeyShape else some srcGeyOverrun
    | _, _ => some srcGeyNotHost

/-! ### Leaves -/

/-- The reduction whose leaf chunks of a bucket go next: in posting order the first started one that has not
sent them all. -/
def opForLeaf (c : Cq) (b : Nat) : Option Op :=
  c.ops.find? (fun o => o.started && !o.ready && isReduction (qdOp o.desc) &&
    qdFirst o.desc ≤ b && b ≤ qdLast o.desc && decide (mget 0 o.leaf b < qdChunks o.desc))

/-- A queue's engine injects the leaf chunks of a bucket as far as its credits go, in ascending chunk
order (R261, R263). -/
def injectLeaves : Nat → State → Nat → Nat → State
  | 0, s, _, _ => s
  | n + 1, s, q, b =>
    let c := cqOf s q
    match opForLeaf c b with
    | none => s
    | some o =>
      let w := o.desc
      let k := mget 0 o.leaf b
      if creditOf s c.job c.group b c.rank = 0 then s
      else
        let a := qdSrc w + ((b - qdFirst w) * qdChunks w + k) * chunkBytes
        match readSource s q a chunkBytes with
        | (s, true) => finishOp s q o.id stDataError
        | (s, false) =>
          let bs := calRead s a chunkBytes
          let last := decide (k + 1 = qdChunks w)
          let s := spendCredit s c.job c.group b c.rank (qdChunks w) last
          let s := updOp s q o.id (fun o => { o with leaf := mset 0 o.leaf b (k + 1) })
          let s := sendRed s c (b % c.trees) c.rank b k 32 (bs.take 32) (bs.drop 64)
          injectLeaves n (if last then checkFinished s q o.id else s) q b

/-- Leaf chunks of a bucket that started reductions have still to send. -/
def leavesLeft (c : Cq) (b : Nat) : Nat :=
  (c.ops.map (fun o => if o.started && isReduction (qdOp o.desc) then qdChunks o.desc - mget 0 o.leaf b
    else 0)).sum

/-- What a new credit for a bucket of node `node` lets go: leaf chunks of the bucket's operation, or the
results that wait in their slots, in ascending chunk order. -/
def useCredit (s : State) (job group b node : Nat) (mem : List SlotRead) : State :=
  match queueFor s job group with
  | none => s
  | some q =>
    let c := cqOf s q
    if node < 0x8000 then engineDoes s q 0 (fun s => injectLeaves (leavesLeft c b) s q b)
    else
      let h := b % c.trees % 2
      sendWaiting (geyser s h).slots.length s h job group b node mem

/-- A group of one member: the leaf is the root (R255). -/
def deliverAlone (s : State) (q : Nat) (o : Op) : State :=
  let w := o.desc
  forEach (bucketList w) s (fun s b => forEach (List.range (qdChunks w)) s (fun s k =>
    match opOf s q o.id with
    | some o' =>
      if o'.ready then s
      else
        let a := qdSrc w + ((b - qdFirst w) * qdChunks w + k) * chunkBytes
        match readSource s q a chunkBytes with
        | (s, true) => finishOp s q o.id stDataError
        | (s, false) =>
          let bs := calRead s a chunkBytes
          takeResult s q o b k (bs.take 32) (bs.drop 64)
    | none => s))

/-- A reduction starts: both Geysers reserve for it (R261); credits that are there already are used. -/
def startReduction (s : State) (q : Nat) (o : Op) : State :=
  if (cqOf s q).members = 1 then deliverAlone s q o
  else
    let s := startReserve (startReserve s q o 0) q o 1
    forEach (bucketList o.desc) s (fun s b => useCredit s (cqOf s q).job (cqOf s q).group b (cqOf s q).rank [])

/-! ### Tiny collectives and barrier (R284) -/

/-- One pair of elements under TFMT. -/
def tinyPair (tfmt a b : Nat) : Nat :=
  match tfmt with
  | 0 => fadd a b
  | 1 => (intConv 32 .nearest (vsum [valOfInt (intDecode 32 a), valOfInt (intDecode 32 b)])).1
  | 2 => fmax a b
  | _ => if intDecode 32 a ≥ intDecode 32 b then a else b

/-- Combining two payloads element by element, the left child first. -/
def tinyCombine (tfmt n : Nat) (a b : List Byte) : List Byte :=
  (List.range n).flatMap (fun k =>
    leBytes 4 (tinyPair tfmt (leNat ((a.drop (4 * k)).take 4)) (leNat ((b.drop (4 * k)).take 4))))

/-- A FUM packet of an operation. -/
def fumPkt (s : State) (c : Cq) (r node tag down : Nat) (bs : List Byte) : Packet :=
  let (pay, len) := flitPad bs
  { queuePkt s c 9 (posAt s c 0 r) with
    node := node, tag := tag, chunk := down, len := len, payload := pay }

/-- The result goes down: it is written at DST and the operation is finished; the children of the
delivery tree get it (R282, R284). -/
def tinyDown (s : State) (q : Nat) (o : Op) (bs : List Byte) : State :=
  let c := cqOf s q
  let n := if qdOp o.desc = 0xB then 4 * qdBytes o.desc else 0
  let s := if n = 0 then s else storeBoth s (engineSource q) (qdDst o.desc) (bs.take n)
  let root := rootHost { c with fan := 1 }
  let s := forEach (treeChildren c.members c.rank root) s (fun s k =>
    sendPkt s (fumPkt s c k (nodeField 1 (rootNode c.members 1)) o.num 1 (bs.take n)))
  finishOp s q o.id stOk

/-- A value of node `n` goes up: to the host of its parent, or down from the root. -/
def tinyUp (s : State) (q : Nat) (o : Op) (n : Nat × Nat) (bs : List Byte) : State :=
  let c := cqOf s q
  match parentOf n c.members 1 with
  | none => tinyDown s q o bs
  | some p => sendPkt s (fumPkt s c (hostRank p.1 p.2 1) (nodeField 1 n) o.num 0 bs)

/-- TINY or BARRIER starts: the leaf enters the tree. -/
def startTiny (s : State) (q : Nat) (o : Op) : State :=
  let c := cqOf s q
  let n := if qdOp o.desc = 0xB then 4 * qdBytes o.desc else 0
  match readSource s q (qdSrc o.desc) n with
  | (s, true) => finishOp s q o.id stDataError
  | (s, false) => tinyUp s q o (0, c.rank) (if n = 0 then [] else calRead s (qdSrc o.desc) n)

/-- The unfinished TINY or BARRIER of a queue with a number. -/
def tinyOp (c : Cq) (tag : Nat) : Option Op :=
  c.ops.find? (fun o => o.started && !o.ready && (qdOp o.desc = 0xA || qdOp o.desc = 0xB) && o.num = tag)

/-- A contribution to this package's node of the fumarole tree: held in the queue's slot until its
sibling comes, then combined and sent up. -/
def tinyArrive (s : State) (q : Nat) (p : Packet) : State :=
  let c := cqOf s q
  match hostedNode 1 c.rank with
  | none => s
  | some n =>
    let kids := childNodes n.1 n.2 c.members 1
    let fields := kids.map (nodeField 1)
    if !fields.contains p.node then s
    else
      let held := c.fum ++ [(p.node, p.tag, p.payload)]
      let mine (f : Nat) : Option (List Byte) :=
        (held.find? (fun x => x.1 = f && x.2.1 = p.tag)).map (·.2.2)
      match mine (fields.getD 0 0), mine (fields.getD 1 0), tinyOp c p.tag with
      | some a, some b, some o =>
        let s := updCq s q (fun c => { c with fum := held.filter (fun x => x.2.1 ≠ p.tag) })
        let v := if qdOp o.desc = 0xB then tinyCombine (qdTfmt o.desc) (qdBytes o.desc) a b else []
        tinyUp s q o n v
      | _, _, _ => updCq s q (fun c => { c with fum := held })

end Sys2Proof.Machine
end

