-- ==== Sys2Proof/Machine/Tensor.lean ====
section
/-!
DEFINITION. Tensor access (R91 to R112): validity and footprint of tensor descriptors, transformed
loads, and stores with clamping, collisions, ordered add, write boxes and census classes.
-/

namespace Sys2Proof.Machine

/-- Bytes of an element of a format of whole bytes. -/
def elBytes (fmt : Nat) : Nat := fmtBits fmt / 8

/-- Bytes of a /B32 block's elements (R33). -/
def blockBytes (fmt : Nat) : Nat := 4 * fmtBits fmt

/-- Product of the extents of the axes below `d`. -/
def tdProd (w d : Nat) : Nat := (List.range d).foldl (fun p k => p * tdExt w k) 1

/-- The validity rows of R110 that concern one descriptor. -/
def tdValid (store : Bool) (addr w : Nat) : Bool :=
  let n := tdNdim w
  let axes := List.range n
  let f := tdFmt w
  tdResv0 w = 0 && tdResv1 w = 0 && tdResv2 w = 0 && tdResvBit w = 0 &&
  1 ≤ n && n ≤ 6 && f ≤ 0xB && tdPath w != 3 && addr % 32 = 0 &&
  axes.all (fun d => 1 ≤ tdExt w d) &&
  (List.range 6).all (fun d => d < n || (tdExt w d = 0 && tdStride w d = 0)) &&
  tdProd w n ≤ 2 ^ 48 &&
  (if isB32 f then
    tdBase w % 8 = 0 && tdExt w 0 % 32 = 0 && tdIdxEn w = 0 &&
    axes.all (fun d => tdStride w d == (tdProd w d : Int))
   else tdBase w % elBytes f = 0 && tdScaleBase w = 0) &&
  (!store || (tdRot w = 0 && tdRev w = 0)) &&
  (tdRot w = 0 || 2 ≤ n) && tdRev w / 2 ^ n = 0 &&
  (if tdIdxEn w = 1 then tdIdxAxis w < n && 1 ≤ tdIdxLim w && tdIdxBase w % 4 = 0
   else tdIdxAxis w = 0 && tdIdxLim w = 0 && tdIdxBase w = 0) &&
  (if store then tdStMode w = 0 || (tdStMode w = 1 && (f = 0 || f = 0xB)) else tdStMode w = 0)

/-- Extent that an axis contributes to the footprint: IDX_LIM for the indexed axis (R105). -/
def tdReach (w d : Nat) : Nat :=
  if tdIdxEn w = 1 && tdIdxAxis w = d then tdIdxLim w else tdExt w d

/-- The footprint of a descriptor (R105): first byte, and the byte after the last. -/
def footprint (w : Nat) : Int × Int :=
  let f := tdFmt w
  let base : Int := tdBase w
  if isB32 f then
    let blocks := tdProd w (tdNdim w) / 32
    let sb : Int := tdScaleBase w
    (min base sb, max (base + (blocks * blockBytes f : Nat)) (sb + (blocks : Nat)))
  else
    let c (d : Nat) : Int := ((tdReach w d : Int) - 1) * tdStride w d
    let axes := List.range (tdNdim w)
    let lo := axes.foldl (fun a d => a + min 0 (c d)) 0
    let hi := axes.foldl (fun a d => a + max 0 (c d)) 0
    let e : Int := elBytes f
    (base + lo * e, base + hi * e + e)

/-- The index vector's range, empty without one (R106). -/
def idxFootprint (w : Nat) : List (Int × Int) :=
  if tdIdxEn w = 1 then
    let b : Int := tdIdxBase w
    [(b, b + (4 * tdExt w (tdIdxAxis w) : Nat))]
  else []

/-- A run of `r` elements grows by the first of the axes `ds` that leaves no gap, in either direction. -/
def growRun (w : Nat) (x : Nat × List Nat) : Nat × List Nat :=
  match x.2.find? (fun d => (tdStride w d).natAbs ≤ x.1) with
  | some d => (x.1 + (tdStride w d).natAbs * (tdExt w d - 1), x.2.erase d)
  | none => x

/-- Elements of the contiguous run under one index position: what the other axes cover without a gap from
one element (R108, assumption 117). -/
def idxRun (w : Nat) : Nat :=
  let others := (List.range (tdNdim w)).filter (fun d => d ≠ tdIdxAxis w)
  ((List.range 6).foldl (fun x _ => growRun w x) (1, others)).1

/-- Does a descriptor take the narrow path (R108)? None does while NARROW_EN is 0. -/
def takesNarrow (en : Bool) (w : Nat) : Bool :=
  en && (tdPath w = 2 ||
    (tdPath w = 0 && tdIdxEn w = 1 && elBytes (tdFmt w) * idxRun w ≤ 128))

/-- Do two byte ranges intersect? -/
def rangesMeet (a b : Int × Int) : Bool := a.1 < b.2 && b.1 < a.2

/-- A byte range as address and length. -/
def toRange (r : Int × Int) : Nat × Nat := (r.1.toNat, (r.2 - r.1).toNat)

/-- A memory view: the byte at an address. -/
abbrev View := Nat → Byte

/-- Little-endian number of `n` bytes in a view. -/
def viewLe (rd : View) (a : Nat) : Nat → Nat
  | 0 => 0
  | n + 1 => (rd a).toNat + 256 * viewLe rd (a + 1) n

/-! ### Loads -/

/-- Presented extent of an axis: odd turns exchange axes 1 and 0 (R97). -/
def presExt (w d : Nat) : Nat :=
  if tdRot w % 2 = 1 then (if d = 0 then tdExt w 1 else if d = 1 then tdExt w 0 else tdExt w d)
  else tdExt w d

/-- Entry of a presented or stored index; axes not given are 0. -/
def ix (p : List Nat) (d : Nat) : Nat := p.getD d 0

/-- The stored index of a presented index: clamping (R100), then reversal (R98) and rotation (R97)
undone. -/
def storedIx (w : Nat) (p : List Nat) : List Nat :=
  let q := (List.range (tdNdim w)).map (fun d =>
    let e := presExt w d
    let x := min (ix p d) (e - 1)
    if bit (tdRev w) d then e - 1 - x else x)
  let e0 := tdExt w 0
  let e1 := tdExt w 1
  let r := ix q 1
  let c := ix q 0
  match tdRot w with
  | 1 => r :: (e1 - 1 - c) :: q.drop 2
  | 2 => (e0 - 1 - c) :: (e1 - 1 - r) :: q.drop 2
  | 3 => (e0 - 1 - r) :: c :: q.drop 2
  | _ => q

/-- Raw index entry `j`, signed (R106). -/
def idxRaw (rd : View) (w j : Nat) : Int := intDecode 32 (viewLe rd (tdIdxBase w + 4 * j) 4)

/-- The source index that entry `j` resolves to (R106). -/
def idxResolve (rd : View) (w j : Nat) : Nat :=
  (min (max (idxRaw rd w j) 0) ((tdIdxLim w : Int) - 1)).toNat

/-- Is entry `j` clamped? -/
def idxClamped (rd : View) (w j : Nat) : Bool :=
  idxRaw rd w j < 0 || idxRaw rd w j ≥ (tdIdxLim w : Int)

/-- Element offset of a stored index (R94). -/
def elOffset (rd : View) (w : Nat) (s : List Nat) : Int :=
  (List.range (tdNdim w)).foldl (fun o d =>
    let x := if tdIdxEn w = 1 && tdIdxAxis w = d then idxResolve rd w (ix s d) else ix s d
    o + (x : Int) * tdStride w d) 0

/-- Element `k` of the packed block at `a` (R33). -/
def packedEl (rd : View) (fmt a k : Nat) : Nat :=
  let b := fmtBits fmt
  let first := k * b / 8
  bits (viewLe rd (a + first) 2) (k * b - 8 * first) b

/-- The exact value at a stored index. -/
def loadStored (rd : View) (w : Nat) (s : List Nat) : Val :=
  let f := tdFmt w
  let o := elOffset rd w s
  if isB32 f then
    let i := o.toNat
    let sc := (rd (tdScaleBase w + i / 32)).toNat
    elDecode f (packedEl rd f (tdBase w + i / 32 * blockBytes f) (i % 32)) sc
  else
    let a := ((tdBase w : Int) + o * (elBytes f : Int)).toNat
    elDecode f (viewLe rd a (elBytes f)) 127

/-- The bytes in which the element at a stored index lies: of /B32 its block, beside the block's scale. -/
def elRanges (rd : View) (w : Nat) (s : List Nat) : List (Nat × Nat) :=
  let f := tdFmt w
  let o := elOffset rd w s
  if isB32 f then
    let i := o.toNat
    [(tdBase w + i / 32 * blockBytes f, blockBytes f), (tdScaleBase w + i / 32, 1)]
  else [(((tdBase w : Int) + o * (elBytes f : Int)).toNat, elBytes f)]

/-- The stored index at a place in the canonical order. -/
def storedAt (w k : Nat) : List Nat := (List.range (tdNdim w)).map (fun d => k / tdProd w d % tdExt w d)

/-- Does the index vector of a descriptor lie in `n` bytes from `a`? -/
def idxTouches (w a n : Nat) : Bool := (idxFootprint w).any (fun r => meet (toRange r).1 (toRange r).2 a n)

/-- Does an element of the tensor lie in `n` bytes from `a`? -/
def elTouches (rd : View) (w a n : Nat) : Bool :=
  (List.range (tdProd w (tdNdim w))).any (fun k =>
    (elRanges rd w (storedAt w k)).any (fun r => meet r.1 r.2 a n))

/-- The value presented at index `p` (axis 0 first). -/
def loadEl (rd : View) (w : Nat) (p : List Nat) : Val := loadStored rd w (storedIx w p)

/-- Byte addresses of the clamped ones among index entries. -/
def clampedEntries (rd : View) (w : Nat) (js : List Nat) : List Nat :=
  if tdIdxEn w = 1 then (js.eraseDups.filter (idxClamped rd w)).map (fun j => tdIdxBase w + 4 * j) else []

/-- Addresses of the index entries that a pass reading these presented indices clamps (R106). -/
def loadClamps (rd : View) (w : Nat) (ps : List (List Nat)) : List Nat :=
  clampedEntries rd w (ps.map (fun p => ix (storedIx w p) (tdIdxAxis w)))

/-- What a pass counts: each clamped entry once, through however many slots it is read (R106). -/
def passClamps (as : List Nat) : Nat := as.eraseDups.length

/-! ### Stores -/

/-- A store of one element: its unclamped index and its exact value. A task lists its stores of one
slot in the canonical order of the unclamped indices (R102). -/
structure Put where
  ix : List Nat
  v  : Val
  deriving DecidableEq, Repr

/-- Clamped stored index (R101). -/
def clampIx (w : Nat) (p : List Nat) : List Nat :=
  (List.range (tdNdim w)).map (fun d => min (ix p d) (tdExt w d - 1))

/-- Was the index clamped? -/
def isClamped (w : Nat) (p : List Nat) : Bool :=
  (List.range (tdNdim w)).any (fun d => ix p d ≥ tdExt w d)

/-- Addresses of the index entries that a scatter of these indices clamps. -/
def putClamps (rd : View) (w : Nat) (ps : List Put) : List Nat :=
  clampedEntries rd w (ps.map (fun p => ix (clampIx w p.ix) (tdIdxAxis w)))

/-- Canonical linear index over the descriptor's own extents (R93). -/
def linIx (w : Nat) (s : List Nat) : Nat :=
  (List.range (tdNdim w)).foldl (fun a d => a + ix s d * tdProd w d) 0

/-- What a slot's stores come to: the bytes written, the census classes of the destinations, the
writes dropped and the writes clamped. -/
structure StoreOut where
  bytes  : Map Byte := []
  cls    : List Cls := []
  drops  : Nat := 0
  clamps : Nat := 0
  deriving DecidableEq, Repr

/-- A resolved store: destination (element offset from the base for /B32, byte address otherwise),
linear index and value. -/
structure Dest where
  at_ : Nat
  lin : Nat
  v   : Val
  deriving DecidableEq, Repr

/-- Resolving a store to its destination. -/
def resolve (rd : View) (w : Nat) (p : Put) : Dest :=
  let s := clampIx w p.ix
  let o := elOffset rd w s
  let f := tdFmt w
  ⟨if isB32 f then o.toNat else ((tdBase w : Int) + o * (elBytes f : Int)).toNat, linIx w s, p.v⟩

/-- Does every byte that the destination changes lie inside the write box (R127)? -/
def landsIn (w lo len : Nat) (d : Dest) : Bool :=
  let f := tdFmt w
  let inBox (a n : Nat) : Bool := lo ≤ a && a + n ≤ lo + len
  if isB32 f then
    let b := fmtBits f
    let a := tdBase w + d.at_ / 32 * blockBytes f
    let first := a + d.at_ % 32 * b / 8
    let last := a + (d.at_ % 32 * b + b - 1) / 8
    inBox first (last - first + 1) && inBox (tdScaleBase w + d.at_ / 32) 1
  else inBox d.at_ (elBytes f)

/-- The stores grouped by destination, ascending, each group in canonical order. -/
def groupDests (ds : List Dest) : Map (List Dest) :=
  ds.foldl (fun m d => mins m d.at_ (mget [] m d.at_ ++ [d])) []

/-- Writing bytes into a map. -/
def putBytes (m : Map Byte) (a : Nat) : List Byte → Map Byte
  | [] => m
  | b :: bs => putBytes (mins m a b) (a + 1) bs

/-- Plain stores of formats of whole bytes: the highest unclamped index wins (R102), each
destination converted and counted once (R104). -/
def storePlain (w rmode seed : Nat) (g : Map (List Dest)) : StoreOut :=
  let f := tdFmt w
  g.foldl (fun o (a, ds) =>
    match ds.getLast? with
    | none => o
    | some d =>
      let (p, c) := elConv f (rmodeOf rmode seed (tdTensorId w) d.lin) d.v
      { o with bytes := putBytes o.bytes a (leBytes (elBytes f) p), cls := o.cls ++ [c] }) {}

/-- Ordered adds (R103): the old value, then each contribution in canonical order. The class is that
of the final value (R104). -/
def storeAdd (rd : View) (w rmode seed : Nat) (g : Map (List Dest)) : StoreOut :=
  let f := tdFmt w
  g.foldl (fun o (a, ds) =>
    let old := (viewLe rd a 4, Cls.plain)
    let (p, c) := ds.foldl (fun acc d =>
      let (q, _) := elConv f (rmodeOf rmode seed (tdTensorId w) d.lin) d.v
      elConv f .nearest (vsum [elDecode f acc.1 127, elDecode f q 127])) old
    { o with bytes := putBytes o.bytes a (leBytes 4 p), cls := o.cls ++ [c] }) {}

/-- The blocks among /B32 destinations: block number to the group of each of its elements. -/
def byBlock (g : Map (List Dest)) : Map (Map (List Dest)) :=
  g.foldl (fun m (o, ds) => mins m (o / 32) (mins (mget [] m (o / 32)) (o % 32) ds)) []

/-- Stores of a /B32 slot: each block's scale is chosen over all the values the task gives the block
(R34), and the elements whose writes land are packed into the block's bytes. The other elements of a block
that is written in part keep their bits under the new scale (assumption 106). -/
def storeBlocks (rd : View) (w rmode seed lo len : Nat) (g : Map (List Dest)) : StoreOut :=
  let f := tdFmt w
  (byBlock g).foldl (fun o (b, els) =>
    let win := els.filterMap (fun (k, ds) => ds.getLast?.map (fun d => (k, d)))
    let rm (i : Nat) : Rmode := match win[i]? with
      | some (_, d) => rmodeOf rmode seed (tdTensorId w) d.lin
      | none => .nearest
    let (sc, enc) := blockConv f rm (win.map (fun (_, d) => d.v))
    let a := tdBase w + b * blockBytes f
    let kept := (win.zip enc).filter (fun (x, _) => landsIn w lo len x.2)
    if kept.isEmpty then o
    else
      let fb := fmtBits f
      let word := kept.foldl (fun acc (x, y) => setBits acc (x.1 * fb) fb y.1)
        (viewLe rd a (blockBytes f))
      let touched := kept.flatMap (fun (x, _) =>
        (List.range ((x.1 * fb + fb - 1) / 8 - x.1 * fb / 8 + 1)).map (· + x.1 * fb / 8))
      let bs := touched.foldl (fun m k => mins m (a + k) (BitVec.ofNat 8 (word / 256 ^ k))) o.bytes
      { o with
        bytes := mins bs (tdScaleBase w + b) (BitVec.ofNat 8 sc)
        cls := o.cls ++ kept.map (fun (_, y) => y.2) }) {}

/-- The stores of one slot, inside its write box (R101 to R104, R127). -/
def commit (rd : View) (w rmode seed lo len : Nat) (ps : List Put) : StoreOut :=
  let ds := ps.map (resolve rd w)
  let out := ds.filter (fun d => !landsIn w lo len d)
  let g := groupDests (if isB32 (tdFmt w) then ds else ds.filter (landsIn w lo len))
  let o :=
    if isB32 (tdFmt w) then storeBlocks rd w rmode seed lo len g
    else if tdStMode w = 1 then storeAdd rd w rmode seed g
    else storePlain w rmode seed g
  { o with
    drops := if tdStMode w = 1 then out.length else (out.map Dest.at_).eraseDups.length
    clamps := (ps.filter (fun p => isClamped w p.ix)).length }

end Sys2Proof.Machine
end

