-- ==== Sys2Proof/Machine/Matrix.lean ====
section
/-!
DEFINITION. The matrix engine (R48 to R67): validity of MXCFG, exact K steps, the canonical order
along K, split-K partials and their combination, preload and output.
-/

namespace Sys2Proof.Machine

/-- Width class of an operand format in bits. -/
def mxClass (fmt : Nat) : Nat := if fmt = 0x1 ∨ fmt = 0x2 then 16 else if isB32 fmt then fmtBits fmt else 8

/-- The K step of two operand formats (R48). -/
def mxStep (fa fb : Nat) : Nat :=
  let c := max (mxClass fa) (mxClass fb)
  if c = 16 then 8 else if c = 4 then 32 else 16

/-- Is the operation an INT8 chain (INT32 accumulation)? -/
def mxInt (w : Nat) : Bool := if mxSrc w = 1 then mxFmtA w = 0xB else mxFmtA w = 0xA

/-- Segments of the canonical K range (R54). -/
def mxSegs (w : Nat) : Nat := cdiv (mxKExt w) 1024

/-- First segment of the task's group and the one after its last (R62). -/
def mxGroup (w : Nat) : Nat × Nat :=
  (mxSegBase w, min (mxSegBase w + 2 ^ mxSpan w) (mxSegs w))

/-- With SRC = 1, the partials that the task combines (R66). Their number is also S_task of its tree area, as
the segments that the task itself combines (assumption 107). -/
def mxParts (w : Nat) : Nat := cdiv ((mxGroup w).2 - (mxGroup w).1) (2 ^ mxIn w)

/-- The validity rows of R66 for an output box of m × n. PRELOAD 0b11, RMODE 0b11 and SPAN_LOG2 above 16, which
R65 does not define, are malformed too (assumption 107). -/
def mxValid (w m n : Nat) : Bool :=
  let s := mxSegs w
  let int := mxInt w
  let span := 2 ^ mxSpan w
  let sTask := if mxSrc w = 1 then mxParts w else (mxGroup w).2 - (mxGroup w).1
  mxResv0 w = 0 && mxResv1 w = 0 && mxResv2 w = 0 &&
  1 ≤ mxKExt w && mxKExt w ≤ 67108864 && mxFmtOut w ≤ 0xB &&
  mxRmode w != 3 && mxPreload w != 3 && mxSpan w ≤ 16 && mxIn w ≤ 15 &&
  (if mxSrc w = 0 then
    1 ≤ mxFmtA w && mxFmtA w ≤ 0xA && 1 ≤ mxFmtB w && mxFmtB w ≤ 0xA &&
    (mxFmtA w = 0xA) == (mxFmtB w = 0xA) && (!int || mxKExt w ≤ 131071) && mxIn w = 0
   else (mxFmtA w = 0 || mxFmtA w = 0xB) && mxFmtB w = 0 && mxIn w < mxSpan w) &&
  mxSegBase w % span = 0 && mxSegBase w < s &&
  (if mxDst w = 0 then mxSegBase w = 0 && s ≤ span
   else mxPreload w = 0 && mxRmode w = 0 && mxFmtOut w = (if int then 0xB else 0)) &&
  (if mxPreload w = 0 then mxFmtPre w = 0
   else if int then mxFmtPre w = 0xB else mxFmtPre w ≤ 9) &&
  mxTreeBase w * 4096 + 4 * (min m 128 * min n 128) * clog2 sTask ≤ 2 ^ 20

/-- An integer: its zero has no sign (R29, R51). -/
def vint : Val → Val
  | .fin neg m e => .fin (neg && m != 0) m e
  | v => v

/-- An accumulated value: one rounding into F32, or the exact integer of an INT8 chain (R51). -/
def mxRound (int : Bool) (v : Val) : Val := if int then vint v else f32v (toF32 v)

/-- Combining two accumulated values: F32 addition, or exact integer addition (R55). The sum of INT32 partials
that leaves INT32 stays exact in the tree (assumption 109). -/
def mxAdd (int : Bool) (a b : Val) : Val := mxRound int (vsum [a, b])

/-- The K steps of one segment of at most `fuel` steps: products of the pairs from `k` up to `hi`,
`step` at a time, each step's exact sum rounded once (R51 to R53, R55, R56). -/
def mxSteps (int : Bool) (a b : Nat → Val) (step hi : Nat) : Nat → Nat → Option Val → Option Val
  | 0, _, acc => acc
  | fuel + 1, k, acc =>
    if k ≥ hi then acc
    else
      let ks := (List.range step).map (· + k) |>.filter (· < hi)
      let v := vsum (ks.map (fun j => vmul (a j) (b j)) ++ acc.toList)
      mxSteps int a b step hi fuel (k + step) (some (mxRound int v))

/-- The value of segment `s` (R55). -/
def mxSegment (w : Nat) (a b : Nat → Val) (s : Nat) : Val :=
  let step := mxStep (mxFmtA w) (mxFmtB w)
  (mxSteps (mxInt w) a b step (min (1024 * s + 1024) (mxKExt w)) 128 (1024 * s) none).getD .zero

/-- The root of output element (i, j): its segments, or the partials, under the canonical tree. -/
def mxRoot (rd : View) (w ta tb i j : Nat) : Val :=
  let (lo, hi) := mxGroup w
  let vals :=
    if mxSrc w = 1 then (List.range (mxParts w)).map (fun p => loadEl rd ta [j, i, p])
    else (List.range (hi - lo)).map (fun s =>
      mxSegment w (fun k => loadEl rd ta [k, i]) (fun k => loadEl rd tb [j, k]) (lo + s))
  canonicalTree (mxAdd (mxInt w)) .zero vals

/-- The output value before its one conversion: root plus preload, exact (R58). -/
def mxOut (rd : View) (w ta tb tp i j : Nat) : Val :=
  let root := mxRoot rd w ta tb i j
  if mxPreload w = 0 then root
  else if mxPreload w = 1 then vsum [root, loadEl rd tp [j]]
  else vsum [root, loadEl rd tp [j, i]]

/-- The m × n output box: extents of axes 1 and 0 of the output descriptor (assumption 11); an output of one
axis has one row (assumption 108). -/
def mxBox (tout : Nat) : Nat × Nat :=
  (if tdNdim tout ≥ 2 then tdExt tout 1 else 1, tdExt tout 0)

/-- All stores of a matrix task, in canonical order; axes above those of the operation stay at index 0
(assumption 108). -/
def mxPuts (rd : View) (w ta tb tp tout : Nat) : List Put :=
  let (m, n) := mxBox tout
  (List.range m).flatMap (fun i => (List.range n).map (fun j =>
    ⟨[j, i], mxOut rd w ta tb tp i j⟩))

/-- The output passes: boxes of at most 128 × 128 (R66), the last ones cut to the output box (assumption
113). -/
def mxPasses (m n : Nat) : List (List Nat × List Nat) :=
  (List.range (cdiv m 128)).flatMap (fun pi => (List.range (cdiv n 128)).map (fun pj =>
    ((List.range (min 128 (m - 128 * pi))).map (· + 128 * pi),
     (List.range (min 128 (n - 128 * pj))).map (· + 128 * pj))))

/-- Index entries clamped over all passes of the task (R106). -/
def mxClamps (rd : View) (w ta tb tp tout : Nat) : Nat :=
  let (m, n) := mxBox tout
  let (lo, hi) := mxGroup w
  let ks := (List.range (min (hi * 1024) (mxKExt w) - lo * 1024)).map (· + lo * 1024)
  ((mxPasses m n).map (fun (rows, cols) => passClamps (
    (if mxSrc w = 1 then
      loadClamps rd ta ((List.range (mxParts w)).flatMap (fun p =>
        rows.flatMap (fun i => cols.map (fun j => [j, i, p]))))
     else
      loadClamps rd ta (rows.flatMap (fun i => ks.map (fun k => [k, i]))) ++
      loadClamps rd tb (ks.flatMap (fun k => cols.map (fun j => [j, k])))) ++
    (if mxPreload w = 0 then []
     else if mxPreload w = 1 then loadClamps rd tp (cols.map (fun j => [j]))
     else loadClamps rd tp (rows.flatMap (fun i => cols.map (fun j => [j, i])))) ++
    putClamps rd tout (rows.flatMap (fun i => cols.map (fun j => ⟨[j, i], .zero⟩)))))).sum

end Sys2Proof.Machine
end

