-- ==== Sys2Proof/Machine/Func.lean ====
section
/-!
DEFINITION. FUNC (R79, R80): the special values, the correctly rounded functions, and of every other result
a free choice among the F32 patterns that lie within the function's error bound of the exact value. The
exact value is computed in fixed point with 256 fraction bits.
-/

namespace Sys2Proof.Machine

/-- 1 in fixed point. -/
def fxOne : Nat := 2 ^ 256

/-- ln 2. -/
def fxLn2 : Nat := 0xb17217f7d1cf79abc9e3b39803f2f6af40f343267298b62d8a0d175b8baafa2b

/-- 2 / √π. -/
def fxErfScale : Nat := 0x120dd750429b6d11ae3a914fed7fd8688281341d7587cea2e7342b06199cc4161

/-- The magnitude m × 2^e of a finite F32 value; e is at least −149. -/
def fxOf (m : Nat) (e : Int) : Nat := m * 2 ^ (e + 256).toNat

/-- e^r for r from 0 to 1, by its power series. -/
def fxExp (r : Nat) : Nat :=
  ((List.range 90).foldl (fun (t, s) k => (t * r / (fxOne * (k + 1)), s + t)) (fxOne, 0)).2

/-- ln m for m from 1 to 2, as 2 artanh ((m − 1) / (m + 1)). -/
def fxLn (m : Nat) : Nat :=
  let z := (m - fxOne) * fxOne / (m + fxOne)
  let z2 := z * z / fxOne
  2 * ((List.range 90).foldl (fun (t, s) k => (t * z2 / fxOne, s + t / (2 * k + 1))) (z, 0)).2

/-- 2^y as n × 2^(k − 256), n from 1 to 2. -/
def fxExp2 (y : Int) : Nat × Int :=
  (fxExp ((y % (fxOne : Int)).toNat * fxLn2 / fxOne), y / (fxOne : Int))

/-- log2 e × x. -/
def fxLog2e (x : Int) : Int := x * (fxOne : Int) / (fxLn2 : Int)

/-- e^x for x ≥ 0, in fixed point. -/
def fxExpPos (x : Nat) : Nat :=
  let (n, k) := fxExp2 (fxLog2e x)
  n * 2 ^ k.toNat

/-- erf x for x from 0 to 8, by its power series. -/
def fxErf (x : Nat) : Nat :=
  let x2 := x * x / fxOne
  let s := ((List.range 320).foldl (fun (t, s) k =>
    (t * x2 / (fxOne * (k + 1)),
     s + (if k % 2 = 0 then (t / (2 * k + 1) : Int) else -(t / (2 * k + 1) : Int)))) (x, (0 : Int))).2
  s.toNat * fxErfScale / fxOne

/-- A result of FUNC as the exact value n × 2^e with a sign. -/
structure Exact where
  neg : Bool
  n   : Nat
  e   : Int
  deriving DecidableEq, Repr

/-- A fixed-point result. -/
def Exact.fixed (x : Int) : Exact := ⟨x < 0, x.natAbs, -256⟩

/-- The exact value of FUNC on the finite nonzero value (−1)^neg × m × 2^e: logarithms and RSQRT of positive
arguments. Arguments so large that the result lies outside the range, or within 2^−90 of 1, are cut short. -/
def funcExact (op : Nat) (neg : Bool) (m : Nat) (e : Int) : Exact :=
  let x := fxOf m e
  let sx : Int := if neg then -(x : Int) else x
  let l := Nat.log2 m
  let lnm := fxLn (m * 2 ^ (256 - l))
  let signed (n : Nat) : Exact := ⟨neg, n, -256⟩
  let power (y : Int) : Exact :=
    if 200 * (fxOne : Int) < y then ⟨false, 1, 200⟩
    else if y < -200 * (fxOne : Int) then ⟨false, 1, -200⟩
    else let (n, k) := fxExp2 y; ⟨false, n, k - 256⟩
  match op with
  | 0x01 => power sx
  | 0x02 => power (fxLog2e sx)
  | 0x03 => .fixed ((lnm * fxOne / fxLn2 : Nat) + (e + l) * (fxOne : Int))
  | 0x04 => .fixed ((lnm : Int) + (e + l) * (fxLn2 : Int))
  | 0x07 =>
    let (m, e) := if e % 2 = 0 then (m, e) else (2 * m, e - 1)
    ⟨false, isqrt (2 ^ 600 / m) 301 0, -300 - e / 2⟩
  | 0x08 =>
    if 32 * fxOne ≤ x then signed fxOne
    else
      let t := fxExpPos (2 * x)
      signed ((t - fxOne) * fxOne / (t + fxOne))
  | 0x09 =>
    if 128 * fxOne ≤ x then (if neg then ⟨false, 1, -200⟩ else ⟨false, fxOne, -256⟩)
    else
      let t := fxExpPos x
      ⟨false, (if neg then fxOne else t) * fxOne / (t + fxOne), -256⟩
  | _ => signed (if 8 * fxOne ≤ x then fxOne else fxErf x)

/-- Error bound of a function in ulps of its result (R79). -/
def funcUlps (op : Nat) : Nat := if op = 0x01 ∨ op = 0x03 ∨ op = 0x07 then 1 else 2

/-- Mantissa and exponent of an F32 pattern without sign; the infinity counts as 2^128. -/
def magOf (p : Nat) : Nat × Int :=
  if p < 2 ^ 23 then (p, -149) else (2 ^ 23 + p % 2 ^ 23, (p / 2 ^ 23 : Nat) - 150)

/-- Is the pattern within `k` ulps of n × 2^e? An allowance of 2^−30 ulp covers the fixed-point error. -/
def withinUlps (k n : Nat) (e : Int) (p : Nat) : Bool :=
  let (m, f) := magOf p
  let d := dadd (m, f) (-(n : Int), e)
  0 ≤ (dadd ((k * 2 ^ 30 + 1 : Nat), f - 30) (-(d.1.natAbs : Int), d.2)).1

/-- The patterns that FUNC may give for an exact value: those within the error bound (R79), which lie at most
two places below the truncated value and six above it, where the ulp may have doubled on the way; a value from
2^128 on is +∞, and one below half the least subnormal underflows to 0 (R80). -/
def funcPatterns (op : Nat) (v : Exact) : List Nat :=
  if 0 ≤ (dadd (v.n, v.e) (-1, 128)).1 then [0x7F800000]
  else if v.n ≠ 0 ∧ (dadd (v.n, v.e) (-1, -150)).1 < 0 then [0]
  else
    let p := (floConv floF32 .zero (.fin false v.n v.e)).1
    let near := (List.range 9).filterMap (fun i =>
      if 2 ≤ p + i ∧ p + i - 2 ≤ 0x7F800000 ∧ withinUlps (funcUlps op) v.n v.e (p + i - 2) then some (p + i - 2)
      else none)
    if v.n = 0 then near ++ near.map (· + 2 ^ 31)
    else if v.neg then near.map (· + 2 ^ 31) else near

/-- A result that only the published algorithm gives: which of the admitted patterns it is, is free
(assumption 7). -/
def funcFree (op x : Nat) (v : Exact) : Nat :=
  let ps := funcPatterns op v
  ps.getD (Config.func op x % ps.length) 0

/-- The frozen functions of R79, with the special values of R80; RCP and SQRT are correctly
rounded. -/
def funcOp (op x : Nat) : Nat :=
  let v := f32v x
  let pos (p : Nat) (n : Bool) : Nat := if n then p + 2 ^ 31 else p
  match v with
  | .nan => if op = 0 then toF32 v else f32nan
  | .inf neg =>
    match op with
    | 0x01 => if neg then 0 else 0x7F800000
    | 0x02 => if neg then 0 else 0x7F800000
    | 0x03 => if neg then f32nan else 0x7F800000
    | 0x04 => if neg then f32nan else 0x7F800000
    | 0x05 => pos 0 neg
    | 0x06 => if neg then f32nan else 0x7F800000
    | 0x07 => if neg then f32nan else 0
    | 0x08 => pos f32one neg
    | 0x09 => if neg then 0 else f32one
    | 0x0A => pos f32one neg
    | _ => toF32 v
  | .fin neg m e =>
    if m = 0 then
      match op with
      | 0x01 => f32one
      | 0x02 => f32one
      | 0x03 => pos 0x7F800000 true
      | 0x04 => pos 0x7F800000 true
      | 0x05 => pos 0x7F800000 neg
      | 0x06 => pos 0 neg
      | 0x07 => pos 0x7F800000 neg
      | 0x08 => pos 0 neg
      | 0x09 => 0x3F000000
      | 0x0A => pos 0 neg
      | _ => toF32 v
    else if op = 0 then toF32 v
    else if op = 0x05 then fdiv f32one x
    else if op = 0x06 then toF32 (vsqrt v)
    else if neg && (op = 0x03 || op = 0x04 || op = 0x07) then f32nan
    else funcFree op x (funcExact op neg m e)

end Sys2Proof.Machine
end

