-- ==== Sys2Proof/Machine/Vector.lean ====
section
/-!
DEFINITION. The vector function chain (R70 to R87): validity of the configuration block, the stages
over each row, the fixed-order row reductions and the scalar programs.
-/

namespace Sys2Proof.Machine

/-! ### Validity (R76) -/

/-- Is the operand select defined, and allowed where it stands (R73, R76)? -/
def selOk (w sel : Nat) (aout : Bool) : Bool :=
  sel ≤ 0xC && (sel != 2 || vxYEn w = 1) && (sel != 0xB || aout)

/-- The rows of R76 for one VXCFG word. FMT_OUT of a word that stores nothing names no output, so its /B32
format asks nothing of COUNT (assumption 112). -/
def vxWordOk (w : Nat) : Bool :=
  vxResv0 w = 0 && vxResv1 w = 0 && vxPass w != 3 &&
  1 ≤ vxCount w && vxCount w ≤ 16384 && 1 ≤ vxRows w &&
  vxFmtX w ≤ 0xB && vxFmtY w ≤ 0xB && vxFmtOut w ≤ 0xB &&
  (vxFmtRow w ≤ 2 || vxFmtRow w = 0xB) && vxRmode w != 3 &&
  vxAOp w ≤ 0xC && vxBOp w ≤ 0xC && vxFunc w ≤ 0xA && vxRedOp w ≤ 8 &&
  selOk w (vxAA w) false && selOk w (vxAB w) false && selOk w (vxAC w) false &&
  selOk w (vxBA w) true && selOk w (vxBB w) true && selOk w (vxBC w) true &&
  selOk w (vxRedB w) true &&
  (vxYEn w = 1 || vxFmtY w = 0) &&
  (!(isB32 (vxFmtX w) || isB32 (vxFmtY w) || (vxStoreEn w = 1 && isB32 (vxFmtOut w))) ||
    vxCount w % 32 = 0)

/-- No reserved operation in a scalar program (R85). -/
def vxProgOk (prog : Nat) : Bool :=
  (List.range 4).all (fun k =>
    let op := scOp (vxInstr prog k)
    op ≤ 0xD || (0x11 ≤ op && op ≤ 0x1A))

/-- Validity of a vector configuration block but for its regions (R76): pass words, VXROW. -/
def vxValid (w1 w2 row : Nat) : Bool :=
  vxWordOk w1 && vxProgOk (bits row 0 64) && vxProgOk (bits row 64 64) &&
  (if vxPass w1 = 0 then w2 = 0 && bits row 64 64 = 0
   else vxPass w1 = 1 && vxWordOk w2 && vxPass w2 = 2 &&
    vxCount w1 = vxCount w2 && vxRows w1 = vxRows w2 && vxFmtX w1 = vxFmtX w2 &&
    vxFmtY w1 = vxFmtY w2 && vxYEn w1 = vxYEn w2 && vxFmtRow w1 = vxFmtRow w2 &&
    vxRowIn w1 = vxRowIn w2 && vxRowOut w1 = vxRowOut w2 &&
    vxStoreEn w1 = 0 && vxLongRow w1 = 0 && vxLongRow w2 = 0) &&
  (vxLongRow w1 = 0 || ((vxRows w1 = 1 || vxCount w1 % 64 = 0) &&
    vxRows w1 * vxCount w1 ≤ 16777216))

/-! ### Row registers and the scalar program -/

/-- Row registers B0 to B3 and the reduction results, as F32 patterns (R84). -/
structure VxRegs where
  b  : List Nat := [0, 0, 0, 0]
  r0 : Nat := 0
  r1 : Nat := 0
  deriving DecidableEq, Repr

/-- S0 or S1 of VXSCAL: a NaN pattern is read as the canonical NaN (R75). -/
def vxS (scal k : Nat) : Nat := toF32 (f32v (bits scal (32 * k) 32))

/-- Operand of a scalar instruction (R85). -/
def scArg (g : VxRegs) (scal code : Nat) : Nat :=
  if code < 4 then g.b.getD code 0
  else if code = 4 then g.r0
  else if code = 5 then g.r1
  else vxS scal (code - 6)

/-- One scalar instruction (R85). -/
def scStep (scal : Nat) (g : VxRegs) (i : Nat) : VxRegs :=
  let a := scArg g scal (scA i)
  let v :=
    if scOp i ≤ 0xD then aluOp (scOp i) a (scArg g scal (scB i)) (scArg g scal (scC i))
    else funcOp (scOp i - 0x10) a
  { g with b := g.b.set (scDst i) v }

/-- A scalar program: four instructions in order. -/
def scRun (scal prog : Nat) (g : VxRegs) : VxRegs :=
  (List.range 4).foldl (fun g k => scStep scal g (vxInstr prog k)) g

/-! ### Elements -/

/-- The operand that a select code names (R73); `pipe` is what PIPE stands for there. -/
def selVal (sel pipe x y idx aout : Nat) (g : VxRegs) (scal : Nat) : Nat :=
  match sel with
  | 0x0 => pipe
  | 0x1 => x
  | 0x2 => y
  | 0x7 => vxS scal 0
  | 0x8 => vxS scal 1
  | 0x9 => 0
  | 0xA => f32one
  | 0xB => aout
  | 0xC => f32ofNat idx
  | s => g.b.getD (s - 3) 0

/-- An element through ALU-A, FUNC and ALU-B: the result P, and RED_B's operand (R70, R74). -/
def vxElem (w x y idx : Nat) (g : VxRegs) (scal : Nat) : Nat × Nat :=
  let sa (sel : Nat) : Nat := selVal sel x x y idx 0 g scal
  let aout := aluOp (vxAOp w) (sa (vxAA w)) (sa (vxAB w)) (sa (vxAC w))
  let f := funcOp (vxFunc w) aout
  let sb (sel : Nat) : Nat := selVal sel f x y idx aout g scal
  let p := aluOp (vxBOp w) (sb (vxBA w)) (sb (vxBB w)) (sb (vxBC w))
  (p, selVal (vxRedB w) p x y idx aout g scal)

/-! ### Reductions (R81 to R83) -/

/-- Lane value of a reduction: a value, a second value or index, and MEANVAR's count. -/
structure Lane where
  n : Nat
  a : Nat
  c : Nat
  deriving DecidableEq, Repr

/-- ARGMAX: does candidate (w, j) replace (v, i) (R82)? -/
def argReplaces (v i w j : Nat) : Bool :=
  let vv := f32v v
  let vw := f32v w
  if vv = .nan then vw = .nan && j < i
  else if vw = .nan then true
  else vgt vw vv || (!vgt vv vw && j < i)

/-- The term of a lane's first element. -/
def laneFirst (op p b idx : Nat) : Lane :=
  match op with
  | 0x2 => ⟨1, fmul p p, 0⟩
  | 0x3 => ⟨1, fmul p b, 0⟩
  | 0x6 => ⟨1, p, idx⟩
  | 0x8 => ⟨1, p, fmul p b⟩
  | _ => ⟨1, p, 0⟩

/-- Folding the next element of a lane. -/
def laneStep (op : Nat) (l : Lane) (p b idx : Nat) : Lane :=
  match op with
  | 0x1 => { l with a := fadd l.a p }
  | 0x2 => { l with a := ffma p p l.a }
  | 0x3 => { l with a := ffma p b l.a }
  | 0x4 => { l with a := fmax l.a p }
  | 0x5 => { l with a := fmin l.a p }
  | 0x6 => if argReplaces l.a l.c p idx then ⟨1, p, idx⟩ else l
  | 0x7 =>
    let n := l.n + 1
    let d := fsub p l.a
    let mean := fadd l.a (fdiv d (f32ofNat n))
    ⟨n, mean, ffma d (fsub p mean) l.c⟩
  | 0x8 => { l with a := fadd l.a p, c := ffma p b l.c }
  | _ => l

/-- Tree node of a reduction. -/
def laneNode (op : Nat) (x y : Lane) : Lane :=
  match op with
  | 0x4 => { x with a := fmax x.a y.a }
  | 0x5 => { x with a := fmin x.a y.a }
  | 0x6 => if argReplaces x.a x.c y.a y.c then y else x
  | 0x7 =>
    let n := x.n + y.n
    let d := fsub y.a x.a
    let f := fdiv (f32ofNat y.n) (f32ofNat n)
    ⟨n, ffma d f x.a, ffma (fmul d (f32ofNat x.n)) (fmul d f) (fadd x.c y.c)⟩
  | 0x8 => { x with a := fadd x.a y.a, c := fadd x.c y.c }
  | _ => { x with a := fadd x.a y.a }

/-- Lane `l`'s value over the (P, b) pairs of a logical row. -/
def laneOf (op : Nat) (ps : List ((Nat × Nat) × Nat)) (l : Nat) : Lane :=
  match ps.filter (fun e => e.2 % 64 == l) with
  | [] => ⟨0, 0, 0⟩
  | e :: es => es.foldl (fun acc x => laneStep op acc x.1.1 x.1.2 x.2) (laneFirst op e.1.1 e.1.2 e.2)

/-- A row reduction: R0 and R1 (R81). -/
def reduceRow (op : Nat) (ps : List (Nat × Nat)) : Nat × Nat :=
  let n := ps.length
  let root := canonicalTree (laneNode op) ⟨0, 0, 0⟩
    ((List.range (min n 64)).map (laneOf op ps.zipIdx))
  let fn := f32ofNat n
  match op with
  | 0x4 => (toF32 (f32v root.a), 0)
  | 0x5 => (toF32 (f32v root.a), 0)
  | 0x6 => (toF32 (f32v root.a), f32ofNat root.c)
  | 0x7 => (root.a, fdiv root.c fn)
  | 0x8 => (fdiv root.a fn, fdiv root.c fn)
  | _ => (root.a, fdiv root.a fn)

/-! ### Rows -/

/-- What a vector task reads: views of X, Y and the row state as F32 patterns. -/
structure VxIn where
  x : List Nat → Nat
  y : List Nat → Nat
  r : List Nat → Nat

/-- The F32 pattern presented at an index (R71). -/
def unpack (rd : View) (td : Nat) (p : List Nat) : Nat := toF32 (loadEl rd td p)

/-- One pass over the physical rows of one logical row: results P with RED_B's operand, in order. -/
def vxPass1 (w : Nat) (src : VxIn) (scal : Nat) (g : VxRegs) (rows : List Nat) :
    List (Nat × Nat) :=
  rows.zipIdx.flatMap (fun (r, k) => (List.range (vxCount w)).map (fun i =>
    vxElem w (src.x [i, r]) (if vxYEn w = 1 then src.y [i, r] else 0) (k * vxCount w + i) g scal))

/-- After a pass: its reduction results (R81) and its elementwise stores. -/
def vxAfter (w : Nat) (g : VxRegs) (rows : List Nat) (ps : List (Nat × Nat)) : VxRegs × List Put :=
  let g := if vxRedOp w = 0 then g
    else let (a, b) := reduceRow (vxRedOp w) ps; { g with r0 := a, r1 := b }
  let puts := if vxStoreEn w = 1 then
      ps.zipIdx.map (fun (p, k) =>
        ⟨[k % vxCount w, rows.getD (k / vxCount w) 0], f32v p.1⟩)
    else []
  (g, puts)

/-- One logical row through the sequence of R84: registers, elementwise stores, row-state stores. -/
def vxRow (w1 w2 row scal : Nat) (src : VxIn) (acc : VxRegs × List Put × List Put)
    (rows : List Nat) : VxRegs × List Put × List Put :=
  let (g, o3, o4) := acc
  let r := rows.headD 0
  let g := { g with b := (List.range 4).map (fun n =>
    if bit (vxRowIn w1) n then src.r [n, r] else g.b.getD n 0) }
  let (g, p1) := vxAfter w1 g rows (vxPass1 w1 src scal g rows)
  let (g, p2) :=
    if vxPass w1 = 1 then
      let g := scRun scal (bits row 64 64) g
      vxAfter w2 g rows (vxPass1 w2 src scal g rows)
    else (g, [])
  let g := scRun scal (bits row 0 64) g
  let out := (List.range 4).filterMap (fun n =>
    if bit (vxRowOut w1) n then some ⟨[n, r], f32v (g.b.getD n 0)⟩ else none)
  (g, o3 ++ p1 ++ p2, o4 ++ out)

/-- The whole operation: elementwise and row-state stores in canonical order (R77, R84). -/
def vxRun (w1 w2 row scal : Nat) (src : VxIn) : List Put × List Put :=
  let rows := List.range (vxRows w1)
  let groups := if vxLongRow w1 = 1 then [rows] else rows.map (fun r => [r])
  (groups.foldl (vxRow w1 w2 row scal src) ({}, [], [])).2

/-- The word in force at the end: its RMODE governs the conversions (R84). -/
def vxLast (w1 w2 : Nat) : Nat := if vxPass w1 = 1 then w2 else w1

/-- Presented indices of the X and Y streams. -/
def vxStream (w : Nat) : List (List Nat) :=
  (List.range (vxRows w)).flatMap (fun r => (List.range (vxCount w)).map (fun i => [i, r]))

/-- Presented indices of the row state in a task: Bn at index n of axis 0, row r at index r of axis 1
(assumption 12). -/
def vxStateIx (w sel : Nat) : List (List Nat) :=
  (List.range (if vxLongRow w = 1 then 1 else vxRows w)).flatMap (fun r =>
    (List.range 4).filterMap (fun n => if bit sel n then some [n, r] else none))

end Sys2Proof.Machine
end

