-- ==== Sys2Proof/Machine/TaskRun.lean ====
section
/-!
DEFINITION. What a task does: its slots and the checks before it runs (R111, R118, R121), its result
as bytes, counts and census classes (R104, R120, R127), the piece of an OPT phase (R155 to R158, R302),
and the digest of what it writes (R308).
-/

namespace Sys2Proof.Machine

/-- The memory that a die sees at the addresses as they are written (R306). -/
def dieView (s : State) (d : Nat) : View := fun a => rdByte s (dieAddr s d a)

/-! ### Slots -/

/-- Is slot `k` of task `t` used and inside its table (R121)? -/
def slotIn (t : LiveTask) (k : Nat) : Bool := tkSlot t.words k < t.tdtCount

/-- Address of the descriptor that slot `k` names (R118). -/
def slotAddr (t : LiveTask) (k : Nat) : Nat := t.tdt + 96 * tkSlot t.words k

/-- The ranges of the tensor descriptors that a task's slots name. -/
def tdRanges (t : LiveTask) : List (Nat × Nat) :=
  ((List.range 5).filter (fun k => tkSlot t.words k ≠ 0xFFFF && slotIn t k)).map (fun k => (slotAddr t k, 96))

/-- The five tensor descriptors that a task's slots name, read at the written addresses. -/
def readTds (s : State) (d : Nat) (t : LiveTask) : List (Option Nat) :=
  (List.range 5).map (fun k =>
    if tkSlot t.words k = 0xFFFF ∨ !slotIn t k then none else some (loadDie s d (slotAddr t k) 96))

/-- The descriptor of a slot, 0 for none. -/
def tdAt (tds : List (Option Nat)) (k : Nat) : Nat := (tds.getD k none).getD 0

/-- The MXCFG of a matrix task; pass-1 and pass-2 VXCFG, VXROW and VXSCAL of a vector task (R119). -/
def cfgMx (w : Nat) : Nat := bits (tkCfg w) 0 128
/-- Pass-1 VXCFG. -/
def cfgV1 (w : Nat) : Nat := bits (tkCfg w) 0 128
/-- Pass-2 VXCFG. -/
def cfgV2 (w : Nat) : Nat := bits (tkCfg w) 128 128
/-- VXROW. -/
def cfgRow (w : Nat) : Nat := bits (tkCfg w) 256 128
/-- VXSCAL. -/
def cfgScal (w : Nat) : Nat := bits (tkCfg w) 384 64

/-- Which slots must be used; the others must not (R118). -/
def slotNeeds (w : Nat) : List Bool :=
  if tkType w = 0 then
    let c := cfgMx w
    [true, mxSrc c = 0, mxPreload c ≠ 0, true, false]
  else
    let a := cfgV1 w
    let b := cfgV2 w
    [true, vxYEn a = 1, vxRowIn a ≠ 0, vxStoreEn a = 1 || vxStoreEn b = 1, vxRowOut a ≠ 0]

/-- The format that the configuration gives each slot (R121). -/
def slotFmts (w : Nat) : List Nat :=
  if tkType w = 0 then
    let c := cfgMx w
    [mxFmtA c, mxFmtB c, mxFmtPre c, mxFmtOut c, 0]
  else
    let a := cfgV1 w
    [vxFmtX a, vxFmtY a, vxFmtRow a, vxFmtOut (vxLast a (cfgV2 w)), vxFmtRow a]

/-- Base and length in bytes of the write box of store slot 3 or 4. -/
def slotBox (w k : Nat) : Nat × Nat :=
  if k = 3 then (tkBox0Base w, 32 * tkBox0Len w) else (tkBox1Base w, 32 * tkBox1Len w)

/-- Does a store slot use ordered add? -/
def usesAdd (tds : List (Option Nat)) : Bool :=
  [3, 4].any (fun k => match tds.getD k none with | some td => tdStMode td = 1 | none => false)

/-- The read regions of a task (R126): footprints of its load descriptors with their index vectors. -/
def readRegions (tds : List (Option Nat)) : List (Nat × Nat) :=
  (tds.take 3).flatMap (fun o => match o with
    | some td => (footprint td :: idxFootprint td).map toRange
    | none => [])

/-- The write regions of a task (R126): the boxes of its used store slots. -/
def writeRegions (w : Nat) : List (Nat × Nat) :=
  [3, 4].filterMap (fun k => if tkSlot w k = 0xFFFF then none else some (slotBox w k))

/-! ### Checks -/

/-- The rows of R121 on the descriptor itself: reserved fields, type, index order, slots and boxes. -/
def taskShapeOk (t : LiveTask) : Bool :=
  let w := t.words
  tkResv0 w = 0 && tkResv1 w = 0 && tkResv2 w = 0 && tkResv3 w = 0 && tkResv4 w = 0 && tkResv5 w = 0 &&
  tkType w ≤ 1 && !t.late &&
  (List.range 5).all (fun k =>
    let used := tkSlot w k != 0xFFFF
    (!used || slotIn t k) && used == (slotNeeds w).getD k false) &&
  [3, 4].all (fun k =>
    let (b, n) := slotBox w k
    if tkSlot w k = 0xFFFF then b = 0 && n = 0 else 32 ≤ n && b % 32 = 0)

/-- The configuration rows of R121 (R66, R76, R119). -/
def taskCfgOk (w : Nat) (tds : List (Option Nat)) : Bool :=
  if tkType w = 0 then
    let (m, n) := mxBox (tdAt tds 3)
    bits (tkCfg w) 128 320 = 0 && mxValid (cfgMx w) m n
  else
    vxValid (cfgV1 w) (cfgV2 w) (cfgRow w)

/-- Regions read and regions written are identical with equal formats, or disjoint, for a vector task
(R76); a task's store footprints are disjoint (R105). -/
def taskRegionsOk (w : Nat) (tds : List (Option Nat)) : Bool :=
  let fp (k : Nat) : Option (Int × Int) := (tds.getD k none).map footprint
  let clash (i j : Nat) : Bool := match fp i, fp j with
    | some a, some b => rangesMeet a b
    | _, _ => false
  !clash 3 4 &&
  (tkType w = 0 || [0, 1, 2].all (fun i => [3, 4].all (fun j =>
    !clash i j || (fp i == fp j && tdFmt (tdAt tds i) == tdFmt (tdAt tds j)))))

/-- Does the task pass R121? -/
def taskValid (t : LiveTask) (tds : List (Option Nat)) : Bool :=
  taskShapeOk t &&
  (List.range 5).all (fun k => match tds.getD k none with
    | none => true
    | some td => tdValid (k ≥ 3) (slotAddr t k) td && tdFmt td == (slotFmts t.words).getD k 0) &&
  taskCfgOk t.words tds && taskRegionsOk t.words tds

/-- Does the byte range lie in the windows of the job (R111, R165)? In Paired form the written, West-form
range is compared, and the copy that the die uses must reach memory. -/
def rangeInWindows (s : State) (d job : Nat) (r : Int × Int) : Bool :=
  0 ≤ r.1 && inWindows s job (dieAddr s d r.1.toNat) (r.2 - r.1).toNat

/-- Do the footprints and the index vectors of the task lie in its job's windows? -/
def taskWindowsOk (s : State) (d job : Nat) (tds : List (Option Nat)) : Bool :=
  tds.all (fun o => match o with
    | some td => (footprint td :: idxFootprint td).all (rangeInWindows s d job)
    | none => true)

/-! ### Results -/

/-- What a task comes to: stored bytes by slot, dropped and clamped writes, clamped index entries,
census classes by format, and the classes that the promotion latch looks at. -/
structure TaskOut where
  stores  : List (Map Byte) := []
  drops   : Nat := 0
  clamps  : Nat := 0
  idx     : Nat := 0
  classes : List (Nat × List Cls) := []
  deriving DecidableEq, Repr

/-- A matrix task (R48 to R67). -/
def runMatrix (rd : View) (w seed : Nat) (tds : List (Option Nat)) : TaskOut :=
  let c := cfgMx w
  let (ta, tb, tp, tO) := (tdAt tds 0, tdAt tds 1, tdAt tds 2, tdAt tds 3)
  let (lo, n) := slotBox w 3
  let o := commit rd tO (mxRmode c) seed lo n (mxPuts rd c ta tb tp tO)
  { stores := [o.bytes], drops := o.drops, clamps := o.clamps
    idx := mxClamps rd c ta tb tp tO
    classes := if mxDst c = 0 then [(mxFmtOut c, o.cls)] else [] }

/-- A vector task (R70 to R87). Every load of the task reads memory as before its stores, those of its earlier
rows too (assumption 111). The pass 2 that replays a row reads its index entries again (assumption 134). -/
def runVector (rd : View) (w seed : Nat) (tds : List (Option Nat)) : TaskOut :=
  let a := cfgV1 w
  let b := cfgV2 w
  let l := vxLast a b
  let (tx, ty, tr) := (tdAt tds 0, tdAt tds 1, tdAt tds 2)
  let src : VxIn := ⟨unpack rd tx, unpack rd ty, unpack rd tr⟩
  let (p3, p4) := vxRun a b (cfgRow w) (cfgScal w) src
  let slot (k : Nat) (ps : List Put) : StoreOut := match tds.getD k none with
    | some td => let (lo, n) := slotBox w k; commit rd td (vxRmode l) seed lo n ps
    | none => {}
  let o3 := slot 3 p3
  let o4 := slot 4 p4
  let streams := loadClamps rd tx (vxStream a) ++ (if vxYEn a = 1 then loadClamps rd ty (vxStream a) else [])
  let rows := if vxRowIn a = 0 then [] else loadClamps rd tr (vxStateIx a (vxRowIn a))
  let out (k : Nat) (ps : List Put) : List Nat := match tds.getD k none with
    | some td => putClamps rd td ps
    | none => []
  let puts := out 3 p3 ++ out 4 p4
  { stores := [o3.bytes, o4.bytes], drops := o3.drops + o4.drops, clamps := o3.clamps + o4.clamps
    idx := if vxPass a = 1 then passClamps (rows ++ streams) + passClamps (streams ++ puts)
      else passClamps (rows ++ streams ++ puts)
    classes := [(vxFmtOut l, o3.cls), (vxFmtRow a, o4.cls)] }

/-! ### The pieces of an OPT phase -/

/-- The constants of a layer's step (R156), of its entry, the learning rate and the decay powers after
this step's multiplication. -/
def stepConst (ly lr b1t b2t : Nat) : StepConst :=
  let rcp (x : Nat) : Nat := fdiv f32one x
  let lrl := fmul lr (lyLrScale ly)
  { c1 := rcp (fsub f32one b1t)
    c2 := rcp (fsub f32one b2t)
    lrs := toF32 (vscale (f32v lrl) (sx8 (lyLrExp ly)))
    lrwd := fmul lrl (lyWd ly) }

/-- Address of element `i` of the gradient's significands, and of its block exponent (R152). -/
def gradAt (base i : Nat) : Nat × Nat :=
  let c := base + i / 1024 * 2112
  (c + 64 + 2 * (i % 1024), c + i % 1024 / 32)

/-- An updated element: master, moments and the value of the new master (R157). -/
structure OptEl where
  w  : Nat
  m  : Nat
  v  : Nat
  cm : Cls
  cv : Cls
  deriving DecidableEq, Repr

/-- Tensor ID of the conversion `c` of an OPT phase (R302). -/
def optTensor (layer c step : Nat) : Nat := layer * 2 ^ 20 + c * 2 ^ 18 + step % 2 ^ 18

/-- One element of an OPT block (R157). A gradient of significand 0x8000 under E = 254 decodes to -2^128, which F32 does
not hold: it is rounded to minus infinity (DESIGN CHOICE, assumption 148). -/
def optElement (rd : View) (ob ly : Nat) (k : StepConst) (seed layer step i : Nat) : OptEl :=
  let f := lyMomFmt ly
  let e := elBytes f
  let st (c fmt : Nat) (v : Val) : Nat × Cls :=
    elConv fmt (rmodeOf (lyRmode ly) seed (optTensor layer c step) i) v
  let (ga, gx) := gradAt (obGrad ob) i
  let g := toF32 (w16Decode (rd gx).toNat (viewLe rd ga 2))
  let w := toF32 (f32v (viewLe rd (obMaster ob + 4 * i) 4))
  let ld (base : Nat) (x : Int) : Nat := toF32 (vscale (elDecode f (viewLe rd (base + e * i) e) 127) (-x))
  let m := ld (obMomM ob) (sx8 (lyMExp ly))
  let v := ld (obMomV ob) (sx8 (lyVExp ly))
  let m := ffma (lyBeta1 ly) m (fmul (fsub f32one (lyBeta1 ly)) g)
  let v := ffma (lyBeta2 ly) v (fmul (fmul (fsub f32one (lyBeta2 ly)) g) g)
  let den := fadd (toF32 (vsqrt (f32v (fmul v k.c2)))) (lyEps ly)
  let u := fmul (fmul m k.c1) (fdiv f32one den)
  let (ub, _) := st 3 (lyUpdFmt ly) (f32v (fmul u k.lrs))
  let w := if bits (lyWd ly) 0 31 = 0 then w
    else toF32 (vsum [f32v w, vneg (vmul (f32v w) (f32v k.lrwd))])
  let w := toF32 (vsum [f32v w, vneg (vscale (elDecode (lyUpdFmt ly) ub 127) (-(sx8 (lyLrExp ly))))])
  let (mp, cm) := st 0 f (vscale (f32v m) (sx8 (lyMExp ly)))
  let (vp, cv) := st 1 f (vscale (f32v v) (sx8 (lyVExp ly)))
  ⟨w, mp, vp, cm, cv⟩

/-- Elements of piece `n` of an OPT phase (R158). -/
def pieceRange (ob n : Nat) : List Nat :=
  (List.range (min 16384 (obElems ob - 16384 * n))).map (· + 16384 * n)


/-- The working copy of a run of elements (R155, R157): bytes written and classes. -/
def optCopy (ob ly seed layer step : Nat) (els : List (Nat × Nat)) : Map Byte × List Cls :=
  let f := lyWcFmt ly
  let rm (i : Nat) : Rmode := rmodeOf (lyRmode ly) seed (optTensor layer 2 step) i
  if obWcopy ob = 0 then ([], [])
  else if isB32 f then
    (List.range (cdiv els.length 32)).foldl (fun (m, cs) b =>
      let blk := (els.drop (32 * b)).take 32
      let i0 := (blk.headD (0, 0)).1
      let (sc, enc) := blockConv f (fun k => rm (i0 + k)) (blk.map (fun x => f32v x.2))
      let word := enc.foldr (fun (p, _) acc => p + acc * 2 ^ fmtBits f) 0
      let m := putBytes m (obWcopy ob + i0 / 32 * blockBytes f) (leBytes (blockBytes f) word)
      (mins m (obWcScale ob + i0 / 32) (BitVec.ofNat 8 sc), cs ++ enc.map Prod.snd)) ([], [])
  else
    els.foldl (fun (m, cs) (i, w) =>
      let (p, c) := elConv f (rm i) (f32v w)
      (putBytes m (obWcopy ob + elBytes f * i) (leBytes (elBytes f) p), cs ++ [c])) ([], [])

/-- The census class of an F32 pattern stored as it is. -/
def f32Class (p : Nat) : Cls := (floConv floF32 .nearest (f32v p)).2

/-- One piece of an OPT phase: everything it writes, with the classes under each format. The update
buffer stays in the scratchpad, so its conversions are not counted (assumption 20). -/
def runPiece (rd : View) (ob ly : Nat) (k : StepConst) (seed layer step n : Nat) : TaskOut :=
  let els := (pieceRange ob n).map (fun i => (i, optElement rd ob ly k seed layer step i))
  let e := elBytes (lyMomFmt ly)
  let m := els.foldl (fun m (i, x) =>
    let m := putBytes m (obMaster ob + 4 * i) (leBytes 4 x.w)
    let m := putBytes m (obMomM ob + e * i) (leBytes e x.m)
    putBytes m (obMomV ob + e * i) (leBytes e x.v)) []
  let (wc, cs) := optCopy ob ly seed layer step (els.map (fun (i, x) => (i, x.w)))
  let all := wc.foldl (fun m (a, b) => mins m a b) m
  { stores := [all]
    classes := [(0, els.map (fun (_, x) => f32Class x.w)),
      (lyMomFmt ly, els.map (fun (_, x) => x.cm) ++ els.map (fun (_, x) => x.cv)),
      (lyWcFmt ly, cs)] }

/-- The byte ranges of an OPT phase: master, moments, gradient and working copy. -/
def optRanges (ob ly : Nat) : List (Int × Int) :=
  let n := obElems ob
  let r (a len : Nat) : Int × Int := ((a : Int), (a : Int) + len)
  let e := elBytes (lyMomFmt ly)
  let f := lyWcFmt ly
  [r (obMaster ob) (4 * n), r (obMomM ob) (e * n), r (obMomV ob) (e * n),
   r (obGrad ob) (n / 1024 * 2112)] ++
  (if obWcopy ob = 0 then []
   else if isB32 f then [r (obWcopy ob) (n / 32 * blockBytes f), r (obWcScale ob) (n / 32)]
   else [r (obWcopy ob) (elBytes f * n)])

/-- What piece `n` of an OPT phase reads, and what it writes (R126, R157, R158). -/
def pieceRegions (ob ly n : Nat) : List (Nat × Nat) × List (Nat × Nat) :=
  let i := 16384 * n
  let k := (pieceRange ob n).length
  let e := elBytes (lyMomFmt ly)
  let f := lyWcFmt ly
  let state := [(obMaster ob + 4 * i, 4 * k), (obMomM ob + e * i, e * k), (obMomV ob + e * i, e * k)]
  let copy :=
    if obWcopy ob = 0 then []
    else if isB32 f then
      [(obWcopy ob + i / 32 * blockBytes f, k / 32 * blockBytes f), (obWcScale ob + i / 32, k / 32)]
    else [(obWcopy ob + elBytes f * i, elBytes f * k)]
  (state ++ [(obGrad ob + i / 1024 * 2112, k / 1024 * 2112)], state ++ copy)

/-! ### Census (R61, R88, R89) -/

/-- One counter of a census entry, at bit `lo` with `w` bits, after `k` updates: the entry and whether it
reached or stood at all ones. -/
def censusAdd (e lo w k : Nat) : Nat × Bool :=
  let v := satAdd w (bits e lo w) k
  (setBits e lo w v, k ≠ 0 && v = 2 ^ w - 1)

/-- Counting written elements of a layer and format on a die. -/
def countCensus (s : State) (d layer fmt : Nat) (cs : List Cls) : State :=
  if cs.isEmpty then s
  else
    let key := d * 65536 + layer * 16 + fmt
    let n (c : Cls) : Nat := cs.countP (· == c)
    let e := mget 0 s.census key
    let (e, s0) := censusAdd e 0 64 cs.length
    let (e, s1) := censusAdd e 64 48 (n .overflowed)
    let (e, s2) := censusAdd e 112 48 (n .vanished)
    let (e, s3) := censusAdd e 160 48 (n .subnormal)
    let (e, s4) := censusAdd e 208 48 (n .nan)
    let s := { s with census := mset 0 s.census key e }
    if s0 || s1 || s2 || s3 || s4 then wg s (dcSlot d) censusStatusSat 1 else s

/-! ### Sectors in error (R171, R180) -/

/-- What a request for a byte of a sector reads: its granule by the main path, the sector by the narrow one. -/
def pathSpan (narrow : Bool) (a : Nat) : Nat × Nat := if narrow then (a, 32) else (a / 256 * 256, 256)

/-- Does a task read the sector at `a`: by a load, through any index vector, or as the destination of an
ordered add? -/
def slotsTouch (rd : View) (tds : List (Option Nat)) (narrow : List Bool) (adder : Bool) (a : Nat) : Bool :=
  (List.range 5).any (fun k => match tds.getD k none with
    | none => false
    | some td =>
      let x := pathSpan (narrow.getD k false) a
      let y := if k < 3 then x else pathSpan adder a
      idxTouches td x.1 x.2 || ((k < 3 || tdStMode td = 1) && elTouches rd td y.1 y.2))

/-- The written address at which a die reaches a sector, if it does (R306). -/
def writtenAddr (s : State) (d k : Nat) : Option Nat :=
  let a := if pairedForm s && d ≥ 2 then westForm k else k
  if dieAddr s d a = k then some a else none

/-- The sectors in error that a task reads: by the main path every one of a granule it touches, by the narrow
path the sectors it touches. -/
def taskErrs (s : State) (d : Nat) (r : RunTask) : List (Nat × Nat) :=
  s.errs.filter (fun (k, _) => match writtenAddr s d k with
    | none => false
    | some a => slotsTouch (dieView s d) r.tds r.narrow r.adder a)

/-- The sectors in error in the granules of some ranges. -/
def rangeErrs (s : State) (d : Nat) (rs : List (Nat × Nat)) : List (Nat × Nat) :=
  s.errs.filter (fun (k, _) => match writtenAddr s d k with
    | none => false
    | some a => rs.any (fun r => meet r.1 r.2 (a / 256 * 256) 256))

/-! ### Writing and the digest -/

/-- The bytes of a byte map, sector by sector. -/
def sectorWrites (m : Map Byte) : List (List (Nat × Byte)) :=
  m.foldr (fun (a, b) acc =>
    match acc with
    | ((c, x) :: r) :: rest =>
      if sectorOf a = sectorOf c then ((a, b) :: (c, x) :: r) :: rest else [(a, b)] :: acc
    | _ => [(a, b)] :: acc) []

/-- A die writes bytes of one sector at their written addresses, where they reach memory (R306, R171). -/
def storeMaskedDie (s : State) (d : Nat) (ps : List (Nat × Byte)) : State :=
  let ps := ps.map (fun (a, b) => (dieAddr s d a, b))
  if ps.all (fun (a, _) => allReach s a 1) then storeVia s (.die d) ps else s

/-- A die writes a map of bytes at the written addresses, sector by sector. -/
def writeMap (s : State) (d : Nat) (m : Map Byte) : State :=
  forEach (sectorWrites m) s (fun s ps => storeMaskedDie s d ps)

/-- PAIR_KEY as a number (R308). -/
def pairKeyOf (s : State) : Nat :=
  ((List.range 4).map (fun n => rg s solSlot (pairKey n) * 2 ^ (32 * n))).sum

/-- The hashed message of one sector: its address, byte mask and bytes (R308). -/
def sectorMsg (sector : Nat) (m : Map Byte) : List Byte :=
  let mine (k : Nat) : Option Byte := (m.find? (fun e => e.1 = sector + k)).map Prod.snd
  let mask := ((List.range 32).map (fun k => if (mine k).isSome then 2 ^ k else 0)).sum
  leBytes 8 sector ++ leBytes 4 mask ++ (List.range 32).map (fun k => (mine k).getD 0)

/-- The sum of the hashes of one unit's written sectors (R308). -/
def unitDigest (key : Nat) (m : Map Byte) : Nat :=
  let sectors := (m.map (fun e => sectorOf e.1)).eraseDups
  (sectors.map (fun a => sipHash128 key (sectorMsg a m))).sum % 2 ^ 128

/-- Are digests formed on the die (R308, R315)? -/
def digestsOn (s : State) (d : Nat) : Bool := isPaired s || rgB s (seqSlot d) digCtlDigEn

/-- The digest of a list of units, 0 where digests are not formed. -/
def digestOf (s : State) (d : Nat) (units : List (Map Byte)) : Nat :=
  if digestsOn s d then (units.map (unitDigest (pairKeyOf s))).sum % 2 ^ 128 else 0

/-- Does the task's result set its phase's latch (R148): an overflowed final output, or with TRIG 0b10 a
NaN? -/
def setsLatch (trig : Nat) (o : TaskOut) : Bool :=
  o.classes.any (fun (_, cs) => cs.any (fun c => c == .overflowed || (trig = 2 && c == .nan)))

end Sys2Proof.Machine
end

