-- ==== Sys2Proof/Machine/SeqCore.lean ====
section
/-!
DEFINITION. The training sequencer (R135 to R159) with the comparison of Paired mode (R306 to R311):
the start with a job block, reading and checking phases, choosing the next one, dispatching its tasks,
promotion replay, posting, completion, the gradient counters and the end of a step.
-/

namespace Sys2Proof.Machine

/-! ### Mirror dies -/

/-- The mirror die (R306). -/
def mirrorDie (d : Nat) : Nat := (d + 2) % 4

/-- Does the die's sequencer post queue descriptors (R307)? -/
def isPrimaryDie (s : State) (d : Nat) : Bool :=
  !isPaired s || lobeOf d = rg s solSlot lobeModePrimary

/-- The die whose receives count for die `d` (R280, R307): the posting die of its mirror pair. -/
def recvDie (s : State) (d : Nat) : Nat := if isPrimaryDie s d then d else mirrorDie d

/-! ### Layer entries -/

/-- Address of a layer entry (R147). -/
def layerAddr (s : State) (d l : Nat) : Nat := (seqOf s d).layerBase + 64 * l
/-- A layer entry as the die reads it. -/
def readLayer (s : State) (d l : Nat) : Nat := loadDie s d (layerAddr s d l) 64

/-- Is the ACC block valid on its own (R151)? -/
def accValid (a : Nat) : Bool :=
  acResv a = 0 && acLeaf a % 4 = 0 && acBuf a % 64 = 0 && 1 ≤ acElems a && acElems a % 1024 = 0 &&
  acKLog2 a ≤ 16 && acShard a < 2 ^ acKLog2 a

/-- Are the OPT block and its layer entry valid (R140)? -/
def optValid (ob ly : Nat) : Bool :=
  let f := lyWcFmt ly
  obResv ob = 0 && 1 ≤ obElems ob && obElems ob % 1024 = 0 && obMaster ob % 4 = 0 &&
  obMomM ob % 2 = 0 && obMomV ob % 2 = 0 && obGrad ob % 64 = 0 && f ≤ 9 &&
  (if isB32 f then obWcopy ob % 8 = 0 && (obWcopy ob ≠ 0 || obWcScale ob = 0)
   else obWcopy ob % elBytes f = 0 && obWcScale ob = 0) &&
  lyResv0 ly = 0 && lyResv1 ly = 0 && lyResv2 ly = 0 && lyUpdFmt ly ≤ 2 &&
  (lyMomFmt ly = 1 || lyMomFmt ly = 2) && lyRmode ly ≠ 3 && lyLrExp ly ≠ 128 && lyLrExp ly ≠ 129

/-- Is a layer entry accepted at the start of a phase of any type: its reserved fields are zero, and no field
holds a reserved FMT code (R8, R30, assumption 122)? -/
def layerOk (ly : Nat) : Bool :=
  lyResv0 ly = 0 && lyResv1 ly = 0 && lyResv2 ly = 0 &&
  (lyUpdFmt ly :: lyMomFmt ly :: lyWcFmt ly :: (List.range 5).map (lyRung ly)).all (fun f => f ≤ 0xC)

/-! ### Reading and checking phases (R138, R140) -/

/-- The descriptor of a phase: as read in this step, else as memory holds it now. -/
def descOf (s : State) (d ph : Nat) : Nat :=
  let p := phaseOf s d ph
  if p.stage = .unread then loadDie s d (phaseAddr s d ph) 64 else p.desc

/-- A DEP of a phase: die and phase, none for 0xFFFF. -/
def depsOf (w : Nat) : List (Nat × Nat) :=
  (if phDep0 w = 0xFFFF then [] else [(phDep0Die w, phDep0 w)]) ++
  (if phDep1 w = 0xFFFF then [] else [(phDep1Die w, phDep1 w)])

/-- The rows of R140 that are checked when the descriptor is read, but for DEPs on other dies. -/
def phaseShapeOk (s : State) (d ph w : Nat) : Bool :=
  let ty := phType w
  phResv w = 0 && 1 ≤ ty && ty ≤ 6 &&
  (depsOf w).all (fun (x, i) => x ≠ d || i < ph) &&
  (!(ty = 1 || ty = 2) ||
    (1 ≤ phCount0 w && phAddr0 w % 128 = 0 && phAddr1 w % 32 = 0 && phTaskVs w % 128 = 0 &&
     phTdtVs w % 32 = 0 && (phPromote w = 0 || lyTrig (readLayer s d (phLayer w)) ≠ 0))) &&
  (ty ≠ 3 || (List.range (phCount1 w)).all (fun k =>
    let i := phCount0 w + k
    let x := descOf s d i
    i < ph && phType x = 1 && phMb x = phMb w)) &&
  (phAux w = 0 || (ty = 2 && accValid (loadDie s d (phAux w) 32))) &&
  (ty ≠ 6 || phMb w = 0xFFF)

/-- DEPs on another die (R140): the check waits until that die's sequencer runs a job block. -/
def crossDeps (d w : Nat) : List (Nat × Nat) := (depsOf w).filter (fun x => x.1 ≠ d)

/-- Does a cross-die DEP break R140? -/
def crossBad (s : State) (d : Nat) (x : Nat × Nat) : Bool :=
  seqRunning s x.1 && (x.2 ≥ (seqOf s x.1).progCount || (seqOf s x.1).job ≠ (seqOf s d).job)

/-- The cross-die DEPs of a phase that have not been checked. -/
def unchecked (d : Nat) (p : Phase) : List (Nat × Nat) :=
  (crossDeps d p.desc).filter (fun x => !p.checked.contains x)

/-- A phase is found malformed: STATUS, SEQ_MALFORMED, and the sequencer stops (R140, R141). -/
def endMalformed (s : State) (d ph : Nat) : State :=
  seqEvent (noteStop (endPhase s d ph 6) d .failed) d srcSeqMalformed

/-- What the sequencer reads to examine a phase whose descriptor is `w`: the descriptor, the layer entry where a
promotion is armed, the ACC block, and the descriptors of replayed phases that have not been read (R140). -/
def examineReads (s : State) (d ph w : Nat) : List (Nat × Nat) :=
  let ty := phType w
  [(phaseAddr s d ph, 64)] ++
  (if (ty = 1 ∨ ty = 2) ∧ phPromote w ≠ 0 then [(layerAddr s d (phLayer w), 64)] else []) ++
  (if ty = 2 ∧ phAux w ≠ 0 then [(phAux w, 32)] else []) ++
  (if ty = 3 then ((List.range (phCount1 w)).map (phCount0 w + ·)).filterMap (fun i =>
    if (phaseOf s d i).stage = .unread then some (phaseAddr s d i, 64) else none) else [])

/-- The sequencer reads a phase's descriptor and what it needs to check it, once they can be read: until then the
phase stays unread (R138, R191). -/
def readPhase (s : State) (d ph : Nat) : State :=
  let w := loadDie s d (phaseAddr s d ph) 64
  if waitsDie s d [(phaseAddr s d ph, 64)] ∨ waitsDie s d (examineReads s d ph w) then s
  else
    let acc := if phType w = 2 ∧ phAux w ≠ 0 then loadDie s d (phAux w) 32 else 0
    updPhase (checkDie s d (examineReads s d ph w)) d ph (fun p => { p with desc := w, acc := acc, stage := .read })

/-- The sequencer examines a phase: it reads its descriptor once in the step, checks each DEP on another die
once that die's sequencer runs, and ends the phase at once where it is malformed. -/
def examine (s : State) (d ph : Nat) : State :=
  let p := phaseOf s d ph
  let s := if p.stage = .unread then readPhase s d ph else s
  let q := phaseOf s d ph
  if q.stage ≠ .read then s
  else if (p.stage = .unread ∧ !phaseShapeOk s d ph q.desc) ∨ (unchecked d q).any (crossBad s d) then
    endMalformed s d ph
  else
    let now := (unchecked d q).filter (fun x => seqRunning s x.1)
    updPhase s d ph (fun p => { p with checked := p.checked ++ now })

/-! ### Choosing the next phase (R143, R144) -/

/-- Does a phase count as complete for the place of the window (R144)? -/
def leavesWindow (p : Phase) : Bool :=
  p.stage = .complete || (isStarted p && (phType p.desc = 4 || phType p.desc = 5))

/-- Indices of the program. -/
def phases (s : State) (d : Nat) : List Nat := List.range (seqOf s d).progCount

/-- The window (R144). -/
def windowOf (s : State) (d : Nat) : List Nat :=
  match (phases s d).find? (fun i => !leavesWindow (phaseOf s d i)) with
  | none => []
  | some o => (phases s d).filter (fun i => o ≤ i && i < o + rg s (seqSlot d) seqCtlWindow)

/-- Has the phase not started? -/
def notStarted (p : Phase) : Bool := p.stage = .unread || p.stage = .read

/-- The next 64 phases that have not started (R144). -/
def lookAhead (s : State) (d : Nat) : List Nat :=
  ((phases s d).filter (fun i => notStarted (phaseOf s d i))).take 64

/-- Does the counter of a layer hold its root (R153)? -/
def hasRoot (s : State) (d l : Nat) : Bool :=
  match (seqOf s d).counters.find? (fun x => x.1 = l) with
  | some (_, c) => c.next = 2 ^ c.kLog2
  | none => false

/-- Is a DEP met (R143)? -/
def depMet (s : State) (d : Nat) (x : Nat × Nat) : Bool :=
  if x.1 = d then (phaseOf s d x.2).stage = .complete
  else
    let step (e : Nat) : Nat := rg s (seqSlot e) seqStep
    step x.1 > step d || mget 0 (die s x.1).told (4 * x.2 + d) = step d + 1

/-- Is the phase ready (R143, R153)? The receives of WAIT_Q in the step are its count less the count at the step's
begin, modulo 2^32; where the queue has been enabled again within the step, so that it counts from 0, the spec states
no count, and the difference is taken as it stands (DESIGN CHOICE, assumption 141). -/
def isReady (s : State) (d ph : Nat) : Bool :=
  let p := phaseOf s d ph
  let w := p.desc
  p.stage = .read && (unchecked d p).isEmpty &&
  (depsOf w).all (depMet s d) &&
  (phWaitEn w = 0 ||
    (let q := phWaitQ w
     let n := mget 0 (cqOf s q).recv (recvDie s d)
     (n + 2 ^ 32 - mget 0 (seqOf s d).recvBase q) % 2 ^ 32 ≥ phWaitCount w)) &&
  (phMb w = 0xFFF || (List.range ph).all (fun i =>
    (phaseOf s d i).stage = .complete || phMb (descOf s d i) ≠ phMb w)) &&
  (startedPhases s d).length < 8 &&
  (phType w ≠ 5 || hasRoot s d (phLayer w))

/-- The sequencer examines what it looks at, and picks the phase to start, if any. -/
def chooseFrom (s : State) (d : Nat) (cands : List Nat) (ok : State → Nat → Bool) : State × Option Nat :=
  let s := forEach cands s (fun s i => examine s d i)
  (s, if (seqOf s d).stop.isSome then none else cands.find? (fun i => isReady s d i && ok s i))

/-- The next phase of R144. -/
def choosePhase (s : State) (d : Nat) : State × Option Nat :=
  let first := ((phases s d).find? (fun i => notStarted (phaseOf s d i))).getD 0
  let (s, r) := chooseFrom s d (windowOf s d) (fun s i => i = first || phMb (phaseOf s d i).desc ≠ 0xFFF)
  match r with
  | some i => (s, some i)
  | none =>
    if (seqOf s d).stop.isSome then (s, none)
    else chooseFrom s d (lookAhead s d) (fun s i => phType (phaseOf s d i).desc = 4)

/-! ### Digest and comparison (R308, R309) -/

/-- The posted descriptors of a phase as the die reads them, STATUS zeroed. -/
def postBytes (s : State) (d w : Nat) : List Byte :=
  (List.range (phPostN w)).flatMap (fun k =>
    let x := loadDie s d (phPostList w + 64 * k) 64
    leBytes 64 (x / 2 ^ 64 * 2 ^ 64))

/-- CODE of a phase whose own work is done. -/
def doneCode (p : Phase) : Nat := if p.skipped then 5 else if p.drops = 0 then 1 else 2

/-- The mirror status word (R309). -/
def mirrorWord (s : State) (d ph : Nat) : Nat :=
  let p := phaseOf s d ph
  let hash := if phPostN p.desc = 0 then 0 else leNat ((sha512 (postBytes s d p.desc)).take 8)
  hash * 2 ^ 64 + ph * 2 ^ 48 + min p.drops (2 ^ 24 - 1) * 2 ^ 24 + doneCode p * 2 ^ 20 + p.rung * 2 ^ 17

/-- What a die sends its mirror about a phase: digest and status word. -/
def mirrorValue (s : State) (d ph : Nat) : Nat := (phaseOf s d ph).digest * 2 ^ 128 + mirrorWord s d ph

/-- RUN_DIG of a die as a number. -/
def runDigest (s : State) (d : Nat) : Nat :=
  ((List.range 4).map (fun n => rg s (seqSlot d) (runDig n) * 2 ^ (32 * n))).sum

/-- Setting it. -/
def setRunDigest (s : State) (d v : Nat) : State :=
  forEach (List.range 4) s (fun s n => wg s (seqSlot d) (runDig n) (bits v (32 * n) 32))

/-! ### A job that is held (R310) -/

/-- Is the job of a die held, while a mismatch that stays waits for lobe self-test or is under it? -/
def jobHeld (s : State) (d : Nat) : Bool :=
  s.pairTest ≠ .idle && (stuckDies s).any (fun e => (seqOf s e).job = (seqOf s d).job)

/-! ### Posting (R139, R271) -/

/-- The sequencer posts a phase's descriptors in list order, as far as they can be read and the queues have room; a
failed phase ends with the last. `n` bounds their number. -/
def postList : Nat → State → Nat → Nat → State
  | 0, s, _, _ => s
  | n + 1, s, d, ph =>
    let p := phaseOf s d ph
    if !isStarted p ∨ jobHeld s d then s
    else if p.postNext ≥ phPostN p.desc then endFailed s d ph
    else
      let a := phPostList p.desc + 64 * p.postNext
      let w := loadDie s d a 64
      let q := qdQueue w
      if waitsDie s d [(a, 64)] ∨ (cqOf s q).state = 1 ∧ !queueRoom s q then s
      else
        let s := checkDie s d [(a, 64)]
        let s := updPhase s d ph (fun p => { p with postNext := p.postNext + 1 })
        let (s, r) := postOp s q w (.seq d ph a)
        let s := match r with
          | some id => updPhase s d ph (fun p => { p with ops := p.ops ++ [(q, id)] })
          | none => s
        postList n s d ph

/-- A phase starts posting: the mirror's sequencer posts nothing (R307). -/
def startPosting (s : State) (d ph : Nat) : State :=
  let s := updPhase s d ph (fun p => { p with stage := .posting })
  if isPrimaryDie s d then postList 32 s d ph
  else updPhase s d ph (fun p => { p with postNext := phPostN p.desc })

/-- Phases that wait for room in a queue go on posting. -/
def postWaiting (s : State) : State :=
  forEach (List.range 4) s (fun s d =>
    forEach (startedPhases s d) s (fun s ph =>
      if (phaseOf s d ph).stage = .posting then postList 32 s d ph else s))

/-- The phase goes on after the comparison of R309: the types that post after their work post now, the
others are complete but for their STATUS. -/
def goOn (s : State) (d ph : Nat) : State :=
  let ty := phType (phaseOf s d ph).desc
  if ty = 1 ∨ ty = 2 ∨ ty = 6 then startPosting s d ph
  else updPhase s d ph (fun p => { p with
      stage := .posting, unchecked := true, postNext := phPostN p.desc })

/-- Does the phase wait for its mirror when its own work is done? -/
def isCompared (s : State) (d ph : Nat) : Bool := isPaired s && !(phaseOf s d ph).unchecked

/-- A phase has done its own work (R309). -/
def workDone (s : State) (d ph : Nat) : State :=
  if isCompared s d ph then updPhase s d ph (fun p => { p with stage := .exchange })
  else goOn s d ph

/-! ### Starting a phase -/

/-- The first OPT phase of a layer in the step forms the step constants and writes B1T and B2T back
(R156). -/
def formConst (s : State) (d l ly : Nat) : State :=
  if ((seqOf s d).consts.find? (fun x => x.1 = l)).isSome then s
  else
    let q := seqOf s d
    let b1 := fmul (lyB1t ly) (lyBeta1 ly)
    let b2 := fmul (lyB2t ly) (lyBeta2 ly)
    let lr := loadDie s d (q.lrBase + 4 * min (rg s (seqSlot d) seqStep) (q.lrCount - 1)) 4
    let a := layerAddr s d l
    let s := storeDie (storeDie s d (a + 40) (leBytes 4 b1)) d (a + 36) (leBytes 4 b2)
    updSeq s d (fun q => { q with consts := mins q.consts l (stepConst ly lr b1 b2) })

/-- Brings a phase on after one of its tasks has ended, or at its start: a RECOMP goes to its next replayed
phase, a failed phase ends with its last task, a phase without armed promotion has done its work. -/
def afterTask (s : State) (d ph : Nat) : State :=
  let s := nextReplay (phCount1 (phaseOf s d ph).desc) s d ph
  let p := phaseOf s d ph
  if p.failed then endFailed s d ph
  else if !attemptEnded s d ph ∨ awaitsCommit p then s
  else workDone s d ph

/-- A RECOMP starts: it reads the descriptors of the phases that it replays, or is skipped (R138, R146); in
Paired mode a skipped one is compared too (R309, R411). -/
def startRecomp (s : State) (d ph : Nat) : State :=
  let w := (phaseOf s d ph).desc
  if !rgB s (seqSlot d) seqCtlRecompEn then
    let s := updPhase s d ph (fun p => { p with skipped := true })
    if isCompared s d ph then workDone s d ph else endPhase s d ph 5
  else
    let ws := (List.range (phCount1 w)).map (fun k => loadDie s d (phaseAddr s d (phCount0 w + k)) 64)
    afterTask (updPhase s d ph (fun p => { p with sub := phCount0 w, replays := ws })) d ph

/-- What a phase reads at its start: its layer's entry; a RECOMP the descriptors of the phases that it replays; an
OPT phase its OPT block, and its learning rate where it forms the step constants (R138, R147, R156). -/
def startReads (s : State) (d ph : Nat) : List (Nat × Nat) :=
  let w := (phaseOf s d ph).desc
  let q := seqOf s d
  [(layerAddr s d (phLayer w), 64)] ++
  (if phType w = 3 ∧ rgB s (seqSlot d) seqCtlRecompEn then
    (List.range (phCount1 w)).map (fun k => (phaseAddr s d (phCount0 w + k), 64)) else []) ++
  (if phType w = 6 then [(phAddr0 w, 64)] ++
    (if (q.consts.find? (fun x => x.1 = phLayer w)).isSome then []
     else [(q.lrBase + 4 * min (rg s (seqSlot d) seqStep) (q.lrCount - 1), 4)]) else [])

/-- A ready phase starts (R139, R146, R147, R156). -/
def startPhase (s : State) (d ph : Nat) : State :=
  let w := (phaseOf s d ph).desc
  let ly := readLayer s d (phLayer w)
  let s := retire (updPhase s d ph (fun p => { p with stage := .working, entry := ly })) (seqSlot d)
  if !layerOk ly then endMalformed s d ph
  else match phType w with
  | 3 => startRecomp s d ph
  | 4 => startPosting s d ph
  | 5 =>
    let dg := (mget {} (seqOf s d).counters (phLayer w)).digest
    startPosting (updPhase s d ph (fun p => { p with digest := dg })) d ph
  | 6 =>
    let ob := loadDie s d (phAddr0 w) 64
    if !optValid ob ly then endMalformed s d ph
    else formConst (updPhase s d ph (fun p => { p with block := ob })) d (phLayer w) ly
  | _ => updPhase s d ph (fun p => { p with
      rung := lyStartPos ly, rungStart := lyStartPos ly
      promote := phPromote w = 1 && rgB s (seqSlot d) seqCtlPromoEn })

/-! ### Dispatching tasks (R126) -/

/-- The phase whose list a working phase dispatches: the replayed phase of a RECOMP. -/
def listPhase (p : Phase) (ph : Nat) : Nat := if phType p.desc = 3 then p.sub else ph

/-- The descriptor of that phase, as read by this one. -/
def listDesc (p : Phase) : Nat :=
  if phType p.desc = 3 then p.replays.getD (p.sub - phCount0 p.desc) 0 else p.desc

/-- Has the phase tasks left to dispatch? A failed phase runs its list to its end (R141). -/
def hasMore (s : State) (d ph : Nat) : Bool :=
  let p := phaseOf s d ph
  p.stage = .working && !p.latched && p.next < listCount p

/-- The phase that dispatches next: the lowest. -/
def dispatchPhase (s : State) (d : Nat) : Option Nat := (startedPhases s d).find? (hasMore s d)

/-- The next task of a phase, as read at its dispatch. -/
def nextTask (s : State) (d ph : Nat) : LiveTask :=
  let p := phaseOf s d ph
  let src := listPhase p ph
  let w := listDesc p
  let rung := if phType p.desc = 3 then (phaseOf s d src).rung else p.rung
  let a := phAddr0 w + rung * phTaskVs w + 128 * p.next
  let words := loadDie s d a 128
  let t : LiveTask :=
    { id := (die s d).nextId, phase := ph, src := src, index := tkIndex words, addr := a, words := words
      tdt := phAddr1 w + rung * phTdtVs w, tdtCount := phCount1 w, home := tkHome words, st := .held
      ordered := false
      late := match p.last with | some i => decide (tkIndex words ≤ i) | none => false }
  let tds := readTds s d t
  { t with ordered := usesAdd tds, reads := readRegions tds, writes := writeRegions words }

/-- The next piece of an OPT phase, with what it reads and writes: HOME is the piece modulo 32 (assumption
22). -/
def nextPiece (s : State) (d ph : Nat) : LiveTask :=
  let p := phaseOf s d ph
  let rs := pieceRegions p.block p.entry p.next
  { id := (die s d).nextId, phase := ph, src := ph, index := p.next, addr := phAddr0 p.desc
    words := p.block, tdt := 0, tdtCount := 0, home := p.next % 32, st := .held, ordered := true
    piece := some p.next, reads := rs.1, writes := rs.2 }

/-- A task as the dispatch check takes it: with the tasks that it depends on (R126), and under the id of the
ended task of a discarded attempt that it repeats, which held later phases and goes on to (R149). -/
def checkedTask (s : State) (d : Nat) (t : LiveTask) : LiveTask :=
  let before := (liveTasks s d).find? (fun u => u.phase = t.phase && u.st = .ended && u.index = t.index)
  { t with
    id := (before.map LiveTask.id).getD t.id
    deps := ((liveTasks s d).filter (dependsOn t)).map LiveTask.id }

/-- What the sequencer dispatches next for a phase. -/
def nextWork (s : State) (d ph : Nat) : LiveTask :=
  if phType (phaseOf s d ph).desc = 6 then nextPiece s d ph else nextTask s d ph

/-- Does the task repeat one of a discarded attempt, whose entry of the check it then takes? The spec does not say
that it needs a free one beside it (DESIGN CHOICE, assumption 142). -/
def repeatsEnded (s : State) (d ph : Nat) : Bool :=
  let t := nextWork s d ph
  (liveTasks s d).any (fun u => u.phase = t.phase && u.st = .ended && u.index = t.index)

/-- May the sequencer dispatch: the check has an entry for the task, no released task waits for room in its queue,
and the job is not held (R122, R126, R310)? -/
def mayDispatch (s : State) (d : Nat) : Bool :=
  !jobHeld s d &&
  ((liveTasks s d).length < 4096 || (dispatchPhase s d).any (repeatsEnded s d)) &&
  (liveTasks s d).all (fun t => t.st ≠ .held || isBlocked s d t)

/-- What the sequencer reads to dispatch: of a task its descriptor and the tensor descriptors that it names. -/
def dispatchReads (s : State) (d ph : Nat) : List (Nat × Nat) :=
  let t := nextWork s d ph
  if t.piece.isSome then [] else (t.addr, 128) :: tdRanges t

/-- The sequencer dispatches the next task: the dispatch check holds it, or it is enqueued. -/
def dispatchTask (s : State) (d ph : Nat) : State :=
  let t := checkedTask s d (nextWork s d ph)
  let s := updDie s d (fun x => { x with
    nextId := max x.nextId (t.id + 1)
    live := x.live.filter (fun u => u.id ≠ t.id) ++ [t] })
  let s := updPhase s d ph (fun p => { p with next := p.next + 1, last := some t.index })
  let s := retire s (seqSlot d)
  if isBlocked s d t then incr s (dcSlot d) taskHeld
  else if hasRoom s d t then enqueue s d t else s

/-! ### The end of an attempt -/

/-- A task ends without a result: MALFORMED, WINDOW or ABORTED; its phase fails (R141). -/
def endBadTask (s : State) (d : Nat) (t : LiveTask) (code : Nat) : State :=
  let s := endLive (writeTaskStatus s d t code 0) d t
  endFailed (markFailed s d t.phase) d t.phase

/-! ### Promotion replay (R148 to R150) -/

/-- SEQ_STEP of a die. -/
def stepOf (s : State) (d : Nat) : Nat := rg s (seqSlot d) seqStep

/-- Does the sequencer of die `e` come to the step of die `d`: it is in an earlier one and goes on (R150,
assumption 123)? -/
def comesTo (s : State) (d e : Nat) : Bool :=
  stepOf s e < stepOf s d && rg s (seqSlot e) seqStatusState = 1 && rgB s (seqSlot e) seqCtlLoop &&
  (seqOf s e).stop.isNone

/-- Do two descriptors belong to one promotion group, and is the second armed? -/
def sameGroup (w x : Nat) : Bool :=
  phPromote x = 1 && phLayer x = phLayer w && phMb x = phMb w && phType x = phType w

/-- The phase of die `e` that belongs to the promotion group of a phase of die `d`, if it has one: same
job, LAYER, MB and TYPE, in Paired mode the same lobe, in the same step, or in one that die `e` is still to
come to. -/
def groupMember (s : State) (d w e : Nat) : Option Nat :=
  if !seqRunning s e ∨ (seqOf s e).job ≠ (seqOf s d).job ∨ (isPaired s ∧ lobeOf e ≠ lobeOf d) then none
  else if comesTo s d e then
    if rgB s (seqSlot e) seqCtlPromoEn then
      (phases s e).find? (fun i => sameGroup w (loadDie s e (phaseAddr s e i) 64))
    else none
  else if stepOf s e ≠ stepOf s d then none
  else
    (phases s e).find? (fun i =>
      let p := phaseOf s e i
      sameGroup w (descOf s e i) &&
      (if notStarted p then rgB s (seqSlot e) seqCtlPromoEn && (seqOf s e).stop.isNone
       else isStarted p && awaitsCommit p))

/-- The members of the group of phase `ph` of die `d`: die and phase. -/
def groupOf (s : State) (d ph : Nat) : List (Nat × Nat) :=
  let w := (phaseOf s d ph).desc
  (List.range 4).filterMap (fun e =>
    if e = d then some (d, ph) else (groupMember s d w e).map (fun i => (e, i)))

/-- The value under which a die holds the latch of another one's phase: with the step that it belongs to. -/
def latchValue (latch : Bool) (step : Nat) : Nat := 1 + b2n latch + 2 * step

/-- Has a die received the latch of phase `j` of die `f` in this step? -/
def hasLatch (s : State) (e f j step : Nat) : Bool :=
  let v := mget 0 (die s e).latches (4 * j + f)
  v = latchValue false step || v = latchValue true step

/-- Has every member come to the step, ended its attempt and received the latches of the others? -/
def groupReady (s : State) (step : Nat) (g : List (Nat × Nat)) : Bool :=
  g.all (fun (e, i) => stepOf s e = step && (phaseOf s e i).latched && g.all (fun (f, j) =>
    f = e || hasLatch s e f j step))

/-- An entry of the event ring (R150). -/
def eventEntry (s : State) (d ph rTo kind : Nat) : Nat :=
  let p := phaseOf s d ph
  let w := p.desc
  rg s (seqSlot d) seqStep * 2 ^ 96 + phLayer w * 2 ^ 84 + phMb w * 2 ^ 72 + phType w * 2 ^ 68 +
  lyRung p.entry p.rung * 2 ^ 64 + lyRung p.entry rTo * 2 ^ 60 + p.rung * 2 ^ 57 + rTo * 2 ^ 54 +
  d * 2 ^ 52 + kind * 2 ^ 50

/-- The open Landom records of the jobs that a die runs are changed (R398). -/
def noteRecords (s : State) (d : Nat) (f : Record → Record) : State :=
  { s with records := s.records.map (fun (j, r) => (j, if r.isOpen && bit r.dies d then f r else r)) }

/-- EVT_LOST of a die is set, which the records note (R150, R398). -/
def setEvtLost (s : State) (d : Nat) : State :=
  noteRecords (wg s (seqSlot d) seqStatusEvtLost 1) d (fun r => { r with lost := insertCh r.lost d })

/-- An event is written into the ring; it sets EVT_LOST where it overwrites an entry that has not been
copied (R150). -/
def ringEvent (s : State) (d ph rTo kind : Nat) : State :=
  let q := seqOf s d
  let n := rg s (seqSlot d) evtHead
  let s := if n ≥ q.copied + q.evtCount then setEvtLost s d else s
  let s := storeDie s d (q.evtBase + 16 * (n % q.evtCount)) (leBytes 16 (eventEntry s d ph rTo kind))
  wg s (seqSlot d) evtHead (n + 1)

/-- A member commits its attempt, or replays it at its next rung, under the combined latch (R148, R150). The spec
states no outcome of a layer entry with LADDER_LEN outside 1 to 5, START_POS at or past it or TRIG 0b11: an attempt
at or past the last rung commits as TOP, and TRIG 0b11 latches overflow alone (DESIGN CHOICE, assumption 143). -/
def resolveMember (s : State) (d ph : Nat) (latch : Bool) : State :=
  let p := phaseOf s d ph
  if latch ∧ p.rung + 1 < lyLadderLen p.entry then
    let s := incr (ringEvent s d ph (p.rung + 1) 0) (seqSlot d) promoCount
    updPhase s d ph (fun p => { p with
      rung := p.rung + 1, next := 0, last := none, latch := false, latched := false, drops := 0
      digest := 0 })
  else
    let s := if latch then ringEvent s d ph p.rung 1 else s
    let s := dropEnded (updPhase s d ph (fun p => { p with committed := true, latched := false })) d ph
    workDone s d ph

/-- The group decides once its latches are together. -/
def resolveGroup (s : State) (d ph : Nat) : State :=
  let g := groupOf s d ph
  if !groupReady s (stepOf s d) g then s
  else
    let latch := g.any (fun (e, i) => (phaseOf s e i).latch)
    forEach g s (fun s (e, i) =>
      let s := updDie s e (fun x => { x with
        latches := mkeep x.latches (fun k => !g.any (fun (f, j) => k = 4 * j + f)) })
      resolveMember s e i latch)

/-! ### Gradient counters (R151 to R154) -/

/-- A refused leaf, or a missing rank: SEQ_LEAF_ERR, and the sequencer stops (R154). -/
def leafError (s : State) (d : Nat) : State := seqEvent (noteStop s d .failed) d srcSeqLeafErr

/-- The rank of a leaf (R153). -/
def leafRank (a : Nat) : Nat := if acDir a = 0 then acShard a else 2 ^ acKLog2 a - 1 - acShard a

/-- Does the counter refuse the leaf of an ACC block (R154)? -/
def leafRefused (c : Option Counter) (a : Nat) : Bool :=
  match c with
  | none => false
  | some c =>
    leafRank a < c.next || c.waiting.any (fun x => x.1 = leafRank a) ||
    c.buf ≠ acBuf a || c.elems ≠ acElems a || c.kLog2 ≠ acKLog2 a || c.dir ≠ acDir a

/-- A leaf is handed to the counter of a layer, where it waits for its turn; false where it is refused. -/
def handLeaf (s : State) (d l a : Nat) : State × Bool :=
  let c := ((seqOf s d).counters.find? (fun x => x.1 = l)).map Prod.snd
  if leafRefused c a then (leafError s d, false)
  else
    let base : Counter := c.getD
      { buf := acBuf a, elems := acElems a, kLog2 := acKLog2 a, dir := acDir a }
    let c' := { base with waiting := base.waiting ++ [(leafRank a, acLeaf a)] }
    (updSeq s d (fun q => { q with counters := mins q.counters l c' }), true)

/-- The leaf that the counter can take next. -/
def nextLeaf (c : Counter) : Option (Nat × Nat) := c.waiting.find? (fun x => x.1 = c.next)

/-- Chunk `k` of a leaf in W16B (R38, R153). -/
def leafChunk (rd : View) (leaf k : Nat) : List Byte × List Byte :=
  let blks := (List.range 32).map (fun b =>
    w16Conv .nearest ((List.range 32).map (fun i =>
      f32v (viewLe rd (leaf + 4 * (1024 * k + 32 * b + i)) 4))))
  (blks.map (fun x => BitVec.ofNat 8 x.1), blks.flatMap (fun x => x.2.flatMap (leBytes 2)))

/-- Bytes of a level buffer (R152). -/
def levelBytes (elems : Nat) : Nat := elems / 1024 * chunkBytes

/-- Chunk `k` of a level buffer in memory. -/
def bufChunk (rd : View) (base k : Nat) : List Byte × List Byte :=
  let at_ (o n : Nat) : List Byte := (List.range n).map (fun i => rd (base + chunkBytes * k + o + i))
  (at_ 0 32, at_ 64 2048)

/-- The levels that a leaf of rank `r` combines with, from level `l` up: the trailing ones of `r`. -/
def carryNode (rd : View) (c : Counter) (k : Nat) : Nat → Nat → Nat → List Byte × List Byte →
    Nat × (List Byte × List Byte)
  | 0, _, l, node => (l, node)
  | n + 1, r, l, node =>
    if r % 2 = 1 then
      let held := bufChunk rd (c.buf + l * levelBytes c.elems) k
      let node := if c.dir = 0 then geyserNode 32 held node else geyserNode 32 node held
      carryNode rd c k n (r / 2) (l + 1) node
    else (l, node)

/-- The bytes that a counter writes when it takes the leaf at `leaf` (R152, R153). -/
def leafWrites (rd : View) (c : Counter) (leaf : Nat) : Map Byte :=
  (List.range (c.elems / 1024)).foldl (fun m k =>
    let (l, node) := carryNode rd c k 17 c.next 0 (leafChunk rd leaf k)
    putBytes m (c.buf + l * levelBytes c.elems + chunkBytes * k) (chunkToBytes node.1 node.2)) []

/-- What a counter reads to take a leaf of rank `r`: the leaf, and the level buffers that it combines with. -/
def leafReads (c : Counter) (leaf r : Nat) : List (Nat × Nat) :=
  let top := ((List.range 17).find? (fun l => !r.testBit l)).getD 17
  (leaf, 4 * c.elems) :: (List.range top).map (fun l => (c.buf + l * levelBytes c.elems, levelBytes c.elems))

/-- The counter of a layer takes its next leaf, once it can read it. -/
def takeLeaf (s : State) (d l : Nat) : State :=
  match (seqOf s d).counters.find? (fun x => x.1 = l) with
  | none => s
  | some (_, c) =>
    match nextLeaf c with
    | none => s
    | some (r, leaf) =>
      if waitsDie s d (leafReads c leaf r) then s
      else
      let s := checkDie s d (leafReads c leaf r)
      let m := leafWrites (dieView s d) c leaf
      let dg := digestOf s d [m]
      let c' := { c with
        next := c.next + 1, waiting := c.waiting.filter (fun x => x.1 ≠ r)
        digest := (c.digest + dg) % 2 ^ 128 }
      retire (updSeq (writeMap s d m) d (fun q => { q with counters := mins q.counters l c' })) (seqSlot d)

/-- When only EXCHANGE phases are left whose counters lack their roots, and no leaf can be taken, a rank is
missing (R154). -/
def missingRank (s : State) (d : Nat) : Bool :=
  let left := (phases s d).filter (fun i => (phaseOf s d i).stage ≠ .complete)
  seqRunning s d && (seqOf s d).stop.isNone && !left.isEmpty &&
  left.all (fun i => phType (descOf s d i) = 5 && notStarted (phaseOf s d i) &&
    !hasRoot s d (phLayer (descOf s d i))) &&
  (seqOf s d).counters.all (fun (_, c) => (nextLeaf c).isNone)

/-- Raising it. -/
def detectMissing (s : State) (d : Nat) : State := if missingRank s d then leafError s d else s

/-! ### Completion and the end of a step (R139, R137) -/

/-- May a phase complete: its list is posted and every posted operation complete, and the types that
post at their start have been compared (R139, R309)? -/
def canComplete (s : State) (d ph : Nat) : Bool :=
  let p := phaseOf s d ph
  p.stage = .posting && !p.failed && p.postNext ≥ phPostN p.desc && p.ops.isEmpty

/-- Has a PREFETCH or EXCHANGE phase done its own work and still to be compared (R309)? -/
def mustCompare (s : State) (d ph : Nat) : Bool :=
  let ty := phType (phaseOf s d ph).desc
  (ty = 4 || ty = 5) && isCompared s d ph

/-- A phase completes: its leaf is handed over, by the ACC block as it was read with the descriptor (R151, assumption
144), its digest counted, STATUS written (R139, R142, R315). A refused leaf fails the phase (R154, R141). -/
def completePhase (s : State) (d ph : Nat) : State :=
  let p := phaseOf s d ph
  let (s, ok) := if phType p.desc = 2 ∧ phAux p.desc ≠ 0 then
      handLeaf s d (phLayer p.desc) p.acc
    else (s, true)
  if !ok then endPhase (markFailed s d ph) d ph 3
  else
    let s := setRunDigest s d ((runDigest s d + p.digest) % 2 ^ 128)
    detectMissing (endPhase s d ph (doneCode p)) d

/-- A step begins: phases, counters and constants are those of a new step; receives are sampled (R153,
R280). The latches of other dies stay, each with its step. -/
def beginStep (s : State) (d : Nat) : State :=
  let base : Map Nat := s.cqs.filterMap (fun (q, c) =>
    let n := mget 0 c.recv (recvDie s d)
    if n = 0 then none else some (q, n))
  let n := stepOf s d
  let s := updSeq s d (fun q => { q with
    stepNo := n, phases := [], counters := [], consts := [], recvBase := base })
  updDie s d (fun x => { x with told := [], mirror := [] })

/-- May the step end (R137)? -/
def stepDone (s : State) (d : Nat) : Bool :=
  seqRunning s d && (seqOf s d).stop.isNone &&
  (phases s d).all (fun i => (phaseOf s d i).stage = .complete) &&
  (seqOf s d).counters.all (fun (_, c) => c.next = 2 ^ c.kLog2)

/-- A step ends. -/
def endStep (s : State) (d : Nat) : State :=
  let m := seqSlot d
  let s := wg s m seqStep (rg s m seqStep + 1)
  if rg s m seqStatusState = 1 ∧ rgB s m seqCtlLoop then beginStep s d
  else finishRun (wg s m seqStatusState 0) d stOk

/-! ### The start of a sequencer (R135, R136) -/

/-- Is the job block accepted (R136)? -/
def jobBlockOk (s : State) (addr w : Nat) : Bool :=
  addr % 64 = 0 && jbResv w = 0 && jbProgBase w % 64 = 0 && jbLayerBase w % 64 = 0 &&
  jbLrBase w % 4 = 0 && jbEvtBase w % 16 = 0 && 1 ≤ jbProgCount w && 1 ≤ jbLrCount w &&
  1 ≤ jbEvtCount w && 1 ≤ jbJob w && (jobOf s (jbJob w)).member && (jobOf s (jbJob w)).state = 1

/-- The sequencer of die `d` is started with the job block at `addr`, by a SEQ_RUN or by START. A refused
block raises SEQ_MALFORMED naming no job, and a SEQ_RUN completes with MALFORMED. The copy point of a segment in
progress restarts with the event ring (R150). -/
def startSeq (s : State) (d addr : Nat) (cmd : Option (Nat × Nat)) : State :=
  let s := checkDie (updSeq s d (fun q => { q with wants := false })) d [(addr, 64)]
  let w := loadDie s d addr 64
  let m := seqSlot d
  if !jobBlockOk s addr w then
    let s := raise (wg s m seqStatusState 3) { slot := m, src := srcSeqMalformed }
    match cmd with
    | some (_, h) => complete s h stMalformed (rg s m seqStep)
    | none => s
  else
    let s := wg (wg s m seqStatusState 1) m evtHead 0
    let s := { s with seg := s.seg.map (fun q => { q with heads := mset 0 q.heads d 0 }) }
    let s := updSeq s d (fun _ =>
      { progBase := jbProgBase w, layerBase := jbLayerBase w, lrBase := jbLrBase w
        evtBase := jbEvtBase w, progCount := jbProgCount w, lrCount := jbLrCount w
        evtCount := jbEvtCount w, job := jbJob w, cmd := cmd })
    beginStep s d

/-- Address of the job block that SEQ_JOB names. -/
def seqJobAt (s : State) (d : Nat) : Nat :=
  rg s (seqSlot d) seqJobHi * 2 ^ 32 + rg s (seqSlot d) seqJobLo * 64

/-- START of a sequencer: with the job block at SEQ_JOB, once it can be read. -/
def startHere (s : State) (d : Nat) : State :=
  if waitsDie s d [(seqJobAt s d, 64)] then updSeq s d (fun q => { q with wants := true })
  else startSeq s d (seqJobAt s d) none

/-- Is the die's sequencer able to run: die not in reset, lobe neither fenced, off nor held idle? -/
def dieRuns (s : State) (d : Nat) : Bool :=
  performs s (seqSlot d) && mget 0 s.lobeIdle (lobeOf d) = 0

/-- The starts that wait for their job blocks (R191). -/
def startWaiting (s : State) : State :=
  forEach (List.range 4) s (fun s d => if (seqOf s d).wants ∧ dieRuns s d then startHere s d else s)

end Sys2Proof.Machine
end

