-- ==== Sys2Proof/Machine/Tremor.lean ====
section
/-!
DEFINITION. The pending work of the engines that have tremor counters (R353), what a watched page reports
of it (R334, R354), and whether the package is up (R365).
-/

namespace Sys2Proof.Machine

/-! ### The work of engines -/

/-- The running DMA of a command port. -/
def dmaOf (s : State) (p n : Nat) : Option Cmd :=
  (cportOf s p n).cmds.find? (fun c => !c.queueKind && cmdOp c = 1 && c.started)

/-- The command ports that share the engine of port `n`. -/
def enginePorts (n : Nat) : List Nat := (List.range 16).map (fun k => n % 16 + 16 * k)

/-- BAR0 slot of the DMA engine of command port `n` of PCIe port `p`. -/
def engineSlot (p n : Nat) : Nat := dmaSlot (16 * p + n % 16)

/-- The command port whose DMA an engine runs. -/
def runningDma (s : State) (e : Nat) : Option (Nat × Cmd) :=
  (enginePorts e).findSome? (fun n => (dmaOf s (e / 16) n).map (fun c => (n, c)))

/-- Started operations of a half's queues that are not complete, the oldest start first. -/
def startedOps (s : State) (h : Nat) : List (Nat × Op) :=
  (s.cqs.flatMap (fun (q, c) =>
    if q / 32 = h then (c.ops.filter (fun o => o.started)).map (fun o => (q, o)) else [])).foldr
    older []
where
  /-- Inserting an operation by the order of the starts. -/
  older (x : Nat × Op) : List (Nat × Op) → List (Nat × Op)
    | [] => [x]
    | y :: ys => if y.2.start < x.2.start then y :: older x ys else x :: y :: ys

/-- The tile of a tile page within its cluster. -/
def pgTile (slot : Nat) : Nat := (slot % 0x400 - 0x80) % 16

/-- Does a task of the die take its narrow path, or run ordered adds on it (R108, R109)? -/
def takesNarrowPath (s : State) (d : Nat) : Bool :=
  s.tiles.any (fun (k, x) => k / 528 = d && (match x.task with
    | some r => r.adder || r.narrow.contains true
    | none => false))

/-- Can a memory gateway have accesses: does a task, a DMA or a queue operation run? -/
def mayAccess (s : State) : Bool :=
  s.tiles.any (fun (_, x) => x.task.isSome) || s.cports.any (fun (_, p) => p.cmds.any (fun c =>
    !c.queueKind && cmdOp c = 1 && c.started)) || s.cqs.any (fun (_, c) => c.ops.any Op.started)

/-- The edge ends of die `d` whose edges are up and hold flits that are not acknowledged. -/
def queuedEdges (s : State) (d : Nat) : List EdgeEnd :=
  ((edgesOfDie d).flatMap (fun k => [⟨k, false⟩, ⟨k, true⟩])).filter (fun e =>
    endDie e = some d && erg s e edgeStatusState = 3 && !(edgeSide s e).replay.isEmpty)

/-- Does a chunk that a Geyser holds have its sibling present, or a credit from its parent? -/
def chunkPends (s : State) (h : Nat) (x : Slot) : Bool :=
  match resvOfSlot s h x with
  | some r => if x.done then maySendUp s h r x else r.credit.length ≤ x.got.length
  | none => false

/-- Is an access queued at a die's controllers outside a hold (R353)? -/
def queuedAccess (s : State) (d : Nat) : Bool :=
  (memCtl s d).queue.any (fun (ch, q) => heldChan s d ≠ some ch && !q.isEmpty)

/-- The condition that sets PENDING of an engine (R353). What waits on a narrow path or at a memory gateway
is not held request by request: this is when something can. -/
def workPends (s : State) (slot : Nat) : Bool :=
  let d := pgDie slot
  match pgType slot with
  | 0x28 => (tileOf s d (pgCluster slot) (pgTile slot)).task.isSome
  | 0x27 => !(queueOf s d (pgCluster slot)).isEmpty &&
      (List.range 16).all (fun t => !pageInReset s (tileSlot d (pgCluster slot) t))
  | 0x1D => !(startedPhases s d).isEmpty ||
      (seqOf s d).counters.any (fun (_, c) => !c.waiting.isEmpty && (nextLeaf c).isNone)
  | 0x1F => takesNarrowPath s d || narrowReads s d ≠ 0
  | 0x1E => mayAccess s || queuedAccess s d
  | 0x20 => !(queuedEdges s d).isEmpty
  | 0x12 => (geyser s (pgHalf slot)).slots.any (chunkPends s (pgHalf slot))
  | 0x13 => !(startedOps s (pgHalf slot)).isEmpty
  | 0x1B => (runningDma s (pgInstance slot)).isSome
  | _ => false

/-- A block that is power-gated, in reset or fenced is not watched and has no pending work (R354). -/
def isWatched (s : State) (slot : Nat) : Bool := performs s slot && pagePower s slot = 3

/-- Can the engine of a page have pending work? -/
def mayPend (s : State) (slot : Nat) : Bool := workPends s slot && isWatched s slot

/-- Is what pends at a page's engine known only to be possible: no request of it is seen to wait? -/
def isUnseen (s : State) (slot : Nat) : Bool :=
  let d := pgDie slot
  (pgType slot = 0x1E && !queuedAccess s d) || (pgType slot = 0x1F && narrowReads s d = 0)

/-- The pages whose engines may have pending work, or had. -/
def watchedPages (s : State) : List Nat :=
  (s.tiles.filterMap (fun (k, x) =>
    if x.task.isSome then some (tileSlot (k / 528) (k / 16 % 33) (k % 16)) else none)) ++
  s.queues.map (fun (k, _) => clusterSlot (k / 33) (k % 33)) ++
  (List.range 4).flatMap (fun d => [seqSlot d, mgSlot d, dieSlot d 3, rilSlot d]) ++
  [geySlot 0, geySlot 1, collSlot 0, collSlot 1] ++
  s.cports.map (fun (k, _) => engineSlot (k / 256) (k % 256)) ++
  s.tremor.filterMap (fun (k, x) => if x.pend then some k else none)

/-- PENDING of a page changes: when it rises, AGE restarts (R334). -/
def setPending (s : State) (slot : Nat) (on : Bool) : State :=
  let x := tremorOf s slot
  if x.pend = on then s
  else setTremor s slot { x with pend := on, rose := if on then some s.clock else x.rose }

/-- PENDING of a page follows its engine's work; what cannot be seen to wait is a free value. -/
def noteWork (s : State) (slot : Nat) : State :=
  if mayPend s slot then
    if isUnseen s slot then
      let (i, s) := useFree s
      setPending s slot (Config.freeValue i % 2 = 1)
    else setPending s slot true
  else setPending s slot false

/-- PENDING of every engine follows its work. -/
def notePending (s : State) : State :=
  let t := forEach (watchedPages s) s noteWork
  { s with tremor := t.tremor, free := t.free }

/-- TREMOR_STATUS: STALLED only while work pends (R334). -/
def tremorStatus (s : State) (slot : Nat) : Nat :=
  let on := (tremorOf s slot).pend
  b2n on * 2 ^ 31 + b2n (on && isStalled s slot) * 2 ^ 30 + ageField s slot

/-- The window of a page has passed: AGE has reached it. -/
def ageWindow (s : State) (slot : Nat) : State :=
  let x := tremorOf s slot
  let t : Int := (s.clock : Int) - rg s slot (hdrWindow (pgType slot))
  let back : Option Int → Option Int := fun v => v.map (fun a => min a t)
  let rose : Int := match x.rose with
    | some a => min a t
    | none => t
  setTremor s slot { x with moved := back x.moved, rose := some rose, pend := true }

/-- Progress of an engine that is not seen event by event: by how much COUNT moves is a free value. -/
def progress (s : State) (slot : Nat) : State :=
  let (i, s) := useFree s
  retire s slot (Config.freeValue i)

/-- What a DMA has moved in all: its engine's counter counts each 2,048 bytes (R353). -/
def countDma (s : State) (p n : Nat) (c : Cmd) (moved : Nat) : State :=
  let k := moved / 2048
  if k ≤ c.counted then s
  else updCmd (retire s (engineSlot p n) (k - c.counted)) p n c.handle (fun c => { c with counted := k })

/-- A DMA command ends, with the bytes that it has moved. -/
def endDma (s : State) (c : Cmd) (status moved : Nat) : State :=
  let (p, n) := handlePort c.handle
  complete (countDma s p n c moved) c.handle status moved

/-- While time passes, a DMA within the package or with the host moves on; how far is a free value (assumption
32). -/
def dmaMoves (s : State) (k : Nat) : State :=
  let (p, n) := (k / 256, k % 256)
  match dmaOf s p n with
  | none => s
  | some c =>
    if dmaSrcFar s c ∨ dmaDstFar s c then s
    else
      let (i, s) := useFree s
      countDma s p n c (Config.freeValue i % (dmaBytes c + 1))

/-- The engines whose progress goes on while time passes: tiles with their tasks, and the narrow paths, memory gateways and Rilun gateways that accesses may use. -/
def progressPages (s : State) : List Nat :=
  (s.tiles.filterMap (fun (k, x) =>
    if x.task.isSome then some (tileSlot (k / 528) (k / 16 % 33) (k % 16)) else none)) ++
  ((List.range 4).filter (takesNarrowPath s)).map (fun d => dieSlot d 3) ++
  (if mayAccess s then (List.range 4).flatMap (fun d => [mgSlot d, rilSlot d]) else [])

/-! ### Availability (R365) -/

/-- Is the lobe in lobe reset, or in a reset of the package (R246)? -/
def lobeInReset (s : State) (l : Nat) : Bool :=
  rgB s solSlot resetStatusHeld || s.resets.any (fun r =>
    match r.scope with
    | .lobe m => m.val = l
    | .package => true
    | .full => true
    | _ => false)

/-- Does the lobe offer compute: neither fenced nor in reset, and powered? -/
def offersCompute (s : State) (l : Nat) : Bool :=
  !lobeFenced s l && !lobeInReset s l && !lobeOff s l && rg s pwrSlot pwrStateCur < 3

/-- Is the package up: it answers on its management interface, its router forwards, and a lobe offers
compute? -/
def isUp (s : State) : Bool :=
  s.boot.solOk && s.pins.vioOk && performs s routerSlot && (offersCompute s 0 || offersCompute s 1)

/-- A microsecond of the availability counters, while VAUX33 is valid. -/
def countAvail (s : State) : State :=
  if !s.pins.vauxOk then s
  else if isUp s then { s with upTime := s.upTime + 1 }
  else { s with downTime := s.downTime + 1 }

end Sys2Proof.Machine
end

