-- ==== Sys2Proof/Machine/HostCore.lean ====
section
/-!
DEFINITION. The host's commands (R323 to R332): acceptance, the order in which they start, the checks
and the start of each, remote requests (R248, R250), and what the package does once a command's own
effect is over: raised events are taken, waiting host commands start, waiting posts enter their
queues.
-/

namespace Sys2Proof.Machine

/-! ### Lobes and reset -/

/-- Does the addressed memory belong to a lobe that is fenced or in reset (TARGET_RESET)? -/
def targetReset (s : State) (a : Nat) : Bool :=
  match domOf a with
  | some d => (domLobes d).any (fun l => lobeFenced s l || lobeInReset s l)
  | none => false

/-- Does every copy that a write changes reach memory? -/
def copiesReach (s : State) (a n : Nat) : Bool := (copyAddrs s a).all (fun b => reaches s b n)

/-- The check of a package-local range for a job, in the order of R250: 0 or the first status of
R330. Windows hold the West form; memory is read at the primary copy (R307), and a write asks that every copy
that it changes reaches memory (R413 note D). JOB 0 is checked against no window (R322). -/
def localCheck (s : State) (write : Bool) (job a n : Nat) : Nat :=
  if !reaches s (primaryAddr s a) n || (write && !copiesReach s a n) then stAddrErr
  else if job ≠ 0 ∧ !inWindows s job a n then stWindow
  else if targetReset s (primaryAddr s a) then stTargetReset
  else 0

/-- The check of a board address at its issuer (R247, R248, R322). -/
def boardCheck (s : State) (write : Bool) (job a n : Nat) : Nat :=
  if bits a 49 15 ≠ 0 ∨ (slotPos s (bdSlot a)).isNone then stAddrErr
  else if bdSlot a ≠ mySlot s then
    if job = 0 ∨ bdLocal a + n > 2 ^ 44 then stAddrErr else 0
  else localCheck s write job (bdLocal a) n

/-- A reader on the host's side reads a local range: its errors are counted and reported, and the first
uncorrectable sector is answered (R180). -/
def reportBad (s : State) (by_ : Reader) (a n : Nat) : State × Option Nat :=
  checkRead s by_ (primaryAddr s a) n

/-! ### Remote requests (R248) -/

/-- RSEQ counters are kept per position, job and epoch. -/
def rseqKey (pos job epoch : Nat) : Nat := (pos * 4096 + job) * 256 + epoch

/-- Has the issuer room for a request to the target? -/
def remoteRoom (s : State) (target : Nat) : Bool :=
  s.remote.out.length < 1024 && s.remote.out.countP (fun o => o.target = target) < 64

/-- A tag that no outstanding request carries. -/
def freshTag (s : State) : Nat :=
  ((List.range 1025).map (fun k => (s.remote.nextTag + k) % 65536)).find?
    (fun t => s.remote.out.all (fun o => o.tag ≠ t)) |>.getD 0

/-- A request leaves: it is numbered and held until its response. -/
def issue (s : State) (r : Request) : State :=
  let epoch := (jobOf s r.job).epoch
  let k := rseqKey r.target r.job epoch
  let n := mget 0 s.remote.txSeq k
  let t := freshTag s
  let (pay, len) := flitPad r.data
  let p : Packet := { type := if r.load then 4 else 5, len := len, dest := r.target, src := myPos s,
                      job := r.job, epoch := epoch, tag := t, addr := r.addr, bytes := r.len - 1,
                      rseq := n, payload := pay }
  { s with
    inject := s.inject ++ [p]
    remote := { s.remote with
      out := s.remote.out ++ [⟨t, r.target, r.job, r.load, r.len, r.owner, r.off⟩]
      nextTag := (t + 1) % 65536
      txSeq := mset 0 s.remote.txSeq k ((n + 1) % 65536) } }

/-- A request leaves when there is room, behind the waiting ones to its target. -/
def request (s : State) (r : Request) : State :=
  if remoteRoom s r.target ∧ s.remote.waiting.all (fun x => x.target ≠ r.target) then issue s r
  else { s with remote := { s.remote with waiting := s.remote.waiting ++ [r] } }

/-- Waiting requests leave as far as there is room, those to one target in order. -/
def pumpWaiting (s : State) : State :=
  let w := s.remote.waiting
  forEach w { s with remote := { s.remote with waiting := [] } } request

/-- Bytes from `a` that one request may move of `n`: no request crosses a 2,048-byte boundary. -/
def chunkLen (a n : Nat) : Nat := min n (2048 - a % 2048)

/-! ### BAR4 (R322) -/

/-- Size code of a port's BAR4: the base-2 logarithm of its size less 20, 14 for 16 GiB at reset (R320,
assumption 115). -/
def bar4Code (s : State) (p : Nat) : Nat := mget 14 s.bar4Size p

/-- Does the port's BAR4 claim the bytes? -/
def inBar4 (s : State) (p off len : Nat) : Bool := off + len ≤ 2 ^ (bar4Code s p + 20)

/-- The parts of a BAR4 access, none crossing a 2,048-byte boundary; `n` bounds them. -/
def barParts : Nat → Nat → Nat → List (Nat × Nat)
  | 0, _, _ => []
  | n + 1, off, len =>
    if len = 0 then []
    else
      let k := chunkLen off len
      (off, k) :: barParts n (off + k) (len - k)

/-- The parts of a request. -/
def reqParts (r : BarReq) : List (Nat × Nat) := barParts (r.len + 1) r.off r.len

/-- An access through BAR4 as it arrives: it carries BAR4_WIN and BAR4_JOB (R322). -/
def barReq (s : State) (p off len : Nat) : BarReq :=
  { port := p, off := off, len := len
    base := rg s (hiSlot p) bar4WinHi * 2 ^ 32 + rg s (hiSlot p) bar4WinLo * 2 ^ 30
    job := rg s (hiSlot p) bar4Job }

/-- A BAR4 failure is recorded and raised for the job that the access carried (R322). -/
def barFail (s : State) (p off job status : Nat) : State :=
  let m := hiSlot p
  let s := if rgB s m hiErrValid then s
    else wg (wg (wg s m hiErrValid 1) m hiErrStatus status) m hiErrOffset (off / 2 ^ 30)
  raise s { slot := m, src := srcBar4Err, job := job }

/-- What a BAR4 read has gathered: the state, the local bytes by offset, remote requests, a failure, a
poisoned sector. -/
structure BarAcc where
  st     : State
  got    : Map (List Byte) := []
  asked  : List Request := []
  failed : Bool := false
  poison : Bool := false

/-- One part of a BAR4 read. -/
def barReadPart (r : BarReq) (id : Nat) (x : BarAcc) (off len : Nat) : BarAcc :=
  let s := x.st
  let a := r.base + off
  let e := boardCheck s false r.job a len
  if e ≠ 0 then { x with st := barFail s r.port off r.job e, failed := true }
  else if bdSlot a ≠ mySlot s then
    let ask (pos : Nat) : Request := ⟨pos, r.job, true, bdLocal a, len, [], .bar4 r.port (some id), off⟩
    { x with asked := x.asked ++ ((slotPos s (bdSlot a)).map ask).toList }
  else
    let (s, bad) := reportBad s .bar4 (bdLocal a) len
    let bs := rdBytes s (primaryAddr s (bdLocal a)) len
    { x with st := s, got := mset [] x.got off bs, poison := x.poison || bad.isSome }

/-- The bytes of a BAR4 read in order of their offsets. -/
def barBytes (got : Map (List Byte)) : List Byte := got.flatMap Prod.snd

/-- A BAR4 read is performed. -/
def barDo (s : State) (r : BarReq) : State :=
  let id := s.remote.nextRead
  let x := (reqParts r).foldl (fun x (o, n) => barReadPart r id x o n) { st := s }
  let s := x.st
  if x.failed then { s with resp := .completerAbort }
  else if x.asked.isEmpty then { s with resp := if x.poison then .poisoned else .bytes (barBytes x.got) }
  else
    let b : BarRead := { off := r.off, len := r.len, got := x.got, left := x.asked.length, poison := x.poison }
    let s := { s with
      resp := .pending
      remote := { s.remote with reads := mins s.remote.reads id b, nextRead := id + 1 } }
    x.asked.foldl request s

/-- Must the read wait for a held channel of this package (R191)? -/
def barHeld (s : State) (r : BarReq) : Bool :=
  (reqParts r).any (fun (o, n) =>
    bdSlot (r.base + o) = mySlot s && isHeld s (.half r.port) (primaryAddr s (bdLocal (r.base + o))) n)

/-- A BAR4 read: it waits while a channel that it reads is held. -/
def barRead (s : State) (r : BarReq) : State :=
  if barHeld s r then { s with resp := .pending, barWait := s.barWait ++ [r] } else barDo s r

/-- The BAR4 reads that wait are performed where their channels are held no longer. -/
def releaseBars (s : State) : State := forEach s.barWait { s with barWait := [] } barRead

/-- One part of a BAR4 write. -/
def barWritePart (s : State) (r : BarReq) (off : Nat) (bs : List Byte) : State :=
  let a := r.base + off
  let e := boardCheck s true r.job a bs.length
  if e ≠ 0 then barFail s r.port off r.job e
  else if bdSlot a ≠ mySlot s then
    match slotPos s (bdSlot a) with
    | none => s
    | some pos => request s ⟨pos, r.job, false, bdLocal a, bs.length, bs, .bar4 r.port none, off⟩
  else storeBoth s (.half r.port) (bdLocal a) bs

/-- A BAR4 write, part by part. -/
def barWrite (s : State) (p off : Nat) (data : List Byte) : State :=
  let r := barReq s p off data.length
  forEach (reqParts r) s (fun s (o, n) => barWritePart s r o ((data.drop (o - off)).take n))

/-! ### DMA (R331) -/

/-- Is the engine of command port `n` free and out of reset? -/
def engineFree (s : State) (p n : Nat) : Bool :=
  (enginePorts n).all (fun k => (dmaOf s p k).isNone) && !pageInReset s (engineSlot p n)

/-- Bytes of a DMA's transfer that are still to be asked of, or sent to, another slot; one request.
Answers none when nothing can be sent now. -/
def pumpOne (s : State) (p n : Nat) (c : Cmd) : Option State :=
  let upd (s : State) (f : Cmd → Cmd) : State := updCmd s p n c.handle f
  match c.buf with
  | (off, bs) :: rest =>
    if !dmaDstFar s c ∨ c.err ≠ 0 then none
    else
      let a := dmaDst c + off
      match slotPos s (bdSlot a) with
      | none => none
      | some pos =>
        if !remoteRoom s pos then none
        else
          let k := chunkLen (bdLocal a) bs.length
          let rest := if bs.length ≤ k then rest else (off + k, bs.drop k) :: rest
          let s := upd s (fun c => { c with buf := rest, left := c.left + 1 })
          some (issue s ⟨pos, cmdJob c, false, bdLocal a, k, bs.take k, .dma p c.handle, off⟩)
  | [] =>
    if c.err ≠ 0 ∨ dmaBytes c ≤ c.issued ∨ dmaSrcHost c then none
    else
      let a := dmaSrc c + c.issued
      if dmaSrcFar s c then
        match slotPos s (bdSlot a) with
        | none => none
        | some pos =>
          if !remoteRoom s pos then none
          else
            let k := chunkLen (bdLocal a) (dmaBytes c - c.issued)
            let s := upd s (fun c => { c with issued := c.issued + k, left := c.left + 1 })
            some (issue s ⟨pos, cmdJob c, true, bdLocal a, k, [], .dma p c.handle, c.issued⟩)
      else if dmaDstFar s c then
        let k := chunkLen (bdLocal (dmaDst c + c.issued)) (dmaBytes c - c.issued)
        if isHeld s (.half p) (primaryAddr s (bdLocal a)) k then none
        else
        let (s, bad) := reportBad s .hostDma (bdLocal a) k
        if bad.isSome then some (upd s (fun c => { c with err := stDataError }))
        else
          let bs := rdBytes s (primaryAddr s (bdLocal a)) k
          some (upd s (fun c => { c with issued := c.issued + k, buf := [(c.issued, bs)] }))
      else none

/-- A DMA sends what it can: at most 1,024 requests are outstanding, so the steps are bounded. -/
def pumpDma : Nat → State → Nat → Nat → State
  | 0, s, _, _ => s
  | m + 1, s, p, n =>
    match dmaOf s p n with
    | none => s
    | some c => match pumpOne s p n c with
      | none => s
      | some s => pumpDma m s p n

/-- Every running DMA sends what it can. -/
def pumpDmas (s : State) : State :=
  forEach (s.cports.map (·.1)) s (fun s k => pumpDma 2200 s (k / 256) (k % 256))

/-- Starting a DMA: its descriptor, then its addresses are checked; one that fails moves nothing
(R326, R331). -/
def startDma (s : State) (p n : Nat) (c : Cmd) : State :=
  let b := dmaBytes c
  let bad := b = 0 ∨ b ≥ 2 ^ 40 ∨ bits c.raw 256 2 = 3 ∨ bits c.raw 258 254 ≠ 0
  let j := cmdJob c
  let e1 := if dmaSrcHost c then 0 else boardCheck s false j (dmaSrc c) b
  let e2 := if dmaDstHost c then 0 else boardCheck s true j (dmaDst c) b
  if bad then complete s c.handle stMalformed 0
  else if e1 ≠ 0 then complete s c.handle e1 0
  else if e2 ≠ 0 then complete s c.handle e2 0
  else pumpDma 2200 s p n

/-! ### The other commands -/

/-- SEQ_JOB takes an address, a multiple of 64 (R135). -/
def setSeqJob (s : State) (d a : Nat) : State :=
  wg (wg s (seqSlot d) seqJobHi (a / 2 ^ 32)) (seqSlot d) seqJobLo (a / 64 % 2 ^ 26)

/-- Starting a SEQ_RUN: its address goes to SEQ_JOB, and the sequencer starts with the block there (R135,
R136, R326). RESULT holds SEQ_STEP in every case (R328). -/
def startSeqRun (s : State) (p : Nat) (c : Cmd) : State :=
  let d := bits c.raw 128 8
  let a := bits c.raw 64 64
  if d > 3 then complete s c.handle stMalformed 0
  else if bits c.raw 136 376 ≠ 0 then complete s c.handle stMalformed (stepOf s d)
  else if !dieRuns s d then complete s c.handle stAborted (stepOf s d)
  else if seqRunning s d then complete s c.handle stBusy (stepOf s d)
  else startSeq (setSeqJob s d a) d a (some (p, c.handle))

/-- Is the body of a TEST accepted (R366, R367)? -/
def testOk (c : Cmd) : Bool :=
  let kind := bits c.raw 64 8
  let d := bits c.raw 72 8
  let u := bits c.raw 80 16
  cmdJob c = 0 && bits c.raw 96 32 = 0 && bits c.raw 160 352 = 0 &&
  (match kind with
   | 1 => d ≤ 3 && u ≤ 32
   | 2 => d ≤ 3 && u = 0
   | 3 => d ≤ 1 && u = 0
   | 4 => d = 0 && u < 1024
   | 5 => d ≤ 3 && bits u 6 2 = 0 && bits u 9 7 = 0 && bits u 0 6 < (if bit u 8 then 26 else 40)
   | 6 => d = 0 && u < 32
   | _ => false)

/-- Starting a TEST command: the test waits for its target; the deadline counts from the command's
acceptance. -/
def startTest (s : State) (p : Nat) (c : Cmd) : State :=
  if !testOk c then complete s c.handle stMalformed 0
  else
    { s with
      tests := s.tests ++ [{ id := s.nextTest, kind := bits c.raw 64 8, die := bits c.raw 72 8,
                             unit := bits c.raw 80 16, deadline := bits c.raw 128 32,
                             cmd := some (p, c.handle) }]
      nextTest := s.nextTest + 1 }

/-- Starting a WAIT_FAULT (R326): it waits for a logged fault. -/
def startWaitFault (s : State) (c : Cmd) : State :=
  if bits c.raw 64 8 > 4 ∨ bits c.raw 72 440 ≠ 0 then complete s c.handle stMalformed 0 else s

/-- The abort that the hang engine awaits of a DMA is done with the command (R332). -/
def dropAbort (s : State) (p n : Nat) : State :=
  { s with aborts := s.aborts.filter (fun a => match a with
    | .dma e => e.val ≠ 16 * p + n % 16
    | .queueJob .. => true) }

/-- A DMA is cut short: its destination is partly written, and an abort of it that is pending is done
(R331, R332). -/
def cutDma (s : State) (c : Cmd) (status : Nat) : State :=
  let (p, n) := handlePort c.handle
  let (s, k) := dmaCut (if c.err = stAborted then dropAbort s p n else s) c
  endDma s c status k

/-- An operation posted with a handle stays posted, and its status goes nowhere. -/
def forgetPost (s : State) (h : Nat) : State :=
  forEach s.cqs s (fun s (q, _) => updCq s q (fun c => { c with
    ops := c.ops.map (fun o => match o.poster with
      | .host p k => if k = h then { o with poster := .host p 0 } else o
      | _ => o) }))

/-- A command ends ABORTED (R332): a DMA leaves its destination partly written, a test leaves the
controller, a queue post stays posted with its later status discarded, and a SEQ_RUN leaves its
sequencer running. A later command with its handle is another one. -/
def abortCmd (s : State) (c : Cmd) : State :=
  if c.queueKind then
    complete (forgetPost s c.handle) c.handle stAborted (opStatus stAborted 0 0 0)
  else match cmdOp c with
  | 1 => cutDma s c stAborted
  | 2 =>
    let s := forEach (List.range 4) s (fun s d => updSeq s d (fun x =>
      if x.cmd.map Prod.snd = some c.handle then { x with cmd := none } else x))
    complete s c.handle stAborted (stepResult s c)
  | 4 =>
    let s := { s with tests := s.tests.filter (fun t => match t.cmd with
      | some (_, h) => h ≠ c.handle
      | none => true) }
    complete s c.handle stAborted 0
  | _ => complete s c.handle stAborted 0

/-- The target of a started test that stops returns to service; a cluster that is the spare stays the spare,
untested (R370). -/
def leaveTest (s : State) (t : Test) : State :=
  match t.kind with
  | 1 => if spareOf s t.die = t.unit then updDie s t.die (fun x => { x with spareTested := false }) else s
  | 4 => dropHold s (t.unit / 256)
  | 5 => setAside s (testEdge t.die t.unit) (t.unit % 64) false
  | 6 => groupBack s t.unit
  | _ => s

/-- A started TEST command that is aborted leaves its target. -/
def untest (s : State) (c : Cmd) : State :=
  forEach s.tests s (fun s t =>
    if t.cmd.map Prod.snd = some c.handle ∧ t.started then leaveTest s t else s)

/-- Commands of PCIe port `p` that an ABORT of this scope and target ends, or none for a target out
of range. An ABORT itself is never a target. -/
def abortTargets (s : State) (p scope target : Nat) : Option (List Cmd) :=
  let all := (List.range 256).flatMap (fun n => (cportOf s p n).cmds)
  let notAbort (c : Cmd) : Bool := c.queueKind || cmdOp c ≠ 3
  match scope with
  | 0 => if bits target 56 8 = p ∧ bits target 0 48 ≠ 0 then
      some (all.filter (fun c => c.handle = target && notAbort c)) else none
  | 1 => if target / 256 = p then
      some ((cportOf s p (target % 256)).cmds.filter notAbort) else none
  | 2 => if 1 ≤ target ∧ target ≤ 4095 then
      some (all.filter (fun c => !c.queueKind && cmdJob c = target && notAbort c)) else none
  | _ => none

/-- The posts of PCIe port `p` to an aborted job's queues complete (R285, R332). -/
def endPosts (s : State) (p job : Nat) : State :=
  forEach s.cqs s (fun s (q, c) =>
    if c.job ≠ job then s
    else forEach c.ops s (fun s o => match o.poster with
      | .host k _ => if k = p ∧ o.ready then completeOp s q o else s
      | _ => s))

/-- A job-fatal fault of a job, as an ABORT of its scope raises it on the page of its PCIe port (R332). No
source of R346 stands for it: what SOURCE shows is a free value, and no sticky bit is set (assumption 124).
The job is aborted also where the class takes no ABORT. -/
def faultJob (s : State) (p j : Nat) : State :=
  let (i, s) := useFree s
  let e : Event := { slot := hiSlot p, src := Config.freeValue i % 16, job := j, bare := true }
  let s := takeBatch { s with due := [] } (s.due ++ [e])
  if rgB s faSlot (classActAbort 2) then s else abortJob s j none

/-- Running an ABORT (R332): the targets complete before its own record; a job scope also raises a job-fatal
fault of the job on this package. -/
def startAbort (s : State) (p : Nat) (c : Cmd) : State :=
  let scope := bits c.raw 64 8
  let target := bits c.raw 128 64
  match (if bits c.raw 72 56 = 0 ∧ bits c.raw 192 320 = 0 then abortTargets s p scope target
    else none) with
  | none => complete s c.handle stMalformed 0
  | some cs =>
    let hit := !cs.isEmpty || (scope = 2 && jobActive s target)
    let s := if scope = 2 then endPosts (faultJob s p target) p target else s
    let s := forEach cs s (fun s x => abortCmd (untest s x) x)
    complete s c.handle stOk (b2n hit)

/-- Are the reserved fields of a command's header zero (R326)? -/
def headerOk (c : Cmd) : Bool := bits c.raw 10 6 = 0 && bits c.raw 28 36 = 0

/-- A command starts (R326). -/
def startCmd (s : State) (p n : Nat) (c : Cmd) : State :=
  let s := updCmd s p n c.handle (fun c => { c with started := true })
  let c := { c with started := true }
  if !headerOk c ∨ (cmdOp c = 3) ≠ (n = 255) then complete s c.handle stMalformed (stepResult s c)
  else match cmdOp c with
  | 0 => if bits c.raw 64 448 = 0 then complete s c.handle stOk 0 else complete s c.handle stMalformed 0
  | 1 => startDma s p n c
  | 2 => startSeqRun s p c
  | 3 => startAbort s p c
  | 4 => startTest s p c
  | 5 => startWaitFault s c
  | _ => complete s c.handle stMalformed 0

/-! ### Order of starts (R327) -/

/-- Must a SEQ_RUN that would start its sequencer wait until its job block can be read (R191)? -/
def jobBlockHeld (s : State) (c : Cmd) : Bool :=
  let d := bits c.raw 128 8
  headerOk c && bits c.raw 136 376 = 0 && d ≤ 3 && dieRuns s d && !seqRunning s d &&
    waitsDie s d [(bits c.raw 64 64, 64)]

/-- May the first command that has not started start now? `before` are the accepted commands ahead of
it. -/
def mayStart (s : State) (p n : Nat) (before : List Cmd) (c : Cmd) : Bool :=
  (!cmdFence c || before.all (fun x => !x.queueKind && cmdOp x = 5)) &&
  (c.queueKind || cmdOp c ≠ 1 || engineFree s p n) && (c.queueKind || cmdOp c ≠ 2 || !jobBlockHeld s c)

/-- The next command of a port to start, if it may. -/
def nextStart (s : State) (p n : Nat) : Option Cmd :=
  let cs := (cportOf s p n).cmds
  let before := cs.takeWhile (fun c => c.started)
  match cs.drop before.length with
  | c :: _ => if mayStart s p n before c then some c else none
  | [] => none

/-- One round over the command ports: each starts at most one command. -/
def pumpRound (s : State) : State :=
  forEach (s.cports.map (·.1)) s (fun s k =>
    match nextStart s (k / 256) (k % 256) with
    | some c => startCmd s (k / 256) (k % 256) c
    | none => s)

/-- Rounds until no command is left that has not started, or the bound. -/
def pumpHost : Nat → State → State
  | 0, s => s
  | m + 1, s => if (allCmds s).any (fun c => !c.started) then pumpHost m (pumpRound s) else s

/-- What follows a command's own effect: stores that wait for an edge go on (R207), raised events are taken (R348),
starts and host commands that may start do (R191, R327), posts that waited for room enter their queues (R271), what
this raised is taken, a full package reset boots once it may (R361), and PENDING of every engine follows its work
(R353). -/
def settle (s : State) : State :=
  let s := takeEvents (releaseBars (flushPosted s))
  let s := pumpHost ((allCmds s).length) (pumpDmas (pumpWaiting (startWaiting s)))
  notePending (bootWhenDue (takeEvents (postWaiting s)))

/-! ### Acceptance (R324) -/

/-- Is the command port enabled? Port 255 always is (R325). -/
def portEnabled (s : State) (p n : Nat) : Bool := n = 255 || (cportOf s p n).en

/-- The communication queue, 0–63, of a command port of queue kind. -/
def portQueue (s : State) (p n : Nat) : Nat := (cportOf s p n).queue

/-- Does a read of SUBMIT return BUSY? -/
def submitBusy (s : State) (p n : Nat) : Bool :=
  let c := cportOf s p n
  n ≠ 255 && (!c.en || 64 ≤ c.cmds.length || (c.kind = 1 && !queueRoom s c.queue))

/-- The sequence number after `q`: it never is all ones, and it wraps to 1. -/
def nextSeq (q : Nat) : Nat := if q + 1 ≥ 2 ^ 48 - 1 then 1 else q + 1

/-- The handle with sequence number `q`. -/
def handleOf (p n q : Nat) : Nat := (256 * p + n) * 2 ^ 48 + q

/-- The handle that the port gives next. -/
def portHandle (s : State) (p n : Nat) : Nat := handleOf p n (cportOf s p n).seq

/-- A read of SUBMIT: BUSY, or the handle of the accepted command, which waits for its start. -/
def submit (s : State) (p n : Nat) : State :=
  if submitBusy s p n then { s with resp := .value (2 ^ 64 - 1) }
  else
    let h := portHandle s p n
    let s := updCPort s p n (fun c => { c with
      seq := nextSeq c.seq
      cmds := c.cmds ++ [{ handle := h, raw := c.desc, queueKind := c.kind = 1 && n ≠ 255,
                           started := c.kind = 1 && n ≠ 255 }] })
    { s with resp := .value h }

/-- A queue descriptor's fields as the spec numbers them: DESC holds it as bytes in the order of R272. -/
def postFromHost (s : State) (p n h : Nat) : State :=
  let c := cportOf s p n
  (postOp s c.queue c.desc (.host p h)).1

end Sys2Proof.Machine
end

