-- ==== Sys2Proof/Machine/Registers.lean ====
section
/-!
DEFINITION. The register pages as a requester sees them: reads of stored, selected, computed and
measured registers, and writes of the fields that have no row of their own (R9, R338 to R342, R431).
-/

namespace Sys2Proof.Machine

/-! ### Reads -/

/-- A 32-bit word of a list of bytes. -/
def byteWord (bs : List Byte) (n : Nat) : Nat := leNat ((bs.drop (4 * n)).take 4)

/-- The 32 bytes of a fault log entry (R351). -/
def logBytes (e : LogEntry) : List Byte :=
  leBytes 8 e.time ++ leBytes 4 e.index ++ leBytes 2 e.slot ++ leBytes 1 e.source ++
    leBytes 1 e.flags ++ leBytes 2 e.job ++ leBytes 1 e.epoch ++ leBytes 1 e.part ++
    leBytes 12 e.detail

/-- JOB_DATA of a job: job 0 reads 0xD000_0000. -/
def jobWord (s : State) (j : Nat) : Nat :=
  if j = 0 then 0xD0000000
  else
    let x := jobOf s j
    b2n x.member * 2 ^ 31 + b2n x.transit * 2 ^ 30 + x.state % 4 * 2 ^ 28 + x.epoch % 256

/-- The entry of the job window table that JW_SEL selects. -/
def selJw (s : State) : Jw := mget {} s.jw (rg s solSlot jwSel)

/-- Registers of the Solfatara controller page that are not stored as they read. -/
def read01 (s : State) (off : Nat) : Option Nat :=
  let e := selJw s
  let p := s.pins.straps
  match off with
  | 0x150 => some (rg s solSlot jwSel)
  | 0x154 => some (e.base % 65536 * 65536)
  | 0x158 => some (e.base / 65536)
  | 0x15C => some e.units
  | 0x160 => some (b2n e.valid * 2 ^ 31 + b2n s.jwRej * 2 ^ 30 + e.job)
  | 0xE0 => some (rg s solSlot optPlanPlan * 2 ^ 29 + rg s solSlot optPlanFlashOk * 2 ^ 28 +
      darkMask s * 2 ^ 8 + rg s solSlot optPlanDark)
  | 0xE4 => some (portGroupCounts s)
  | 0xB8 => some (mget 0 s.pairPol (rg s solSlot pairSel))
  | 0x130 => some (min (s.upTime / 10 ^ 6) (2 ^ 32 - 1))
  | 0x134 => some (min (s.downTime / 1000) (2 ^ 32 - 1))
  | 0x140 => some (b2n p.test * 2 ^ 31 + p.plan % 8 * 2 ^ 28 + p.shape % 4 * 2 ^ 26 +
      p.meshZ % 16 * 2 ^ 12 + p.meshY % 64 * 2 ^ 6 + p.meshX % 64)
  | _ => none

/-- Registers of the router page that are not stored as they read. -/
def read04 (s : State) (off : Nat) : Option Nat :=
  let p := s.pins.straps
  let mask (f : Nat → Bool) : Nat := ((List.range 6).map (fun n => b2n (f n) * 2 ^ n)).sum
  match off with
  | 0x80 => some (mySlot s * 2 ^ 24 + p.shape % 4 * 2 ^ 22 + p.meshX % 64 * 2 ^ 16 +
      p.meshY % 64 * 2 ^ 10 + p.meshZ % 16 * 4)
  | 0x84 => some (
      mask (fun n => (portGroupList s n).any (fun g => (optGroup s g).miswired)) * 2 ^ 24 +
      mask (fun n => mget 0 s.sidestep n ≠ 0) * 2 ^ 18 + mask (portIsDown s) * 2 ^ 12 +
      mask (portUp s) * 2 ^ 6 + darkMask s)
  | 0x8C => some (jobWord s (rg s routerSlot jobSel))
  | 0x94 =>
    let t := rg s routerSlot rtSelTable
    some (if rgB s routerSlot rtSelHdr then mget 0 s.rtHdr t
      else mget 0 s.rtEnt (t * 32768 + rg s routerSlot rtSelIndex))
  | 0xB0 => some (s.ft.t % 2 ^ 32)
  | _ => none

/-- Registers of a Geyser page. -/
def read12 (s : State) (h off : Nat) : Option Nat :=
  let g := geyser s h
  let job := rg s (geySlot h) gqSelJob
  let grp := rg s (geySlot h) gqSelGroup
  match off with
  | 0x80 =>
    let assigned := (g.quota.map Prod.snd).sum
    some ((24576 - assigned) * 2 ^ 15 + (g.resv.map Resv.win).sum)
  | 0x88 => some (b2n g.rej * 2 ^ 31 + heldBy s h job grp * 2 ^ 15 + quotaOf s h job grp)
  | _ => none

/-- Queue that Q_SEL of half `h` selects. -/
def selQueue (s : State) (h : Nat) : Nat := 32 * h + rg s (collSlot h) qSel

/-- Registers of a collective engine page. -/
def read13 (s : State) (h off : Nat) : Option Nat :=
  let c := cqOf s (selQueue s h)
  match off with
  | 0x84 => some (b2n c.en * 2 ^ 31 + c.order * 2 ^ 30 + c.fan * 2 ^ 27 + c.trees * 2 ^ 23 +
      c.group * 2 ^ 13 + c.job)
  | 0x88 => some c.members
  | 0x8C => some (c.rt % 2 ^ 30)
  | 0x90 => some (c.rt / 2 ^ 30)
  | 0x94 => some (c.state * 2 ^ 30 + c.reason * 2 ^ 25 + inflight c * 2 ^ 20 + c.rank)
  | 0x98 => some (mget 0 c.recv 0)
  | 0x9C => some (mget 0 c.recv 1)
  | 0xA0 => some (mget 0 c.recv 2)
  | 0xA4 => some (mget 0 c.recv 3)
  | _ => none

/-- Registers of a host interface page. -/
def read14 (s : State) (p off : Nat) : Option Nat :=
  let m := hiSlot p
  let r := ringOf s p (rg s m ringSel)
  let n := rg s m portSel
  let c := cportOf s p n
  match off with
  | 0x88 => some (r.base / 4096 * 4096 % 2 ^ 32)
  | 0x8C => some (r.base / 2 ^ 32)
  | 0x90 => some (b2n r.en * 2 ^ 31 + r.size * 2 ^ 27 + r.vector * 2 ^ 16 + b2n r.irqEn * 2 ^ 15 +
      r.holdoff)
  | 0x94 => some r.head
  | 0x98 => some r.tail
  | 0xA0 => some (b2n (portEnabled s p n) * 2 ^ 31 + c.kind * 2 ^ 30 + c.queue * 2 ^ 24 +
      c.ring * 2 ^ 18 + c.cmds.length % 128)
  | _ => none

/-- BUNDLE_UP of an edge end as a mask. -/
def upMask (x : EdgeSide) : Nat :=
  ((x.bundles.filter (fun (_, b) => b.up)).map (fun (k, _) => 2 ^ k)).sum

/-- Computed registers of an edge set (R204, chapter 10's LANE_DATA). -/
def readEdge (s : State) (e : EdgeEnd) (rel : Nat) : Option Nat :=
  let x := edgeSide s e
  let n := erg s e laneSel
  match rel with
  | 0x04 => some (upMask x % 2 ^ 32)
  | 0x08 => some (upMask x / 2 ^ 32 % 256)
  | 0x0C => some (erg s e mapEpochLast * 2 ^ 30 + x.epoch % 65536)
  | 0x1C =>
    if n ≥ 40 then some 0
    else
      let b := mget {} x.bundles n
      some (popcount b.fused 68 * 2 ^ 29 + popcount b.spares 68 * 2 ^ 26 + b2n (!b.failing.isEmpty) * 2 ^ 25 +
        b.failing.headD 0x7F * 2 ^ 10 + b.lastCorr)
  | _ => none

/-- The edge end that an edge set shows: of a Rilun gateway page by the set's base, of a Caldera edge
page. -/
def setEnd (slot off : Nat) : EdgeEnd :=
  if pgType slot = 0x20 then
    let d := pgDie slot
    if off < 0xC0 then ⟨⟨d / 2 % 6, Nat.mod_lt _ (by decide)⟩, d % 2 = 1⟩
    else ⟨⟨(2 + d) % 6, Nat.mod_lt _ (by decide)⟩, false⟩
  else ⟨⟨(2 + pgInstance slot) % 6, Nat.mod_lt _ (by decide)⟩, true⟩

/-- Registers of an edge page. -/
def read19 (s : State) (slot off : Nat) : Option Nat :=
  if off < 0x80 ∨ 0x100 ≤ off ∨ (pgType slot = 0x19 ∧ 0xC0 ≤ off) then none
  else readEdge s (setEnd slot off) ((off - 0x80) % 0x40)

/-- Registers of a training sequencer page: RUNNING and OLDEST of SEQ_STATUS. -/
def read1D (s : State) (d off : Nat) : Option Nat :=
  match off with
  | 0x84 =>
    let m := seqSlot d
    let run := seqRunning s d
    let oldest := ((phases s d).find? (fun i => (phaseOf s d i).stage ≠ .complete)).getD 0
    some (rg s m seqStatusState * 2 ^ 30 + rg s m seqStatusEvtLost * 2 ^ 29 +
      (if run then (startedPhases s d).length % 16 * 2 ^ 16 + oldest else 0))
  | _ => none

/-- Registers of a memory gateway page. LIVE_PKG shows the live pseudo-channels also while the package-wide window
is closed (assumption 149). -/
def read1E (s : State) (d off : Nat) : Option Nat :=
  let m := mgSlot d
  let dom : Option Dom := match rg s m chtSelDomain with
    | 0 => some (.dieLocal d) | 1 => some (.lobe (d / 2)) | 2 => some .pkg | _ => none
  match off with
  | 0x84 => some ((liveOf s .pkg).length * 2 ^ 21 + (liveOf s (.lobe (d / 2))).length * 2 ^ 11 +
      (liveOf s (.dieLocal d)).length)
  | 0x8C => match dom with
    | none => some (2 ^ 31)
    | some x => if domClosed s x then some (2 ^ 31)
      else some ((tableEntry s x (rg s m chtSelIndex)).getD (2 ^ 31))
  | _ =>
    if 0xA0 ≤ off ∧ off < 0xC0 ∧ off % 4 = 0 then
      let n := (off - 0xA0) / 4
      some (((List.range 32).map (fun b =>
        b2n (s.outDie.contains (256 * d + 32 * n + b)) * 2 ^ b)).sum)
    else none

/-- Does the lobe self-test of R310 run? -/
def pairRuns (s : State) : Bool :=
  match s.pairTest with
  | .running .. => true
  | _ => false

/-- Tests of the controller that wait and that run, the lobe self-test of R310 among them (ST_STATUS, R367). -/
def testCounts (s : State) : Nat :=
  let run := s.tests.countP Test.started
  let wanted := match s.pairTest with
    | .wanted _ => true
    | _ => false
  min (s.tests.length - run + b2n wanted) 255 * 2 ^ 24 + min (run + b2n (pairRuns s)) 255 * 2 ^ 16

/-- A field takes a measured value of at most `top`: a free value (assumption 9). -/
def measureField (s : State) (slot : Nat) (f : Fld) (top : Nat) : State :=
  let (i, s) := useFree s
  wgFree s slot f (Config.freeValue i % (top + 1))

/-- A field that shows the largest value since its last read: it may have risen (assumption 9). -/
def measurePeak (s : State) (slot : Nat) (f : Fld) (least top : Nat) : State :=
  let (i, s) := useFree s
  wgFree s slot f (max (max (rg s slot f) least) (Config.freeValue i % (top + 1)))

/-- The power domain of a temperature sensor (TEMP_SEL): a die, a stack, a Caldera half, an OE die, the lid. -/
def sensorDomain (k : Nat) : Nat :=
  if k < 4 then 14 * k + 11
  else if k < 20 then 14 * ((k - 4) / 4) + 12
  else if k < 22 then 59 + 4 * (k - 20)
  else if k < 30 then 65 + (k - 22)
  else 64

/-- A temperature is valid while its sensor's domain is on (R386). -/
def measureTemp (s : State) (slot : Nat) : State :=
  if domainOn s (sensorDomain (rg s slot tempSel)) then measureField (wg s slot tempDataValid 1) slot tempDataTemp 65535
  else wg s slot tempDataValid 0

/-- The registers that sensors and meters fill show what they have measured (R379, R408, R215, R430). The current
changes by at most 4 A/µs, 400 of the units of PEAK_SLEW (R379). -/
def measure (s : State) (slot off : Nat) : State :=
  match pgType slot, off with
  | 0x05, 0x88 =>
    let (i, s) := useFree s
    let n := satAdd 16 (rg s slot wakeStatusDeferred) (Config.freeValue i)
    measurePeak (wgFree s slot wakeStatusDeferred n) slot wakeStatusPeakSlew 0 400
  | 0x07, 0x80 => measureField (measureField s slot vinMonIin 65535) slot vinMonVin 65535
  | 0x07, 0x84 =>
    let s := measureField s slot pinAvgAvg 65535
    measurePeak s slot pinAvgPeak (rg s slot pinAvgAvg) 65535
  | 0x07, 0x88 => measureField (measureField s slot auxMonVio18 65535) slot auxMonVaux33 65535
  | 0x08, 0x84 => measureTemp s slot
  | 0x18, 0x84 => measureField (measureField s slot spineUtilOut 1000) slot spineUtilIn 1000
  | 0x18, 0x88 =>
    measurePeak (measurePeak s slot spinePeakOut (rg s slot spineUtilOut) 1000) slot spinePeakIn
      (rg s slot spineUtilIn) 1000
  | 0x1A, 0xA4 => measureField (measureField s slot rxPwrDataLock 1) slot rxPwrDataPower 255
  | _, _ => s

/-- Is INJECT open: factory test mode with an unlock token that enables fault injection (R352, R400)? The mode
lasts until the next power-on. -/
def mayInject (s : State) : Bool := s.boot.test && bit s.boot.scope 0

/-- A block-specific register that is not the sum of its stored fields. -/
def specialRead (s : State) (slot off : Nat) : Option Nat :=
  match pgType slot with
  | 0x01 => read01 s off
  | 0x02 => if off = 0xB8 then some (faultSummary s)
    else if off = 0xBC ∧ !mayInject s then some 0 else none
  | 0x03 => if 0x88 ≤ off ∧ off < 0xA8 then some (byteWord (logBytes s.logCap) ((off - 0x88) / 4))
    else none
  | 0x04 => read04 s off
  | 0x0A => if 0x84 ≤ off ∧ off < 0xC4 then
      some (byteWord (mrBytes s (rg s attSlot mrSel)) ((off - 0x84) / 4)) else none
  | 0x0B => if 0x84 ≤ off ∧ off < 0x94 then some (Config.serial ((off - 0x84) / 4) % 2 ^ 32) else none
  | 0x0C => if off = 0x84 then
      some (b2n (!s.alertQ.isEmpty && s.pins.vioOk) * 2 ^ 31 + s.alertQ.length * 2 ^ 16 + rg s mgmtSlot evtStatusEvtDrop)
    else none
  | 0x0E => if off = 0x80 then some (0x17404000 + Config.jtagManuf % 2 ^ 11 * 2 + 1) else none
  | 0x0F => if off = 0x80 then some (testCounts s) else none
  | 0x10 => if off = 0xB8 then
      some (mget 0 s.eruptT (rg s hangSlot eruptSelJob * 8 + rg s hangSlot eruptSelTarget)) else none
  | 0x12 => read12 s (pgInstance slot) off
  | 0x13 => read13 s (pgInstance slot) off
  | 0x14 => read14 s (pgInstance slot) off
  | 0x19 => read19 s slot off
  | 0x20 => read19 s slot off
  | 0x1D => read1D s (pgDie slot) off
  | 0x1E => read1E s (pgDie slot) off
  | _ => none

/-- Is vector `v` of function `p` masked? A vector control word that nothing has written has its mask
bit set, as PCIe defines it (R333, assumption 23). -/
def msixMasked (s : State) (p v : Nat) : Bool := bit (mget 1 s.msixTab (p * 16384 + 4 * v + 3)) 0

/-- Word `k` of the MSI-X table and pending-bit area of a function (R333, assumption 23). -/
def msixRead (s : State) (p k : Nat) : Nat :=
  if k < 8192 then mget (if k % 4 = 3 then 1 else 0) s.msixTab (p * 16384 + k)
  else if 8256 ≤ k then 0
  else ((List.range 32).map (fun b =>
    mget 0 s.msixPend (p * 2048 + 32 * (k - 8192) + b) * 2 ^ b)).sum

/-- Sending vector `v` of function `p`; a masked one is pending instead. -/
def sendMsix (s : State) (p v : Nat) : State :=
  if msixMasked s p v then { s with msixPend := mset 0 s.msixPend (p * 2048 + v) 1 }
  else { s with msix := s.msix ++ [(p, v)] }

/-- A write of a word of the MSI-X table: unmasking sends a pending vector. Pending bits are read-only. -/
def msixWrite (s : State) (p k val : Nat) : State :=
  if k < 8192 then
    let d := if k % 4 = 3 then 1 else 0
    let s := { s with msixTab := mset d s.msixTab (p * 16384 + k) (val % 2 ^ 32) }
    let v := k / 4
    if mget 0 s.msixPend (p * 2048 + v) = 1 ∧ !msixMasked s p v then
      sendMsix { s with msixPend := mset 0 s.msixPend (p * 2048 + v) 0 } p v
    else s
  else s

/-- The PCIe function of a requester; the management and test ports use function 0. -/
def reqPort : Requester → Nat
  | .pcie1 => 1
  | _ => 0

/-- SOURCE of a requester (REG_DROP_ADDR). -/
def reqCode : Requester → Nat
  | .pcie0 => 0 | .pcie1 => 1 | .management => 2 | .testAccess => 3

/-- TREMOR_COUNT and TREMOR_STATUS, zero where the page's header is answered for it (R334, R340). -/
def readTremor (s : State) (slot off : Nat) : Nat :=
  if !headerRuns s slot then 0
  else if off = 0x28 then (tremorOf s slot).count else tremorStatus s slot

/-- What a 4-byte aligned read of BAR0 returns (R333, R339, R340). -/
def readReg (s : State) (r : Requester) (off : Nat) : Nat :=
  let slot := off / 4096
  let o := off % 4096
  if slot ≥ 0x3FF0 then msixRead s (reqPort r) ((off - 0x3FF0000) / 4)
  else if pgType slot = 0 then 0
  else if o < 0x80 then
    if pgTremor (pgType slot) ∧ (o = 0x28 ∨ o = 0x30) then readTremor s slot o
    else readHeader s slot o
  else if performs s slot then (specialRead s slot o).getD (storedRead s slot o)
  else 0

/-- HI_BAD_ACCESS of a port (R321). -/
def badAccess (s : State) (r : Requester) : State :=
  match r with
  | .pcie0 => raise s { slot := hiSlot 0, src := srcBadAccess }
  | .pcie1 => raise s { slot := hiSlot 1, src := srcBadAccess }
  | _ => s

/-- A dropped write is counted (R342). -/
def dropWrite (s : State) (r : Requester) (off : Nat) : State :=
  let s := incr s solSlot regDrop
  wg (wg s solSlot regDropAddrOffset (off / 4)) solSlot regDropAddrSource (reqCode r)

/-- What a write does to a block's register `off`: one that does not reach the package does nothing (R423, R426), a
block that is in reset, off or fenced drops it and counts it (R341), a gated one wakes for it (R340). -/
def guardedWrite (s : State) (r : Requester) (slot off : Nat) (f : State → State) : State :=
  if !reached s r then s
  else if performs s slot then f (wakeFor s slot) else dropWrite s r (slot * 4096 + off)

/-! ### Writes of fields without a row of their own -/

/-- Does a write of `v` to an RW field take effect (R431)? -/
def fieldTakes (s : State) (slot : Nat) (f : Fld) (v : Nat) : Bool :=
  match pgType slot, f.off, f.lo with
  | 0x02, 0x80, 0 => v ≤ 4
  | 0x02, 0x84, 0 => 1 ≤ v && v ≤ 3600
  | 0x02, 0xBC, _ => mayInject s
  | 0x08, 0x88, 0 => 70 ≤ v && v ≤ 100
  | 0x10, 0xB4, 12 => v ≤ 5
  | 0x18, 0x80, 0 => 10 ≤ v && v ≤ 10000
  | 0x19, 0xA0, 0 => v ≠ 0
  | 0x20, 0xA0, 0 => v ≠ 0
  | 0x20, 0xE0, 0 => v ≠ 0
  | 0x1C, 0xA0, 0 => v ≤ 4
  | 0x1C, 0xA8, 0 => v ≠ 0
  | 0x1D, 0x80, 8 => 1 ≤ v && v ≤ 32
  | 0x1D, 0x88, _ => rg s slot seqStatusState = 0
  | 0x1D, 0x8C, _ => rg s slot seqStatusState = 0
  | 0x1D, 0x90, _ => rg s slot seqStatusState = 0
  | 0x1E, 0x80, 8 => 1 ≤ v && v ≤ 64
  | 0x1E, 0xEC, 0 => v ≠ 0
  | 0x1E, 0xF0, 0 => v ≠ 0
  | 0x26, 0x80, 0 => v ≠ 0
  | _, _, _ => true

/-- One field of a register write, by its access code (R9). -/
def writeField (s : State) (slot val : Nat) (f : Fld) : State :=
  let v := fget f val
  match f.acc with
  | .rw => if fieldTakes s slot f v then wg s slot f v else s
  | .w1c => let c := rg s slot f; wg s slot f (c - (c &&& v))
  | _ => s

/-- W1C fields of a register that hardware sets in the cycle of a write stay set (R10): `set` holds them in
their fields' places. -/
def setW1c (s : State) (slot off set : Nat) : State :=
  forEach ((blockFields (pgType slot)).filter (fun f => f.off = off && f.acc = .w1c)) s
    (fun s f => wg s slot f (rg s slot f ||| fget f set))

/-- The sources of a page whose events come in the cycle of a write to FAULT_STICKY: their bits stay set
(R10). -/
def setSticky (s : State) (slot set : Nat) : State :=
  forEach (List.range 16) s (fun s n =>
    if bit set n && hasSource (pgType slot) n then raise s { slot := slot, src := n } else s)

/-- The stored fields of a register are written one by one (R431). -/
def writeStored (s : State) (slot off val : Nat) : State :=
  forEach ((blockFields (pgType slot)).filter (fun f => f.off = off)) s
    (fun s f => writeField s slot val f)

/-- Writes that change the entry that JW_SEL selects: ignored while it is valid (R165). -/
def writeJw (s : State) (f : Jw → Jw) : State :=
  let k := rg s solSlot jwSel
  let e := selJw s
  if e.valid then s else { s with jw := mset {} s.jw k (f e) }

/-- A write of PAIR_KEYn: ignored and counted while a job is active (R316). -/
def writePairKey (s : State) (n val : Nat) : State :=
  if (activeJobs s).isEmpty then wg s solSlot (pairKey n) val
  else incr s solSlot lobeModeRejected

/-- A write of the configuration of a disabled queue (R270); `f` sets the fields. -/
def writeQueue (s : State) (h : Nat) (f : Cq → Cq) : State :=
  let q := selQueue s h
  if (cqOf s q).en then s else updCq s q f

/-- A write of a ring's base, ignored while it is enabled. -/
def writeRing (s : State) (p : Nat) (f : Ring → Ring) : State :=
  let r := rg s (hiSlot p) ringSel
  if (ringOf s p r).en then s else updRing s p r f

/-- Writes of selected registers without a row of their own, and of FT_CTL, which ends mastership with CAND (R253);
none where the register is stored. -/
def specialWrite (s : State) (slot off val : Nat) : Option State :=
  let ty := pgType slot
  let h := pgInstance slot
  match ty, off with
  | 0x01, 0x154 => some (writeJw s (fun e => { e with base := e.base / 65536 * 65536 + bits val 16 16 }))
  | 0x01, 0x158 => some (writeJw s (fun e => { e with base := e.base % 65536 + bits val 0 16 * 65536 }))
  | 0x01, 0x15C => some (writeJw s (fun e => { e with units := bits val 0 25 }))
  | 0x01, 0xA4 => some (writePairKey s 0 val)
  | 0x01, 0xA8 => some (writePairKey s 1 val)
  | 0x01, 0xAC => some (writePairKey s 2 val)
  | 0x01, 0xB0 => some (writePairKey s 3 val)
  | 0x01, 0xB8 => some { s with pairPol := mset 0 s.pairPol (rg s solSlot pairSel) (val % 2) }
  | 0x04, 0xA8 =>
    let s := writeStored s slot off val
    some (if rgB s slot ftCtl then s else wg s slot ftStatusMaster 0)
  | 0x10, 0xB8 =>
    let k := rg s hangSlot eruptSelJob * 8 + rg s hangSlot eruptSelTarget
    some { s with eruptT := mset 0 s.eruptT k (bits val 31 1 * 2 ^ 31 + val % 65536) }
  | 0x13, 0x88 => some (writeQueue s h (fun c => { c with members := bits val 0 16 }))
  | 0x13, 0x8C => some (writeQueue s h (fun c => { c with rt := setBits c.rt 0 30 val }))
  | 0x13, 0x90 => some (writeQueue s h (fun c => { c with rt := setBits c.rt 30 18 val }))
  | 0x14, 0x88 => some (writeRing s h (fun r => { r with base := setBits r.base 0 32 (val / 4096 * 4096) }))
  | 0x14, 0x8C => some (writeRing s h (fun r => { r with base := setBits r.base 32 32 val }))
  | _, _ => none

end Sys2Proof.Machine
end

