-- ==== Sys2Proof/Machine/HostCmds.lean ====
section
/-!
DEFINITION. Commands submitted through SUBMIT, completion records and their messages, DMA completion
and accesses through BAR4 (R322 to R332).
-/

namespace Sys2Proof.Machine

/-! ### Submission -/

/-- OPCODE that DESC of a command port holds. -/
def descOp (s : State) (p n : Nat) : Nat := bits (cportOf s p n).desc 0 8

/-- Does the port take commands (R325)? -/
def takesCommands (s : State) (p n : Nat) : Bool := n = 255 || (cportOf s p n).kind = 0

/-- A read of SUBMIT that is not 8 bytes wide, in whichever part of it, returns all ones, submits nothing and raises
HI_BAD_ACCESS (R325). -/
def badSubmit (s : State) (p : Half) (width : Nat) : State :=
  let r : Requester := if p = 0 then .pcie0 else .pcie1
  settle (badAccess { s with resp := .value (2 ^ (8 * width) - 1) } r)

/-- A read of SUBMIT on a port that takes commands, whose DESC names an opcode that `ok` accepts; a read
that does not is not this command. -/
def submitCmd (s : State) (p : Half) (n width : Nat) (ok : Nat → Bool) : State :=
  if takesCommands s p n && ok (descOp s p n) then
    if width = 8 then settle (submit s p n) else badSubmit s p width
  else s

/-- NOP, and the reserved opcodes, which complete with MALFORMED (R326). -/
def execCmdNop (p : Half) (n : Fin 256) (width : Nat) (s : State) :
    Host.Outcome State Fault Refusal :=
  .next (submitCmd s p n width (fun o => o = 0 || 6 ≤ o))

/-- DMA (R331). -/
def execCmdDma (p : Half) (n : Fin 256) (width : Nat) (s : State) :
    Host.Outcome State Fault Refusal :=
  .next (submitCmd s p n width (fun o => o = 1))

/-- SEQ_RUN (R135, R326). -/
def execCmdSeqRun (p : Half) (n : Fin 256) (width : Nat) (s : State) :
    Host.Outcome State Fault Refusal :=
  .next (submitCmd s p n width (fun o => o = 2))

/-- ABORT (R332). -/
def execCmdAbort (p : Half) (n : Fin 256) (width : Nat) (s : State) :
    Host.Outcome State Fault Refusal :=
  .next (submitCmd s p n width (fun o => o = 3))

/-- TEST (R366). -/
def execCmdTest (p : Half) (n : Fin 256) (width : Nat) (s : State) :
    Host.Outcome State Fault Refusal :=
  .next (submitCmd s p n width (fun o => o = 4))

/-- WAIT_FAULT (R326). -/
def execCmdWaitFault (p : Half) (n : Fin 256) (width : Nat) (s : State) :
    Host.Outcome State Fault Refusal :=
  .next (submitCmd s p n width (fun o => o = 5))

/-- A post to the communication queue of a port of queue kind (R325). -/
def submitPost (s : State) (p : Half) (n width : Nat) : State :=
  if takesCommands s p n then s
  else if width ≠ 8 then badSubmit s p width
  else if submitBusy s p n then submit s p n
  else
    let h := portHandle s p n
    settle (postFromHost (submit s p n) p n h)

/-- Queue post from the host. -/
def execQueuePostHost (p : Half) (n : Fin 256) (width : Nat) (s : State) :
    Host.Outcome State Fault Refusal :=
  .next (submitPost s p n width)

/-- A read of SUBMIT of a port, whatever its kind. -/
def submitAny (s : State) (p : Half) (n width : Nat) : State :=
  if takesCommands s p n then if width = 8 then settle (submit s p n) else badSubmit s p width
  else submitPost s p n width

/-! ### Completion records (R328, R329) -/

/-- Records in a ring that software has not consumed. -/
def ringUsed (r : Ring) : Nat := (r.tail + 65536 - r.head) % 65536

/-- PHASE of the record number `tail`: 1 on the first pass after EN. -/
def ringPhase (r : Ring) : Nat := (r.tail / 2 ^ r.size + 1) % 2

/-- The 32 bytes of a completion record. -/
def recordBytes (c : CRec) (phase : Nat) : List Byte :=
  leBytes 8 c.handle ++ leBytes 8 c.result ++ leBytes 8 c.time ++ leBytes 4 c.detail ++
    leBytes 2 c.status ++ leBytes 1 0 ++ leBytes 1 phase

/-- A record of the ring is written, and its vector sent unless a holdoff runs. -/
def writeRecord (s : State) (p k : Nat) : State :=
  let r := ringOf s p k
  match r.waiting with
  | [] => s
  | c :: cs =>
    if !r.en ∨ 2 ^ r.size ≤ ringUsed r then s
    else
      let a := r.base + 32 * (r.tail % 2 ^ r.size)
      let s := { s with hostOut := s.hostOut ++ [⟨p, a, recordBytes c (ringPhase r)⟩] }
      let r := { r with waiting := cs, tail := (r.tail + 1) % 65536 }
      if c.irq && r.irqEn then
        if r.holding then updRing s p k (fun _ => { r with owed := true })
        else sendMsix (updRing s p k (fun _ => { r with holding := r.holdoff ≠ 0 })) p r.vector
      else updRing s p k (fun _ => r)

/-- A completion record is written once there is room. -/
def execCompletionRecordWrite (p : Half) (ring : Fin 64) (s : State) :
    Host.Outcome State Fault Refusal :=
  .next (writeRecord s p ring)

/-- A holdoff ends: the vector is sent for the records that completed within it, and a new holdoff
begins. -/
def holdoffEnds (s : State) (p k : Nat) : State :=
  let r := ringOf s p k
  if !r.holding then s
  else if r.owed then sendMsix (updRing s p k (fun r => { r with owed := false })) p r.vector
  else updRing s p k (fun r => { r with holding := false })

/-- MSI-X holdoff expiry. -/
def execMsixHoldoffExpiry (p : Half) (ring : Fin 64) (s : State) :
    Host.Outcome State Fault Refusal :=
  .next (holdoffEnds s p ring)

/-! ### DMA completion (R331) -/

/-- The event of a host error (R331). -/
def hostErrEvent (p job : Nat) : Event := { slot := hiSlot p, src := srcHostErr, job := job }

/-- The host has answered the reads of a DMA with its data. -/
def dmaHostData (s : State) (p n : Nat) (c : Cmd) (bs : List Byte) : State :=
  if bs.length ≠ dmaBytes c then s
  else if dmaDstFar s c then
    pumpDma 2200 (updCmd s p n c.handle (fun c =>
      { c with issued := dmaBytes c, buf := [(0, bs)] })) p n
  else if dmaStoreWaits s c then s
  else endDma (dmaStore s c 0 bs) c stOk bs.length

/-- A DMA from this package's memory to this package or to the host. Reading stops at an uncorrectable
sector (R180); how many of the bytes ahead of it have been written is free. -/
def dmaCopy (s : State) (c : Cmd) : State :=
  let a := bdLocal (dmaSrc c)
  let n := dmaBytes c
  let (s, bad) := reportBad s .hostDma a n
  match bad with
  | none => endDma (dmaStore s c 0 (rdBytes s (primaryAddr s a) n)) c stOk n
  | some x =>
    let (i, s) := useFree s
    let m := x - primaryAddr s a
    let k := min m (max (2048 * c.counted) (Config.freeValue i % (m + 1)))
    endDma (dmaStore s c 0 (rdBytes s (primaryAddr s a) k)) c stDataError k

/-- A DMA that moves data to or from another slot finishes when no request is outstanding and all bytes
are written, or an error has been answered. -/
def dmaRemoteEnd (s : State) (c : Cmd) : State :=
  if c.left ≠ 0 then s
  else if c.err ≠ 0 then endDma s c c.err c.moved
  else if c.moved = dmaBytes c then endDma s c stOk c.moved
  else s

/-- A host DMA command finishes, as far as it can; its reads wait while a channel is held, and its stores
under the back-pressure of a hold buffer (R191, R407). One that the hang engine aborts ends ABORTED (R353). -/
def finishDma (s : State) (p n : Nat) (a : HostAnswer) : State :=
  match dmaOf s p n with
  | none => s
  | some c =>
    if c.err = stAborted then cutDma s c stAborted
    else if dmaSrcHost c ∧ c.issued = 0 then
      match a with
      | .data bs => dmaHostData s p n c bs
      | _ =>
        cutDma (raise s (hostErrEvent p (cmdJob c))) c stHostError
    else if dmaSrcFar s c ∨ dmaDstFar s c then dmaRemoteEnd s c
    else if isHeld s (.half p) (primaryAddr s (bdLocal (dmaSrc c))) (dmaBytes c) ∨ dmaStoreWaits s c then s
    else dmaCopy s c

/-- What a running DMA has moved is seen as traffic of the memory. -/
def dmaTraffic (s : State) (p n : Nat) : State := if (dmaOf s p n).isSome then traffic s else s

/-- DMA completion. -/
def execDmaComplete (p : Half) (n : Fin 256) (a : HostAnswer) (s : State) :
    Host.Outcome State Fault Refusal :=
  .next (settle (finishDma (dmaTraffic s p n) p n a))

/-! ### BAR4 (R320, R322) -/

/-- A host read through BAR4. -/
def execBar4Read (p : Half) (off len : Nat) (s : State) : Host.Outcome State Fault Refusal :=
  .next (if inBar4 s p off len then settle (barRead (traffic s) (barReq s p off len)) else s)

/-- A host write through BAR4. -/
def execBar4Write (p : Half) (off : Nat) (data : List Byte) (s : State) :
    Host.Outcome State Fault Refusal :=
  .next (if inBar4 s p off data.length then settle (barWrite (traffic s) p off data) else s)

end Sys2Proof.Machine
end

