-- ==== Sys2Proof/Machine/Remote.lean ====
section
/-!
DEFINITION. Remote accesses (R246 to R250): what a target performs in RSEQ order, what an issuer does
with a response or without one, and negative acknowledgements (R239).
-/

namespace Sys2Proof.Machine

/-- Has the packet been delivered to this package's blocks, with a type? -/
def hasPacket (s : State) (p : Packet) (type : Nat) : Bool := p.type = type && s.inbox.contains p

/-- Without the packet. -/
def takePacket (s : State) (p : Packet) : State := { s with inbox := s.inbox.erase p }

/-! ### The target -/

/-- Bytes that a remote access names. -/
def remoteLen (p : Packet) : Nat := if p.type = 6 then 8 else p.bytes % 2048 + 1

/-- RSP status of a code of R330 that a local check answered. -/
def rspStatus (code : Nat) : Nat :=
  if code = stAddrErr then 1 else if code = stWindow then 2 else if code = stTargetReset then 4 else 0

/-- The checks of R250 in their order: 0 or the status of the first that fails. -/
def remoteCheck (s : State) (p : Packet) : Nat :=
  let sh := s.pins.straps.shape
  if boardOrigin sh p.src ≠ boardOrigin sh (myPos s) then 3
  else rspStatus (localCheck s (p.type ≠ 4) p.job p.addr (remoteLen p))

/-- The response to a request. -/
def respond (s : State) (p : Packet) (status : Nat) (data : List Byte) : State :=
  let (pay, len) := flitPad data
  let r : Packet := { type := 7, len := len, dest := p.src, src := myPos s, job := p.job,
                      epoch := p.epoch, status := status, tag := p.tag, payload := pay }
  { s with inject := s.inject ++ [r] }

/-- Performing a request whose turn it is (R249, R250): one that fails a check changes nothing; an
uncorrectable sector ends a load or a fetch-add with the data-error status (R180, assumption 24). -/
def performRemote (s : State) (p : Packet) : State :=
  let e := remoteCheck s p
  let n := remoteLen p
  if e ≠ 0 then respond s p e []
  else if p.type = 5 then respond (storeBoth s .fabric p.addr (p.payload.take n)) p 0 []
  else
    let (s, bad) := reportBad s .remote p.addr n
    if bad.isSome then respond s p (Config.remoteDataError % 256) []
    else
      let old := rdBytes s (primaryAddr s p.addr) n
      let s := if p.type = 6 then
          storeBoth s .fabric p.addr (leBytes 8 (leNat old + leNat (p.payload.take 8)))
        else s
      respond s p 0 old

/-- RSEQ that the target expects next of a packet's source, job and epoch. -/
def expectSeq (s : State) (p : Packet) : Nat := mget 0 s.remote.rxSeq (rseqKey p.src p.job p.epoch)

/-- Are two packets of one source, job and epoch? -/
def sameStream (p q : Packet) : Bool := p.src = q.src && p.job = q.job && p.epoch = q.epoch

/-- The request that came early and has its turn now. -/
def nextEarly (s : State) (p : Packet) : Option Packet :=
  s.remote.early.find? (fun q => sameStream p q && q.rseq = expectSeq s p)

/-- Must a request wait: for a held channel, for an edge, or what it stores for room in a hold buffer (R191, R207,
R407)? -/
def remoteHeld (s : State) (p : Packet) : Bool :=
  (p.type ≠ 5 && isHeld s .fabric (primaryAddr s p.addr) (remoteLen p)) ||
  (p.type ≠ 4 && bothWait s .fabric p.addr (remoteLen p))

/-- A request is performed, and those held behind it whose turn comes, up to one that a held channel keeps
waiting at the front; `n` bounds them. -/
def performInOrder : Nat → State → Packet → State
  | 0, s, _ => s
  | n + 1, s, p =>
    let k := rseqKey p.src p.job p.epoch
    let s := performRemote s p
    let s := { s with remote := { s.remote with
      rxSeq := mset 0 s.remote.rxSeq k ((p.rseq + 1) % 65536) } }
    match nextEarly s p with
    | some q =>
      let s := { s with remote := { s.remote with early := s.remote.early.erase q } }
      if remoteHeld s q then { s with inbox := q :: s.inbox } else performInOrder n s q
    | none => s

/-- A request arrives: it is performed in RSEQ order, up to 64 early ones of a source are held (R248); one that must
wait stays where it is. -/
def remoteArrive (s : State) (p : Packet) : State :=
  let e := expectSeq s p
  if p.rseq = e then
    if remoteHeld s p then s else performInOrder 65 (takePacket (traffic s) p) p
  else
    let s := takePacket s p
    let ahead := (p.rseq + 65536 - e) % 65536
    let held := s.remote.early.filter (fun q => q.src = p.src)
    if ahead < 32768 ∧ held.length < 64 ∧ held.all (fun q => !(sameStream p q && q.rseq = p.rseq)) then
      { s with remote := { s.remote with early := s.remote.early ++ [p] } }
    else s

/-- RLD at its target. -/
def execRemoteLoad (p : Packet) (s : State) : Host.Outcome State Fault Refusal :=
  .next (if hasPacket s p 4 then settle (remoteArrive s p) else s)

/-- RST at its target. -/
def execRemoteStore (p : Packet) (s : State) : Host.Outcome State Fault Refusal :=
  .next (if hasPacket s p 5 then settle (remoteArrive s p) else s)

/-- RFA at its target. -/
def execRemoteFetchAdd (p : Packet) (s : State) : Host.Outcome State Fault Refusal :=
  .next (if hasPacket s p 6 then settle (remoteArrive s p) else s)

/-! ### The issuer -/

/-- The completion status of a response (R330): NOT_BOARD counts as an address error, a status that
R250 does not list as a data error. -/
def issuerStatus (status : Nat) : Nat :=
  match status with
  | 1 => stAddrErr
  | 2 => stWindow
  | 3 => stAddrErr
  | 4 => stTargetReset
  | _ => stDataError

/-- A DMA has moved `n` bytes more. -/
def dmaMoved (s : State) (p n h k : Nat) : State :=
  let s := updCmd s p n h (fun c => { c with left := c.left - 1, moved := c.moved + k })
  match cmdOf s p n h with
  | some c => countDma s p n c c.moved
  | none => s

/-- Must the data of a response wait to be stored (R407)? -/
def answerWaits (s : State) (o : Outstanding) : Bool :=
  match o.owner with
  | .dma _ h => o.load && (match cmdOf s (handlePort h).1 (handlePort h).2 h with
    | some c => !dmaDstHost c && !dmaDstFar s c &&
        bothWait s (.half (handlePort h).1) (bdLocal (dmaDst c) + o.off) o.len
    | none => false)
  | .bar4 .. => false

/-- A DMA's request ends: `code` is 0 or the status of R330. -/
def dmaAnswer (s : State) (o : Outstanding) (h code : Nat) (data : List Byte) : State :=
  let (p, n) := handlePort h
  match cmdOf s p n h with
  | none => s
  | some c =>
    if code ≠ 0 then updCmd s p n h (fun c =>
      { c with left := c.left - 1, err := if c.err = 0 then code else c.err })
    else if !o.load then dmaMoved s p n h o.len
    else if dmaDstFar s c then updCmd s p n h (fun c =>
      { c with left := c.left - 1, buf := c.buf ++ [(o.off, data.take o.len)] })
    else dmaMoved (dmaStore s c o.off (data.take o.len)) p n h o.len

/-- A part of a BAR4 read has come or failed; the last one answers the read, poisoned where a sector was
uncorrectable (R322). -/
def barAnswer (s : State) (p id : Nat) (o : Outstanding) (code : Nat) (data : List Byte) : State :=
  match s.remote.reads.find? (fun x => x.1 = id) with
  | none => s
  | some (_, b) =>
    let b := { b with
      left := b.left - 1
      failed := b.failed || (code ≠ 0 && code ≠ stDataError)
      poison := b.poison || code = stDataError
      got := if code = 0 then mset [] b.got o.off (data.take o.len) else b.got }
    let s := if code ≠ 0 ∧ code ≠ stDataError then barFail s p o.off o.job code else s
    if b.left = 0 then
      { s with
        resp := if b.failed then .completerAbort else if b.poison then .poisoned else .bytes (barBytes b.got)
        remote := { s.remote with reads := mdel s.remote.reads id } }
    else { s with remote := { s.remote with reads := mins s.remote.reads id b } }

/-- An outstanding request ends. -/
def endRequest (s : State) (o : Outstanding) (code : Nat) (data : List Byte) : State :=
  let s := { s with remote := { s.remote with out := s.remote.out.erase o } }
  match o.owner with
  | .dma _ h => dmaAnswer s o h code data
  | .bar4 p (some id) => barAnswer s p id o code data
  | .bar4 p none => if code ≠ 0 then barFail s p o.off o.job code else s

/-- A response: matched by its tag, else discarded (R250). -/
def takeResponse (s : State) (p : Packet) : State :=
  match s.remote.out.find? (fun o => o.tag = p.tag && o.target = p.src) with
  | none => takePacket s p
  | some o =>
    if p.status = 0 && answerWaits s o then s
    else endRequest (takePacket s p) o (if p.status = 0 then 0 else issuerStatus p.status) p.payload

/-- RSP at its issuer. -/
def execRemoteResponse (p : Packet) (s : State) : Host.Outcome State Fault Refusal :=
  .next (if hasPacket s p 7 then settle (takeResponse s p) else s)

/-- A request without a response for 10 ms ends with TIMEOUT (R250). -/
def requestTimeout (s : State) (tag : Nat) : State :=
  match s.remote.out.find? (fun o => o.tag = tag) with
  | none => s
  | some o => endRequest s o stTimeout []

/-- Remote request timeout. -/
def execRemoteRequestTimeout (tag : Nat) (s : State) : Host.Outcome State Fault Refusal :=
  .next (settle (requestTimeout s tag))

/-! ### NACKs (R239) -/

/-- A NACK that reaches the package raises FAB_NACK for the job it names. -/
def takeNack (s : State) (p : Packet) : State :=
  let s := takePacket s p
  if 5 ≤ p.status ∧ p.status ≤ 7 then raise s { slot := routerSlot, src := srcFabNack, job := p.job }
  else s

/-- NACK. -/
def execNackReceive (p : Packet) (s : State) : Host.Outcome State Fault Refusal :=
  .next (if hasPacket s p 8 then settle (takeNack s p) else s)

end Sys2Proof.Machine
end

