-- ==== Sys2Proof/Machine/Router.lean ====
section
/-!
DEFINITION. The Nyosh router (R228 to R245): checks of entering packets, routes and detours, starts on
a link, codewords and link flits, ports that go down, and the exchange of port states.
-/

namespace Sys2Proof.Machine

/-! ### Packets (R231 to R233) -/

/-- Least and largest LEN of a type; none for a type that no packet carries. -/
def lenRange (type : Nat) : Option (Nat × Nat) :=
  match type with
  | 1 => some (1, 32) | 2 => some (0, 1) | 3 => some (0, 32) | 4 => some (0, 0)
  | 5 => some (1, 32) | 6 => some (1, 1) | 7 => some (0, 32) | 8 => some (0, 0)
  | 9 => some (0, 1) | 0xA => some (0, 0) | 0xB => some (0, 0) | 0xC => some (0, 1)
  | _ => none

/-- Is the packet malformed (R233)? -/
def isMalformed (p : Packet) : Bool :=
  p.resv ≠ 0 || p.dest ≥ 65536 ||
  (match lenRange p.type with
   | none => true
   | some (lo, hi) => p.len < lo || hi < p.len) ||
  (if p.type = 0xB ∨ p.type = 0xC then p.job ≠ 0 else p.job = 0 || p.job > 4095) ||
  (p.detour && p.blk = 3) ||
  ((p.type = 4 || p.type = 5) && p.addr % 2048 + p.bytes % 2048 + 1 > 2048) ||
  (p.type = 6 && p.addr % 8 ≠ 0)

/-! ### Routes (R236, R244) -/

/-- Coordinate of a position on an axis: 0 X, 1 Y, 2 Z. -/
def coord (pos a : Nat) : Nat :=
  match a with | 0 => bits pos 0 6 | 1 => bits pos 6 6 | _ => bits pos 12 4

/-- The port along axis `a` toward a destination, none when the coordinate agrees. -/
def axisPort (s : State) (dest a : Nat) : Option Nat :=
  let me := coord (myPos s) a
  let d := coord dest a
  if me < d then some (2 * a) else if d < me then some (2 * a + 1) else none

/-- The next port of a packet whose DETOUR is clear (R236). -/
def nextPort (s : State) (dest : Nat) : Option Nat := [0, 1, 2].findSome? (axisPort s dest)

/-- The next port of a detoured packet: axis BLK first (R244). -/
def detourPort (s : State) (dest blk : Nat) : Option Nat :=
  (blk :: [0, 1, 2]).findSome? (axisPort s dest)

/-- Is the port of no use for a route: down or dark? -/
def portShut (s : State) (p : Nat) : Bool := portDark s p || portIsDown s p

/-- A packet waits for its output link; `src` is the port that it fills a buffer of. -/
def waitOut (s : State) (port : Nat) (p : Packet) (src : Option (Nat × Packet)) : State :=
  { s with outq := s.outq ++ [{ port := port, vc := packetVc p.type, detour := p.detour, pkt := p, src := src }] }

/-- Where a packet goes (R236, R244): to this package's own blocks, on a port with the packet as it leaves, or
nowhere. -/
inductive Way where
  | here
  | out (port : Nat) (p : Packet)
  | none
  deriving DecidableEq, Repr

/-- The way of a packet: its next port, or that port's detour where it is shut. -/
def wayOf (s : State) (p : Packet) : Way :=
  match (if p.detour then detourPort s p.dest p.blk else nextPort s p.dest) with
  | none => .here
  | some port =>
    if !portShut s port then .out port p
    else if p.detour then .none
    else
      let side := mget 0 s.sidestep port
      if side = 0 ∨ portShut s (side - 1) then .none
      else .out (side - 1) { p with detour := true, blk := port / 2 }

/-- Sending a packet on, or delivering it to this package's own blocks, which frees its buffer; none where it
has no route (R244). -/
def routeTo (s : State) (p : Packet) (src : Option (Nat × Packet) := none) : Option State :=
  match wayOf s p with
  | .here => some (returnCredit { s with inbox := s.inbox ++ [p] } src)
  | .out port q => some (waitOut s port q src)
  | .none => none

/-- A NACK to a discarded packet's source, unless that is a NACK (R233). The router that makes it does
not check it as a packet that enters; a NACK without a route is discarded. -/
def sendNack (s : State) (p : Packet) (status : Nat) : State :=
  if p.type = 8 then s
  else
    let r : Packet := { type := 8, dest := p.src, src := myPos s, job := p.job, epoch := p.epoch,
                        status := status, tag := p.tag }
    (routeTo s r).getD (incr s routerSlot discRoute)

/-- Discarding a packet that has no route (R244, R245). -/
def discardRoute (s : State) (p : Packet) (nack : Bool := true) : State :=
  let s := incr s routerSlot discRoute
  if nack then sendNack s p 5 else s

/-- Sending a packet on, or discarding it where it has no route. -/
def routeOut (s : State) (p : Packet) (src : Option (Nat × Packet) := none) : State :=
  (routeTo s p src).getD (discardRoute (returnCredit s src) p)

/-- The check of a packet's job (R239, R240): 0 enters, 1 not of a job here, 2 stale. -/
def jobCheck (s : State) (p : Packet) : Nat :=
  if p.job = 0 then 0
  else
    let j := jobOf s p.job
    if !j.member && !j.transit then 1
    else if j.member then
      if p.type = 0xA ∧ p.dest ≠ myPos s ∧ p.epoch = j.epoch ∧ (j.state = 1 ∨ j.state = 2) then 0
      else if j.state ≠ 1 ∨ p.epoch ≠ j.epoch then 2 else 0
    else 0

/-- A packet enters the router: it is checked, then routed, detoured, delivered or discarded. -/
def enterRouter (s : State) (p : Packet) (src : Option (Nat × Packet) := none) : State :=
  if isMalformed p then sendNack (incr (returnCredit s src) routerSlot discMalf) p 7
  else match jobCheck s p with
  | 1 => sendNack (incr (returnCredit s src) routerSlot discTransit) p 6
  | 2 => incr (returnCredit s src) routerSlot discStale
  | _ => routeOut s p src

/-- A packet that has arrived in part and that the router has not taken; not while a replay repeats flits that have
been taken (R229). -/
def openPart (s : State) (port : Nat) (p : Packet) : Option PartIn :=
  let l := linkOf s port
  if l.rx = l.seen then l.part.find? (fun x => x.pkt = p && !x.entered) else none

/-- The router takes a packet of which a part has arrived, to forward it as it comes (R230, assumption 127); one that
is for this package, or that it will discard, it takes only whole. -/
def enterCut (s : State) (port : Nat) (x : PartIn) : State :=
  if isMalformed x.pkt ∨ jobCheck s x.pkt ≠ 0 then s
  else match wayOf s x.pkt with
    | .out o q =>
      let l := linkOf s port
      let s := setLink s port { l with
        part := l.part.map (fun y => if y = x then { y with entered := true } else y) }
      { s with outq := s.outq ++ [{ port := o, vc := x.vc, detour := q.detour, pkt := q,
                                    src := some (port, x.pkt), cut := true }] }
    | _ => s

/-- A packet of this package enters, or one that has arrived on a port, whole or in part. -/
def packetEnters (s : State) (src : Option FabPort) (p : Packet) : State :=
  match src with
  | none => if s.inject.contains p then enterRouter { s with inject := s.inject.erase p } p else s
  | some port =>
    if !portUp s port then s
    else match openPart s port p with
      | some x => enterCut s port x
      | none => enterRouter { s with arrived := s.arrived.erase (port.val, p) } p (some (port.val, p))

/-- Router packet entry. -/
def execRouterPacketEnter (src : Option FabPort) (p : Packet) (s : State) :
    Host.Outcome State Fault Refusal :=
  .next (packetEnters s src p)

/-! ### Links (R228, R229, R234) -/

/-- Has an output's virtual channel a packet that is being forwarded in part? Its flits follow one another (R234). -/
def vcBusy (s : State) (port vc : Nat) : Bool := (cutOnto s port).any (fun q => packetVc q.type = vc)

/-- Bulk codewords that a packet takes in the replay store; one that comes in part may take one for each flit. -/
def storeCost (w : OutWait) : Nat :=
  if w.vc = 3 then 0 else if w.cut then flitsOf w.pkt else cdiv (flitsOf w.pkt) 4

/-- May a waiting packet start on its link? -/
def canStart (s : State) (w : OutWait) : Bool :=
  portUp s w.port && replayRoom s w.port (storeCost w) && !vcBusy s w.port w.vc &&
  creditCost w.pkt ≤ creditsLeft s w.port (creditKey w.vc w.detour)

/-- The packet that a virtual channel and class of an output would start next. -/
def headOf (s : State) (port vc : Nat) (detour : Bool) : Option OutWait :=
  s.outq.find? (fun w => w.port = port && w.vc = vc && w.detour = detour)

/-- Could a virtual channel of an output start a packet? -/
def vcReady (s : State) (port vc : Nat) : Bool :=
  [false, true].any (fun d => match headOf s port vc d with
    | some w => canStart s w
    | none => false)

/-- Is it the virtual channel's turn (R234)? Control goes first; reduction and bulk alternate. -/
def vcTurn (s : State) (port vc : Nat) : Bool :=
  match vc with
  | 1 => !vcReady s port 0 && !(vcReady s port 2 && (linkOf s port).last = 1)
  | 2 => !vcReady s port 0 && !(vcReady s port 1 && (linkOf s port).last = 2)
  | _ => true

/-- Flits of a packet leave in their codewords. -/
def sendFlits (s : State) (port : Nat) (p : Packet) (fs : List Flit) : State :=
  let fum := packetVc p.type = 3
  forEach (dealFlits fum fs) s (fun s fs => sendCodeword s port fum fs)

/-- A packet of which a part has arrived starts: that part leaves, the rest follows as it comes. -/
def startCut (s : State) (w : OutWait) : State :=
  match w.src with
  | none => s
  | some (i, _) =>
    let l := linkOf s i
    match l.part.find? (fun x => x.entered && waitsCut i x w) with
    | none => s
    | some x =>
      let s := sendFlits s w.port w.pkt ((packetFlits w.pkt).take (flitsOf w.pkt - x.left))
      let l := linkOf s i
      setLink s i { l with
        part := l.part.map (fun y => if y = x then { y with out := some (w.port, w.pkt) } else y) }

/-- A packet starts: it takes its credits, leaves in its codewords, and frees the buffer that it filled. -/
def startOnLink (s : State) (w : OutWait) : State :=
  let l := linkOf s w.port
  let k := creditKey w.vc w.detour
  let l := { l with
    used := mset 0 l.used k (mget 0 l.used k + creditCost w.pkt)
    last := if w.vc = 1 ∨ w.vc = 2 then w.vc else l.last }
  let s := setLink { s with outq := s.outq.erase w } w.port l
  if w.cut then startCut s w else returnCredit (sendFlits s w.port w.pkt (packetFlits w.pkt)) w.src

/-- The next packet of an output's virtual channel and class starts if it may. -/
def linkStart (s : State) (port vc : Nat) (detour : Bool) : State :=
  match headOf s port vc detour with
  | some w => if canStart s w && vcTurn s port vc then startOnLink s w else s
  | none => s

/-- Packet link start. -/
def execPacketLinkStart (port : FabPort) (vc : Fin 4) (detour : Bool) (s : State) :
    Host.Outcome State Fault Refusal :=
  .next (linkStart s port vc detour)

/-- Is sequence number `a` at or before `b`, modulo 2^14? A receiver tells what came before from what comes ahead by
the half range (assumption 151). -/
def seqLe (a b : Nat) : Bool := (b + 16384 - a) % 16384 < 8192

/-- The sequence number before. -/
def seqBefore (a : Nat) : Nat := (a + 16383) % 16384

/-- What an acknowledgement covers leaves the replay store: the codeword that it names and those before it; a number
that the store does not hold covers none (R229). -/
def ackLink (l : Link) (ack : Nat) : Link :=
  match l.replay.findIdx? (fun cw => cw.seq = ack) with
  | some i => { l with replay := l.replay.drop (i + 1) }
  | none => l

/-- The codewords of the replay store from one on are sent again. -/
def resendFrom (s : State) (port seq : Nat) : State :=
  forEach ((linkOf s port).replay.dropWhile (fun cw => cw.seq ≠ seq)) s (fun s cw => putCodeword s port cw)

/-- The codeword that ACK names: the last one accepted, or the one before the first flit of a packet that has
not arrived whole, the earliest such (R229). -/
def ackOf (l : Link) : Nat :=
  let back (q : Nat) : Nat := (l.rx + 16384 - q) % 16384
  seqBefore (l.part.foldl (fun a x => if back a ≤ back x.first then x.first else a) l.rx)

/-- Are the flits of the codeword accepted next new: has none of them been taken before a replay? -/
def isFresh (l : Link) (seq : Nat) : Bool := seq = l.seen

/-- A link flit takes effect: credits come back, or the packet partly received on a virtual channel is
discarded, which frees its buffer; what has been forwarded of it is truncated in turn (R229, R230). -/
def takeLinkFlit (s : State) (port : Nat) (f : LinkFlit) : State :=
  let l := linkOf s port
  match f with
  | .credit vc d n =>
    let k := creditKey vc d
    setLink s port { l with used := mset 0 l.used k (mget 0 l.used k - n) }
  | .truncate vc =>
    match l.part.find? (fun x => x.vc = vc.val) with
    | none => s
    | some x =>
      let s := setLink s port { l with part := l.part.filter (fun x => x.vc ≠ vc.val) }
      returnCredit (dropCut s port x) (some (port, x.pkt))

/-- A packet that the router took in part has arrived whole: its buffer is free once all of it is forwarded. -/
def endCut (s : State) (port : Nat) (x : PartIn) : State :=
  if s.outq.any (waitsCut port x) then
    { s with outq := s.outq.map (fun w => if waitsCut port x w then { w with cut := false } else w) }
  else returnCredit s (some (port, x.pkt))

/-- A payload flit of a packet that is being forwarded follows it. -/
def followFlit (s : State) (x : PartIn) : State :=
  match x.out with
  | some (o, q) => sendFlits s o q [.body (vcN (packetVc q.type))]
  | none => s

/-- A packet has arrived whole: it is handed on, unless it was delivered before a replay. -/
def arrivePacket (s : State) (port seq : Nat) (p : Packet) : State :=
  if isFresh (linkOf s port) seq then { s with arrived := s.arrived ++ [(port, p)] } else s

/-- A flit of codeword `seq` is taken: a packet opens, goes on or arrives; a link flit takes effect once, though a repeated truncation mark ends the packet that its repeated flits have opened
again. -/
def takeFlit (s : State) (port seq : Nat) (f : Flit) : State :=
  let l := linkOf s port
  match f with
  | .head p =>
    let v := packetVc p.type
    let rest := l.part.filter (fun x => x.vc ≠ v)
    if p.len = 0 then arrivePacket (setLink s port { l with part := rest }) port seq p
    else setLink s port { l with part := rest ++ [{ vc := v, pkt := p, left := p.len, first := seq }] }
  | .body vc =>
    match l.part.find? (fun x => x.vc = vc.val) with
    | none => s
    | some x =>
      let rest := l.part.filter (fun x => x.vc ≠ vc.val)
      let s := setLink s port { l with part := if x.left = 1 then rest else rest ++ [{ x with left := x.left - 1 }] }
      if x.entered then
        let s := followFlit s x
        if x.left = 1 then endCut s port x else s
      else if x.left = 1 then arrivePacket s port seq x.pkt
      else s
  | .link f =>
    if isFresh l seq then takeLinkFlit s port f
    else match f with
      | .truncate vc => setLink s port { l with part := l.part.filter (fun x => x.vc ≠ vc.val) }
      | _ => s

/-- A data codeword in its turn: its flits are taken, and RX and ACK advance. -/
def acceptCodeword (s : State) (port : Nat) (cw : Codeword) : State :=
  let s := forEach cw.flits s (fun s f => takeFlit s port cw.seq f)
  let l := linkOf s port
  let next := (cw.seq + 1) % 16384
  let l := { l with rx := next, seen := if isFresh l cw.seq then next else l.seen }
  setLink s port { l with ack := ackOf l }

/-- The codewords that came ahead of their turn are accepted as their turn comes; `n` bounds them. -/
def acceptEarly : Nat → State → Nat → State
  | 0, s, _ => s
  | n + 1, s, port =>
    let l := linkOf s port
    match l.early.find? (fun cw => cw.seq = l.rx) with
    | none => s
    | some cw =>
      let rest := l.early.filter (fun x => x.seq ≠ cw.seq)
      acceptEarly n (acceptCodeword (setLink s port { l with early := rest }) port cw) port

/-- A data codeword: the receiver restores the order of SEQ; one accepted before is dropped (R228, R229). An
idle codeword takes the new ACK back. -/
def takeCodeword (s : State) (port : Nat) (cw : Codeword) : State :=
  let l := linkOf s port
  if cw.seq = l.rx then
    let s := acceptEarly l.early.length (acceptCodeword s port cw) port
    sendBare s port .idle (linkOf s port).tx
  else if seqLe cw.seq l.rx ∨ l.early.any (fun x => x.seq = cw.seq) then s
  else setLink s port { l with early := l.early ++ [cw] }

/-- Symbols that the code of a codeword corrects: RS(224, 208), or RS(68, 56) on the fumarole lane (R228). -/
def corrects (fum : Bool) : Nat := if fum then 6 else 8

/-- A codeword is received (R228, R229): an uncorrectable one is answered with a NAK that names the first
missing; ACK frees the replay store. -/
def receiveCodeword (s : State) (port : Nat) (cw : Codeword) : State :=
  if !portUp s port then s
  else if corrects cw.fum < cw.bad then sendBare s port .nak (linkOf s port).rx
  else
    let s := payCredits (setLink s port (ackLink (linkOf s port) cw.ack)) port
    match cw.kind with
    | .idle => s
    | .nak => resendFrom s port cw.seq
    | .reserved => s
    | .data => takeCodeword s port cw

/-- Codeword receipt. -/
def execCodewordReceive (port : FabPort) (cw : Codeword) (s : State) :
    Host.Outcome State Fault Refusal :=
  .next (receiveCodeword s port cw)

/-- Receipt of a link flit: it is sequenced like any other flit (R229), here alone in a codeword. -/
def execLinkFlitReceive (port : FabPort) (f : SentLinkFlit) (s : State) : Host.Outcome State Fault Refusal :=
  .next (receiveCodeword s port { pad := 3, seq := f.seq, ack := f.ack, flits := [.link f.flit] })

/-! ### Ports that go down (R230) -/

/-- The packets of a replay store. -/
def storedPackets (l : Link) : List Packet :=
  l.replay.flatMap (fun cw => cw.flits.filterMap (fun f => match f with
    | .head p => some p
    | _ => none))

/-- An unacknowledged packet leaves by a detour; one that R240 has the router discard is discarded. -/
def rerouteStored (s : State) (p : Packet) : State :=
  if jobCheck s p = 2 then incr s routerSlot discStale else routeOut s p

/-- A port without an up group for more than 2 ms goes down: its unacknowledged and its waiting packets
are routed again, which takes them to the detours. What is arriving on it in part is discarded; what was being
forwarded on it in part is taken again when it has arrived whole. -/
def portGoesDown (s : State) (port : Nat) : State :=
  if portDark s port ∨ portUp s port ∨ (linkOf s port).isDown then s
  else
    let parts := cutOnto s port
    let s := forEach (linkOf s port).part (unCut s port) (fun s x => dropCut s port x)
    let l := linkOf s port
    let waiting := s.outq.filter (fun w => w.port = port)
    let s := setLink s port { l with isDown := true, part := [], early := [], replay := [], owed := [] }
    let s := { s with outq := s.outq.filter (fun w => w.port ≠ port) }
    let s := forEach (parts.foldl List.erase (storedPackets l)) s rerouteStored
    let s := forEach waiting s (fun s w => routeOut s w.pkt w.src)
    raise s (portEvent port srcFabPortDown)

/-- Port down. -/
def execPortDown (port : FabPort) (s : State) : Host.Outcome State Fault Refusal :=
  .next (settle (portGoesDown s port))

/-! ### Exchange of port states (R243) -/

/-- ADMIN packets leave on every up port. The layout of their payload is not stated: its bytes are free
values. -/
def sendAdmin (s : State) : State :=
  forEach ((List.range 6).filter (portUp s)) s (fun s port =>
    match neighbourPos s port with
    | none => s
    | some pos =>
      let (pay, s) := freeBytes s 64
      let p : Packet := { type := 0xC, len := 1, dest := pos, src := myPos s, payload := pay }
      { s with inject := s.inject ++ [p] })

/-- ADMIN exchange. -/
def execAdminExchangeSend (s : State) : Host.Outcome State Fault Refusal := .next (sendAdmin s)

/-- Candidates of the sidestep of a port: the ports of the axis that follows its own, then of the
remaining axis. -/
def sidestepCands (port : Nat) : List Nat :=
  let a := port / 2
  let b := (a + 1) % 3
  let c := (a + 2) % 3
  [2 * b, 2 * b + 1, 2 * c, 2 * c + 1]

/-- The detour entry of a port: 1 + the first candidate that is up and whose neighbour reports an up
port in the blocked direction, 0 for an empty entry. -/
def sidestepOf (s : State) (port : Nat) : Nat :=
  match (sidestepCands port).find? (fun c => portUp s c && bit (mget 0 s.nbrUp c) port) with
  | some c => c + 1
  | none => 0

/-- Every detour entry is recomputed. -/
def recomputeDetours (s : State) : State :=
  { s with sidestep := (List.range 6).foldl (fun m p => mset 0 m p (sidestepOf s p)) [] }

/-- An ADMIN packet of the neighbour on a port: its up ports as a mask. -/
def takeAdmin (s : State) (port up : Nat) : State :=
  if !portUp s port then s
  else
    let isIt (p : Packet) : Bool := p.type = 0xC && some p.src = neighbourPos s port
    let s := { s with inbox := match s.inbox.find? isIt with
      | some p => s.inbox.erase p
      | none => s.inbox }
    recomputeDetours { s with nbrUp := mset 0 s.nbrUp port (up % 64) }

/-- ADMIN receipt. -/
def execAdminReceive (port : FabPort) (up : Nat) (s : State) : Host.Outcome State Fault Refusal :=
  .next (takeAdmin s port up)

/-! ### Packets that wait too long (R244, R245) -/

/-- A detoured packet that has waited 1 ms for credits is discarded. -/
def detourTimeout (s : State) (n : Nat) : State :=
  match s.outq[n]? with
  | none => s
  | some w => if w.detour then
    discardRoute (freeWait { s with outq := s.outq.eraseIdx n } w) w.pkt else s

/-- Detour credit timeout. -/
def execDetourCreditTimeout (n : Nat) (s : State) : Host.Outcome State Fault Refusal :=
  .next (detourTimeout s n)

/-- A packet that has waited 10 ms is discarded; no NACK is sent for a job aborted here. -/
def waitTimeout (s : State) (n : Nat) : State :=
  match s.outq[n]? with
  | none => s
  | some w => discardRoute (freeWait { s with outq := s.outq.eraseIdx n } w) w.pkt
      ((jobOf s w.pkt.job).state ≠ 2)

/-- Packet wait timeout. -/
def execPacketWaitTimeout (n : Nat) (s : State) : Host.Outcome State Fault Refusal :=
  .next (waitTimeout s n)

end Sys2Proof.Machine
end

