-- ==== Sys2Proof/Machine/Collectives.lean ====
section
/-!
DEFINITION. Eruptions at a package, queues and their operations, the packets of queue traffic that a
collective engine or a Geyser takes, and the registers that configure jobs, route tables, quotas and
queues (R237, R240, R241, R254 to R286, R433).
-/

namespace Sys2Proof.Machine

/-! ### Eruptions (R240, R361) -/

/-- An ERUPT is accepted: DEST is this package, the epoch is current and the job active. -/
def eruptOk (s : State) (p : Packet) : Bool :=
  let j := jobOf s p.job
  p.job ≠ 0 && p.dest = myPos s && j.member && j.state = 1 && p.epoch = j.epoch

/-- An ERUPT that has been delivered: accepted, or discarded as stale. -/
def takeErupt (s : State) (p : Packet) : State :=
  let s := takePacket s p
  if eruptOk s p then abortJob s p.job (some p.src) else incr s routerSlot discStale

/-- ERUPT. -/
def execEruptReceive (p : Packet) (s : State) : Host.Outcome State Fault Refusal :=
  .next (if hasPacket s p 0xA then settle (takeErupt s p) else s)

/-- The operations of a job's stopped queues complete, each queue's in posting order, which ends an abort of
the hang engine (R285, R353). -/
def completeAborted (s : State) (job : Nat) : State :=
  let s := { s with aborts := s.aborts.filter (fun a => match a with
    | .queueJob _ j => j ≠ job
    | .dma _ => true) }
  forEach s.cqs s (fun s (q, c) =>
    if c.job = job ∧ c.state = 2 then
      forEach (c.ops.filter (fun o => o.ready)) s (fun s o => completeOp s q o)
    else s)

/-- Completion of an aborted job's operations. -/
def execQueueAbortComplete (job : Nat) (s : State) : Host.Outcome State Fault Refusal :=
  .next (settle (completeAborted s job))

/-! ### Reads that wait (R191) -/

/-- Must the engine wait to read what an operation reads? -/
def readsHeld (s : State) (q : Nat) (o : Op) : Bool :=
  let c := cqOf s q
  engineWaits s q (opReads s c o.desc c.rank)

/-- Must the engine wait to read an operation's table at AUX? -/
def tableHeld (s : State) (q : Nat) (o : Op) : Bool := engineWaits s q (auxReads (cqOf s q) o.desc)

/-- Does a packet of queue traffic wait, because an operation in progress that `mine` picks cannot be read for? -/
def trafficHeld (s : State) (p : Packet) (mine : Op → Bool) (held : State → Nat → Op → Bool) : Bool :=
  (queueFor s p.job p.group).any (fun q =>
    (cqOf s q).ops.any (fun o => o.started && !o.ready && mine o && held s q o))

/-- Does a packet to a Geyser wait: a chunk for an owner table, a grant or a credit of a leaf for the leaf's
chunks? -/
def geyserHeld (s : State) (p : Packet) : Bool :=
  trafficHeld s p (fun o => isReduction (qdOp o.desc))
    (if p.type = 2 ∧ p.node < 0x8000 then readsHeld else tableHeld)

/-- Does an MSG packet wait: a grant for what it lets go, another for a table? -/
def msgHeld (s : State) (p : Packet) : Bool :=
  trafficHeld s p (fun o => o.num = p.tag) (if p.node = 0x1000 then readsHeld else tableHeld)

/-! ### Reduction chunks (R257 to R268) -/

/-- Geyser that combines the nodes of a packet's tree, where a queue of this package serves its group. -/
def redHalf (s : State) (p : Packet) : Option Nat :=
  (queueFor s p.job p.group).map (fun q => p.bucket % (cqOf s q).trees % 2)

/-- A RED packet at Geyser `h`: one that fails a check is reported and discarded (R267). -/
def takeRed (s : State) (h : Nat) (p : Packet) (mem : List SlotRead) : State :=
  let s := takePacket s p
  match redError s h p with
  | some src => geyError s h src p.job p.group p.bucket p.node
  | none =>
    match (queueFor s p.job p.group).bind (fun q => myNode s (cqOf s q) (p.bucket % (cqOf s q).trees)) with
    | none => s
    | some (_, f) =>
      match resvFor s h p.job p.group p.bucket f p.node with
      | none => s
      | some r => enterSlot s h r p.chunk p.node p.len p.exps p.payload mem

/-- RED: `h` must be the Geyser of the packet's tree, where this package serves the group. -/
def execRedChunkReceive (h : Half) (x : GeyserPacket) (s : State) : Host.Outcome State Fault Refusal :=
  .next (if hasPacket s x.pkt 1 && (redHalf s x.pkt).all (fun k => k = h.val) && !geyserHeld s x.pkt then
      settle (takeRed s h x.pkt x.mem)
    else s)

/-- A grant: WIN credits for each bucket between the first and the last that the tree carries (R261). -/
def takeResvGrant (s : State) (p : Packet) (mem : List SlotRead) : State :=
  let s := takePacket s p
  let win := leNat (p.payload.take 2)
  let b0 := leNat ((p.payload.drop 2).take 2)
  let b1 := leNat ((p.payload.drop 4).take 2)
  match queueFor s p.job p.group with
  | none => s
  | some q =>
    let t := (cqOf s q).trees
    let bs := ((List.range (b1 + 1 - b0)).map (· + b0)).filter (fun b => b % t = b0 % t)
    let s := forEach bs s (fun s b => addCredit s p.job p.group b p.node win)
    forEach bs s (fun s b => useCredit s p.job p.group b p.node (if b = b0 then mem else []))

/-- RESV with LEN 1. -/
def execResvGrantReceive (x : GeyserPacket) (s : State) : Host.Outcome State Fault Refusal :=
  .next (if hasPacket s x.pkt 2 && x.pkt.len = 1 && !geyserHeld s x.pkt then settle (takeResvGrant s x.pkt x.mem) else s)

/-- A returned credit (R263). -/
def takeResvCredit (s : State) (p : Packet) (mem : List SlotRead) : State :=
  useCredit (backCredit (takePacket s p) p.job p.group p.bucket p.node) p.job p.group p.bucket p.node mem

/-- RESV with LEN 0. -/
def execResvCreditReceive (x : GeyserPacket) (s : State) : Host.Outcome State Fault Refusal :=
  .next (if hasPacket s x.pkt 2 && x.pkt.len = 0 && !geyserHeld s x.pkt then settle (takeResvCredit s x.pkt x.mem) else s)

/-! ### Starts and completions (R276) -/

/-- Is it TINY or BARRIER? -/
def isTiny (w : Nat) : Bool := qdOp w = 0xA || qdOp w = 0xB

/-- The operation that a queue starts next, if it may: in posting order, at most 16 started, one TINY or
BARRIER at a time. One that an abort has ended starts no more. -/
def nextOp (c : Cq) : Option Op :=
  if c.state ≠ 1 ∨ 16 ≤ inflight c then none
  else match c.ops.find? (fun o => !o.started && !o.ready) with
    | none => none
    | some o =>
      if isTiny o.desc && c.ops.any (fun x => x.started && isTiny x.desc) then none else some o

/-- Every footprint lies in windows of the queue's job on this package (R274, R111). -/
def opWindows (s : State) (c : Cq) (w : Nat) : Bool :=
  (opReads s c w c.rank ++ opWrites s c w c.rank).all (fun (a, n) => n = 0 || inWindows s c.job a n)

/-- A queue's engine reads an operation's table at its start: errors of its sectors are reported, and an
uncorrectable one is answered (R179, R275). -/
def readTable (s : State) (q : Nat) (w : Nat) : State × Bool :=
  (auxReads (cqOf s q) w).foldl (fun (s, bad) r =>
    let (s, b) := readSource s q r.1 r.2
    (s, bad || b)) (s, false)

/-- A queue starts its next operation. -/
def startOp (s : State) (q : Nat) : State :=
  let c := cqOf s q
  match nextOp c with
  | none => s
  | some o =>
    let begun (o : Op) : Op := { o with started := true, start := s.starts }
    let s := updOp { s with starts := s.starts + 1 } q o.id begun
    let o := begun o
    let (s, bad) := readTable s q o.desc
    if !opWindows s c o.desc then finishOp s q o.id stWindow
    else if bad then finishOp s q o.id stDataError
    else if !ownersOk s c o.desc then finishOp s q o.id stMalformed
    else if isReduction (qdOp o.desc) then startReduction s q o
    else if isTiny o.desc then startTiny s q o
    else startTransfer s q o

/-- Start of a queue's next operation, once what it reads can be read (R191). -/
def execCollOpStart (q : Fin 64) (s : State) : Host.Outcome State Fault Refusal :=
  if (nextOp (cqOf s q)).any (readsHeld s q) then .next s
  else .next (settle (engineDoes s q 0 (fun s => startOp s q)))

/-- A finished operation completes. -/
def finishCollOp (s : State) (q id : Nat) : State :=
  match opOf s q id with
  | some o => if o.ready then completeOp s q o else s
  | none => s

/-- Completion of an operation. -/
def execCollOpComplete (q : Fin 64) (op : Nat) (s : State) : Host.Outcome State Fault Refusal :=
  .next (settle (finishCollOp s q op))

/-! ### MSG packets (R277, R279, R280, R433) -/

/-- The queue that serves an MSG packet, and the rank of its source, where there are both. -/
def msgPlace (s : State) (p : Packet) : Option (Nat × Nat) :=
  match queueFor s p.job p.group with
  | none => none
  | some q => (rankAt s (cqOf s q) 0 p.src).map (fun r => (q, r))

/-- An MSG packet that is discarded (R433). -/
def dropMsg (s : State) (p : Packet) : State := discardMsg s (queueFor s p.job p.group)

/-- Grants that a Caldera half holds. -/
def grantsHeld (s : State) (h : Nat) : Nat := s.grants.countP (fun g => g.half = h)

/-- A grant is held for an operation that has not started here; there is room for 262,144 in a half. -/
def holdGrant (s : State) (q : Nat) (p : Packet) (bytes op : Nat) : State :=
  if grantsHeld s (q / 32) < 262144 then
    { s with grants := s.grants ++ [⟨q / 32, p.job, p.group, p.src, p.tag, bytes, op, false⟩] }
  else raise s { slot := collSlot (q / 32), src := srcCollGrantFull, job := p.job }

/-- A CTS meets the started operation that it fits, or is held. -/
def takeCts (s : State) (p : Packet) : State :=
  let s := takePacket s p
  match msgPlace s p with
  | none => dropMsg s p
  | some (q, r) =>
    let c := cqOf s q
    let bytes := leNat (p.payload.take 8)
    let op := leNat ((p.payload.drop 8).take 1)
    engineDoes s q 1 (fun s =>
      match c.ops.find? (fun o => o.started && !o.ready && grantFits s c o r p.tag op) with
      | some o => takeGrant s q o r bytes op false
      | none => holdGrant s q p bytes op)

/-- CTS. -/
def execCtsReceive (p : Packet) (s : State) : Host.Outcome State Fault Refusal :=
  .next (if hasPacket s p 3 && p.node = 0x1000 && !msgHeld s p then settle (takeCts s p) else s)

/-- A DATA packet is written where a started operation expects it. -/
def takeDataPacket (s : State) (p : Packet) : State :=
  let s := takePacket s p
  match msgPlace s p with
  | none => dropMsg s p
  | some (q, r) =>
    let c := cqOf s q
    match (if p.node = 0 then c.ops.find? (fun o => expectsData s c o r p.tag) else none) with
    | some o => engineDoes s q 1 (fun s => takeData s q o r (msgIndex p) p.payload)
    | none => dropMsg s p

/-- Does the NODE of an MSG packet name none of CTS, DONE and RESULT? -/
def isDataNode (p : Packet) : Bool := p.node ≠ 0x1000 && p.node ≠ 0x2000 && p.node ≠ 0x3000

/-- DATA, and the packets whose NODE the table of R279 does not list, which are discarded. -/
def execMsgDataReceive (p : Packet) (s : State) : Host.Outcome State Fault Refusal :=
  .next (if hasPacket s p 3 && isDataNode p && !msgHeld s p then settle (takeDataPacket s p) else s)

/-- Is a grant the one of a pair of zero bytes whose DONE the packet is (R280)? -/
def isEarlyDone (q : Nat) (p : Packet) (g : Grant) : Bool :=
  g.half = q / 32 && g.job = p.job && g.group = p.group && g.src = p.src && g.tag = p.tag && g.bytes = 0 &&
  !g.done

/-- Does a DONE report a mismatch: its BYTES tell (assumption 126)? -/
def isMismatch (p : Packet) : Bool := p.bytes ≠ 0

/-- A DONE packet. That of a pair of zero bytes may come with its grant before the operation starts here, and
is kept with it. -/
def takeDonePacket (s : State) (p : Packet) : State :=
  let s := takePacket s p
  match msgPlace s p with
  | none => dropMsg s p
  | some (q, r) =>
    let c := cqOf s q
    match c.ops.find? (fun o => expectsDone s c o r p.tag (isMismatch p)) with
    | some o => engineDoes s q 1 (fun s => takeDone s q o r (isMismatch p))
    | none =>
      if !isMismatch p && s.grants.any (isEarlyDone q p) then
        engineDoes { s with grants := updFirst (isEarlyDone q p) (fun g => { g with done := true }) s.grants }
          q 1 id
      else dropMsg s p

/-- DONE. -/
def execMsgDoneReceive (p : Packet) (s : State) : Host.Outcome State Fault Refusal :=
  .next (if hasPacket s p 3 && p.node = 0x2000 && !msgHeld s p then settle (takeDonePacket s p) else s)

/-- Does the operation expect a RESULT for the bucket and chunk under the number? -/
def expectsResult (s : State) (c : Cq) (o : Op) (p : Packet) : Bool :=
  o.started && !o.ready && isReduction (qdOp o.desc) && o.num = p.tag &&
  qdFirst o.desc ≤ p.bucket && p.bucket ≤ qdLast o.desc && p.chunk < qdChunks o.desc &&
  (resultPlace s c o.desc p.bucket p.chunk).isSome && mget 0 o.rx 0 < resultChunks s c o.desc

/-- A RESULT packet. -/
def takeResultPacket (s : State) (p : Packet) : State :=
  let s := takePacket s p
  match msgPlace s p with
  | none => dropMsg s p
  | some (q, _) =>
    let c := cqOf s q
    match c.ops.find? (fun o => expectsResult s c o p) with
    | some o => engineDoes s q 1 (fun s => takeResult s q o p.bucket p.chunk p.exps p.payload)
    | none => dropMsg s p

/-- RESULT. -/
def execMsgResultReceive (p : Packet) (s : State) : Host.Outcome State Fault Refusal :=
  .next (if hasPacket s p 3 && p.node = 0x3000 && !msgHeld s p then settle (takeResultPacket s p) else s)

/-! ### FUM packets (R284) -/

/-- A FUM packet goes up into this package's node, or brings the result down; one that no queue serves or
no operation waits for is dropped. -/
def takeFum (s : State) (p : Packet) : State :=
  let s := takePacket s p
  match queueFor s p.job p.group with
  | none => s
  | some q =>
    engineDoes s q 1 (fun s =>
      if p.chunk = 0 then tinyArrive s q p
      else if p.chunk = 1 then
        match tinyOp (cqOf s q) p.tag with
        | some o => tinyDown s q o p.payload
        | none => s
      else s)

/-- FUM. -/
def execFumReceive (p : Packet) (s : State) : Host.Outcome State Fault Refusal :=
  .next (if hasPacket s p 9 then settle (takeFum s p) else s)

/-! ### Queue configuration (R270, R286) -/

/-- The fields of Q_CFG but EN. -/
def cfgFields (c : Cq) (val : Nat) : Cq :=
  { c with order := bits val 30 1, fan := bits val 27 3, trees := bits val 23 4
           group := bits val 13 10, job := bits val 0 12 }

/-- A write of EN = 1 to a disabled queue: its fields are taken, the configuration is checked, and its
counts restart. It is ignored on any other queue. -/
def enableQueue (s : State) (q val : Nat) : State :=
  let c := cqOf s q
  if c.en then s
  else
    let c := { cfgFields c val with en := true }
    let reason := queueReason s q c
    if reason ≠ 0 then updCq s q (fun _ => { c with state := 3, reason := reason })
    else
      let rank := (rankAt s c 0 (myPos s)).getD 0
      updCq s q (fun _ => { c with
        state := 1, reason := 0, rank := rank, num := 0, recv := [], fum := [] })

/-- A write of EN = 0: fields of a disabled queue, or the disabling of one with nothing in flight. -/
def disableQueue (s : State) (q val : Nat) : State :=
  let c := cqOf s q
  if !c.en then updCq s q (fun c => cfgFields c val)
  else if inflight c ≠ 0 then s
  else updCq s q (fun c => { c with en := false, state := 0, reason := 0, rank := 0 })

/-- A write of Q_CFG of half `h`. -/
def writeQCfg (s : State) (r : Requester) (h val : Nat) (en : Bool) : State :=
  guardedWrite s r (collSlot h) 0x84 (fun s =>
    if en then enableQueue s (selQueue s h) val else disableQueue s (selQueue s h) val)

/-- A write of Q_CFG with EN = 1. -/
def execQueueEnable (r : Requester) (h : Half) (val : BitVec 32) (s : State) :
    Host.Outcome State Fault Refusal :=
  .next (settle (writeQCfg s r h val.toNat true))

/-- A write of Q_CFG with EN = 0. -/
def execQueueDisable (r : Requester) (h : Half) (val : BitVec 32) (s : State) :
    Host.Outcome State Fault Refusal :=
  .next (settle (writeQCfg s r h val.toNat false))

/-! ### Quotas (R260) -/

/-- Slots in no group's quota. -/
def unassigned (s : State) (h : Nat) : Nat := 24576 - ((geyser s h).quota.map Prod.snd).sum

/-- A write of QUOTA for the group that GQ_SEL selects. -/
def setQuota (s : State) (h val : Nat) : State :=
  let job := rg s (geySlot h) gqSelJob
  let grp := rg s (geySlot h) gqSelGroup
  let n := bits val 0 15
  if job = 0 then s
  else if heldBy s h job grp = 0 ∧ n ≤ unassigned s h + quotaOf s h job grp then
    updGeyser s h (fun g => { g with quota := mset 0 g.quota (job * 1024 + grp) n, rej := false })
  else updGeyser s h (fun g => { g with rej := true })

/-- A write of GQ_DATA. -/
def writeQuota (s : State) (r : Requester) (h val : Nat) : State :=
  guardedWrite s r (geySlot h) 0x88 (fun s => setQuota s h val)

/-- A write of GQ_DATA. -/
def execGqQuotaWrite (r : Requester) (h : Half) (val : BitVec 32) (s : State) :
    Host.Outcome State Fault Refusal :=
  .next (settle (writeQuota s r h val.toNat))

/-! ### Jobs and route tables (R237, R240, R241) -/

/-- May the job end: no sequencer runs for it and no queue is enabled for it? -/
def jobIdle (s : State) (j : Nat) : Bool :=
  (List.range 4).all (fun d => seqJob s d ≠ j) && !s.cqs.any (fun (_, c) => c.en && c.state ≠ 3 && c.job = j)

/-- The request numbers of a job and the requests that came early start anew with an epoch (R248), and queue
traffic of the old one that the engines have not taken is gone (R266). -/
def forgetEpoch (s : State) (j : Nat) : State :=
  let other (k : Nat × Nat) : Bool := k.1 / 256 % 4096 ≠ j
  { s with
    inbox := s.inbox.filter (fun p => !isQueueTraffic j p)
    remote := { s.remote with
    txSeq := s.remote.txSeq.filter other, rxSeq := s.remote.rxSeq.filter other
    early := s.remote.early.filter (fun p => p.job ≠ j) } }

/-- A write of JOB_DATA for the job that JOB_SEL selects; the last job's end lets restored lobes take part
(R23). -/
def setJobData (s : State) (val : Nat) : State :=
  let j := rg s routerSlot jobSel
  let old := jobOf s j
  let new : Job := ⟨bit val 31, bit val 30, bits val 28 2, bits val 0 8⟩
  if j = 0 ∨ new.state = 3 then s
  else if old.state = 2 ∧ new.state = 1 ∧ new.epoch = old.epoch then s
  else if !new.member && new.state = 0 && !jobIdle s j then s
  else
    let s := if new.epoch = old.epoch then s else forgetEpoch s j
    restoreLobes (setJob s j new)

/-- A write of JOB_DATA. -/
def writeJobData (s : State) (r : Requester) (val : Nat) : State :=
  guardedWrite s r routerSlot 0x8C (fun s => setJobData s val)

/-- A write of JOB_DATA. -/
def execJobDataWrite (r : Requester) (val : BitVec 32) (s : State) : Host.Outcome State Fault Refusal :=
  .next (settle (writeJobData s r val.toNat))

/-- Does an enabled queue name the route table (R270)? A stopped queue is still enabled; a refused one is
not. -/
def tableInUse (s : State) (n : Nat) : Bool :=
  s.cqs.any (fun (_, c) => c.en && c.state ≠ 3 && (List.range c.trees).any (fun t => rtOf c t = n))

/-- A write of RT_DATA for the header or entry that RT_SEL selects. -/
def setRtData (s : State) (val : Nat) : State :=
  let n := rg s routerSlot rtSelTable
  if tableInUse s n then s
  else if rgB s routerSlot rtSelHdr then
    if bits val 0 16 > 32768 then s
    else { s with rtHdr := mset 0 s.rtHdr n (bits val 16 12 * 65536 + bits val 0 16) }
  else { s with rtEnt := mset 0 s.rtEnt (n * 32768 + rg s routerSlot rtSelIndex) (bits val 0 16) }

/-- A write of RT_DATA. -/
def writeRtData (s : State) (r : Requester) (val : Nat) : State :=
  guardedWrite s r routerSlot 0x94 (fun s => setRtData s val)

/-- A write of RT_DATA. -/
def execRtDataWrite (r : Requester) (val : BitVec 32) (s : State) : Host.Outcome State Fault Refusal :=
  .next (settle (writeRtData s r val.toNat))

end Sys2Proof.Machine
end

