-- ==== Sys2Proof/Machine/Tiles.lean ====
section
/-!
DEFINITION. Tiles, clusters and work stealing (R113 to R134): dispatching, taking and completing tasks,
clock and power gating, the rotation of the spare cluster, cluster fences, and the census commands
(R88 to R90).
-/

namespace Sys2Proof.Machine

/-! ### Dispatch (R122, R126) -/

/-- The sequencer of a die dispatches its next task, once it can read its descriptors (R191): the dispatch check
holds it, or it is enqueued. -/
def execTaskDispatch (d : Die) (s : State) : Host.Outcome State Fault Refusal :=
  if !dieRuns s d ∨ !mayDispatch s d then .next s
  else match dispatchPhase s d with
    | some ph =>
      if waitsDie s d (dispatchReads s d ph) then .next s
      else .next (settle (dispatchTask (checkDie s d (dispatchReads s d ph)) d ph))
    | none => .next s

/-! ### Which task a tile takes (R115, R123, R130) -/

/-- The stop of a physical cluster on the mesh, x eastward and y southward (R115). -/
def meshStop (c : Nat) : Nat × Nat :=
  if c < 12 then (c % 6, c / 6)
  else if c < 16 then (c - 11, 2)
  else if c < 21 then (c - 16, 3)
  else if c < 27 then (c - 21, 4)
  else (c - 27, 5)

/-- |a − b|. -/
def absDiff (a b : Nat) : Nat := (a - b) + (b - a)

/-- Hop distance of two clusters (R115). -/
def hops (a b : Nat) : Nat :=
  absDiff (meshStop a).1 (meshStop b).1 + absDiff (meshStop a).2 (meshStop b).2

/-- Does the cluster give its logical index away in a rotation? -/
def isOutgoing (s : State) (d c : Nat) : Bool :=
  match (die s d).rot with | some r => r.outgoing = c | none => false

/-- The outgoing cluster whose queue cluster `c` empties, if it comes in by a rotation. -/
def outgoingFor (s : State) (d c : Nat) : Option Nat :=
  match (die s d).rot with
  | some r => if r.incoming = c then some r.outgoing else none
  | none => none

/-- The queue that a tile of cluster `c` steals from: nearest first, then lowest physical index. -/
def victimOf (s : State) (d c : Nat) : Option Nat :=
  ((List.range (rg s (dcSlot d) stealCtl)).flatMap (fun k =>
    (List.range 33).filter (fun v => hops c v = k + 1))).find?
    (fun v => (isMapped s d v || isOutgoing s d v) && !(queueOf s d v).isEmpty)

/-- Where a tile of cluster `c` finds work: the cluster of the queue, and whether it takes its head. -/
def workFor (s : State) (d c : Nat) : Option (Nat × Bool) :=
  match outgoingFor s d c with
  | some o => if !(queueOf s d o).isEmpty then some (o, true) else own
  | none => own
where
  /-- Its own queue, else a victim's. -/
  own : Option (Nat × Bool) :=
    if !(queueOf s d c).isEmpty then some (c, true)
    else (victimOf s d c).map (fun v => (v, false))

/-- Does cluster `c` run tasks: in the map, its group on, its page neither in reset nor fenced? -/
def clusterServes (s : State) (d c : Nat) : Bool :=
  isMapped s d c && !isOutgoing s d c && performs s (clusterSlot d c) && !isGated s d (c / 3) &&
  !isWaking s d (c / 3)

/-- May the tile start a task? -/
def tileIdle (s : State) (d c t : Nat) : Bool :=
  let x := tileOf s d c t
  x.task.isNone && !x.gated && clusterServes s d c && performs s (tileSlot d c t)

/-- The id taken from a queue and the rest of the queue. -/
def takeFrom (q : List Nat) (head : Bool) : Option (Nat × List Nat) :=
  if head then match q with | [] => none | x :: r => some (x, r)
  else match q.getLast? with | none => none | some x => some (x, q.dropLast)

/-- Do the footprints of a dispatched task lie in the windows of its job (R111)? -/
def liveWindowsOk (s : State) (d : Nat) (t : LiveTask) (tds : List (Option Nat)) : Bool :=
  let job := (seqOf s d).job
  if t.piece.isSome then
    (optRanges t.words (phaseOf s d t.phase).entry).all (rangeInWindows s d job)
  else taskWindowsOk s d job tds

/-- The tile's reads of its task, by either path. -/
def taskReaders (d : Die) (c : Cluster) (t : TileIx) : List Reader := [.task d c t false, .task d c t true]

/-- A tile holds a task from now on. -/
def holdTask (s : State) (d c t : Nat) (k : LiveTask) (r : RunTask) : State :=
  let s := updLive s d k.id (fun x => { x with st := .running (16 * c + t) })
  scratchUsed (setTile s d c t { tileOf s d c t with task := some r }) d c t

/-- What the tile holds of a task: each descriptor's path and that of the ordered adds, as NARROW_EN stands at
the start (R108, R109, R172). -/
def runOf (s : State) (d : Nat) (k : LiveTask) (tds : List (Option Nat)) : RunTask :=
  let on := rgB s (mgSlot d) memCtlNarrowEn
  { id := k.id, tds := tds, adder := on && usesAdd tds
    narrow := tds.map (fun x => match x with | some td => takesNarrow on td | none => false) }

/-- A tile starts the task that it has taken: its descriptors are read and checked, and a task that
fails ends at once (R111, R121). One that receives an uncorrectable sector is spoiled (R180). -/
def startTask (s : State) (d : Die) (c : Cluster) (t : TileIx) (k : LiveTask) : State :=
  let (s, bad) := if k.piece.isSome then (s, none)
    else checkErrs s (taskReaders d c t) (rangeErrs s d (tdRanges k))
  let tds := if k.piece.isSome then [] else readTds s d k
  if bad.isSome then holdTask s d c t k { runOf s d k tds with spoiled := true }
  else if k.piece.isNone && !taskValid k tds then
    raise (endBadTask s d k 2)
      { slot := dcSlot d, src := srcTaskMalformed, job := (seqOf s d).job }
  else if !liveWindowsOk s d k tds then endBadTask s d k 3
  else holdTask s d c t k (runOf s d k tds)

/-- The entry that a tile of the cluster would take: the queue's cluster, the task's id, and the queue's rest. -/
def entryFor (s : State) (d c : Nat) : Option (Nat × Nat × List Nat) :=
  (workFor s d c).bind (fun (v, head) => (takeFrom (queueOf s d v) head).map (fun x => (v, x.1, x.2)))

/-- Must the tile wait until it can read the tensor descriptors of the task that it would take (R191)? -/
def takeWaits (s : State) (d c : Nat) : Bool :=
  match (entryFor s d c).bind (fun x => liveOfId s d x.2.1) with
  | some k => k.piece.isNone && waitsDie s d (tdRanges k)
  | none => false

/-- A tile takes a task: from the queue that its cluster empties in a rotation, else the head of its own
queue, else it steals. -/
def takeTask (s : State) (d : Die) (c : Cluster) (t : TileIx) : State :=
  match entryFor s d c with
  | none => s
  | some (v, id, rest) =>
    let s := retire (setQueue s d v rest) (clusterSlot d v)
    let s := if v = c then s else incr s (dcSlot d) taskStolen
    match liveOfId s d id with
    | some k => startTask s d c t k
    | none => s

/-- An idle tile takes or steals a task, unless its job is held (R310). -/
def execTaskTake (d : Die) (c : Cluster) (t : TileIx) (s : State) :
    Host.Outcome State Fault Refusal :=
  if tileIdle s d c t ∧ !jobHeld s d ∧ !takeWaits s d c then .next (settle (takeTask s d c t)) else .next s

/-! ### The end of a task (R120, R127) -/

/-- SEQ_SEED of a die. -/
def seqSeed (s : State) (d : Nat) : Nat :=
  rg s (seqSlot d) seqSeedHi * 2 ^ 32 + rg s (seqSlot d) seqSeedLo

/-- What a running task comes to. -/
def taskResult (s : State) (d : Nat) (k : LiveTask) (tds : List (Option Nat)) : TaskOut :=
  let p := phaseOf s d k.phase
  let rd := dieView s d
  let layer := phLayer p.desc
  match k.piece with
  | some n =>
    runPiece rd k.words p.entry (mget {} (seqOf s d).consts layer) (seqSeed s d) layer
      (rg s (seqSlot d) seqStep) n
  | none =>
    if tkType k.words = 0 then runMatrix rd k.words (seqSeed s d) tds
    else runVector rd k.words (seqSeed s d) tds

/-- What a task reads of memory: of a piece its regions, else the footprints of its loads, the index vectors of its
scatters, and the destinations of its ordered adds. -/
def taskReads (k : LiveTask) (r : RunTask) : List (Nat × Nat) :=
  if k.piece.isSome then k.reads
  else readRegions r.tds ++ (r.tds.drop 3).flatMap (fun o => match o with
    | some td => (idxFootprint td).map toRange
    | none => []) ++ (if r.tds.any (fun x => match x with
    | some td => tdStMode td = 1
    | none => false) then k.writes else [])

/-- Must the task wait for a held channel that it reads, or for an edge (R191, R207)? -/
def taskWaits (s : State) (d : Nat) (k : LiveTask) (r : RunTask) : Bool :=
  (taskReads k r).any (fun (a, n) => isHeld s (.die d) (dieAddr s d a) n) ||
  k.writes.any (fun (a, n) => pathShut s (.die d) (dieAddr s d a) n)

/-- The task meets the errors of the sectors that it reads (R179, R180): the state, and whether one was
uncorrectable. -/
def taskRead (s : State) (d : Die) (c : Cluster) (t : TileIx) (k : LiveTask) (r : RunTask) : State × Bool :=
  let es := if k.piece.isSome then rangeErrs s d k.reads
    else taskErrs s d r
  let (s, bad) := checkErrs s (taskReaders d c t) es
  (s, bad.isSome)

/-- The engines that a task has used have made progress, and its accesses have passed (R353, R175). -/
def taskProgress (s : State) (d c t : Nat) (r : RunTask) : State :=
  let s := progress (traffic s) (tileSlot d c t)
  if r.adder ∨ r.narrow.contains true then progress s (dieSlot d 3) else s

/-- A task completes: its writes become visible, it is counted, its phase takes its drops, latch and
digest, its status word is written and it leaves the dispatch check. -/
def completeTask (s : State) (d c t : Nat) (k : LiveTask) (r : RunTask) : State :=
  let o := taskResult s d k r.tds
  let dg := digestOf s d o.stores
  let trig := lyTrig (phaseOf s d k.phase).entry
  let s := forEach o.stores s (fun s m => writeMap s d m)
  let s := forEach o.classes s (fun s (f, cs) => countCensus s d (censusLayer s d k) f cs)
  let s := incr (incr s (dcSlot d) taIdxClamp o.idx) (dcSlot d) taWrClamp o.clamps
  let s := incr s (dcSlot d) boxDrop o.drops
  let s := updPhase s d k.phase (fun p => { p with
    drops := p.drops + o.drops, latch := p.latch || setsLatch trig o
    digest := (p.digest + dg) % 2 ^ 128 })
  let s := writeTaskStatus s d k (if o.drops = 0 then 0 else 1) o.drops
  let s := if o.drops = 0 then s
    else raise s { slot := dcSlot d, src := srcTaskBoxDrop, job := (seqOf s d).job }
  let s := taskProgress (dropTask s d c t) d c t r
  afterTask (endLive s d k) d k.phase

/-- Does a task go on: not spoiled (R180), its tile running, its job not under lobe self-test (R310)? -/
def taskRuns (s : State) (d : Die) (c : Cluster) (t : TileIx) (r : RunTask) : Bool :=
  !r.spoiled && performs s (tileSlot d c t) &&
  !(jobHeld s d && pairRuns s)

/-- A task ends. One that has received an uncorrectable sector does not complete (R180), and one that reads a
held channel waits (R191). -/
def execTaskComplete (d : Die) (c : Cluster) (t : TileIx) (s : State) :
    Host.Outcome State Fault Refusal :=
  match (tileOf s d c t).task with
  | none => .next s
  | some r =>
    match liveOfId s d r.id with
    | none => .next s
    | some k =>
      if !taskRuns s d c t r ∨ taskWaits s d k r then .next s
      else match taskRead s d c t k r with
        | (s, true) => .next (settle (spoilTask s (.task d c t false)))
        | (s, false) => .next (settle (completeTask s d c t k r))

/-! ### Gating (R132, R133, R381) -/

/-- A tile with no task to take or steal gates its clock. -/
def execTileClockGate (d : Die) (c : Cluster) (t : TileIx) (s : State) :
    Host.Outcome State Fault Refusal :=
  if tileIdle s d c t ∧ (workFor s d c).isNone then
    .next (setTile s d c t { tileOf s d c t with gated := true, restart := false })
  else .next s

/-- A gated tile whose restart an enqueue has demanded is admitted to restart its clock, whether the entry is
still there or not (R132). -/
def execTileRestart (d : Die) (c : Cluster) (t : TileIx) (s : State) :
    Host.Outcome State Fault Refusal :=
  let x := tileOf s d c t
  if x.gated ∧ x.restart ∧ clusterServes s d c then
    .next (setTile s d c t { x with gated := false, restart := false })
  else .next s

/-- Has no tile of a cluster a task, and its queue no entry? The spare runs its online test, which counts
as busy. -/
def clusterQuiet (s : State) (d c : Nat) : Bool :=
  (List.range 16).all (fun t => (tileOf s d c t).task.isNone) && (queueOf s d c).isEmpty &&
  spareOf s d ≠ c && (outgoingFor s d c).isNone

/-- Is every group of the package gated, but those that hold a spare or whose die is not on? -/
def allGated (s : State) : Bool :=
  (List.range 4).all (fun d => !performs s (dpSlot d) ||
    (List.range 11).all (fun g => isGated s d g || spareOf s d / 3 = g))

/-- Does no tile of the package hold a task? -/
def noTask (s : State) : Bool := s.tiles.all (fun (_, x) => x.task.isNone)

/-- A cluster group power-gates; with every group gated and no task on any tile the package is in P1
(R381). -/
def execClusterGroupGate (d : Die) (g : Group) (s : State) : Host.Outcome State Fault Refusal :=
  let cs := [3 * g.val, 3 * g.val + 1, 3 * g.val + 2]
  if performs s (dpSlot d) ∧ !isGated s d g ∧ !isWaking s d g ∧ cs.all (clusterQuiet s d) then
    let s := wg s (dpSlot d) groupGated (setBits (rg s (dpSlot d) groupGated) g 1 1)
    if rg s pwrSlot pwrStateCur = 0 ∧ allGated s ∧ noTask s then .next (wg s pwrSlot pwrStateCur 1)
    else .next s
  else .next s

/-- The groups that wake on a die which runs, as key and time of demand. -/
def wakers (s : State) : Map Nat := s.waking.filter (fun (k, _) => performs s (dpSlot (k / 11)))

/-- The group whose wake is the next to be over: wakes start one at a time in order of demand; of demands made
together, in one microsecond of the model's clock, the dies take turns, and within a die the lower group goes
first (R380, assumption 150). -/
def nextReady (s : State) : Option Nat :=
  match ((wakers s).map Prod.snd).min? with
  | none => none
  | some t =>
    let ks := (wakers s).filterMap (fun (k, v) => if v = t then some k else none)
    ((List.range 4).map (fun i => (s.wakeTurn + i) % 4)).findSome? (fun d => ks.find? (fun k => k / 11 = d))

/-- A group's wake is over, and the next die has its turn. -/
def groupReadyNow (s : State) (d g : Nat) : State :=
  let w := mdel s.waking (d * 11 + g)
  { s with waking := w, wakeTurn := if w.isEmpty then 0 else (d + 1) % 4 }

/-- A waking cluster group becomes ready, in its turn. -/
def execClusterGroupReady (d : Die) (g : Group) (s : State) : Host.Outcome State Fault Refusal :=
  if nextReady s = some (d.val * 11 + g.val) then .next (groupReadyNow s d g) else .next s

/-! ### The spare cluster (R129 to R131) -/

/-- When a cluster took its logical index, by the count of rotations; 0 since the map was built. -/
def servedSince (s : State) (d c : Nat) : Nat := mget 0 s.served (d * 33 + c)

/-- The enabled cluster that has served longest, the lowest on a tie. -/
def longestServing (s : State) (d : Nat) : Option Nat :=
  let m := (List.range 33).filter (isMapped s d)
  m.find? (fun c => m.all (fun x => servedSince s d c ≤ servedSince s d x))

/-- Every logical index that `from_` serves is served by `into`. -/
def remap (s : State) (d from_ into : Nat) : State :=
  forEach (List.range 32) s (fun s l =>
    if mapPhys s d l = from_ then wg s (dcSlot d) (mapField l) into else s)

/-- May a rotation start: a spare that has passed a full test pass and is under no CLUSTER test, and none in
progress (R130, R368)? -/
def canRotate (s : State) (d : Nat) : Bool :=
  (die s d).rot.isNone && (die s d).spareTested && spareOf s d ≠ 0x3F && !underTest s d (spareOf s d) &&
  performs s (dcSlot d)

/-- The spare takes over the logical index of a cluster (R130 step 1). SPARE keeps showing it until the rotation
ends (DESIGN CHOICE, assumption 145). -/
def startRotation (s : State) (d out : Nat) : State :=
  let inc := spareOf s d
  match (List.range 32).find? (fun l => mapPhys s d l = out) with
  | none => s
  | some l =>
    let n := (die s d).rotCount + 1
    let s := updDie s d (fun x => { x with
      rot := some ⟨inc, out, l⟩, rotCount := n, spareTested := false })
    let s := { s with served := mset 0 s.served (d * 33 + inc) n }
    let s := wg (remap s d out inc) (dcSlot d) spareStatusRotState 1
    if (queueOf s d out).isEmpty then s else wakeServer s d inc

/-- A rotation starts. -/
def execRotationStart (d : Die) (s : State) : Host.Outcome State Fault Refusal :=
  if canRotate s d ∧ rgB s (dcSlot d) rotateCtlEn then
    match longestServing s d with
    | some c => .next (startRotation s d c)
    | none => .next s
  else .next s

/-- The die has no spare. -/
def noSpare (s : State) (d : Nat) : State :=
  wg (wg (updDie s d (fun x => { x with spareTested := false })) (dcSlot d) spareStatusSpare 0x3F)
    (dcSlot d) spareStatusRotState 2

/-- Is the outgoing cluster done: its queue empty and its tiles idle (R130 step 4)? -/
def outgoingDone (s : State) (d c : Nat) : Bool :=
  (queueOf s d c).isEmpty && (List.range 16).all (fun t => (tileOf s d c t).task.isNone)

/-- The outgoing cluster becomes the spare; a fenced one does not (R131). -/
def endRotation (s : State) (d : Nat) (r : Rotation) : State :=
  let s := updDie s d (fun x => { x with rot := none })
  if clusterFailed s d r.outgoing then noSpare s d
  else wg (wg s (dcSlot d) spareStatusSpare r.outgoing) (dcSlot d) spareStatusRotState 0

/-- A rotation ends. -/
def execRotationComplete (d : Die) (s : State) : Host.Outcome State Fault Refusal :=
  match (die s d).rot with
  | none => .next s
  | some r =>
    if performs s (dcSlot d) ∧ outgoingDone s d r.outgoing then .next (endRotation s d r) else .next s

/-- A cluster is marked in CLUSTER_FAILED. -/
def markCluster (s : State) (d c : Nat) : State :=
  if c < 32 then wg s (dcSlot d) clusterFailedLo (setBits (rg s (dcSlot d) clusterFailedLo) c 1 1)
  else wg s (dcSlot d) clusterFailedHi 1

/-- The spare has failed: the die runs with no spare, which is CLUSTER_NO_SPARE (R131). -/
def failSpare (s : State) (d c : Nat) : State :=
  raise (noSpare (markCluster s d c) d) { slot := dcSlot d, src := srcNoSpare }

/-- A full online test pass of the spare ends; a CLUSTER test of the spare preempts it (R368, R371). -/
def execOnlineTestPassEnd (d : Die) (pass : Bool) (s : State) : Host.Outcome State Fault Refusal :=
  let c := spareOf s d
  if c = 0x3F ∨ (die s d).rot.isSome ∨ underTest s d c ∨ !performs s (dcSlot d) then .next s
  else if pass then
    .next (updDie (wg s stSlot (onlinePasses d) (rg s stSlot (onlinePasses d) + 1)) d
      (fun x => { x with spareTested := true }))
  else .next (settle (failSpare s d c))

/-- The next logical index from `l` on, upward modulo 32, that is not orphaned; `n` bounds the search. -/
def nextServed (orphans : List Nat) : Nat → Nat → Option Nat
  | 0, _ => none
  | n + 1, l => if orphans.contains (l % 32) then nextServed orphans n (l + 1) else some (l % 32)

/-- CLUSTER_MAP of the orphaned indices shows the cluster of the next index that is not orphaned. -/
def mapOrphans (s : State) (d : Nat) : State :=
  let os := (die s d).orphans
  forEach os s (fun s l =>
    match nextServed os 32 (l + 1) with
    | some m => wg s (dcSlot d) (mapField l) (mapPhys s d m)
    | none => s)

/-- The tasks that wait in the queue of a cluster go to the tail of another's. -/
def moveQueue (s : State) (d from_ into : Nat) : State :=
  if from_ = into ∨ (queueOf s d from_).isEmpty then s
  else
    let s := setQueue s d into (queueOf s d into ++ queueOf s d from_)
    wakeServer (setQueue s d from_ []) d into

/-- The logical indices of a cluster are orphaned: their enqueues, and the tasks that wait, go to the
cluster of the next index that is not orphaned (R131). -/
def orphan (s : State) (d c : Nat) : State :=
  match (List.range 32).find? (fun l => mapPhys s d l = c && !(die s d).orphans.contains l) with
  | none => s
  | some l =>
    let s := mapOrphans (updDie s d (fun x => { x with orphans := x.orphans ++ [l] })) d
    moveQueue s d c (mapPhys s d l)

/-- The incoming cluster of a rotation is lost: the outgoing one becomes the spare at once. -/
def dropIncoming (s : State) (d c : Nat) : State :=
  match (die s d).rot with
  | some r =>
    if r.incoming = c then endRotation (moveQueue s d r.outgoing (mapPhys s d r.logical)) d r else s
  | none => s

/-- Are all clusters of a die fenced? -/
def allClustersFailed (s : State) (d : Nat) : Bool := (List.range 33).all (clusterFailed s d)

/-- A tile of a fenced cluster: its task ends ABORTED, and is then run again where it is repeatable (R131). -/
def fenceTile (s : State) (d c t : Nat) : State :=
  let s := match tileTask s d c t with
    | none => s
    | some k =>
      let s := if isRepeatable k then requeue (writeTaskStatus s d k 4 0) d k
        else
          let s := abortTask s d k
          endFailed (markFailed s d k.phase) d k.phase
      dropTask s d c t
  setTile s d c t { tileOf s d c t with gated := false, restart := false }

/-- An enabled cluster is fenced (R131): its logical index passes to the spare, or is orphaned; its running
tasks end, and those that can be are run again. While a rotation is in progress there is no healthy spare to pass
an index to (DESIGN CHOICE, assumption 146). A fence of the spare itself is taken as a failed online test (DESIGN
CHOICE, assumption 147). A die whose clusters are all fenced is fenced, with its lobe. -/
def fenceCluster (s : State) (d c : Nat) : State :=
  if clusterFailed s d c then s
  else if spareOf s d = c ∧ (die s d).rot.isNone then failSpare s d c
  else
    let mapped := isMapped s d c
    let free := (die s d).rot.isNone && spareOf s d ≠ 0x3F
    let s := markCluster s d c
    let s := if !mapped then s
      else if free then startRotation s d c
      else dropIncoming (orphan s d c) d c
    let s := forEach (List.range 16) s (fun s t => fenceTile s d c t)
    let s := raise s { slot := dcSlot d, src := srcClusterFenced }
    if allClustersFailed s d then fenceLobe s (if d < 2 then 0 else 1) else s

/-- A cluster is fenced. -/
def execClusterFence (d : Die) (c : Cluster) (s : State) : Host.Outcome State Fault Refusal :=
  if performs s (dcSlot d) then .next (settle (fenceCluster s d c)) else .next s

/-! ### The ash census (R90) -/

/-- Size of a census table. -/
def censusBytes : Nat := 2 * 2 ^ 20

/-- CENSUS_BASE of a die. -/
def censusBase (s : State) (d : Nat) : Nat :=
  rg s (dcSlot d) censusBaseHi * 2 ^ 32 + rg s (dcSlot d) censusBaseLo * 4096

/-- Every counter of a die's census returns to zero. -/
def clearCensus (s : State) (d : Nat) : State :=
  { s with census := s.census.filter (fun (k, _) => k / 65536 ≠ d) }

/-- The table of a die is copied to its snapshot area. -/
def copyCensus (s : State) (d : Nat) : State :=
  let base := censusBase s d
  forEach (List.range 65536) s (fun s k =>
    store s (.die d) (base + 32 * k) (leBytes 32 (mget 0 s.census (d * 65536 + k))))

/-- A clear starts: BUSY is set while it runs. -/
def startClear (s : State) (d : Nat) : State :=
  let s := updDie (clearCensus s d) d (fun x => { x with censusOp := some false })
  wg s (dcSlot d) censusStatusBusy 1

/-- A snapshot starts, or is skipped where its area does not reach memory; an area in a die buffer reaches
it. Every entry is copied and cleared at once (assumption 110). -/
def startSnap (s : State) (d : Nat) (clear : Bool) : State :=
  if !allReach s (censusBase s d) censusBytes then
    let s := wg s (dcSlot d) censusStatusSkipped 1
    if clear then startClear s d else s
  else
    let s := clearCensus (copyCensus s d) d
    let s := updDie s d (fun x => { x with censusOp := some true })
    wg s (dcSlot d) censusStatusBusy 1

/-- A write of CENSUS_CTL: SNAP, else CLEAR; ignored while BUSY is set. -/
def writeCensusCtl (s : State) (d : Nat) (snap clear : Bool) : State :=
  if rgB s (dcSlot d) censusStatusBusy then s
  else if snap then startSnap s d clear
  else if clear then startClear s d
  else s

/-- A write of CENSUS_CTL with SNAP set. -/
def execCensusSnap (r : Requester) (d : Die) (val : BitVec 32) (s : State) :
    Host.Outcome State Fault Refusal :=
  .next (guardedWrite s r (dcSlot d) 0x88 (fun s => writeCensusCtl s d true (bit val.toNat 1)))

/-- A write of CENSUS_CTL with CLEAR alone. -/
def execCensusClear (r : Requester) (d : Die) (s : State) : Host.Outcome State Fault Refusal :=
  .next (guardedWrite s r (dcSlot d) 0x88 (fun s => writeCensusCtl s d false true))

/-- A snapshot is complete: it is counted, and the records of its jobs note it (R398). -/
def countSnap (s : State) (d : Nat) : State :=
  noteRecords (wg s (dcSlot d) censusStatusSnapCount (rg s (dcSlot d) censusStatusSnapCount + 1)) d
    (fun r => { r with snapped := insertCh r.snapped d })

/-- A snapshot or clear ends. -/
def execCensusOpDone (d : Die) (s : State) : Host.Outcome State Fault Refusal :=
  match (die s d).censusOp with
  | none => .next s
  | some snap =>
    let s := updDie s d (fun x => { x with censusOp := none })
    let s := wg s (dcSlot d) censusStatusBusy 0
    if snap then .next (countSnap s d) else .next s

end Sys2Proof.Machine
end

