-- ==== Sys2Proof/Machine/Memory.lean ====
section
/-!
DEFINITION. The commands of the memory system: sector reads, writes and scrub with the controllers' code
(R171 to R183), refresh and calibration (R176, R178), holds of a channel (R186, R191, R192), and the
writes of JW_CTL, MEM_SPLIT and MAPOUT_REQ (R165, R167, R189).
-/

namespace Sys2Proof.Machine

/-! ### Sectors -/

/-- Channel, channel byte address and die of a sector of stacked memory, where its controller runs. -/
def placeOf (s : State) (a : Nat) : Option (Nat × Nat × Nat) :=
  match locate s (sectorOf a) with
  | some (ch, cb) => if performs s (mgSlot (chanDie ch)) then some (ch, cb, chanDie ch) else none
  | none => none

/-- The place of a sector that is reached. -/
def sectorAt (s : State) (a : Nat) : Option (Nat × Nat × Nat) :=
  if reaches s (sectorOf a) 32 then placeOf s a else none

/-- The place of a sector of a live channel, whether or not its window is open (R182). -/
def scrubAt (s : State) (a : Nat) : Option (Nat × Nat × Nat) :=
  match domOf a with
  | some d => if sectorOf a + 32 ≤ domBase d + domSpan s d then placeOf s a else none
  | none => none

/-- Does the reader read, by a path of this kind: a tile its task's narrow path only where it takes one and the path
has fewer than 512 reads in flight (R172), a sequencer that runs? -/
def canRead (s : State) (by_ : Reader) : Bool :=
  match by_ with
  | .task d c t narrow => (match (tileOf s d c t).task with
    | some r => !narrow || ((r.adder || r.narrow.contains true) && decide (narrowReads s d < 512))
    | none => false)
  | .sequencer d => seqRunning s d
  | _ => true

/-- A read of a sector, or of the granule that holds it: it waits while its channel is held, unless the hold
buffer serves it (R191). -/
def readSector (s : State) (a : Nat) (by_ : Reader) (symbols : List Nat) : State :=
  if !canRead s by_ then s
  else match sectorAt s a with
  | none => s
  | some (ch, _, d) =>
    let x : Access := { addr := a, reader := some by_, symbols := symbols, since := s.clock }
    match (memCtl s d).hold with
    | some h =>
      if h.chan ≠ ch then performAccess s d ch x
      else if (sectorsRead by_ a).all (inBuffer h) then s
      else waitHeld s d h x
    | none => performAccess s d ch x

/-- A sector read is checked by the controller's code. -/
def execSectorRead (addr : Nat) (by_ : Reader) (symbols : List Nat) (s : State) :
    Host.Outcome State Fault Refusal :=
  .next (settle (readSector s addr by_ symbols))

/-- The bytes that a write with a mask writes: those inside the sector of its address. -/
def maskedBytes (a : Nat) (data : List Byte) (mask : Nat) : List (Nat × Byte) :=
  ((List.range (min data.length (32 - a % 32))).filter (bit mask)).map (fun i => (a + i, data.getD i 0))

/-- A write of bytes of one sector. One to a held channel goes into the hold buffer; a full buffer holds it
back (R191). -/
def writeSector (s : State) (a : Nat) (data : List Byte) (mask symbols : Nat) : State :=
  let x : Access :=
    { addr := a, reader := none, bytes := maskedBytes a data mask, symbols := [symbols], since := s.clock }
  if x.bytes.isEmpty then s
  else match sectorAt s a with
  | none => s
  | some (ch, _, d) =>
    match (memCtl s d).hold with
    | some h =>
      if h.chan ≠ ch then performAccess s d ch x else writeHeld s d h x
    | none => performAccess s d ch x

/-- A sector write. -/
def execSectorWrite (addr : Nat) (data : MaskedBytes) (symbols : Nat) (s : State) :
    Host.Outcome State Fault Refusal :=
  .next (settle (writeSector s addr data.bytes data.mask symbols))

/-- Patrol scrub of a sector: it pauses while the channel is held; a corrected sector is written back at once
(R182). -/
def scrubSector (s : State) (a symbols : Nat) : State :=
  match scrubAt s a with
  | none => s
  | some (ch, _, d) =>
    if !rgB s (mgSlot d) scrubCtlEn ∨ heldChan s d = some ch then s
    else
      let x : Access := { addr := a, reader := none }
      match codeFinds s a symbols with
      | (s, 0) => joinQueue (setErr s a 0) d ch x [1]
      | (s, 1) => joinQueue (setErr (foundCorrected s a) a 0) d ch x [1, 2]
      | (s, _) => joinQueue (foundBad s a true) d ch x [1]

/-- Patrol scrub reads a sector. -/
def execScrubRead (addr symbols : Nat) (s : State) : Host.Outcome State Fault Refusal :=
  .next (settle (scrubSector s addr symbols))

/-! ### Refresh, calibration and holds -/

/-- Is the channel in service, its controller running? -/
def chanLive (s : State) (ch : Nat) : Bool :=
  !s.outDie.contains ch && performs s (mgSlot (chanDie ch))

/-- A bank of a channel is refreshed, in turn (R176). -/
def execBankRefresh (chan : Fin 1024) (s : State) : Host.Outcome State Fault Refusal :=
  if chanLive s chan then
    .next { s with bankNext := mset 0 s.bankNext chan ((mget 0 s.bankNext chan + 1) % 64) }
  else .next s

/-- A request to hold a channel waits in arrival order (R191). -/
def askHold (s : State) (ch : Nat) (k : HoldKind) : State :=
  updMem s (chanDie ch) (fun m =>
    if m.waiting.contains (ch, k) then m else { m with waiting := m.waiting ++ [(ch, k)] })

/-- The page of the PHY of a channel's stack. -/
def chanPhy (ch : Nat) : Nat := phySlot (ch / 64)

/-- A calibration step: it is counted with the stack's own corrections, a drift asks for a retrain (R178, R372). With
EN = 0 no periodic step runs. -/
def execMemCalibration (chan : Fin 1024) (corrections : Nat) (x : CalStep) (s : State) :
    Host.Outcome State Fault Refusal :=
  if chanLive s chan && (!x.periodic || rgB s (chanPhy chan) calCtlEn) then
    let s := incr s (mgSlot (chanDie chan)) stackCeCount corrections
    let s := incr s (chanPhy chan) calCountSteps
    .next (if x.retrain then incr (askHold s chan .retrain) (chanPhy chan) calCountRetrains else s)
  else .next s

/-- The oldest request of a die starts its hold. -/
def startHold (s : State) (d : Nat) : State :=
  let m := memCtl s d
  match m.hold, m.waiting with
  | none, (ch, k) :: rest =>
    let s := updMem s d (fun m => { m with hold := some { chan := ch, kind := k }, waiting := rest })
    let s := wg (wg s (mgSlot d) holdStatusActive 1) (mgSlot d) holdStatusChannel ch
    incr s (mgSlot d) holdStatusHolds
  | _, _ => s

/-- A retrain or soft repair starts holding its channel. -/
def execChannelHoldStart (d : Die) (s : State) : Host.Outcome State Fault Refusal :=
  if performs s (mgSlot d) then .next (startHold s d) else .next s

/-- An event of a channel as a whole. -/
def chanEvent (d src ch : Nat) : Event :=
  { slot := mgSlot d, src := src, part := ch / 64 % 4, detail := ch * 2 ^ 64 }

/-- The lobe of a die as a half. -/
def lobeHalf (d : Nat) : Half := if d < 2 then 0 else 1

/-- A channel that cannot be read after its retrains: MEM_CH_FAIL, and its lobe is fenced whatever the
source's class (R192, R344). -/
def failChannel (s : State) (d ch : Nat) : State :=
  let s := updMem s d (fun m => { m with failing := m.failing ++ [ch] })
  let s := takeEvents (raise s (chanEvent d srcMemChFail ch))
  if lobeFenced s (lobeOf d) ∨ lobeInReset s (lobeOf d) then s else fenceLobe s (lobeHalf d)

/-- The row of a soft repair has been read, corrected and written back (R179, R186); one that holds an uncorrectable
sector by then is reported and goes to hard repair. -/
def softRepaired (s : State) (d ch row : Nat) : State :=
  let es := rowErrs s ch row
  if es.all (fun x => x.2 < 2) then
    let s := forEach es s (fun s x => foundCorrected (setErr s x.1 0) x.1 true)
    updMem s d (fun m => { m with soft := m.soft.filter (fun x => x ≠ (ch, row)) ++ [(ch, row)] })
  else
    let s := forEach (es.filter (fun x => 2 ≤ x.2)) s (fun s x => foundBad s x.1 false)
    queueRepair s d ch row (addrOf s ch (256 * row))

/-- The end of a hold: a soft repair has repaired its row, a failed retrain is retried once, then reported
(R186, R192). A test's hold ends with the test. -/
def endHold (s : State) (d : Nat) (pass readable : Bool) : State :=
  match (memCtl s d).hold with
  | none => s
  | some h =>
    match h.kind with
    | .test => s
    | .softRepair row => dropHold (softRepaired s d h.chan row) d
    | .retrain =>
    if pass then dropHold s d
    else if h.tries = 0 then updMem s d (fun m => { m with hold := some { h with tries := 1 } })
    else if readable then raise (dropHold s d) (chanEvent d srcMemRetrain h.chan)
    else failChannel (dropHold s d) d h.chan

/-- A hold ends. -/
def execChannelHoldRelease (d : Die) (pass readable : Bool) (s : State) :
    Host.Outcome State Fault Refusal :=
  if performs s (mgSlot d) then .next (settle (endHold s d pass readable)) else .next s

/-- A stack cools to 85 °C: its refresh rate is nominal again (R176). -/
def execStackTempBelow85 (stack : Fin 16) (s : State) : Host.Outcome State Fault Refusal :=
  .next { s with hot := mset 0 s.hot stack 0 }

/-! ### Register writes -/

/-- Is a write of VALID = 1 refused (R165)? -/
def jwRefused (s : State) (e : Jw) (job : Nat) : Bool :=
  e.valid || job = 0 || e.units = 0 || 16777216 < e.units || !jwInDomain e ||
  s.jw.any (fun (_, f) => f.valid && f.job ≠ job && jwClash (pairedForm s) e f)

/-- A write of JW_CTL: the selected entry is bound, refused with REJ, or released (R165). -/
def writeJwCtl (s : State) (val : Nat) : State :=
  let k := rg s solSlot jwSel
  let e := selJw s
  let job := bits val 0 12
  if bit val 31 then
    if jwRefused s e job then { s with jwRej := true }
    else { s with jw := mset {} s.jw k { e with valid := true, job := job }, jwRej := false }
  else
    let e' := { e with valid := false, job := if e.valid then e.job else job }
    { s with jw := mset {} s.jw k e', jwRej := false }

/-- A write of JW_CTL. -/
def execJwCtlWrite (r : Requester) (val : BitVec 32) (s : State) : Host.Outcome State Fault Refusal :=
  .next (guardedWrite s r solSlot 0x160 (fun s => writeJwCtl s val.toNat))

/-- A write of MEM_SPLIT, ignored in both fields where the units exceed 16 (R167). -/
def writeMemSplit (s : State) (val : Nat) : State :=
  if fget memSplitNextPkg val + fget memSplitNextLobe val > 16 then s
  else writeStored s solSlot 0xC0 val

/-- A write of MEM_SPLIT. -/
def execMemSplitWrite (r : Requester) (val : BitVec 32) (s : State) :
    Host.Outcome State Fault Refusal :=
  .next (guardedWrite s r solSlot 0xC0 (fun s => writeMemSplit s val.toNat))

/-- A write of MAPOUT_REQ names a channel, or takes the request back (R189). -/
def writeMapoutReq (s : State) (val : Nat) : State := writeStored s solSlot 0xC8 val

/-- A write of MAPOUT_REQ. -/
def execMapoutReqWrite (r : Requester) (val : BitVec 32) (s : State) :
    Host.Outcome State Fault Refusal :=
  .next (guardedWrite s r solSlot 0xC8 (fun s => writeMapoutReq s val.toNat))

end Sys2Proof.Machine
end

