-- ==== Sys2Proof/Machine/Rilun.lean ====
section
/-!
DEFINITION. The Rilun links (R193 to R207): the data flit's code, lane counts and sparing, bundles that
go down, control flits with their retries, reconcile, and full training with spare selection.
-/

namespace Sys2Proof.Machine

/-! ### Edges -/

/-- The other end of an edge. -/
def farEnd (e : EdgeEnd) : EdgeEnd := { e with far := !e.far }

/-- Both ends of an edge. -/
def edgeEnds (k : Fin 6) : List EdgeEnd := [⟨k, false⟩, ⟨k, true⟩]

/-- Data bundles of an edge (R16): 40 in a lobe, 26 to the Caldera. -/
def bundleCount (k : Fin 6) : Nat := if k.val < 2 then 40 else 26

/-- Is an end's block out of reset? The Caldera's end takes part as long as its page is. -/
def endRuns (s : State) (e : EdgeEnd) : Bool := performs s (edgeSet e).1

/-- Bundle `b` at an end. -/
def bundleOf (s : State) (e : EdgeEnd) (b : Nat) : BundleEnd := mget {} (edgeSide s e).bundles b

/-- Changing a bundle at an end; BUNDLES_UP follows. -/
def updBundle (s : State) (e : EdgeEnd) (b : Nat) (f : BundleEnd → BundleEnd) : State :=
  let x := edgeSide s e
  let s := setEdgeSide s e { x with bundles := mset {} x.bundles b (f (mget {} x.bundles b)) }
  ewg s e edgeStatusBundlesUp (popcount (upMask (edgeSide s e)) 40)

/-- Changing a bundle at both ends. -/
def updBoth (s : State) (k : Fin 6) (b : Nat) (f : BundleEnd → BundleEnd) : State :=
  forEach (edgeEnds k) s (fun s e => updBundle s e b f)

/-- Is the edge up at an end (EDGE_STATUS.STATE)? -/
def edgeUp (s : State) (e : EdgeEnd) : Bool := erg s e edgeStatusState = 3

/-- Setting EDGE_STATUS.STATE of both ends. -/
def setEdgeState (s : State) (k : Fin 6) (st : Nat) : State :=
  forEach (edgeEnds k) s (fun s e => ewg s e edgeStatusState st)

/-- A Rilun event with its bundle and lane (R351). -/
def laneEvent (e : EdgeEnd) (src b lane : Nat) : Event := edgeEvent e src 0 (b + lane * 256)

/-! ### The data flit's code (R195, R196) -/

/-- The low bits of the field polynomial. -/
def rilPoly : Nat := 0x400007

/-- XOR of a list. -/
def xorAll (xs : List Nat) : Nat := xs.foldl (· ^^^ ·) 0

/-- Check word P. -/
def checkP (cols : List Nat) : Nat := xorAll cols

/-- Check word Q: Σ α^L · c_L, by Horner's rule. -/
def checkQ (cols : List Nat) : Nat := cols.foldr (fun c a => c ^^^ gfX rilPoly a) 0

/-- Copy `j` of a check word as the columns carry it: lane 16 j + i holds bits [2i+1:2i] in its check bits
(R195). -/
def checkCopy (f : DataFlit) (j : Nat) : Nat :=
  ((List.range 16).map (fun i => bits (f.cols.getD (16 * j + i) 0) 32 2 * 4 ^ i)).sum

/-- The choices of copies in order, each with the lanes of the rejected copies; none where the copies
agree. With both words' copies at odds, the lanes of both rejected copies count. -/
def candidates (f : DataFlit) : List (Nat × Nat × Option (List Nat)) :=
  let lanes (lo : Nat) : List Nat := (List.range 16).map (· + lo)
  let pa := checkCopy f 0
  let pb := checkCopy f 2
  let qa := checkCopy f 1
  let qb := checkCopy f 3
  let ps := if pa = pb then [(pa, [])] else [(pa, lanes 32), (pb, lanes 0)]
  let qs := if qa = qb then [(qa, [])] else [(qa, lanes 48), (qb, lanes 16)]
  ps.flatMap (fun (p, lp) => qs.map (fun (q, lq) =>
    (p, q, if lp.isEmpty && lq.isEmpty then none else some (lp ++ lq))))

/-- Trying one choice of copies: the payload, with the corrected logical lane. -/
def tryCopies (cols : List Nat) (c : Nat × Nat × Option (List Nat)) :
    Option (List Nat × Option Nat) :=
  let s1 := c.1 ^^^ checkP cols
  let s2 := c.2.1 ^^^ checkQ cols
  if s1 = 0 ∧ s2 = 0 then some (cols, none)
  else if s1 ≠ 0 ∧ s2 ≠ 0 then
    match (List.range 64).find? (fun l => gfXPow rilPoly l s1 = s2) with
    | some l =>
      if (match c.2.2 with | none => true | some r => r.contains l) then
        some (cols.set l (cols.getD l 0 ^^^ s1), some l)
      else none
    | none => none
  else none

/-- The payload of a flit: 64 words of 32 bits. -/
def flitCols (f : DataFlit) : List Nat := (List.range 64).map (fun l => f.cols.getD l 0 % 2 ^ 32)

/-- Decoding a flit; none where it is uncorrectable. -/
def decodeFlit (f : DataFlit) : Option (List Nat × Option Nat) :=
  (candidates f).findSome? (tryCopies (flitCols f))

/-! ### Bundles that go down (R199) -/

/-- A bundle goes down at both ends: RIL_BUNDLE_DOWN, and RIL_EDGE_DOWN with the last one. -/
def bundleDown (s : State) (e : EdgeEnd) (b lane : Nat) : State :=
  let s := updBoth s e.edge b (fun x => { x with up := false, sparing := none, aside := false })
  let s := raise (moveTraffic s e.edge) (laneEvent e srcBundleDown b lane)
  if (upMask (edgeSide s e)) = 0 then
    raise (setEdgeState s e.edge 0) (laneEvent e srcEdgeDown b lane)
  else s

/-! ### Lane counts (R197, R198) -/

/-- The physical lane of logical lane `l` under a mask: its l-th set bit. -/
def physLane (mask l : Nat) : Nat := ((List.range 68).filter (mask.testBit ·)).getD l 0x7F

/-- The lowest free spare. -/
def lowestSpare (b : BundleEnd) : Option Nat := (List.range 68).find? (b.spares.testBit ·)

/-- Sparing starts at both ends: the bundle leaves service. -/
def startSparing (s : State) (k : Fin 6) (b lane spare : Nat) : State :=
  let s := updBoth s k b (fun x => { x with sparing := some (lane, spare) })
  moveTraffic s k

/-- A lane becomes failing (R197). -/
def laneFails (s : State) (e : EdgeEnd) (b lane : Nat) : State :=
  let x := bundleOf s e b
  if x.failing.contains lane then s
  else if !x.failing.isEmpty then bundleDown s e b lane
  else match lowestSpare x with
  | some sp =>
    if erg s e laneCtlSpareEn = 1 then
      raise (startSparing s e.edge b lane sp) (laneEvent e srcLaneSpared b lane)
    else marginal s
  | none => marginal s
where
  /-- The lane stays in use. -/
  marginal (s : State) : State :=
    raise (updBundle s e b (fun x => { x with failing := [lane] })) (laneEvent e srcLaneMarginal b lane)

/-- A flit is corrected on a physical lane. -/
def countLane (s : State) (e : EdgeEnd) (b lane : Nat) : State :=
  let s := updBundle s e b (fun x => { x with
    counts := mset 0 x.counts lane (mget 0 x.counts lane + 1), lastCorr := lane })
  let s := ewg s e corrCount (satAdd 32 (erg s e corrCount) 1)
  let s := raise s (laneEvent e srcRilCorr b lane)
  if erg s e laneCtlFailThresh ≤ mget 0 (bundleOf s e b).counts lane then laneFails s e b lane else s

/-! ### Delivery (R194, R199) -/

/-- Early flits that are next are delivered; `n` bounds their number. -/
def deliverHeld : Nat → EdgeSide → EdgeSide
  | 0, x => x
  | n + 1, x =>
    match x.rxHeld.find? (fun f => f.1 = x.rxNext) with
    | none => x
    | some (q, cols) =>
      deliverHeld n { x with
        rxNext := q + 1, delivered := x.delivered ++ [cols]
        rxHeld := x.rxHeld.filter (fun f => f.1 ≠ q) }

/-- A flit reaches the gateway in sequence order, once. -/
def deliverFlit (s : State) (e : EdgeEnd) (q : Nat) (cols : List Nat) : State :=
  let x := edgeSide s e
  if q < x.rxNext ∨ x.rxHeld.any (fun f => f.1 = q) then s
  else
    let x := { x with rxHeld := x.rxHeld ++ [(q, cols)] }
    let y := deliverHeld x.rxHeld.length x
    retire (setEdgeSide s e y) (edgeSet e).1 (y.rxNext - x.rxNext)

/-- A sender sends `n` further flits over the bundles in service, in turn, and keeps them (R194, R199). -/
def sendNew (up : List Nat) : Nat → EdgeSide → EdgeSide
  | 0, x => x
  | n + 1, x => match turnOf up x.turn with
    | none => x
    | some b => sendNew up n { x with
        txNext := x.txNext + 1, turn := b + 1, replay := x.replay ++ [{ seq := x.txNext, bundle := b }] }

/-- The sender at `e` has sent a flit, and those before it: it keeps them until they are acknowledged. It has
not sent one that its 4,096 places could not hold (R199). -/
def keepFlit (s : State) (e : EdgeEnd) (f : DataFlit) : State :=
  let x := edgeSide s e
  let n := f.seq + 1 - x.txNext
  let x := if x.replay.length + n ≤ 4096 then sendNew (serving s e) n x else x
  setEdgeSide s e { x with replay := x.replay.map (fun k =>
    if k.seq = f.seq then { k with request := f.request, job := f.job } else k) }

/-- Does the sender at `e` keep flit `q`, as sent on bundle `b`? -/
def hasSent (s : State) (e : EdgeEnd) (q b : Nat) : Bool :=
  (edgeSide s e).replay.any (fun k => k.seq = q && k.bundle = b)

/-- Flits of 256 payload bytes that the hold buffer of 512 KiB takes (R207). -/
def holdFlits : Nat := 2048

/-- An end that runs holds back its traffic while the edge is not up; a full buffer pushes back. -/
def holdFlit (s : State) (e : EdgeEnd) (f : DataFlit) : State :=
  let x := edgeSide s e
  if !endRuns s e ∨ x.held.length ≥ holdFlits then s
  else
    let x := { x with held := x.held ++ [f] }
    ewg (setEdgeSide s e x) e edgeStatusHoldFull (b2n (x.held.length = holdFlits))

/-- Does an edge that is not up come up again, so that traffic for it is held: it trains or reconciles (R207)? -/
def comesUp (s : State) (e : EdgeEnd) : Bool :=
  erg s e edgeStatusState = 1 || erg s e edgeStatusState = 2

/-- A flit arrives at an end on a bundle: on the one that its sender has sent it on, and no other. -/
def receiveFlit (s : State) (e : EdgeEnd) (b : Nat) (f : DataFlit) : State :=
  let x := bundleOf s e b
  let v := keepFlit s (farEnd e) f
  if !edgeUp s e then
    if comesUp s e then holdFlit s (farEnd e) f else s
  else if !x.up ∨ x.sparing.isSome ∨ x.aside ∨ !endRuns s e ∨ !hasSent v (farEnd e) f.seq b then s
  else
    let s := v
    match decodeFlit f with
    | none => bundleDown s e b 0
    | some (cols, none) => deliverFlit s e f.seq cols
    | some (cols, some l) =>
      countLane (deliverFlit s e f.seq cols) e b (physLane x.mask l)

/-- A receiver decodes a data flit. -/
def execDataFlitReceive (e : EdgeEnd) (b : Fin 40) (f : DataFlit) (s : State) :
    Host.Outcome State Fault Refusal :=
  .next (settle (receiveFlit s e b f))

/-- Has the receiving end of the sender at `e` taken flit `q`? -/
def hasTaken (s : State) (e : EdgeEnd) (q : Nat) : Bool :=
  let y := edgeSide s (farEnd e)
  q < y.rxNext || y.rxHeld.any (fun f => f.1 = q)

/-- An acknowledgement reaches the sender at `e` over a control bundle: it frees the kept flits up to its
sequence number, those that the receiver has taken (R194, R199). -/
def ackFlits (s : State) (e : EdgeEnd) (seq : Nat) : State :=
  let x := edgeSide s e
  let ctrl (k : Nat) : Bool := (mget {} x.ctrl k).up
  if edgeUp s e && (ctrl 0 || ctrl 1) then
    let s' := setEdgeSide s e { x with replay := x.replay.filter (fun k => !(k.seq ≤ seq && hasTaken s e k.seq)) }
    retire s' (edgeSet e).1 (x.replay.length - (edgeSide s' e).replay.length)
  else s

/-- An acknowledgement arrives. -/
def execDataFlitAck (e : EdgeEnd) (seq : Nat) (s : State) : Host.Outcome State Fault Refusal :=
  .next (settle (ackFlits s e seq))

/-- Every lane's correction count is halved. -/
def execLaneCountDecay (s : State) : Host.Outcome State Fault Refusal :=
  let halve (m : Map Nat) : Map Nat :=
    m.filterMap (fun (k, v) => if v / 2 = 0 then none else some (k, v / 2))
  .next { s with edges := s.edges.map (fun (k, x) =>
    (k, { x with bundles := x.bundles.map (fun (b, y) => (b, { y with counts := halve y.counts })) })) }

/-! ### The end of a sparing (R198, R204) -/

/-- The next value of a lane-map epoch (R204). -/
def nextEpoch (n : Nat) : Nat := if n ≥ 65535 then 1 else n + 1

/-- A sparing succeeds at one end: the spare carries data for the failing lane. -/
def commitSpare (s : State) (e : EdgeEnd) (b lane spare : Nat) : State :=
  let s := updBundle s e b (fun x => { x with
    mask := setBits (setBits x.mask lane 1 0) spare 1 1
    spares := setBits x.spares spare 1 0
    counts := mset 0 (mset 0 x.counts lane 0) spare 0
    sparing := none })
  let x := edgeSide s e
  setEdgeSide s e { x with epoch := nextEpoch x.epoch }

/-- A sparing ends: with the mask agreed the bundle returns; else the spare is no longer free, and the
next one is trained, or the lane stays in use. -/
def endSparing (s : State) (k : Fin 6) (b : Nat) (agreed : Bool) : State :=
  let e : EdgeEnd := ⟨k, false⟩
  match (bundleOf s e b).sparing with
  | none => s
  | some (lane, spare) =>
    if agreed then moveTraffic (forEach (edgeEnds k) s (fun s e => commitSpare s e b lane spare)) k
    else
      let s := updBoth s k b (fun x => { x with spares := setBits x.spares spare 1 0, sparing := none })
      match lowestSpare (bundleOf s e b) with
      | some sp => startSparing s k b lane sp
      | none =>
        let s := moveTraffic (updBoth s k b (fun x => { x with failing := [lane] })) k
        raise s (laneEvent e srcLaneMarginal b lane)

/-- Sparing ends. -/
def execSparingComplete (edge : Fin 6) (b : Fin 40) (agreed : Bool) (s : State) :
    Host.Outcome State Fault Refusal :=
  if edgeUp s ⟨edge, false⟩ then .next (settle (endSparing s edge b agreed)) else .next s

/-! ### The control bundles (R200, R201) -/

/-- A control bundle at an end. -/
def ctrlOf (s : State) (e : EdgeEnd) (cb : Nat) : CtrlEnd := mget {} (edgeSide s e).ctrl cb

/-- Changing it; CTRL_UP follows. -/
def updCtrl (s : State) (e : EdgeEnd) (cb : Nat) (f : CtrlEnd → CtrlEnd) : State :=
  let x := edgeSide s e
  let s := setEdgeSide s e { x with ctrl := mset {} x.ctrl cb (f (mget {} x.ctrl cb)) }
  ewg s e edgeStatusCtrlUp (b2n (ctrlOf s e 0).up + 2 * b2n (ctrlOf s e 1).up)

/-- The die at an edge that loses its control bundles: of an in-lobe edge the far one, which shares the
lobe. -/
def edgeDie (k : Fin 6) : Nat := if k.val < 2 then 2 * k.val + 1 else k.val - 2

/-- Both control bundles of an edge are down: the die at the edge is fenced with its lobe, whatever the
source's class (R201, R344). -/
def ctrlLost (s : State) (e : EdgeEnd) (cb : Nat) : State :=
  let s := takeEvents (raise s (edgeEvent e srcCtrlLost 0 cb))
  let d := edgeDie e.edge
  if lobeFenced s (lobeOf d) ∨ lobeInReset s (lobeOf d) then s else fenceLobe s (lobeHalf d)

/-- A control bundle takes over unacknowledged payloads, under numbers of its own (R200). -/
def takeOver (c : CtrlEnd) (payloads : List Nat) : CtrlEnd :=
  if !c.up then c
  else payloads.foldl (fun c p => { c with
    unacked := c.unacked ++ [(c.nextSeq, p)], nextSeq := (c.nextSeq + 1) % 256 }) c

/-- A control bundle goes down: its flits that the far end has not taken go to the other one (R200, R201). -/
def ctrlDown (s : State) (e : EdgeEnd) (cb : Nat) : State :=
  let left (x : EdgeEnd) : List Nat := ((ctrlOf s x cb).unacked.filter (fun f =>
    !(ctrlOf s (farEnd x) cb).received.contains f.1)).map Prod.snd
  let moved := (edgeEnds e.edge).map (fun x => (x, left x))
  let s := forEach moved s (fun s (x, fs) =>
    let s := updCtrl s x cb (fun c => { c with up := false, fails := 0, unacked := [] })
    updCtrl s x (1 - cb) (fun c => takeOver c fs))
  let s := raise s (edgeEvent e srcCtrlDown 0 cb)
  if (ctrlOf s e (1 - cb)).up then s else ctrlLost s e cb

/-- The sender at `e` sends its unacknowledged flits again: a retry, the 16th in a row takes the bundle
down. -/
def ctrlResend (s : State) (e : EdgeEnd) (cb : Nat) : State :=
  let s := ewg s e ctrlRetry (satAdd 32 (erg s e ctrlRetry) 1)
  let s := raise s (edgeEvent e srcCtrlRetry 0 cb)
  let s := updCtrl s e cb (fun c => { c with fails := c.fails + 1 })
  if (ctrlOf s e cb).fails ≥ 16 then ctrlDown s e cb else s

/-- The CRC of a control flit over its 192 payload bits. -/
def ctrlCrc (payload : Nat) : Nat := crc32c (leBytes 24 payload)

/-- A control flit arrives at an end: an acknowledgement frees the flit that it names, a flit that passes
is taken once, one that fails is sent again. -/
def receiveCtrl (s : State) (e : EdgeEnd) (cb : Nat) (f : ControlFlit) : State :=
  if !(ctrlOf s e cb).up ∨ !endRuns s e then s
  else
    let o := farEnd e
    let sq := f.seq % 256
    let s := if f.ack ∨ (ctrlOf s o cb).unacked.any (fun x => x.1 = sq) ∨
        (ctrlOf s e cb).received.contains sq then s
      else updCtrl s o cb (fun c => { c with
        unacked := c.unacked ++ [(sq, f.payload)], nextSeq := (sq + 1) % 256 })
    if f.crc ≠ ctrlCrc f.payload then ctrlResend s o cb
    else if f.ack then
      updCtrl s e cb (fun c => { c with unacked := c.unacked.filter (fun x => x.1 ≠ sq), fails := 0 })
    else if (ctrlOf s e cb).received.contains sq then s
    else updCtrl s e cb (fun c => { c with received := (sq :: c.received).take 128 })

/-- A control flit is received. -/
def execControlFlitReceive (e : EdgeEnd) (cb : Half) (f : ControlFlit) (s : State) :
    Host.Outcome State Fault Refusal :=
  .next (settle (receiveCtrl s e cb f))

/-- A control flit is not acknowledged within 200 ns. -/
def execControlAckTimeout (e : EdgeEnd) (cb : Half) (s : State) : Host.Outcome State Fault Refusal :=
  let c := ctrlOf s e cb
  if c.up ∧ c.unacked ≠ [] then .next (settle (ctrlResend s e cb)) else .next s

/-! ### Reconcile and training (R203 to R207) -/

/-- The lane map of an end as bytes: a 16-byte record per bundle, then the epoch (R204). -/
def laneMap (s : State) (e : EdgeEnd) : List Byte :=
  (List.range (bundleCount e.edge)).flatMap (fun b =>
    let x := bundleOf s e b
    leBytes 16 (x.mask % 2 ^ 68 + b2n x.up * 2 ^ 127)) ++ leBytes 2 (edgeSide s e).epoch

/-- The map hash. -/
def mapHash (s : State) (e : EdgeEnd) : List Byte := (sha512 (laneMap s e)).take 8

/-- The edge is up: what each end held back is sent before anything new, in arrival order, as the next flits
(R207). -/
def resumeEdge (s : State) (k : Fin 6) : State :=
  let s := setEdgeState s k 3
  forEach (edgeEnds k) s (fun s e =>
    let fs := (edgeSide s e).held
    let s := ewg (setEdgeSide s e { edgeSide s e with held := [] }) e edgeStatusHoldFull 0
    forEach fs s (fun s f =>
      let f := { f with seq := (edgeSide s e).txNext }
      deliverFlit (keepFlit s e f) (farEnd e) f.seq (flitCols f)))

/-- Control bundles come up trained. -/
def trainCtrl (s : State) (k : Fin 6) (up : Nat) : State :=
  forEach (edgeEnds k) s (fun s e =>
    forEach [0, 1] s (fun s cb => updCtrl s e cb (fun _ => { up := bit up cb })))

/-- Each control bundle has been trained afresh, those of `up` with success, and the ends compare map hashes
and epochs over the first: they resume on the stored maps, or train (R206). Without a control bundle they
compare nothing (R201). -/
def reconcile (s : State) (k : Fin 6) (up : Nat) : State :=
  let a : EdgeEnd := ⟨k, false⟩
  let b : EdgeEnd := ⟨k, true⟩
  let s := trainCtrl s k up
  if up = 0 then ctrlLost (setEdgeState s k 0) a 1
  else
  let same := mapHash s a = mapHash s b ∧ (edgeSide s a).epoch = (edgeSide s b).epoch
  let s := forEach (edgeEnds k) s (fun s e => ewg s e mapEpochLast (if same then 1 else 2))
  if same then resumeEdge s k
  else
    let s := forEach (edgeEnds k) s (fun s e =>
      forEach (List.range (bundleCount k)) s (fun s n =>
        updBundle s e n (fun x => { x with up := false, mask := 0, spares := 0 })))
    setEdgeState s k 1

/-- Can the block of an end train: its page is powered, and it is out of reset or in the level that trains it
(R355)? -/
def endTrains (s : State) (e : EdgeEnd) : Bool :=
  let p := (edgeSet e).1
  pagePower s p ≠ 0 && !rgB s solSlot resetStatusHeld && (pageInReset s p || !pageFenced s p)

/-- Do both ends of an edge stand in a training state and train? -/
def edgeTrains (s : State) (k : Fin 6) (st : Nat) : Bool :=
  (edgeEnds k).all (fun e => erg s e edgeStatusState = st && endTrains s e)

/-- After a warm reset the ends exchange map hashes. -/
def execReconcileHashExchange (x : EdgeCheck) (s : State) : Host.Outcome State Fault Refusal :=
  if edgeTrains s x.edge 2 then .next (settle (reconcile s x.edge x.ctrlUp)) else .next s

/-- Spare selection (R203): of the lanes at or above the least margin the 64 with the largest margins,
the lower number on a tie, and the rest; none where fewer than 64 remain. -/
def selectLanes (fused least : Nat) (margins : List Nat) : Option (Nat × Nat) :=
  let m (l : Nat) : Nat := margins.getD l 0
  let ok := (List.range 68).filter (fun l => !fused.testBit l && least ≤ m l)
  if ok.length < 64 then none
  else
    let better (l : Nat) : Nat := ok.countP (fun x => m x > m l || (m x = m l && x < l))
    let mask (xs : List Nat) : Nat := (xs.map (2 ^ ·)).sum
    some (mask (ok.filter (fun l => better l < 64)), mask (ok.filter (fun l => 64 ≤ better l)))

/-- A bundle after full training. -/
def trainBundle (x : BundleEnd) (least : Nat) (margins : List Nat) : BundleEnd :=
  match selectLanes x.fused least margins with
  | some (mask, spares) => { up := true, mask := mask, spares := spares, fused := x.fused, aside := x.aside }
  | none => { fused := x.fused }

/-- A full training ends: maps, counts and epochs are new, and the held traffic drains. -/
def trainEdge (s : State) (k : Fin 6) (m : EdgeMargins) : State :=
  let a : EdgeEnd := ⟨k, false⟩
  let b : EdgeEnd := ⟨k, true⟩
  let s := forEach (edgeEnds k) s (fun s e =>
    forEach (List.range (bundleCount k)) s (fun s n =>
      updBundle s e n (fun x => trainBundle x m.least (m.bundles.getD n []))))
  let ep := nextEpoch (max (edgeSide s a).epoch (edgeSide s b).epoch)
  let s := forEach (edgeEnds k) s (fun s e => setEdgeSide s e { edgeSide s e with epoch := ep })
  let s := trainCtrl s k m.ctrlUp
  let dead := upMask (edgeSide s a) = 0
  let s := if dead then raise (setEdgeState s k 0) (laneEvent a srcEdgeDown 0 0) else s
  if m.ctrlUp % 4 = 0 then ctrlLost (setEdgeState s k 0) a 1
  else if dead then s else resumeEdge s k

/-- A full training of an edge ends. -/
def execEdgeTrainingComplete (edge : Fin 6) (m : EdgeMargins) (s : State) :
    Host.Outcome State Fault Refusal :=
  if edgeTrains s edge 1 then .next (settle (trainEdge s edge m)) else .next s

end Sys2Proof.Machine
end

