-- ==== Sys2Proof/Machine/Measure.lean ====
section
/-!
DEFINITION. What measurement register MR5 measures (R391).
-/

namespace Sys2Proof.Machine

/-- Where the flash port plan lies (R387). -/
def planAt : Nat := 0xA00000

/-- The accepted flash plan, or 128 zero bytes. -/
def acceptedPlan (s : State) : List Byte :=
  if rgB s solSlot optPlanFlashOk then flashBytes s planAt 128 else List.replicate 128 0

/-- MR5 is extended with the package's settings (R391). -/
def measureSettings (s : State) : State :=
  let word (off : Nat) : Nat := (read01 s off).getD 0
  let split := rg s solSlot memSplitCurPkg * 2 ^ 5 + rg s solSlot memSplitCurLobe
  extendMr s 5 (sha512 (Config.mr5Bytes (word 0x140) (word 0xE0) split (rg s solSlot lobeModeMode)
    (acceptedPlan s)))

end Sys2Proof.Machine
end

