-- ==== Sys2Proof/Machine/Optics.lean ====
section
/-!
DEFINITION. The optical engines and their lane groups: admission (R208 to R211, R224), the laser monitor
(R215), training, absence and retrains of groups (R219 to R222, R227).
-/

namespace Sys2Proof.Machine

/-! ### Admission (R210, R211) -/

/-- A signed 16-bit number. -/
def sx16 (n : Nat) : Int := if n % 65536 < 32768 then (n % 65536 : Nat) else (n % 65536 : Nat) - 65536

/-- Why a qualification descriptor is refused, 0 when it passes (OE_STATUS.REASON). -/
def admitReason (s : State) (ds : Option (List Byte)) : Nat :=
  match ds with
  | none => 1
  | some bs =>
    let slot := fieldOf bs 0x28 1
    let caps := fieldOf bs 0x14 4
    if fieldOf bs 0 4 ≠ 0x4F454431 ∨ fieldOf bs 4 2 ≠ 1 then 2
    else if !(zeroBytes bs 6 8 && zeroBytes bs 0x29 0x30 && zeroBytes bs 0x3C 0xC0) then 3
    else if 4 ≤ slot ∨ bit (rg s fuseSlot fuseStateRevQual) slot then 4
    else match Config.keySlot false slot with
    | none => 4
    | some key =>
      if !Config.edVerify key (sha512 (bs.take 0xC0)) ((bs.drop 0xC0).take 64) then 5
      else if bits caps 0 4 ≠ 4 ∨ !bit caps 4 then 6
      else 0

/-- Do the commands of an OE die run: its domain is on, also within a package compute reset and a full package reset
that has booted, which train its groups (R355)? -/
def oeRuns (s : State) (o : Nat) : Bool :=
  domainOn s (65 + o) && !pageInReset { s with
    resets := s.resets.filter (fun r => !(r.scope = .package || r.scope = .full && r.booted)) } (oeSlot o)

/-- Is it the OE die's turn to be admitted? At a first bring-up OE dies are admitted in ascending order, those that are
off left out, so that MR4 takes their descriptors in that order; one that is tried again has its turn at once
(R391). -/
def oeTurn (s : State) (o : Nat) : Bool :=
  rg s (oeSlot o) oeStatusAdmit = 1 ||
  (List.range o).all (fun k => oeOff s k || rg s (oeSlot k) oeStatusAdmit ≠ 0)

/-- The groups of an OE die. -/
def oeGroups (o : Nat) : List Nat := (List.range 4).map (· + 4 * o)

/-- The wavelengths below a threshold, bit 4 f + k, of the powers measured at an OE die. -/
def lowOf (min : Int) (power : List Int) : Nat :=
  (((List.range 8).filter (fun k => decide (power.getD k 0 < min))).map (2 ^ ·)).sum

/-- Admission of an OE die: refused with its reason, or admitted with its modules trained and its
descriptor measured. -/
def admitOe (s : State) (o : Nat) (a : OeAnswer) : State :=
  let p := oeSlot o
  let why := admitReason s a.descriptor
  if why ≠ 0 then
    let s := wg (wg s p oeStatusAdmit 3) p oeStatusReason why
    raise s { slot := p, src := srcAdmitFail }
  else
    let bs := a.descriptor.getD []
    let up := (a.train32 ||| a.train16) % 16
    let s := wg (wg (wg s p oeStatusAdmit 2) p oeStatusReason 0) p oeStatusKeyId (fieldOf bs 0x28 1)
    let s := wg (wg s p oeStatusModUp up) p oeStatusMod16gt (up - (up &&& a.train32))
    let min := sx16 (fieldOf bs 0x30 2)
    let x : Oe := { laserMin := min, rxSens := sx16 (fieldOf bs 0x34 2), low := lowOf min a.light }
    let s := { s with oe := mset {} s.oe o x }
    forEach (oeGroups o) (extendMr s 4 (sha512 bs)) startTraining

/-- The Caldera admits an OE die, or refuses it. -/
def execOeAdmission (o : Fin 8) (a : OeAnswer) (s : State) : Host.Outcome State Fault Refusal :=
  if oeRuns s o ∧ rg s (oeSlot o) oeStatusAdmit ≤ 1 ∧ oeTurn s o then .next (settle (admitOe s o a))
  else .next s

/-- RETRY: a refused OE die is read again. -/
def retryOe (s : State) (o : Nat) : State :=
  let p := oeSlot o
  if rg s p oeStatusAdmit = 3 then wg (wg s p oeStatusAdmit 1) p oeStatusReason 0 else s

/-- A write of OE_CTL with RETRY set. -/
def execOeRetry (r : Requester) (o : Fin 8) (s : State) : Host.Outcome State Fault Refusal :=
  .next (guardedWrite s r (oeSlot o) 0x84 (fun s => retryOe s o))

/-! ### Lanes that fail (R215, R221) -/

/-- Lanes of a group that carries traffic, retrains or is aside for a test fail. A group that retrains takes
them up at the end of that retrain, one that is aside when it returns (R221). -/
def failLanes (s : State) (g rx tx : Nat) : State :=
  let x := optGroup s g
  if !groupUp s g ∧ !x.retraining ∧ !x.recal then s
  else
    let s := updGroup s g (fun x => { x with failed := x.failed ||| rx, failedTx := x.failedTx ||| tx })
    let s := raise s (groupEvent g srcOptLaneFail)
    if x.retraining ∨ x.recal ∨ x.due then s else wantRetrain s g

/-- Has a lane failed: has its receive power fallen below RX_SENS + 1.0 dB, or its lock been lost (R221,
R224)? -/
def laneFailed (s : State) (g : Nat) : LaneCause → Bool
  | .power p => decide (p < (mget {} s.oe (g / 4)).rxSens + 10)
  | .lock => true

/-- A receive lane may have failed. -/
def execOptLaneFail (g : Fin 32) (f : LaneFail) (s : State) : Host.Outcome State Fault Refusal :=
  if oeRuns s (g / 4) ∧ laneFailed s g f.cause then .next (settle (failLanes s g (2 ^ f.lane.val) 0))
  else .next s

/-- A power in 0.1 dBm as LASER_MON shows it. -/
def monByte (p : Int) : Nat := min p.toNat 255

/-- The low wavelengths of an OE die change. -/
def setLow (s : State) (o : Nat) (x : Oe) (low : Nat) : State :=
  { s with oe := mset {} s.oe o { x with low := low } }

/-- The monitor of an OE die: LASER_MON, low wavelengths with their lanes, high wavelengths. -/
def monitorLaser (s : State) (o : Nat) (power : List Int) : State :=
  let p := oeSlot o
  let at_ (k : Nat) : Int := power.getD k 0
  let s := forEach [0, 1] s (fun s f =>
    wg s p (laserMon f) (((List.range 4).map (fun k => monByte (at_ (4 * f + k)) * 2 ^ (8 * k))).sum))
  let x := mget {} s.oe o
  let admitted := rg s p oeStatusAdmit = 2
  let low := if admitted then lowOf x.laserMin power else 0
  let lows := (List.range 8).filter (bit low ·)
  let fresh := low - (low &&& x.low)
  let s := setLow s o x low
  let s := forEach lows s (fun s _ => raise s { slot := p, src := srcLaserLow })
  let s := forEach (oeGroups o) s (fun s g =>
    let f := g % 4 / 2
    let lanes := ((List.range 8).map (fun l => b2n (bit fresh (4 * f + l % 4)) * 2 ^ l)).sum
    if lanes = 0 then s
    else if ggt s g groupStatusState = 2 ∧ !(optGroup s g).retraining ∧ !(optGroup s g).recal then
      gst (updGroup s g (fun y => { y with waitLight := true })) g groupStatusState 0
    else failLanes s g lanes lanes)
  forEach ((List.range 8).filter (fun k => decide (170 < at_ k))) s
    (fun s _ => raise s { slot := p, src := srcLaserHigh })

/-- An OE die measures its laser inputs. -/
def execLaserMonitor (o : Fin 8) (power : List Int) (s : State) : Host.Outcome State Fault Refusal :=
  if oeRuns s o then .next (settle (monitorLaser s o power)) else .next s

/-- A waiting group checks its laser input again: the powers of its fiber's four wavelengths. -/
def recheckLight (s : State) (g : Nat) (power : List Int) : State :=
  let x := mget {} s.oe (g / 4)
  if (List.range 4).all (fun k => decide (x.laserMin ≤ power.getD k 0)) then
    let f := g % 4 / 2
    let s := setLow s (g / 4) x (setBits x.low (4 * f) 4 0)
    startTraining s g
  else s

/-- A group that waits for laser light checks again. -/
def execGroupLightRecheck (g : Fin 32) (power : List Int) (s : State) :
    Host.Outcome State Fault Refusal :=
  if oeRuns s (g / 4) ∧ (optGroup s g).waitLight then .next (recheckLight s g power)
  else .next s

/-! ### Training (R219, R220, R227) -/

/-- The width that the passing lanes allow: 8, 6, 4, or 0 (R220); at most 4 on a module at 16 GT/s. -/
def groupWidth (slow : Bool) (tx rx : Nat) : Nat :=
  let n := min (popcount tx 8) (popcount rx 8)
  if n < 4 then 0
  else if slow ∨ n < 6 then 4
  else if n < 8 then 6 else 8

/-- The `w` lowest lanes of a mask. -/
def lowestLanes (m w : Nat) : Nat :=
  ((((List.range 8).filter (m.testBit ·)).take w).map (2 ^ ·)).sum

/-- The lanes that a training leaves out for want of light: those that were dark when it began (R220). -/
def darkLanes (s : State) (g : Nat) : Nat :=
  let low := lowLanes s g
  low - (low &&& (optGroup s g).failed)

/-- A group comes out of a training: up at its width, held down beside a wrong neighbour, or down with
too few lanes. -/
def finishTraining (s : State) (g : Nat) (r : GroupResult) : State :=
  match groupPort s g with
  | none => s
  | some p =>
    let retrain := (optGroup s g).retraining
    let slow := bit (rg s (oeSlot (g / 4)) oeStatusMod16gt) (g % 4)
    let wasUp := portUp s p
    let dark := darkLanes s g
    let tx := r.tx - (r.tx &&& dark)
    let rx := r.rx - (r.rx &&& dark)
    let w := groupWidth slow tx rx
    let s := updGroup s g (fun x => { x with failed := 0, failedTx := 0, retraining := false })
    let down (s : State) : State :=
      gst (gst (gst (gst s g groupStatusState 4) g groupStatusWidth 0) g groupStatusTxLanes 0) g
        groupStatusRxLanes 0
    if some r.partner ≠ neighbourPos s p then
      raise (down (updGroup s g (fun x => { x with miswired := true }))) (portEvent p srcFabMiswire)
    else if w = 0 then
      if retrain then raise (down s) (groupEvent g srcOptGroupDown) else down s
    else
      let s := updGroup s g (fun x => { x with miswired := false })
      let s := gst (gst s g groupStatusState 3) g groupStatusWidth w
      let s := gst s g groupStatusTxLanes (lowestLanes tx w)
      let s := gst s g groupStatusRxLanes (lowestLanes rx w)
      portComes (moveFum s p) p wasUp

/-- Is the group in its first training? -/
def inTraining (s : State) (g : Nat) : Bool :=
  ggt s g groupStatusState = 2 && !(optGroup s g).retraining && !(optGroup s g).recal

/-- A group's first training ends. -/
def execGroupTrainingComplete (g : Fin 32) (r : GroupResult) (s : State) :
    Host.Outcome State Fault Refusal :=
  if oeRuns s (g / 4) ∧ inTraining s g then
    .next (settle (finishTraining s g r))
  else .next s

/-- A retrain ends; a lane that failed after its results were exchanged, so that it counts as passing, starts a
further one (R221). -/
def endRetrain (s : State) (g : Nat) (r : GroupResult) : State :=
  let x := optGroup s g
  let late := (x.failed &&& r.rx ≠ 0) || (x.failedTx &&& r.tx ≠ 0)
  let s := finishTraining s g r
  if late ∧ !(optGroup s g).miswired then startRetrain s g
  else match groupPort s g with
    | some p => nextRetrain s p
    | none => s

/-- A group's retrain ends. -/
def execGroupRetrainComplete (g : Fin 32) (r : GroupResult) (s : State) :
    Host.Outcome State Fault Refusal :=
  if oeRuns s (g / 4) ∧ (optGroup s g).retraining then .next (settle (endRetrain s g r))
  else .next s

/-- A group that receives no light from a partner becomes absent (R219). -/
def execGroupAbsent (g : Fin 32) (s : State) : Host.Outcome State Fault Refusal :=
  if oeRuns s (g / 4) ∧ inTraining s g then
    .next (gst s g groupStatusState 1)
  else .next s

/-- An absent group is probed, and trains when light arrives from a partner (R219). -/
def execAbsentGroupProbe (g : Fin 32) (light : Bool) (s : State) : Host.Outcome State Fault Refusal :=
  if oeRuns s (g / 4) ∧ ggt s g groupStatusState = 1 ∧ light then
    .next (startTraining s g)
  else .next s

end Sys2Proof.Machine
end

