-- ==== Sys2Proof/Machine/Power.lean ====
section
/-!
DEFINITION. Power states and their requests (R381, R382), the brake and the limiter (R383, R384), supply
and thermal events (R386, R430) and the clocks (R376, R377).
-/

namespace Sys2Proof.Machine

/-! ### Power states -/

/-- A lobe is off: it is fenced, its dies hold nothing, its stacks keep their contents in self-refresh. -/
def switchLobeOff (s : State) (l : Half) : State :=
  let s := if lobeFenced s l then s else setFence (fenceJobs s l (rg s solSlot lobeModeCur)) l
  let s := dropLobe s l
  let s := wg s pwrSlot (if l = 0 then pwrStateOffW else pwrStateOffE) 1
  let cur := rg s pwrSlot pwrStateCur
  if cur = 3 ∨ cur = 4 then s else wg s pwrSlot pwrStateCur 2

/-- The package is in standby: the dies hold nothing, the stacks keep their contents. -/
def standBy (s : State) : State := wg (dropLobe (dropLobe s 0) 1) pwrSlot pwrStateCur 3

/-- A lobe as the LOBE field names it. -/
def lobeOfField (n : Nat) : Half := if n % 2 = 0 then 0 else 1

/-- A requested entry has switched its domains off (R382). -/
def enterRequested (s : State) : State :=
  match s.enterPower with
  | none => s
  | some q =>
    let s := { s with enterPower := none }
    match q.req with
    | 2 => switchLobeOff s (lobeOfField q.lobe)
    | 3 => standBy s
    | 4 => powerDown s
    | _ => s

/-- Entry into P2, P3 or P4 completes. -/
def execPowerStateEntered (s : State) : Host.Outcome State Fault Refusal :=
  .next (settle (enterRequested s))

/-- Is a request ignored and counted (R382)? -/
def powerRejected (s : State) (q : PowerReq) : Bool :=
  let cur := rg s pwrSlot pwrStateCur
  let l := lobeOfField q.lobe
  let o := 1 - l.val
  match q.req with
  | 0 => cur = 0
  | 1 => true
  | 2 => (activeJobs s).any (fun j => jobInLobe s j l) || lobeFenced s o || lobeOff s o ||
      (cur = 2 && lobeOff s l)
  | 3 => !(activeJobs s).isEmpty || cur = 3
  | 4 => !(activeJobs s).isEmpty || cur = 4
  | _ => false

/-- The exit to P0: from P2 a reset of the lobe that is off, from P3 a package compute reset, from P4 a
full package reset once VIN48 is there. From P1 there is none to take. -/
def leavePower (s : State) : State :=
  let begin_ (sc : Scope) : State :=
    match demandScope s sc with
    | some sc => beginReset s sc
    | none => s
  match rg s pwrSlot pwrStateCur with
  | 2 =>
    if lobeOff s 0 && lobeOff s 1 then begin_ .package
    else begin_ (.lobe (if lobeOff s 0 then 0 else 1))
  | 3 => begin_ .package
  | 4 => if s.pins.vin48On then begin_ .full else s
  | _ => s

/-- A request that is not held: counted when it is ignored, else taken; a later one replaces one that has
not taken effect. P3 and P4 are left by their exits only. -/
def takePower (s : State) (q : PowerReq) : State :=
  let cur := rg s pwrSlot pwrStateCur
  if powerRejected s q then incr s pwrSlot pwrStateRejected
  else match q.req with
  | 0 => leavePower { s with enterPower := none }
  | 2 => if cur = 3 ∨ cur = 4 then s else { s with enterPower := some q }
  | 3 => if cur = 4 then s else { s with enterPower := some q }
  | 4 => { s with enterPower := some q }
  | _ => s

/-- A request: held while a reset of level 2 or higher is in progress. -/
def requestPower (s : State) (q : PowerReq) : State :=
  if bigReset s then { s with heldPower := some q } else takePower s q

/-- A write of PWR_STATE; GO makes the request in REQ. -/
def writePwrState (s : State) (r : Requester) (val : Nat) (go : Bool) : State :=
  guardedWrite s r pwrSlot 0x80 (fun s =>
    let s := writeStored s pwrSlot 0x80 val
    if go then requestPower s ⟨rg s pwrSlot pwrStateReq, rg s pwrSlot pwrStateLobe⟩ else s)

/-- PWR_STATE with GO = 1 for a request. -/
def pwrWord (req lobe : Nat) : Nat := fput pwrStateGo 1 + fput pwrStateReq req + fput pwrStateLobe lobe

/-- A request with REQ = 0. -/
def execPowerReqP0 (r : Requester) (s : State) : Host.Outcome State Fault Refusal :=
  .next (settle (writePwrState s r (pwrWord 0 0) true))

/-- A request with REQ = 2. -/
def execPowerReqP2 (r : Requester) (l : Half) (s : State) : Host.Outcome State Fault Refusal :=
  .next (settle (writePwrState s r (pwrWord 2 l) true))

/-- A request with REQ = 3. -/
def execPowerReqP3 (r : Requester) (s : State) : Host.Outcome State Fault Refusal :=
  .next (settle (writePwrState s r (pwrWord 3 0) true))

/-- A request with REQ = 4. -/
def execPowerReqP4 (r : Requester) (s : State) : Host.Outcome State Fault Refusal :=
  .next (settle (writePwrState s r (pwrWord 4 0) true))

/-! ### Brake and limiter

The brake, the limiter and the monitors lie in the Solfatara domain: without VAUX33 nothing happens. -/

/-- Does the Solfatara domain run? -/
def whilePowered (s : State) (f : State → State) : State := if s.pins.vauxOk then f s else s

/-- Is the brake engaged? The causes are ORed into one brake. -/
def braked (s : State) : Bool :=
  rgB s pwrSlot brakeStatusPin || rgB s pwrSlot brakeStatusTherm || rgB s pwrSlot brakeStatusVin

/-- A cause engages the brake or lets it go; ENGAGED counts when the brake engages. -/
def setBrake (s : State) (cause : Fld) (on : Bool) : State :=
  let was := braked s
  let s := wg s pwrSlot cause (b2n on)
  if on && !was then incr s pwrSlot brakeStatusEngaged else s

/-- The level that the brake input counts as: low while VIO18 is lost (R430). -/
def pinBrake (s : State) : Bool := s.pins.brakeLow || !s.pins.vioOk

/-- The brake pin's level, as the package takes it. -/
def takePin (s : State) : State := setBrake s brakeStatusPin (pinBrake s)

/-- The level of PWR_BRAKE_N changes; while VAUX33 is off nothing takes it. -/
def setPin (s : State) (low : Bool) : State :=
  whilePowered { s with pins := { s.pins with brakeLow := low } } takePin

/-- PWR_BRAKE_N has been low for 1 µs. -/
def execBrakePinAssert (s : State) : Host.Outcome State Fault Refusal := .next (setPin s true)

/-- PWR_BRAKE_N is high again. -/
def execBrakePinRelease (s : State) : Host.Outcome State Fault Refusal := .next (setPin s false)

/-- A self-clearing cause of the brake has been clear for its period. -/
def execBrakeCauseClear (c : BrakeCause) (s : State) : Host.Outcome State Fault Refusal :=
  .next (whilePowered s (fun s =>
    setBrake s (match c with | .therm => brakeStatusTherm | .vin => brakeStatusVin) false))

/-- The limiter steps the tile clock by 14 MHz, of 100 such steps (R384). -/
def stepLimiter (s : State) (watts : Nat) : State :=
  let n := s.limSteps
  let n := if 5150 < watts then min (n + 1) 100 else if watts < 5000 then n - 1 else n
  wg { s with limSteps := n } pwrSlot brakeStatusLimit (b2n (n ≠ 0))

/-- A limiter step. -/
def execLimiterStep (watts : Nat) (s : State) : Host.Outcome State Fault Refusal :=
  .next (whilePowered s (fun s => stepLimiter s watts))

/-! ### Supply and thermal events -/

/-- A source of the supply or thermal monitor. -/
def monEvent (slot src : Nat) : Event := { slot := slot, src := src }

/-- The VIN48 domains are shut off until a condition holds; a held request is discarded, a reset in
progress gives way (R386). The current may fall at any rate (R379). -/
def shutOff (s : State) (x : Shutoff) : State :=
  measurePeak { powerDown s with shutoff := some x } pwrSlot wakeStatusPeakSlew 0 65535

/-- The VIN48 domains are shut off by an event, which carries the fabric time of its detection (R351). -/
def shutOffBy (s : State) (x : Shutoff) (e : Event) : State :=
  raise (shutOff s x) { e with stamp := some (s.ft.t, unsynced s) }

/-- VIN48 below 40.0 V: the brake. -/
def execSupVinLow (s : State) : Host.Outcome State Fault Refusal :=
  .next (whilePowered s (fun s => settle (raise (setBrake s brakeStatusVin true) (monEvent supSlot srcVinLow))))

/-- VIN48 above 57.0 V. -/
def execSupVinHigh (s : State) : Host.Outcome State Fault Refusal :=
  .next (whilePowered s (fun s => settle (shutOffBy s .vinHigh (monEvent supSlot srcVinHigh))))

/-- VIN48 overcurrent. -/
def execSupOvercurrent (s : State) : Host.Outcome State Fault Refusal :=
  .next (whilePowered s (fun s => settle (shutOffBy s .overcurrent (monEvent supSlot srcOvercurrent))))

/-- VAUX33 below 3.10 V. -/
def execSupVauxLow (s : State) : Host.Outcome State Fault Refusal :=
  .next (whilePowered s (fun s => settle (shutOffBy s .vauxLow (monEvent supSlot srcVauxLow))))

/-- Has a sensor thresholds: the dies, the stacks, the Caldera halves? -/
def hasThreshold (k : Nat) : Bool := k < 22

/-- A stack at 85 °C is refreshed at twice the rate (R176). -/
def noteHot (s : State) (k : Nat) : State :=
  if 4 ≤ k ∧ k < 20 then { s with hot := mset 0 s.hot (k - 4) 1 } else s

/-- A sensor is at its warning threshold. -/
def execThermWarn (sensor : Fin 32) (s : State) : Host.Outcome State Fault Refusal :=
  .next (whilePowered s (fun s =>
    if hasThreshold sensor then settle (raise (noteHot s sensor) (monEvent thermSlot srcThermWarn))
    else s))

/-- A sensor is at its hot threshold: the brake. -/
def execThermHot (sensor : Fin 32) (s : State) : Host.Outcome State Fault Refusal :=
  .next (whilePowered s (fun s =>
    if hasThreshold sensor then
      settle (raise (setBrake (noteHot s sensor) brakeStatusTherm true) (monEvent thermSlot srcThermHot))
    else s))

/-- A sensor is at its trip threshold. -/
def execThermTrip (sensor : Fin 32) (s : State) : Host.Outcome State Fault Refusal :=
  .next (whilePowered s (fun s =>
    if hasThreshold sensor then settle (shutOffBy s .thermTrip (monEvent thermSlot srcThermTrip))
    else s))

/-- VIN48 below 36.0 V: it is counted as a loss, and raised as SUP_VIN_LOW with its brake (R430, R386). -/
def collapseVin (s : State) : State :=
  setBrake (incr (shutOffBy s .vinCollapse (monEvent supSlot srcVinLow)) supSlot vinLoss) brakeStatusVin true

/-- VIN48 collapses. -/
def execVinCollapse (s : State) : Host.Outcome State Fault Refusal :=
  .next (whilePowered s (fun s => settle (collapseVin s)))

/-- The condition of a shut-off holds: the full package reset that waits takes its settings and goes on;
where none waits, one begins (R386, R430). -/
def restartSupply (s : State) : State :=
  match s.shutoff with
  | none => s
  | some .vaux => s
  | some _ =>
    let s := { s with shutoff := none }
    if s.resets.any (fun r => r.wait) then
      let s := takeSettings s
      { s with resets := s.resets.map (fun r => { r with wait := false }) }
    else
      match demandScope s .full with
      | some sc => beginReset s sc
      | none => s

/-- The restart condition of a shut-off holds. -/
def execSupplyRestart (s : State) : Host.Outcome State Fault Refusal := .next (settle (restartSupply s))

/-! ### Clocks (R377) -/

/-- HI_LINK of a port whose link is down. -/
def dropLink (s : State) (p : Nat) : State :=
  wg (wg (wg s (hiSlot p) hiLinkSpeed 0) (hiSlot p) hiLinkFlit 0) (hiSlot p) hiLinkWidth 0

/-- Setting a reference clock's presence; without VAUX33 nothing shows it. Each port's link loses its clock with its
reference, and trains when that is back. -/
def setRef (s : State) (n : Half) (on : Bool) : State :=
  let was := if n = 0 then s.pins.ref0 else s.pins.ref1
  let p := if n = 0 then { s.pins with ref0 := on } else { s.pins with ref1 := on }
  let s := { s with pins := p }
  whilePowered s (fun s =>
    let s := showClocks s
    if was = on then s else if on then trainLink s n else dropLink s n)

/-- A reference clock is lost. -/
def execRefclkLoss (n : Half) (s : State) : Host.Outcome State Fault Refusal := .next (setRef s n false)

/-- A reference clock returns. -/
def execRefclkRestore (n : Half) (s : State) : Host.Outcome State Fault Refusal := .next (setRef s n true)

/-- SLOWCLK25 is lost. -/
def execSlowclkLoss (s : State) : Host.Outcome State Fault Refusal :=
  .next (whilePowered { s with pins := { s.pins with slow := false } } showClocks)

/-- SLOWCLK25 returns. -/
def execSlowclkRestore (s : State) : Host.Outcome State Fault Refusal :=
  .next (whilePowered { s with pins := { s.pins with slow := true } } showClocks)

end Sys2Proof.Machine
end

