-- ==== Sys2Proof/Machine/Boot.lean ====
section
/-!
DEFINITION. Power-on, straps, the boot chain with its images, fuses and keys (R387 to R394, R400, R427),
losses of VAUX33 and VIO18 (R430), and the measurement registers that software extends (R401).
-/

namespace Sys2Proof.Machine

/-! ### Power-on (R389, R419, R427) -/

/-- What fuses hold of an edge's end: the lanes of its bundles that take no part (R202). -/
def fusedLanes (x : EdgeSide) : EdgeSide :=
  { bundles := x.bundles.map (fun (b, y) => (b, { fused := y.fused })) }

/-- What a loss of VAUX33 leaves: flash, fuses, and what has left the package (R430, R202). -/
def lostAll (s : State) : State :=
  let fresh := State.reset
  let fuses := s.regs.filter (fun (k, _) => k / 32768 = fuseSlot)
  let pins : Pins := { s.pins with straps := {}, sampled := false, vauxOk := false, vin48On := false }
  let s := { fresh with
    pending := s.pending, regs := fuses, flash := s.flash, pins := pins, hostOut := s.hostOut
    edges := s.edges.map (fun (k, x) => (k, fusedLanes x)), clock := s.clock
    msix := s.msix, free := s.free, shutoff := some .vaux, boot := { solOk := false } }
  wg s pwrSlot pwrStateCur 4

/-- VAUX33 below 2.70 V. -/
def execVauxLoss (s : State) : Host.Outcome State Fault Refusal := .next (lostAll s)

/-- VAUX33 and VIO18 have become valid: the Solfatara domain starts, in P4, and takes the level of the brake pin
(R383). -/
def powerUp (s : State) : State :=
  if s.pins.vauxOk then s
  else
    let s := { s with pins := { s.pins with vauxOk := true, vioOk := true }, shutoff := none }
    let s := showClocks (wg (wg s pwrSlot pwrStateCur 4) mgmtSlot mgmtStatusVioOk 1)
    bootSolfatara (takePin s)

/-- Power-on. -/
def execPowerOn (s : State) : Host.Outcome State Fault Refusal := .next (settle (powerUp s))

/-! ### Straps (R216, R218, R400, R419) -/

/-- Is the flash port plan accepted? Its key is that of slot 0 (R388). -/
def planOk (s : State) : Bool :=
  let p := flashBytes s planAt 128
  fieldOf p 0 4 = 0x504C4E37 && fieldOf p 4 2 = 1 && zeroBytes p 6 8 && zeroBytes p 0x28 0x40 &&
  ((p.drop 8).take 32).all (fun b => b.toNat ≤ 5 || b.toNat = 0xFF) &&
  (match Config.keySlot true 0 with
   | some key => Config.edVerify key (sha512 (p.take 0x40)) ((p.drop 0x40).take 64)
   | none => false)

/-- The port plan of the straps, or the flash plan. -/
def takePlan (s : State) (plan : Nat) : State :=
  let s := wg s solSlot optPlanFlashOk 0
  if plan % 8 ≠ 7 then wg { s with planOf := [] } solSlot optPlanPlan plan
  else if planOk s then
    let p := flashBytes s (planAt + 8) 32
    let ports := (List.range 32).foldl (fun m g =>
      let v := (p.getD g 0).toNat
      mset 0 m g (if v = 0xFF then 0 else v + 1)) []
    wg (wg { s with planOf := ports } solSlot optPlanPlan 7) solSlot optPlanFlashOk 1
  else
    raise (wg { s with planOf := [] } solSlot optPlanPlan 0) { slot := solSlot, src := srcOptPlanBad }

/-- The test unlock token. -/
def tokenBytes (s : State) : List Byte := flashBytes s 0xA02000 128

/-- Does the unlock token verify (R400)? -/
def tokenOk (s : State) : Bool :=
  let t := tokenBytes s
  fieldOf t 0 4 = 0x4B554E4C && fieldOf t 4 2 = 1 && bits (fieldOf t 6 1) 2 6 = 0 && fieldOf t 7 1 = 0 &&
  (t.drop 8).take 16 = serialBytes && zeroBytes t 0x18 0x40 &&
  Config.edVerify Config.unlockKey (sha512 (t.take 0x40)) ((t.drop 0x40).take 64)

/-- Factory test mode is entered, or the token is refused. -/
def takeToken (s : State) (strap : Bool) : State :=
  if !strap then s
  else if tokenOk s then
    let t := tokenBytes s
    let s := { s with boot := { s.boot with
      test := true, scope := fieldOf t 6 1, token := sha512 (t.take 0x40) } }
    wg (wg s secSlot secStatusTest 1) testSlot jtagStatusDebug (b2n (bit (fieldOf t 6 1) 1))
  else raise s { slot := secSlot, src := srcAuthFail }

/-- The straps are sampled, once after power-on. -/
def sampleStraps (s : State) (p : Straps) : State :=
  if !s.pins.vauxOk ∨ !s.pins.vioOk ∨ s.pins.sampled then s
  else
    let s := { s with pins := { s.pins with straps := p, sampled := true } }
    takeToken (takePlan s p.plan) p.test

/-- Straps sampled. -/
def execStrapSample (p : Straps) (s : State) : Host.Outcome State Fault Refusal :=
  .next (settle (sampleStraps s p))

/-- VIN48 and a reference are there after the Solfatara firmware has come up: the power-on full package
reset starts. -/
def vinReady (s : State) : State :=
  if s.pins.vauxOk && s.boot.solOk && !s.pins.vin48On && s.shutoff.isNone &&
      (s.pins.ref0 || s.pins.ref1) then
    let s := { s with pins := { s.pins with vin48On := true } }
    match demandScope s .full with
    | some sc => beginReset s sc
    | none => s
  else s

/-- VIN48 ready. -/
def execVin48Ready (s : State) : Host.Outcome State Fault Refusal := .next (settle (vinReady s))

/-! ### Keys and certificates (R392 to R394) -/

/-- The private seed of the device identity key. -/
def identitySeed : List Byte :=
  (sha512 ([0x4B, 0x56, 0x54, 0x34, 0x2D, 0x44, 0x49, 0x4B] ++ leBytes 32 Config.deviceSeed.toNat)).take 32

/-- The 32 bytes of the public key of a seed. -/
def publicKey (seed : List Byte) : List Byte := leBytes 32 (Config.edPublic seed).toNat

/-- The 64 bytes of a signature by the key of a seed. -/
def signature (seed msg : List Byte) : List Byte := leBytes 64 (Config.edSign seed msg).toNat

/-- ARITH_VER, the same on every die (R47). -/
def arithVer (s : State) : Nat := storedRead s (dcSlot 0) 0x80

/-- The attestation certificate, signed by the identity key. -/
def attCert (s : State) : List Byte :=
  let meas := sha512 (mrBytes s 0 ++ mrBytes s 1 ++ mrBytes s 2 ++ mrBytes s 3)
  let body := leBytes 4 0x4B435254 ++ leBytes 2 1 ++ leBytes 1 2 ++ leBytes 1 (b2n s.boot.test) ++
    serialBytes ++ s.bootId ++ publicKey s.akSeed ++
    (sha512 (publicKey identitySeed)).take 8 ++ leBytes 4 (arithVer s) ++ leBytes 4 0 ++ meas ++
    leBytes 48 0
  body ++ signature identitySeed (sha512 body)

/-! ### Fuses (R390) -/

/-- The copy of an image that booted last (R389, R423). -/
def bootedCopy (s : State) : Image → Bool
  | .solfatara => s.boot.solB
  | .caldera => s.boot.calB
  | .die => s.boot.dieB

/-- Has the last boot found an image valid, and run it (R390)? -/
def imageRuns (s : State) : Image → Bool
  | .solfatara => s.boot.solOk
  | .caldera => s.boot.calOk
  | .die => s.boot.dieOk

/-- The lower of the SVNs of an image's valid copies, 0 where none is valid. -/
def lowSvn (s : State) (img : Image) : Nat :=
  match copyValid s img false, copyValid s img true with
  | true, true => min (copySvn s img false) (copySvn s img true)
  | true, false => copySvn s img false
  | false, true => copySvn s img true
  | false, false => 0

/-- A booted image whose COMMIT is set has its floor raised and its slots revoked, but for the one that
signed it. -/
def commitFuses (s : State) (img : Image) : State :=
  let h := copyHeader s img (bootedCopy s img)
  if rg s secSlot secStatusStage ≠ 5 ∨ !imageRuns s img ∨ !bit (fieldOf h 7 1) 0 then s
  else
    let f := floorField img
    let key := fieldOf h 9 1
    let s := wg s fuseSlot f (max (rg s fuseSlot f) (lowSvn s img))
    let fw := fieldOf h 0x0A 1
    let fw := if bit fw key then fw - 2 ^ key else fw
    let s := wg s fuseSlot fuseStateRevFw (rg s fuseSlot fuseStateRevFw ||| fw)
    wg s fuseSlot fuseStateRevQual (rg s fuseSlot fuseStateRevQual ||| fieldOf h 0x0B 1)

/-- Fuses are programmed on the instruction of a booted image. -/
def execFuseCommit (img : Image) (s : State) : Host.Outcome State Fault Refusal :=
  .next (commitFuses s img)

/-! ### VIO18 (R430) -/

/-- VIO18 is lost: outputs go high-impedance, the endpoint leaves the bus, and the brake pin counts as
low. -/
def loseVio (s : State) : State :=
  whilePowered { s with pins := { s.pins with vioOk := false } } (fun s =>
    takePin (wg (wg s mgmtSlot mgmtStatusVioOk 0) mgmtSlot mgmtStatusAssigned 0))

/-- VIO18 below 1.60 V. -/
def execVioLoss (s : State) : Host.Outcome State Fault Refusal := .next (loseVio s)

/-- VIO18 has been valid for 10 ms. -/
def execVioRestore (s : State) : Host.Outcome State Fault Refusal :=
  .next (whilePowered { s with pins := { s.pins with vioOk := true } } (fun s =>
    takePin (wg s mgmtSlot mgmtStatusVioOk 1)))

/-! ### Extends by software (R401) -/

/-- EXT_DATA. -/
def extBytes (s : State) : List Byte := (List.range 16).flatMap (fun n => leBytes 4 (rg s attSlot (extData n)))

/-- A write of EXT_CTL; GO extends MR6 or MR7. -/
def writeExtCtl (s : State) (r : Requester) (val : Nat) (go : Bool) : State :=
  guardedWrite s r attSlot 0x104 (fun s =>
    let s := writeStored s attSlot 0x104 val
    if go then extendMr s (6 + rg s attSlot extCtlSel) (extBytes s) else s)

/-- A write of EXT_CTL with GO = 1. -/
def execMrExtend (r : Requester) (val : BitVec 32) (s : State) : Host.Outcome State Fault Refusal :=
  .next (writeExtCtl s r val.toNat true)

end Sys2Proof.Machine
end

