-- ==== Sys2Proof/Machine/Landom.lean ====
section
/-!
DEFINITION. Landom records (R395 to R398): the segment requests with their checks, and the segments that
their completion writes.
-/

namespace Sys2Proof.Machine

/-! ### Requests (R395, R396) -/

/-- SEG_STATUS codes. -/
def segOk : Nat := 1
/-- MALFORMED. -/
def segMalformed : Nat := 2
/-- WINDOW. -/
def segWindow : Nat := 3
/-- SMALL. -/
def segSmall : Nat := 4
/-- NOT_OPEN. -/
def segNotOpen : Nat := 5
/-- BUSY_SEQ. -/
def segBusySeq : Nat := 6

/-- The request block that SEG_REQ names. -/
def segBlock (s : State) : List Byte :=
  calRead s (rg s attSlot segReqHi * 2 ^ 32 + rg s attSlot segReqLo * 64) 64

/-- KIND of the request block. -/
def segKind (s : State) : Nat := fieldOf (segBlock s) 0x0C 1

/-- The Landom record of a job. -/
def recordOf (s : State) (job : Nat) : Record := mget {} s.records job

/-- Setting it. -/
def setRecord (s : State) (job : Nat) (r : Record) : State :=
  { s with records := mset {} s.records job r }

/-- Records that are open for other jobs. -/
def openOthers (s : State) (job : Nat) : Nat := s.records.countP (fun (j, r) => j ≠ job && r.isOpen)

/-- Dies of a mask. -/
def dieList (m : Nat) : List Nat := (List.range 4).filter (bit m ·)

/-- Does a parameter block keep R395 and name the job and its epoch? -/
def paramsOk (s : State) (job : Nat) (p : List Byte) : Bool :=
  fieldOf p 0 4 = 0x4A504231 && fieldOf p 4 2 = 1 && zeroBytes p 6 8 && zeroBytes p 0x14 0x18 &&
  zeroBytes p 0x20 0x40 && fieldOf p 8 2 = job && bits (fieldOf p 0x0B 1) 4 4 = 0 &&
  fieldOf p 0x0A 1 = (jobOf s job).epoch

/-- Are the fields of a request block in order? -/
def requestOk (b : List Byte) : Bool :=
  let kind := fieldOf b 0x0C 1
  let n := fieldOf b 0x18 4
  1 ≤ kind && kind ≤ 5 && fieldOf b 0x0D 1 = 0 && zeroBytes b 0x1C 0x40 && fieldOf b 0 8 % 64 = 0 &&
  fieldOf b 0x0E 2 < 4096 && (if kind = 1 then n = 128 else n ≤ 4096) &&
  (kind ≠ 5 || fieldOf b 0x0E 2 = 0)

/-- May the request use a range: in the job's windows, or for STATE any memory? -/
def segRange (s : State) (kind job a n : Nat) : Bool :=
  n = 0 || (if kind = 5 then reaches s (primaryAddr s a) n else inWindows s job a n)

/-- Is the sequencer of a die other than stopped? -/
def seqBusy (s : State) (d : Nat) : Bool := rg s (seqSlot d) seqStatusState ≠ 0

/-- The code of a request's checks, in the order of R396. -/
def segCheck (s : State) (b : List Byte) : Nat :=
  let kind := fieldOf b 0x0C 1
  let job := fieldOf b 0x0E 2
  let src := fieldOf b 0x10 8
  if !requestOk b then segMalformed
  else if !(segRange s kind job (fieldOf b 0 8) (fieldOf b 8 4) &&
      segRange s kind job src (fieldOf b 0x18 4)) then segWindow
  else if kind = 1 then
    let p := calRead s src 128
    if !paramsOk s job p ∨ 64 ≤ openOthers s job then segMalformed
    else if (dieList (fieldOf p 0x0B 1)).any (seqBusy s) then segBusySeq
    else segOk
  else if kind ≠ 5 ∧ !(recordOf s job).isOpen then segNotOpen
  else segOk

/-- Reads of a request: errors of their sectors are counted and reported (R179, R180). -/
def checkReads (s : State) (rs : List (Nat × Nat)) : State :=
  (checkErrs s [.caldera 0] (s.errs.filter (fun (k, _) => rs.any (fun r => meet k 32 r.1 r.2)))).1

/-- Has the job been aborted: at the router, or at one of its queues (R397)? -/
def jobAborted (s : State) (job : Nat) : Bool :=
  (jobOf s job).state = 2 || s.cqs.any (fun (_, c) => c.job = job && c.state = 2)

/-- A request starts: it is checked, and BUSY is set until it completes. -/
def startSegment (s : State) : State :=
  let b := segBlock s
  let kind := fieldOf b 0x0C 1
  let job := fieldOf b 0x0E 2
  let run : SegRun :=
    { code := segCheck s b, kind := kind, job := job, dest := fieldOf b 0 8
      destLen := fieldOf b 8 4, src := fieldOf b 0x10 8, srcLen := fieldOf b 0x18 4
      heads := (List.range 4).foldl (fun m d => mset 0 m d (rg s (seqSlot d) evtHead)) []
      aborted := kind ≠ 5 && jobAborted s job }
  let at_ := rg s attSlot segReqHi * 2 ^ 32 + rg s attSlot segReqLo * 64
  let s := checkReads s ((primaryAddr s at_, 64) :: (if kind = 1 then [(primaryAddr s (fieldOf b 0x10 8), 128)] else []))
  wg { s with seg := some run } attSlot segStatusBusy 1

/-- A write of SEG_CTL: GO starts the request of the block, whose KIND `mine` accepts, or is counted while
one is in progress. -/
def writeSegCtl (s : State) (r : Requester) (go : Bool) (mine : Nat → Bool) : State :=
  guardedWrite s r attSlot 0x110 (fun s =>
    if !go then s
    else if rgB s attSlot segStatusBusy then incr s attSlot segCtlRejected
    else if mine (segKind s) then startSegment s else s)

/-- A request for an OPEN segment, or one whose KIND is reserved. -/
def execSegOpen (r : Requester) (s : State) : Host.Outcome State Fault Refusal :=
  .next (writeSegCtl s r true (fun k => k = 1 || k = 0 || 5 < k))

/-- A request for a PERIODIC segment. -/
def execSegPeriodic (r : Requester) (s : State) : Host.Outcome State Fault Refusal :=
  .next (writeSegCtl s r true (fun k => k = 2))

/-- A request for a CHECKPOINT segment. -/
def execSegCheckpoint (r : Requester) (s : State) : Host.Outcome State Fault Refusal :=
  .next (writeSegCtl s r true (fun k => k = 3))

/-- A request for a CLOSE segment. -/
def execSegClose (r : Requester) (s : State) : Host.Outcome State Fault Refusal :=
  .next (writeSegCtl s r true (fun k => k = 4))

/-- A request for a STATE segment. -/
def execSegState (r : Requester) (s : State) : Host.Outcome State Fault Refusal :=
  .next (writeSegCtl s r true (fun k => k = 5))

/-! ### Items (R398) -/

/-- An item: type, length, data, padding to 8 bytes. -/
def item (type : Nat) (data : List Byte) : List Byte :=
  leBytes 2 type ++ leBytes 2 0 ++ leBytes 4 data.length ++ data ++
    List.replicate (8 * cdiv data.length 8 - data.length) 0

/-- The measurement registers. -/
def measItem (s : State) : List Byte := (List.range 8).flatMap (mrBytes s)

/-- An entry of a die's layer table, B1T and B2T zeroed. -/
def layerBare (s : State) (d base l : Nat) : List Byte :=
  leBytes 64 (setBits (loadDie s d (base + 64 * l) 64) 288 64 0)

/-- A phase descriptor of a die, STATUS zeroed. -/
def phaseBare (s : State) (d base k : Nat) : List Byte :=
  leBytes 64 (setBits (loadDie s d (base + 64 * k) 64) 448 64 0)

/-- The program of a die: its number, and the digests of its job block, layer table and phases. -/
def programItem (s : State) (d : Nat) : List Byte :=
  let w := loadDie s d (seqJobAt s d) 64
  leBytes 4 d ++ sha512 (leBytes 64 w) ++
    sha512 ((List.range 4096).flatMap (layerBare s d (jbLayerBase w))) ++
    sha512 ((List.range (jbProgCount w)).flatMap (phaseBare s d (jbProgBase w)))

/-- The enabled queues of a job. -/
def jobQueues (s : State) (job : Nat) : List (Nat × Cq) :=
  s.cqs.filter (fun (_, c) => c.en && c.state ≠ 3 && c.job = job)

/-- The tree set of a queue: Q_CFG, Q_MEMBERS and the digest of its tables, entry by entry. -/
def treeItem (s : State) (c : Cq) : List Byte :=
  let cfg := b2n c.en * 2 ^ 31 + c.order * 2 ^ 30 + c.fan * 2 ^ 27 + c.trees * 2 ^ 23 +
    c.group * 2 ^ 13 + c.job
  leBytes 4 cfg ++ leBytes 4 c.members ++
    sha512 ((List.range c.trees).flatMap (fun t =>
      (List.range c.members).flatMap (fun r => leBytes 2 (posAt s c t r))))

/-- Addresses of the events of a die from the last copied one up to `head`, as far as the ring still holds them
(assumption 129). -/
def eventAddrs (s : State) (d head : Nat) : List Nat :=
  let q := seqOf s d
  let first := max q.copied (head - q.evtCount)
  (List.range (head - first)).map (fun k => q.evtBase + 16 * ((first + k) % q.evtCount))

/-- The events themselves. -/
def eventItem (s : State) (d head : Nat) : List Byte :=
  (eventAddrs s d head).flatMap (fun a => leBytes 16 (loadDie s d a 16))

/-- Dies with a snapshot since the previous segment. -/
def freshSnaps (r : Record) : List Nat := (dieList r.dies).filter r.snapped.contains

/-- Two census entries summed, field by field. -/
def censusSum (a b : Nat) : Nat :=
  let f (lo w : Nat) : Nat := satAdd w (bits a lo w) (bits b lo w) * 2 ^ lo
  f 0 64 + f 64 48 + f 112 48 + f 160 48 + f 208 48

/-- Entries of the snapshot areas of some dies that memory holds something of, ascending. -/
def censusKeys (s : State) (ds : List Nat) : List Nat :=
  let touched := ds.flatMap (fun d =>
    let base := censusBase s d
    s.mem.filterMap (fun (a, _) =>
      if base ≤ a && a < base + censusBytes then some ((a - base) / 32) else none))
  touched.foldl insertCh []

/-- The census records: layer, format and the summed entry. -/
def censusItem (s : State) (ds : List Nat) : List Byte :=
  (censusKeys s ds).flatMap (fun k =>
    let v := ds.foldl (fun v d => censusSum v (rdLe s (censusBase s d + 32 * k) 32)) 0
    if v = 0 then []
    else leBytes 2 (k / 16) ++ leBytes 1 (k % 16) ++ leBytes 5 0 ++ leBytes 32 v)

/-- RUN_DIG and SEQ_STEP of the dies, then LOBE_MODE and PAIR_KEY. -/
def digestItem (s : State) (r : Record) : List Byte :=
  (dieList r.dies).flatMap (fun d => leBytes 16 (runDigest s d) ++ leBytes 4 (rg s (seqSlot d) seqStep)) ++
    leBytes 4 (storedRead s solSlot 0xA0) ++
    (List.range 4).flatMap (fun n => leBytes 4 (rg s solSlot (pairKey n)))

/-- Does a log entry belong in a job's record? -/
def recordsFault (job : Nat) (e : LogEntry) : Bool :=
  e.job = job || isPairEvent e.slot e.source

/-- The fault log entries since the previous segment that belong in the record, and among them, in order of
arrival, the events of Paired mode that were not logged (R315, assumption 120). -/
def faultItem (s : State) (job : Nat) (r : Record) : List Byte :=
  let next := rg s logSlot logStatus
  let first := max r.logAt (next - 4096)
  let pairs (ok : Nat → Bool) : List Byte := (r.pairs.filter (fun e => ok e.index)).flatMap logBytes
  pairs (fun i => i < first) ++
  (List.range (next - first)).flatMap (fun k =>
    let e := mget {} s.log ((first + k) % 4096)
    pairs (fun i => i = first + k) ++
    if e.index = first + k && recordsFault job e then logBytes e else []) ++
  pairs (fun i => next ≤ i)

/-! ### Segments (R397) -/

/-- Does a kind of segment carry an item? Kinds 1 OPEN, 2 PERIODIC, 3 CHECKPOINT, 4 CLOSE, 5 STATE. -/
def carries (kind type : Nat) : Bool :=
  match type with
  | 1 => true
  | 2 => kind = 1 || kind = 5
  | 3 => kind = 1 || kind = 3 || kind = 5
  | 4 => kind = 1
  | 5 => kind = 1 || kind = 3
  | 6 => kind = 1 || kind = 3
  | 7 => 2 ≤ kind && kind ≤ 4
  | 8 => 2 ≤ kind && kind ≤ 4
  | 9 => kind ≠ 5
  | 10 => kind ≠ 5
  | _ => 3 ≤ kind

/-- The record that a request goes on with: an OPEN begins one with its parameter block. -/
def segRecord (s : State) (q : SegRun) : Record :=
  if q.kind = 1 then
    let p := calRead s q.src 128
    { isOpen := true, epoch := fieldOf p 0x0A 1, dies := fieldOf p 0x0B 1, logAt := rg s logSlot logStatus }
  else if q.kind = 5 then {} else recordOf s q.job

/-- The items of a segment. -/
def segItems (s : State) (q : SegRun) (r : Record) : List Byte :=
  let on (type : Nat) (data : List Byte) : List Byte := if carries q.kind type then item type data else []
  on 1 (measItem s) ++ on 2 (attCert s) ++ on 3 (leBytes 4 (arithVer s)) ++ on 4 (calRead s q.src 128) ++
    on 5 ((dieList r.dies).flatMap (programItem s)) ++
    on 6 ((jobQueues s q.job).flatMap (fun (_, c) => treeItem s c)) ++
    on 7 ((dieList r.dies).flatMap (fun d => eventItem s d (mget 0 q.heads d))) ++
    on 8 (censusItem s (freshSnaps r)) ++ on 9 (digestItem s r) ++ on 10 (faultItem s q.job r) ++
    (if q.srcLen = 0 then [] else on 11 (calRead s q.src q.srcLen))

/-- FLAGS of a segment. -/
def segFlags (s : State) (q : SegRun) (r : Record) : Nat :=
  let lost := carries q.kind 7 && !r.lost.isEmpty
  let noncanon := carries q.kind 6 && (jobQueues s q.job).any (fun (_, c) => c.order = 1)
  let missing := carries q.kind 8 && (freshSnaps r).length ≠ (dieList r.dies).length
  b2n lost + 2 * b2n noncanon + 4 * b2n q.aborted + 8 * b2n missing + 16 * b2n s.boot.test

/-- A whole segment: header, items and the signature of the attestation key. -/
def segment (s : State) (q : SegRun) (r : Record) : List Byte :=
  let items := segItems s q r
  let index := if q.kind = 1 ∨ q.kind = 5 then 0 else r.index + 1
  let prev := if q.kind = 1 ∨ q.kind = 5 then List.replicate 64 0 else r.prev
  let head := leBytes 4 0x4C444D31 ++ leBytes 2 1 ++ leBytes 1 q.kind ++ leBytes 1 (segFlags s q r) ++
    leBytes 2 q.job ++ leBytes 1 r.epoch ++ leBytes 1 0 ++ leBytes 4 index ++ serialBytes ++ s.bootId ++
    leBytes 8 s.ft.t ++ leBytes 4 items.length ++ leBytes 12 0 ++ prev
  head ++ items ++ signature s.akSeed (sha512 (head ++ items))

/-- The record after a segment of it. -/
def advance (s : State) (q : SegRun) (r : Record) (seg : List Byte) : Record :=
  { r with
    isOpen := q.kind ≠ 4, index := if q.kind = 1 then 0 else r.index + 1, prev := sha512 seg
    lost := if carries q.kind 7 then [] else r.lost, snapped := if carries q.kind 8 then [] else r.snapped
    logAt := rg s logSlot logStatus, pairs := [] }

/-- The events of a segment count as copied, and EVT_LOST is cleared. -/
def copyEvents (s : State) (q : SegRun) (r : Record) : State :=
  if !carries q.kind 7 then s
  else forEach (dieList r.dies) s (fun s d =>
    wg (updSeq s d (fun x => { x with copied := max x.copied (mget 0 q.heads d) })) (seqSlot d)
      seqStatusEvtLost 0)

/-- An OPEN writes its SEED into SEQ_SEED of its dies (R395). -/
def seedDies (s : State) (q : SegRun) (r : Record) : State :=
  if q.kind ≠ 1 then s
  else
    let p := calRead s q.src 128
    forEach (dieList r.dies) s (fun s d =>
      wg (wg s (seqSlot d) seqSeedLo (fieldOf p 0x18 4)) (seqSlot d) seqSeedHi (fieldOf p 0x1C 4))

/-- SEG_STATUS at a request's completion. -/
def endSegment (s : State) (code len : Nat) : State :=
  let s := wg (wg { s with seg := none } attSlot segStatusBusy 0) attSlot segStatusCode code
  wg s attSlot segStatusLen len

/-- The ranges that a segment reads, at the addresses that memory has (R179): the programs, the events, the snapshots,
and the block or item at SRC. -/
def segReads (s : State) (q : SegRun) (r : Record) : List (Nat × Nat) :=
  let on (type : Nat) (rs : List (Nat × Nat)) : List (Nat × Nat) := if carries q.kind type then rs else []
  on 5 ((dieList r.dies).flatMap (fun d =>
    let w := loadDie s d (seqJobAt s d) 64
    dieRanges s d [(seqJobAt s d, 64), (jbLayerBase w, 262144), (jbProgBase w, 64 * jbProgCount w)])) ++
  on 7 ((dieList r.dies).flatMap (fun d => dieRanges s d ((eventAddrs s d (mget 0 q.heads d)).map (·, 16)))) ++
  on 8 ((freshSnaps r).map (fun d => (censusBase s d, censusBytes))) ++
  (if q.srcLen = 0 then [] else [(primaryAddr s q.src, q.srcLen)])

/-- Is a snapshot that the segment awaits in progress? -/
def awaitsSnap (s : State) (q : SegRun) : Bool :=
  carries q.kind 8 && (dieList (recordOf s q.job).dies).any (fun d => (die s d).censusOp = some true)

/-- A segment is written, or would not fit (R396). -/
def writeSegment (s : State) (q : SegRun) (r : Record) : State :=
  let s := checkReads s (segReads s q r)
  let seg := segment s q r
  if q.destLen < seg.length then endSegment s segSmall seg.length
  else
    let s' := copyEvents (seedDies s q r) q r
    let s' := if q.kind = 5 then s' else setRecord s' q.job (advance s q r seg)
    endSegment (storeBoth s' (.half 0) q.dest seg) segOk seg.length

/-- A request completes: its segment is written, or nothing is (R396). It waits for a snapshot in progress, for
held channels and shut edges, and for room for what it stores (R191, R207, R407). -/
def completeSegment (s : State) : State :=
  match s.seg with
  | none => s
  | some q =>
    let r := segRecord s q
    if q.code ≠ segOk then endSegment s q.code 0
    else if awaitsSnap s q || (segReads s q r).any (fun x => isHeld s (.half 0) x.1 x.2) ||
        bothWait s (.half 0) q.dest q.destLen then s
    else writeSegment s q r

/-- A segment request completes. -/
def execSegmentComplete (s : State) : Host.Outcome State Fault Refusal :=
  if performs s attSlot then .next (settle (completeSegment s)) else .next s

end Sys2Proof.Machine
end

