-- ==== Sys2Proof/Machine/ResetCmds.lean ====
section
/-!
DEFINITION. Hangs and their recovery (R353, R354), the end and the escalation of the reset levels (R355 to
R358), software's resets (R364), the quiet period (R350), fault injection (R352), captures of the fault
log (R351) and writes of LOBE_MODE (R22).
-/

namespace Sys2Proof.Machine

/-! ### The quiet period (R350) -/

/-- Pages with bits that the quiet period clears, and those bits. -/
def quietBits (s : State) : List (Nat × Nat) :=
  ((stickyPages s).map (fun (slot, v) => (slot, clearable s slot v))).filter (fun x => x.2 ≠ 0)

/-- Every clearable sticky bit clears, and RECOVERY_COUNT rises by one where there is any. -/
def quietClear (s : State) : State :=
  let bs := quietBits s
  if !rgB s faSlot faCtlQuietEn ∨ bs.isEmpty then s
  else
    let s := forEach bs s (fun s (slot, m) =>
      let v := rg s slot hdrSticky
      wg s slot hdrSticky (v - (v &&& m)))
    incr s faSlot recoveryCount

/-- The quiet timer reaches FAULT_QUIET. -/
def execQuietPeriodExpiry (s : State) : Host.Outcome State Fault Refusal := .next (quietClear s)

/-! ### Engine restarts (R357) -/

/-- The page of an engine. -/
def engineEPage : Engine → Nat
  | .geyser h => geySlot h
  | .collective h => collSlot h
  | .hostDma n => dmaSlot n

/-- A started reduction of a queue that the Geyser serves. -/
def servedBy (s : State) (h : Nat) (q : Nat) (o : Op) : Bool :=
  o.started && isReduction (qdOp o.desc) &&
  ((geyser s h).resv.any (fun r => r.q = q && r.op = o.id) ||
   (geyser s h).waiting.any (fun (x, y) => x = q && y.id = o.id))

/-- The operation ends ABORTED. -/
def endAborted (s : State) (q : Nat) (o : Op) : State := completeOp s q { o with code := stAborted }

/-- A Geyser loses its slots and reservations; the reductions it serves end. -/
def clearGeyser (s : State) (h : Nat) : State :=
  let mine := s.cqs.flatMap (fun (q, c) => (c.ops.filter (servedBy s h q)).map (fun o => (q, o)))
  let s := forEach mine s (fun s (q, o) => endAborted s q o)
  updGeyser s h (fun g => { g with slots := [], resv := [], past := [], waiting := [] })

/-- A collective engine loses its operations, grants and fumarole slots. -/
def clearCollective (s : State) (h : Nat) : State :=
  let mine := s.cqs.flatMap (fun (q, c) => if q / 32 = h then c.ops.map (fun o => (q, o)) else [])
  let s := forEach mine s (fun s (q, o) => endAborted s q o)
  let s := { s with grants := s.grants.filter (fun g => g.half ≠ h) }
  let s := forEach [0, 1] s (fun s k => updGeyser s k (fun g => { g with
    waiting := g.waiting.filter (fun (q, _) => q / 32 ≠ h) }))
  forEach s.cqs s (fun s (q, _) => if q / 32 = h then updCq s q (fun c => { c with fum := [] }) else s)

/-- A host DMA engine loses its command. -/
def clearDma (s : State) (e : Nat) : State :=
  forEach (enginePorts e) s (fun s n =>
    match dmaOf s (e / 16) n with
    | some c => cutDma s c stAborted
    | none => s)

/-- An engine restarts: its state is cleared and every operation it holds ends ABORTED. -/
def restartEngine (s : State) (e : Engine) : State :=
  let s := if s.restarts.contains e then s else { s with restarts := s.restarts ++ [e] }
  match e with
  | .geyser h => clearGeyser s h
  | .collective h => clearCollective s h
  | .hostDma n => clearDma s n

/-! ### Hangs (R353, R354) -/

/-- Does a recovery of the page's engine run already? -/
def recovers (s : State) (slot : Nat) : Bool :=
  s.restarts.any (fun e => engineEPage e = slot) ||
  s.aborts.any (fun a => match a with
    | .queueJob h _ => collSlot h = slot
    | .dma n => dmaSlot n = slot)

/-- Is a hang declared on the page, its window having passed (R354)? -/
def hangs (s : State) (slot : Nat) : Bool :=
  pgTremor (pgType slot) && rg s slot hdrTremorEn = 1 && mayPend s slot && !recovers s slot

/-- A die, by number. -/
def dieN (d : Nat) : Die := ⟨d % 4, Nat.mod_lt _ (by decide)⟩

/-- A cluster, by number. -/
def clusterN (c : Nat) : Cluster := ⟨c % 33, Nat.mod_lt _ (by decide)⟩

/-- A tile, by number. -/
def tileN (t : Nat) : TileIx := ⟨t % 16, Nat.mod_lt _ (by decide)⟩

/-- A half, by number. -/
def halfN (h : Nat) : Half := ⟨h % 2, Nat.mod_lt _ (by decide)⟩

/-- The reset that a hang of the page starts; none where an engine restarts or a job or command aborts. -/
def hangScope (slot : Nat) : Option Scope :=
  let d := dieN (pgDie slot)
  match pgType slot with
  | 0x28 => some (.tile d (clusterN (pgCluster slot)) (tileN (pgTile slot)))
  | 0x27 => some (.cluster d (clusterN (pgCluster slot)))
  | 0x1D => some (.die d)
  | 0x1F => some (.die d)
  | 0x1E => some (.lobe (lobeHalf (pgDie slot)))
  | 0x20 => some (.lobe (lobeHalf (pgDie slot)))
  | _ => none

/-- The job that a hang names: that of the task, of the sequencer, of the oldest started operation or of the
command. -/
def hangJob (s : State) (slot : Nat) : Nat :=
  let d := pgDie slot
  match pgType slot with
  | 0x28 => seqJob s d
  | 0x27 => seqJob s d
  | 0x1D => seqJob s d
  | 0x13 => match startedOps s (pgHalf slot) with
    | (q, _) :: _ => (cqOf s q).job
    | [] => 0
  | 0x1B => match runningDma s (pgInstance slot) with
    | some (_, c) => cmdJob c
    | none => 0
  | _ => 0

/-- A lobe is fenced before its reset starts; the other levels fence none. -/
def fenceFirst (s : State) : Scope → State
  | .lobe l => fenceOnly s l
  | _ => s

/-- A reset that is raised as an event: its tiles are sampled before the event can end a task (R360), and the
level starts unless the event's own actions have started one around it. `e` is the event for the level
taken, `before` the scope that escalates, `hung` the tile whose own window fired. -/
def demandWith (s : State) (sc : Scope) (before : Option Scope) (hung : Option (Nat × Nat × Nat))
    (e : Nat → Event) : State :=
  match demandScope s sc with
  | none => takeEvents (raise s (e (scopeLevel sc)))
  | some x =>
    let s := sampleScope s x before hung
    let s := takeEvents (raise s (e (scopeLevel x)))
    match demandScope s x with
    | none => s
    | some y => startLevel (fenceFirst (sampleScope s y (some x) hung) y) y before

/-- The tile whose own window asks for the reset (R360). -/
def hungTile : Scope → Option (Nat × Nat × Nat)
  | .tile d c t => some (d.val, c.val, t.val)
  | _ => none

/-- Does an event's class abort its job? -/
def eventAborts (s : State) (e : Event) : Bool := rgB s faSlot (classActAbort (actingClass s e))

/-- The job of an event is aborted, once: by its class, or else as the recovery that the event starts. -/
def raiseAbort (s : State) (e : Event) : State :=
  let own := !eventAborts s e
  let s := takeEvents (raise s e)
  if own then abortJob s e.job none else s

/-- The recovery of an engine that no reset level recovers: a Geyser restarts; the job of the collective
engine's oldest started operation aborts, or the DMA's command with its job (R353). -/
def recoverEngine (s : State) (slot : Nat) : State :=
  let e := hangEvent slot 0 (hangJob s slot) false
  let h := halfN (pgHalf slot)
  match pgType slot with
  | 0x12 => restartEngine (takeEvents (raise s e)) (.geyser h)
  | 0x13 => raiseAbort { s with aborts := s.aborts ++ [.queueJob h e.job] } e
  | 0x1B => match runningDma s (pgInstance slot) with
    | some (n, c) =>
      let k : Fin 32 := ⟨pgInstance slot % 32, Nat.mod_lt _ (by decide)⟩
      let s := updCmd s (k.val / 16) n c.handle (fun c => { c with err := stAborted })
      raiseAbort { s with aborts := s.aborts ++ [.dma k] } e
    | none => s
  | _ => s

/-- An engine is declared hung, its age having reached its window: HANG is raised, and its recovery starts
whatever HANG's class (R344, R354). -/
def declareHang (s : State) (slot : Nat) : State :=
  if hangs s slot then
    let s := ageWindow s slot
    match hangScope slot with
    | some sc => demandWith s sc none (hungTile sc) (fun n => hangEvent slot n (hangJob s slot) false)
    | none => recoverEngine s slot
  else s

/-- A tremor window expires. -/
def execTremorWindowExpiry (slot : Nat) (s : State) : Host.Outcome State Fault Refusal :=
  .next (settle (declareHang s slot))

/-- The engine of an abort. -/
def abortEngine : Abort → Engine
  | .queueJob h _ => .collective h
  | .dma n => .hostDma n

/-- An abort of the hang engine that has not completed restarts its engine. The escalation is logged on the engine's
page; an engine restart has no level code, so DETAIL is 0 as in the engine's own hang (R351, R357, assumption 19). -/
def timeoutAbort (s : State) (a : Abort) : State :=
  if s.aborts.contains a then
    let s := { s with aborts := s.aborts.filter (fun x => x ≠ a) }
    let e := abortEngine a
    restartEngine (takeEvents (raise s (hangEvent (engineEPage e) 0))) e
  else s

/-- An abort overruns its 2 ms. -/
def execAbortTimeout (a : Abort) (s : State) : Host.Outcome State Fault Refusal :=
  .next (settle (timeoutAbort s a))

/-! ### Escalation (R357) -/

/-- The package is held: only the Solfatara domain runs. -/
def holdPackage (s : State) : State :=
  let s := wg { s with resets := [] } solSlot resetStatusHeld 1
  showResets (raise s (hangEvent hangSlot 7))

/-- A level that overran widens into the next one, logged with the new level. -/
def widen (s : State) (sc : Scope) : State :=
  match nextScope sc with
  | none => holdPackage s
  | some up => demandWith s up (some sc) none (fun n => hangEvent (scopePage sc) n)

/-- An engine restart that overran becomes a package compute reset. -/
def widenEngine (s : State) (e : Engine) : State :=
  let s := { s with restarts := s.restarts.filter (fun x => x ≠ e) }
  let s := demandWith s .package none none (fun _ => hangEvent (engineEPage e) 4)
  if s.resets.any (fun r => r.scope = .package) then wg s solSlot resetStatusEscalated 1 else s

/-- What runs of the ladder overruns its bound. -/
def escalate (s : State) (x : Recovery) : State :=
  match x with
  | .level sc => if s.resets.any (fun r => r.scope = sc && !r.wait) then widen s sc else s
  | .engine e => if s.restarts.contains e then widenEngine s e else s

/-- A reset overruns its bound. -/
def execResetEscalation (x : Recovery) (s : State) : Host.Outcome State Fault Refusal :=
  .next (settle (escalate s x))

/-! ### The end of a level (R355) -/

/-- The cluster map over the healthy clusters: the highest-numbered one is the spare, the others serve the
logical indices in ascending order, and indices without a cluster are orphaned (R129, R131). -/
def rebuildMap (s : State) (d : Nat) (failed : List Nat) : State :=
  let bad := (List.range 33).filter (fun c => failed.contains (33 * d + c))
  if bad.isEmpty then s
  else
    let good := (List.range 33).filter (fun c => !bad.contains c)
    let s := forEach bad s (fun s c => markCluster s d c)
    match good.getLast? with
    | none => noSpare s d
    | some spare =>
      let s := wg s (dcSlot d) spareStatusSpare spare
      let on := good.dropLast
      let s := forEach (List.range 32) s (fun s l =>
        match on[l]? with
        | some c => wg s (dcSlot d) (mapField l) c
        | none => updDie s d (fun x => { x with orphans := x.orphans ++ [l] }))
      mapOrphans s d

/-- Channels of a die that fail training leave its domains, and MEM_MAPOUT is raised (R188, R192). -/
def trainStacks (s : State) (d : Nat) (failed : List Nat) : State :=
  let bad := ((failed ++ (memCtl s d).failing).filter (fun ch => chanDie ch = d)).foldl insertCh []
  let bad := bad.filter (fun ch => !s.outDie.contains ch)
  let s := updMem s d (fun m => { m with failing := [] })
  forEach bad s (fun s ch => raise (mapOutDie s ch) (chanEvent d srcMemMapout ch))

/-- A package-wide window stays closed while a channel is mapped out of its die and not there (R190). -/
def closePkg (s : State) : State :=
  if s.outDie.all (fun c => s.outPkg.contains c) then s else { s with pkgShut := true }

/-- Has the training of an edge found no control bundle (R201)? -/
def noControl (s : State) (k : Fin 6) : Bool :=
  erg s ⟨k, false⟩ edgeStatusState = 0 && erg s ⟨k, false⟩ edgeStatusCtrlUp = 0

/-- Does a lobe pass its bring-up: self-test, die firmware, and on each die a cluster and edges with a control
bundle (R201)? -/
def lobePasses (s : State) (l : Half) (b : BringUp) : Bool :=
  (if l = 0 then b.west else b.east) && s.boot.dieOk &&
  [2 * l.val, 2 * l.val + 1].all (fun d => !allClustersFailed s d && !(edgesOfDie d).any (noControl s))

/-- OFF_W or OFF_E. -/
def offField (l : Half) : Fld := if l = 0 then pwrStateOffW else pwrStateOffE

/-- FENCED_W or FENCED_E. -/
def fencedField (l : Half) : Fld := if l = 0 then lobeModeFencedW else lobeModeFencedE

/-- A lobe that fails its reset stays fenced with its edges, and is off (R23, R201, R381). -/
def leaveOff (s : State) (l : Half) : State :=
  wg (wg (fenceEdges (setFence s l) l) pwrSlot (offField l) 1) pwrSlot pwrStateCur 2

/-- A lobe comes back from its own reset: idle while a job is active, else in the mode of LOBE_MODE.MODE
(R23). Its fence bit clears at once, also while it stays idle (assumption 105). -/
def lobeReturns (s : State) (l : Half) : State :=
  let s := wg (wg s solSlot (fencedField l) 0) pwrSlot (offField l) 0
  let s := if lobeOff s 0 ∨ lobeOff s 1 then s else wg s pwrSlot pwrStateCur 0
  restoreLobes { s with lobeIdle := mset 0 s.lobeIdle l 1 }

/-- The end of a lobe reset. -/
def endLobe (s : State) (l : Half) (b : BringUp) : State :=
  let ds := [2 * l.val, 2 * l.val + 1]
  let s := forEach ds s (fun s d => trainStacks (rebuildMap s d b.clusters) d b.channels)
  let s := closePkg s
  if lobePasses s l b then lobeReturns s l else leaveOff s l

/-- Both lobes after a reset of the package: the mode in LOBE_MODE, or Degraded where a lobe fails (R23). -/
def endCompute (s : State) (b : BringUp) : State :=
  let s := forEach (List.range 4) s (fun s d =>
    trainStacks (rebuildMap s d b.clusters) d b.channels)
  let s := { mapOutPkg s with lobeIdle := [] }
  let s := wg (wg s solSlot lobeModePrimary 0) solSlot lobeModeCur (rg s solSlot lobeModeMode)
  let s := wg s pwrSlot pwrStateCur 0
  forEach [(0 : Half), 1] s (fun s l =>
    if lobePasses s l b then wg (wg s solSlot (fencedField l) 0) pwrSlot (offField l) 0 else leaveOff s l)

/-- With both lobes fenced the Solfatara controller takes a package compute reset (R24). -/
def retakeBoth (s : State) : State :=
  if lobeFenced s 0 ∧ lobeFenced s 1 then
    match demandScope s .package with
    | some sc => beginReset s sc
    | none => s
  else s

/-- The end of a package compute reset. -/
def endPackage (s : State) (b : BringUp) : State :=
  retakeBoth (measureSettings (endCompute s b))

/-- The end of a full package reset that has booted: the host links train, and boot completes (R389, R428). -/
def endFull (s : State) (b : BringUp) : State :=
  let s := trainLink (trainLink (endCompute s b) 0) 1
  retakeBoth (measureSettings (wg s secSlot secStatusStage 5))

/-- A held power request is checked once no reset of level 2 or higher is in progress (R382). -/
def releasePower (s : State) : State :=
  match s.heldPower with
  | none => s
  | some q => if bigReset s then s else takePower { s with heldPower := none } q

/-- What the end of a level leaves. -/
def endLevel (s : State) (sc : Scope) (b : BringUp) : State :=
  match sc with
  | .tile .. => resetTiles s sc
  | .cluster .. => resetTiles s sc
  | .die d =>
    let s := rebuildMap s d b.clusters
    if allClustersFailed s d then fenceLobe s (lobeHalf d) else s
  | .lobe l => endLobe s l b
  | .package => endPackage s b
  | .full => endFull s b

/-- Can a level end: a full package reset boots first, once the package's own ERUPT packets have left (R361). -/
def mayEnd (s : State) (sc : Scope) : Bool :=
  s.resets.any (fun r => r.scope = sc && !r.wait && (sc != .full || r.booted))

/-- A level in progress ends. -/
def endReset (s : State) (x : Recovery) (b : BringUp) : State :=
  match x with
  | .engine e => { s with restarts := s.restarts.filter (fun y => y ≠ e) }
  | .level sc =>
    if mayEnd s sc then
      let s := showHolds (resetPages s sc (wasTrained sc))
      let s := showResets { s with resets := s.resets.filter (fun r => r.scope ≠ sc) }
      releasePower (takeEvents (endLevel s sc b))
    else s

/-- A reset level ends. -/
def execResetEnd (x : Recovery) (b : BringUp) (s : State) : Host.Outcome State Fault Refusal :=
  .next (settle (endReset s x b))

/-! ### Software's resets (R364) -/

/-- The scope that a request names; none where its LEVEL or TARGET names none. -/
def requestScope (level target : Nat) : Option Scope :=
  match level with
  | 2 => some (.die (dieN target))
  | 3 => if target < 2 then some (.lobe (halfN target)) else none
  | 4 => some .package
  | 5 => some .full
  | _ => none

/-- A request for a reset, logged with its level; it ends a hold. -/
def requestReset (s : State) (sc : Scope) : State :=
  demandWith (wg s solSlot resetStatusHeld 0) sc none none (fun _ => hangEvent hangSlot (scopeLevel sc))

/-- A write of RESET_REQ; one whose LEVEL lies outside 2–5 is ignored, and while the package is held any other with
GO starts a full package reset, whatever its TARGET. -/
def writeResetReq (s : State) (r : Requester) (val : Nat) (go : Bool) : State :=
  guardedWrite s r solSlot 0x110 (fun s =>
    let level := fget resetReqLevel val
    if level < 2 ∨ 5 < level then s
    else
      let s := writeStored s solSlot 0x110 val
      if !go then s
      else if rgB s solSlot resetStatusHeld then requestReset s .full
      else match requestScope level (fget resetReqTarget val) with
        | some sc => requestReset s sc
        | none => s)

/-- A write of RESET_REQ with GO = 1. -/
def execResetReq (r : Requester) (val : BitVec 32) (s : State) : Host.Outcome State Fault Refusal :=
  .next (settle (writeResetReq s r val.toNat true))

/-! ### Injection and captures -/

/-- An injected event (R352). -/
def injectEvent (s : State) : Event :=
  { slot := rg s faSlot injectSlot, src := rg s faSlot injectSource, job := rg s faSlot injectJob
    injected := true }

/-- A write of INJECT, where factory test mode enables it: GO raises the event of a source that its page has. -/
def writeInject (s : State) (r : Requester) (val : Nat) (go : Bool) : State :=
  guardedWrite s r faSlot 0xBC (fun s =>
    if !mayInject s then s
    else
      let s := writeStored s faSlot 0xBC val
      let e := injectEvent s
      if go && pgType e.slot ≠ 0 && hasSource (pgType e.slot) e.src then raise s e else s)

/-- A write of INJECT with GO = 1. -/
def execFaultInject (r : Requester) (val : BitVec 32) (s : State) : Host.Outcome State Fault Refusal :=
  .next (settle (writeInject s r val.toNat true))

/-- A write of LOG_SEL captures the entry in its slot of the log (R351). -/
def writeLogSel (s : State) (r : Requester) (val : Nat) : State :=
  guardedWrite s r logSlot 0x84 (fun s =>
    let s := writeStored s logSlot 0x84 val
    { s with logCap := mget {} s.log (val % 4096) })

/-- A write of LOG_SEL. -/
def execLogCapture (r : Requester) (val : BitVec 32) (s : State) : Host.Outcome State Fault Refusal :=
  .next (writeLogSel s r val.toNat)

/-! ### LOBE_MODE (R22) -/

/-- MODE is taken: it is in force at once unless the package is Degraded, and measured where it changes
(R23, R391). -/
def setLobeMode (s : State) (m : Nat) : State :=
  let old := rg s solSlot lobeModeMode
  let s := wg s solSlot lobeModeMode m
  let s := if rg s solSlot lobeModeCur = 2 then s else wg s solSlot lobeModeCur m
  if m = old then s else measureSettings s

/-- A write of LOBE_MODE: ignored and counted while a job is active. -/
def writeLobeMode (s : State) (r : Requester) (val : Nat) : State :=
  guardedWrite s r solSlot 0xA0 (fun s =>
    if (activeJobs s).isEmpty then setLobeMode s (fget lobeModeMode val)
    else incr s solSlot lobeModeRejected)

/-- A write of LOBE_MODE. -/
def execLobeModeWrite (r : Requester) (val : BitVec 32) (s : State) :
    Host.Outcome State Fault Refusal :=
  .next (writeLobeMode s r val.toNat)

end Sys2Proof.Machine
end

