-- ==== Sys2Proof/Machine/SelfTest.lean ====
section
/-!
DEFINITION. Tests of the self-test controller (R366 to R370) and the recalibration of links (R373).
-/

namespace Sys2Proof.Machine

/-! ### Targets (R367, R368) -/

/-- Do two tests name one target? -/
def sameTarget (t u : Test) : Bool := t.kind = u.kind && t.die = u.die && t.unit = u.unit

/-- The lobe of a test's target, where it lies in one. -/
def testLobe (t : Test) : Option Nat :=
  match t.kind with
  | 3 => some t.die
  | 4 => some (lobeOf (chanDie t.unit))
  | 6 => none
  | _ => some (lobeOf t.die)

/-- The page that shows whether a test's target is in reset. -/
def testPage (t : Test) : Nat :=
  match t.kind with
  | 1 => clusterSlot t.die t.unit
  | 3 => mgSlot (2 * t.die)
  | 4 => mgSlot (chanDie t.unit)
  | 5 => rilSlot t.die
  | 6 => oeSlot (t.unit / 4)
  | _ => dcSlot t.die

/-- The edge end of a BUNDLE test at its die. -/
def testEnd0 (t : Test) : EdgeEnd :=
  let k := testEdge t.die t.unit
  ⟨k, if k.val < 2 then decide (t.die % 2 = 1) else false⟩

/-- Is there nothing to test: a fenced, mapped-out, dark or absent target (R369)? A bundle or a group that is down, and
a group that trains, is there. -/
def testAbsent (s : State) (t : Test) : Bool :=
  (match testLobe t with
   | some l => lobeFenced s l || lobeOff s l
   | none => false) ||
  (match t.kind with
   | 1 => clusterFailed s t.die t.unit
   | 4 => s.outDie.contains t.unit
   | 6 => (match groupPort s t.unit with
      | some p => portDark s p || ggt s t.unit groupStatusState ≤ 1
      | none => true)
   | _ => false)

/-- Is a bundle busy: the last of its edge in service, taken aside already, or a sparing on its edge? -/
def bundleBusy (s : State) (e : EdgeEnd) (b : Nat) : Bool :=
  let x := bundleOf s e b
  (edgeSide s e).bundles.any (fun (_, x) => x.sparing.isSome) || x.aside || (x.up && (serving s e).length ≤ 1)

/-- Is a group busy: the only up group of its port, or in a training, a retrain or a recalibration? -/
def groupBusy (s : State) (g : Nat) : Bool :=
  ggt s g groupStatusState = 2 || (groupUp s g && (match groupPort s g with
    | some p => (upGroups s p).length ≤ 1
    | none => true))

/-- Can a CLUSTER test take its cluster: the spare outside a rotation, an enabled one that a rotation makes
the spare, or, with no rotation to be had, one whose die has no started phase (R368)? -/
def clusterFree (s : State) (d c : Nat) : Bool :=
  (die s d).rot.isNone &&
  (spareOf s d = c ||
   (if spareOf s d ≠ 0x3F && rgB s (dcSlot d) rotateCtlEn then canRotate s d
    else (startedPhases s d).isEmpty))

/-- Is the target free? A LOBE test waits behind the self-test that the hardware wants or runs (R367). -/
def targetFree (s : State) (t : Test) : Bool :=
  match t.kind with
  | 1 => clusterFree s t.die t.unit
  | 2 => !seqRunning s t.die && (List.range 33).all (fun c => (queueOf s t.die c).isEmpty)
  | 3 => (activeJobs s).all (fun j => !jobInLobe s j t.die) && s.pairTest == .idle
  | 4 => (memCtl s (chanDie t.unit)).hold.isNone
  | 5 => !bundleBusy s (testEnd0 t) (t.unit % 64)
  | _ => !groupBusy s t.unit

/-! ### Starts -/

/-- A test leaves the controller with its command's record (R369). -/
def reportTest (s : State) (t : Test) (status detail : Nat) : State :=
  let s := { s with tests := s.tests.filter (fun x => x.id ≠ t.id) }
  match t.cmd with
  | some (_, h) => complete s h status 0 detail
  | none => s

/-- A test takes its target: a cluster through a rotation, a channel by a hold, a link by moving its traffic
aside. -/
def takeTarget (s : State) (t : Test) : State :=
  match t.kind with
  | 1 => if spareOf s t.die ≠ t.unit && canRotate s t.die && rgB s (dcSlot t.die) rotateCtlEn then
      startRotation s t.die t.unit
    else s
  | 4 =>
    let d := chanDie t.unit
    let s := updMem s d (fun m => { m with hold := some { chan := t.unit, kind := .test } })
    let s := wg (wg s (mgSlot d) holdStatusActive 1) (mgSlot d) holdStatusChannel t.unit
    incr s (mgSlot d) holdStatusHolds
  | 5 => setAside s (testEdge t.die t.unit) (t.unit % 64) true
  | 6 => if groupUp s t.unit then groupAside s t.unit else s
  | _ => s

/-- The next test of its target starts, or ends at once where there is nothing to test. -/
def startQueued (s : State) (t : Test) : State :=
  let before := s.tests.takeWhile (fun x => x.id ≠ t.id)
  let other := before.any (sameTarget t) || s.tests.any (fun x => x.started && sameTarget t x)
  if t.started ∨ other ∨ pageInReset s (testPage t) then s
  else if testAbsent s t then reportTest s t stOk (2 * 2 ^ 28)
  else if targetFree s t then
    takeTarget { s with tests := s.tests.map (fun x => if x.id = t.id then { x with started := true } else x) } t
  else s

/-- The test with an id. -/
def testOf (s : State) (n : Nat) : Option Test := s.tests.find? (fun t => t.id = n)

/-- A queued test starts. -/
def execTestStart (n : Nat) (s : State) : Host.Outcome State Fault Refusal :=
  .next (match testOf s n with
    | some t => settle (startQueued s t)
    | none => s)

/-! ### Ends (R369) -/

/-- DETAIL of a test that has run. -/
def testDetail (pass : Bool) (failUnit elapsed : Nat) : Nat :=
  (if pass then 0 else 2 ^ 28) + min elapsed 4095 * 2 ^ 16 + (if pass then 0 else failUnit % 2 ^ 16)

/-- A group that was aside takes the width that its passing lanes allow (R220), without those that have failed
meanwhile; such a failure makes it retrain (R221). -/
def relaneGroup (s : State) (g tx rx : Nat) : State :=
  let x := optGroup s g
  let s := updGroup s g (fun x => { x with recal := false, retraining := true })
  let partner := ((groupPort s g).bind (neighbourPos s)).getD 0
  let s := finishTraining s g ⟨partner, 0, tx - (tx &&& x.failedTx), rx - (rx &&& x.failed)⟩
  if x.failed ≠ 0 ∨ x.failedTx ≠ 0 then wantRetrain s g else s

/-- A group that has failed its test takes the width that its other lanes allow; one that was down stays so. -/
def narrowGroup (s : State) (g lane : Nat) : State :=
  if (optGroup s g).recal then
    relaneGroup s g (setBits (ggt s g groupStatusTxLanes) (lane % 8) 1 0)
      (setBits (ggt s g groupStatusRxLanes) (lane % 8) 1 0)
  else s

/-- What a failed test does to its target. -/
def failTarget (s : State) (t : Test) (readable : Bool) (unit : Nat) : State :=
  match t.kind with
  | 1 => fenceCluster s t.die t.unit
  | 2 => fenceLobe s (lobeHalf t.die)
  | 3 => fenceLobe s (halfN t.die)
  | 4 =>
    let d := chanDie t.unit
    let s := dropHold s d
    if readable then raise s (chanEvent d srcMemRetrain t.unit) else failChannel s d t.unit
  | 5 =>
    let e := testEnd0 t
    if (bundleOf s e (t.unit % 64)).up then bundleDown s e (t.unit % 64) unit
    else setAside s e.edge (t.unit % 64) false
  | _ => narrowGroup s t.unit unit

/-- A target that has passed returns to service; a cluster stays the spare. -/
def passTarget (s : State) (t : Test) : State :=
  match t.kind with
  | 4 => dropHold s (chanDie t.unit)
  | 5 => setAside s (testEdge t.die t.unit) (t.unit % 64) false
  | 6 => groupBack s t.unit
  | _ => s

/-- Is the test under way: not held by a reset of its target, nor by the rotation that brings its cluster? -/
def testRuns (s : State) (t : Test) : Bool :=
  t.started && !pageInReset s (testPage t) && (t.kind ≠ 1 || (die s t.die).rot.isNone)

/-- A test ends with its result. -/
def endTest (s : State) (t : Test) (pass readable : Bool) (failUnit elapsed : Nat) : State :=
  if !testRuns s t then s
  else
    let s := reportTest s t stOk (testDetail pass failUnit elapsed)
    if pass then passTarget s t else failTarget s t readable failUnit

/-- A test ends. -/
def execTestEnd (n : Nat) (pass readable : Bool) (failUnit elapsed : Nat) (s : State) :
    Host.Outcome State Fault Refusal :=
  .next (match testOf s n with
    | some t => settle (endTest s t pass readable failUnit elapsed)
    | none => s)

/-- A deadline passes before a test has started: BUSY (R367). -/
def expireTest (s : State) (t : Test) : State :=
  if t.started ∨ t.deadline = 0 then s else reportTest s t stBusy 0

/-- The deadline of a queued test passes. -/
def execTestDeadlineExpiry (n : Nat) (s : State) : Host.Outcome State Fault Refusal :=
  .next (match testOf s n with
    | some t => settle (expireTest s t)
    | none => s)

/-! ### Recalibration (R373) -/

/-- Does a test hold the link? -/
def linkTested (s : State) (u : LinkUnit) : Bool :=
  s.tests.any (fun t => t.started && (match u with
    | .bundle k b => t.kind = 5 && testEdge t.die t.unit = k && t.unit % 64 = b.val
    | .group g => t.kind = 6 && t.unit = g.val))

/-- Recalibration of a link starts, unless it is busy or out of service. -/
def startRecal (s : State) (u : LinkUnit) : State :=
  if linkTested s u then s
  else match u with
  | .bundle k b =>
    let e : EdgeEnd := ⟨k, false⟩
    if !edgeUp s e ∨ !(bundleOf s e b).up ∨ bundleBusy s e b ∨ !endRuns s e then s
    else setAside s k b true
  | .group g =>
    if groupBusy s g ∨ !groupUp s g ∨ !performs s (oeSlot (g / 4)) then s else groupAside s g

/-- A link starts its recalibration. -/
def execLinkRecalibration (u : LinkUnit) (s : State) : Host.Outcome State Fault Refusal :=
  .next (startRecal s u)

/-- A bundle's recalibration ends. Where it finds a lane failing, a spare takes its place, or the bundle goes down as
after a BUNDLE test (R197, R199, assumption 152). -/
def endBundleRecal (s : State) (k : Fin 6) (b : Nat) (failed : Option Nat) : State :=
  let e : EdgeEnd := ⟨k, false⟩
  if !(bundleOf s e b).aside then s
  else
    let s := setAside s k b false
    match failed with
    | none => s
    | some lane =>
      if (lowestSpare (bundleOf s e b)).isSome ∧ erg s e laneCtlSpareEn = 1 then laneFails s e b lane
      else bundleDown s e b lane

/-- A group's recalibration ends. Where lanes of it no longer pass, it takes the width that the others allow, and
raises OPT_LANE_FAIL (R220, R221, assumption 152). -/
def endGroupRecal (s : State) (g tx rx : Nat) : State :=
  if !performs s (oeSlot (g / 4)) ∨ !(optGroup s g).recal then s
  else
    let t := ggt s g groupStatusTxLanes
    let r := ggt s g groupStatusRxLanes
    if t &&& tx = t ∧ r &&& rx = r then groupBack s g
    else relaneGroup (raise s (groupEvent g srcOptLaneFail)) g (t &&& tx) (r &&& rx)

/-- Its recalibration ends. -/
def endRecal (s : State) (x : RecalEnd) : State :=
  match x with
  | .bundle k b failed => if linkTested s (.bundle k b) then s else endBundleRecal s k b (failed.map Fin.val)
  | .group g tx rx => if linkTested s (.group g) then s else endGroupRecal s g tx rx

/-- A link's recalibration ends. -/
def execLinkRecalibrationEnd (x : RecalEnd) (s : State) : Host.Outcome State Fault Refusal :=
  .next (settle (endRecal s x))

end Sys2Proof.Machine
end

