-- ==== Sys2Proof/Machine/Time.lean ====
section
/-!
DEFINITION. Register reads with their side effects (R9, R11), and fabric time (R251 to R253).
-/

namespace Sys2Proof.Machine

/-! ### Reads -/

/-- RAC fields of a register. -/
def racFields (slot off : Nat) : List Fld :=
  (blockFields (pgType slot)).filter (fun f => f.off = off && f.acc = .rac)

/-- The side effects of a performed read of a block's register: each RAC field takes its reset value, and
what `events` adds to it in the cycle of the read is kept (R11); FT_LO latches FT_HI. -/
def readEffect (s : State) (slot off events : Nat) : State :=
  let s := forEach (racFields slot off) s (fun s f =>
    wg s slot f (satAdd f.w f.reset (fget f events)))
  if slot = routerSlot ∧ off = 0xB0 then wg s routerSlot ftHi (s.ft.t / 2 ^ 32) else s

/-- A read of the MSI-X range by the function's host: one or two words, naturally aligned (assumption 23). -/
def readMsix (s : State) (r : Requester) (off width : Nat) : State :=
  let k := (off - 0x3FF0000) / 4
  if off % width ≠ 0 then s
  else if width = 4 then { s with resp := .value (msixRead s (reqPort r) k) }
  else if width = 8 then
    { s with resp := .value (msixRead s (reqPort r) k + 2 ^ 32 * msixRead s (reqPort r) (k + 1)) }
  else s

/-- A read of a page's register: its value goes to the requester; one of a gated block wakes its domain
(R340), and a meter shows what it has measured. -/
def readPage (s : State) (r : Requester) (off events : Nat) : State :=
  let slot := off / 4096
  let o := off % 4096
  if pgType slot ≠ 0 ∧ 0x80 ≤ o ∧ performs s slot then
    let s := measure (wakeFor s slot) slot o
    { readEffect s slot o events with resp := .value (readReg s r off) }
  else { s with resp := .value (readReg s r off) }

/-- A read of BAR0. One of another width or alignment returns all ones and raises HI_BAD_ACCESS (R321). -/
def readAccess (s : State) (r : Requester) (off width events : Nat) : State :=
  if off ≥ 2 ^ 26 ∨ !reached s r then s
  else if 0x3FF0000 ≤ off then readMsix s r off width
  else if width ≠ 4 ∨ off % 4 ≠ 0 then
    badAccess { s with resp := .value (2 ^ (8 * width) - 1) } r
  else readPage s r off events

/-- A read of BAR2: SUBMIT takes the command or the post (R325), a read of a part of it alone does not (R324), every
other offset reads zero (R323). -/
def readPort (s : State) (p : Half) (off width : Nat) : State :=
  let o := off % 4096
  if 2 ^ 20 ≤ off then { s with resp := .value 0 }
  else if o = 0x40 then submitAny s p (off / 4096) width
  else if o < 0x48 ∧ 0x40 < o + width then badSubmit s p width
  else { s with resp := .value 0 }

/-- A read of configuration space: until boot completes it is answered with Configuration Request Retry Status
(R428); what PCIe's registers there hold is a free value (assumption 23). A port whose link is not there answers
nothing. -/
def readConfig (s : State) (p : Half) (width : Nat) : State :=
  if mget false s.pins.perst p ∨ !domainOn s (58 + 4 * p) then s
  else if rg s secSlot secStatusStage ≠ 5 ∨ s.resets.any (fun r => r.scope = .full) then { s with resp := .retry }
  else
    let (i, s) := useFree s
    { s with resp := .value (Config.freeValue i % 2 ^ (8 * width)) }

/-- What a read of a BAR does: the size of BAR4 reads as its code (R320, assumption 115). -/
def readBar (s : State) (r : Requester) (bar : Bar) (off width events : Nat) : State :=
  match bar with
  | .bar0 => settle (readAccess s r off width events)
  | .bar2 p => readPort s p off width
  | .bar4Size p => { s with resp := .value (bar4Code s p) }
  | .config p => readConfig s p width
  | .ibiEnable => { s with resp := .value (rg s mgmtSlot mgmtStatusIbiEn) }

/-- A read of a register: an RAC field is returned and reset, an event that coincides is kept. -/
def execRacRead (r : Requester) (at_ : RegAt) (events : Nat) (s : State) : Host.Outcome State Fault Refusal :=
  .next (readBar s r at_.bar at_.off at_.width events)

/-- A read of FT_LO latches the high word into FT_HI (R251). -/
def execFtLoRead (r : Requester) (s : State) : Host.Outcome State Fault Refusal :=
  .next (settle (readAccess s r (routerSlot * 4096 + 0xB0) 4 0))

/-! ### Fabric time (R251, R253) -/

/-- This package's linear index (R225). -/
def myIndex (s : State) : Nat :=
  let p := s.pins.straps
  p.meshZ % 16 * 4096 + p.meshY % 64 * 64 + p.meshX % 64

/-- A TSYNC packet on an up port. Which header fields carry the time is not stated: the packet goes out
with its header only. -/
def sendTsync (s : State) (port : Nat) : State :=
  match neighbourPos s port with
  | none => s
  | some pos =>
    { s with inject := s.inject ++ [{ type := 0xB, dest := pos, src := myPos s }] }

/-- TSYNC on every up port but one. -/
def spreadTsync (s : State) (skip : Option Nat) : State :=
  forEach ((List.range 6).filter (fun p => portUp s p && some p ≠ skip)) s sendTsync

/-- The best advertisement among the up ports: lowest master index, fewest hops, lowest port, as
(256 × master + hops, port). -/
def bestAdv (s : State) : Option (Nat × Nat) :=
  (List.range 6).foldl (fun best p =>
    let v := mget 0 s.ft.adv p
    if v = 0 ∨ !portUp s p then best
    else match best with
      | none => some (v - 1, p)
      | some (b, _) => if v - 1 < b then some (v - 1, p) else best) none

/-- Is this package the master as far as it knows: a candidate with no lower index advertised? -/
def isMaster (s : State) : Bool :=
  rgB s routerSlot ftCtl && (match bestAdv s with
    | none => true
    | some (v, _) => myIndex s < v / 256)

/-- Setting FT_STATUS. -/
def setFtStatus (s : State) (sync holdover master hops idx : Nat) : State :=
  let s := wg (wg s routerSlot ftStatusSync sync) routerSlot ftStatusHoldover holdover
  wg (wg (wg s routerSlot ftStatusMaster master) routerSlot ftStatusHops hops)
    routerSlot ftStatusMasterIdx idx

/-- The master sends TSYNC on every up port. -/
def tsyncOut (s : State) : State :=
  if !isMaster s then s
  else
    let s := setFtStatus s 0 0 1 0 (myIndex s)
    spreadTsync { s with ft := { s.ft with parent := none } } none

/-- TSYNC send. -/
def execTsyncSend (s : State) : Host.Outcome State Fault Refusal := .next (tsyncOut s)

/-- The counter is corrected to `time`: up to 1 µs by slewing, more by a step forward or by holding
(R253). -/
def correctTime (f : FabTime) (time : Nat) : FabTime :=
  if f.t ≤ time ∧ time ≤ f.t + 1000 then { f with slew := (time - f.t : Nat), behind := 0 }
  else if time < f.t ∧ f.t ≤ time + 1000 then
    { f with slew := -(Int.ofNat (f.t - time)), behind := 0 }
  else if f.t < time then { f with t := time % 2 ^ 64, slew := 0, behind := 0 }
  else { f with slew := 0, behind := f.t - time }

/-- A TSYNC from a neighbour, with the master index and hops it advertises and its time with the link's
delay added: from the parent, it corrects the counter and is forwarded. -/
def tsyncIn (s : State) (port master hops time : Nat) : State :=
  if !portUp s port then s
  else
    let adv := mset 0 s.ft.adv port (master % 65536 * 256 + hops % 256 + 1)
    let s := { s with ft := { s.ft with adv := adv } }
    if isMaster s then s
    else match bestAdv s with
    | none => s
    | some (v, p) =>
      let s := { s with ft := { s.ft with parent := some p } }
      if p ≠ port then s
      else
        let s := setFtStatus s 1 0 0 (v % 256 + 1) (v / 256)
        spreadTsync { s with ft := correctTime s.ft time } (some p)

/-- TSYNC receipt. -/
def execTsyncReceive (port : FabPort) (master hops time : Nat) (s : State) :
    Host.Outcome State Fault Refusal :=
  .next (tsyncIn s port master hops time)

/-- A synchronised package without TSYNC for 1 ms enters holdover. -/
def enterHoldover (s : State) : State :=
  if rgB s routerSlot ftStatusSync then
    let s := wg (wg s routerSlot ftStatusSync 0) routerSlot ftStatusHoldover 1
    { s with ft := { s.ft with parent := none, adv := [] } }
  else s

/-- Holdover. -/
def execFtHoldover (s : State) : Host.Outcome State Fault Refusal := .next (enterHoldover s)

end Sys2Proof.Machine
end

