-- ==== Sys2Proof/Machine/Mgmt.lean ====
section
/-!
DEFINITION. The pins and interfaces beside the register pages: PERST_N and function-level resets (R318,
R428), the management endpoint with its PLDM requests (R423, R424), and JTAG (R426).
-/

namespace Sys2Proof.Machine

/-! ### Resets of a host port (R318) -/

/-- Where an operation's status goes after a reset of port `p`: nowhere, if it was posted through it. -/
def forgetPoster (p : Nat) : Poster → Poster
  | .host q h => if q = p then .host q 0 else .host q h
  | x => x

/-- Who awaits the answer of a remote request after a reset of port `p`: nobody, where a command or an access of the
port sent it. -/
def forgetOwner (p : Nat) : Owner → Owner
  | .dma q h => if q = p then .dma q 0 else .dma q h
  | .bar4 q r => if q = p then .dma q 0 else .bar4 q r

/-- Does a handle belong to port `p`? -/
def ofPort (p : Nat) (c : Option (Nat × Nat)) : Bool := c.map Prod.fst = some p

/-- Handles of a port that operations, sequencers and tests hold are forgotten: no record follows, and a
later command with the same handle is another one. BAR4 reads of the port are answered no more; its posted writes go
on. -/
def forgetHandles (s : State) (p : Nat) : State :=
  let s := forEach s.cqs s (fun s (q, _) => updCq s q (fun c => { c with
    ops := c.ops.map (fun o => { o with poster := forgetPoster p o.poster }) }))
  let s := forEach (List.range 4) s (fun s d => updSeq s d (fun x =>
    if ofPort p x.cmd then { x with cmd := none } else x))
  { s with
    tests := s.tests.map (fun t => if ofPort p t.cmd then { t with cmd := none } else t)
    remote := { s.remote with
      out := s.remote.out.map (fun o => { o with owner := forgetOwner p o.owner })
      waiting := (s.remote.waiting.filter (fun r => !r.load || forgetOwner p r.owner = r.owner)).map (fun r =>
        { r with owner := forgetOwner p r.owner })
      reads := s.remote.reads.filter (fun (id, _) => !s.remote.out.any (fun o => o.owner = .bar4 p (some id)) &&
        !s.remote.waiting.any (fun r => r.owner = .bar4 p (some id))) } }

/-- The DMA commands of a port stop, their destinations partly written, and an abort of one that is pending is done. -/
def stopDmas (s : State) (p : Nat) : State :=
  forEach ((List.range 256).filterMap (fun n => (dmaOf s p n).map (fun c => (n, c)))) s (fun s (n, c) =>
    (dmaCut (dropAbort s p n) c).1)

/-- Does a field of port `p`'s page keep its value: what shows the link, where that stays up? -/
def keptLink (p key : Nat) : Bool := key / 8 = hiSlot p * 4096 + 0x80

/-- The pages of a port: of its host interface and of its PCIe controller. -/
def portPages (p : Nat) : List Nat := [hiSlot p, halfSlot p 4]

/-- The controller, command ports, rings and page of a port are reset; its reads that wait are gone, and
its BAR4 has its first size (R320). -/
def resetPort (s : State) (p : Nat) (link : Bool) : State :=
  let s := forgetHandles (stopDmas s p) p
  { s with
    cports := mkeep s.cports (fun k => k / 256 ≠ p)
    rings := mkeep s.rings (fun k => k / 64 ≠ p)
    msixTab := mkeep s.msixTab (fun k => k / 16384 ≠ p)
    msixPend := mkeep s.msixPend (fun k => k / 2048 ≠ p)
    barWait := s.barWait.filter (fun r => r.port ≠ p)
    bar4Size := mset 14 s.bar4Size p 14
    regs := mkeep s.regs (fun k => !(portPages p).contains (k / 32768) || (!link && keptLink p k))
    tremor := mkeep s.tremor (fun k => !(portPages p).contains k) }

/-- PERST_N of a port is asserted: its link goes down as well. -/
def assertPerst (s : State) (p : Nat) : State :=
  let s := resetPort s p true
  { s with pins := { s.pins with perst := mset false s.pins.perst p true } }

/-- PERST_N asserted. -/
def execPerstAssert (p : Half) (s : State) : Host.Outcome State Fault Refusal :=
  .next (settle (assertPerst s p))

/-- PERST_N is deasserted: the link trains, at once or when the port's domain comes on (R428). -/
def releasePerst (s : State) (p : Nat) : State :=
  if mget false s.pins.perst p then
    trainLink { s with pins := { s.pins with perst := mset false s.pins.perst p false } } p
  else s

/-- PERST_N deasserted. -/
def execPerstDeassert (p : Half) (s : State) : Host.Outcome State Fault Refusal :=
  .next (releasePerst s p)

/-- A function-level reset: as PERST_N, but the link stays up. -/
def execFunctionLevelReset (p : Half) (s : State) : Host.Outcome State Fault Refusal :=
  .next (settle (resetPort s p false))

/-! ### The management endpoint (R423, R424) -/

/-- The provisional ID: manufacturer, part 0x7404, and the package's linear index. -/
def provisionalId (s : State) : Nat := Config.mipiManuf.toNat * 2 ^ 33 + 0x7404 * 2 ^ 16 + myIndex s

/-- The endpoint answers ENTDAA with its provisional ID, and takes a dynamic address. -/
def execI3cEntdaa (addr : BitVec 7) (s : State) : Host.Outcome State Fault Refusal :=
  .next (if endpointOn s then
      wg (wg { s with resp := .value (provisionalId s) } mgmtSlot mgmtStatusDynAddr addr.toNat)
        mgmtSlot mgmtStatusAssigned 1
    else s)

/-- A sensor measures. -/
def measureSensor (s : State) : Sensor → State
  | .vin => measure s supSlot 0x80
  | .iin => measure s supSlot 0x80
  | .pinAvg => measure s supSlot 0x84
  | .vaux => measure s supSlot 0x88
  | .vio => measure s supSlot 0x88
  | .temp _ => { s with free := s.free + 1 }
  | _ => s

/-- The value of a sensor or state; a temperature is a free value (assumption 9). -/
def sensorValue (s : State) : Sensor → Nat
  | .vin => rg s supSlot vinMonVin
  | .iin => rg s supSlot vinMonIin
  | .pinAvg => rg s supSlot pinAvgAvg
  | .vaux => rg s supSlot auxMonVaux33
  | .vio => rg s supSlot auxMonVio18
  | .temp _ => Config.freeValue s.free % 2 ^ 16
  | .faultSummary => faultSummary s
  | .powerState => rg s pwrSlot pwrStateCur

/-- A PLDM request for a sensor or state. -/
def execPldmSensorRead (x : Sensor) (s : State) : Host.Outcome State Fault Refusal :=
  .next (if answers s then
      let s := measureSensor s x
      { s with resp := .value (sensorValue s x) }
    else s)

/-- Bytes go to the flash at `a`. -/
def flashWrite (s : State) (a : Nat) (bs : List Byte) : State :=
  { s with flash := (List.range bs.length).foldl (fun m k => mset 0xFF m (a + k) (bs.getD k 0xFF)) s.flash }

/-- A part of a PLDM firmware update goes to the copy that did not boot. The first one erases the copy, which the
update then holds open until its last part; an update of the Solfatara firmware is activated by the next full package
reset as the others are (R423, assumption 140). -/
def updateFirmware (s : State) (img : Image) (x : FirmwarePart) : State :=
  let b := !bootedCopy s img
  let (a, n) := copyAt img b
  let s := if copyOpen s img b then s else { s with flash := mkeep s.flash (fun k => k < a || a + n ≤ k) }
  let at_ := mget 0 s.boot.updates (copyKey img b) - 1
  let bs := x.bytes.take (n - at_)
  let s := flashWrite s (a + at_) bs
  let u := if x.last then 0 else at_ + bs.length + 1
  { s with boot := { s.boot with
      updates := mset 0 s.boot.updates (copyKey img b) u
      solNew := s.boot.solNew || (x.last && img = .solfatara) } }

/-- A part of a PLDM firmware update. -/
def execPldmFirmwareUpdate (img : Image) (x : FirmwarePart) (s : State) :
    Host.Outcome State Fault Refusal :=
  .next (if takesUpdates s then updateFirmware s img x else s)

/-- The bytes of an event message. -/
def alertBytes (m : AlertMsg) : List Byte :=
  leBytes 2 m.slot ++ leBytes 1 m.source ++ leBytes 1 m.cls ++ leBytes 2 m.job

/-- The oldest message is read. -/
def pollEvent (s : State) : State :=
  match s.alertQ with
  | [] => { s with resp := .bytes [] }
  | m :: ms => { s with alertQ := ms, resp := .bytes (alertBytes m) }

/-- PollForPlatformEventMessage. -/
def execPldmPollEvent (s : State) : Host.Outcome State Fault Refusal :=
  .next (if answers s then pollEvent s else s)

/-! ### JTAG (R426) -/

/-- The instruction that takes effect: EXTEST and CLAMP in P4 alone, those beyond boundary scan where debug access is
open. -/
def jtagTaken (s : State) (i : Jtag) : Jtag :=
  match i with
  | .extest => if rg s pwrSlot pwrStateCur = 4 then .extest else .bypass
  | .clamp => if rg s pwrSlot pwrStateCur = 4 then .clamp else .bypass
  | .other n => if debugOpen s then .other n else .bypass
  | x => x

/-- The instruction register takes an instruction. -/
def loadJtag (s : State) (i : Jtag) : State :=
  let i := jtagTaken s i
  let s := wg { s with jtag := i } testSlot jtagStatusScanActive (b2n (i = .extest || i = .clamp))
  if i = .idcode then { s with resp := .value ((specialRead s testSlot 0x80).getD 0) } else s

/-- A scan of the data register that the instruction selects. SAMPLE/PRELOAD and EXTEST capture the pins and load the
boundary-scan register; IDCODE answers JTAG_ID, and the bypass register of the others a 0 (PRESUMED from IEEE 1149.1,
assumption 153). What a register beyond boundary scan answers is a free value. -/
def scanJtag (s : State) (pins shiftIn : Nat) : State :=
  match s.jtag with
  | .samplePreload => { s with boundary := shiftIn, resp := .value pins }
  | .extest => { s with boundary := shiftIn, resp := .value pins }
  | .idcode => { s with resp := .value ((specialRead s testSlot 0x80).getD 0) }
  | .other _ =>
    let (i, s) := useFree s
    { s with resp := .value (Config.freeValue i) }
  | _ => { s with resp := .value 0 }

/-- TRST_N: while it is low the port is reset, which selects IDCODE (PRESUMED from IEEE 1149.1, assumption 153). -/
def testReset (s : State) (low : Bool) : State :=
  let s := { s with pins := { s.pins with trstLow := low } }
  if low then wg { s with jtag := .idcode } testSlot jtagStatusScanActive 0 else s

/-- What the port's pins do. -/
def driveJtag (s : State) (i : Jtag) : State :=
  match i with
  | .testReset low => testReset s low
  | .scan pins shiftIn => if s.pins.trstLow then s else scanJtag s pins shiftIn
  | i => if s.pins.trstLow then s else loadJtag s i

/-- A JTAG instruction, a scan, or the test reset. -/
def execJtagInstruction (i : Jtag) (s : State) : Host.Outcome State Fault Refusal :=
  .next (if s.pins.vauxOk && s.pins.vioOk then driveJtag s i else s)

end Sys2Proof.Machine
end

