-- ==== Sys2Proof/Machine/Sequencer.lean ====
section
/-!
DEFINITION. The commands of the training sequencers (R135 to R159): start and stop, the start, attempts
and completion of phases, steps, leaves, messages between dies, and the comparison of Paired mode with
its self-test (R309 to R316).
-/

namespace Sys2Proof.Machine

/-! ### Register writes -/

/-- START of a sequencer: with the job block at SEQ_JOB, while it is stopped or failed. -/
def seqStartNow (s : State) (d : Nat) : State :=
  if seqRunning s d ∨ !dieRuns s d then s
  else startHere s d

/-- STOP of a sequencer: at the end of the current step; a start that waits is given up. -/
def seqStopNow (s : State) (d : Nat) : State :=
  let s := if (seqOf s d).wants then updSeq s d (fun q => { q with wants := false }) else s
  if rg s (seqSlot d) seqStatusState = 1 then wg s (seqSlot d) seqStatusState 2 else s

/-- A write of SEQ_CTL: its settings, and STOP, else START. -/
def writeSeqCtl (s : State) (d val : Nat) (start stop : Bool) : State :=
  let s := writeStored s (seqSlot d) 0x80 val
  if stop then seqStopNow s d else if start then seqStartNow s d else s

/-- A write of SEQ_CTL with START set. -/
def execSeqStart (r : Requester) (d : Die) (val : BitVec 32) (s : State) :
    Host.Outcome State Fault Refusal :=
  .next (settle (guardedWrite s r (seqSlot d) 0x80
    (fun s => writeSeqCtl s d val.toNat true (bit val.toNat 1))))

/-- A write of SEQ_CTL with STOP set. -/
def execSeqStop (r : Requester) (d : Die) (val : BitVec 32) (s : State) :
    Host.Outcome State Fault Refusal :=
  .next (guardedWrite s r (seqSlot d) 0x80 (fun s => writeSeqCtl s d val.toNat false true))

/-- A write of DIG_CTL; CLR sets RUN_DIG to zero (R315). -/
def writeDigCtl (s : State) (d val : Nat) (clr : Bool) : State :=
  let s := writeStored s (seqSlot d) 0xA0 val
  if clr then setRunDigest s d 0 else s

/-- A write of DIG_CTL with CLR set. -/
def execDigClear (r : Requester) (d : Die) (val : BitVec 32) (s : State) :
    Host.Outcome State Fault Refusal :=
  .next (guardedWrite s r (seqSlot d) 0xA0 (fun s => writeDigCtl s d val.toNat true))

/-! ### Phases -/

/-- Does the sequencer of a die start phases? Not while lobe self-test holds its job (R310). -/
def startsPhases (s : State) (d : Nat) : Bool :=
  seqRunning s d && (seqOf s d).stop.isNone && dieRuns s d && !jobHeld s d

/-- The sequencer examines its phases and starts the next ready one, once it can read what the start reads (R140,
R144, R191); it finds a rank that is missing at once (R154). -/
def startNext (s : State) (d : Nat) : State :=
  match choosePhase s d with
  | (s, some ph) =>
    if waitsDie s d (startReads s d ph) then detectMissing s d
    else detectMissing (startPhase (checkDie s d (startReads s d ph)) d ph) d
  | (s, none) => detectMissing s d

/-- The next ready phase starts. -/
def execPhaseStart (d : Die) (s : State) : Host.Outcome State Fault Refusal :=
  if startsPhases s d then .next (settle (startNext s d)) else .next s

/-- The tasks of an attempt have ended: its latch is read with those of its group (R148, R150). -/
def endAttempt (s : State) (d ph : Nat) : State :=
  resolveGroup (updPhase s d ph (fun p => { p with latched := true })) d ph

/-- Does the sequencer of a die bring its phases on: it runs, and its job is not held (R310)? -/
def goesOn (s : State) (d : Nat) : Bool := dieRuns s d && !jobHeld s d

/-- The tasks of an attempt have ended. -/
def execPhaseAttemptEnd (d : Die) (ph : Nat) (s : State) : Host.Outcome State Fault Refusal :=
  if goesOn s d ∧ attemptEnded s d ph ∧ awaitsCommit (phaseOf s d ph) then
    .next (settle (endAttempt s d ph))
  else .next s

/-- A die receives the latch of another die's phase, and the group decides when the latches are
together. -/
def receiveLatch (s : State) (src dst ph : Nat) : State :=
  let p := phaseOf s src ph
  if !p.latched then s
  else
    let s := updDie s dst (fun x => { x with
      latches := mset 0 x.latches (4 * ph + src) (latchValue p.latch (stepOf s src)) })
    match groupMember s src p.desc dst with
    | some i => if (phaseOf s dst i).latched then resolveGroup s dst i else s
    | none => s

/-- A die receives another die's latch over the control bundles. -/
def execPromotionLatchReceive (src dst : Die) (ph : Nat) (s : State) :
    Host.Outcome State Fault Refusal :=
  if src ≠ dst ∧ dieRuns s src ∧ dieRuns s dst ∧ ctrlOpen s src dst then
    .next (settle (receiveLatch s src dst ph))
  else .next s

/-- A die is told of the completion of another die's phase in the step that the phase ran in (R143), and
examines the phases of its window again (R140). -/
def receiveDep (s : State) (src dst ph : Nat) : State :=
  let s := updDie s src (fun x => { x with
    told := mset 0 x.told (4 * ph + dst) ((seqOf s src).stepNo + 1) })
  if startsPhases s dst then forEach (windowOf s dst) s (fun s i => examine s dst i) else s

/-- A message reports another die's phase completion. -/
def execCrossDieDepSignal (src dst : Die) (ph : Nat) (s : State) :
    Host.Outcome State Fault Refusal :=
  if isDone (phaseOf s src ph) ∧ ctrlOpen s src dst then .next (settle (receiveDep s src dst ph)) else .next s

/-- What brings a phase on once it waits for nothing: types that post at their start are compared first in
Paired mode, a phase whose mirror is gone goes on unchecked (R139, R309, R310). -/
def advancePhase (s : State) (d ph : Nat) : State :=
  if (phaseOf s d ph).stage = .exchange then
    if isCompared s d ph then s else goOn s d ph
  else if !canComplete s d ph then s
  else if mustCompare s d ph then updPhase s d ph (fun p => { p with stage := .exchange })
  else completePhase s d ph

/-- A phase completes. -/
def execPhaseComplete (d : Die) (ph : Nat) (s : State) : Host.Outcome State Fault Refusal :=
  if goesOn s d then .next (settle (advancePhase s d ph)) else .next s

/-- A step ends. -/
def execStepEnd (d : Die) (s : State) : Host.Outcome State Fault Refusal :=
  if goesOn s d ∧ stepDone s d then .next (settle (endStep s d)) else .next s

/-- A gradient counter takes its next leaf. -/
def execLeafTake (d : Die) (layer : Nat) (s : State) : Host.Outcome State Fault Refusal :=
  if goesOn s d ∧ seqRunning s d then .next (settle (detectMissing (takeLeaf s d layer) d))
  else .next s

/-! ### Paired mode (R309 to R312) -/

/-- The exchanged values of a phase are used up. -/
def dropExchange (s : State) (d ph : Nat) : State :=
  updDie s d (fun x => { x with mirror := mset 0 x.mirror ph 0 })

/-- PAIR_LAST of a die. -/
def setPairLast (s : State) (d ph outcome : Nat) : State :=
  wg (wg s (seqSlot d) pairLastPhase ph) (seqSlot d) pairLastOutcome outcome

/-- A phase of one die whose values agree with its mirror's: after a re-run the mismatch was transient. -/
def agreed (s : State) (d ph : Nat) : State :=
  let s := if (phaseOf s d ph).tries = 0 then s
    else
      let s := incr (setPairLast s d ph 1) (seqSlot d) pairTransient
      seqEvent s d srcPairTransient
  goOn s d ph

/-- A first mismatch of a phase that is run again, on one die (R310 step 1). -/
def runAgain (s : State) (d ph : Nat) : State :=
  updPhase (setPairLast s d ph 0) d ph (fun p =>
    let p := if isReplayable p then { restartAttempt p with rung := p.rungStart } else p
    { p with tries := 1 })

/-- A mismatch that stays, on one die (R310 step 3). -/
def persist (s : State) (d ph : Nat) : State :=
  seqEvent (updPhase (setPairLast s d ph 0) d ph (fun p => { p with tries := 2 })) d srcPairPersist

/-- Both dies of a mirror pair hold both values: the phase goes on, is run again, or waits for the
self-test. -/
def comparePair (s : State) (d ph : Nat) : State :=
  let m := mirrorDie d
  let a := mget 0 (die s d).mirror ph
  let b := mget 0 (die s m).mirror ph
  let waits (e : Nat) : Bool := (phaseOf s e ph).stage = .exchange && isCompared s e ph
  if a = 0 ∨ b = 0 ∨ !waits d ∨ !waits m ∨ (phaseOf s d ph).tries ≥ 2 then s
  else
    let same := a = mirrorValue s d ph + 1 ∧ b = mirrorValue s m ph + 1
    let s := dropExchange (dropExchange s d ph) m ph
    let p := phaseOf s d ph
    let ty := phType p.desc
    if same then agreed (agreed s d ph) m ph
    else if p.tries = 0 ∧ ty ≠ 5 ∧ ty ≠ 6 then runAgain (runAgain s d ph) m ph
    else
      let s := persist (persist s d ph) m ph
      match s.pairTest with
      | .idle => { s with pairTest := .wanted ph }
      | .wanted _ => s
      | .running i _ => { s with pairTest := .running i (pairDies s) }

/-- A die receives its mirror's digest and status word. -/
def receiveMirror (s : State) (d ph : Nat) : State :=
  let m := mirrorDie d
  if (phaseOf s m ph).stage ≠ .exchange ∨ !isCompared s m ph ∨ (phaseOf s m ph).tries ≥ 2 then s
  else
    let v := mirrorValue s m ph + 1
    comparePair (updDie s d (fun x => { x with mirror := mset 0 x.mirror ph v })) d ph

/-- What a die reads to form its status word: the descriptors in its POST_LIST (R309). -/
def postReads (s : State) (d ph : Nat) : List (Nat × Nat) :=
  let w := (phaseOf s d ph).desc
  if phPostN w = 0 then [] else [(phPostList w, 64 * phPostN w)]

/-- A die receives its mirror's values over the Caldera edges, once the mirror can read its POST_LIST. -/
def execMirrorExchangeReceive (d : Die) (ph : Nat) (s : State) : Host.Outcome State Fault Refusal :=
  let m := mirrorDie d
  if dieRuns s d ∧ dieRuns s m ∧ ctrlOpen s m d ∧ !waitsDie s m (postReads s m ph) then
    .next (settle (receiveMirror (checkDie s m (postReads s m ph)) d ph))
  else .next s

/-- Have the queue operations of the jobs concerned all completed? -/
def pairDrained (s : State) : Bool :=
  (stuckDies s).all (fun d => s.cqs.all (fun (_, c) => c.job ≠ (seqOf s d).job || c.ops.isEmpty))

/-- Is a lobe under a LOBE test that has started (R367)? -/
def lobeTested (s : State) : Bool := s.tests.any (fun t => t.started && t.kind = 3)

/-- Both lobes start lobe self-test, where no LOBE test runs (R367). -/
def execPairSelfTestStart (s : State) : Host.Outcome State Fault Refusal :=
  match s.pairTest with
  | .wanted ph =>
    if pairDrained s && !lobeTested s then .next { s with pairTest := .running ph (pairDies s) } else .next s
  | _ => .next s

/-- Both lobes pass: PAIR_UNRESOLVED ends the job, whatever the source's class (R310, R344), and is raised too where
the job has ended since the test started (R312). -/
def unresolved (s : State) : State :=
  let ds := pairDies s
  let s := { setOutcome s (ds.map Prod.fst) 3 with pairTest := .idle }
  let jobs := (ds.map Prod.snd).eraseDups
  let s := takeEvents (forEach ds s (fun s x =>
    raise s { slot := seqSlot x.1, src := srcPairUnresolved, job := x.2 }))
  forEach jobs s (fun s j =>
    if (List.range 4).any (fun d => seqJob s d = j) then abortJob s j none else s)

/-- The outcome of lobe self-test (R310, R24). -/
def endPairTest (s : State) (west east : Bool) : State :=
  if west ∧ east then unresolved s
  else
    let s := { setOutcome s ((pairDies s).map Prod.fst) 2 with pairTest := .idle }
    if !west ∧ !east then fenceBoth s else fenceLobe s (if west then 1 else 0)

/-- The self-test results arrive. -/
def execPairSelfTestResult (west east : Bool) (s : State) : Host.Outcome State Fault Refusal :=
  match s.pairTest with
  | .running _ _ => .next (settle (endPairTest s west east))
  | _ => .next s

end Sys2Proof.Machine
end

