-- ==== Sys2Proof/Machine/HostRegs.lean ====
section
/-!
DEFINITION. The registers of a host interface page (R325, R329), accesses that R321 refuses, and the write of
any register (R9, R323, R333, R338 to R342).
-/

namespace Sys2Proof.Machine

/-! ### Command ports and rings -/

/-- PORT_CFG of the selected port: its fields while it is disabled, its enabling with the sequence number
restarted, its disabling once it holds no command; port 255 has none. -/
def setPortCfg (s : State) (p val : Nat) : State :=
  let n := rg s (hiSlot p) portSel
  let c := cportOf s p n
  if n = 255 then s
  else if c.en then
    if !bit val 31 ∧ c.cmds.isEmpty then updCPort s p n (fun c => { c with en := false }) else s
  else
    updCPort s p n (fun c => { c with
      en := bit val 31, kind := bits val 30 1, queue := bits val 24 6, ring := bits val 18 6
      seq := if bit val 31 then 1 else c.seq })

/-- A write of PORT_CFG. -/
def writePortCfg (s : State) (r : Requester) (p val : Nat) : State :=
  guardedWrite s r (hiSlot p) 0xA0 (fun s => setPortCfg s p val)

/-- A write of PORT_CFG. -/
def execPortCfgWrite (r : Requester) (p : Half) (val : BitVec 32) (s : State) :
    Host.Outcome State Fault Refusal :=
  .next (settle (writePortCfg s r p val.toNat))

/-- Does a command port that uses the ring hold commands? -/
def ringInUse (s : State) (p k : Nat) : Bool :=
  s.cports.any (fun (i, c) => i / 256 = p && c.ring = k && !c.cmds.isEmpty)

/-- RING_CFG of the selected ring: enabling restarts TAIL, HEAD and PHASE. -/
def setRingCfg (s : State) (p val : Nat) : State :=
  let k := rg s (hiSlot p) ringSel
  let r := ringOf s p k
  let size := bits val 27 4
  let r := { r with
    size := if 8 ≤ size then size else r.size
    vector := bits val 16 11, irqEn := bit val 15, holdoff := bits val 0 8 }
  let r := if bit val 31 then
      if r.en then r else { r with en := true, tail := 0, head := 0 }
    else if ringInUse s p k then r else { r with en := false }
  updRing s p k (fun _ => r)

/-- A write of RING_CFG. -/
def writeRingCfg (s : State) (r : Requester) (p val : Nat) : State :=
  guardedWrite s r (hiSlot p) 0x90 (fun s => setRingCfg s p val)

/-- A write of RING_CFG. -/
def execRingCfgWrite (r : Requester) (p : Half) (val : BitVec 32) (s : State) :
    Host.Outcome State Fault Refusal :=
  .next (settle (writeRingCfg s r p val.toNat))

/-- RING_HEAD of the selected ring: a value that leaves more records than the ring holds is ignored. -/
def setRingHead (s : State) (p val : Nat) : State :=
  let k := rg s (hiSlot p) ringSel
  let r := ringOf s p k
  let h := val % 65536
  if (r.tail + 65536 - h) % 65536 ≤ 2 ^ r.size then updRing s p k (fun r => { r with head := h }) else s

/-- A write of RING_HEAD. -/
def writeRingHead (s : State) (r : Requester) (p val : Nat) : State :=
  guardedWrite s r (hiSlot p) 0x94 (fun s => setRingHead s p val)

/-- A write of RING_HEAD. -/
def execRingHeadWrite (r : Requester) (p : Half) (val : BitVec 32) (s : State) :
    Host.Outcome State Fault Refusal :=
  .next (settle (writeRingHead s r p val.toNat))

/-! ### Accesses that are refused (R321, R340) -/

/-- Is the access of another width or alignment than R321 asks? The MSI-X range has its own rules. -/
def badShape (off width : Nat) : Bool := off < 0x3FF0000 && (width ≠ 4 || off % 4 ≠ 0)

/-- The requester behind a PCIe port. -/
def portReq (p : Half) : Requester := if p = 0 then .pcie0 else .pcie1

/-- A write to an unassigned slot is dropped, counted, and raises HI_BAD_ACCESS. -/
def unassignedWrite (s : State) (r : Requester) (off : Nat) : State := badAccess (dropWrite s r off) r

/-- An access that is refused: of a wrong shape, or one to an unassigned slot, which reads zero. -/
def badBar0 (s : State) (p : Half) (write : Bool) (off width : Nat) : State :=
  let s' := if write then s else { s with resp := .value (2 ^ (8 * width) - 1) }
  if off ≥ 2 ^ 26 ∨ 0x3FF0000 ≤ off then s
  else if badShape off width then badAccess s' (portReq p)
  else if pgType (off / 4096) = 0 then
    if write then unassignedWrite s (portReq p) off else { s with resp := .value 0 }
  else s

/-- A bad access. -/
def execBar0BadAccess (p : Half) (write : Bool) (off width : Nat) (s : State) :
    Host.Outcome State Fault Refusal :=
  .next (settle (badBar0 s p write off width))

/-! ### Any register -/

/-- CENSUS_CTL, SEQ_CTL, DIG_CTL and OE_CTL without a set action bit write their fields. -/
def writeDieCtl (s : State) (slot o val : Nat) : Option State :=
  let d := pgDie slot
  match pgType slot, o with
  | 0x1C, 0x88 => some (writeCensusCtl s d (bit val 0) (bit val 1))
  | 0x1D, 0x80 => some (writeSeqCtl s d val (bit val 0) (bit val 1))
  | 0x1D, 0xA0 => some (writeDigCtl s d val (bit val 1))
  | 0x1A, 0x84 => some (if bit val 0 then retryOe s (pgInstance slot) else s)
  | 0x01, 0xC0 => some (writeMemSplit s val)
  | 0x01, 0xC8 => some (writeMapoutReq s val)
  | 0x01, 0x160 => some (writeJwCtl s val)
  | _, _ => none

/-- A register whose write has a row of its own, written through this row. -/
def ownRow (s : State) (r : Requester) (slot o val : Nat) : Option State :=
  let h := pgInstance slot
  match pgType slot, o with
  | 0x01, 0xA0 => some (writeLobeMode s r val)
  | 0x01, 0x110 => some (writeResetReq s r val (bit val 31))
  | 0x02, 0xBC => some (writeInject s r val (bit val 31))
  | 0x03, 0x84 => some (writeLogSel s r val)
  | 0x04, 0x8C => some (writeJobData s r val)
  | 0x04, 0x94 => some (writeRtData s r val)
  | 0x05, 0x80 => some (writePwrState s r val (bit val 31))
  | 0x0A, 0x104 => some (writeExtCtl s r val (bit val 31))
  | 0x0A, 0x110 => some (writeSegCtl s r (bit val 31) (fun _ => true))
  | 0x12, 0x88 => some (writeQuota s r h val)
  | 0x13, 0x84 => some (writeQCfg s r h val (bit val 31))
  | 0x14, 0x90 => some (writeRingCfg s r h val)
  | 0x14, 0x94 => some (writeRingHead s r h val)
  | 0x14, 0xA0 => some (writePortCfg s r h val)
  | _, _ => none

/-- A write of a block-specific register. -/
def writeBlock (s : State) (r : Requester) (slot o val : Nat) : State :=
  match ownRow s r slot o val with
  | some s => s
  | none => guardedWrite s r slot o (fun s =>
      match writeDieCtl s slot o val with
      | some s => s
      | none => (specialWrite s slot o val).getD (writeStored s slot o val))

/-- A write of the MSI-X range by the function's host: one or two words, naturally aligned, as PCIe defines
it (assumption 23). -/
def writeMsix (s : State) (r : Requester) (off width val : Nat) : State :=
  let k := (off - 0x3FF0000) / 4
  if off % width ≠ 0 then s
  else if width = 4 then msixWrite s (reqPort r) k val
  else if width = 8 then msixWrite (msixWrite s (reqPort r) k val) (reqPort r) (k + 1) (val / 2 ^ 32)
  else s

/-- A write of BAR0. The header of a block in reset, off or fenced, or whose parent domain is, ignores
writes (R339, R340). What hardware sets in the same cycle stays set (R10). -/
def writeBar0 (s : State) (r : Requester) (off width val set : Nat) : State :=
  let slot := off / 4096
  let o := off % 4096
  if off ≥ 2 ^ 26 ∨ !reached s r then s
  else if off ≥ 0x3FF0000 then writeMsix s r off width val
  else if badShape off width then badAccess s r
  else if pgType slot = 0 then unassignedWrite s r off
  else if o < 0x80 then
    if !headerRuns s slot then s
    else
      let s := writeHeader s slot o (val % 2 ^ 32)
      if o = 0x18 then setSticky s slot set else s
  else if performs s slot then setW1c (writeBlock s r slot o (val % 2 ^ 32)) slot o set
  else writeBlock s r slot o (val % 2 ^ 32)

/-- Is it a width of a write, naturally aligned? -/
def natural (off width : Nat) : Bool := [1, 2, 4, 8, 16, 32, 64].contains width && off % width = 0

/-- A write of BAR2 changes bytes of DESC; the rest of a command port page ignores writes (R323). -/
def writeBar2 (s : State) (p off width val : Nat) : State :=
  let n := off / 4096
  let o := off % 4096
  if natural off width && o + width ≤ 64 && n < 256 && domainOn s (58 + 4 * p) then
    updCPort s p n (fun c => { c with desc := setBits c.desc (8 * o) (8 * width) val })
  else s

/-- A write of the size of a port's BAR4, 1 GiB to 512 TiB (R320, assumption 115). -/
def writeBar4Size (s : State) (p val : Nat) : State :=
  if 10 ≤ val ∧ val ≤ 29 then { s with bar4Size := mset 14 s.bar4Size p val } else s

/-- The bus controller enables or disables in-band interrupts of the endpoint, which holds an address (R424). -/
def writeIbi (s : State) (val : Nat) : State :=
  if takesUpdates s then wg s mgmtSlot mgmtStatusIbiEn (val % 2) else s

/-- A write of a register. What a write of configuration space does beyond the size of BAR4 is PCIe's (assumption
23). -/
def execRegisterWrite (r : Requester) (bar : Bar) (off width : Nat) (w : RegWrite) (s : State) :
    Host.Outcome State Fault Refusal :=
  .next (settle (match bar with
    | .bar0 => writeBar0 s r off width w.val w.set
    | .bar2 p => writeBar2 s p off width w.val
    | .bar4Size p => writeBar4Size s p w.val
    | .config _ => s
    | .ibiEnable => writeIbi s w.val))

end Sys2Proof.Machine
end

