-- ==== Sys2Proof/Machine/Dispatch.lean ====
section
/-!
DEFINITION. The dispatch: one arm for each command.
-/

namespace Sys2Proof.Machine

def exec (i : Instr) (s : State) : Host.Outcome State Fault Refusal :=
  match i with
  | .registerWrite r bar off width w => Sys2Proof.Machine.execRegisterWrite r bar off width w s
  | .racRead r at_ events => Sys2Proof.Machine.execRacRead r at_ events s
  | .bar0BadAccess p write off width => Sys2Proof.Machine.execBar0BadAccess p write off width s
  | .lobeModeWrite r val => Sys2Proof.Machine.execLobeModeWrite r val s
  | .censusSnap r d val => Sys2Proof.Machine.execCensusSnap r d val s
  | .censusClear r d => Sys2Proof.Machine.execCensusClear r d s
  | .censusOpDone d => Sys2Proof.Machine.execCensusOpDone d s
  | .seqStart r d val => Sys2Proof.Machine.execSeqStart r d val s
  | .seqStop r d val => Sys2Proof.Machine.execSeqStop r d val s
  | .digClear r d val => Sys2Proof.Machine.execDigClear r d val s
  | .jwCtlWrite r val => Sys2Proof.Machine.execJwCtlWrite r val s
  | .memSplitWrite r val => Sys2Proof.Machine.execMemSplitWrite r val s
  | .mapoutReqWrite r val => Sys2Proof.Machine.execMapoutReqWrite r val s
  | .oeRetry r o => Sys2Proof.Machine.execOeRetry r o s
  | .jobDataWrite r val => Sys2Proof.Machine.execJobDataWrite r val s
  | .rtDataWrite r val => Sys2Proof.Machine.execRtDataWrite r val s
  | .gqQuotaWrite r h val => Sys2Proof.Machine.execGqQuotaWrite r h val s
  | .queueEnable r h val => Sys2Proof.Machine.execQueueEnable r h val s
  | .queueDisable r h val => Sys2Proof.Machine.execQueueDisable r h val s
  | .portCfgWrite r p val => Sys2Proof.Machine.execPortCfgWrite r p val s
  | .ringCfgWrite r p val => Sys2Proof.Machine.execRingCfgWrite r p val s
  | .ringHeadWrite r p val => Sys2Proof.Machine.execRingHeadWrite r p val s
  | .resetReq r val => Sys2Proof.Machine.execResetReq r val s
  | .powerReqP0 r => Sys2Proof.Machine.execPowerReqP0 r s
  | .powerReqP2 r l => Sys2Proof.Machine.execPowerReqP2 r l s
  | .powerReqP3 r => Sys2Proof.Machine.execPowerReqP3 r s
  | .powerReqP4 r => Sys2Proof.Machine.execPowerReqP4 r s
  | .mrExtend r val => Sys2Proof.Machine.execMrExtend r val s
  | .faultInject r val => Sys2Proof.Machine.execFaultInject r val s
  | .logCapture r val => Sys2Proof.Machine.execLogCapture r val s
  | .ftLoRead r => Sys2Proof.Machine.execFtLoRead r s
  | .cmdNop p n width => Sys2Proof.Machine.execCmdNop p n width s
  | .cmdDma p n width => Sys2Proof.Machine.execCmdDma p n width s
  | .cmdSeqRun p n width => Sys2Proof.Machine.execCmdSeqRun p n width s
  | .cmdAbort p n width => Sys2Proof.Machine.execCmdAbort p n width s
  | .cmdTest p n width => Sys2Proof.Machine.execCmdTest p n width s
  | .cmdWaitFault p n width => Sys2Proof.Machine.execCmdWaitFault p n width s
  | .queuePostHost p n width => Sys2Proof.Machine.execQueuePostHost p n width s
  | .segOpen r => Sys2Proof.Machine.execSegOpen r s
  | .segPeriodic r => Sys2Proof.Machine.execSegPeriodic r s
  | .segCheckpoint r => Sys2Proof.Machine.execSegCheckpoint r s
  | .segClose r => Sys2Proof.Machine.execSegClose r s
  | .segState r => Sys2Proof.Machine.execSegState r s
  | .segmentComplete => Sys2Proof.Machine.execSegmentComplete s
  | .bar4Read p off len => Sys2Proof.Machine.execBar4Read p off len s
  | .bar4Write p off data => Sys2Proof.Machine.execBar4Write p off data s
  | .taskDispatch d => Sys2Proof.Machine.execTaskDispatch d s
  | .taskTake d c t => Sys2Proof.Machine.execTaskTake d c t s
  | .taskComplete d c t => Sys2Proof.Machine.execTaskComplete d c t s
  | .tileClockGate d c t => Sys2Proof.Machine.execTileClockGate d c t s
  | .clusterGroupGate d g => Sys2Proof.Machine.execClusterGroupGate d g s
  | .clusterGroupReady d g => Sys2Proof.Machine.execClusterGroupReady d g s
  | .tileRestart d c t => Sys2Proof.Machine.execTileRestart d c t s
  | .rotationStart d => Sys2Proof.Machine.execRotationStart d s
  | .rotationComplete d => Sys2Proof.Machine.execRotationComplete d s
  | .onlineTestPassEnd d pass => Sys2Proof.Machine.execOnlineTestPassEnd d pass s
  | .clusterFence d c => Sys2Proof.Machine.execClusterFence d c s
  | .phaseStart d => Sys2Proof.Machine.execPhaseStart d s
  | .phaseAttemptEnd d ph => Sys2Proof.Machine.execPhaseAttemptEnd d ph s
  | .phaseComplete d ph => Sys2Proof.Machine.execPhaseComplete d ph s
  | .stepEnd d => Sys2Proof.Machine.execStepEnd d s
  | .leafTake d layer => Sys2Proof.Machine.execLeafTake d layer s
  | .crossDieDepSignal src dst ph => Sys2Proof.Machine.execCrossDieDepSignal src dst ph s
  | .mirrorExchangeReceive d ph => Sys2Proof.Machine.execMirrorExchangeReceive d ph s
  | .pairSelfTestStart => Sys2Proof.Machine.execPairSelfTestStart s
  | .pairSelfTestResult west east => Sys2Proof.Machine.execPairSelfTestResult west east s
  | .sectorRead addr by_ symbols => Sys2Proof.Machine.execSectorRead addr by_ symbols s
  | .sectorWrite addr data symbols => Sys2Proof.Machine.execSectorWrite addr data symbols s
  | .scrubRead addr symbols => Sys2Proof.Machine.execScrubRead addr symbols s
  | .bankRefresh chan => Sys2Proof.Machine.execBankRefresh chan s
  | .memCalibration chan corrections retrain => Sys2Proof.Machine.execMemCalibration chan corrections retrain s
  | .channelHoldStart d => Sys2Proof.Machine.execChannelHoldStart d s
  | .channelHoldRelease d pass readable => Sys2Proof.Machine.execChannelHoldRelease d pass readable s
  | .dataFlitReceive e b f => Sys2Proof.Machine.execDataFlitReceive e b f s
  | .sparingComplete edge b agreed => Sys2Proof.Machine.execSparingComplete edge b agreed s
  | .dataFlitAck e seq => Sys2Proof.Machine.execDataFlitAck e seq s
  | .laneCountDecay => Sys2Proof.Machine.execLaneCountDecay s
  | .controlFlitReceive e cb f => Sys2Proof.Machine.execControlFlitReceive e cb f s
  | .controlAckTimeout e cb => Sys2Proof.Machine.execControlAckTimeout e cb s
  | .reconcileHashExchange x => Sys2Proof.Machine.execReconcileHashExchange x s
  | .edgeTrainingComplete edge m => Sys2Proof.Machine.execEdgeTrainingComplete edge m s
  | .oeAdmission o a => Sys2Proof.Machine.execOeAdmission o a s
  | .laserMonitor o power => Sys2Proof.Machine.execLaserMonitor o power s
  | .groupTrainingComplete g r => Sys2Proof.Machine.execGroupTrainingComplete g r s
  | .groupAbsent g => Sys2Proof.Machine.execGroupAbsent g s
  | .absentGroupProbe g light => Sys2Proof.Machine.execAbsentGroupProbe g light s
  | .optLaneFail g f => Sys2Proof.Machine.execOptLaneFail g f s
  | .groupRetrainComplete g r => Sys2Proof.Machine.execGroupRetrainComplete g r s
  | .routerPacketEnter src p => Sys2Proof.Machine.execRouterPacketEnter src p s
  | .packetLinkStart port vc detour => Sys2Proof.Machine.execPacketLinkStart port vc detour s
  | .codewordReceive port cw => Sys2Proof.Machine.execCodewordReceive port cw s
  | .linkFlitReceive port f => Sys2Proof.Machine.execLinkFlitReceive port f s
  | .portDown port => Sys2Proof.Machine.execPortDown port s
  | .adminExchangeSend => Sys2Proof.Machine.execAdminExchangeSend s
  | .adminReceive port up => Sys2Proof.Machine.execAdminReceive port up s
  | .detourCreditTimeout n => Sys2Proof.Machine.execDetourCreditTimeout n s
  | .packetWaitTimeout n => Sys2Proof.Machine.execPacketWaitTimeout n s
  | .remoteLoad p => Sys2Proof.Machine.execRemoteLoad p s
  | .remoteStore p => Sys2Proof.Machine.execRemoteStore p s
  | .remoteFetchAdd p => Sys2Proof.Machine.execRemoteFetchAdd p s
  | .remoteResponse p => Sys2Proof.Machine.execRemoteResponse p s
  | .nackReceive p => Sys2Proof.Machine.execNackReceive p s
  | .remoteRequestTimeout tag => Sys2Proof.Machine.execRemoteRequestTimeout tag s
  | .tsyncSend => Sys2Proof.Machine.execTsyncSend s
  | .tsyncReceive port master hops time => Sys2Proof.Machine.execTsyncReceive port master hops time s
  | .ftHoldover => Sys2Proof.Machine.execFtHoldover s
  | .eruptReceive p => Sys2Proof.Machine.execEruptReceive p s
  | .queueAbortComplete job => Sys2Proof.Machine.execQueueAbortComplete job s
  | .redChunkReceive h x => Sys2Proof.Machine.execRedChunkReceive h x s
  | .resvGrantReceive x => Sys2Proof.Machine.execResvGrantReceive x s
  | .resvCreditReceive x => Sys2Proof.Machine.execResvCreditReceive x s
  | .collOpStart q => Sys2Proof.Machine.execCollOpStart q s
  | .ctsReceive p => Sys2Proof.Machine.execCtsReceive p s
  | .msgDataReceive p => Sys2Proof.Machine.execMsgDataReceive p s
  | .msgDoneReceive p => Sys2Proof.Machine.execMsgDoneReceive p s
  | .msgResultReceive p => Sys2Proof.Machine.execMsgResultReceive p s
  | .fumReceive p => Sys2Proof.Machine.execFumReceive p s
  | .collOpComplete q op => Sys2Proof.Machine.execCollOpComplete q op s
  | .dmaComplete p n a => Sys2Proof.Machine.execDmaComplete p n a s
  | .completionRecordWrite p ring => Sys2Proof.Machine.execCompletionRecordWrite p ring s
  | .msixHoldoffExpiry p ring => Sys2Proof.Machine.execMsixHoldoffExpiry p ring s
  | .quietPeriodExpiry => Sys2Proof.Machine.execQuietPeriodExpiry s
  | .tremorWindowExpiry slot => Sys2Proof.Machine.execTremorWindowExpiry slot s
  | .resetEnd x b => Sys2Proof.Machine.execResetEnd x b s
  | .resetEscalation x => Sys2Proof.Machine.execResetEscalation x s
  | .abortTimeout a => Sys2Proof.Machine.execAbortTimeout a s
  | .testStart n => Sys2Proof.Machine.execTestStart n s
  | .testEnd n pass readable failUnit elapsed => Sys2Proof.Machine.execTestEnd n pass readable failUnit elapsed s
  | .testDeadlineExpiry n => Sys2Proof.Machine.execTestDeadlineExpiry n s
  | .linkRecalibration u => Sys2Proof.Machine.execLinkRecalibration u s
  | .linkRecalibrationEnd u => Sys2Proof.Machine.execLinkRecalibrationEnd u s
  | .brakePinAssert => Sys2Proof.Machine.execBrakePinAssert s
  | .brakePinRelease => Sys2Proof.Machine.execBrakePinRelease s
  | .limiterStep watts => Sys2Proof.Machine.execLimiterStep watts s
  | .supVinLow => Sys2Proof.Machine.execSupVinLow s
  | .supVinHigh => Sys2Proof.Machine.execSupVinHigh s
  | .supOvercurrent => Sys2Proof.Machine.execSupOvercurrent s
  | .supVauxLow => Sys2Proof.Machine.execSupVauxLow s
  | .thermWarn sensor => Sys2Proof.Machine.execThermWarn sensor s
  | .thermHot sensor => Sys2Proof.Machine.execThermHot sensor s
  | .thermTrip sensor => Sys2Proof.Machine.execThermTrip sensor s
  | .brakeCauseClear c => Sys2Proof.Machine.execBrakeCauseClear c s
  | .supplyRestart => Sys2Proof.Machine.execSupplyRestart s
  | .refclkLoss n => Sys2Proof.Machine.execRefclkLoss n s
  | .slowclkLoss => Sys2Proof.Machine.execSlowclkLoss s
  | .vinCollapse => Sys2Proof.Machine.execVinCollapse s
  | .vauxLoss => Sys2Proof.Machine.execVauxLoss s
  | .vioLoss => Sys2Proof.Machine.execVioLoss s
  | .vioRestore => Sys2Proof.Machine.execVioRestore s
  | .powerOn => Sys2Proof.Machine.execPowerOn s
  | .strapSample p => Sys2Proof.Machine.execStrapSample p s
  | .vin48Ready => Sys2Proof.Machine.execVin48Ready s
  | .fuseCommit img => Sys2Proof.Machine.execFuseCommit img s
  | .perstAssert p => Sys2Proof.Machine.execPerstAssert p s
  | .perstDeassert p => Sys2Proof.Machine.execPerstDeassert p s
  | .functionLevelReset p => Sys2Proof.Machine.execFunctionLevelReset p s
  | .i3cEntdaa addr => Sys2Proof.Machine.execI3cEntdaa addr s
  | .pldmSensorRead x => Sys2Proof.Machine.execPldmSensorRead x s
  | .pldmFirmwareUpdate img bytes => Sys2Proof.Machine.execPldmFirmwareUpdate img bytes s
  | .pldmPollEvent => Sys2Proof.Machine.execPldmPollEvent s
  | .jtagInstruction j => Sys2Proof.Machine.execJtagInstruction j s
  | .promotionLatchReceive src dst ph => Sys2Proof.Machine.execPromotionLatchReceive src dst ph s
  | .groupLightRecheck g power => Sys2Proof.Machine.execGroupLightRecheck g power s
  | .refclkRestore n => Sys2Proof.Machine.execRefclkRestore n s
  | .slowclkRestore => Sys2Proof.Machine.execSlowclkRestore s
  | .powerStateEntered => Sys2Proof.Machine.execPowerStateEntered s
  | .stackTempBelow85 stack => Sys2Proof.Machine.execStackTempBelow85 stack s

end Sys2Proof.Machine
end

