-- ==== Sys2Proof/Machine/Idle.lean ====
section
/-!
DEFINITION. What a step does on an empty queue: one microsecond passes (R251, R253, R334, R365,
assumption 1).
-/

namespace Sys2Proof.Machine

/-- One microsecond of the fabric-time counter: it holds for what is left of a large correction
backward, else it runs with at most one nanosecond of slew (R253). -/
def tickTime (f : FabTime) : FabTime :=
  if f.behind > 0 then { f with t := (f.t + (1000 - f.behind)) % 2 ^ 64, behind := f.behind - 1000 }
  else if f.slew > 0 then { f with t := (f.t + 1001) % 2 ^ 64, slew := f.slew - 1 }
  else if f.slew < 0 then { f with t := (f.t + 999) % 2 ^ 64, slew := f.slew + 1 }
  else { f with t := (f.t + 1000) % 2 ^ 64 }

/-- Fabric time passes while the router, which keeps it, runs. -/
def tickFabric (s : State) : State := if performs s routerSlot then { s with ft := tickTime s.ft } else s

/-- The controllers issue what is queued for channels that are not held (R175, R406). -/
def issueAll (s : State) : State :=
  forEach (List.range 4) s (fun s d => if performs s (mgSlot d) then issueDie s d else s)

/-- The block with no command waiting: a microsecond passes for fabric time and for availability, the memory
controllers issue their queues, and the engines that work make progress. -/
def idle (s : State) : State :=
  let s := issueAll (countAvail (tickFabric { s with clock := s.clock + 1 }))
  let s := forEach (s.cports.map Prod.fst) s dmaMoves
  notePending (forEach (progressPages s) s progress)

end Sys2Proof.Machine
end

