-- ==== Sys2Proof/Safety.lean ====
section
/-!
DEFINITION. What counts as a safe step and a safe run of the block: no fault and no refusal; and the
shapes in which the statements say what a command does, which registers it is a write of, and what
every step keeps.
-/

namespace Sys2Proof

open Sys2Proof.Machine

/-- The outcome is a next state that satisfies `p`. -/
def GoesOn (o : Host.Outcome State Fault Refusal) (p : State → Prop) : Prop := ∃ t, o = .next t ∧ p t

/-- A run that stops neither with a fault nor with a refusal. -/
inductive SafeRun : State → State → Prop
  | refl (s : State) : SafeRun s s
  | step {s t u : State} : Machine.step s = .next t → SafeRun t u → SafeRun s u

/-- The command's own effect leads to exactly `u`, and nothing follows it. -/
def Ends (c : Instr) (s u : State) : Prop := exec c s = .next u

/-- The command's own effect leads to exactly `u`; what follows is `settle`: raised events are taken, host
commands that may start do. -/
def Settles (c : Instr) (s u : State) : Prop := exec c s = .next (settle u)

/-- Nothing is left to follow a command: no event is raised, no host command waits for its start or moves
data, no BAR4 read, no remote request and no store waits, no die has a running sequencer, one that waits to start, a
phase or a dispatched task, no full package reset is still to boot, and no engine has pending work or shows it. -/
structure Quiet (s : State) : Prop where
  due     : s.due = []
  started : ∀ k cp, (k, cp) ∈ s.cports → cp.cmds = []
  remote  : s.remote.waiting = []
  bars    : s.barWait = []
  stores  : s.posted = []
  boots   : ∀ r ∈ s.resets, r.scope = .full → r.wait = true ∨ r.booted = true
  idle    : ∀ d, d < 4 → (die s d).live = [] ∧ (seqOf s d).phases = [] ∧ seqRunning s d = false ∧
    (seqOf s d).wants = false
  work    : ∀ slot ∈ watchedPages s, mayPend s slot = false ∧ (tremorOf s slot).pend = false

/-- What every step keeps: memory and the register store are in their canonical forms. -/
def Inv (s : State) : Prop := memoryWf s = true ∧ keysUp s.regs = true

/-- A write that a block drops is counted, and its offset and requester are shown (R342). -/
def dropped (s : State) (off source : Nat) : State :=
  wg (wg (wg s solSlot regDrop (min (rg s solSlot regDrop + 1) (2 ^ 32 - 1)))
    solSlot regDropAddrOffset (off / 4)) solSlot regDropAddrSource source

/-- REG_DROP_ADDR.SOURCE of a requester (R342). -/
def sourceCode : Requester → Nat
  | .pcie0 => 0 | .pcie1 => 1 | .management => 2 | .testAccess => 3

/-- The commands that are a write of one block-specific register: its requester, page slot and offset. -/
def rowRegister : Instr → Option (Requester × Nat × Nat)
  | .lobeModeWrite r _ => some (r, 0, 0xA0)
  | .censusSnap r d _ => some (r, 0x400 + 0x400 * d.val, 0x88)
  | .censusClear r d => some (r, 0x400 + 0x400 * d.val, 0x88)
  | .seqStart r d _ => some (r, 0x401 + 0x400 * d.val, 0x80)
  | .seqStop r d _ => some (r, 0x401 + 0x400 * d.val, 0x80)
  | .digClear r d _ => some (r, 0x401 + 0x400 * d.val, 0xA0)
  | .jwCtlWrite r _ => some (r, 0, 0x160)
  | .memSplitWrite r _ => some (r, 0, 0xC0)
  | .mapoutReqWrite r _ => some (r, 0, 0xC8)
  | .oeRetry r o => some (r, 0x10C + 0x100 * (o.val / 2 % 2) + o.val % 2 + 2 * (o.val / 4), 0x84)
  | .jobDataWrite r _ => some (r, 3, 0x8C)
  | .rtDataWrite r _ => some (r, 3, 0x94)
  | .gqQuotaWrite r h _ => some (r, 0x101 + 0x100 * h.val, 0x88)
  | .queueEnable r h _ => some (r, 0x102 + 0x100 * h.val, 0x84)
  | .queueDisable r h _ => some (r, 0x102 + 0x100 * h.val, 0x84)
  | .portCfgWrite r p _ => some (r, 0x103 + 0x100 * p.val, 0xA0)
  | .ringCfgWrite r p _ => some (r, 0x103 + 0x100 * p.val, 0x90)
  | .ringHeadWrite r p _ => some (r, 0x103 + 0x100 * p.val, 0x94)
  | .resetReq r _ => some (r, 0, 0x110)
  | .powerReqP0 r => some (r, 4, 0x80)
  | .powerReqP2 r _ => some (r, 4, 0x80)
  | .powerReqP3 r => some (r, 4, 0x80)
  | .powerReqP4 r => some (r, 4, 0x80)
  | .mrExtend r _ => some (r, 9, 0x104)
  | .faultInject r _ => some (r, 1, 0xBC)
  | .logCapture r _ => some (r, 2, 0x84)
  | .segOpen r => some (r, 9, 0x110)
  | .segPeriodic r => some (r, 9, 0x110)
  | .segCheckpoint r => some (r, 9, 0x110)
  | .segClose r => some (r, 9, 0x110)
  | .segState r => some (r, 9, 0x110)
  | _ => none

end Sys2Proof
end

