-- ==== Sys2Proof/Certificates/Slice0/Obligations.lean ====
section
/-!
DEFINITION. The statements about the package.
-/

open Sys2Proof Sys2Proof.Machine

/-! ### The step and the whole machine -/

/-- A step takes the command at the front of the queue and answers what that command answers on the state
with the queue's rest. -/
def Obligations.StepRunsCommand : Prop :=
  ∀ (s : State) (c : Instr) (cs : List Instr),
    step { s with pending := c :: cs } = exec c { s with pending := cs }

/-- Every command completes from every state: the package reports errors by statuses and events, and none of
them stops it. -/
def Obligations.EveryCommandCompletes : Prop := ∀ (c : Instr) (s : State), ∃ t, exec c s = .next t

/-- The machine right after reset: nothing waits, memory is empty and in its canonical form, and registers read
as the spec's register tables give their reset values: of a tile page's header with its tremor registers,
MEM_SPLIT, RESET_REQ, FA_CTL, FAULT_QUIET, FT_CTL, HE_CTL, GEY_SLOTS, Q_CFG, Q_MEMBERS, RING_CFG,
ARITH_VER, STEAL_CTL, ROTATE_CTL, SEQ_CTL, MEM_CTL, CE_THRESH and SCRUB_CTL; and all of JTAG_ID but its
MANUF, which is a constant of the part (log entry 3). That reset is a running package on which nothing has been
written is the model's choice (log entries 2, 4 and 27). -/
def Obligations.ResetState : Prop :=
  let s := State.reset
  s.pending = [] ∧ s.mem = [] ∧ s.regs = [] ∧ s.log = [] ∧ s.resets = [] ∧ s.due = [] ∧ s.jobs = [] ∧ Inv s ∧
  readReg s .pcie0 0xD080 / 2 ^ 12 = 0x17404 ∧ readReg s .pcie0 0xD080 % 2 = 1 ∧
  ∀ x ∈ [(0x480010, 1), (0x480018, 0), (0x48001C, 0), (0x480028, 0), (0x48002C, 100000),
      (0x480030, 0), (0xC0, 0x08040408), (0x110, 0x40), (0x1080, 0x12), (0x1084, 10), (0x30A8, 1),
      (0xF080, 1),
      (0x101080, 24576 * 2 ^ 15), (0x102084, 0x08800000), (0x102088, 1), (0x103090, 0x40000000),
      (0x400080, 0x03000100), (0x4000A0, 2), (0x4000A8, 0x80000258), (0x401080, 0x418), (0x402080, 0x2001), (0x4020EC, 3),
      (0x4020F0, 0x80000018)],
    readReg s .pcie0 x.1 = x.2

/-- Every step keeps memory and the register store in their canonical forms. What an unlisted byte reads as
is log entry 2's. -/
def Obligations.StepKeepsForm : Prop :=
  ∀ s t : State, Inv s → step s = .next t → Inv t

/-- No command touches the queue of waiting commands, and the counter of the free values never falls, so
no free value is given twice (log entries 5 and 6).
The strap levels change at no command but the sampling at power-on and the loss of VAUX. -/
def Obligations.CommandsKeep : Prop :=
  (∀ (c : Instr) (s t : State), exec c s = .next t → t.pending = s.pending ∧ s.free ≤ t.free) ∧
  (∀ (c : Instr) (s t : State), exec c s = .next t →
     (∀ p, c ≠ .strapSample p) → c ≠ .vauxLoss → t.pins.straps = s.pins.straps)

/-- A command on a quiet package is followed by nothing. That what follows a command is taken at its end is
the model's choice (log entry 5). -/
def Obligations.QuietSettles : Prop := ∀ s : State, Quiet s → settle s = s

/-- A write of a block-specific register of a block that is off, in reset or fenced is dropped: it changes
REG_DROP and REG_DROP_ADDR alone, for every register with a row of its own. A write to an unassigned slot is
dropped and counted, and raises HI_BAD_ACCESS where a PCIe port made it; a read of one returns zero. A write of
a requester that does not reach the package (a management endpoint that is not served, a closed test port)
does nothing. That a write to an unassigned slot is counted, and a read of it raises nothing, is log entry 29;
that one that does not reach the package does nothing is log entry 26. -/
def Obligations.BlockDropsWrite : Prop :=
  (∀ (c : Instr) (s : State) (r : Requester) (slot o : Nat), rowRegister c = some (r, slot, o) →
    (reached s r = true → performs s slot = false →
      Ends c s (dropped s (slot * 4096 + o) (sourceCode r)) ∨
      Settles c s (dropped s (slot * 4096 + o) (sourceCode r))) ∧
    (reached s r = false → Ends c s s ∨ Settles c s s)) ∧
  (∀ (r : Requester) (off val set : Nat) (s : State),
    off < 0x3FF0000 → off % 4 = 0 → pgType (off / 4096) = 0 → reached s r = true →
    let d := dropped s off (sourceCode r)
    Settles (.registerWrite r .bar0 off 4 ⟨val, set⟩) s (match r with
      | .pcie0 => { d with due := s.due ++ [{ slot := 0x103, src := 0 }] }
      | .pcie1 => { d with due := s.due ++ [{ slot := 0x203, src := 0 }] }
      | _ => d) ∧
    Settles (.racRead r ⟨.bar0, off, 4⟩ set) s { s with resp := .value 0 }) ∧
  (∀ (p : Half) (off : Nat) (s : State), off < 0x3FF0000 → off % 4 = 0 → pgType (off / 4096) = 0 →
    Settles (.bar0BadAccess p true off 4) s
      { dropped s off p.val with due := s.due ++ [{ slot := 0x103 + 0x100 * p.val, src := 0 }] } ∧
    Settles (.bar0BadAccess p false off 4) s { s with resp := .value 0 })

/-! ### Register accesses -/

/-- Header writes of a page whose block takes accesses: a set bit clears its sticky bit, the mask takes the
bits of sources that the page has, a window outside 10 to 60,000,000 is ignored, and the read-only
offsets ignore writes; TREMOR_EN takes its bit, and a class nibble of a source that the page has takes a
class, and no reserved code. A sticky bit whose source is raised in the cycle of the write stays set: its
event follows the write. Where the page's block is off, in reset or fenced, or the domain of its header is
off or in reset, a header write changes nothing, and it is not counted (log entry 29). TREMOR_EN of a page
without a tremor counter keeps its value (log entry 136). -/
def Obligations.HeaderWrites : Prop :=
  ∀ (r : Requester) (slot val set : Nat) (s : State),
    slot < 0x3FF0 → pgType slot ≠ 0 → val < 2 ^ 32 → reached s r = true →
    let w (o : Nat) : Instr := .registerWrite r .bar0 (slot * 4096 + o) 4 ⟨val, set⟩
    let old := rg s slot hdrSticky
    let ty := pgType slot
    (headerRuns s slot = true →
      Settles (w 0x18) s
        { wg s slot hdrSticky (old - (old &&& val)) with
          due := s.due ++ ((List.range 16).filter (fun n => bit set n && hasSource ty n)).map
            (fun n => { slot := slot, src := n }) } ∧
      Settles (w 0x1C) s (wg s slot hdrMask (val &&& sourceMask ty)) ∧
      Settles (w 0x2C) s
        (if pgTremor ty ∧ 10 ≤ val ∧ val ≤ 60000000 then wg s slot (hdrWindow ty) val else s) ∧
      Settles (w 0x10) s (if pgTremor ty then wg s slot hdrTremorEn (val % 2) else s) ∧
      (∀ k < 2, ∃ u, Settles (w (0x20 + 4 * k)) s u ∧ u = { s with regs := u.regs } ∧
        ∀ n < 16, rg u slot (hdrClass ty n) =
          (if n / 8 = k ∧ hasSource ty n ∧ val / 2 ^ (4 * (n % 8)) % 16 ≤ 4
           then val / 2 ^ (4 * (n % 8)) % 16 else rg s slot (hdrClass ty n))) ∧
      (∀ o, o ∈ [0x00, 0x04, 0x08, 0x14, 0x28, 0x30] → Settles (w o) s s)) ∧
    (headerRuns s slot = false → ∀ o < 0x80, o % 4 = 0 → Settles (w o) s s)

/-- A write of BAR2 of any natural width, aligned to it, changes exactly its bytes of DESC of its command port;
any other write of a command port page is ignored, and a read of it that takes in no byte of SUBMIT returns
zero. A read of a part of SUBMIT returns all ones, submits nothing and raises HI_BAD_ACCESS. The size of a
port's BAR4 is taken from 1 GiB to 512 TiB, and read back; its code, and that a size outside those is ignored,
are log entry 115's. -/
def Obligations.DescTakesBytes : Prop :=
  ∀ (r : Requester) (p : Half) (n o val set : Nat) (k : Fin 7) (s : State),
    n < 256 → o < 4096 →
    let c : Instr := .registerWrite r (.bar2 p) (n * 4096 + o) (2 ^ k.val) ⟨val, set⟩
    let read : Instr := .racRead r ⟨.bar2 p, n * 4096 + o, 2 ^ k.val⟩ set
    (domainOn s (58 + 4 * p.val) = true → o % 2 ^ k.val = 0 → o + 2 ^ k.val ≤ 64 →
      Settles c s (updCPort s p n (fun x =>
        { x with desc := setBits x.desc (8 * o) (8 * 2 ^ k.val) val }))) ∧
    (domainOn s (58 + 4 * p.val) = false ∨ o % 2 ^ k.val ≠ 0 ∨ 64 < o + 2 ^ k.val → Settles c s s) ∧
    (o + 2 ^ k.val ≤ 0x40 ∨ 0x48 ≤ o → Ends read s { s with resp := .value 0 }) ∧
    (o ≠ 0x40 → o < 0x48 → 0x40 < o + 2 ^ k.val → Settles read s { s with
      resp := .value (2 ^ (8 * 2 ^ k.val) - 1)
      due := s.due ++ [{ slot := 0x103 + 0x100 * p.val, src := 0 }] }) ∧
    (10 ≤ val → val ≤ 29 → ∃ u, Settles (.registerWrite r (.bar4Size p) o 4 ⟨val, set⟩) s u ∧
      bar4Code u p = val ∧ u = { s with bar4Size := u.bar4Size }) ∧
    (val < 10 ∨ 29 < val → Settles (.registerWrite r (.bar4Size p) o 4 ⟨val, set⟩) s s) ∧
    Ends (.racRead r ⟨.bar4Size p, o, 4⟩ set) s { s with resp := .value (bar4Code s p) }

/-- An access of BAR0 that is not 4 bytes wide or not aligned: a write is ignored, a read returns all
ones, and a port's access raises its HI_BAD_ACCESS, whose default class is Corrected. -/
def Obligations.AccessesRefused : Prop :=
  ∀ (p : Half) (off width val set : Nat) (s : State),
    off < 0x3FF0000 → (width ≠ 4 ∨ off % 4 ≠ 0) →
    let e : Event := { slot := 0x103 + 0x100 * p.val, src := 0 }
    let r : Requester := if p = 0 then .pcie0 else .pcie1
    classOf State.reset e.slot e.src = 0 ∧
    Settles (.registerWrite r .bar0 off width ⟨val, set⟩) s { s with due := s.due ++ [e] } ∧
    Settles (.racRead r ⟨.bar0, off, width⟩ set) s
      { s with resp := .value (2 ^ (8 * width) - 1), due := s.due ++ [e] } ∧
    Settles (.bar0BadAccess p true off width) s { s with due := s.due ++ [e] } ∧
    Settles (.bar0BadAccess p false off width) s
      { s with resp := .value (2 ^ (8 * width) - 1), due := s.due ++ [e] }

/-- A read of a register of a block that takes accesses sets every RAC field of it to its reset value, and the
events that come in the cycle of the read are counted on from there, each in its own field. Of REG_DROP and
of a die's CE_COUNT, UE_COUNT and TURN_COUNT the read returns the count and changes nothing else.
A read of FT_LO returns the low word of fabric time and latches its high word into FT_HI. What a meter has measured before its read is free (log entry 9); a block that a
read wakes is on at once (log entry 44). -/
def Obligations.ReadsWithEffects : Prop :=
  (∀ (r : Requester) (slot o k : Nat) (s : State), slot < 0x3FF0 → pgType slot ≠ 0 → performs s slot = true →
     reached s r = true → 0x80 ≤ o → o < 4096 → o % 4 = 0 →
     ∃ u, Settles (.racRead r ⟨.bar0, slot * 4096 + o, 4⟩ k) s u ∧
       ∀ f ∈ blockFields (pgType slot), f.off = o → f.acc = .rac →
         rg u slot f = min (f.reset + k / 2 ^ f.lo % 2 ^ f.w) (2 ^ f.w - 1)) ∧
  (∀ (r : Requester) (k : Nat) (d : Die) (s : State), k < 2 ^ 32 → reached s r = true →
     let one (slot : Nat) (f : Fld) : Prop :=
       performs s slot = true →
         ∃ u, Settles (.racRead r ⟨.bar0, slot * 4096 + f.off, 4⟩ k) s u ∧
           u.resp = .value (rg s slot f % 2 ^ 32) ∧ rg u slot f = k ∧
           (∀ a g, fkey a g ≠ fkey slot f → rg u a g = rg s a g) ∧
           u = { s with regs := u.regs, resp := u.resp }
     one 0 regDrop ∧ one (mgSlot d) ceCount ∧ one (mgSlot d) ueCount ∧ one (mgSlot d) turnCount) ∧
  (∀ (r : Requester) (s : State), performs s 3 = true → reached s r = true →
     Settles (.ftLoRead r) s
       { wg s 3 ftHi (s.ft.t / 2 ^ 32) with resp := .value (s.ft.t % 2 ^ 32) })

/-! ### The memory system -/

/-- A write of JW_CTL binds the selected entry, refuses to and sets REJ, or releases it.
MEM_SPLIT takes both its fields or, where they exceed the 16 units together, neither; MAPOUT_REQ takes
its request. Neither changes anything else. That a refused write of JW_CTL changes nothing but REJ,
and what JOB holds after a release, are log entry 90. -/
def Obligations.MemoryTables : Prop :=
  (∀ (r : Requester) (val : BitVec 32) (s : State), performs s 0 = true → reached s r = true →
     let k := rg s 0 jwSel
     let e := mget {} s.jw k
     let job := val.toNat % 4096
     let bound : Jw := { e with valid := true, job := job }
     let freed : Jw := { e with valid := false, job := if e.valid then e.job else job }
     let clash := ∃ i f, (i, f) ∈ s.jw ∧ f.valid = true ∧ f.job ≠ job ∧ jwClash (pairedForm s) e f = true
     let refused := e.valid = true ∨ job = 0 ∨ e.units = 0 ∨ 16777216 < e.units ∨ jwInDomain e = false ∨ clash
     (val.getLsbD 31 = true → refused → Ends (.jwCtlWrite r val) s { s with jwRej := true }) ∧
     (val.getLsbD 31 = true → ¬ refused →
       Ends (.jwCtlWrite r val) s
         { s with jwRej := false, jw := mset {} s.jw k bound }) ∧
     (val.getLsbD 31 = false →
       Ends (.jwCtlWrite r val) s
         { s with jwRej := false, jw := mset {} s.jw k freed })) ∧
  (∀ (r : Requester) (val : BitVec 32) (s : State), performs s 0 = true → reached s r = true →
     let pkg := val.toNat % 32
     let lobe := val.toNat / 256 % 32
     (16 < pkg + lobe → Ends (.memSplitWrite r val) s s) ∧
     (pkg + lobe ≤ 16 → ∃ u, Ends (.memSplitWrite r val) s u ∧
       rg u 0 memSplitNextPkg = pkg ∧ rg u 0 memSplitNextLobe = lobe ∧
       rg u 0 memSplitCurPkg = rg s 0 memSplitCurPkg ∧ rg u 0 memSplitCurLobe = rg s 0 memSplitCurLobe ∧
       u = { s with regs := u.regs }) ∧
     (∃ u, Ends (.mapoutReqWrite r val) s u ∧ rg u 0 mapoutReqPending = b2n (val.getLsbD 31) ∧
       rg u 0 mapoutReqChannel = val.toNat % 1024 ∧ u = { s with regs := u.regs }))

/-- A sector read changes no byte of memory while its sectors hold at most two symbols in error (what more
than two give is free, log entry 118). By a host DMA, BAR4, a remote access or a task's narrow path it reads
one sector: a clean one reads clean, one symbol is corrected, counted in CE_COUNT and reported as MEM_CE for
the job whose window holds the address, two are detected, counted in UE_COUNT, reported as MEM_UE and spoil
the task that received them. A task's main path reads all eight sectors of the granule. A read of a held
channel waits behind the hold, unless the hold buffer has its sectors. Patrol scrub reads a sector of any live
channel: a corrected one is counted and written back, an uncorrectable one is MEM_UE_SCRUB without a job; it
pauses for a held channel and while it is off. A write to a held channel enters the hold buffer, where reads see
it, while the buffer has room and no write waits; then it waits behind the hold. That a task which has received
a bad sector is spoiled at its read is log entry 65, that bytes in the hold buffer stand in memory at once 66, that a
reader which cannot read leaves the state unchanged 26. -/
def Obligations.SectorsAreRead : Prop :=
  (∀ (a ch cb d : Nat) (by_ : Reader) (sy : List Nat) (s : State), sectorAt s a = some (ch, cb, d) →
     let c : Instr := .sectorRead a by_ sy
     (canRead s by_ = false → Settles c s s) ∧
     (∀ h, canRead s by_ = true → (die s d).mem.hold = some h → h.chan = ch →
       ((sectorsRead by_ a).all (inBuffer h) = true → Settles c s s) ∧
       ((sectorsRead by_ a).all (inBuffer h) = false → ∃ u, Settles c s u ∧
         (die u d).mem.hold = some { h with
           queue := h.queue ++ [{ addr := a, reader := some by_, bytes := [], symbols := sy, since := s.clock }] } ∧
         u = { s with dies := u.dies })) ∧
     (∀ k, canRead s by_ = true → heldChan s d ≠ some ch → sy = [k] → k ≤ 2 →
       (∀ e c t, by_ ≠ .task e c t false) → ∃ u, Settles c s u ∧
       (∀ x, rdByte u x = rdByte s x) ∧ errOf u a = k ∧
       (k < 2 → u.tiles = s.tiles) ∧ (k = 0 → u.due = s.due) ∧
       (k = 1 → rg u (mgSlot d) ceCount = min (rg s (mgSlot d) ceCount + 1) (2 ^ 32 - 1) ∧
         ∃ es, u.due = s.due ++ memEvent d srcMemCe (jobAt s (sectorOf a)) a ch :: es) ∧
       (k = 2 → rg u (mgSlot d) ueCount = min (rg s (mgSlot d) ueCount + 1) (2 ^ 32 - 1) ∧
         (∃ es, u.due = s.due ++ es ++ [memEvent d srcMemUe (jobAt s (sectorOf a)) a ch]) ∧
         (∀ e c t, by_ = .task e c t true → ∀ r, (tileOf u e c t).task = some r → r.spoiled = true))) ∧
     (∀ (e : Die) (cl : Cluster) (ti : TileIx), by_ = .task e cl ti false → canRead s by_ = true →
       heldChan s d ≠ some ch → sy.length = 8 → (∀ k ∈ sy, k ≤ 2) → ∃ u, Settles c s u ∧
       (∀ x, rdByte u x = rdByte s x) ∧
       (∀ i, (h : i < sy.length) → errOf u (a / 256 * 256 + 32 * i) = sy[i]) ∧
       rg u (mgSlot d) ceCount = min (rg s (mgSlot d) ceCount + sy.count 1) (2 ^ 32 - 1) ∧
       rg u (mgSlot d) ueCount = min (rg s (mgSlot d) ueCount + sy.count 2) (2 ^ 32 - 1) ∧
       ((∀ k ∈ sy, k = 0) → u.due = s.due ∧ u.tiles = s.tiles) ∧
       (2 ∈ sy → ∀ r, (tileOf u e cl ti).task = some r → r.spoiled = true))) ∧
  (∀ (a ch cb d k : Nat) (s : State), scrubAt s a = some (ch, cb, d) →
     (heldChan s d = some ch ∨ rg s (mgSlot d) scrubCtlEn ≠ 1 → Settles (.scrubRead a k) s s) ∧
     (heldChan s d ≠ some ch → rg s (mgSlot d) scrubCtlEn = 1 → k ≤ 2 → ∃ u, Settles (.scrubRead a k) s u ∧
       (∀ x, rdByte u x = rdByte s x) ∧ errOf u a = (if k = 2 then 2 else 0) ∧
       (k = 1 → rg u (mgSlot d) ceCount = min (rg s (mgSlot d) ceCount + 1) (2 ^ 32 - 1) ∧
         ∃ es, u.due = s.due ++ memEvent d srcMemCe (jobAt s a) a ch :: es) ∧
       (k = 2 → rg u (mgSlot d) ueCount = min (rg s (mgSlot d) ueCount + 1) (2 ^ 32 - 1) ∧
         ∃ es, u.due = s.due ++ es ++ [memEvent d srcMemUeScrub 0 a ch]))) ∧
  (∀ (a ch cb d mask k : Nat) (data : List Byte) (h : Hold) (s : State),
     sectorAt s a = some (ch, cb, d) → k ≤ 2 → (die s d).mem.hold = some h → h.chan = ch →
     let c : Instr := .sectorWrite a ⟨data, mask⟩ k
     let ps := maskedBytes a data mask
     let x : Access := { addr := a, reader := none, bytes := ps, symbols := [k], since := s.clock }
     let waits := h.queue.any (fun y => y.reader.isNone) = true ∨ 262144 < bufferBytes h + ps.length
     ps ≠ [] →
     (waits → ∃ u, Settles c s u ∧ u = { s with dies := u.dies } ∧
       (die u d).mem.hold = some { h with queue := h.queue ++ [x] }) ∧
     (¬ waits → ∃ u, Settles c s u ∧ u = { s with dies := u.dies, mem := u.mem } ∧
       (ps.length = 32 ∨ k < 2 →
         (∀ i, i < data.length → a % 32 + i < 32 → bit mask i = true → rdByte u (a + i) = data.getD i 0) ∧
         (∀ x, x ∉ ps.map Prod.fst → rdByte u x = rdByte s x)) ∧
       (k = 2 → ps.length < 32 → u.mem = s.mem) ∧
       (die u d).mem.hold = some { h with
         buffer := h.buffer ++ [{ x with symbols := [if ps.length = 32 then 0 else k] }] }))

/-- A write inside one sector, of the bytes that its mask names: a whole sector takes its new data and reads
clean, whatever was there; a part is read first, corrected where one symbol is in error, and where that
read finds the sector uncorrectable it is left unchanged and MEM_UE is raised. No other byte changes. -/
def Obligations.SectorWrites : Prop :=
  ∀ (a ch cb d mask k : Nat) (data : List Byte) (s : State),
    sectorAt s a = some (ch, cb, d) → heldChan s d ≠ some ch → k ≤ 2 →
    let c : Instr := .sectorWrite a ⟨data, mask⟩ k
    let ps := maskedBytes a data mask
    (ps = [] → Settles c s s) ∧
    (ps ≠ [] →
      ∃ u, Settles c s u ∧
        (ps.length = 32 ∨ k < 2 → errOf u a = 0 ∧
          (∀ i, i < data.length → a % 32 + i < 32 → bit mask i = true → rdByte u (a + i) = data.getD i 0) ∧
          (∀ x, x ∉ ps.map Prod.fst → rdByte u x = rdByte s x)) ∧
        (ps.length = 32 ∨ k = 0 → u.due = s.due) ∧
        (ps.length < 32 → k = 1 → rg u (mgSlot d) ceCount = min (rg s (mgSlot d) ceCount + 1) (2 ^ 32 - 1)) ∧
        (ps.length < 32 → k = 2 →
          (∀ x, rdByte u x = rdByte s x) ∧ errOf u a = 2 ∧
          rg u (mgSlot d) ueCount = min (rg s (mgSlot d) ueCount + 1) (2 ^ 32 - 1) ∧
          ∃ es, u.due = s.due ++ es ++ [memEvent d srcMemUe (jobAt s a) a ch]))

/-- Refresh goes to the next of a channel's 64 banks; a calibration step adds the stack's corrections to
STACK_CE_COUNT and, where the drift asks for it, queues a retrain of the channel, and no periodic one runs while
CAL_CTL.EN is 0; a stack that has cooled
returns to the nominal rate.
A die holds one channel at a time, the one whose request came first; a retrain that passes ends the hold,
one that fails is tried once more and, if it fails again, leaves a readable channel in service with
MEM_RETRAIN, an unreadable one with MEM_CH_FAIL and its lobe fenced; a soft repair of a row without an uncorrectable sector has repaired it at the end of its hold;
a test's hold ends with the test (log entry 37). A release without a hold leaves the state unchanged (log entry 26),
and what the end of a hold finds in what waited is log entry 66's. -/
def Obligations.ChannelsAreKept : Prop :=
  (∀ (ch : Fin 1024) (n : Nat) (k : Fin 16) (s : State),
     let d := ch.val / 256
     (ch.val ∉ s.outDie → performs s (mgSlot d) = true →
       Ends (.bankRefresh ch) s
         { s with bankNext := mset 0 s.bankNext ch ((mget 0 s.bankNext ch + 1) % 64) } ∧
       ∀ x : CalStep, (x.periodic = true → rg s (chanPhy ch) calCtlEn ≠ 1 → Ends (.memCalibration ch n x) s s) ∧
       (x.periodic = false ∨ rg s (chanPhy ch) calCtlEn = 1 → ∃ u, Ends (.memCalibration ch n x) s u ∧
         rg u (mgSlot d) stackCeCount = min (rg s (mgSlot d) stackCeCount + n) (2 ^ 32 - 1) ∧
         u = { s with regs := u.regs, dies := u.dies } ∧
         (x.retrain = false → u.dies = s.dies) ∧
         (x.retrain = true → (ch.val, HoldKind.retrain) ∈ (die u d).mem.waiting ∧
           (∀ y ∈ (die s d).mem.waiting, y ∈ (die u d).mem.waiting)))) ∧
     Ends (.stackTempBelow85 k) s { s with hot := mset 0 s.hot k 0 }) ∧
  (∀ (d : Die) (s : State), performs s (mgSlot d) = true →
     let m := (die s d).mem
     (∀ ch k rest, m.hold = none → m.waiting = (ch, k) :: rest → ch < 1024 →
       ∃ u, Ends (.channelHoldStart d) s u ∧
         (die u d).mem = { m with hold := some { chan := ch, kind := k }, waiting := rest } ∧
         rg u (mgSlot d) holdStatusActive = 1 ∧ rg u (mgSlot d) holdStatusChannel = ch ∧
         rg u (mgSlot d) holdStatusHolds = min (rg s (mgSlot d) holdStatusHolds + 1) 65535 ∧
         u = { s with regs := u.regs, dies := u.dies }) ∧
     (∀ h, m.hold = some h → Ends (.channelHoldStart d) s s) ∧
     (m.hold = none → ∀ pass readable, Settles (.channelHoldRelease d pass readable) s s) ∧
     (∀ h pass readable, m.hold = some h →
       let freed (u : State) : Prop := (die u d).mem.hold = none ∧ rg u (mgSlot d) holdStatusActive = 0
       let still := h.buffer = [] ∧ h.queue = [] ∧ mget [] m.queue h.chan = []
       (h.kind = .test → Settles (.channelHoldRelease d pass readable) s s) ∧
       (h.kind = .retrain →
         (∃ u, Settles (.channelHoldRelease d true readable) s u ∧ freed u ∧
           (still → u = { s with regs := u.regs, dies := u.dies })) ∧
         (h.tries = 0 → ∃ u, Settles (.channelHoldRelease d false readable) s u ∧
           (die u d).mem.hold = some { h with tries := 1 } ∧ u = { s with dies := u.dies }) ∧
         (h.tries ≠ 0 → ∃ u es, Settles (.channelHoldRelease d false true) s u ∧ freed u ∧
           u.due = s.due ++ es ++ [{ slot := mgSlot d, src := srcMemRetrain, part := h.chan / 64 % 4,
                                     detail := h.chan * 2 ^ 64 }] ∧ (still → es = [])) ∧
         (h.tries ≠ 0 → ∃ v es, freed v ∧ h.chan ∈ (die v d).mem.failing ∧ (still → es = []) ∧
           v.due = s.due ++ es ++ [{ slot := mgSlot d, src := srcMemChFail, part := h.chan / 64 % 4,
                                     detail := h.chan * 2 ^ 64 }] ∧
           let w := takeEvents v
           Settles (.channelHoldRelease d false false) s
             (if lobeFenced w (d.val / 2) ∨ lobeInReset w (d.val / 2) then w
              else fenceLobe w (if d.val < 2 then 0 else 1)))) ∧
       (∀ row, h.kind = .softRepair row → ∃ u, Settles (.channelHoldRelease d pass readable) s u ∧ freed u ∧
         ((rowErrs s h.chan row).all (fun x => decide (x.2 < 2)) = true →
           (h.chan, row) ∈ (die u d).mem.soft))))

/-! ### Tiles, clusters and the census -/

/-- A dispatched task is read, numbered and listed with the tasks that it depends on, which are those that were
dispatched before it, precede it and conflict with it. One that depends on a task that has not completed, or has
ended in an uncommitted attempt of an earlier phase, is held and counted in TASK_HELD; any other enters the tail
of the queue of its HOME cluster where that has room. Nothing is dispatched while what it reads is held. Which
ended tasks hold another is log entry 16, that footprints are those of the dispatch 96, the reads of a held channel
66, and that a die which dispatches nothing is left as it is 26. -/
def Obligations.TaskDispatches : Prop :=
  (∀ (d : Die) (s : State), dieRuns s d = false ∨ mayDispatch s d = false ∨ dispatchPhase s d = none →
    Ends (.taskDispatch d) s s) ∧
  (∀ (d : Die) (ph : Nat) (s : State),
    dieRuns s d = true → mayDispatch s d = true → dispatchPhase s d = some ph →
    let reads := dispatchReads s d ph
    let x := checkDie s d reads
    let t := checkedTask x d (if phType (phaseOf x d ph).desc = 6 then nextPiece x d ph else nextTask x d ph)
    let others := (die x d).live.filter (fun u => u.id ≠ t.id)
    let waits := (others ++ [t]).any (holdsBack t)
    let home := mapPhys x d t.home
    (waitsDie s d reads = true → Ends (.taskDispatch d) s s) ∧
    (waitsDie s d reads = false →
      t.deps = ((die x d).live.filter (fun u => precedes u t && conflict t u)).map LiveTask.id ∧
      ∃ u, Settles (.taskDispatch d) s u ∧ (die u d).nextId = max (die x d).nextId (t.id + 1) ∧
        phaseOf u d ph = { phaseOf x d ph with next := (phaseOf x d ph).next + 1, last := some t.index } ∧
        u.mem = x.mem ∧ u.due = x.due ∧ u.census = x.census ∧
        (∀ k, (mget {} u.tiles k).task = (mget {} x.tiles k).task) ∧
        (waits = true → (die u d).live = others ++ [t] ∧
          rg u (dcSlot d) taskHeld = min (rg x (dcSlot d) taskHeld + 1) (2 ^ 32 - 1) ∧
          u = { x with dies := u.dies, regs := u.regs, tremor := u.tremor }) ∧
        (waits = false → hasRoom x d t = true →
          (die u d).live = others ++ [{ t with st := .queued }] ∧
          queueOf u d home = queueOf x d home ++ [t.id] ∧
          ∀ k, k ≠ d.val * 33 + home → mget [] u.queues k = mget [] x.queues k) ∧
        (waits = false → hasRoom x d t = false →
          (die u d).live = others ++ [t] ∧ u = { x with dies := u.dies, tremor := u.tremor })))

/-- An idle tile takes the head of the queue that its cluster empties in a rotation; where there is none, the head of
its own queue; with that empty it steals the tail of the nearest queue that is not, which counts in TASK_STOLEN.
The task that it starts has its tensor descriptors read, is checked and run, its narrow path as NARROW_EN stands;
one with a bad descriptor ends MALFORMED with TASK_MALFORMED for its job, one outside its job's windows ends with
WINDOW, and one that a bad sector reaches is spoiled. A tile that cannot read them yet, or may not take a task,
takes none. That SEQ_PHASE_FAIL alone is raised after WINDOW is log entry 47, that a spoiled task never completes 65,
that a tile which may not take a task is left as it is 26. -/
def Obligations.TileTakesTask : Prop :=
  (∀ (d : Die) (c : Cluster) (t : TileIx) (s : State),
    tileIdle s d c t = false ∨ jobHeld s d = true ∨ takeWaits s d c = true → Ends (.taskTake d c t) s s) ∧
  (∀ (d : Die) (c : Cluster) (t : TileIx) (id : Nat) (k : LiveTask) (v : Nat) (rest : List Nat) (s : State),
    tileIdle s d c t = true → jobHeld s d = false → takeWaits s d c = false → liveOfId s d id = some k →
    (outgoingFor s d c = some v ∧ queueOf s d v = id :: rest ∨
     (∀ o, outgoingFor s d c = some o → queueOf s d o = []) ∧
       (v = c.val ∧ queueOf s d c = id :: rest ∨
        v ≠ c.val ∧ queueOf s d c = [] ∧ victimOf s d c = some v ∧ queueOf s d v = rest ++ [id])) →
    let q := retire (setQueue s d v rest) (clusterSlot d v)
    let w := if v = c.val then q
      else wg q (dcSlot d) taskStolen (min (rg s (dcSlot d) taskStolen + 1) (2 ^ taskStolen.w - 1))
    let y := if k.piece.isSome then (w, none)
      else checkErrs w [.task d c t false, .task d c t true] (rangeErrs w d (tdRanges k))
    let x := y.1
    let tds := if k.piece.isSome then [] else readTds x d k
    let valid := k.piece.isSome ∨ taskValid k tds = true
    let narrowEn := rgB x (mgSlot d) memCtlNarrowEn
    let run : RunTask :=
      { id := k.id, tds := tds, spoiled := y.2.isSome
        narrow := tds.map (fun z => (z.map (takesNarrow narrowEn)).getD false)
        adder := narrowEn && usesAdd tds }
    (y.2.isSome ∨ valid ∧ liveWindowsOk x d k tds = true →
      ∃ u, Settles (.taskTake d c t) s u ∧ u = { x with dies := u.dies, tiles := u.tiles, free := u.free } ∧
        tileOf u d c t = { tileOf x d c t with task := some run, pad := (tileOf u d c t).pad } ∧
        (∀ n, n ≠ tileKey d c t → mget {} u.tiles n = mget {} x.tiles n) ∧
        queueOf u d v = rest ∧
        (die u d).live = updFirst (fun x => x.id = k.id)
          (fun x => { x with st := .running (16 * c.val + t.val) }) (die x d).live) ∧
    (y.2 = none → ¬ valid → Settles (.taskTake d c t) s
      (raise (endBadTask x d k 2) { slot := dcSlot d, src := 0, job := (seqOf x d).job })) ∧
    (y.2 = none → valid → liveWindowsOk x d k tds = false →
      Settles (.taskTake d c t) s (endBadTask x d k 3)))

/-- A task that is spoiled, whose tile does not run or that waits for a held channel or an edge goes on later. Any
other reads its sectors and, where none is
uncorrectable, completes: the bytes it comes to become visible, BOX_DROP, TA_IDX_CLAMP and TA_WR_CLAMP count,
its phase takes its drops, its latch and its digest, its status word is DONE, or DONE_DROPS with TASK_BOX_DROP
raised, the tile is free, and what follows in its phase follows. Where a sector that it reads is uncorrectable
it does not complete, and is spoiled. Waiting for a held channel is log entry 66, for an edge 133, that a sector which
a sector read of the tile has reported is not reported again 65. -/
def Obligations.TaskCompletes : Prop :=
  (∀ (d : Die) (c : Cluster) (t : TileIx) (r : RunTask) (k : LiveTask) (s : State),
    (tileOf s d c t).task = some r → liveOfId s d r.id = some k →
    taskRuns s d c t r = false ∨ taskWaits s d k r = true → Ends (.taskComplete d c t) s s) ∧
  (∀ (d : Die) (c : Cluster) (t : TileIx) (r : RunTask) (k : LiveTask) (s x : State) (bad : Bool),
    (tileOf s d c t).task = some r → liveOfId s d r.id = some k → taskRuns s d c t r = true →
    taskWaits s d k r = false → taskRead s d c t k r = (x, bad) →
    let o := taskResult x d k r.tds
    let z := forEach o.stores x (fun s m => writeMap s d m)
    let trig := lyTrig (phaseOf x d k.phase).entry
    let counts (y : State) (f : Fld) (n : Nat) : Prop :=
      rg y (dcSlot d) f = min (rg z (dcSlot d) f + n) (2 ^ f.w - 1)
    (bad = true → ∃ u, Settles (.taskComplete d c t) s u ∧ (∀ r, (tileOf u d c t).task = some r → r.spoiled = true) ∧
      u.mem = x.mem ∧ u.dies = x.dies ∧ u.regs = x.regs) ∧
    (bad = false → ∃ v w y : State, Settles (.taskComplete d c t) s (afterTask (endLive v d k) d k.phase) ∧
      (tileOf v d c t).task = none ∧
      v = taskProgress (dropTask (if o.drops = 0 then w
        else raise w { slot := dcSlot d, src := 1, job := (seqOf w d).job }) d c t) d c t r ∧
      w = writeTaskStatus y d k (if o.drops = 0 then 0 else 1) o.drops ∧
      y.mem = z.mem ∧ counts y boxDrop o.drops ∧ counts y taIdxClamp o.idx ∧ counts y taWrClamp o.clamps ∧
      phaseOf y d k.phase = { phaseOf z d k.phase with
        drops := (phaseOf z d k.phase).drops + o.drops
        latch := (phaseOf z d k.phase).latch || setsLatch trig o
        digest := ((phaseOf z d k.phase).digest + digestOf x d o.stores) % 2 ^ 128 }))

/-- A tile that finds nothing to take gates its clock, and a gated one restarts once an enqueue on its cluster
has demanded it, whether the entry is still there or not. A group whose three clusters have no task and no
queue entry, and no spare, is power-gated; with every group gated and no task the package goes from P0 to P1.
Wakes are over one at
a time, in order of demand: a waking group becomes ready when it is its turn. What an event out of its turn does is
log entry 26, the entry into P1 while a group holds a spare 68, and the order of demands within a microsecond of the
model's clock 150. -/
def Obligations.IdleTilesGate : Prop :=
  (∀ (d : Die) (c : Cluster) (t : TileIx) (s : State),
     let x := tileOf s d c t
     (tileIdle s d c t = true → workFor s d c = none →
       Ends (.tileClockGate d c t) s (setTile s d c t { x with gated := true, restart := false })) ∧
     (x.gated = true → x.restart = true → clusterServes s d c = true →
       Ends (.tileRestart d c t) s (setTile s d c t { x with gated := false, restart := false })) ∧
     (x.gated = false ∨ x.restart = false → Ends (.tileRestart d c t) s s)) ∧
  (∀ (d : Die) (c : Nat) (s : State) (t : LiveTask) (ti : TileIx), mapPhys s d t.home = c →
     (tileOf s d c ti).gated = true → (tileOf (enqueue s d t) d c ti).restart = true) ∧
  (∀ (d : Die) (g : Group) (s : State),
     (nextReady s = some (d.val * 11 + g.val) → ∃ u, Ends (.clusterGroupReady d g) s u ∧
       u = { s with waking := mdel s.waking (d.val * 11 + g.val), wakeTurn := u.wakeTurn }) ∧
     (nextReady s ≠ some (d.val * 11 + g.val) → Ends (.clusterGroupReady d g) s s) ∧
     (∀ t, performs s (dpSlot d) = true → (d.val * 11 + g.val, t) ∈ s.waking →
       (∀ k v, (k, v) ∈ s.waking → k ≠ d.val * 11 + g.val → t < v) → nextReady s = some (d.val * 11 + g.val)) ∧
     (performs s (dpSlot d) = true → isGated s d g = false → isWaking s d g = false →
       (∀ k < 3, clusterQuiet s d (3 * g.val + k) = true) →
       let u := wg s (dpSlot d) groupGated (setBits (rg s (dpSlot d) groupGated) g 1 1)
       Ends (.clusterGroupGate d g) s
         (if rg s 4 pwrStateCur = 0 ∧ allGated u = true ∧ noTask u = true then wg u 4 pwrStateCur 1 else u)))

/-- A rotation gives the logical index of the cluster that has served longest to the tested spare; when the
outgoing cluster has emptied its queue and its tiles, it becomes the spare. A passed online test makes
the spare usable and counts, a failed one leaves the die without one and raises CLUSTER_NO_SPARE. A CLUSTER test of
the spare preempts its online test and keeps it out of a rotation. What SPARE reads in between is log entry 145. -/
def Obligations.SpareRotates : Prop :=
  ∀ (d : Die) (s : State), performs s (dcSlot d) = true →
    let inc := spareOf s d
    (∀ out l, (die s d).rot = none → (die s d).spareTested = true → inc ≠ 0x3F →
      underTest s d inc = false → rg s (dcSlot d) rotateCtlEn = 1 → longestServing s d = some out →
      (List.range 32).find? (fun l => mapPhys s d l = out) = some l →
      ∃ u, Ends (.rotationStart d) s u ∧ (die u d).rot = some ⟨inc, out, l⟩ ∧
        (die u d).spareTested = false ∧ rg u (dcSlot d) spareStatusRotState = 1 ∧
        u.queues = s.queues ∧ u.mem = s.mem ∧
        (∀ k, (mget {} u.tiles k).task = (mget {} s.tiles k).task) ∧
        (queueOf s d out = [] → u = { s with regs := u.regs, dies := u.dies, served := u.served })) ∧
    (underTest s d inc = true → Ends (.rotationStart d) s s ∧
      ∀ pass, Ends (.onlineTestPassEnd d pass) s s) ∧
    (∀ r, (die s d).rot = some r → outgoingDone s d r.outgoing = true →
      clusterFailed s d r.outgoing = false → r.outgoing < 33 →
      ∃ u, Ends (.rotationComplete d) s u ∧ (die u d).rot = none ∧ spareOf u d = r.outgoing ∧
        rg u (dcSlot d) spareStatusRotState = 0 ∧ u = { s with regs := u.regs, dies := u.dies }) ∧
    (inc ≠ 0x3F → (die s d).rot = none → underTest s d inc = false →
      (∃ u, Ends (.onlineTestPassEnd d true) s u ∧ (die u d).spareTested = true ∧
        rg u stSlot (onlinePasses d) = (rg s stSlot (onlinePasses d) + 1) % 2 ^ (onlinePasses d).w ∧
        u = { s with regs := u.regs, dies := u.dies }) ∧
      (∃ u, Settles (.onlineTestPassEnd d false) s u ∧ (die u d).spareTested = false ∧
        spareOf u d = 0x3F ∧ clusterFailed u d inc = true ∧
        u.due = s.due ++ [{ slot := dcSlot d, src := 2 }]))

/-- A fence of an enabled cluster marks it in CLUSTER_FAILED, passes its logical index to the spare by a
rotation or, without a free spare, orphans it, ends every tile's task, which is run again where it can be, and
raises CLUSTER_FENCED; a fenced spare leaves the die without one; a cluster that has failed already is left
alone. The move of the queue's tasks and the end of an incoming cluster's rotation are log entry 69, that no index
passes to a spare while a rotation is in progress 146, the fence of the spare as a failed online test 147, and the
re-run of the tasks 131. -/
def Obligations.ClusterFences : Prop :=
  ∀ (d : Die) (c : Cluster) (s : State), performs s (dcSlot d) = true →
    (clusterFailed s d c = true → Settles (.clusterFence d c) s s) ∧
    (clusterFailed s d c = false → spareOf s d = c.val → (die s d).rot = none →
      ∃ u, Settles (.clusterFence d c) s u ∧ clusterFailed u d c = true ∧ spareOf u d = 0x3F ∧
        u.due = s.due ++ [{ slot := dcSlot d, src := 2 }]) ∧
    (clusterFailed s d c = false → ¬ (spareOf s d = c.val ∧ (die s d).rot = none) →
      ∃ m v : State, clusterFailed m d c = true ∧ m = { s with regs := m.regs } ∧
        (isMapped s d c = false → v = m) ∧
        (isMapped s d c = true → (die s d).rot = none → spareOf s d ≠ 0x3F → v = startRotation m d c) ∧
        (isMapped s d c = true → (die s d).rot ≠ none ∨ spareOf s d = 0x3F →
          v = dropIncoming (orphan m d c) d c) ∧
        let u := raise (forEach (List.range 16) v (fun s t => fenceTile s d c t))
          { slot := dcSlot d, src := 3 }
        Settles (.clusterFence d c) s
          (if allClustersFailed u d then fenceLobe u (if d.val < 2 then 0 else 1) else u))

/-- The census: CLEAR zeroes a die's counters, SNAP copies them to the snapshot area first, or, where that
area does not reach memory, sets SKIPPED and copies nothing; both are ignored while BUSY; a skipped one with
CLEAR set still clears. When a
snapshot ends, BUSY falls and SNAP_COUNT counts it. That copy and clear take place at the write is log entry
110. -/
def Obligations.CensusCommands : Prop :=
  ∀ (r : Requester) (d : Die) (val : BitVec 32) (s : State), performs s (dcSlot d) = true → reached s r = true →
    let key (k : Nat) : Nat := d.val * 65536 + k
    (rg s (dcSlot d) censusStatusBusy = 1 →
      Ends (.censusClear r d) s s ∧ Ends (.censusSnap r d val) s s) ∧
    (rg s (dcSlot d) censusStatusBusy = 0 →
      (∃ u, Ends (.censusClear r d) s u ∧ rg u (dcSlot d) censusStatusBusy = 1 ∧
        (die u d).censusOp = some false ∧
        (∀ k, k < 65536 → mget 0 u.census (key k) = 0) ∧
        u = { s with regs := u.regs, dies := u.dies, census := u.census }) ∧
      (allReach s (censusBase s d) (2 ^ 21) = false → val.getLsbD 1 = false →
        Ends (.censusSnap r d val) s (wg s (dcSlot d) censusStatusSkipped 1)) ∧
      (allReach s (censusBase s d) (2 ^ 21) = false → val.getLsbD 1 = true →
        ∃ u, Ends (.censusSnap r d val) s u ∧ rg u (dcSlot d) censusStatusSkipped = 1 ∧
          rg u (dcSlot d) censusStatusBusy = 1 ∧ (die u d).censusOp = some false ∧
          (∀ k, k < 65536 → mget 0 u.census (key k) = 0) ∧
          u = { s with regs := u.regs, dies := u.dies, census := u.census }) ∧
      (allReach s (censusBase s d) (2 ^ 21) = true →
        ∃ u, Ends (.censusSnap r d val) s u ∧ rg u (dcSlot d) censusStatusBusy = 1 ∧
          (die u d).censusOp = some true ∧ u.mem = (copyCensus s d).mem ∧
          ∀ k, k < 65536 → mget 0 u.census (key k) = 0)) ∧
    (∀ snap, (die s d).censusOp = some snap →
      ∃ u, Ends (.censusOpDone d) s u ∧ (die u d).censusOp = none ∧
        rg u (dcSlot d) censusStatusBusy = 0 ∧
        (snap = false → rg u (dcSlot d) censusStatusSnapCount = rg s (dcSlot d) censusStatusSnapCount) ∧
        (snap = true → rg u (dcSlot d) censusStatusSnapCount =
          (rg s (dcSlot d) censusStatusSnapCount + 1) % 2 ^ 29) ∧
        u = { s with regs := u.regs, dies := u.dies, records := u.records } ∧ (snap = false → u.records = s.records))

/-! ### The training sequencer -/

/-- SEQ_CTL: START with an accepted job block at SEQ_JOB starts a sequencer that does not run on it, at an empty
event ring and a new step; with any other block STATE reads failed and SEQ_MALFORMED names no job. A start that
cannot read its block waits for it. STOP lets a running one stop at the end of its step, and CLR of DIG_CTL zeroes
RUN_DIG. That a failed sequencer starts too is log entry 91, the wait 66. -/
def Obligations.SequencerStartsStops : Prop :=
  ∀ (r : Requester) (d : Die) (val : BitVec 32) (s : State), performs s (seqSlot d) = true → reached s r = true →
    let m := seqSlot d
    let addr := rg s m seqJobHi * 2 ^ 32 + rg s m seqJobLo * 64
    let w := loadDie s d addr 64
    (val.getLsbD 1 = false → seqRunning s d = false → mget 0 s.lobeIdle (d.val / 2) = 0 →
      (waitsDie s d [(addr, 64)] = true → ∃ u, Settles (.seqStart r d val) s u ∧ (seqOf u d).wants = true ∧
        rg u m seqStatusState = rg s m seqStatusState ∧ u = { s with regs := u.regs, dies := u.dies }) ∧
      (waitsDie s d [(addr, 64)] = false → s.errs = [] → jobBlockOk s addr w = true →
        ∃ u, Settles (.seqStart r d val) s u ∧
        rg u m seqStatusState = 1 ∧ rg u m evtHead = 0 ∧ (seqOf u d).job = jbJob w ∧
        (seqOf u d).progBase = jbProgBase w ∧ (seqOf u d).layerBase = jbLayerBase w ∧
        (seqOf u d).lrBase = jbLrBase w ∧ (seqOf u d).evtBase = jbEvtBase w ∧
        (seqOf u d).progCount = jbProgCount w ∧ (seqOf u d).phases = [] ∧ (seqOf u d).counters = [] ∧
        (seqOf u d).stop = none ∧ u.due = s.due ∧
        u = { s with regs := u.regs, dies := u.dies, seg := u.seg }) ∧
      (waitsDie s d [(addr, 64)] = false → s.errs = [] → jobBlockOk s addr w = false →
        ∃ u, Settles (.seqStart r d val) s u ∧
        rg u m seqStatusState = 3 ∧ u.due = s.due ++ [{ slot := m, src := 0 }] ∧
        u = { s with regs := u.regs, dies := u.dies, due := u.due })) ∧
    (rg s m seqStatusState = 1 → ∃ u, Ends (.seqStop r d val) s u ∧ rg u m seqStatusState = 2 ∧
      (seqOf u d).wants = false ∧ u = { s with regs := u.regs, dies := u.dies }) ∧
    (∃ u, Ends (.digClear r d val) s u ∧ (∀ n < 4, rg u m (runDig n) = 0) ∧
      u = { s with regs := u.regs })

/-- The next ready phase starts, on its layer's entry as read then: a forward or backward phase at its layer's
start position with its promotion armed under PROMO_EN; a recomputation reads the descriptors that it replays,
and one that is disabled is skipped, after the comparison in Paired mode; a prefetch and an exchange post at
once; an OPT phase forms its step constants and keeps its OPT block. A reserved field or format code of the
entry, or a bad OPT block, makes the phase malformed. With none ready, or with one that cannot read what its start
reads, what was examined stays as it was found. A rank that is missing then is found. That the entry is checked for
every type is log entry 122, that replayed descriptors are read at the start 95, the look-ahead 45, the reads of a
held channel 66. -/
def Obligations.PhaseStarts : Prop :=
  ∀ (d : Die) (s v : State) (o : Option Nat), startsPhases s d = true → choosePhase s d = (v, o) →
    let ends (u : State) : Prop := Settles (.phaseStart d) s (detectMissing u d)
    (o = none → ends v) ∧
    (∀ ph, o = some ph → waitsDie v d (startReads v d ph) = true → ends v) ∧
    (∀ ph, o = some ph → waitsDie v d (startReads v d ph) = false →
      let z := checkDie v d (startReads v d ph)
      let w := (phaseOf z d ph).desc
      let ly := readLayer z d (phLayer w)
      let x := retire (updPhase z d ph (fun p => { p with stage := .working, entry := ly })) (seqSlot d)
      (layerOk ly = false → ends (endMalformed x d ph)) ∧
      (layerOk ly = true → phType w = 1 ∨ phType w = 2 → ∃ u, ends u ∧
        phaseOf u d ph = { phaseOf z d ph with
          stage := .working, entry := ly, rung := lyStartPos ly, rungStart := lyStartPos ly
          promote := phPromote w = 1 && rgB z (seqSlot d) seqCtlPromoEn } ∧
        u = { z with dies := u.dies, tremor := u.tremor }) ∧
      (layerOk ly = true → phType w = 3 →
        let skip := updPhase x d ph (fun p => { p with skipped := true })
        (rg z (seqSlot d) seqCtlRecompEn ≠ 1 → isCompared skip d ph = false → ends (endPhase skip d ph 5)) ∧
        (rg z (seqSlot d) seqCtlRecompEn ≠ 1 → isCompared skip d ph = true →
          ends (updPhase skip d ph (fun p => { p with stage := .exchange }))) ∧
        (rg z (seqSlot d) seqCtlRecompEn = 1 → ends (afterTask (updPhase x d ph (fun p => { p with
          sub := phCount0 w
          replays := (List.range (phCount1 w)).map (fun k =>
            loadDie z d (phaseAddr z d (phCount0 w + k)) 64) })) d ph))) ∧
      (layerOk ly = true → phType w = 4 → ends (startPosting x d ph)) ∧
      (layerOk ly = true → phType w = 5 → ends (startPosting (updPhase x d ph (fun p => { p with
        digest := (mget {} (seqOf z d).counters (phLayer w)).digest })) d ph)) ∧
      (layerOk ly = true → phType w = 6 →
        let ob := loadDie z d (phAddr0 w) 64
        (optValid ob ly = false → ends (endMalformed x d ph)) ∧
        (optValid ob ly = true →
          ends (formConst (updPhase x d ph (fun p => { p with block := ob })) d (phLayer w) ly))))

/-- An attempt whose latch is set, on a rung below the top of its ladder, is discarded and run again one rung
up, counted in PROMO_COUNT; an attempt whose latch is clear, or one at the top, is committed. A phase of a promotion
group waits until every member has come to its step, ended its attempt and received the other latches; then every
member commits or runs again under the combined latch, each on its own ladder. The latch of another die's phase is
kept, with the step that it belongs to, until the group decides. The members are those of log entry 46, the step
of a latch that of 95, a die still to come to the step counts by 123, and a ladder that the spec leaves open
resolves as 143 says. -/
def Obligations.AttemptsResolve : Prop :=
  ∀ (d e : Die) (ph : Nat) (s : State),
    let p := phaseOf s d ph
    let v := updPhase s d ph (fun p => { p with latched := true })
    let g := groupOf v d ph
    let together := g.any (fun x => (phaseOf v x.1 x.2).latch)
    (goesOn s d = true → attemptEnded s d ph = true → awaitsCommit p = true →
      (g = [(d.val, ph)] →
        (p.latch = true → p.rung + 1 < lyLadderLen p.entry →
          ∃ u, Settles (.phaseAttemptEnd d ph) s u ∧
            rg u (seqSlot d) promoCount = min (rg s (seqSlot d) promoCount + 1) (2 ^ promoCount.w - 1) ∧
            let q := phaseOf u d ph
            q.rung = p.rung + 1 ∧ q.next = 0 ∧ q.latch = false ∧ q.drops = 0 ∧ q.committed = p.committed) ∧
        (p.latch = true → ¬ p.rung + 1 < lyLadderLen p.entry →
          ∃ v, Settles (.phaseAttemptEnd d ph) s (workDone v d ph) ∧
            (phaseOf v d ph).committed = true ∧ (phaseOf v d ph).rung = p.rung) ∧
        (p.latch = false → ∃ v, Settles (.phaseAttemptEnd d ph) s (workDone v d ph) ∧
          (phaseOf v d ph).committed = true ∧ (phaseOf v d ph).rung = p.rung ∧ v.mem = s.mem ∧
          v.regs = s.regs)) ∧
      (groupReady v (stepOf v d) g = false → Settles (.phaseAttemptEnd d ph) s v) ∧
      (groupReady v (stepOf v d) g = true → together = true →
        (∀ x ∈ g, (phaseOf v x.1 x.2).rung + 1 < lyLadderLen (phaseOf v x.1 x.2).entry) →
        ∃ u, Settles (.phaseAttemptEnd d ph) s u ∧ ∀ x ∈ g,
          let q := phaseOf u x.1 x.2
          q.rung = (phaseOf v x.1 x.2).rung + 1 ∧ q.next = 0 ∧ q.latch = false ∧ q.drops = 0 ∧
          rg u (seqSlot x.1) promoCount = min (rg s (seqSlot x.1) promoCount + 1) (2 ^ promoCount.w - 1)) ∧
      (groupReady v (stepOf v d) g = true → together = false →
        Settles (.phaseAttemptEnd d ph) s (forEach g v (fun y x =>
          let z := updDie y x.1 (fun t => { t with
            latches := mkeep t.latches (fun k => !g.any (fun f => decide (k = 4 * f.2 + f.1))) })
          workDone (dropEnded (updPhase z x.1 x.2 (fun p => { p with committed := true, latched := false }))
            x.1 x.2) x.1 x.2)))) ∧
    (d ≠ e → dieRuns s d = true → dieRuns s e = true → ctrlOpen s d e = true → p.latched = true →
      groupMember s d p.desc e = none →
      ∃ u, Settles (.promotionLatchReceive d e ph) s u ∧
        mget 0 (die u e).latches (4 * ph + d.val) = 1 + b2n p.latch + 2 * rg s (seqSlot d) seqStep ∧
        u = { s with dies := u.dies })

/-- A phase with its list posted and its operations complete adds its digest to RUN_DIG, hands a backward
phase's leaf to its gradient counter, and writes its status word; a refused leaf fails its phase. A step whose phases are all complete
counts in SEQ_STEP and, without LOOP or with a stop asked for, stops the sequencer. That
the leaf is handed over by the ACC block as it was read with the descriptor is log entry 144, that a refused leaf
ends its phase FAILED 48. -/
def Obligations.PhasesAndStepsEnd : Prop :=
  ∀ (d : Die) (ph : Nat) (s : State), goesOn s d = true →
    let m := seqSlot d
    let p := phaseOf s d ph
    let code := if p.skipped then 5 else if p.drops = 0 then 1 else 2
    (canComplete s d ph = true → mustCompare s d ph = false →
      (phType p.desc ≠ 2 ∨ phAux p.desc = 0 →
        ∃ v, Settles (.phaseComplete d ph) s (detectMissing (endPhase v d ph code) d) ∧
          v = { s with regs := v.regs } ∧ runDigest v d = (runDigest s d + p.digest) % 2 ^ 128) ∧
      (∀ x taken, phType p.desc = 2 → phAux p.desc ≠ 0 →
        handLeaf s d (phLayer p.desc) p.acc = (x, taken) →
        (taken = true → ∃ v, Settles (.phaseComplete d ph) s (detectMissing (endPhase v d ph code) d) ∧
          v = { x with regs := v.regs } ∧ runDigest v d = (runDigest x d + p.digest) % 2 ^ 128) ∧
        (taken = false → Settles (.phaseComplete d ph) s (endPhase (markFailed x d ph) d ph 3)))) ∧
    (canComplete s d ph = true → mustCompare s d ph = true →
      Settles (.phaseComplete d ph) s (updPhase s d ph (fun p => { p with stage := .exchange }))) ∧
    (stepDone s d = true →
      (rg s m seqStatusState = 1 → rg s m seqCtlLoop = 1 → ∃ u, Settles (.stepEnd d) s u ∧
        rg u m seqStep = (rg s m seqStep + 1) % 2 ^ 32 ∧ (seqOf u d).phases = [] ∧
        (seqOf u d).counters = [] ∧ (seqOf u d).consts = [] ∧ rg u m seqStatusState = 1 ∧
        u = { s with regs := u.regs, dies := u.dies }) ∧
      (rg s m seqStatusState ≠ 1 ∨ rg s m seqCtlLoop ≠ 1 → ∃ v, Settles (.stepEnd d) s (finishRun v d 1) ∧
        rg v m seqStep = (rg s m seqStep + 1) % 2 ^ 32 ∧ rg v m seqStatusState = 0 ∧
        v = { s with regs := v.regs }))

/-- A gradient counter takes leaves in rank order: it reads the leaf and the level buffers that it combines it with,
writes what it comes to, and waits for the next rank; a leaf that is not the next one waits, and so does one that
cannot be read yet (log entry 66). -/
def Obligations.LeavesInOrder : Prop :=
  ∀ (d : Die) (l : Nat) (c : Counter) (s : State), goesOn s d = true → seqRunning s d = true →
    (seqOf s d).counters.find? (fun x => x.1 = l) = some (l, c) →
    (∀ leaf, c.waiting.find? (fun x => x.1 = c.next) = some (c.next, leaf) →
      let reads := leafReads c leaf c.next
      let x := checkDie s d reads
      (waitsDie s d reads = true → Settles (.leafTake d l) s (detectMissing s d)) ∧
      (waitsDie s d reads = false → ∃ v, Settles (.leafTake d l) s (detectMissing v d) ∧
        v.mem = (writeMap x d (leafWrites (dieView x d) c leaf)).mem ∧
        ∃ c', (l, c') ∈ (seqOf v d).counters ∧ c'.next = c.next + 1 ∧
          c'.waiting = c.waiting.filter (fun x => x.1 ≠ c.next) ∧ c'.buf = c.buf)) ∧
    (c.waiting.find? (fun x => x.1 = c.next) = none → Settles (.leafTake d l) s (detectMissing s d))

/-- What dies tell each other while a control bundle of every edge between them is up: the completion of a phase, for
the DEPs of another die, and in Paired mode the values of a phase that waits for its comparison; otherwise nothing
passes. A comparison that has not both values waits. The lobe self-test of a mismatch that stays runs once the jobs
concerned have no operation left and no LOBE test runs; a lobe that fails it is fenced, both where both fail, and
where both pass the jobs end with PAIR_UNRESOLVED. The step that a signal carries is log entry 95, the values of
PAIR_LAST 70, the mirror die and what is compared 49, that a signal which cannot pass changes nothing 26. -/
def Obligations.DiesAgree : Prop :=
  (∀ (src dst : Die) (ph : Nat) (s : State),
     (ctrlOpen s src dst = false → Ends (.crossDieDepSignal src dst ph) s s) ∧
     (isDone (phaseOf s src ph) = true → startsPhases s dst = false → src ≠ dst → ctrlOpen s src dst = true →
       ∃ u, Settles (.crossDieDepSignal src dst ph) s u ∧
         mget 0 (die u src).told (4 * ph + dst.val) = (seqOf s src).stepNo + 1 ∧
         u = { s with dies := u.dies }) ∧
     (let m := (src.val + 2) % 4
      let reads := postReads s m ph
      let x := checkDie s m reads
      dieRuns s src = true → dieRuns s m = true → ctrlOpen s m src = true → waitsDie s m reads = false →
       (phaseOf x m ph).stage = .exchange →
       isCompared x m ph = true → (phaseOf x m ph).tries < 2 → mget 0 (die x m).mirror ph = 0 →
       ∃ u, Settles (.mirrorExchangeReceive src ph) s u ∧
         mget 0 (die u src).mirror ph = mirrorValue x m ph + 1 ∧ u = { x with dies := u.dies })) ∧
  (∀ (ph : Nat) (s : State), s.pairTest = .wanted ph →
     (pairDrained s = true → lobeTested s = false →
       Ends .pairSelfTestStart s { s with pairTest := .running ph (pairDies s) }) ∧
     (pairDrained s = false ∨ lobeTested s = true → Ends .pairSelfTestStart s s)) ∧
  (∀ (ph : Nat) (ds : List (Nat × Nat)) (s : State), s.pairTest = .running ph ds →
     let failed (v : State) : Prop := v = { s with regs := v.regs, pairTest := .idle } ∧
       ∀ x ∈ pairDies s, rg v (seqSlot x.1) pairLastOutcome = 2
     (∃ v, v = { s with regs := v.regs, pairTest := .idle } ∧
       (∀ x ∈ pairDies s, rg v (seqSlot x.1) pairLastOutcome = 3) ∧
       let jobs := ((pairDies s).map Prod.snd).eraseDups
       Settles (.pairSelfTestResult true true) s (forEach jobs
         (takeEvents { v with due := s.due ++ (pairDies s).map (fun x =>
           { slot := seqSlot x.1, src := srcPairUnresolved, job := x.2 }) })
         (fun w j => if (List.range 4).any (fun d => decide (seqJob w d = j)) then abortJob w j none else w))) ∧
     (∃ v, Settles (.pairSelfTestResult false false) s (fenceBoth v) ∧ failed v) ∧
     (∃ v, Settles (.pairSelfTestResult false true) s (fenceLobe v 0) ∧ failed v) ∧
     (∃ v, Settles (.pairSelfTestResult true false) s (fenceLobe v 1) ∧ failed v))

/-! ### The Rilun links -/

/-- What the code answers satisfies both check words under one copy of each, and differs from the payload as
received in at most the one column that it names.
A flit whose payload arrives unhurt is delivered clean, whichever one of the four copies of its check words is
hurt; copy k of the order P, Q, P, Q is what the check bits of lanes 16 k to 16 k + 15 hold. The order in which copies are tried is log entry 71. -/
def Obligations.FlitCodeCorrects : Prop :=
  (∀ (f : DataFlit) (cols : List Nat) (o : Option Nat), decodeFlit f = some (cols, o) →
     (checkP cols = checkCopy f 0 ∨ checkP cols = checkCopy f 2) ∧
     (checkQ cols = checkCopy f 1 ∨ checkQ cols = checkCopy f 3) ∧
     cols.length = 64 ∧
     ∀ i, o ≠ some i → cols.getD i 0 = (flitCols f).getD i 0) ∧
  (∀ (f : DataFlit),
     let p (k : Nat) : Prop := checkCopy f k = checkP (flitCols f)
     let q (k : Nat) : Prop := checkCopy f k = checkQ (flitCols f)
     (p 0 ∧ p 2 ∧ (q 1 ∨ q 3)) ∨ ((p 0 ∨ p 2) ∧ q 1 ∧ q 3) →
     decodeFlit f = some (flitCols f, none))

/-- A data flit on an up bundle of an up edge, the one that its sender has sent it on, is kept by its sender;
one that decodes is delivered in sequence order and once, one that does not takes its bundle down. One for an
edge that comes up again is held by its sender, in arrival order, while its buffer has room. An
acknowledgement over a control bundle frees what it covers and the receiver has taken, and every 10 ms the
lanes' correction counts are halved. That the hold buffer takes 2,048 flits and the sequence number has no bound is log
entry 72; that a flit which its sender has not sent on the bundle changes nothing is log entry 26. -/
def Obligations.DataFlits : Prop :=
  ∀ (e : EdgeEnd) (b : Fin 40) (f : DataFlit) (s : State),
    let x := edgeSide s e
    let y := edgeSide s (farEnd e)
    let v := keepFlit s (farEnd e) f
    (edgeUp s e = true → endRuns s e = true → (bundleOf s e b).up = true →
      (bundleOf s e b).sparing = none → (bundleOf s e b).aside = false →
      (hasSent v (farEnd e) f.seq b = false → Settles (.dataFlitReceive e b f) s s) ∧
      (hasSent v (farEnd e) f.seq b = true →
        (decodeFlit f = none → Settles (.dataFlitReceive e b f) s (bundleDown v e b 0)) ∧
        (∀ cols, decodeFlit f = some (cols, none) →
          (f.seq < x.rxNext → Settles (.dataFlitReceive e b f) s v) ∧
          (f.seq = x.rxNext → x.rxHeld = [] → ∃ u, Settles (.dataFlitReceive e b f) s u ∧
            (edgeSide u e).delivered = x.delivered ++ [cols] ∧ (edgeSide u e).rxNext = f.seq + 1 ∧
            (edgeSide u e).rxHeld = [] ∧ u = { s with edges := u.edges, tremor := u.tremor }) ∧
          (x.rxNext < f.seq → x.rxHeld = [] → ∃ u, Settles (.dataFlitReceive e b f) s u ∧
            (edgeSide u e).delivered = x.delivered ∧ (edgeSide u e).rxHeld = [(f.seq, cols)] ∧
            u = { s with edges := u.edges, tremor := u.tremor })) ∧
        (∀ cols l, decodeFlit f = some (cols, some l) →
          Settles (.dataFlitReceive e b f) s
            (countLane (deliverFlit v e f.seq cols) e b (physLane (bundleOf s e b).mask l))))) ∧
    (edgeUp s e = false → comesUp s e = true → endRuns s (farEnd e) = true → y.held.length < 2048 →
      ∃ u, Settles (.dataFlitReceive e b f) s u ∧ (edgeSide u (farEnd e)).held = y.held ++ [f] ∧
        edgeSide u e = x ∧ u = { s with edges := u.edges, regs := u.regs }) ∧
    (edgeUp s e = true → (ctrlOf s e 0).up = true ∨ (ctrlOf s e 1).up = true →
      ∃ u, Settles (.dataFlitAck e f.seq) s u ∧ u = { s with edges := u.edges, tremor := u.tremor } ∧
        (edgeSide u e).replay = x.replay.filter (fun k =>
          !(k.seq ≤ f.seq && (k.seq < y.rxNext || y.rxHeld.any (fun h => h.1 = k.seq))))) ∧
    (∃ u, Ends .laneCountDecay s u ∧ u = { s with edges := u.edges } ∧
      ∀ k y, (k, y) ∈ u.edges → ∀ n z, (n, z) ∈ y.bundles → ∀ l c, (l, c) ∈ z.counts →
        c ≠ 0 ∧ ∃ y' z' c', (k, y') ∈ s.edges ∧ (n, z') ∈ y'.bundles ∧ (l, c') ∈ z'.counts ∧ c = c' / 2)

/-- A sparing whose mask both ends agree on returns the bundle with the spare in place of the failing lane and
advances both lane-map epochs; one that they do not agree on uses its spare up. After a warm reset, ends whose
map hashes and epochs agree resume on the stored maps; ends that differ discard them, and the edge trains;
without a control bundle that trains, the die is lost with its lobe. A full training carries data on the 64
lanes with the largest margins of each bundle and sets both epochs past the larger one. The lane that stays marginal
without a spare is log entry 72. -/
def Obligations.LinksRecover : Prop :=
  (∀ (k : Fin 6) (b : Fin 40) (lane spare : Nat) (s : State), edgeUp s ⟨k, false⟩ = true →
     (bundleOf s ⟨k, false⟩ b).sparing = some (lane, spare) →
     (∃ u, Settles (.sparingComplete k b true) s u ∧ ∀ far : Bool,
       let e : EdgeEnd := ⟨k, far⟩
       (bundleOf u e b).sparing = none ∧
       (bundleOf u e b).mask = setBits (setBits (bundleOf s e b).mask lane 1 0) spare 1 1 ∧
       (bundleOf u e b).spares = setBits (bundleOf s e b).spares spare 1 0 ∧
       (edgeSide u e).epoch = (if (edgeSide s e).epoch ≥ 65535 then 1 else (edgeSide s e).epoch + 1)) ∧
     (lowestSpare { bundleOf s ⟨k, false⟩ b with
         spares := setBits (bundleOf s ⟨k, false⟩ b).spares spare 1 0 } = none →
       ∃ u, Settles (.sparingComplete k b false) s u ∧ ∀ far : Bool,
         (bundleOf u ⟨k, far⟩ b).sparing = none ∧ (bundleOf u ⟨k, far⟩ b).failing = [lane] ∧
         u.due = s.due ++ [laneEvent ⟨k, false⟩ 2 b lane])) ∧
  (∀ (k : Fin 6) (m : EdgeMargins) (s : State),
     let a : EdgeEnd := ⟨k, false⟩
     let b : EdgeEnd := ⟨k, true⟩
     let same := mapHash s a = mapHash s b ∧ (edgeSide s a).epoch = (edgeSide s b).epoch
     (∀ up : Fin 4, edgeTrains s k 2 = true →
       (up = 0 → ∃ v, Settles (.reconcileHashExchange ⟨k, up⟩) s (ctrlLost v a 1) ∧
         erg v a edgeStatusState = 0 ∧ erg v b edgeStatusState = 0 ∧
         v = { s with edges := v.edges, regs := v.regs }) ∧
       (up ≠ 0 → same → ∃ v, Settles (.reconcileHashExchange ⟨k, up⟩) s (resumeEdge v k) ∧
         (edgeSide v a).bundles = (edgeSide s a).bundles ∧ (edgeSide v b).bundles = (edgeSide s b).bundles ∧
         erg v a mapEpochLast = 1 ∧ erg v b mapEpochLast = 1) ∧
       (up ≠ 0 → ¬ same → ∃ u, Settles (.reconcileHashExchange ⟨k, up⟩) s u ∧
         erg u a edgeStatusState = 1 ∧ erg u b edgeStatusState = 1 ∧
         ∀ n < bundleCount k, (bundleOf u a n).up = false ∧ (bundleOf u a n).mask = 0 ∧
           (bundleOf u b n).up = false ∧ (bundleOf u b n).mask = 0)) ∧
     (edgeTrains s k 1 = true →
       ∃ v, (edgeSide v a).epoch = nextEpoch (max (edgeSide s a).epoch (edgeSide s b).epoch) ∧
         (edgeSide v b).epoch = (edgeSide v a).epoch ∧
         (∀ n < bundleCount k, ∀ e ∈ [a, b],
           bundleOf v e n = trainBundle (bundleOf s e n) m.least (m.bundles.getD n [])) ∧
         Settles (.edgeTrainingComplete k m) s
           (let w := if upMask (edgeSide v a) = 0 then raise (setEdgeState v k 0) (laneEvent a 4 0 0) else v
            if m.ctrlUp % 4 = 0 then ctrlLost (setEdgeState w k 0) a 1
            else if upMask (edgeSide v a) = 0 then w else resumeEdge v k)))

/-- A control flit with a good check is taken once and an acknowledgement frees the flit that it names; a
flit with a bad check, or one that is not acknowledged in time, is a retry of its sender. A retry adds one to
CTRL_RETRY and raises RIL_CTRL_RETRY; the sixteenth in a row takes the bundle down. That a
receiver remembers the last 128 numbers is log entry 72. -/
def Obligations.ControlFlits : Prop :=
  ∀ (e : EdgeEnd) (cb : Half) (f : ControlFlit) (s : State),
    let sq := f.seq % 256
    let retries (c : Instr) (o : EdgeEnd) : Prop :=
      ∃ v, Settles c s (if (ctrlOf s o cb).fails + 1 ≥ 16 then ctrlDown v o cb else v) ∧
        (ctrlOf v o cb).fails = (ctrlOf s o cb).fails + 1 ∧
        erg v o ctrlRetry = min (erg s o ctrlRetry + 1) (2 ^ 32 - 1) ∧
        v.due = s.due ++ [edgeEvent o 5 0 0]
    (endRuns s e = true → (ctrlOf s e cb).up = true →
      (f.crc ≠ ctrlCrc f.payload → retries (.controlFlitReceive e cb f) (farEnd e)) ∧
      (f.crc = ctrlCrc f.payload →
        (f.ack = true → ∃ u, Settles (.controlFlitReceive e cb f) s u ∧ (ctrlOf u e cb).fails = 0 ∧
          (ctrlOf u e cb).unacked = (ctrlOf s e cb).unacked.filter (fun x => decide (x.1 ≠ sq)) ∧
          u = { s with edges := u.edges, regs := u.regs }) ∧
        (f.ack = false → sq ∉ (ctrlOf s e cb).received →
          ∃ u, Settles (.controlFlitReceive e cb f) s u ∧
            (ctrlOf u e cb).received = (sq :: (ctrlOf s e cb).received).take 128 ∧
            u = { s with edges := u.edges, regs := u.regs }) ∧
        (f.ack = false → sq ∈ (ctrlOf s e cb).received → Settles (.controlFlitReceive e cb f) s s))) ∧
    ((ctrlOf s e cb).up = true → (ctrlOf s e cb).unacked ≠ [] → retries (.controlAckTimeout e cb) e)

/-! ### Optics -/

/-- A descriptor that passes its checks admits its OE die with the modules that train, its thresholds and the
wavelengths found below LASER_MIN, and the descriptor's digest extends measurement register 4; one that does not
is refused with its reason, with OE_ADMIT_FAIL raised, and can be read again by RETRY, which leaves any other OE
die alone. At a first bring-up the OE dies that are on are admitted in ascending order (log entry 154).
A laser measurement is shown in LASER_MON and raises OPT_LASER_LOW for every wavelength of an admitted OE
die below its minimum and OPT_LASER_HIGH for every one above 17.0 dBm; where none is out of range it does
nothing else. A group that waits for light trains when its fiber's four wavelengths reach the minimum. A low wavelength
raises its event at each measurement (log entry 73); a command out of its turn changes nothing (log entry 26). -/
def Obligations.OpticalEngines : Prop :=
  (∀ (o : Fin 8) (r : Requester) (a : OeAnswer) (s : State),
     let p := oeSlot o
     (oeRuns s o = false ∨ 1 < rg s p oeStatusAdmit ∨ oeTurn s o = false → Ends (.oeAdmission o a) s s) ∧
     (rg s p oeStatusAdmit = 0 → (∃ k < o.val, oeOff s k = false ∧ rg s (oeSlot k) oeStatusAdmit = 0) →
       oeTurn s o = false) ∧
     (oeRuns s o = true → rg s p oeStatusAdmit ≤ 1 → oeTurn s o = true →
       (admitReason s a.descriptor ≠ 0 → ∃ u, Settles (.oeAdmission o a) s u ∧ rg u p oeStatusAdmit = 3 ∧
         rg u p oeStatusReason = admitReason s a.descriptor ∧
         u.due = s.due ++ [{ slot := p, src := 0 }] ∧ u = { s with regs := u.regs, due := u.due }) ∧
       (∀ bs, admitReason s a.descriptor = 0 → a.descriptor = some bs → ∃ v,
         let least := sx16 (fieldOf bs 0x30 2)
         Settles (.oeAdmission o a) s
           (forEach ((List.range 4).map (· + 4 * o.val)) (extendMr v 4 (sha512 bs)) startTraining) ∧
         rg v p oeStatusAdmit = 2 ∧ rg v p oeStatusReason = 0 ∧
         rg v p oeStatusModUp = (a.train32 ||| a.train16) % 16 ∧
         mget {} v.oe o = { laserMin := least, rxSens := sx16 (fieldOf bs 0x34 2), low := lowOf least a.light } ∧
         v = { s with regs := v.regs, oe := v.oe })) ∧
     (performs s p = true → reached s r = true →
       (rg s p oeStatusAdmit = 3 → ∃ u, Ends (.oeRetry r o) s u ∧ rg u p oeStatusAdmit = 1 ∧
         rg u p oeStatusReason = 0 ∧ u = { s with regs := u.regs }) ∧
       (rg s p oeStatusAdmit ≠ 3 → Ends (.oeRetry r o) s s))) ∧
  (∀ (o : Fin 8) (g : Fin 32) (power : List Int) (s : State),
     let p := oeSlot o
     let least := (mget {} s.oe o).laserMin
     (oeRuns s o = true →
       (∃ u, Settles (.laserMonitor o power) s u ∧
         (rg s p oeStatusAdmit = 2 → (mget {} u.oe o).low = lowOf least power ∧
           u.due.count { slot := p, src := srcLaserLow } = s.due.count { slot := p, src := srcLaserLow } +
             (List.range 8).countP (fun k => decide (power.getD k 0 < least))) ∧
         u.due.count { slot := p, src := srcLaserHigh } = s.due.count { slot := p, src := srcLaserHigh } +
           (List.range 8).countP (fun k => decide (170 < power.getD k 0))) ∧
       ((∀ k < 8, (rg s p oeStatusAdmit = 2 → least ≤ power.getD k 0) ∧ power.getD k 0 ≤ 170) →
         ∃ u, Settles (.laserMonitor o power) s u ∧ u.due = s.due ∧ u.groups = s.groups ∧
           u = { s with regs := u.regs, oe := u.oe } ∧ (mget {} u.oe o).low = 0 ∧
           ∀ f < 2, rg u p (laserMon f) =
             ((List.range 4).map (fun k => min (power.getD (4 * f + k) 0).toNat 255 * 2 ^ (8 * k))).sum)) ∧
     (oeRuns s (g / 4) = true → (optGroup s g).waitLight = true →
       ((∃ k < 4, power.getD k 0 < (mget {} s.oe (g / 4)).laserMin) →
         Ends (.groupLightRecheck g power) s s) ∧
       ((∀ k < 4, (mget {} s.oe (g / 4)).laserMin ≤ power.getD k 0) →
         ∃ v, Ends (.groupLightRecheck g power) s (startTraining v g) ∧ lowLanes v g = 0 ∧
           v = { s with oe := v.oe })))

/-- A first training of a group of a port: beside a wrong partner the group is held down and FAB_MISWIRE
raised; with at least four lanes in both directions that had light it comes up at the width that they allow;
with fewer it is down. A lane of an up group whose receive power falls below RX_SENS + 1.0 dB, or that loses
its lock, is remembered, OPT_LANE_FAIL is raised and the group retrains, without traffic; a lane of a group
that retrains, or is aside for a test, is remembered and raises OPT_LANE_FAIL alone. A wavelength that falls below
its minimum fails its lanes in the same way, in both directions, and takes a group in its first training back to
wait for light. The end of a retrain decides the width as a first training does, and a lane that failed in it and
passed starts a further one. An absent group trains when a probe finds light, or waits for its laser light. Which
lanes count as dark and which failures as late is log entry 73, the order of retrains within a package reset 36; an
event whose condition is not met changes nothing (log entry 26). -/
def Obligations.GroupsTrainAndRetrain : Prop :=
  (∀ (g : Fin 32) (p : Nat) (r : GroupResult) (s : State),
     oeRuns s (g / 4) = true → groupPort s g = some p → inTraining s g = true →
     let slow := bit (rg s (oeSlot (g / 4)) oeStatusMod16gt) (g % 4)
     let tx := r.tx - (r.tx &&& darkLanes s g)
     let rx := r.rx - (r.rx &&& darkLanes s g)
     let w := groupWidth slow tx rx
     (some r.partner ≠ neighbourPos s p → ∃ u, Settles (.groupTrainingComplete g r) s u ∧
       ggt u g groupStatusState = 4 ∧ (optGroup u g).miswired = true ∧
       u.due = s.due ++ [{ slot := 3, src := 0, part := p }] ∧ u.links = s.links) ∧
     (some r.partner = neighbourPos s p → 4 ≤ w → ∃ v, Settles (.groupTrainingComplete g r) s
         (portComes (moveFum v p) p (portUp s p)) ∧
       ggt v g groupStatusState = 3 ∧ ggt v g groupStatusWidth = w ∧
       ggt v g groupStatusTxLanes = lowestLanes tx w ∧ ggt v g groupStatusRxLanes = lowestLanes rx w ∧
       v = { s with regs := v.regs, groups := v.groups }) ∧
     (some r.partner = neighbourPos s p → w = 0 → ∃ u, Settles (.groupTrainingComplete g r) s u ∧
       ggt u g groupStatusState = 4 ∧ ggt u g groupStatusWidth = 0 ∧
       u = { s with regs := u.regs, groups := u.groups }) ∧
     (∃ u, Ends (.groupAbsent g) s u ∧ ggt u g groupStatusState = 1 ∧ u = { s with regs := u.regs })) ∧
  (∀ (g : Fin 32) (lane : Fin 8) (cause : LaneCause) (r : GroupResult) (s : State), oeRuns s (g / 4) = true →
     let x := optGroup s g
     let fails := match cause with
       | .power v => v < (mget {} s.oe (g / 4)).rxSens + 10
       | .lock => True
     let noted (v : State) : Prop := (optGroup v g).failed = x.failed ||| 2 ^ lane.val ∧
       v.due = s.due ++ [{ slot := oeSlot (g / 4), src := 1, part := g % 4 }] ∧
       v = { s with groups := v.groups, due := v.due }
     (¬ fails → Ends (.optLaneFail g ⟨lane, cause⟩) s s) ∧
     (fails → groupUp s g = true → x.retraining = false → x.recal = false → x.due = false →
       ∃ v, Settles (.optLaneFail g ⟨lane, cause⟩) s (wantRetrain v g) ∧ noted v) ∧
     (fails → x.retraining = true ∨ x.recal = true →
       ∃ v, Settles (.optLaneFail g ⟨lane, cause⟩) s v ∧ noted v) ∧
     (∀ p, x.retraining = true → groupPort s g = some p →
       let late := x.failed &&& r.rx ≠ 0 ∨ x.failedTx &&& r.tx ≠ 0
       let v := finishTraining s g r
       (late → (optGroup v g).miswired = false → Settles (.groupRetrainComplete g r) s (startRetrain v g)) ∧
       (¬ late ∨ (optGroup v g).miswired = true → Settles (.groupRetrainComplete g r) s (nextRetrain v p))) ∧
     (ggt s g groupStatusState = 1 →
       (∀ p, groupPort s g = some p → portDark s p = false → moduleUp s g = true →
         ∃ u, Ends (.absentGroupProbe g true) s u ∧
           (lowLanes s g = 0 → ggt u g groupStatusState = 2) ∧
           (lowLanes s g ≠ 0 → ggt u g groupStatusState = 0 ∧ (optGroup u g).waitLight = true) ∧
           u = { s with regs := u.regs, groups := u.groups }) ∧
       Ends (.absentGroupProbe g false) s s)) ∧
  (∀ (g : Fin 32) (power : List Int) (o : Fin 8) (s : State), g.val / 4 = o.val → oeRuns s o = true →
     rg s (oeSlot o) oeStatusAdmit = 2 →
     let x := mget {} s.oe o
     let low := lowOf x.laserMin power
     let fresh := low - (low &&& x.low)
     let lanes := ((List.range 8).map (fun l => b2n (bit fresh (4 * (g % 4 / 2) + l % 4)) * 2 ^ l)).sum
     let y := optGroup s g
     lanes ≠ 0 → ∃ u, Settles (.laserMonitor o power) s u ∧
       (groupUp s g = true ∨ y.retraining = true ∨ y.recal = true →
         { slot := oeSlot o, src := 1, part := g % 4 } ∈ u.due) ∧
       (groupUp s g = true → y.retraining = false → y.recal = false → y.due = false →
         groupUp u g = false ∧ (optGroup u g).retraining = true ∨ (optGroup u g).due = true) ∧
       (y.retraining = true ∨ y.recal = true →
         (optGroup u g).failed = y.failed ||| lanes ∧ (optGroup u g).failedTx = y.failedTx ||| lanes) ∧
       (inTraining s g = true → ggt u g groupStatusState = 0 ∧ (optGroup u g).waitLight = true))

/-! ### The Nyosh router -/

/-- A packet that enters from an up port is checked before it is routed: a malformed one is counted in
DISC_MALF and its source told with status 7, one of a job without a place here is counted in DISC_TRANSIT with
status 6, one of another epoch or of a job that is not running is counted in DISC_STALE with no answer; any
other is delivered at its destination or waits for the port of its route. A packet that is discarded or
delivered frees the receive buffer of its port. A packet of which only a part has arrived is taken ahead of the rest
where it goes on to another port, and waits otherwise. Which packets are malformed where R231 leaves fields open is
log entry 63, what a router's own NACK passes 41, which packets are taken in part 127. -/
def Obligations.RouterChecksPackets : Prop :=
  ∀ (port : FabPort) (p : Packet) (s : State), portUp s port = true →
    let c : Instr := .routerPacketEnter (some port) p
    let v := { s with arrived := s.arrived.erase (port.val, p) }
    let j := jobOf s p.job
    let from_ : Option (Nat × Packet) := some (port.val, p)
    let count (f : Fld) : State := wg (returnCredit v from_) 3 f (min (rg s 3 f + 1) (2 ^ f.w - 1))
    (∀ x, openPart s port p = some x →
      (isMalformed p = true ∨ jobCheck s p ≠ 0 ∨ (∀ o q, wayOf s p ≠ .out o q) → Ends c s s) ∧
      (∀ o q, isMalformed p = false → jobCheck s p = 0 → wayOf s p = .out o q → ∃ u, Ends c s u ∧
        u.outq = s.outq ++ [⟨o, x.vc, q.detour, q, some (port.val, p), true⟩] ∧
        { x with entered := true } ∈ (linkOf u port).part ∧ u = { s with outq := u.outq, links := u.links })) ∧
    (openPart s port p = none → isMalformed p = true → Ends c s (sendNack (count discMalf) p 7)) ∧
    (openPart s port p = none → isMalformed p = false → 0 < p.job →
      (j.member = false → j.transit = false → Ends c s (sendNack (count discTransit) p 6)) ∧
      (j.member = true → p.type ≠ 0xA → j.state ≠ 1 ∨ p.epoch ≠ j.epoch → Ends c s (count discStale)) ∧
      (j.member = true ∧ j.state = 1 ∧ p.epoch = j.epoch ∨ j.member = false ∧ j.transit = true →
        p.detour = false →
        (nextPort s p.dest = none → Ends c s (returnCredit { v with inbox := s.inbox ++ [p] } from_)) ∧
        (∀ q, nextPort s p.dest = some q → portShut s q = false →
          Ends c s { v with outq := s.outq ++ [⟨q, packetVc p.type, false, p, from_, false⟩] }))) ∧
    (p ∈ s.inject → isMalformed p = false → p.job = 0 → p.detour = false → nextPort s p.dest = none →
      Ends (.routerPacketEnter none p) s { s with inject := s.inject.erase p, inbox := s.inbox ++ [p] })

/-- A router sends a packet whose DETOUR is clear along X while x differs from its destination, else along Y,
else along Z, else to the package itself, and every hop brings it one step nearer; the way depends on the
positions alone. -/
def Obligations.RoutesApproach : Prop :=
  ∀ (s t : State) (dest : Nat),
    s.pins.straps.meshX < 64 → s.pins.straps.meshY < 64 → s.pins.straps.meshZ < 16 → dest < 65536 →
    let far (a b : Nat) : Nat :=
      ((List.range 3).map (fun k => absDiff (coord a k) (coord b k))).sum
    myPos s = s.pins.straps.meshZ * 4096 + s.pins.straps.meshY * 64 + s.pins.straps.meshX ∧
    (t.pins.straps = s.pins.straps → nextPort t dest = nextPort s dest) ∧
    (nextPort s dest = none ↔ ∀ k < 3, coord (myPos s) k = coord dest k) ∧
    (∀ q pos, nextPort s dest = some q → neighbourPos s q = some pos →
      far pos dest + 1 = far (myPos s) dest ∧
      (∀ k < q / 2, coord (myPos s) k = coord dest k) ∧
      (∀ k < 3, k ≠ q / 2 → coord pos k = coord (myPos s) k)) ∧
    (∀ p, p ∈ s.inject → isMalformed p = false → p.job = 0 → p.detour = false → p.dest = dest →
      let v := { s with inject := s.inject.erase p }
      (nextPort s dest = none →
        Ends (.routerPacketEnter none p) s { v with inbox := s.inbox ++ [p] }) ∧
      (∀ q, nextPort s dest = some q → portShut s q = false →
        Ends (.routerPacketEnter none p) s
          { v with outq := s.outq ++ [⟨q, packetVc p.type, false, p, none, false⟩] }))

/-- A waiting packet starts on its link when it has its turn, credits and room in the replay store: it takes
its credits, leaves in data codewords of the next sequence numbers, dealt to the bulk lanes in turn, which stay in
the replay store, and frees the buffer that it filled. Of one that has arrived in part the part leaves, and the rest
follows as it comes. A codeword with more bad symbols than its code corrects is answered with a NAK that names the
one expected, and a NAK makes the codewords from there on leave again. Any other frees what its ACK
covers; a data codeword in sequence is taken and acknowledged by an idle codeword, one taken before is
dropped, and one that comes ahead of its turn waits. A packet arrives with its last flit; a link flit is a
flit like any other, and returns credits or drops the packet that has come in part, whose truncation follows on the
port on which it was being forwarded. Which codewords are padded, the lane of the others, and how a receiver tells
what came before from what comes ahead are log entries 60 and 151; forwarding in part is 127. -/
def Obligations.LinksCarryPackets : Prop :=
  ∀ (port : FabPort) (vc : Fin 4) (detour : Bool) (n ack : Nat) (cw : Codeword) (lf : LinkFlit) (s : State),
    let l := linkOf s port
    let key := vc.val + 4 * b2n detour
    (∀ w, headOf s port vc detour = some w → canStart s w = true → vcTurn s port vc = true →
      (w.cut = false → l.tx < 16384 →
        let fum := decide (packetVc w.pkt.type = 3)
        let lanes := max 1 (bulkLanes s port)
        let cws : List Codeword := (dealFlits fum (packetFlits w.pkt)).mapIdx (fun i fs =>
          { fum := fum, pad := slotsOf fum - fs.length, seq := (l.tx + i) % 16384, flits := fs })
        ∃ v, Ends (.packetLinkStart port vc detour) s (returnCredit v w.src) ∧ v.outq = s.outq.erase w ∧
          v.tx = s.tx ++ cws.mapIdx (fun i c =>
            (port.val, { c with lane := if fum then 0 else (l.turn + i) % lanes, ack := l.ack })) ∧
          mget 0 (linkOf v port).used key = mget 0 l.used key + creditCost w.pkt ∧
          (linkOf v port).replay = l.replay ++ cws ∧ (linkOf v port).tx = (l.tx + cws.length) % 16384 ∧
          v = { s with outq := v.outq, tx := v.tx, links := v.links }) ∧
      (∀ i p x, w.cut = true → w.src = some (i, p) → i ≠ port.val →
        (linkOf s i).part.find? (fun x => x.entered && waitsCut i x w) = some x →
        ∃ v cs, Ends (.packetLinkStart port vc detour) s v ∧ v.outq = s.outq.erase w ∧
          v.tx = s.tx ++ cs ∧ (∀ c ∈ cs, c.1 = port.val) ∧
          cs.flatMap (fun c => c.2.flits) = (packetFlits w.pkt).take (1 + w.pkt.len - x.left) ∧
          mget 0 (linkOf v port).used key = mget 0 l.used key + creditCost w.pkt ∧
          { x with out := some (port.val, w.pkt) } ∈ (linkOf v i).part)) ∧
    exec (.linkFlitReceive port ⟨n, ack, lf⟩) s =
      exec (.codewordReceive port { pad := 3, seq := n, ack := ack, flits := [.link lf] }) s ∧
    (portUp s port = true →
      let least := if cw.fum then 6 else 8
      let freed := payCredits (setLink s port { l with
        replay := match l.replay.findIdx? (fun c => decide (c.seq = cw.ack)) with
          | some i => l.replay.drop (i + 1)
          | none => l.replay }) port
      (least < cw.bad → Ends (.codewordReceive port cw) s { s with
        tx := s.tx ++ [(port.val, { kind := .nak, seq := l.rx, ack := l.ack })] }) ∧
      (cw.bad ≤ least → cw.kind = .idle → Ends (.codewordReceive port cw) s freed) ∧
      (cw.bad ≤ least → cw.kind = .nak → Ends (.codewordReceive port cw) s
        (forEach ((linkOf freed port).replay.dropWhile (fun c => decide (c.seq ≠ cw.seq))) freed
          (fun u c => putCodeword u port c))) ∧
      (cw.bad ≤ least → cw.kind = .data → cw.seq ≠ l.rx →
        (seqLe cw.seq l.rx = true → Ends (.codewordReceive port cw) s freed) ∧
        (seqLe cw.seq l.rx = false → l.early = [] → ∃ u, Ends (.codewordReceive port cw) s u ∧
          linkOf u port = { linkOf freed port with early := [cw] } ∧ u = { freed with links := u.links })) ∧
      (cw.bad ≤ least → cw.kind = .data → cw.seq = l.rx → l.early = [] →
        ∃ v, Ends (.codewordReceive port cw) s (sendBare v port .idle (linkOf v port).tx) ∧
          (linkOf v port).rx = (cw.seq + 1) % 16384 ∧
          (linkOf v port).ack = ackOf (linkOf v port) ∧
          ((∀ x ∈ l.part, x.entered = false) → (∀ c, Flit.link (.truncate c) ∉ cw.flits) →
            (linkOf v port).replay = (linkOf freed port).replay ∧
            v = { freed with arrived := v.arrived, links := v.links }) ∧
          (isFresh l cw.seq = true → (∀ x ∈ l.part, x.entered = false) →
            (∀ p, cw.flits = [.head p] → p.len = 0 → v.arrived = s.arrived ++ [(port.val, p)]) ∧
            (∀ x, cw.flits = [.body vc] → l.part.find? (fun x => x.vc = vc.val) = some x → x.left = 1 →
              v.arrived = s.arrived ++ [(port.val, x.pkt)] ∧
              (linkOf v port).part = l.part.filter (fun x => x.vc ≠ vc.val)) ∧
            (cw.flits = [.link (.credit vc detour n)] →
              mget 0 (linkOf v port).used key = mget 0 l.used key - n) ∧
            (cw.flits = [.link (.truncate vc)] →
              (linkOf v port).part = l.part.filter (fun x => x.vc ≠ vc.val))) ∧
          (∀ x o q, isFresh l cw.seq = true → l.part.find? (fun x => x.vc = vc.val) = some x →
            x.entered = true → x.out = some (o, q) → o ≠ port.val → cw.flits = [.link (.truncate vc)] →
            ∃ c ∈ (linkOf v o).replay, c.flits = [.link (.truncate (vcN (packetVc q.type)))])))

/-- A port without an up group goes down with FAB_PORT_DOWN, and what it had not delivered is routed again, but for
what R240 discards, which counts in DISC_STALE, and for packets that have not arrived whole;
its neighbour's ADMIN packet tells which of the neighbour's ports are up, from which the detours follow; one
ADMIN packet leaves on every up port that has a neighbour, for that neighbour.
A packet that has waited too long is counted in DISC_ROUTE and discarded: a detoured one after 1 ms
without credits, any one after 10 ms; its source is told with status 5, but not of a packet of a job that is
aborted here. A discarded packet frees the buffer that it filled. What waits for a port that goes down is routed as
log entry 43 says, what is being forwarded in part as 127, the payload of ADMIN packets is 59's, and a timeout of a
packet that is not detoured changes nothing (log entry 26). -/
def Obligations.PortsGoDown : Prop :=
  (∀ (port : FabPort) (up : Nat) (s : State),
     (portDark s port = true ∨ portUp s port = true ∨ (linkOf s port).isDown = true →
       Settles (.portDown port) s s) ∧
     (portDark s port = false → portUp s port = false → (linkOf s port).isDown = false →
       let y := forEach (linkOf s port).part (unCut s port) (fun y x => dropCut y port x)
       let stored := (cutOnto s port).foldl List.erase (storedPackets (linkOf y port))
       ∃ v, Settles (.portDown port) s
           (raise (forEach (y.outq.filter (fun w => w.port = port.val))
             (forEach stored v (fun z p =>
               if jobCheck z p = 2 then wg z 3 discStale (min (rg z 3 discStale + 1) (2 ^ discStale.w - 1))
               else routeOut z p))
             (fun z w => routeOut z w.pkt w.src))
             { slot := 3, src := 1, part := port.val }) ∧
         (linkOf v port).isDown = true ∧ (linkOf v port).replay = [] ∧ (linkOf v port).part = [] ∧
         v.outq = y.outq.filter (fun w => w.port ≠ port.val) ∧
         v = { y with links := v.links, outq := v.outq }) ∧
     (portUp s port = true → ∃ v, Ends (.adminReceive port up) s (recomputeDetours v) ∧
       v.nbrUp = mset 0 s.nbrUp port (up % 64) ∧ v = { s with nbrUp := v.nbrUp, inbox := v.inbox }) ∧
     (∃ u, Ends .adminExchangeSend s u ∧ u = { s with inject := u.inject, free := u.free } ∧
       ∃ ps, u.inject = s.inject ++ ps ∧
         ps.map (fun q => (q.type, q.len, q.job, q.dest, q.src)) =
           ((List.range 6).filter (fun k => portUp s k)).filterMap (fun k =>
             (neighbourPos s k).map (fun pos => (0xC, 1, 0, pos, myPos s))))) ∧
  (∀ (n : Nat) (w : OutWait) (s : State), s.outq[n]? = some w →
     let v := wg (freeWait { s with outq := s.outq.eraseIdx n } w) 3 discRoute
       (min (rg s 3 discRoute + 1) (2 ^ discRoute.w - 1))
     (w.detour = true → Ends (.detourCreditTimeout n) s (sendNack v w.pkt 5)) ∧
     (w.detour = false → Ends (.detourCreditTimeout n) s s) ∧
     ((jobOf s w.pkt.job).state = 2 → Ends (.packetWaitTimeout n) s v) ∧
     ((jobOf s w.pkt.job).state ≠ 2 → Ends (.packetWaitTimeout n) s (sendNack v w.pkt 5)))

/-! ### Remote accesses and fabric time -/

/-- Requests of a source, job and epoch are performed in RSEQ order: up to 64 early ones of a source are held, and any
other that is not the one expected is dropped. One in its turn that fails a check of its
target changes no memory and is answered with the check's status; a store that passes writes its bytes and no
others; a load answers the bytes; a fetch-add answers the old value and adds to it; one whose channel is held,
or whose path is not open, waits. In Joint mode, with no request held early, no store that waits for an edge and no
sector known to be in error. The issuer matches a response by its tag and target and discards any other; one whose data cannot be stored yet
waits, a request without one ends with TIMEOUT, and a NACK raises FAB_NACK for the job that it names. The order
over one source, job and epoch is log entry 42, waiting for held channels and edges 66 and 133, what TURN_COUNT
counts of the accesses 119, the status of a response that R250 does not list 24. -/
def Obligations.RemoteAccesses : Prop :=
  (∀ (p : Packet) (c : Instr) (s : State), p ∈ s.inbox →
     c = Instr.remoteLoad p ∧ p.type = 4 ∨ c = .remoteStore p ∧ p.type = 5 ∨ c = .remoteFetchAdd p ∧ p.type = 6 →
     (p.rseq ≠ expectSeq s p →
       let held := s.remote.early.filter (fun q => q.src = p.src)
       let room := (p.rseq + 65536 - expectSeq s p) % 65536 < 32768 ∧ held.length < 64 ∧
         ∀ q ∈ held, ¬ (q.job = p.job ∧ q.epoch = p.epoch ∧ q.rseq = p.rseq)
       let v := { s with inbox := s.inbox.erase p }
       (room → Settles c s { v with remote := { s.remote with early := s.remote.early ++ [p] } }) ∧
       (¬ room → Settles c s v)) ∧
     (p.rseq = expectSeq s p → remoteHeld s p = true → Settles c s s)) ∧
  (∀ (p : Packet) (s : State), p ∈ s.inbox → p.rseq = expectSeq s p → s.remote.early = [] → s.errs = [] → s.posted = [] →
     remoteHeld s p = false → isPaired s = false → pairedForm s = false →
     let e := remoteCheck s p
     let n := remoteLen p
     let answer (status : Nat) (data : List Byte) : Packet :=
       { type := 7, len := (flitPad data).2, dest := p.src, src := myPos s, job := p.job, epoch := p.epoch
         status := status, tag := p.tag, payload := (flitPad data).1 }
     let rsp (u : State) (status : Nat) (data : List Byte) : Prop :=
       u.inject = s.inject ++ [answer status data] ∧
       u.inbox = s.inbox.erase p ∧ expectSeq u p = (p.rseq + 1) % 65536
     (∀ c, c = Instr.remoteLoad p ∧ p.type = 4 ∨ c = .remoteStore p ∧ p.type = 5 ∨
         c = .remoteFetchAdd p ∧ p.type = 6 →
       (e ≠ 0 → ∃ u, Settles c s u ∧ rsp u e [] ∧ u.mem = s.mem ∧ u.due = s.due)) ∧
     (e = 0 →
       (p.type = 4 → ∃ u, Settles (.remoteLoad p) s u ∧ rsp u 0 (rdBytes s p.addr n) ∧ u.mem = s.mem) ∧
       (p.type = 5 → n ≤ p.payload.length → ∃ u, Settles (.remoteStore p) s u ∧ rsp u 0 [] ∧
         (∀ i, (h : i < n) → rdByte u (p.addr + i) = p.payload.getD i 0) ∧
         (∀ a, a < p.addr ∨ p.addr + n ≤ a → rdByte u a = rdByte s a)) ∧
       (p.type = 6 → ∃ u, Settles (.remoteFetchAdd p) s u ∧ rsp u 0 (rdBytes s p.addr 8) ∧
         rdLe u p.addr 8 = (rdLe s p.addr 8 + leNat (p.payload.take 8)) % 2 ^ 64 ∧
         (∀ a, a < p.addr ∨ p.addr + 8 ≤ a → rdByte u a = rdByte s a)))) ∧
  (∀ (p : Packet) (o : Outstanding) (tag : Nat) (s : State),
     (p ∈ s.inbox → p.type = 7 →
       let v := { s with inbox := s.inbox.erase p }
       (s.remote.out.find? (fun o => o.tag = p.tag && o.target = p.src) = none →
         Settles (.remoteResponse p) s v) ∧
       (s.remote.out.find? (fun o => o.tag = p.tag && o.target = p.src) = some o →
         (p.status = 0 → answerWaits s o = true → Settles (.remoteResponse p) s s) ∧
         (p.status ≠ 0 ∨ answerWaits s o = false → Settles (.remoteResponse p) s
           (endRequest v o (if p.status = 0 then 0 else issuerStatus p.status) p.payload)))) ∧
     (s.remote.out.find? (fun o => o.tag = tag) = some o →
       Settles (.remoteRequestTimeout tag) s (endRequest s o 0x0B [])) ∧
     (p ∈ s.inbox → p.type = 8 → 5 ≤ p.status → p.status ≤ 7 →
       Settles (.nackReceive p) s
         { s with inbox := s.inbox.erase p, due := s.due ++ [{ slot := 3, src := 2, job := p.job }] }))

/-- Fabric time never falls, whatever a neighbour says: of the best neighbour it hears, a small correction is slewed,
a large one forward is one step, a large one backward becomes a hold, and the package passes TSYNC on over its other
up ports. A package that hears no better master than itself takes no correction. The master sends a TSYNC over each
of its up ports, addressed to the neighbour there; a synchronised package without TSYNC enters holdover, where
neither SYNC nor a parent remains. On an empty queue a step is one microsecond of fabric time (the model's choice:
log entry 1): while the router keeps it, the counter runs 1,000 ns, one more or less while a small correction is
slewed, and less while it holds for a large correction backward (log entry 104). While VAUX33 is valid the
microsecond counts as up or as down (R365); where the memory controllers have nothing queued, only the counters of
the engines' progress move beside that (log entries 32, 114). A TSYNC of a port that is not up is none, and a
TSYNC_SEND of another package than the master (log entry 26). -/
def Obligations.FabricTime : Prop :=
  (∀ (port : FabPort) (master hops time : Nat) (s : State),
     let recv := Instr.tsyncReceive port master hops time
     let adv := mset 0 s.ft.adv port (master % 65536 * 256 + hops % 256 + 1)
     let v : State := { s with ft := { s.ft with adv := adv } }
     let tells (skip : Option Nat) : List Packet :=
       ((List.range 6).filter (fun p => portUp s p && decide (some p ≠ skip))).filterMap (fun p =>
         (neighbourPos s p).map (fun pos => { type := 0xB, dest := pos, src := myPos s }))
     (time < 2 ^ 64 → ∃ u, Ends recv s u ∧ s.ft.t ≤ u.ft.t ∧
       u = { s with regs := u.regs, ft := u.ft, inject := u.inject } ∧
       (u.ft.t = s.ft.t ∨ u.ft.t = time ∧ s.ft.t + 1000 < time)) ∧
     (portUp s port = false → Ends recv s s) ∧
     (portUp s port = true → isMaster v = true → Ends recv s v) ∧
     (∀ b k, portUp s port = true → isMaster v = false → bestAdv v = some (b, k) → k ≠ port →
       Ends recv s { v with ft := { v.ft with parent := some k } }) ∧
     (∀ b, portUp s port = true → isMaster v = false → bestAdv v = some (b, port.val) → time < 2 ^ 64 →
       ∃ u, Ends recv s u ∧ rg u 3 ftStatusSync = 1 ∧ rg u 3 ftStatusHoldover = 0 ∧ rg u 3 ftStatusMaster = 0 ∧
         rg u 3 ftStatusHops = (b % 256 + 1) % 2 ^ 8 ∧ u.inject = s.inject ++ tells (some port.val) ∧
         u = { s with regs := u.regs, ft := u.ft, inject := u.inject } ∧
         let x : FabTime := { v.ft with parent := some port.val, slew := 0, behind := 0 }
         (s.ft.t ≤ time → time ≤ s.ft.t + 1000 → u.ft = { x with slew := ((time - s.ft.t : Nat) : Int) }) ∧
         (time < s.ft.t → s.ft.t ≤ time + 1000 → u.ft = { x with slew := -((s.ft.t - time : Nat) : Int) }) ∧
         (s.ft.t + 1000 < time → u.ft = { x with t := time }) ∧
         (time + 1000 < s.ft.t → u.ft = { x with behind := s.ft.t - time })) ∧
     (isMaster s = true → ∃ u, Ends .tsyncSend s u ∧ rg u 3 ftStatusMaster = 1 ∧ rg u 3 ftStatusSync = 0 ∧
       rg u 3 ftStatusMasterIdx = myIndex s ∧ u.inject = s.inject ++ tells none ∧
       u.ft = { s.ft with parent := none } ∧ u = { s with regs := u.regs, ft := u.ft, inject := u.inject }) ∧
     (isMaster s = false → Ends .tsyncSend s s) ∧
     (rg s 3 ftStatusSync = 1 → ∃ u, Ends .ftHoldover s u ∧ rg u 3 ftStatusSync = 0 ∧
       rg u 3 ftStatusHoldover = 1 ∧ u.ft = { s.ft with parent := none, adv := [] } ∧
       u = { s with regs := u.regs, ft := u.ft }) ∧
     (rg s 3 ftStatusSync ≠ 1 → Ends .ftHoldover s s)) ∧
  (∀ s : State, s.pending = [] →
     ∃ u, step s = .next u ∧ u.clock = s.clock + 1 ∧
       u.upTime = s.upTime + b2n (s.pins.vauxOk && isUp s) ∧
       u.downTime = s.downTime + b2n (s.pins.vauxOk && !isUp s) ∧
       ((∀ d, d < 4 → (die s d).mem.queue = []) →
         u = { s with ft := u.ft, clock := u.clock, upTime := u.upTime, downTime := u.downTime,
                      cports := u.cports, tremor := u.tremor, free := u.free }) ∧
     (performs s 3 = false → u.ft = s.ft) ∧
     (performs s 3 = true →
       let f := u.ft
       f.parent = s.ft.parent ∧ f.adv = s.ft.adv ∧
       (s.ft.behind = 0 → s.ft.slew = 0 → f = { s.ft with t := (s.ft.t + 1000) % 2 ^ 64 }) ∧
       (s.ft.behind = 0 → s.ft.slew > 0 →
         f.t = (s.ft.t + 1001) % 2 ^ 64 ∧ f.slew = s.ft.slew - 1 ∧ f.behind = 0) ∧
       (s.ft.behind = 0 → s.ft.slew < 0 →
         f.t = (s.ft.t + 999) % 2 ^ 64 ∧ f.slew = s.ft.slew + 1 ∧ f.behind = 0) ∧
       (0 < s.ft.behind → f.behind = s.ft.behind - 1000 ∧ f.slew = s.ft.slew ∧
         f.t = (s.ft.t + (1000 - s.ft.behind)) % 2 ^ 64)))

/-! ### Queues, collectives and Geyser -/

/-- Q_CFG and GQ_DATA: an enable of a disabled queue checks its configuration and either starts it at its rank
with new counts or refuses it with the reason; a disable takes only a queue with nothing in flight; an
enabled queue ignores an enable. A quota is taken within the slots that no group has, and REJ is set
otherwise. The disabling write that takes no other field is log entry 75; a requester that reaches no register writes
none (BlockDropsWrite). -/
def Obligations.QueuesConfigure : Prop :=
  ∀ (r : Requester) (h : Half) (val : BitVec 32) (s : State),
    let v := val.toNat
    let q := 32 * h.val + rg s (0x102 + 0x100 * h.val) qSel
    let c := cqOf s q
    let x : Cq := { c with
      en := true, order := v / 2 ^ 30 % 2, fan := v / 2 ^ 27 % 8, trees := v / 2 ^ 23 % 16
      group := v / 2 ^ 13 % 1024, job := v % 4096 }
    let put (y : Cq) : State := { s with cqs := mset {} s.cqs q y }
    (performs s (0x102 + 0x100 * h.val) = true → reached s r = true →
      (c.en = true → Settles (.queueEnable r h val) s s) ∧
      (c.en = false → queueReason s q x ≠ 0 → Settles (.queueEnable r h val) s
        (put { x with state := 3, reason := queueReason s q x })) ∧
      (∀ k, c.en = false → queueReason s q x = 0 → rankAt s x 0 (myPos s) = some k →
        Settles (.queueEnable r h val) s
          (put { x with state := 1, reason := 0, rank := k, num := 0, recv := [], fum := [] })) ∧
      (c.en = true → inflight c ≠ 0 → Settles (.queueDisable r h val) s s) ∧
      (c.en = true → inflight c = 0 → Settles (.queueDisable r h val) s
        (put { c with en := false, state := 0, reason := 0, rank := 0 })) ∧
      (c.en = false → Settles (.queueDisable r h val) s (put { x with en := false }))) ∧
    (performs s (0x101 + 0x100 * h.val) = true → reached s r = true →
      let m := 0x101 + 0x100 * h.val
      let job := rg s m gqSelJob
      let grp := rg s m gqSelGroup
      let n := v % 32768
      let fits := heldBy s h job grp = 0 ∧
        n ≤ 24576 - ((geyser s h).quota.map Prod.snd).sum + quotaOf s h job grp
      (job = 0 → Settles (.gqQuotaWrite r h val) s s) ∧
      (job ≠ 0 → fits → ∃ u, Settles (.gqQuotaWrite r h val) s u ∧ quotaOf u h job grp = n ∧
        (geyser u h).rej = false ∧ (geyser u h).slots = (geyser s h).slots ∧
        (geyser u h).resv = (geyser s h).resv ∧ u = { s with geysers := u.geysers }) ∧
      (job ≠ 0 → ¬ fits → Settles (.gqQuotaWrite r h val) s
        { s with geysers := mset {} s.geysers h { geyser s h with rej := true } }))

/-- JOB_DATA and RT_DATA: job 0, the reserved state, a return from aborted to active in one epoch and the end
of a job that a sequencer or an enabled queue still serves are ignored, any other value is the job's entry; a
route table takes its header or entry while no enabled queue names it. That a stopped queue is still enabled is log entry 101, that
a new epoch starts the request numbers anew 42. -/
def Obligations.JobsAndRoutesWritten : Prop :=
  ∀ (r : Requester) (val : BitVec 32) (s : State), performs s 3 = true → reached s r = true →
    let v := val.toNat
    let j := rg s 3 jobSel
    let old := jobOf s j
    let new : Job := ⟨decide (v / 2 ^ 31 = 1), decide (v / 2 ^ 30 % 2 = 1), v / 2 ^ 28 % 4, v % 256⟩
    let ends := new.member = false ∧ new.state = 0 ∧ jobIdle s j = false
    (j = 0 ∨ new.state = 3 ∨ old.state = 2 ∧ new.state = 1 ∧ new.epoch = old.epoch ∨ ends →
      Settles (.jobDataWrite r val) s s) ∧
    (j ≠ 0 → new.state ≠ 3 → ¬ (old.state = 2 ∧ new.state = 1 ∧ new.epoch = old.epoch) → ¬ ends →
      s.lobeIdle = [] → ∃ u, Settles (.jobDataWrite r val) s u ∧ jobOf u j = new ∧
        (∀ k, k ≠ j → jobOf u k = jobOf s k) ∧ (new.epoch = old.epoch → u.remote = s.remote ∧ u.inbox = s.inbox) ∧
        u = { s with jobs := u.jobs, remote := u.remote, inbox := u.inbox }) ∧
    (let n := rg s 3 rtSelTable
     let k := n * 32768 + rg s 3 rtSelIndex
     (tableInUse s n = true → Settles (.rtDataWrite r val) s s) ∧
     (tableInUse s n = false →
      (rg s 3 rtSelHdr = 1 → 32768 < v % 65536 → Settles (.rtDataWrite r val) s s) ∧
      (rg s 3 rtSelHdr = 1 → v % 65536 ≤ 32768 → ∃ u, Settles (.rtDataWrite r val) s u ∧
        rtJob u n = v / 65536 % 4096 ∧ rtCount u n = v % 65536 ∧ u = { s with rtHdr := u.rtHdr }) ∧
      (rg s 3 rtSelHdr ≠ 1 → Settles (.rtDataWrite r val) s
        { s with rtEnt := mset 0 s.rtEnt k (v % 65536) })))

/-- The operations of a queue start in posting order, at most 16 of them, a TINY or a BARRIER alone of its
kind, and not before the engine can read what they read (log entry 66); one whose footprint leaves its job's windows
ends with WINDOW, and a receive grants its sender. A finished operation leaves its queue; a job's aborted operations
leave theirs together. An accepted ERUPT aborts the job, and a stale one is counted in DISC_STALE (log entry 77).
A start that no operation is due for and an end of an operation that has not finished change nothing (log
entry 26). -/
def Obligations.OperationsRunInOrder : Prop :=
  ∀ (q : Fin 64) (o : Op) (p : Packet) (s : State),
    let c := cqOf s q
    let first := c.ops.find? (fun x => !x.started && !x.ready) = some o
    let alone := isTiny o.desc && c.ops.any (fun x => x.started && isTiny x.desc)
    (c.state ≠ 1 ∨ 16 ≤ inflight c ∨ c.ops.all (fun x => x.started || x.ready) = true ∨ first ∧ alone = true →
      ∃ u, Settles (.collOpStart q) s u ∧ u = { s with tremor := u.tremor }) ∧
    (c.state = 1 → inflight c < 16 → first → alone = false → opOf s q o.id = some o →
      (readsHeld s q o = true → Ends (.collOpStart q) s s) ∧
      (readsHeld s q o = false → opWindows s c o.desc = false → auxReads c o.desc = [] ∨ s.errs = [] →
        ∃ u, Settles (.collOpStart q) s u ∧ opOf u q o.id = some { o with
            started := true, start := s.starts, ready := true, code := 3, detail := 0 } ∧
          u = { s with cqs := u.cqs, starts := s.starts + 1, tremor := u.tremor }) ∧
      (readsHeld s q o = false → opWindows s c o.desc = true → qdOp o.desc = 2 → 0 < qdBytes o.desc →
        posAt s c 0 (qdPeer o.desc) ≠ myPos s → ∃ u, Settles (.collOpStart q) s u ∧
          (∃ x, opOf u q o.id = some x ∧ x.started = true ∧ x.desc = o.desc ∧ x.num = o.num) ∧
          u.inject = s.inject ++ [msgPkt s c 0 (qdPeer o.desc) 0x1000 o.num 0
            (leBytes 8 (qdBytes o.desc) ++ leBytes 1 1 ++ leBytes 55 0)] ∧
          u = { s with cqs := u.cqs, inject := u.inject, starts := s.starts + 1, tremor := u.tremor })) ∧
    (opOf s q o.id = some o → o.ready = true → Settles (.collOpComplete q o.id) s (completeOp s q o)) ∧
    (opOf s q o.id = some o → o.ready = false → Settles (.collOpComplete q o.id) s s) ∧
    (∀ j, ∃ u, Settles (.queueAbortComplete j) s u ∧ ∀ k x, (k, x) ∈ s.cqs → x.job = j → x.state = 2 →
      ∀ y ∈ x.ops, y.ready = true → ∀ z ∈ (cqOf u k).ops, z.id ≠ y.id) ∧
    (p ∈ s.inbox → p.type = 0xA →
      let v := { s with inbox := s.inbox.erase p }
      (eruptOk s p = true → Settles (.eruptReceive p) s (abortJob v p.job (some p.src))) ∧
      (eruptOk s p = false → Settles (.eruptReceive p) s
        (wg v 3 discStale (min (rg s 3 discStale + 1) (2 ^ discStale.w - 1)))))

/-- A packet of a transfer meets the started operation that expects it: a SEND by its tag, with the grant of a
RECV, any other by its number. A grant that agrees lets data go and one that does not ends it with MISMATCH; a
grant for an operation that has not started is held, and so is the DONE of its pair of zero bytes; a DONE ends
a pair, or reports a mismatch, which its BYTES tell (log entry 126); data and results are written where the operation
puts them, and a result of an operation with an owner that is no rank ends it with MALFORMED. Any other, and one
of a group that no queue serves, is discarded and counted in COLL_DISC (log entries 76, 78). One for which the engine
cannot read yet waits (log entry 66). The number that a group gives DATA and the others is log entry 78, the
pair of zero bytes 21. -/
def Obligations.TransfersMeetOperations : Prop :=
  ∀ (p : Packet) (s : State), p ∈ s.inbox → p.type = 3 →
    let v := { s with inbox := s.inbox.erase p }
    let kinds := [(0x1000, Instr.ctsReceive p), (0, .msgDataReceive p), (0x2000, .msgDoneReceive p),
      (0x3000, .msgResultReceive p)]
    let discard (m : Nat) : State :=
      wg v (0x102 + 0x100 * m) collDisc (min (rg s (0x102 + 0x100 * m) collDisc + 1) (2 ^ 32 - 1))
    (msgHeld s p = true → ∀ k ∈ kinds, Ends k.2 s s) ∧
    (∀ k ∈ kinds, p.node = k.1 → msgHeld s p = false →
      (queueFor s p.job p.group = none → Settles k.2 s (discard 0)) ∧
      (∀ q, queueFor s p.job p.group = some q → rankAt s (cqOf s q) 0 p.src = none →
        Settles k.2 s (discard (q / 32)))) ∧
    (∀ q r, queueFor s p.job p.group = some q → rankAt s (cqOf s q) 0 p.src = some r → msgHeld s p = false →
      let c := cqOf s q
      let bytes := leNat (p.payload.take 8)
      let op := leNat ((p.payload.drop 8).take 1)
      let page := 0x102 + 0x100 * (q / 32)
      (p.node = 0x1000 → c.ops.find? (fun o => o.started && !o.ready && grantFits s c o r p.tag op) = none →
        s.grants.countP (fun g => g.half = q / 32) < 262144 →
        Settles (.ctsReceive p) s
          (retire { v with grants := s.grants ++ [⟨q / 32, p.job, p.group, p.src, p.tag, bytes, op, false⟩] }
            page)) ∧
      (∀ o, p.node = 0x1000 →
        c.ops.find? (fun o => o.started && !o.ready && grantFits s c o r p.tag op) = some o →
        bytes ≠ sendBytes s o.desc r ∨ op ≠ qdOp o.desc → posAt s c 0 r ≠ myPos s →
        opOf s q o.id = some o → ∃ u, Settles (.ctsReceive p) s u ∧
          opOf u q o.id = some { o with ready := true, code := 6, detail := r } ∧
          u.inject = s.inject ++ [{ msgPkt s c 0 r 0x2000 o.num 0 [] with bytes := 1 }] ∧
          u = { v with cqs := u.cqs, inject := u.inject, tremor := u.tremor }) ∧
      (∀ o, p.node = 0 → c.ops.find? (fun o => expectsData s c o r p.tag) = some o → opOf s q o.id = some o →
        let (a, n) := dataPlace s o r (p.bucket * 65536 + p.chunk)
        let w := storeBoth v (engineSource q) a (p.payload.take n)
        ∃ u, Settles (.msgDataReceive p) s u ∧
          (∃ x, opOf u q o.id = some x ∧ mget 0 x.rx r = mget 0 o.rx r + 1 ∧ x.desc = o.desc) ∧
          u = { w with cqs := u.cqs, inject := u.inject, inbox := u.inbox, tremor := u.tremor }) ∧
      (p.node = 0 → c.ops.find? (fun o => expectsData s c o r p.tag) = none →
        Settles (.msgDataReceive p) s (discard (q / 32))) ∧
      (p.node ∉ [0, 0x1000, 0x2000, 0x3000] → Settles (.msgDataReceive p) s (discard (q / 32))) ∧
      (∀ o, p.node = 0x2000 → c.ops.find? (fun o => expectsDone s c o r p.tag (isMismatch p)) = some o →
        opOf s q o.id = some o → ∃ u, Settles (.msgDoneReceive p) s u ∧
          u = { v with cqs := u.cqs, tremor := u.tremor } ∧
          (isMismatch p = true →
            opOf u q o.id = some { o with ready := true, code := 6, detail := r }) ∧
          (isMismatch p = false → ∃ x, opOf u q o.id = some x ∧ x.doneBy = o.doneBy ++ [r] ∧
            x.desc = o.desc ∧ x.rx = o.rx ∧ x.sent = o.sent)) ∧
      (p.node = 0x2000 → c.ops.find? (fun o => expectsDone s c o r p.tag (isMismatch p)) = none →
        (isMismatch p = true ∨ s.grants.any (isEarlyDone q p) = false → Settles (.msgDoneReceive p) s (discard (q / 32))) ∧
        (isMismatch p = false → s.grants.any (isEarlyDone q p) = true → Settles (.msgDoneReceive p) s
          (retire { v with grants := updFirst (isEarlyDone q p) (fun g => { g with done := true }) s.grants }
            page))) ∧
      (∀ o a, p.node = 0x3000 → c.ops.find? (fun o => expectsResult s c o p) = some o →
        opOf s q o.id = some o → resultPlace s c o.desc p.bucket p.chunk = some a →
        (ownersOk s c o.desc = false → ∃ u, Settles (.msgResultReceive p) s u ∧
          opOf u q o.id = some { o with ready := true, code := 2, detail := 0 } ∧
          u = { v with cqs := u.cqs, tremor := u.tremor }) ∧
        (ownersOk s c o.desc = true →
          let w := storeBoth v (engineSource q) a (p.exps ++ List.replicate 32 0 ++ p.payload)
          ∃ u, Settles (.msgResultReceive p) s u ∧
            (∃ x, opOf u q o.id = some x ∧ mget 0 x.rx 0 = mget 0 o.rx 0 + 1 ∧ x.desc = o.desc) ∧
            u = { w with cqs := u.cqs, inject := u.inject, inbox := u.inbox, tremor := u.tremor })) ∧
      (p.node = 0x3000 → c.ops.find? (fun o => expectsResult s c o p) = none →
        Settles (.msgResultReceive p) s (discard (q / 32))))

/-- A chunk that fails a check of its Geyser is reported and discarded; the first of a node's chunks is kept
in the node's slot, and a later one is combined with it, the lower-rank child left unless the order is free,
and counted; with the last child's the result leaves the node. A corrected read of the slot's memory is
raised; after an uncorrectable one, which is raised too, the slot takes the chunks that are still to come and combines
none of them. A grant gives each of its buckets its credits, and a returned credit goes to the first grant with
returns to come, where it counts unless the grant is over (log entry 51). A contribution to a tiny collective waits
in its queue for its sibling, and one that its node does not expect is dropped (log entry 76). A packet for which
the engine cannot read yet waits (log entry 66). -/
def Obligations.ReductionPackets : Prop :=
  ∀ (p : Packet) (q : Nat) (mem : List SlotRead) (s : State), p ∈ s.inbox → queueFor s p.job p.group = some q →
    let v := { s with inbox := s.inbox.erase p }
    let c := cqOf s q
    let t := p.bucket % c.trees
    (geyserHeld s p = true → (∀ g, Ends (.redChunkReceive g ⟨p, mem⟩) s s) ∧
      Ends (.resvCreditReceive ⟨p, mem⟩) s s ∧ Ends (.resvGrantReceive ⟨p, mem⟩) s s) ∧
    (∀ g : Half, g.val = t % 2 → p.type = 1 → geyserHeld s p = false →
      (∀ src, redError s g p = some src → Settles (.redChunkReceive g ⟨p, mem⟩) s
        (geyError v g src p.job p.group p.bucket p.node)) ∧
      (∀ n f x, redError s g p = none → myNode s c t = some (n, f) →
        resvFor s g p.job p.group p.bucket f p.node = some x →
        (slotOf s g x p.chunk = none → ∃ u, Settles (.redChunkReceive g ⟨p, mem⟩) s u ∧
          slotOf u g x p.chunk = some ⟨x.job, x.group, x.bucket, p.chunk, x.host, x.op, p.len, p.exps,
            p.payload, [p.node], false, false⟩ ∧
          u = { v with geysers := u.geysers }) ∧
        (∀ y, slotOf s g x p.chunk = some y →
          let page := 0x101 + 0x100 * g.val
          let ev (src : Nat) : Event :=
            { slot := page, src := src, job := x.job, detail := x.group + x.bucket * 2 ^ 16 + x.host * 2 ^ 32 }
          let order := x.credit.map Prod.fst
          let mine := (p.exps, p.payload)
          let kept := (y.exps, y.data)
          let e := if x.order = 1 ∨ order.idxOf (y.got.headD 0) ≤ order.idxOf p.node
            then geyserNode p.len kept mine else geyserNode p.len mine kept
          let z : Slot := { y with exps := e.1, data := e.2, got := y.got ++ [p.node] }
          let found := mem.headD .clean
          let combined (w : State) : Prop :=
            rg w page combineCount = min (rg s page combineCount + 1) (2 ^ 32 - 1) ∧
            rg w page specialCount = min (rg s page specialCount + e.1.countP (fun b => b == 0xFF)) (2 ^ 32 - 1) ∧
            (found = .clean → w.due = s.due) ∧ (found = .corrected → w.due = s.due ++ [ev srcGeyMemCe]) ∧
            w = { v with geysers := w.geysers, regs := w.regs, tremor := w.tremor, due := w.due }
          (y.lost = true → ∃ u, Settles (.redChunkReceive g ⟨p, mem⟩) s u ∧
            slotOf u g x p.chunk = some { y with got := y.got ++ [p.node] } ∧ u = { v with geysers := u.geysers }) ∧
          (y.lost = false → found ≠ .uncorrectable → y.got.length + 1 ≠ x.credit.length →
            ∃ u, Settles (.redChunkReceive g ⟨p, mem⟩) s u ∧ slotOf u g x p.chunk = some z ∧ combined u) ∧
          (y.lost = false → found ≠ .uncorrectable → y.got.length + 1 = x.credit.length →
            ∃ w x', Settles (.redChunkReceive g ⟨p, mem⟩) s (releaseResult w g x' z (mem.drop 1)) ∧ combined w ∧
              sameResv x x' = true ∧ x'.seen = x.seen ++ [(p.chunk, p.node)] ∧ x'.sent = x.sent) ∧
          (y.lost = false → found = .uncorrectable → ∃ u, Settles (.redChunkReceive g ⟨p, mem⟩) s u ∧
            slotOf u g x p.chunk = some { y with got := y.got ++ [p.node], lost := true } ∧
            u.due = s.due ++ [ev srcGeyMemUe] ∧
            u = { v with geysers := u.geysers, regs := u.regs, due := u.due })))) ∧
    (p.type = 2 → p.len = 0 → geyserHeld s p = false → ∃ w, Settles (.resvCreditReceive ⟨p, mem⟩) s
        (useCredit w p.job p.group p.bucket p.node mem) ∧ w = { v with credits := w.credits } ∧
      let left (s : State) : Nat := creditOf s p.job p.group p.bucket p.node
      (∀ x, s.credits.find? (isCredit p.job p.group p.bucket p.node) = some x →
        left w = if x.ended then left s else left s + 1) ∧
      (s.credits.find? (isCredit p.job p.group p.bucket p.node) = none → left w = left s)) ∧
    (p.type = 2 → p.len = 1 → geyserHeld s p = false →
      let b0 := leNat ((p.payload.drop 2).take 2)
      let b1 := leNat ((p.payload.drop 4).take 2)
      let bs := ((List.range (b1 + 1 - b0)).map (· + b0)).filter (fun b => b % c.trees = b0 % c.trees)
      let w := { v with credits := s.credits ++ bs.map (fun b =>
        { job := p.job, group := p.group, bucket := b, node := p.node, n := leNat (p.payload.take 2) }) }
      Settles (.resvGrantReceive ⟨p, mem⟩) s
        (forEach bs w (fun w b => useCredit w p.job p.group b p.node (if b = b0 then mem else [])))) ∧
    (p.type = 9 → p.chunk = 0 → ∀ n, hostedNode 1 c.rank = some n →
      let kids := (childNodes n.1 n.2 c.members 1).map (nodeField 1)
      (p.node ∉ kids → Settles (.fumReceive p) s (retire v (0x102 + 0x100 * (q / 32)))) ∧
      (p.node ∈ kids → tinyOp c p.tag = none →
        Settles (.fumReceive p) s (retire
          { v with cqs := mset {} s.cqs q { c with fum := c.fum ++ [(p.node, p.tag, p.payload)] } }
          (0x102 + 0x100 * (q / 32))))) ∧
    (p.type = 9 → 2 ≤ p.chunk → Settles (.fumReceive p) s (retire v (0x102 + 0x100 * (q / 32))))

/-! ### The host interface -/

/-- PORT_CFG, RING_CFG and RING_HEAD: a disabled port takes its fields and its enabling restarts the sequence
number, an enabled one is disabled only without commands, port 255 has no configuration; an enabled ring
starts empty, and one in use is not disabled; a HEAD that leaves more records than the ring holds is ignored.
A completion record is written at the ring's tail while there is room, and an owed vector is sent when the
holdoff ends. A port without a configuration is log entry 56; a record that cannot be written yet and a holdoff
that does not run change nothing (log entry 26), and an enabled ring keeps its TAIL and HEAD (log entry 89). -/
def Obligations.PortsAndRings : Prop :=
  ∀ (r : Requester) (p : Half) (val : BitVec 32) (s : State),
    let v := val.toNat
    let m := 0x103 + 0x100 * p.val
    (performs s m = true → reached s r = true →
      let n := rg s m portSel
      let c := cportOf s p n
      let put (x : CPort) : State := { s with cports := mset {} s.cports (256 * p.val + n) x }
      (n = 255 → Settles (.portCfgWrite r p val) s s) ∧
      (n ≠ 255 → c.en = true → v < 2 ^ 31 → c.cmds = [] →
        Settles (.portCfgWrite r p val) s (put { c with en := false })) ∧
      (c.en = true → 2 ^ 31 ≤ v ∨ c.cmds ≠ [] → Settles (.portCfgWrite r p val) s s) ∧
      (n ≠ 255 → c.en = false → Settles (.portCfgWrite r p val) s
        (put { c with
          en := decide (2 ^ 31 ≤ v), kind := v / 2 ^ 30 % 2, queue := v / 2 ^ 24 % 64
          ring := v / 2 ^ 18 % 64, seq := if 2 ^ 31 ≤ v then 1 else c.seq })) ∧
      (let k := rg s m ringSel
       let x := ringOf s p k
       let head := v % 65536
       (∃ u, Settles (.ringCfgWrite r p val) s u ∧ u = { s with rings := u.rings } ∧
        let y := ringOf u p k
        y.size = (if 8 ≤ v / 2 ^ 27 % 16 then v / 2 ^ 27 % 16 else x.size) ∧
        y.vector = v / 2 ^ 16 % 2048 ∧ y.irqEn = decide (v / 2 ^ 15 % 2 = 1) ∧ y.holdoff = v % 256 ∧
        (2 ^ 31 ≤ v → y.en = true ∧ (x.en = false → y.tail = 0 ∧ y.head = 0)) ∧
        (v < 2 ^ 31 → y.en = (x.en && ringInUse s p k) ∧ y.tail = x.tail ∧ y.head = x.head)) ∧
       ((x.tail + 65536 - head) % 65536 ≤ 2 ^ x.size → Settles (.ringHeadWrite r p val) s
          { s with rings := mset {} s.rings (64 * p.val + k) { x with head := head } }) ∧
       (2 ^ x.size < (x.tail + 65536 - head) % 65536 → Settles (.ringHeadWrite r p val) s s))) ∧
    (∀ k : Fin 64,
      let x := ringOf s p k
      let put (y : Ring) : State := { s with rings := mset {} s.rings (64 * p.val + k.val) y }
      (x.waiting = [] ∨ x.en = false ∨ 2 ^ x.size ≤ ringUsed x → Ends (.completionRecordWrite p k) s s) ∧
      (∀ c cs, x.waiting = c :: cs → x.en = true → ringUsed x < 2 ^ x.size →
        ∃ u, Ends (.completionRecordWrite p k) s u ∧
          u.hostOut = s.hostOut ++ [⟨p, x.base + 32 * (x.tail % 2 ^ x.size),
            leBytes 8 c.handle ++ leBytes 8 c.result ++ leBytes 8 c.time ++ leBytes 4 c.detail ++
            leBytes 2 c.status ++ [0, BitVec.ofNat 8 ((x.tail / 2 ^ x.size + 1) % 2)]⟩] ∧
          (ringOf u p k).tail = (x.tail + 1) % 65536 ∧ (ringOf u p k).waiting = cs ∧
          (c.irq = false → u.msix = s.msix)) ∧
      (x.holding = false → Ends (.msixHoldoffExpiry p k) s s) ∧
      (x.holding = true → x.owed = false → Ends (.msixHoldoffExpiry p k) s
        (put { x with holding := false })) ∧
      (x.holding = true → x.owed = true → Ends (.msixHoldoffExpiry p k) s
        (sendMsix (put { x with owed := false }) p x.vector)))

/-- A read of SUBMIT returns all ones and submits nothing while the port is BUSY or where it is not 8 bytes
wide; otherwise it returns the handle of the accepted command, which the port lists. A queue post enters its
queue with the next id; a stopped queue answers Q_STOPPED. That the commands carry the width of the read is log
entry 44, port 255 log entry 56. A post that names a table in memory is stated where no sector is known to be in
error. -/
def Obligations.SubmitAccepts : Prop :=
  ∀ (p : Half) (n : Fin 256) (width : Nat) (s : State),
    let x := cportOf s p n
    let h := (256 * p.val + n.val) * 2 ^ 48 + x.seq
    let rows := [(Instr.cmdNop p n width, fun o => o = 0 || 6 ≤ o), (.cmdDma p n width, fun o => o = 1),
      (.cmdSeqRun p n width, fun o => o = 2), (.cmdAbort p n width, fun o => o = 3),
      (.cmdTest p n width, fun o => o = 4), (.cmdWaitFault p n width, fun o => o = 5)]
    let accepted (kind : Bool) : State :=
      { s with
        resp := .value h
        cports := mset {} s.cports (256 * p.val + n.val)
          { x with
            seq := if x.seq + 1 < 2 ^ 48 - 1 then x.seq + 1 else 1
            cmds := x.cmds ++ [{ handle := h, raw := x.desc, queueKind := kind, started := kind }] } }
    let full := n ≠ 255 ∧ (x.en = false ∨ 64 ≤ x.cmds.length)
    (∀ k ∈ rows, n = 255 ∨ x.kind = 0 → k.2 (x.desc % 256) = true →
      (width ≠ 8 → Settles k.1 s
        { s with
          resp := .value (2 ^ (8 * width) - 1)
          due := s.due ++ [{ slot := 0x103 + 0x100 * p.val, src := 0 }] }) ∧
      (width = 8 → full → Settles k.1 s { s with resp := .value (2 ^ 64 - 1) }) ∧
      (width = 8 → ¬ full → Settles k.1 s (accepted false))) ∧
    (n ≠ 255 → x.kind = 1 → width = 8 →
      (full ∨ 256 ≤ (cqOf s x.queue).ops.length →
        Ends (.queuePostHost p n width) s { s with resp := .value (2 ^ 64 - 1) }) ∧
      (¬ full → (cqOf s x.queue).ops.length < 256 →
        let q := cqOf s x.queue
        (q.state = 1 → qdValid s x.queue x.desc = true → auxReads q x.desc = [] ∨ s.errs = [] → ∃ u, Settles (.queuePostHost p n width) s u ∧
          (cqOf u x.queue).nextId = q.nextId + 1 ∧
          (∃ o : Op, (cqOf u x.queue).ops = q.ops ++ [o] ∧ o.id = q.nextId ∧ o.desc = x.desc ∧
            o.poster = .host p h ∧ o.started = false ∧ o.ready = false) ∧
          u = { accepted true with cqs := u.cqs }) ∧
        (q.state ≠ 1 → ∃ w, Settles (.queuePostHost p n width) s (complete (accepted true) h 7 w))))

/-- What an accepted command of a quiet package does: it starts at once, a NOP completes with OK, a TEST waits
for its target, a WAIT_FAULT for a fault; a command with a bad header, or of a reserved opcode, completes with
MALFORMED, and a SEQ_RUN of a die that cannot run with ABORTED (log entry 91); RESULT of a SEQ_RUN holds SEQ_STEP in
both cases. -/
def Obligations.CommandsStart : Prop :=
  ∀ (p : Half) (n : Fin 256) (s : State), Quiet s →
    let x := cportOf s p n
    let raw := x.desc
    let h := (256 * p.val + n.val) * 2 ^ 48 + x.seq
    x.en = true → x.kind = 0 → x.cmds = [] → x.seq < 2 ^ 48 → n.val ≠ 255 →
    let clean := raw / 2 ^ 10 % 64 = 0 ∧ raw / 2 ^ 28 % 2 ^ 36 = 0
    let body := raw / 2 ^ 64 % 2 ^ 448
    let ends (c : Instr) (status result : Nat) : Prop :=
      ∃ t, Ends c s t ∧ t.resp = .value h ∧ (cportOf t p n).cmds = [] ∧
        (ringOf t p x.ring).waiting = (ringOf s p x.ring).waiting ++
          [⟨h, result, s.ft.t, 0, status, decide (raw / 2 ^ 8 % 2 = 1)⟩] ∧
        t.mem = s.mem ∧ t.regs = s.regs
    (raw % 256 = 0 → clean → body = 0 → ends (.cmdNop p n 8) 1 0) ∧
    (raw % 256 = 0 → ¬ clean ∨ body ≠ 0 → ends (.cmdNop p n 8) 2 0) ∧
    (6 ≤ raw % 256 → ends (.cmdNop p n 8) 2 0) ∧
    (raw % 256 = 3 → ends (.cmdAbort p n 8) 2 0) ∧
    (raw % 256 = 2 → clean → raw / 2 ^ 136 % 2 ^ 376 = 0 → 4 ≤ raw / 2 ^ 128 % 256 → ends (.cmdSeqRun p n 8) 2 0) ∧
    (raw % 256 = 2 → ¬ clean → raw / 2 ^ 128 % 256 < 4 →
      ends (.cmdSeqRun p n 8) 2 (rg s (0x401 + 0x400 * (raw / 2 ^ 128 % 256)) seqStep)) ∧
    (raw % 256 = 2 → clean → raw / 2 ^ 136 % 2 ^ 376 = 0 → raw / 2 ^ 128 % 256 < 4 →
      dieRuns s (raw / 2 ^ 128 % 256) = false →
      ends (.cmdSeqRun p n 8) 4 (rg s (0x401 + 0x400 * (raw / 2 ^ 128 % 256)) seqStep)) ∧
    (raw % 256 = 4 → clean → testOk { handle := h, raw := raw } = true →
      ∃ t u, Ends (.cmdTest p n 8) s u ∧ u.tests = s.tests ++ [t] ∧ t.cmd = some (p.val, h) ∧
        t.kind = raw / 2 ^ 64 % 256 ∧ t.die = raw / 2 ^ 72 % 256 ∧ t.unit = raw / 2 ^ 80 % 65536 ∧
        t.deadline = raw / 2 ^ 128 % 2 ^ 32 ∧ t.started = false ∧
        ∃ c, (cportOf u p n).cmds = [c] ∧ c.handle = h ∧ c.started = true) ∧
    (raw % 256 = 5 → clean → raw / 2 ^ 64 % 256 ≤ 4 → raw / 2 ^ 72 % 2 ^ 440 = 0 →
      ∃ u, Ends (.cmdWaitFault p n 8) s u ∧
        ∃ c, (cportOf u p n).cmds = [c] ∧ c.handle = h ∧ c.started = true)

/-- An access through BAR4 to this package's memory, inside one 2,048-byte block: one that passes its checks
moves exactly its bytes, one that fails moves none, records its status in HI_ERR unless an earlier one stands
there and raises HI_BAR4_ERR; a read that finds an uncorrectable sector is poisoned, a read of a held channel or over
an edge that is not up waits (log entries 66, 133), and an access beyond the port's BAR4 is none (log entry 58). A DMA
from this package's memory waits likewise, completes with all its bytes when no sector is uncorrectable, else with
DATA_ERROR and no byte beyond that sector, and one whose host reads fail with HOST_ERROR; how far one that fails has
written is free (log entry 53), and what it has moved is counted at its engine. Each has first passed as traffic: what
TURN_COUNT counts is free (log entry 119). Windows and copies in Paired mode are log entry 61. -/
def Obligations.HostMovesData : Prop :=
  ∀ (p : Half) (s : State),
    let w := traffic s
    (∀ (off : Nat) (data : List Byte),
      let m := 0x103 + 0x100 * p.val
      let len := data.length
      let a := rg s m bar4WinHi * 2 ^ 32 + rg s m bar4WinLo * 2 ^ 30 + off
      let at_ := primaryAddr w (bdLocal a)
      let read := Instr.bar4Read p off len
      let write := Instr.bar4Write p off data
      let code (isWrite : Bool) : Nat := boardCheck w isWrite (rg s m bar4Job) a len
      let failed (u : State) (e : Nat) : Prop :=
        u.mem = s.mem ∧ u.due = s.due ++ [{ slot := m, src := 1, job := rg s m bar4Job }] ∧
        (rg s m hiErrValid = 1 → ∀ f ∈ [hiErrValid, hiErrStatus, hiErrOffset], rg u m f = rg s m f) ∧
        (rg s m hiErrValid ≠ 1 → rg u m hiErrValid = 1 ∧ rg u m hiErrStatus = e ∧
          rg u m hiErrOffset = off / 2 ^ 30 % 2 ^ 24)
      (2 ^ (bar4Code s p + 20) < off + len → Ends read s s ∧ Ends write s s) ∧
      (0 < len → off % 2048 + len ≤ 2048 → off + len ≤ 2 ^ (bar4Code s p + 20) →
        (barHeld w (barReq s p off len) = true →
          Settles read s { w with resp := .pending, barWait := s.barWait ++ [barReq s p off len] }) ∧
        (code true ≠ 0 → ∃ u, Settles write s u ∧ failed u (code true)) ∧
        (code false ≠ 0 → barHeld w (barReq s p off len) = false →
          ∃ u, Settles read s u ∧ failed u (code false) ∧ u.resp = .completerAbort) ∧
        (code false = 0 → bdSlot a = mySlot s → barHeld w (barReq s p off len) = false →
          ∀ x bad, reportBad w .bar4 (bdLocal a) len = (x, bad) →
            Settles read s { x with
              resp := if bad.isSome then .poisoned else .bytes (rdBytes x at_ len) }) ∧
        (code true = 0 → bdSlot a = mySlot s →
          let u := storeBoth w (.half p) (bdLocal a) data
          Settles write s u ∧
          (isPaired s = false → s.errs = [] → s.posted = [] → bothWait s (.half p) (bdLocal a) len = false →
            (∀ i, (h : i < len) → rdByte u (at_ + i) = data[i]) ∧
            (∀ x, x < at_ ∨ at_ + len ≤ x → rdByte u x = rdByte s x))))) ∧
    (∀ (n : Fin 256) (c : Cmd), dmaOf s p n = some c → c.err ≠ 4 →
      let a := bdLocal (dmaSrc c)
      let k := dmaBytes c
      (∀ ans, dmaSrcHost c = false → dmaSrcFar w c = false → dmaDstFar w c = false →
        let waits := isHeld w (.half p) (primaryAddr w a) k = true ∨ dmaStoreWaits w c = true
        (waits → Settles (.dmaComplete p n ans) s w) ∧
        (¬ waits → ∀ y bad, reportBad w .hostDma a k = (y, bad) →
          (bad = none → Settles (.dmaComplete p n ans) s
            (endDma (dmaStore y c 0 (rdBytes y (primaryAddr y a) k)) c 1 k)) ∧
          (∀ b, bad = some b → ∃ i, i ≤ b - primaryAddr y a ∧
            let z := { y with free := y.free + 1 }
            Settles (.dmaComplete p n ans) s
              (endDma (dmaStore z c 0 (rdBytes z (primaryAddr y a) i)) c 8 i)))) ∧
      (∀ bs, dmaSrcHost c = true → c.issued = 0 →
        (bs.length ≠ k ∨ dmaDstFar w c = false ∧ dmaStoreWaits w c = true →
          Settles (.dmaComplete p n (.data bs)) s w) ∧
        (bs.length = k → dmaDstFar w c = false → dmaStoreWaits w c = false →
          Settles (.dmaComplete p n (.data bs)) s (endDma (dmaStore w c 0 bs) c 1 k))) ∧
      (dmaSrcHost c = true → c.issued = 0 → ∃ v i, Settles (.dmaComplete p n .error) s
          (endDma v c 10 i) ∧
        ∃ es, v.due = s.due ++ { slot := 0x103 + 0x100 * p.val, src := 2, job := cmdJob c } :: es))

/-! ### Faults and resets -/

/-- LOBE_MODE is taken while no job is active, and in force at once unless the package is Degraded, which
measures a change; while one is active the write is ignored and counted. RESET_REQ outside levels 2 to 5 is
ignored; the others demand their level, logged with it, and while the package is held a full package reset,
and the request ends a hold, whatever its TARGET (log entry 30). INJECT takes effect in factory test mode only, where the unlock token enables it;
LOG_SEL captures the entry that it selects; the quiet period clears the sticky bits whose class says so and
counts itself (log entry 94). That LOBE_MODE is taken at once without an active job is log entry 28, that a request is
logged as HANG of the hang-engine page 13; a quiet period with nothing to clear changes nothing (log entry 26). -/
def Obligations.FaultsAndResetsAsked : Prop :=
  ∀ (r : Requester) (val : BitVec 32) (s : State),
    let v := val.toNat
    (performs s 0 = true → reached s r = true →
      (activeJobs s ≠ [] → Ends (.lobeModeWrite r val) s
        (wg s 0 lobeModeRejected (min (rg s 0 lobeModeRejected + 1) 255))) ∧
      (activeJobs s = [] → ∃ u, Ends (.lobeModeWrite r val) s u ∧ rg u 0 lobeModeMode = v % 2 ∧
        rg u 0 lobeModeCur = (if rg s 0 lobeModeCur = 2 then 2 else v % 2) ∧
        (v % 2 = rg s 0 lobeModeMode → u.mr = s.mr) ∧ (∀ k, k ≠ 5 → mget [] u.mr k = mget [] s.mr k) ∧
        u = { s with regs := u.regs, mr := u.mr }) ∧
      (v / 16 % 8 < 2 ∨ 5 < v / 16 % 8 → Settles (.resetReq r val) s s) ∧
      (∀ sc, rg s 0 resetStatusHeld = 1 ∧ 2 ≤ v / 16 % 8 ∧ v / 16 % 8 ≤ 5 ∧ sc = .full ∨
          rg s 0 resetStatusHeld ≠ 1 ∧ (v / 16 % 8 = 2 ∧ sc = .die (dieN (v % 4)) ∨
          v / 16 % 8 = 3 ∧ v % 4 < 2 ∧ sc = .lobe (halfN (v % 4)) ∨
          v / 16 % 8 = 4 ∧ sc = .package ∨ v / 16 % 8 = 5 ∧ sc = .full) →
        ∃ w, rg w 0 resetStatusHeld = 0 ∧ w = { s with regs := w.regs } ∧
          Settles (.resetReq r val) s
            (demandWith w sc none none
              (fun _ => { slot := 0xF, src := 0xF, detail := scopeLevel sc, forced := true }))) ∧
      (rg s 0 resetStatusHeld ≠ 1 → v / 16 % 8 = 3 → 2 ≤ v % 4 → ∃ w, Settles (.resetReq r val) s w ∧ w = { s with regs := w.regs })) ∧
    (performs s 1 = true → reached s r = true →
      (mayInject s = false → Settles (.faultInject r val) s s) ∧
      (mayInject s = true →
        let slot := v % 2 ^ 14
        let src := v / 2 ^ 26 % 16
        ∃ u, Settles (.faultInject r val) s u ∧ u = { s with regs := u.regs, due := u.due } ∧
          u.due = (if pgType slot ≠ 0 ∧ hasSource (pgType slot) src = true then
            s.due ++ [{ slot := slot, src := src, job := v / 2 ^ 14 % 2 ^ 12, injected := true }]
            else s.due))) ∧
    (performs s 2 = true → reached s r = true → ∃ u, Ends (.logCapture r val) s u ∧ rg u 2 logSel = v ∧
      u.logCap = mget {} s.log (v % 4096) ∧ u = { s with regs := u.regs, logCap := u.logCap }) ∧
    (rg s 1 faCtlQuietEn ≠ 1 ∨ quietBits s = [] → Ends .quietPeriodExpiry s s) ∧
    (rg s 1 faCtlQuietEn = 1 → quietBits s ≠ [] → Inv s → ∃ u, Ends .quietPeriodExpiry s u ∧
      (∀ slot m, (slot, m) ∈ quietBits s →
        rg u slot hdrSticky = (rg s slot hdrSticky - (rg s slot hdrSticky &&& m)) % 2 ^ 16) ∧
      rg u 1 recoveryCount = min (rg s 1 recoveryCount + 1) (2 ^ 32 - 1) ∧ u = { s with regs := u.regs })

/-- A reset in progress ends and leaves the list of resets, a full package reset not before it
has booted, for which the package's ERUPT packets must have left; at the end of a tile abort or a cluster reset its tiles hold no task, and a lobe whose
bring-up fails stays fenced and off. One that overruns its bound widens into the next level, where no larger
reset runs, and a full package reset that overruns holds the package; an engine restart that overruns becomes
a package compute reset. A hang of a Geyser restarts it without slots and reservations; an abort that overruns
restarts the collective engine without operations and grants. What is not in progress neither ends nor
overruns (log entry 26). The pages on which an overrun is logged are log entry 19, what follows one 31, what an engine
restart keeps 34, which bring-up results there are 36. -/
def Obligations.ResetsEndAndWiden : Prop :=
  ∀ (sc : Scope) (e : Engine) (b : BringUp) (a : Abort) (slot : Nat) (s : State),
    let going := ∃ x ∈ s.resets, x.scope = sc ∧ x.wait = false
    let waits := sc = .full ∧ ∀ x ∈ s.resets, x.scope = .full → x.wait = false → x.booted = false
    let hang (slot n : Nat) : Event := { slot := slot, src := 0xF, detail := n, forced := true }
    (¬ going → Settles (.resetEnd (.level sc) b) s s ∧ Settles (.resetEscalation (.level sc)) s s) ∧
    (waits → Settles (.resetEnd (.level sc) b) s s) ∧
    (going → ¬ waits → ∃ v, Settles (.resetEnd (.level sc) b) s
        (releasePower (takeEvents (endLevel v sc b))) ∧
      v.resets = s.resets.filter (fun x => decide (x.scope ≠ sc)) ∧
      v = { s with regs := v.regs, tremor := v.tremor, resets := v.resets } ∧
      (scopeLevel sc < 2 → ∀ x ∈ scopeTiles sc, (tileOf (endLevel v sc b) x.1 x.2.1 x.2.2).task = none) ∧
      (∀ l : Half, sc = .lobe l → (if l = 0 then b.west else b.east) = false ∨ s.boot.dieOk = false →
        lobeFenced (endLevel v sc b) l = true ∧ lobeOff (endLevel v sc b) l = true)) ∧
    (going → sc = .full → ∃ u, Settles (.resetEscalation (.level sc)) s u ∧ u.resets = [] ∧
      rg u 0 resetStatusHeld = 1 ∧ u.due = s.due ++ [hang 0xF 7] ∧
      u = { s with regs := u.regs, resets := u.resets, due := u.due }) ∧
    (∀ up x, going → nextScope sc = some up → demandScope s up = some x →
      let v := takeEvents (raise (sampleScope s x (some sc) none) (hang (scopePage sc) (scopeLevel x)))
      ∃ u, Settles (.resetEscalation (.level sc)) s u ∧ (demandScope v x = none → u = v) ∧
        ∀ y, demandScope v x = some y → rg u 0 resetStatusLastLevel = scopeLevel y ∧
          rg u 0 resetStatusEscalated = 1 ∧ ∃ z ∈ u.resets, z.scope = y ∧ z.escalated = true) ∧
    Settles (.resetEnd (.engine e) b) s
      { s with restarts := s.restarts.filter (fun y => decide (y ≠ e)) } ∧
    (e ∉ s.restarts → Settles (.resetEscalation (.engine e)) s s) ∧
    (e ∈ s.restarts → demandScope s .package = some .package →
      let w := { s with restarts := s.restarts.filter (fun y => decide (y ≠ e)) }
      let v := takeEvents (raise (sampleScope w .package none none) (hang (engineEPage e) 4))
      demandScope v .package = some .package → ∃ u, Settles (.resetEscalation (.engine e)) s u ∧
        (∃ z ∈ u.resets, z.scope = .package) ∧ rg u 0 resetStatusLastLevel = 4 ∧
        rg u 0 resetStatusEscalated = 1) ∧
    (hangs s slot = false → Settles (.tremorWindowExpiry slot) s s) ∧
    (∀ h : Half, slot = 0x101 + 0x100 * h.val → hangs s slot = true →
      ∃ u, Settles (.tremorWindowExpiry slot) s u ∧ Engine.geyser h ∈ u.restarts ∧
        (geyser u h).slots = [] ∧ (geyser u h).resv = [] ∧ (geyser u h).waiting = []) ∧
    (a ∉ s.aborts → Settles (.abortTimeout a) s s) ∧
    (∀ h j, a = .queueJob h j → a ∈ s.aborts → ∃ u, Settles (.abortTimeout a) s u ∧ a ∉ u.aborts ∧
      u = restartEngine (takeEvents (raise { s with aborts := s.aborts.filter (fun x => decide (x ≠ a)) }
        (hang (0x102 + 0x100 * h.val) 0))) (.collective h) ∧
      Engine.collective h ∈ u.restarts ∧ (∀ q, q / 32 = h.val → (cqOf u q).ops = []) ∧
      ∀ g ∈ u.grants, g.half ≠ h.val)

/-! ### Power, clocks, boot and measurements -/

/-- A power request is held while a reset of level 2 or higher is in progress, counted in REJECTED when it
does not apply, and otherwise taken: an exit from P3 is a package compute reset, an entry waits until its
domains have switched off. An entry that completes leaves its state in CUR: P4 without memory, P2 with its
lobe fenced and off. What requests there are to take from P3 and P4 is log entry 80; an entry that is not requested
changes nothing (log entry 26). -/
def Obligations.PowerRequests : Prop :=
  ∀ (r : Requester) (l : Half) (s : State),
    let rows := [(Instr.powerReqP0 r, PowerReq.mk 0 0), (.powerReqP2 r l, ⟨2, l⟩), (.powerReqP3 r, ⟨3, 0⟩),
      (.powerReqP4 r, ⟨4, 0⟩)]
    let cur := rg s 4 pwrStateCur
    (∀ k ∈ rows, performs s 4 = true → reached s r = true →
      (bigReset s = true → ∃ u, Settles k.1 s u ∧ u.heldPower = some k.2 ∧
        u = { s with regs := u.regs, heldPower := u.heldPower }) ∧
      (bigReset s = false → powerRejected s k.2 = true → ∃ u, Settles k.1 s u ∧
        rg u 4 pwrStateRejected = min (rg s 4 pwrStateRejected + 1) 255 ∧ u = { s with regs := u.regs }) ∧
      (bigReset s = false → powerRejected s k.2 = false →
        (k.2.req = 4 ∨ k.2.req ≠ 0 ∧ cur < 3 → ∃ u, Settles k.1 s u ∧ u.enterPower = some k.2 ∧
          u = { s with regs := u.regs, enterPower := u.enterPower }) ∧
        (k.2.req = 0 → cur = 3 → demandScope s .package = some .package →
          ∃ v, Settles k.1 s (beginReset v .package) ∧ v.enterPower = none ∧
            v = { s with regs := v.regs, enterPower := v.enterPower }))) ∧
    (s.enterPower = none → Settles .powerStateEntered s s) ∧
    (∀ q, s.enterPower = some q →
      (q.req = 4 → ∃ u, Settles .powerStateEntered s u ∧ rg u 4 pwrStateCur = 4 ∧ u.mem = [] ∧
        u.resets = [] ∧ u.heldPower = none ∧ u.enterPower = none) ∧
      (q.req = 3 → ∃ u, Settles .powerStateEntered s u ∧ rg u 4 pwrStateCur = 3 ∧ u.enterPower = none) ∧
      (q.req = 2 → ∃ u, Settles .powerStateEntered s u ∧ lobeOff u (q.lobe % 2) = true ∧
        lobeFenced u (q.lobe % 2) = true ∧ u.enterPower = none ∧ (cur < 3 → rg u 4 pwrStateCur = 2)))

/-- The brake has three causes and counts when it engages; the limiter steps down above 5,150 W and up below
5,000 W. Low VIN48 and a hot sensor brake; a supply out of range, a trip and a collapse shut the package off,
with their event, which carries the fabric time of its detection, until a restart. A monitored event is raised by the
sensors that have thresholds. Without VAUX33 none of this happens, but the pin has its level. While VIO18 is lost the
brake pin counts as low. The hundred steps of the limiter and the sensors without thresholds are log entry 82, what
a shut-off and a restart do 81; a restart without a shut-off changes nothing (log entry 26). -/
def Obligations.SuppliesAndBrake : Prop :=
  ∀ (k : Fin 32) (watts : Nat) (c : BrakeCause) (s : State),
    let cause : Fld := match c with | .therm => brakeStatusTherm | .vin => brakeStatusVin
    let engaged (n : Nat) : Nat := if braked s then n else min (n + 1) 65535
    let off (c : Instr) (x : Shutoff) (slot src : Nat) : Prop :=
      ∃ u, Settles c s u ∧ u.shutoff = some x ∧ u.mem = [] ∧ u.resets = [] ∧ rg u 4 pwrStateCur = 4 ∧
        ∃ es, u.due = es ++ [{ slot := slot, src := src, stamp := some (s.ft.t, unsynced s) }]
    (s.pins.vauxOk = false →
      Ends .brakePinAssert s { s with pins := { s.pins with brakeLow := true } } ∧
      Ends .brakePinRelease s { s with pins := { s.pins with brakeLow := false } } ∧
      ∀ i ∈ [Instr.brakeCauseClear c, .limiterStep watts, .supVinLow,
        .supVinHigh, .supOvercurrent, .supVauxLow, .thermWarn k, .thermHot k, .thermTrip k, .vinCollapse],
        Ends i s s) ∧
    (s.pins.vauxOk = true →
      (∃ u, Ends .brakePinAssert s u ∧ rg u 4 brakeStatusPin = 1 ∧ u.pins.brakeLow = true ∧
        rg u 4 brakeStatusEngaged = engaged (rg s 4 brakeStatusEngaged) ∧
        u = { s with regs := u.regs, pins := u.pins }) ∧
      (s.pins.vioOk = true → ∃ u, Ends .brakePinRelease s u ∧ rg u 4 brakeStatusPin = 0 ∧
        rg u 4 brakeStatusEngaged = rg s 4 brakeStatusEngaged ∧ u.pins.brakeLow = false ∧
        u = { s with regs := u.regs, pins := u.pins }) ∧
      (s.pins.vioOk = false → ∃ u, Ends .brakePinRelease s u ∧ rg u 4 brakeStatusPin = 1 ∧
        u.pins.brakeLow = false ∧ u = { s with regs := u.regs, pins := u.pins }) ∧
      Ends (.brakeCauseClear c) s (wg s 4 cause 0) ∧
      (let n := if 5150 < watts then min (s.limSteps + 1) 100
        else if watts < 5000 then s.limSteps - 1 else s.limSteps
       Ends (.limiterStep watts) s (wg { s with limSteps := n } 4 brakeStatusLimit (if n = 0 then 0 else 1))) ∧
      (∃ u, Settles .supVinLow s u ∧ rg u 4 brakeStatusVin = 1 ∧
        rg u 4 brakeStatusEngaged = engaged (rg s 4 brakeStatusEngaged) ∧
        u.due = s.due ++ [{ slot := supSlot, src := 0 }] ∧ u = { s with regs := u.regs, due := u.due }) ∧
      off .supVinHigh .vinHigh supSlot 1 ∧ off .supOvercurrent .overcurrent supSlot 2 ∧
      off .supVauxLow .vauxLow supSlot 3 ∧ off .vinCollapse .vinCollapse supSlot 0 ∧
      (k.val < 22 → off (.thermTrip k) .thermTrip thermSlot 2 ∧
        (∃ u, Settles (.thermWarn k) s u ∧ u.due = s.due ++ [{ slot := thermSlot, src := 0 }] ∧
          (4 ≤ k.val → k.val < 20 → mget 0 u.hot (k.val - 4) = 1) ∧
          u = { s with hot := u.hot, due := u.due }) ∧
        (∃ u, Settles (.thermHot k) s u ∧ u.due = s.due ++ [{ slot := thermSlot, src := 1 }] ∧
          rg u 4 brakeStatusTherm = 1 ∧ u = { s with regs := u.regs, hot := u.hot, due := u.due })) ∧
      (22 ≤ k.val → Ends (.thermWarn k) s s ∧ Ends (.thermHot k) s s ∧ Ends (.thermTrip k) s s)) ∧
    (s.shutoff = none ∨ s.shutoff = some .vaux → Settles .supplyRestart s s) ∧
    (∀ x, s.shutoff = some x → x ≠ .vaux →
      ((∀ y ∈ s.resets, y.wait = false) → demandScope s .full = some .full →
        Settles .supplyRestart s (beginReset { s with shutoff := none } .full)) ∧
      ((∃ y ∈ s.resets, y.wait = true) → ∃ u, Settles .supplyRestart s u ∧ u.shutoff = none ∧
        ∀ y ∈ u.resets, y.wait = false))

/-- The clocks: each shows its presence, the reference moves from a lost REFCLK100_0 to the other one, and with
neither the package is in holdover. A port's host link goes down with its reference and trains when that is back, at
a rate and width that are free (log entry 6). A loss of VAUX33 keeps the flash, the fuses and the lanes that they
exclude; a loss of VIO18 takes the management address and counts as a low brake pin. Without VAUX33 the pins change
and nothing shows it. That BACKUP and REF_SEL do not return by themselves is log entry 82. -/
def Obligations.ClocksAndRails : Prop :=
  ∀ (n : Half) (s : State),
    let was := if n = 0 then s.pins.ref0 else s.pins.ref1
    let hi := 0x103 + 0x100 * n.val
    let shows (u : State) (ref0 ref1 slow : Bool) : Prop :=
      rg u 5 clkStatusRef0Ok = b2n ref0 ∧ rg u 5 clkStatusRef1Ok = b2n ref1 ∧
      rg u 5 clkStatusHoldover = b2n (!ref0 && !ref1) ∧ rg u 5 clkStatusSlowOk = b2n slow ∧
      rg u 5 clkStatusRefSel = (if !ref0 && ref1 then 1 else rg s 5 clkStatusRefSel) ∧
      rg u 5 clkStatusBackup = (if slow then rg s 5 clkStatusBackup else 1) ∧
      u = { s with regs := u.regs, pins := { s.pins with ref0 := ref0, ref1 := ref1, slow := slow }, free := u.free }
    (s.pins.vauxOk = false →
      let put (q : Pins) : State := { s with pins := q }
      Ends (.refclkLoss n) s (put (if n = 0 then { s.pins with ref0 := false } else { s.pins with ref1 := false })) ∧
      Ends (.refclkRestore n) s (put (if n = 0 then { s.pins with ref0 := true } else { s.pins with ref1 := true })) ∧
      Ends .slowclkLoss s (put { s.pins with slow := false }) ∧
      Ends .slowclkRestore s (put { s.pins with slow := true }) ∧
      Ends .vioLoss s (put { s.pins with vioOk := false }) ∧
      Ends .vioRestore s (put { s.pins with vioOk := true })) ∧
    (s.pins.vauxOk = true →
      (∃ u, Ends (.refclkLoss n) s u ∧
        shows u (decide (n ≠ 0) && s.pins.ref0) (decide (n ≠ 1) && s.pins.ref1) s.pins.slow ∧
        (was = true → rg u hi hiLinkWidth = 0 ∧ rg u hi hiLinkSpeed = 0) ∧
        (was = false → rg u hi hiLinkWidth = rg s hi hiLinkWidth ∧ u.free = s.free)) ∧
      (∃ u, Ends (.refclkRestore n) s u ∧
        shows u (decide (n = 0) || s.pins.ref0) (decide (n = 1) || s.pins.ref1) s.pins.slow ∧
        (was = true → rg u hi hiLinkWidth = rg s hi hiLinkWidth ∧ u.free = s.free) ∧
        (was = false → mget false s.pins.perst n = false → clockRuns u (26 + n.val) = true →
          rg u hi hiLinkWidth ∈ [4, 8, 16] ∧ rg u hi hiLinkSpeed ∈ [1, 2, 3])) ∧
      (∃ u, Ends .slowclkLoss s u ∧ shows u s.pins.ref0 s.pins.ref1 false ∧ u.free = s.free) ∧
      (∃ u, Ends .slowclkRestore s u ∧ shows u s.pins.ref0 s.pins.ref1 true ∧ u.free = s.free) ∧
      (∃ u, Ends .vioLoss s u ∧ u.pins.vioOk = false ∧ rg u mgmtSlot mgmtStatusVioOk = 0 ∧
        rg u mgmtSlot mgmtStatusAssigned = 0 ∧ rg u 4 brakeStatusPin = 1 ∧
        u = { s with regs := u.regs, pins := u.pins }) ∧
      (∃ u, Ends .vioRestore s u ∧ u.pins.vioOk = true ∧ rg u mgmtSlot mgmtStatusVioOk = 1 ∧
        rg u 4 brakeStatusPin = b2n s.pins.brakeLow ∧ u = { s with regs := u.regs, pins := u.pins })) ∧
    (∃ u, Ends .vauxLoss s u ∧ u.flash = s.flash ∧ u.mem = [] ∧ u.log = [] ∧ u.mr = [] ∧ u.jobs = [] ∧
      rg u 4 pwrStateCur = 4 ∧ u.pins.vauxOk = false ∧ u.pins.sampled = false ∧ u.pins.straps = {} ∧
      (∀ (e : EdgeEnd) (b : Nat), (bundleOf u e b).fused = (bundleOf s e b).fused) ∧
      ∀ img, rg u fuseSlot (floorField img) = rg s fuseSlot (floorField img))

/-- Power-on runs copy A of the Solfatara firmware where it is valid, else copy B with a report for A, and stays
without a firmware, with a report for each copy, where neither is; the straps are sampled once; VIN48 with a reference clock starts the
full package reset; an image that has booted and is committed raises its floor and revokes its slots, and nothing else
does; software extends MR6 and MR7 with EXT_DATA. The lower SVN of the valid copies, and that COMMIT is one event, are
log entry 85; a copy that an update holds open is not valid (log entry 86); an event whose condition is not met changes
nothing (log entry 26). -/
def Obligations.BootAndMeasure : Prop :=
  ∀ (r : Requester) (val : BitVec 32) (p : Straps) (img : Image) (s : State),
    (s.pins.vauxOk = true → Settles .powerOn s s) ∧
    (s.pins.vauxOk = false →
      (copyValid s .solfatara false = true → ∃ u, Settles .powerOn s u ∧ u.pins.vauxOk = true ∧
        u.pins.vioOk = true ∧ rg u 4 pwrStateCur = 4 ∧ rg u secSlot secStatusStage = 1 ∧
        rg u secSlot secStatusSolB = 0 ∧ u.boot.solOk = true ∧
        u.boot.solDigest = imageDigest s .solfatara false ∧ u.due = s.due ∧ u.shutoff = none ∧
        u = { s with regs := u.regs, pins := u.pins, boot := u.boot, shutoff := u.shutoff }) ∧
      (copyValid s .solfatara false = false → copyValid s .solfatara true = true → ∃ u x, Settles .powerOn s u ∧
        rg u secSlot secStatusStage = 1 ∧ rg u secSlot secStatusSolB = 1 ∧ u.boot.solOk = true ∧
        u.boot.solDigest = imageDigest s .solfatara true ∧ u.due = s.due ++ [{ slot := secSlot, src := x }] ∧
        x ≤ 1 ∧ u = { s with regs := u.regs, pins := u.pins, boot := u.boot, shutoff := u.shutoff, due := u.due }) ∧
      (copyValid s .solfatara false = false → copyValid s .solfatara true = false →
        let src (b : Bool) : Nat := if copySigned s .solfatara b && !copyOpen s .solfatara b then 1 else 0
        ∃ u, Settles .powerOn s u ∧ rg u secSlot secStatusStage = 7 ∧ u.boot.solOk = false ∧
        rg u 4 pwrStateCur = 4 ∧
        u.due = s.due ++ [{ slot := secSlot, src := src false }, { slot := secSlot, src := src true }])) ∧
    (s.pins.vauxOk = false ∨ s.pins.vioOk = false ∨ s.pins.sampled = true →
      Settles (.strapSample p) s s) ∧
    (s.pins.vauxOk = true → s.pins.vioOk = true → s.pins.sampled = false → p.plan % 8 ≠ 7 →
      p.test = false → ∃ u, Settles (.strapSample p) s u ∧ u.pins.straps = p ∧ u.pins.sampled = true ∧
        rg u 0 optPlanPlan = p.plan % 8 ∧ rg u 0 optPlanFlashOk = 0 ∧ u.planOf = [] ∧
        u = { s with regs := u.regs, pins := u.pins, planOf := u.planOf }) ∧
    (s.pins.vauxOk = false ∨ s.boot.solOk = false ∨ s.pins.vin48On = true ∨ s.shutoff ≠ none ∨
      s.pins.ref0 = false ∧ s.pins.ref1 = false → Settles .vin48Ready s s) ∧
    (s.pins.vauxOk = true → s.boot.solOk = true → s.pins.vin48On = false → s.shutoff = none →
      s.pins.ref0 = true ∨ s.pins.ref1 = true → demandScope s .full = some .full →
      Settles .vin48Ready s
        (beginReset { s with pins := { s.pins with vin48On := true } } .full)) ∧
    (let h := copyHeader s img (bootedCopy s img)
     let f := floorField img
     let key := fieldOf h 9 1
     (rg s secSlot secStatusStage ≠ 5 ∨ imageRuns s img = false ∨ fieldOf h 7 1 % 2 = 0 → Ends (.fuseCommit img) s s) ∧
     (rg s secSlot secStatusStage = 5 → imageRuns s img = true → fieldOf h 7 1 % 2 = 1 → ∃ u, Ends (.fuseCommit img) s u ∧
      rg u fuseSlot f = max (rg s fuseSlot f) (lowSvn s img) % 2 ^ 7 ∧
      (∀ n < 4, bit (rg u fuseSlot fuseStateRevFw) n =
        (bit (rg s fuseSlot fuseStateRevFw) n || (bit (fieldOf h 0x0A 1) n && decide (n ≠ key)))) ∧
      rg u fuseSlot fuseStateRevQual = (rg s fuseSlot fuseStateRevQual ||| fieldOf h 0x0B 1) % 2 ^ 4 ∧
      u = { s with regs := u.regs })) ∧
    (performs s 9 = true → reached s r = true → ∃ u, Ends (.mrExtend r val) s u ∧
      mget [] u.mr (6 + val.toNat % 2) = sha512 (mrBytes s (6 + val.toNat % 2) ++ extBytes s) ∧
      (∀ k, k ≠ 6 + val.toNat % 2 → mget [] u.mr k = mget [] s.mr k) ∧
      u = { s with regs := u.regs, mr := u.mr })

/-! ### Landom records, self-test and management -/

/-- A segment request is checked and shown as BUSY; one made while another runs is counted in REJECTED, and one of
another KIND than the command's changes nothing (log entry 26). It completes with the code of its check and nothing
written, with SMALL and the size it needs where DEST is too small, or with OK and the segment at DEST, after which the
job's record goes on from it. It waits for a snapshot in progress, and while its memory cannot be read or written
(log entries 66, 133). When a segment's contents are taken is log entry 87. -/
def Obligations.LandomSegments : Prop :=
  ∀ (r : Requester) (s : State), performs s 9 = true →
    let rows := [(Instr.segOpen r, fun k => k = 1 || k = 0 || decide (5 < k)), (.segPeriodic r, fun k => k = 2),
      (.segCheckpoint r, fun k => k = 3), (.segClose r, fun k => k = 4), (.segState r, fun k => k = 5)]
    let shows (u : State) (code len : Nat) : Prop :=
      u.seg = none ∧ rg u 9 segStatusBusy = 0 ∧ rg u 9 segStatusCode = code % 2 ^ 3 ∧
      rg u 9 segStatusLen = len % 2 ^ 28
    (reached s r = true → ∀ c ∈ rows,
      (rg s 9 segStatusBusy = 1 →
        Ends c.1 s (wg s 9 segCtlRejected (min (rg s 9 segCtlRejected + 1) (2 ^ segCtlRejected.w - 1)))) ∧
      (rg s 9 segStatusBusy ≠ 1 → c.2 (segKind s) = false → Ends c.1 s s) ∧
      (rg s 9 segStatusBusy ≠ 1 → c.2 (segKind s) = true → ∃ u q, Ends c.1 s u ∧
        rg u 9 segStatusBusy = 1 ∧ u.seg = some q ∧ q.code = segCheck s (segBlock s) ∧
        q.kind = segKind s ∧ q.job = fieldOf (segBlock s) 0x0E 2 ∧ q.dest = fieldOf (segBlock s) 0 8 ∧
        q.destLen = fieldOf (segBlock s) 8 4 ∧ q.aborted = (decide (segKind s ≠ 5) && jobAborted s q.job) ∧
        u.mem = s.mem ∧ u.records = s.records ∧
        (s.errs = [] → u = { s with regs := u.regs, seg := u.seg }))) ∧
    (s.seg = none → Settles .segmentComplete s s) ∧
    (∀ q, s.seg = some q →
      (q.code ≠ 1 → ∃ u, Settles .segmentComplete s u ∧ shows u q.code 0 ∧
        u = { s with regs := u.regs, seg := u.seg }) ∧
      (q.code = 1 →
        let x := segRecord s q
        let waits := awaitsSnap s q = true ∨ bothWait s (.half 0) q.dest q.destLen = true ∨
          (segReads s q x).any (fun y => isHeld s (.half 0) y.1 y.2) = true
        (waits → Settles .segmentComplete s s) ∧
        (¬ waits →
          let v := checkReads s (segReads s q x)
          let seg := segment v q x
          (q.destLen < seg.length → ∃ u, Settles .segmentComplete s u ∧ shows u 4 seg.length ∧
            u = { v with regs := u.regs, seg := u.seg }) ∧
          (seg.length ≤ q.destLen → ∃ w u, Settles .segmentComplete s u ∧ shows u 1 seg.length ∧
            let z := storeBoth w (.half 0) q.dest seg
            u = { z with regs := u.regs, seg := u.seg } ∧
            w = { v with regs := w.regs, dies := w.dies, records := w.records } ∧
            (q.kind ≠ 5 → recordOf w q.job = advance v q x seg) ∧
            (q.kind = 5 → w.records = v.records)))))

/-- A queued test starts when it is the first of its target and the target is free, ends at once where there is
nothing to test, and with BUSY at its deadline; its end reports its result and returns the target or acts on
the failure. A link recalibrates while nothing needs it, and what its recalibration finds failing acts on it as a test's
failure does (log entry 152). What a test of each target does is log entry 37; a test or a recalibration that is not in
progress does not end, and one of a link that is busy or out of service does not begin (log entry 26). -/
def Obligations.TestsAndRecalibration : Prop :=
  ∀ (n : Nat) (readable : Bool) (unit elapsed : Nat) (k : Fin 6) (b : Fin 40) (lane : Option (Fin 68))
      (g : Fin 32) (tx rx : Nat) (s : State),
    (∀ t, testOf s n = some t →
      let first := (s.tests.takeWhile (fun x => decide (x.id ≠ t.id))).any (sameTarget t) = false ∧
        s.tests.any (fun x => x.started && sameTarget t x) = false ∧ pageInReset s (testPage t) = false
      let time := min elapsed 4095 * 2 ^ 16
      (t.started = true → Settles (.testStart n) s s ∧ Settles (.testDeadlineExpiry n) s s) ∧
      (t.started = false →
        (first → testAbsent s t = true → Settles (.testStart n) s (reportTest s t 1 (2 * 2 ^ 28))) ∧
        (first → testAbsent s t = false → targetFree s t = true → Settles (.testStart n) s
          (takeTarget { s with
            tests := s.tests.map (fun x => if x.id = t.id then { x with started := true } else x) } t)) ∧
        (testAbsent s t = false → targetFree s t = false → Settles (.testStart n) s s) ∧
        (0 < t.deadline → ∃ u, Settles (.testDeadlineExpiry n) s u ∧
          u.tests = s.tests.filter (fun x => decide (x.id ≠ t.id)) ∧
          (∀ p h, t.cmd = some (p, h) → u = complete { s with tests := u.tests } h 12 0)) ∧
        (t.deadline = 0 → Settles (.testDeadlineExpiry n) s s)) ∧
      (testRuns s t = false → Settles (.testEnd n true readable unit elapsed) s s) ∧
      (testRuns s t = true →
        Settles (.testEnd n true readable unit elapsed) s (passTarget (reportTest s t 1 time) t) ∧
        Settles (.testEnd n false readable unit elapsed) s
          (failTarget (reportTest s t 1 (2 ^ 28 + time + unit % 2 ^ 16)) t readable unit))) ∧
    (let e : EdgeEnd := ⟨k, false⟩
     linkTested s (.bundle k b) = false →
      (bundleBusy s e b = true → Ends (.linkRecalibration (.bundle k b)) s s) ∧
      (edgeUp s e = true → (bundleOf s e b).up = true → bundleBusy s e b = false → endRuns s e = true →
        Ends (.linkRecalibration (.bundle k b)) s (setAside s k b true)) ∧
      (edgeUp s e = false ∨ (bundleOf s e b).up = false ∨ endRuns s e = false →
        Ends (.linkRecalibration (.bundle k b)) s s) ∧
      ((bundleOf s e b).aside = false → Settles (.linkRecalibrationEnd (.bundle k b lane)) s s) ∧
      ((bundleOf s e b).aside = true →
        let v := setAside s k b false
        v = { s with edges := v.edges } ∧ (∀ far : Bool, (bundleOf v ⟨k, far⟩ b).aside = false) ∧
        Settles (.linkRecalibrationEnd (.bundle k b none)) s v ∧
        ∀ l : Fin 68, Settles (.linkRecalibrationEnd (.bundle k b (some l))) s
          (if (lowestSpare (bundleOf v e b)).isSome = true ∧ erg v e laneCtlSpareEn = 1 then laneFails v e b l
           else bundleDown v e b l))) ∧
    (linkTested s (.group g) = false → performs s (oeSlot (g / 4)) = true →
      (groupBusy s g = true → Ends (.linkRecalibration (.group g)) s s) ∧
      (groupUp s g = false → Ends (.linkRecalibration (.group g)) s s) ∧
      (groupBusy s g = false → groupUp s g = true → Ends (.linkRecalibration (.group g)) s (groupAside s g)) ∧
      ((optGroup s g).recal = false → Settles (.linkRecalibrationEnd (.group g tx rx)) s s) ∧
      ((optGroup s g).recal = true →
        let t := ggt s g groupStatusTxLanes
        let x := ggt s g groupStatusRxLanes
        (t &&& tx = t → x &&& rx = x → Settles (.linkRecalibrationEnd (.group g tx rx)) s (groupBack s g)) ∧
        (t &&& tx ≠ t ∨ x &&& rx ≠ x → Settles (.linkRecalibrationEnd (.group g tx rx)) s
          (relaneGroup { s with due := s.due ++ [{ slot := oeSlot (g.val / 4), src := 1, part := g.val % 4 }] } g
            (t &&& tx) (x &&& rx)))))

/-- PERST_N and a function-level reset clear the port's command ports, rings and BAR4 size and leave the other
port's; the first takes the link down until PERST_N is high again, the second leaves it. The management
endpoint takes an address while it is powered and answers with one only: a sensor's value, the oldest event
message, and without a Solfatara firmware to no request but an update; a firmware update erases the copy that did not
boot, holds it open until its last part, writes its parts one after the other and changes no other byte of the flash.
What a sensor has measured is free (log entry 9), and its register holds it. JTAG moves pins in P4 alone; TRST_N low
selects IDCODE, and a scan answers what the selected register captures (log entry 153). What a reset of a port
clears is log entry 38, the bytes of an event message and the copy of an update 86, the JTAG instructions outside
boundary scan 40; an event whose condition is not met changes nothing (log entry 26). -/
def Obligations.PinsAndManagement : Prop :=
  ∀ (p : Half) (addr : BitVec 7) (x : Sensor) (img : Image) (part : FirmwarePart) (j : Jtag) (s : State),
    let m := 0x103 + 0x100 * p.val
    let fresh (u : State) : Prop :=
      (∀ n, n < 256 → cportOf u p n = {} ∧ cportOf u (1 - p.val) n = cportOf s (1 - p.val) n) ∧
      (∀ k, k < 64 → ringOf u p k = {} ∧ ringOf u (1 - p.val) k = ringOf s (1 - p.val) k) ∧
      rg u m portSel = 0 ∧ rg u m hiErrValid = 0 ∧ bar4Code u p = 14 ∧ u.jobs = s.jobs
    (∃ u, Settles (.perstAssert p) s u ∧ fresh u ∧ mget false u.pins.perst p = true) ∧
    (∃ u, Settles (.functionLevelReset p) s u ∧ fresh u ∧ u.pins = s.pins ∧
      rg u m hiLinkWidth = rg s m hiLinkWidth ∧ rg u m hiLinkSpeed = rg s m hiLinkSpeed) ∧
    (mget false s.pins.perst p = false → Ends (.perstDeassert p) s s) ∧
    (mget false s.pins.perst p = true → ∃ u, Ends (.perstDeassert p) s u ∧
      mget false u.pins.perst p = false ∧ u = { s with regs := u.regs, pins := u.pins, free := u.free } ∧
      (clockRuns s (26 + p.val) = true → rg u m hiLinkWidth ∈ [4, 8, 16] ∧
        rg u m hiLinkSpeed ∈ [1, 2, 3] ∧ (rg u m hiLinkFlit = 1 ↔ rg u m hiLinkSpeed = 3))) ∧
    (endpointOn s = false → Ends (.i3cEntdaa addr) s s) ∧
    (endpointOn s = true → ∃ u, Ends (.i3cEntdaa addr) s u ∧ rg u mgmtSlot mgmtStatusAssigned = 1 ∧
      rg u mgmtSlot mgmtStatusDynAddr = addr.toNat ∧
      u.resp = .value (Config.mipiManuf.toNat * 2 ^ 33 + 0x7404 * 2 ^ 16 + myIndex s) ∧
      u = { s with regs := u.regs, resp := u.resp }) ∧
    (answers s = false → Ends (.pldmSensorRead x) s s ∧ Ends .pldmPollEvent s s) ∧
    (takesUpdates s = false → Ends (.pldmFirmwareUpdate img part) s s) ∧
    (answers s = true →
      (∃ u v, Ends (.pldmSensorRead x) s u ∧ u.resp = .value v ∧
        (x = .powerState → v = rg s 4 pwrStateCur) ∧ (x = .faultSummary → v = faultSummary s) ∧
        (x ≠ .faultSummary → x ≠ .powerState → v < 2 ^ 16) ∧ (x = .vin → v = rg u supSlot vinMonVin) ∧
        (x = .iin → v = rg u supSlot vinMonIin) ∧ (x = .pinAvg → v = rg u supSlot pinAvgAvg) ∧
        (x = .vaux → v = rg u supSlot auxMonVaux33) ∧ (x = .vio → v = rg u supSlot auxMonVio18) ∧
        u = { s with regs := u.regs, resp := u.resp, free := u.free }) ∧
      (s.alertQ = [] → Ends .pldmPollEvent s { s with resp := .bytes [] }) ∧
      (∀ y ys, s.alertQ = y :: ys →
        Ends .pldmPollEvent s { s with alertQ := ys, resp := .bytes (alertBytes y) })) ∧
    (takesUpdates s = true →
      (let b := !bootedCopy s img
       let (a, n) := copyAt img b
       let at_ := mget 0 s.boot.updates (copyKey img b) - 1
       let bs := part.bytes.take (n - at_)
       ∃ u, Ends (.pldmFirmwareUpdate img part) s u ∧ u = { s with flash := u.flash, boot := u.boot } ∧
        copyOpen u img b = !part.last ∧ (img ≠ .solfatara → u.boot.solNew = s.boot.solNew) ∧
        (img = .solfatara → part.last = true → u.boot.solNew = true) ∧ bootedCopy u img = bootedCopy s img ∧
        (∀ k, k < n → mget 0xFF u.flash (a + k) = if at_ ≤ k ∧ k < at_ + bs.length then bs.getD (k - at_) 0xFF
          else if copyOpen s img b = true then mget 0xFF s.flash (a + k) else 0xFF) ∧
        (∀ k, k < a ∨ a + n ≤ k → mget 0xFF u.flash k = mget 0xFF s.flash k))) ∧
    (s.pins.vauxOk = false ∨ s.pins.vioOk = false → Ends (.jtagInstruction j) s s) ∧
    (s.pins.vauxOk = true → s.pins.vioOk = true → ∀ (low : Bool) (pins shiftIn : Nat),
      (∃ u, Ends (.jtagInstruction (.testReset low)) s u ∧ u.pins = { s.pins with trstLow := low } ∧
        u.jtag = (if low then .idcode else s.jtag) ∧ (low = true → rg u testSlot jtagStatusScanActive = 0) ∧
        u = { s with regs := u.regs, pins := u.pins, jtag := u.jtag }) ∧
      (s.pins.trstLow = true → (∀ x, j ≠ .testReset x) → Ends (.jtagInstruction j) s s) ∧
      (s.pins.trstLow = false → s.jtag = .samplePreload ∨ s.jtag = .extest →
        Ends (.jtagInstruction (.scan pins shiftIn)) s { s with boundary := shiftIn, resp := .value pins }) ∧
      (s.pins.trstLow = false → s.jtag = .bypass ∨ s.jtag = .clamp ∨ s.jtag = .highz →
        Ends (.jtagInstruction (.scan pins shiftIn)) s { s with resp := .value 0 })) ∧
    (s.pins.vauxOk = true → s.pins.vioOk = true → s.pins.trstLow = false → (∀ x, j ≠ .testReset x) →
      (∀ x y, j ≠ .scan x y) → ∃ u, Ends (.jtagInstruction j) s u ∧
      (j = .extest ∨ j = .clamp → u.jtag = (if rg s 4 pwrStateCur = 4 then j else .bypass) ∧
        rg u testSlot jtagStatusScanActive = (if rg s 4 pwrStateCur = 4 then 1 else 0)) ∧
      (j = .bypass ∨ j = .idcode ∨ j = .samplePreload ∨ j = .highz → u.jtag = j ∧ rg u testSlot jtagStatusScanActive = 0) ∧
      (∀ o, j = .other o → u.jtag = (if s.boot.test = true ∧ bit s.boot.scope 1 = true then j else .bypass)) ∧
      u = { s with regs := u.regs, jtag := u.jtag, resp := u.resp })

/-! ### Number formats -/

/-- A value that an element format holds is kept by the conversion into it, in every rounding mode: decoding a
pattern that is no NaN and converting it back gives the pattern, for each of the eight floating-point formats.
-/
def Obligations.FormatsKeepTheirValues : Prop :=
  ∀ f ∈ [floF32, floBF16, floF16, floF8A, floF8B, floF6A, floF6B, floF4], ∀ (rm : Rmode) (p : Nat),
    (∀ r, rm = .stoch r → r < 2 ^ 24) → p < 2 ^ f.width → floDecode f p ≠ .nan →
    (floConv f rm (floDecode f p)).1 = p

/-- An integer is converted into INT8 or INT32 exactly where the format holds it, and saturates to the limit of
its sign elsewhere, in every rounding mode. -/
def Obligations.IntegersSaturate : Prop :=
  ∀ w ∈ [8, 32], ∀ (rm : Rmode) (n : Int), (∀ r, rm = .stoch r → r < 2 ^ 24) →
    intDecode w (intConv w rm (valOfInt n)).1 =
      max (-(2 : Int) ^ (w - 1)) (min ((2 : Int) ^ (w - 1) - 1) n)
end

