-- ==== Sys2Proof/Laws/Maps.lean ====
section
/-!
SUPPORT. Laws of the sparse maps: a read after a write, writes that leave other keys alone, and the
canonical form, which every operation over a map keeps. They hold for memory in particular.
-/

namespace Sys2Proof.Machine

variable {α : Type}

/-- A deleted key reads as the default. -/
theorem mget_mdel_same (d : α) (m : Map α) (k : Nat) : mget d (mdel m k) k = d := by
  induction m with
  | nil => rfl
  | cons e m ih =>
    obtain ⟨a, v⟩ := e
    by_cases h : a = k <;> simp [mdel, mget, h, ih]

/-- Deleting a key leaves every other key alone. -/
theorem mget_mdel_other (d : α) (m : Map α) {k j : Nat} (h : j ≠ k) :
    mget d (mdel m k) j = mget d m j := by
  induction m with
  | nil => rfl
  | cons e m ih =>
    obtain ⟨a, v⟩ := e
    by_cases ha : a = k
    · subst ha
      have : a ≠ j := fun hh => h hh.symm
      simp [mdel, mget, ih, this]
    · by_cases hj : a = j
      · subst hj; simp [mdel, mget, h]
      · simp [mdel, mget, ha, hj, ih]

/-- An inserted key reads as what was inserted. -/
theorem mget_mins_same (d : α) (m : Map α) (k : Nat) (v : α) : mget d (mins m k v) k = v := by
  induction m with
  | nil => simp [mins, mget]
  | cons e m ih =>
    obtain ⟨a, w⟩ := e
    by_cases h1 : a < k
    · have : a ≠ k := by omega
      simp [mins, mget, h1, this, ih]
    · by_cases h2 : a = k <;> simp [mins, mget, h1, h2]

/-- Inserting a key leaves every other key alone. -/
theorem mget_mins_other (d : α) (m : Map α) {k j : Nat} (v : α) (h : j ≠ k) :
    mget d (mins m k v) j = mget d m j := by
  induction m with
  | nil =>
    have : k ≠ j := fun hh => h hh.symm
    simp [mins, mget, this]
  | cons e m ih =>
    obtain ⟨a, w⟩ := e
    have hk : k ≠ j := fun hh => h hh.symm
    by_cases h1 : a < k
    · by_cases hj : a = j
      · subst hj; simp [mins, mget, h1]
      · simp [mins, mget, h1, hj, ih]
    · by_cases h2 : a = k
      · subst h2; simp [mins, mget, hk]
      · simp [mins, mget, h1, h2, hk]

/-- A read after a write of the same key gives the value written. -/
theorem mget_mset_same [DecidableEq α] (d : α) (m : Map α) (k : Nat) (v : α) :
    mget d (mset d m k v) k = v := by
  unfold mset
  split
  · next h => rw [mget_mdel_same, h]
  · exact mget_mins_same d m k v

/-- A write leaves every other key alone. -/
theorem mget_mset_other [DecidableEq α] (d : α) (m : Map α) {k j : Nat} (v : α) (h : j ≠ k) :
    mget d (mset d m k v) j = mget d m j := by
  unfold mset
  split
  · exact mget_mdel_other d m h
  · exact mget_mins_other d m v h

/-! ### The canonical form -/

/-- The empty map is in form. -/
theorem mwf_nil [DecidableEq α] (d : α) : mwf d ([] : Map α) = true := rfl

/-- Every key of a map in canonical form lies above a bound that its keys lie above. -/
theorem mins_keys_above (m : Map α) {a k : Nat} (v : α) (h : m.all (fun e => decide (a < e.1)) = true)
    (hk : a < k) : (mins m k v).all (fun e => decide (a < e.1)) = true := by
  induction m with
  | nil => simp [mins, hk]
  | cons e m ih =>
    obtain ⟨b, w⟩ := e
    simp only [List.all_cons, Bool.and_eq_true, decide_eq_true_eq] at h
    simp only [mins]
    split
    · simp only [List.all_cons, Bool.and_eq_true, decide_eq_true_eq]; exact ⟨h.1, ih h.2⟩
    · split
      · simp only [List.all_cons, Bool.and_eq_true, decide_eq_true_eq]; exact ⟨hk, h.2⟩
      · simp only [List.all_cons, Bool.and_eq_true, decide_eq_true_eq]; exact ⟨hk, h.1, h.2⟩

/-- A filtered map's keys lie above what the map's keys lie above. -/
theorem filter_keys_above (m : Map α) {a : Nat} (p : Nat × α → Bool)
    (h : m.all (fun e => decide (a < e.1)) = true) :
    (m.filter p).all (fun e => decide (a < e.1)) = true := by
  simp only [List.all_eq_true, List.mem_filter] at *
  exact fun e he => h e he.1

/-- Keeping a part of a map keeps its form. -/
theorem mwf_filter [DecidableEq α] (d : α) (m : Map α) (p : Nat × α → Bool)
    (h : mwf d m = true) : mwf d (m.filter p) = true := by
  induction m with
  | nil => rfl
  | cons e m ih =>
    obtain ⟨a, v⟩ := e
    simp only [mwf, Bool.and_eq_true] at h
    rw [List.filter_cons]
    split
    · simp only [mwf, Bool.and_eq_true]
      exact ⟨⟨h.1.1, filter_keys_above m p h.1.2⟩, ih h.2⟩
    · exact ih h.2

/-- Keeping some keys keeps the form. -/
theorem mwf_mkeep [DecidableEq α] (d : α) (m : Map α) (p : Nat → Bool) (h : mwf d m = true) :
    mwf d (mkeep m p) = true := mwf_filter d m _ h

/-- Deleting a key is a filter. -/
theorem mdel_eq_filter (m : Map α) (k : Nat) : mdel m k = m.filter (fun e => decide (e.1 ≠ k)) := by
  induction m with
  | nil => rfl
  | cons e m ih =>
    obtain ⟨a, v⟩ := e
    by_cases h : a = k <;> simp [mdel, h, ih]

/-- Deleting a key keeps the form. -/
theorem mwf_mdel [DecidableEq α] (d : α) (m : Map α) (k : Nat) (h : mwf d m = true) :
    mwf d (mdel m k) = true := by
  rw [mdel_eq_filter]; exact mwf_filter d m _ h

/-- Inserting a value that is not the default keeps the form. -/
theorem mwf_mins [DecidableEq α] (d : α) (m : Map α) (k : Nat) (v : α) (hv : v ≠ d)
    (h : mwf d m = true) : mwf d (mins m k v) = true := by
  induction m with
  | nil => simp [mins, mwf, hv]
  | cons e m ih =>
    obtain ⟨a, w⟩ := e
    simp only [mwf, Bool.and_eq_true, bne_iff_ne] at h
    simp only [mins]
    split
    · next hlt =>
      simp only [mwf, Bool.and_eq_true, bne_iff_ne]
      exact ⟨⟨h.1.1, mins_keys_above m v h.1.2 hlt⟩, ih h.2⟩
    · split
      · next heq =>
        subst heq
        simp only [mwf, Bool.and_eq_true, bne_iff_ne]
        exact ⟨⟨hv, h.1.2⟩, h.2⟩
      · next hlt hne =>
        have hka : k < a := by omega
        simp only [mwf, Bool.and_eq_true, bne_iff_ne, List.all_cons, decide_eq_true_eq]
        refine ⟨⟨hv, hka, ?_⟩, ⟨h.1.1, h.1.2⟩, h.2⟩
        have := h.1.2
        simp only [List.all_eq_true, decide_eq_true_eq] at this ⊢
        exact fun e he => Nat.lt_trans hka (this e he)

/-- A write keeps the canonical form. -/
theorem mwf_mset [DecidableEq α] (d : α) (m : Map α) (k : Nat) (v : α) (h : mwf d m = true) :
    mwf d (mset d m k v) = true := by
  unfold mset
  split
  · exact mwf_mdel d m k h
  · next hv => exact mwf_mins d m k v hv h

/-- Keeping a part of a map keeps its keys rising. -/
theorem keysUp_filter (m : Map α) (p : Nat × α → Bool) (h : keysUp m = true) :
    keysUp (m.filter p) = true := by
  induction m with
  | nil => rfl
  | cons e m ih =>
    obtain ⟨a, v⟩ := e
    simp only [keysUp, Bool.and_eq_true] at h
    rw [List.filter_cons]
    split
    · simp only [keysUp, Bool.and_eq_true]
      exact ⟨filter_keys_above m p h.1, ih h.2⟩
    · exact ih h.2

/-- Keeping some keys keeps them rising. -/
theorem keysUp_mkeep (m : Map α) (p : Nat → Bool) (h : keysUp m = true) : keysUp (mkeep m p) = true :=
  keysUp_filter m _ h

/-- An insertion keeps the keys rising. -/
theorem keysUp_mins (m : Map α) (k : Nat) (v : α) (h : keysUp m = true) :
    keysUp (mins m k v) = true := by
  induction m with
  | nil => rfl
  | cons e m ih =>
    obtain ⟨a, w⟩ := e
    simp only [keysUp, Bool.and_eq_true] at h
    simp only [mins]
    split
    · next hlt =>
      simp only [keysUp, Bool.and_eq_true]
      exact ⟨mins_keys_above m v h.1 hlt, ih h.2⟩
    · split
      · next heq =>
        subst heq
        simp only [keysUp, Bool.and_eq_true]
        exact h
      · next hlt hne =>
        have hka : k < a := by omega
        simp only [keysUp, Bool.and_eq_true, List.all_cons, decide_eq_true_eq]
        refine ⟨⟨hka, ?_⟩, h⟩
        have := h.1
        simp only [List.all_eq_true, decide_eq_true_eq] at this ⊢
        exact fun e he => Nat.lt_trans hka (this e he)

/-- A write keeps the keys rising. -/
theorem keysUp_mset [DecidableEq α] (d : α) (m : Map α) (k : Nat) (v : α) (h : keysUp m = true) :
    keysUp (mset d m k v) = true := by
  unfold mset
  split
  · rw [mdel_eq_filter]; exact keysUp_filter m _ h
  · exact keysUp_mins m k v h

end Sys2Proof.Machine
end

