-- ==== Sys2Proof/Laws/Keeps.lean ====
section
/-!
SUPPORT. What no command does, whatever it does: it leaves the queue and the strap levels alone, never
gives a free value twice, and keeps memory and the register store in their canonical forms. `Keeps s t`
says it of two states; there is one law for each operation that changes the state, and those of the shared
operations are here.
-/

namespace Sys2Proof.Machine

/-- `t` can come of `s` by operations of the machine: the queue and the straps are the same, the counter of
free values has not fallen, the canonical forms hold if they did. -/
structure Keeps (s t : State) : Prop where
  pending : t.pending = s.pending
  straps  : t.pins.straps = s.pins.straps
  free    : s.free ≤ t.free
  mem     : memoryWf s = true → memoryWf t = true
  regs    : keysUp s.regs = true → keysUp t.regs = true

variable {s0 s t : State}

/-- Nothing happens. -/
theorem Keeps.refl (s : State) : Keeps s s := ⟨rfl, rfl, Nat.le_refl _, id, id⟩

/-- One change after another. -/
theorem Keeps.trans {a b c : State} (h : Keeps a b) (k : Keeps b c) : Keeps a c :=
  ⟨k.pending.trans h.pending, k.straps.trans h.straps, Nat.le_trans h.free k.free,
    fun x => k.mem (h.mem x), fun x => k.regs (h.regs x)⟩

/-- A change of fields other than the queue, the registers, memory, the pins and the free-value counter. -/
theorem Keeps.fields
    {v3 v4 v5 v6 v7 v8 v9 v10 v11 v12 v13 v14 v15 v16 v17 v18 v19 v20 v21 v22 v23 v24 v25 v26 v27
    v28 v29 v30 v31 v32 v33 v34 v35 v36 v37 v38 v39 v40 v41 v42 v43 v44 v45 v46 v47 v48 v49 v50
    v51 v52 v53 v54 v55 v56 v57 v58 v59 v60 v61 v62 v63 v64 v65 v66 v67 v68 v69 v70 v71 v72 v73
    v74 v75 v77 v78 v79 v80 v81 v82 v83} :
    Keeps s0 ⟨t.pending, t.regs, t.mem, v3, v4, v5, v6, v7, v8, v9, v10, v11, v12, v13, v14, v15,
      v16, v17, v18, v19, v20, v21, v22, v23, v24, v25, v26, v27, v28, v29, v30, v31, v32, v33,
      v34, v35, v36, v37, v38, v39, v40, v41, v42, v43, v44, v45, v46, v47, v48, v49, v50, v51,
      v52, v53, v54, v55, v56, v57, v58, v59, v60, v61, v62, v63, v64, v65, v66, v67, v68, v69,
      v70, v71, v72, v73, v74, v75, t.pins, v77, v78, v79, v80, v81, v82, v83, t.free⟩ ↔ Keeps s0
      t :=
  ⟨fun h => ⟨h.pending, h.straps, h.free, h.mem, h.regs⟩, fun h => ⟨h.pending, h.straps, h.free, h.mem, h.regs⟩⟩

/-- A change of any fields but the queue. -/
theorem Keeps.change {r : Map Nat} {m : Map Byte} {p : Pins} {f : Nat}
    {v3 v4 v5 v6 v7 v8 v9 v10 v11 v12 v13 v14 v15 v16 v17 v18 v19 v20 v21 v22 v23 v24 v25 v26 v27
    v28 v29 v30 v31 v32 v33 v34 v35 v36 v37 v38 v39 v40 v41 v42 v43 v44 v45 v46 v47 v48 v49 v50
    v51 v52 v53 v54 v55 v56 v57 v58 v59 v60 v61 v62 v63 v64 v65 v66 v67 v68 v69 v70 v71 v72 v73
    v74 v75 v77 v78 v79 v80 v81 v82 v83}
    (h : Keeps s0 t) (hp : p.straps = t.pins.straps) (hf : t.free ≤ f)
    (hm : mwf memDefault t.mem = true → mwf memDefault m = true)
    (hr : keysUp t.regs = true → keysUp r = true) :
    Keeps s0 ⟨t.pending, r, m, v3, v4, v5, v6, v7, v8, v9, v10, v11, v12, v13, v14, v15, v16, v17,
      v18, v19, v20, v21, v22, v23, v24, v25, v26, v27, v28, v29, v30, v31, v32, v33, v34, v35,
      v36, v37, v38, v39, v40, v41, v42, v43, v44, v45, v46, v47, v48, v49, v50, v51, v52, v53,
      v54, v55, v56, v57, v58, v59, v60, v61, v62, v63, v64, v65, v66, v67, v68, v69, v70, v71,
      v72, v73, v74, v75, p, v77, v78, v79, v80, v81, v82, v83, f⟩ :=
  ⟨h.pending, hp.trans h.straps, Nat.le_trans h.free hf, fun x => hm (h.mem x), fun x => hr (h.regs x)⟩

/-- Either way of a choice. -/
theorem Keeps.ite {c : Prop} [Decidable c] {a b : State} (ha : c → Keeps s0 a) (hb : ¬c → Keeps s0 b) :
    Keeps s0 (if c then a else b) := by
  split
  · next h => exact ha h
  · next h => exact hb h

/-- The state of a pair that an operation has answered. -/
theorem Keeps.ofSnd {α : Type} {p : α × State} {a : α} (h : p = (a, t)) (k : Keeps s0 p.2) :
    Keeps s0 t := by subst h; exact k

/-- The state of a pair that an operation has answered. -/
theorem Keeps.ofFst {α : Type} {p : State × α} {a : α} (h : p = (t, a)) (k : Keeps s0 p.1) :
    Keeps s0 t := by subst h; exact k

/-- A change for each element of a list. -/
theorem forEach_keeps {α : Type} (xs : List α) (f : State → α → State) (h : Keeps s0 s)
    (hf : ∀ t x, Keeps s0 t → Keeps s0 (f t x)) : Keeps s0 (forEach xs s f) := by
  induction xs generalizing s with
  | nil => exact h
  | cons x xs ih => exact ih (hf s x h)

/-- A fold over a list. -/
theorem foldl_keeps {α : Type} (xs : List α) (f : State → α → State) (h : Keeps s0 s)
    (hf : ∀ t x, Keeps s0 t → Keeps s0 (f t x)) : Keeps s0 (xs.foldl f s) := forEach_keeps xs f h hf

/-- A fold that carries the state along with something else. -/
theorem foldl_fst_keeps {α β : Type} (xs : List α) (b : β) (f : State × β → α → State × β)
    (h : Keeps s0 s) (hf : ∀ p x, Keeps s0 p.1 → Keeps s0 (f p x).1) :
    Keeps s0 (xs.foldl f (s, b)).1 := by
  suffices hp : ∀ p : State × β, Keeps s0 p.1 → Keeps s0 (xs.foldl f p).1 from hp (s, b) h
  intro p hp
  induction xs generalizing p with
  | nil => exact hp
  | cons x xs ih => exact ih (f p x) (hf p x hp)

/-- What an outcome's next state keeps. -/
structure KeepsO (s : State) (o : Host.Outcome State Fault Refusal) : Prop where
  of : ∀ t, o = .next t → Keeps s t

/-- A next state. -/
theorem KeepsO.next (h : Keeps s t) : KeepsO s (.next t) :=
  ⟨fun u hu => by cases hu; exact h⟩

/-- Either way of a choice of outcomes. -/
theorem KeepsO.ite {c : Prop} [Decidable c] {a b : Host.Outcome State Fault Refusal}
    (ha : c → KeepsO s0 a) (hb : ¬c → KeepsO s0 b) : KeepsO s0 (if c then a else b) := by
  split
  · next h => exact ha h
  · next h => exact hb h

/-- What the state that an operation may answer keeps. -/
structure KeepsOpt (s : State) (o : Option State) : Prop where
  of : ∀ t, o = some t → Keeps s t

/-- No answer. -/
theorem KeepsOpt.none : KeepsOpt s none := ⟨fun t ht => by cases ht⟩

/-- An answer. -/
theorem KeepsOpt.some (h : Keeps s t) : KeepsOpt s (some t) :=
  ⟨fun u hu => by cases hu; exact h⟩

/-- Either way of a choice of answers. -/
theorem KeepsOpt.ite {c : Prop} [Decidable c] {a b : Option State} (ha : c → KeepsOpt s0 a)
    (hb : ¬c → KeepsOpt s0 b) : KeepsOpt s0 (if c then a else b) := by
  split
  · next h => exact ha h
  · next h => exact hb h

/-- An answer, or something else. -/
theorem getD_keeps {o : Option State} (h : KeepsOpt s0 o) (ht : Keeps s0 t) : Keeps s0 (o.getD t) := by
  cases o with
  | none => exact ht
  | some u => exact h.of u rfl

/-! ### The shared operations -/

/-- Setting a register field. -/
theorem wg_keeps (h : Keeps s0 s) (slot : Nat) (f : Fld) (v : Nat) : Keeps s0 (wg s slot f v) :=
  ⟨h.pending, h.straps, h.free, h.mem, fun x => keysUp_mset f.reset s.regs _ _ (h.regs x)⟩

/-- Setting a register field to a value that is not known. -/
theorem wgFree_keeps (h : Keeps s0 s) (slot : Nat) (f : Fld) (v : Nat) : Keeps s0 (wgFree s slot f v) :=
  ⟨h.pending, h.straps, h.free, h.mem, fun x => keysUp_mins s.regs _ _ (h.regs x)⟩

/-- Writing one byte of memory. -/
theorem wrByte_keeps (h : Keeps s0 s) (a : Nat) (b : Byte) : Keeps s0 (wrByte s a b) :=
  ⟨h.pending, h.straps, h.free, fun x => mwf_mset memDefault s.mem a b (h.mem x), h.regs⟩

/-- Writing bytes of memory. -/
theorem wrBytes_keeps (h : Keeps s0 s) (a : Nat) (bs : List Byte) : Keeps s0 (wrBytes s a bs) := by
  induction bs generalizing s a with
  | nil => exact h
  | cons b bs ih => exact ih (wrByte_keeps h a b) (a + 1)

/-- Taking a free value. -/
theorem useFree_keeps (h : Keeps s0 s) : Keeps s0 (useFree s).2 :=
  ⟨h.pending, h.straps, Nat.le_succ_of_le h.free, h.mem, h.regs⟩

end Sys2Proof.Machine
end

