-- ==== Sys2Proof/Laws/KeepsOps.lean ====
section
/-!
SUPPORT. What the operations of Machine/Ops.lean keep (`Keeps`).
-/

namespace Sys2Proof.Machine

variable {s0 s : State}

/-- What `wrLe` keeps. -/
theorem wrLe_keeps (hk : Keeps s0 s) (a n v : Nat) : Keeps s0 (wrLe s a n v) := by
  unfold wrLe
  repeat' first
    | with_reducible exact hk | with_reducible apply wrBytes_keeps

/-- What `incr` keeps. -/
theorem incr_keeps (hk : Keeps s0 s) (slot : Nat) (f : Fld) (k : Nat) : Keeps s0 (incr s slot f k) := by
  unfold incr
  repeat' first
    | with_reducible exact hk | with_reducible apply wg_keeps

/-- What `setDie` keeps. -/
theorem setDie_keeps (hk : Keeps s0 s) (d : Nat) (x : DieSt) : Keeps s0 (setDie s d x) := by
  unfold setDie
  repeat' first
    | with_reducible exact hk | simp only [Keeps.fields]

/-- What `updDie` keeps. -/
theorem updDie_keeps (hk : Keeps s0 s) (d : Nat) (f : DieSt → DieSt) : Keeps s0 (updDie s d f) := by
  unfold updDie
  repeat' first
    | with_reducible exact hk | with_reducible apply setDie_keeps

/-- What `updSeq` keeps. -/
theorem updSeq_keeps (hk : Keeps s0 s) (d : Nat) (f : Seq → Seq) : Keeps s0 (updSeq s d f) := by
  unfold updSeq
  repeat' first
    | with_reducible exact hk | with_reducible apply updDie_keeps | simp only [Keeps.fields]
    | dsimp only

/-- What `updMem` keeps. -/
theorem updMem_keeps (hk : Keeps s0 s) (d : Nat) (f : MemCtl → MemCtl) : Keeps s0 (updMem s d f) := by
  unfold updMem
  repeat' first
    | with_reducible exact hk | with_reducible apply updDie_keeps | simp only [Keeps.fields]
    | dsimp only

/-- What `updPhase` keeps. -/
theorem updPhase_keeps (hk : Keeps s0 s) (d ph : Nat) (f : Phase → Phase) : Keeps s0 (updPhase s d ph f) := by
  unfold updPhase
  repeat' first
    | with_reducible exact hk | with_reducible apply updSeq_keeps | simp only [Keeps.fields]
    | dsimp only

/-- What `setTile` keeps. -/
theorem setTile_keeps (hk : Keeps s0 s) (d c t : Nat) (x : Tile) : Keeps s0 (setTile s d c t x) := by
  unfold setTile
  repeat' first
    | with_reducible exact hk | simp only [Keeps.fields]

/-- What `setQueue` keeps. -/
theorem setQueue_keeps (hk : Keeps s0 s) (d c : Nat) (q : List Nat) : Keeps s0 (setQueue s d c q) := by
  unfold setQueue
  repeat' first
    | with_reducible exact hk | simp only [Keeps.fields]

/-- What `setEdgeSide` keeps. -/
theorem setEdgeSide_keeps (hk : Keeps s0 s) (e : EdgeEnd) (x : EdgeSide) : Keeps s0 (setEdgeSide s e x) := by
  unfold setEdgeSide
  repeat' first
    | with_reducible exact hk | simp only [Keeps.fields]

/-- What `setLink` keeps. -/
theorem setLink_keeps (hk : Keeps s0 s) (p : Nat) (x : Link) : Keeps s0 (setLink s p x) := by
  unfold setLink
  repeat' first
    | with_reducible exact hk | simp only [Keeps.fields]

/-- What `setJob` keeps. -/
theorem setJob_keeps (hk : Keeps s0 s) (j : Nat) (x : Job) : Keeps s0 (setJob s j x) := by
  unfold setJob
  repeat' first
    | with_reducible exact hk | simp only [Keeps.fields]

/-- What `updGeyser` keeps. -/
theorem updGeyser_keeps (hk : Keeps s0 s) (h : Nat) (f : Geyser → Geyser) : Keeps s0 (updGeyser s h f) := by
  unfold updGeyser
  repeat' first
    | with_reducible exact hk | simp only [Keeps.fields]

/-- What `updCq` keeps. -/
theorem updCq_keeps (hk : Keeps s0 s) (q : Nat) (f : Cq → Cq) : Keeps s0 (updCq s q f) := by
  unfold updCq
  repeat' first
    | with_reducible exact hk | simp only [Keeps.fields]

/-- What `updRing` keeps. -/
theorem updRing_keeps (hk : Keeps s0 s) (p r : Nat) (f : Ring → Ring) : Keeps s0 (updRing s p r f) := by
  unfold updRing
  repeat' first
    | with_reducible exact hk | simp only [Keeps.fields]

/-- What `updCPort` keeps. -/
theorem updCPort_keeps (hk : Keeps s0 s) (p n : Nat) (f : CPort → CPort) : Keeps s0 (updCPort s p n f) := by
  unfold updCPort
  repeat' first
    | with_reducible exact hk | simp only [Keeps.fields]

end Sys2Proof.Machine
end

