-- ==== Sys2Proof/Laws/KeepsPages.lean ====
section
/-!
SUPPORT. What the operations of Machine/Pages.lean keep (`Keeps`).
-/

namespace Sys2Proof.Machine

variable {s0 s : State}

/-- What `wakeFor` keeps. -/
theorem wakeFor_keeps (hk : Keeps s0 s) (slot : Nat) : Keeps s0 (wakeFor s slot) := by
  unfold wakeFor
  repeat' first
    | with_reducible exact hk | with_reducible apply wg_keeps | simp only [Keeps.fields]
    | with_reducible refine Keeps.ite ?_ ?_ | intro _ | dsimp only

/-- What `writeHeader` keeps. -/
theorem writeHeader_keeps (hk : Keeps s0 s) (slot off val : Nat) : Keeps s0 (writeHeader s slot off val) := by
  unfold writeHeader
  repeat' first
    | with_reducible exact hk | with_reducible assumption | with_reducible apply wg_keeps
    | with_reducible apply forEach_keeps | with_reducible refine Keeps.ite ?_ ?_ | intro _
    | dsimp only | split

/-- What `setTremor` keeps. -/
theorem setTremor_keeps (hk : Keeps s0 s) (slot : Nat) (x : Tremor) : Keeps s0 (setTremor s slot x) := by
  unfold setTremor
  repeat' first
    | with_reducible exact hk | simp only [Keeps.fields]

/-- What `retire` keeps. -/
theorem retire_keeps (hk : Keeps s0 s) (slot : Nat) (k : Nat) : Keeps s0 (retire s slot k) := by
  unfold retire
  repeat' first
    | with_reducible exact hk | with_reducible apply setTremor_keeps | simp only [Keeps.fields]
    | with_reducible refine Keeps.ite ?_ ?_ | intro _ | dsimp only

end Sys2Proof.Machine
end

