-- ==== Sys2Proof/Laws/KeepsFlags.lean ====
section
/-!
SUPPORT. What the operations of Machine/Flags.lean keep (`Keeps`).
-/

namespace Sys2Proof.Machine

variable {s0 s : State}

/-- What `updCmd` keeps. -/
theorem updCmd_keeps (hk : Keeps s0 s) (p n h : Nat) (f : Cmd → Cmd) : Keeps s0 (updCmd s p n h f) := by
  unfold updCmd
  repeat' first
    | with_reducible exact hk | with_reducible apply updCPort_keeps | simp only [Keeps.fields]
    | dsimp only

/-- What `complete` keeps. -/
theorem complete_keeps (hk : Keeps s0 s) (h status result : Nat) (detail : Nat) : Keeps s0 (complete s h status result detail) := by
  unfold complete
  repeat' first
    | with_reducible exact hk | with_reducible apply updCPort_keeps
    | with_reducible apply updRing_keeps | simp only [Keeps.fields] | dsimp only | split
    | refine Keeps.ofSnd (by assumption) ?_ | refine Keeps.ofFst (by assumption) ?_

/-- What `raise` keeps. -/
theorem raise_keeps (hk : Keeps s0 s) (e : Event) : Keeps s0 (raise s e) := by
  unfold raise
  repeat' first
    | with_reducible exact hk | simp only [Keeps.fields]

/-- What `logWrite` keeps. -/
theorem logWrite_keeps (hk : Keeps s0 s) (e : Event) (c : Nat) (masked first : Bool) : Keeps s0 (logWrite s e c masked first) := by
  unfold logWrite
  repeat' first
    | with_reducible exact hk | with_reducible apply wg_keeps | simp only [Keeps.fields]
    | dsimp only

/-- What `keepPair` keeps. -/
theorem keepPair_keeps (hk : Keeps s0 s) (e : Event) (c : Nat) (masked first : Bool) : Keeps s0 (keepPair s e c masked first) := by
  unfold keepPair
  repeat' first
    | with_reducible exact hk | simp only [Keeps.fields] | with_reducible refine Keeps.ite ?_ ?_
    | intro _ | dsimp only | refine Keeps.ofSnd (by assumption) ?_
    | refine Keeps.ofFst (by assumption) ?_

/-- What `waitFaults` keeps. -/
theorem waitFaults_keeps (hk : Keeps s0 s) (c index : Nat) : Keeps s0 (waitFaults s c index) := by
  unfold waitFaults
  repeat' first
    | with_reducible exact hk | with_reducible assumption | with_reducible apply complete_keeps
    | with_reducible apply forEach_keeps | with_reducible refine Keeps.ite ?_ ?_ | intro _
    | dsimp only

/-- What `alert` keeps. -/
theorem alert_keeps (hk : Keeps s0 s) (e : Event) (c : Nat) : Keeps s0 (alert s e c) := by
  unfold alert
  repeat' first
    | with_reducible exact hk | with_reducible apply incr_keeps | simp only [Keeps.fields]
    | with_reducible refine Keeps.ite ?_ ?_ | intro _ | dsimp only

/-- What `record` keeps. -/
theorem record_keeps (hk : Keeps s0 s) (e : Event) : Keeps s0 (record s e) := by
  unfold record
  repeat' first
    | with_reducible exact hk | with_reducible apply wg_keeps | with_reducible apply incr_keeps
    | with_reducible apply logWrite_keeps | with_reducible apply waitFaults_keeps
    | with_reducible apply keepPair_keeps | with_reducible apply alert_keeps
    | with_reducible refine Keeps.ite ?_ ?_ | intro _ | dsimp only | split

end Sys2Proof.Machine
end

