-- ==== Sys2Proof/Laws/KeepsAccess.lean ====
section
/-!
SUPPORT. What the operations of Machine/Access.lean keep (`Keeps`).
-/

namespace Sys2Proof.Machine

variable {s0 s : State}

/-- What `setErr` keeps. -/
theorem setErr_keeps (hk : Keeps s0 s) (a n : Nat) : Keeps s0 (setErr s a n) := by
  unfold setErr
  repeat' first
    | with_reducible exact hk | simp only [Keeps.fields] | with_reducible refine Keeps.ite ?_ ?_
    | intro _ | dsimp only

/-- What `reportError` keeps. -/
theorem reportError_keeps (hk : Keeps s0 s) (d kind a ch cb : Nat) : Keeps s0 (reportError s d kind a ch cb) := by
  unfold reportError
  repeat' first
    | with_reducible exact hk | with_reducible apply wg_keeps
    | with_reducible refine Keeps.ite ?_ ?_ | intro _ | dsimp only

/-- What `queueRepair` keeps. -/
theorem queueRepair_keeps (hk : Keeps s0 s) (d ch row : Nat) (a : Nat) : Keeps s0 (queueRepair s d ch row a) := by
  unfold queueRepair
  repeat' first
    | with_reducible exact hk | with_reducible apply updMem_keeps | with_reducible apply wg_keeps
    | with_reducible apply raise_keeps | simp only [Keeps.fields]
    | with_reducible refine Keeps.ite ?_ ?_ | intro _ | dsimp only

/-- What `repairCandidate` keeps. -/
theorem repairCandidate_keeps (hk : Keeps s0 s) (d ch cb a : Nat) : Keeps s0 (repairCandidate s d ch cb a) := by
  unfold repairCandidate
  repeat' first
    | with_reducible exact hk | with_reducible apply useFree_keeps
    | with_reducible apply updMem_keeps | with_reducible apply queueRepair_keeps
    | simp only [Keeps.fields] | with_reducible refine Keeps.ite ?_ ?_ | intro _ | dsimp only
    | split | refine Keeps.ofSnd (by assumption) ?_ | refine Keeps.ofFst (by assumption) ?_

/-- What `foundBad` keeps. -/
theorem foundBad_keeps (hk : Keeps s0 s) (a : Nat) (scrub : Bool) : Keeps s0 (foundBad s a scrub) := by
  unfold foundBad
  repeat' first
    | with_reducible exact hk | with_reducible apply setErr_keeps
    | with_reducible apply incr_keeps | with_reducible apply reportError_keeps
    | with_reducible apply repairCandidate_keeps | with_reducible apply raise_keeps
    | with_reducible refine Keeps.ite ?_ ?_ | intro _ | dsimp only | split
    | refine Keeps.ofSnd (by assumption) ?_ | refine Keeps.ofFst (by assumption) ?_

/-- What `foundCorrected` keeps. -/
theorem foundCorrected_keeps (hk : Keeps s0 s) (a : Nat) (repairs : Bool) : Keeps s0 (foundCorrected s a repairs) := by
  unfold foundCorrected
  repeat' first
    | with_reducible exact hk | with_reducible apply incr_keeps | with_reducible apply raise_keeps
    | with_reducible apply updMem_keeps | with_reducible apply reportError_keeps
    | with_reducible apply repairCandidate_keeps | simp only [Keeps.fields]
    | with_reducible refine Keeps.ite ?_ ?_ | intro _ | dsimp only | split
    | refine Keeps.ofSnd (by assumption) ?_ | refine Keeps.ofFst (by assumption) ?_

/-- What `rmwRead` keeps. -/
theorem rmwRead_keeps (hk : Keeps s0 s) (a : Nat) : Keeps s0 (rmwRead s a).1 := by
  unfold rmwRead
  repeat' first
    | with_reducible exact hk | with_reducible apply foundCorrected_keeps
    | with_reducible apply setErr_keeps | with_reducible apply foundBad_keeps | split

/-- What `wrPairs` keeps. -/
theorem wrPairs_keeps (hk : Keeps s0 s) (ps : List (Nat × Byte)) : Keeps s0 (wrPairs s ps) := by
  unfold wrPairs
  repeat' first
    | with_reducible exact hk | with_reducible assumption | with_reducible apply wrByte_keeps
    | with_reducible apply forEach_keeps | intro _ | dsimp only
    | refine Keeps.ofSnd (by assumption) ?_ | refine Keeps.ofFst (by assumption) ?_

/-- What `freeBytes` keeps. -/
theorem freeBytes_keeps (hk : Keeps s0 s) (n : Nat) : Keeps s0 (freeBytes s n).2 := by
  unfold freeBytes
  repeat' first
    | with_reducible exact hk | with_reducible exact id | with_reducible exact mwf_mkeep _ _ _
    | with_reducible exact fun _ => mwf_nil _ | with_reducible exact Nat.le_refl _
    | with_reducible exact Nat.le_add_right _ _ | with_reducible exact keysUp_filter _ _
    | with_reducible exact keysUp_mkeep _ _ | with_reducible rfl | simp only [Keeps.fields]
    | dsimp only | with_reducible apply Keeps.change

/-- What `codeFinds` keeps. -/
theorem codeFinds_keeps (hk : Keeps s0 s) (a symbols : Nat) : Keeps s0 (codeFinds s a symbols).1 := by
  unfold codeFinds
  repeat' first
    | with_reducible exact hk | with_reducible apply useFree_keeps
    | with_reducible apply freeBytes_keeps | with_reducible apply wrBytes_keeps
    | with_reducible refine Keeps.ite ?_ ?_ | intro _ | dsimp only | split
    | refine Keeps.ofSnd (by assumption) ?_ | refine Keeps.ofFst (by assumption) ?_

/-- What `turnBus` keeps. -/
theorem turnBus_keeps (hk : Keeps s0 s) (d ch dir : Nat) : Keeps s0 (turnBus s d ch dir) := by
  unfold turnBus
  repeat' first
    | with_reducible exact hk | with_reducible apply useFree_keeps
    | with_reducible apply updMem_keeps | with_reducible apply incr_keeps
    | simp only [Keeps.fields] | with_reducible refine Keeps.ite ?_ ?_ | intro _ | dsimp only
    | split | refine Keeps.ofSnd (by assumption) ?_ | refine Keeps.ofFst (by assumption) ?_

/-- What `turnFor` keeps. -/
theorem turnFor_keeps (hk : Keeps s0 s) (d ch : Nat) (ts : List Nat) : Keeps s0 (turnFor s d ch ts) := by
  unfold turnFor
  repeat' first
    | with_reducible exact hk | with_reducible assumption | with_reducible apply turnBus_keeps
    | with_reducible apply forEach_keeps | intro _ | dsimp only

/-- What `joinQueue` keeps. -/
theorem joinQueue_keeps (hk : Keeps s0 s) (d ch : Nat) (x : Access) (ts : List Nat) : Keeps s0 (joinQueue s d ch x ts) := by
  unfold joinQueue
  repeat' first
    | with_reducible exact hk | with_reducible apply updMem_keeps | simp only [Keeps.fields]
    | dsimp only

/-- What `spoilTask` keeps. -/
theorem spoilTask_keeps (hk : Keeps s0 s) (by_ : Reader) : Keeps s0 (spoilTask s by_) := by
  unfold spoilTask
  repeat' first
    | with_reducible exact hk | with_reducible apply setTile_keeps | simp only [Keeps.fields]
    | dsimp only | split

/-- What `noteSeen` keeps. -/
theorem noteSeen_keeps (hk : Keeps s0 s) (by_ : Reader) (a : Nat) : Keeps s0 (noteSeen s by_ a) := by
  unfold noteSeen
  repeat' first
    | with_reducible exact hk | simp only [Keeps.fields] | with_reducible refine Keeps.ite ?_ ?_
    | intro _

/-- What `readOne` keeps. -/
theorem readOne_keeps (hk : Keeps s0 s) (by_ : Reader) (a symbols : Nat) : Keeps s0 (readOne s by_ a symbols) := by
  unfold readOne
  repeat' first
    | with_reducible exact hk | with_reducible apply codeFinds_keeps
    | with_reducible apply setErr_keeps | with_reducible apply noteSeen_keeps
    | with_reducible apply foundCorrected_keeps | with_reducible apply spoilTask_keeps
    | with_reducible apply foundBad_keeps | split | refine Keeps.ofSnd (by assumption) ?_
    | refine Keeps.ofFst (by assumption) ?_

/-- What `readerEffect` keeps. -/
theorem readerEffect_keeps (hk : Keeps s0 s) (d : Nat) (by_ : Reader) (x : Access) : Keeps s0 (readerEffect s d by_ x) := by
  unfold readerEffect
  repeat' first
    | with_reducible exact hk | with_reducible assumption | with_reducible apply readOne_keeps
    | with_reducible apply retire_keeps | with_reducible apply forEach_keeps | intro _
    | dsimp only

/-- What `writeEffect` keeps. -/
theorem writeEffect_keeps (hk : Keeps s0 s) (d : Nat) (x : Access) (buffered : Bool) : Keeps s0 (writeEffect s d x buffered).1 := by
  unfold writeEffect
  repeat' first
    | with_reducible exact hk | with_reducible apply wrPairs_keeps
    | with_reducible apply retire_keeps | with_reducible apply setErr_keeps
    | with_reducible apply codeFinds_keeps | with_reducible apply foundCorrected_keeps
    | with_reducible apply foundBad_keeps | with_reducible refine Keeps.ite ?_ ?_ | intro _
    | dsimp only | split | refine Keeps.ofSnd (by assumption) ?_
    | refine Keeps.ofFst (by assumption) ?_

/-- What `accessEffect` keeps. -/
theorem accessEffect_keeps (hk : Keeps s0 s) (d : Nat) (x : Access) : Keeps s0 (accessEffect s d x).1 := by
  unfold accessEffect
  repeat' first
    | with_reducible exact hk | with_reducible apply readerEffect_keeps
    | with_reducible apply writeEffect_keeps | split

/-- What `performAccess` keeps. -/
theorem performAccess_keeps (hk : Keeps s0 s) (d ch : Nat) (x : Access) : Keeps s0 (performAccess s d ch x) := by
  unfold performAccess
  repeat' first
    | with_reducible exact hk | with_reducible apply accessEffect_keeps
    | with_reducible apply joinQueue_keeps | dsimp only | split
    | refine Keeps.ofSnd (by assumption) ?_ | refine Keeps.ofFst (by assumption) ?_

/-- What `issueAccess` keeps. -/
theorem issueAccess_keeps (hk : Keeps s0 s) (d ch : Nat) (x : Access) : Keeps s0 (issueAccess s d ch x) := by
  unfold issueAccess
  repeat' first
    | with_reducible exact hk | with_reducible apply accessEffect_keeps
    | with_reducible apply turnFor_keeps | with_reducible refine Keeps.ite ?_ ?_ | intro _
    | dsimp only | split | refine Keeps.ofSnd (by assumption) ?_
    | refine Keeps.ofFst (by assumption) ?_

/-- What `issueQueue` keeps. -/
theorem issueQueue_keeps (hk : Keeps s0 s) (x0 : Nat) (x2 : Nat) (x3 : Nat) (x4 : List Access) (x5 : Bool) (x6 : Nat) : Keeps s0 (issueQueue x0 s x2 x3 x4 x5 x6) := by
  induction x0 generalizing s x2 x3 x4 x5 x6 with
  | zero => unfold issueQueue; exact hk
  | succ n ih =>
    unfold issueQueue
    repeat' first
      | with_reducible exact hk | with_reducible assumption | with_reducible apply issueAccess_keeps
      | with_reducible apply ih | with_reducible refine Keeps.ite ?_ ?_ | intro _ | split

/-- What `issueChannel` keeps. -/
theorem issueChannel_keeps (hk : Keeps s0 s) (d ch : Nat) (behind : List Access) : Keeps s0 (issueChannel s d ch behind) := by
  unfold issueChannel
  repeat' first
    | with_reducible exact hk | with_reducible apply updMem_keeps
    | with_reducible apply issueQueue_keeps | simp only [Keeps.fields] | dsimp only

/-- What `issueDie` keeps. -/
theorem issueDie_keeps (hk : Keeps s0 s) (d : Nat) : Keeps s0 (issueDie s d) := by
  unfold issueDie
  repeat' first
    | with_reducible exact hk | with_reducible assumption
    | with_reducible apply issueChannel_keeps | with_reducible apply forEach_keeps
    | with_reducible refine Keeps.ite ?_ ?_ | intro _ | dsimp only

/-- What `dropHold` keeps. -/
theorem dropHold_keeps (hk : Keeps s0 s) (d : Nat) : Keeps s0 (dropHold s d) := by
  unfold dropHold
  repeat' first
    | with_reducible exact hk | with_reducible assumption | with_reducible apply wg_keeps
    | with_reducible apply updMem_keeps | with_reducible apply writeEffect_keeps
    | with_reducible apply turnFor_keeps | with_reducible apply issueChannel_keeps
    | simp only [Keeps.fields] | with_reducible apply forEach_keeps | intro _ | dsimp only | split
    | refine Keeps.ofSnd (by assumption) ?_ | refine Keeps.ofFst (by assumption) ?_

/-- What `waitHeld` keeps. -/
theorem waitHeld_keeps (hk : Keeps s0 s) (d : Nat) (h : Hold) (x : Access) : Keeps s0 (waitHeld s d h x) := by
  unfold waitHeld
  repeat' first
    | with_reducible exact hk | with_reducible apply updMem_keeps | simp only [Keeps.fields]
    | dsimp only

/-- What `bufferWrite` keeps. -/
theorem bufferWrite_keeps (hk : Keeps s0 s) (d : Nat) (h : Hold) (x : Access) : Keeps s0 (bufferWrite s d h x) := by
  unfold bufferWrite
  repeat' first
    | with_reducible exact hk | with_reducible apply codeFinds_keeps
    | with_reducible apply updMem_keeps | with_reducible apply wrPairs_keeps
    | simp only [Keeps.fields] | with_reducible refine Keeps.ite ?_ ?_ | intro _ | dsimp only
    | split | refine Keeps.ofSnd (by assumption) ?_ | refine Keeps.ofFst (by assumption) ?_

/-- What `writeHeld` keeps. -/
theorem writeHeld_keeps (hk : Keeps s0 s) (d : Nat) (h : Hold) (x : Access) : Keeps s0 (writeHeld s d h x) := by
  unfold writeHeld
  repeat' first
    | with_reducible exact hk | with_reducible apply waitHeld_keeps
    | with_reducible apply bufferWrite_keeps | with_reducible refine Keeps.ite ?_ ?_ | intro _
    | dsimp only

/-- What `storeMasked` keeps. -/
theorem storeMasked_keeps (hk : Keeps s0 s) (ps : List (Nat × Byte)) : Keeps s0 (storeMasked s ps) := by
  unfold storeMasked
  repeat' first
    | with_reducible exact hk | with_reducible apply writeHeld_keeps
    | with_reducible apply wrPairs_keeps | with_reducible apply setErr_keeps
    | with_reducible apply rmwRead_keeps | with_reducible refine Keeps.ite ?_ ?_ | intro _ | split
    | refine Keeps.ofSnd (by assumption) ?_ | refine Keeps.ofFst (by assumption) ?_

/-- What `storeVia` keeps. -/
theorem storeVia_keeps (hk : Keeps s0 s) (src : Source) (ps : List (Nat × Byte)) : Keeps s0 (storeVia s src ps) := by
  unfold storeVia
  repeat' first
    | with_reducible exact hk | with_reducible apply storeMasked_keeps | simp only [Keeps.fields]
    | with_reducible refine Keeps.ite ?_ ?_ | intro _ | dsimp only | split

/-- What `flushPosted` keeps. -/
theorem flushPosted_keeps (hk : Keeps s0 s) : Keeps s0 (flushPosted s) := by
  unfold flushPosted
  repeat' first
    | with_reducible exact hk | with_reducible assumption | with_reducible apply storeVia_keeps
    | simp only [Keeps.fields] | with_reducible apply forEach_keeps
    | with_reducible refine Keeps.ite ?_ ?_ | intro _ | dsimp only

/-- What `storeSectors` keeps. -/
theorem storeSectors_keeps (hk : Keeps s0 s) (x0 : Nat) (x2 : Source) (x3 : Nat) (x4 : List Byte) : Keeps s0 (storeSectors x0 s x2 x3 x4) := by
  induction x0 generalizing s x2 x3 x4 with
  | zero => unfold storeSectors; exact hk
  | succ n ih =>
    unfold storeSectors
    repeat' first
      | with_reducible exact hk | with_reducible assumption | with_reducible apply storeVia_keeps
      | with_reducible apply ih | with_reducible refine Keeps.ite ?_ ?_ | intro _ | dsimp only
      | split

/-- What `store` keeps. -/
theorem store_keeps (hk : Keeps s0 s) (src : Source) (a : Nat) (bs : List Byte) : Keeps s0 (store s src a bs) := by
  unfold store
  repeat' first
    | with_reducible exact hk | with_reducible apply storeSectors_keeps

/-- What `storeIf` keeps. -/
theorem storeIf_keeps (hk : Keeps s0 s) (src : Source) (a : Nat) (bs : List Byte) : Keeps s0 (storeIf s src a bs) := by
  unfold storeIf
  repeat' first
    | with_reducible exact hk | with_reducible apply store_keeps
    | with_reducible refine Keeps.ite ?_ ?_ | intro _

/-- What `storeBoth` keeps. -/
theorem storeBoth_keeps (hk : Keeps s0 s) (src : Source) (a : Nat) (bs : List Byte) : Keeps s0 (storeBoth s src a bs) := by
  unfold storeBoth
  repeat' first
    | with_reducible exact hk | with_reducible assumption | with_reducible apply store_keeps
    | with_reducible apply forEach_keeps | intro _ | dsimp only

/-- What `storeDie` keeps. -/
theorem storeDie_keeps (hk : Keeps s0 s) (d a : Nat) (bs : List Byte) : Keeps s0 (storeDie s d a bs) := by
  unfold storeDie
  repeat' first
    | with_reducible exact hk | with_reducible apply storeIf_keeps

/-- What `checkErrs` keeps. -/
theorem checkErrs_keeps (hk : Keeps s0 s) (bys : List Reader) (es : List (Nat × Nat)) : Keeps s0 (checkErrs s bys es).1 := by
  unfold checkErrs
  repeat' first
    | with_reducible exact hk | with_reducible assumption | with_reducible apply foundBad_keeps
    | with_reducible apply foundCorrected_keeps | simp only [Keeps.fields]
    | with_reducible apply forEach_keeps | with_reducible refine Keeps.ite ?_ ?_ | intro _
    | dsimp only | refine Keeps.ofSnd (by assumption) ?_ | refine Keeps.ofFst (by assumption) ?_

/-- What `checkRead` keeps. -/
theorem checkRead_keeps (hk : Keeps s0 s) (by_ : Reader) (a n : Nat) : Keeps s0 (checkRead s by_ a n).1 := by
  unfold checkRead
  repeat' first
    | with_reducible exact hk | with_reducible apply checkErrs_keeps

/-- What `dieTraffic` keeps. -/
theorem dieTraffic_keeps (hk : Keeps s0 s) (d : Nat) : Keeps s0 (dieTraffic s d) := by
  unfold dieTraffic
  repeat' first
    | with_reducible exact hk | with_reducible apply useFree_keeps
    | with_reducible apply updMem_keeps | with_reducible apply wgFree_keeps
    | simp only [Keeps.fields] | dsimp only | split | refine Keeps.ofSnd (by assumption) ?_
    | refine Keeps.ofFst (by assumption) ?_

/-- What `traffic` keeps. -/
theorem traffic_keeps (hk : Keeps s0 s) : Keeps s0 (traffic s) := by
  unfold traffic
  repeat' first
    | with_reducible exact hk | with_reducible assumption | with_reducible apply dieTraffic_keeps
    | with_reducible apply forEach_keeps | intro _

/-- What `checkDie` keeps. -/
theorem checkDie_keeps (hk : Keeps s0 s) (d : Nat) (rs : List (Nat × Nat)) : Keeps s0 (checkDie s d rs) := by
  unfold checkDie
  repeat' first
    | with_reducible exact hk | with_reducible apply checkErrs_keeps | dsimp only
    | refine Keeps.ofSnd (by assumption) ?_ | refine Keeps.ofFst (by assumption) ?_

/-- What `dmaStore` keeps. -/
theorem dmaStore_keeps (hk : Keeps s0 s) (c : Cmd) (off : Nat) (bs : List Byte) : Keeps s0 (dmaStore s c off bs) := by
  unfold dmaStore
  repeat' first
    | with_reducible exact hk | with_reducible apply storeBoth_keeps | simp only [Keeps.fields]
    | with_reducible refine Keeps.ite ?_ ?_ | intro _

/-- What `dmaCut` keeps. -/
theorem dmaCut_keeps (hk : Keeps s0 s) (c : Cmd) : Keeps s0 (dmaCut s c).1 := by
  unfold dmaCut
  repeat' first
    | with_reducible exact hk | with_reducible apply useFree_keeps
    | with_reducible apply freeBytes_keeps | with_reducible apply dmaStore_keeps
    | with_reducible apply checkRead_keeps | with_reducible refine Keeps.ite ?_ ?_ | intro _
    | dsimp only | split | refine Keeps.ofSnd (by assumption) ?_
    | refine Keeps.ofFst (by assumption) ?_

end Sys2Proof.Machine
end

