-- ==== Sys2Proof/Laws/KeepsTaskState.lean ====
section
/-!
SUPPORT. What the operations of Machine/TaskState.lean keep (`Keeps`).
-/

namespace Sys2Proof.Machine

variable {s0 s : State}

/-- What `startWake` keeps. -/
theorem startWake_keeps (hk : Keeps s0 s) (d c : Nat) : Keeps s0 (startWake s d c) := by
  unfold startWake
  repeat' first
    | with_reducible exact hk | with_reducible apply wg_keeps | simp only [Keeps.fields]
    | with_reducible refine Keeps.ite ?_ ?_ | intro _ | dsimp only

/-- What `updLive` keeps. -/
theorem updLive_keeps (hk : Keeps s0 s) (d id : Nat) (f : LiveTask → LiveTask) : Keeps s0 (updLive s d id f) := by
  unfold updLive
  repeat' first
    | with_reducible exact hk | with_reducible apply updDie_keeps | simp only [Keeps.fields]
    | dsimp only

/-- What `demandTiles` keeps. -/
theorem demandTiles_keeps (hk : Keeps s0 s) (d c : Nat) : Keeps s0 (demandTiles s d c) := by
  unfold demandTiles
  repeat' first
    | with_reducible exact hk | with_reducible assumption | with_reducible apply setTile_keeps
    | simp only [Keeps.fields] | with_reducible apply forEach_keeps
    | with_reducible refine Keeps.ite ?_ ?_ | intro _ | dsimp only

/-- What `wakeServer` keeps. -/
theorem wakeServer_keeps (hk : Keeps s0 s) (d c : Nat) : Keeps s0 (wakeServer s d c) := by
  unfold wakeServer
  repeat' first
    | with_reducible exact hk | with_reducible apply startWake_keeps
    | with_reducible apply demandTiles_keeps | with_reducible apply wg_keeps
    | with_reducible refine Keeps.ite ?_ ?_ | intro _ | dsimp only

/-- What `enqueue` keeps. -/
theorem enqueue_keeps (hk : Keeps s0 s) (d : Nat) (t : LiveTask) : Keeps s0 (enqueue s d t) := by
  unfold enqueue
  repeat' first
    | with_reducible exact hk | with_reducible apply setQueue_keeps
    | with_reducible apply wakeServer_keeps | with_reducible apply updLive_keeps
    | simp only [Keeps.fields] | dsimp only

/-- What `requeue` keeps. -/
theorem requeue_keeps (hk : Keeps s0 s) (d : Nat) (t : LiveTask) : Keeps s0 (requeue s d t) := by
  unfold requeue
  repeat' first
    | with_reducible exact hk | with_reducible apply setQueue_keeps
    | with_reducible apply wakeServer_keeps | with_reducible apply updLive_keeps
    | simp only [Keeps.fields] | dsimp only

/-- What `enqueueAll` keeps. -/
theorem enqueueAll_keeps (hk : Keeps s0 s) (x0 : List LiveTask) (x2 : Nat) : Keeps s0 (enqueueAll x0 s x2) := by
  induction x0 generalizing s x2 with
  | nil => unfold enqueueAll; exact hk
  | cons n ns ih =>
    unfold enqueueAll
    repeat' first
      | with_reducible exact hk | with_reducible assumption | with_reducible apply enqueue_keeps
      | with_reducible apply ih | simp only [Keeps.fields] | with_reducible apply forEach_keeps
      | with_reducible apply foldl_keeps | with_reducible apply foldl_fst_keeps
      | with_reducible refine Keeps.ite ?_ ?_ | intro _ | dsimp only | split
      | refine Keeps.ofSnd (by assumption) ?_ | refine Keeps.ofFst (by assumption) ?_

/-- What `releaseHeld` keeps. -/
theorem releaseHeld_keeps (hk : Keeps s0 s) (d : Nat) : Keeps s0 (releaseHeld s d) := by
  unfold releaseHeld
  repeat' first
    | with_reducible exact hk | with_reducible apply enqueueAll_keeps

/-- What `writeTaskStatus` keeps. -/
theorem writeTaskStatus_keeps (hk : Keeps s0 s) (d : Nat) (t : LiveTask) (code drops : Nat) : Keeps s0 (writeTaskStatus s d t code drops) := by
  unfold writeTaskStatus
  repeat' first
    | with_reducible exact hk | with_reducible apply storeDie_keeps
    | with_reducible refine Keeps.ite ?_ ?_ | intro _

/-- What `endLive` keeps. -/
theorem endLive_keeps (hk : Keeps s0 s) (d : Nat) (t : LiveTask) : Keeps s0 (endLive s d t) := by
  unfold endLive
  repeat' first
    | with_reducible exact hk | with_reducible apply updLive_keeps
    | with_reducible apply updDie_keeps | simp only [Keeps.fields]
    | with_reducible refine Keeps.ite ?_ ?_ | intro _ | dsimp only

/-- What `dropEnded` keeps. -/
theorem dropEnded_keeps (hk : Keeps s0 s) (d ph : Nat) : Keeps s0 (dropEnded s d ph) := by
  unfold dropEnded
  repeat' first
    | with_reducible exact hk | with_reducible apply updDie_keeps | simp only [Keeps.fields]
    | dsimp only

/-- What `abortTask` keeps. -/
theorem abortTask_keeps (hk : Keeps s0 s) (d : Nat) (t : LiveTask) : Keeps s0 (abortTask s d t) := by
  unfold abortTask
  repeat' first
    | with_reducible exact hk | with_reducible apply endLive_keeps
    | with_reducible apply writeTaskStatus_keeps

/-- What `scratchUsed` keeps. -/
theorem scratchUsed_keeps (hk : Keeps s0 s) (d c t : Nat) : Keeps s0 (scratchUsed s d c t) := by
  unfold scratchUsed
  repeat' first
    | with_reducible exact hk | with_reducible apply setTile_keeps | with_reducible exact id
    | with_reducible exact mwf_mkeep _ _ _ | with_reducible exact fun _ => mwf_nil _
    | with_reducible exact Nat.le_refl _ | with_reducible exact Nat.le_add_right _ _
    | with_reducible exact keysUp_filter _ _ | with_reducible exact keysUp_mkeep _ _
    | with_reducible rfl | simp only [Keeps.fields] | with_reducible apply Keeps.change

/-- What `dropTask` keeps. -/
theorem dropTask_keeps (hk : Keeps s0 s) (d c t : Nat) : Keeps s0 (dropTask s d c t) := by
  unfold dropTask
  repeat' first
    | with_reducible exact hk | with_reducible apply scratchUsed_keeps
    | with_reducible apply setTile_keeps | simp only [Keeps.fields]

/-- What `clearTasks` keeps. -/
theorem clearTasks_keeps (hk : Keeps s0 s) (d : Nat) : Keeps s0 (clearTasks s d) := by
  unfold clearTasks
  repeat' first
    | with_reducible exact hk | with_reducible assumption | with_reducible apply dropTask_keeps
    | with_reducible apply updDie_keeps | simp only [Keeps.fields]
    | with_reducible apply forEach_keeps | intro _ | dsimp only
    | refine Keeps.ofSnd (by assumption) ?_ | refine Keeps.ofFst (by assumption) ?_

/-- What `endPhase` keeps. -/
theorem endPhase_keeps (hk : Keeps s0 s) (d ph code : Nat) : Keeps s0 (endPhase s d ph code) := by
  unfold endPhase
  repeat' first
    | with_reducible exact hk | with_reducible apply storeDie_keeps
    | with_reducible apply retire_keeps | with_reducible apply updPhase_keeps
    | with_reducible apply complete_keeps | with_reducible apply dropEnded_keeps
    | simp only [Keeps.fields] | with_reducible refine Keeps.ite ?_ ?_ | intro _ | dsimp only

/-- What `finishRun` keeps. -/
theorem finishRun_keeps (hk : Keeps s0 s) (d status : Nat) (detail : Nat) : Keeps s0 (finishRun s d status detail) := by
  unfold finishRun
  repeat' first
    | with_reducible exact hk | with_reducible apply updSeq_keeps
    | with_reducible apply complete_keeps | simp only [Keeps.fields] | dsimp only | split
    | refine Keeps.ofSnd (by assumption) ?_ | refine Keeps.ofFst (by assumption) ?_

/-- What `finishStopped` keeps. -/
theorem finishStopped_keeps (hk : Keeps s0 s) (d : Nat) : Keeps s0 (finishStopped s d) := by
  unfold finishStopped
  repeat' first
    | with_reducible exact hk | with_reducible apply finishRun_keeps | split

/-- What `noteStop` keeps. -/
theorem noteStop_keeps (hk : Keeps s0 s) (d : Nat) (c : StopCause) : Keeps s0 (noteStop s d c) := by
  unfold noteStop
  repeat' first
    | with_reducible exact hk | with_reducible apply updSeq_keeps | simp only [Keeps.fields]
    | dsimp only

/-- What `settleSeq` keeps. -/
theorem settleSeq_keeps (hk : Keeps s0 s) (d : Nat) : Keeps s0 (settleSeq s d) := by
  unfold settleSeq
  repeat' first
    | with_reducible exact hk | with_reducible apply finishStopped_keeps
    | with_reducible apply wg_keeps | with_reducible refine Keeps.ite ?_ ?_ | intro _

/-- What `seqEvent` keeps. -/
theorem seqEvent_keeps (hk : Keeps s0 s) (d src : Nat) : Keeps s0 (seqEvent s d src) := by
  unfold seqEvent
  repeat' first
    | with_reducible exact hk | with_reducible apply raise_keeps

/-- What `markFailed` keeps. -/
theorem markFailed_keeps (hk : Keeps s0 s) (d ph : Nat) : Keeps s0 (markFailed s d ph) := by
  unfold markFailed
  repeat' first
    | with_reducible exact hk | with_reducible apply updPhase_keeps
    | with_reducible apply dropEnded_keeps | with_reducible apply seqEvent_keeps
    | with_reducible apply noteStop_keeps | simp only [Keeps.fields]
    | with_reducible refine Keeps.ite ?_ ?_ | intro _ | dsimp only

/-- What `nextReplay` keeps. -/
theorem nextReplay_keeps (hk : Keeps s0 s) (x0 : Nat) (x2 : Nat) (x3 : Nat) : Keeps s0 (nextReplay x0 s x2 x3) := by
  induction x0 generalizing s x2 x3 with
  | zero => unfold nextReplay; exact hk
  | succ n ih =>
    unfold nextReplay
    repeat' first
      | with_reducible exact hk | with_reducible assumption | with_reducible apply updPhase_keeps
      | with_reducible apply ih | simp only [Keeps.fields] | with_reducible refine Keeps.ite ?_ ?_
      | intro _ | dsimp only | split

/-- What `endFailed` keeps. -/
theorem endFailed_keeps (hk : Keeps s0 s) (d ph : Nat) : Keeps s0 (endFailed s d ph) := by
  unfold endFailed
  repeat' first
    | with_reducible exact hk | with_reducible apply nextReplay_keeps
    | with_reducible apply endPhase_keeps | with_reducible refine Keeps.ite ?_ ?_ | intro _
    | dsimp only

/-- What `abortSeq` keeps. -/
theorem abortSeq_keeps (hk : Keeps s0 s) (d : Nat) (c : StopCause) : Keeps s0 (abortSeq s d c) := by
  unfold abortSeq
  repeat' first
    | with_reducible exact hk | with_reducible assumption | with_reducible apply noteStop_keeps
    | with_reducible apply writeTaskStatus_keeps | with_reducible apply clearTasks_keeps
    | with_reducible apply endPhase_keeps | with_reducible apply finishStopped_keeps
    | with_reducible apply wg_keeps | with_reducible apply forEach_keeps
    | with_reducible refine Keeps.ite ?_ ?_ | intro _ | dsimp only

end Sys2Proof.Machine
end

