-- ==== Sys2Proof/Laws/KeepsOptCore.lean ====
section
/-!
SUPPORT. What the operations of Machine/OptCore.lean keep (`Keeps`).
-/

namespace Sys2Proof.Machine

variable {s0 s : State}

/-- What `updGroup` keeps. -/
theorem updGroup_keeps (hk : Keeps s0 s) (g : Nat) (f : OptGroup → OptGroup) : Keeps s0 (updGroup s g f) := by
  unfold updGroup
  repeat' first
    | with_reducible exact hk | simp only [Keeps.fields]

/-- What `gst` keeps. -/
theorem gst_keeps (hk : Keeps s0 s) (g : Nat) (f : Nat → Fld) (v : Nat) : Keeps s0 (gst s g f v) := by
  unfold gst
  repeat' first
    | with_reducible exact hk | with_reducible apply wg_keeps

/-- What `moveFum` keeps. -/
theorem moveFum_keeps (hk : Keeps s0 s) (p : Nat) : Keeps s0 (moveFum s p) := by
  unfold moveFum
  repeat' first
    | with_reducible exact hk | with_reducible apply gst_keeps
    | with_reducible refine Keeps.ite ?_ ?_ | intro _ | dsimp only | split

/-- What `putCodeword` keeps. -/
theorem putCodeword_keeps (hk : Keeps s0 s) (p : Nat) (cw : Codeword) : Keeps s0 (putCodeword s p cw) := by
  unfold putCodeword
  repeat' first
    | with_reducible exact hk | with_reducible apply setLink_keeps | simp only [Keeps.fields]
    | with_reducible refine Keeps.ite ?_ ?_ | intro _ | dsimp only

/-- What `sendCodeword` keeps. -/
theorem sendCodeword_keeps (hk : Keeps s0 s) (p : Nat) (fum : Bool) (fs : List Flit) : Keeps s0 (sendCodeword s p fum fs) := by
  unfold sendCodeword
  repeat' first
    | with_reducible exact hk | with_reducible apply setLink_keeps
    | with_reducible apply putCodeword_keeps | simp only [Keeps.fields]
    | with_reducible refine Keeps.ite ?_ ?_ | intro _ | dsimp only

/-- What `sendBare` keeps. -/
theorem sendBare_keeps (hk : Keeps s0 s) (p : Nat) (kind : CwKind) (seq : Nat) : Keeps s0 (sendBare s p kind seq) := by
  unfold sendBare
  repeat' first
    | with_reducible exact hk | with_reducible apply putCodeword_keeps

/-- What `replayAll` keeps. -/
theorem replayAll_keeps (hk : Keeps s0 s) (p : Nat) : Keeps s0 (replayAll s p) := by
  unfold replayAll
  repeat' first
    | with_reducible exact hk | with_reducible assumption | with_reducible apply putCodeword_keeps
    | with_reducible apply forEach_keeps | intro _ | dsimp only

/-- What `payCredits` keeps. -/
theorem payCredits_keeps (hk : Keeps s0 s) (p : Nat) : Keeps s0 (payCredits s p) := by
  unfold payCredits
  repeat' first
    | with_reducible exact hk | with_reducible assumption | with_reducible apply setLink_keeps
    | with_reducible apply sendCodeword_keeps | simp only [Keeps.fields]
    | with_reducible apply forEach_keeps | with_reducible refine Keeps.ite ?_ ?_ | intro _
    | dsimp only | refine Keeps.ofSnd (by assumption) ?_ | refine Keeps.ofFst (by assumption) ?_

/-- What `returnCredit` keeps. -/
theorem returnCredit_keeps (hk : Keeps s0 s) (src : Option (Nat × Packet)) : Keeps s0 (returnCredit s src) := by
  unfold returnCredit
  repeat' first
    | with_reducible exact hk | with_reducible apply payCredits_keeps
    | with_reducible apply setLink_keeps | simp only [Keeps.fields]
    | with_reducible refine Keeps.ite ?_ ?_ | intro _ | dsimp only | split
    | refine Keeps.ofSnd (by assumption) ?_ | refine Keeps.ofFst (by assumption) ?_

/-- What `sendTruncate` keeps. -/
theorem sendTruncate_keeps (hk : Keeps s0 s) (p vc : Nat) : Keeps s0 (sendTruncate s p vc) := by
  unfold sendTruncate
  repeat' first
    | with_reducible exact hk | with_reducible apply sendCodeword_keeps

/-- What `dropCut` keeps. -/
theorem dropCut_keeps (hk : Keeps s0 s) (port : Nat) (x : PartIn) : Keeps s0 (dropCut s port x) := by
  unfold dropCut
  repeat' first
    | with_reducible exact hk | with_reducible apply sendTruncate_keeps | simp only [Keeps.fields]
    | with_reducible refine Keeps.ite ?_ ?_ | intro _ | dsimp only | split
    | refine Keeps.ofSnd (by assumption) ?_ | refine Keeps.ofFst (by assumption) ?_

/-- What `unCut` keeps. -/
theorem unCut_keeps (hk : Keeps s0 s) (port : Nat) : Keeps s0 (unCut s port) := by
  unfold unCut
  repeat' first
    | with_reducible exact hk | with_reducible assumption | with_reducible apply setLink_keeps
    | simp only [Keeps.fields] | with_reducible apply forEach_keeps
    | with_reducible refine Keeps.ite ?_ ?_ | intro _ | dsimp only | split
    | refine Keeps.ofSnd (by assumption) ?_ | refine Keeps.ofFst (by assumption) ?_

/-- What `freeWait` keeps. -/
theorem freeWait_keeps (hk : Keeps s0 s) (w : OutWait) : Keeps s0 (freeWait s w) := by
  unfold freeWait
  repeat' first
    | with_reducible exact hk | with_reducible apply returnCredit_keeps
    | with_reducible refine Keeps.ite ?_ ?_ | intro _

/-- What `portComes` keeps. -/
theorem portComes_keeps (hk : Keeps s0 s) (p : Nat) (wasUp : Bool) : Keeps s0 (portComes s p wasUp) := by
  unfold portComes
  repeat' first
    | with_reducible exact hk | with_reducible assumption | with_reducible apply dropCut_keeps
    | with_reducible apply payCredits_keeps | with_reducible apply replayAll_keeps
    | with_reducible apply setLink_keeps | simp only [Keeps.fields]
    | with_reducible apply forEach_keeps | with_reducible refine Keeps.ite ?_ ?_ | intro _
    | dsimp only

/-- What `groupAside` keeps. -/
theorem groupAside_keeps (hk : Keeps s0 s) (g : Nat) : Keeps s0 (groupAside s g) := by
  unfold groupAside
  repeat' first
    | with_reducible exact hk | with_reducible apply updGroup_keeps
    | with_reducible apply gst_keeps | with_reducible apply moveFum_keeps
    | simp only [Keeps.fields] | dsimp only | split

/-- What `startRetrain` keeps. -/
theorem startRetrain_keeps (hk : Keeps s0 s) (g : Nat) : Keeps s0 (startRetrain s g) := by
  unfold startRetrain
  repeat' first
    | with_reducible exact hk | with_reducible apply gst_keeps
    | with_reducible apply updGroup_keeps | with_reducible apply replayAll_keeps
    | with_reducible apply moveFum_keeps | simp only [Keeps.fields]
    | with_reducible refine Keeps.ite ?_ ?_ | intro _ | dsimp only | split

/-- What `wantRetrain` keeps. -/
theorem wantRetrain_keeps (hk : Keeps s0 s) (g : Nat) : Keeps s0 (wantRetrain s g) := by
  unfold wantRetrain
  repeat' first
    | with_reducible exact hk | with_reducible apply updGroup_keeps
    | with_reducible apply startRetrain_keeps | simp only [Keeps.fields]
    | with_reducible refine Keeps.ite ?_ ?_ | intro _ | dsimp only

/-- What `groupReturn` keeps. -/
theorem groupReturn_keeps (hk : Keeps s0 s) (g : Nat) : Keeps s0 (groupReturn s g) := by
  unfold groupReturn
  repeat' first
    | with_reducible exact hk | with_reducible apply updGroup_keeps
    | with_reducible apply gst_keeps | with_reducible apply portComes_keeps
    | with_reducible apply moveFum_keeps | simp only [Keeps.fields]
    | with_reducible refine Keeps.ite ?_ ?_ | intro _ | dsimp only | split

/-- What `startTraining` keeps. -/
theorem startTraining_keeps (hk : Keeps s0 s) (g : Nat) : Keeps s0 (startTraining s g) := by
  unfold startTraining
  repeat' first
    | with_reducible exact hk | with_reducible apply gst_keeps
    | with_reducible apply updGroup_keeps | simp only [Keeps.fields]
    | with_reducible refine Keeps.ite ?_ ?_ | intro _ | dsimp only | split

/-- What `groupBack` keeps. -/
theorem groupBack_keeps (hk : Keeps s0 s) (g : Nat) : Keeps s0 (groupBack s g) := by
  unfold groupBack
  repeat' first
    | with_reducible exact hk | with_reducible apply groupReturn_keeps
    | with_reducible apply wantRetrain_keeps | with_reducible refine Keeps.ite ?_ ?_ | intro _
    | dsimp only

/-- What `nextRetrain` keeps. -/
theorem nextRetrain_keeps (hk : Keeps s0 s) (p : Nat) : Keeps s0 (nextRetrain s p) := by
  unfold nextRetrain
  repeat' first
    | with_reducible exact hk | with_reducible apply startRetrain_keeps
    | with_reducible refine Keeps.ite ?_ ?_ | intro _ | dsimp only | split

end Sys2Proof.Machine
end

