-- ==== Sys2Proof/Laws/KeepsResets.lean ====
section
/-!
SUPPORT. What the operations of Machine/Resets.lean keep (`Keeps`).
-/

namespace Sys2Proof.Machine

variable {s0 s : State}

/-- What `deliverStatus` keeps. -/
theorem deliverStatus_keeps (hk : Keeps s0 s) (q : Nat) (poster : Poster) (id code detail origin fo : Nat) : Keeps s0 (deliverStatus s q poster id code detail origin fo) := by
  unfold deliverStatus
  repeat' first
    | with_reducible exact hk | with_reducible apply complete_keeps
    | with_reducible apply storeDie_keeps | with_reducible apply updPhase_keeps
    | with_reducible apply endFailed_keeps | with_reducible apply markFailed_keeps
    | simp only [Keeps.fields] | with_reducible refine Keeps.ite ?_ ?_ | intro _ | dsimp only
    | split

/-- What `completeOp` keeps. -/
theorem completeOp_keeps (hk : Keeps s0 s) (q : Nat) (o : Op) : Keeps s0 (completeOp s q o) := by
  unfold completeOp
  repeat' first
    | with_reducible exact hk | with_reducible apply updCq_keeps
    | with_reducible apply retire_keeps | with_reducible apply raise_keeps
    | with_reducible apply deliverStatus_keeps | simp only [Keeps.fields]
    | with_reducible refine Keeps.ite ?_ ?_ | intro _ | dsimp only | split

/-- What `stopQueue` keeps. -/
theorem stopQueue_keeps (hk : Keeps s0 s) (q : Nat) (from_ : Option Nat) : Keeps s0 (stopQueue s q from_) := by
  unfold stopQueue
  repeat' first
    | with_reducible exact hk | with_reducible apply updCq_keeps | simp only [Keeps.fields]
    | dsimp only | split

/-- What `sendErupts` keeps. -/
theorem sendErupts_keeps (hk : Keeps s0 s) (j src : Nat) (skip : Option Nat) : Keeps s0 (sendErupts s j src skip) := by
  unfold sendErupts
  repeat' first
    | with_reducible exact hk | with_reducible assumption | with_reducible apply incr_keeps
    | simp only [Keeps.fields] | with_reducible apply forEach_keeps
    | with_reducible refine Keeps.ite ?_ ?_ | intro _ | dsimp only

/-- What `freeGeysers` keeps. -/
theorem freeGeysers_keeps (hk : Keeps s0 s) (j : Nat) : Keeps s0 (freeGeysers s j) := by
  unfold freeGeysers
  repeat' first
    | with_reducible exact hk | with_reducible assumption | with_reducible apply updGeyser_keeps
    | simp only [Keeps.fields] | with_reducible apply forEach_keeps | intro _ | dsimp only
    | refine Keeps.ofSnd (by assumption) ?_ | refine Keeps.ofFst (by assumption) ?_

/-- What `setOutcome` keeps. -/
theorem setOutcome_keeps (hk : Keeps s0 s) (ds : List Nat) (outcome : Nat) : Keeps s0 (setOutcome s ds outcome) := by
  unfold setOutcome
  repeat' first
    | with_reducible exact hk | with_reducible assumption | with_reducible apply wg_keeps
    | with_reducible apply forEach_keeps | intro _ | dsimp only

/-- What `dropWanted` keeps. -/
theorem dropWanted_keeps (hk : Keeps s0 s) : Keeps s0 (dropWanted s) := by
  unfold dropWanted
  repeat' first
    | with_reducible exact hk | simp only [Keeps.fields] | with_reducible refine Keeps.ite ?_ ?_
    | intro _ | split

/-- What `dropTraffic` keeps. -/
theorem dropTraffic_keeps (hk : Keeps s0 s) (j : Nat) : Keeps s0 (dropTraffic s j) := by
  unfold dropTraffic
  repeat' first
    | with_reducible exact hk | with_reducible assumption | with_reducible apply freeWait_keeps
    | with_reducible apply incr_keeps | with_reducible apply sendTruncate_keeps
    | with_reducible apply setLink_keeps | simp only [Keeps.fields]
    | with_reducible apply forEach_keeps | with_reducible refine Keeps.ite ?_ ?_ | intro _
    | dsimp only | split | refine Keeps.ofSnd (by assumption) ?_
    | refine Keeps.ofFst (by assumption) ?_

/-- What `abortJob` keeps. -/
theorem abortJob_keeps (hk : Keeps s0 s) (j : Nat) (from_ : Option Nat) : Keeps s0 (abortJob s j from_) := by
  unfold abortJob
  repeat' first
    | with_reducible exact hk | with_reducible assumption | with_reducible apply setJob_keeps
    | with_reducible apply stopQueue_keeps | with_reducible apply freeGeysers_keeps
    | with_reducible apply dropTraffic_keeps | with_reducible apply abortSeq_keeps
    | with_reducible apply dropWanted_keeps | with_reducible apply sendErupts_keeps
    | simp only [Keeps.fields] | with_reducible apply forEach_keeps
    | with_reducible refine Keeps.ite ?_ ?_ | intro _ | dsimp only | split

/-- What `clearDom` keeps. -/
theorem clearDom_keeps (hk : Keeps s0 s) (d : Dom) : Keeps s0 (clearDom s d) := by
  unfold clearDom
  repeat' first
    | with_reducible exact hk | with_reducible exact id | with_reducible exact mwf_mkeep _ _ _
    | with_reducible exact fun _ => mwf_nil _ | with_reducible exact Nat.le_refl _
    | with_reducible exact Nat.le_add_right _ _ | with_reducible exact keysUp_filter _ _
    | with_reducible exact keysUp_mkeep _ _ | with_reducible rfl | simp only [Keeps.fields]
    | dsimp only | with_reducible apply Keeps.change

/-- What `mapOutDie` keeps. -/
theorem mapOutDie_keeps (hk : Keeps s0 s) (ch : Nat) : Keeps s0 (mapOutDie s ch) := by
  unfold mapOutDie
  repeat' first
    | with_reducible exact hk | with_reducible apply clearDom_keeps | simp only [Keeps.fields]
    | with_reducible refine Keeps.ite ?_ ?_ | intro _ | dsimp only

/-- What `mapOutPkg` keeps. -/
theorem mapOutPkg_keeps (hk : Keeps s0 s) : Keeps s0 (mapOutPkg s) := by
  unfold mapOutPkg
  repeat' first
    | with_reducible exact hk | with_reducible assumption | with_reducible apply clearDom_keeps
    | simp only [Keeps.fields] | with_reducible apply foldl_keeps
    | with_reducible apply foldl_fst_keeps | with_reducible refine Keeps.ite ?_ ?_ | intro _
    | dsimp only

/-- What `ewg` keeps. -/
theorem ewg_keeps (hk : Keeps s0 s) (e : EdgeEnd) (f : Nat → Fld) (v : Nat) : Keeps s0 (ewg s e f v) := by
  unfold ewg
  repeat' first
    | with_reducible exact hk | with_reducible apply wg_keeps

/-- What `moveTraffic` keeps. -/
theorem moveTraffic_keeps (hk : Keeps s0 s) (k : Fin 6) : Keeps s0 (moveTraffic s k) := by
  unfold moveTraffic
  repeat' first
    | with_reducible exact hk | with_reducible assumption | with_reducible apply setEdgeSide_keeps
    | simp only [Keeps.fields] | with_reducible apply forEach_keeps | intro _ | dsimp only | split
    | refine Keeps.ofSnd (by assumption) ?_ | refine Keeps.ofFst (by assumption) ?_

/-- What `setAside` keeps. -/
theorem setAside_keeps (hk : Keeps s0 s) (k : Fin 6) (b : Nat) (on : Bool) : Keeps s0 (setAside s k b on) := by
  unfold setAside
  repeat' first
    | with_reducible exact hk | with_reducible assumption | with_reducible apply setEdgeSide_keeps
    | with_reducible apply moveTraffic_keeps | simp only [Keeps.fields]
    | with_reducible apply forEach_keeps | intro _ | dsimp only

/-- What `flushEnd` keeps. -/
theorem flushEnd_keeps (hk : Keeps s0 s) (e : EdgeEnd) : Keeps s0 (flushEnd s e) := by
  unfold flushEnd
  repeat' first
    | with_reducible exact hk | with_reducible apply setEdgeSide_keeps | simp only [Keeps.fields]
    | dsimp only | refine Keeps.ofSnd (by assumption) ?_ | refine Keeps.ofFst (by assumption) ?_

/-- What `dropHeld` keeps. -/
theorem dropHeld_keeps (hk : Keeps s0 s) (e : EdgeEnd) : Keeps s0 (dropHeld s e) := by
  unfold dropHeld
  repeat' first
    | with_reducible exact hk | with_reducible apply setEdgeSide_keeps | simp only [Keeps.fields]

/-- What `edgeReset` keeps. -/
theorem edgeReset_keeps (hk : Keeps s0 s) (e : EdgeEnd) : Keeps s0 (edgeReset s e) := by
  unfold edgeReset
  repeat' first
    | with_reducible exact hk | with_reducible assumption | with_reducible apply setEdgeSide_keeps
    | with_reducible apply raise_keeps | simp only [Keeps.fields]
    | with_reducible apply forEach_keeps | intro _ | dsimp only

/-- What `resetEdges` keeps. -/
theorem resetEdges_keeps (hk : Keeps s0 s) (ds : List Nat) (caldera : Bool) : Keeps s0 (resetEdges s ds caldera) := by
  unfold resetEdges
  repeat' first
    | with_reducible exact hk | with_reducible assumption | with_reducible apply flushEnd_keeps
    | with_reducible apply dropHeld_keeps | with_reducible apply edgeReset_keeps
    | with_reducible apply forEach_keeps | with_reducible refine Keeps.ite ?_ ?_ | intro _
    | dsimp only | split

/-- What `dropPosted` keeps. -/
theorem dropPosted_keeps (hk : Keeps s0 s) (gone : Source → Bool) : Keeps s0 (dropPosted s gone) := by
  unfold dropPosted
  repeat' first
    | with_reducible exact hk | simp only [Keeps.fields] | dsimp only

/-- What `markEdges` keeps. -/
theorem markEdges_keeps (hk : Keeps s0 s) (d st : Nat) : Keeps s0 (markEdges s d st) := by
  unfold markEdges
  repeat' first
    | with_reducible exact hk | with_reducible assumption | with_reducible apply ewg_keeps
    | with_reducible apply forEach_keeps | intro _ | dsimp only

/-- What `fenceEdges` keeps. -/
theorem fenceEdges_keeps (hk : Keeps s0 s) (l : Half) : Keeps s0 (fenceEdges s l) := by
  unfold fenceEdges
  repeat' first
    | with_reducible exact hk | with_reducible apply markEdges_keeps

/-- What `trainEdges` keeps. -/
theorem trainEdges_keeps (hk : Keeps s0 s) (y0 : Scope) : Keeps s0 (trainEdges s y0) := by
  unfold trainEdges
  repeat' first
    | with_reducible exact hk | with_reducible assumption | with_reducible apply markEdges_keeps
    | simp only [Keeps.fields] | with_reducible apply forEach_keeps
    | with_reducible apply foldl_keeps | with_reducible apply foldl_fst_keeps
    | with_reducible refine Keeps.ite ?_ ?_ | intro _ | dsimp only | split
    | refine Keeps.ofSnd (by assumption) ?_ | refine Keeps.ofFst (by assumption) ?_

/-- What `sampleTile` keeps. -/
theorem sampleTile_keeps (hk : Keeps s0 s) (d c t level : Nat) (hung : Bool) : Keeps s0 (sampleTile s d c t level hung) := by
  unfold sampleTile
  repeat' first
    | with_reducible exact hk | with_reducible apply wg_keeps | with_reducible apply store_keeps
    | with_reducible apply incr_keeps | with_reducible exact id
    | with_reducible exact mwf_mkeep _ _ _ | with_reducible exact fun _ => mwf_nil _
    | with_reducible exact Nat.le_refl _ | with_reducible exact Nat.le_add_right _ _
    | with_reducible exact keysUp_filter _ _ | with_reducible exact keysUp_mkeep _ _
    | with_reducible rfl | simp only [Keeps.fields] | with_reducible refine Keeps.ite ?_ ?_
    | intro _ | dsimp only | split | with_reducible apply Keeps.change

/-- What `sampleScope` keeps. -/
theorem sampleScope_keeps (hk : Keeps s0 s) (sc : Scope) (before : Option Scope) (hung : Option (Nat × Nat × Nat)) : Keeps s0 (sampleScope s sc before hung) := by
  unfold sampleScope
  repeat' first
    | with_reducible exact hk | with_reducible assumption | with_reducible apply sampleTile_keeps
    | with_reducible apply forEach_keeps | with_reducible refine Keeps.ite ?_ ?_ | intro _
    | dsimp only | split | refine Keeps.ofSnd (by assumption) ?_
    | refine Keeps.ofFst (by assumption) ?_

/-- What `resetPages` keeps. -/
theorem resetPages_keeps (hk : Keeps s0 s) (sc : Scope) (keep : Nat → Bool) : Keeps s0 (resetPages s sc keep) := by
  unfold resetPages
  repeat' first
    | with_reducible exact hk | with_reducible exact id | with_reducible exact mwf_mkeep _ _ _
    | with_reducible exact fun _ => mwf_nil _ | with_reducible exact Nat.le_refl _
    | with_reducible exact Nat.le_add_right _ _ | with_reducible exact keysUp_filter _ _
    | with_reducible exact keysUp_mkeep _ _ | with_reducible rfl | simp only [Keeps.fields]
    | dsimp only | split | refine Keeps.ofSnd (by assumption) ?_
    | refine Keeps.ofFst (by assumption) ?_ | with_reducible apply Keeps.change

/-- What `showHolds` keeps. -/
theorem showHolds_keeps (hk : Keeps s0 s) : Keeps s0 (showHolds s) := by
  unfold showHolds
  repeat' first
    | with_reducible exact hk | with_reducible assumption | with_reducible apply wg_keeps
    | with_reducible apply forEach_keeps | intro _ | dsimp only | split

/-- What `resetTile` keeps. -/
theorem resetTile_keeps (hk : Keeps s0 s) (d c t : Nat) : Keeps s0 (resetTile s d c t) := by
  unfold resetTile
  repeat' first
    | with_reducible exact hk | with_reducible apply requeue_keeps
    | with_reducible apply abortTask_keeps | with_reducible apply endFailed_keeps
    | with_reducible apply markFailed_keeps | with_reducible apply dropTask_keeps
    | with_reducible apply setTile_keeps | simp only [Keeps.fields]
    | with_reducible refine Keeps.ite ?_ ?_ | intro _ | dsimp only | split

/-- What `failStarted` keeps. -/
theorem failStarted_keeps (hk : Keeps s0 s) (d : Nat) : Keeps s0 (failStarted s d) := by
  unfold failStarted
  repeat' first
    | with_reducible exact hk | with_reducible assumption | with_reducible apply clearTasks_keeps
    | with_reducible apply endPhase_keeps | with_reducible apply seqEvent_keeps
    | with_reducible apply forEach_keeps | intro _ | dsimp only

/-- What `resetDie` keeps. -/
theorem resetDie_keeps (hk : Keeps s0 s) (d : Nat) : Keeps s0 (resetDie s d) := by
  unfold resetDie
  repeat' first
    | with_reducible exact hk | with_reducible assumption | with_reducible apply clearTasks_keeps
    | with_reducible apply finishStopped_keeps | with_reducible apply noteStop_keeps
    | with_reducible apply updDie_keeps | with_reducible apply clearDom_keeps
    | with_reducible exact id | with_reducible exact mwf_mkeep _ _ _
    | with_reducible exact fun _ => mwf_nil _ | with_reducible exact Nat.le_refl _
    | with_reducible exact Nat.le_add_right _ _ | with_reducible exact keysUp_filter _ _
    | with_reducible exact keysUp_mkeep _ _ | with_reducible rfl | simp only [Keeps.fields]
    | with_reducible apply forEach_keeps | with_reducible apply foldl_keeps
    | with_reducible apply foldl_fst_keeps | with_reducible refine Keeps.ite ?_ ?_ | intro _
    | dsimp only | split | refine Keeps.ofSnd (by assumption) ?_
    | refine Keeps.ofFst (by assumption) ?_ | with_reducible apply Keeps.change

/-- What `logOnly` keeps. -/
theorem logOnly_keeps (hk : Keeps s0 s) (e : Event) : Keeps s0 (logOnly s e) := by
  unfold logOnly
  repeat' first
    | with_reducible exact hk | with_reducible apply logWrite_keeps
    | with_reducible apply waitFaults_keeps | with_reducible refine Keeps.ite ?_ ?_ | intro _
    | dsimp only

/-- What `repairRow` keeps. -/
theorem repairRow_keeps (hk : Keeps s0 s) (d : Nat) (keep : Bool) (ch row : Nat) : Keeps s0 (repairRow s d keep ch row) := by
  unfold repairRow
  repeat' first
    | with_reducible exact hk | with_reducible assumption | with_reducible apply useFree_keeps
    | with_reducible apply updMem_keeps | with_reducible apply logOnly_keeps
    | with_reducible apply setErr_keeps | with_reducible apply foundCorrected_keeps
    | with_reducible apply wrBytes_keeps | simp only [Keeps.fields]
    | with_reducible apply forEach_keeps | with_reducible refine Keeps.ite ?_ ?_ | intro _
    | dsimp only | split | refine Keeps.ofSnd (by assumption) ?_
    | refine Keeps.ofFst (by assumption) ?_

/-- What `hardRepair` keeps. -/
theorem hardRepair_keeps (hk : Keeps s0 s) (d : Nat) (keep : Bool) : Keeps s0 (hardRepair s d keep) := by
  unfold hardRepair
  repeat' first
    | with_reducible exact hk | with_reducible assumption | with_reducible apply updMem_keeps
    | with_reducible apply wg_keeps | with_reducible apply repairRow_keeps
    | simp only [Keeps.fields] | with_reducible apply forEach_keeps | intro _ | dsimp only
    | refine Keeps.ofSnd (by assumption) ?_ | refine Keeps.ofFst (by assumption) ?_

/-- What `resetMemory` keeps. -/
theorem resetMemory_keeps (hk : Keeps s0 s) (d : Nat) (keep : Bool) : Keeps s0 (resetMemory s d keep) := by
  unfold resetMemory
  repeat' first
    | with_reducible exact hk | with_reducible apply hardRepair_keeps
    | with_reducible apply updMem_keeps | simp only [Keeps.fields] | dsimp only
    | refine Keeps.ofSnd (by assumption) ?_ | refine Keeps.ofFst (by assumption) ?_

/-- What `losePower` keeps. -/
theorem losePower_keeps (hk : Keeps s0 s) (d : Nat) : Keeps s0 (losePower s d) := by
  unfold losePower
  repeat' first
    | with_reducible exact hk | with_reducible apply updMem_keeps | simp only [Keeps.fields]
    | dsimp only

/-- What `abortCommands` keeps. -/
theorem abortCommands_keeps (hk : Keeps s0 s) : Keeps s0 (abortCommands s) := by
  unfold abortCommands
  repeat' first
    | with_reducible exact hk | with_reducible assumption | with_reducible apply dmaCut_keeps
    | with_reducible apply complete_keeps | with_reducible apply forEach_keeps
    | with_reducible refine Keeps.ite ?_ ?_ | intro _ | dsimp only | split
    | refine Keeps.ofSnd (by assumption) ?_ | refine Keeps.ofFst (by assumption) ?_

/-- What `abortOps` keeps. -/
theorem abortOps_keeps (hk : Keeps s0 s) (qs : List Nat) : Keeps s0 (abortOps s qs) := by
  unfold abortOps
  repeat' first
    | with_reducible exact hk | with_reducible assumption | with_reducible apply stopQueue_keeps
    | with_reducible apply completeOp_keeps | simp only [Keeps.fields]
    | with_reducible apply forEach_keeps | with_reducible refine Keeps.ite ?_ ?_ | intro _
    | dsimp only

/-- What `darkenGroups` keeps. -/
theorem darkenGroups_keeps (hk : Keeps s0 s) : Keeps s0 (darkenGroups s) := by
  unfold darkenGroups
  repeat' first
    | with_reducible exact hk | with_reducible assumption | with_reducible apply gst_keeps
    | with_reducible apply updGroup_keeps | with_reducible apply unCut_keeps
    | with_reducible apply dropCut_keeps | with_reducible apply setLink_keeps
    | with_reducible apply returnCredit_keeps | simp only [Keeps.fields]
    | with_reducible apply forEach_keeps | intro _ | dsimp only

/-- What `takeSettings` keeps. -/
theorem takeSettings_keeps (hk : Keeps s0 s) : Keeps s0 (takeSettings s) := by
  unfold takeSettings
  repeat' first
    | with_reducible exact hk | with_reducible assumption | with_reducible apply wg_keeps
    | with_reducible apply clearDom_keeps | with_reducible apply mapOutDie_keeps
    | with_reducible apply mapOutPkg_keeps | with_reducible apply darkenGroups_keeps
    | simp only [Keeps.fields] | with_reducible apply forEach_keeps
    | with_reducible refine Keeps.ite ?_ ?_ | intro _ | dsimp only
    | refine Keeps.ofSnd (by assumption) ?_ | refine Keeps.ofFst (by assumption) ?_

/-- What `resetTiles` keeps. -/
theorem resetTiles_keeps (hk : Keeps s0 s) (sc : Scope) : Keeps s0 (resetTiles s sc) := by
  unfold resetTiles
  repeat' first
    | with_reducible exact hk | with_reducible assumption | with_reducible apply resetTile_keeps
    | with_reducible apply forEach_keeps | intro _ | dsimp only
    | refine Keeps.ofSnd (by assumption) ?_ | refine Keeps.ofFst (by assumption) ?_

/-- What `enterDie` keeps. -/
theorem enterDie_keeps (hk : Keeps s0 s) (d : Nat) : Keeps s0 (enterDie s d) := by
  unfold enterDie
  repeat' first
    | with_reducible exact hk | with_reducible apply dropPosted_keeps
    | with_reducible apply resetEdges_keeps | with_reducible apply resetDie_keeps
    | with_reducible apply failStarted_keeps | dsimp only

/-- What `enterLobe` keeps. -/
theorem enterLobe_keeps (hk : Keeps s0 s) (l : Nat) : Keeps s0 (enterLobe s l) := by
  unfold enterLobe
  repeat' first
    | with_reducible exact hk | with_reducible assumption | with_reducible apply resetMemory_keeps
    | with_reducible apply resetDie_keeps | with_reducible apply dropPosted_keeps
    | with_reducible apply resetEdges_keeps | with_reducible apply forEach_keeps | intro _
    | dsimp only

/-- What `endWork` keeps. -/
theorem endWork_keeps (hk : Keeps s0 s) : Keeps s0 (endWork s) := by
  unfold endWork
  repeat' first
    | with_reducible exact hk | with_reducible assumption | with_reducible apply abortJob_keeps
    | with_reducible apply abortCommands_keeps | with_reducible apply abortOps_keeps
    | with_reducible apply forEach_keeps | intro _ | dsimp only

/-- What `clearEngines` keeps. -/
theorem clearEngines_keeps (hk : Keeps s0 s) : Keeps s0 (clearEngines s) := by
  unfold clearEngines
  repeat' first
    | with_reducible exact hk | with_reducible assumption | with_reducible apply updMem_keeps
    | simp only [Keeps.fields] | with_reducible apply forEach_keeps | intro _ | dsimp only

/-- What `enterPackage` keeps. -/
theorem enterPackage_keeps (hk : Keeps s0 s) (takes : Bool) (keep : Bool) : Keeps s0 (enterPackage s takes keep) := by
  unfold enterPackage
  repeat' first
    | with_reducible exact hk | with_reducible assumption | with_reducible apply endWork_keeps
    | with_reducible apply takeSettings_keeps | with_reducible apply resetMemory_keeps
    | with_reducible apply resetDie_keeps | with_reducible apply clearEngines_keeps
    | with_reducible apply resetEdges_keeps | with_reducible apply forEach_keeps
    | with_reducible refine Keeps.ite ?_ ?_ | intro _ | dsimp only

/-- What `dropLobe` keeps. -/
theorem dropLobe_keeps (hk : Keeps s0 s) (l : Nat) : Keeps s0 (dropLobe s l) := by
  unfold dropLobe
  repeat' first
    | with_reducible exact hk | with_reducible apply resetEdges_keeps
    | with_reducible apply resetDie_keeps | with_reducible apply dropPosted_keeps
    | with_reducible apply markEdges_keeps | dsimp only

/-- What `clearOutside` keeps. -/
theorem clearOutside_keeps (hk : Keeps s0 s) : Keeps s0 (clearOutside s) := by
  unfold clearOutside
  repeat' first
    | with_reducible exact hk | with_reducible exact id | with_reducible exact mwf_mkeep _ _ _
    | with_reducible exact fun _ => mwf_nil _ | with_reducible exact Nat.le_refl _
    | with_reducible exact Nat.le_add_right _ _ | with_reducible exact keysUp_filter _ _
    | with_reducible exact keysUp_mkeep _ _ | with_reducible rfl | simp only [Keeps.fields]
    | dsimp only | refine Keeps.ofSnd (by assumption) ?_ | refine Keeps.ofFst (by assumption) ?_
    | with_reducible apply Keeps.change

/-- What `enterFull` keeps. -/
theorem enterFull_keeps (hk : Keeps s0 s) (takes : Bool) : Keeps s0 (enterFull s takes) := by
  unfold enterFull
  repeat' first
    | with_reducible exact hk | with_reducible apply enterPackage_keeps | with_reducible exact id
    | with_reducible exact mwf_mkeep _ _ _ | with_reducible exact fun _ => mwf_nil _
    | with_reducible exact Nat.le_refl _ | with_reducible exact Nat.le_add_right _ _
    | with_reducible exact keysUp_filter _ _ | with_reducible exact keysUp_mkeep _ _
    | with_reducible rfl | simp only [Keeps.fields] | dsimp only
    | with_reducible apply Keeps.change

/-- What `enterScope` keeps. -/
theorem enterScope_keeps (hk : Keeps s0 s) (sc : Scope) (takes : Bool) : Keeps s0 (enterScope s sc takes) := by
  unfold enterScope
  repeat' first
    | with_reducible exact hk | with_reducible apply enterDie_keeps
    | with_reducible apply enterLobe_keeps | with_reducible apply enterPackage_keeps
    | with_reducible apply enterFull_keeps | split

/-- What `showResets` keeps. -/
theorem showResets_keeps (hk : Keeps s0 s) : Keeps s0 (showResets s) := by
  unfold showResets
  repeat' first
    | with_reducible exact hk | with_reducible apply wg_keeps

/-- What `retrainGroups` keeps. -/
theorem retrainGroups_keeps (hk : Keeps s0 s) : Keeps s0 (retrainGroups s) := by
  unfold retrainGroups
  repeat' first
    | with_reducible exact hk | with_reducible assumption | with_reducible apply groupReturn_keeps
    | with_reducible apply updGroup_keeps | with_reducible apply startTraining_keeps
    | with_reducible apply nextRetrain_keeps | simp only [Keeps.fields]
    | with_reducible apply forEach_keeps | with_reducible refine Keeps.ite ?_ ?_ | intro _
    | dsimp only | split

/-- What `startLevel` keeps. -/
theorem startLevel_keeps (hk : Keeps s0 s) (sc : Scope) (before : Option Scope) : Keeps s0 (startLevel s sc before) := by
  unfold startLevel
  repeat' first
    | with_reducible exact hk | with_reducible assumption | with_reducible apply enterScope_keeps
    | with_reducible apply trainEdges_keeps | with_reducible apply showHolds_keeps
    | with_reducible apply resetPages_keeps | with_reducible apply retrainGroups_keeps
    | with_reducible apply incr_keeps | with_reducible apply wg_keeps
    | with_reducible apply showResets_keeps | simp only [Keeps.fields]
    | with_reducible apply forEach_keeps | with_reducible apply foldl_keeps
    | with_reducible apply foldl_fst_keeps | with_reducible refine Keeps.ite ?_ ?_ | intro _
    | dsimp only | split | refine Keeps.ofSnd (by assumption) ?_
    | refine Keeps.ofFst (by assumption) ?_

/-- What `beginReset` keeps. -/
theorem beginReset_keeps (hk : Keeps s0 s) (sc : Scope) : Keeps s0 (beginReset s sc) := by
  unfold beginReset
  repeat' first
    | with_reducible exact hk | with_reducible apply startLevel_keeps
    | with_reducible apply sampleScope_keeps

/-- What `surviveMismatch` keeps. -/
theorem surviveMismatch_keeps (hk : Keeps s0 s) (l : Nat) : Keeps s0 (surviveMismatch s l) := by
  unfold surviveMismatch
  repeat' first
    | with_reducible exact hk | with_reducible assumption | with_reducible apply updPhase_keeps
    | simp only [Keeps.fields] | with_reducible apply forEach_keeps
    | with_reducible refine Keeps.ite ?_ ?_ | intro _ | dsimp only

/-- What `setFence` keeps. -/
theorem setFence_keeps (hk : Keeps s0 s) (l : Half) : Keeps s0 (setFence s l) := by
  unfold setFence
  repeat' first
    | with_reducible exact hk | with_reducible apply wg_keeps
    | with_reducible refine Keeps.ite ?_ ?_ | intro _ | dsimp only

/-- What `fenceJobs` keeps. -/
theorem fenceJobs_keeps (hk : Keeps s0 s) (l : Half) (cur : Nat) : Keeps s0 (fenceJobs s l cur) := by
  unfold fenceJobs
  repeat' first
    | with_reducible exact hk | with_reducible assumption | with_reducible apply abortJob_keeps
    | with_reducible apply forEach_keeps | with_reducible refine Keeps.ite ?_ ?_ | intro _
    | dsimp only

/-- What `fenceOnly` keeps. -/
theorem fenceOnly_keeps (hk : Keeps s0 s) (l : Half) : Keeps s0 (fenceOnly s l) := by
  unfold fenceOnly
  repeat' first
    | with_reducible exact hk | with_reducible apply setOutcome_keeps
    | with_reducible apply surviveMismatch_keeps | with_reducible apply fenceEdges_keeps
    | with_reducible apply setFence_keeps | with_reducible apply fenceJobs_keeps
    | simp only [Keeps.fields] | with_reducible refine Keeps.ite ?_ ?_ | intro _ | dsimp only

/-- What `fenceLobe` keeps. -/
theorem fenceLobe_keeps (hk : Keeps s0 s) (l : Half) : Keeps s0 (fenceLobe s l) := by
  unfold fenceLobe
  repeat' first
    | with_reducible exact hk | with_reducible apply startLevel_keeps
    | with_reducible apply fenceOnly_keeps | with_reducible apply sampleScope_keeps | split

/-- What `fenceBoth` keeps. -/
theorem fenceBoth_keeps (hk : Keeps s0 s) : Keeps s0 (fenceBoth s) := by
  unfold fenceBoth
  repeat' first
    | with_reducible exact hk | with_reducible apply fenceOnly_keeps
    | with_reducible apply startLevel_keeps | with_reducible apply sampleScope_keeps | dsimp only
    | split

/-- What `restoreLobes` keeps. -/
theorem restoreLobes_keeps (hk : Keeps s0 s) : Keeps s0 (restoreLobes s) := by
  unfold restoreLobes
  repeat' first
    | with_reducible exact hk | with_reducible apply wg_keeps | simp only [Keeps.fields]
    | with_reducible refine Keeps.ite ?_ ?_ | intro _ | dsimp only

/-- What `demand` keeps. -/
theorem demand_keeps (hk : Keeps s0 s) (sc : Scope) : Keeps s0 (demand s sc) := by
  unfold demand
  repeat' first
    | with_reducible exact hk | with_reducible apply fenceLobe_keeps
    | with_reducible apply beginReset_keeps | split

/-- What `classActions` keeps. -/
theorem classActions_keeps (hk : Keeps s0 s) (es : List (Event × Nat)) : Keeps s0 (classActions s es) := by
  unfold classActions
  repeat' first
    | with_reducible exact hk | with_reducible assumption | with_reducible apply demand_keeps
    | with_reducible apply fenceBoth_keeps | with_reducible apply fenceLobe_keeps
    | with_reducible apply abortJob_keeps | with_reducible apply forEach_keeps
    | with_reducible refine Keeps.ite ?_ ?_ | intro _ | dsimp only | split
    | refine Keeps.ofSnd (by assumption) ?_ | refine Keeps.ofFst (by assumption) ?_

/-- What `takeBatch` keeps. -/
theorem takeBatch_keeps (hk : Keeps s0 s) (es : List Event) : Keeps s0 (takeBatch s es) := by
  unfold takeBatch
  repeat' first
    | with_reducible exact hk | with_reducible assumption
    | with_reducible apply classActions_keeps | with_reducible apply record_keeps
    | with_reducible apply forEach_keeps | intro _ | dsimp only
    | refine Keeps.ofSnd (by assumption) ?_ | refine Keeps.ofFst (by assumption) ?_

/-- What `drain` keeps. -/
theorem drain_keeps (hk : Keeps s0 s) (x0 : Nat) : Keeps s0 (drain x0 s) := by
  induction x0 generalizing s with
  | zero => unfold drain; exact hk
  | succ n ih =>
    unfold drain
    repeat' first
      | with_reducible exact hk | with_reducible assumption | with_reducible apply takeBatch_keeps
      | with_reducible apply ih | simp only [Keeps.fields] | intro _ | split

/-- What `takeEvents` keeps. -/
theorem takeEvents_keeps (hk : Keeps s0 s) : Keeps s0 (takeEvents s) := by
  unfold takeEvents
  repeat' first
    | with_reducible exact hk | with_reducible assumption | with_reducible apply drain_keeps
    | with_reducible apply settleSeq_keeps | with_reducible apply releaseHeld_keeps
    | with_reducible apply forEach_keeps | intro _ | dsimp only

end Sys2Proof.Machine
end

