-- ==== Sys2Proof/Laws/KeepsCollCore.lean ====
section
/-!
SUPPORT. What the operations of Machine/CollCore.lean keep (`Keeps`).
-/

namespace Sys2Proof.Machine

variable {s0 s : State}

/-- What `readSource` keeps. -/
theorem readSource_keeps (hk : Keeps s0 s) (q a n : Nat) : Keeps s0 (readSource s q a n).1 := by
  unfold readSource
  repeat' first
    | with_reducible exact hk | with_reducible apply checkRead_keeps | dsimp only | split
    | refine Keeps.ofSnd (by assumption) ?_ | refine Keeps.ofFst (by assumption) ?_

/-- What `postOp` keeps. -/
theorem postOp_keeps (hk : Keeps s0 s) (q w : Nat) (poster : Poster) : Keeps s0 (postOp s q w poster).1 := by
  unfold postOp
  repeat' first
    | with_reducible exact hk | with_reducible assumption | with_reducible apply readSource_keeps
    | with_reducible apply deliverStatus_keeps | with_reducible apply raise_keeps
    | with_reducible apply updCq_keeps | simp only [Keeps.fields]
    | with_reducible apply forEach_keeps | with_reducible apply foldl_keeps
    | with_reducible apply foldl_fst_keeps | with_reducible refine Keeps.ite ?_ ?_ | intro _
    | dsimp only | split | refine Keeps.ofSnd (by assumption) ?_
    | refine Keeps.ofFst (by assumption) ?_

/-- What `updOp` keeps. -/
theorem updOp_keeps (hk : Keeps s0 s) (q id : Nat) (f : Op → Op) : Keeps s0 (updOp s q id f) := by
  unfold updOp
  repeat' first
    | with_reducible exact hk | with_reducible apply updCq_keeps | simp only [Keeps.fields]
    | dsimp only

/-- What `finishOp` keeps. -/
theorem finishOp_keeps (hk : Keeps s0 s) (q id code : Nat) (detail : Nat) : Keeps s0 (finishOp s q id code detail) := by
  unfold finishOp
  repeat' first
    | with_reducible exact hk | with_reducible apply updOp_keeps | simp only [Keeps.fields]
    | with_reducible refine Keeps.ite ?_ ?_ | intro _ | dsimp only

/-- What `sendPkt` keeps. -/
theorem sendPkt_keeps (hk : Keeps s0 s) (p : Packet) : Keeps s0 (sendPkt s p) := by
  unfold sendPkt
  repeat' first
    | with_reducible exact hk | simp only [Keeps.fields] | with_reducible refine Keeps.ite ?_ ?_
    | intro _

/-- What `sendCts` keeps. -/
theorem sendCts_keeps (hk : Keeps s0 s) (c : Cq) (r tag bytes op : Nat) : Keeps s0 (sendCts s c r tag bytes op) := by
  unfold sendCts
  repeat' first
    | with_reducible exact hk | with_reducible apply sendPkt_keeps

/-- What `sendDone` keeps. -/
theorem sendDone_keeps (hk : Keeps s0 s) (c : Cq) (r tag : Nat) (mismatch : Bool) : Keeps s0 (sendDone s c r tag mismatch) := by
  unfold sendDone
  repeat' first
    | with_reducible exact hk | with_reducible apply sendPkt_keeps | simp only [Keeps.fields]

/-- What `engineDoes` keeps. -/
theorem engineDoes_keeps (hk : Keeps s0 s) (q n : Nat) (f : State → State) (hf : ∀ t, Keeps s0 t → Keeps s0 (f t)) : Keeps s0 (engineDoes s q n f) := by
  unfold engineDoes
  repeat' first
    | with_reducible exact hk | with_reducible assumption | with_reducible apply retire_keeps
    | with_reducible apply hf | intro _ | dsimp only

end Sys2Proof.Machine
end

