-- ==== Sys2Proof/Laws/KeepsCollRun.lean ====
section
/-!
SUPPORT. What the operations of Machine/CollRun.lean keep (`Keeps`).
-/

namespace Sys2Proof.Machine

variable {s0 s : State}

/-- What `sendData` keeps. -/
theorem sendData_keeps (hk : Keeps s0 s) (c : Cq) (r tag a n base i : Nat) : Keeps s0 (sendData s c r tag a n base i) := by
  unfold sendData
  repeat' first
    | with_reducible exact hk | with_reducible apply sendPkt_keeps | dsimp only

/-- What `sendAll` keeps. -/
theorem sendAll_keeps (hk : Keeps s0 s) (c : Cq) (r tag a n base : Nat) : Keeps s0 (sendAll s c r tag a n base) := by
  unfold sendAll
  repeat' first
    | with_reducible exact hk | with_reducible assumption | with_reducible apply sendData_keeps
    | with_reducible apply forEach_keeps | intro _ | dsimp only

/-- What `forward` keeps. -/
theorem forward_keeps (hk : Keeps s0 s) (c : Cq) (o : Op) (r i : Nat) (bs : List Byte) : Keeps s0 (forward s c o r i bs) := by
  unfold forward
  repeat' first
    | with_reducible exact hk | with_reducible apply sendPkt_keeps
    | with_reducible refine Keeps.ite ?_ ?_ | intro _ | dsimp only

/-- What `sendGranted` keeps. -/
theorem sendGranted_keeps (hk : Keeps s0 s) (q : Nat) (o : Op) (r : Nat) : Keeps s0 (sendGranted s q o r) := by
  unfold sendGranted
  repeat' first
    | with_reducible exact hk | with_reducible assumption | with_reducible apply readSource_keeps
    | with_reducible apply finishOp_keeps | with_reducible apply sendData_keeps
    | with_reducible apply sendAll_keeps | with_reducible apply forward_keeps
    | with_reducible apply forEach_keeps | with_reducible refine Keeps.ite ?_ ?_ | intro _
    | dsimp only | split | refine Keeps.ofSnd (by assumption) ?_
    | refine Keeps.ofFst (by assumption) ?_

/-- What `checkFinished` keeps. -/
theorem checkFinished_keeps (hk : Keeps s0 s) (q id : Nat) : Keeps s0 (checkFinished s q id) := by
  unfold checkFinished
  repeat' first
    | with_reducible exact hk | with_reducible apply finishOp_keeps
    | with_reducible refine Keeps.ite ?_ ?_ | intro _ | split

/-- What `takeGrant` keeps. -/
theorem takeGrant_keeps (hk : Keeps s0 s) (q : Nat) (o : Op) (r bytes op : Nat) (done : Bool) : Keeps s0 (takeGrant s q o r bytes op done) := by
  unfold takeGrant
  repeat' first
    | with_reducible exact hk | with_reducible apply finishOp_keeps
    | with_reducible apply sendDone_keeps | with_reducible apply updOp_keeps
    | with_reducible apply sendGranted_keeps | with_reducible apply checkFinished_keeps
    | simp only [Keeps.fields] | with_reducible refine Keeps.ite ?_ ?_ | intro _ | dsimp only

/-- What `takeWaiting` keeps. -/
theorem takeWaiting_keeps (hk : Keeps s0 s) (q id : Nat) : Keeps s0 (takeWaiting s q id) := by
  unfold takeWaiting
  repeat' first
    | with_reducible exact hk | with_reducible assumption | with_reducible apply takeGrant_keeps
    | simp only [Keeps.fields] | with_reducible apply forEach_keeps
    | with_reducible refine Keeps.ite ?_ ?_ | intro _ | dsimp only | split

/-- What `calCopy` keeps. -/
theorem calCopy_keeps (hk : Keeps s0 s) (q a b n : Nat) : Keeps s0 (calCopy s q a b n) := by
  unfold calCopy
  repeat' first
    | with_reducible exact hk | with_reducible apply storeBoth_keeps

/-- What `localPart` keeps. -/
theorem localPart_keeps (hk : Keeps s0 s) (q : Nat) (o : Op) : Keeps s0 (localPart s q o) := by
  unfold localPart
  repeat' first
    | with_reducible exact hk | with_reducible apply readSource_keeps
    | with_reducible apply finishOp_keeps | with_reducible apply calCopy_keeps
    | with_reducible refine Keeps.ite ?_ ?_ | intro _ | dsimp only | split
    | refine Keeps.ofSnd (by assumption) ?_ | refine Keeps.ofFst (by assumption) ?_

/-- What `startTransfer` keeps. -/
theorem startTransfer_keeps (hk : Keeps s0 s) (q : Nat) (o : Op) : Keeps s0 (startTransfer s q o) := by
  unfold startTransfer
  repeat' first
    | with_reducible exact hk | with_reducible assumption | with_reducible apply localPart_keeps
    | with_reducible apply sendCts_keeps | with_reducible apply checkFinished_keeps
    | with_reducible apply takeWaiting_keeps | with_reducible apply forEach_keeps
    | with_reducible refine Keeps.ite ?_ ?_ | intro _ | dsimp only | split

/-- What `takeData` keeps. -/
theorem takeData_keeps (hk : Keeps s0 s) (q : Nat) (o : Op) (r i : Nat) (pay : List Byte) : Keeps s0 (takeData s q o r i pay) := by
  unfold takeData
  repeat' first
    | with_reducible exact hk | with_reducible assumption | with_reducible apply storeBoth_keeps
    | with_reducible apply updOp_keeps | with_reducible apply forward_keeps
    | with_reducible apply sendDone_keeps | with_reducible apply checkFinished_keeps
    | simp only [Keeps.fields] | with_reducible apply forEach_keeps
    | with_reducible refine Keeps.ite ?_ ?_ | intro _ | dsimp only | split
    | refine Keeps.ofSnd (by assumption) ?_ | refine Keeps.ofFst (by assumption) ?_

/-- What `takeDone` keeps. -/
theorem takeDone_keeps (hk : Keeps s0 s) (q : Nat) (o : Op) (r : Nat) (mismatch : Bool) : Keeps s0 (takeDone s q o r mismatch) := by
  unfold takeDone
  repeat' first
    | with_reducible exact hk | with_reducible apply finishOp_keeps
    | with_reducible apply checkFinished_keeps | with_reducible apply updOp_keeps
    | simp only [Keeps.fields] | with_reducible refine Keeps.ite ?_ ?_ | intro _ | dsimp only

/-- What `discardMsg` keeps. -/
theorem discardMsg_keeps (hk : Keeps s0 s) (q : Option Nat) : Keeps s0 (discardMsg s q) := by
  unfold discardMsg
  repeat' first
    | with_reducible exact hk | with_reducible apply incr_keeps | split

end Sys2Proof.Machine
end

