-- ==== Sys2Proof/Laws/KeepsGeyserCore.lean ====
section
/-!
SUPPORT. What the operations of Machine/GeyserCore.lean keep (`Keeps`).
-/

namespace Sys2Proof.Machine

variable {s0 s : State}

/-- What `geyError` keeps. -/
theorem geyError_keeps (hk : Keeps s0 s) (h src job group bucket node : Nat) : Keeps s0 (geyError s h src job group bucket node) := by
  unfold geyError
  repeat' first
    | with_reducible exact hk | with_reducible apply wg_keeps | with_reducible apply raise_keeps
    | with_reducible refine Keeps.ite ?_ ?_ | intro _ | dsimp only

/-- What `sendResv` keeps. -/
theorem sendResv_keeps (hk : Keeps s0 s) (c : Cq) (t node len win b0 b1 : Nat) : Keeps s0 (sendResv s c t node len win b0 b1) := by
  unfold sendResv
  repeat' first
    | with_reducible exact hk | with_reducible apply sendPkt_keeps | simp only [Keeps.fields]
    | with_reducible refine Keeps.ite ?_ ?_ | intro _ | dsimp only | split

/-- What `reserve` keeps. -/
theorem reserve_keeps (hk : Keeps s0 s) (q h : Nat) (o : Op) : Keeps s0 (reserve s q h o) := by
  unfold reserve
  repeat' first
    | with_reducible exact hk | with_reducible assumption | with_reducible apply updGeyser_keeps
    | with_reducible apply sendResv_keeps | simp only [Keeps.fields]
    | with_reducible apply forEach_keeps | with_reducible refine Keeps.ite ?_ ?_ | intro _
    | dsimp only | refine Keeps.ofSnd (by assumption) ?_ | refine Keeps.ofFst (by assumption) ?_

/-- What `reserveWaiting` keeps. -/
theorem reserveWaiting_keeps (hk : Keeps s0 s) (h : Nat) : Keeps s0 (reserveWaiting s h) := by
  unfold reserveWaiting
  repeat' first
    | with_reducible exact hk | with_reducible assumption | with_reducible apply reserve_keeps
    | with_reducible apply updGeyser_keeps | simp only [Keeps.fields]
    | with_reducible apply foldl_keeps | with_reducible apply foldl_fst_keeps
    | with_reducible refine Keeps.ite ?_ ?_ | intro _ | dsimp only | split
    | refine Keeps.ofSnd (by assumption) ?_ | refine Keeps.ofFst (by assumption) ?_

/-- What `startReserve` keeps. -/
theorem startReserve_keeps (hk : Keeps s0 s) (q : Nat) (o : Op) (h : Nat) : Keeps s0 (startReserve s q o h) := by
  unfold startReserve
  repeat' first
    | with_reducible exact hk | with_reducible apply geyError_keeps
    | with_reducible apply reserveWaiting_keeps | with_reducible apply updGeyser_keeps
    | simp only [Keeps.fields] | with_reducible refine Keeps.ite ?_ ?_ | intro _ | dsimp only

/-- What `addCredit` keeps. -/
theorem addCredit_keeps (hk : Keeps s0 s) (job group bucket node n : Nat) : Keeps s0 (addCredit s job group bucket node n) := by
  unfold addCredit
  repeat' first
    | with_reducible exact hk | simp only [Keeps.fields]

/-- What `spendCredit` keeps. -/
theorem spendCredit_keeps (hk : Keeps s0 s) (job group bucket node chunks : Nat) (last : Bool) : Keeps s0 (spendCredit s job group bucket node chunks last) := by
  unfold spendCredit
  repeat' first
    | with_reducible exact hk | simp only [Keeps.fields] | with_reducible refine Keeps.ite ?_ ?_
    | intro _ | dsimp only

/-- What `backCredit` keeps. -/
theorem backCredit_keeps (hk : Keeps s0 s) (job group bucket node : Nat) : Keeps s0 (backCredit s job group bucket node) := by
  unfold backCredit
  repeat' first
    | with_reducible exact hk | simp only [Keeps.fields] | with_reducible refine Keeps.ite ?_ ?_
    | intro _ | dsimp only

/-- What `takeResult` keeps. -/
theorem takeResult_keeps (hk : Keeps s0 s) (q : Nat) (o : Op) (b chunk : Nat) (exps data : List Byte) : Keeps s0 (takeResult s q o b chunk exps data) := by
  unfold takeResult
  repeat' first
    | with_reducible exact hk | with_reducible assumption | with_reducible apply finishOp_keeps
    | with_reducible apply storeBoth_keeps | with_reducible apply updOp_keeps
    | with_reducible apply sendPkt_keeps | with_reducible apply checkFinished_keeps
    | simp only [Keeps.fields] | with_reducible apply forEach_keeps
    | with_reducible refine Keeps.ite ?_ ?_ | intro _ | dsimp only | split

/-- What `deliverRoot` keeps. -/
theorem deliverRoot_keeps (hk : Keeps s0 s) (r : Resv) (chunk : Nat) (exps data : List Byte) : Keeps s0 (deliverRoot s r chunk exps data) := by
  unfold deliverRoot
  repeat' first
    | with_reducible exact hk | with_reducible assumption | with_reducible apply engineDoes_keeps
    | with_reducible apply takeResult_keeps | with_reducible apply finishOp_keeps
    | with_reducible apply sendPkt_keeps | simp only [Keeps.fields]
    | with_reducible apply forEach_keeps | with_reducible apply foldl_keeps
    | with_reducible apply foldl_fst_keeps | with_reducible refine Keeps.ite ?_ ?_ | intro _
    | dsimp only | split | refine Keeps.ofSnd (by assumption) ?_
    | refine Keeps.ofFst (by assumption) ?_

/-- What `putSlot` keeps. -/
theorem putSlot_keeps (hk : Keeps s0 s) (h : Nat) (r : Resv) (x : Slot) : Keeps s0 (putSlot s h r x) := by
  unfold putSlot
  repeat' first
    | with_reducible exact hk | with_reducible apply updGeyser_keeps | simp only [Keeps.fields]
    | dsimp only

/-- What `updResv` keeps. -/
theorem updResv_keeps (hk : Keeps s0 s) (h : Nat) (r : Resv) (f : Resv → Resv) : Keeps s0 (updResv s h r f) := by
  unfold updResv
  repeat' first
    | with_reducible exact hk | with_reducible apply updGeyser_keeps | simp only [Keeps.fields]
    | dsimp only

/-- What `freeSlot` keeps. -/
theorem freeSlot_keeps (hk : Keeps s0 s) (h : Nat) (r : Resv) (chunk : Nat) : Keeps s0 (freeSlot s h r chunk) := by
  unfold freeSlot
  repeat' first
    | with_reducible exact hk | with_reducible assumption | with_reducible apply retire_keeps
    | with_reducible apply updGeyser_keeps | with_reducible apply updResv_keeps
    | with_reducible apply sendResv_keeps | with_reducible apply reserveWaiting_keeps
    | simp only [Keeps.fields] | with_reducible apply forEach_keeps
    | with_reducible refine Keeps.ite ?_ ?_ | intro _ | dsimp only
    | refine Keeps.ofSnd (by assumption) ?_ | refine Keeps.ofFst (by assumption) ?_

/-- What `sendRed` keeps. -/
theorem sendRed_keeps (hk : Keeps s0 s) (c : Cq) (t node b chunk len : Nat) (exps data : List Byte) : Keeps s0 (sendRed s c t node b chunk len exps data) := by
  unfold sendRed
  repeat' first
    | with_reducible exact hk | with_reducible apply sendPkt_keeps | simp only [Keeps.fields]
    | split

/-- What `sendUp` keeps. -/
theorem sendUp_keeps (hk : Keeps s0 s) (h : Nat) (r : Resv) (x : Slot) : Keeps s0 (sendUp s h r x) := by
  unfold sendUp
  repeat' first
    | with_reducible exact hk | with_reducible apply spendCredit_keeps
    | with_reducible apply freeSlot_keeps | with_reducible apply sendRed_keeps | dsimp only

/-- What `readSlot` keeps. -/
theorem readSlot_keeps (hk : Keeps s0 s) (h : Nat) (r : Resv) (mem : List SlotRead) : Keeps s0 (readSlot s h r mem).1 := by
  unfold readSlot
  repeat' first
    | with_reducible exact hk | with_reducible apply geyError_keeps | split

/-- What `sendWaiting` keeps. -/
theorem sendWaiting_keeps (hk : Keeps s0 s) (x0 : Nat) (x2 : Nat) (x3 : Nat) (x4 : Nat) (x5 : Nat) (x6 : Nat) (x7 : List SlotRead) : Keeps s0 (sendWaiting x0 s x2 x3 x4 x5 x6 x7) := by
  induction x0 generalizing s x2 x3 x4 x5 x6 x7 with
  | zero => unfold sendWaiting; exact hk
  | succ n ih =>
    unfold sendWaiting
    repeat' first
      | with_reducible exact hk | with_reducible assumption | with_reducible apply readSlot_keeps
      | with_reducible apply sendUp_keeps | with_reducible apply putSlot_keeps
      | with_reducible apply ih | simp only [Keeps.fields] | with_reducible refine Keeps.ite ?_ ?_
      | intro _ | split | refine Keeps.ofSnd (by assumption) ?_
      | refine Keeps.ofFst (by assumption) ?_

/-- What `releaseResult` keeps. -/
theorem releaseResult_keeps (hk : Keeps s0 s) (h : Nat) (r : Resv) (x : Slot) (mem : List SlotRead) : Keeps s0 (releaseResult s h r x mem) := by
  unfold releaseResult
  repeat' first
    | with_reducible exact hk | with_reducible apply deliverRoot_keeps
    | with_reducible apply freeSlot_keeps | with_reducible apply putSlot_keeps
    | with_reducible apply sendWaiting_keeps | with_reducible apply sendUp_keeps
    | simp only [Keeps.fields] | with_reducible refine Keeps.ite ?_ ?_ | intro _ | split

/-- What `enterSlot` keeps. -/
theorem enterSlot_keeps (hk : Keeps s0 s) (h : Nat) (r : Resv) (chunk child len : Nat) (exps data : List Byte) (mem : List SlotRead) : Keeps s0 (enterSlot s h r chunk child len exps data mem) := by
  unfold enterSlot
  repeat' first
    | with_reducible exact hk | with_reducible apply updResv_keeps
    | with_reducible apply putSlot_keeps | with_reducible apply readSlot_keeps
    | with_reducible apply incr_keeps | with_reducible apply retire_keeps
    | with_reducible apply releaseResult_keeps | simp only [Keeps.fields]
    | with_reducible refine Keeps.ite ?_ ?_ | intro _ | dsimp only | split
    | refine Keeps.ofSnd (by assumption) ?_ | refine Keeps.ofFst (by assumption) ?_

/-- What `injectLeaves` keeps. -/
theorem injectLeaves_keeps (hk : Keeps s0 s) (x0 : Nat) (x2 : Nat) (x3 : Nat) : Keeps s0 (injectLeaves x0 s x2 x3) := by
  induction x0 generalizing s x2 x3 with
  | zero => unfold injectLeaves; exact hk
  | succ n ih =>
    unfold injectLeaves
    repeat' first
      | with_reducible exact hk | with_reducible assumption | with_reducible apply readSource_keeps
      | with_reducible apply finishOp_keeps | with_reducible apply spendCredit_keeps
      | with_reducible apply updOp_keeps | with_reducible apply sendRed_keeps
      | with_reducible apply checkFinished_keeps | with_reducible apply ih
      | simp only [Keeps.fields] | with_reducible refine Keeps.ite ?_ ?_ | intro _ | dsimp only
      | split | refine Keeps.ofSnd (by assumption) ?_ | refine Keeps.ofFst (by assumption) ?_

/-- What `useCredit` keeps. -/
theorem useCredit_keeps (hk : Keeps s0 s) (job group b node : Nat) (mem : List SlotRead) : Keeps s0 (useCredit s job group b node mem) := by
  unfold useCredit
  repeat' first
    | with_reducible exact hk | with_reducible assumption | with_reducible apply engineDoes_keeps
    | with_reducible apply injectLeaves_keeps | with_reducible apply sendWaiting_keeps
    | simp only [Keeps.fields] | with_reducible apply forEach_keeps
    | with_reducible apply foldl_keeps | with_reducible apply foldl_fst_keeps
    | with_reducible refine Keeps.ite ?_ ?_ | intro _ | dsimp only | split
    | refine Keeps.ofSnd (by assumption) ?_ | refine Keeps.ofFst (by assumption) ?_

/-- What `deliverAlone` keeps. -/
theorem deliverAlone_keeps (hk : Keeps s0 s) (q : Nat) (o : Op) : Keeps s0 (deliverAlone s q o) := by
  unfold deliverAlone
  repeat' first
    | with_reducible exact hk | with_reducible assumption | with_reducible apply readSource_keeps
    | with_reducible apply finishOp_keeps | with_reducible apply takeResult_keeps
    | with_reducible apply forEach_keeps | with_reducible refine Keeps.ite ?_ ?_ | intro _
    | dsimp only | split | refine Keeps.ofSnd (by assumption) ?_
    | refine Keeps.ofFst (by assumption) ?_

/-- What `startReduction` keeps. -/
theorem startReduction_keeps (hk : Keeps s0 s) (q : Nat) (o : Op) : Keeps s0 (startReduction s q o) := by
  unfold startReduction
  repeat' first
    | with_reducible exact hk | with_reducible assumption
    | with_reducible apply deliverAlone_keeps | with_reducible apply startReserve_keeps
    | with_reducible apply useCredit_keeps | with_reducible apply forEach_keeps
    | with_reducible refine Keeps.ite ?_ ?_ | intro _ | dsimp only

/-- What `tinyDown` keeps. -/
theorem tinyDown_keeps (hk : Keeps s0 s) (q : Nat) (o : Op) (bs : List Byte) : Keeps s0 (tinyDown s q o bs) := by
  unfold tinyDown
  repeat' first
    | with_reducible exact hk | with_reducible assumption | with_reducible apply storeBoth_keeps
    | with_reducible apply sendPkt_keeps | with_reducible apply finishOp_keeps
    | simp only [Keeps.fields] | with_reducible apply forEach_keeps
    | with_reducible refine Keeps.ite ?_ ?_ | intro _ | dsimp only

/-- What `tinyUp` keeps. -/
theorem tinyUp_keeps (hk : Keeps s0 s) (q : Nat) (o : Op) (n : Nat × Nat) (bs : List Byte) : Keeps s0 (tinyUp s q o n bs) := by
  unfold tinyUp
  repeat' first
    | with_reducible exact hk | with_reducible apply tinyDown_keeps
    | with_reducible apply sendPkt_keeps | dsimp only | split

/-- What `startTiny` keeps. -/
theorem startTiny_keeps (hk : Keeps s0 s) (q : Nat) (o : Op) : Keeps s0 (startTiny s q o) := by
  unfold startTiny
  repeat' first
    | with_reducible exact hk | with_reducible apply readSource_keeps
    | with_reducible apply finishOp_keeps | with_reducible apply tinyUp_keeps
    | with_reducible refine Keeps.ite ?_ ?_ | intro _ | dsimp only | split
    | refine Keeps.ofSnd (by assumption) ?_ | refine Keeps.ofFst (by assumption) ?_

/-- What `tinyArrive` keeps. -/
theorem tinyArrive_keeps (hk : Keeps s0 s) (q : Nat) (p : Packet) : Keeps s0 (tinyArrive s q p) := by
  unfold tinyArrive
  repeat' first
    | with_reducible exact hk | with_reducible apply updCq_keeps
    | with_reducible apply tinyUp_keeps | simp only [Keeps.fields]
    | with_reducible refine Keeps.ite ?_ ?_ | intro _ | dsimp only | split

end Sys2Proof.Machine
end

