-- ==== Sys2Proof/Laws/KeepsTaskRun.lean ====
section
/-!
SUPPORT. What the operations of Machine/TaskRun.lean keep (`Keeps`).
-/

namespace Sys2Proof.Machine

variable {s0 s : State}

/-- What `countCensus` keeps. -/
theorem countCensus_keeps (hk : Keeps s0 s) (d layer fmt : Nat) (cs : List Cls) : Keeps s0 (countCensus s d layer fmt cs) := by
  unfold countCensus
  repeat' first
    | with_reducible exact hk | with_reducible apply wg_keeps | simp only [Keeps.fields]
    | with_reducible refine Keeps.ite ?_ ?_ | intro _ | dsimp only | split
    | refine Keeps.ofSnd (by assumption) ?_ | refine Keeps.ofFst (by assumption) ?_

/-- What `storeMaskedDie` keeps. -/
theorem storeMaskedDie_keeps (hk : Keeps s0 s) (d : Nat) (ps : List (Nat × Byte)) : Keeps s0 (storeMaskedDie s d ps) := by
  unfold storeMaskedDie
  repeat' first
    | with_reducible exact hk | with_reducible apply storeVia_keeps
    | with_reducible refine Keeps.ite ?_ ?_ | intro _ | dsimp only
    | refine Keeps.ofSnd (by assumption) ?_ | refine Keeps.ofFst (by assumption) ?_

/-- What `writeMap` keeps. -/
theorem writeMap_keeps (hk : Keeps s0 s) (d : Nat) (m : Map Byte) : Keeps s0 (writeMap s d m) := by
  unfold writeMap
  repeat' first
    | with_reducible exact hk | with_reducible assumption
    | with_reducible apply storeMaskedDie_keeps | with_reducible apply forEach_keeps | intro _
    | dsimp only

end Sys2Proof.Machine
end

