-- ==== Sys2Proof/Laws/KeepsSeqCore.lean ====
section
/-!
SUPPORT. What the operations of Machine/SeqCore.lean keep (`Keeps`).
-/

namespace Sys2Proof.Machine

variable {s0 s : State}

/-- What `endMalformed` keeps. -/
theorem endMalformed_keeps (hk : Keeps s0 s) (d ph : Nat) : Keeps s0 (endMalformed s d ph) := by
  unfold endMalformed
  repeat' first
    | with_reducible exact hk | with_reducible apply seqEvent_keeps
    | with_reducible apply noteStop_keeps | with_reducible apply endPhase_keeps

/-- What `readPhase` keeps. -/
theorem readPhase_keeps (hk : Keeps s0 s) (d ph : Nat) : Keeps s0 (readPhase s d ph) := by
  unfold readPhase
  repeat' first
    | with_reducible exact hk | with_reducible apply updPhase_keeps
    | with_reducible apply checkDie_keeps | simp only [Keeps.fields]
    | with_reducible refine Keeps.ite ?_ ?_ | intro _ | dsimp only

/-- What `examine` keeps. -/
theorem examine_keeps (hk : Keeps s0 s) (d ph : Nat) : Keeps s0 (examine s d ph) := by
  unfold examine
  repeat' first
    | with_reducible exact hk | with_reducible apply readPhase_keeps
    | with_reducible apply endMalformed_keeps | with_reducible apply updPhase_keeps
    | simp only [Keeps.fields] | with_reducible refine Keeps.ite ?_ ?_ | intro _ | dsimp only

/-- What `chooseFrom` keeps. -/
theorem chooseFrom_keeps (hk : Keeps s0 s) (d : Nat) (cands : List Nat) (ok : State → Nat → Bool) : Keeps s0 (chooseFrom s d cands ok).1 := by
  unfold chooseFrom
  repeat' first
    | with_reducible exact hk | with_reducible assumption | with_reducible apply examine_keeps
    | with_reducible apply forEach_keeps | with_reducible refine Keeps.ite ?_ ?_ | intro _
    | dsimp only

/-- What `choosePhase` keeps. -/
theorem choosePhase_keeps (hk : Keeps s0 s) (d : Nat) : Keeps s0 (choosePhase s d).1 := by
  unfold choosePhase
  repeat' first
    | with_reducible exact hk | with_reducible apply chooseFrom_keeps
    | with_reducible refine Keeps.ite ?_ ?_ | intro _ | dsimp only | split
    | refine Keeps.ofSnd (by assumption) ?_ | refine Keeps.ofFst (by assumption) ?_

/-- What `setRunDigest` keeps. -/
theorem setRunDigest_keeps (hk : Keeps s0 s) (d v : Nat) : Keeps s0 (setRunDigest s d v) := by
  unfold setRunDigest
  repeat' first
    | with_reducible exact hk | with_reducible assumption | with_reducible apply wg_keeps
    | with_reducible apply forEach_keeps | intro _ | dsimp only

/-- What `postList` keeps. -/
theorem postList_keeps (hk : Keeps s0 s) (x0 : Nat) (x2 : Nat) (x3 : Nat) : Keeps s0 (postList x0 s x2 x3) := by
  induction x0 generalizing s x2 x3 with
  | zero => unfold postList; exact hk
  | succ n ih =>
    unfold postList
    repeat' first
      | with_reducible exact hk | with_reducible assumption | with_reducible apply endFailed_keeps
      | with_reducible apply checkDie_keeps | with_reducible apply updPhase_keeps
      | with_reducible apply postOp_keeps | with_reducible apply ih | simp only [Keeps.fields]
      | with_reducible refine Keeps.ite ?_ ?_ | intro _ | dsimp only | split
      | refine Keeps.ofSnd (by assumption) ?_ | refine Keeps.ofFst (by assumption) ?_

/-- What `startPosting` keeps. -/
theorem startPosting_keeps (hk : Keeps s0 s) (d ph : Nat) : Keeps s0 (startPosting s d ph) := by
  unfold startPosting
  repeat' first
    | with_reducible exact hk | with_reducible apply updPhase_keeps
    | with_reducible apply postList_keeps | simp only [Keeps.fields]
    | with_reducible refine Keeps.ite ?_ ?_ | intro _ | dsimp only

/-- What `postWaiting` keeps. -/
theorem postWaiting_keeps (hk : Keeps s0 s) : Keeps s0 (postWaiting s) := by
  unfold postWaiting
  repeat' first
    | with_reducible exact hk | with_reducible assumption | with_reducible apply postList_keeps
    | with_reducible apply forEach_keeps | with_reducible refine Keeps.ite ?_ ?_ | intro _
    | dsimp only

/-- What `goOn` keeps. -/
theorem goOn_keeps (hk : Keeps s0 s) (d ph : Nat) : Keeps s0 (goOn s d ph) := by
  unfold goOn
  repeat' first
    | with_reducible exact hk | with_reducible apply startPosting_keeps
    | with_reducible apply updPhase_keeps | simp only [Keeps.fields]
    | with_reducible refine Keeps.ite ?_ ?_ | intro _ | dsimp only

/-- What `workDone` keeps. -/
theorem workDone_keeps (hk : Keeps s0 s) (d ph : Nat) : Keeps s0 (workDone s d ph) := by
  unfold workDone
  repeat' first
    | with_reducible exact hk | with_reducible apply updPhase_keeps
    | with_reducible apply goOn_keeps | simp only [Keeps.fields]
    | with_reducible refine Keeps.ite ?_ ?_ | intro _ | dsimp only

/-- What `formConst` keeps. -/
theorem formConst_keeps (hk : Keeps s0 s) (d l ly : Nat) : Keeps s0 (formConst s d l ly) := by
  unfold formConst
  repeat' first
    | with_reducible exact hk | with_reducible apply storeDie_keeps
    | with_reducible apply updSeq_keeps | simp only [Keeps.fields]
    | with_reducible refine Keeps.ite ?_ ?_ | intro _ | dsimp only

/-- What `afterTask` keeps. -/
theorem afterTask_keeps (hk : Keeps s0 s) (d ph : Nat) : Keeps s0 (afterTask s d ph) := by
  unfold afterTask
  repeat' first
    | with_reducible exact hk | with_reducible apply nextReplay_keeps
    | with_reducible apply endFailed_keeps | with_reducible apply workDone_keeps
    | with_reducible refine Keeps.ite ?_ ?_ | intro _ | dsimp only

/-- What `startRecomp` keeps. -/
theorem startRecomp_keeps (hk : Keeps s0 s) (d ph : Nat) : Keeps s0 (startRecomp s d ph) := by
  unfold startRecomp
  repeat' first
    | with_reducible exact hk | with_reducible apply updPhase_keeps
    | with_reducible apply workDone_keeps | with_reducible apply endPhase_keeps
    | with_reducible apply afterTask_keeps | simp only [Keeps.fields]
    | with_reducible refine Keeps.ite ?_ ?_ | intro _ | dsimp only

/-- What `startPhase` keeps. -/
theorem startPhase_keeps (hk : Keeps s0 s) (d ph : Nat) : Keeps s0 (startPhase s d ph) := by
  unfold startPhase
  repeat' first
    | with_reducible exact hk | with_reducible apply retire_keeps
    | with_reducible apply updPhase_keeps | with_reducible apply endMalformed_keeps
    | with_reducible apply startRecomp_keeps | with_reducible apply startPosting_keeps
    | with_reducible apply formConst_keeps | simp only [Keeps.fields]
    | with_reducible refine Keeps.ite ?_ ?_ | intro _ | dsimp only | split

/-- What `dispatchTask` keeps. -/
theorem dispatchTask_keeps (hk : Keeps s0 s) (d ph : Nat) : Keeps s0 (dispatchTask s d ph) := by
  unfold dispatchTask
  repeat' first
    | with_reducible exact hk | with_reducible apply updDie_keeps
    | with_reducible apply updPhase_keeps | with_reducible apply retire_keeps
    | with_reducible apply incr_keeps | with_reducible apply enqueue_keeps
    | simp only [Keeps.fields] | with_reducible refine Keeps.ite ?_ ?_ | intro _ | dsimp only

/-- What `endBadTask` keeps. -/
theorem endBadTask_keeps (hk : Keeps s0 s) (d : Nat) (t : LiveTask) (code : Nat) : Keeps s0 (endBadTask s d t code) := by
  unfold endBadTask
  repeat' first
    | with_reducible exact hk | with_reducible apply endLive_keeps
    | with_reducible apply writeTaskStatus_keeps | with_reducible apply endFailed_keeps
    | with_reducible apply markFailed_keeps | dsimp only

/-- What `noteRecords` keeps. -/
theorem noteRecords_keeps (hk : Keeps s0 s) (d : Nat) (f : Record → Record) : Keeps s0 (noteRecords s d f) := by
  unfold noteRecords
  repeat' first
    | with_reducible exact hk | simp only [Keeps.fields] | with_reducible refine Keeps.ite ?_ ?_
    | intro _ | dsimp only | refine Keeps.ofSnd (by assumption) ?_
    | refine Keeps.ofFst (by assumption) ?_

/-- What `setEvtLost` keeps. -/
theorem setEvtLost_keeps (hk : Keeps s0 s) (d : Nat) : Keeps s0 (setEvtLost s d) := by
  unfold setEvtLost
  repeat' first
    | with_reducible exact hk | with_reducible apply noteRecords_keeps
    | with_reducible apply wg_keeps | simp only [Keeps.fields] | dsimp only

/-- What `ringEvent` keeps. -/
theorem ringEvent_keeps (hk : Keeps s0 s) (d ph rTo kind : Nat) : Keeps s0 (ringEvent s d ph rTo kind) := by
  unfold ringEvent
  repeat' first
    | with_reducible exact hk | with_reducible apply setEvtLost_keeps
    | with_reducible apply storeDie_keeps | with_reducible apply wg_keeps
    | with_reducible refine Keeps.ite ?_ ?_ | intro _ | dsimp only

/-- What `resolveMember` keeps. -/
theorem resolveMember_keeps (hk : Keeps s0 s) (d ph : Nat) (latch : Bool) : Keeps s0 (resolveMember s d ph latch) := by
  unfold resolveMember
  repeat' first
    | with_reducible exact hk | with_reducible apply incr_keeps
    | with_reducible apply ringEvent_keeps | with_reducible apply updPhase_keeps
    | with_reducible apply dropEnded_keeps | with_reducible apply workDone_keeps
    | simp only [Keeps.fields] | with_reducible refine Keeps.ite ?_ ?_ | intro _ | dsimp only

/-- What `resolveGroup` keeps. -/
theorem resolveGroup_keeps (hk : Keeps s0 s) (d ph : Nat) : Keeps s0 (resolveGroup s d ph) := by
  unfold resolveGroup
  repeat' first
    | with_reducible exact hk | with_reducible assumption | with_reducible apply updDie_keeps
    | with_reducible apply resolveMember_keeps | simp only [Keeps.fields]
    | with_reducible apply forEach_keeps | with_reducible refine Keeps.ite ?_ ?_ | intro _
    | dsimp only | refine Keeps.ofSnd (by assumption) ?_ | refine Keeps.ofFst (by assumption) ?_

/-- What `leafError` keeps. -/
theorem leafError_keeps (hk : Keeps s0 s) (d : Nat) : Keeps s0 (leafError s d) := by
  unfold leafError
  repeat' first
    | with_reducible exact hk | with_reducible apply seqEvent_keeps
    | with_reducible apply noteStop_keeps

/-- What `handLeaf` keeps. -/
theorem handLeaf_keeps (hk : Keeps s0 s) (d l a : Nat) : Keeps s0 (handLeaf s d l a).1 := by
  unfold handLeaf
  repeat' first
    | with_reducible exact hk | with_reducible assumption | with_reducible apply leafError_keeps
    | with_reducible apply updSeq_keeps | simp only [Keeps.fields]
    | with_reducible apply forEach_keeps | with_reducible apply foldl_keeps
    | with_reducible apply foldl_fst_keeps | with_reducible refine Keeps.ite ?_ ?_ | intro _
    | dsimp only | split | refine Keeps.ofSnd (by assumption) ?_
    | refine Keeps.ofFst (by assumption) ?_

/-- What `takeLeaf` keeps. -/
theorem takeLeaf_keeps (hk : Keeps s0 s) (d l : Nat) : Keeps s0 (takeLeaf s d l) := by
  unfold takeLeaf
  repeat' first
    | with_reducible exact hk | with_reducible apply checkDie_keeps
    | with_reducible apply retire_keeps | with_reducible apply updSeq_keeps
    | with_reducible apply writeMap_keeps | simp only [Keeps.fields]
    | with_reducible refine Keeps.ite ?_ ?_ | intro _ | dsimp only | split
    | refine Keeps.ofSnd (by assumption) ?_ | refine Keeps.ofFst (by assumption) ?_

/-- What `detectMissing` keeps. -/
theorem detectMissing_keeps (hk : Keeps s0 s) (d : Nat) : Keeps s0 (detectMissing s d) := by
  unfold detectMissing
  repeat' first
    | with_reducible exact hk | with_reducible apply leafError_keeps
    | with_reducible refine Keeps.ite ?_ ?_ | intro _

/-- What `completePhase` keeps. -/
theorem completePhase_keeps (hk : Keeps s0 s) (d ph : Nat) : Keeps s0 (completePhase s d ph) := by
  unfold completePhase
  repeat' first
    | with_reducible exact hk | with_reducible apply handLeaf_keeps
    | with_reducible apply endPhase_keeps | with_reducible apply markFailed_keeps
    | with_reducible apply setRunDigest_keeps | with_reducible apply detectMissing_keeps
    | with_reducible refine Keeps.ite ?_ ?_ | intro _ | dsimp only | split
    | refine Keeps.ofSnd (by assumption) ?_ | refine Keeps.ofFst (by assumption) ?_

/-- What `beginStep` keeps. -/
theorem beginStep_keeps (hk : Keeps s0 s) (d : Nat) : Keeps s0 (beginStep s d) := by
  unfold beginStep
  repeat' first
    | with_reducible exact hk | with_reducible apply updSeq_keeps
    | with_reducible apply updDie_keeps | simp only [Keeps.fields]
    | with_reducible refine Keeps.ite ?_ ?_ | intro _ | dsimp only
    | refine Keeps.ofSnd (by assumption) ?_ | refine Keeps.ofFst (by assumption) ?_

/-- What `endStep` keeps. -/
theorem endStep_keeps (hk : Keeps s0 s) (d : Nat) : Keeps s0 (endStep s d) := by
  unfold endStep
  repeat' first
    | with_reducible exact hk | with_reducible apply wg_keeps
    | with_reducible apply beginStep_keeps | with_reducible apply finishRun_keeps
    | with_reducible refine Keeps.ite ?_ ?_ | intro _ | dsimp only

/-- What `startSeq` keeps. -/
theorem startSeq_keeps (hk : Keeps s0 s) (d addr : Nat) (cmd : Option (Nat × Nat)) : Keeps s0 (startSeq s d addr cmd) := by
  unfold startSeq
  repeat' first
    | with_reducible exact hk | with_reducible apply checkDie_keeps
    | with_reducible apply updSeq_keeps | with_reducible apply raise_keeps
    | with_reducible apply wg_keeps | with_reducible apply complete_keeps
    | with_reducible apply beginStep_keeps | simp only [Keeps.fields]
    | with_reducible refine Keeps.ite ?_ ?_ | intro _ | dsimp only | split
    | refine Keeps.ofSnd (by assumption) ?_ | refine Keeps.ofFst (by assumption) ?_

/-- What `startHere` keeps. -/
theorem startHere_keeps (hk : Keeps s0 s) (d : Nat) : Keeps s0 (startHere s d) := by
  unfold startHere
  repeat' first
    | with_reducible exact hk | with_reducible apply updSeq_keeps
    | with_reducible apply startSeq_keeps | simp only [Keeps.fields]
    | with_reducible refine Keeps.ite ?_ ?_ | intro _ | dsimp only

/-- What `startWaiting` keeps. -/
theorem startWaiting_keeps (hk : Keeps s0 s) : Keeps s0 (startWaiting s) := by
  unfold startWaiting
  repeat' first
    | with_reducible exact hk | with_reducible assumption | with_reducible apply startHere_keeps
    | with_reducible apply forEach_keeps | with_reducible refine Keeps.ite ?_ ?_ | intro _
    | dsimp only

end Sys2Proof.Machine
end

