-- ==== Sys2Proof/Laws/KeepsTremor.lean ====
section
/-!
SUPPORT. What the operations of Machine/Tremor.lean keep (`Keeps`).
-/

namespace Sys2Proof.Machine

variable {s0 s : State}

/-- What `setPending` keeps. -/
theorem setPending_keeps (hk : Keeps s0 s) (slot : Nat) (on : Bool) : Keeps s0 (setPending s slot on) := by
  unfold setPending
  repeat' first
    | with_reducible exact hk | with_reducible apply setTremor_keeps | simp only [Keeps.fields]
    | with_reducible refine Keeps.ite ?_ ?_ | intro _ | dsimp only

/-- What `noteWork` keeps. -/
theorem noteWork_keeps (hk : Keeps s0 s) (slot : Nat) : Keeps s0 (noteWork s slot) := by
  unfold noteWork
  repeat' first
    | with_reducible exact hk | with_reducible apply useFree_keeps
    | with_reducible apply setPending_keeps | with_reducible refine Keeps.ite ?_ ?_ | intro _
    | dsimp only | split | refine Keeps.ofSnd (by assumption) ?_
    | refine Keeps.ofFst (by assumption) ?_

/-- What `notePending` keeps. -/
theorem notePending_keeps (hk : Keeps s0 s) : Keeps s0 (notePending s) :=
  hk.change rfl (forEach_keeps _ _ (Keeps.refl s) (fun _ x h => noteWork_keeps h x)).free id id

/-- What `ageWindow` keeps. -/
theorem ageWindow_keeps (hk : Keeps s0 s) (slot : Nat) : Keeps s0 (ageWindow s slot) := by
  unfold ageWindow
  repeat' first
    | with_reducible exact hk | with_reducible apply setTremor_keeps | simp only [Keeps.fields]
    | dsimp only | split

/-- What `progress` keeps. -/
theorem progress_keeps (hk : Keeps s0 s) (slot : Nat) : Keeps s0 (progress s slot) := by
  unfold progress
  repeat' first
    | with_reducible exact hk | with_reducible apply useFree_keeps
    | with_reducible apply retire_keeps | dsimp only | split
    | refine Keeps.ofSnd (by assumption) ?_ | refine Keeps.ofFst (by assumption) ?_

/-- What `countDma` keeps. -/
theorem countDma_keeps (hk : Keeps s0 s) (p n : Nat) (c : Cmd) (moved : Nat) : Keeps s0 (countDma s p n c moved) := by
  unfold countDma
  repeat' first
    | with_reducible exact hk | with_reducible apply updCmd_keeps
    | with_reducible apply retire_keeps | simp only [Keeps.fields]
    | with_reducible refine Keeps.ite ?_ ?_ | intro _ | dsimp only

/-- What `endDma` keeps. -/
theorem endDma_keeps (hk : Keeps s0 s) (c : Cmd) (status moved : Nat) : Keeps s0 (endDma s c status moved) := by
  unfold endDma
  repeat' first
    | with_reducible exact hk | with_reducible apply complete_keeps
    | with_reducible apply countDma_keeps | dsimp only | split
    | refine Keeps.ofSnd (by assumption) ?_ | refine Keeps.ofFst (by assumption) ?_

/-- What `dmaMoves` keeps. -/
theorem dmaMoves_keeps (hk : Keeps s0 s) (k : Nat) : Keeps s0 (dmaMoves s k) := by
  unfold dmaMoves
  repeat' first
    | with_reducible exact hk | with_reducible apply useFree_keeps
    | with_reducible apply countDma_keeps | with_reducible refine Keeps.ite ?_ ?_ | intro _
    | dsimp only | split | refine Keeps.ofSnd (by assumption) ?_
    | refine Keeps.ofFst (by assumption) ?_

/-- What `countAvail` keeps. -/
theorem countAvail_keeps (hk : Keeps s0 s) : Keeps s0 (countAvail s) := by
  unfold countAvail
  repeat' first
    | with_reducible exact hk | simp only [Keeps.fields] | with_reducible refine Keeps.ite ?_ ?_
    | intro _

end Sys2Proof.Machine
end

