-- ==== Sys2Proof/Laws/KeepsBootCore.lean ====
section
/-!
SUPPORT. What the operations of Machine/BootCore.lean keep (`Keeps`).
-/

namespace Sys2Proof.Machine

variable {s0 s : State}

/-- What `extendMr` keeps. -/
theorem extendMr_keeps (hk : Keeps s0 s) (i : Nat) (d : List Byte) : Keeps s0 (extendMr s i d) := by
  unfold extendMr
  repeat' first
    | with_reducible exact hk | simp only [Keeps.fields]

/-- What `reportCopy` keeps. -/
theorem reportCopy_keeps (hk : Keeps s0 s) (img : Image) (b : Bool) : Keeps s0 (reportCopy s img b) := by
  unfold reportCopy
  repeat' first
    | with_reducible exact hk | with_reducible apply raise_keeps
    | with_reducible refine Keeps.ite ?_ ?_ | intro _

/-- What `pickCopy` keeps. -/
theorem pickCopy_keeps (hk : Keeps s0 s) (img : Image) : Keeps s0 (pickCopy s img).1 := by
  unfold pickCopy
  repeat' first
    | with_reducible exact hk | with_reducible assumption | with_reducible apply reportCopy_keeps
    | simp only [Keeps.fields] | with_reducible apply forEach_keeps
    | with_reducible apply foldl_keeps | with_reducible apply foldl_fst_keeps
    | with_reducible refine Keeps.ite ?_ ?_ | intro _ | dsimp only | split
    | refine Keeps.ofSnd (by assumption) ?_ | refine Keeps.ofFst (by assumption) ?_

/-- What `bootSolfatara` keeps. -/
theorem bootSolfatara_keeps (hk : Keeps s0 s) : Keeps s0 (bootSolfatara s) := by
  unfold bootSolfatara
  repeat' first
    | with_reducible exact hk | with_reducible apply pickCopy_keeps
    | with_reducible apply wg_keeps | simp only [Keeps.fields] | dsimp only | split
    | refine Keeps.ofSnd (by assumption) ?_ | refine Keeps.ofFst (by assumption) ?_

/-- What `powerDown` keeps. -/
theorem powerDown_keeps (hk : Keeps s0 s) : Keeps s0 (powerDown s) := by
  unfold powerDown
  repeat' first
    | with_reducible exact hk | with_reducible assumption
    | with_reducible apply clearEngines_keeps | with_reducible apply dropLobe_keeps
    | with_reducible apply endWork_keeps | with_reducible apply clearOutside_keeps
    | with_reducible apply resetPages_keeps | with_reducible apply losePower_keeps
    | with_reducible apply wg_keeps | with_reducible apply showResets_keeps
    | with_reducible exact id | with_reducible exact mwf_mkeep _ _ _
    | with_reducible exact fun _ => mwf_nil _ | with_reducible exact Nat.le_refl _
    | with_reducible exact Nat.le_add_right _ _ | with_reducible exact keysUp_filter _ _
    | with_reducible exact keysUp_mkeep _ _ | with_reducible rfl | simp only [Keeps.fields]
    | with_reducible apply forEach_keeps | intro _ | dsimp only
    | with_reducible apply Keeps.change

/-- What `showClocks` keeps. -/
theorem showClocks_keeps (hk : Keeps s0 s) : Keeps s0 (showClocks s) := by
  unfold showClocks
  repeat' first
    | with_reducible exact hk | with_reducible apply wg_keeps
    | with_reducible refine Keeps.ite ?_ ?_ | intro _ | dsimp only

/-- What `drawBytes` keeps. -/
theorem drawBytes_keeps (hk : Keeps s0 s) (n : Nat) : Keeps s0 (drawBytes s n).2 := by
  unfold drawBytes
  repeat' first
    | with_reducible exact hk | with_reducible exact id | with_reducible exact mwf_mkeep _ _ _
    | with_reducible exact fun _ => mwf_nil _ | with_reducible exact Nat.le_refl _
    | with_reducible exact Nat.le_add_right _ _ | with_reducible exact keysUp_filter _ _
    | with_reducible exact keysUp_mkeep _ _ | with_reducible rfl | simp only [Keeps.fields]
    | dsimp only | with_reducible apply Keeps.change

/-- What `bootCaldera` keeps. -/
theorem bootCaldera_keeps (hk : Keeps s0 s) : Keeps s0 (bootCaldera s).1 := by
  unfold bootCaldera
  repeat' first
    | with_reducible exact hk | with_reducible apply extendMr_keeps
    | with_reducible apply wg_keeps | with_reducible apply pickCopy_keeps
    | simp only [Keeps.fields] | dsimp only | split | refine Keeps.ofSnd (by assumption) ?_
    | refine Keeps.ofFst (by assumption) ?_

/-- What `bootDies` keeps. -/
theorem bootDies_keeps (hk : Keeps s0 s) : Keeps s0 (bootDies s) := by
  unfold bootDies
  repeat' first
    | with_reducible exact hk | with_reducible apply drawBytes_keeps
    | with_reducible apply pickCopy_keeps | with_reducible apply extendMr_keeps
    | with_reducible apply wg_keeps | simp only [Keeps.fields] | dsimp only | split
    | refine Keeps.ofSnd (by assumption) ?_ | refine Keeps.ofFst (by assumption) ?_

/-- What `leaveScan` keeps. -/
theorem leaveScan_keeps (hk : Keeps s0 s) : Keeps s0 (leaveScan s) := by
  unfold leaveScan
  repeat' first
    | with_reducible exact hk | with_reducible apply wg_keeps | simp only [Keeps.fields]
    | with_reducible refine Keeps.ite ?_ ?_ | intro _

/-- What `trainLink` keeps. -/
theorem trainLink_keeps (hk : Keeps s0 s) (p : Nat) : Keeps s0 (trainLink s p) := by
  unfold trainLink
  repeat' first
    | with_reducible exact hk | with_reducible apply useFree_keeps
    | with_reducible apply wgFree_keeps | with_reducible refine Keeps.ite ?_ ?_ | intro _
    | dsimp only | split | refine Keeps.ofSnd (by assumption) ?_
    | refine Keeps.ofFst (by assumption) ?_

/-- What `bootFull` keeps. -/
theorem bootFull_keeps (hk : Keeps s0 s) : Keeps s0 (bootFull s) := by
  unfold bootFull
  repeat' first
    | with_reducible exact hk | with_reducible apply clearOutside_keeps
    | with_reducible apply bootSolfatara_keeps | with_reducible apply bootCaldera_keeps
    | with_reducible apply wg_keeps | with_reducible apply powerDown_keeps
    | with_reducible apply leaveScan_keeps | with_reducible apply bootDies_keeps
    | with_reducible apply showClocks_keeps | simp only [Keeps.fields]
    | with_reducible refine Keeps.ite ?_ ?_ | intro _ | dsimp only | split
    | refine Keeps.ofSnd (by assumption) ?_ | refine Keeps.ofFst (by assumption) ?_

/-- What `bootWhenDue` keeps. -/
theorem bootWhenDue_keeps (hk : Keeps s0 s) : Keeps s0 (bootWhenDue s) := by
  unfold bootWhenDue
  repeat' first
    | with_reducible exact hk | with_reducible apply takeEvents_keeps
    | with_reducible apply bootFull_keeps | with_reducible refine Keeps.ite ?_ ?_ | intro _
    | dsimp only

end Sys2Proof.Machine
end

