-- ==== Sys2Proof/Laws/KeepsHostCore.lean ====
section
/-!
SUPPORT. What the operations of Machine/HostCore.lean keep (`Keeps`).
-/

namespace Sys2Proof.Machine

variable {s0 s : State}

/-- What `reportBad` keeps. -/
theorem reportBad_keeps (hk : Keeps s0 s) (by_ : Reader) (a n : Nat) : Keeps s0 (reportBad s by_ a n).1 := by
  unfold reportBad
  repeat' first
    | with_reducible exact hk | with_reducible apply checkRead_keeps

/-- What `issue` keeps. -/
theorem issue_keeps (hk : Keeps s0 s) (r : Request) : Keeps s0 (issue s r) := by
  unfold issue
  repeat' first
    | with_reducible exact hk | simp only [Keeps.fields] | with_reducible refine Keeps.ite ?_ ?_
    | intro _ | dsimp only | split | refine Keeps.ofSnd (by assumption) ?_
    | refine Keeps.ofFst (by assumption) ?_

/-- What `request` keeps. -/
theorem request_keeps (hk : Keeps s0 s) (r : Request) : Keeps s0 (request s r) := by
  unfold request
  repeat' first
    | with_reducible exact hk | with_reducible apply issue_keeps | simp only [Keeps.fields]
    | with_reducible refine Keeps.ite ?_ ?_ | intro _ | dsimp only

/-- What `pumpWaiting` keeps. -/
theorem pumpWaiting_keeps (hk : Keeps s0 s) : Keeps s0 (pumpWaiting s) := by
  unfold pumpWaiting
  repeat' first
    | with_reducible exact hk | with_reducible assumption | with_reducible apply request_keeps
    | simp only [Keeps.fields] | with_reducible apply forEach_keeps | intro _ | dsimp only

/-- What `barFail` keeps. -/
theorem barFail_keeps (hk : Keeps s0 s) (p off job status : Nat) : Keeps s0 (barFail s p off job status) := by
  unfold barFail
  repeat' first
    | with_reducible exact hk | with_reducible apply wg_keeps | with_reducible apply raise_keeps
    | with_reducible refine Keeps.ite ?_ ?_ | intro _ | dsimp only

/-- What a part of a BAR4 read keeps. -/
theorem barReadPart_keeps (r : BarReq) (id : Nat) (x : BarAcc) (off len : Nat) (hk : Keeps s0 x.st) :
    Keeps s0 (barReadPart r id x off len).st := by
  unfold barReadPart
  by_cases h1 : boardCheck x.st false r.job (r.base + off) len ≠ 0
  · simp only [h1, if_true, ne_eq, not_false_eq_true]
    exact barFail_keeps hk r.port off _ _
  · by_cases h2 : bdSlot (r.base + off) ≠ mySlot x.st
    · simp only [h1, h2, if_true, if_false, ne_eq, not_false_eq_true]
      exact hk
    · simp only [h1, h2, if_true, if_false]
      exact reportBad_keeps hk _ _ _

/-- What the parts of a BAR4 read keep. -/
theorem barParts_keeps (r : BarReq) (id : Nat) (xs : List (Nat × Nat)) (x : BarAcc) (hk : Keeps s0 x.st) :
    Keeps s0 (xs.foldl (fun x y => barReadPart r id x y.1 y.2) x).st := by
  induction xs generalizing x with
  | nil => exact hk
  | cons y ys ih => rw [List.foldl_cons]; exact ih _ (barReadPart_keeps r id x y.1 y.2 hk)

/-- What `barDo` keeps. -/
theorem barDo_keeps (hk : Keeps s0 s) (r : BarReq) : Keeps s0 (barDo s r) := by
  have hx := barParts_keeps r s.remote.nextRead (reqParts r) { st := s } hk
  unfold barDo
  dsimp only
  repeat' first
    | with_reducible exact hx
    | simp only [Keeps.fields]
    | with_reducible apply foldl_keeps
    | with_reducible refine Keeps.ite ?_ ?_
    | with_reducible apply request_keeps
    | with_reducible assumption
    | intro _
    | split

/-- What `barRead` keeps. -/
theorem barRead_keeps (hk : Keeps s0 s) (r : BarReq) : Keeps s0 (barRead s r) := by
  unfold barRead
  repeat' first
    | with_reducible exact hk | with_reducible apply barDo_keeps | simp only [Keeps.fields]
    | with_reducible refine Keeps.ite ?_ ?_ | intro _

/-- What `releaseBars` keeps. -/
theorem releaseBars_keeps (hk : Keeps s0 s) : Keeps s0 (releaseBars s) := by
  unfold releaseBars
  repeat' first
    | with_reducible exact hk | with_reducible assumption | with_reducible apply barRead_keeps
    | simp only [Keeps.fields] | with_reducible apply forEach_keeps | intro _

/-- What `barWritePart` keeps. -/
theorem barWritePart_keeps (hk : Keeps s0 s) (r : BarReq) (off : Nat) (bs : List Byte) : Keeps s0 (barWritePart s r off bs) := by
  unfold barWritePart
  repeat' first
    | with_reducible exact hk | with_reducible apply barFail_keeps
    | with_reducible apply request_keeps | with_reducible apply storeBoth_keeps
    | with_reducible refine Keeps.ite ?_ ?_ | intro _ | dsimp only | split

/-- What `barWrite` keeps. -/
theorem barWrite_keeps (hk : Keeps s0 s) (p off : Nat) (data : List Byte) : Keeps s0 (barWrite s p off data) := by
  unfold barWrite
  repeat' first
    | with_reducible exact hk | with_reducible assumption
    | with_reducible apply barWritePart_keeps | with_reducible apply forEach_keeps | intro _
    | dsimp only | refine Keeps.ofSnd (by assumption) ?_ | refine Keeps.ofFst (by assumption) ?_

/-- What `pumpOne` keeps. -/
theorem pumpOne_keeps (hk : Keeps s0 s) (p n : Nat) (c : Cmd) : KeepsOpt s0 (pumpOne s p n c) := by
  unfold pumpOne
  repeat' first
    | with_reducible exact hk | with_reducible apply updCmd_keeps
    | with_reducible apply issue_keeps | with_reducible apply reportBad_keeps
    | with_reducible exact KeepsOpt.none | with_reducible refine KeepsOpt.some ?_
    | with_reducible refine KeepsOpt.ite ?_ ?_ | simp only [Keeps.fields]
    | with_reducible refine Keeps.ite ?_ ?_ | intro _ | dsimp only | split
    | refine Keeps.ofSnd (by assumption) ?_ | refine Keeps.ofFst (by assumption) ?_

/-- What `pumpDma` keeps. -/
theorem pumpDma_keeps (hk : Keeps s0 s) (x0 : Nat) (x2 : Nat) (x3 : Nat) : Keeps s0 (pumpDma x0 s x2 x3) := by
  induction x0 generalizing s x2 x3 with
  | zero => unfold pumpDma; exact hk
  | succ n ih =>
    unfold pumpDma
    repeat' first
      | with_reducible exact hk | with_reducible assumption | with_reducible apply pumpOne_keeps
      | refine (pumpOne_keeps ?_ _ _ _).of _ (by assumption) | with_reducible apply getD_keeps
      | with_reducible apply ih | intro _ | split

/-- What `pumpDmas` keeps. -/
theorem pumpDmas_keeps (hk : Keeps s0 s) : Keeps s0 (pumpDmas s) := by
  unfold pumpDmas
  repeat' first
    | with_reducible exact hk | with_reducible assumption | with_reducible apply pumpDma_keeps
    | with_reducible apply forEach_keeps | intro _ | dsimp only

/-- What `startDma` keeps. -/
theorem startDma_keeps (hk : Keeps s0 s) (p n : Nat) (c : Cmd) : Keeps s0 (startDma s p n c) := by
  unfold startDma
  repeat' first
    | with_reducible exact hk | with_reducible apply complete_keeps
    | with_reducible apply pumpDma_keeps | with_reducible refine Keeps.ite ?_ ?_ | intro _
    | dsimp only

/-- What `setSeqJob` keeps. -/
theorem setSeqJob_keeps (hk : Keeps s0 s) (d a : Nat) : Keeps s0 (setSeqJob s d a) := by
  unfold setSeqJob
  repeat' first
    | with_reducible exact hk | with_reducible apply wg_keeps

/-- What `startSeqRun` keeps. -/
theorem startSeqRun_keeps (hk : Keeps s0 s) (p : Nat) (c : Cmd) : Keeps s0 (startSeqRun s p c) := by
  unfold startSeqRun
  repeat' first
    | with_reducible exact hk | with_reducible apply complete_keeps
    | with_reducible apply startSeq_keeps | with_reducible apply setSeqJob_keeps
    | with_reducible refine Keeps.ite ?_ ?_ | intro _ | dsimp only

/-- What `startTest` keeps. -/
theorem startTest_keeps (hk : Keeps s0 s) (p : Nat) (c : Cmd) : Keeps s0 (startTest s p c) := by
  unfold startTest
  repeat' first
    | with_reducible exact hk | with_reducible apply complete_keeps | simp only [Keeps.fields]
    | with_reducible refine Keeps.ite ?_ ?_ | intro _

/-- What `startWaitFault` keeps. -/
theorem startWaitFault_keeps (hk : Keeps s0 s) (c : Cmd) : Keeps s0 (startWaitFault s c) := by
  unfold startWaitFault
  repeat' first
    | with_reducible exact hk | with_reducible apply complete_keeps
    | with_reducible refine Keeps.ite ?_ ?_ | intro _

/-- What `dropAbort` keeps. -/
theorem dropAbort_keeps (hk : Keeps s0 s) (p n : Nat) : Keeps s0 (dropAbort s p n) := by
  unfold dropAbort
  repeat' first
    | with_reducible exact hk | simp only [Keeps.fields] | dsimp only | split

/-- What `cutDma` keeps. -/
theorem cutDma_keeps (hk : Keeps s0 s) (c : Cmd) (status : Nat) : Keeps s0 (cutDma s c status) := by
  unfold cutDma
  repeat' first
    | with_reducible exact hk | with_reducible apply dmaCut_keeps
    | with_reducible apply dropAbort_keeps | with_reducible apply endDma_keeps
    | with_reducible refine Keeps.ite ?_ ?_ | intro _ | dsimp only | split
    | refine Keeps.ofSnd (by assumption) ?_ | refine Keeps.ofFst (by assumption) ?_

/-- What `forgetPost` keeps. -/
theorem forgetPost_keeps (hk : Keeps s0 s) (h : Nat) : Keeps s0 (forgetPost s h) := by
  unfold forgetPost
  repeat' first
    | with_reducible exact hk | with_reducible assumption | with_reducible apply updCq_keeps
    | simp only [Keeps.fields] | with_reducible apply forEach_keeps
    | with_reducible refine Keeps.ite ?_ ?_ | intro _ | dsimp only | split
    | refine Keeps.ofSnd (by assumption) ?_ | refine Keeps.ofFst (by assumption) ?_

/-- What `abortCmd` keeps. -/
theorem abortCmd_keeps (hk : Keeps s0 s) (c : Cmd) : Keeps s0 (abortCmd s c) := by
  unfold abortCmd
  repeat' first
    | with_reducible exact hk | with_reducible assumption | with_reducible apply complete_keeps
    | with_reducible apply forgetPost_keeps | with_reducible apply cutDma_keeps
    | with_reducible apply updSeq_keeps | simp only [Keeps.fields]
    | with_reducible apply forEach_keeps | with_reducible refine Keeps.ite ?_ ?_ | intro _
    | dsimp only | split | refine Keeps.ofSnd (by assumption) ?_
    | refine Keeps.ofFst (by assumption) ?_

/-- What `leaveTest` keeps. -/
theorem leaveTest_keeps (hk : Keeps s0 s) (t : Test) : Keeps s0 (leaveTest s t) := by
  unfold leaveTest
  repeat' first
    | with_reducible exact hk | with_reducible apply updDie_keeps
    | with_reducible apply dropHold_keeps | with_reducible apply setAside_keeps
    | with_reducible apply groupBack_keeps | simp only [Keeps.fields]
    | with_reducible refine Keeps.ite ?_ ?_ | intro _ | dsimp only | split

/-- What `untest` keeps. -/
theorem untest_keeps (hk : Keeps s0 s) (c : Cmd) : Keeps s0 (untest s c) := by
  unfold untest
  repeat' first
    | with_reducible exact hk | with_reducible assumption | with_reducible apply leaveTest_keeps
    | with_reducible apply forEach_keeps | with_reducible refine Keeps.ite ?_ ?_ | intro _
    | dsimp only

/-- What `endPosts` keeps. -/
theorem endPosts_keeps (hk : Keeps s0 s) (p job : Nat) : Keeps s0 (endPosts s p job) := by
  unfold endPosts
  repeat' first
    | with_reducible exact hk | with_reducible assumption | with_reducible apply completeOp_keeps
    | with_reducible apply forEach_keeps | with_reducible refine Keeps.ite ?_ ?_ | intro _
    | dsimp only | split | refine Keeps.ofSnd (by assumption) ?_
    | refine Keeps.ofFst (by assumption) ?_

/-- What `faultJob` keeps. -/
theorem faultJob_keeps (hk : Keeps s0 s) (p j : Nat) : Keeps s0 (faultJob s p j) := by
  unfold faultJob
  repeat' first
    | with_reducible exact hk | with_reducible apply useFree_keeps
    | with_reducible apply takeBatch_keeps | with_reducible apply abortJob_keeps
    | simp only [Keeps.fields] | with_reducible refine Keeps.ite ?_ ?_ | intro _ | dsimp only
    | split | refine Keeps.ofSnd (by assumption) ?_ | refine Keeps.ofFst (by assumption) ?_

/-- What `startAbort` keeps. -/
theorem startAbort_keeps (hk : Keeps s0 s) (p : Nat) (c : Cmd) : Keeps s0 (startAbort s p c) := by
  unfold startAbort
  repeat' first
    | with_reducible exact hk | with_reducible assumption | with_reducible apply complete_keeps
    | with_reducible apply endPosts_keeps | with_reducible apply faultJob_keeps
    | with_reducible apply abortCmd_keeps | with_reducible apply untest_keeps
    | with_reducible apply forEach_keeps | with_reducible refine Keeps.ite ?_ ?_ | intro _
    | dsimp only | split

/-- What `startCmd` keeps. -/
theorem startCmd_keeps (hk : Keeps s0 s) (p n : Nat) (c : Cmd) : Keeps s0 (startCmd s p n c) := by
  unfold startCmd
  repeat' first
    | with_reducible exact hk | with_reducible apply updCmd_keeps
    | with_reducible apply complete_keeps | with_reducible apply startDma_keeps
    | with_reducible apply startSeqRun_keeps | with_reducible apply startAbort_keeps
    | with_reducible apply startTest_keeps | with_reducible apply startWaitFault_keeps
    | simp only [Keeps.fields] | with_reducible refine Keeps.ite ?_ ?_ | intro _ | dsimp only
    | split

/-- What `pumpRound` keeps. -/
theorem pumpRound_keeps (hk : Keeps s0 s) : Keeps s0 (pumpRound s) := by
  unfold pumpRound
  repeat' first
    | with_reducible exact hk | with_reducible assumption | with_reducible apply startCmd_keeps
    | with_reducible apply forEach_keeps | intro _ | dsimp only | split

/-- What `pumpHost` keeps. -/
theorem pumpHost_keeps (hk : Keeps s0 s) (x0 : Nat) : Keeps s0 (pumpHost x0 s) := by
  induction x0 generalizing s with
  | zero => unfold pumpHost; exact hk
  | succ n ih =>
    unfold pumpHost
    repeat' first
      | with_reducible exact hk | with_reducible assumption | with_reducible apply pumpRound_keeps
      | with_reducible apply ih | with_reducible refine Keeps.ite ?_ ?_ | intro _ | dsimp only
      | split

/-- What `settle` keeps. -/
theorem settle_keeps (hk : Keeps s0 s) : Keeps s0 (settle s) := by
  unfold settle
  repeat' first
    | with_reducible exact hk | with_reducible apply takeEvents_keeps
    | with_reducible apply releaseBars_keeps | with_reducible apply flushPosted_keeps
    | with_reducible apply pumpHost_keeps | with_reducible apply pumpDmas_keeps
    | with_reducible apply pumpWaiting_keeps | with_reducible apply startWaiting_keeps
    | with_reducible apply notePending_keeps | with_reducible apply bootWhenDue_keeps
    | with_reducible apply postWaiting_keeps | dsimp only

/-- What `submit` keeps. -/
theorem submit_keeps (hk : Keeps s0 s) (p n : Nat) : Keeps s0 (submit s p n) := by
  unfold submit
  repeat' first
    | with_reducible exact hk | with_reducible apply updCPort_keeps | simp only [Keeps.fields]
    | with_reducible refine Keeps.ite ?_ ?_ | intro _ | dsimp only

/-- What `postFromHost` keeps. -/
theorem postFromHost_keeps (hk : Keeps s0 s) (p n h : Nat) : Keeps s0 (postFromHost s p n h) := by
  unfold postFromHost
  repeat' first
    | with_reducible exact hk | with_reducible apply postOp_keeps | dsimp only

end Sys2Proof.Machine
end

