-- ==== Sys2Proof/Laws/KeepsRegisters.lean ====
section
/-!
SUPPORT. What the operations of Machine/Registers.lean keep (`Keeps`).
-/

namespace Sys2Proof.Machine

variable {s0 s : State}

/-- What `measureField` keeps. -/
theorem measureField_keeps (hk : Keeps s0 s) (slot : Nat) (f : Fld) (top : Nat) : Keeps s0 (measureField s slot f top) := by
  unfold measureField
  repeat' first
    | with_reducible exact hk | with_reducible apply useFree_keeps
    | with_reducible apply wgFree_keeps | dsimp only | split
    | refine Keeps.ofSnd (by assumption) ?_ | refine Keeps.ofFst (by assumption) ?_

/-- What `measurePeak` keeps. -/
theorem measurePeak_keeps (hk : Keeps s0 s) (slot : Nat) (f : Fld) (least top : Nat) : Keeps s0 (measurePeak s slot f least top) := by
  unfold measurePeak
  repeat' first
    | with_reducible exact hk | with_reducible apply useFree_keeps
    | with_reducible apply wgFree_keeps | dsimp only | split
    | refine Keeps.ofSnd (by assumption) ?_ | refine Keeps.ofFst (by assumption) ?_

/-- What `measureTemp` keeps. -/
theorem measureTemp_keeps (hk : Keeps s0 s) (slot : Nat) : Keeps s0 (measureTemp s slot) := by
  unfold measureTemp
  repeat' first
    | with_reducible exact hk | with_reducible apply measureField_keeps
    | with_reducible apply wg_keeps | with_reducible refine Keeps.ite ?_ ?_ | intro _

/-- What `measure` keeps. -/
theorem measure_keeps (hk : Keeps s0 s) (slot off : Nat) : Keeps s0 (measure s slot off) := by
  unfold measure
  repeat' first
    | with_reducible exact hk | with_reducible apply useFree_keeps
    | with_reducible apply measurePeak_keeps | with_reducible apply wgFree_keeps
    | with_reducible apply measureField_keeps | with_reducible apply measureTemp_keeps
    | dsimp only | split | refine Keeps.ofSnd (by assumption) ?_
    | refine Keeps.ofFst (by assumption) ?_

/-- What `sendMsix` keeps. -/
theorem sendMsix_keeps (hk : Keeps s0 s) (p v : Nat) : Keeps s0 (sendMsix s p v) := by
  unfold sendMsix
  repeat' first
    | with_reducible exact hk | simp only [Keeps.fields] | with_reducible refine Keeps.ite ?_ ?_
    | intro _

/-- What `msixWrite` keeps. -/
theorem msixWrite_keeps (hk : Keeps s0 s) (p k val : Nat) : Keeps s0 (msixWrite s p k val) := by
  unfold msixWrite
  repeat' first
    | with_reducible exact hk | with_reducible apply sendMsix_keeps | simp only [Keeps.fields]
    | with_reducible refine Keeps.ite ?_ ?_ | intro _ | dsimp only

/-- What `badAccess` keeps. -/
theorem badAccess_keeps (hk : Keeps s0 s) (r : Requester) : Keeps s0 (badAccess s r) := by
  unfold badAccess
  repeat' first
    | with_reducible exact hk | with_reducible apply raise_keeps | split

/-- What `dropWrite` keeps. -/
theorem dropWrite_keeps (hk : Keeps s0 s) (r : Requester) (off : Nat) : Keeps s0 (dropWrite s r off) := by
  unfold dropWrite
  repeat' first
    | with_reducible exact hk | with_reducible apply incr_keeps | with_reducible apply wg_keeps
    | dsimp only

/-- What `guardedWrite` keeps. -/
theorem guardedWrite_keeps (hk : Keeps s0 s) (r : Requester) (slot off : Nat) (f : State → State) (hf : ∀ t, Keeps s0 t → Keeps s0 (f t)) : Keeps s0 (guardedWrite s r slot off f) := by
  unfold guardedWrite
  repeat' first
    | with_reducible exact hk | with_reducible assumption | with_reducible apply wakeFor_keeps
    | with_reducible apply dropWrite_keeps | with_reducible apply hf
    | with_reducible refine Keeps.ite ?_ ?_ | intro _

/-- What `writeField` keeps. -/
theorem writeField_keeps (hk : Keeps s0 s) (slot val : Nat) (f : Fld) : Keeps s0 (writeField s slot val f) := by
  unfold writeField
  repeat' first
    | with_reducible exact hk | with_reducible apply wg_keeps
    | with_reducible refine Keeps.ite ?_ ?_ | intro _ | dsimp only | split

/-- What `setW1c` keeps. -/
theorem setW1c_keeps (hk : Keeps s0 s) (slot off set : Nat) : Keeps s0 (setW1c s slot off set) := by
  unfold setW1c
  repeat' first
    | with_reducible exact hk | with_reducible assumption | with_reducible apply wg_keeps
    | with_reducible apply forEach_keeps | intro _ | dsimp only | split

/-- What `setSticky` keeps. -/
theorem setSticky_keeps (hk : Keeps s0 s) (slot set : Nat) : Keeps s0 (setSticky s slot set) := by
  unfold setSticky
  repeat' first
    | with_reducible exact hk | with_reducible assumption | with_reducible apply raise_keeps
    | with_reducible apply forEach_keeps | with_reducible refine Keeps.ite ?_ ?_ | intro _
    | dsimp only

/-- What `writeStored` keeps. -/
theorem writeStored_keeps (hk : Keeps s0 s) (slot off val : Nat) : Keeps s0 (writeStored s slot off val) := by
  unfold writeStored
  repeat' first
    | with_reducible exact hk | with_reducible assumption | with_reducible apply writeField_keeps
    | with_reducible apply forEach_keeps | intro _ | dsimp only

/-- What `writeJw` keeps. -/
theorem writeJw_keeps (hk : Keeps s0 s) (f : Jw → Jw) : Keeps s0 (writeJw s f) := by
  unfold writeJw
  repeat' first
    | with_reducible exact hk | simp only [Keeps.fields] | with_reducible refine Keeps.ite ?_ ?_
    | intro _ | dsimp only

/-- What `writePairKey` keeps. -/
theorem writePairKey_keeps (hk : Keeps s0 s) (n val : Nat) : Keeps s0 (writePairKey s n val) := by
  unfold writePairKey
  repeat' first
    | with_reducible exact hk | with_reducible apply wg_keeps | with_reducible apply incr_keeps
    | with_reducible refine Keeps.ite ?_ ?_ | intro _

/-- What `writeQueue` keeps. -/
theorem writeQueue_keeps (hk : Keeps s0 s) (h : Nat) (f : Cq → Cq) : Keeps s0 (writeQueue s h f) := by
  unfold writeQueue
  repeat' first
    | with_reducible exact hk | with_reducible apply updCq_keeps
    | with_reducible refine Keeps.ite ?_ ?_ | intro _ | dsimp only

/-- What `writeRing` keeps. -/
theorem writeRing_keeps (hk : Keeps s0 s) (p : Nat) (f : Ring → Ring) : Keeps s0 (writeRing s p f) := by
  unfold writeRing
  repeat' first
    | with_reducible exact hk | with_reducible apply updRing_keeps
    | with_reducible refine Keeps.ite ?_ ?_ | intro _ | dsimp only

/-- What `specialWrite` keeps. -/
theorem specialWrite_keeps (hk : Keeps s0 s) (slot off val : Nat) : KeepsOpt s0 (specialWrite s slot off val) := by
  unfold specialWrite
  repeat' first
    | with_reducible exact hk | with_reducible apply writeJw_keeps
    | with_reducible apply writePairKey_keeps | with_reducible apply writeStored_keeps
    | with_reducible apply wg_keeps | with_reducible apply writeQueue_keeps
    | with_reducible apply writeRing_keeps | with_reducible exact KeepsOpt.none
    | with_reducible refine KeepsOpt.some ?_ | with_reducible refine KeepsOpt.ite ?_ ?_
    | simp only [Keeps.fields] | with_reducible refine Keeps.ite ?_ ?_ | intro _ | dsimp only
    | split

end Sys2Proof.Machine
end

