-- ==== Sys2Proof/Laws/KeepsHostCmds.lean ====
section
/-!
SUPPORT. What the operations of Machine/HostCmds.lean keep (`Keeps`).
-/

namespace Sys2Proof.Machine

variable {s0 s : State}

/-- What `badSubmit` keeps. -/
theorem badSubmit_keeps (hk : Keeps s0 s) (p : Half) (width : Nat) : Keeps s0 (badSubmit s p width) := by
  unfold badSubmit
  repeat' first
    | with_reducible exact hk | with_reducible apply settle_keeps
    | with_reducible apply badAccess_keeps | simp only [Keeps.fields]
    | with_reducible refine Keeps.ite ?_ ?_ | intro _ | dsimp only

/-- What `submitCmd` keeps. -/
theorem submitCmd_keeps (hk : Keeps s0 s) (p : Half) (n width : Nat) (ok : Nat → Bool) : Keeps s0 (submitCmd s p n width ok) := by
  unfold submitCmd
  repeat' first
    | with_reducible exact hk | with_reducible apply settle_keeps
    | with_reducible apply submit_keeps | with_reducible apply badSubmit_keeps
    | with_reducible refine Keeps.ite ?_ ?_ | intro _

/-- What `execCmdNop` keeps. -/
theorem execCmdNop_keeps (hk : Keeps s0 s) (p : Half) (n : Fin 256) (width : Nat) : KeepsO s0 (execCmdNop p n width s) := by
  unfold execCmdNop
  repeat' first
    | with_reducible exact hk | with_reducible apply submitCmd_keeps
    | with_reducible refine KeepsO.next ?_ | with_reducible refine KeepsO.ite ?_ ?_ | dsimp only
    | split

/-- What `execCmdDma` keeps. -/
theorem execCmdDma_keeps (hk : Keeps s0 s) (p : Half) (n : Fin 256) (width : Nat) : KeepsO s0 (execCmdDma p n width s) := by
  unfold execCmdDma
  repeat' first
    | with_reducible exact hk | with_reducible apply submitCmd_keeps
    | with_reducible refine KeepsO.next ?_ | with_reducible refine KeepsO.ite ?_ ?_ | dsimp only

/-- What `execCmdSeqRun` keeps. -/
theorem execCmdSeqRun_keeps (hk : Keeps s0 s) (p : Half) (n : Fin 256) (width : Nat) : KeepsO s0 (execCmdSeqRun p n width s) := by
  unfold execCmdSeqRun
  repeat' first
    | with_reducible exact hk | with_reducible apply submitCmd_keeps
    | with_reducible refine KeepsO.next ?_ | with_reducible refine KeepsO.ite ?_ ?_ | dsimp only

/-- What `execCmdAbort` keeps. -/
theorem execCmdAbort_keeps (hk : Keeps s0 s) (p : Half) (n : Fin 256) (width : Nat) : KeepsO s0 (execCmdAbort p n width s) := by
  unfold execCmdAbort
  repeat' first
    | with_reducible exact hk | with_reducible apply submitCmd_keeps
    | with_reducible refine KeepsO.next ?_ | with_reducible refine KeepsO.ite ?_ ?_ | dsimp only

/-- What `execCmdTest` keeps. -/
theorem execCmdTest_keeps (hk : Keeps s0 s) (p : Half) (n : Fin 256) (width : Nat) : KeepsO s0 (execCmdTest p n width s) := by
  unfold execCmdTest
  repeat' first
    | with_reducible exact hk | with_reducible apply submitCmd_keeps
    | with_reducible refine KeepsO.next ?_ | with_reducible refine KeepsO.ite ?_ ?_ | dsimp only

/-- What `execCmdWaitFault` keeps. -/
theorem execCmdWaitFault_keeps (hk : Keeps s0 s) (p : Half) (n : Fin 256) (width : Nat) : KeepsO s0 (execCmdWaitFault p n width s) := by
  unfold execCmdWaitFault
  repeat' first
    | with_reducible exact hk | with_reducible apply submitCmd_keeps
    | with_reducible refine KeepsO.next ?_ | with_reducible refine KeepsO.ite ?_ ?_ | dsimp only

/-- What `submitPost` keeps. -/
theorem submitPost_keeps (hk : Keeps s0 s) (p : Half) (n width : Nat) : Keeps s0 (submitPost s p n width) := by
  unfold submitPost
  repeat' first
    | with_reducible exact hk | with_reducible apply badSubmit_keeps
    | with_reducible apply submit_keeps | with_reducible apply settle_keeps
    | with_reducible apply postFromHost_keeps | with_reducible refine Keeps.ite ?_ ?_ | intro _
    | dsimp only

/-- What `execQueuePostHost` keeps. -/
theorem execQueuePostHost_keeps (hk : Keeps s0 s) (p : Half) (n : Fin 256) (width : Nat) : KeepsO s0 (execQueuePostHost p n width s) := by
  unfold execQueuePostHost
  repeat' first
    | with_reducible exact hk | with_reducible apply submitPost_keeps
    | with_reducible refine KeepsO.next ?_ | with_reducible refine KeepsO.ite ?_ ?_

/-- What `submitAny` keeps. -/
theorem submitAny_keeps (hk : Keeps s0 s) (p : Half) (n width : Nat) : Keeps s0 (submitAny s p n width) := by
  unfold submitAny
  repeat' first
    | with_reducible exact hk | with_reducible apply settle_keeps
    | with_reducible apply submit_keeps | with_reducible apply badSubmit_keeps
    | with_reducible apply submitPost_keeps | with_reducible refine Keeps.ite ?_ ?_ | intro _

/-- What `writeRecord` keeps. -/
theorem writeRecord_keeps (hk : Keeps s0 s) (p k : Nat) : Keeps s0 (writeRecord s p k) := by
  unfold writeRecord
  repeat' first
    | with_reducible exact hk | with_reducible apply updRing_keeps
    | with_reducible apply sendMsix_keeps | simp only [Keeps.fields]
    | with_reducible refine Keeps.ite ?_ ?_ | intro _ | dsimp only | split

/-- What `execCompletionRecordWrite` keeps. -/
theorem execCompletionRecordWrite_keeps (hk : Keeps s0 s) (p : Half) (ring : Fin 64) : KeepsO s0 (execCompletionRecordWrite p ring s) := by
  unfold execCompletionRecordWrite
  repeat' first
    | with_reducible exact hk | with_reducible apply writeRecord_keeps
    | with_reducible refine KeepsO.next ?_ | with_reducible refine KeepsO.ite ?_ ?_

/-- What `holdoffEnds` keeps. -/
theorem holdoffEnds_keeps (hk : Keeps s0 s) (p k : Nat) : Keeps s0 (holdoffEnds s p k) := by
  unfold holdoffEnds
  repeat' first
    | with_reducible exact hk | with_reducible apply sendMsix_keeps
    | with_reducible apply updRing_keeps | simp only [Keeps.fields]
    | with_reducible refine Keeps.ite ?_ ?_ | intro _ | dsimp only

/-- What `execMsixHoldoffExpiry` keeps. -/
theorem execMsixHoldoffExpiry_keeps (hk : Keeps s0 s) (p : Half) (ring : Fin 64) : KeepsO s0 (execMsixHoldoffExpiry p ring s) := by
  unfold execMsixHoldoffExpiry
  repeat' first
    | with_reducible exact hk | with_reducible apply holdoffEnds_keeps
    | with_reducible refine KeepsO.next ?_ | with_reducible refine KeepsO.ite ?_ ?_

/-- What `dmaHostData` keeps. -/
theorem dmaHostData_keeps (hk : Keeps s0 s) (p n : Nat) (c : Cmd) (bs : List Byte) : Keeps s0 (dmaHostData s p n c bs) := by
  unfold dmaHostData
  repeat' first
    | with_reducible exact hk | with_reducible apply pumpDma_keeps
    | with_reducible apply updCmd_keeps | with_reducible apply endDma_keeps
    | with_reducible apply dmaStore_keeps | simp only [Keeps.fields]
    | with_reducible refine Keeps.ite ?_ ?_ | intro _ | dsimp only

/-- What `dmaCopy` keeps. -/
theorem dmaCopy_keeps (hk : Keeps s0 s) (c : Cmd) : Keeps s0 (dmaCopy s c) := by
  unfold dmaCopy
  repeat' first
    | with_reducible exact hk | with_reducible apply reportBad_keeps
    | with_reducible apply endDma_keeps | with_reducible apply dmaStore_keeps
    | with_reducible apply useFree_keeps | dsimp only | split
    | refine Keeps.ofSnd (by assumption) ?_ | refine Keeps.ofFst (by assumption) ?_

/-- What `dmaRemoteEnd` keeps. -/
theorem dmaRemoteEnd_keeps (hk : Keeps s0 s) (c : Cmd) : Keeps s0 (dmaRemoteEnd s c) := by
  unfold dmaRemoteEnd
  repeat' first
    | with_reducible exact hk | with_reducible apply endDma_keeps
    | with_reducible refine Keeps.ite ?_ ?_ | intro _

/-- What `finishDma` keeps. -/
theorem finishDma_keeps (hk : Keeps s0 s) (p n : Nat) (a : HostAnswer) : Keeps s0 (finishDma s p n a) := by
  unfold finishDma
  repeat' first
    | with_reducible exact hk | with_reducible apply cutDma_keeps
    | with_reducible apply dmaHostData_keeps | with_reducible apply raise_keeps
    | with_reducible apply dmaRemoteEnd_keeps | with_reducible apply dmaCopy_keeps
    | with_reducible refine Keeps.ite ?_ ?_ | intro _ | split

/-- What `dmaTraffic` keeps. -/
theorem dmaTraffic_keeps (hk : Keeps s0 s) (p n : Nat) : Keeps s0 (dmaTraffic s p n) := by
  unfold dmaTraffic
  repeat' first
    | with_reducible exact hk | with_reducible apply traffic_keeps
    | with_reducible refine Keeps.ite ?_ ?_ | intro _

/-- What `execDmaComplete` keeps. -/
theorem execDmaComplete_keeps (hk : Keeps s0 s) (p : Half) (n : Fin 256) (a : HostAnswer) : KeepsO s0 (execDmaComplete p n a s) := by
  unfold execDmaComplete
  repeat' first
    | with_reducible exact hk | with_reducible apply settle_keeps
    | with_reducible apply finishDma_keeps | with_reducible apply dmaTraffic_keeps
    | with_reducible refine KeepsO.next ?_ | with_reducible refine KeepsO.ite ?_ ?_

/-- What `execBar4Read` keeps. -/
theorem execBar4Read_keeps (hk : Keeps s0 s) (p : Half) (off len : Nat) : KeepsO s0 (execBar4Read p off len s) := by
  unfold execBar4Read
  repeat' first
    | with_reducible exact hk | with_reducible apply settle_keeps
    | with_reducible apply barRead_keeps | with_reducible apply traffic_keeps
    | with_reducible refine KeepsO.next ?_ | with_reducible refine KeepsO.ite ?_ ?_
    | with_reducible refine Keeps.ite ?_ ?_ | intro _

/-- What `execBar4Write` keeps. -/
theorem execBar4Write_keeps (hk : Keeps s0 s) (p : Half) (off : Nat) (data : List Byte) : KeepsO s0 (execBar4Write p off data s) := by
  unfold execBar4Write
  repeat' first
    | with_reducible exact hk | with_reducible apply settle_keeps
    | with_reducible apply barWrite_keeps | with_reducible apply traffic_keeps
    | with_reducible refine KeepsO.next ?_ | with_reducible refine KeepsO.ite ?_ ?_
    | with_reducible refine Keeps.ite ?_ ?_ | intro _

end Sys2Proof.Machine
end

