-- ==== Sys2Proof/Laws/KeepsRemote.lean ====
section
/-!
SUPPORT. What the operations of Machine/Remote.lean keep (`Keeps`).
-/

namespace Sys2Proof.Machine

variable {s0 s : State}

/-- What `takePacket` keeps. -/
theorem takePacket_keeps (hk : Keeps s0 s) (p : Packet) : Keeps s0 (takePacket s p) := by
  unfold takePacket
  repeat' first
    | with_reducible exact hk | simp only [Keeps.fields]

/-- What `respond` keeps. -/
theorem respond_keeps (hk : Keeps s0 s) (p : Packet) (status : Nat) (data : List Byte) : Keeps s0 (respond s p status data) := by
  unfold respond
  repeat' first
    | with_reducible exact hk | simp only [Keeps.fields] | dsimp only | split
    | refine Keeps.ofSnd (by assumption) ?_ | refine Keeps.ofFst (by assumption) ?_

/-- What `performRemote` keeps. -/
theorem performRemote_keeps (hk : Keeps s0 s) (p : Packet) : Keeps s0 (performRemote s p) := by
  unfold performRemote
  repeat' first
    | with_reducible exact hk | with_reducible apply respond_keeps
    | with_reducible apply storeBoth_keeps | with_reducible apply reportBad_keeps
    | with_reducible refine Keeps.ite ?_ ?_ | intro _ | dsimp only | split
    | refine Keeps.ofSnd (by assumption) ?_ | refine Keeps.ofFst (by assumption) ?_

/-- What `performInOrder` keeps. -/
theorem performInOrder_keeps (hk : Keeps s0 s) (x0 : Nat) (x2 : Packet) : Keeps s0 (performInOrder x0 s x2) := by
  induction x0 generalizing s x2 with
  | zero => unfold performInOrder; exact hk
  | succ n ih =>
    unfold performInOrder
    repeat' first
      | with_reducible exact hk | with_reducible assumption
      | with_reducible apply performRemote_keeps | with_reducible apply ih
      | simp only [Keeps.fields] | with_reducible refine Keeps.ite ?_ ?_ | intro _ | dsimp only
      | split

/-- What `remoteArrive` keeps. -/
theorem remoteArrive_keeps (hk : Keeps s0 s) (p : Packet) : Keeps s0 (remoteArrive s p) := by
  unfold remoteArrive
  repeat' first
    | with_reducible exact hk | with_reducible apply performInOrder_keeps
    | with_reducible apply takePacket_keeps | with_reducible apply traffic_keeps
    | simp only [Keeps.fields] | with_reducible refine Keeps.ite ?_ ?_ | intro _ | dsimp only

/-- What `execRemoteLoad` keeps. -/
theorem execRemoteLoad_keeps (hk : Keeps s0 s) (p : Packet) : KeepsO s0 (execRemoteLoad p s) := by
  unfold execRemoteLoad
  repeat' first
    | with_reducible exact hk | with_reducible apply settle_keeps
    | with_reducible apply remoteArrive_keeps | with_reducible refine KeepsO.next ?_
    | with_reducible refine KeepsO.ite ?_ ?_ | with_reducible refine Keeps.ite ?_ ?_ | intro _

/-- What `execRemoteStore` keeps. -/
theorem execRemoteStore_keeps (hk : Keeps s0 s) (p : Packet) : KeepsO s0 (execRemoteStore p s) := by
  unfold execRemoteStore
  repeat' first
    | with_reducible exact hk | with_reducible apply settle_keeps
    | with_reducible apply remoteArrive_keeps | with_reducible refine KeepsO.next ?_
    | with_reducible refine KeepsO.ite ?_ ?_ | with_reducible refine Keeps.ite ?_ ?_ | intro _

/-- What `execRemoteFetchAdd` keeps. -/
theorem execRemoteFetchAdd_keeps (hk : Keeps s0 s) (p : Packet) : KeepsO s0 (execRemoteFetchAdd p s) := by
  unfold execRemoteFetchAdd
  repeat' first
    | with_reducible exact hk | with_reducible apply settle_keeps
    | with_reducible apply remoteArrive_keeps | with_reducible refine KeepsO.next ?_
    | with_reducible refine KeepsO.ite ?_ ?_ | with_reducible refine Keeps.ite ?_ ?_ | intro _

/-- What `dmaMoved` keeps. -/
theorem dmaMoved_keeps (hk : Keeps s0 s) (p n h k : Nat) : Keeps s0 (dmaMoved s p n h k) := by
  unfold dmaMoved
  repeat' first
    | with_reducible exact hk | with_reducible apply updCmd_keeps
    | with_reducible apply countDma_keeps | simp only [Keeps.fields] | dsimp only | split

/-- What `dmaAnswer` keeps. -/
theorem dmaAnswer_keeps (hk : Keeps s0 s) (o : Outstanding) (h code : Nat) (data : List Byte) : Keeps s0 (dmaAnswer s o h code data) := by
  unfold dmaAnswer
  repeat' first
    | with_reducible exact hk | with_reducible apply updCmd_keeps
    | with_reducible apply dmaMoved_keeps | with_reducible apply dmaStore_keeps
    | simp only [Keeps.fields] | with_reducible refine Keeps.ite ?_ ?_ | intro _ | dsimp only
    | split | refine Keeps.ofSnd (by assumption) ?_ | refine Keeps.ofFst (by assumption) ?_

/-- What `barAnswer` keeps. -/
theorem barAnswer_keeps (hk : Keeps s0 s) (p id : Nat) (o : Outstanding) (code : Nat) (data : List Byte) : Keeps s0 (barAnswer s p id o code data) := by
  unfold barAnswer
  repeat' first
    | with_reducible exact hk | with_reducible apply barFail_keeps | simp only [Keeps.fields]
    | with_reducible refine Keeps.ite ?_ ?_ | intro _ | dsimp only | split
    | refine Keeps.ofSnd (by assumption) ?_ | refine Keeps.ofFst (by assumption) ?_

/-- What `endRequest` keeps. -/
theorem endRequest_keeps (hk : Keeps s0 s) (o : Outstanding) (code : Nat) (data : List Byte) : Keeps s0 (endRequest s o code data) := by
  unfold endRequest
  repeat' first
    | with_reducible exact hk | with_reducible apply dmaAnswer_keeps
    | with_reducible apply barAnswer_keeps | with_reducible apply barFail_keeps
    | simp only [Keeps.fields] | with_reducible refine Keeps.ite ?_ ?_ | intro _ | dsimp only
    | split

/-- What `takeResponse` keeps. -/
theorem takeResponse_keeps (hk : Keeps s0 s) (p : Packet) : Keeps s0 (takeResponse s p) := by
  unfold takeResponse
  repeat' first
    | with_reducible exact hk | with_reducible apply takePacket_keeps
    | with_reducible apply endRequest_keeps | with_reducible refine Keeps.ite ?_ ?_ | intro _
    | dsimp only | split

/-- What `execRemoteResponse` keeps. -/
theorem execRemoteResponse_keeps (hk : Keeps s0 s) (p : Packet) : KeepsO s0 (execRemoteResponse p s) := by
  unfold execRemoteResponse
  repeat' first
    | with_reducible exact hk | with_reducible apply settle_keeps
    | with_reducible apply takeResponse_keeps | with_reducible refine KeepsO.next ?_
    | with_reducible refine KeepsO.ite ?_ ?_ | with_reducible refine Keeps.ite ?_ ?_ | intro _

/-- What `requestTimeout` keeps. -/
theorem requestTimeout_keeps (hk : Keeps s0 s) (tag : Nat) : Keeps s0 (requestTimeout s tag) := by
  unfold requestTimeout
  repeat' first
    | with_reducible exact hk | with_reducible apply endRequest_keeps | dsimp only | split

/-- What `execRemoteRequestTimeout` keeps. -/
theorem execRemoteRequestTimeout_keeps (hk : Keeps s0 s) (tag : Nat) : KeepsO s0 (execRemoteRequestTimeout tag s) := by
  unfold execRemoteRequestTimeout
  repeat' first
    | with_reducible exact hk | with_reducible apply settle_keeps
    | with_reducible apply requestTimeout_keeps | with_reducible refine KeepsO.next ?_
    | with_reducible refine KeepsO.ite ?_ ?_

/-- What `takeNack` keeps. -/
theorem takeNack_keeps (hk : Keeps s0 s) (p : Packet) : Keeps s0 (takeNack s p) := by
  unfold takeNack
  repeat' first
    | with_reducible exact hk | with_reducible apply takePacket_keeps
    | with_reducible apply raise_keeps | with_reducible refine Keeps.ite ?_ ?_ | intro _
    | dsimp only

/-- What `execNackReceive` keeps. -/
theorem execNackReceive_keeps (hk : Keeps s0 s) (p : Packet) : KeepsO s0 (execNackReceive p s) := by
  unfold execNackReceive
  repeat' first
    | with_reducible exact hk | with_reducible apply settle_keeps
    | with_reducible apply takeNack_keeps | with_reducible refine KeepsO.next ?_
    | with_reducible refine KeepsO.ite ?_ ?_ | with_reducible refine Keeps.ite ?_ ?_ | intro _

end Sys2Proof.Machine
end

