-- ==== Sys2Proof/Laws/KeepsRouter.lean ====
section
/-!
SUPPORT. What the operations of Machine/Router.lean keep (`Keeps`).
-/

namespace Sys2Proof.Machine

variable {s0 s : State}

/-- What `waitOut` keeps. -/
theorem waitOut_keeps (hk : Keeps s0 s) (port : Nat) (p : Packet) (src : Option (Nat × Packet)) : Keeps s0 (waitOut s port p src) := by
  unfold waitOut
  repeat' first
    | with_reducible exact hk | simp only [Keeps.fields]

/-- What `routeTo` keeps. -/
theorem routeTo_keeps (hk : Keeps s0 s) (p : Packet) (src : Option (Nat × Packet)) : KeepsOpt s0 (routeTo s p src) := by
  unfold routeTo
  repeat' first
    | with_reducible exact hk | with_reducible apply returnCredit_keeps
    | with_reducible apply waitOut_keeps | with_reducible exact KeepsOpt.none
    | with_reducible refine KeepsOpt.some ?_ | with_reducible refine KeepsOpt.ite ?_ ?_
    | simp only [Keeps.fields] | split

/-- What `sendNack` keeps. -/
theorem sendNack_keeps (hk : Keeps s0 s) (p : Packet) (status : Nat) : Keeps s0 (sendNack s p status) := by
  unfold sendNack
  repeat' first
    | with_reducible exact hk | with_reducible apply routeTo_keeps
    | refine (routeTo_keeps ?_ _ _).of _ (by assumption) | with_reducible apply getD_keeps
    | with_reducible apply incr_keeps | with_reducible refine Keeps.ite ?_ ?_ | intro _
    | dsimp only

/-- What `discardRoute` keeps. -/
theorem discardRoute_keeps (hk : Keeps s0 s) (p : Packet) (nack : Bool) : Keeps s0 (discardRoute s p nack) := by
  unfold discardRoute
  repeat' first
    | with_reducible exact hk | with_reducible apply incr_keeps
    | with_reducible apply sendNack_keeps | with_reducible refine Keeps.ite ?_ ?_ | intro _
    | dsimp only

/-- What `routeOut` keeps. -/
theorem routeOut_keeps (hk : Keeps s0 s) (p : Packet) (src : Option (Nat × Packet)) : Keeps s0 (routeOut s p src) := by
  unfold routeOut
  repeat' first
    | with_reducible exact hk | with_reducible apply routeTo_keeps
    | refine (routeTo_keeps ?_ _ _).of _ (by assumption) | with_reducible apply getD_keeps
    | with_reducible apply discardRoute_keeps | with_reducible apply returnCredit_keeps

/-- What `enterRouter` keeps. -/
theorem enterRouter_keeps (hk : Keeps s0 s) (p : Packet) (src : Option (Nat × Packet)) : Keeps s0 (enterRouter s p src) := by
  unfold enterRouter
  repeat' first
    | with_reducible exact hk | with_reducible apply sendNack_keeps
    | with_reducible apply incr_keeps | with_reducible apply returnCredit_keeps
    | with_reducible apply routeOut_keeps | with_reducible refine Keeps.ite ?_ ?_ | intro _
    | split

/-- What `enterCut` keeps. -/
theorem enterCut_keeps (hk : Keeps s0 s) (port : Nat) (x : PartIn) : Keeps s0 (enterCut s port x) := by
  unfold enterCut
  repeat' first
    | with_reducible exact hk | with_reducible apply setLink_keeps | simp only [Keeps.fields]
    | with_reducible refine Keeps.ite ?_ ?_ | intro _ | dsimp only | split

/-- What `packetEnters` keeps. -/
theorem packetEnters_keeps (hk : Keeps s0 s) (src : Option FabPort) (p : Packet) : Keeps s0 (packetEnters s src p) := by
  unfold packetEnters
  repeat' first
    | with_reducible exact hk | with_reducible apply enterRouter_keeps
    | with_reducible apply enterCut_keeps | simp only [Keeps.fields]
    | with_reducible refine Keeps.ite ?_ ?_ | intro _ | split

/-- What `execRouterPacketEnter` keeps. -/
theorem execRouterPacketEnter_keeps (hk : Keeps s0 s) (src : Option FabPort) (p : Packet) : KeepsO s0 (execRouterPacketEnter src p s) := by
  unfold execRouterPacketEnter
  repeat' first
    | with_reducible exact hk | with_reducible apply packetEnters_keeps
    | with_reducible refine KeepsO.next ?_ | with_reducible refine KeepsO.ite ?_ ?_

/-- What `sendFlits` keeps. -/
theorem sendFlits_keeps (hk : Keeps s0 s) (port : Nat) (p : Packet) (fs : List Flit) : Keeps s0 (sendFlits s port p fs) := by
  unfold sendFlits
  repeat' first
    | with_reducible exact hk | with_reducible assumption
    | with_reducible apply sendCodeword_keeps | with_reducible apply forEach_keeps | intro _
    | dsimp only

/-- What `startCut` keeps. -/
theorem startCut_keeps (hk : Keeps s0 s) (w : OutWait) : Keeps s0 (startCut s w) := by
  unfold startCut
  repeat' first
    | with_reducible exact hk | with_reducible apply sendFlits_keeps
    | with_reducible apply setLink_keeps | simp only [Keeps.fields]
    | with_reducible refine Keeps.ite ?_ ?_ | intro _ | dsimp only | split
    | refine Keeps.ofSnd (by assumption) ?_ | refine Keeps.ofFst (by assumption) ?_

/-- What `startOnLink` keeps. -/
theorem startOnLink_keeps (hk : Keeps s0 s) (w : OutWait) : Keeps s0 (startOnLink s w) := by
  unfold startOnLink
  repeat' first
    | with_reducible exact hk | with_reducible apply setLink_keeps
    | with_reducible apply startCut_keeps | with_reducible apply returnCredit_keeps
    | with_reducible apply sendFlits_keeps | simp only [Keeps.fields]
    | with_reducible refine Keeps.ite ?_ ?_ | intro _ | dsimp only

/-- What `linkStart` keeps. -/
theorem linkStart_keeps (hk : Keeps s0 s) (port vc : Nat) (detour : Bool) : Keeps s0 (linkStart s port vc detour) := by
  unfold linkStart
  repeat' first
    | with_reducible exact hk | with_reducible apply startOnLink_keeps
    | with_reducible refine Keeps.ite ?_ ?_ | intro _ | split

/-- What `execPacketLinkStart` keeps. -/
theorem execPacketLinkStart_keeps (hk : Keeps s0 s) (port : FabPort) (vc : Fin 4) (detour : Bool) : KeepsO s0 (execPacketLinkStart port vc detour s) := by
  unfold execPacketLinkStart
  repeat' first
    | with_reducible exact hk | with_reducible apply linkStart_keeps
    | with_reducible refine KeepsO.next ?_ | with_reducible refine KeepsO.ite ?_ ?_

/-- What `resendFrom` keeps. -/
theorem resendFrom_keeps (hk : Keeps s0 s) (port seq : Nat) : Keeps s0 (resendFrom s port seq) := by
  unfold resendFrom
  repeat' first
    | with_reducible exact hk | with_reducible assumption | with_reducible apply putCodeword_keeps
    | with_reducible apply forEach_keeps | intro _ | dsimp only

/-- What `takeLinkFlit` keeps. -/
theorem takeLinkFlit_keeps (hk : Keeps s0 s) (port : Nat) (f : LinkFlit) : Keeps s0 (takeLinkFlit s port f) := by
  unfold takeLinkFlit
  repeat' first
    | with_reducible exact hk | with_reducible apply setLink_keeps
    | with_reducible apply returnCredit_keeps | with_reducible apply dropCut_keeps
    | simp only [Keeps.fields] | dsimp only | split

/-- What `endCut` keeps. -/
theorem endCut_keeps (hk : Keeps s0 s) (port : Nat) (x : PartIn) : Keeps s0 (endCut s port x) := by
  unfold endCut
  repeat' first
    | with_reducible exact hk | with_reducible apply returnCredit_keeps | simp only [Keeps.fields]
    | with_reducible refine Keeps.ite ?_ ?_ | intro _ | dsimp only

/-- What `followFlit` keeps. -/
theorem followFlit_keeps (hk : Keeps s0 s) (x : PartIn) : Keeps s0 (followFlit s x) := by
  unfold followFlit
  repeat' first
    | with_reducible exact hk | with_reducible apply sendFlits_keeps | split
    | refine Keeps.ofSnd (by assumption) ?_ | refine Keeps.ofFst (by assumption) ?_

/-- What `arrivePacket` keeps. -/
theorem arrivePacket_keeps (hk : Keeps s0 s) (port seq : Nat) (p : Packet) : Keeps s0 (arrivePacket s port seq p) := by
  unfold arrivePacket
  repeat' first
    | with_reducible exact hk | simp only [Keeps.fields] | with_reducible refine Keeps.ite ?_ ?_
    | intro _

/-- What `takeFlit` keeps. -/
theorem takeFlit_keeps (hk : Keeps s0 s) (port seq : Nat) (f : Flit) : Keeps s0 (takeFlit s port seq f) := by
  unfold takeFlit
  repeat' first
    | with_reducible exact hk | with_reducible apply arrivePacket_keeps
    | with_reducible apply setLink_keeps | with_reducible apply followFlit_keeps
    | with_reducible apply endCut_keeps | with_reducible apply takeLinkFlit_keeps
    | simp only [Keeps.fields] | with_reducible refine Keeps.ite ?_ ?_ | intro _ | dsimp only
    | split

/-- What `acceptCodeword` keeps. -/
theorem acceptCodeword_keeps (hk : Keeps s0 s) (port : Nat) (cw : Codeword) : Keeps s0 (acceptCodeword s port cw) := by
  unfold acceptCodeword
  repeat' first
    | with_reducible exact hk | with_reducible assumption | with_reducible apply takeFlit_keeps
    | with_reducible apply setLink_keeps | simp only [Keeps.fields]
    | with_reducible apply forEach_keeps | with_reducible refine Keeps.ite ?_ ?_ | intro _
    | dsimp only

/-- What `acceptEarly` keeps. -/
theorem acceptEarly_keeps (hk : Keeps s0 s) (x0 : Nat) (x2 : Nat) : Keeps s0 (acceptEarly x0 s x2) := by
  induction x0 generalizing s x2 with
  | zero => unfold acceptEarly; exact hk
  | succ n ih =>
    unfold acceptEarly
    repeat' first
      | with_reducible exact hk | with_reducible assumption
      | with_reducible apply acceptCodeword_keeps | with_reducible apply setLink_keeps
      | with_reducible apply ih | simp only [Keeps.fields] | intro _ | dsimp only | split

/-- What `takeCodeword` keeps. -/
theorem takeCodeword_keeps (hk : Keeps s0 s) (port : Nat) (cw : Codeword) : Keeps s0 (takeCodeword s port cw) := by
  unfold takeCodeword
  repeat' first
    | with_reducible exact hk | with_reducible apply acceptEarly_keeps
    | with_reducible apply acceptCodeword_keeps | with_reducible apply sendBare_keeps
    | with_reducible apply setLink_keeps | simp only [Keeps.fields]
    | with_reducible refine Keeps.ite ?_ ?_ | intro _ | dsimp only

/-- What `receiveCodeword` keeps. -/
theorem receiveCodeword_keeps (hk : Keeps s0 s) (port : Nat) (cw : Codeword) : Keeps s0 (receiveCodeword s port cw) := by
  unfold receiveCodeword
  repeat' first
    | with_reducible exact hk | with_reducible apply sendBare_keeps
    | with_reducible apply payCredits_keeps | with_reducible apply setLink_keeps
    | with_reducible apply resendFrom_keeps | with_reducible apply takeCodeword_keeps
    | with_reducible refine Keeps.ite ?_ ?_ | intro _ | dsimp only | split

/-- What `execCodewordReceive` keeps. -/
theorem execCodewordReceive_keeps (hk : Keeps s0 s) (port : FabPort) (cw : Codeword) : KeepsO s0 (execCodewordReceive port cw s) := by
  unfold execCodewordReceive
  repeat' first
    | with_reducible exact hk | with_reducible apply receiveCodeword_keeps
    | with_reducible refine KeepsO.next ?_ | with_reducible refine KeepsO.ite ?_ ?_

/-- What `execLinkFlitReceive` keeps. -/
theorem execLinkFlitReceive_keeps (hk : Keeps s0 s) (port : FabPort) (f : SentLinkFlit) : KeepsO s0 (execLinkFlitReceive port f s) := by
  unfold execLinkFlitReceive
  repeat' first
    | with_reducible exact hk | with_reducible apply receiveCodeword_keeps
    | with_reducible refine KeepsO.next ?_ | with_reducible refine KeepsO.ite ?_ ?_

/-- What `rerouteStored` keeps. -/
theorem rerouteStored_keeps (hk : Keeps s0 s) (p : Packet) : Keeps s0 (rerouteStored s p) := by
  unfold rerouteStored
  repeat' first
    | with_reducible exact hk | with_reducible apply incr_keeps
    | with_reducible apply routeOut_keeps | with_reducible refine Keeps.ite ?_ ?_ | intro _

/-- What `portGoesDown` keeps. -/
theorem portGoesDown_keeps (hk : Keeps s0 s) (port : Nat) : Keeps s0 (portGoesDown s port) := by
  unfold portGoesDown
  repeat' first
    | with_reducible exact hk | with_reducible assumption | with_reducible apply unCut_keeps
    | with_reducible apply dropCut_keeps | with_reducible apply setLink_keeps
    | with_reducible apply rerouteStored_keeps | with_reducible apply routeOut_keeps
    | with_reducible apply raise_keeps | simp only [Keeps.fields]
    | with_reducible apply forEach_keeps | with_reducible apply foldl_keeps
    | with_reducible apply foldl_fst_keeps | with_reducible refine Keeps.ite ?_ ?_ | intro _
    | dsimp only

/-- What `execPortDown` keeps. -/
theorem execPortDown_keeps (hk : Keeps s0 s) (port : FabPort) : KeepsO s0 (execPortDown port s) := by
  unfold execPortDown
  repeat' first
    | with_reducible exact hk | with_reducible apply settle_keeps
    | with_reducible apply portGoesDown_keeps | with_reducible refine KeepsO.next ?_
    | with_reducible refine KeepsO.ite ?_ ?_

/-- What `sendAdmin` keeps. -/
theorem sendAdmin_keeps (hk : Keeps s0 s) : Keeps s0 (sendAdmin s) := by
  unfold sendAdmin
  repeat' first
    | with_reducible exact hk | with_reducible assumption | with_reducible apply freeBytes_keeps
    | simp only [Keeps.fields] | with_reducible apply forEach_keeps | intro _ | dsimp only | split
    | refine Keeps.ofSnd (by assumption) ?_ | refine Keeps.ofFst (by assumption) ?_

/-- What `execAdminExchangeSend` keeps. -/
theorem execAdminExchangeSend_keeps (hk : Keeps s0 s) : KeepsO s0 (execAdminExchangeSend s) := by
  unfold execAdminExchangeSend
  repeat' first
    | with_reducible exact hk | with_reducible apply sendAdmin_keeps
    | with_reducible refine KeepsO.next ?_ | with_reducible refine KeepsO.ite ?_ ?_

/-- What `recomputeDetours` keeps. -/
theorem recomputeDetours_keeps (hk : Keeps s0 s) : Keeps s0 (recomputeDetours s) := by
  unfold recomputeDetours
  repeat' first
    | with_reducible exact hk | with_reducible assumption | simp only [Keeps.fields]
    | with_reducible apply foldl_keeps | with_reducible apply foldl_fst_keeps | intro _
    | dsimp only

/-- What `takeAdmin` keeps. -/
theorem takeAdmin_keeps (hk : Keeps s0 s) (port up : Nat) : Keeps s0 (takeAdmin s port up) := by
  unfold takeAdmin
  repeat' first
    | with_reducible exact hk | with_reducible apply recomputeDetours_keeps
    | simp only [Keeps.fields] | with_reducible refine Keeps.ite ?_ ?_ | intro _ | dsimp only
    | split

/-- What `execAdminReceive` keeps. -/
theorem execAdminReceive_keeps (hk : Keeps s0 s) (port : FabPort) (up : Nat) : KeepsO s0 (execAdminReceive port up s) := by
  unfold execAdminReceive
  repeat' first
    | with_reducible exact hk | with_reducible apply takeAdmin_keeps
    | with_reducible refine KeepsO.next ?_ | with_reducible refine KeepsO.ite ?_ ?_

/-- What `detourTimeout` keeps. -/
theorem detourTimeout_keeps (hk : Keeps s0 s) (n : Nat) : Keeps s0 (detourTimeout s n) := by
  unfold detourTimeout
  repeat' first
    | with_reducible exact hk | with_reducible apply discardRoute_keeps
    | with_reducible apply freeWait_keeps | simp only [Keeps.fields]
    | with_reducible refine Keeps.ite ?_ ?_ | intro _ | split

/-- What `execDetourCreditTimeout` keeps. -/
theorem execDetourCreditTimeout_keeps (hk : Keeps s0 s) (n : Nat) : KeepsO s0 (execDetourCreditTimeout n s) := by
  unfold execDetourCreditTimeout
  repeat' first
    | with_reducible exact hk | with_reducible apply detourTimeout_keeps
    | with_reducible refine KeepsO.next ?_ | with_reducible refine KeepsO.ite ?_ ?_

/-- What `waitTimeout` keeps. -/
theorem waitTimeout_keeps (hk : Keeps s0 s) (n : Nat) : Keeps s0 (waitTimeout s n) := by
  unfold waitTimeout
  repeat' first
    | with_reducible exact hk | with_reducible apply discardRoute_keeps
    | with_reducible apply freeWait_keeps | simp only [Keeps.fields] | split

/-- What `execPacketWaitTimeout` keeps. -/
theorem execPacketWaitTimeout_keeps (hk : Keeps s0 s) (n : Nat) : KeepsO s0 (execPacketWaitTimeout n s) := by
  unfold execPacketWaitTimeout
  repeat' first
    | with_reducible exact hk | with_reducible apply waitTimeout_keeps
    | with_reducible refine KeepsO.next ?_ | with_reducible refine KeepsO.ite ?_ ?_

end Sys2Proof.Machine
end

