-- ==== Sys2Proof/Laws/KeepsCollectives.lean ====
section
/-!
SUPPORT. What the operations of Machine/Collectives.lean keep (`Keeps`).
-/

namespace Sys2Proof.Machine

variable {s0 s : State}

/-- What `takeErupt` keeps. -/
theorem takeErupt_keeps (hk : Keeps s0 s) (p : Packet) : Keeps s0 (takeErupt s p) := by
  unfold takeErupt
  repeat' first
    | with_reducible exact hk | with_reducible apply takePacket_keeps
    | with_reducible apply abortJob_keeps | with_reducible apply incr_keeps
    | with_reducible refine Keeps.ite ?_ ?_ | intro _ | dsimp only

/-- What `execEruptReceive` keeps. -/
theorem execEruptReceive_keeps (hk : Keeps s0 s) (p : Packet) : KeepsO s0 (execEruptReceive p s) := by
  unfold execEruptReceive
  repeat' first
    | with_reducible exact hk | with_reducible apply settle_keeps
    | with_reducible apply takeErupt_keeps | with_reducible refine KeepsO.next ?_
    | with_reducible refine KeepsO.ite ?_ ?_ | with_reducible refine Keeps.ite ?_ ?_ | intro _

/-- What `completeAborted` keeps. -/
theorem completeAborted_keeps (hk : Keeps s0 s) (job : Nat) : Keeps s0 (completeAborted s job) := by
  unfold completeAborted
  repeat' first
    | with_reducible exact hk | with_reducible assumption | with_reducible apply completeOp_keeps
    | simp only [Keeps.fields] | with_reducible apply forEach_keeps
    | with_reducible refine Keeps.ite ?_ ?_ | intro _ | dsimp only | split
    | refine Keeps.ofSnd (by assumption) ?_ | refine Keeps.ofFst (by assumption) ?_

/-- What `execQueueAbortComplete` keeps. -/
theorem execQueueAbortComplete_keeps (hk : Keeps s0 s) (job : Nat) : KeepsO s0 (execQueueAbortComplete job s) := by
  unfold execQueueAbortComplete
  repeat' first
    | with_reducible exact hk | with_reducible apply settle_keeps
    | with_reducible apply completeAborted_keeps | with_reducible refine KeepsO.next ?_
    | with_reducible refine KeepsO.ite ?_ ?_

/-- What `takeRed` keeps. -/
theorem takeRed_keeps (hk : Keeps s0 s) (h : Nat) (p : Packet) (mem : List SlotRead) : Keeps s0 (takeRed s h p mem) := by
  unfold takeRed
  repeat' first
    | with_reducible exact hk | with_reducible apply takePacket_keeps
    | with_reducible apply geyError_keeps | with_reducible apply enterSlot_keeps | dsimp only
    | split | refine Keeps.ofSnd (by assumption) ?_ | refine Keeps.ofFst (by assumption) ?_

/-- What `execRedChunkReceive` keeps. -/
theorem execRedChunkReceive_keeps (hk : Keeps s0 s) (h : Half) (x : GeyserPacket) : KeepsO s0 (execRedChunkReceive h x s) := by
  unfold execRedChunkReceive
  repeat' first
    | with_reducible exact hk | with_reducible apply settle_keeps
    | with_reducible apply takeRed_keeps | with_reducible refine KeepsO.next ?_
    | with_reducible refine KeepsO.ite ?_ ?_ | with_reducible refine Keeps.ite ?_ ?_ | intro _
    | dsimp only

/-- What `takeResvGrant` keeps. -/
theorem takeResvGrant_keeps (hk : Keeps s0 s) (p : Packet) (mem : List SlotRead) : Keeps s0 (takeResvGrant s p mem) := by
  unfold takeResvGrant
  repeat' first
    | with_reducible exact hk | with_reducible assumption | with_reducible apply takePacket_keeps
    | with_reducible apply addCredit_keeps | with_reducible apply useCredit_keeps
    | with_reducible apply forEach_keeps | with_reducible refine Keeps.ite ?_ ?_ | intro _
    | dsimp only | split

/-- What `execResvGrantReceive` keeps. -/
theorem execResvGrantReceive_keeps (hk : Keeps s0 s) (x : GeyserPacket) : KeepsO s0 (execResvGrantReceive x s) := by
  unfold execResvGrantReceive
  repeat' first
    | with_reducible exact hk | with_reducible apply settle_keeps
    | with_reducible apply takeResvGrant_keeps | with_reducible refine KeepsO.next ?_
    | with_reducible refine KeepsO.ite ?_ ?_ | with_reducible refine Keeps.ite ?_ ?_ | intro _

/-- What `takeResvCredit` keeps. -/
theorem takeResvCredit_keeps (hk : Keeps s0 s) (p : Packet) (mem : List SlotRead) : Keeps s0 (takeResvCredit s p mem) := by
  unfold takeResvCredit
  repeat' first
    | with_reducible exact hk | with_reducible apply useCredit_keeps
    | with_reducible apply backCredit_keeps | with_reducible apply takePacket_keeps

/-- What `execResvCreditReceive` keeps. -/
theorem execResvCreditReceive_keeps (hk : Keeps s0 s) (x : GeyserPacket) : KeepsO s0 (execResvCreditReceive x s) := by
  unfold execResvCreditReceive
  repeat' first
    | with_reducible exact hk | with_reducible apply settle_keeps
    | with_reducible apply takeResvCredit_keeps | with_reducible refine KeepsO.next ?_
    | with_reducible refine KeepsO.ite ?_ ?_ | with_reducible refine Keeps.ite ?_ ?_ | intro _

/-- What `readTable` keeps. -/
theorem readTable_keeps (hk : Keeps s0 s) (q : Nat) (w : Nat) : Keeps s0 (readTable s q w).1 := by
  unfold readTable
  repeat' first
    | with_reducible exact hk | with_reducible assumption | with_reducible apply readSource_keeps
    | with_reducible apply foldl_keeps | with_reducible apply foldl_fst_keeps | intro _
    | dsimp only | split | refine Keeps.ofSnd (by assumption) ?_
    | refine Keeps.ofFst (by assumption) ?_

/-- What `startOp` keeps. -/
theorem startOp_keeps (hk : Keeps s0 s) (q : Nat) : Keeps s0 (startOp s q) := by
  unfold startOp
  repeat' first
    | with_reducible exact hk | with_reducible apply updOp_keeps
    | with_reducible apply readTable_keeps | with_reducible apply finishOp_keeps
    | with_reducible apply startReduction_keeps | with_reducible apply startTiny_keeps
    | with_reducible apply startTransfer_keeps | simp only [Keeps.fields]
    | with_reducible refine Keeps.ite ?_ ?_ | intro _ | dsimp only | split
    | refine Keeps.ofSnd (by assumption) ?_ | refine Keeps.ofFst (by assumption) ?_

/-- What `execCollOpStart` keeps. -/
theorem execCollOpStart_keeps (hk : Keeps s0 s) (q : Fin 64) : KeepsO s0 (execCollOpStart q s) := by
  unfold execCollOpStart
  repeat' first
    | with_reducible exact hk | with_reducible assumption | with_reducible apply settle_keeps
    | with_reducible apply engineDoes_keeps | with_reducible apply startOp_keeps
    | with_reducible refine KeepsO.next ?_ | with_reducible refine KeepsO.ite ?_ ?_
    | simp only [Keeps.fields] | with_reducible apply forEach_keeps
    | with_reducible apply foldl_keeps | with_reducible apply foldl_fst_keeps
    | with_reducible refine Keeps.ite ?_ ?_ | intro _ | dsimp only | split
    | refine Keeps.ofSnd (by assumption) ?_ | refine Keeps.ofFst (by assumption) ?_

/-- What `finishCollOp` keeps. -/
theorem finishCollOp_keeps (hk : Keeps s0 s) (q id : Nat) : Keeps s0 (finishCollOp s q id) := by
  unfold finishCollOp
  repeat' first
    | with_reducible exact hk | with_reducible apply completeOp_keeps
    | with_reducible refine Keeps.ite ?_ ?_ | intro _ | split

/-- What `execCollOpComplete` keeps. -/
theorem execCollOpComplete_keeps (hk : Keeps s0 s) (q : Fin 64) (op : Nat) : KeepsO s0 (execCollOpComplete q op s) := by
  unfold execCollOpComplete
  repeat' first
    | with_reducible exact hk | with_reducible apply settle_keeps
    | with_reducible apply finishCollOp_keeps | with_reducible refine KeepsO.next ?_
    | with_reducible refine KeepsO.ite ?_ ?_

/-- What `dropMsg` keeps. -/
theorem dropMsg_keeps (hk : Keeps s0 s) (p : Packet) : Keeps s0 (dropMsg s p) := by
  unfold dropMsg
  repeat' first
    | with_reducible exact hk | with_reducible apply discardMsg_keeps

/-- What `holdGrant` keeps. -/
theorem holdGrant_keeps (hk : Keeps s0 s) (q : Nat) (p : Packet) (bytes op : Nat) : Keeps s0 (holdGrant s q p bytes op) := by
  unfold holdGrant
  repeat' first
    | with_reducible exact hk | with_reducible apply raise_keeps | simp only [Keeps.fields]
    | with_reducible refine Keeps.ite ?_ ?_ | intro _

/-- What `takeCts` keeps. -/
theorem takeCts_keeps (hk : Keeps s0 s) (p : Packet) : Keeps s0 (takeCts s p) := by
  unfold takeCts
  repeat' first
    | with_reducible exact hk | with_reducible assumption | with_reducible apply takePacket_keeps
    | with_reducible apply dropMsg_keeps | with_reducible apply engineDoes_keeps
    | with_reducible apply takeGrant_keeps | with_reducible apply holdGrant_keeps
    | simp only [Keeps.fields] | with_reducible apply forEach_keeps
    | with_reducible apply foldl_keeps | with_reducible apply foldl_fst_keeps
    | with_reducible refine Keeps.ite ?_ ?_ | intro _ | dsimp only | split
    | refine Keeps.ofSnd (by assumption) ?_ | refine Keeps.ofFst (by assumption) ?_

/-- What `execCtsReceive` keeps. -/
theorem execCtsReceive_keeps (hk : Keeps s0 s) (p : Packet) : KeepsO s0 (execCtsReceive p s) := by
  unfold execCtsReceive
  repeat' first
    | with_reducible exact hk | with_reducible apply settle_keeps
    | with_reducible apply takeCts_keeps | with_reducible refine KeepsO.next ?_
    | with_reducible refine KeepsO.ite ?_ ?_ | with_reducible refine Keeps.ite ?_ ?_ | intro _

/-- What `takeDataPacket` keeps. -/
theorem takeDataPacket_keeps (hk : Keeps s0 s) (p : Packet) : Keeps s0 (takeDataPacket s p) := by
  unfold takeDataPacket
  repeat' first
    | with_reducible exact hk | with_reducible assumption | with_reducible apply takePacket_keeps
    | with_reducible apply dropMsg_keeps | with_reducible apply engineDoes_keeps
    | with_reducible apply takeData_keeps | simp only [Keeps.fields]
    | with_reducible apply forEach_keeps | with_reducible apply foldl_keeps
    | with_reducible apply foldl_fst_keeps | with_reducible refine Keeps.ite ?_ ?_ | intro _
    | dsimp only | split | refine Keeps.ofSnd (by assumption) ?_
    | refine Keeps.ofFst (by assumption) ?_

/-- What `execMsgDataReceive` keeps. -/
theorem execMsgDataReceive_keeps (hk : Keeps s0 s) (p : Packet) : KeepsO s0 (execMsgDataReceive p s) := by
  unfold execMsgDataReceive
  repeat' first
    | with_reducible exact hk | with_reducible apply settle_keeps
    | with_reducible apply takeDataPacket_keeps | with_reducible refine KeepsO.next ?_
    | with_reducible refine KeepsO.ite ?_ ?_ | with_reducible refine Keeps.ite ?_ ?_ | intro _

/-- What `takeDonePacket` keeps. -/
theorem takeDonePacket_keeps (hk : Keeps s0 s) (p : Packet) : Keeps s0 (takeDonePacket s p) := by
  unfold takeDonePacket
  repeat' first
    | with_reducible exact hk | with_reducible assumption | with_reducible apply takePacket_keeps
    | with_reducible apply dropMsg_keeps | with_reducible apply engineDoes_keeps
    | with_reducible apply takeDone_keeps | with_reducible simp only [id]
    | simp only [Keeps.fields] | with_reducible apply forEach_keeps
    | with_reducible apply foldl_keeps | with_reducible apply foldl_fst_keeps
    | with_reducible refine Keeps.ite ?_ ?_ | intro _ | dsimp only | split
    | refine Keeps.ofSnd (by assumption) ?_ | refine Keeps.ofFst (by assumption) ?_

/-- What `execMsgDoneReceive` keeps. -/
theorem execMsgDoneReceive_keeps (hk : Keeps s0 s) (p : Packet) : KeepsO s0 (execMsgDoneReceive p s) := by
  unfold execMsgDoneReceive
  repeat' first
    | with_reducible exact hk | with_reducible apply settle_keeps
    | with_reducible apply takeDonePacket_keeps | with_reducible refine KeepsO.next ?_
    | with_reducible refine KeepsO.ite ?_ ?_ | with_reducible refine Keeps.ite ?_ ?_ | intro _

/-- What `takeResultPacket` keeps. -/
theorem takeResultPacket_keeps (hk : Keeps s0 s) (p : Packet) : Keeps s0 (takeResultPacket s p) := by
  unfold takeResultPacket
  repeat' first
    | with_reducible exact hk | with_reducible assumption | with_reducible apply takePacket_keeps
    | with_reducible apply dropMsg_keeps | with_reducible apply engineDoes_keeps
    | with_reducible apply takeResult_keeps | simp only [Keeps.fields]
    | with_reducible apply forEach_keeps | with_reducible apply foldl_keeps
    | with_reducible apply foldl_fst_keeps | with_reducible refine Keeps.ite ?_ ?_ | intro _
    | dsimp only | split | refine Keeps.ofSnd (by assumption) ?_
    | refine Keeps.ofFst (by assumption) ?_

/-- What `execMsgResultReceive` keeps. -/
theorem execMsgResultReceive_keeps (hk : Keeps s0 s) (p : Packet) : KeepsO s0 (execMsgResultReceive p s) := by
  unfold execMsgResultReceive
  repeat' first
    | with_reducible exact hk | with_reducible apply settle_keeps
    | with_reducible apply takeResultPacket_keeps | with_reducible refine KeepsO.next ?_
    | with_reducible refine KeepsO.ite ?_ ?_ | with_reducible refine Keeps.ite ?_ ?_ | intro _

/-- What `takeFum` keeps. -/
theorem takeFum_keeps (hk : Keeps s0 s) (p : Packet) : Keeps s0 (takeFum s p) := by
  unfold takeFum
  repeat' first
    | with_reducible exact hk | with_reducible assumption | with_reducible apply takePacket_keeps
    | with_reducible apply engineDoes_keeps | with_reducible apply tinyArrive_keeps
    | with_reducible apply tinyDown_keeps | simp only [Keeps.fields]
    | with_reducible apply forEach_keeps | with_reducible apply foldl_keeps
    | with_reducible apply foldl_fst_keeps | with_reducible refine Keeps.ite ?_ ?_ | intro _
    | dsimp only | split | refine Keeps.ofSnd (by assumption) ?_
    | refine Keeps.ofFst (by assumption) ?_

/-- What `execFumReceive` keeps. -/
theorem execFumReceive_keeps (hk : Keeps s0 s) (p : Packet) : KeepsO s0 (execFumReceive p s) := by
  unfold execFumReceive
  repeat' first
    | with_reducible exact hk | with_reducible apply settle_keeps
    | with_reducible apply takeFum_keeps | with_reducible refine KeepsO.next ?_
    | with_reducible refine KeepsO.ite ?_ ?_ | with_reducible refine Keeps.ite ?_ ?_ | intro _

/-- What `enableQueue` keeps. -/
theorem enableQueue_keeps (hk : Keeps s0 s) (q val : Nat) : Keeps s0 (enableQueue s q val) := by
  unfold enableQueue
  repeat' first
    | with_reducible exact hk | with_reducible apply updCq_keeps | simp only [Keeps.fields]
    | with_reducible refine Keeps.ite ?_ ?_ | intro _ | dsimp only

/-- What `disableQueue` keeps. -/
theorem disableQueue_keeps (hk : Keeps s0 s) (q val : Nat) : Keeps s0 (disableQueue s q val) := by
  unfold disableQueue
  repeat' first
    | with_reducible exact hk | with_reducible apply updCq_keeps | simp only [Keeps.fields]
    | with_reducible refine Keeps.ite ?_ ?_ | intro _ | dsimp only

/-- What `writeQCfg` keeps. -/
theorem writeQCfg_keeps (hk : Keeps s0 s) (r : Requester) (h val : Nat) (en : Bool) : Keeps s0 (writeQCfg s r h val en) := by
  unfold writeQCfg
  repeat' first
    | with_reducible exact hk | with_reducible assumption
    | with_reducible apply guardedWrite_keeps | with_reducible apply enableQueue_keeps
    | with_reducible apply disableQueue_keeps | with_reducible refine Keeps.ite ?_ ?_ | intro _
    | dsimp only

/-- What `execQueueEnable` keeps. -/
theorem execQueueEnable_keeps (hk : Keeps s0 s) (r : Requester) (h : Half) (val : BitVec 32) : KeepsO s0 (execQueueEnable r h val s) := by
  unfold execQueueEnable
  repeat' first
    | with_reducible exact hk | with_reducible apply settle_keeps
    | with_reducible apply writeQCfg_keeps | with_reducible refine KeepsO.next ?_
    | with_reducible refine KeepsO.ite ?_ ?_

/-- What `execQueueDisable` keeps. -/
theorem execQueueDisable_keeps (hk : Keeps s0 s) (r : Requester) (h : Half) (val : BitVec 32) : KeepsO s0 (execQueueDisable r h val s) := by
  unfold execQueueDisable
  repeat' first
    | with_reducible exact hk | with_reducible apply settle_keeps
    | with_reducible apply writeQCfg_keeps | with_reducible refine KeepsO.next ?_
    | with_reducible refine KeepsO.ite ?_ ?_

/-- What `setQuota` keeps. -/
theorem setQuota_keeps (hk : Keeps s0 s) (h val : Nat) : Keeps s0 (setQuota s h val) := by
  unfold setQuota
  repeat' first
    | with_reducible exact hk | with_reducible apply updGeyser_keeps | simp only [Keeps.fields]
    | with_reducible refine Keeps.ite ?_ ?_ | intro _ | dsimp only

/-- What `writeQuota` keeps. -/
theorem writeQuota_keeps (hk : Keeps s0 s) (r : Requester) (h val : Nat) : Keeps s0 (writeQuota s r h val) := by
  unfold writeQuota
  repeat' first
    | with_reducible exact hk | with_reducible assumption
    | with_reducible apply guardedWrite_keeps | with_reducible apply setQuota_keeps | intro _
    | dsimp only

/-- What `execGqQuotaWrite` keeps. -/
theorem execGqQuotaWrite_keeps (hk : Keeps s0 s) (r : Requester) (h : Half) (val : BitVec 32) : KeepsO s0 (execGqQuotaWrite r h val s) := by
  unfold execGqQuotaWrite
  repeat' first
    | with_reducible exact hk | with_reducible apply settle_keeps
    | with_reducible apply writeQuota_keeps | with_reducible refine KeepsO.next ?_
    | with_reducible refine KeepsO.ite ?_ ?_

/-- What `forgetEpoch` keeps. -/
theorem forgetEpoch_keeps (hk : Keeps s0 s) (j : Nat) : Keeps s0 (forgetEpoch s j) := by
  unfold forgetEpoch
  repeat' first
    | with_reducible exact hk | simp only [Keeps.fields] | dsimp only

/-- What `setJobData` keeps. -/
theorem setJobData_keeps (hk : Keeps s0 s) (val : Nat) : Keeps s0 (setJobData s val) := by
  unfold setJobData
  repeat' first
    | with_reducible exact hk | with_reducible apply forgetEpoch_keeps
    | with_reducible apply restoreLobes_keeps | with_reducible apply setJob_keeps
    | with_reducible refine Keeps.ite ?_ ?_ | intro _ | dsimp only

/-- What `writeJobData` keeps. -/
theorem writeJobData_keeps (hk : Keeps s0 s) (r : Requester) (val : Nat) : Keeps s0 (writeJobData s r val) := by
  unfold writeJobData
  repeat' first
    | with_reducible exact hk | with_reducible assumption
    | with_reducible apply guardedWrite_keeps | with_reducible apply setJobData_keeps | intro _
    | dsimp only

/-- What `execJobDataWrite` keeps. -/
theorem execJobDataWrite_keeps (hk : Keeps s0 s) (r : Requester) (val : BitVec 32) : KeepsO s0 (execJobDataWrite r val s) := by
  unfold execJobDataWrite
  repeat' first
    | with_reducible exact hk | with_reducible apply settle_keeps
    | with_reducible apply writeJobData_keeps | with_reducible refine KeepsO.next ?_
    | with_reducible refine KeepsO.ite ?_ ?_

/-- What `setRtData` keeps. -/
theorem setRtData_keeps (hk : Keeps s0 s) (val : Nat) : Keeps s0 (setRtData s val) := by
  unfold setRtData
  repeat' first
    | with_reducible exact hk | simp only [Keeps.fields] | with_reducible refine Keeps.ite ?_ ?_
    | intro _ | dsimp only

/-- What `writeRtData` keeps. -/
theorem writeRtData_keeps (hk : Keeps s0 s) (r : Requester) (val : Nat) : Keeps s0 (writeRtData s r val) := by
  unfold writeRtData
  repeat' first
    | with_reducible exact hk | with_reducible assumption
    | with_reducible apply guardedWrite_keeps | with_reducible apply setRtData_keeps | intro _
    | dsimp only

/-- What `execRtDataWrite` keeps. -/
theorem execRtDataWrite_keeps (hk : Keeps s0 s) (r : Requester) (val : BitVec 32) : KeepsO s0 (execRtDataWrite r val s) := by
  unfold execRtDataWrite
  repeat' first
    | with_reducible exact hk | with_reducible apply settle_keeps
    | with_reducible apply writeRtData_keeps | with_reducible refine KeepsO.next ?_
    | with_reducible refine KeepsO.ite ?_ ?_

end Sys2Proof.Machine
end

