-- ==== Sys2Proof/Laws/KeepsTiles.lean ====
section
/-!
SUPPORT. What the operations of Machine/Tiles.lean keep (`Keeps`).
-/

namespace Sys2Proof.Machine

variable {s0 s : State}

/-- What `execTaskDispatch` keeps. -/
theorem execTaskDispatch_keeps (hk : Keeps s0 s) (d : Die) : KeepsO s0 (execTaskDispatch d s) := by
  unfold execTaskDispatch
  repeat' first
    | with_reducible exact hk | with_reducible apply settle_keeps
    | with_reducible apply dispatchTask_keeps | with_reducible apply checkDie_keeps
    | with_reducible refine KeepsO.next ?_ | with_reducible refine KeepsO.ite ?_ ?_
    | with_reducible refine Keeps.ite ?_ ?_ | intro _ | split

/-- What `holdTask` keeps. -/
theorem holdTask_keeps (hk : Keeps s0 s) (d c t : Nat) (k : LiveTask) (r : RunTask) : Keeps s0 (holdTask s d c t k r) := by
  unfold holdTask
  repeat' first
    | with_reducible exact hk | with_reducible apply updLive_keeps
    | with_reducible apply scratchUsed_keeps | with_reducible apply setTile_keeps
    | simp only [Keeps.fields] | dsimp only

/-- What `startTask` keeps. -/
theorem startTask_keeps (hk : Keeps s0 s) (d : Die) (c : Cluster) (t : TileIx) (k : LiveTask) : Keeps s0 (startTask s d c t k) := by
  unfold startTask
  repeat' first
    | with_reducible exact hk | with_reducible apply checkErrs_keeps
    | with_reducible apply holdTask_keeps | with_reducible apply raise_keeps
    | with_reducible apply endBadTask_keeps | simp only [Keeps.fields]
    | with_reducible refine Keeps.ite ?_ ?_ | intro _ | dsimp only | split
    | refine Keeps.ofSnd (by assumption) ?_ | refine Keeps.ofFst (by assumption) ?_

/-- What `takeTask` keeps. -/
theorem takeTask_keeps (hk : Keeps s0 s) (d : Die) (c : Cluster) (t : TileIx) : Keeps s0 (takeTask s d c t) := by
  unfold takeTask
  repeat' first
    | with_reducible exact hk | with_reducible apply retire_keeps
    | with_reducible apply setQueue_keeps | with_reducible apply incr_keeps
    | with_reducible apply startTask_keeps | with_reducible refine Keeps.ite ?_ ?_ | intro _
    | dsimp only | split | refine Keeps.ofSnd (by assumption) ?_
    | refine Keeps.ofFst (by assumption) ?_

/-- What `execTaskTake` keeps. -/
theorem execTaskTake_keeps (hk : Keeps s0 s) (d : Die) (c : Cluster) (t : TileIx) : KeepsO s0 (execTaskTake d c t s) := by
  unfold execTaskTake
  repeat' first
    | with_reducible exact hk | with_reducible apply settle_keeps
    | with_reducible apply takeTask_keeps | with_reducible refine KeepsO.next ?_
    | with_reducible refine KeepsO.ite ?_ ?_ | with_reducible refine Keeps.ite ?_ ?_ | intro _

/-- What `taskRead` keeps. -/
theorem taskRead_keeps (hk : Keeps s0 s) (d : Die) (c : Cluster) (t : TileIx) (k : LiveTask) (r : RunTask) : Keeps s0 (taskRead s d c t k r).1 := by
  unfold taskRead
  repeat' first
    | with_reducible exact hk | with_reducible apply checkErrs_keeps
    | with_reducible refine Keeps.ite ?_ ?_ | intro _ | dsimp only | split
    | refine Keeps.ofSnd (by assumption) ?_ | refine Keeps.ofFst (by assumption) ?_

/-- What `taskProgress` keeps. -/
theorem taskProgress_keeps (hk : Keeps s0 s) (d c t : Nat) (r : RunTask) : Keeps s0 (taskProgress s d c t r) := by
  unfold taskProgress
  repeat' first
    | with_reducible exact hk | with_reducible apply progress_keeps
    | with_reducible apply traffic_keeps | with_reducible refine Keeps.ite ?_ ?_ | intro _
    | dsimp only

/-- What `completeTask` keeps. -/
theorem completeTask_keeps (hk : Keeps s0 s) (d c t : Nat) (k : LiveTask) (r : RunTask) : Keeps s0 (completeTask s d c t k r) := by
  unfold completeTask
  repeat' first
    | with_reducible exact hk | with_reducible assumption | with_reducible apply writeMap_keeps
    | with_reducible apply countCensus_keeps | with_reducible apply incr_keeps
    | with_reducible apply updPhase_keeps | with_reducible apply writeTaskStatus_keeps
    | with_reducible apply raise_keeps | with_reducible apply taskProgress_keeps
    | with_reducible apply dropTask_keeps | with_reducible apply afterTask_keeps
    | with_reducible apply endLive_keeps | simp only [Keeps.fields]
    | with_reducible apply forEach_keeps | with_reducible refine Keeps.ite ?_ ?_ | intro _
    | dsimp only | split | refine Keeps.ofSnd (by assumption) ?_
    | refine Keeps.ofFst (by assumption) ?_

/-- What `execTaskComplete` keeps. -/
theorem execTaskComplete_keeps (hk : Keeps s0 s) (d : Die) (c : Cluster) (t : TileIx) : KeepsO s0 (execTaskComplete d c t s) := by
  unfold execTaskComplete
  repeat' first
    | with_reducible exact hk | with_reducible apply taskRead_keeps
    | with_reducible apply settle_keeps | with_reducible apply spoilTask_keeps
    | with_reducible apply completeTask_keeps | with_reducible refine KeepsO.next ?_
    | with_reducible refine KeepsO.ite ?_ ?_ | with_reducible refine Keeps.ite ?_ ?_ | intro _
    | split | refine Keeps.ofSnd (by assumption) ?_ | refine Keeps.ofFst (by assumption) ?_

/-- What `execTileClockGate` keeps. -/
theorem execTileClockGate_keeps (hk : Keeps s0 s) (d : Die) (c : Cluster) (t : TileIx) : KeepsO s0 (execTileClockGate d c t s) := by
  unfold execTileClockGate
  repeat' first
    | with_reducible exact hk | with_reducible apply setTile_keeps
    | with_reducible refine KeepsO.next ?_ | with_reducible refine KeepsO.ite ?_ ?_
    | simp only [Keeps.fields] | with_reducible refine Keeps.ite ?_ ?_ | intro _

/-- What `execTileRestart` keeps. -/
theorem execTileRestart_keeps (hk : Keeps s0 s) (d : Die) (c : Cluster) (t : TileIx) : KeepsO s0 (execTileRestart d c t s) := by
  unfold execTileRestart
  repeat' first
    | with_reducible exact hk | with_reducible apply setTile_keeps
    | with_reducible refine KeepsO.next ?_ | with_reducible refine KeepsO.ite ?_ ?_
    | simp only [Keeps.fields] | with_reducible refine Keeps.ite ?_ ?_ | intro _ | dsimp only

/-- What `execClusterGroupGate` keeps. -/
theorem execClusterGroupGate_keeps (hk : Keeps s0 s) (d : Die) (g : Group) : KeepsO s0 (execClusterGroupGate d g s) := by
  unfold execClusterGroupGate
  repeat' first
    | with_reducible exact hk | with_reducible apply wg_keeps
    | with_reducible refine KeepsO.next ?_ | with_reducible refine KeepsO.ite ?_ ?_
    | with_reducible refine Keeps.ite ?_ ?_ | intro _ | dsimp only

/-- What `groupReadyNow` keeps. -/
theorem groupReadyNow_keeps (hk : Keeps s0 s) (d g : Nat) : Keeps s0 (groupReadyNow s d g) := by
  unfold groupReadyNow
  repeat' first
    | with_reducible exact hk | simp only [Keeps.fields] | with_reducible refine Keeps.ite ?_ ?_
    | intro _ | dsimp only

/-- What `execClusterGroupReady` keeps. -/
theorem execClusterGroupReady_keeps (hk : Keeps s0 s) (d : Die) (g : Group) : KeepsO s0 (execClusterGroupReady d g s) := by
  unfold execClusterGroupReady
  repeat' first
    | with_reducible exact hk | with_reducible apply groupReadyNow_keeps
    | with_reducible refine KeepsO.next ?_ | with_reducible refine KeepsO.ite ?_ ?_
    | with_reducible refine Keeps.ite ?_ ?_ | intro _

/-- What `remap` keeps. -/
theorem remap_keeps (hk : Keeps s0 s) (d from_ into : Nat) : Keeps s0 (remap s d from_ into) := by
  unfold remap
  repeat' first
    | with_reducible exact hk | with_reducible assumption | with_reducible apply wg_keeps
    | with_reducible apply forEach_keeps | with_reducible refine Keeps.ite ?_ ?_ | intro _
    | dsimp only

/-- What `startRotation` keeps. -/
theorem startRotation_keeps (hk : Keeps s0 s) (d out : Nat) : Keeps s0 (startRotation s d out) := by
  unfold startRotation
  repeat' first
    | with_reducible exact hk | with_reducible apply updDie_keeps | with_reducible apply wg_keeps
    | with_reducible apply remap_keeps | with_reducible apply wakeServer_keeps
    | simp only [Keeps.fields] | with_reducible refine Keeps.ite ?_ ?_ | intro _ | dsimp only
    | split

/-- What `execRotationStart` keeps. -/
theorem execRotationStart_keeps (hk : Keeps s0 s) (d : Die) : KeepsO s0 (execRotationStart d s) := by
  unfold execRotationStart
  repeat' first
    | with_reducible exact hk | with_reducible apply startRotation_keeps
    | with_reducible refine KeepsO.next ?_ | with_reducible refine KeepsO.ite ?_ ?_
    | with_reducible refine Keeps.ite ?_ ?_ | intro _ | split

/-- What `noSpare` keeps. -/
theorem noSpare_keeps (hk : Keeps s0 s) (d : Nat) : Keeps s0 (noSpare s d) := by
  unfold noSpare
  repeat' first
    | with_reducible exact hk | with_reducible apply wg_keeps | with_reducible apply updDie_keeps
    | simp only [Keeps.fields] | dsimp only

/-- What `endRotation` keeps. -/
theorem endRotation_keeps (hk : Keeps s0 s) (d : Nat) (r : Rotation) : Keeps s0 (endRotation s d r) := by
  unfold endRotation
  repeat' first
    | with_reducible exact hk | with_reducible apply updDie_keeps
    | with_reducible apply noSpare_keeps | with_reducible apply wg_keeps
    | simp only [Keeps.fields] | with_reducible refine Keeps.ite ?_ ?_ | intro _ | dsimp only

/-- What `execRotationComplete` keeps. -/
theorem execRotationComplete_keeps (hk : Keeps s0 s) (d : Die) : KeepsO s0 (execRotationComplete d s) := by
  unfold execRotationComplete
  repeat' first
    | with_reducible exact hk | with_reducible apply endRotation_keeps
    | with_reducible refine KeepsO.next ?_ | with_reducible refine KeepsO.ite ?_ ?_
    | with_reducible refine Keeps.ite ?_ ?_ | intro _ | split

/-- What `markCluster` keeps. -/
theorem markCluster_keeps (hk : Keeps s0 s) (d c : Nat) : Keeps s0 (markCluster s d c) := by
  unfold markCluster
  repeat' first
    | with_reducible exact hk | with_reducible apply wg_keeps
    | with_reducible refine Keeps.ite ?_ ?_ | intro _

/-- What `failSpare` keeps. -/
theorem failSpare_keeps (hk : Keeps s0 s) (d c : Nat) : Keeps s0 (failSpare s d c) := by
  unfold failSpare
  repeat' first
    | with_reducible exact hk | with_reducible apply raise_keeps
    | with_reducible apply noSpare_keeps | with_reducible apply markCluster_keeps

/-- What `execOnlineTestPassEnd` keeps. -/
theorem execOnlineTestPassEnd_keeps (hk : Keeps s0 s) (d : Die) (pass : Bool) : KeepsO s0 (execOnlineTestPassEnd d pass s) := by
  unfold execOnlineTestPassEnd
  repeat' first
    | with_reducible exact hk | with_reducible apply updDie_keeps | with_reducible apply wg_keeps
    | with_reducible apply settle_keeps | with_reducible apply failSpare_keeps
    | with_reducible refine KeepsO.next ?_ | with_reducible refine KeepsO.ite ?_ ?_
    | simp only [Keeps.fields] | with_reducible refine Keeps.ite ?_ ?_ | intro _ | dsimp only

/-- What `mapOrphans` keeps. -/
theorem mapOrphans_keeps (hk : Keeps s0 s) (d : Nat) : Keeps s0 (mapOrphans s d) := by
  unfold mapOrphans
  repeat' first
    | with_reducible exact hk | with_reducible assumption | with_reducible apply wg_keeps
    | with_reducible apply forEach_keeps | intro _ | dsimp only | split

/-- What `moveQueue` keeps. -/
theorem moveQueue_keeps (hk : Keeps s0 s) (d from_ into : Nat) : Keeps s0 (moveQueue s d from_ into) := by
  unfold moveQueue
  repeat' first
    | with_reducible exact hk | with_reducible apply setQueue_keeps
    | with_reducible apply wakeServer_keeps | with_reducible refine Keeps.ite ?_ ?_ | intro _
    | dsimp only

/-- What `orphan` keeps. -/
theorem orphan_keeps (hk : Keeps s0 s) (d c : Nat) : Keeps s0 (orphan s d c) := by
  unfold orphan
  repeat' first
    | with_reducible exact hk | with_reducible apply mapOrphans_keeps
    | with_reducible apply updDie_keeps | with_reducible apply moveQueue_keeps
    | simp only [Keeps.fields] | dsimp only | split

/-- What `dropIncoming` keeps. -/
theorem dropIncoming_keeps (hk : Keeps s0 s) (d c : Nat) : Keeps s0 (dropIncoming s d c) := by
  unfold dropIncoming
  repeat' first
    | with_reducible exact hk | with_reducible apply endRotation_keeps
    | with_reducible apply moveQueue_keeps | with_reducible refine Keeps.ite ?_ ?_ | intro _
    | split

/-- What `fenceTile` keeps. -/
theorem fenceTile_keeps (hk : Keeps s0 s) (d c t : Nat) : Keeps s0 (fenceTile s d c t) := by
  unfold fenceTile
  repeat' first
    | with_reducible exact hk | with_reducible apply requeue_keeps
    | with_reducible apply writeTaskStatus_keeps | with_reducible apply abortTask_keeps
    | with_reducible apply endFailed_keeps | with_reducible apply markFailed_keeps
    | with_reducible apply dropTask_keeps | with_reducible apply setTile_keeps
    | simp only [Keeps.fields] | with_reducible refine Keeps.ite ?_ ?_ | intro _ | dsimp only
    | split

/-- What `fenceCluster` keeps. -/
theorem fenceCluster_keeps (hk : Keeps s0 s) (d c : Nat) : Keeps s0 (fenceCluster s d c) := by
  unfold fenceCluster
  repeat' first
    | with_reducible exact hk | with_reducible assumption | with_reducible apply failSpare_keeps
    | with_reducible apply markCluster_keeps | with_reducible apply startRotation_keeps
    | with_reducible apply dropIncoming_keeps | with_reducible apply orphan_keeps
    | with_reducible apply fenceTile_keeps | with_reducible apply raise_keeps
    | with_reducible apply fenceLobe_keeps | with_reducible exact id
    | with_reducible exact mwf_mkeep _ _ _ | with_reducible exact fun _ => mwf_nil _
    | with_reducible exact Nat.le_refl _ | with_reducible exact Nat.le_add_right _ _
    | with_reducible exact keysUp_filter _ _ | with_reducible exact keysUp_mkeep _ _
    | with_reducible rfl | with_reducible apply forEach_keeps
    | with_reducible refine Keeps.ite ?_ ?_ | intro _ | dsimp only
    | with_reducible apply Keeps.change

/-- What `execClusterFence` keeps. -/
theorem execClusterFence_keeps (hk : Keeps s0 s) (d : Die) (c : Cluster) : KeepsO s0 (execClusterFence d c s) := by
  unfold execClusterFence
  repeat' first
    | with_reducible exact hk | with_reducible apply settle_keeps
    | with_reducible apply fenceCluster_keeps | with_reducible refine KeepsO.next ?_
    | with_reducible refine KeepsO.ite ?_ ?_ | with_reducible refine Keeps.ite ?_ ?_ | intro _

/-- What `clearCensus` keeps. -/
theorem clearCensus_keeps (hk : Keeps s0 s) (d : Nat) : Keeps s0 (clearCensus s d) := by
  unfold clearCensus
  repeat' first
    | with_reducible exact hk | simp only [Keeps.fields] | dsimp only
    | refine Keeps.ofSnd (by assumption) ?_ | refine Keeps.ofFst (by assumption) ?_

/-- What `copyCensus` keeps. -/
theorem copyCensus_keeps (hk : Keeps s0 s) (d : Nat) : Keeps s0 (copyCensus s d) := by
  unfold copyCensus
  repeat' first
    | with_reducible exact hk | with_reducible assumption | with_reducible apply store_keeps
    | with_reducible apply forEach_keeps | intro _ | dsimp only

/-- What `startClear` keeps. -/
theorem startClear_keeps (hk : Keeps s0 s) (d : Nat) : Keeps s0 (startClear s d) := by
  unfold startClear
  repeat' first
    | with_reducible exact hk | with_reducible apply updDie_keeps
    | with_reducible apply clearCensus_keeps | with_reducible apply wg_keeps
    | simp only [Keeps.fields] | dsimp only

/-- What `startSnap` keeps. -/
theorem startSnap_keeps (hk : Keeps s0 s) (d : Nat) (clear : Bool) : Keeps s0 (startSnap s d clear) := by
  unfold startSnap
  repeat' first
    | with_reducible exact hk | with_reducible apply wg_keeps
    | with_reducible apply startClear_keeps | with_reducible apply clearCensus_keeps
    | with_reducible apply copyCensus_keeps | with_reducible apply updDie_keeps
    | simp only [Keeps.fields] | with_reducible refine Keeps.ite ?_ ?_ | intro _ | dsimp only

/-- What `writeCensusCtl` keeps. -/
theorem writeCensusCtl_keeps (hk : Keeps s0 s) (d : Nat) (snap clear : Bool) : Keeps s0 (writeCensusCtl s d snap clear) := by
  unfold writeCensusCtl
  repeat' first
    | with_reducible exact hk | with_reducible apply startSnap_keeps
    | with_reducible apply startClear_keeps | with_reducible refine Keeps.ite ?_ ?_ | intro _

/-- What `execCensusSnap` keeps. -/
theorem execCensusSnap_keeps (hk : Keeps s0 s) (r : Requester) (d : Die) (val : BitVec 32) : KeepsO s0 (execCensusSnap r d val s) := by
  unfold execCensusSnap
  repeat' first
    | with_reducible exact hk | with_reducible assumption
    | with_reducible apply guardedWrite_keeps | with_reducible apply writeCensusCtl_keeps
    | with_reducible refine KeepsO.next ?_ | with_reducible refine KeepsO.ite ?_ ?_ | intro _
    | dsimp only

/-- What `execCensusClear` keeps. -/
theorem execCensusClear_keeps (hk : Keeps s0 s) (r : Requester) (d : Die) : KeepsO s0 (execCensusClear r d s) := by
  unfold execCensusClear
  repeat' first
    | with_reducible exact hk | with_reducible assumption
    | with_reducible apply guardedWrite_keeps | with_reducible apply writeCensusCtl_keeps
    | with_reducible refine KeepsO.next ?_ | with_reducible refine KeepsO.ite ?_ ?_ | intro _
    | dsimp only

/-- What `countSnap` keeps. -/
theorem countSnap_keeps (hk : Keeps s0 s) (d : Nat) : Keeps s0 (countSnap s d) := by
  unfold countSnap
  repeat' first
    | with_reducible exact hk | with_reducible apply noteRecords_keeps
    | with_reducible apply wg_keeps | simp only [Keeps.fields] | dsimp only

/-- What `execCensusOpDone` keeps. -/
theorem execCensusOpDone_keeps (hk : Keeps s0 s) (d : Die) : KeepsO s0 (execCensusOpDone d s) := by
  unfold execCensusOpDone
  repeat' first
    | with_reducible exact hk | with_reducible apply updDie_keeps | with_reducible apply wg_keeps
    | with_reducible apply countSnap_keeps | with_reducible refine KeepsO.next ?_
    | with_reducible refine KeepsO.ite ?_ ?_ | simp only [Keeps.fields]
    | with_reducible refine Keeps.ite ?_ ?_ | intro _ | dsimp only | split

end Sys2Proof.Machine
end

