-- ==== Sys2Proof/Laws/KeepsMemory.lean ====
section
/-!
SUPPORT. What the operations of Machine/Memory.lean keep (`Keeps`).
-/

namespace Sys2Proof.Machine

variable {s0 s : State}

/-- What `readSector` keeps. -/
theorem readSector_keeps (hk : Keeps s0 s) (a : Nat) (by_ : Reader) (symbols : List Nat) : Keeps s0 (readSector s a by_ symbols) := by
  unfold readSector
  repeat' first
    | with_reducible exact hk | with_reducible apply performAccess_keeps
    | with_reducible apply waitHeld_keeps | with_reducible refine Keeps.ite ?_ ?_ | intro _
    | dsimp only | split | refine Keeps.ofSnd (by assumption) ?_
    | refine Keeps.ofFst (by assumption) ?_

/-- What `execSectorRead` keeps. -/
theorem execSectorRead_keeps (hk : Keeps s0 s) (addr : Nat) (by_ : Reader) (symbols : List Nat) : KeepsO s0 (execSectorRead addr by_ symbols s) := by
  unfold execSectorRead
  repeat' first
    | with_reducible exact hk | with_reducible apply settle_keeps
    | with_reducible apply readSector_keeps | with_reducible refine KeepsO.next ?_
    | with_reducible refine KeepsO.ite ?_ ?_

/-- What `writeSector` keeps. -/
theorem writeSector_keeps (hk : Keeps s0 s) (a : Nat) (data : List Byte) (mask symbols : Nat) : Keeps s0 (writeSector s a data mask symbols) := by
  unfold writeSector
  repeat' first
    | with_reducible exact hk | with_reducible apply performAccess_keeps
    | with_reducible apply writeHeld_keeps | with_reducible refine Keeps.ite ?_ ?_ | intro _
    | dsimp only | split | refine Keeps.ofSnd (by assumption) ?_
    | refine Keeps.ofFst (by assumption) ?_

/-- What `execSectorWrite` keeps. -/
theorem execSectorWrite_keeps (hk : Keeps s0 s) (addr : Nat) (data : MaskedBytes) (symbols : Nat) : KeepsO s0 (execSectorWrite addr data symbols s) := by
  unfold execSectorWrite
  repeat' first
    | with_reducible exact hk | with_reducible apply settle_keeps
    | with_reducible apply writeSector_keeps | with_reducible refine KeepsO.next ?_
    | with_reducible refine KeepsO.ite ?_ ?_

/-- What `scrubSector` keeps. -/
theorem scrubSector_keeps (hk : Keeps s0 s) (a symbols : Nat) : Keeps s0 (scrubSector s a symbols) := by
  unfold scrubSector
  repeat' first
    | with_reducible exact hk | with_reducible apply codeFinds_keeps
    | with_reducible apply joinQueue_keeps | with_reducible apply setErr_keeps
    | with_reducible apply foundCorrected_keeps | with_reducible apply foundBad_keeps
    | with_reducible refine Keeps.ite ?_ ?_ | intro _ | dsimp only | split
    | refine Keeps.ofSnd (by assumption) ?_ | refine Keeps.ofFst (by assumption) ?_

/-- What `execScrubRead` keeps. -/
theorem execScrubRead_keeps (hk : Keeps s0 s) (addr symbols : Nat) : KeepsO s0 (execScrubRead addr symbols s) := by
  unfold execScrubRead
  repeat' first
    | with_reducible exact hk | with_reducible apply settle_keeps
    | with_reducible apply scrubSector_keeps | with_reducible refine KeepsO.next ?_
    | with_reducible refine KeepsO.ite ?_ ?_

/-- What `execBankRefresh` keeps. -/
theorem execBankRefresh_keeps (hk : Keeps s0 s) (chan : Fin 1024) : KeepsO s0 (execBankRefresh chan s) := by
  unfold execBankRefresh
  repeat' first
    | with_reducible exact hk | with_reducible refine KeepsO.next ?_
    | with_reducible refine KeepsO.ite ?_ ?_ | simp only [Keeps.fields]
    | with_reducible refine Keeps.ite ?_ ?_ | intro _

/-- What `askHold` keeps. -/
theorem askHold_keeps (hk : Keeps s0 s) (ch : Nat) (k : HoldKind) : Keeps s0 (askHold s ch k) := by
  unfold askHold
  repeat' first
    | with_reducible exact hk | with_reducible apply updMem_keeps | simp only [Keeps.fields]
    | with_reducible refine Keeps.ite ?_ ?_ | intro _ | dsimp only

/-- What `execMemCalibration` keeps. -/
theorem execMemCalibration_keeps (hk : Keeps s0 s) (chan : Fin 1024) (corrections : Nat) (x : CalStep) : KeepsO s0 (execMemCalibration chan corrections x s) := by
  unfold execMemCalibration
  repeat' first
    | with_reducible exact hk | with_reducible apply incr_keeps
    | with_reducible apply askHold_keeps | with_reducible refine KeepsO.next ?_
    | with_reducible refine KeepsO.ite ?_ ?_ | with_reducible refine Keeps.ite ?_ ?_ | intro _
    | dsimp only | split

/-- What `startHold` keeps. -/
theorem startHold_keeps (hk : Keeps s0 s) (d : Nat) : Keeps s0 (startHold s d) := by
  unfold startHold
  repeat' first
    | with_reducible exact hk | with_reducible apply updMem_keeps | with_reducible apply wg_keeps
    | with_reducible apply incr_keeps | simp only [Keeps.fields] | dsimp only | split

/-- What `execChannelHoldStart` keeps. -/
theorem execChannelHoldStart_keeps (hk : Keeps s0 s) (d : Die) : KeepsO s0 (execChannelHoldStart d s) := by
  unfold execChannelHoldStart
  repeat' first
    | with_reducible exact hk | with_reducible apply startHold_keeps
    | with_reducible refine KeepsO.next ?_ | with_reducible refine KeepsO.ite ?_ ?_
    | with_reducible refine Keeps.ite ?_ ?_ | intro _

/-- What `failChannel` keeps. -/
theorem failChannel_keeps (hk : Keeps s0 s) (d ch : Nat) : Keeps s0 (failChannel s d ch) := by
  unfold failChannel
  repeat' first
    | with_reducible exact hk | with_reducible apply updMem_keeps
    | with_reducible apply takeEvents_keeps | with_reducible apply raise_keeps
    | with_reducible apply fenceLobe_keeps | simp only [Keeps.fields]
    | with_reducible refine Keeps.ite ?_ ?_ | intro _ | dsimp only

/-- What `softRepaired` keeps. -/
theorem softRepaired_keeps (hk : Keeps s0 s) (d ch row : Nat) : Keeps s0 (softRepaired s d ch row) := by
  unfold softRepaired
  repeat' first
    | with_reducible exact hk | with_reducible assumption
    | with_reducible apply foundCorrected_keeps | with_reducible apply setErr_keeps
    | with_reducible apply updMem_keeps | with_reducible apply foundBad_keeps
    | with_reducible apply queueRepair_keeps | simp only [Keeps.fields]
    | with_reducible apply forEach_keeps | with_reducible refine Keeps.ite ?_ ?_ | intro _
    | dsimp only

/-- What `endHold` keeps. -/
theorem endHold_keeps (hk : Keeps s0 s) (d : Nat) (pass readable : Bool) : Keeps s0 (endHold s d pass readable) := by
  unfold endHold
  repeat' first
    | with_reducible exact hk | with_reducible apply dropHold_keeps
    | with_reducible apply softRepaired_keeps | with_reducible apply updMem_keeps
    | with_reducible apply raise_keeps | with_reducible apply failChannel_keeps
    | simp only [Keeps.fields] | with_reducible refine Keeps.ite ?_ ?_ | intro _ | dsimp only
    | split

/-- What `execChannelHoldRelease` keeps. -/
theorem execChannelHoldRelease_keeps (hk : Keeps s0 s) (d : Die) (pass readable : Bool) : KeepsO s0 (execChannelHoldRelease d pass readable s) := by
  unfold execChannelHoldRelease
  repeat' first
    | with_reducible exact hk | with_reducible apply settle_keeps
    | with_reducible apply endHold_keeps | with_reducible refine KeepsO.next ?_
    | with_reducible refine KeepsO.ite ?_ ?_ | with_reducible refine Keeps.ite ?_ ?_ | intro _

/-- What `execStackTempBelow85` keeps. -/
theorem execStackTempBelow85_keeps (hk : Keeps s0 s) (stack : Fin 16) : KeepsO s0 (execStackTempBelow85 stack s) := by
  unfold execStackTempBelow85
  repeat' first
    | with_reducible exact hk | with_reducible refine KeepsO.next ?_
    | with_reducible refine KeepsO.ite ?_ ?_ | simp only [Keeps.fields]

/-- What `writeJwCtl` keeps. -/
theorem writeJwCtl_keeps (hk : Keeps s0 s) (val : Nat) : Keeps s0 (writeJwCtl s val) := by
  unfold writeJwCtl
  repeat' first
    | with_reducible exact hk | simp only [Keeps.fields] | with_reducible refine Keeps.ite ?_ ?_
    | intro _ | dsimp only

/-- What `execJwCtlWrite` keeps. -/
theorem execJwCtlWrite_keeps (hk : Keeps s0 s) (r : Requester) (val : BitVec 32) : KeepsO s0 (execJwCtlWrite r val s) := by
  unfold execJwCtlWrite
  repeat' first
    | with_reducible exact hk | with_reducible assumption
    | with_reducible apply guardedWrite_keeps | with_reducible apply writeJwCtl_keeps
    | with_reducible refine KeepsO.next ?_ | with_reducible refine KeepsO.ite ?_ ?_ | intro _
    | dsimp only

/-- What `writeMemSplit` keeps. -/
theorem writeMemSplit_keeps (hk : Keeps s0 s) (val : Nat) : Keeps s0 (writeMemSplit s val) := by
  unfold writeMemSplit
  repeat' first
    | with_reducible exact hk | with_reducible apply writeStored_keeps
    | with_reducible refine Keeps.ite ?_ ?_ | intro _

/-- What `execMemSplitWrite` keeps. -/
theorem execMemSplitWrite_keeps (hk : Keeps s0 s) (r : Requester) (val : BitVec 32) : KeepsO s0 (execMemSplitWrite r val s) := by
  unfold execMemSplitWrite
  repeat' first
    | with_reducible exact hk | with_reducible assumption
    | with_reducible apply guardedWrite_keeps | with_reducible apply writeMemSplit_keeps
    | with_reducible refine KeepsO.next ?_ | with_reducible refine KeepsO.ite ?_ ?_ | intro _
    | dsimp only

/-- What `writeMapoutReq` keeps. -/
theorem writeMapoutReq_keeps (hk : Keeps s0 s) (val : Nat) : Keeps s0 (writeMapoutReq s val) := by
  unfold writeMapoutReq
  repeat' first
    | with_reducible exact hk | with_reducible apply writeStored_keeps

/-- What `execMapoutReqWrite` keeps. -/
theorem execMapoutReqWrite_keeps (hk : Keeps s0 s) (r : Requester) (val : BitVec 32) : KeepsO s0 (execMapoutReqWrite r val s) := by
  unfold execMapoutReqWrite
  repeat' first
    | with_reducible exact hk | with_reducible assumption
    | with_reducible apply guardedWrite_keeps | with_reducible apply writeMapoutReq_keeps
    | with_reducible refine KeepsO.next ?_ | with_reducible refine KeepsO.ite ?_ ?_ | intro _
    | dsimp only

end Sys2Proof.Machine
end

