-- ==== Sys2Proof/Laws/KeepsRilun.lean ====
section
/-!
SUPPORT. What the operations of Machine/Rilun.lean keep (`Keeps`).
-/

namespace Sys2Proof.Machine

variable {s0 s : State}

/-- What `updBundle` keeps. -/
theorem updBundle_keeps (hk : Keeps s0 s) (e : EdgeEnd) (b : Nat) (f : BundleEnd → BundleEnd) : Keeps s0 (updBundle s e b f) := by
  unfold updBundle
  repeat' first
    | with_reducible exact hk | with_reducible apply setEdgeSide_keeps
    | with_reducible apply ewg_keeps | simp only [Keeps.fields] | dsimp only

/-- What `updBoth` keeps. -/
theorem updBoth_keeps (hk : Keeps s0 s) (k : Fin 6) (b : Nat) (f : BundleEnd → BundleEnd) : Keeps s0 (updBoth s k b f) := by
  unfold updBoth
  repeat' first
    | with_reducible exact hk | with_reducible assumption | with_reducible apply updBundle_keeps
    | with_reducible apply forEach_keeps | intro _ | dsimp only

/-- What `setEdgeState` keeps. -/
theorem setEdgeState_keeps (hk : Keeps s0 s) (k : Fin 6) (st : Nat) : Keeps s0 (setEdgeState s k st) := by
  unfold setEdgeState
  repeat' first
    | with_reducible exact hk | with_reducible assumption | with_reducible apply ewg_keeps
    | with_reducible apply forEach_keeps | intro _ | dsimp only

/-- What `bundleDown` keeps. -/
theorem bundleDown_keeps (hk : Keeps s0 s) (e : EdgeEnd) (b lane : Nat) : Keeps s0 (bundleDown s e b lane) := by
  unfold bundleDown
  repeat' first
    | with_reducible exact hk | with_reducible apply updBoth_keeps
    | with_reducible apply raise_keeps | with_reducible apply moveTraffic_keeps
    | with_reducible apply setEdgeState_keeps | simp only [Keeps.fields]
    | with_reducible refine Keeps.ite ?_ ?_ | intro _ | dsimp only

/-- What `startSparing` keeps. -/
theorem startSparing_keeps (hk : Keeps s0 s) (k : Fin 6) (b lane spare : Nat) : Keeps s0 (startSparing s k b lane spare) := by
  unfold startSparing
  repeat' first
    | with_reducible exact hk | with_reducible apply updBoth_keeps
    | with_reducible apply moveTraffic_keeps | simp only [Keeps.fields] | dsimp only

/-- What `laneFails.marginal` keeps. -/
theorem laneFails_marginal_keeps (hk : Keeps s0 s) (e : EdgeEnd) (b lane : Nat) :
    Keeps s0 (laneFails.marginal e b lane s) := by
  unfold laneFails.marginal
  exact raise_keeps (updBundle_keeps hk e b _) _

/-- What `laneFails` keeps. -/
theorem laneFails_keeps (hk : Keeps s0 s) (e : EdgeEnd) (b lane : Nat) : Keeps s0 (laneFails s e b lane) := by
  unfold laneFails
  repeat' first
    | with_reducible exact hk | with_reducible apply bundleDown_keeps
    | with_reducible apply raise_keeps | with_reducible apply startSparing_keeps
    | with_reducible apply laneFails_marginal_keeps | with_reducible apply updBundle_keeps
    | simp only [Keeps.fields] | with_reducible refine Keeps.ite ?_ ?_ | intro _ | dsimp only
    | split

/-- What `countLane` keeps. -/
theorem countLane_keeps (hk : Keeps s0 s) (e : EdgeEnd) (b lane : Nat) : Keeps s0 (countLane s e b lane) := by
  unfold countLane
  repeat' first
    | with_reducible exact hk | with_reducible apply updBundle_keeps
    | with_reducible apply ewg_keeps | with_reducible apply raise_keeps
    | with_reducible apply laneFails_keeps | simp only [Keeps.fields]
    | with_reducible refine Keeps.ite ?_ ?_ | intro _ | dsimp only

/-- What `deliverFlit` keeps. -/
theorem deliverFlit_keeps (hk : Keeps s0 s) (e : EdgeEnd) (q : Nat) (cols : List Nat) : Keeps s0 (deliverFlit s e q cols) := by
  unfold deliverFlit
  repeat' first
    | with_reducible exact hk | with_reducible apply retire_keeps
    | with_reducible apply setEdgeSide_keeps | simp only [Keeps.fields]
    | with_reducible refine Keeps.ite ?_ ?_ | intro _ | dsimp only

/-- What `keepFlit` keeps. -/
theorem keepFlit_keeps (hk : Keeps s0 s) (e : EdgeEnd) (f : DataFlit) : Keeps s0 (keepFlit s e f) := by
  unfold keepFlit
  repeat' first
    | with_reducible exact hk | with_reducible apply setEdgeSide_keeps
    | with_reducible apply request_keeps | simp only [Keeps.fields]
    | with_reducible refine Keeps.ite ?_ ?_ | intro _ | dsimp only

/-- What `holdFlit` keeps. -/
theorem holdFlit_keeps (hk : Keeps s0 s) (e : EdgeEnd) (f : DataFlit) : Keeps s0 (holdFlit s e f) := by
  unfold holdFlit
  repeat' first
    | with_reducible exact hk | with_reducible apply ewg_keeps
    | with_reducible apply setEdgeSide_keeps | simp only [Keeps.fields]
    | with_reducible refine Keeps.ite ?_ ?_ | intro _ | dsimp only

/-- What `receiveFlit` keeps. -/
theorem receiveFlit_keeps (hk : Keeps s0 s) (e : EdgeEnd) (b : Nat) (f : DataFlit) : Keeps s0 (receiveFlit s e b f) := by
  unfold receiveFlit
  repeat' first
    | with_reducible exact hk | with_reducible apply keepFlit_keeps
    | with_reducible apply holdFlit_keeps | with_reducible apply bundleDown_keeps
    | with_reducible apply deliverFlit_keeps | with_reducible apply countLane_keeps
    | with_reducible refine Keeps.ite ?_ ?_ | intro _ | dsimp only | split
    | refine Keeps.ofSnd (by assumption) ?_ | refine Keeps.ofFst (by assumption) ?_

/-- What `execDataFlitReceive` keeps. -/
theorem execDataFlitReceive_keeps (hk : Keeps s0 s) (e : EdgeEnd) (b : Fin 40) (f : DataFlit) : KeepsO s0 (execDataFlitReceive e b f s) := by
  unfold execDataFlitReceive
  repeat' first
    | with_reducible exact hk | with_reducible apply settle_keeps
    | with_reducible apply receiveFlit_keeps | with_reducible refine KeepsO.next ?_
    | with_reducible refine KeepsO.ite ?_ ?_

/-- What `ackFlits` keeps. -/
theorem ackFlits_keeps (hk : Keeps s0 s) (e : EdgeEnd) (seq : Nat) : Keeps s0 (ackFlits s e seq) := by
  unfold ackFlits
  repeat' first
    | with_reducible exact hk | with_reducible apply setEdgeSide_keeps
    | with_reducible apply retire_keeps | simp only [Keeps.fields]
    | with_reducible refine Keeps.ite ?_ ?_ | intro _ | dsimp only | split

/-- What `execDataFlitAck` keeps. -/
theorem execDataFlitAck_keeps (hk : Keeps s0 s) (e : EdgeEnd) (seq : Nat) : KeepsO s0 (execDataFlitAck e seq s) := by
  unfold execDataFlitAck
  repeat' first
    | with_reducible exact hk | with_reducible apply settle_keeps
    | with_reducible apply ackFlits_keeps | with_reducible refine KeepsO.next ?_
    | with_reducible refine KeepsO.ite ?_ ?_

/-- What `execLaneCountDecay` keeps. -/
theorem execLaneCountDecay_keeps (hk : Keeps s0 s) : KeepsO s0 (execLaneCountDecay s) := by
  unfold execLaneCountDecay
  repeat' first
    | with_reducible exact hk | with_reducible refine KeepsO.next ?_
    | with_reducible refine KeepsO.ite ?_ ?_ | simp only [Keeps.fields]
    | with_reducible refine Keeps.ite ?_ ?_ | intro _ | dsimp only
    | refine Keeps.ofSnd (by assumption) ?_ | refine Keeps.ofFst (by assumption) ?_

/-- What `commitSpare` keeps. -/
theorem commitSpare_keeps (hk : Keeps s0 s) (e : EdgeEnd) (b lane spare : Nat) : Keeps s0 (commitSpare s e b lane spare) := by
  unfold commitSpare
  repeat' first
    | with_reducible exact hk | with_reducible apply updBundle_keeps
    | with_reducible apply setEdgeSide_keeps | simp only [Keeps.fields] | dsimp only

/-- What `endSparing` keeps. -/
theorem endSparing_keeps (hk : Keeps s0 s) (k : Fin 6) (b : Nat) (agreed : Bool) : Keeps s0 (endSparing s k b agreed) := by
  unfold endSparing
  repeat' first
    | with_reducible exact hk | with_reducible assumption | with_reducible apply agreed_keeps
    | with_reducible apply moveTraffic_keeps | with_reducible apply commitSpare_keeps
    | with_reducible apply updBoth_keeps | with_reducible apply startSparing_keeps
    | with_reducible apply raise_keeps | simp only [Keeps.fields]
    | with_reducible apply forEach_keeps | with_reducible refine Keeps.ite ?_ ?_ | intro _
    | dsimp only | split | refine Keeps.ofSnd (by assumption) ?_
    | refine Keeps.ofFst (by assumption) ?_

/-- What `execSparingComplete` keeps. -/
theorem execSparingComplete_keeps (hk : Keeps s0 s) (edge : Fin 6) (b : Fin 40) (agreed : Bool) : KeepsO s0 (execSparingComplete edge b agreed s) := by
  unfold execSparingComplete
  repeat' first
    | with_reducible exact hk | with_reducible apply settle_keeps
    | with_reducible apply endSparing_keeps | with_reducible apply agreed_keeps
    | with_reducible refine KeepsO.next ?_ | with_reducible refine KeepsO.ite ?_ ?_
    | with_reducible refine Keeps.ite ?_ ?_ | intro _

/-- What `updCtrl` keeps. -/
theorem updCtrl_keeps (hk : Keeps s0 s) (e : EdgeEnd) (cb : Nat) (f : CtrlEnd → CtrlEnd) : Keeps s0 (updCtrl s e cb f) := by
  unfold updCtrl
  repeat' first
    | with_reducible exact hk | with_reducible apply setEdgeSide_keeps
    | with_reducible apply ewg_keeps | simp only [Keeps.fields] | dsimp only

/-- What `ctrlLost` keeps. -/
theorem ctrlLost_keeps (hk : Keeps s0 s) (e : EdgeEnd) (cb : Nat) : Keeps s0 (ctrlLost s e cb) := by
  unfold ctrlLost
  repeat' first
    | with_reducible exact hk | with_reducible apply takeEvents_keeps
    | with_reducible apply raise_keeps | with_reducible apply fenceLobe_keeps
    | with_reducible refine Keeps.ite ?_ ?_ | intro _ | dsimp only

/-- What `ctrlDown` keeps. -/
theorem ctrlDown_keeps (hk : Keeps s0 s) (e : EdgeEnd) (cb : Nat) : Keeps s0 (ctrlDown s e cb) := by
  unfold ctrlDown
  repeat' first
    | with_reducible exact hk | with_reducible assumption | with_reducible apply updCtrl_keeps
    | with_reducible apply raise_keeps | with_reducible apply ctrlLost_keeps
    | simp only [Keeps.fields] | with_reducible apply forEach_keeps
    | with_reducible refine Keeps.ite ?_ ?_ | intro _ | dsimp only
    | refine Keeps.ofSnd (by assumption) ?_ | refine Keeps.ofFst (by assumption) ?_

/-- What `ctrlResend` keeps. -/
theorem ctrlResend_keeps (hk : Keeps s0 s) (e : EdgeEnd) (cb : Nat) : Keeps s0 (ctrlResend s e cb) := by
  unfold ctrlResend
  repeat' first
    | with_reducible exact hk | with_reducible apply ewg_keeps | with_reducible apply raise_keeps
    | with_reducible apply updCtrl_keeps | with_reducible apply ctrlDown_keeps
    | simp only [Keeps.fields] | with_reducible refine Keeps.ite ?_ ?_ | intro _ | dsimp only

/-- What `receiveCtrl` keeps. -/
theorem receiveCtrl_keeps (hk : Keeps s0 s) (e : EdgeEnd) (cb : Nat) (f : ControlFlit) : Keeps s0 (receiveCtrl s e cb f) := by
  unfold receiveCtrl
  repeat' first
    | with_reducible exact hk | with_reducible apply updCtrl_keeps
    | with_reducible apply ctrlResend_keeps | simp only [Keeps.fields]
    | with_reducible refine Keeps.ite ?_ ?_ | intro _ | dsimp only

/-- What `execControlFlitReceive` keeps. -/
theorem execControlFlitReceive_keeps (hk : Keeps s0 s) (e : EdgeEnd) (cb : Half) (f : ControlFlit) : KeepsO s0 (execControlFlitReceive e cb f s) := by
  unfold execControlFlitReceive
  repeat' first
    | with_reducible exact hk | with_reducible apply settle_keeps
    | with_reducible apply receiveCtrl_keeps | with_reducible refine KeepsO.next ?_
    | with_reducible refine KeepsO.ite ?_ ?_

/-- What `execControlAckTimeout` keeps. -/
theorem execControlAckTimeout_keeps (hk : Keeps s0 s) (e : EdgeEnd) (cb : Half) : KeepsO s0 (execControlAckTimeout e cb s) := by
  unfold execControlAckTimeout
  repeat' first
    | with_reducible exact hk | with_reducible apply settle_keeps
    | with_reducible apply ctrlResend_keeps | with_reducible refine KeepsO.next ?_
    | with_reducible refine KeepsO.ite ?_ ?_ | with_reducible refine Keeps.ite ?_ ?_ | intro _
    | dsimp only

/-- What `resumeEdge` keeps. -/
theorem resumeEdge_keeps (hk : Keeps s0 s) (k : Fin 6) : Keeps s0 (resumeEdge s k) := by
  unfold resumeEdge
  repeat' first
    | with_reducible exact hk | with_reducible assumption
    | with_reducible apply setEdgeState_keeps | with_reducible apply ewg_keeps
    | with_reducible apply setEdgeSide_keeps | with_reducible apply deliverFlit_keeps
    | with_reducible apply keepFlit_keeps | simp only [Keeps.fields]
    | with_reducible apply forEach_keeps | intro _ | dsimp only

/-- What `trainCtrl` keeps. -/
theorem trainCtrl_keeps (hk : Keeps s0 s) (k : Fin 6) (up : Nat) : Keeps s0 (trainCtrl s k up) := by
  unfold trainCtrl
  repeat' first
    | with_reducible exact hk | with_reducible assumption | with_reducible apply updCtrl_keeps
    | with_reducible apply forEach_keeps | intro _ | dsimp only

/-- What `reconcile` keeps. -/
theorem reconcile_keeps (hk : Keeps s0 s) (k : Fin 6) (up : Nat) : Keeps s0 (reconcile s k up) := by
  unfold reconcile
  repeat' first
    | with_reducible exact hk | with_reducible assumption | with_reducible apply trainCtrl_keeps
    | with_reducible apply ctrlLost_keeps | with_reducible apply setEdgeState_keeps
    | with_reducible apply ewg_keeps | with_reducible apply resumeEdge_keeps
    | with_reducible apply updBundle_keeps | simp only [Keeps.fields]
    | with_reducible apply forEach_keeps | with_reducible refine Keeps.ite ?_ ?_ | intro _
    | dsimp only

/-- What `execReconcileHashExchange` keeps. -/
theorem execReconcileHashExchange_keeps (hk : Keeps s0 s) (x : EdgeCheck) : KeepsO s0 (execReconcileHashExchange x s) := by
  unfold execReconcileHashExchange
  repeat' first
    | with_reducible exact hk | with_reducible apply settle_keeps
    | with_reducible apply reconcile_keeps | with_reducible refine KeepsO.next ?_
    | with_reducible refine KeepsO.ite ?_ ?_ | with_reducible refine Keeps.ite ?_ ?_ | intro _

/-- What `trainEdge` keeps. -/
theorem trainEdge_keeps (hk : Keeps s0 s) (k : Fin 6) (m : EdgeMargins) : Keeps s0 (trainEdge s k m) := by
  unfold trainEdge
  repeat' first
    | with_reducible exact hk | with_reducible assumption | with_reducible apply updBundle_keeps
    | with_reducible apply setEdgeSide_keeps | with_reducible apply trainCtrl_keeps
    | with_reducible apply raise_keeps | with_reducible apply setEdgeState_keeps
    | with_reducible apply ctrlLost_keeps | with_reducible apply resumeEdge_keeps
    | simp only [Keeps.fields] | with_reducible apply forEach_keeps
    | with_reducible refine Keeps.ite ?_ ?_ | intro _ | dsimp only

/-- What `execEdgeTrainingComplete` keeps. -/
theorem execEdgeTrainingComplete_keeps (hk : Keeps s0 s) (edge : Fin 6) (m : EdgeMargins) : KeepsO s0 (execEdgeTrainingComplete edge m s) := by
  unfold execEdgeTrainingComplete
  repeat' first
    | with_reducible exact hk | with_reducible apply settle_keeps
    | with_reducible apply trainEdge_keeps | with_reducible refine KeepsO.next ?_
    | with_reducible refine KeepsO.ite ?_ ?_ | with_reducible refine Keeps.ite ?_ ?_ | intro _

end Sys2Proof.Machine
end

