-- ==== Sys2Proof/Laws/KeepsMeasure.lean ====
section
/-!
SUPPORT. What the operations of Machine/Measure.lean keep (`Keeps`).
-/

namespace Sys2Proof.Machine

variable {s0 s : State}

/-- What `measureSettings` keeps. -/
theorem measureSettings_keeps (hk : Keeps s0 s) : Keeps s0 (measureSettings s) := by
  unfold measureSettings
  repeat' first
    | with_reducible exact hk | with_reducible apply extendMr_keeps | dsimp only

end Sys2Proof.Machine
end

