-- ==== Sys2Proof/Laws/KeepsOptics.lean ====
section
/-!
SUPPORT. What the operations of Machine/Optics.lean keep (`Keeps`).
-/

namespace Sys2Proof.Machine

variable {s0 s : State}

/-- What `admitOe` keeps. -/
theorem admitOe_keeps (hk : Keeps s0 s) (o : Nat) (a : OeAnswer) : Keeps s0 (admitOe s o a) := by
  unfold admitOe
  repeat' first
    | with_reducible exact hk | with_reducible assumption | with_reducible apply wg_keeps
    | with_reducible apply raise_keeps | with_reducible apply extendMr_keeps
    | with_reducible apply startTraining_keeps | simp only [Keeps.fields]
    | with_reducible apply forEach_keeps | with_reducible refine Keeps.ite ?_ ?_ | intro _
    | dsimp only | split

/-- What `execOeAdmission` keeps. -/
theorem execOeAdmission_keeps (hk : Keeps s0 s) (o : Fin 8) (a : OeAnswer) : KeepsO s0 (execOeAdmission o a s) := by
  unfold execOeAdmission
  repeat' first
    | with_reducible exact hk | with_reducible apply settle_keeps
    | with_reducible apply admitOe_keeps | with_reducible refine KeepsO.next ?_
    | with_reducible refine KeepsO.ite ?_ ?_ | with_reducible refine Keeps.ite ?_ ?_ | intro _

/-- What `retryOe` keeps. -/
theorem retryOe_keeps (hk : Keeps s0 s) (o : Nat) : Keeps s0 (retryOe s o) := by
  unfold retryOe
  repeat' first
    | with_reducible exact hk | with_reducible apply wg_keeps
    | with_reducible refine Keeps.ite ?_ ?_ | intro _ | dsimp only

/-- What `execOeRetry` keeps. -/
theorem execOeRetry_keeps (hk : Keeps s0 s) (r : Requester) (o : Fin 8) : KeepsO s0 (execOeRetry r o s) := by
  unfold execOeRetry
  repeat' first
    | with_reducible exact hk | with_reducible assumption
    | with_reducible apply guardedWrite_keeps | with_reducible apply retryOe_keeps
    | with_reducible refine KeepsO.next ?_ | with_reducible refine KeepsO.ite ?_ ?_ | intro _
    | dsimp only

/-- What `failLanes` keeps. -/
theorem failLanes_keeps (hk : Keeps s0 s) (g rx tx : Nat) : Keeps s0 (failLanes s g rx tx) := by
  unfold failLanes
  repeat' first
    | with_reducible exact hk | with_reducible apply updGroup_keeps
    | with_reducible apply raise_keeps | with_reducible apply wantRetrain_keeps
    | simp only [Keeps.fields] | with_reducible refine Keeps.ite ?_ ?_ | intro _ | dsimp only
    | split

/-- What `execOptLaneFail` keeps. -/
theorem execOptLaneFail_keeps (hk : Keeps s0 s) (g : Fin 32) (f : LaneFail) : KeepsO s0 (execOptLaneFail g f s) := by
  unfold execOptLaneFail
  repeat' first
    | with_reducible exact hk | with_reducible apply settle_keeps
    | with_reducible apply failLanes_keeps | with_reducible refine KeepsO.next ?_
    | with_reducible refine KeepsO.ite ?_ ?_ | with_reducible refine Keeps.ite ?_ ?_ | intro _

/-- What `setLow` keeps. -/
theorem setLow_keeps (hk : Keeps s0 s) (o : Nat) (x : Oe) (low : Nat) : Keeps s0 (setLow s o x low) := by
  unfold setLow
  repeat' first
    | with_reducible exact hk | simp only [Keeps.fields]

/-- What `monitorLaser` keeps. -/
theorem monitorLaser_keeps (hk : Keeps s0 s) (o : Nat) (power : List Int) : Keeps s0 (monitorLaser s o power) := by
  unfold monitorLaser
  repeat' first
    | with_reducible exact hk | with_reducible assumption | with_reducible apply wg_keeps
    | with_reducible apply setLow_keeps | with_reducible apply raise_keeps
    | with_reducible apply gst_keeps | with_reducible apply updGroup_keeps
    | with_reducible apply failLanes_keeps | simp only [Keeps.fields]
    | with_reducible apply forEach_keeps | with_reducible refine Keeps.ite ?_ ?_ | intro _
    | dsimp only

/-- What `execLaserMonitor` keeps. -/
theorem execLaserMonitor_keeps (hk : Keeps s0 s) (o : Fin 8) (power : List Int) : KeepsO s0 (execLaserMonitor o power s) := by
  unfold execLaserMonitor
  repeat' first
    | with_reducible exact hk | with_reducible apply settle_keeps
    | with_reducible apply monitorLaser_keeps | with_reducible refine KeepsO.next ?_
    | with_reducible refine KeepsO.ite ?_ ?_ | with_reducible refine Keeps.ite ?_ ?_ | intro _

/-- What `recheckLight` keeps. -/
theorem recheckLight_keeps (hk : Keeps s0 s) (g : Nat) (power : List Int) : Keeps s0 (recheckLight s g power) := by
  unfold recheckLight
  repeat' first
    | with_reducible exact hk | with_reducible apply setLow_keeps
    | with_reducible apply startTraining_keeps | with_reducible refine Keeps.ite ?_ ?_ | intro _
    | dsimp only

/-- What `execGroupLightRecheck` keeps. -/
theorem execGroupLightRecheck_keeps (hk : Keeps s0 s) (g : Fin 32) (power : List Int) : KeepsO s0 (execGroupLightRecheck g power s) := by
  unfold execGroupLightRecheck
  repeat' first
    | with_reducible exact hk | with_reducible apply recheckLight_keeps
    | with_reducible refine KeepsO.next ?_ | with_reducible refine KeepsO.ite ?_ ?_
    | with_reducible refine Keeps.ite ?_ ?_ | intro _

/-- What `finishTraining` keeps. -/
theorem finishTraining_keeps (hk : Keeps s0 s) (g : Nat) (r : GroupResult) : Keeps s0 (finishTraining s g r) := by
  unfold finishTraining
  repeat' first
    | with_reducible exact hk | with_reducible apply updGroup_keeps
    | with_reducible apply gst_keeps | with_reducible apply raise_keeps
    | with_reducible apply portComes_keeps | with_reducible apply moveFum_keeps
    | simp only [Keeps.fields] | with_reducible refine Keeps.ite ?_ ?_ | intro _ | dsimp only
    | split

/-- What `execGroupTrainingComplete` keeps. -/
theorem execGroupTrainingComplete_keeps (hk : Keeps s0 s) (g : Fin 32) (r : GroupResult) : KeepsO s0 (execGroupTrainingComplete g r s) := by
  unfold execGroupTrainingComplete
  repeat' first
    | with_reducible exact hk | with_reducible apply settle_keeps
    | with_reducible apply finishTraining_keeps | with_reducible refine KeepsO.next ?_
    | with_reducible refine KeepsO.ite ?_ ?_ | with_reducible refine Keeps.ite ?_ ?_ | intro _

/-- What `endRetrain` keeps. -/
theorem endRetrain_keeps (hk : Keeps s0 s) (g : Nat) (r : GroupResult) : Keeps s0 (endRetrain s g r) := by
  unfold endRetrain
  repeat' first
    | with_reducible exact hk | with_reducible apply finishTraining_keeps
    | with_reducible apply startRetrain_keeps | with_reducible apply nextRetrain_keeps
    | with_reducible refine Keeps.ite ?_ ?_ | intro _ | dsimp only | split

/-- What `execGroupRetrainComplete` keeps. -/
theorem execGroupRetrainComplete_keeps (hk : Keeps s0 s) (g : Fin 32) (r : GroupResult) : KeepsO s0 (execGroupRetrainComplete g r s) := by
  unfold execGroupRetrainComplete
  repeat' first
    | with_reducible exact hk | with_reducible apply settle_keeps
    | with_reducible apply endRetrain_keeps | with_reducible refine KeepsO.next ?_
    | with_reducible refine KeepsO.ite ?_ ?_ | with_reducible refine Keeps.ite ?_ ?_ | intro _

/-- What `execGroupAbsent` keeps. -/
theorem execGroupAbsent_keeps (hk : Keeps s0 s) (g : Fin 32) : KeepsO s0 (execGroupAbsent g s) := by
  unfold execGroupAbsent
  repeat' first
    | with_reducible exact hk | with_reducible apply gst_keeps
    | with_reducible refine KeepsO.next ?_ | with_reducible refine KeepsO.ite ?_ ?_
    | with_reducible refine Keeps.ite ?_ ?_ | intro _

/-- What `execAbsentGroupProbe` keeps. -/
theorem execAbsentGroupProbe_keeps (hk : Keeps s0 s) (g : Fin 32) (light : Bool) : KeepsO s0 (execAbsentGroupProbe g light s) := by
  unfold execAbsentGroupProbe
  repeat' first
    | with_reducible exact hk | with_reducible apply startTraining_keeps
    | with_reducible refine KeepsO.next ?_ | with_reducible refine KeepsO.ite ?_ ?_
    | with_reducible refine Keeps.ite ?_ ?_ | intro _

end Sys2Proof.Machine
end

