-- ==== Sys2Proof/Laws/KeepsPower.lean ====
section
/-!
SUPPORT. What the operations of Machine/Power.lean keep (`Keeps`).
-/

namespace Sys2Proof.Machine

variable {s0 s : State}

/-- What `switchLobeOff` keeps. -/
theorem switchLobeOff_keeps (hk : Keeps s0 s) (l : Half) : Keeps s0 (switchLobeOff s l) := by
  unfold switchLobeOff
  repeat' first
    | with_reducible exact hk | with_reducible apply setFence_keeps
    | with_reducible apply fenceJobs_keeps | with_reducible apply dropLobe_keeps
    | with_reducible apply wg_keeps | with_reducible refine Keeps.ite ?_ ?_ | intro _ | dsimp only

/-- What `standBy` keeps. -/
theorem standBy_keeps (hk : Keeps s0 s) : Keeps s0 (standBy s) := by
  unfold standBy
  repeat' first
    | with_reducible exact hk | with_reducible apply wg_keeps
    | with_reducible apply dropLobe_keeps

/-- What `enterRequested` keeps. -/
theorem enterRequested_keeps (hk : Keeps s0 s) : Keeps s0 (enterRequested s) := by
  unfold enterRequested
  repeat' first
    | with_reducible exact hk | with_reducible apply switchLobeOff_keeps
    | with_reducible apply standBy_keeps | with_reducible apply powerDown_keeps
    | simp only [Keeps.fields] | dsimp only | split

/-- What `execPowerStateEntered` keeps. -/
theorem execPowerStateEntered_keeps (hk : Keeps s0 s) : KeepsO s0 (execPowerStateEntered s) := by
  unfold execPowerStateEntered
  repeat' first
    | with_reducible exact hk | with_reducible apply settle_keeps
    | with_reducible apply enterRequested_keeps | with_reducible refine KeepsO.next ?_
    | with_reducible refine KeepsO.ite ?_ ?_

/-- What `leavePower` keeps. -/
theorem leavePower_keeps (hk : Keeps s0 s) : Keeps s0 (leavePower s) := by
  unfold leavePower
  repeat' first
    | with_reducible exact hk | with_reducible apply beginReset_keeps
    | with_reducible refine Keeps.ite ?_ ?_ | intro _ | dsimp only | split

/-- What `takePower` keeps. -/
theorem takePower_keeps (hk : Keeps s0 s) (q : PowerReq) : Keeps s0 (takePower s q) := by
  unfold takePower
  repeat' first
    | with_reducible exact hk | with_reducible apply incr_keeps
    | with_reducible apply leavePower_keeps | simp only [Keeps.fields]
    | with_reducible refine Keeps.ite ?_ ?_ | intro _ | dsimp only | split

/-- What `requestPower` keeps. -/
theorem requestPower_keeps (hk : Keeps s0 s) (q : PowerReq) : Keeps s0 (requestPower s q) := by
  unfold requestPower
  repeat' first
    | with_reducible exact hk | with_reducible apply takePower_keeps | simp only [Keeps.fields]
    | with_reducible refine Keeps.ite ?_ ?_ | intro _

/-- What `writePwrState` keeps. -/
theorem writePwrState_keeps (hk : Keeps s0 s) (r : Requester) (val : Nat) (go : Bool) : Keeps s0 (writePwrState s r val go) := by
  unfold writePwrState
  repeat' first
    | with_reducible exact hk | with_reducible assumption
    | with_reducible apply guardedWrite_keeps | with_reducible apply writeStored_keeps
    | with_reducible apply requestPower_keeps | with_reducible refine Keeps.ite ?_ ?_ | intro _
    | dsimp only

/-- What `execPowerReqP0` keeps. -/
theorem execPowerReqP0_keeps (hk : Keeps s0 s) (r : Requester) : KeepsO s0 (execPowerReqP0 r s) := by
  unfold execPowerReqP0
  repeat' first
    | with_reducible exact hk | with_reducible apply settle_keeps
    | with_reducible apply writePwrState_keeps | with_reducible refine KeepsO.next ?_
    | with_reducible refine KeepsO.ite ?_ ?_

/-- What `execPowerReqP2` keeps. -/
theorem execPowerReqP2_keeps (hk : Keeps s0 s) (r : Requester) (l : Half) : KeepsO s0 (execPowerReqP2 r l s) := by
  unfold execPowerReqP2
  repeat' first
    | with_reducible exact hk | with_reducible apply settle_keeps
    | with_reducible apply writePwrState_keeps | with_reducible refine KeepsO.next ?_
    | with_reducible refine KeepsO.ite ?_ ?_

/-- What `execPowerReqP3` keeps. -/
theorem execPowerReqP3_keeps (hk : Keeps s0 s) (r : Requester) : KeepsO s0 (execPowerReqP3 r s) := by
  unfold execPowerReqP3
  repeat' first
    | with_reducible exact hk | with_reducible apply settle_keeps
    | with_reducible apply writePwrState_keeps | with_reducible refine KeepsO.next ?_
    | with_reducible refine KeepsO.ite ?_ ?_

/-- What `execPowerReqP4` keeps. -/
theorem execPowerReqP4_keeps (hk : Keeps s0 s) (r : Requester) : KeepsO s0 (execPowerReqP4 r s) := by
  unfold execPowerReqP4
  repeat' first
    | with_reducible exact hk | with_reducible apply settle_keeps
    | with_reducible apply writePwrState_keeps | with_reducible refine KeepsO.next ?_
    | with_reducible refine KeepsO.ite ?_ ?_

/-- What `whilePowered` keeps. -/
theorem whilePowered_keeps (hk : Keeps s0 s) (f : State → State) (hf : ∀ t, Keeps s0 t → Keeps s0 (f t)) : Keeps s0 (whilePowered s f) := by
  unfold whilePowered
  repeat' first
    | with_reducible exact hk | with_reducible assumption | with_reducible apply hf
    | with_reducible refine Keeps.ite ?_ ?_ | intro _

/-- What `setBrake` keeps. -/
theorem setBrake_keeps (hk : Keeps s0 s) (cause : Fld) (on : Bool) : Keeps s0 (setBrake s cause on) := by
  unfold setBrake
  repeat' first
    | with_reducible exact hk | with_reducible apply wg_keeps | with_reducible apply incr_keeps
    | with_reducible refine Keeps.ite ?_ ?_ | intro _ | dsimp only

/-- What `takePin` keeps. -/
theorem takePin_keeps (hk : Keeps s0 s) : Keeps s0 (takePin s) := by
  unfold takePin
  repeat' first
    | with_reducible exact hk | with_reducible apply setBrake_keeps

/-- What `setPin` keeps. -/
theorem setPin_keeps (hk : Keeps s0 s) (low : Bool) : Keeps s0 (setPin s low) := by
  unfold setPin
  repeat' first
    | with_reducible exact hk | with_reducible assumption
    | with_reducible apply whilePowered_keeps | with_reducible apply takePin_keeps
    | with_reducible exact id | with_reducible exact mwf_mkeep _ _ _
    | with_reducible exact fun _ => mwf_nil _ | with_reducible exact Nat.le_refl _
    | with_reducible exact Nat.le_add_right _ _ | with_reducible exact keysUp_filter _ _
    | with_reducible exact keysUp_mkeep _ _ | with_reducible rfl | simp only [Keeps.fields]
    | intro _ | with_reducible apply Keeps.change

/-- What `execBrakePinAssert` keeps. -/
theorem execBrakePinAssert_keeps (hk : Keeps s0 s) : KeepsO s0 (execBrakePinAssert s) := by
  unfold execBrakePinAssert
  repeat' first
    | with_reducible exact hk | with_reducible apply setPin_keeps
    | with_reducible refine KeepsO.next ?_ | with_reducible refine KeepsO.ite ?_ ?_

/-- What `execBrakePinRelease` keeps. -/
theorem execBrakePinRelease_keeps (hk : Keeps s0 s) : KeepsO s0 (execBrakePinRelease s) := by
  unfold execBrakePinRelease
  repeat' first
    | with_reducible exact hk | with_reducible apply setPin_keeps
    | with_reducible refine KeepsO.next ?_ | with_reducible refine KeepsO.ite ?_ ?_

/-- What `execBrakeCauseClear` keeps. -/
theorem execBrakeCauseClear_keeps (hk : Keeps s0 s) (c : BrakeCause) : KeepsO s0 (execBrakeCauseClear c s) := by
  unfold execBrakeCauseClear
  repeat' first
    | with_reducible exact hk | with_reducible assumption
    | with_reducible apply whilePowered_keeps | with_reducible apply setBrake_keeps
    | with_reducible refine KeepsO.next ?_ | with_reducible refine KeepsO.ite ?_ ?_ | intro _
    | dsimp only | split

/-- What `stepLimiter` keeps. -/
theorem stepLimiter_keeps (hk : Keeps s0 s) (watts : Nat) : Keeps s0 (stepLimiter s watts) := by
  unfold stepLimiter
  repeat' first
    | with_reducible exact hk | with_reducible apply wg_keeps | simp only [Keeps.fields]
    | with_reducible refine Keeps.ite ?_ ?_ | intro _ | dsimp only

/-- What `execLimiterStep` keeps. -/
theorem execLimiterStep_keeps (hk : Keeps s0 s) (watts : Nat) : KeepsO s0 (execLimiterStep watts s) := by
  unfold execLimiterStep
  repeat' first
    | with_reducible exact hk | with_reducible assumption
    | with_reducible apply whilePowered_keeps | with_reducible apply stepLimiter_keeps
    | with_reducible refine KeepsO.next ?_ | with_reducible refine KeepsO.ite ?_ ?_ | intro _
    | dsimp only

/-- What `shutOff` keeps. -/
theorem shutOff_keeps (hk : Keeps s0 s) (x : Shutoff) : Keeps s0 (shutOff s x) := by
  unfold shutOff
  repeat' first
    | with_reducible exact hk | with_reducible apply measurePeak_keeps
    | with_reducible apply powerDown_keeps | simp only [Keeps.fields]

/-- What `shutOffBy` keeps. -/
theorem shutOffBy_keeps (hk : Keeps s0 s) (x : Shutoff) (e : Event) : Keeps s0 (shutOffBy s x e) := by
  unfold shutOffBy
  repeat' first
    | with_reducible exact hk | with_reducible apply raise_keeps
    | with_reducible apply shutOff_keeps | simp only [Keeps.fields]

/-- What `execSupVinLow` keeps. -/
theorem execSupVinLow_keeps (hk : Keeps s0 s) : KeepsO s0 (execSupVinLow s) := by
  unfold execSupVinLow
  repeat' first
    | with_reducible exact hk | with_reducible assumption
    | with_reducible apply whilePowered_keeps | with_reducible apply settle_keeps
    | with_reducible apply raise_keeps | with_reducible apply setBrake_keeps
    | with_reducible refine KeepsO.next ?_ | with_reducible refine KeepsO.ite ?_ ?_ | intro _
    | dsimp only

/-- What `execSupVinHigh` keeps. -/
theorem execSupVinHigh_keeps (hk : Keeps s0 s) : KeepsO s0 (execSupVinHigh s) := by
  unfold execSupVinHigh
  repeat' first
    | with_reducible exact hk | with_reducible assumption
    | with_reducible apply whilePowered_keeps | with_reducible apply settle_keeps
    | with_reducible apply shutOffBy_keeps | with_reducible refine KeepsO.next ?_
    | with_reducible refine KeepsO.ite ?_ ?_ | intro _ | dsimp only

/-- What `execSupOvercurrent` keeps. -/
theorem execSupOvercurrent_keeps (hk : Keeps s0 s) : KeepsO s0 (execSupOvercurrent s) := by
  unfold execSupOvercurrent
  repeat' first
    | with_reducible exact hk | with_reducible assumption
    | with_reducible apply whilePowered_keeps | with_reducible apply settle_keeps
    | with_reducible apply shutOffBy_keeps | with_reducible refine KeepsO.next ?_
    | with_reducible refine KeepsO.ite ?_ ?_ | intro _ | dsimp only

/-- What `execSupVauxLow` keeps. -/
theorem execSupVauxLow_keeps (hk : Keeps s0 s) : KeepsO s0 (execSupVauxLow s) := by
  unfold execSupVauxLow
  repeat' first
    | with_reducible exact hk | with_reducible assumption
    | with_reducible apply whilePowered_keeps | with_reducible apply settle_keeps
    | with_reducible apply shutOffBy_keeps | with_reducible refine KeepsO.next ?_
    | with_reducible refine KeepsO.ite ?_ ?_ | intro _ | dsimp only

/-- What `noteHot` keeps. -/
theorem noteHot_keeps (hk : Keeps s0 s) (k : Nat) : Keeps s0 (noteHot s k) := by
  unfold noteHot
  repeat' first
    | with_reducible exact hk | simp only [Keeps.fields] | with_reducible refine Keeps.ite ?_ ?_
    | intro _

/-- What `execThermWarn` keeps. -/
theorem execThermWarn_keeps (hk : Keeps s0 s) (sensor : Fin 32) : KeepsO s0 (execThermWarn sensor s) := by
  unfold execThermWarn
  repeat' first
    | with_reducible exact hk | with_reducible assumption
    | with_reducible apply whilePowered_keeps | with_reducible apply settle_keeps
    | with_reducible apply raise_keeps | with_reducible apply noteHot_keeps
    | with_reducible refine KeepsO.next ?_ | with_reducible refine KeepsO.ite ?_ ?_
    | with_reducible refine Keeps.ite ?_ ?_ | intro _ | dsimp only

/-- What `execThermHot` keeps. -/
theorem execThermHot_keeps (hk : Keeps s0 s) (sensor : Fin 32) : KeepsO s0 (execThermHot sensor s) := by
  unfold execThermHot
  repeat' first
    | with_reducible exact hk | with_reducible assumption
    | with_reducible apply whilePowered_keeps | with_reducible apply settle_keeps
    | with_reducible apply raise_keeps | with_reducible apply setBrake_keeps
    | with_reducible apply noteHot_keeps | with_reducible refine KeepsO.next ?_
    | with_reducible refine KeepsO.ite ?_ ?_ | with_reducible refine Keeps.ite ?_ ?_ | intro _
    | dsimp only

/-- What `execThermTrip` keeps. -/
theorem execThermTrip_keeps (hk : Keeps s0 s) (sensor : Fin 32) : KeepsO s0 (execThermTrip sensor s) := by
  unfold execThermTrip
  repeat' first
    | with_reducible exact hk | with_reducible assumption
    | with_reducible apply whilePowered_keeps | with_reducible apply settle_keeps
    | with_reducible apply shutOffBy_keeps | with_reducible refine KeepsO.next ?_
    | with_reducible refine KeepsO.ite ?_ ?_ | with_reducible refine Keeps.ite ?_ ?_ | intro _
    | dsimp only

/-- What `collapseVin` keeps. -/
theorem collapseVin_keeps (hk : Keeps s0 s) : Keeps s0 (collapseVin s) := by
  unfold collapseVin
  repeat' first
    | with_reducible exact hk | with_reducible apply setBrake_keeps
    | with_reducible apply incr_keeps | with_reducible apply shutOffBy_keeps

/-- What `execVinCollapse` keeps. -/
theorem execVinCollapse_keeps (hk : Keeps s0 s) : KeepsO s0 (execVinCollapse s) := by
  unfold execVinCollapse
  repeat' first
    | with_reducible exact hk | with_reducible assumption
    | with_reducible apply whilePowered_keeps | with_reducible apply settle_keeps
    | with_reducible apply collapseVin_keeps | with_reducible refine KeepsO.next ?_
    | with_reducible refine KeepsO.ite ?_ ?_ | intro _ | dsimp only

/-- What `restartSupply` keeps. -/
theorem restartSupply_keeps (hk : Keeps s0 s) : Keeps s0 (restartSupply s) := by
  unfold restartSupply
  repeat' first
    | with_reducible exact hk | with_reducible apply takeSettings_keeps
    | with_reducible apply beginReset_keeps | simp only [Keeps.fields]
    | with_reducible refine Keeps.ite ?_ ?_ | intro _ | dsimp only | split

/-- What `execSupplyRestart` keeps. -/
theorem execSupplyRestart_keeps (hk : Keeps s0 s) : KeepsO s0 (execSupplyRestart s) := by
  unfold execSupplyRestart
  repeat' first
    | with_reducible exact hk | with_reducible apply settle_keeps
    | with_reducible apply restartSupply_keeps | with_reducible refine KeepsO.next ?_
    | with_reducible refine KeepsO.ite ?_ ?_

/-- What `dropLink` keeps. -/
theorem dropLink_keeps (hk : Keeps s0 s) (p : Nat) : Keeps s0 (dropLink s p) := by
  unfold dropLink
  repeat' first
    | with_reducible exact hk | with_reducible apply wg_keeps

/-- What `setRef` keeps. -/
theorem setRef_keeps (hk : Keeps s0 s) (n : Half) (on : Bool) : Keeps s0 (setRef s n on) := by
  unfold setRef
  repeat' first
    | with_reducible exact hk | with_reducible assumption
    | with_reducible apply whilePowered_keeps | with_reducible apply showClocks_keeps
    | with_reducible apply trainLink_keeps | with_reducible apply dropLink_keeps
    | with_reducible exact id | with_reducible exact mwf_mkeep _ _ _
    | with_reducible exact fun _ => mwf_nil _ | with_reducible exact Nat.le_refl _
    | with_reducible exact Nat.le_add_right _ _ | with_reducible exact keysUp_filter _ _
    | with_reducible exact keysUp_mkeep _ _ | with_reducible rfl | simp only [Keeps.fields]
    | with_reducible apply forEach_keeps | with_reducible apply foldl_keeps
    | with_reducible apply foldl_fst_keeps | with_reducible refine Keeps.ite ?_ ?_ | intro _
    | dsimp only | split | refine Keeps.ofSnd (by assumption) ?_
    | refine Keeps.ofFst (by assumption) ?_ | with_reducible apply Keeps.change

/-- What `execRefclkLoss` keeps. -/
theorem execRefclkLoss_keeps (hk : Keeps s0 s) (n : Half) : KeepsO s0 (execRefclkLoss n s) := by
  unfold execRefclkLoss
  repeat' first
    | with_reducible exact hk | with_reducible apply setRef_keeps
    | with_reducible refine KeepsO.next ?_ | with_reducible refine KeepsO.ite ?_ ?_

/-- What `execRefclkRestore` keeps. -/
theorem execRefclkRestore_keeps (hk : Keeps s0 s) (n : Half) : KeepsO s0 (execRefclkRestore n s) := by
  unfold execRefclkRestore
  repeat' first
    | with_reducible exact hk | with_reducible apply setRef_keeps
    | with_reducible refine KeepsO.next ?_ | with_reducible refine KeepsO.ite ?_ ?_

/-- What `execSlowclkLoss` keeps. -/
theorem execSlowclkLoss_keeps (hk : Keeps s0 s) : KeepsO s0 (execSlowclkLoss s) := by
  unfold execSlowclkLoss
  repeat' first
    | with_reducible exact hk | with_reducible assumption
    | with_reducible apply whilePowered_keeps | with_reducible apply showClocks_keeps
    | with_reducible exact id | with_reducible exact mwf_mkeep _ _ _
    | with_reducible exact fun _ => mwf_nil _ | with_reducible exact Nat.le_refl _
    | with_reducible exact Nat.le_add_right _ _ | with_reducible exact keysUp_filter _ _
    | with_reducible exact keysUp_mkeep _ _ | with_reducible rfl
    | with_reducible refine KeepsO.next ?_ | with_reducible refine KeepsO.ite ?_ ?_
    | simp only [Keeps.fields] | intro _ | with_reducible apply Keeps.change

/-- What `execSlowclkRestore` keeps. -/
theorem execSlowclkRestore_keeps (hk : Keeps s0 s) : KeepsO s0 (execSlowclkRestore s) := by
  unfold execSlowclkRestore
  repeat' first
    | with_reducible exact hk | with_reducible assumption
    | with_reducible apply whilePowered_keeps | with_reducible apply showClocks_keeps
    | with_reducible exact id | with_reducible exact mwf_mkeep _ _ _
    | with_reducible exact fun _ => mwf_nil _ | with_reducible exact Nat.le_refl _
    | with_reducible exact Nat.le_add_right _ _ | with_reducible exact keysUp_filter _ _
    | with_reducible exact keysUp_mkeep _ _ | with_reducible rfl
    | with_reducible refine KeepsO.next ?_ | with_reducible refine KeepsO.ite ?_ ?_
    | simp only [Keeps.fields] | intro _ | with_reducible apply Keeps.change

end Sys2Proof.Machine
end

