-- ==== Sys2Proof/Laws/KeepsBoot.lean ====
section
/-!
SUPPORT. What the operations of Machine/Boot.lean keep (`Keeps`).
-/

namespace Sys2Proof.Machine

variable {s0 s : State}

/-- A loss of VAUX33 leaves the straps unsampled. -/
theorem lostAll_keeps (s : State) :
    Keeps { s with pins := { s.pins with straps := {} } } (lostAll s) := by
  unfold lostAll
  refine wg_keeps ?_ _ _ _
  exact ⟨rfl, rfl, Nat.le_refl _, fun _ => rfl, keysUp_filter s.regs _⟩

/-- What the loss of VAUX33 keeps. -/
theorem execVauxLoss_keeps (s : State) :
    KeepsO { s with pins := { s.pins with straps := {} } } (execVauxLoss s) :=
  KeepsO.next (lostAll_keeps s)

/-- What `powerUp` keeps. -/
theorem powerUp_keeps (hk : Keeps s0 s) : Keeps s0 (powerUp s) := by
  unfold powerUp
  repeat' first
    | with_reducible exact hk | with_reducible apply showClocks_keeps
    | with_reducible apply wg_keeps | with_reducible apply bootSolfatara_keeps
    | with_reducible apply takePin_keeps | with_reducible exact id
    | with_reducible exact mwf_mkeep _ _ _ | with_reducible exact fun _ => mwf_nil _
    | with_reducible exact Nat.le_refl _ | with_reducible exact Nat.le_add_right _ _
    | with_reducible exact keysUp_filter _ _ | with_reducible exact keysUp_mkeep _ _
    | with_reducible rfl | simp only [Keeps.fields] | with_reducible refine Keeps.ite ?_ ?_
    | intro _ | dsimp only | with_reducible apply Keeps.change

/-- What `execPowerOn` keeps. -/
theorem execPowerOn_keeps (hk : Keeps s0 s) : KeepsO s0 (execPowerOn s) := by
  unfold execPowerOn
  repeat' first
    | with_reducible exact hk | with_reducible apply settle_keeps
    | with_reducible apply powerUp_keeps | with_reducible refine KeepsO.next ?_
    | with_reducible refine KeepsO.ite ?_ ?_

/-- What `takePlan` keeps. -/
theorem takePlan_keeps (hk : Keeps s0 s) (plan : Nat) : Keeps s0 (takePlan s plan) := by
  unfold takePlan
  repeat' first
    | with_reducible exact hk | with_reducible assumption | with_reducible apply wg_keeps
    | with_reducible apply raise_keeps | simp only [Keeps.fields]
    | with_reducible apply foldl_keeps | with_reducible apply foldl_fst_keeps
    | with_reducible refine Keeps.ite ?_ ?_ | intro _ | dsimp only

/-- What `takeToken` keeps. -/
theorem takeToken_keeps (hk : Keeps s0 s) (strap : Bool) : Keeps s0 (takeToken s strap) := by
  unfold takeToken
  repeat' first
    | with_reducible exact hk | with_reducible apply wg_keeps | with_reducible apply raise_keeps
    | simp only [Keeps.fields] | with_reducible refine Keeps.ite ?_ ?_ | intro _ | dsimp only

/-- Sampling takes the levels that the pins show, or nothing happens. -/
theorem sampleStraps_keeps (s : State) (p : Straps) :
    Keeps s (sampleStraps s p) ∨
      Keeps { s with pins := { s.pins with straps := p } } (sampleStraps s p) := by
  unfold sampleStraps
  split
  · exact Or.inl (Keeps.refl s)
  · refine Or.inr (takeToken_keeps (takePlan_keeps ?_ _) _)
    exact ⟨rfl, rfl, Nat.le_refl _, id, id⟩

/-- What sampling the straps keeps. -/
theorem execStrapSample_keeps (s : State) (p : Straps) :
    KeepsO s (execStrapSample p s) ∨
      KeepsO { s with pins := { s.pins with straps := p } } (execStrapSample p s) := by
  cases sampleStraps_keeps s p with
  | inl h => exact Or.inl (KeepsO.next (settle_keeps h))
  | inr h => exact Or.inr (KeepsO.next (settle_keeps h))

/-- What `vinReady` keeps. -/
theorem vinReady_keeps (hk : Keeps s0 s) : Keeps s0 (vinReady s) := by
  unfold vinReady
  repeat' first
    | with_reducible exact hk | with_reducible apply beginReset_keeps | with_reducible exact id
    | with_reducible exact mwf_mkeep _ _ _ | with_reducible exact fun _ => mwf_nil _
    | with_reducible exact Nat.le_refl _ | with_reducible exact Nat.le_add_right _ _
    | with_reducible exact keysUp_filter _ _ | with_reducible exact keysUp_mkeep _ _
    | with_reducible rfl | simp only [Keeps.fields] | with_reducible refine Keeps.ite ?_ ?_
    | intro _ | dsimp only | split | with_reducible apply Keeps.change

/-- What `execVin48Ready` keeps. -/
theorem execVin48Ready_keeps (hk : Keeps s0 s) : KeepsO s0 (execVin48Ready s) := by
  unfold execVin48Ready
  repeat' first
    | with_reducible exact hk | with_reducible apply settle_keeps
    | with_reducible apply vinReady_keeps | with_reducible refine KeepsO.next ?_
    | with_reducible refine KeepsO.ite ?_ ?_

/-- What `commitFuses` keeps. -/
theorem commitFuses_keeps (hk : Keeps s0 s) (img : Image) : Keeps s0 (commitFuses s img) := by
  unfold commitFuses
  repeat' first
    | with_reducible exact hk | with_reducible apply wg_keeps
    | with_reducible refine Keeps.ite ?_ ?_ | intro _ | dsimp only | split

/-- What `execFuseCommit` keeps. -/
theorem execFuseCommit_keeps (hk : Keeps s0 s) (img : Image) : KeepsO s0 (execFuseCommit img s) := by
  unfold execFuseCommit
  repeat' first
    | with_reducible exact hk | with_reducible apply commitFuses_keeps
    | with_reducible refine KeepsO.next ?_ | with_reducible refine KeepsO.ite ?_ ?_

/-- What `loseVio` keeps. -/
theorem loseVio_keeps (hk : Keeps s0 s) : Keeps s0 (loseVio s) := by
  unfold loseVio
  repeat' first
    | with_reducible exact hk | with_reducible assumption
    | with_reducible apply whilePowered_keeps | with_reducible apply takePin_keeps
    | with_reducible apply wg_keeps | with_reducible exact id
    | with_reducible exact mwf_mkeep _ _ _ | with_reducible exact fun _ => mwf_nil _
    | with_reducible exact Nat.le_refl _ | with_reducible exact Nat.le_add_right _ _
    | with_reducible exact keysUp_filter _ _ | with_reducible exact keysUp_mkeep _ _
    | with_reducible rfl | simp only [Keeps.fields] | intro _ | dsimp only
    | with_reducible apply Keeps.change

/-- What `execVioLoss` keeps. -/
theorem execVioLoss_keeps (hk : Keeps s0 s) : KeepsO s0 (execVioLoss s) := by
  unfold execVioLoss
  repeat' first
    | with_reducible exact hk | with_reducible apply loseVio_keeps
    | with_reducible refine KeepsO.next ?_ | with_reducible refine KeepsO.ite ?_ ?_

/-- What `execVioRestore` keeps. -/
theorem execVioRestore_keeps (hk : Keeps s0 s) : KeepsO s0 (execVioRestore s) := by
  unfold execVioRestore
  repeat' first
    | with_reducible exact hk | with_reducible assumption
    | with_reducible apply whilePowered_keeps | with_reducible apply takePin_keeps
    | with_reducible apply wg_keeps | with_reducible exact id
    | with_reducible exact mwf_mkeep _ _ _ | with_reducible exact fun _ => mwf_nil _
    | with_reducible exact Nat.le_refl _ | with_reducible exact Nat.le_add_right _ _
    | with_reducible exact keysUp_filter _ _ | with_reducible exact keysUp_mkeep _ _
    | with_reducible rfl | with_reducible refine KeepsO.next ?_
    | with_reducible refine KeepsO.ite ?_ ?_ | simp only [Keeps.fields] | intro _ | dsimp only
    | with_reducible apply Keeps.change

/-- What `writeExtCtl` keeps. -/
theorem writeExtCtl_keeps (hk : Keeps s0 s) (r : Requester) (val : Nat) (go : Bool) : Keeps s0 (writeExtCtl s r val go) := by
  unfold writeExtCtl
  repeat' first
    | with_reducible exact hk | with_reducible assumption
    | with_reducible apply guardedWrite_keeps | with_reducible apply writeStored_keeps
    | with_reducible apply extendMr_keeps | with_reducible refine Keeps.ite ?_ ?_ | intro _
    | dsimp only

/-- What `execMrExtend` keeps. -/
theorem execMrExtend_keeps (hk : Keeps s0 s) (r : Requester) (val : BitVec 32) : KeepsO s0 (execMrExtend r val s) := by
  unfold execMrExtend
  repeat' first
    | with_reducible exact hk | with_reducible apply writeExtCtl_keeps
    | with_reducible refine KeepsO.next ?_ | with_reducible refine KeepsO.ite ?_ ?_

end Sys2Proof.Machine
end

