-- ==== Sys2Proof/Laws/KeepsLandom.lean ====
section
/-!
SUPPORT. What the operations of Machine/Landom.lean keep (`Keeps`).
-/

namespace Sys2Proof.Machine

variable {s0 s : State}

/-- What `setRecord` keeps. -/
theorem setRecord_keeps (hk : Keeps s0 s) (job : Nat) (r : Record) : Keeps s0 (setRecord s job r) := by
  unfold setRecord
  repeat' first
    | with_reducible exact hk | simp only [Keeps.fields]

/-- What `checkReads` keeps. -/
theorem checkReads_keeps (hk : Keeps s0 s) (rs : List (Nat × Nat)) : Keeps s0 (checkReads s rs) := by
  unfold checkReads
  repeat' first
    | with_reducible exact hk | with_reducible apply checkErrs_keeps | dsimp only
    | refine Keeps.ofSnd (by assumption) ?_ | refine Keeps.ofFst (by assumption) ?_

/-- What `startSegment` keeps. -/
theorem startSegment_keeps (hk : Keeps s0 s) : Keeps s0 (startSegment s) := by
  unfold startSegment
  repeat' first
    | with_reducible exact hk | with_reducible assumption | with_reducible apply checkReads_keeps
    | with_reducible apply wg_keeps | simp only [Keeps.fields] | with_reducible apply foldl_keeps
    | with_reducible apply foldl_fst_keeps | with_reducible refine Keeps.ite ?_ ?_ | intro _
    | dsimp only

/-- What `writeSegCtl` keeps. -/
theorem writeSegCtl_keeps (hk : Keeps s0 s) (r : Requester) (go : Bool) (mine : Nat → Bool) : Keeps s0 (writeSegCtl s r go mine) := by
  unfold writeSegCtl
  repeat' first
    | with_reducible exact hk | with_reducible assumption
    | with_reducible apply guardedWrite_keeps | with_reducible apply incr_keeps
    | with_reducible apply startSegment_keeps | with_reducible refine Keeps.ite ?_ ?_ | intro _
    | dsimp only

/-- What `execSegOpen` keeps. -/
theorem execSegOpen_keeps (hk : Keeps s0 s) (r : Requester) : KeepsO s0 (execSegOpen r s) := by
  unfold execSegOpen
  repeat' first
    | with_reducible exact hk | with_reducible apply writeSegCtl_keeps
    | with_reducible refine KeepsO.next ?_ | with_reducible refine KeepsO.ite ?_ ?_ | dsimp only
    | split

/-- What `execSegPeriodic` keeps. -/
theorem execSegPeriodic_keeps (hk : Keeps s0 s) (r : Requester) : KeepsO s0 (execSegPeriodic r s) := by
  unfold execSegPeriodic
  repeat' first
    | with_reducible exact hk | with_reducible apply writeSegCtl_keeps
    | with_reducible refine KeepsO.next ?_ | with_reducible refine KeepsO.ite ?_ ?_ | dsimp only

/-- What `execSegCheckpoint` keeps. -/
theorem execSegCheckpoint_keeps (hk : Keeps s0 s) (r : Requester) : KeepsO s0 (execSegCheckpoint r s) := by
  unfold execSegCheckpoint
  repeat' first
    | with_reducible exact hk | with_reducible apply writeSegCtl_keeps
    | with_reducible refine KeepsO.next ?_ | with_reducible refine KeepsO.ite ?_ ?_ | dsimp only

/-- What `execSegClose` keeps. -/
theorem execSegClose_keeps (hk : Keeps s0 s) (r : Requester) : KeepsO s0 (execSegClose r s) := by
  unfold execSegClose
  repeat' first
    | with_reducible exact hk | with_reducible apply writeSegCtl_keeps
    | with_reducible refine KeepsO.next ?_ | with_reducible refine KeepsO.ite ?_ ?_ | dsimp only

/-- What `execSegState` keeps. -/
theorem execSegState_keeps (hk : Keeps s0 s) (r : Requester) : KeepsO s0 (execSegState r s) := by
  unfold execSegState
  repeat' first
    | with_reducible exact hk | with_reducible apply writeSegCtl_keeps
    | with_reducible refine KeepsO.next ?_ | with_reducible refine KeepsO.ite ?_ ?_ | dsimp only

/-- What `copyEvents` keeps. -/
theorem copyEvents_keeps (hk : Keeps s0 s) (q : SegRun) (r : Record) : Keeps s0 (copyEvents s q r) := by
  unfold copyEvents
  repeat' first
    | with_reducible exact hk | with_reducible assumption | with_reducible apply wg_keeps
    | with_reducible apply updSeq_keeps | simp only [Keeps.fields]
    | with_reducible apply forEach_keeps | with_reducible refine Keeps.ite ?_ ?_ | intro _
    | dsimp only

/-- What `seedDies` keeps. -/
theorem seedDies_keeps (hk : Keeps s0 s) (q : SegRun) (r : Record) : Keeps s0 (seedDies s q r) := by
  unfold seedDies
  repeat' first
    | with_reducible exact hk | with_reducible assumption | with_reducible apply wg_keeps
    | with_reducible apply forEach_keeps | with_reducible refine Keeps.ite ?_ ?_ | intro _
    | dsimp only

/-- What `endSegment` keeps. -/
theorem endSegment_keeps (hk : Keeps s0 s) (code len : Nat) : Keeps s0 (endSegment s code len) := by
  unfold endSegment
  repeat' first
    | with_reducible exact hk | with_reducible apply wg_keeps | simp only [Keeps.fields]
    | dsimp only

/-- What `writeSegment` keeps. -/
theorem writeSegment_keeps (hk : Keeps s0 s) (q : SegRun) (r : Record) : Keeps s0 (writeSegment s q r) := by
  unfold writeSegment
  repeat' first
    | with_reducible exact hk | with_reducible apply checkReads_keeps
    | with_reducible apply endSegment_keeps | with_reducible apply copyEvents_keeps
    | with_reducible apply seedDies_keeps | with_reducible apply setRecord_keeps
    | with_reducible apply storeBoth_keeps | with_reducible refine Keeps.ite ?_ ?_ | intro _
    | dsimp only

/-- What `completeSegment` keeps. -/
theorem completeSegment_keeps (hk : Keeps s0 s) : Keeps s0 (completeSegment s) := by
  unfold completeSegment
  repeat' first
    | with_reducible exact hk | with_reducible apply endSegment_keeps
    | with_reducible apply writeSegment_keeps | with_reducible refine Keeps.ite ?_ ?_ | intro _
    | dsimp only | split

/-- What `execSegmentComplete` keeps. -/
theorem execSegmentComplete_keeps (hk : Keeps s0 s) : KeepsO s0 (execSegmentComplete s) := by
  unfold execSegmentComplete
  repeat' first
    | with_reducible exact hk | with_reducible apply settle_keeps
    | with_reducible apply completeSegment_keeps | with_reducible refine KeepsO.next ?_
    | with_reducible refine KeepsO.ite ?_ ?_ | with_reducible refine Keeps.ite ?_ ?_ | intro _

end Sys2Proof.Machine
end

