-- ==== Sys2Proof/Laws/KeepsResetCmds.lean ====
section
/-!
SUPPORT. What the operations of Machine/ResetCmds.lean keep (`Keeps`).
-/

namespace Sys2Proof.Machine

variable {s0 s : State}

/-- What `quietClear` keeps. -/
theorem quietClear_keeps (hk : Keeps s0 s) : Keeps s0 (quietClear s) := by
  unfold quietClear
  repeat' first
    | with_reducible exact hk | with_reducible assumption | with_reducible apply wg_keeps
    | with_reducible apply incr_keeps | with_reducible apply forEach_keeps
    | with_reducible refine Keeps.ite ?_ ?_ | intro _ | dsimp only
    | refine Keeps.ofSnd (by assumption) ?_ | refine Keeps.ofFst (by assumption) ?_

/-- What `execQuietPeriodExpiry` keeps. -/
theorem execQuietPeriodExpiry_keeps (hk : Keeps s0 s) : KeepsO s0 (execQuietPeriodExpiry s) := by
  unfold execQuietPeriodExpiry
  repeat' first
    | with_reducible exact hk | with_reducible apply quietClear_keeps
    | with_reducible refine KeepsO.next ?_ | with_reducible refine KeepsO.ite ?_ ?_

/-- What `endAborted` keeps. -/
theorem endAborted_keeps (hk : Keeps s0 s) (q : Nat) (o : Op) : Keeps s0 (endAborted s q o) := by
  unfold endAborted
  repeat' first
    | with_reducible exact hk | with_reducible apply completeOp_keeps | simp only [Keeps.fields]

/-- What `clearGeyser` keeps. -/
theorem clearGeyser_keeps (hk : Keeps s0 s) (h : Nat) : Keeps s0 (clearGeyser s h) := by
  unfold clearGeyser
  repeat' first
    | with_reducible exact hk | with_reducible assumption | with_reducible apply endAborted_keeps
    | with_reducible apply updGeyser_keeps | simp only [Keeps.fields]
    | with_reducible apply forEach_keeps | intro _ | dsimp only
    | refine Keeps.ofSnd (by assumption) ?_ | refine Keeps.ofFst (by assumption) ?_

/-- What `clearCollective` keeps. -/
theorem clearCollective_keeps (hk : Keeps s0 s) (h : Nat) : Keeps s0 (clearCollective s h) := by
  unfold clearCollective
  repeat' first
    | with_reducible exact hk | with_reducible assumption | with_reducible apply endAborted_keeps
    | with_reducible apply updGeyser_keeps | with_reducible apply updCq_keeps
    | simp only [Keeps.fields] | with_reducible apply forEach_keeps
    | with_reducible refine Keeps.ite ?_ ?_ | intro _ | dsimp only
    | refine Keeps.ofSnd (by assumption) ?_ | refine Keeps.ofFst (by assumption) ?_

/-- What `clearDma` keeps. -/
theorem clearDma_keeps (hk : Keeps s0 s) (e : Nat) : Keeps s0 (clearDma s e) := by
  unfold clearDma
  repeat' first
    | with_reducible exact hk | with_reducible assumption | with_reducible apply cutDma_keeps
    | with_reducible apply forEach_keeps | intro _ | dsimp only | split

/-- What `restartEngine` keeps. -/
theorem restartEngine_keeps (hk : Keeps s0 s) (e : Engine) : Keeps s0 (restartEngine s e) := by
  unfold restartEngine
  repeat' first
    | with_reducible exact hk | with_reducible apply clearGeyser_keeps
    | with_reducible apply clearCollective_keeps | with_reducible apply clearDma_keeps
    | simp only [Keeps.fields] | with_reducible refine Keeps.ite ?_ ?_ | intro _ | dsimp only
    | split

/-- What `fenceFirst` keeps. -/
theorem fenceFirst_keeps (hk : Keeps s0 s) (y0 : Scope) : Keeps s0 (fenceFirst s y0) := by
  unfold fenceFirst
  repeat' first
    | with_reducible exact hk | with_reducible apply fenceOnly_keeps | split

/-- What `demandWith` keeps. -/
theorem demandWith_keeps (hk : Keeps s0 s) (sc : Scope) (before : Option Scope) (hung : Option (Nat × Nat × Nat)) (e : Nat → Event) : Keeps s0 (demandWith s sc before hung e) := by
  unfold demandWith
  repeat' first
    | with_reducible exact hk | with_reducible apply takeEvents_keeps
    | with_reducible apply raise_keeps | with_reducible apply sampleScope_keeps
    | with_reducible apply startLevel_keeps | with_reducible apply fenceFirst_keeps | dsimp only
    | split

/-- What `raiseAbort` keeps. -/
theorem raiseAbort_keeps (hk : Keeps s0 s) (e : Event) : Keeps s0 (raiseAbort s e) := by
  unfold raiseAbort
  repeat' first
    | with_reducible exact hk | with_reducible apply takeEvents_keeps
    | with_reducible apply raise_keeps | with_reducible apply abortJob_keeps
    | with_reducible refine Keeps.ite ?_ ?_ | intro _ | dsimp only

/-- What `recoverEngine` keeps. -/
theorem recoverEngine_keeps (hk : Keeps s0 s) (slot : Nat) : Keeps s0 (recoverEngine s slot) := by
  unfold recoverEngine
  repeat' first
    | with_reducible exact hk | with_reducible apply restartEngine_keeps
    | with_reducible apply takeEvents_keeps | with_reducible apply raise_keeps
    | with_reducible apply raiseAbort_keeps | with_reducible apply updCmd_keeps
    | simp only [Keeps.fields] | dsimp only | split | refine Keeps.ofSnd (by assumption) ?_
    | refine Keeps.ofFst (by assumption) ?_

/-- What `declareHang` keeps. -/
theorem declareHang_keeps (hk : Keeps s0 s) (slot : Nat) : Keeps s0 (declareHang s slot) := by
  unfold declareHang
  repeat' first
    | with_reducible exact hk | with_reducible apply ageWindow_keeps
    | with_reducible apply demandWith_keeps | with_reducible apply recoverEngine_keeps
    | with_reducible refine Keeps.ite ?_ ?_ | intro _ | dsimp only | split

/-- What `execTremorWindowExpiry` keeps. -/
theorem execTremorWindowExpiry_keeps (hk : Keeps s0 s) (slot : Nat) : KeepsO s0 (execTremorWindowExpiry slot s) := by
  unfold execTremorWindowExpiry
  repeat' first
    | with_reducible exact hk | with_reducible apply settle_keeps
    | with_reducible apply declareHang_keeps | with_reducible refine KeepsO.next ?_
    | with_reducible refine KeepsO.ite ?_ ?_

/-- What `timeoutAbort` keeps. -/
theorem timeoutAbort_keeps (hk : Keeps s0 s) (a : Abort) : Keeps s0 (timeoutAbort s a) := by
  unfold timeoutAbort
  repeat' first
    | with_reducible exact hk | with_reducible apply restartEngine_keeps
    | with_reducible apply takeEvents_keeps | with_reducible apply raise_keeps
    | simp only [Keeps.fields] | with_reducible refine Keeps.ite ?_ ?_ | intro _ | dsimp only

/-- What `execAbortTimeout` keeps. -/
theorem execAbortTimeout_keeps (hk : Keeps s0 s) (a : Abort) : KeepsO s0 (execAbortTimeout a s) := by
  unfold execAbortTimeout
  repeat' first
    | with_reducible exact hk | with_reducible apply settle_keeps
    | with_reducible apply timeoutAbort_keeps | with_reducible refine KeepsO.next ?_
    | with_reducible refine KeepsO.ite ?_ ?_

/-- What `holdPackage` keeps. -/
theorem holdPackage_keeps (hk : Keeps s0 s) : Keeps s0 (holdPackage s) := by
  unfold holdPackage
  repeat' first
    | with_reducible exact hk | with_reducible apply wg_keeps
    | with_reducible apply showResets_keeps | with_reducible apply raise_keeps
    | simp only [Keeps.fields] | dsimp only

/-- What `widen` keeps. -/
theorem widen_keeps (hk : Keeps s0 s) (sc : Scope) : Keeps s0 (widen s sc) := by
  unfold widen
  repeat' first
    | with_reducible exact hk | with_reducible apply holdPackage_keeps
    | with_reducible apply demandWith_keeps | dsimp only | split

/-- What `widenEngine` keeps. -/
theorem widenEngine_keeps (hk : Keeps s0 s) (e : Engine) : Keeps s0 (widenEngine s e) := by
  unfold widenEngine
  repeat' first
    | with_reducible exact hk | with_reducible apply demandWith_keeps
    | with_reducible apply wg_keeps | simp only [Keeps.fields]
    | with_reducible refine Keeps.ite ?_ ?_ | intro _ | dsimp only

/-- What `escalate` keeps. -/
theorem escalate_keeps (hk : Keeps s0 s) (x : Recovery) : Keeps s0 (escalate s x) := by
  unfold escalate
  repeat' first
    | with_reducible exact hk | with_reducible apply widen_keeps
    | with_reducible apply widenEngine_keeps | with_reducible refine Keeps.ite ?_ ?_ | intro _
    | dsimp only | split

/-- What `execResetEscalation` keeps. -/
theorem execResetEscalation_keeps (hk : Keeps s0 s) (x : Recovery) : KeepsO s0 (execResetEscalation x s) := by
  unfold execResetEscalation
  repeat' first
    | with_reducible exact hk | with_reducible apply settle_keeps
    | with_reducible apply escalate_keeps | with_reducible refine KeepsO.next ?_
    | with_reducible refine KeepsO.ite ?_ ?_

/-- What `rebuildMap` keeps. -/
theorem rebuildMap_keeps (hk : Keeps s0 s) (d : Nat) (failed : List Nat) : Keeps s0 (rebuildMap s d failed) := by
  unfold rebuildMap
  repeat' first
    | with_reducible exact hk | with_reducible assumption | with_reducible apply markCluster_keeps
    | with_reducible apply noSpare_keeps | with_reducible apply wg_keeps
    | with_reducible apply updDie_keeps | with_reducible apply mapOrphans_keeps
    | simp only [Keeps.fields] | with_reducible apply forEach_keeps
    | with_reducible refine Keeps.ite ?_ ?_ | intro _ | dsimp only | split

/-- What `trainStacks` keeps. -/
theorem trainStacks_keeps (hk : Keeps s0 s) (d : Nat) (failed : List Nat) : Keeps s0 (trainStacks s d failed) := by
  unfold trainStacks
  repeat' first
    | with_reducible exact hk | with_reducible assumption | with_reducible apply updMem_keeps
    | with_reducible apply raise_keeps | with_reducible apply mapOutDie_keeps
    | simp only [Keeps.fields] | with_reducible apply forEach_keeps
    | with_reducible apply foldl_keeps | with_reducible apply foldl_fst_keeps | intro _
    | dsimp only

/-- What `closePkg` keeps. -/
theorem closePkg_keeps (hk : Keeps s0 s) : Keeps s0 (closePkg s) := by
  unfold closePkg
  repeat' first
    | with_reducible exact hk | simp only [Keeps.fields] | with_reducible refine Keeps.ite ?_ ?_
    | intro _ | dsimp only

/-- What `leaveOff` keeps. -/
theorem leaveOff_keeps (hk : Keeps s0 s) (l : Half) : Keeps s0 (leaveOff s l) := by
  unfold leaveOff
  repeat' first
    | with_reducible exact hk | with_reducible apply wg_keeps
    | with_reducible apply fenceEdges_keeps | with_reducible apply setFence_keeps

/-- What `lobeReturns` keeps. -/
theorem lobeReturns_keeps (hk : Keeps s0 s) (l : Half) : Keeps s0 (lobeReturns s l) := by
  unfold lobeReturns
  repeat' first
    | with_reducible exact hk | with_reducible apply wg_keeps
    | with_reducible apply restoreLobes_keeps | simp only [Keeps.fields]
    | with_reducible refine Keeps.ite ?_ ?_ | intro _ | dsimp only

/-- What `endLobe` keeps. -/
theorem endLobe_keeps (hk : Keeps s0 s) (l : Half) (b : BringUp) : Keeps s0 (endLobe s l b) := by
  unfold endLobe
  repeat' first
    | with_reducible exact hk | with_reducible assumption | with_reducible apply trainStacks_keeps
    | with_reducible apply rebuildMap_keeps | with_reducible apply closePkg_keeps
    | with_reducible apply lobeReturns_keeps | with_reducible apply leaveOff_keeps
    | with_reducible apply forEach_keeps | with_reducible refine Keeps.ite ?_ ?_ | intro _
    | dsimp only

/-- What `endCompute` keeps. -/
theorem endCompute_keeps (hk : Keeps s0 s) (b : BringUp) : Keeps s0 (endCompute s b) := by
  unfold endCompute
  repeat' first
    | with_reducible exact hk | with_reducible assumption | with_reducible apply trainStacks_keeps
    | with_reducible apply rebuildMap_keeps | with_reducible apply mapOutPkg_keeps
    | with_reducible apply wg_keeps | with_reducible apply leaveOff_keeps
    | simp only [Keeps.fields] | with_reducible apply forEach_keeps
    | with_reducible refine Keeps.ite ?_ ?_ | intro _ | dsimp only

/-- What `retakeBoth` keeps. -/
theorem retakeBoth_keeps (hk : Keeps s0 s) : Keeps s0 (retakeBoth s) := by
  unfold retakeBoth
  repeat' first
    | with_reducible exact hk | with_reducible apply beginReset_keeps
    | with_reducible refine Keeps.ite ?_ ?_ | intro _ | split

/-- What `endPackage` keeps. -/
theorem endPackage_keeps (hk : Keeps s0 s) (b : BringUp) : Keeps s0 (endPackage s b) := by
  unfold endPackage
  repeat' first
    | with_reducible exact hk | with_reducible apply retakeBoth_keeps
    | with_reducible apply measureSettings_keeps | with_reducible apply endCompute_keeps

/-- What `endFull` keeps. -/
theorem endFull_keeps (hk : Keeps s0 s) (b : BringUp) : Keeps s0 (endFull s b) := by
  unfold endFull
  repeat' first
    | with_reducible exact hk | with_reducible apply trainLink_keeps
    | with_reducible apply endCompute_keeps | with_reducible apply retakeBoth_keeps
    | with_reducible apply measureSettings_keeps | with_reducible apply wg_keeps | dsimp only

/-- What `releasePower` keeps. -/
theorem releasePower_keeps (hk : Keeps s0 s) : Keeps s0 (releasePower s) := by
  unfold releasePower
  repeat' first
    | with_reducible exact hk | with_reducible apply takePower_keeps | simp only [Keeps.fields]
    | with_reducible refine Keeps.ite ?_ ?_ | intro _ | split

/-- What `endLevel` keeps. -/
theorem endLevel_keeps (hk : Keeps s0 s) (sc : Scope) (b : BringUp) : Keeps s0 (endLevel s sc b) := by
  unfold endLevel
  repeat' first
    | with_reducible exact hk | with_reducible apply resetTiles_keeps
    | with_reducible apply rebuildMap_keeps | with_reducible apply fenceLobe_keeps
    | with_reducible apply endLobe_keeps | with_reducible apply endPackage_keeps
    | with_reducible apply endFull_keeps | with_reducible refine Keeps.ite ?_ ?_ | intro _
    | dsimp only | split

/-- What `endReset` keeps. -/
theorem endReset_keeps (hk : Keeps s0 s) (x : Recovery) (b : BringUp) : Keeps s0 (endReset s x b) := by
  unfold endReset
  repeat' first
    | with_reducible exact hk | with_reducible apply showHolds_keeps
    | with_reducible apply resetPages_keeps | with_reducible apply showResets_keeps
    | with_reducible apply releasePower_keeps | with_reducible apply takeEvents_keeps
    | with_reducible apply endLevel_keeps | simp only [Keeps.fields]
    | with_reducible refine Keeps.ite ?_ ?_ | intro _ | dsimp only | split

/-- What `execResetEnd` keeps. -/
theorem execResetEnd_keeps (hk : Keeps s0 s) (x : Recovery) (b : BringUp) : KeepsO s0 (execResetEnd x b s) := by
  unfold execResetEnd
  repeat' first
    | with_reducible exact hk | with_reducible apply settle_keeps
    | with_reducible apply endReset_keeps | with_reducible refine KeepsO.next ?_
    | with_reducible refine KeepsO.ite ?_ ?_

/-- What `requestReset` keeps. -/
theorem requestReset_keeps (hk : Keeps s0 s) (sc : Scope) : Keeps s0 (requestReset s sc) := by
  unfold requestReset
  repeat' first
    | with_reducible exact hk | with_reducible apply demandWith_keeps
    | with_reducible apply wg_keeps | dsimp only

/-- What `writeResetReq` keeps. -/
theorem writeResetReq_keeps (hk : Keeps s0 s) (r : Requester) (val : Nat) (go : Bool) : Keeps s0 (writeResetReq s r val go) := by
  unfold writeResetReq
  repeat' first
    | with_reducible exact hk | with_reducible assumption
    | with_reducible apply guardedWrite_keeps | with_reducible apply writeStored_keeps
    | with_reducible apply requestReset_keeps | with_reducible refine Keeps.ite ?_ ?_ | intro _
    | dsimp only | split

/-- What `execResetReq` keeps. -/
theorem execResetReq_keeps (hk : Keeps s0 s) (r : Requester) (val : BitVec 32) : KeepsO s0 (execResetReq r val s) := by
  unfold execResetReq
  repeat' first
    | with_reducible exact hk | with_reducible apply settle_keeps
    | with_reducible apply writeResetReq_keeps | with_reducible refine KeepsO.next ?_
    | with_reducible refine KeepsO.ite ?_ ?_

/-- What `writeInject` keeps. -/
theorem writeInject_keeps (hk : Keeps s0 s) (r : Requester) (val : Nat) (go : Bool) : Keeps s0 (writeInject s r val go) := by
  unfold writeInject
  repeat' first
    | with_reducible exact hk | with_reducible assumption
    | with_reducible apply guardedWrite_keeps | with_reducible apply writeStored_keeps
    | with_reducible apply raise_keeps | with_reducible refine Keeps.ite ?_ ?_ | intro _
    | dsimp only

/-- What `execFaultInject` keeps. -/
theorem execFaultInject_keeps (hk : Keeps s0 s) (r : Requester) (val : BitVec 32) : KeepsO s0 (execFaultInject r val s) := by
  unfold execFaultInject
  repeat' first
    | with_reducible exact hk | with_reducible apply settle_keeps
    | with_reducible apply writeInject_keeps | with_reducible refine KeepsO.next ?_
    | with_reducible refine KeepsO.ite ?_ ?_

/-- What `writeLogSel` keeps. -/
theorem writeLogSel_keeps (hk : Keeps s0 s) (r : Requester) (val : Nat) : Keeps s0 (writeLogSel s r val) := by
  unfold writeLogSel
  repeat' first
    | with_reducible exact hk | with_reducible assumption
    | with_reducible apply guardedWrite_keeps | with_reducible apply writeStored_keeps
    | simp only [Keeps.fields] | intro _ | dsimp only

/-- What `execLogCapture` keeps. -/
theorem execLogCapture_keeps (hk : Keeps s0 s) (r : Requester) (val : BitVec 32) : KeepsO s0 (execLogCapture r val s) := by
  unfold execLogCapture
  repeat' first
    | with_reducible exact hk | with_reducible apply writeLogSel_keeps
    | with_reducible refine KeepsO.next ?_ | with_reducible refine KeepsO.ite ?_ ?_

/-- What `setLobeMode` keeps. -/
theorem setLobeMode_keeps (hk : Keeps s0 s) (m : Nat) : Keeps s0 (setLobeMode s m) := by
  unfold setLobeMode
  repeat' first
    | with_reducible exact hk | with_reducible apply wg_keeps
    | with_reducible apply measureSettings_keeps | with_reducible refine Keeps.ite ?_ ?_ | intro _
    | dsimp only

/-- What `writeLobeMode` keeps. -/
theorem writeLobeMode_keeps (hk : Keeps s0 s) (r : Requester) (val : Nat) : Keeps s0 (writeLobeMode s r val) := by
  unfold writeLobeMode
  repeat' first
    | with_reducible exact hk | with_reducible assumption
    | with_reducible apply guardedWrite_keeps | with_reducible apply setLobeMode_keeps
    | with_reducible apply incr_keeps | with_reducible refine Keeps.ite ?_ ?_ | intro _
    | dsimp only

/-- What `execLobeModeWrite` keeps. -/
theorem execLobeModeWrite_keeps (hk : Keeps s0 s) (r : Requester) (val : BitVec 32) : KeepsO s0 (execLobeModeWrite r val s) := by
  unfold execLobeModeWrite
  repeat' first
    | with_reducible exact hk | with_reducible apply writeLobeMode_keeps
    | with_reducible refine KeepsO.next ?_ | with_reducible refine KeepsO.ite ?_ ?_

end Sys2Proof.Machine
end

