-- ==== Sys2Proof/Laws/KeepsSelfTest.lean ====
section
/-!
SUPPORT. What the operations of Machine/SelfTest.lean keep (`Keeps`).
-/

namespace Sys2Proof.Machine

variable {s0 s : State}

/-- What `reportTest` keeps. -/
theorem reportTest_keeps (hk : Keeps s0 s) (t : Test) (status detail : Nat) : Keeps s0 (reportTest s t status detail) := by
  unfold reportTest
  repeat' first
    | with_reducible exact hk | with_reducible apply complete_keeps | simp only [Keeps.fields]
    | dsimp only | split | refine Keeps.ofSnd (by assumption) ?_
    | refine Keeps.ofFst (by assumption) ?_

/-- What `takeTarget` keeps. -/
theorem takeTarget_keeps (hk : Keeps s0 s) (t : Test) : Keeps s0 (takeTarget s t) := by
  unfold takeTarget
  repeat' first
    | with_reducible exact hk | with_reducible apply startRotation_keeps
    | with_reducible apply updMem_keeps | with_reducible apply wg_keeps
    | with_reducible apply incr_keeps | with_reducible apply setAside_keeps
    | with_reducible apply groupAside_keeps | simp only [Keeps.fields]
    | with_reducible refine Keeps.ite ?_ ?_ | intro _ | dsimp only | split

/-- What `startQueued` keeps. -/
theorem startQueued_keeps (hk : Keeps s0 s) (t : Test) : Keeps s0 (startQueued s t) := by
  unfold startQueued
  repeat' first
    | with_reducible exact hk | with_reducible apply reportTest_keeps
    | with_reducible apply takeTarget_keeps | simp only [Keeps.fields]
    | with_reducible refine Keeps.ite ?_ ?_ | intro _ | dsimp only | split

/-- What `execTestStart` keeps. -/
theorem execTestStart_keeps (hk : Keeps s0 s) (n : Nat) : KeepsO s0 (execTestStart n s) := by
  unfold execTestStart
  repeat' first
    | with_reducible exact hk | with_reducible apply settle_keeps
    | with_reducible apply startQueued_keeps | with_reducible refine KeepsO.next ?_
    | with_reducible refine KeepsO.ite ?_ ?_ | split

/-- What `relaneGroup` keeps. -/
theorem relaneGroup_keeps (hk : Keeps s0 s) (g tx rx : Nat) : Keeps s0 (relaneGroup s g tx rx) := by
  unfold relaneGroup
  repeat' first
    | with_reducible exact hk | with_reducible apply updGroup_keeps
    | with_reducible apply finishTraining_keeps | with_reducible apply wantRetrain_keeps
    | simp only [Keeps.fields] | with_reducible refine Keeps.ite ?_ ?_ | intro _ | dsimp only

/-- What `narrowGroup` keeps. -/
theorem narrowGroup_keeps (hk : Keeps s0 s) (g lane : Nat) : Keeps s0 (narrowGroup s g lane) := by
  unfold narrowGroup
  repeat' first
    | with_reducible exact hk | with_reducible apply relaneGroup_keeps
    | with_reducible refine Keeps.ite ?_ ?_ | intro _

/-- What `failTarget` keeps. -/
theorem failTarget_keeps (hk : Keeps s0 s) (t : Test) (readable : Bool) (unit : Nat) : Keeps s0 (failTarget s t readable unit) := by
  unfold failTarget
  repeat' first
    | with_reducible exact hk | with_reducible apply fenceCluster_keeps
    | with_reducible apply fenceLobe_keeps | with_reducible apply dropHold_keeps
    | with_reducible apply raise_keeps | with_reducible apply failChannel_keeps
    | with_reducible apply bundleDown_keeps | with_reducible apply setAside_keeps
    | with_reducible apply narrowGroup_keeps | with_reducible refine Keeps.ite ?_ ?_ | intro _
    | dsimp only | split

/-- What `passTarget` keeps. -/
theorem passTarget_keeps (hk : Keeps s0 s) (t : Test) : Keeps s0 (passTarget s t) := by
  unfold passTarget
  repeat' first
    | with_reducible exact hk | with_reducible apply dropHold_keeps
    | with_reducible apply setAside_keeps | with_reducible apply groupBack_keeps | split

/-- What `endTest` keeps. -/
theorem endTest_keeps (hk : Keeps s0 s) (t : Test) (pass readable : Bool) (failUnit elapsed : Nat) : Keeps s0 (endTest s t pass readable failUnit elapsed) := by
  unfold endTest
  repeat' first
    | with_reducible exact hk | with_reducible apply reportTest_keeps
    | with_reducible apply passTarget_keeps | with_reducible apply failTarget_keeps
    | with_reducible refine Keeps.ite ?_ ?_ | intro _ | dsimp only

/-- What `execTestEnd` keeps. -/
theorem execTestEnd_keeps (hk : Keeps s0 s) (n : Nat) (pass readable : Bool) (failUnit elapsed : Nat) : KeepsO s0 (execTestEnd n pass readable failUnit elapsed s) := by
  unfold execTestEnd
  repeat' first
    | with_reducible exact hk | with_reducible apply settle_keeps
    | with_reducible apply endTest_keeps | with_reducible refine KeepsO.next ?_
    | with_reducible refine KeepsO.ite ?_ ?_ | split

/-- What `expireTest` keeps. -/
theorem expireTest_keeps (hk : Keeps s0 s) (t : Test) : Keeps s0 (expireTest s t) := by
  unfold expireTest
  repeat' first
    | with_reducible exact hk | with_reducible apply reportTest_keeps
    | with_reducible refine Keeps.ite ?_ ?_ | intro _

/-- What `execTestDeadlineExpiry` keeps. -/
theorem execTestDeadlineExpiry_keeps (hk : Keeps s0 s) (n : Nat) : KeepsO s0 (execTestDeadlineExpiry n s) := by
  unfold execTestDeadlineExpiry
  repeat' first
    | with_reducible exact hk | with_reducible apply settle_keeps
    | with_reducible apply expireTest_keeps | with_reducible refine KeepsO.next ?_
    | with_reducible refine KeepsO.ite ?_ ?_ | split

/-- What `startRecal` keeps. -/
theorem startRecal_keeps (hk : Keeps s0 s) (u : LinkUnit) : Keeps s0 (startRecal s u) := by
  unfold startRecal
  repeat' first
    | with_reducible exact hk | with_reducible apply setAside_keeps
    | with_reducible apply groupAside_keeps | with_reducible refine Keeps.ite ?_ ?_ | intro _
    | dsimp only | split

/-- What `execLinkRecalibration` keeps. -/
theorem execLinkRecalibration_keeps (hk : Keeps s0 s) (u : LinkUnit) : KeepsO s0 (execLinkRecalibration u s) := by
  unfold execLinkRecalibration
  repeat' first
    | with_reducible exact hk | with_reducible apply startRecal_keeps
    | with_reducible refine KeepsO.next ?_ | with_reducible refine KeepsO.ite ?_ ?_

/-- What `endBundleRecal` keeps. -/
theorem endBundleRecal_keeps (hk : Keeps s0 s) (k : Fin 6) (b : Nat) (failed : Option Nat) : Keeps s0 (endBundleRecal s k b failed) := by
  unfold endBundleRecal
  repeat' first
    | with_reducible exact hk | with_reducible apply setAside_keeps
    | with_reducible apply laneFails_keeps | with_reducible apply bundleDown_keeps
    | with_reducible refine Keeps.ite ?_ ?_ | intro _ | dsimp only | split

/-- What `endGroupRecal` keeps. -/
theorem endGroupRecal_keeps (hk : Keeps s0 s) (g tx rx : Nat) : Keeps s0 (endGroupRecal s g tx rx) := by
  unfold endGroupRecal
  repeat' first
    | with_reducible exact hk | with_reducible apply groupBack_keeps
    | with_reducible apply relaneGroup_keeps | with_reducible apply raise_keeps
    | with_reducible refine Keeps.ite ?_ ?_ | intro _ | dsimp only

/-- What `endRecal` keeps. -/
theorem endRecal_keeps (hk : Keeps s0 s) (x : RecalEnd) : Keeps s0 (endRecal s x) := by
  unfold endRecal
  repeat' first
    | with_reducible exact hk | with_reducible apply endBundleRecal_keeps
    | with_reducible apply endGroupRecal_keeps | with_reducible refine Keeps.ite ?_ ?_ | intro _
    | split

/-- What `execLinkRecalibrationEnd` keeps. -/
theorem execLinkRecalibrationEnd_keeps (hk : Keeps s0 s) (x : RecalEnd) : KeepsO s0 (execLinkRecalibrationEnd x s) := by
  unfold execLinkRecalibrationEnd
  repeat' first
    | with_reducible exact hk | with_reducible apply settle_keeps
    | with_reducible apply endRecal_keeps | with_reducible refine KeepsO.next ?_
    | with_reducible refine KeepsO.ite ?_ ?_

end Sys2Proof.Machine
end

