-- ==== Sys2Proof/Laws/KeepsTime.lean ====
section
/-!
SUPPORT. What the operations of Machine/Time.lean keep (`Keeps`).
-/

namespace Sys2Proof.Machine

variable {s0 s : State}

/-- What `readEffect` keeps. -/
theorem readEffect_keeps (hk : Keeps s0 s) (slot off events : Nat) : Keeps s0 (readEffect s slot off events) := by
  unfold readEffect
  repeat' first
    | with_reducible exact hk | with_reducible assumption | with_reducible apply wg_keeps
    | with_reducible exact id | with_reducible exact mwf_mkeep _ _ _
    | with_reducible exact fun _ => mwf_nil _ | with_reducible exact Nat.le_refl _
    | with_reducible exact Nat.le_add_right _ _ | with_reducible exact keysUp_filter _ _
    | with_reducible exact keysUp_mkeep _ _ | with_reducible rfl
    | with_reducible apply forEach_keeps | with_reducible refine Keeps.ite ?_ ?_ | intro _
    | dsimp only | with_reducible apply Keeps.change

/-- What `readMsix` keeps. -/
theorem readMsix_keeps (hk : Keeps s0 s) (r : Requester) (off width : Nat) : Keeps s0 (readMsix s r off width) := by
  unfold readMsix
  repeat' first
    | with_reducible exact hk | simp only [Keeps.fields] | with_reducible refine Keeps.ite ?_ ?_
    | intro _ | dsimp only

/-- What `readPage` keeps. -/
theorem readPage_keeps (hk : Keeps s0 s) (r : Requester) (off events : Nat) : Keeps s0 (readPage s r off events) := by
  unfold readPage
  repeat' first
    | with_reducible exact hk | with_reducible apply measure_keeps
    | with_reducible apply wakeFor_keeps | with_reducible apply readEffect_keeps
    | simp only [Keeps.fields] | with_reducible refine Keeps.ite ?_ ?_ | intro _ | dsimp only

/-- What `readAccess` keeps. -/
theorem readAccess_keeps (hk : Keeps s0 s) (r : Requester) (off width events : Nat) : Keeps s0 (readAccess s r off width events) := by
  unfold readAccess
  repeat' first
    | with_reducible exact hk | with_reducible apply readMsix_keeps
    | with_reducible apply badAccess_keeps | with_reducible apply readPage_keeps
    | simp only [Keeps.fields] | with_reducible refine Keeps.ite ?_ ?_ | intro _

/-- What `readPort` keeps. -/
theorem readPort_keeps (hk : Keeps s0 s) (p : Half) (off width : Nat) : Keeps s0 (readPort s p off width) := by
  unfold readPort
  repeat' first
    | with_reducible exact hk | with_reducible apply submitAny_keeps
    | with_reducible apply badSubmit_keeps | simp only [Keeps.fields]
    | with_reducible refine Keeps.ite ?_ ?_ | intro _ | dsimp only

/-- What `readConfig` keeps. -/
theorem readConfig_keeps (hk : Keeps s0 s) (p : Half) (width : Nat) : Keeps s0 (readConfig s p width) := by
  unfold readConfig
  repeat' first
    | with_reducible exact hk | with_reducible apply useFree_keeps | simp only [Keeps.fields]
    | with_reducible refine Keeps.ite ?_ ?_ | intro _ | dsimp only | split
    | refine Keeps.ofSnd (by assumption) ?_ | refine Keeps.ofFst (by assumption) ?_

/-- What `readBar` keeps. -/
theorem readBar_keeps (hk : Keeps s0 s) (r : Requester) (bar : Bar) (off width events : Nat) : Keeps s0 (readBar s r bar off width events) := by
  unfold readBar
  repeat' first
    | with_reducible exact hk | with_reducible apply settle_keeps
    | with_reducible apply readAccess_keeps | with_reducible apply readPort_keeps
    | with_reducible apply readConfig_keeps | simp only [Keeps.fields] | split

/-- What `execRacRead` keeps. -/
theorem execRacRead_keeps (hk : Keeps s0 s) (r : Requester) (at_ : RegAt) (events : Nat) : KeepsO s0 (execRacRead r at_ events s) := by
  unfold execRacRead
  repeat' first
    | with_reducible exact hk | with_reducible apply readBar_keeps
    | with_reducible refine KeepsO.next ?_ | with_reducible refine KeepsO.ite ?_ ?_

/-- What `execFtLoRead` keeps. -/
theorem execFtLoRead_keeps (hk : Keeps s0 s) (r : Requester) : KeepsO s0 (execFtLoRead r s) := by
  unfold execFtLoRead
  repeat' first
    | with_reducible exact hk | with_reducible apply settle_keeps
    | with_reducible apply readAccess_keeps | with_reducible refine KeepsO.next ?_
    | with_reducible refine KeepsO.ite ?_ ?_

/-- What `sendTsync` keeps. -/
theorem sendTsync_keeps (hk : Keeps s0 s) (port : Nat) : Keeps s0 (sendTsync s port) := by
  unfold sendTsync
  repeat' first
    | with_reducible exact hk | simp only [Keeps.fields] | split

/-- What `spreadTsync` keeps. -/
theorem spreadTsync_keeps (hk : Keeps s0 s) (skip : Option Nat) : Keeps s0 (spreadTsync s skip) := by
  unfold spreadTsync
  repeat' first
    | with_reducible exact hk | with_reducible assumption | with_reducible apply sendTsync_keeps
    | with_reducible apply forEach_keeps | intro _ | dsimp only

/-- What `setFtStatus` keeps. -/
theorem setFtStatus_keeps (hk : Keeps s0 s) (sync holdover master hops idx : Nat) : Keeps s0 (setFtStatus s sync holdover master hops idx) := by
  unfold setFtStatus
  repeat' first
    | with_reducible exact hk | with_reducible apply wg_keeps | dsimp only

/-- What `tsyncOut` keeps. -/
theorem tsyncOut_keeps (hk : Keeps s0 s) : Keeps s0 (tsyncOut s) := by
  unfold tsyncOut
  repeat' first
    | with_reducible exact hk | with_reducible apply setFtStatus_keeps
    | with_reducible apply spreadTsync_keeps | simp only [Keeps.fields]
    | with_reducible refine Keeps.ite ?_ ?_ | intro _ | dsimp only

/-- What `execTsyncSend` keeps. -/
theorem execTsyncSend_keeps (hk : Keeps s0 s) : KeepsO s0 (execTsyncSend s) := by
  unfold execTsyncSend
  repeat' first
    | with_reducible exact hk | with_reducible apply tsyncOut_keeps
    | with_reducible refine KeepsO.next ?_ | with_reducible refine KeepsO.ite ?_ ?_

/-- What `tsyncIn` keeps. -/
theorem tsyncIn_keeps (hk : Keeps s0 s) (port master hops time : Nat) : Keeps s0 (tsyncIn s port master hops time) := by
  unfold tsyncIn
  repeat' first
    | with_reducible exact hk | with_reducible apply setFtStatus_keeps
    | with_reducible apply spreadTsync_keeps | simp only [Keeps.fields]
    | with_reducible refine Keeps.ite ?_ ?_ | intro _ | dsimp only | split
    | refine Keeps.ofSnd (by assumption) ?_ | refine Keeps.ofFst (by assumption) ?_

/-- What `execTsyncReceive` keeps. -/
theorem execTsyncReceive_keeps (hk : Keeps s0 s) (port : FabPort) (master hops time : Nat) : KeepsO s0 (execTsyncReceive port master hops time s) := by
  unfold execTsyncReceive
  repeat' first
    | with_reducible exact hk | with_reducible apply tsyncIn_keeps
    | with_reducible refine KeepsO.next ?_ | with_reducible refine KeepsO.ite ?_ ?_

/-- What `enterHoldover` keeps. -/
theorem enterHoldover_keeps (hk : Keeps s0 s) : Keeps s0 (enterHoldover s) := by
  unfold enterHoldover
  repeat' first
    | with_reducible exact hk | with_reducible apply wg_keeps | simp only [Keeps.fields]
    | with_reducible refine Keeps.ite ?_ ?_ | intro _ | dsimp only

/-- What `execFtHoldover` keeps. -/
theorem execFtHoldover_keeps (hk : Keeps s0 s) : KeepsO s0 (execFtHoldover s) := by
  unfold execFtHoldover
  repeat' first
    | with_reducible exact hk | with_reducible apply enterHoldover_keeps
    | with_reducible refine KeepsO.next ?_ | with_reducible refine KeepsO.ite ?_ ?_

end Sys2Proof.Machine
end

