-- ==== Sys2Proof/Laws/KeepsMgmt.lean ====
section
/-!
SUPPORT. What the operations of Machine/Mgmt.lean keep (`Keeps`).
-/

namespace Sys2Proof.Machine

variable {s0 s : State}

/-- What `forgetHandles` keeps. -/
theorem forgetHandles_keeps (hk : Keeps s0 s) (p : Nat) : Keeps s0 (forgetHandles s p) := by
  unfold forgetHandles
  repeat' first
    | with_reducible exact hk | with_reducible assumption | with_reducible apply updCq_keeps
    | with_reducible apply updSeq_keeps | simp only [Keeps.fields]
    | with_reducible apply forEach_keeps | with_reducible refine Keeps.ite ?_ ?_ | intro _
    | dsimp only | split | refine Keeps.ofSnd (by assumption) ?_
    | refine Keeps.ofFst (by assumption) ?_

/-- What `stopDmas` keeps. -/
theorem stopDmas_keeps (hk : Keeps s0 s) (p : Nat) : Keeps s0 (stopDmas s p) := by
  unfold stopDmas
  repeat' first
    | with_reducible exact hk | with_reducible assumption | with_reducible apply dmaCut_keeps
    | with_reducible apply dropAbort_keeps | with_reducible apply forEach_keeps | intro _
    | dsimp only | refine Keeps.ofSnd (by assumption) ?_ | refine Keeps.ofFst (by assumption) ?_

/-- What `resetPort` keeps. -/
theorem resetPort_keeps (hk : Keeps s0 s) (p : Nat) (link : Bool) : Keeps s0 (resetPort s p link) := by
  unfold resetPort
  repeat' first
    | with_reducible exact hk | with_reducible apply forgetHandles_keeps
    | with_reducible apply stopDmas_keeps | with_reducible exact id
    | with_reducible exact mwf_mkeep _ _ _ | with_reducible exact fun _ => mwf_nil _
    | with_reducible exact Nat.le_refl _ | with_reducible exact Nat.le_add_right _ _
    | with_reducible exact keysUp_filter _ _ | with_reducible exact keysUp_mkeep _ _
    | with_reducible rfl | simp only [Keeps.fields] | dsimp only | split
    | with_reducible apply Keeps.change

/-- What `assertPerst` keeps. -/
theorem assertPerst_keeps (hk : Keeps s0 s) (p : Nat) : Keeps s0 (assertPerst s p) := by
  unfold assertPerst
  repeat' first
    | with_reducible exact hk | with_reducible apply resetPort_keeps | with_reducible exact id
    | with_reducible exact mwf_mkeep _ _ _ | with_reducible exact fun _ => mwf_nil _
    | with_reducible exact Nat.le_refl _ | with_reducible exact Nat.le_add_right _ _
    | with_reducible exact keysUp_filter _ _ | with_reducible exact keysUp_mkeep _ _
    | with_reducible rfl | simp only [Keeps.fields] | dsimp only
    | with_reducible apply Keeps.change

/-- What `execPerstAssert` keeps. -/
theorem execPerstAssert_keeps (hk : Keeps s0 s) (p : Half) : KeepsO s0 (execPerstAssert p s) := by
  unfold execPerstAssert
  repeat' first
    | with_reducible exact hk | with_reducible apply settle_keeps
    | with_reducible apply assertPerst_keeps | with_reducible refine KeepsO.next ?_
    | with_reducible refine KeepsO.ite ?_ ?_

/-- What `releasePerst` keeps. -/
theorem releasePerst_keeps (hk : Keeps s0 s) (p : Nat) : Keeps s0 (releasePerst s p) := by
  unfold releasePerst
  repeat' first
    | with_reducible exact hk | with_reducible apply trainLink_keeps | with_reducible exact id
    | with_reducible exact mwf_mkeep _ _ _ | with_reducible exact fun _ => mwf_nil _
    | with_reducible exact Nat.le_refl _ | with_reducible exact Nat.le_add_right _ _
    | with_reducible exact keysUp_filter _ _ | with_reducible exact keysUp_mkeep _ _
    | with_reducible rfl | simp only [Keeps.fields] | with_reducible refine Keeps.ite ?_ ?_
    | intro _ | with_reducible apply Keeps.change

/-- What `execPerstDeassert` keeps. -/
theorem execPerstDeassert_keeps (hk : Keeps s0 s) (p : Half) : KeepsO s0 (execPerstDeassert p s) := by
  unfold execPerstDeassert
  repeat' first
    | with_reducible exact hk | with_reducible apply releasePerst_keeps
    | with_reducible refine KeepsO.next ?_ | with_reducible refine KeepsO.ite ?_ ?_

/-- What `execFunctionLevelReset` keeps. -/
theorem execFunctionLevelReset_keeps (hk : Keeps s0 s) (p : Half) : KeepsO s0 (execFunctionLevelReset p s) := by
  unfold execFunctionLevelReset
  repeat' first
    | with_reducible exact hk | with_reducible apply settle_keeps
    | with_reducible apply resetPort_keeps | with_reducible refine KeepsO.next ?_
    | with_reducible refine KeepsO.ite ?_ ?_

/-- What `execI3cEntdaa` keeps. -/
theorem execI3cEntdaa_keeps (hk : Keeps s0 s) (addr : BitVec 7) : KeepsO s0 (execI3cEntdaa addr s) := by
  unfold execI3cEntdaa
  repeat' first
    | with_reducible exact hk | with_reducible apply wg_keeps
    | with_reducible refine KeepsO.next ?_ | with_reducible refine KeepsO.ite ?_ ?_
    | simp only [Keeps.fields] | with_reducible refine Keeps.ite ?_ ?_ | intro _

/-- What `measureSensor` keeps. -/
theorem measureSensor_keeps (hk : Keeps s0 s) (y0 : Sensor) : Keeps s0 (measureSensor s y0) := by
  unfold measureSensor
  repeat' first
    | with_reducible exact hk | with_reducible apply measure_keeps | with_reducible exact id
    | with_reducible exact mwf_mkeep _ _ _ | with_reducible exact fun _ => mwf_nil _
    | with_reducible exact Nat.le_refl _ | with_reducible exact Nat.le_add_right _ _
    | with_reducible exact keysUp_filter _ _ | with_reducible exact keysUp_mkeep _ _
    | with_reducible rfl | simp only [Keeps.fields] | split | with_reducible apply Keeps.change

/-- What `execPldmSensorRead` keeps. -/
theorem execPldmSensorRead_keeps (hk : Keeps s0 s) (x : Sensor) : KeepsO s0 (execPldmSensorRead x s) := by
  unfold execPldmSensorRead
  repeat' first
    | with_reducible exact hk | with_reducible apply measureSensor_keeps
    | with_reducible refine KeepsO.next ?_ | with_reducible refine KeepsO.ite ?_ ?_
    | simp only [Keeps.fields] | with_reducible refine Keeps.ite ?_ ?_ | intro _ | dsimp only

/-- What `flashWrite` keeps. -/
theorem flashWrite_keeps (hk : Keeps s0 s) (a : Nat) (bs : List Byte) : Keeps s0 (flashWrite s a bs) := by
  unfold flashWrite
  repeat' first
    | with_reducible exact hk | with_reducible assumption | simp only [Keeps.fields]
    | with_reducible apply foldl_keeps | with_reducible apply foldl_fst_keeps | intro _
    | dsimp only

/-- What `updateFirmware` keeps. -/
theorem updateFirmware_keeps (hk : Keeps s0 s) (img : Image) (x : FirmwarePart) : Keeps s0 (updateFirmware s img x) := by
  unfold updateFirmware
  repeat' first
    | with_reducible exact hk | with_reducible apply flashWrite_keeps | simp only [Keeps.fields]
    | with_reducible refine Keeps.ite ?_ ?_ | intro _ | dsimp only | split
    | refine Keeps.ofSnd (by assumption) ?_ | refine Keeps.ofFst (by assumption) ?_

/-- What `execPldmFirmwareUpdate` keeps. -/
theorem execPldmFirmwareUpdate_keeps (hk : Keeps s0 s) (img : Image) (x : FirmwarePart) : KeepsO s0 (execPldmFirmwareUpdate img x s) := by
  unfold execPldmFirmwareUpdate
  repeat' first
    | with_reducible exact hk | with_reducible apply updateFirmware_keeps
    | with_reducible refine KeepsO.next ?_ | with_reducible refine KeepsO.ite ?_ ?_
    | with_reducible refine Keeps.ite ?_ ?_ | intro _

/-- What `pollEvent` keeps. -/
theorem pollEvent_keeps (hk : Keeps s0 s) : Keeps s0 (pollEvent s) := by
  unfold pollEvent
  repeat' first
    | with_reducible exact hk | simp only [Keeps.fields] | split

/-- What `execPldmPollEvent` keeps. -/
theorem execPldmPollEvent_keeps (hk : Keeps s0 s) : KeepsO s0 (execPldmPollEvent s) := by
  unfold execPldmPollEvent
  repeat' first
    | with_reducible exact hk | with_reducible apply pollEvent_keeps
    | with_reducible refine KeepsO.next ?_ | with_reducible refine KeepsO.ite ?_ ?_
    | with_reducible refine Keeps.ite ?_ ?_ | intro _

/-- What `loadJtag` keeps. -/
theorem loadJtag_keeps (hk : Keeps s0 s) (i : Jtag) : Keeps s0 (loadJtag s i) := by
  unfold loadJtag
  repeat' first
    | with_reducible exact hk | with_reducible apply wg_keeps | simp only [Keeps.fields]
    | with_reducible refine Keeps.ite ?_ ?_ | intro _ | dsimp only | split

/-- What `scanJtag` keeps. -/
theorem scanJtag_keeps (hk : Keeps s0 s) (pins shiftIn : Nat) : Keeps s0 (scanJtag s pins shiftIn) := by
  unfold scanJtag
  repeat' first
    | with_reducible exact hk | with_reducible apply useFree_keeps | simp only [Keeps.fields]
    | dsimp only | split | refine Keeps.ofSnd (by assumption) ?_
    | refine Keeps.ofFst (by assumption) ?_

/-- What `testReset` keeps. -/
theorem testReset_keeps (hk : Keeps s0 s) (low : Bool) : Keeps s0 (testReset s low) := by
  unfold testReset
  repeat' first
    | with_reducible exact hk | with_reducible apply wg_keeps | with_reducible exact id
    | with_reducible exact mwf_mkeep _ _ _ | with_reducible exact fun _ => mwf_nil _
    | with_reducible exact Nat.le_refl _ | with_reducible exact Nat.le_add_right _ _
    | with_reducible exact keysUp_filter _ _ | with_reducible exact keysUp_mkeep _ _
    | with_reducible rfl | simp only [Keeps.fields] | with_reducible refine Keeps.ite ?_ ?_
    | intro _ | dsimp only | with_reducible apply Keeps.change

/-- What `driveJtag` keeps. -/
theorem driveJtag_keeps (hk : Keeps s0 s) (i : Jtag) : Keeps s0 (driveJtag s i) := by
  unfold driveJtag
  repeat' first
    | with_reducible exact hk | with_reducible apply testReset_keeps
    | with_reducible apply scanJtag_keeps | with_reducible apply loadJtag_keeps
    | with_reducible refine Keeps.ite ?_ ?_ | intro _ | split

/-- What `execJtagInstruction` keeps. -/
theorem execJtagInstruction_keeps (hk : Keeps s0 s) (i : Jtag) : KeepsO s0 (execJtagInstruction i s) := by
  unfold execJtagInstruction
  repeat' first
    | with_reducible exact hk | with_reducible apply driveJtag_keeps
    | with_reducible refine KeepsO.next ?_ | with_reducible refine KeepsO.ite ?_ ?_
    | with_reducible refine Keeps.ite ?_ ?_ | intro _

end Sys2Proof.Machine
end

