-- ==== Sys2Proof/Laws/KeepsSequencer.lean ====
section
/-!
SUPPORT. What the operations of Machine/Sequencer.lean keep (`Keeps`).
-/

namespace Sys2Proof.Machine

variable {s0 s : State}

/-- What `seqStartNow` keeps. -/
theorem seqStartNow_keeps (hk : Keeps s0 s) (d : Nat) : Keeps s0 (seqStartNow s d) := by
  unfold seqStartNow
  repeat' first
    | with_reducible exact hk | with_reducible apply startHere_keeps
    | with_reducible refine Keeps.ite ?_ ?_ | intro _

/-- What `seqStopNow` keeps. -/
theorem seqStopNow_keeps (hk : Keeps s0 s) (d : Nat) : Keeps s0 (seqStopNow s d) := by
  unfold seqStopNow
  repeat' first
    | with_reducible exact hk | with_reducible apply updSeq_keeps | with_reducible apply wg_keeps
    | simp only [Keeps.fields] | with_reducible refine Keeps.ite ?_ ?_ | intro _ | dsimp only

/-- What `writeSeqCtl` keeps. -/
theorem writeSeqCtl_keeps (hk : Keeps s0 s) (d val : Nat) (start stop : Bool) : Keeps s0 (writeSeqCtl s d val start stop) := by
  unfold writeSeqCtl
  repeat' first
    | with_reducible exact hk | with_reducible apply writeStored_keeps
    | with_reducible apply seqStopNow_keeps | with_reducible apply seqStartNow_keeps
    | with_reducible refine Keeps.ite ?_ ?_ | intro _ | dsimp only

/-- What `execSeqStart` keeps. -/
theorem execSeqStart_keeps (hk : Keeps s0 s) (r : Requester) (d : Die) (val : BitVec 32) : KeepsO s0 (execSeqStart r d val s) := by
  unfold execSeqStart
  repeat' first
    | with_reducible exact hk | with_reducible assumption | with_reducible apply settle_keeps
    | with_reducible apply guardedWrite_keeps | with_reducible apply writeSeqCtl_keeps
    | with_reducible refine KeepsO.next ?_ | with_reducible refine KeepsO.ite ?_ ?_ | intro _
    | dsimp only

/-- What `execSeqStop` keeps. -/
theorem execSeqStop_keeps (hk : Keeps s0 s) (r : Requester) (d : Die) (val : BitVec 32) : KeepsO s0 (execSeqStop r d val s) := by
  unfold execSeqStop
  repeat' first
    | with_reducible exact hk | with_reducible assumption
    | with_reducible apply guardedWrite_keeps | with_reducible apply writeSeqCtl_keeps
    | with_reducible refine KeepsO.next ?_ | with_reducible refine KeepsO.ite ?_ ?_ | intro _
    | dsimp only

/-- What `writeDigCtl` keeps. -/
theorem writeDigCtl_keeps (hk : Keeps s0 s) (d val : Nat) (clr : Bool) : Keeps s0 (writeDigCtl s d val clr) := by
  unfold writeDigCtl
  repeat' first
    | with_reducible exact hk | with_reducible apply writeStored_keeps
    | with_reducible apply setRunDigest_keeps | with_reducible refine Keeps.ite ?_ ?_ | intro _
    | dsimp only

/-- What `execDigClear` keeps. -/
theorem execDigClear_keeps (hk : Keeps s0 s) (r : Requester) (d : Die) (val : BitVec 32) : KeepsO s0 (execDigClear r d val s) := by
  unfold execDigClear
  repeat' first
    | with_reducible exact hk | with_reducible assumption
    | with_reducible apply guardedWrite_keeps | with_reducible apply writeDigCtl_keeps
    | with_reducible refine KeepsO.next ?_ | with_reducible refine KeepsO.ite ?_ ?_ | intro _
    | dsimp only

/-- What `startNext` keeps. -/
theorem startNext_keeps (hk : Keeps s0 s) (d : Nat) : Keeps s0 (startNext s d) := by
  unfold startNext
  repeat' first
    | with_reducible exact hk | with_reducible apply choosePhase_keeps
    | with_reducible apply detectMissing_keeps | with_reducible apply startPhase_keeps
    | with_reducible apply checkDie_keeps | with_reducible refine Keeps.ite ?_ ?_ | intro _
    | split | refine Keeps.ofSnd (by assumption) ?_ | refine Keeps.ofFst (by assumption) ?_

/-- What `execPhaseStart` keeps. -/
theorem execPhaseStart_keeps (hk : Keeps s0 s) (d : Die) : KeepsO s0 (execPhaseStart d s) := by
  unfold execPhaseStart
  repeat' first
    | with_reducible exact hk | with_reducible apply settle_keeps
    | with_reducible apply startNext_keeps | with_reducible refine KeepsO.next ?_
    | with_reducible refine KeepsO.ite ?_ ?_ | with_reducible refine Keeps.ite ?_ ?_ | intro _

/-- What `endAttempt` keeps. -/
theorem endAttempt_keeps (hk : Keeps s0 s) (d ph : Nat) : Keeps s0 (endAttempt s d ph) := by
  unfold endAttempt
  repeat' first
    | with_reducible exact hk | with_reducible apply resolveGroup_keeps
    | with_reducible apply updPhase_keeps | simp only [Keeps.fields] | dsimp only

/-- What `execPhaseAttemptEnd` keeps. -/
theorem execPhaseAttemptEnd_keeps (hk : Keeps s0 s) (d : Die) (ph : Nat) : KeepsO s0 (execPhaseAttemptEnd d ph s) := by
  unfold execPhaseAttemptEnd
  repeat' first
    | with_reducible exact hk | with_reducible apply settle_keeps
    | with_reducible apply endAttempt_keeps | with_reducible refine KeepsO.next ?_
    | with_reducible refine KeepsO.ite ?_ ?_ | with_reducible refine Keeps.ite ?_ ?_ | intro _

/-- What `receiveLatch` keeps. -/
theorem receiveLatch_keeps (hk : Keeps s0 s) (src dst ph : Nat) : Keeps s0 (receiveLatch s src dst ph) := by
  unfold receiveLatch
  repeat' first
    | with_reducible exact hk | with_reducible apply updDie_keeps
    | with_reducible apply resolveGroup_keeps | simp only [Keeps.fields]
    | with_reducible refine Keeps.ite ?_ ?_ | intro _ | dsimp only | split

/-- What `execPromotionLatchReceive` keeps. -/
theorem execPromotionLatchReceive_keeps (hk : Keeps s0 s) (src dst : Die) (ph : Nat) : KeepsO s0 (execPromotionLatchReceive src dst ph s) := by
  unfold execPromotionLatchReceive
  repeat' first
    | with_reducible exact hk | with_reducible apply settle_keeps
    | with_reducible apply receiveLatch_keeps | with_reducible refine KeepsO.next ?_
    | with_reducible refine KeepsO.ite ?_ ?_ | with_reducible refine Keeps.ite ?_ ?_ | intro _

/-- What `receiveDep` keeps. -/
theorem receiveDep_keeps (hk : Keeps s0 s) (src dst ph : Nat) : Keeps s0 (receiveDep s src dst ph) := by
  unfold receiveDep
  repeat' first
    | with_reducible exact hk | with_reducible assumption | with_reducible apply updDie_keeps
    | with_reducible apply examine_keeps | simp only [Keeps.fields]
    | with_reducible apply forEach_keeps | with_reducible refine Keeps.ite ?_ ?_ | intro _
    | dsimp only

/-- What `execCrossDieDepSignal` keeps. -/
theorem execCrossDieDepSignal_keeps (hk : Keeps s0 s) (src dst : Die) (ph : Nat) : KeepsO s0 (execCrossDieDepSignal src dst ph s) := by
  unfold execCrossDieDepSignal
  repeat' first
    | with_reducible exact hk | with_reducible apply settle_keeps
    | with_reducible apply receiveDep_keeps | with_reducible refine KeepsO.next ?_
    | with_reducible refine KeepsO.ite ?_ ?_ | with_reducible refine Keeps.ite ?_ ?_ | intro _

/-- What `advancePhase` keeps. -/
theorem advancePhase_keeps (hk : Keeps s0 s) (d ph : Nat) : Keeps s0 (advancePhase s d ph) := by
  unfold advancePhase
  repeat' first
    | with_reducible exact hk | with_reducible apply goOn_keeps
    | with_reducible apply updPhase_keeps | with_reducible apply completePhase_keeps
    | simp only [Keeps.fields] | with_reducible refine Keeps.ite ?_ ?_ | intro _ | dsimp only

/-- What `execPhaseComplete` keeps. -/
theorem execPhaseComplete_keeps (hk : Keeps s0 s) (d : Die) (ph : Nat) : KeepsO s0 (execPhaseComplete d ph s) := by
  unfold execPhaseComplete
  repeat' first
    | with_reducible exact hk | with_reducible apply settle_keeps
    | with_reducible apply advancePhase_keeps | with_reducible refine KeepsO.next ?_
    | with_reducible refine KeepsO.ite ?_ ?_ | with_reducible refine Keeps.ite ?_ ?_ | intro _

/-- What `execStepEnd` keeps. -/
theorem execStepEnd_keeps (hk : Keeps s0 s) (d : Die) : KeepsO s0 (execStepEnd d s) := by
  unfold execStepEnd
  repeat' first
    | with_reducible exact hk | with_reducible apply settle_keeps
    | with_reducible apply endStep_keeps | with_reducible refine KeepsO.next ?_
    | with_reducible refine KeepsO.ite ?_ ?_ | with_reducible refine Keeps.ite ?_ ?_ | intro _

/-- What `execLeafTake` keeps. -/
theorem execLeafTake_keeps (hk : Keeps s0 s) (d : Die) (layer : Nat) : KeepsO s0 (execLeafTake d layer s) := by
  unfold execLeafTake
  repeat' first
    | with_reducible exact hk | with_reducible apply settle_keeps
    | with_reducible apply detectMissing_keeps | with_reducible apply takeLeaf_keeps
    | with_reducible refine KeepsO.next ?_ | with_reducible refine KeepsO.ite ?_ ?_
    | with_reducible refine Keeps.ite ?_ ?_ | intro _

/-- What `dropExchange` keeps. -/
theorem dropExchange_keeps (hk : Keeps s0 s) (d ph : Nat) : Keeps s0 (dropExchange s d ph) := by
  unfold dropExchange
  repeat' first
    | with_reducible exact hk | with_reducible apply updDie_keeps | simp only [Keeps.fields]
    | dsimp only

/-- What `setPairLast` keeps. -/
theorem setPairLast_keeps (hk : Keeps s0 s) (d ph outcome : Nat) : Keeps s0 (setPairLast s d ph outcome) := by
  unfold setPairLast
  repeat' first
    | with_reducible exact hk | with_reducible apply wg_keeps

/-- What `agreed` keeps. -/
theorem agreed_keeps (hk : Keeps s0 s) (d ph : Nat) : Keeps s0 (agreed s d ph) := by
  unfold agreed
  repeat' first
    | with_reducible exact hk | with_reducible apply incr_keeps
    | with_reducible apply setPairLast_keeps | with_reducible apply seqEvent_keeps
    | with_reducible apply goOn_keeps | with_reducible refine Keeps.ite ?_ ?_ | intro _
    | dsimp only

/-- What `runAgain` keeps. -/
theorem runAgain_keeps (hk : Keeps s0 s) (d ph : Nat) : Keeps s0 (runAgain s d ph) := by
  unfold runAgain
  repeat' first
    | with_reducible exact hk | with_reducible apply updPhase_keeps
    | with_reducible apply setPairLast_keeps | simp only [Keeps.fields]
    | with_reducible refine Keeps.ite ?_ ?_ | intro _ | dsimp only

/-- What `persist` keeps. -/
theorem persist_keeps (hk : Keeps s0 s) (d ph : Nat) : Keeps s0 (persist s d ph) := by
  unfold persist
  repeat' first
    | with_reducible exact hk | with_reducible apply seqEvent_keeps
    | with_reducible apply updPhase_keeps | with_reducible apply setPairLast_keeps
    | simp only [Keeps.fields] | dsimp only

/-- What `comparePair` keeps. -/
theorem comparePair_keeps (hk : Keeps s0 s) (d ph : Nat) : Keeps s0 (comparePair s d ph) := by
  unfold comparePair
  repeat' first
    | with_reducible exact hk | with_reducible apply dropExchange_keeps
    | with_reducible apply agreed_keeps | with_reducible apply runAgain_keeps
    | with_reducible apply persist_keeps | simp only [Keeps.fields]
    | with_reducible refine Keeps.ite ?_ ?_ | intro _ | dsimp only | split

/-- What `receiveMirror` keeps. -/
theorem receiveMirror_keeps (hk : Keeps s0 s) (d ph : Nat) : Keeps s0 (receiveMirror s d ph) := by
  unfold receiveMirror
  repeat' first
    | with_reducible exact hk | with_reducible apply comparePair_keeps
    | with_reducible apply updDie_keeps | simp only [Keeps.fields]
    | with_reducible refine Keeps.ite ?_ ?_ | intro _ | dsimp only

/-- What `execMirrorExchangeReceive` keeps. -/
theorem execMirrorExchangeReceive_keeps (hk : Keeps s0 s) (d : Die) (ph : Nat) : KeepsO s0 (execMirrorExchangeReceive d ph s) := by
  unfold execMirrorExchangeReceive
  repeat' first
    | with_reducible exact hk | with_reducible apply settle_keeps
    | with_reducible apply receiveMirror_keeps | with_reducible apply checkDie_keeps
    | with_reducible refine KeepsO.next ?_ | with_reducible refine KeepsO.ite ?_ ?_
    | with_reducible refine Keeps.ite ?_ ?_ | intro _ | dsimp only

/-- What `execPairSelfTestStart` keeps. -/
theorem execPairSelfTestStart_keeps (hk : Keeps s0 s) : KeepsO s0 (execPairSelfTestStart s) := by
  unfold execPairSelfTestStart
  repeat' first
    | with_reducible exact hk | with_reducible refine KeepsO.next ?_
    | with_reducible refine KeepsO.ite ?_ ?_ | simp only [Keeps.fields]
    | with_reducible refine Keeps.ite ?_ ?_ | intro _ | split

/-- What `unresolved` keeps. -/
theorem unresolved_keeps (hk : Keeps s0 s) : Keeps s0 (unresolved s) := by
  unfold unresolved
  repeat' first
    | with_reducible exact hk | with_reducible assumption | with_reducible apply setOutcome_keeps
    | with_reducible apply takeEvents_keeps | with_reducible apply raise_keeps
    | with_reducible apply abortJob_keeps | simp only [Keeps.fields]
    | with_reducible apply forEach_keeps | with_reducible refine Keeps.ite ?_ ?_ | intro _
    | dsimp only

/-- What `endPairTest` keeps. -/
theorem endPairTest_keeps (hk : Keeps s0 s) (west east : Bool) : Keeps s0 (endPairTest s west east) := by
  unfold endPairTest
  repeat' first
    | with_reducible exact hk | with_reducible apply unresolved_keeps
    | with_reducible apply setOutcome_keeps | with_reducible apply fenceBoth_keeps
    | with_reducible apply fenceLobe_keeps | simp only [Keeps.fields]
    | with_reducible refine Keeps.ite ?_ ?_ | intro _ | dsimp only

/-- What `execPairSelfTestResult` keeps. -/
theorem execPairSelfTestResult_keeps (hk : Keeps s0 s) (west east : Bool) : KeepsO s0 (execPairSelfTestResult west east s) := by
  unfold execPairSelfTestResult
  repeat' first
    | with_reducible exact hk | with_reducible apply settle_keeps
    | with_reducible apply endPairTest_keeps | with_reducible refine KeepsO.next ?_
    | with_reducible refine KeepsO.ite ?_ ?_ | split

end Sys2Proof.Machine
end

