-- ==== Sys2Proof/Laws/KeepsHostRegs.lean ====
section
/-!
SUPPORT. What the operations of Machine/HostRegs.lean keep (`Keeps`).
-/

namespace Sys2Proof.Machine

variable {s0 s : State}

/-- What `setPortCfg` keeps. -/
theorem setPortCfg_keeps (hk : Keeps s0 s) (p val : Nat) : Keeps s0 (setPortCfg s p val) := by
  unfold setPortCfg
  repeat' first
    | with_reducible exact hk | with_reducible apply updCPort_keeps | simp only [Keeps.fields]
    | with_reducible refine Keeps.ite ?_ ?_ | intro _ | dsimp only

/-- What `writePortCfg` keeps. -/
theorem writePortCfg_keeps (hk : Keeps s0 s) (r : Requester) (p val : Nat) : Keeps s0 (writePortCfg s r p val) := by
  unfold writePortCfg
  repeat' first
    | with_reducible exact hk | with_reducible assumption
    | with_reducible apply guardedWrite_keeps | with_reducible apply setPortCfg_keeps | intro _
    | dsimp only

/-- What `execPortCfgWrite` keeps. -/
theorem execPortCfgWrite_keeps (hk : Keeps s0 s) (r : Requester) (p : Half) (val : BitVec 32) : KeepsO s0 (execPortCfgWrite r p val s) := by
  unfold execPortCfgWrite
  repeat' first
    | with_reducible exact hk | with_reducible apply settle_keeps
    | with_reducible apply writePortCfg_keeps | with_reducible refine KeepsO.next ?_
    | with_reducible refine KeepsO.ite ?_ ?_

/-- What `setRingCfg` keeps. -/
theorem setRingCfg_keeps (hk : Keeps s0 s) (p val : Nat) : Keeps s0 (setRingCfg s p val) := by
  unfold setRingCfg
  repeat' first
    | with_reducible exact hk | with_reducible apply updRing_keeps | simp only [Keeps.fields]
    | with_reducible refine Keeps.ite ?_ ?_ | intro _ | dsimp only

/-- What `writeRingCfg` keeps. -/
theorem writeRingCfg_keeps (hk : Keeps s0 s) (r : Requester) (p val : Nat) : Keeps s0 (writeRingCfg s r p val) := by
  unfold writeRingCfg
  repeat' first
    | with_reducible exact hk | with_reducible assumption
    | with_reducible apply guardedWrite_keeps | with_reducible apply setRingCfg_keeps | intro _
    | dsimp only

/-- What `execRingCfgWrite` keeps. -/
theorem execRingCfgWrite_keeps (hk : Keeps s0 s) (r : Requester) (p : Half) (val : BitVec 32) : KeepsO s0 (execRingCfgWrite r p val s) := by
  unfold execRingCfgWrite
  repeat' first
    | with_reducible exact hk | with_reducible apply settle_keeps
    | with_reducible apply writeRingCfg_keeps | with_reducible refine KeepsO.next ?_
    | with_reducible refine KeepsO.ite ?_ ?_

/-- What `setRingHead` keeps. -/
theorem setRingHead_keeps (hk : Keeps s0 s) (p val : Nat) : Keeps s0 (setRingHead s p val) := by
  unfold setRingHead
  repeat' first
    | with_reducible exact hk | with_reducible apply updRing_keeps | simp only [Keeps.fields]
    | with_reducible refine Keeps.ite ?_ ?_ | intro _ | dsimp only

/-- What `writeRingHead` keeps. -/
theorem writeRingHead_keeps (hk : Keeps s0 s) (r : Requester) (p val : Nat) : Keeps s0 (writeRingHead s r p val) := by
  unfold writeRingHead
  repeat' first
    | with_reducible exact hk | with_reducible assumption
    | with_reducible apply guardedWrite_keeps | with_reducible apply setRingHead_keeps | intro _
    | dsimp only

/-- What `execRingHeadWrite` keeps. -/
theorem execRingHeadWrite_keeps (hk : Keeps s0 s) (r : Requester) (p : Half) (val : BitVec 32) : KeepsO s0 (execRingHeadWrite r p val s) := by
  unfold execRingHeadWrite
  repeat' first
    | with_reducible exact hk | with_reducible apply settle_keeps
    | with_reducible apply writeRingHead_keeps | with_reducible refine KeepsO.next ?_
    | with_reducible refine KeepsO.ite ?_ ?_

/-- What `unassignedWrite` keeps. -/
theorem unassignedWrite_keeps (hk : Keeps s0 s) (r : Requester) (off : Nat) : Keeps s0 (unassignedWrite s r off) := by
  unfold unassignedWrite
  repeat' first
    | with_reducible exact hk | with_reducible apply badAccess_keeps
    | with_reducible apply dropWrite_keeps

/-- What `badBar0` keeps. -/
theorem badBar0_keeps (hk : Keeps s0 s) (p : Half) (write : Bool) (off width : Nat) : Keeps s0 (badBar0 s p write off width) := by
  unfold badBar0
  repeat' first
    | with_reducible exact hk | with_reducible apply badAccess_keeps
    | with_reducible apply unassignedWrite_keeps | simp only [Keeps.fields]
    | with_reducible refine Keeps.ite ?_ ?_ | intro _ | dsimp only

/-- What `execBar0BadAccess` keeps. -/
theorem execBar0BadAccess_keeps (hk : Keeps s0 s) (p : Half) (write : Bool) (off width : Nat) : KeepsO s0 (execBar0BadAccess p write off width s) := by
  unfold execBar0BadAccess
  repeat' first
    | with_reducible exact hk | with_reducible apply settle_keeps
    | with_reducible apply badBar0_keeps | with_reducible refine KeepsO.next ?_
    | with_reducible refine KeepsO.ite ?_ ?_

/-- What `writeDieCtl` keeps. -/
theorem writeDieCtl_keeps (hk : Keeps s0 s) (slot o val : Nat) : KeepsOpt s0 (writeDieCtl s slot o val) := by
  unfold writeDieCtl
  repeat' first
    | with_reducible exact hk | with_reducible apply writeCensusCtl_keeps
    | with_reducible apply writeSeqCtl_keeps | with_reducible apply writeDigCtl_keeps
    | with_reducible apply retryOe_keeps | with_reducible apply writeMemSplit_keeps
    | with_reducible apply writeMapoutReq_keeps | with_reducible apply writeJwCtl_keeps
    | with_reducible exact KeepsOpt.none | with_reducible refine KeepsOpt.some ?_
    | with_reducible refine KeepsOpt.ite ?_ ?_ | with_reducible refine Keeps.ite ?_ ?_ | intro _
    | dsimp only | split

/-- What `ownRow` keeps. -/
theorem ownRow_keeps (hk : Keeps s0 s) (r : Requester) (slot o val : Nat) : KeepsOpt s0 (ownRow s r slot o val) := by
  unfold ownRow
  repeat' first
    | with_reducible exact hk | with_reducible apply writeLobeMode_keeps
    | with_reducible apply writeResetReq_keeps | with_reducible apply writeInject_keeps
    | with_reducible apply writeLogSel_keeps | with_reducible apply writeJobData_keeps
    | with_reducible apply writeRtData_keeps | with_reducible apply writePwrState_keeps
    | with_reducible apply writeExtCtl_keeps | with_reducible apply writeSegCtl_keeps
    | with_reducible apply writeQuota_keeps | with_reducible apply writeQCfg_keeps
    | with_reducible apply writeRingCfg_keeps | with_reducible apply writeRingHead_keeps
    | with_reducible apply writePortCfg_keeps | with_reducible exact KeepsOpt.none
    | with_reducible refine KeepsOpt.some ?_ | with_reducible refine KeepsOpt.ite ?_ ?_
    | dsimp only | split

/-- What `writeBlock` keeps. -/
theorem writeBlock_keeps (hk : Keeps s0 s) (r : Requester) (slot o val : Nat) : Keeps s0 (writeBlock s r slot o val) := by
  unfold writeBlock
  repeat' first
    | with_reducible exact hk | with_reducible assumption | with_reducible apply ownRow_keeps
    | refine (ownRow_keeps ?_ _ _ _ _).of _ (by assumption) | with_reducible apply getD_keeps
    | with_reducible apply guardedWrite_keeps | with_reducible apply writeDieCtl_keeps
    | refine (writeDieCtl_keeps ?_ _ _ _).of _ (by assumption) | with_reducible apply getD_keeps
    | with_reducible apply specialWrite_keeps
    | refine (specialWrite_keeps ?_ _ _ _).of _ (by assumption) | with_reducible apply getD_keeps
    | with_reducible apply writeStored_keeps | intro _ | dsimp only | split

/-- What `writeMsix` keeps. -/
theorem writeMsix_keeps (hk : Keeps s0 s) (r : Requester) (off width val : Nat) : Keeps s0 (writeMsix s r off width val) := by
  unfold writeMsix
  repeat' first
    | with_reducible exact hk | with_reducible apply msixWrite_keeps
    | with_reducible refine Keeps.ite ?_ ?_ | intro _ | dsimp only

/-- What `writeBar0` keeps. -/
theorem writeBar0_keeps (hk : Keeps s0 s) (r : Requester) (off width val set : Nat) : Keeps s0 (writeBar0 s r off width val set) := by
  unfold writeBar0
  repeat' first
    | with_reducible exact hk | with_reducible apply writeMsix_keeps
    | with_reducible apply badAccess_keeps | with_reducible apply unassignedWrite_keeps
    | with_reducible apply writeHeader_keeps | with_reducible apply setSticky_keeps
    | with_reducible apply setW1c_keeps | with_reducible apply writeBlock_keeps
    | with_reducible refine Keeps.ite ?_ ?_ | intro _ | dsimp only

/-- What `writeBar2` keeps. -/
theorem writeBar2_keeps (hk : Keeps s0 s) (p off width val : Nat) : Keeps s0 (writeBar2 s p off width val) := by
  unfold writeBar2
  repeat' first
    | with_reducible exact hk | with_reducible apply updCPort_keeps | simp only [Keeps.fields]
    | with_reducible refine Keeps.ite ?_ ?_ | intro _ | dsimp only

/-- What `writeBar4Size` keeps. -/
theorem writeBar4Size_keeps (hk : Keeps s0 s) (p val : Nat) : Keeps s0 (writeBar4Size s p val) := by
  unfold writeBar4Size
  repeat' first
    | with_reducible exact hk | simp only [Keeps.fields] | with_reducible refine Keeps.ite ?_ ?_
    | intro _

/-- What `writeIbi` keeps. -/
theorem writeIbi_keeps (hk : Keeps s0 s) (val : Nat) : Keeps s0 (writeIbi s val) := by
  unfold writeIbi
  repeat' first
    | with_reducible exact hk | with_reducible apply wg_keeps
    | with_reducible refine Keeps.ite ?_ ?_ | intro _

/-- What `execRegisterWrite` keeps. -/
theorem execRegisterWrite_keeps (hk : Keeps s0 s) (r : Requester) (bar : Bar) (off width : Nat) (w : RegWrite) : KeepsO s0 (execRegisterWrite r bar off width w s) := by
  unfold execRegisterWrite
  repeat' first
    | with_reducible exact hk | with_reducible apply settle_keeps
    | with_reducible apply writeBar0_keeps | with_reducible apply writeBar2_keeps
    | with_reducible apply writeBar4Size_keeps | with_reducible apply writeIbi_keeps
    | with_reducible refine KeepsO.next ?_ | with_reducible refine KeepsO.ite ?_ ?_ | split

end Sys2Proof.Machine
end

