-- ==== Sys2Proof/Laws/State.lean ====
section
/-!
SUPPORT. What each named update of the state leaves alone: one lemma per update and field, true by
unfolding, so that no proof unfolds a record update. After them, reading a register field or a table
after an update of it.
-/

namespace Sys2Proof.Machine

variable (s : State)

/-! ### `wg` -/

@[simp] theorem wg_pending (slot : Nat) (f : Fld) (v : Nat) : (wg s slot f v).pending = s.pending := rfl
@[simp] theorem wg_mem (slot : Nat) (f : Fld) (v : Nat) : (wg s slot f v).mem = s.mem := rfl
@[simp] theorem wg_errs (slot : Nat) (f : Fld) (v : Nat) : (wg s slot f v).errs = s.errs := rfl
@[simp] theorem wg_seen (slot : Nat) (f : Fld) (v : Nat) : (wg s slot f v).seen = s.seen := rfl
@[simp] theorem wg_repairCur (slot : Nat) (f : Fld) (v : Nat) : (wg s slot f v).repairCur = s.repairCur := rfl
@[simp] theorem wg_jw (slot : Nat) (f : Fld) (v : Nat) : (wg s slot f v).jw = s.jw := rfl
@[simp] theorem wg_jwRej (slot : Nat) (f : Fld) (v : Nat) : (wg s slot f v).jwRej = s.jwRej := rfl
@[simp] theorem wg_outDie (slot : Nat) (f : Fld) (v : Nat) : (wg s slot f v).outDie = s.outDie := rfl
@[simp] theorem wg_outPkg (slot : Nat) (f : Fld) (v : Nat) : (wg s slot f v).outPkg = s.outPkg := rfl
@[simp] theorem wg_pkgShut (slot : Nat) (f : Fld) (v : Nat) : (wg s slot f v).pkgShut = s.pkgShut := rfl
@[simp] theorem wg_hot (slot : Nat) (f : Fld) (v : Nat) : (wg s slot f v).hot = s.hot := rfl
@[simp] theorem wg_bankNext (slot : Nat) (f : Fld) (v : Nat) : (wg s slot f v).bankNext = s.bankNext := rfl
@[simp] theorem wg_census (slot : Nat) (f : Fld) (v : Nat) : (wg s slot f v).census = s.census := rfl
@[simp] theorem wg_dies (slot : Nat) (f : Fld) (v : Nat) : (wg s slot f v).dies = s.dies := rfl
@[simp] theorem wg_tiles (slot : Nat) (f : Fld) (v : Nat) : (wg s slot f v).tiles = s.tiles := rfl
@[simp] theorem wg_queues (slot : Nat) (f : Fld) (v : Nat) : (wg s slot f v).queues = s.queues := rfl
@[simp] theorem wg_served (slot : Nat) (f : Fld) (v : Nat) : (wg s slot f v).served = s.served := rfl
@[simp] theorem wg_waking (slot : Nat) (f : Fld) (v : Nat) : (wg s slot f v).waking = s.waking := rfl
@[simp] theorem wg_edges (slot : Nat) (f : Fld) (v : Nat) : (wg s slot f v).edges = s.edges := rfl
@[simp] theorem wg_oe (slot : Nat) (f : Fld) (v : Nat) : (wg s slot f v).oe = s.oe := rfl
@[simp] theorem wg_groups (slot : Nat) (f : Fld) (v : Nat) : (wg s slot f v).groups = s.groups := rfl
@[simp] theorem wg_planOf (slot : Nat) (f : Fld) (v : Nat) : (wg s slot f v).planOf = s.planOf := rfl
@[simp] theorem wg_jobs (slot : Nat) (f : Fld) (v : Nat) : (wg s slot f v).jobs = s.jobs := rfl
@[simp] theorem wg_rtHdr (slot : Nat) (f : Fld) (v : Nat) : (wg s slot f v).rtHdr = s.rtHdr := rfl
@[simp] theorem wg_rtEnt (slot : Nat) (f : Fld) (v : Nat) : (wg s slot f v).rtEnt = s.rtEnt := rfl
@[simp] theorem wg_inject (slot : Nat) (f : Fld) (v : Nat) : (wg s slot f v).inject = s.inject := rfl
@[simp] theorem wg_inbox (slot : Nat) (f : Fld) (v : Nat) : (wg s slot f v).inbox = s.inbox := rfl
@[simp] theorem wg_arrived (slot : Nat) (f : Fld) (v : Nat) : (wg s slot f v).arrived = s.arrived := rfl
@[simp] theorem wg_outq (slot : Nat) (f : Fld) (v : Nat) : (wg s slot f v).outq = s.outq := rfl
@[simp] theorem wg_tx (slot : Nat) (f : Fld) (v : Nat) : (wg s slot f v).tx = s.tx := rfl
@[simp] theorem wg_links (slot : Nat) (f : Fld) (v : Nat) : (wg s slot f v).links = s.links := rfl
@[simp] theorem wg_sidestep (slot : Nat) (f : Fld) (v : Nat) : (wg s slot f v).sidestep = s.sidestep := rfl
@[simp] theorem wg_nbrUp (slot : Nat) (f : Fld) (v : Nat) : (wg s slot f v).nbrUp = s.nbrUp := rfl
@[simp] theorem wg_ft (slot : Nat) (f : Fld) (v : Nat) : (wg s slot f v).ft = s.ft := rfl
@[simp] theorem wg_remote (slot : Nat) (f : Fld) (v : Nat) : (wg s slot f v).remote = s.remote := rfl
@[simp] theorem wg_geysers (slot : Nat) (f : Fld) (v : Nat) : (wg s slot f v).geysers = s.geysers := rfl
@[simp] theorem wg_credits (slot : Nat) (f : Fld) (v : Nat) : (wg s slot f v).credits = s.credits := rfl
@[simp] theorem wg_cqs (slot : Nat) (f : Fld) (v : Nat) : (wg s slot f v).cqs = s.cqs := rfl
@[simp] theorem wg_starts (slot : Nat) (f : Fld) (v : Nat) : (wg s slot f v).starts = s.starts := rfl
@[simp] theorem wg_grants (slot : Nat) (f : Fld) (v : Nat) : (wg s slot f v).grants = s.grants := rfl
@[simp] theorem wg_rings (slot : Nat) (f : Fld) (v : Nat) : (wg s slot f v).rings = s.rings := rfl
@[simp] theorem wg_cports (slot : Nat) (f : Fld) (v : Nat) : (wg s slot f v).cports = s.cports := rfl
@[simp] theorem wg_msixTab (slot : Nat) (f : Fld) (v : Nat) : (wg s slot f v).msixTab = s.msixTab := rfl
@[simp] theorem wg_msixPend (slot : Nat) (f : Fld) (v : Nat) : (wg s slot f v).msixPend = s.msixPend := rfl
@[simp] theorem wg_hostOut (slot : Nat) (f : Fld) (v : Nat) : (wg s slot f v).hostOut = s.hostOut := rfl
@[simp] theorem wg_barWait (slot : Nat) (f : Fld) (v : Nat) : (wg s slot f v).barWait = s.barWait := rfl
@[simp] theorem wg_msix (slot : Nat) (f : Fld) (v : Nat) : (wg s slot f v).msix = s.msix := rfl
@[simp] theorem wg_resp (slot : Nat) (f : Fld) (v : Nat) : (wg s slot f v).resp = s.resp := rfl
@[simp] theorem wg_due (slot : Nat) (f : Fld) (v : Nat) : (wg s slot f v).due = s.due := rfl
@[simp] theorem wg_log (slot : Nat) (f : Fld) (v : Nat) : (wg s slot f v).log = s.log := rfl
@[simp] theorem wg_logCap (slot : Nat) (f : Fld) (v : Nat) : (wg s slot f v).logCap = s.logCap := rfl
@[simp] theorem wg_alertQ (slot : Nat) (f : Fld) (v : Nat) : (wg s slot f v).alertQ = s.alertQ := rfl
@[simp] theorem wg_ibis (slot : Nat) (f : Fld) (v : Nat) : (wg s slot f v).ibis = s.ibis := rfl
@[simp] theorem wg_resets (slot : Nat) (f : Fld) (v : Nat) : (wg s slot f v).resets = s.resets := rfl
@[simp] theorem wg_restarts (slot : Nat) (f : Fld) (v : Nat) : (wg s slot f v).restarts = s.restarts := rfl
@[simp] theorem wg_aborts (slot : Nat) (f : Fld) (v : Nat) : (wg s slot f v).aborts = s.aborts := rfl
@[simp] theorem wg_lobeIdle (slot : Nat) (f : Fld) (v : Nat) : (wg s slot f v).lobeIdle = s.lobeIdle := rfl
@[simp] theorem wg_heldPower (slot : Nat) (f : Fld) (v : Nat) : (wg s slot f v).heldPower = s.heldPower := rfl
@[simp] theorem wg_enterPower (slot : Nat) (f : Fld) (v : Nat) : (wg s slot f v).enterPower = s.enterPower := rfl
@[simp] theorem wg_shutoff (slot : Nat) (f : Fld) (v : Nat) : (wg s slot f v).shutoff = s.shutoff := rfl
@[simp] theorem wg_limSteps (slot : Nat) (f : Fld) (v : Nat) : (wg s slot f v).limSteps = s.limSteps := rfl
@[simp] theorem wg_tests (slot : Nat) (f : Fld) (v : Nat) : (wg s slot f v).tests = s.tests := rfl
@[simp] theorem wg_nextTest (slot : Nat) (f : Fld) (v : Nat) : (wg s slot f v).nextTest = s.nextTest := rfl
@[simp] theorem wg_pairTest (slot : Nat) (f : Fld) (v : Nat) : (wg s slot f v).pairTest = s.pairTest := rfl
@[simp] theorem wg_mr (slot : Nat) (f : Fld) (v : Nat) : (wg s slot f v).mr = s.mr := rfl
@[simp] theorem wg_bootId (slot : Nat) (f : Fld) (v : Nat) : (wg s slot f v).bootId = s.bootId := rfl
@[simp] theorem wg_akSeed (slot : Nat) (f : Fld) (v : Nat) : (wg s slot f v).akSeed = s.akSeed := rfl
@[simp] theorem wg_records (slot : Nat) (f : Fld) (v : Nat) : (wg s slot f v).records = s.records := rfl
@[simp] theorem wg_seg (slot : Nat) (f : Fld) (v : Nat) : (wg s slot f v).seg = s.seg := rfl
@[simp] theorem wg_flash (slot : Nat) (f : Fld) (v : Nat) : (wg s slot f v).flash = s.flash := rfl
@[simp] theorem wg_boot (slot : Nat) (f : Fld) (v : Nat) : (wg s slot f v).boot = s.boot := rfl
@[simp] theorem wg_eruptT (slot : Nat) (f : Fld) (v : Nat) : (wg s slot f v).eruptT = s.eruptT := rfl
@[simp] theorem wg_pairPol (slot : Nat) (f : Fld) (v : Nat) : (wg s slot f v).pairPol = s.pairPol := rfl
@[simp] theorem wg_pins (slot : Nat) (f : Fld) (v : Nat) : (wg s slot f v).pins = s.pins := rfl
@[simp] theorem wg_jtag (slot : Nat) (f : Fld) (v : Nat) : (wg s slot f v).jtag = s.jtag := rfl
@[simp] theorem wg_clock (slot : Nat) (f : Fld) (v : Nat) : (wg s slot f v).clock = s.clock := rfl
@[simp] theorem wg_upTime (slot : Nat) (f : Fld) (v : Nat) : (wg s slot f v).upTime = s.upTime := rfl
@[simp] theorem wg_downTime (slot : Nat) (f : Fld) (v : Nat) : (wg s slot f v).downTime = s.downTime := rfl
@[simp] theorem wg_tremor (slot : Nat) (f : Fld) (v : Nat) : (wg s slot f v).tremor = s.tremor := rfl
@[simp] theorem wg_bar4Size (slot : Nat) (f : Fld) (v : Nat) : (wg s slot f v).bar4Size = s.bar4Size := rfl
@[simp] theorem wg_free (slot : Nat) (f : Fld) (v : Nat) : (wg s slot f v).free = s.free := rfl

/-! ### `incr` -/

@[simp] theorem incr_pending (slot : Nat) (f : Fld) (k : Nat) : (incr s slot f k).pending = s.pending := rfl
@[simp] theorem incr_mem (slot : Nat) (f : Fld) (k : Nat) : (incr s slot f k).mem = s.mem := rfl
@[simp] theorem incr_errs (slot : Nat) (f : Fld) (k : Nat) : (incr s slot f k).errs = s.errs := rfl
@[simp] theorem incr_seen (slot : Nat) (f : Fld) (k : Nat) : (incr s slot f k).seen = s.seen := rfl
@[simp] theorem incr_repairCur (slot : Nat) (f : Fld) (k : Nat) : (incr s slot f k).repairCur = s.repairCur := rfl
@[simp] theorem incr_jw (slot : Nat) (f : Fld) (k : Nat) : (incr s slot f k).jw = s.jw := rfl
@[simp] theorem incr_jwRej (slot : Nat) (f : Fld) (k : Nat) : (incr s slot f k).jwRej = s.jwRej := rfl
@[simp] theorem incr_outDie (slot : Nat) (f : Fld) (k : Nat) : (incr s slot f k).outDie = s.outDie := rfl
@[simp] theorem incr_outPkg (slot : Nat) (f : Fld) (k : Nat) : (incr s slot f k).outPkg = s.outPkg := rfl
@[simp] theorem incr_pkgShut (slot : Nat) (f : Fld) (k : Nat) : (incr s slot f k).pkgShut = s.pkgShut := rfl
@[simp] theorem incr_hot (slot : Nat) (f : Fld) (k : Nat) : (incr s slot f k).hot = s.hot := rfl
@[simp] theorem incr_bankNext (slot : Nat) (f : Fld) (k : Nat) : (incr s slot f k).bankNext = s.bankNext := rfl
@[simp] theorem incr_census (slot : Nat) (f : Fld) (k : Nat) : (incr s slot f k).census = s.census := rfl
@[simp] theorem incr_dies (slot : Nat) (f : Fld) (k : Nat) : (incr s slot f k).dies = s.dies := rfl
@[simp] theorem incr_tiles (slot : Nat) (f : Fld) (k : Nat) : (incr s slot f k).tiles = s.tiles := rfl
@[simp] theorem incr_queues (slot : Nat) (f : Fld) (k : Nat) : (incr s slot f k).queues = s.queues := rfl
@[simp] theorem incr_served (slot : Nat) (f : Fld) (k : Nat) : (incr s slot f k).served = s.served := rfl
@[simp] theorem incr_waking (slot : Nat) (f : Fld) (k : Nat) : (incr s slot f k).waking = s.waking := rfl
@[simp] theorem incr_edges (slot : Nat) (f : Fld) (k : Nat) : (incr s slot f k).edges = s.edges := rfl
@[simp] theorem incr_oe (slot : Nat) (f : Fld) (k : Nat) : (incr s slot f k).oe = s.oe := rfl
@[simp] theorem incr_groups (slot : Nat) (f : Fld) (k : Nat) : (incr s slot f k).groups = s.groups := rfl
@[simp] theorem incr_planOf (slot : Nat) (f : Fld) (k : Nat) : (incr s slot f k).planOf = s.planOf := rfl
@[simp] theorem incr_jobs (slot : Nat) (f : Fld) (k : Nat) : (incr s slot f k).jobs = s.jobs := rfl
@[simp] theorem incr_rtHdr (slot : Nat) (f : Fld) (k : Nat) : (incr s slot f k).rtHdr = s.rtHdr := rfl
@[simp] theorem incr_rtEnt (slot : Nat) (f : Fld) (k : Nat) : (incr s slot f k).rtEnt = s.rtEnt := rfl
@[simp] theorem incr_inject (slot : Nat) (f : Fld) (k : Nat) : (incr s slot f k).inject = s.inject := rfl
@[simp] theorem incr_inbox (slot : Nat) (f : Fld) (k : Nat) : (incr s slot f k).inbox = s.inbox := rfl
@[simp] theorem incr_arrived (slot : Nat) (f : Fld) (k : Nat) : (incr s slot f k).arrived = s.arrived := rfl
@[simp] theorem incr_outq (slot : Nat) (f : Fld) (k : Nat) : (incr s slot f k).outq = s.outq := rfl
@[simp] theorem incr_tx (slot : Nat) (f : Fld) (k : Nat) : (incr s slot f k).tx = s.tx := rfl
@[simp] theorem incr_links (slot : Nat) (f : Fld) (k : Nat) : (incr s slot f k).links = s.links := rfl
@[simp] theorem incr_sidestep (slot : Nat) (f : Fld) (k : Nat) : (incr s slot f k).sidestep = s.sidestep := rfl
@[simp] theorem incr_nbrUp (slot : Nat) (f : Fld) (k : Nat) : (incr s slot f k).nbrUp = s.nbrUp := rfl
@[simp] theorem incr_ft (slot : Nat) (f : Fld) (k : Nat) : (incr s slot f k).ft = s.ft := rfl
@[simp] theorem incr_remote (slot : Nat) (f : Fld) (k : Nat) : (incr s slot f k).remote = s.remote := rfl
@[simp] theorem incr_geysers (slot : Nat) (f : Fld) (k : Nat) : (incr s slot f k).geysers = s.geysers := rfl
@[simp] theorem incr_credits (slot : Nat) (f : Fld) (k : Nat) : (incr s slot f k).credits = s.credits := rfl
@[simp] theorem incr_cqs (slot : Nat) (f : Fld) (k : Nat) : (incr s slot f k).cqs = s.cqs := rfl
@[simp] theorem incr_starts (slot : Nat) (f : Fld) (k : Nat) : (incr s slot f k).starts = s.starts := rfl
@[simp] theorem incr_grants (slot : Nat) (f : Fld) (k : Nat) : (incr s slot f k).grants = s.grants := rfl
@[simp] theorem incr_rings (slot : Nat) (f : Fld) (k : Nat) : (incr s slot f k).rings = s.rings := rfl
@[simp] theorem incr_cports (slot : Nat) (f : Fld) (k : Nat) : (incr s slot f k).cports = s.cports := rfl
@[simp] theorem incr_msixTab (slot : Nat) (f : Fld) (k : Nat) : (incr s slot f k).msixTab = s.msixTab := rfl
@[simp] theorem incr_msixPend (slot : Nat) (f : Fld) (k : Nat) : (incr s slot f k).msixPend = s.msixPend := rfl
@[simp] theorem incr_hostOut (slot : Nat) (f : Fld) (k : Nat) : (incr s slot f k).hostOut = s.hostOut := rfl
@[simp] theorem incr_barWait (slot : Nat) (f : Fld) (k : Nat) : (incr s slot f k).barWait = s.barWait := rfl
@[simp] theorem incr_msix (slot : Nat) (f : Fld) (k : Nat) : (incr s slot f k).msix = s.msix := rfl
@[simp] theorem incr_resp (slot : Nat) (f : Fld) (k : Nat) : (incr s slot f k).resp = s.resp := rfl
@[simp] theorem incr_due (slot : Nat) (f : Fld) (k : Nat) : (incr s slot f k).due = s.due := rfl
@[simp] theorem incr_log (slot : Nat) (f : Fld) (k : Nat) : (incr s slot f k).log = s.log := rfl
@[simp] theorem incr_logCap (slot : Nat) (f : Fld) (k : Nat) : (incr s slot f k).logCap = s.logCap := rfl
@[simp] theorem incr_alertQ (slot : Nat) (f : Fld) (k : Nat) : (incr s slot f k).alertQ = s.alertQ := rfl
@[simp] theorem incr_ibis (slot : Nat) (f : Fld) (k : Nat) : (incr s slot f k).ibis = s.ibis := rfl
@[simp] theorem incr_resets (slot : Nat) (f : Fld) (k : Nat) : (incr s slot f k).resets = s.resets := rfl
@[simp] theorem incr_restarts (slot : Nat) (f : Fld) (k : Nat) : (incr s slot f k).restarts = s.restarts := rfl
@[simp] theorem incr_aborts (slot : Nat) (f : Fld) (k : Nat) : (incr s slot f k).aborts = s.aborts := rfl
@[simp] theorem incr_lobeIdle (slot : Nat) (f : Fld) (k : Nat) : (incr s slot f k).lobeIdle = s.lobeIdle := rfl
@[simp] theorem incr_heldPower (slot : Nat) (f : Fld) (k : Nat) : (incr s slot f k).heldPower = s.heldPower := rfl
@[simp] theorem incr_enterPower (slot : Nat) (f : Fld) (k : Nat) : (incr s slot f k).enterPower = s.enterPower := rfl
@[simp] theorem incr_shutoff (slot : Nat) (f : Fld) (k : Nat) : (incr s slot f k).shutoff = s.shutoff := rfl
@[simp] theorem incr_limSteps (slot : Nat) (f : Fld) (k : Nat) : (incr s slot f k).limSteps = s.limSteps := rfl
@[simp] theorem incr_tests (slot : Nat) (f : Fld) (k : Nat) : (incr s slot f k).tests = s.tests := rfl
@[simp] theorem incr_nextTest (slot : Nat) (f : Fld) (k : Nat) : (incr s slot f k).nextTest = s.nextTest := rfl
@[simp] theorem incr_pairTest (slot : Nat) (f : Fld) (k : Nat) : (incr s slot f k).pairTest = s.pairTest := rfl
@[simp] theorem incr_mr (slot : Nat) (f : Fld) (k : Nat) : (incr s slot f k).mr = s.mr := rfl
@[simp] theorem incr_bootId (slot : Nat) (f : Fld) (k : Nat) : (incr s slot f k).bootId = s.bootId := rfl
@[simp] theorem incr_akSeed (slot : Nat) (f : Fld) (k : Nat) : (incr s slot f k).akSeed = s.akSeed := rfl
@[simp] theorem incr_records (slot : Nat) (f : Fld) (k : Nat) : (incr s slot f k).records = s.records := rfl
@[simp] theorem incr_seg (slot : Nat) (f : Fld) (k : Nat) : (incr s slot f k).seg = s.seg := rfl
@[simp] theorem incr_flash (slot : Nat) (f : Fld) (k : Nat) : (incr s slot f k).flash = s.flash := rfl
@[simp] theorem incr_boot (slot : Nat) (f : Fld) (k : Nat) : (incr s slot f k).boot = s.boot := rfl
@[simp] theorem incr_eruptT (slot : Nat) (f : Fld) (k : Nat) : (incr s slot f k).eruptT = s.eruptT := rfl
@[simp] theorem incr_pairPol (slot : Nat) (f : Fld) (k : Nat) : (incr s slot f k).pairPol = s.pairPol := rfl
@[simp] theorem incr_pins (slot : Nat) (f : Fld) (k : Nat) : (incr s slot f k).pins = s.pins := rfl
@[simp] theorem incr_jtag (slot : Nat) (f : Fld) (k : Nat) : (incr s slot f k).jtag = s.jtag := rfl
@[simp] theorem incr_clock (slot : Nat) (f : Fld) (k : Nat) : (incr s slot f k).clock = s.clock := rfl
@[simp] theorem incr_upTime (slot : Nat) (f : Fld) (k : Nat) : (incr s slot f k).upTime = s.upTime := rfl
@[simp] theorem incr_downTime (slot : Nat) (f : Fld) (k : Nat) : (incr s slot f k).downTime = s.downTime := rfl
@[simp] theorem incr_tremor (slot : Nat) (f : Fld) (k : Nat) : (incr s slot f k).tremor = s.tremor := rfl
@[simp] theorem incr_bar4Size (slot : Nat) (f : Fld) (k : Nat) : (incr s slot f k).bar4Size = s.bar4Size := rfl
@[simp] theorem incr_free (slot : Nat) (f : Fld) (k : Nat) : (incr s slot f k).free = s.free := rfl

/-! ### `wgFree` -/

@[simp] theorem wgFree_pending (slot : Nat) (f : Fld) (v : Nat) : (wgFree s slot f v).pending = s.pending := rfl
@[simp] theorem wgFree_mem (slot : Nat) (f : Fld) (v : Nat) : (wgFree s slot f v).mem = s.mem := rfl
@[simp] theorem wgFree_errs (slot : Nat) (f : Fld) (v : Nat) : (wgFree s slot f v).errs = s.errs := rfl
@[simp] theorem wgFree_seen (slot : Nat) (f : Fld) (v : Nat) : (wgFree s slot f v).seen = s.seen := rfl
@[simp] theorem wgFree_repairCur (slot : Nat) (f : Fld) (v : Nat) : (wgFree s slot f v).repairCur = s.repairCur := rfl
@[simp] theorem wgFree_jw (slot : Nat) (f : Fld) (v : Nat) : (wgFree s slot f v).jw = s.jw := rfl
@[simp] theorem wgFree_jwRej (slot : Nat) (f : Fld) (v : Nat) : (wgFree s slot f v).jwRej = s.jwRej := rfl
@[simp] theorem wgFree_outDie (slot : Nat) (f : Fld) (v : Nat) : (wgFree s slot f v).outDie = s.outDie := rfl
@[simp] theorem wgFree_outPkg (slot : Nat) (f : Fld) (v : Nat) : (wgFree s slot f v).outPkg = s.outPkg := rfl
@[simp] theorem wgFree_pkgShut (slot : Nat) (f : Fld) (v : Nat) : (wgFree s slot f v).pkgShut = s.pkgShut := rfl
@[simp] theorem wgFree_hot (slot : Nat) (f : Fld) (v : Nat) : (wgFree s slot f v).hot = s.hot := rfl
@[simp] theorem wgFree_bankNext (slot : Nat) (f : Fld) (v : Nat) : (wgFree s slot f v).bankNext = s.bankNext := rfl
@[simp] theorem wgFree_census (slot : Nat) (f : Fld) (v : Nat) : (wgFree s slot f v).census = s.census := rfl
@[simp] theorem wgFree_dies (slot : Nat) (f : Fld) (v : Nat) : (wgFree s slot f v).dies = s.dies := rfl
@[simp] theorem wgFree_tiles (slot : Nat) (f : Fld) (v : Nat) : (wgFree s slot f v).tiles = s.tiles := rfl
@[simp] theorem wgFree_queues (slot : Nat) (f : Fld) (v : Nat) : (wgFree s slot f v).queues = s.queues := rfl
@[simp] theorem wgFree_served (slot : Nat) (f : Fld) (v : Nat) : (wgFree s slot f v).served = s.served := rfl
@[simp] theorem wgFree_waking (slot : Nat) (f : Fld) (v : Nat) : (wgFree s slot f v).waking = s.waking := rfl
@[simp] theorem wgFree_edges (slot : Nat) (f : Fld) (v : Nat) : (wgFree s slot f v).edges = s.edges := rfl
@[simp] theorem wgFree_oe (slot : Nat) (f : Fld) (v : Nat) : (wgFree s slot f v).oe = s.oe := rfl
@[simp] theorem wgFree_groups (slot : Nat) (f : Fld) (v : Nat) : (wgFree s slot f v).groups = s.groups := rfl
@[simp] theorem wgFree_planOf (slot : Nat) (f : Fld) (v : Nat) : (wgFree s slot f v).planOf = s.planOf := rfl
@[simp] theorem wgFree_jobs (slot : Nat) (f : Fld) (v : Nat) : (wgFree s slot f v).jobs = s.jobs := rfl
@[simp] theorem wgFree_rtHdr (slot : Nat) (f : Fld) (v : Nat) : (wgFree s slot f v).rtHdr = s.rtHdr := rfl
@[simp] theorem wgFree_rtEnt (slot : Nat) (f : Fld) (v : Nat) : (wgFree s slot f v).rtEnt = s.rtEnt := rfl
@[simp] theorem wgFree_inject (slot : Nat) (f : Fld) (v : Nat) : (wgFree s slot f v).inject = s.inject := rfl
@[simp] theorem wgFree_inbox (slot : Nat) (f : Fld) (v : Nat) : (wgFree s slot f v).inbox = s.inbox := rfl
@[simp] theorem wgFree_arrived (slot : Nat) (f : Fld) (v : Nat) : (wgFree s slot f v).arrived = s.arrived := rfl
@[simp] theorem wgFree_outq (slot : Nat) (f : Fld) (v : Nat) : (wgFree s slot f v).outq = s.outq := rfl
@[simp] theorem wgFree_tx (slot : Nat) (f : Fld) (v : Nat) : (wgFree s slot f v).tx = s.tx := rfl
@[simp] theorem wgFree_links (slot : Nat) (f : Fld) (v : Nat) : (wgFree s slot f v).links = s.links := rfl
@[simp] theorem wgFree_sidestep (slot : Nat) (f : Fld) (v : Nat) : (wgFree s slot f v).sidestep = s.sidestep := rfl
@[simp] theorem wgFree_nbrUp (slot : Nat) (f : Fld) (v : Nat) : (wgFree s slot f v).nbrUp = s.nbrUp := rfl
@[simp] theorem wgFree_ft (slot : Nat) (f : Fld) (v : Nat) : (wgFree s slot f v).ft = s.ft := rfl
@[simp] theorem wgFree_remote (slot : Nat) (f : Fld) (v : Nat) : (wgFree s slot f v).remote = s.remote := rfl
@[simp] theorem wgFree_geysers (slot : Nat) (f : Fld) (v : Nat) : (wgFree s slot f v).geysers = s.geysers := rfl
@[simp] theorem wgFree_credits (slot : Nat) (f : Fld) (v : Nat) : (wgFree s slot f v).credits = s.credits := rfl
@[simp] theorem wgFree_cqs (slot : Nat) (f : Fld) (v : Nat) : (wgFree s slot f v).cqs = s.cqs := rfl
@[simp] theorem wgFree_starts (slot : Nat) (f : Fld) (v : Nat) : (wgFree s slot f v).starts = s.starts := rfl
@[simp] theorem wgFree_grants (slot : Nat) (f : Fld) (v : Nat) : (wgFree s slot f v).grants = s.grants := rfl
@[simp] theorem wgFree_rings (slot : Nat) (f : Fld) (v : Nat) : (wgFree s slot f v).rings = s.rings := rfl
@[simp] theorem wgFree_cports (slot : Nat) (f : Fld) (v : Nat) : (wgFree s slot f v).cports = s.cports := rfl
@[simp] theorem wgFree_msixTab (slot : Nat) (f : Fld) (v : Nat) : (wgFree s slot f v).msixTab = s.msixTab := rfl
@[simp] theorem wgFree_msixPend (slot : Nat) (f : Fld) (v : Nat) : (wgFree s slot f v).msixPend = s.msixPend := rfl
@[simp] theorem wgFree_hostOut (slot : Nat) (f : Fld) (v : Nat) : (wgFree s slot f v).hostOut = s.hostOut := rfl
@[simp] theorem wgFree_barWait (slot : Nat) (f : Fld) (v : Nat) : (wgFree s slot f v).barWait = s.barWait := rfl
@[simp] theorem wgFree_msix (slot : Nat) (f : Fld) (v : Nat) : (wgFree s slot f v).msix = s.msix := rfl
@[simp] theorem wgFree_resp (slot : Nat) (f : Fld) (v : Nat) : (wgFree s slot f v).resp = s.resp := rfl
@[simp] theorem wgFree_due (slot : Nat) (f : Fld) (v : Nat) : (wgFree s slot f v).due = s.due := rfl
@[simp] theorem wgFree_log (slot : Nat) (f : Fld) (v : Nat) : (wgFree s slot f v).log = s.log := rfl
@[simp] theorem wgFree_logCap (slot : Nat) (f : Fld) (v : Nat) : (wgFree s slot f v).logCap = s.logCap := rfl
@[simp] theorem wgFree_alertQ (slot : Nat) (f : Fld) (v : Nat) : (wgFree s slot f v).alertQ = s.alertQ := rfl
@[simp] theorem wgFree_ibis (slot : Nat) (f : Fld) (v : Nat) : (wgFree s slot f v).ibis = s.ibis := rfl
@[simp] theorem wgFree_resets (slot : Nat) (f : Fld) (v : Nat) : (wgFree s slot f v).resets = s.resets := rfl
@[simp] theorem wgFree_restarts (slot : Nat) (f : Fld) (v : Nat) : (wgFree s slot f v).restarts = s.restarts := rfl
@[simp] theorem wgFree_aborts (slot : Nat) (f : Fld) (v : Nat) : (wgFree s slot f v).aborts = s.aborts := rfl
@[simp] theorem wgFree_lobeIdle (slot : Nat) (f : Fld) (v : Nat) : (wgFree s slot f v).lobeIdle = s.lobeIdle := rfl
@[simp] theorem wgFree_heldPower (slot : Nat) (f : Fld) (v : Nat) : (wgFree s slot f v).heldPower = s.heldPower := rfl
@[simp] theorem wgFree_enterPower (slot : Nat) (f : Fld) (v : Nat) : (wgFree s slot f v).enterPower = s.enterPower := rfl
@[simp] theorem wgFree_shutoff (slot : Nat) (f : Fld) (v : Nat) : (wgFree s slot f v).shutoff = s.shutoff := rfl
@[simp] theorem wgFree_limSteps (slot : Nat) (f : Fld) (v : Nat) : (wgFree s slot f v).limSteps = s.limSteps := rfl
@[simp] theorem wgFree_tests (slot : Nat) (f : Fld) (v : Nat) : (wgFree s slot f v).tests = s.tests := rfl
@[simp] theorem wgFree_nextTest (slot : Nat) (f : Fld) (v : Nat) : (wgFree s slot f v).nextTest = s.nextTest := rfl
@[simp] theorem wgFree_pairTest (slot : Nat) (f : Fld) (v : Nat) : (wgFree s slot f v).pairTest = s.pairTest := rfl
@[simp] theorem wgFree_mr (slot : Nat) (f : Fld) (v : Nat) : (wgFree s slot f v).mr = s.mr := rfl
@[simp] theorem wgFree_bootId (slot : Nat) (f : Fld) (v : Nat) : (wgFree s slot f v).bootId = s.bootId := rfl
@[simp] theorem wgFree_akSeed (slot : Nat) (f : Fld) (v : Nat) : (wgFree s slot f v).akSeed = s.akSeed := rfl
@[simp] theorem wgFree_records (slot : Nat) (f : Fld) (v : Nat) : (wgFree s slot f v).records = s.records := rfl
@[simp] theorem wgFree_seg (slot : Nat) (f : Fld) (v : Nat) : (wgFree s slot f v).seg = s.seg := rfl
@[simp] theorem wgFree_flash (slot : Nat) (f : Fld) (v : Nat) : (wgFree s slot f v).flash = s.flash := rfl
@[simp] theorem wgFree_boot (slot : Nat) (f : Fld) (v : Nat) : (wgFree s slot f v).boot = s.boot := rfl
@[simp] theorem wgFree_eruptT (slot : Nat) (f : Fld) (v : Nat) : (wgFree s slot f v).eruptT = s.eruptT := rfl
@[simp] theorem wgFree_pairPol (slot : Nat) (f : Fld) (v : Nat) : (wgFree s slot f v).pairPol = s.pairPol := rfl
@[simp] theorem wgFree_pins (slot : Nat) (f : Fld) (v : Nat) : (wgFree s slot f v).pins = s.pins := rfl
@[simp] theorem wgFree_jtag (slot : Nat) (f : Fld) (v : Nat) : (wgFree s slot f v).jtag = s.jtag := rfl
@[simp] theorem wgFree_clock (slot : Nat) (f : Fld) (v : Nat) : (wgFree s slot f v).clock = s.clock := rfl
@[simp] theorem wgFree_upTime (slot : Nat) (f : Fld) (v : Nat) : (wgFree s slot f v).upTime = s.upTime := rfl
@[simp] theorem wgFree_downTime (slot : Nat) (f : Fld) (v : Nat) : (wgFree s slot f v).downTime = s.downTime := rfl
@[simp] theorem wgFree_tremor (slot : Nat) (f : Fld) (v : Nat) : (wgFree s slot f v).tremor = s.tremor := rfl
@[simp] theorem wgFree_bar4Size (slot : Nat) (f : Fld) (v : Nat) : (wgFree s slot f v).bar4Size = s.bar4Size := rfl
@[simp] theorem wgFree_free (slot : Nat) (f : Fld) (v : Nat) : (wgFree s slot f v).free = s.free := rfl

/-! ### `wrByte` -/

@[simp] theorem wrByte_pending (a : Nat) (b : Byte) : (wrByte s a b).pending = s.pending := rfl
@[simp] theorem wrByte_regs (a : Nat) (b : Byte) : (wrByte s a b).regs = s.regs := rfl
@[simp] theorem wrByte_errs (a : Nat) (b : Byte) : (wrByte s a b).errs = s.errs := rfl
@[simp] theorem wrByte_seen (a : Nat) (b : Byte) : (wrByte s a b).seen = s.seen := rfl
@[simp] theorem wrByte_repairCur (a : Nat) (b : Byte) : (wrByte s a b).repairCur = s.repairCur := rfl
@[simp] theorem wrByte_jw (a : Nat) (b : Byte) : (wrByte s a b).jw = s.jw := rfl
@[simp] theorem wrByte_jwRej (a : Nat) (b : Byte) : (wrByte s a b).jwRej = s.jwRej := rfl
@[simp] theorem wrByte_outDie (a : Nat) (b : Byte) : (wrByte s a b).outDie = s.outDie := rfl
@[simp] theorem wrByte_outPkg (a : Nat) (b : Byte) : (wrByte s a b).outPkg = s.outPkg := rfl
@[simp] theorem wrByte_pkgShut (a : Nat) (b : Byte) : (wrByte s a b).pkgShut = s.pkgShut := rfl
@[simp] theorem wrByte_hot (a : Nat) (b : Byte) : (wrByte s a b).hot = s.hot := rfl
@[simp] theorem wrByte_bankNext (a : Nat) (b : Byte) : (wrByte s a b).bankNext = s.bankNext := rfl
@[simp] theorem wrByte_census (a : Nat) (b : Byte) : (wrByte s a b).census = s.census := rfl
@[simp] theorem wrByte_dies (a : Nat) (b : Byte) : (wrByte s a b).dies = s.dies := rfl
@[simp] theorem wrByte_tiles (a : Nat) (b : Byte) : (wrByte s a b).tiles = s.tiles := rfl
@[simp] theorem wrByte_queues (a : Nat) (b : Byte) : (wrByte s a b).queues = s.queues := rfl
@[simp] theorem wrByte_served (a : Nat) (b : Byte) : (wrByte s a b).served = s.served := rfl
@[simp] theorem wrByte_waking (a : Nat) (b : Byte) : (wrByte s a b).waking = s.waking := rfl
@[simp] theorem wrByte_edges (a : Nat) (b : Byte) : (wrByte s a b).edges = s.edges := rfl
@[simp] theorem wrByte_oe (a : Nat) (b : Byte) : (wrByte s a b).oe = s.oe := rfl
@[simp] theorem wrByte_groups (a : Nat) (b : Byte) : (wrByte s a b).groups = s.groups := rfl
@[simp] theorem wrByte_planOf (a : Nat) (b : Byte) : (wrByte s a b).planOf = s.planOf := rfl
@[simp] theorem wrByte_jobs (a : Nat) (b : Byte) : (wrByte s a b).jobs = s.jobs := rfl
@[simp] theorem wrByte_rtHdr (a : Nat) (b : Byte) : (wrByte s a b).rtHdr = s.rtHdr := rfl
@[simp] theorem wrByte_rtEnt (a : Nat) (b : Byte) : (wrByte s a b).rtEnt = s.rtEnt := rfl
@[simp] theorem wrByte_inject (a : Nat) (b : Byte) : (wrByte s a b).inject = s.inject := rfl
@[simp] theorem wrByte_inbox (a : Nat) (b : Byte) : (wrByte s a b).inbox = s.inbox := rfl
@[simp] theorem wrByte_arrived (a : Nat) (b : Byte) : (wrByte s a b).arrived = s.arrived := rfl
@[simp] theorem wrByte_outq (a : Nat) (b : Byte) : (wrByte s a b).outq = s.outq := rfl
@[simp] theorem wrByte_tx (a : Nat) (b : Byte) : (wrByte s a b).tx = s.tx := rfl
@[simp] theorem wrByte_links (a : Nat) (b : Byte) : (wrByte s a b).links = s.links := rfl
@[simp] theorem wrByte_sidestep (a : Nat) (b : Byte) : (wrByte s a b).sidestep = s.sidestep := rfl
@[simp] theorem wrByte_nbrUp (a : Nat) (b : Byte) : (wrByte s a b).nbrUp = s.nbrUp := rfl
@[simp] theorem wrByte_ft (a : Nat) (b : Byte) : (wrByte s a b).ft = s.ft := rfl
@[simp] theorem wrByte_remote (a : Nat) (b : Byte) : (wrByte s a b).remote = s.remote := rfl
@[simp] theorem wrByte_geysers (a : Nat) (b : Byte) : (wrByte s a b).geysers = s.geysers := rfl
@[simp] theorem wrByte_credits (a : Nat) (b : Byte) : (wrByte s a b).credits = s.credits := rfl
@[simp] theorem wrByte_cqs (a : Nat) (b : Byte) : (wrByte s a b).cqs = s.cqs := rfl
@[simp] theorem wrByte_starts (a : Nat) (b : Byte) : (wrByte s a b).starts = s.starts := rfl
@[simp] theorem wrByte_grants (a : Nat) (b : Byte) : (wrByte s a b).grants = s.grants := rfl
@[simp] theorem wrByte_rings (a : Nat) (b : Byte) : (wrByte s a b).rings = s.rings := rfl
@[simp] theorem wrByte_cports (a : Nat) (b : Byte) : (wrByte s a b).cports = s.cports := rfl
@[simp] theorem wrByte_msixTab (a : Nat) (b : Byte) : (wrByte s a b).msixTab = s.msixTab := rfl
@[simp] theorem wrByte_msixPend (a : Nat) (b : Byte) : (wrByte s a b).msixPend = s.msixPend := rfl
@[simp] theorem wrByte_hostOut (a : Nat) (b : Byte) : (wrByte s a b).hostOut = s.hostOut := rfl
@[simp] theorem wrByte_barWait (a : Nat) (b : Byte) : (wrByte s a b).barWait = s.barWait := rfl
@[simp] theorem wrByte_msix (a : Nat) (b : Byte) : (wrByte s a b).msix = s.msix := rfl
@[simp] theorem wrByte_resp (a : Nat) (b : Byte) : (wrByte s a b).resp = s.resp := rfl
@[simp] theorem wrByte_due (a : Nat) (b : Byte) : (wrByte s a b).due = s.due := rfl
@[simp] theorem wrByte_log (a : Nat) (b : Byte) : (wrByte s a b).log = s.log := rfl
@[simp] theorem wrByte_logCap (a : Nat) (b : Byte) : (wrByte s a b).logCap = s.logCap := rfl
@[simp] theorem wrByte_alertQ (a : Nat) (b : Byte) : (wrByte s a b).alertQ = s.alertQ := rfl
@[simp] theorem wrByte_ibis (a : Nat) (b : Byte) : (wrByte s a b).ibis = s.ibis := rfl
@[simp] theorem wrByte_resets (a : Nat) (b : Byte) : (wrByte s a b).resets = s.resets := rfl
@[simp] theorem wrByte_restarts (a : Nat) (b : Byte) : (wrByte s a b).restarts = s.restarts := rfl
@[simp] theorem wrByte_aborts (a : Nat) (b : Byte) : (wrByte s a b).aborts = s.aborts := rfl
@[simp] theorem wrByte_lobeIdle (a : Nat) (b : Byte) : (wrByte s a b).lobeIdle = s.lobeIdle := rfl
@[simp] theorem wrByte_heldPower (a : Nat) (b : Byte) : (wrByte s a b).heldPower = s.heldPower := rfl
@[simp] theorem wrByte_enterPower (a : Nat) (b : Byte) : (wrByte s a b).enterPower = s.enterPower := rfl
@[simp] theorem wrByte_shutoff (a : Nat) (b : Byte) : (wrByte s a b).shutoff = s.shutoff := rfl
@[simp] theorem wrByte_limSteps (a : Nat) (b : Byte) : (wrByte s a b).limSteps = s.limSteps := rfl
@[simp] theorem wrByte_tests (a : Nat) (b : Byte) : (wrByte s a b).tests = s.tests := rfl
@[simp] theorem wrByte_nextTest (a : Nat) (b : Byte) : (wrByte s a b).nextTest = s.nextTest := rfl
@[simp] theorem wrByte_pairTest (a : Nat) (b : Byte) : (wrByte s a b).pairTest = s.pairTest := rfl
@[simp] theorem wrByte_mr (a : Nat) (b : Byte) : (wrByte s a b).mr = s.mr := rfl
@[simp] theorem wrByte_bootId (a : Nat) (b : Byte) : (wrByte s a b).bootId = s.bootId := rfl
@[simp] theorem wrByte_akSeed (a : Nat) (b : Byte) : (wrByte s a b).akSeed = s.akSeed := rfl
@[simp] theorem wrByte_records (a : Nat) (b : Byte) : (wrByte s a b).records = s.records := rfl
@[simp] theorem wrByte_seg (a : Nat) (b : Byte) : (wrByte s a b).seg = s.seg := rfl
@[simp] theorem wrByte_flash (a : Nat) (b : Byte) : (wrByte s a b).flash = s.flash := rfl
@[simp] theorem wrByte_boot (a : Nat) (b : Byte) : (wrByte s a b).boot = s.boot := rfl
@[simp] theorem wrByte_eruptT (a : Nat) (b : Byte) : (wrByte s a b).eruptT = s.eruptT := rfl
@[simp] theorem wrByte_pairPol (a : Nat) (b : Byte) : (wrByte s a b).pairPol = s.pairPol := rfl
@[simp] theorem wrByte_pins (a : Nat) (b : Byte) : (wrByte s a b).pins = s.pins := rfl
@[simp] theorem wrByte_jtag (a : Nat) (b : Byte) : (wrByte s a b).jtag = s.jtag := rfl
@[simp] theorem wrByte_clock (a : Nat) (b : Byte) : (wrByte s a b).clock = s.clock := rfl
@[simp] theorem wrByte_upTime (a : Nat) (b : Byte) : (wrByte s a b).upTime = s.upTime := rfl
@[simp] theorem wrByte_downTime (a : Nat) (b : Byte) : (wrByte s a b).downTime = s.downTime := rfl
@[simp] theorem wrByte_tremor (a : Nat) (b : Byte) : (wrByte s a b).tremor = s.tremor := rfl
@[simp] theorem wrByte_bar4Size (a : Nat) (b : Byte) : (wrByte s a b).bar4Size = s.bar4Size := rfl
@[simp] theorem wrByte_free (a : Nat) (b : Byte) : (wrByte s a b).free = s.free := rfl

/-! ### `setDie` -/

@[simp] theorem setDie_pending (d : Nat) (x : DieSt) : (setDie s d x).pending = s.pending := rfl
@[simp] theorem setDie_regs (d : Nat) (x : DieSt) : (setDie s d x).regs = s.regs := rfl
@[simp] theorem setDie_mem (d : Nat) (x : DieSt) : (setDie s d x).mem = s.mem := rfl
@[simp] theorem setDie_errs (d : Nat) (x : DieSt) : (setDie s d x).errs = s.errs := rfl
@[simp] theorem setDie_seen (d : Nat) (x : DieSt) : (setDie s d x).seen = s.seen := rfl
@[simp] theorem setDie_repairCur (d : Nat) (x : DieSt) : (setDie s d x).repairCur = s.repairCur := rfl
@[simp] theorem setDie_jw (d : Nat) (x : DieSt) : (setDie s d x).jw = s.jw := rfl
@[simp] theorem setDie_jwRej (d : Nat) (x : DieSt) : (setDie s d x).jwRej = s.jwRej := rfl
@[simp] theorem setDie_outDie (d : Nat) (x : DieSt) : (setDie s d x).outDie = s.outDie := rfl
@[simp] theorem setDie_outPkg (d : Nat) (x : DieSt) : (setDie s d x).outPkg = s.outPkg := rfl
@[simp] theorem setDie_pkgShut (d : Nat) (x : DieSt) : (setDie s d x).pkgShut = s.pkgShut := rfl
@[simp] theorem setDie_hot (d : Nat) (x : DieSt) : (setDie s d x).hot = s.hot := rfl
@[simp] theorem setDie_bankNext (d : Nat) (x : DieSt) : (setDie s d x).bankNext = s.bankNext := rfl
@[simp] theorem setDie_census (d : Nat) (x : DieSt) : (setDie s d x).census = s.census := rfl
@[simp] theorem setDie_tiles (d : Nat) (x : DieSt) : (setDie s d x).tiles = s.tiles := rfl
@[simp] theorem setDie_queues (d : Nat) (x : DieSt) : (setDie s d x).queues = s.queues := rfl
@[simp] theorem setDie_served (d : Nat) (x : DieSt) : (setDie s d x).served = s.served := rfl
@[simp] theorem setDie_waking (d : Nat) (x : DieSt) : (setDie s d x).waking = s.waking := rfl
@[simp] theorem setDie_edges (d : Nat) (x : DieSt) : (setDie s d x).edges = s.edges := rfl
@[simp] theorem setDie_oe (d : Nat) (x : DieSt) : (setDie s d x).oe = s.oe := rfl
@[simp] theorem setDie_groups (d : Nat) (x : DieSt) : (setDie s d x).groups = s.groups := rfl
@[simp] theorem setDie_planOf (d : Nat) (x : DieSt) : (setDie s d x).planOf = s.planOf := rfl
@[simp] theorem setDie_jobs (d : Nat) (x : DieSt) : (setDie s d x).jobs = s.jobs := rfl
@[simp] theorem setDie_rtHdr (d : Nat) (x : DieSt) : (setDie s d x).rtHdr = s.rtHdr := rfl
@[simp] theorem setDie_rtEnt (d : Nat) (x : DieSt) : (setDie s d x).rtEnt = s.rtEnt := rfl
@[simp] theorem setDie_inject (d : Nat) (x : DieSt) : (setDie s d x).inject = s.inject := rfl
@[simp] theorem setDie_inbox (d : Nat) (x : DieSt) : (setDie s d x).inbox = s.inbox := rfl
@[simp] theorem setDie_arrived (d : Nat) (x : DieSt) : (setDie s d x).arrived = s.arrived := rfl
@[simp] theorem setDie_outq (d : Nat) (x : DieSt) : (setDie s d x).outq = s.outq := rfl
@[simp] theorem setDie_tx (d : Nat) (x : DieSt) : (setDie s d x).tx = s.tx := rfl
@[simp] theorem setDie_links (d : Nat) (x : DieSt) : (setDie s d x).links = s.links := rfl
@[simp] theorem setDie_sidestep (d : Nat) (x : DieSt) : (setDie s d x).sidestep = s.sidestep := rfl
@[simp] theorem setDie_nbrUp (d : Nat) (x : DieSt) : (setDie s d x).nbrUp = s.nbrUp := rfl
@[simp] theorem setDie_ft (d : Nat) (x : DieSt) : (setDie s d x).ft = s.ft := rfl
@[simp] theorem setDie_remote (d : Nat) (x : DieSt) : (setDie s d x).remote = s.remote := rfl
@[simp] theorem setDie_geysers (d : Nat) (x : DieSt) : (setDie s d x).geysers = s.geysers := rfl
@[simp] theorem setDie_credits (d : Nat) (x : DieSt) : (setDie s d x).credits = s.credits := rfl
@[simp] theorem setDie_cqs (d : Nat) (x : DieSt) : (setDie s d x).cqs = s.cqs := rfl
@[simp] theorem setDie_starts (d : Nat) (x : DieSt) : (setDie s d x).starts = s.starts := rfl
@[simp] theorem setDie_grants (d : Nat) (x : DieSt) : (setDie s d x).grants = s.grants := rfl
@[simp] theorem setDie_rings (d : Nat) (x : DieSt) : (setDie s d x).rings = s.rings := rfl
@[simp] theorem setDie_cports (d : Nat) (x : DieSt) : (setDie s d x).cports = s.cports := rfl
@[simp] theorem setDie_msixTab (d : Nat) (x : DieSt) : (setDie s d x).msixTab = s.msixTab := rfl
@[simp] theorem setDie_msixPend (d : Nat) (x : DieSt) : (setDie s d x).msixPend = s.msixPend := rfl
@[simp] theorem setDie_hostOut (d : Nat) (x : DieSt) : (setDie s d x).hostOut = s.hostOut := rfl
@[simp] theorem setDie_barWait (d : Nat) (x : DieSt) : (setDie s d x).barWait = s.barWait := rfl
@[simp] theorem setDie_msix (d : Nat) (x : DieSt) : (setDie s d x).msix = s.msix := rfl
@[simp] theorem setDie_resp (d : Nat) (x : DieSt) : (setDie s d x).resp = s.resp := rfl
@[simp] theorem setDie_due (d : Nat) (x : DieSt) : (setDie s d x).due = s.due := rfl
@[simp] theorem setDie_log (d : Nat) (x : DieSt) : (setDie s d x).log = s.log := rfl
@[simp] theorem setDie_logCap (d : Nat) (x : DieSt) : (setDie s d x).logCap = s.logCap := rfl
@[simp] theorem setDie_alertQ (d : Nat) (x : DieSt) : (setDie s d x).alertQ = s.alertQ := rfl
@[simp] theorem setDie_ibis (d : Nat) (x : DieSt) : (setDie s d x).ibis = s.ibis := rfl
@[simp] theorem setDie_resets (d : Nat) (x : DieSt) : (setDie s d x).resets = s.resets := rfl
@[simp] theorem setDie_restarts (d : Nat) (x : DieSt) : (setDie s d x).restarts = s.restarts := rfl
@[simp] theorem setDie_aborts (d : Nat) (x : DieSt) : (setDie s d x).aborts = s.aborts := rfl
@[simp] theorem setDie_lobeIdle (d : Nat) (x : DieSt) : (setDie s d x).lobeIdle = s.lobeIdle := rfl
@[simp] theorem setDie_heldPower (d : Nat) (x : DieSt) : (setDie s d x).heldPower = s.heldPower := rfl
@[simp] theorem setDie_enterPower (d : Nat) (x : DieSt) : (setDie s d x).enterPower = s.enterPower := rfl
@[simp] theorem setDie_shutoff (d : Nat) (x : DieSt) : (setDie s d x).shutoff = s.shutoff := rfl
@[simp] theorem setDie_limSteps (d : Nat) (x : DieSt) : (setDie s d x).limSteps = s.limSteps := rfl
@[simp] theorem setDie_tests (d : Nat) (x : DieSt) : (setDie s d x).tests = s.tests := rfl
@[simp] theorem setDie_nextTest (d : Nat) (x : DieSt) : (setDie s d x).nextTest = s.nextTest := rfl
@[simp] theorem setDie_pairTest (d : Nat) (x : DieSt) : (setDie s d x).pairTest = s.pairTest := rfl
@[simp] theorem setDie_mr (d : Nat) (x : DieSt) : (setDie s d x).mr = s.mr := rfl
@[simp] theorem setDie_bootId (d : Nat) (x : DieSt) : (setDie s d x).bootId = s.bootId := rfl
@[simp] theorem setDie_akSeed (d : Nat) (x : DieSt) : (setDie s d x).akSeed = s.akSeed := rfl
@[simp] theorem setDie_records (d : Nat) (x : DieSt) : (setDie s d x).records = s.records := rfl
@[simp] theorem setDie_seg (d : Nat) (x : DieSt) : (setDie s d x).seg = s.seg := rfl
@[simp] theorem setDie_flash (d : Nat) (x : DieSt) : (setDie s d x).flash = s.flash := rfl
@[simp] theorem setDie_boot (d : Nat) (x : DieSt) : (setDie s d x).boot = s.boot := rfl
@[simp] theorem setDie_eruptT (d : Nat) (x : DieSt) : (setDie s d x).eruptT = s.eruptT := rfl
@[simp] theorem setDie_pairPol (d : Nat) (x : DieSt) : (setDie s d x).pairPol = s.pairPol := rfl
@[simp] theorem setDie_pins (d : Nat) (x : DieSt) : (setDie s d x).pins = s.pins := rfl
@[simp] theorem setDie_jtag (d : Nat) (x : DieSt) : (setDie s d x).jtag = s.jtag := rfl
@[simp] theorem setDie_clock (d : Nat) (x : DieSt) : (setDie s d x).clock = s.clock := rfl
@[simp] theorem setDie_upTime (d : Nat) (x : DieSt) : (setDie s d x).upTime = s.upTime := rfl
@[simp] theorem setDie_downTime (d : Nat) (x : DieSt) : (setDie s d x).downTime = s.downTime := rfl
@[simp] theorem setDie_tremor (d : Nat) (x : DieSt) : (setDie s d x).tremor = s.tremor := rfl
@[simp] theorem setDie_bar4Size (d : Nat) (x : DieSt) : (setDie s d x).bar4Size = s.bar4Size := rfl
@[simp] theorem setDie_free (d : Nat) (x : DieSt) : (setDie s d x).free = s.free := rfl

/-! ### `updDie` -/

@[simp] theorem updDie_pending (d : Nat) (g : DieSt → DieSt) : (updDie s d g).pending = s.pending := rfl
@[simp] theorem updDie_regs (d : Nat) (g : DieSt → DieSt) : (updDie s d g).regs = s.regs := rfl
@[simp] theorem updDie_mem (d : Nat) (g : DieSt → DieSt) : (updDie s d g).mem = s.mem := rfl
@[simp] theorem updDie_errs (d : Nat) (g : DieSt → DieSt) : (updDie s d g).errs = s.errs := rfl
@[simp] theorem updDie_seen (d : Nat) (g : DieSt → DieSt) : (updDie s d g).seen = s.seen := rfl
@[simp] theorem updDie_repairCur (d : Nat) (g : DieSt → DieSt) : (updDie s d g).repairCur = s.repairCur := rfl
@[simp] theorem updDie_jw (d : Nat) (g : DieSt → DieSt) : (updDie s d g).jw = s.jw := rfl
@[simp] theorem updDie_jwRej (d : Nat) (g : DieSt → DieSt) : (updDie s d g).jwRej = s.jwRej := rfl
@[simp] theorem updDie_outDie (d : Nat) (g : DieSt → DieSt) : (updDie s d g).outDie = s.outDie := rfl
@[simp] theorem updDie_outPkg (d : Nat) (g : DieSt → DieSt) : (updDie s d g).outPkg = s.outPkg := rfl
@[simp] theorem updDie_pkgShut (d : Nat) (g : DieSt → DieSt) : (updDie s d g).pkgShut = s.pkgShut := rfl
@[simp] theorem updDie_hot (d : Nat) (g : DieSt → DieSt) : (updDie s d g).hot = s.hot := rfl
@[simp] theorem updDie_bankNext (d : Nat) (g : DieSt → DieSt) : (updDie s d g).bankNext = s.bankNext := rfl
@[simp] theorem updDie_census (d : Nat) (g : DieSt → DieSt) : (updDie s d g).census = s.census := rfl
@[simp] theorem updDie_tiles (d : Nat) (g : DieSt → DieSt) : (updDie s d g).tiles = s.tiles := rfl
@[simp] theorem updDie_queues (d : Nat) (g : DieSt → DieSt) : (updDie s d g).queues = s.queues := rfl
@[simp] theorem updDie_served (d : Nat) (g : DieSt → DieSt) : (updDie s d g).served = s.served := rfl
@[simp] theorem updDie_waking (d : Nat) (g : DieSt → DieSt) : (updDie s d g).waking = s.waking := rfl
@[simp] theorem updDie_edges (d : Nat) (g : DieSt → DieSt) : (updDie s d g).edges = s.edges := rfl
@[simp] theorem updDie_oe (d : Nat) (g : DieSt → DieSt) : (updDie s d g).oe = s.oe := rfl
@[simp] theorem updDie_groups (d : Nat) (g : DieSt → DieSt) : (updDie s d g).groups = s.groups := rfl
@[simp] theorem updDie_planOf (d : Nat) (g : DieSt → DieSt) : (updDie s d g).planOf = s.planOf := rfl
@[simp] theorem updDie_jobs (d : Nat) (g : DieSt → DieSt) : (updDie s d g).jobs = s.jobs := rfl
@[simp] theorem updDie_rtHdr (d : Nat) (g : DieSt → DieSt) : (updDie s d g).rtHdr = s.rtHdr := rfl
@[simp] theorem updDie_rtEnt (d : Nat) (g : DieSt → DieSt) : (updDie s d g).rtEnt = s.rtEnt := rfl
@[simp] theorem updDie_inject (d : Nat) (g : DieSt → DieSt) : (updDie s d g).inject = s.inject := rfl
@[simp] theorem updDie_inbox (d : Nat) (g : DieSt → DieSt) : (updDie s d g).inbox = s.inbox := rfl
@[simp] theorem updDie_arrived (d : Nat) (g : DieSt → DieSt) : (updDie s d g).arrived = s.arrived := rfl
@[simp] theorem updDie_outq (d : Nat) (g : DieSt → DieSt) : (updDie s d g).outq = s.outq := rfl
@[simp] theorem updDie_tx (d : Nat) (g : DieSt → DieSt) : (updDie s d g).tx = s.tx := rfl
@[simp] theorem updDie_links (d : Nat) (g : DieSt → DieSt) : (updDie s d g).links = s.links := rfl
@[simp] theorem updDie_sidestep (d : Nat) (g : DieSt → DieSt) : (updDie s d g).sidestep = s.sidestep := rfl
@[simp] theorem updDie_nbrUp (d : Nat) (g : DieSt → DieSt) : (updDie s d g).nbrUp = s.nbrUp := rfl
@[simp] theorem updDie_ft (d : Nat) (g : DieSt → DieSt) : (updDie s d g).ft = s.ft := rfl
@[simp] theorem updDie_remote (d : Nat) (g : DieSt → DieSt) : (updDie s d g).remote = s.remote := rfl
@[simp] theorem updDie_geysers (d : Nat) (g : DieSt → DieSt) : (updDie s d g).geysers = s.geysers := rfl
@[simp] theorem updDie_credits (d : Nat) (g : DieSt → DieSt) : (updDie s d g).credits = s.credits := rfl
@[simp] theorem updDie_cqs (d : Nat) (g : DieSt → DieSt) : (updDie s d g).cqs = s.cqs := rfl
@[simp] theorem updDie_starts (d : Nat) (g : DieSt → DieSt) : (updDie s d g).starts = s.starts := rfl
@[simp] theorem updDie_grants (d : Nat) (g : DieSt → DieSt) : (updDie s d g).grants = s.grants := rfl
@[simp] theorem updDie_rings (d : Nat) (g : DieSt → DieSt) : (updDie s d g).rings = s.rings := rfl
@[simp] theorem updDie_cports (d : Nat) (g : DieSt → DieSt) : (updDie s d g).cports = s.cports := rfl
@[simp] theorem updDie_msixTab (d : Nat) (g : DieSt → DieSt) : (updDie s d g).msixTab = s.msixTab := rfl
@[simp] theorem updDie_msixPend (d : Nat) (g : DieSt → DieSt) : (updDie s d g).msixPend = s.msixPend := rfl
@[simp] theorem updDie_hostOut (d : Nat) (g : DieSt → DieSt) : (updDie s d g).hostOut = s.hostOut := rfl
@[simp] theorem updDie_barWait (d : Nat) (g : DieSt → DieSt) : (updDie s d g).barWait = s.barWait := rfl
@[simp] theorem updDie_msix (d : Nat) (g : DieSt → DieSt) : (updDie s d g).msix = s.msix := rfl
@[simp] theorem updDie_resp (d : Nat) (g : DieSt → DieSt) : (updDie s d g).resp = s.resp := rfl
@[simp] theorem updDie_due (d : Nat) (g : DieSt → DieSt) : (updDie s d g).due = s.due := rfl
@[simp] theorem updDie_log (d : Nat) (g : DieSt → DieSt) : (updDie s d g).log = s.log := rfl
@[simp] theorem updDie_logCap (d : Nat) (g : DieSt → DieSt) : (updDie s d g).logCap = s.logCap := rfl
@[simp] theorem updDie_alertQ (d : Nat) (g : DieSt → DieSt) : (updDie s d g).alertQ = s.alertQ := rfl
@[simp] theorem updDie_ibis (d : Nat) (g : DieSt → DieSt) : (updDie s d g).ibis = s.ibis := rfl
@[simp] theorem updDie_resets (d : Nat) (g : DieSt → DieSt) : (updDie s d g).resets = s.resets := rfl
@[simp] theorem updDie_restarts (d : Nat) (g : DieSt → DieSt) : (updDie s d g).restarts = s.restarts := rfl
@[simp] theorem updDie_aborts (d : Nat) (g : DieSt → DieSt) : (updDie s d g).aborts = s.aborts := rfl
@[simp] theorem updDie_lobeIdle (d : Nat) (g : DieSt → DieSt) : (updDie s d g).lobeIdle = s.lobeIdle := rfl
@[simp] theorem updDie_heldPower (d : Nat) (g : DieSt → DieSt) : (updDie s d g).heldPower = s.heldPower := rfl
@[simp] theorem updDie_enterPower (d : Nat) (g : DieSt → DieSt) : (updDie s d g).enterPower = s.enterPower := rfl
@[simp] theorem updDie_shutoff (d : Nat) (g : DieSt → DieSt) : (updDie s d g).shutoff = s.shutoff := rfl
@[simp] theorem updDie_limSteps (d : Nat) (g : DieSt → DieSt) : (updDie s d g).limSteps = s.limSteps := rfl
@[simp] theorem updDie_tests (d : Nat) (g : DieSt → DieSt) : (updDie s d g).tests = s.tests := rfl
@[simp] theorem updDie_nextTest (d : Nat) (g : DieSt → DieSt) : (updDie s d g).nextTest = s.nextTest := rfl
@[simp] theorem updDie_pairTest (d : Nat) (g : DieSt → DieSt) : (updDie s d g).pairTest = s.pairTest := rfl
@[simp] theorem updDie_mr (d : Nat) (g : DieSt → DieSt) : (updDie s d g).mr = s.mr := rfl
@[simp] theorem updDie_bootId (d : Nat) (g : DieSt → DieSt) : (updDie s d g).bootId = s.bootId := rfl
@[simp] theorem updDie_akSeed (d : Nat) (g : DieSt → DieSt) : (updDie s d g).akSeed = s.akSeed := rfl
@[simp] theorem updDie_records (d : Nat) (g : DieSt → DieSt) : (updDie s d g).records = s.records := rfl
@[simp] theorem updDie_seg (d : Nat) (g : DieSt → DieSt) : (updDie s d g).seg = s.seg := rfl
@[simp] theorem updDie_flash (d : Nat) (g : DieSt → DieSt) : (updDie s d g).flash = s.flash := rfl
@[simp] theorem updDie_boot (d : Nat) (g : DieSt → DieSt) : (updDie s d g).boot = s.boot := rfl
@[simp] theorem updDie_eruptT (d : Nat) (g : DieSt → DieSt) : (updDie s d g).eruptT = s.eruptT := rfl
@[simp] theorem updDie_pairPol (d : Nat) (g : DieSt → DieSt) : (updDie s d g).pairPol = s.pairPol := rfl
@[simp] theorem updDie_pins (d : Nat) (g : DieSt → DieSt) : (updDie s d g).pins = s.pins := rfl
@[simp] theorem updDie_jtag (d : Nat) (g : DieSt → DieSt) : (updDie s d g).jtag = s.jtag := rfl
@[simp] theorem updDie_clock (d : Nat) (g : DieSt → DieSt) : (updDie s d g).clock = s.clock := rfl
@[simp] theorem updDie_upTime (d : Nat) (g : DieSt → DieSt) : (updDie s d g).upTime = s.upTime := rfl
@[simp] theorem updDie_downTime (d : Nat) (g : DieSt → DieSt) : (updDie s d g).downTime = s.downTime := rfl
@[simp] theorem updDie_tremor (d : Nat) (g : DieSt → DieSt) : (updDie s d g).tremor = s.tremor := rfl
@[simp] theorem updDie_bar4Size (d : Nat) (g : DieSt → DieSt) : (updDie s d g).bar4Size = s.bar4Size := rfl
@[simp] theorem updDie_free (d : Nat) (g : DieSt → DieSt) : (updDie s d g).free = s.free := rfl

/-! ### `updSeq` -/

@[simp] theorem updSeq_pending (d : Nat) (g : Seq → Seq) : (updSeq s d g).pending = s.pending := rfl
@[simp] theorem updSeq_regs (d : Nat) (g : Seq → Seq) : (updSeq s d g).regs = s.regs := rfl
@[simp] theorem updSeq_mem (d : Nat) (g : Seq → Seq) : (updSeq s d g).mem = s.mem := rfl
@[simp] theorem updSeq_errs (d : Nat) (g : Seq → Seq) : (updSeq s d g).errs = s.errs := rfl
@[simp] theorem updSeq_seen (d : Nat) (g : Seq → Seq) : (updSeq s d g).seen = s.seen := rfl
@[simp] theorem updSeq_repairCur (d : Nat) (g : Seq → Seq) : (updSeq s d g).repairCur = s.repairCur := rfl
@[simp] theorem updSeq_jw (d : Nat) (g : Seq → Seq) : (updSeq s d g).jw = s.jw := rfl
@[simp] theorem updSeq_jwRej (d : Nat) (g : Seq → Seq) : (updSeq s d g).jwRej = s.jwRej := rfl
@[simp] theorem updSeq_outDie (d : Nat) (g : Seq → Seq) : (updSeq s d g).outDie = s.outDie := rfl
@[simp] theorem updSeq_outPkg (d : Nat) (g : Seq → Seq) : (updSeq s d g).outPkg = s.outPkg := rfl
@[simp] theorem updSeq_pkgShut (d : Nat) (g : Seq → Seq) : (updSeq s d g).pkgShut = s.pkgShut := rfl
@[simp] theorem updSeq_hot (d : Nat) (g : Seq → Seq) : (updSeq s d g).hot = s.hot := rfl
@[simp] theorem updSeq_bankNext (d : Nat) (g : Seq → Seq) : (updSeq s d g).bankNext = s.bankNext := rfl
@[simp] theorem updSeq_census (d : Nat) (g : Seq → Seq) : (updSeq s d g).census = s.census := rfl
@[simp] theorem updSeq_tiles (d : Nat) (g : Seq → Seq) : (updSeq s d g).tiles = s.tiles := rfl
@[simp] theorem updSeq_queues (d : Nat) (g : Seq → Seq) : (updSeq s d g).queues = s.queues := rfl
@[simp] theorem updSeq_served (d : Nat) (g : Seq → Seq) : (updSeq s d g).served = s.served := rfl
@[simp] theorem updSeq_waking (d : Nat) (g : Seq → Seq) : (updSeq s d g).waking = s.waking := rfl
@[simp] theorem updSeq_edges (d : Nat) (g : Seq → Seq) : (updSeq s d g).edges = s.edges := rfl
@[simp] theorem updSeq_oe (d : Nat) (g : Seq → Seq) : (updSeq s d g).oe = s.oe := rfl
@[simp] theorem updSeq_groups (d : Nat) (g : Seq → Seq) : (updSeq s d g).groups = s.groups := rfl
@[simp] theorem updSeq_planOf (d : Nat) (g : Seq → Seq) : (updSeq s d g).planOf = s.planOf := rfl
@[simp] theorem updSeq_jobs (d : Nat) (g : Seq → Seq) : (updSeq s d g).jobs = s.jobs := rfl
@[simp] theorem updSeq_rtHdr (d : Nat) (g : Seq → Seq) : (updSeq s d g).rtHdr = s.rtHdr := rfl
@[simp] theorem updSeq_rtEnt (d : Nat) (g : Seq → Seq) : (updSeq s d g).rtEnt = s.rtEnt := rfl
@[simp] theorem updSeq_inject (d : Nat) (g : Seq → Seq) : (updSeq s d g).inject = s.inject := rfl
@[simp] theorem updSeq_inbox (d : Nat) (g : Seq → Seq) : (updSeq s d g).inbox = s.inbox := rfl
@[simp] theorem updSeq_arrived (d : Nat) (g : Seq → Seq) : (updSeq s d g).arrived = s.arrived := rfl
@[simp] theorem updSeq_outq (d : Nat) (g : Seq → Seq) : (updSeq s d g).outq = s.outq := rfl
@[simp] theorem updSeq_tx (d : Nat) (g : Seq → Seq) : (updSeq s d g).tx = s.tx := rfl
@[simp] theorem updSeq_links (d : Nat) (g : Seq → Seq) : (updSeq s d g).links = s.links := rfl
@[simp] theorem updSeq_sidestep (d : Nat) (g : Seq → Seq) : (updSeq s d g).sidestep = s.sidestep := rfl
@[simp] theorem updSeq_nbrUp (d : Nat) (g : Seq → Seq) : (updSeq s d g).nbrUp = s.nbrUp := rfl
@[simp] theorem updSeq_ft (d : Nat) (g : Seq → Seq) : (updSeq s d g).ft = s.ft := rfl
@[simp] theorem updSeq_remote (d : Nat) (g : Seq → Seq) : (updSeq s d g).remote = s.remote := rfl
@[simp] theorem updSeq_geysers (d : Nat) (g : Seq → Seq) : (updSeq s d g).geysers = s.geysers := rfl
@[simp] theorem updSeq_credits (d : Nat) (g : Seq → Seq) : (updSeq s d g).credits = s.credits := rfl
@[simp] theorem updSeq_cqs (d : Nat) (g : Seq → Seq) : (updSeq s d g).cqs = s.cqs := rfl
@[simp] theorem updSeq_starts (d : Nat) (g : Seq → Seq) : (updSeq s d g).starts = s.starts := rfl
@[simp] theorem updSeq_grants (d : Nat) (g : Seq → Seq) : (updSeq s d g).grants = s.grants := rfl
@[simp] theorem updSeq_rings (d : Nat) (g : Seq → Seq) : (updSeq s d g).rings = s.rings := rfl
@[simp] theorem updSeq_cports (d : Nat) (g : Seq → Seq) : (updSeq s d g).cports = s.cports := rfl
@[simp] theorem updSeq_msixTab (d : Nat) (g : Seq → Seq) : (updSeq s d g).msixTab = s.msixTab := rfl
@[simp] theorem updSeq_msixPend (d : Nat) (g : Seq → Seq) : (updSeq s d g).msixPend = s.msixPend := rfl
@[simp] theorem updSeq_hostOut (d : Nat) (g : Seq → Seq) : (updSeq s d g).hostOut = s.hostOut := rfl
@[simp] theorem updSeq_barWait (d : Nat) (g : Seq → Seq) : (updSeq s d g).barWait = s.barWait := rfl
@[simp] theorem updSeq_msix (d : Nat) (g : Seq → Seq) : (updSeq s d g).msix = s.msix := rfl
@[simp] theorem updSeq_resp (d : Nat) (g : Seq → Seq) : (updSeq s d g).resp = s.resp := rfl
@[simp] theorem updSeq_due (d : Nat) (g : Seq → Seq) : (updSeq s d g).due = s.due := rfl
@[simp] theorem updSeq_log (d : Nat) (g : Seq → Seq) : (updSeq s d g).log = s.log := rfl
@[simp] theorem updSeq_logCap (d : Nat) (g : Seq → Seq) : (updSeq s d g).logCap = s.logCap := rfl
@[simp] theorem updSeq_alertQ (d : Nat) (g : Seq → Seq) : (updSeq s d g).alertQ = s.alertQ := rfl
@[simp] theorem updSeq_ibis (d : Nat) (g : Seq → Seq) : (updSeq s d g).ibis = s.ibis := rfl
@[simp] theorem updSeq_resets (d : Nat) (g : Seq → Seq) : (updSeq s d g).resets = s.resets := rfl
@[simp] theorem updSeq_restarts (d : Nat) (g : Seq → Seq) : (updSeq s d g).restarts = s.restarts := rfl
@[simp] theorem updSeq_aborts (d : Nat) (g : Seq → Seq) : (updSeq s d g).aborts = s.aborts := rfl
@[simp] theorem updSeq_lobeIdle (d : Nat) (g : Seq → Seq) : (updSeq s d g).lobeIdle = s.lobeIdle := rfl
@[simp] theorem updSeq_heldPower (d : Nat) (g : Seq → Seq) : (updSeq s d g).heldPower = s.heldPower := rfl
@[simp] theorem updSeq_enterPower (d : Nat) (g : Seq → Seq) : (updSeq s d g).enterPower = s.enterPower := rfl
@[simp] theorem updSeq_shutoff (d : Nat) (g : Seq → Seq) : (updSeq s d g).shutoff = s.shutoff := rfl
@[simp] theorem updSeq_limSteps (d : Nat) (g : Seq → Seq) : (updSeq s d g).limSteps = s.limSteps := rfl
@[simp] theorem updSeq_tests (d : Nat) (g : Seq → Seq) : (updSeq s d g).tests = s.tests := rfl
@[simp] theorem updSeq_nextTest (d : Nat) (g : Seq → Seq) : (updSeq s d g).nextTest = s.nextTest := rfl
@[simp] theorem updSeq_pairTest (d : Nat) (g : Seq → Seq) : (updSeq s d g).pairTest = s.pairTest := rfl
@[simp] theorem updSeq_mr (d : Nat) (g : Seq → Seq) : (updSeq s d g).mr = s.mr := rfl
@[simp] theorem updSeq_bootId (d : Nat) (g : Seq → Seq) : (updSeq s d g).bootId = s.bootId := rfl
@[simp] theorem updSeq_akSeed (d : Nat) (g : Seq → Seq) : (updSeq s d g).akSeed = s.akSeed := rfl
@[simp] theorem updSeq_records (d : Nat) (g : Seq → Seq) : (updSeq s d g).records = s.records := rfl
@[simp] theorem updSeq_seg (d : Nat) (g : Seq → Seq) : (updSeq s d g).seg = s.seg := rfl
@[simp] theorem updSeq_flash (d : Nat) (g : Seq → Seq) : (updSeq s d g).flash = s.flash := rfl
@[simp] theorem updSeq_boot (d : Nat) (g : Seq → Seq) : (updSeq s d g).boot = s.boot := rfl
@[simp] theorem updSeq_eruptT (d : Nat) (g : Seq → Seq) : (updSeq s d g).eruptT = s.eruptT := rfl
@[simp] theorem updSeq_pairPol (d : Nat) (g : Seq → Seq) : (updSeq s d g).pairPol = s.pairPol := rfl
@[simp] theorem updSeq_pins (d : Nat) (g : Seq → Seq) : (updSeq s d g).pins = s.pins := rfl
@[simp] theorem updSeq_jtag (d : Nat) (g : Seq → Seq) : (updSeq s d g).jtag = s.jtag := rfl
@[simp] theorem updSeq_clock (d : Nat) (g : Seq → Seq) : (updSeq s d g).clock = s.clock := rfl
@[simp] theorem updSeq_upTime (d : Nat) (g : Seq → Seq) : (updSeq s d g).upTime = s.upTime := rfl
@[simp] theorem updSeq_downTime (d : Nat) (g : Seq → Seq) : (updSeq s d g).downTime = s.downTime := rfl
@[simp] theorem updSeq_tremor (d : Nat) (g : Seq → Seq) : (updSeq s d g).tremor = s.tremor := rfl
@[simp] theorem updSeq_bar4Size (d : Nat) (g : Seq → Seq) : (updSeq s d g).bar4Size = s.bar4Size := rfl
@[simp] theorem updSeq_free (d : Nat) (g : Seq → Seq) : (updSeq s d g).free = s.free := rfl

/-! ### `updMem` -/

@[simp] theorem updMem_pending (d : Nat) (g : MemCtl → MemCtl) : (updMem s d g).pending = s.pending := rfl
@[simp] theorem updMem_regs (d : Nat) (g : MemCtl → MemCtl) : (updMem s d g).regs = s.regs := rfl
@[simp] theorem updMem_mem (d : Nat) (g : MemCtl → MemCtl) : (updMem s d g).mem = s.mem := rfl
@[simp] theorem updMem_errs (d : Nat) (g : MemCtl → MemCtl) : (updMem s d g).errs = s.errs := rfl
@[simp] theorem updMem_seen (d : Nat) (g : MemCtl → MemCtl) : (updMem s d g).seen = s.seen := rfl
@[simp] theorem updMem_repairCur (d : Nat) (g : MemCtl → MemCtl) : (updMem s d g).repairCur = s.repairCur := rfl
@[simp] theorem updMem_jw (d : Nat) (g : MemCtl → MemCtl) : (updMem s d g).jw = s.jw := rfl
@[simp] theorem updMem_jwRej (d : Nat) (g : MemCtl → MemCtl) : (updMem s d g).jwRej = s.jwRej := rfl
@[simp] theorem updMem_outDie (d : Nat) (g : MemCtl → MemCtl) : (updMem s d g).outDie = s.outDie := rfl
@[simp] theorem updMem_outPkg (d : Nat) (g : MemCtl → MemCtl) : (updMem s d g).outPkg = s.outPkg := rfl
@[simp] theorem updMem_pkgShut (d : Nat) (g : MemCtl → MemCtl) : (updMem s d g).pkgShut = s.pkgShut := rfl
@[simp] theorem updMem_hot (d : Nat) (g : MemCtl → MemCtl) : (updMem s d g).hot = s.hot := rfl
@[simp] theorem updMem_bankNext (d : Nat) (g : MemCtl → MemCtl) : (updMem s d g).bankNext = s.bankNext := rfl
@[simp] theorem updMem_census (d : Nat) (g : MemCtl → MemCtl) : (updMem s d g).census = s.census := rfl
@[simp] theorem updMem_tiles (d : Nat) (g : MemCtl → MemCtl) : (updMem s d g).tiles = s.tiles := rfl
@[simp] theorem updMem_queues (d : Nat) (g : MemCtl → MemCtl) : (updMem s d g).queues = s.queues := rfl
@[simp] theorem updMem_served (d : Nat) (g : MemCtl → MemCtl) : (updMem s d g).served = s.served := rfl
@[simp] theorem updMem_waking (d : Nat) (g : MemCtl → MemCtl) : (updMem s d g).waking = s.waking := rfl
@[simp] theorem updMem_edges (d : Nat) (g : MemCtl → MemCtl) : (updMem s d g).edges = s.edges := rfl
@[simp] theorem updMem_oe (d : Nat) (g : MemCtl → MemCtl) : (updMem s d g).oe = s.oe := rfl
@[simp] theorem updMem_groups (d : Nat) (g : MemCtl → MemCtl) : (updMem s d g).groups = s.groups := rfl
@[simp] theorem updMem_planOf (d : Nat) (g : MemCtl → MemCtl) : (updMem s d g).planOf = s.planOf := rfl
@[simp] theorem updMem_jobs (d : Nat) (g : MemCtl → MemCtl) : (updMem s d g).jobs = s.jobs := rfl
@[simp] theorem updMem_rtHdr (d : Nat) (g : MemCtl → MemCtl) : (updMem s d g).rtHdr = s.rtHdr := rfl
@[simp] theorem updMem_rtEnt (d : Nat) (g : MemCtl → MemCtl) : (updMem s d g).rtEnt = s.rtEnt := rfl
@[simp] theorem updMem_inject (d : Nat) (g : MemCtl → MemCtl) : (updMem s d g).inject = s.inject := rfl
@[simp] theorem updMem_inbox (d : Nat) (g : MemCtl → MemCtl) : (updMem s d g).inbox = s.inbox := rfl
@[simp] theorem updMem_arrived (d : Nat) (g : MemCtl → MemCtl) : (updMem s d g).arrived = s.arrived := rfl
@[simp] theorem updMem_outq (d : Nat) (g : MemCtl → MemCtl) : (updMem s d g).outq = s.outq := rfl
@[simp] theorem updMem_tx (d : Nat) (g : MemCtl → MemCtl) : (updMem s d g).tx = s.tx := rfl
@[simp] theorem updMem_links (d : Nat) (g : MemCtl → MemCtl) : (updMem s d g).links = s.links := rfl
@[simp] theorem updMem_sidestep (d : Nat) (g : MemCtl → MemCtl) : (updMem s d g).sidestep = s.sidestep := rfl
@[simp] theorem updMem_nbrUp (d : Nat) (g : MemCtl → MemCtl) : (updMem s d g).nbrUp = s.nbrUp := rfl
@[simp] theorem updMem_ft (d : Nat) (g : MemCtl → MemCtl) : (updMem s d g).ft = s.ft := rfl
@[simp] theorem updMem_remote (d : Nat) (g : MemCtl → MemCtl) : (updMem s d g).remote = s.remote := rfl
@[simp] theorem updMem_geysers (d : Nat) (g : MemCtl → MemCtl) : (updMem s d g).geysers = s.geysers := rfl
@[simp] theorem updMem_credits (d : Nat) (g : MemCtl → MemCtl) : (updMem s d g).credits = s.credits := rfl
@[simp] theorem updMem_cqs (d : Nat) (g : MemCtl → MemCtl) : (updMem s d g).cqs = s.cqs := rfl
@[simp] theorem updMem_starts (d : Nat) (g : MemCtl → MemCtl) : (updMem s d g).starts = s.starts := rfl
@[simp] theorem updMem_grants (d : Nat) (g : MemCtl → MemCtl) : (updMem s d g).grants = s.grants := rfl
@[simp] theorem updMem_rings (d : Nat) (g : MemCtl → MemCtl) : (updMem s d g).rings = s.rings := rfl
@[simp] theorem updMem_cports (d : Nat) (g : MemCtl → MemCtl) : (updMem s d g).cports = s.cports := rfl
@[simp] theorem updMem_msixTab (d : Nat) (g : MemCtl → MemCtl) : (updMem s d g).msixTab = s.msixTab := rfl
@[simp] theorem updMem_msixPend (d : Nat) (g : MemCtl → MemCtl) : (updMem s d g).msixPend = s.msixPend := rfl
@[simp] theorem updMem_hostOut (d : Nat) (g : MemCtl → MemCtl) : (updMem s d g).hostOut = s.hostOut := rfl
@[simp] theorem updMem_barWait (d : Nat) (g : MemCtl → MemCtl) : (updMem s d g).barWait = s.barWait := rfl
@[simp] theorem updMem_msix (d : Nat) (g : MemCtl → MemCtl) : (updMem s d g).msix = s.msix := rfl
@[simp] theorem updMem_resp (d : Nat) (g : MemCtl → MemCtl) : (updMem s d g).resp = s.resp := rfl
@[simp] theorem updMem_due (d : Nat) (g : MemCtl → MemCtl) : (updMem s d g).due = s.due := rfl
@[simp] theorem updMem_log (d : Nat) (g : MemCtl → MemCtl) : (updMem s d g).log = s.log := rfl
@[simp] theorem updMem_logCap (d : Nat) (g : MemCtl → MemCtl) : (updMem s d g).logCap = s.logCap := rfl
@[simp] theorem updMem_alertQ (d : Nat) (g : MemCtl → MemCtl) : (updMem s d g).alertQ = s.alertQ := rfl
@[simp] theorem updMem_ibis (d : Nat) (g : MemCtl → MemCtl) : (updMem s d g).ibis = s.ibis := rfl
@[simp] theorem updMem_resets (d : Nat) (g : MemCtl → MemCtl) : (updMem s d g).resets = s.resets := rfl
@[simp] theorem updMem_restarts (d : Nat) (g : MemCtl → MemCtl) : (updMem s d g).restarts = s.restarts := rfl
@[simp] theorem updMem_aborts (d : Nat) (g : MemCtl → MemCtl) : (updMem s d g).aborts = s.aborts := rfl
@[simp] theorem updMem_lobeIdle (d : Nat) (g : MemCtl → MemCtl) : (updMem s d g).lobeIdle = s.lobeIdle := rfl
@[simp] theorem updMem_heldPower (d : Nat) (g : MemCtl → MemCtl) : (updMem s d g).heldPower = s.heldPower := rfl
@[simp] theorem updMem_enterPower (d : Nat) (g : MemCtl → MemCtl) : (updMem s d g).enterPower = s.enterPower := rfl
@[simp] theorem updMem_shutoff (d : Nat) (g : MemCtl → MemCtl) : (updMem s d g).shutoff = s.shutoff := rfl
@[simp] theorem updMem_limSteps (d : Nat) (g : MemCtl → MemCtl) : (updMem s d g).limSteps = s.limSteps := rfl
@[simp] theorem updMem_tests (d : Nat) (g : MemCtl → MemCtl) : (updMem s d g).tests = s.tests := rfl
@[simp] theorem updMem_nextTest (d : Nat) (g : MemCtl → MemCtl) : (updMem s d g).nextTest = s.nextTest := rfl
@[simp] theorem updMem_pairTest (d : Nat) (g : MemCtl → MemCtl) : (updMem s d g).pairTest = s.pairTest := rfl
@[simp] theorem updMem_mr (d : Nat) (g : MemCtl → MemCtl) : (updMem s d g).mr = s.mr := rfl
@[simp] theorem updMem_bootId (d : Nat) (g : MemCtl → MemCtl) : (updMem s d g).bootId = s.bootId := rfl
@[simp] theorem updMem_akSeed (d : Nat) (g : MemCtl → MemCtl) : (updMem s d g).akSeed = s.akSeed := rfl
@[simp] theorem updMem_records (d : Nat) (g : MemCtl → MemCtl) : (updMem s d g).records = s.records := rfl
@[simp] theorem updMem_seg (d : Nat) (g : MemCtl → MemCtl) : (updMem s d g).seg = s.seg := rfl
@[simp] theorem updMem_flash (d : Nat) (g : MemCtl → MemCtl) : (updMem s d g).flash = s.flash := rfl
@[simp] theorem updMem_boot (d : Nat) (g : MemCtl → MemCtl) : (updMem s d g).boot = s.boot := rfl
@[simp] theorem updMem_eruptT (d : Nat) (g : MemCtl → MemCtl) : (updMem s d g).eruptT = s.eruptT := rfl
@[simp] theorem updMem_pairPol (d : Nat) (g : MemCtl → MemCtl) : (updMem s d g).pairPol = s.pairPol := rfl
@[simp] theorem updMem_pins (d : Nat) (g : MemCtl → MemCtl) : (updMem s d g).pins = s.pins := rfl
@[simp] theorem updMem_jtag (d : Nat) (g : MemCtl → MemCtl) : (updMem s d g).jtag = s.jtag := rfl
@[simp] theorem updMem_clock (d : Nat) (g : MemCtl → MemCtl) : (updMem s d g).clock = s.clock := rfl
@[simp] theorem updMem_upTime (d : Nat) (g : MemCtl → MemCtl) : (updMem s d g).upTime = s.upTime := rfl
@[simp] theorem updMem_downTime (d : Nat) (g : MemCtl → MemCtl) : (updMem s d g).downTime = s.downTime := rfl
@[simp] theorem updMem_tremor (d : Nat) (g : MemCtl → MemCtl) : (updMem s d g).tremor = s.tremor := rfl
@[simp] theorem updMem_bar4Size (d : Nat) (g : MemCtl → MemCtl) : (updMem s d g).bar4Size = s.bar4Size := rfl
@[simp] theorem updMem_free (d : Nat) (g : MemCtl → MemCtl) : (updMem s d g).free = s.free := rfl

/-! ### `updPhase` -/

@[simp] theorem updPhase_pending (d p : Nat) (g : Phase → Phase) : (updPhase s d p g).pending = s.pending := rfl
@[simp] theorem updPhase_regs (d p : Nat) (g : Phase → Phase) : (updPhase s d p g).regs = s.regs := rfl
@[simp] theorem updPhase_mem (d p : Nat) (g : Phase → Phase) : (updPhase s d p g).mem = s.mem := rfl
@[simp] theorem updPhase_errs (d p : Nat) (g : Phase → Phase) : (updPhase s d p g).errs = s.errs := rfl
@[simp] theorem updPhase_seen (d p : Nat) (g : Phase → Phase) : (updPhase s d p g).seen = s.seen := rfl
@[simp] theorem updPhase_repairCur (d p : Nat) (g : Phase → Phase) : (updPhase s d p g).repairCur = s.repairCur := rfl
@[simp] theorem updPhase_jw (d p : Nat) (g : Phase → Phase) : (updPhase s d p g).jw = s.jw := rfl
@[simp] theorem updPhase_jwRej (d p : Nat) (g : Phase → Phase) : (updPhase s d p g).jwRej = s.jwRej := rfl
@[simp] theorem updPhase_outDie (d p : Nat) (g : Phase → Phase) : (updPhase s d p g).outDie = s.outDie := rfl
@[simp] theorem updPhase_outPkg (d p : Nat) (g : Phase → Phase) : (updPhase s d p g).outPkg = s.outPkg := rfl
@[simp] theorem updPhase_pkgShut (d p : Nat) (g : Phase → Phase) : (updPhase s d p g).pkgShut = s.pkgShut := rfl
@[simp] theorem updPhase_hot (d p : Nat) (g : Phase → Phase) : (updPhase s d p g).hot = s.hot := rfl
@[simp] theorem updPhase_bankNext (d p : Nat) (g : Phase → Phase) : (updPhase s d p g).bankNext = s.bankNext := rfl
@[simp] theorem updPhase_census (d p : Nat) (g : Phase → Phase) : (updPhase s d p g).census = s.census := rfl
@[simp] theorem updPhase_tiles (d p : Nat) (g : Phase → Phase) : (updPhase s d p g).tiles = s.tiles := rfl
@[simp] theorem updPhase_queues (d p : Nat) (g : Phase → Phase) : (updPhase s d p g).queues = s.queues := rfl
@[simp] theorem updPhase_served (d p : Nat) (g : Phase → Phase) : (updPhase s d p g).served = s.served := rfl
@[simp] theorem updPhase_waking (d p : Nat) (g : Phase → Phase) : (updPhase s d p g).waking = s.waking := rfl
@[simp] theorem updPhase_edges (d p : Nat) (g : Phase → Phase) : (updPhase s d p g).edges = s.edges := rfl
@[simp] theorem updPhase_oe (d p : Nat) (g : Phase → Phase) : (updPhase s d p g).oe = s.oe := rfl
@[simp] theorem updPhase_groups (d p : Nat) (g : Phase → Phase) : (updPhase s d p g).groups = s.groups := rfl
@[simp] theorem updPhase_planOf (d p : Nat) (g : Phase → Phase) : (updPhase s d p g).planOf = s.planOf := rfl
@[simp] theorem updPhase_jobs (d p : Nat) (g : Phase → Phase) : (updPhase s d p g).jobs = s.jobs := rfl
@[simp] theorem updPhase_rtHdr (d p : Nat) (g : Phase → Phase) : (updPhase s d p g).rtHdr = s.rtHdr := rfl
@[simp] theorem updPhase_rtEnt (d p : Nat) (g : Phase → Phase) : (updPhase s d p g).rtEnt = s.rtEnt := rfl
@[simp] theorem updPhase_inject (d p : Nat) (g : Phase → Phase) : (updPhase s d p g).inject = s.inject := rfl
@[simp] theorem updPhase_inbox (d p : Nat) (g : Phase → Phase) : (updPhase s d p g).inbox = s.inbox := rfl
@[simp] theorem updPhase_arrived (d p : Nat) (g : Phase → Phase) : (updPhase s d p g).arrived = s.arrived := rfl
@[simp] theorem updPhase_outq (d p : Nat) (g : Phase → Phase) : (updPhase s d p g).outq = s.outq := rfl
@[simp] theorem updPhase_tx (d p : Nat) (g : Phase → Phase) : (updPhase s d p g).tx = s.tx := rfl
@[simp] theorem updPhase_links (d p : Nat) (g : Phase → Phase) : (updPhase s d p g).links = s.links := rfl
@[simp] theorem updPhase_sidestep (d p : Nat) (g : Phase → Phase) : (updPhase s d p g).sidestep = s.sidestep := rfl
@[simp] theorem updPhase_nbrUp (d p : Nat) (g : Phase → Phase) : (updPhase s d p g).nbrUp = s.nbrUp := rfl
@[simp] theorem updPhase_ft (d p : Nat) (g : Phase → Phase) : (updPhase s d p g).ft = s.ft := rfl
@[simp] theorem updPhase_remote (d p : Nat) (g : Phase → Phase) : (updPhase s d p g).remote = s.remote := rfl
@[simp] theorem updPhase_geysers (d p : Nat) (g : Phase → Phase) : (updPhase s d p g).geysers = s.geysers := rfl
@[simp] theorem updPhase_credits (d p : Nat) (g : Phase → Phase) : (updPhase s d p g).credits = s.credits := rfl
@[simp] theorem updPhase_cqs (d p : Nat) (g : Phase → Phase) : (updPhase s d p g).cqs = s.cqs := rfl
@[simp] theorem updPhase_starts (d p : Nat) (g : Phase → Phase) : (updPhase s d p g).starts = s.starts := rfl
@[simp] theorem updPhase_grants (d p : Nat) (g : Phase → Phase) : (updPhase s d p g).grants = s.grants := rfl
@[simp] theorem updPhase_rings (d p : Nat) (g : Phase → Phase) : (updPhase s d p g).rings = s.rings := rfl
@[simp] theorem updPhase_cports (d p : Nat) (g : Phase → Phase) : (updPhase s d p g).cports = s.cports := rfl
@[simp] theorem updPhase_msixTab (d p : Nat) (g : Phase → Phase) : (updPhase s d p g).msixTab = s.msixTab := rfl
@[simp] theorem updPhase_msixPend (d p : Nat) (g : Phase → Phase) : (updPhase s d p g).msixPend = s.msixPend := rfl
@[simp] theorem updPhase_hostOut (d p : Nat) (g : Phase → Phase) : (updPhase s d p g).hostOut = s.hostOut := rfl
@[simp] theorem updPhase_barWait (d p : Nat) (g : Phase → Phase) : (updPhase s d p g).barWait = s.barWait := rfl
@[simp] theorem updPhase_msix (d p : Nat) (g : Phase → Phase) : (updPhase s d p g).msix = s.msix := rfl
@[simp] theorem updPhase_resp (d p : Nat) (g : Phase → Phase) : (updPhase s d p g).resp = s.resp := rfl
@[simp] theorem updPhase_due (d p : Nat) (g : Phase → Phase) : (updPhase s d p g).due = s.due := rfl
@[simp] theorem updPhase_log (d p : Nat) (g : Phase → Phase) : (updPhase s d p g).log = s.log := rfl
@[simp] theorem updPhase_logCap (d p : Nat) (g : Phase → Phase) : (updPhase s d p g).logCap = s.logCap := rfl
@[simp] theorem updPhase_alertQ (d p : Nat) (g : Phase → Phase) : (updPhase s d p g).alertQ = s.alertQ := rfl
@[simp] theorem updPhase_ibis (d p : Nat) (g : Phase → Phase) : (updPhase s d p g).ibis = s.ibis := rfl
@[simp] theorem updPhase_resets (d p : Nat) (g : Phase → Phase) : (updPhase s d p g).resets = s.resets := rfl
@[simp] theorem updPhase_restarts (d p : Nat) (g : Phase → Phase) : (updPhase s d p g).restarts = s.restarts := rfl
@[simp] theorem updPhase_aborts (d p : Nat) (g : Phase → Phase) : (updPhase s d p g).aborts = s.aborts := rfl
@[simp] theorem updPhase_lobeIdle (d p : Nat) (g : Phase → Phase) : (updPhase s d p g).lobeIdle = s.lobeIdle := rfl
@[simp] theorem updPhase_heldPower (d p : Nat) (g : Phase → Phase) : (updPhase s d p g).heldPower = s.heldPower := rfl
@[simp] theorem updPhase_enterPower (d p : Nat) (g : Phase → Phase) : (updPhase s d p g).enterPower = s.enterPower := rfl
@[simp] theorem updPhase_shutoff (d p : Nat) (g : Phase → Phase) : (updPhase s d p g).shutoff = s.shutoff := rfl
@[simp] theorem updPhase_limSteps (d p : Nat) (g : Phase → Phase) : (updPhase s d p g).limSteps = s.limSteps := rfl
@[simp] theorem updPhase_tests (d p : Nat) (g : Phase → Phase) : (updPhase s d p g).tests = s.tests := rfl
@[simp] theorem updPhase_nextTest (d p : Nat) (g : Phase → Phase) : (updPhase s d p g).nextTest = s.nextTest := rfl
@[simp] theorem updPhase_pairTest (d p : Nat) (g : Phase → Phase) : (updPhase s d p g).pairTest = s.pairTest := rfl
@[simp] theorem updPhase_mr (d p : Nat) (g : Phase → Phase) : (updPhase s d p g).mr = s.mr := rfl
@[simp] theorem updPhase_bootId (d p : Nat) (g : Phase → Phase) : (updPhase s d p g).bootId = s.bootId := rfl
@[simp] theorem updPhase_akSeed (d p : Nat) (g : Phase → Phase) : (updPhase s d p g).akSeed = s.akSeed := rfl
@[simp] theorem updPhase_records (d p : Nat) (g : Phase → Phase) : (updPhase s d p g).records = s.records := rfl
@[simp] theorem updPhase_seg (d p : Nat) (g : Phase → Phase) : (updPhase s d p g).seg = s.seg := rfl
@[simp] theorem updPhase_flash (d p : Nat) (g : Phase → Phase) : (updPhase s d p g).flash = s.flash := rfl
@[simp] theorem updPhase_boot (d p : Nat) (g : Phase → Phase) : (updPhase s d p g).boot = s.boot := rfl
@[simp] theorem updPhase_eruptT (d p : Nat) (g : Phase → Phase) : (updPhase s d p g).eruptT = s.eruptT := rfl
@[simp] theorem updPhase_pairPol (d p : Nat) (g : Phase → Phase) : (updPhase s d p g).pairPol = s.pairPol := rfl
@[simp] theorem updPhase_pins (d p : Nat) (g : Phase → Phase) : (updPhase s d p g).pins = s.pins := rfl
@[simp] theorem updPhase_jtag (d p : Nat) (g : Phase → Phase) : (updPhase s d p g).jtag = s.jtag := rfl
@[simp] theorem updPhase_clock (d p : Nat) (g : Phase → Phase) : (updPhase s d p g).clock = s.clock := rfl
@[simp] theorem updPhase_upTime (d p : Nat) (g : Phase → Phase) : (updPhase s d p g).upTime = s.upTime := rfl
@[simp] theorem updPhase_downTime (d p : Nat) (g : Phase → Phase) : (updPhase s d p g).downTime = s.downTime := rfl
@[simp] theorem updPhase_tremor (d p : Nat) (g : Phase → Phase) : (updPhase s d p g).tremor = s.tremor := rfl
@[simp] theorem updPhase_bar4Size (d p : Nat) (g : Phase → Phase) : (updPhase s d p g).bar4Size = s.bar4Size := rfl
@[simp] theorem updPhase_free (d p : Nat) (g : Phase → Phase) : (updPhase s d p g).free = s.free := rfl

/-! ### `setTile` -/

@[simp] theorem setTile_pending (d c n : Nat) (x : Tile) : (setTile s d c n x).pending = s.pending := rfl
@[simp] theorem setTile_regs (d c n : Nat) (x : Tile) : (setTile s d c n x).regs = s.regs := rfl
@[simp] theorem setTile_mem (d c n : Nat) (x : Tile) : (setTile s d c n x).mem = s.mem := rfl
@[simp] theorem setTile_errs (d c n : Nat) (x : Tile) : (setTile s d c n x).errs = s.errs := rfl
@[simp] theorem setTile_seen (d c n : Nat) (x : Tile) : (setTile s d c n x).seen = s.seen := rfl
@[simp] theorem setTile_repairCur (d c n : Nat) (x : Tile) : (setTile s d c n x).repairCur = s.repairCur := rfl
@[simp] theorem setTile_jw (d c n : Nat) (x : Tile) : (setTile s d c n x).jw = s.jw := rfl
@[simp] theorem setTile_jwRej (d c n : Nat) (x : Tile) : (setTile s d c n x).jwRej = s.jwRej := rfl
@[simp] theorem setTile_outDie (d c n : Nat) (x : Tile) : (setTile s d c n x).outDie = s.outDie := rfl
@[simp] theorem setTile_outPkg (d c n : Nat) (x : Tile) : (setTile s d c n x).outPkg = s.outPkg := rfl
@[simp] theorem setTile_pkgShut (d c n : Nat) (x : Tile) : (setTile s d c n x).pkgShut = s.pkgShut := rfl
@[simp] theorem setTile_hot (d c n : Nat) (x : Tile) : (setTile s d c n x).hot = s.hot := rfl
@[simp] theorem setTile_bankNext (d c n : Nat) (x : Tile) : (setTile s d c n x).bankNext = s.bankNext := rfl
@[simp] theorem setTile_census (d c n : Nat) (x : Tile) : (setTile s d c n x).census = s.census := rfl
@[simp] theorem setTile_dies (d c n : Nat) (x : Tile) : (setTile s d c n x).dies = s.dies := rfl
@[simp] theorem setTile_queues (d c n : Nat) (x : Tile) : (setTile s d c n x).queues = s.queues := rfl
@[simp] theorem setTile_served (d c n : Nat) (x : Tile) : (setTile s d c n x).served = s.served := rfl
@[simp] theorem setTile_waking (d c n : Nat) (x : Tile) : (setTile s d c n x).waking = s.waking := rfl
@[simp] theorem setTile_edges (d c n : Nat) (x : Tile) : (setTile s d c n x).edges = s.edges := rfl
@[simp] theorem setTile_oe (d c n : Nat) (x : Tile) : (setTile s d c n x).oe = s.oe := rfl
@[simp] theorem setTile_groups (d c n : Nat) (x : Tile) : (setTile s d c n x).groups = s.groups := rfl
@[simp] theorem setTile_planOf (d c n : Nat) (x : Tile) : (setTile s d c n x).planOf = s.planOf := rfl
@[simp] theorem setTile_jobs (d c n : Nat) (x : Tile) : (setTile s d c n x).jobs = s.jobs := rfl
@[simp] theorem setTile_rtHdr (d c n : Nat) (x : Tile) : (setTile s d c n x).rtHdr = s.rtHdr := rfl
@[simp] theorem setTile_rtEnt (d c n : Nat) (x : Tile) : (setTile s d c n x).rtEnt = s.rtEnt := rfl
@[simp] theorem setTile_inject (d c n : Nat) (x : Tile) : (setTile s d c n x).inject = s.inject := rfl
@[simp] theorem setTile_inbox (d c n : Nat) (x : Tile) : (setTile s d c n x).inbox = s.inbox := rfl
@[simp] theorem setTile_arrived (d c n : Nat) (x : Tile) : (setTile s d c n x).arrived = s.arrived := rfl
@[simp] theorem setTile_outq (d c n : Nat) (x : Tile) : (setTile s d c n x).outq = s.outq := rfl
@[simp] theorem setTile_tx (d c n : Nat) (x : Tile) : (setTile s d c n x).tx = s.tx := rfl
@[simp] theorem setTile_links (d c n : Nat) (x : Tile) : (setTile s d c n x).links = s.links := rfl
@[simp] theorem setTile_sidestep (d c n : Nat) (x : Tile) : (setTile s d c n x).sidestep = s.sidestep := rfl
@[simp] theorem setTile_nbrUp (d c n : Nat) (x : Tile) : (setTile s d c n x).nbrUp = s.nbrUp := rfl
@[simp] theorem setTile_ft (d c n : Nat) (x : Tile) : (setTile s d c n x).ft = s.ft := rfl
@[simp] theorem setTile_remote (d c n : Nat) (x : Tile) : (setTile s d c n x).remote = s.remote := rfl
@[simp] theorem setTile_geysers (d c n : Nat) (x : Tile) : (setTile s d c n x).geysers = s.geysers := rfl
@[simp] theorem setTile_credits (d c n : Nat) (x : Tile) : (setTile s d c n x).credits = s.credits := rfl
@[simp] theorem setTile_cqs (d c n : Nat) (x : Tile) : (setTile s d c n x).cqs = s.cqs := rfl
@[simp] theorem setTile_starts (d c n : Nat) (x : Tile) : (setTile s d c n x).starts = s.starts := rfl
@[simp] theorem setTile_grants (d c n : Nat) (x : Tile) : (setTile s d c n x).grants = s.grants := rfl
@[simp] theorem setTile_rings (d c n : Nat) (x : Tile) : (setTile s d c n x).rings = s.rings := rfl
@[simp] theorem setTile_cports (d c n : Nat) (x : Tile) : (setTile s d c n x).cports = s.cports := rfl
@[simp] theorem setTile_msixTab (d c n : Nat) (x : Tile) : (setTile s d c n x).msixTab = s.msixTab := rfl
@[simp] theorem setTile_msixPend (d c n : Nat) (x : Tile) : (setTile s d c n x).msixPend = s.msixPend := rfl
@[simp] theorem setTile_hostOut (d c n : Nat) (x : Tile) : (setTile s d c n x).hostOut = s.hostOut := rfl
@[simp] theorem setTile_barWait (d c n : Nat) (x : Tile) : (setTile s d c n x).barWait = s.barWait := rfl
@[simp] theorem setTile_msix (d c n : Nat) (x : Tile) : (setTile s d c n x).msix = s.msix := rfl
@[simp] theorem setTile_resp (d c n : Nat) (x : Tile) : (setTile s d c n x).resp = s.resp := rfl
@[simp] theorem setTile_due (d c n : Nat) (x : Tile) : (setTile s d c n x).due = s.due := rfl
@[simp] theorem setTile_log (d c n : Nat) (x : Tile) : (setTile s d c n x).log = s.log := rfl
@[simp] theorem setTile_logCap (d c n : Nat) (x : Tile) : (setTile s d c n x).logCap = s.logCap := rfl
@[simp] theorem setTile_alertQ (d c n : Nat) (x : Tile) : (setTile s d c n x).alertQ = s.alertQ := rfl
@[simp] theorem setTile_ibis (d c n : Nat) (x : Tile) : (setTile s d c n x).ibis = s.ibis := rfl
@[simp] theorem setTile_resets (d c n : Nat) (x : Tile) : (setTile s d c n x).resets = s.resets := rfl
@[simp] theorem setTile_restarts (d c n : Nat) (x : Tile) : (setTile s d c n x).restarts = s.restarts := rfl
@[simp] theorem setTile_aborts (d c n : Nat) (x : Tile) : (setTile s d c n x).aborts = s.aborts := rfl
@[simp] theorem setTile_lobeIdle (d c n : Nat) (x : Tile) : (setTile s d c n x).lobeIdle = s.lobeIdle := rfl
@[simp] theorem setTile_heldPower (d c n : Nat) (x : Tile) : (setTile s d c n x).heldPower = s.heldPower := rfl
@[simp] theorem setTile_enterPower (d c n : Nat) (x : Tile) : (setTile s d c n x).enterPower = s.enterPower := rfl
@[simp] theorem setTile_shutoff (d c n : Nat) (x : Tile) : (setTile s d c n x).shutoff = s.shutoff := rfl
@[simp] theorem setTile_limSteps (d c n : Nat) (x : Tile) : (setTile s d c n x).limSteps = s.limSteps := rfl
@[simp] theorem setTile_tests (d c n : Nat) (x : Tile) : (setTile s d c n x).tests = s.tests := rfl
@[simp] theorem setTile_nextTest (d c n : Nat) (x : Tile) : (setTile s d c n x).nextTest = s.nextTest := rfl
@[simp] theorem setTile_pairTest (d c n : Nat) (x : Tile) : (setTile s d c n x).pairTest = s.pairTest := rfl
@[simp] theorem setTile_mr (d c n : Nat) (x : Tile) : (setTile s d c n x).mr = s.mr := rfl
@[simp] theorem setTile_bootId (d c n : Nat) (x : Tile) : (setTile s d c n x).bootId = s.bootId := rfl
@[simp] theorem setTile_akSeed (d c n : Nat) (x : Tile) : (setTile s d c n x).akSeed = s.akSeed := rfl
@[simp] theorem setTile_records (d c n : Nat) (x : Tile) : (setTile s d c n x).records = s.records := rfl
@[simp] theorem setTile_seg (d c n : Nat) (x : Tile) : (setTile s d c n x).seg = s.seg := rfl
@[simp] theorem setTile_flash (d c n : Nat) (x : Tile) : (setTile s d c n x).flash = s.flash := rfl
@[simp] theorem setTile_boot (d c n : Nat) (x : Tile) : (setTile s d c n x).boot = s.boot := rfl
@[simp] theorem setTile_eruptT (d c n : Nat) (x : Tile) : (setTile s d c n x).eruptT = s.eruptT := rfl
@[simp] theorem setTile_pairPol (d c n : Nat) (x : Tile) : (setTile s d c n x).pairPol = s.pairPol := rfl
@[simp] theorem setTile_pins (d c n : Nat) (x : Tile) : (setTile s d c n x).pins = s.pins := rfl
@[simp] theorem setTile_jtag (d c n : Nat) (x : Tile) : (setTile s d c n x).jtag = s.jtag := rfl
@[simp] theorem setTile_clock (d c n : Nat) (x : Tile) : (setTile s d c n x).clock = s.clock := rfl
@[simp] theorem setTile_upTime (d c n : Nat) (x : Tile) : (setTile s d c n x).upTime = s.upTime := rfl
@[simp] theorem setTile_downTime (d c n : Nat) (x : Tile) : (setTile s d c n x).downTime = s.downTime := rfl
@[simp] theorem setTile_tremor (d c n : Nat) (x : Tile) : (setTile s d c n x).tremor = s.tremor := rfl
@[simp] theorem setTile_bar4Size (d c n : Nat) (x : Tile) : (setTile s d c n x).bar4Size = s.bar4Size := rfl
@[simp] theorem setTile_free (d c n : Nat) (x : Tile) : (setTile s d c n x).free = s.free := rfl

/-! ### `setQueue` -/

@[simp] theorem setQueue_pending (d c : Nat) (q : List Nat) : (setQueue s d c q).pending = s.pending := rfl
@[simp] theorem setQueue_regs (d c : Nat) (q : List Nat) : (setQueue s d c q).regs = s.regs := rfl
@[simp] theorem setQueue_mem (d c : Nat) (q : List Nat) : (setQueue s d c q).mem = s.mem := rfl
@[simp] theorem setQueue_errs (d c : Nat) (q : List Nat) : (setQueue s d c q).errs = s.errs := rfl
@[simp] theorem setQueue_seen (d c : Nat) (q : List Nat) : (setQueue s d c q).seen = s.seen := rfl
@[simp] theorem setQueue_repairCur (d c : Nat) (q : List Nat) : (setQueue s d c q).repairCur = s.repairCur := rfl
@[simp] theorem setQueue_jw (d c : Nat) (q : List Nat) : (setQueue s d c q).jw = s.jw := rfl
@[simp] theorem setQueue_jwRej (d c : Nat) (q : List Nat) : (setQueue s d c q).jwRej = s.jwRej := rfl
@[simp] theorem setQueue_outDie (d c : Nat) (q : List Nat) : (setQueue s d c q).outDie = s.outDie := rfl
@[simp] theorem setQueue_outPkg (d c : Nat) (q : List Nat) : (setQueue s d c q).outPkg = s.outPkg := rfl
@[simp] theorem setQueue_pkgShut (d c : Nat) (q : List Nat) : (setQueue s d c q).pkgShut = s.pkgShut := rfl
@[simp] theorem setQueue_hot (d c : Nat) (q : List Nat) : (setQueue s d c q).hot = s.hot := rfl
@[simp] theorem setQueue_bankNext (d c : Nat) (q : List Nat) : (setQueue s d c q).bankNext = s.bankNext := rfl
@[simp] theorem setQueue_census (d c : Nat) (q : List Nat) : (setQueue s d c q).census = s.census := rfl
@[simp] theorem setQueue_dies (d c : Nat) (q : List Nat) : (setQueue s d c q).dies = s.dies := rfl
@[simp] theorem setQueue_tiles (d c : Nat) (q : List Nat) : (setQueue s d c q).tiles = s.tiles := rfl
@[simp] theorem setQueue_served (d c : Nat) (q : List Nat) : (setQueue s d c q).served = s.served := rfl
@[simp] theorem setQueue_waking (d c : Nat) (q : List Nat) : (setQueue s d c q).waking = s.waking := rfl
@[simp] theorem setQueue_edges (d c : Nat) (q : List Nat) : (setQueue s d c q).edges = s.edges := rfl
@[simp] theorem setQueue_oe (d c : Nat) (q : List Nat) : (setQueue s d c q).oe = s.oe := rfl
@[simp] theorem setQueue_groups (d c : Nat) (q : List Nat) : (setQueue s d c q).groups = s.groups := rfl
@[simp] theorem setQueue_planOf (d c : Nat) (q : List Nat) : (setQueue s d c q).planOf = s.planOf := rfl
@[simp] theorem setQueue_jobs (d c : Nat) (q : List Nat) : (setQueue s d c q).jobs = s.jobs := rfl
@[simp] theorem setQueue_rtHdr (d c : Nat) (q : List Nat) : (setQueue s d c q).rtHdr = s.rtHdr := rfl
@[simp] theorem setQueue_rtEnt (d c : Nat) (q : List Nat) : (setQueue s d c q).rtEnt = s.rtEnt := rfl
@[simp] theorem setQueue_inject (d c : Nat) (q : List Nat) : (setQueue s d c q).inject = s.inject := rfl
@[simp] theorem setQueue_inbox (d c : Nat) (q : List Nat) : (setQueue s d c q).inbox = s.inbox := rfl
@[simp] theorem setQueue_arrived (d c : Nat) (q : List Nat) : (setQueue s d c q).arrived = s.arrived := rfl
@[simp] theorem setQueue_outq (d c : Nat) (q : List Nat) : (setQueue s d c q).outq = s.outq := rfl
@[simp] theorem setQueue_tx (d c : Nat) (q : List Nat) : (setQueue s d c q).tx = s.tx := rfl
@[simp] theorem setQueue_links (d c : Nat) (q : List Nat) : (setQueue s d c q).links = s.links := rfl
@[simp] theorem setQueue_sidestep (d c : Nat) (q : List Nat) : (setQueue s d c q).sidestep = s.sidestep := rfl
@[simp] theorem setQueue_nbrUp (d c : Nat) (q : List Nat) : (setQueue s d c q).nbrUp = s.nbrUp := rfl
@[simp] theorem setQueue_ft (d c : Nat) (q : List Nat) : (setQueue s d c q).ft = s.ft := rfl
@[simp] theorem setQueue_remote (d c : Nat) (q : List Nat) : (setQueue s d c q).remote = s.remote := rfl
@[simp] theorem setQueue_geysers (d c : Nat) (q : List Nat) : (setQueue s d c q).geysers = s.geysers := rfl
@[simp] theorem setQueue_credits (d c : Nat) (q : List Nat) : (setQueue s d c q).credits = s.credits := rfl
@[simp] theorem setQueue_cqs (d c : Nat) (q : List Nat) : (setQueue s d c q).cqs = s.cqs := rfl
@[simp] theorem setQueue_starts (d c : Nat) (q : List Nat) : (setQueue s d c q).starts = s.starts := rfl
@[simp] theorem setQueue_grants (d c : Nat) (q : List Nat) : (setQueue s d c q).grants = s.grants := rfl
@[simp] theorem setQueue_rings (d c : Nat) (q : List Nat) : (setQueue s d c q).rings = s.rings := rfl
@[simp] theorem setQueue_cports (d c : Nat) (q : List Nat) : (setQueue s d c q).cports = s.cports := rfl
@[simp] theorem setQueue_msixTab (d c : Nat) (q : List Nat) : (setQueue s d c q).msixTab = s.msixTab := rfl
@[simp] theorem setQueue_msixPend (d c : Nat) (q : List Nat) : (setQueue s d c q).msixPend = s.msixPend := rfl
@[simp] theorem setQueue_hostOut (d c : Nat) (q : List Nat) : (setQueue s d c q).hostOut = s.hostOut := rfl
@[simp] theorem setQueue_barWait (d c : Nat) (q : List Nat) : (setQueue s d c q).barWait = s.barWait := rfl
@[simp] theorem setQueue_msix (d c : Nat) (q : List Nat) : (setQueue s d c q).msix = s.msix := rfl
@[simp] theorem setQueue_resp (d c : Nat) (q : List Nat) : (setQueue s d c q).resp = s.resp := rfl
@[simp] theorem setQueue_due (d c : Nat) (q : List Nat) : (setQueue s d c q).due = s.due := rfl
@[simp] theorem setQueue_log (d c : Nat) (q : List Nat) : (setQueue s d c q).log = s.log := rfl
@[simp] theorem setQueue_logCap (d c : Nat) (q : List Nat) : (setQueue s d c q).logCap = s.logCap := rfl
@[simp] theorem setQueue_alertQ (d c : Nat) (q : List Nat) : (setQueue s d c q).alertQ = s.alertQ := rfl
@[simp] theorem setQueue_ibis (d c : Nat) (q : List Nat) : (setQueue s d c q).ibis = s.ibis := rfl
@[simp] theorem setQueue_resets (d c : Nat) (q : List Nat) : (setQueue s d c q).resets = s.resets := rfl
@[simp] theorem setQueue_restarts (d c : Nat) (q : List Nat) : (setQueue s d c q).restarts = s.restarts := rfl
@[simp] theorem setQueue_aborts (d c : Nat) (q : List Nat) : (setQueue s d c q).aborts = s.aborts := rfl
@[simp] theorem setQueue_lobeIdle (d c : Nat) (q : List Nat) : (setQueue s d c q).lobeIdle = s.lobeIdle := rfl
@[simp] theorem setQueue_heldPower (d c : Nat) (q : List Nat) : (setQueue s d c q).heldPower = s.heldPower := rfl
@[simp] theorem setQueue_enterPower (d c : Nat) (q : List Nat) : (setQueue s d c q).enterPower = s.enterPower := rfl
@[simp] theorem setQueue_shutoff (d c : Nat) (q : List Nat) : (setQueue s d c q).shutoff = s.shutoff := rfl
@[simp] theorem setQueue_limSteps (d c : Nat) (q : List Nat) : (setQueue s d c q).limSteps = s.limSteps := rfl
@[simp] theorem setQueue_tests (d c : Nat) (q : List Nat) : (setQueue s d c q).tests = s.tests := rfl
@[simp] theorem setQueue_nextTest (d c : Nat) (q : List Nat) : (setQueue s d c q).nextTest = s.nextTest := rfl
@[simp] theorem setQueue_pairTest (d c : Nat) (q : List Nat) : (setQueue s d c q).pairTest = s.pairTest := rfl
@[simp] theorem setQueue_mr (d c : Nat) (q : List Nat) : (setQueue s d c q).mr = s.mr := rfl
@[simp] theorem setQueue_bootId (d c : Nat) (q : List Nat) : (setQueue s d c q).bootId = s.bootId := rfl
@[simp] theorem setQueue_akSeed (d c : Nat) (q : List Nat) : (setQueue s d c q).akSeed = s.akSeed := rfl
@[simp] theorem setQueue_records (d c : Nat) (q : List Nat) : (setQueue s d c q).records = s.records := rfl
@[simp] theorem setQueue_seg (d c : Nat) (q : List Nat) : (setQueue s d c q).seg = s.seg := rfl
@[simp] theorem setQueue_flash (d c : Nat) (q : List Nat) : (setQueue s d c q).flash = s.flash := rfl
@[simp] theorem setQueue_boot (d c : Nat) (q : List Nat) : (setQueue s d c q).boot = s.boot := rfl
@[simp] theorem setQueue_eruptT (d c : Nat) (q : List Nat) : (setQueue s d c q).eruptT = s.eruptT := rfl
@[simp] theorem setQueue_pairPol (d c : Nat) (q : List Nat) : (setQueue s d c q).pairPol = s.pairPol := rfl
@[simp] theorem setQueue_pins (d c : Nat) (q : List Nat) : (setQueue s d c q).pins = s.pins := rfl
@[simp] theorem setQueue_jtag (d c : Nat) (q : List Nat) : (setQueue s d c q).jtag = s.jtag := rfl
@[simp] theorem setQueue_clock (d c : Nat) (q : List Nat) : (setQueue s d c q).clock = s.clock := rfl
@[simp] theorem setQueue_upTime (d c : Nat) (q : List Nat) : (setQueue s d c q).upTime = s.upTime := rfl
@[simp] theorem setQueue_downTime (d c : Nat) (q : List Nat) : (setQueue s d c q).downTime = s.downTime := rfl
@[simp] theorem setQueue_tremor (d c : Nat) (q : List Nat) : (setQueue s d c q).tremor = s.tremor := rfl
@[simp] theorem setQueue_bar4Size (d c : Nat) (q : List Nat) : (setQueue s d c q).bar4Size = s.bar4Size := rfl
@[simp] theorem setQueue_free (d c : Nat) (q : List Nat) : (setQueue s d c q).free = s.free := rfl

/-! ### `setEdgeSide` -/

@[simp] theorem setEdgeSide_pending (e : EdgeEnd) (x : EdgeSide) : (setEdgeSide s e x).pending = s.pending := rfl
@[simp] theorem setEdgeSide_regs (e : EdgeEnd) (x : EdgeSide) : (setEdgeSide s e x).regs = s.regs := rfl
@[simp] theorem setEdgeSide_mem (e : EdgeEnd) (x : EdgeSide) : (setEdgeSide s e x).mem = s.mem := rfl
@[simp] theorem setEdgeSide_errs (e : EdgeEnd) (x : EdgeSide) : (setEdgeSide s e x).errs = s.errs := rfl
@[simp] theorem setEdgeSide_seen (e : EdgeEnd) (x : EdgeSide) : (setEdgeSide s e x).seen = s.seen := rfl
@[simp] theorem setEdgeSide_repairCur (e : EdgeEnd) (x : EdgeSide) : (setEdgeSide s e x).repairCur = s.repairCur := rfl
@[simp] theorem setEdgeSide_jw (e : EdgeEnd) (x : EdgeSide) : (setEdgeSide s e x).jw = s.jw := rfl
@[simp] theorem setEdgeSide_jwRej (e : EdgeEnd) (x : EdgeSide) : (setEdgeSide s e x).jwRej = s.jwRej := rfl
@[simp] theorem setEdgeSide_outDie (e : EdgeEnd) (x : EdgeSide) : (setEdgeSide s e x).outDie = s.outDie := rfl
@[simp] theorem setEdgeSide_outPkg (e : EdgeEnd) (x : EdgeSide) : (setEdgeSide s e x).outPkg = s.outPkg := rfl
@[simp] theorem setEdgeSide_pkgShut (e : EdgeEnd) (x : EdgeSide) : (setEdgeSide s e x).pkgShut = s.pkgShut := rfl
@[simp] theorem setEdgeSide_hot (e : EdgeEnd) (x : EdgeSide) : (setEdgeSide s e x).hot = s.hot := rfl
@[simp] theorem setEdgeSide_bankNext (e : EdgeEnd) (x : EdgeSide) : (setEdgeSide s e x).bankNext = s.bankNext := rfl
@[simp] theorem setEdgeSide_census (e : EdgeEnd) (x : EdgeSide) : (setEdgeSide s e x).census = s.census := rfl
@[simp] theorem setEdgeSide_dies (e : EdgeEnd) (x : EdgeSide) : (setEdgeSide s e x).dies = s.dies := rfl
@[simp] theorem setEdgeSide_tiles (e : EdgeEnd) (x : EdgeSide) : (setEdgeSide s e x).tiles = s.tiles := rfl
@[simp] theorem setEdgeSide_queues (e : EdgeEnd) (x : EdgeSide) : (setEdgeSide s e x).queues = s.queues := rfl
@[simp] theorem setEdgeSide_served (e : EdgeEnd) (x : EdgeSide) : (setEdgeSide s e x).served = s.served := rfl
@[simp] theorem setEdgeSide_waking (e : EdgeEnd) (x : EdgeSide) : (setEdgeSide s e x).waking = s.waking := rfl
@[simp] theorem setEdgeSide_oe (e : EdgeEnd) (x : EdgeSide) : (setEdgeSide s e x).oe = s.oe := rfl
@[simp] theorem setEdgeSide_groups (e : EdgeEnd) (x : EdgeSide) : (setEdgeSide s e x).groups = s.groups := rfl
@[simp] theorem setEdgeSide_planOf (e : EdgeEnd) (x : EdgeSide) : (setEdgeSide s e x).planOf = s.planOf := rfl
@[simp] theorem setEdgeSide_jobs (e : EdgeEnd) (x : EdgeSide) : (setEdgeSide s e x).jobs = s.jobs := rfl
@[simp] theorem setEdgeSide_rtHdr (e : EdgeEnd) (x : EdgeSide) : (setEdgeSide s e x).rtHdr = s.rtHdr := rfl
@[simp] theorem setEdgeSide_rtEnt (e : EdgeEnd) (x : EdgeSide) : (setEdgeSide s e x).rtEnt = s.rtEnt := rfl
@[simp] theorem setEdgeSide_inject (e : EdgeEnd) (x : EdgeSide) : (setEdgeSide s e x).inject = s.inject := rfl
@[simp] theorem setEdgeSide_inbox (e : EdgeEnd) (x : EdgeSide) : (setEdgeSide s e x).inbox = s.inbox := rfl
@[simp] theorem setEdgeSide_arrived (e : EdgeEnd) (x : EdgeSide) : (setEdgeSide s e x).arrived = s.arrived := rfl
@[simp] theorem setEdgeSide_outq (e : EdgeEnd) (x : EdgeSide) : (setEdgeSide s e x).outq = s.outq := rfl
@[simp] theorem setEdgeSide_tx (e : EdgeEnd) (x : EdgeSide) : (setEdgeSide s e x).tx = s.tx := rfl
@[simp] theorem setEdgeSide_links (e : EdgeEnd) (x : EdgeSide) : (setEdgeSide s e x).links = s.links := rfl
@[simp] theorem setEdgeSide_sidestep (e : EdgeEnd) (x : EdgeSide) : (setEdgeSide s e x).sidestep = s.sidestep := rfl
@[simp] theorem setEdgeSide_nbrUp (e : EdgeEnd) (x : EdgeSide) : (setEdgeSide s e x).nbrUp = s.nbrUp := rfl
@[simp] theorem setEdgeSide_ft (e : EdgeEnd) (x : EdgeSide) : (setEdgeSide s e x).ft = s.ft := rfl
@[simp] theorem setEdgeSide_remote (e : EdgeEnd) (x : EdgeSide) : (setEdgeSide s e x).remote = s.remote := rfl
@[simp] theorem setEdgeSide_geysers (e : EdgeEnd) (x : EdgeSide) : (setEdgeSide s e x).geysers = s.geysers := rfl
@[simp] theorem setEdgeSide_credits (e : EdgeEnd) (x : EdgeSide) : (setEdgeSide s e x).credits = s.credits := rfl
@[simp] theorem setEdgeSide_cqs (e : EdgeEnd) (x : EdgeSide) : (setEdgeSide s e x).cqs = s.cqs := rfl
@[simp] theorem setEdgeSide_starts (e : EdgeEnd) (x : EdgeSide) : (setEdgeSide s e x).starts = s.starts := rfl
@[simp] theorem setEdgeSide_grants (e : EdgeEnd) (x : EdgeSide) : (setEdgeSide s e x).grants = s.grants := rfl
@[simp] theorem setEdgeSide_rings (e : EdgeEnd) (x : EdgeSide) : (setEdgeSide s e x).rings = s.rings := rfl
@[simp] theorem setEdgeSide_cports (e : EdgeEnd) (x : EdgeSide) : (setEdgeSide s e x).cports = s.cports := rfl
@[simp] theorem setEdgeSide_msixTab (e : EdgeEnd) (x : EdgeSide) : (setEdgeSide s e x).msixTab = s.msixTab := rfl
@[simp] theorem setEdgeSide_msixPend (e : EdgeEnd) (x : EdgeSide) : (setEdgeSide s e x).msixPend = s.msixPend := rfl
@[simp] theorem setEdgeSide_hostOut (e : EdgeEnd) (x : EdgeSide) : (setEdgeSide s e x).hostOut = s.hostOut := rfl
@[simp] theorem setEdgeSide_barWait (e : EdgeEnd) (x : EdgeSide) : (setEdgeSide s e x).barWait = s.barWait := rfl
@[simp] theorem setEdgeSide_msix (e : EdgeEnd) (x : EdgeSide) : (setEdgeSide s e x).msix = s.msix := rfl
@[simp] theorem setEdgeSide_resp (e : EdgeEnd) (x : EdgeSide) : (setEdgeSide s e x).resp = s.resp := rfl
@[simp] theorem setEdgeSide_due (e : EdgeEnd) (x : EdgeSide) : (setEdgeSide s e x).due = s.due := rfl
@[simp] theorem setEdgeSide_log (e : EdgeEnd) (x : EdgeSide) : (setEdgeSide s e x).log = s.log := rfl
@[simp] theorem setEdgeSide_logCap (e : EdgeEnd) (x : EdgeSide) : (setEdgeSide s e x).logCap = s.logCap := rfl
@[simp] theorem setEdgeSide_alertQ (e : EdgeEnd) (x : EdgeSide) : (setEdgeSide s e x).alertQ = s.alertQ := rfl
@[simp] theorem setEdgeSide_ibis (e : EdgeEnd) (x : EdgeSide) : (setEdgeSide s e x).ibis = s.ibis := rfl
@[simp] theorem setEdgeSide_resets (e : EdgeEnd) (x : EdgeSide) : (setEdgeSide s e x).resets = s.resets := rfl
@[simp] theorem setEdgeSide_restarts (e : EdgeEnd) (x : EdgeSide) : (setEdgeSide s e x).restarts = s.restarts := rfl
@[simp] theorem setEdgeSide_aborts (e : EdgeEnd) (x : EdgeSide) : (setEdgeSide s e x).aborts = s.aborts := rfl
@[simp] theorem setEdgeSide_lobeIdle (e : EdgeEnd) (x : EdgeSide) : (setEdgeSide s e x).lobeIdle = s.lobeIdle := rfl
@[simp] theorem setEdgeSide_heldPower (e : EdgeEnd) (x : EdgeSide) : (setEdgeSide s e x).heldPower = s.heldPower := rfl
@[simp] theorem setEdgeSide_enterPower (e : EdgeEnd) (x : EdgeSide) : (setEdgeSide s e x).enterPower = s.enterPower := rfl
@[simp] theorem setEdgeSide_shutoff (e : EdgeEnd) (x : EdgeSide) : (setEdgeSide s e x).shutoff = s.shutoff := rfl
@[simp] theorem setEdgeSide_limSteps (e : EdgeEnd) (x : EdgeSide) : (setEdgeSide s e x).limSteps = s.limSteps := rfl
@[simp] theorem setEdgeSide_tests (e : EdgeEnd) (x : EdgeSide) : (setEdgeSide s e x).tests = s.tests := rfl
@[simp] theorem setEdgeSide_nextTest (e : EdgeEnd) (x : EdgeSide) : (setEdgeSide s e x).nextTest = s.nextTest := rfl
@[simp] theorem setEdgeSide_pairTest (e : EdgeEnd) (x : EdgeSide) : (setEdgeSide s e x).pairTest = s.pairTest := rfl
@[simp] theorem setEdgeSide_mr (e : EdgeEnd) (x : EdgeSide) : (setEdgeSide s e x).mr = s.mr := rfl
@[simp] theorem setEdgeSide_bootId (e : EdgeEnd) (x : EdgeSide) : (setEdgeSide s e x).bootId = s.bootId := rfl
@[simp] theorem setEdgeSide_akSeed (e : EdgeEnd) (x : EdgeSide) : (setEdgeSide s e x).akSeed = s.akSeed := rfl
@[simp] theorem setEdgeSide_records (e : EdgeEnd) (x : EdgeSide) : (setEdgeSide s e x).records = s.records := rfl
@[simp] theorem setEdgeSide_seg (e : EdgeEnd) (x : EdgeSide) : (setEdgeSide s e x).seg = s.seg := rfl
@[simp] theorem setEdgeSide_flash (e : EdgeEnd) (x : EdgeSide) : (setEdgeSide s e x).flash = s.flash := rfl
@[simp] theorem setEdgeSide_boot (e : EdgeEnd) (x : EdgeSide) : (setEdgeSide s e x).boot = s.boot := rfl
@[simp] theorem setEdgeSide_eruptT (e : EdgeEnd) (x : EdgeSide) : (setEdgeSide s e x).eruptT = s.eruptT := rfl
@[simp] theorem setEdgeSide_pairPol (e : EdgeEnd) (x : EdgeSide) : (setEdgeSide s e x).pairPol = s.pairPol := rfl
@[simp] theorem setEdgeSide_pins (e : EdgeEnd) (x : EdgeSide) : (setEdgeSide s e x).pins = s.pins := rfl
@[simp] theorem setEdgeSide_jtag (e : EdgeEnd) (x : EdgeSide) : (setEdgeSide s e x).jtag = s.jtag := rfl
@[simp] theorem setEdgeSide_clock (e : EdgeEnd) (x : EdgeSide) : (setEdgeSide s e x).clock = s.clock := rfl
@[simp] theorem setEdgeSide_upTime (e : EdgeEnd) (x : EdgeSide) : (setEdgeSide s e x).upTime = s.upTime := rfl
@[simp] theorem setEdgeSide_downTime (e : EdgeEnd) (x : EdgeSide) : (setEdgeSide s e x).downTime = s.downTime := rfl
@[simp] theorem setEdgeSide_tremor (e : EdgeEnd) (x : EdgeSide) : (setEdgeSide s e x).tremor = s.tremor := rfl
@[simp] theorem setEdgeSide_bar4Size (e : EdgeEnd) (x : EdgeSide) : (setEdgeSide s e x).bar4Size = s.bar4Size := rfl
@[simp] theorem setEdgeSide_free (e : EdgeEnd) (x : EdgeSide) : (setEdgeSide s e x).free = s.free := rfl

/-! ### `setLink` -/

@[simp] theorem setLink_pending (p : Nat) (x : Link) : (setLink s p x).pending = s.pending := rfl
@[simp] theorem setLink_regs (p : Nat) (x : Link) : (setLink s p x).regs = s.regs := rfl
@[simp] theorem setLink_mem (p : Nat) (x : Link) : (setLink s p x).mem = s.mem := rfl
@[simp] theorem setLink_errs (p : Nat) (x : Link) : (setLink s p x).errs = s.errs := rfl
@[simp] theorem setLink_seen (p : Nat) (x : Link) : (setLink s p x).seen = s.seen := rfl
@[simp] theorem setLink_repairCur (p : Nat) (x : Link) : (setLink s p x).repairCur = s.repairCur := rfl
@[simp] theorem setLink_jw (p : Nat) (x : Link) : (setLink s p x).jw = s.jw := rfl
@[simp] theorem setLink_jwRej (p : Nat) (x : Link) : (setLink s p x).jwRej = s.jwRej := rfl
@[simp] theorem setLink_outDie (p : Nat) (x : Link) : (setLink s p x).outDie = s.outDie := rfl
@[simp] theorem setLink_outPkg (p : Nat) (x : Link) : (setLink s p x).outPkg = s.outPkg := rfl
@[simp] theorem setLink_pkgShut (p : Nat) (x : Link) : (setLink s p x).pkgShut = s.pkgShut := rfl
@[simp] theorem setLink_hot (p : Nat) (x : Link) : (setLink s p x).hot = s.hot := rfl
@[simp] theorem setLink_bankNext (p : Nat) (x : Link) : (setLink s p x).bankNext = s.bankNext := rfl
@[simp] theorem setLink_census (p : Nat) (x : Link) : (setLink s p x).census = s.census := rfl
@[simp] theorem setLink_dies (p : Nat) (x : Link) : (setLink s p x).dies = s.dies := rfl
@[simp] theorem setLink_tiles (p : Nat) (x : Link) : (setLink s p x).tiles = s.tiles := rfl
@[simp] theorem setLink_queues (p : Nat) (x : Link) : (setLink s p x).queues = s.queues := rfl
@[simp] theorem setLink_served (p : Nat) (x : Link) : (setLink s p x).served = s.served := rfl
@[simp] theorem setLink_waking (p : Nat) (x : Link) : (setLink s p x).waking = s.waking := rfl
@[simp] theorem setLink_edges (p : Nat) (x : Link) : (setLink s p x).edges = s.edges := rfl
@[simp] theorem setLink_oe (p : Nat) (x : Link) : (setLink s p x).oe = s.oe := rfl
@[simp] theorem setLink_groups (p : Nat) (x : Link) : (setLink s p x).groups = s.groups := rfl
@[simp] theorem setLink_planOf (p : Nat) (x : Link) : (setLink s p x).planOf = s.planOf := rfl
@[simp] theorem setLink_jobs (p : Nat) (x : Link) : (setLink s p x).jobs = s.jobs := rfl
@[simp] theorem setLink_rtHdr (p : Nat) (x : Link) : (setLink s p x).rtHdr = s.rtHdr := rfl
@[simp] theorem setLink_rtEnt (p : Nat) (x : Link) : (setLink s p x).rtEnt = s.rtEnt := rfl
@[simp] theorem setLink_inject (p : Nat) (x : Link) : (setLink s p x).inject = s.inject := rfl
@[simp] theorem setLink_inbox (p : Nat) (x : Link) : (setLink s p x).inbox = s.inbox := rfl
@[simp] theorem setLink_arrived (p : Nat) (x : Link) : (setLink s p x).arrived = s.arrived := rfl
@[simp] theorem setLink_outq (p : Nat) (x : Link) : (setLink s p x).outq = s.outq := rfl
@[simp] theorem setLink_tx (p : Nat) (x : Link) : (setLink s p x).tx = s.tx := rfl
@[simp] theorem setLink_sidestep (p : Nat) (x : Link) : (setLink s p x).sidestep = s.sidestep := rfl
@[simp] theorem setLink_nbrUp (p : Nat) (x : Link) : (setLink s p x).nbrUp = s.nbrUp := rfl
@[simp] theorem setLink_ft (p : Nat) (x : Link) : (setLink s p x).ft = s.ft := rfl
@[simp] theorem setLink_remote (p : Nat) (x : Link) : (setLink s p x).remote = s.remote := rfl
@[simp] theorem setLink_geysers (p : Nat) (x : Link) : (setLink s p x).geysers = s.geysers := rfl
@[simp] theorem setLink_credits (p : Nat) (x : Link) : (setLink s p x).credits = s.credits := rfl
@[simp] theorem setLink_cqs (p : Nat) (x : Link) : (setLink s p x).cqs = s.cqs := rfl
@[simp] theorem setLink_starts (p : Nat) (x : Link) : (setLink s p x).starts = s.starts := rfl
@[simp] theorem setLink_grants (p : Nat) (x : Link) : (setLink s p x).grants = s.grants := rfl
@[simp] theorem setLink_rings (p : Nat) (x : Link) : (setLink s p x).rings = s.rings := rfl
@[simp] theorem setLink_cports (p : Nat) (x : Link) : (setLink s p x).cports = s.cports := rfl
@[simp] theorem setLink_msixTab (p : Nat) (x : Link) : (setLink s p x).msixTab = s.msixTab := rfl
@[simp] theorem setLink_msixPend (p : Nat) (x : Link) : (setLink s p x).msixPend = s.msixPend := rfl
@[simp] theorem setLink_hostOut (p : Nat) (x : Link) : (setLink s p x).hostOut = s.hostOut := rfl
@[simp] theorem setLink_barWait (p : Nat) (x : Link) : (setLink s p x).barWait = s.barWait := rfl
@[simp] theorem setLink_msix (p : Nat) (x : Link) : (setLink s p x).msix = s.msix := rfl
@[simp] theorem setLink_resp (p : Nat) (x : Link) : (setLink s p x).resp = s.resp := rfl
@[simp] theorem setLink_due (p : Nat) (x : Link) : (setLink s p x).due = s.due := rfl
@[simp] theorem setLink_log (p : Nat) (x : Link) : (setLink s p x).log = s.log := rfl
@[simp] theorem setLink_logCap (p : Nat) (x : Link) : (setLink s p x).logCap = s.logCap := rfl
@[simp] theorem setLink_alertQ (p : Nat) (x : Link) : (setLink s p x).alertQ = s.alertQ := rfl
@[simp] theorem setLink_ibis (p : Nat) (x : Link) : (setLink s p x).ibis = s.ibis := rfl
@[simp] theorem setLink_resets (p : Nat) (x : Link) : (setLink s p x).resets = s.resets := rfl
@[simp] theorem setLink_restarts (p : Nat) (x : Link) : (setLink s p x).restarts = s.restarts := rfl
@[simp] theorem setLink_aborts (p : Nat) (x : Link) : (setLink s p x).aborts = s.aborts := rfl
@[simp] theorem setLink_lobeIdle (p : Nat) (x : Link) : (setLink s p x).lobeIdle = s.lobeIdle := rfl
@[simp] theorem setLink_heldPower (p : Nat) (x : Link) : (setLink s p x).heldPower = s.heldPower := rfl
@[simp] theorem setLink_enterPower (p : Nat) (x : Link) : (setLink s p x).enterPower = s.enterPower := rfl
@[simp] theorem setLink_shutoff (p : Nat) (x : Link) : (setLink s p x).shutoff = s.shutoff := rfl
@[simp] theorem setLink_limSteps (p : Nat) (x : Link) : (setLink s p x).limSteps = s.limSteps := rfl
@[simp] theorem setLink_tests (p : Nat) (x : Link) : (setLink s p x).tests = s.tests := rfl
@[simp] theorem setLink_nextTest (p : Nat) (x : Link) : (setLink s p x).nextTest = s.nextTest := rfl
@[simp] theorem setLink_pairTest (p : Nat) (x : Link) : (setLink s p x).pairTest = s.pairTest := rfl
@[simp] theorem setLink_mr (p : Nat) (x : Link) : (setLink s p x).mr = s.mr := rfl
@[simp] theorem setLink_bootId (p : Nat) (x : Link) : (setLink s p x).bootId = s.bootId := rfl
@[simp] theorem setLink_akSeed (p : Nat) (x : Link) : (setLink s p x).akSeed = s.akSeed := rfl
@[simp] theorem setLink_records (p : Nat) (x : Link) : (setLink s p x).records = s.records := rfl
@[simp] theorem setLink_seg (p : Nat) (x : Link) : (setLink s p x).seg = s.seg := rfl
@[simp] theorem setLink_flash (p : Nat) (x : Link) : (setLink s p x).flash = s.flash := rfl
@[simp] theorem setLink_boot (p : Nat) (x : Link) : (setLink s p x).boot = s.boot := rfl
@[simp] theorem setLink_eruptT (p : Nat) (x : Link) : (setLink s p x).eruptT = s.eruptT := rfl
@[simp] theorem setLink_pairPol (p : Nat) (x : Link) : (setLink s p x).pairPol = s.pairPol := rfl
@[simp] theorem setLink_pins (p : Nat) (x : Link) : (setLink s p x).pins = s.pins := rfl
@[simp] theorem setLink_jtag (p : Nat) (x : Link) : (setLink s p x).jtag = s.jtag := rfl
@[simp] theorem setLink_clock (p : Nat) (x : Link) : (setLink s p x).clock = s.clock := rfl
@[simp] theorem setLink_upTime (p : Nat) (x : Link) : (setLink s p x).upTime = s.upTime := rfl
@[simp] theorem setLink_downTime (p : Nat) (x : Link) : (setLink s p x).downTime = s.downTime := rfl
@[simp] theorem setLink_tremor (p : Nat) (x : Link) : (setLink s p x).tremor = s.tremor := rfl
@[simp] theorem setLink_bar4Size (p : Nat) (x : Link) : (setLink s p x).bar4Size = s.bar4Size := rfl
@[simp] theorem setLink_free (p : Nat) (x : Link) : (setLink s p x).free = s.free := rfl

/-! ### `setJob` -/

@[simp] theorem setJob_pending (j : Nat) (x : Job) : (setJob s j x).pending = s.pending := rfl
@[simp] theorem setJob_regs (j : Nat) (x : Job) : (setJob s j x).regs = s.regs := rfl
@[simp] theorem setJob_mem (j : Nat) (x : Job) : (setJob s j x).mem = s.mem := rfl
@[simp] theorem setJob_errs (j : Nat) (x : Job) : (setJob s j x).errs = s.errs := rfl
@[simp] theorem setJob_seen (j : Nat) (x : Job) : (setJob s j x).seen = s.seen := rfl
@[simp] theorem setJob_repairCur (j : Nat) (x : Job) : (setJob s j x).repairCur = s.repairCur := rfl
@[simp] theorem setJob_jw (j : Nat) (x : Job) : (setJob s j x).jw = s.jw := rfl
@[simp] theorem setJob_jwRej (j : Nat) (x : Job) : (setJob s j x).jwRej = s.jwRej := rfl
@[simp] theorem setJob_outDie (j : Nat) (x : Job) : (setJob s j x).outDie = s.outDie := rfl
@[simp] theorem setJob_outPkg (j : Nat) (x : Job) : (setJob s j x).outPkg = s.outPkg := rfl
@[simp] theorem setJob_pkgShut (j : Nat) (x : Job) : (setJob s j x).pkgShut = s.pkgShut := rfl
@[simp] theorem setJob_hot (j : Nat) (x : Job) : (setJob s j x).hot = s.hot := rfl
@[simp] theorem setJob_bankNext (j : Nat) (x : Job) : (setJob s j x).bankNext = s.bankNext := rfl
@[simp] theorem setJob_census (j : Nat) (x : Job) : (setJob s j x).census = s.census := rfl
@[simp] theorem setJob_dies (j : Nat) (x : Job) : (setJob s j x).dies = s.dies := rfl
@[simp] theorem setJob_tiles (j : Nat) (x : Job) : (setJob s j x).tiles = s.tiles := rfl
@[simp] theorem setJob_queues (j : Nat) (x : Job) : (setJob s j x).queues = s.queues := rfl
@[simp] theorem setJob_served (j : Nat) (x : Job) : (setJob s j x).served = s.served := rfl
@[simp] theorem setJob_waking (j : Nat) (x : Job) : (setJob s j x).waking = s.waking := rfl
@[simp] theorem setJob_edges (j : Nat) (x : Job) : (setJob s j x).edges = s.edges := rfl
@[simp] theorem setJob_oe (j : Nat) (x : Job) : (setJob s j x).oe = s.oe := rfl
@[simp] theorem setJob_groups (j : Nat) (x : Job) : (setJob s j x).groups = s.groups := rfl
@[simp] theorem setJob_planOf (j : Nat) (x : Job) : (setJob s j x).planOf = s.planOf := rfl
@[simp] theorem setJob_rtHdr (j : Nat) (x : Job) : (setJob s j x).rtHdr = s.rtHdr := rfl
@[simp] theorem setJob_rtEnt (j : Nat) (x : Job) : (setJob s j x).rtEnt = s.rtEnt := rfl
@[simp] theorem setJob_inject (j : Nat) (x : Job) : (setJob s j x).inject = s.inject := rfl
@[simp] theorem setJob_inbox (j : Nat) (x : Job) : (setJob s j x).inbox = s.inbox := rfl
@[simp] theorem setJob_arrived (j : Nat) (x : Job) : (setJob s j x).arrived = s.arrived := rfl
@[simp] theorem setJob_outq (j : Nat) (x : Job) : (setJob s j x).outq = s.outq := rfl
@[simp] theorem setJob_tx (j : Nat) (x : Job) : (setJob s j x).tx = s.tx := rfl
@[simp] theorem setJob_links (j : Nat) (x : Job) : (setJob s j x).links = s.links := rfl
@[simp] theorem setJob_sidestep (j : Nat) (x : Job) : (setJob s j x).sidestep = s.sidestep := rfl
@[simp] theorem setJob_nbrUp (j : Nat) (x : Job) : (setJob s j x).nbrUp = s.nbrUp := rfl
@[simp] theorem setJob_ft (j : Nat) (x : Job) : (setJob s j x).ft = s.ft := rfl
@[simp] theorem setJob_remote (j : Nat) (x : Job) : (setJob s j x).remote = s.remote := rfl
@[simp] theorem setJob_geysers (j : Nat) (x : Job) : (setJob s j x).geysers = s.geysers := rfl
@[simp] theorem setJob_credits (j : Nat) (x : Job) : (setJob s j x).credits = s.credits := rfl
@[simp] theorem setJob_cqs (j : Nat) (x : Job) : (setJob s j x).cqs = s.cqs := rfl
@[simp] theorem setJob_starts (j : Nat) (x : Job) : (setJob s j x).starts = s.starts := rfl
@[simp] theorem setJob_grants (j : Nat) (x : Job) : (setJob s j x).grants = s.grants := rfl
@[simp] theorem setJob_rings (j : Nat) (x : Job) : (setJob s j x).rings = s.rings := rfl
@[simp] theorem setJob_cports (j : Nat) (x : Job) : (setJob s j x).cports = s.cports := rfl
@[simp] theorem setJob_msixTab (j : Nat) (x : Job) : (setJob s j x).msixTab = s.msixTab := rfl
@[simp] theorem setJob_msixPend (j : Nat) (x : Job) : (setJob s j x).msixPend = s.msixPend := rfl
@[simp] theorem setJob_hostOut (j : Nat) (x : Job) : (setJob s j x).hostOut = s.hostOut := rfl
@[simp] theorem setJob_barWait (j : Nat) (x : Job) : (setJob s j x).barWait = s.barWait := rfl
@[simp] theorem setJob_msix (j : Nat) (x : Job) : (setJob s j x).msix = s.msix := rfl
@[simp] theorem setJob_resp (j : Nat) (x : Job) : (setJob s j x).resp = s.resp := rfl
@[simp] theorem setJob_due (j : Nat) (x : Job) : (setJob s j x).due = s.due := rfl
@[simp] theorem setJob_log (j : Nat) (x : Job) : (setJob s j x).log = s.log := rfl
@[simp] theorem setJob_logCap (j : Nat) (x : Job) : (setJob s j x).logCap = s.logCap := rfl
@[simp] theorem setJob_alertQ (j : Nat) (x : Job) : (setJob s j x).alertQ = s.alertQ := rfl
@[simp] theorem setJob_ibis (j : Nat) (x : Job) : (setJob s j x).ibis = s.ibis := rfl
@[simp] theorem setJob_resets (j : Nat) (x : Job) : (setJob s j x).resets = s.resets := rfl
@[simp] theorem setJob_restarts (j : Nat) (x : Job) : (setJob s j x).restarts = s.restarts := rfl
@[simp] theorem setJob_aborts (j : Nat) (x : Job) : (setJob s j x).aborts = s.aborts := rfl
@[simp] theorem setJob_lobeIdle (j : Nat) (x : Job) : (setJob s j x).lobeIdle = s.lobeIdle := rfl
@[simp] theorem setJob_heldPower (j : Nat) (x : Job) : (setJob s j x).heldPower = s.heldPower := rfl
@[simp] theorem setJob_enterPower (j : Nat) (x : Job) : (setJob s j x).enterPower = s.enterPower := rfl
@[simp] theorem setJob_shutoff (j : Nat) (x : Job) : (setJob s j x).shutoff = s.shutoff := rfl
@[simp] theorem setJob_limSteps (j : Nat) (x : Job) : (setJob s j x).limSteps = s.limSteps := rfl
@[simp] theorem setJob_tests (j : Nat) (x : Job) : (setJob s j x).tests = s.tests := rfl
@[simp] theorem setJob_nextTest (j : Nat) (x : Job) : (setJob s j x).nextTest = s.nextTest := rfl
@[simp] theorem setJob_pairTest (j : Nat) (x : Job) : (setJob s j x).pairTest = s.pairTest := rfl
@[simp] theorem setJob_mr (j : Nat) (x : Job) : (setJob s j x).mr = s.mr := rfl
@[simp] theorem setJob_bootId (j : Nat) (x : Job) : (setJob s j x).bootId = s.bootId := rfl
@[simp] theorem setJob_akSeed (j : Nat) (x : Job) : (setJob s j x).akSeed = s.akSeed := rfl
@[simp] theorem setJob_records (j : Nat) (x : Job) : (setJob s j x).records = s.records := rfl
@[simp] theorem setJob_seg (j : Nat) (x : Job) : (setJob s j x).seg = s.seg := rfl
@[simp] theorem setJob_flash (j : Nat) (x : Job) : (setJob s j x).flash = s.flash := rfl
@[simp] theorem setJob_boot (j : Nat) (x : Job) : (setJob s j x).boot = s.boot := rfl
@[simp] theorem setJob_eruptT (j : Nat) (x : Job) : (setJob s j x).eruptT = s.eruptT := rfl
@[simp] theorem setJob_pairPol (j : Nat) (x : Job) : (setJob s j x).pairPol = s.pairPol := rfl
@[simp] theorem setJob_pins (j : Nat) (x : Job) : (setJob s j x).pins = s.pins := rfl
@[simp] theorem setJob_jtag (j : Nat) (x : Job) : (setJob s j x).jtag = s.jtag := rfl
@[simp] theorem setJob_clock (j : Nat) (x : Job) : (setJob s j x).clock = s.clock := rfl
@[simp] theorem setJob_upTime (j : Nat) (x : Job) : (setJob s j x).upTime = s.upTime := rfl
@[simp] theorem setJob_downTime (j : Nat) (x : Job) : (setJob s j x).downTime = s.downTime := rfl
@[simp] theorem setJob_tremor (j : Nat) (x : Job) : (setJob s j x).tremor = s.tremor := rfl
@[simp] theorem setJob_bar4Size (j : Nat) (x : Job) : (setJob s j x).bar4Size = s.bar4Size := rfl
@[simp] theorem setJob_free (j : Nat) (x : Job) : (setJob s j x).free = s.free := rfl

/-! ### `updGeyser` -/

@[simp] theorem updGeyser_pending (h : Nat) (g : Geyser → Geyser) : (updGeyser s h g).pending = s.pending := rfl
@[simp] theorem updGeyser_regs (h : Nat) (g : Geyser → Geyser) : (updGeyser s h g).regs = s.regs := rfl
@[simp] theorem updGeyser_mem (h : Nat) (g : Geyser → Geyser) : (updGeyser s h g).mem = s.mem := rfl
@[simp] theorem updGeyser_errs (h : Nat) (g : Geyser → Geyser) : (updGeyser s h g).errs = s.errs := rfl
@[simp] theorem updGeyser_seen (h : Nat) (g : Geyser → Geyser) : (updGeyser s h g).seen = s.seen := rfl
@[simp] theorem updGeyser_repairCur (h : Nat) (g : Geyser → Geyser) : (updGeyser s h g).repairCur = s.repairCur := rfl
@[simp] theorem updGeyser_jw (h : Nat) (g : Geyser → Geyser) : (updGeyser s h g).jw = s.jw := rfl
@[simp] theorem updGeyser_jwRej (h : Nat) (g : Geyser → Geyser) : (updGeyser s h g).jwRej = s.jwRej := rfl
@[simp] theorem updGeyser_outDie (h : Nat) (g : Geyser → Geyser) : (updGeyser s h g).outDie = s.outDie := rfl
@[simp] theorem updGeyser_outPkg (h : Nat) (g : Geyser → Geyser) : (updGeyser s h g).outPkg = s.outPkg := rfl
@[simp] theorem updGeyser_pkgShut (h : Nat) (g : Geyser → Geyser) : (updGeyser s h g).pkgShut = s.pkgShut := rfl
@[simp] theorem updGeyser_hot (h : Nat) (g : Geyser → Geyser) : (updGeyser s h g).hot = s.hot := rfl
@[simp] theorem updGeyser_bankNext (h : Nat) (g : Geyser → Geyser) : (updGeyser s h g).bankNext = s.bankNext := rfl
@[simp] theorem updGeyser_census (h : Nat) (g : Geyser → Geyser) : (updGeyser s h g).census = s.census := rfl
@[simp] theorem updGeyser_dies (h : Nat) (g : Geyser → Geyser) : (updGeyser s h g).dies = s.dies := rfl
@[simp] theorem updGeyser_tiles (h : Nat) (g : Geyser → Geyser) : (updGeyser s h g).tiles = s.tiles := rfl
@[simp] theorem updGeyser_queues (h : Nat) (g : Geyser → Geyser) : (updGeyser s h g).queues = s.queues := rfl
@[simp] theorem updGeyser_served (h : Nat) (g : Geyser → Geyser) : (updGeyser s h g).served = s.served := rfl
@[simp] theorem updGeyser_waking (h : Nat) (g : Geyser → Geyser) : (updGeyser s h g).waking = s.waking := rfl
@[simp] theorem updGeyser_edges (h : Nat) (g : Geyser → Geyser) : (updGeyser s h g).edges = s.edges := rfl
@[simp] theorem updGeyser_oe (h : Nat) (g : Geyser → Geyser) : (updGeyser s h g).oe = s.oe := rfl
@[simp] theorem updGeyser_groups (h : Nat) (g : Geyser → Geyser) : (updGeyser s h g).groups = s.groups := rfl
@[simp] theorem updGeyser_planOf (h : Nat) (g : Geyser → Geyser) : (updGeyser s h g).planOf = s.planOf := rfl
@[simp] theorem updGeyser_jobs (h : Nat) (g : Geyser → Geyser) : (updGeyser s h g).jobs = s.jobs := rfl
@[simp] theorem updGeyser_rtHdr (h : Nat) (g : Geyser → Geyser) : (updGeyser s h g).rtHdr = s.rtHdr := rfl
@[simp] theorem updGeyser_rtEnt (h : Nat) (g : Geyser → Geyser) : (updGeyser s h g).rtEnt = s.rtEnt := rfl
@[simp] theorem updGeyser_inject (h : Nat) (g : Geyser → Geyser) : (updGeyser s h g).inject = s.inject := rfl
@[simp] theorem updGeyser_inbox (h : Nat) (g : Geyser → Geyser) : (updGeyser s h g).inbox = s.inbox := rfl
@[simp] theorem updGeyser_arrived (h : Nat) (g : Geyser → Geyser) : (updGeyser s h g).arrived = s.arrived := rfl
@[simp] theorem updGeyser_outq (h : Nat) (g : Geyser → Geyser) : (updGeyser s h g).outq = s.outq := rfl
@[simp] theorem updGeyser_tx (h : Nat) (g : Geyser → Geyser) : (updGeyser s h g).tx = s.tx := rfl
@[simp] theorem updGeyser_links (h : Nat) (g : Geyser → Geyser) : (updGeyser s h g).links = s.links := rfl
@[simp] theorem updGeyser_sidestep (h : Nat) (g : Geyser → Geyser) : (updGeyser s h g).sidestep = s.sidestep := rfl
@[simp] theorem updGeyser_nbrUp (h : Nat) (g : Geyser → Geyser) : (updGeyser s h g).nbrUp = s.nbrUp := rfl
@[simp] theorem updGeyser_ft (h : Nat) (g : Geyser → Geyser) : (updGeyser s h g).ft = s.ft := rfl
@[simp] theorem updGeyser_remote (h : Nat) (g : Geyser → Geyser) : (updGeyser s h g).remote = s.remote := rfl
@[simp] theorem updGeyser_credits (h : Nat) (g : Geyser → Geyser) : (updGeyser s h g).credits = s.credits := rfl
@[simp] theorem updGeyser_cqs (h : Nat) (g : Geyser → Geyser) : (updGeyser s h g).cqs = s.cqs := rfl
@[simp] theorem updGeyser_starts (h : Nat) (g : Geyser → Geyser) : (updGeyser s h g).starts = s.starts := rfl
@[simp] theorem updGeyser_grants (h : Nat) (g : Geyser → Geyser) : (updGeyser s h g).grants = s.grants := rfl
@[simp] theorem updGeyser_rings (h : Nat) (g : Geyser → Geyser) : (updGeyser s h g).rings = s.rings := rfl
@[simp] theorem updGeyser_cports (h : Nat) (g : Geyser → Geyser) : (updGeyser s h g).cports = s.cports := rfl
@[simp] theorem updGeyser_msixTab (h : Nat) (g : Geyser → Geyser) : (updGeyser s h g).msixTab = s.msixTab := rfl
@[simp] theorem updGeyser_msixPend (h : Nat) (g : Geyser → Geyser) : (updGeyser s h g).msixPend = s.msixPend := rfl
@[simp] theorem updGeyser_hostOut (h : Nat) (g : Geyser → Geyser) : (updGeyser s h g).hostOut = s.hostOut := rfl
@[simp] theorem updGeyser_barWait (h : Nat) (g : Geyser → Geyser) : (updGeyser s h g).barWait = s.barWait := rfl
@[simp] theorem updGeyser_msix (h : Nat) (g : Geyser → Geyser) : (updGeyser s h g).msix = s.msix := rfl
@[simp] theorem updGeyser_resp (h : Nat) (g : Geyser → Geyser) : (updGeyser s h g).resp = s.resp := rfl
@[simp] theorem updGeyser_due (h : Nat) (g : Geyser → Geyser) : (updGeyser s h g).due = s.due := rfl
@[simp] theorem updGeyser_log (h : Nat) (g : Geyser → Geyser) : (updGeyser s h g).log = s.log := rfl
@[simp] theorem updGeyser_logCap (h : Nat) (g : Geyser → Geyser) : (updGeyser s h g).logCap = s.logCap := rfl
@[simp] theorem updGeyser_alertQ (h : Nat) (g : Geyser → Geyser) : (updGeyser s h g).alertQ = s.alertQ := rfl
@[simp] theorem updGeyser_ibis (h : Nat) (g : Geyser → Geyser) : (updGeyser s h g).ibis = s.ibis := rfl
@[simp] theorem updGeyser_resets (h : Nat) (g : Geyser → Geyser) : (updGeyser s h g).resets = s.resets := rfl
@[simp] theorem updGeyser_restarts (h : Nat) (g : Geyser → Geyser) : (updGeyser s h g).restarts = s.restarts := rfl
@[simp] theorem updGeyser_aborts (h : Nat) (g : Geyser → Geyser) : (updGeyser s h g).aborts = s.aborts := rfl
@[simp] theorem updGeyser_lobeIdle (h : Nat) (g : Geyser → Geyser) : (updGeyser s h g).lobeIdle = s.lobeIdle := rfl
@[simp] theorem updGeyser_heldPower (h : Nat) (g : Geyser → Geyser) : (updGeyser s h g).heldPower = s.heldPower := rfl
@[simp] theorem updGeyser_enterPower (h : Nat) (g : Geyser → Geyser) : (updGeyser s h g).enterPower = s.enterPower := rfl
@[simp] theorem updGeyser_shutoff (h : Nat) (g : Geyser → Geyser) : (updGeyser s h g).shutoff = s.shutoff := rfl
@[simp] theorem updGeyser_limSteps (h : Nat) (g : Geyser → Geyser) : (updGeyser s h g).limSteps = s.limSteps := rfl
@[simp] theorem updGeyser_tests (h : Nat) (g : Geyser → Geyser) : (updGeyser s h g).tests = s.tests := rfl
@[simp] theorem updGeyser_nextTest (h : Nat) (g : Geyser → Geyser) : (updGeyser s h g).nextTest = s.nextTest := rfl
@[simp] theorem updGeyser_pairTest (h : Nat) (g : Geyser → Geyser) : (updGeyser s h g).pairTest = s.pairTest := rfl
@[simp] theorem updGeyser_mr (h : Nat) (g : Geyser → Geyser) : (updGeyser s h g).mr = s.mr := rfl
@[simp] theorem updGeyser_bootId (h : Nat) (g : Geyser → Geyser) : (updGeyser s h g).bootId = s.bootId := rfl
@[simp] theorem updGeyser_akSeed (h : Nat) (g : Geyser → Geyser) : (updGeyser s h g).akSeed = s.akSeed := rfl
@[simp] theorem updGeyser_records (h : Nat) (g : Geyser → Geyser) : (updGeyser s h g).records = s.records := rfl
@[simp] theorem updGeyser_seg (h : Nat) (g : Geyser → Geyser) : (updGeyser s h g).seg = s.seg := rfl
@[simp] theorem updGeyser_flash (h : Nat) (g : Geyser → Geyser) : (updGeyser s h g).flash = s.flash := rfl
@[simp] theorem updGeyser_boot (h : Nat) (g : Geyser → Geyser) : (updGeyser s h g).boot = s.boot := rfl
@[simp] theorem updGeyser_eruptT (h : Nat) (g : Geyser → Geyser) : (updGeyser s h g).eruptT = s.eruptT := rfl
@[simp] theorem updGeyser_pairPol (h : Nat) (g : Geyser → Geyser) : (updGeyser s h g).pairPol = s.pairPol := rfl
@[simp] theorem updGeyser_pins (h : Nat) (g : Geyser → Geyser) : (updGeyser s h g).pins = s.pins := rfl
@[simp] theorem updGeyser_jtag (h : Nat) (g : Geyser → Geyser) : (updGeyser s h g).jtag = s.jtag := rfl
@[simp] theorem updGeyser_clock (h : Nat) (g : Geyser → Geyser) : (updGeyser s h g).clock = s.clock := rfl
@[simp] theorem updGeyser_upTime (h : Nat) (g : Geyser → Geyser) : (updGeyser s h g).upTime = s.upTime := rfl
@[simp] theorem updGeyser_downTime (h : Nat) (g : Geyser → Geyser) : (updGeyser s h g).downTime = s.downTime := rfl
@[simp] theorem updGeyser_tremor (h : Nat) (g : Geyser → Geyser) : (updGeyser s h g).tremor = s.tremor := rfl
@[simp] theorem updGeyser_bar4Size (h : Nat) (g : Geyser → Geyser) : (updGeyser s h g).bar4Size = s.bar4Size := rfl
@[simp] theorem updGeyser_free (h : Nat) (g : Geyser → Geyser) : (updGeyser s h g).free = s.free := rfl

/-! ### `updCq` -/

@[simp] theorem updCq_pending (q : Nat) (g : Cq → Cq) : (updCq s q g).pending = s.pending := rfl
@[simp] theorem updCq_regs (q : Nat) (g : Cq → Cq) : (updCq s q g).regs = s.regs := rfl
@[simp] theorem updCq_mem (q : Nat) (g : Cq → Cq) : (updCq s q g).mem = s.mem := rfl
@[simp] theorem updCq_errs (q : Nat) (g : Cq → Cq) : (updCq s q g).errs = s.errs := rfl
@[simp] theorem updCq_seen (q : Nat) (g : Cq → Cq) : (updCq s q g).seen = s.seen := rfl
@[simp] theorem updCq_repairCur (q : Nat) (g : Cq → Cq) : (updCq s q g).repairCur = s.repairCur := rfl
@[simp] theorem updCq_jw (q : Nat) (g : Cq → Cq) : (updCq s q g).jw = s.jw := rfl
@[simp] theorem updCq_jwRej (q : Nat) (g : Cq → Cq) : (updCq s q g).jwRej = s.jwRej := rfl
@[simp] theorem updCq_outDie (q : Nat) (g : Cq → Cq) : (updCq s q g).outDie = s.outDie := rfl
@[simp] theorem updCq_outPkg (q : Nat) (g : Cq → Cq) : (updCq s q g).outPkg = s.outPkg := rfl
@[simp] theorem updCq_pkgShut (q : Nat) (g : Cq → Cq) : (updCq s q g).pkgShut = s.pkgShut := rfl
@[simp] theorem updCq_hot (q : Nat) (g : Cq → Cq) : (updCq s q g).hot = s.hot := rfl
@[simp] theorem updCq_bankNext (q : Nat) (g : Cq → Cq) : (updCq s q g).bankNext = s.bankNext := rfl
@[simp] theorem updCq_census (q : Nat) (g : Cq → Cq) : (updCq s q g).census = s.census := rfl
@[simp] theorem updCq_dies (q : Nat) (g : Cq → Cq) : (updCq s q g).dies = s.dies := rfl
@[simp] theorem updCq_tiles (q : Nat) (g : Cq → Cq) : (updCq s q g).tiles = s.tiles := rfl
@[simp] theorem updCq_queues (q : Nat) (g : Cq → Cq) : (updCq s q g).queues = s.queues := rfl
@[simp] theorem updCq_served (q : Nat) (g : Cq → Cq) : (updCq s q g).served = s.served := rfl
@[simp] theorem updCq_waking (q : Nat) (g : Cq → Cq) : (updCq s q g).waking = s.waking := rfl
@[simp] theorem updCq_edges (q : Nat) (g : Cq → Cq) : (updCq s q g).edges = s.edges := rfl
@[simp] theorem updCq_oe (q : Nat) (g : Cq → Cq) : (updCq s q g).oe = s.oe := rfl
@[simp] theorem updCq_groups (q : Nat) (g : Cq → Cq) : (updCq s q g).groups = s.groups := rfl
@[simp] theorem updCq_planOf (q : Nat) (g : Cq → Cq) : (updCq s q g).planOf = s.planOf := rfl
@[simp] theorem updCq_jobs (q : Nat) (g : Cq → Cq) : (updCq s q g).jobs = s.jobs := rfl
@[simp] theorem updCq_rtHdr (q : Nat) (g : Cq → Cq) : (updCq s q g).rtHdr = s.rtHdr := rfl
@[simp] theorem updCq_rtEnt (q : Nat) (g : Cq → Cq) : (updCq s q g).rtEnt = s.rtEnt := rfl
@[simp] theorem updCq_inject (q : Nat) (g : Cq → Cq) : (updCq s q g).inject = s.inject := rfl
@[simp] theorem updCq_inbox (q : Nat) (g : Cq → Cq) : (updCq s q g).inbox = s.inbox := rfl
@[simp] theorem updCq_arrived (q : Nat) (g : Cq → Cq) : (updCq s q g).arrived = s.arrived := rfl
@[simp] theorem updCq_outq (q : Nat) (g : Cq → Cq) : (updCq s q g).outq = s.outq := rfl
@[simp] theorem updCq_tx (q : Nat) (g : Cq → Cq) : (updCq s q g).tx = s.tx := rfl
@[simp] theorem updCq_links (q : Nat) (g : Cq → Cq) : (updCq s q g).links = s.links := rfl
@[simp] theorem updCq_sidestep (q : Nat) (g : Cq → Cq) : (updCq s q g).sidestep = s.sidestep := rfl
@[simp] theorem updCq_nbrUp (q : Nat) (g : Cq → Cq) : (updCq s q g).nbrUp = s.nbrUp := rfl
@[simp] theorem updCq_ft (q : Nat) (g : Cq → Cq) : (updCq s q g).ft = s.ft := rfl
@[simp] theorem updCq_remote (q : Nat) (g : Cq → Cq) : (updCq s q g).remote = s.remote := rfl
@[simp] theorem updCq_geysers (q : Nat) (g : Cq → Cq) : (updCq s q g).geysers = s.geysers := rfl
@[simp] theorem updCq_credits (q : Nat) (g : Cq → Cq) : (updCq s q g).credits = s.credits := rfl
@[simp] theorem updCq_starts (q : Nat) (g : Cq → Cq) : (updCq s q g).starts = s.starts := rfl
@[simp] theorem updCq_grants (q : Nat) (g : Cq → Cq) : (updCq s q g).grants = s.grants := rfl
@[simp] theorem updCq_rings (q : Nat) (g : Cq → Cq) : (updCq s q g).rings = s.rings := rfl
@[simp] theorem updCq_cports (q : Nat) (g : Cq → Cq) : (updCq s q g).cports = s.cports := rfl
@[simp] theorem updCq_msixTab (q : Nat) (g : Cq → Cq) : (updCq s q g).msixTab = s.msixTab := rfl
@[simp] theorem updCq_msixPend (q : Nat) (g : Cq → Cq) : (updCq s q g).msixPend = s.msixPend := rfl
@[simp] theorem updCq_hostOut (q : Nat) (g : Cq → Cq) : (updCq s q g).hostOut = s.hostOut := rfl
@[simp] theorem updCq_barWait (q : Nat) (g : Cq → Cq) : (updCq s q g).barWait = s.barWait := rfl
@[simp] theorem updCq_msix (q : Nat) (g : Cq → Cq) : (updCq s q g).msix = s.msix := rfl
@[simp] theorem updCq_resp (q : Nat) (g : Cq → Cq) : (updCq s q g).resp = s.resp := rfl
@[simp] theorem updCq_due (q : Nat) (g : Cq → Cq) : (updCq s q g).due = s.due := rfl
@[simp] theorem updCq_log (q : Nat) (g : Cq → Cq) : (updCq s q g).log = s.log := rfl
@[simp] theorem updCq_logCap (q : Nat) (g : Cq → Cq) : (updCq s q g).logCap = s.logCap := rfl
@[simp] theorem updCq_alertQ (q : Nat) (g : Cq → Cq) : (updCq s q g).alertQ = s.alertQ := rfl
@[simp] theorem updCq_ibis (q : Nat) (g : Cq → Cq) : (updCq s q g).ibis = s.ibis := rfl
@[simp] theorem updCq_resets (q : Nat) (g : Cq → Cq) : (updCq s q g).resets = s.resets := rfl
@[simp] theorem updCq_restarts (q : Nat) (g : Cq → Cq) : (updCq s q g).restarts = s.restarts := rfl
@[simp] theorem updCq_aborts (q : Nat) (g : Cq → Cq) : (updCq s q g).aborts = s.aborts := rfl
@[simp] theorem updCq_lobeIdle (q : Nat) (g : Cq → Cq) : (updCq s q g).lobeIdle = s.lobeIdle := rfl
@[simp] theorem updCq_heldPower (q : Nat) (g : Cq → Cq) : (updCq s q g).heldPower = s.heldPower := rfl
@[simp] theorem updCq_enterPower (q : Nat) (g : Cq → Cq) : (updCq s q g).enterPower = s.enterPower := rfl
@[simp] theorem updCq_shutoff (q : Nat) (g : Cq → Cq) : (updCq s q g).shutoff = s.shutoff := rfl
@[simp] theorem updCq_limSteps (q : Nat) (g : Cq → Cq) : (updCq s q g).limSteps = s.limSteps := rfl
@[simp] theorem updCq_tests (q : Nat) (g : Cq → Cq) : (updCq s q g).tests = s.tests := rfl
@[simp] theorem updCq_nextTest (q : Nat) (g : Cq → Cq) : (updCq s q g).nextTest = s.nextTest := rfl
@[simp] theorem updCq_pairTest (q : Nat) (g : Cq → Cq) : (updCq s q g).pairTest = s.pairTest := rfl
@[simp] theorem updCq_mr (q : Nat) (g : Cq → Cq) : (updCq s q g).mr = s.mr := rfl
@[simp] theorem updCq_bootId (q : Nat) (g : Cq → Cq) : (updCq s q g).bootId = s.bootId := rfl
@[simp] theorem updCq_akSeed (q : Nat) (g : Cq → Cq) : (updCq s q g).akSeed = s.akSeed := rfl
@[simp] theorem updCq_records (q : Nat) (g : Cq → Cq) : (updCq s q g).records = s.records := rfl
@[simp] theorem updCq_seg (q : Nat) (g : Cq → Cq) : (updCq s q g).seg = s.seg := rfl
@[simp] theorem updCq_flash (q : Nat) (g : Cq → Cq) : (updCq s q g).flash = s.flash := rfl
@[simp] theorem updCq_boot (q : Nat) (g : Cq → Cq) : (updCq s q g).boot = s.boot := rfl
@[simp] theorem updCq_eruptT (q : Nat) (g : Cq → Cq) : (updCq s q g).eruptT = s.eruptT := rfl
@[simp] theorem updCq_pairPol (q : Nat) (g : Cq → Cq) : (updCq s q g).pairPol = s.pairPol := rfl
@[simp] theorem updCq_pins (q : Nat) (g : Cq → Cq) : (updCq s q g).pins = s.pins := rfl
@[simp] theorem updCq_jtag (q : Nat) (g : Cq → Cq) : (updCq s q g).jtag = s.jtag := rfl
@[simp] theorem updCq_clock (q : Nat) (g : Cq → Cq) : (updCq s q g).clock = s.clock := rfl
@[simp] theorem updCq_upTime (q : Nat) (g : Cq → Cq) : (updCq s q g).upTime = s.upTime := rfl
@[simp] theorem updCq_downTime (q : Nat) (g : Cq → Cq) : (updCq s q g).downTime = s.downTime := rfl
@[simp] theorem updCq_tremor (q : Nat) (g : Cq → Cq) : (updCq s q g).tremor = s.tremor := rfl
@[simp] theorem updCq_bar4Size (q : Nat) (g : Cq → Cq) : (updCq s q g).bar4Size = s.bar4Size := rfl
@[simp] theorem updCq_free (q : Nat) (g : Cq → Cq) : (updCq s q g).free = s.free := rfl

/-! ### `updRing` -/

@[simp] theorem updRing_pending (p r : Nat) (g : Ring → Ring) : (updRing s p r g).pending = s.pending := rfl
@[simp] theorem updRing_regs (p r : Nat) (g : Ring → Ring) : (updRing s p r g).regs = s.regs := rfl
@[simp] theorem updRing_mem (p r : Nat) (g : Ring → Ring) : (updRing s p r g).mem = s.mem := rfl
@[simp] theorem updRing_errs (p r : Nat) (g : Ring → Ring) : (updRing s p r g).errs = s.errs := rfl
@[simp] theorem updRing_seen (p r : Nat) (g : Ring → Ring) : (updRing s p r g).seen = s.seen := rfl
@[simp] theorem updRing_repairCur (p r : Nat) (g : Ring → Ring) : (updRing s p r g).repairCur = s.repairCur := rfl
@[simp] theorem updRing_jw (p r : Nat) (g : Ring → Ring) : (updRing s p r g).jw = s.jw := rfl
@[simp] theorem updRing_jwRej (p r : Nat) (g : Ring → Ring) : (updRing s p r g).jwRej = s.jwRej := rfl
@[simp] theorem updRing_outDie (p r : Nat) (g : Ring → Ring) : (updRing s p r g).outDie = s.outDie := rfl
@[simp] theorem updRing_outPkg (p r : Nat) (g : Ring → Ring) : (updRing s p r g).outPkg = s.outPkg := rfl
@[simp] theorem updRing_pkgShut (p r : Nat) (g : Ring → Ring) : (updRing s p r g).pkgShut = s.pkgShut := rfl
@[simp] theorem updRing_hot (p r : Nat) (g : Ring → Ring) : (updRing s p r g).hot = s.hot := rfl
@[simp] theorem updRing_bankNext (p r : Nat) (g : Ring → Ring) : (updRing s p r g).bankNext = s.bankNext := rfl
@[simp] theorem updRing_census (p r : Nat) (g : Ring → Ring) : (updRing s p r g).census = s.census := rfl
@[simp] theorem updRing_dies (p r : Nat) (g : Ring → Ring) : (updRing s p r g).dies = s.dies := rfl
@[simp] theorem updRing_tiles (p r : Nat) (g : Ring → Ring) : (updRing s p r g).tiles = s.tiles := rfl
@[simp] theorem updRing_queues (p r : Nat) (g : Ring → Ring) : (updRing s p r g).queues = s.queues := rfl
@[simp] theorem updRing_served (p r : Nat) (g : Ring → Ring) : (updRing s p r g).served = s.served := rfl
@[simp] theorem updRing_waking (p r : Nat) (g : Ring → Ring) : (updRing s p r g).waking = s.waking := rfl
@[simp] theorem updRing_edges (p r : Nat) (g : Ring → Ring) : (updRing s p r g).edges = s.edges := rfl
@[simp] theorem updRing_oe (p r : Nat) (g : Ring → Ring) : (updRing s p r g).oe = s.oe := rfl
@[simp] theorem updRing_groups (p r : Nat) (g : Ring → Ring) : (updRing s p r g).groups = s.groups := rfl
@[simp] theorem updRing_planOf (p r : Nat) (g : Ring → Ring) : (updRing s p r g).planOf = s.planOf := rfl
@[simp] theorem updRing_jobs (p r : Nat) (g : Ring → Ring) : (updRing s p r g).jobs = s.jobs := rfl
@[simp] theorem updRing_rtHdr (p r : Nat) (g : Ring → Ring) : (updRing s p r g).rtHdr = s.rtHdr := rfl
@[simp] theorem updRing_rtEnt (p r : Nat) (g : Ring → Ring) : (updRing s p r g).rtEnt = s.rtEnt := rfl
@[simp] theorem updRing_inject (p r : Nat) (g : Ring → Ring) : (updRing s p r g).inject = s.inject := rfl
@[simp] theorem updRing_inbox (p r : Nat) (g : Ring → Ring) : (updRing s p r g).inbox = s.inbox := rfl
@[simp] theorem updRing_arrived (p r : Nat) (g : Ring → Ring) : (updRing s p r g).arrived = s.arrived := rfl
@[simp] theorem updRing_outq (p r : Nat) (g : Ring → Ring) : (updRing s p r g).outq = s.outq := rfl
@[simp] theorem updRing_tx (p r : Nat) (g : Ring → Ring) : (updRing s p r g).tx = s.tx := rfl
@[simp] theorem updRing_links (p r : Nat) (g : Ring → Ring) : (updRing s p r g).links = s.links := rfl
@[simp] theorem updRing_sidestep (p r : Nat) (g : Ring → Ring) : (updRing s p r g).sidestep = s.sidestep := rfl
@[simp] theorem updRing_nbrUp (p r : Nat) (g : Ring → Ring) : (updRing s p r g).nbrUp = s.nbrUp := rfl
@[simp] theorem updRing_ft (p r : Nat) (g : Ring → Ring) : (updRing s p r g).ft = s.ft := rfl
@[simp] theorem updRing_remote (p r : Nat) (g : Ring → Ring) : (updRing s p r g).remote = s.remote := rfl
@[simp] theorem updRing_geysers (p r : Nat) (g : Ring → Ring) : (updRing s p r g).geysers = s.geysers := rfl
@[simp] theorem updRing_credits (p r : Nat) (g : Ring → Ring) : (updRing s p r g).credits = s.credits := rfl
@[simp] theorem updRing_cqs (p r : Nat) (g : Ring → Ring) : (updRing s p r g).cqs = s.cqs := rfl
@[simp] theorem updRing_starts (p r : Nat) (g : Ring → Ring) : (updRing s p r g).starts = s.starts := rfl
@[simp] theorem updRing_grants (p r : Nat) (g : Ring → Ring) : (updRing s p r g).grants = s.grants := rfl
@[simp] theorem updRing_cports (p r : Nat) (g : Ring → Ring) : (updRing s p r g).cports = s.cports := rfl
@[simp] theorem updRing_msixTab (p r : Nat) (g : Ring → Ring) : (updRing s p r g).msixTab = s.msixTab := rfl
@[simp] theorem updRing_msixPend (p r : Nat) (g : Ring → Ring) : (updRing s p r g).msixPend = s.msixPend := rfl
@[simp] theorem updRing_hostOut (p r : Nat) (g : Ring → Ring) : (updRing s p r g).hostOut = s.hostOut := rfl
@[simp] theorem updRing_barWait (p r : Nat) (g : Ring → Ring) : (updRing s p r g).barWait = s.barWait := rfl
@[simp] theorem updRing_msix (p r : Nat) (g : Ring → Ring) : (updRing s p r g).msix = s.msix := rfl
@[simp] theorem updRing_resp (p r : Nat) (g : Ring → Ring) : (updRing s p r g).resp = s.resp := rfl
@[simp] theorem updRing_due (p r : Nat) (g : Ring → Ring) : (updRing s p r g).due = s.due := rfl
@[simp] theorem updRing_log (p r : Nat) (g : Ring → Ring) : (updRing s p r g).log = s.log := rfl
@[simp] theorem updRing_logCap (p r : Nat) (g : Ring → Ring) : (updRing s p r g).logCap = s.logCap := rfl
@[simp] theorem updRing_alertQ (p r : Nat) (g : Ring → Ring) : (updRing s p r g).alertQ = s.alertQ := rfl
@[simp] theorem updRing_ibis (p r : Nat) (g : Ring → Ring) : (updRing s p r g).ibis = s.ibis := rfl
@[simp] theorem updRing_resets (p r : Nat) (g : Ring → Ring) : (updRing s p r g).resets = s.resets := rfl
@[simp] theorem updRing_restarts (p r : Nat) (g : Ring → Ring) : (updRing s p r g).restarts = s.restarts := rfl
@[simp] theorem updRing_aborts (p r : Nat) (g : Ring → Ring) : (updRing s p r g).aborts = s.aborts := rfl
@[simp] theorem updRing_lobeIdle (p r : Nat) (g : Ring → Ring) : (updRing s p r g).lobeIdle = s.lobeIdle := rfl
@[simp] theorem updRing_heldPower (p r : Nat) (g : Ring → Ring) : (updRing s p r g).heldPower = s.heldPower := rfl
@[simp] theorem updRing_enterPower (p r : Nat) (g : Ring → Ring) : (updRing s p r g).enterPower = s.enterPower := rfl
@[simp] theorem updRing_shutoff (p r : Nat) (g : Ring → Ring) : (updRing s p r g).shutoff = s.shutoff := rfl
@[simp] theorem updRing_limSteps (p r : Nat) (g : Ring → Ring) : (updRing s p r g).limSteps = s.limSteps := rfl
@[simp] theorem updRing_tests (p r : Nat) (g : Ring → Ring) : (updRing s p r g).tests = s.tests := rfl
@[simp] theorem updRing_nextTest (p r : Nat) (g : Ring → Ring) : (updRing s p r g).nextTest = s.nextTest := rfl
@[simp] theorem updRing_pairTest (p r : Nat) (g : Ring → Ring) : (updRing s p r g).pairTest = s.pairTest := rfl
@[simp] theorem updRing_mr (p r : Nat) (g : Ring → Ring) : (updRing s p r g).mr = s.mr := rfl
@[simp] theorem updRing_bootId (p r : Nat) (g : Ring → Ring) : (updRing s p r g).bootId = s.bootId := rfl
@[simp] theorem updRing_akSeed (p r : Nat) (g : Ring → Ring) : (updRing s p r g).akSeed = s.akSeed := rfl
@[simp] theorem updRing_records (p r : Nat) (g : Ring → Ring) : (updRing s p r g).records = s.records := rfl
@[simp] theorem updRing_seg (p r : Nat) (g : Ring → Ring) : (updRing s p r g).seg = s.seg := rfl
@[simp] theorem updRing_flash (p r : Nat) (g : Ring → Ring) : (updRing s p r g).flash = s.flash := rfl
@[simp] theorem updRing_boot (p r : Nat) (g : Ring → Ring) : (updRing s p r g).boot = s.boot := rfl
@[simp] theorem updRing_eruptT (p r : Nat) (g : Ring → Ring) : (updRing s p r g).eruptT = s.eruptT := rfl
@[simp] theorem updRing_pairPol (p r : Nat) (g : Ring → Ring) : (updRing s p r g).pairPol = s.pairPol := rfl
@[simp] theorem updRing_pins (p r : Nat) (g : Ring → Ring) : (updRing s p r g).pins = s.pins := rfl
@[simp] theorem updRing_jtag (p r : Nat) (g : Ring → Ring) : (updRing s p r g).jtag = s.jtag := rfl
@[simp] theorem updRing_clock (p r : Nat) (g : Ring → Ring) : (updRing s p r g).clock = s.clock := rfl
@[simp] theorem updRing_upTime (p r : Nat) (g : Ring → Ring) : (updRing s p r g).upTime = s.upTime := rfl
@[simp] theorem updRing_downTime (p r : Nat) (g : Ring → Ring) : (updRing s p r g).downTime = s.downTime := rfl
@[simp] theorem updRing_tremor (p r : Nat) (g : Ring → Ring) : (updRing s p r g).tremor = s.tremor := rfl
@[simp] theorem updRing_bar4Size (p r : Nat) (g : Ring → Ring) : (updRing s p r g).bar4Size = s.bar4Size := rfl
@[simp] theorem updRing_free (p r : Nat) (g : Ring → Ring) : (updRing s p r g).free = s.free := rfl

/-! ### `updCPort` -/

@[simp] theorem updCPort_pending (p n : Nat) (g : CPort → CPort) : (updCPort s p n g).pending = s.pending := rfl
@[simp] theorem updCPort_regs (p n : Nat) (g : CPort → CPort) : (updCPort s p n g).regs = s.regs := rfl
@[simp] theorem updCPort_mem (p n : Nat) (g : CPort → CPort) : (updCPort s p n g).mem = s.mem := rfl
@[simp] theorem updCPort_errs (p n : Nat) (g : CPort → CPort) : (updCPort s p n g).errs = s.errs := rfl
@[simp] theorem updCPort_seen (p n : Nat) (g : CPort → CPort) : (updCPort s p n g).seen = s.seen := rfl
@[simp] theorem updCPort_repairCur (p n : Nat) (g : CPort → CPort) : (updCPort s p n g).repairCur = s.repairCur := rfl
@[simp] theorem updCPort_jw (p n : Nat) (g : CPort → CPort) : (updCPort s p n g).jw = s.jw := rfl
@[simp] theorem updCPort_jwRej (p n : Nat) (g : CPort → CPort) : (updCPort s p n g).jwRej = s.jwRej := rfl
@[simp] theorem updCPort_outDie (p n : Nat) (g : CPort → CPort) : (updCPort s p n g).outDie = s.outDie := rfl
@[simp] theorem updCPort_outPkg (p n : Nat) (g : CPort → CPort) : (updCPort s p n g).outPkg = s.outPkg := rfl
@[simp] theorem updCPort_pkgShut (p n : Nat) (g : CPort → CPort) : (updCPort s p n g).pkgShut = s.pkgShut := rfl
@[simp] theorem updCPort_hot (p n : Nat) (g : CPort → CPort) : (updCPort s p n g).hot = s.hot := rfl
@[simp] theorem updCPort_bankNext (p n : Nat) (g : CPort → CPort) : (updCPort s p n g).bankNext = s.bankNext := rfl
@[simp] theorem updCPort_census (p n : Nat) (g : CPort → CPort) : (updCPort s p n g).census = s.census := rfl
@[simp] theorem updCPort_dies (p n : Nat) (g : CPort → CPort) : (updCPort s p n g).dies = s.dies := rfl
@[simp] theorem updCPort_tiles (p n : Nat) (g : CPort → CPort) : (updCPort s p n g).tiles = s.tiles := rfl
@[simp] theorem updCPort_queues (p n : Nat) (g : CPort → CPort) : (updCPort s p n g).queues = s.queues := rfl
@[simp] theorem updCPort_served (p n : Nat) (g : CPort → CPort) : (updCPort s p n g).served = s.served := rfl
@[simp] theorem updCPort_waking (p n : Nat) (g : CPort → CPort) : (updCPort s p n g).waking = s.waking := rfl
@[simp] theorem updCPort_edges (p n : Nat) (g : CPort → CPort) : (updCPort s p n g).edges = s.edges := rfl
@[simp] theorem updCPort_oe (p n : Nat) (g : CPort → CPort) : (updCPort s p n g).oe = s.oe := rfl
@[simp] theorem updCPort_groups (p n : Nat) (g : CPort → CPort) : (updCPort s p n g).groups = s.groups := rfl
@[simp] theorem updCPort_planOf (p n : Nat) (g : CPort → CPort) : (updCPort s p n g).planOf = s.planOf := rfl
@[simp] theorem updCPort_jobs (p n : Nat) (g : CPort → CPort) : (updCPort s p n g).jobs = s.jobs := rfl
@[simp] theorem updCPort_rtHdr (p n : Nat) (g : CPort → CPort) : (updCPort s p n g).rtHdr = s.rtHdr := rfl
@[simp] theorem updCPort_rtEnt (p n : Nat) (g : CPort → CPort) : (updCPort s p n g).rtEnt = s.rtEnt := rfl
@[simp] theorem updCPort_inject (p n : Nat) (g : CPort → CPort) : (updCPort s p n g).inject = s.inject := rfl
@[simp] theorem updCPort_inbox (p n : Nat) (g : CPort → CPort) : (updCPort s p n g).inbox = s.inbox := rfl
@[simp] theorem updCPort_arrived (p n : Nat) (g : CPort → CPort) : (updCPort s p n g).arrived = s.arrived := rfl
@[simp] theorem updCPort_outq (p n : Nat) (g : CPort → CPort) : (updCPort s p n g).outq = s.outq := rfl
@[simp] theorem updCPort_tx (p n : Nat) (g : CPort → CPort) : (updCPort s p n g).tx = s.tx := rfl
@[simp] theorem updCPort_links (p n : Nat) (g : CPort → CPort) : (updCPort s p n g).links = s.links := rfl
@[simp] theorem updCPort_sidestep (p n : Nat) (g : CPort → CPort) : (updCPort s p n g).sidestep = s.sidestep := rfl
@[simp] theorem updCPort_nbrUp (p n : Nat) (g : CPort → CPort) : (updCPort s p n g).nbrUp = s.nbrUp := rfl
@[simp] theorem updCPort_ft (p n : Nat) (g : CPort → CPort) : (updCPort s p n g).ft = s.ft := rfl
@[simp] theorem updCPort_remote (p n : Nat) (g : CPort → CPort) : (updCPort s p n g).remote = s.remote := rfl
@[simp] theorem updCPort_geysers (p n : Nat) (g : CPort → CPort) : (updCPort s p n g).geysers = s.geysers := rfl
@[simp] theorem updCPort_credits (p n : Nat) (g : CPort → CPort) : (updCPort s p n g).credits = s.credits := rfl
@[simp] theorem updCPort_cqs (p n : Nat) (g : CPort → CPort) : (updCPort s p n g).cqs = s.cqs := rfl
@[simp] theorem updCPort_starts (p n : Nat) (g : CPort → CPort) : (updCPort s p n g).starts = s.starts := rfl
@[simp] theorem updCPort_grants (p n : Nat) (g : CPort → CPort) : (updCPort s p n g).grants = s.grants := rfl
@[simp] theorem updCPort_rings (p n : Nat) (g : CPort → CPort) : (updCPort s p n g).rings = s.rings := rfl
@[simp] theorem updCPort_msixTab (p n : Nat) (g : CPort → CPort) : (updCPort s p n g).msixTab = s.msixTab := rfl
@[simp] theorem updCPort_msixPend (p n : Nat) (g : CPort → CPort) : (updCPort s p n g).msixPend = s.msixPend := rfl
@[simp] theorem updCPort_hostOut (p n : Nat) (g : CPort → CPort) : (updCPort s p n g).hostOut = s.hostOut := rfl
@[simp] theorem updCPort_barWait (p n : Nat) (g : CPort → CPort) : (updCPort s p n g).barWait = s.barWait := rfl
@[simp] theorem updCPort_msix (p n : Nat) (g : CPort → CPort) : (updCPort s p n g).msix = s.msix := rfl
@[simp] theorem updCPort_resp (p n : Nat) (g : CPort → CPort) : (updCPort s p n g).resp = s.resp := rfl
@[simp] theorem updCPort_due (p n : Nat) (g : CPort → CPort) : (updCPort s p n g).due = s.due := rfl
@[simp] theorem updCPort_log (p n : Nat) (g : CPort → CPort) : (updCPort s p n g).log = s.log := rfl
@[simp] theorem updCPort_logCap (p n : Nat) (g : CPort → CPort) : (updCPort s p n g).logCap = s.logCap := rfl
@[simp] theorem updCPort_alertQ (p n : Nat) (g : CPort → CPort) : (updCPort s p n g).alertQ = s.alertQ := rfl
@[simp] theorem updCPort_ibis (p n : Nat) (g : CPort → CPort) : (updCPort s p n g).ibis = s.ibis := rfl
@[simp] theorem updCPort_resets (p n : Nat) (g : CPort → CPort) : (updCPort s p n g).resets = s.resets := rfl
@[simp] theorem updCPort_restarts (p n : Nat) (g : CPort → CPort) : (updCPort s p n g).restarts = s.restarts := rfl
@[simp] theorem updCPort_aborts (p n : Nat) (g : CPort → CPort) : (updCPort s p n g).aborts = s.aborts := rfl
@[simp] theorem updCPort_lobeIdle (p n : Nat) (g : CPort → CPort) : (updCPort s p n g).lobeIdle = s.lobeIdle := rfl
@[simp] theorem updCPort_heldPower (p n : Nat) (g : CPort → CPort) : (updCPort s p n g).heldPower = s.heldPower := rfl
@[simp] theorem updCPort_enterPower (p n : Nat) (g : CPort → CPort) : (updCPort s p n g).enterPower = s.enterPower := rfl
@[simp] theorem updCPort_shutoff (p n : Nat) (g : CPort → CPort) : (updCPort s p n g).shutoff = s.shutoff := rfl
@[simp] theorem updCPort_limSteps (p n : Nat) (g : CPort → CPort) : (updCPort s p n g).limSteps = s.limSteps := rfl
@[simp] theorem updCPort_tests (p n : Nat) (g : CPort → CPort) : (updCPort s p n g).tests = s.tests := rfl
@[simp] theorem updCPort_nextTest (p n : Nat) (g : CPort → CPort) : (updCPort s p n g).nextTest = s.nextTest := rfl
@[simp] theorem updCPort_pairTest (p n : Nat) (g : CPort → CPort) : (updCPort s p n g).pairTest = s.pairTest := rfl
@[simp] theorem updCPort_mr (p n : Nat) (g : CPort → CPort) : (updCPort s p n g).mr = s.mr := rfl
@[simp] theorem updCPort_bootId (p n : Nat) (g : CPort → CPort) : (updCPort s p n g).bootId = s.bootId := rfl
@[simp] theorem updCPort_akSeed (p n : Nat) (g : CPort → CPort) : (updCPort s p n g).akSeed = s.akSeed := rfl
@[simp] theorem updCPort_records (p n : Nat) (g : CPort → CPort) : (updCPort s p n g).records = s.records := rfl
@[simp] theorem updCPort_seg (p n : Nat) (g : CPort → CPort) : (updCPort s p n g).seg = s.seg := rfl
@[simp] theorem updCPort_flash (p n : Nat) (g : CPort → CPort) : (updCPort s p n g).flash = s.flash := rfl
@[simp] theorem updCPort_boot (p n : Nat) (g : CPort → CPort) : (updCPort s p n g).boot = s.boot := rfl
@[simp] theorem updCPort_eruptT (p n : Nat) (g : CPort → CPort) : (updCPort s p n g).eruptT = s.eruptT := rfl
@[simp] theorem updCPort_pairPol (p n : Nat) (g : CPort → CPort) : (updCPort s p n g).pairPol = s.pairPol := rfl
@[simp] theorem updCPort_pins (p n : Nat) (g : CPort → CPort) : (updCPort s p n g).pins = s.pins := rfl
@[simp] theorem updCPort_jtag (p n : Nat) (g : CPort → CPort) : (updCPort s p n g).jtag = s.jtag := rfl
@[simp] theorem updCPort_clock (p n : Nat) (g : CPort → CPort) : (updCPort s p n g).clock = s.clock := rfl
@[simp] theorem updCPort_upTime (p n : Nat) (g : CPort → CPort) : (updCPort s p n g).upTime = s.upTime := rfl
@[simp] theorem updCPort_downTime (p n : Nat) (g : CPort → CPort) : (updCPort s p n g).downTime = s.downTime := rfl
@[simp] theorem updCPort_tremor (p n : Nat) (g : CPort → CPort) : (updCPort s p n g).tremor = s.tremor := rfl
@[simp] theorem updCPort_bar4Size (p n : Nat) (g : CPort → CPort) : (updCPort s p n g).bar4Size = s.bar4Size := rfl
@[simp] theorem updCPort_free (p n : Nat) (g : CPort → CPort) : (updCPort s p n g).free = s.free := rfl

/-! ### `raise` -/

@[simp] theorem raise_pending (e : Event) : (raise s e).pending = s.pending := rfl
@[simp] theorem raise_regs (e : Event) : (raise s e).regs = s.regs := rfl
@[simp] theorem raise_mem (e : Event) : (raise s e).mem = s.mem := rfl
@[simp] theorem raise_errs (e : Event) : (raise s e).errs = s.errs := rfl
@[simp] theorem raise_seen (e : Event) : (raise s e).seen = s.seen := rfl
@[simp] theorem raise_repairCur (e : Event) : (raise s e).repairCur = s.repairCur := rfl
@[simp] theorem raise_jw (e : Event) : (raise s e).jw = s.jw := rfl
@[simp] theorem raise_jwRej (e : Event) : (raise s e).jwRej = s.jwRej := rfl
@[simp] theorem raise_outDie (e : Event) : (raise s e).outDie = s.outDie := rfl
@[simp] theorem raise_outPkg (e : Event) : (raise s e).outPkg = s.outPkg := rfl
@[simp] theorem raise_pkgShut (e : Event) : (raise s e).pkgShut = s.pkgShut := rfl
@[simp] theorem raise_hot (e : Event) : (raise s e).hot = s.hot := rfl
@[simp] theorem raise_bankNext (e : Event) : (raise s e).bankNext = s.bankNext := rfl
@[simp] theorem raise_census (e : Event) : (raise s e).census = s.census := rfl
@[simp] theorem raise_dies (e : Event) : (raise s e).dies = s.dies := rfl
@[simp] theorem raise_tiles (e : Event) : (raise s e).tiles = s.tiles := rfl
@[simp] theorem raise_queues (e : Event) : (raise s e).queues = s.queues := rfl
@[simp] theorem raise_served (e : Event) : (raise s e).served = s.served := rfl
@[simp] theorem raise_waking (e : Event) : (raise s e).waking = s.waking := rfl
@[simp] theorem raise_edges (e : Event) : (raise s e).edges = s.edges := rfl
@[simp] theorem raise_oe (e : Event) : (raise s e).oe = s.oe := rfl
@[simp] theorem raise_groups (e : Event) : (raise s e).groups = s.groups := rfl
@[simp] theorem raise_planOf (e : Event) : (raise s e).planOf = s.planOf := rfl
@[simp] theorem raise_jobs (e : Event) : (raise s e).jobs = s.jobs := rfl
@[simp] theorem raise_rtHdr (e : Event) : (raise s e).rtHdr = s.rtHdr := rfl
@[simp] theorem raise_rtEnt (e : Event) : (raise s e).rtEnt = s.rtEnt := rfl
@[simp] theorem raise_inject (e : Event) : (raise s e).inject = s.inject := rfl
@[simp] theorem raise_inbox (e : Event) : (raise s e).inbox = s.inbox := rfl
@[simp] theorem raise_arrived (e : Event) : (raise s e).arrived = s.arrived := rfl
@[simp] theorem raise_outq (e : Event) : (raise s e).outq = s.outq := rfl
@[simp] theorem raise_tx (e : Event) : (raise s e).tx = s.tx := rfl
@[simp] theorem raise_links (e : Event) : (raise s e).links = s.links := rfl
@[simp] theorem raise_sidestep (e : Event) : (raise s e).sidestep = s.sidestep := rfl
@[simp] theorem raise_nbrUp (e : Event) : (raise s e).nbrUp = s.nbrUp := rfl
@[simp] theorem raise_ft (e : Event) : (raise s e).ft = s.ft := rfl
@[simp] theorem raise_remote (e : Event) : (raise s e).remote = s.remote := rfl
@[simp] theorem raise_geysers (e : Event) : (raise s e).geysers = s.geysers := rfl
@[simp] theorem raise_credits (e : Event) : (raise s e).credits = s.credits := rfl
@[simp] theorem raise_cqs (e : Event) : (raise s e).cqs = s.cqs := rfl
@[simp] theorem raise_starts (e : Event) : (raise s e).starts = s.starts := rfl
@[simp] theorem raise_grants (e : Event) : (raise s e).grants = s.grants := rfl
@[simp] theorem raise_rings (e : Event) : (raise s e).rings = s.rings := rfl
@[simp] theorem raise_cports (e : Event) : (raise s e).cports = s.cports := rfl
@[simp] theorem raise_msixTab (e : Event) : (raise s e).msixTab = s.msixTab := rfl
@[simp] theorem raise_msixPend (e : Event) : (raise s e).msixPend = s.msixPend := rfl
@[simp] theorem raise_hostOut (e : Event) : (raise s e).hostOut = s.hostOut := rfl
@[simp] theorem raise_barWait (e : Event) : (raise s e).barWait = s.barWait := rfl
@[simp] theorem raise_msix (e : Event) : (raise s e).msix = s.msix := rfl
@[simp] theorem raise_resp (e : Event) : (raise s e).resp = s.resp := rfl
@[simp] theorem raise_log (e : Event) : (raise s e).log = s.log := rfl
@[simp] theorem raise_logCap (e : Event) : (raise s e).logCap = s.logCap := rfl
@[simp] theorem raise_alertQ (e : Event) : (raise s e).alertQ = s.alertQ := rfl
@[simp] theorem raise_ibis (e : Event) : (raise s e).ibis = s.ibis := rfl
@[simp] theorem raise_resets (e : Event) : (raise s e).resets = s.resets := rfl
@[simp] theorem raise_restarts (e : Event) : (raise s e).restarts = s.restarts := rfl
@[simp] theorem raise_aborts (e : Event) : (raise s e).aborts = s.aborts := rfl
@[simp] theorem raise_lobeIdle (e : Event) : (raise s e).lobeIdle = s.lobeIdle := rfl
@[simp] theorem raise_heldPower (e : Event) : (raise s e).heldPower = s.heldPower := rfl
@[simp] theorem raise_enterPower (e : Event) : (raise s e).enterPower = s.enterPower := rfl
@[simp] theorem raise_shutoff (e : Event) : (raise s e).shutoff = s.shutoff := rfl
@[simp] theorem raise_limSteps (e : Event) : (raise s e).limSteps = s.limSteps := rfl
@[simp] theorem raise_tests (e : Event) : (raise s e).tests = s.tests := rfl
@[simp] theorem raise_nextTest (e : Event) : (raise s e).nextTest = s.nextTest := rfl
@[simp] theorem raise_pairTest (e : Event) : (raise s e).pairTest = s.pairTest := rfl
@[simp] theorem raise_mr (e : Event) : (raise s e).mr = s.mr := rfl
@[simp] theorem raise_bootId (e : Event) : (raise s e).bootId = s.bootId := rfl
@[simp] theorem raise_akSeed (e : Event) : (raise s e).akSeed = s.akSeed := rfl
@[simp] theorem raise_records (e : Event) : (raise s e).records = s.records := rfl
@[simp] theorem raise_seg (e : Event) : (raise s e).seg = s.seg := rfl
@[simp] theorem raise_flash (e : Event) : (raise s e).flash = s.flash := rfl
@[simp] theorem raise_boot (e : Event) : (raise s e).boot = s.boot := rfl
@[simp] theorem raise_eruptT (e : Event) : (raise s e).eruptT = s.eruptT := rfl
@[simp] theorem raise_pairPol (e : Event) : (raise s e).pairPol = s.pairPol := rfl
@[simp] theorem raise_pins (e : Event) : (raise s e).pins = s.pins := rfl
@[simp] theorem raise_jtag (e : Event) : (raise s e).jtag = s.jtag := rfl
@[simp] theorem raise_clock (e : Event) : (raise s e).clock = s.clock := rfl
@[simp] theorem raise_upTime (e : Event) : (raise s e).upTime = s.upTime := rfl
@[simp] theorem raise_downTime (e : Event) : (raise s e).downTime = s.downTime := rfl
@[simp] theorem raise_tremor (e : Event) : (raise s e).tremor = s.tremor := rfl
@[simp] theorem raise_bar4Size (e : Event) : (raise s e).bar4Size = s.bar4Size := rfl
@[simp] theorem raise_free (e : Event) : (raise s e).free = s.free := rfl

/-! ### Reads after writes -/

/-- A field reads back what was written to it, cut to its width. -/
@[simp] theorem rg_wg_same (slot : Nat) (f : Fld) (v : Nat) :
    rg (wg s slot f v) slot f = v % 2 ^ f.w := mget_mset_same _ _ _ _

/-- A field at another place is left alone. -/
theorem rg_wg_other {a b : Nat} {f g : Fld} (v : Nat) (h : fkey a f ≠ fkey b g) :
    rg (wg s b g v) a f = rg s a f := by
  simp only [rg, wg, mset]
  split
  · exact mget_mdel_other _ _ h
  · exact mget_mins_other _ _ _ h

/-- A field that takes a value that is not known reads it back. -/
@[simp] theorem rg_wgFree_same (slot : Nat) (f : Fld) (v : Nat) :
    rg (wgFree s slot f v) slot f = v % 2 ^ f.w := mget_mins_same _ _ _ _

/-- A field at another place is left alone. -/
theorem rg_wgFree_other {a b : Nat} {f g : Fld} (v : Nat) (h : fkey a f ≠ fkey b g) :
    rg (wgFree s b g v) a f = rg s a f := mget_mins_other _ _ _ h

/-- A register field depends on the field store alone. -/
theorem rg_congr {a b : State} (h : a.regs = b.regs) (slot : Nat) (f : Fld) :
    rg a slot f = rg b slot f := by simp only [rg, h]

/-- A byte reads back what was written to it. -/
@[simp] theorem rdByte_wrByte_same (a : Nat) (b : Byte) : rdByte (wrByte s a b) a = b :=
  mget_mset_same _ _ _ _

/-- A byte at another address is left alone. -/
theorem rdByte_wrByte_other {a c : Nat} (b : Byte) (h : c ≠ a) :
    rdByte (wrByte s a b) c = rdByte s c := mget_mset_other _ _ _ h

/-- Storing bytes changes memory alone. -/
theorem wrBytes_eq (a : Nat) (bs : List Byte) :
    wrBytes s a bs = { s with mem := (wrBytes s a bs).mem } := by
  induction bs generalizing s a with
  | nil => rfl
  | cons b bs ih => exact (ih (wrByte s a b) (a + 1)).trans rfl

/-- Storing bytes leaves every byte outside them alone. -/
theorem rdByte_wrBytes_outside (a : Nat) (bs : List Byte) {c : Nat}
    (h : c < a ∨ a + bs.length ≤ c) : rdByte (wrBytes s a bs) c = rdByte s c := by
  induction bs generalizing s a with
  | nil => rfl
  | cons b bs ih =>
    simp only [List.length_cons] at h
    exact (ih (wrByte s a b) (a + 1) (by omega)).trans
      (rdByte_wrByte_other s b (by omega))

/-- A stored byte reads back. -/
theorem rdByte_wrBytes_inside (a : Nat) (bs : List Byte) {i : Nat} (h : i < bs.length) :
    rdByte (wrBytes s a bs) (a + i) = bs[i] := by
  induction bs generalizing s a i with
  | nil => simp at h
  | cons b bs ih =>
    cases i with
    | zero =>
      exact (rdByte_wrBytes_outside (wrByte s a b) (a + 1) bs (by omega)).trans
        (rdByte_wrByte_same s a b)
    | succ i =>
      have := ih (wrByte s a b) (a + 1) (i := i) (by simpa using h)
      simpa [wrBytes, Nat.add_assoc, Nat.add_comm 1 i] using this

@[simp] theorem die_setDie_same (d : Nat) (x : DieSt) : die (setDie s d x) d = x :=
  mget_mset_same _ _ _ _
theorem die_setDie_other {c d : Nat} (x : DieSt) (h : c ≠ d) : die (setDie s d x) c = die s c :=
  mget_mset_other _ _ _ h
@[simp] theorem linkOf_setLink_same (p : Nat) (x : Link) : linkOf (setLink s p x) p = x :=
  mget_mset_same _ _ _ _
theorem linkOf_setLink_other {p q : Nat} (x : Link) (h : q ≠ p) :
    linkOf (setLink s p x) q = linkOf s q := mget_mset_other _ _ _ h
@[simp] theorem jobOf_setJob_same (j : Nat) (x : Job) : jobOf (setJob s j x) j = x :=
  mget_mset_same _ _ _ _
theorem jobOf_setJob_other {j k : Nat} (x : Job) (h : k ≠ j) :
    jobOf (setJob s j x) k = jobOf s k := mget_mset_other _ _ _ h
@[simp] theorem geyser_updGeyser_same (h : Nat) (g : Geyser → Geyser) :
    geyser (updGeyser s h g) h = g (geyser s h) := mget_mset_same _ _ _ _
@[simp] theorem cqOf_updCq_same (q : Nat) (g : Cq → Cq) :
    cqOf (updCq s q g) q = g (cqOf s q) := mget_mset_same _ _ _ _
theorem cqOf_updCq_other {q r : Nat} (g : Cq → Cq) (h : r ≠ q) :
    cqOf (updCq s q g) r = cqOf s r := mget_mset_other _ _ _ h
@[simp] theorem ringOf_updRing_same (p r : Nat) (g : Ring → Ring) :
    ringOf (updRing s p r g) p r = g (ringOf s p r) := mget_mset_same _ _ _ _
@[simp] theorem cportOf_updCPort_same (p n : Nat) (g : CPort → CPort) :
    cportOf (updCPort s p n g) p n = g (cportOf s p n) := mget_mset_same _ _ _ _
@[simp] theorem edgeSide_setEdgeSide_same (e : EdgeEnd) (x : EdgeSide) :
    edgeSide (setEdgeSide s e x) e = x := mget_mset_same _ _ _ _
@[simp] theorem tileOf_setTile_same (d c n : Nat) (x : Tile) :
    tileOf (setTile s d c n x) d c n = x := mget_mset_same _ _ _ _
@[simp] theorem queueOf_setQueue_same (d c : Nat) (q : List Nat) :
    queueOf (setQueue s d c q) d c = q := mget_mset_same _ _ _ _

end Sys2Proof.Machine
end

