-- ==== Sys2Proof/WellFormed.lean ====
section
/-!
DEFINITION. What makes a command well formed beyond its operands' types: widths of header fields,
lengths of lists, alignment of sector addresses.
-/

namespace Sys2Proof

/-- Every header field fits its width (R231), and the payload is at most 32 flits of 64 bytes. -/
def packetWf (p : Packet) : Bool :=
  p.type < 16 && p.blk < 4 && p.len < 64 && p.dest < 2 ^ 16 && p.src < 2 ^ 16 && p.job < 2 ^ 12 &&
  p.epoch < 256 && p.status < 256 && p.group < 2 ^ 10 && p.bucket < 2 ^ 16 && p.chunk < 2 ^ 16 &&
  p.node < 2 ^ 16 && p.tag < 2 ^ 16 && p.addr < 2 ^ 48 &&
  p.bytes < 2 ^ 11 && p.rseq < 2 ^ 16 && p.exps.length ≤ 32 && p.payload.length ≤ 2048

/-- The packets of a flit's header are well formed. -/
def flitWf : Flit → Bool
  | .head p => packetWf p
  | .body _ => true
  | .link _ => true

/-- A codeword fills its slots: four, or one on the fumarole lane; idle and NAK codewords carry no flit
(R228). -/
def codewordWf (cw : Codeword) : Bool :=
  cw.seq < 2 ^ 14 && cw.ack < 2 ^ 14 && cw.pad < 4 && cw.flits.all flitWf &&
  (if cw.kind = .data then cw.flits.length + cw.pad == (if cw.fum then 1 else 4) else cw.flits.isEmpty)

/-- The masks of a training result lie in the group's eight lanes. -/
def resultWf (r : GroupResult) : Bool := r.tx < 256 && r.rx < 256

/-- The masks of a group's recalibration lie in its eight lanes. -/
def recalWf : RecalEnd → Bool
  | .bundle .. => true
  | .group _ tx rx => tx < 256 && rx < 256

/-- Is the command well formed? -/
def wellFormed : Instr → Bool
  | .cmdNop _ _ width => 0 < width
  | .cmdDma _ _ width => 0 < width
  | .cmdSeqRun _ _ width => 0 < width
  | .cmdAbort _ _ width => 0 < width
  | .cmdTest _ _ width => 0 < width
  | .cmdWaitFault _ _ width => 0 < width
  | .queuePostHost _ _ width => 0 < width
  | .bar4Read _ _ len => 0 < len
  | .bar4Write _ _ data => !data.isEmpty
  | .sectorRead addr _ symbols => addr % 32 == 0 && symbols.length ≤ 8
  | .sectorWrite addr x _ => !x.bytes.isEmpty && addr % 32 + x.bytes.length ≤ 32 && x.mask < 2 ^ 32
  | .scrubRead addr _ => addr % 32 == 0
  | .dataFlitReceive _ _ f => f.cols.length == 64 && f.cols.all (· < 2 ^ 34) && f.job < 4096
  | .controlFlitReceive _ _ f => f.payload < 2 ^ 192 && f.crc < 2 ^ 32
  | .oeAdmission _ a => a.descriptor.all (fun d => d.length == 256) && a.light.length == 8
  | .laserMonitor _ power => power.length == 8
  | .groupTrainingComplete _ r => resultWf r
  | .groupRetrainComplete _ r => resultWf r
  | .routerPacketEnter _ p => packetWf p
  | .codewordReceive _ cw => codewordWf cw
  | .adminReceive _ up => up < 64
  | .remoteLoad p => packetWf p
  | .remoteStore p => packetWf p
  | .remoteFetchAdd p => packetWf p
  | .remoteResponse p => packetWf p
  | .nackReceive p => packetWf p
  | .eruptReceive p => packetWf p
  | .redChunkReceive _ x => packetWf x.pkt
  | .resvGrantReceive x => packetWf x.pkt
  | .resvCreditReceive x => packetWf x.pkt
  | .ctsReceive p => packetWf p
  | .msgDataReceive p => packetWf p
  | .msgDoneReceive p => packetWf p
  | .msgResultReceive p => packetWf p
  | .fumReceive p => packetWf p
  | .strapSample s => s.meshX < 64 && s.meshY < 64 && s.meshZ < 16 && s.shape < 4 && s.plan < 8
  | .pldmFirmwareUpdate _ x => x.last || !x.bytes.isEmpty
  | .groupLightRecheck _ power => power.length == 4
  | .registerWrite _ _ _ _ _ => true
  | .racRead _ _ _ => true
  | .bar0BadAccess _ _ _ _ => true
  | .lobeModeWrite _ _ => true
  | .censusSnap _ _ _ => true
  | .censusClear _ _ => true
  | .censusOpDone _ => true
  | .seqStart _ _ _ => true
  | .seqStop _ _ _ => true
  | .digClear _ _ _ => true
  | .jwCtlWrite _ _ => true
  | .memSplitWrite _ _ => true
  | .mapoutReqWrite _ _ => true
  | .oeRetry _ _ => true
  | .jobDataWrite _ _ => true
  | .rtDataWrite _ _ => true
  | .gqQuotaWrite _ _ _ => true
  | .queueEnable _ _ _ => true
  | .queueDisable _ _ _ => true
  | .portCfgWrite _ _ _ => true
  | .ringCfgWrite _ _ _ => true
  | .ringHeadWrite _ _ _ => true
  | .resetReq _ _ => true
  | .powerReqP0 _ => true
  | .powerReqP2 _ _ => true
  | .powerReqP3 _ => true
  | .powerReqP4 _ => true
  | .mrExtend _ _ => true
  | .faultInject _ _ => true
  | .logCapture _ _ => true
  | .ftLoRead _ => true
  | .segOpen _ => true
  | .segPeriodic _ => true
  | .segCheckpoint _ => true
  | .segClose _ => true
  | .segState _ => true
  | .segmentComplete => true
  | .taskDispatch _ => true
  | .taskTake _ _ _ => true
  | .taskComplete _ _ _ => true
  | .tileClockGate _ _ _ => true
  | .clusterGroupGate _ _ => true
  | .clusterGroupReady _ _ => true
  | .tileRestart _ _ _ => true
  | .rotationStart _ => true
  | .rotationComplete _ => true
  | .onlineTestPassEnd _ _ => true
  | .clusterFence _ _ => true
  | .phaseStart _ => true
  | .phaseAttemptEnd _ _ => true
  | .phaseComplete _ _ => true
  | .stepEnd _ => true
  | .leafTake _ _ => true
  | .crossDieDepSignal _ _ _ => true
  | .mirrorExchangeReceive _ _ => true
  | .pairSelfTestStart => true
  | .pairSelfTestResult _ _ => true
  | .bankRefresh _ => true
  | .memCalibration _ _ _ => true
  | .channelHoldStart _ => true
  | .channelHoldRelease _ _ _ => true
  | .sparingComplete _ _ _ => true
  | .dataFlitAck _ _ => true
  | .laneCountDecay => true
  | .controlAckTimeout _ _ => true
  | .reconcileHashExchange _ => true
  | .edgeTrainingComplete _ _ => true
  | .groupAbsent _ => true
  | .absentGroupProbe _ _ => true
  | .optLaneFail _ _ => true
  | .packetLinkStart _ _ _ => true
  | .linkFlitReceive _ f => f.seq < 2 ^ 14 && f.ack < 2 ^ 14
  | .portDown _ => true
  | .adminExchangeSend => true
  | .detourCreditTimeout _ => true
  | .packetWaitTimeout _ => true
  | .remoteRequestTimeout _ => true
  | .tsyncSend => true
  | .tsyncReceive _ _ _ _ => true
  | .ftHoldover => true
  | .queueAbortComplete _ => true
  | .collOpStart _ => true
  | .collOpComplete _ _ => true
  | .dmaComplete _ _ _ => true
  | .completionRecordWrite _ _ => true
  | .msixHoldoffExpiry _ _ => true
  | .quietPeriodExpiry => true
  | .tremorWindowExpiry _ => true
  | .resetEnd _ _ => true
  | .resetEscalation _ => true
  | .abortTimeout _ => true
  | .testStart _ => true
  | .testEnd _ _ _ _ _ => true
  | .testDeadlineExpiry _ => true
  | .linkRecalibration _ => true
  | .linkRecalibrationEnd x => recalWf x
  | .brakePinAssert => true
  | .brakePinRelease => true
  | .limiterStep _ => true
  | .supVinLow => true
  | .supVinHigh => true
  | .supOvercurrent => true
  | .supVauxLow => true
  | .thermWarn _ => true
  | .thermHot _ => true
  | .thermTrip _ => true
  | .brakeCauseClear _ => true
  | .supplyRestart => true
  | .refclkLoss _ => true
  | .slowclkLoss => true
  | .vinCollapse => true
  | .vauxLoss => true
  | .vioLoss => true
  | .vioRestore => true
  | .powerOn => true
  | .vin48Ready => true
  | .fuseCommit _ => true
  | .perstAssert _ => true
  | .perstDeassert _ => true
  | .functionLevelReset _ => true
  | .i3cEntdaa _ => true
  | .pldmSensorRead _ => true
  | .pldmPollEvent => true
  | .jtagInstruction _ => true
  | .promotionLatchReceive _ _ _ => true
  | .refclkRestore _ => true
  | .slowclkRestore => true
  | .powerStateEntered => true
  | .stackTempBelow85 _ => true

end Sys2Proof
end

