-- ==== Sys2Proof/Tests/Slice0.lean ====
section
/-!
SUPPORT. Tests of the model: ill-formed commands that are refused, values that the spec gives, and for each
statement states and operands that meet its hypotheses, with what the command then does there.
-/

set_option Elab.async false

namespace Sys2Proof.Tests

open Sys2Proof Sys2Proof.Machine

/-- A part of the state after a command. -/
def after {α : Type} (c : Instr) (s : State) (f : State → α) : Option α :=
  match exec c s with
  | .next t => some (f t)
  | _ => none

/-- The state after reset. -/
def r0 : State := State.reset

/-- A field set. -/
def setF (slot : Nat) (f : Fld) (v : Nat) (s : State) : State := wg s slot f v

/-! ### Ill-formed commands -/

/-- A well-formed packet. -/
def pkt : Packet := {}

theorem test_illFormed_packets :
    [{ pkt with type := 16 }, { pkt with blk := 4 }, { pkt with len := 64 }, { pkt with dest := 65536 },
     { pkt with src := 65536 }, { pkt with job := 4096 }, { pkt with epoch := 256 }, { pkt with status := 256 },
     { pkt with group := 1024 }, { pkt with bucket := 65536 }, { pkt with chunk := 65536 },
     { pkt with node := 65536 }, { pkt with tag := 65536 }, { pkt with addr := 2 ^ 48 },
     { pkt with bytes := 2048 }, { pkt with rseq := 65536 }, { pkt with exps := List.replicate 33 0 },
     { pkt with payload := List.replicate 2049 0 }].all (fun p => !packetWf p) = true ∧
    packetWf pkt = true := by decide +kernel

/-- A packet that is not well formed. -/
def badPkt : Packet := { type := 16 }

theorem test_illFormed_packet_commands :
    [.routerPacketEnter none badPkt, .codewordReceive 0 { pad := 3, flits := [.head badPkt] }, .remoteLoad badPkt,
     .remoteStore badPkt, .remoteFetchAdd badPkt, .remoteResponse badPkt, .nackReceive badPkt,
     .eruptReceive badPkt, .redChunkReceive 0 ⟨badPkt, []⟩, .resvGrantReceive ⟨badPkt, []⟩,
     .resvCreditReceive ⟨badPkt, []⟩,
     .ctsReceive badPkt, .msgDataReceive badPkt, .msgDoneReceive badPkt, .msgResultReceive badPkt,
     .fumReceive badPkt].all (fun c => !wellFormed c) = true := by decide +kernel

theorem test_illFormed_host_commands :
    [.cmdNop 0 0 0, .cmdDma 0 0 0, .cmdSeqRun 0 0 0, .cmdAbort 0 0 0, .cmdTest 0 0 0, .cmdWaitFault 0 0 0,
     .queuePostHost 0 0 0, .bar4Read 0 0 0, .bar4Write 0 0 []].all (fun c => !wellFormed c) = true := by
  decide +kernel

theorem test_illFormed_memory_commands :
    [.sectorRead 1 .bar4 [], .sectorRead 0 .bar4 (List.replicate 9 0), .sectorWrite 0 ⟨[], 1⟩ 0,
     .sectorWrite 16 ⟨List.replicate 17 0, 1⟩ 0, .sectorWrite 0 ⟨[0], 2 ^ 32⟩ 0, .scrubRead 31 0].all (fun c => !wellFormed c) = true := by decide +kernel

theorem test_illFormed_link_commands :
    [.dataFlitReceive ⟨0, false⟩ 0 { cols := [], seq := 0 },
     .codewordReceive 0 { pad := 2 }, .linkFlitReceive 0 ⟨2 ^ 14, 0, .truncate 0⟩, .controlFlitReceive ⟨0, false⟩ 0 ⟨2 ^ 192, 0, 0, false⟩,
     .controlFlitReceive ⟨0, false⟩ 0 ⟨0, 2 ^ 32, 0, false⟩, .oeAdmission 0 ⟨some [], 0, 0, List.replicate 8 0⟩, .oeAdmission 0 ⟨none, 0, 0, []⟩,
     .laserMonitor 0 [], .groupTrainingComplete 0 ⟨0, 0, 256, 0⟩, .groupRetrainComplete 0 ⟨0, 0, 0, 256⟩,
     .adminReceive 0 64, .groupLightRecheck 0 []].all (fun c => !wellFormed c) = true := by decide +kernel

theorem test_illFormed_boot_commands :
    [.strapSample { meshX := 64 }, .strapSample { meshY := 64 }, .strapSample { meshZ := 16 },
     .strapSample { shape := 4 }, .strapSample { plan := 8 }, .pldmFirmwareUpdate .die ⟨[], false⟩,
     .linkRecalibrationEnd (.group 0 256 0), .linkRecalibrationEnd (.group 0 0 256)].all
      (fun c => !wellFormed c) = true := by decide +kernel

/-! ### Values that the spec gives -/

/-- R28: 0x7E and 0xFE of F8A are ±448. -/
theorem test_f8a_largest :
    floDecode floF8A 0x7E = .fin false 14 5 ∧ floDecode floF8A 0xFE = .fin true 14 5 := by decide +kernel

/-- R41: the threshold of nearest-even in F8A is 448 + 16; below it a value rounds to the largest finite one,
which an infinity also gives; in F8B an infinity stays one. -/
theorem test_overflow_rows :
    (floConv floF8A .nearest (.inf true)).1 = 0xFE ∧ (floConv floF8B .nearest (.inf false)).1 = 0x7C ∧
    (floConv floF8A .nearest (.fin false 463 0)) = (0x7E, .plain) ∧
    (floConv floF8A .nearest (.fin false 464 0)) = (0x7E, .overflowed) := by decide +kernel

/-- R41: INT8 saturates at +127 and −128. -/
theorem test_int8_limits :
    (intConv 8 .nearest (valOfInt 200)).1 = 0x7F ∧ (intConv 8 .nearest (valOfInt (-200))).1 = 0x80 := by
  decide +kernel

/-! ### The step, registers and memory -/

/-- Fabric time after a step. -/
def ftNext (f : FabTime) : Option FabTime :=
  match step { r0 with ft := f } with
  | .next t => some t.ft
  | _ => none

/-- With no command waiting a step is a microsecond (log entry 1), of which a correction takes its part (R253). -/
theorem test_FabricTime_idle :
    ftNext {} = some { t := 1000 } ∧ ftNext { slew := 3 } = some { t := 1001, slew := 2 } ∧
    ftNext { slew := -3 } = some { t := 999, slew := -2 } ∧
    ftNext { t := 7, behind := 400 } = some { t := 607 } := by decide +kernel

theorem test_FabricTime_idle_dark : performs (setF 4 pwrStateCur 4 r0) 3 = false := by decide +kernel

theorem test_StepKeepsForm_witness : memoryWf r0 = true ∧ keysUp r0.regs = true ∧
    (match step r0 with | .next t => memoryWf t | _ => false) = true := by decide +kernel

theorem test_CommandsKeep_witness :
    after (.lobeModeWrite .pcie0 1) r0 (fun t => (t.pending, t.free, t.pins.straps)) =
      some ([], 0, r0.pins.straps) := by decide +kernel

/-- A state in which nothing waits is quiet. -/
theorem test_QuietSettles_witness : Quiet r0 :=
  ⟨rfl, fun _ _ h => by simp [r0, State.reset] at h, rfl, rfl, rfl, fun _ h => by simp [r0, State.reset] at h,
    by decide, by decide +kernel⟩

/-- A package whose West lobe is fenced, where die pages drop writes. -/
def fencedW : State := setF 0 lobeModeFencedW 1 r0

theorem test_BlockDropsWrite_seq :
    performs fencedW 0x401 = false ∧ rowRegister (.seqStop .pcie1 0 0) = some (.pcie1, 0x401, 0x80) ∧
    reached fencedW .pcie1 = true ∧
    after (.seqStop .pcie1 0 0) fencedW (fun t => (rg t 0 regDrop, rg t 0 regDropAddrOffset,
      rg t 0 regDropAddrSource)) = some (1, 0x401080 / 4, 1) := by decide +kernel

theorem test_BlockDropsWrite_router :
    performs (setF 4 pwrStateCur 4 r0) 3 = false ∧
    after (.jobDataWrite .pcie1 0) (setF 4 pwrStateCur 4 r0) (fun t => (rg t 0 regDrop,
      rg t 0 regDropAddrSource)) = some (1, 1) := by decide +kernel

/-- R423: a management endpoint without an address reaches nothing, and nothing is counted. -/
theorem test_BlockDropsWrite_unreached : reached r0 .management = false ∧
    after (.seqStop .management 0 0) fencedW (fun t => rg t 0 regDrop) = some 0 := by decide +kernel

/-- Sticky bits 0 and 3 of the fault aggregator's page. -/
theorem test_HeaderWrites_sticky :
    (0x1 < 0x3FF0 ∧ pgType 0x1 ≠ 0 ∧ performs (setF 1 hdrSticky 9 r0) 1 = true) ∧
    after (.registerWrite .pcie0 .bar0 0x1018 4 ⟨1, 0⟩) (setF 1 hdrSticky 9 r0) (fun t => rg t 1 hdrSticky) =
      some 8 := by decide +kernel

/-- R335, R336: the mask takes the bits of sources that the page has; a window of 9 is ignored. -/
theorem test_HeaderWrites_mask_window :
    after (.registerWrite .pcie0 .bar0 0x401C 4 ⟨0xFFFF, 0⟩) r0 (fun t => rg t 4 hdrMask) =
      some (sourceMask (pgType 4)) ∧
    after (.registerWrite .pcie0 .bar0 0x48002C 4 ⟨10, 0⟩) r0 (fun t => rg t 0x480 (hdrWindow 0x28)) = some 10 ∧
    after (.registerWrite .pcie0 .bar0 0x48002C 4 ⟨9, 0⟩) r0 (fun t => rg t 0x480 (hdrWindow 0x28)) =
      some 100000 ∧
    after (.registerWrite .pcie0 .bar0 0x48002C 4 ⟨60000001, 0⟩) r0 (fun t => rg t 0x480 (hdrWindow 0x28)) =
      some 100000 := by decide +kernel

/-- R431: the tile page takes TREMOR_EN; a page without a tremor counter keeps its value. A class nibble takes a
class and no reserved code. -/
theorem test_HeaderWrites_enable_class : headerRuns r0 0x480 = true ∧ pgTremor (pgType 4) = false ∧
    after (.registerWrite .pcie0 .bar0 0x480010 4 ⟨0, 0⟩) r0 (fun t => rg t 0x480 hdrTremorEn) = some 0 ∧
    after (.registerWrite .pcie0 .bar0 0x4010 4 ⟨1, 0⟩) r0 (fun t => t.regs) = some [] ∧
    after (.registerWrite .pcie0 .bar0 0x3020 4 ⟨0x54, 0⟩) r0 (fun t => (rg t 3 (hdrClass (pgType 3) 0),
      decide (rg t 3 (hdrClass (pgType 3) 1) = rg r0 3 (hdrClass (pgType 3) 1)))) = some (4, true) := by
  decide +kernel

/-- R10: a source that is raised in the cycle that clears its bit stays set. -/
theorem test_HeaderWrites_coincident : headerRuns r0 6 = true ∧ hasSource (pgType 6) 0 = true ∧
    after (.registerWrite .pcie0 .bar0 0x6018 4 ⟨1, 1⟩) (setF 6 hdrSticky 1 r0) (fun t => rg t 6 hdrSticky) =
      some 1 ∧
    after (.registerWrite .pcie0 .bar0 0x6018 4 ⟨1, 0⟩) (setF 6 hdrSticky 1 r0) (fun t => rg t 6 hdrSticky) =
      some 0 := by decide +kernel

/-- R339: the headers of a die in reset drop writes. -/
theorem test_HeaderWrites_inReset : headerRuns { r0 with resets := [{ scope := .die 0 }] } 0x480 = false ∧
    after (.registerWrite .pcie0 .bar0 0x48001C 4 ⟨1, 0⟩) { r0 with resets := [{ scope := .die 0 }] }
      (fun t => t.regs) = some [] := by decide +kernel

theorem test_HeaderWrites_readOnly :
    after (.registerWrite .pcie0 .bar0 0x1000 4 ⟨7, 0⟩) r0 (fun t => t.regs) = some [] := by decide +kernel

theorem test_DescTakesBytes_edges : domainOn r0 58 = true ∧
    after (.registerWrite .pcie0 (.bar2 0) 0x3C 4 ⟨0xAABBCCDD, 0⟩) r0 (fun t => (cportOf t 0 0).desc) =
      some (0xAABBCCDD * 2 ^ 480) ∧
    after (.registerWrite .pcie0 (.bar2 0) 0x40 8 ⟨7, 0⟩) r0 (fun t => t.cports) = some [] ∧
    after (.registerWrite .pcie0 (.bar2 1) 0xFF000 64 ⟨5, 0⟩) r0 (fun t => (cportOf t 1 255).desc) = some 5 := by
  decide +kernel

/-- R320, R323: what a command port's page reads as, and the sizes that a BAR4 takes. -/
theorem test_DescTakesBytes_reads :
    after (.racRead .pcie0 ⟨.bar2 0, 0x80, 8⟩ 0) r0 (fun t => t.resp) = some (.value 0) ∧
    after (.racRead .pcie0 ⟨.bar4Size 0, 0, 4⟩ 0) r0 (fun t => t.resp) = some (.value 14) ∧
    after (.registerWrite .pcie0 (.bar4Size 0) 0 4 ⟨29, 0⟩) r0 (fun t => (bar4Code t 0, bar4Code t 1)) =
      some (29, 14) ∧
    after (.registerWrite .pcie0 (.bar4Size 0) 0 4 ⟨9, 0⟩) r0 (fun t => t.bar4Size) = some [] := by decide +kernel

/-- R324: a read of a part of SUBMIT. -/
theorem test_DescTakesBytes_submit :
    after (.racRead .pcie0 ⟨.bar2 0, 0x44, 4⟩ 0) r0 (fun t => (t.resp, rg t 0x103 hdrSticky, t.cports)) =
      some (.value (2 ^ 32 - 1), 1, []) := by decide +kernel

theorem test_AccessesRefused_shape :
    after (.registerWrite .pcie1 .bar0 0x3FEFFFE 4 ⟨0, 0⟩) r0 (fun t => rg t 0x203 hdrSticky) = some 1 ∧
    after (.bar0BadAccess 0 false 0 2) r0 (fun t => (t.resp, rg t 0x103 hdrSticky)) =
      some (.value 0xFFFF, 1) ∧
    after (.bar0BadAccess 0 true 2 4) r0 (fun t => (t.resp, rg t 0x103 hdrSticky)) = some (.none, 1) := by
  decide +kernel

theorem test_AccessesRefused_unassigned : pgType (0x10000 / 4096) = 0 ∧
    after (.bar0BadAccess 1 true 0x10000 4) r0 (fun t => (rg t 0 regDrop, rg t 0x203 hdrSticky)) =
      some (1, 1) ∧
    after (.bar0BadAccess 1 false 0x10000 4) r0 (fun t => (t.resp, rg t 0x203 hdrSticky)) =
      some (.value 0, 0) := by decide +kernel

/-- R11: the two drops that coincide with the read stay counted. -/
theorem test_ReadsWithEffects_rac : performs (setF 0 regDrop 5 r0) 0 = true ∧
    after (.racRead .pcie0 ⟨.bar0, 0x100, 4⟩ 2) (setF 0 regDrop 5 r0) (fun t => (t.resp, rg t 0 regDrop)) =
      some (.value 5, 2) ∧
    after (.racRead .pcie0 ⟨.bar0, 0x402088, 4⟩ 0) r0 (fun t => t.resp) = some (.value 0) := by decide +kernel

/-- R11: each event is counted in its own field. -/
theorem test_ReadsWithEffects_fields :
    let s := setF (chanPhy 0) calCountRetrains 3 (setF (chanPhy 0) calCountSteps 9 r0)
    performs s (chanPhy 0) = true ∧
    after (.racRead .pcie0 ⟨.bar0, chanPhy 0 * 4096 + 0x84, 4⟩ (5 * 2 ^ 16 + 2)) s
      (fun t => (t.resp, rg t (chanPhy 0) calCountRetrains, rg t (chanPhy 0) calCountSteps)) =
      some (.value (3 * 2 ^ 16 + 9), 5, 2) := by decide +kernel

theorem test_ReadsWithEffects_ftLo :
    after (.ftLoRead .pcie0) { r0 with ft := { t := 2 ^ 33 + 7 } } (fun t => (t.resp, rg t 3 ftHi)) =
      some (.value 7, 2) := by decide +kernel

/-- An entry of the job window table that may be bound to job 5. -/
def jwState : State := { r0 with jw := [(0, { units := 1 })] }

theorem test_MemoryTables_bind : performs jwState 0 = true ∧ jwInDomain { units := 1 } = true ∧
    after (.jwCtlWrite .pcie0 0x80000005#32) jwState (fun t => (t.jwRej, mget {} t.jw 0)) =
      some (false, { valid := true, units := 1, job := 5 }) ∧
    after (.jwCtlWrite .pcie0 0x80000000#32) jwState (fun t => (t.jwRej, mget {} t.jw 0)) =
      some (true, { units := 1 }) ∧
    after (.jwCtlWrite .pcie0 5) jwState (fun t => (t.jwRej, mget {} t.jw 0)) =
      some (false, { units := 1, job := 5 }) := by decide +kernel

/-- R177: the two fields fit the 16 units together or are not taken. -/
theorem test_MemoryTables_split :
    after (.memSplitWrite .pcie0 0x0808) r0 (fun t => (rg t 0 memSplitNextPkg, rg t 0 memSplitNextLobe)) =
      some (8, 8) ∧
    after (.memSplitWrite .pcie0 0x0809) r0 (fun t => (rg t 0 memSplitNextPkg, rg t 0 memSplitNextLobe)) =
      some (8, 4) ∧
    after (.mapoutReqWrite .pcie0 0x800003FF#32) r0 (fun t => (rg t 0 mapoutReqPending,
      rg t 0 mapoutReqChannel)) = some (1, 1023) := by decide +kernel

/-! ### The memory system -/

/-- The sector at address 0, and its place. -/
def place0 : Nat × Nat × Nat := (sectorAt r0 0).getD (0, 0, 0)

/-- Its channel, and the die that holds it. -/
def ch0 : Nat := place0.1
/-- The die. -/
def d0 : Nat := place0.2.2

theorem test_SectorsAreRead_place : sectorAt r0 0 = some place0 ∧ ch0 < 1024 ∧ heldChan r0 d0 = none := by
  decide +kernel

/-- R180: one symbol in error is corrected and counted, two are reported. -/
theorem test_SectorsAreRead_ecc : canRead r0 .bar4 = true ∧
    after (.sectorRead 0 .bar4 [0]) r0 (fun t => (t.due, errOf t 0)) = some ([], 0) ∧
    after (.sectorRead 0 .bar4 [1]) r0 (fun t => (rg t (mgSlot d0) ceCount, errOf t 0,
      bit (rg t (mgSlot d0) hdrSticky) 0)) = some (1, 1, true) ∧
    after (.sectorRead 0 .hostDma [2]) r0 (fun t => (rg t (mgSlot d0) ueCount, errOf t 0,
      bit (rg t (mgSlot d0) hdrSticky) 1)) = some (1, 2, true) := by decide +kernel

/-- A tile of die 0 that runs a task. -/
def runningTile : State := setTile r0 0 1 2 { task := some { id := 1, tds := [] } }

/-- A tile whose ordered adds take the narrow path. -/
def narrowTile : State := setTile r0 0 1 2 { task := some { id := 1, tds := [], adder := true } }

/-- R171, R172: a task's main path reads eight sectors, its narrow path one; an uncorrectable one spoils it. -/
theorem test_SectorsAreRead_task : canRead runningTile (.task 0 1 2 false) = true ∧
    canRead r0 (.task 0 1 2 false) = false ∧
    after (.sectorRead 0 (.task 0 1 2 false) [0, 1, 0, 2, 0, 0, 1, 0]) runningTile
      (fun t => (rg t (mgSlot d0) ceCount, rg t (mgSlot d0) ueCount, errOf t 96,
        (tileOf t 0 1 2).task.map RunTask.spoiled)) = some (2, 1, 2, some true) ∧
    canRead narrowTile (.task 0 1 2 true) = true ∧ canRead runningTile (.task 0 1 2 true) = false := by decide +kernel

/-- A state whose die holds the channel of address 0. -/
def heldState : State := updMem r0 d0 (fun m => { m with hold := some { chan := ch0, kind := .retrain } })

/-- R191: reads of a held channel wait, writes enter the buffer, from which reads are served. -/
theorem test_SectorsAreRead_held : heldChan heldState d0 = some ch0 ∧
    after (.sectorRead 0 .bar4 [1]) heldState (fun t => (rg t (mgSlot d0) ceCount,
      (die t d0).mem.hold.map (fun h => h.queue.length))) = some (0, some 1) ∧
    after (.sectorWrite 0 ⟨[7], 1⟩ 0) heldState (fun t => (rdByte t 0,
      (die t d0).mem.hold.map (fun h => (h.buffer.length, (sectorsRead .bar4 0).all (inBuffer h))))) =
      some (7, some (1, true)) ∧
    after (.scrubRead 0 1) heldState (fun t => rg t (mgSlot d0) ceCount) = some 0 := by
  decide +kernel

theorem test_SectorsAreRead_scrub : rg r0 (mgSlot d0) scrubCtlEn = 1 ∧ scrubAt r0 0 = some place0 ∧
    after (.scrubRead 0 2) r0 (fun t => (rg t (mgSlot d0) ueCount,
      bit (rg t (mgSlot d0) hdrSticky) 2)) = some (1, true) ∧
    after (.scrubRead 0 1) r0 (fun t => (rg t (mgSlot d0) ceCount, errOf t 0)) = some (1, 0) := by decide +kernel

/-- R171, R181: a whole sector heals what a part leaves; a mask leaves gaps. -/
theorem test_SectorWrites_bad :
    after (.sectorWrite 0 ⟨List.replicate 32 7, 2 ^ 32 - 1⟩ 2) { r0 with errs := [(0, 2)] }
      (fun t => (rdByte t 31, errOf t 0)) = some (7, 0) ∧
    after (.sectorWrite 31 ⟨[7], 1⟩ 2) r0
      (fun t => (rdByte t 31, errOf t 0, bit (rg t (mgSlot d0) hdrSticky) 1)) = some (0, 2, true) ∧
    after (.sectorWrite 28 ⟨[7, 8, 9, 10], 5⟩ 0) r0
      (fun t => (rdByte t 28, rdByte t 29, rdByte t 30, rdByte t 31)) = some (7, 0, 9, 0) ∧
    after (.sectorWrite 31 ⟨[7], 0⟩ 0) r0 (fun t => t.mem) = some [] := by decide +kernel

/-- A held channel whose buffer is full. -/
def fullState : State := updMem heldState d0 (fun m => { m with hold := m.hold.map (fun h =>
  { h with queue := [{ addr := 64, reader := none, bytes := [(64, 1)], symbols := [0] }] }) })

theorem test_SectorWrites_held :
    after (.sectorWrite 0 ⟨[7], 1⟩ 0) fullState (fun t => (t.mem,
      (die t d0).mem.hold.map (fun h => (h.buffer.length, h.queue.length)))) = some ([], some (0, 2)) := by
  decide +kernel

theorem test_ChannelsAreKept_refresh : performs r0 (mgSlot 3) = true ∧ 1023 ∉ r0.outDie ∧
    after (.bankRefresh 1023) { r0 with bankNext := [(1023, 63)] } (fun t => mget 0 t.bankNext 1023) =
      some 0 ∧
    after (.memCalibration 1023 2 ⟨true, true⟩) r0 (fun t => (rg t (mgSlot 3) stackCeCount,
      (die t 3).mem.waiting)) = some (2, [(1023, .retrain)]) ∧
    after (.memCalibration 0 0 ⟨false, true⟩) r0 (fun t => (die t 0).mem.waiting) = some [] ∧
    after (.stackTempBelow85 15) { r0 with hot := [(15, 1)] } (fun t => t.hot) = some [] := by
  decide +kernel

/-- A die with a channel that waits for a hold. -/
def waitsHold : State := updMem r0 0 (fun m => { m with waiting := [(7, .retrain)] })

theorem test_ChannelsAreKept_hold : performs waitsHold (mgSlot 0) = true ∧ (die waitsHold 0).mem.hold = none ∧
    after (.channelHoldStart 0) waitsHold (fun t => ((die t 0).mem.hold.map Hold.chan,
      rg t (mgSlot 0) holdStatusActive, rg t (mgSlot 0) holdStatusChannel,
      rg t (mgSlot 0) holdStatusHolds)) = some (some 7, 1, 7, 1) := by decide +kernel

/-- A die in its first, and in its second attempt. -/
def holding (n : Nat) : State := updMem r0 0 (fun m => { m with hold := some { chan := 7, kind := .retrain, tries := n } })

theorem test_ChannelsAreKept_release :
    after (.channelHoldStart 0) (holding 0) (fun t => (die t 0).mem.hold.map Hold.chan) = some (some 7) ∧
    after (.channelHoldRelease 0 true true) (holding 1) (fun t => (die t 0).mem.hold) = some none ∧
    after (.channelHoldRelease 0 false true) (holding 0) (fun t => (die t 0).mem.hold.map Hold.tries) =
      some (some 1) ∧
    after (.channelHoldRelease 0 false true) (holding 1) (fun t => ((die t 0).mem.hold,
      bit (rg t (mgSlot 0) hdrSticky) 7)) = some (none, true) := by decide +kernel

/-- R372: no periodic step runs while CAL_CTL.EN is 0. -/
theorem test_ChannelsAreKept_steps :
    after (.memCalibration 0 3 ⟨true, true⟩) (setF (chanPhy 0) calCtlEn 0 r0) (fun t => rg t (mgSlot 0)
      stackCeCount) = some 0 ∧
    after (.memCalibration 0 3 ⟨true, false⟩) (setF (chanPhy 0) calCtlEn 0 r0) (fun t => rg t (mgSlot 0)
      stackCeCount) = some 3 := by decide +kernel

/-- A die that repairs a row softly (R186), and one that tests a channel (R370). -/
def repairing (k : HoldKind) : State := updMem r0 0 (fun m => { m with hold := some { chan := 7, kind := k } })

theorem test_ChannelsAreKept_repair :
    after (.channelHoldRelease 0 true true) (repairing (.softRepair 3)) (fun t => ((die t 0).mem.hold,
      (die t 0).mem.soft)) = some (none, [(7, 3)]) ∧
    after (.channelHoldRelease 0 true true) (repairing .test) (fun t => (die t 0).mem.hold.map Hold.chan) =
      some (some 7) ∧
    (die r0 0).mem.hold = none ∧
    after (.channelHoldRelease 0 true true) r0 (fun t => (die t 0).mem.hold) = some none := by decide +kernel

/-! ### Tiles, clusters and the census -/

/-- A field of a descriptor. -/
def fld (lo v : Nat) : Nat := v * 2 ^ lo

/-- A tensor descriptor of two axes: format, base, extents and strides (R91, R92). -/
def tensor (fmt base e0 e1 s0 s1 : Nat) : Nat :=
  2 + fld 4 fmt + fld 128 base + fld 320 e0 + fld 352 e1 + fld 512 s0 + fld 552 s1

/-- A matrix task (R117, R65): a row of two BF16 elements times a column of two, into an F32 element at
0x3040, with HOME 5 and INDEX 9. -/
def task0 : Nat :=
  fld 23 5 + fld 64 9 + fld 128 0 + fld 144 1 + fld 160 0xFFFF + fld 176 2 + fld 192 0xFFFF +
  fld 256 (2 + fld 92 1 + fld 88 1) + fld 704 0x3040 + fld 768 1

/-- A forward phase of one task at 0x1000, with its three tensors at 0x2000 (R138). -/
def phase0 : Nat := fld 84 1 + fld 176 1 + fld 160 3 + fld 384 0x1000 + fld 320 0x2000

/-- The state after reset with every Rilun edge up, and its control bundles. -/
def u0 : State := [0, 1, 2, 3, 4, 5].foldl (fun s k =>
  forEach (edgeEnds k) (setEdgeState s k 3) (fun s e => ewg s e edgeStatusCtrlUp 3)) r0

/-- Die 0 runs job 7 with one working phase; its memory holds the task, its tensors and its operands. -/
def working : State :=
  let s := setF (seqSlot 0) seqStatusState 1 u0
  let s := updSeq s 0 (fun q => { q with
    job := 7, progBase := 0x4000, progCount := 1
    phases := [(0, { desc := phase0, stage := .working })] })
  let s := { s with jw := [(0, { valid := true, base := 0, units := 1, job := 7 })] }
  let s := wrLe s 0x1000 128 task0
  let s := wrLe s 0x2000 96 (tensor 1 0x3000 2 1 1 2)
  let s := wrLe s 0x2060 96 (tensor 1 0x3020 1 2 2 1)
  let s := wrLe s 0x20C0 96 (tensor 0 0x3040 1 1 1 1)
  wrBytes (wrBytes s 0x3000 [0xC0, 0x3F, 0x00, 0x40]) 0x3020 [0x00, 0x40, 0x00, 0x3F]

theorem test_TaskDispatches_enqueued :
    dieRuns working 0 = true ∧ mayDispatch working 0 = true ∧ dispatchPhase working 0 = some 0 ∧
    after (.taskDispatch 0) working (fun t => (queueOf t 0 5, (die t 0).nextId, (phaseOf t 0 0).last)) =
      some ([0], 1, some 9) := by decide +kernel

/-- A running task of phase 0 that writes 32 bytes at 0x3000. -/
def writer : LiveTask :=
  { id := 0, phase := 0, src := 0, index := 0, addr := 0, words := 0, tdt := 0, tdtCount := 0, home := 0
    st := .running 0, ordered := false, writes := [(0x3000, 32)] }

/-- A task of an earlier phase writes what the next one reads. -/
def blocked : State :=
  updSeq (updDie working 0 (fun x => { x with nextId := 1, live := [writer] })) 0 (fun q => { q with
    phases := [(1, { desc := phase0, stage := .working })] })

theorem test_TaskDispatches_deps :
    (checkedTask blocked 0 (nextTask blocked 0 1)).deps = [0] ∧
    (checkedTask working 0 (nextTask working 0 0)).deps = [] := by decide +kernel

theorem test_TaskDispatches_held :
    dispatchPhase blocked 0 = some 1 ∧ mayDispatch blocked 0 = true ∧
    after (.taskDispatch 0) blocked (fun t => (queueOf t 0 5, rg t (dcSlot 0) taskHeld,
      (die t 0).live.map LiveTask.st)) = some ([], 1, [.running 0, .held]) := by decide +kernel

/-- Die `d` holds the channel of an address. -/
def holdAt (s : State) (a : Nat) : State :=
  let (_, ch, d) := ((sectorAt s a).map (fun x => (x.2.1, x.1, x.2.2))).getD (0, 0, 0)
  updMem s d (fun m => { m with hold := some { chan := ch, kind := .retrain } })

theorem test_TaskDispatches_waits : waitsDie (holdAt working 0x1000) 0 (dispatchReads (holdAt working 0x1000) 0 0) =
      true ∧ waitsDie working 0 (dispatchReads working 0 0) = false ∧
    after (.taskDispatch 0) (holdAt working 0x1000) (fun t => (die t 0).nextId) = some 0 := by decide +kernel

/-- The state after a command. -/
def nextOf (c : Instr) (s : State) : State :=
  match exec c s with
  | .next t => t
  | _ => s

/-- The task has been dispatched. -/
def dispatched : State := nextOf (.taskDispatch 0) working

theorem test_TileTakesTask_own :
    tileIdle dispatched 0 5 0 = true ∧ outgoingFor dispatched 0 5 = none ∧
    (liveOfId dispatched 0 0).isSome = true ∧ queueOf dispatched 0 5 = [0] ∧
    after (.taskTake 0 5 0) dispatched (fun t => ((tileOf t 0 5 0).task.map RunTask.id, queueOf t 0 5,
      rg t (dcSlot 0) taskStolen, (die t 0).live.map LiveTask.st)) =
      some (some 0, [], 0, [.running 80]) := by decide +kernel

theorem test_TileTakesTask_steals :
    tileIdle dispatched 0 4 0 = true ∧ queueOf dispatched 0 4 = [] ∧ victimOf dispatched 0 4 = some 5 ∧
    after (.taskTake 0 4 0) dispatched (fun t => ((tileOf t 0 4 0).task.map RunTask.id, queueOf t 0 5,
      rg t (dcSlot 0) taskStolen)) = some (some 0, [], 1) := by decide +kernel

/-- A reserved bit of the task is set. -/
def badTask : State := nextOf (.taskDispatch 0) (wrLe working 0x1000 1 1)

/-- The output lies outside the window. -/
def noWindow : State := { dispatched with jw := [] }

theorem test_TileTakesTask_bad :
    after (.taskTake 0 5 0) badTask (fun t => (rdByte t 0x1078, bit (rg t (dcSlot 0) hdrSticky) 0,
      (phaseOf t 0 0).code, rg t (seqSlot 0) seqStatusState)) = some (2, true, 3, 3) ∧
    after (.taskTake 0 5 0) noWindow (fun t => (rdByte t 0x1078, bit (rg t (dcSlot 0) hdrSticky) 0,
      (phaseOf t 0 0).code)) = some (3, false, 3) := by decide +kernel

/-- R130: a tile of the incoming cluster empties the queue of the outgoing one first. R180: a bad sector under a
tensor descriptor spoils the task. A held channel keeps it in its queue. -/
theorem test_TileTakesTask_ways :
    outgoingFor (startRotation dispatched 0 5) 0 32 = some 5 ∧
    after (.taskTake 0 32 0) (startRotation dispatched 0 5) (fun t =>
      ((tileOf t 0 32 0).task.map RunTask.id, queueOf t 0 5)) = some (some 0, []) ∧
    after (.taskTake 0 5 0) { dispatched with errs := [(0x2000, 2)] } (fun t => (rg t (mgSlot 0) ueCount,
      rg t (seqSlot 0) seqStatusState)) = some (1, 3) ∧
    takeWaits (holdAt dispatched 0x2000) 0 5 = true ∧ takeWaits dispatched 0 5 = false := by decide +kernel

/-- A tile runs the task. -/
def runs : State := nextOf (.taskTake 0 5 0) dispatched

/-- 1.5 × 2 + 2 × 0.5 is 4. -/
theorem test_TaskCompletes_done :
    (tileOf runs 0 5 0).task.isSome = true ∧ performs runs (tileSlot 0 5 0) = true ∧
    after (.taskComplete 0 5 0) runs (fun t => (rdLe t 0x3040 4, rdByte t 0x1078, (tileOf t 0 5 0).task)) =
      some (0x40800000, 0, none) ∧
    after (.taskComplete 0 5 0) runs (fun t => ((phaseOf t 0 0).stage, (die t 0).live,
      mget 0 t.census 0)) = some (.posting, [], 1) := by decide +kernel

/-- R180: a task that reads an uncorrectable sector does not complete, and its job aborts; one symbol in error is
corrected. -/
theorem test_TaskCompletes_bad :
    after (.taskComplete 0 5 0) { runs with errs := [(0x3000, 2)] } (fun t => (rdLe t 0x3040 4,
      rdByte t 0x1078, rg t (seqSlot 0) seqStatusState)) = some (0, 4, 3) ∧
    taskWaits runs 0 writer { id := 0, tds := [] } = false ∧
    after (.taskComplete 0 5 0) { runs with errs := [(0x3000, 1)] } (fun t => (rdLe t 0x3040 4,
      (tileOf t 0 5 0).task)) = some (0x40800000, none) := by decide +kernel

/-- R191: it waits while a channel that it reads is held. -/
theorem test_TaskCompletes_waits :
    after (.taskComplete 0 5 0) (updMem runs 0 (fun m => { m with hold := some { chan := 48, kind := .retrain } }))
      (fun t => (rdLe t 0x3040 4, (tileOf t 0 5 0).task.isSome)) = some (0, true) := by decide +kernel

/-- The write box does not hold the output. -/
def boxed : State :=
  nextOf (.taskTake 0 5 0) (nextOf (.taskDispatch 0) (wrLe working 0x1058 8 0x3060))

theorem test_TaskCompletes_drops :
    (tileOf boxed 0 5 0).task.isSome = true ∧
    after (.taskComplete 0 5 0) boxed (fun t => (rdLe t 0x3040 4, rdLe t 0x1078 8, rg t (dcSlot 0) boxDrop,
      bit (rg t (dcSlot 0) hdrSticky) 1)) = some (0, 2 ^ 32 + 1, 1, true) := by decide +kernel

theorem test_IdleTilesGate_tiles :
    tileIdle r0 3 31 15 = true ∧ workFor r0 3 31 = none ∧
    after (.tileClockGate 3 31 15) r0 (fun t => (tileOf t 3 31 15).gated) = some true ∧
    after (.tileRestart 0 5 3) (setTile dispatched 0 5 3 { gated := true }) (fun t =>
      (tileOf t 0 5 3).gated) = some true ∧
    after (.tileRestart 0 5 3) (setTile dispatched 0 5 3 { gated := true, restart := true }) (fun t =>
      (tileOf t 0 5 3).gated) = some false ∧
    clusterServes (setTile dispatched 0 5 3 { gated := true, restart := true }) 0 5 = true ∧
    (mapPhys r0 0 0 = 0 ∧ (tileOf (setTile r0 0 0 3 { gated := true }) 0 0 3).gated = true ∧
      (tileOf (enqueue (setTile r0 0 0 3 { gated := true }) 0 writer) 0 0 3).restart = true) := by decide +kernel

/-- Every group of the package but the last of die 3 is gated. -/
def allButOne : State :=
  let s := [0, 1, 2].foldl (fun s d => setF (dpSlot d) groupGated 0x3FF s) r0
  setF (dpSlot 3) groupGated 0x1FF s

theorem test_IdleTilesGate_groups :
    (performs allButOne (dpSlot 3) = true ∧ isGated allButOne 3 9 = false ∧ isWaking allButOne 3 9 = false ∧
      clusterQuiet allButOne 3 27 = true ∧ clusterQuiet allButOne 3 28 = true ∧
      clusterQuiet allButOne 3 29 = true) ∧
    after (.clusterGroupGate 3 9) allButOne (fun t => (rg t (dpSlot 3) groupGated, rg t 4 pwrStateCur)) =
      some (0x3FF, 1) ∧
    after (.clusterGroupGate 3 9) r0 (fun t => (rg t (dpSlot 3) groupGated, rg t 4 pwrStateCur)) =
      some (0x200, 0) ∧
    after (.clusterGroupReady 0 0) { r0 with waking := [(0, 1)] } (fun t => t.waking) = some [] := by
  decide +kernel

/-- R380: the demand that came first is served first. -/
theorem test_IdleTilesGate_order :
    nextReady { r0 with waking := [(0, 7), (12, 5)] } = some 12 ∧ performs r0 (dpSlot 1) = true ∧
    after (.clusterGroupReady 0 0) { r0 with waking := [(0, 7), (12, 5)] } (fun t => t.waking) =
      some [(0, 7), (12, 5)] ∧
    after (.clusterGroupReady 1 1) { r0 with waking := [(0, 7), (12, 5)] } (fun t => t.waking) =
      some [(0, 7)] := by decide +kernel

/-- The spare of die 0 has passed its test. -/
def tested : State := updDie r0 0 (fun x => { x with spareTested := true })

/-- A rotation of die 0 has started. -/
def rotating : State := nextOf (.rotationStart 0) (setF (dcSlot 0) rotateCtlEn 1 tested)

theorem test_SpareRotates_start :
    longestServing tested 0 = some 0 ∧
    (die rotating 0).rot = some ⟨32, 0, 0⟩ ∧ mapPhys rotating 0 0 = 32 ∧
    rg rotating (dcSlot 0) spareStatusRotState = 1 := by decide +kernel

theorem test_SpareRotates_complete :
    outgoingDone rotating 0 0 = true ∧
    after (.rotationComplete 0) rotating (fun t => ((die t 0).rot, spareOf t 0,
      rg t (dcSlot 0) spareStatusRotState)) = some (none, 0, 0) := by decide +kernel

theorem test_SpareRotates_test :
    spareOf r0 2 ≠ 0x3F ∧ (die r0 2).rot = none ∧
    after (.onlineTestPassEnd 2 true) r0 (fun t => (die t 2).spareTested) = some true ∧
    after (.onlineTestPassEnd 2 false) r0 (fun t => (spareOf t 2, clusterFailed t 2 32,
      bit (rg t (dcSlot 2) hdrSticky) 2)) = some (0x3F, true, true) := by decide +kernel

/-- R368: the spare of die 0 is under a CLUSTER test. -/
def spareTests : State := { setF (dcSlot 0) rotateCtlEn 1 tested with tests := [⟨0, 1, 0, 32, 5, none, true⟩] }

theorem test_SpareRotates_tested : underTest spareTests 0 (spareOf spareTests 0) = true ∧
    after (.rotationStart 0) spareTests (fun t => (die t 0).rot) = some none ∧
    after (.onlineTestPassEnd 0 true) spareTests (fun t => rg t stSlot (onlinePasses 0)) = some 0 := by
  decide +kernel

theorem test_ClusterFences_spare_takes :
    clusterFailed r0 0 5 = false ∧ spareOf r0 0 = 32 ∧
    after (.clusterFence 0 5) r0 (fun t => (clusterFailed t 0 5, mapPhys t 0 5, (die t 0).rot,
      bit (rg t (dcSlot 0) hdrSticky) 3)) = some (true, 32, some ⟨32, 5, 5⟩, true) ∧
    after (.clusterFence 0 32) r0 (fun t => (clusterFailed t 0 32, spareOf t 0,
      bit (rg t (dcSlot 0) hdrSticky) 2)) = some (true, 0x3F, true) := by decide +kernel

/-- Die 0 has no spare. -/
def spareless : State := nextOf (.clusterFence 0 32) r0

theorem test_ClusterFences_orphan :
    after (.clusterFence 0 31) spareless (fun t => ((die t 0).orphans, mapPhys t 0 31, mapPhys t 0 0)) =
      some ([31], 0, 0) ∧
    after (.clusterFence 0 32) spareless (fun t => decide (t = spareless)) = some true := by decide +kernel

/-- A fence during a rotation passes its index to no spare; one of the incoming cluster ends the rotation. -/
theorem test_ClusterFences_rotating :
    (isMapped rotating 0 7 = true ∧ (die rotating 0).rot ≠ none) ∧
    after (.clusterFence 0 7) rotating (fun t => ((die t 0).orphans, (die t 0).rot)) =
      some ([7], some ⟨32, 0, 0⟩) ∧
    after (.clusterFence 0 32) rotating (fun t => ((die t 0).rot, clusterFailed t 0 32)) = some (none, true) := by
  decide +kernel

theorem test_CensusCommands_clear :
    after (.censusClear .pcie1 1) { r0 with census := [(65535, 3), (65536, 4)] } (fun t => (t.census,
      rg t (dcSlot 1) censusStatusBusy, (die t 1).censusOp)) = some ([(65535, 3)], 1, some false) ∧
    after (.censusClear .pcie0 1) (setF (dcSlot 1) censusStatusBusy 1 { r0 with census := [(65536, 4)] })
      (fun t => t.census) = some [(65536, 4)] := by decide +kernel

/-- A census base that reaches no memory. -/
def farCensus : State := setF (dcSlot 0) censusBaseHi 0xFFF r0

theorem test_CensusCommands_snap :
    allReach r0 (censusBase r0 0) (2 ^ 21) = true ∧ allReach farCensus (censusBase farCensus 0) (2 ^ 21) = false ∧
    after (.censusSnap .pcie0 0 1) farCensus (fun t => (rg t (dcSlot 0) censusStatusSkipped,
      rg t (dcSlot 0) censusStatusBusy)) = some (1, 0) := by decide +kernel

/-- R90: a snapshot that is skipped still clears. -/
theorem test_CensusCommands_skipped : allReach farCensus (censusBase farCensus 0) (2 ^ 21) = false ∧
    after (.censusSnap .pcie0 0 2) { farCensus with census := [(5, 3)] } (fun t => (t.census,
      rg t (dcSlot 0) censusStatusSkipped, (die t 0).censusOp)) = some ([], 1, some false) := by decide +kernel

theorem test_CensusCommands_done :
    after (.censusOpDone 0) (updDie (setF (dcSlot 0) censusStatusSnapCount (2 ^ 29 - 1) r0) 0
      (fun x => { x with censusOp := some true })) (fun t => (rg t (dcSlot 0) censusStatusSnapCount,
      (die t 0).censusOp, rg t (dcSlot 0) censusStatusBusy)) = some (0, none, 0) := by decide +kernel

/-! ### The training sequencer -/

/-- A job block (R135): program at 0x4000 with two phases, layers at 0x5000, job 7. -/
def jobBlock : Nat :=
  fld 448 0x4000 + fld 384 0x5000 + fld 320 0x6000 + fld 256 0x6100 + fld 240 2 + fld 224 1 + fld 208 1 + fld 196 7

/-- Job 7 is a running member job, and SEQ_JOB of die 0 names the block at 0x100. -/
def withBlock (w : Nat) : State :=
  wrLe (setF (seqSlot 0) seqJobLo 4 { r0 with jobs := [(7, { member := true, state := 1 })] }) 0x100 64 w

theorem test_SequencerStartsStops_start :
    performs (withBlock jobBlock) (seqSlot 0) = true ∧ seqRunning (withBlock jobBlock) 0 = false ∧
    jobBlockOk (withBlock jobBlock) 0x100 jobBlock = true ∧
    after (.seqStart .pcie0 0 1) (withBlock jobBlock) (fun t => (rg t (seqSlot 0) seqStatusState,
      (seqOf t 0).job, (seqOf t 0).progBase, (seqOf t 0).progCount)) = some (1, 7, 0x4000, 2) ∧
    after (.seqStart .pcie0 0 1) (withBlock (jobBlock + 1)) (fun t => (rg t (seqSlot 0) seqStatusState,
      bit (rg t (seqSlot 0) hdrSticky) 0)) = some (3, true) := by decide +kernel

/-- R191: a start waits for its job block. -/
theorem test_SequencerStartsStops_waits :
    waitsDie (holdAt (withBlock jobBlock) 0x100) 0 [(0x100, 64)] = true ∧
    after (.seqStart .pcie0 0 1) (holdAt (withBlock jobBlock) 0x100) (fun t => ((seqOf t 0).wants,
      rg t (seqSlot 0) seqStatusState)) = some (true, 0) := by decide +kernel

theorem test_SequencerStartsStops_stop :
    after (.seqStop .pcie0 0 2) working (fun t => rg t (seqSlot 0) seqStatusState) = some 2 ∧
    after (.digClear .pcie0 3 4) (setF (seqSlot 3) (runDig 3) 9 r0) (fun t => rg t (seqSlot 3) (runDig 3)) =
      some 0 := by decide +kernel

/-- A descriptor of a phase without dependencies, outside any micro-batch: its type and further fields. -/
def plainPhase (ty more : Nat) : Nat := fld 84 ty + fld 100 0xFFF + fld 144 0xFFFF + fld 128 0xFFFF + more

/-- A die that runs a program of the one phase `w` at 0x4000, and the entry of layer 0 `ly`. -/
def program (w ly : Nat) : State :=
  let s := setF (seqSlot 0) seqStatusState 1 u0
  let s := updSeq s 0 (fun q => { q with
    job := 7, progBase := 0x4000, layerBase := 0x5000, evtBase := 0x6000, evtCount := 1, progCount := 1 })
  wrLe (wrLe s 0x4000 64 w) 0x5000 64 ly

/-- A ladder of two rungs that latches on overflow. -/
def twoRungs : Nat := fld 216 1 + fld 213 2

/-- A forward phase of one task with PROMOTE. -/
def fwd : Nat := plainPhase 1 (fld 176 1 + fld 72 1)

theorem test_PhaseStarts_forward : startsPhases (program fwd twoRungs) 0 = true ∧
    (choosePhase (program fwd twoRungs) 0).2 = some 0 ∧
    after (.phaseStart 0) (setF (seqSlot 0) seqCtlPromoEn 1 (program fwd twoRungs)) (fun t =>
      ((phaseOf t 0 0).stage, (phaseOf t 0 0).promote, (phaseOf t 0 0).entry)) =
      some (.working, true, twoRungs) ∧
    after (.phaseStart 0) (setF (seqSlot 0) seqCtlPromoEn 0 (program fwd twoRungs)) (fun t =>
      (phaseOf t 0 0).promote) = some false := by decide +kernel

theorem test_PhaseStarts_others :
    after (.phaseStart 0) (setF (seqSlot 0) seqCtlRecompEn 0 (program (plainPhase 3 0) 0)) (fun t =>
      ((phaseOf t 0 0).code, rdByte t 0x4038)) = some (5, 5) ∧
    after (.phaseStart 0) (program (plainPhase 4 0) 0) (fun t => (phaseOf t 0 0).stage) = some .posting ∧
    after (.phaseStart 0) (program (plainPhase 6 0) 0) (fun t => ((phaseOf t 0 0).code,
      rg t (seqSlot 0) seqStatusState, bit (rg t (seqSlot 0) hdrSticky) 0)) = some (6, 3, true) ∧
    (choosePhase working 0).2 = none := by decide +kernel

theorem test_PhaseStarts_layers :
    layerOk (fld 228 0xD) = false ∧ layerOk 0 = true ∧ optValid (fld 96 1024) (fld 224 1) = true ∧
    after (.phaseStart 0) (program (plainPhase 4 0) (fld 228 0xD)) (fun t => ((phaseOf t 0 0).code,
      rg t (seqSlot 0) seqStatusState)) = some (6, 3) ∧
    after (.phaseStart 0) (setF 0 lobeModeCur 1 (setF (seqSlot 0) seqCtlRecompEn 0 (program (plainPhase 3 0) 0)))
      (fun t => ((phaseOf t 0 0).stage, (phaseOf t 0 0).skipped)) = some (.exchange, true) ∧
    after (.phaseStart 0) (setF (seqSlot 0) seqCtlRecompEn 1 (program (plainPhase 3 0) 0)) (fun t =>
      (phaseOf t 0 0).stage) = some .posting ∧
    after (.phaseStart 0) (updSeq (program (plainPhase 5 0) 0) 0 (fun q => { q with
      counters := [(0, { buf := 0x8000, elems := 1024, kLog2 := 0, next := 1 })] })) (fun t =>
      (phaseOf t 0 0).stage) = some .posting := by
  decide +kernel

/-- The phase of `fwd` has dispatched its task, which has ended. -/
def attempt (latch : Bool) : State :=
  updSeq (program fwd twoRungs) 0 (fun q => { q with phases := [(0,
    { desc := fwd, entry := twoRungs, stage := .working, next := 1, promote := true, latch := latch })] })

theorem test_AttemptsResolve_alone (b : Bool) :
    goesOn (attempt b) 0 = true ∧ attemptEnded (attempt b) 0 0 = true ∧
    awaitsCommit (phaseOf (attempt b) 0 0) = true ∧
    groupOf (updPhase (attempt b) 0 0 (fun p => { p with latched := true })) 0 0 = [(0, 0)] := by
  cases b <;> decide +kernel

theorem test_AttemptsResolve_outcome :
    after (.phaseAttemptEnd 0 0) (attempt true) (fun t => (rg t (seqSlot 0) promoCount, (phaseOf t 0 0).rung,
      (phaseOf t 0 0).next, (phaseOf t 0 0).committed)) = some (1, 1, 0, false) ∧
    after (.phaseAttemptEnd 0 0) (attempt false) (fun t => (rg t (seqSlot 0) promoCount,
      (phaseOf t 0 0).rung, (phaseOf t 0 0).committed, (phaseOf t 0 0).stage)) =
      some (0, 0, true, .posting) := by decide +kernel

/-- Dies 0 and 1 have ended their attempts of one promotion group, and hold each other's latches. -/
def twoMembersUp (latch got : Bool) : State :=
  let p (l : Bool) : Phase :=
    { desc := fwd, entry := twoRungs, stage := .working, next := 1, promote := true, latch := l, latched := true }
  let s := setF (seqSlot 1) seqStatusState 1 (program fwd twoRungs)
  let s := updSeq s 0 (fun q => { q with phases := [(0, { p latch with latched := false })] })
  let s := updSeq s 1 (fun q => { q with
    job := 7, progBase := 0x4000, layerBase := 0x5000, evtBase := 0x6800, evtCount := 1, progCount := 1
    phases := [(0, p false)] })
  let s := updDie s 1 (fun x => { x with latches := [(0, latchValue latch 0)] })
  if got then updDie s 0 (fun x => { x with latches := [(1, latchValue false 0)] }) else s

theorem test_AttemptsResolve_group :
    groupOf (updPhase (twoMembersUp true true) 0 0 (fun p => { p with latched := true })) 0 0 = [(0, 0), (1, 0)] ∧
    after (.phaseAttemptEnd 0 0) (twoMembersUp true false) (fun t => ((phaseOf t 0 0).latched,
      (phaseOf t 0 0).rung)) = some (true, 0) ∧
    after (.phaseAttemptEnd 0 0) (twoMembersUp true true) (fun t => ((phaseOf t 0 0).rung,
      (phaseOf t 1 0).rung, rg t (seqSlot 1) promoCount)) = some (1, 1, 1) ∧
    after (.phaseAttemptEnd 0 0) (twoMembersUp false true) (fun t => ((phaseOf t 0 0).committed,
      (phaseOf t 1 0).committed, (die t 0).latches)) = some (true, true, []) := by decide +kernel

/-- Its latch is up for the other dies. -/
def latchedUp : State := updPhase (attempt true) 0 0 (fun p => { p with latched := true })

theorem test_AttemptsResolve_latch : groupMember latchedUp 0 (phaseOf latchedUp 0 0).desc 1 = none ∧
    after (.promotionLatchReceive 0 1 0) latchedUp (fun t => (die t 1).latches) = some [(0, 2)] := by
  decide +kernel

/-- A phase that has posted its list. -/
def posted (p : Phase) : State :=
  updSeq (setF (seqSlot 0) (runDig 0) 5 (program 0 0)) 0 (fun q => { q with phases := [(0, p)] })

theorem test_PhasesAndStepsEnd_phase :
    goesOn (posted { desc := plainPhase 4 0, stage := .posting, digest := 3 }) 0 = true ∧
    canComplete (posted { desc := plainPhase 4 0, stage := .posting, digest := 3 }) 0 0 = true ∧
    mustCompare (posted { desc := plainPhase 4 0, stage := .posting, digest := 3 }) 0 0 = false ∧
    after (.phaseComplete 0 0) (posted { desc := plainPhase 4 0, stage := .posting, digest := 3 })
      (fun t => ((phaseOf t 0 0).code, rdByte t 0x4038, rg t (seqSlot 0) (runDig 0))) = some (1, 1, 8) ∧
    after (.phaseComplete 0 0) (posted { desc := plainPhase 1 0, stage := .posting, drops := 2 })
      (fun t => ((phaseOf t 0 0).code, rdByte t 0x403C)) = some (2, 2) := by decide +kernel

/-- R153, R154: a backward phase hands its leaf over, and a refused one fails it. -/
def backward (cs : List (Nat × Counter)) : State :=
  updSeq (posted { desc := plainPhase 2 64, stage := .posting, acc := fld 0 0 }) 0 (fun q => { q with counters := cs })

theorem test_PhasesAndStepsEnd_backward :
    after (.phaseComplete 0 0) (backward []) (fun t => ((phaseOf t 0 0).code, (seqOf t 0).counters.length)) =
      some (1, 1) ∧
    after (.phaseComplete 0 0) (backward [(0, { buf := 0, elems := 0, kLog2 := 0, next := 1 })]) (fun t =>
      ((phaseOf t 0 0).code, rg t (seqSlot 0) seqStatusState)) = some (3, 3) := by decide +kernel

theorem test_PhasesAndStepsEnd_mirror :
    let s := setF 0 lobeModeCur 1 (posted { desc := plainPhase 5 0, stage := .posting })
    (canComplete s 0 0 = true ∧ mustCompare s 0 0 = true) ∧
    after (.phaseComplete 0 0) s (fun t => (phaseOf t 0 0).stage) = some .exchange := by decide +kernel

theorem test_PhasesAndStepsEnd_step :
    let s := setF (seqSlot 0) seqStep 0xFFFFFFFF (posted { stage := .complete, code := 1 })
    stepDone s 0 = true ∧
    after (.stepEnd 0) (setF (seqSlot 0) seqCtlLoop 1 s) (fun t => (rg t (seqSlot 0) seqStep,
      rg t (seqSlot 0) seqStatusState, (seqOf t 0).phases)) = some (0, 1, []) ∧
    after (.stepEnd 0) (setF (seqSlot 0) seqCtlLoop 0 s) (fun t => (rg t (seqSlot 0) seqStep,
      rg t (seqSlot 0) seqStatusState)) = some (0, 0) := by decide +kernel

/-- A counter of 1,024 elements and one leaf, at 0x8000. -/
def oneLeaf (rank : Nat) : State :=
  updSeq (wrLe (program (plainPhase 4 0) 0) 0x7000 4 0x3F800000) 0 (fun q => { q with
    counters := [(3, { buf := 0x8000, elems := 1024, kLog2 := 1, waiting := [(rank, 0x7000)] })] })

theorem test_LeavesInOrder_waits : goesOn (oneLeaf 1) 0 = true ∧ seqRunning (oneLeaf 1) 0 = true ∧
    after (.leafTake 0 3) (oneLeaf 1) (fun t => (seqOf t 0).counters.map (fun x => x.2.next)) = some [0] := by
  decide +kernel

theorem test_LeavesInOrder_takes : goesOn (oneLeaf 0) 0 = true ∧ seqRunning (oneLeaf 0) 0 = true ∧
    (seqOf (oneLeaf 0) 0).counters.find? (fun x => x.1 = 3) =
      some (3, { buf := 0x8000, elems := 1024, kLog2 := 1, waiting := [(0, 0x7000)] }) := by decide +kernel

/-- R191: a leaf that cannot be read waits. -/
theorem test_LeavesInOrder_held : waitsDie (holdAt (oneLeaf 0) 0x7000) 0 (leafReads
      { buf := 0x8000, elems := 1024, kLog2 := 1, waiting := [(0, 0x7000)] } 0x7000 0) = true ∧
    after (.leafTake 0 3) (holdAt (oneLeaf 0) 0x7000) (fun t => (seqOf t 0).counters.map (fun x => x.2.next)) =
      some [0] := by decide +kernel

/-- R153, R154: a leaf is handed over once. -/
theorem test_PhasesAndStepsEnd_leaf : (handLeaf (program 0 0) 0 3 0).2 = true ∧
    (handLeaf (oneLeaf 0) 0 3 0).2 = false := by decide +kernel

/-- R38: 1.0 alone in a block of W16B. -/
theorem test_w16_block : w16Conv .nearest (.fin false 1 0 :: List.replicate 31 .zero) =
    (127, 0x4000 :: List.replicate 31 0) := by decide +kernel

/-- Die 1 runs with a phase complete. -/
def told : State := updSeq u0 1 (fun q => { q with
  stepNo := 4, phases := [(2, { stage := .complete, code := 1 })] })

theorem test_DiesAgree_dep : isDone (phaseOf told 1 2) = true ∧ startsPhases told 3 = false ∧
    after (.crossDieDepSignal 1 3 2) told (fun t => (die t 1).told) = some [(11, 5)] := by decide +kernel

/-- R200: without a control bundle between them nothing passes. -/
theorem test_DiesAgree_shut : ctrlOpen r0 1 3 = false ∧
    after (.crossDieDepSignal 1 3 2) { told with regs := r0.regs } (fun t => (die t 1).told) = some [] := by
  decide +kernel

/-- Dies 0 and 2 of a package in Paired mode; phase 0 of die 2 waits for its comparison. -/
def mirrored : State := updSeq (setF 0 lobeModeCur 1 u0) 2 (fun q => { q with
  phases := [(0, { desc := plainPhase 5 0, stage := .exchange, digest := 6 })] })

theorem test_DiesAgree_mirror :
    (dieRuns mirrored 0 = true ∧ dieRuns mirrored 2 = true ∧ isCompared mirrored 2 0 = true) ∧
    after (.mirrorExchangeReceive 0 0) mirrored (fun t => mget 0 (die t 0).mirror 0) =
      some (mirrorValue mirrored 2 0 + 1) ∧ mirrorValue mirrored 2 0 = 6 * 2 ^ 128 + 2 ^ 20 := by decide +kernel

/-- A mismatch of phase 0 of die 0 stays. -/
def stuck (p : PairTest) : State :=
  updSeq (setF (seqSlot 0) seqStatusState 1 (setF 0 lobeModeCur 1 { r0 with
    jobs := [(7, { member := true, state := 1 })], pairTest := p })) 0 (fun q => { q with
      job := 7, phases := [(0, { stage := .exchange, tries := 2 })] })

theorem test_DiesAgree_selfTest_starts :
    pairDrained (stuck (.wanted 0)) = true ∧ stuckDies (stuck .idle) = [0] ∧
    after .pairSelfTestStart (stuck (.wanted 0)) (fun t => t.pairTest) = some (.running 0 [(0, 7)]) := by
  decide +kernel

theorem test_DiesAgree_selfTest_passes :
    after (.pairSelfTestResult true true) (stuck (.running 0 [(0, 7)])) (fun t => (rg t (seqSlot 0) pairLastOutcome,
      rg t (seqSlot 0) seqStatusState)) = some (3, 3) := by decide +kernel

/-- R367: a LOBE test that has started goes first. -/
theorem test_DiesAgree_selfTest_waits :
    after .pairSelfTestStart { stuck (.wanted 0) with tests := [⟨0, 3, 1, 0, 5, none, true⟩] } (fun t => t.pairTest) =
      some (.wanted 0) := by decide +kernel

/-! ### The Rilun links -/

/-- The near end of edge 0. -/
def e0 : EdgeEnd := ⟨0, false⟩

/-- The payload word of each column. -/
def words : List Nat := (List.range 64).map (fun k => 7 * k)

/-- A flit with sequence number 3, its code computed and placed as R195 gives them: copies of P, Q, P and Q, two
bits on each of 16 lanes, below the payload; one column hurt by `err`. -/
def flit (col err : Nat) : DataFlit :=
  let cols := (List.range 64).map (fun k =>
    let w := if k / 16 % 2 = 0 then checkP words else checkQ words
    7 * k + w / 4 ^ (k % 16) % 4 * 2 ^ 32)
  { cols := cols.set col (cols.getD col 0 ^^^ err), seq := 3 }

theorem test_FlitCodeCorrects_columns :
    (checkP words = checkCopy (flit 0 0) 0 ∧ checkQ words = checkCopy (flit 0 0) 3) ∧
    decodeFlit (flit 0 0) = some (words, none) ∧ decodeFlit (flit 63 0x80000001) = some (words, some 63) ∧
    decodeFlit (flit 20 0x300000000) = some (words, none) ∧
    decodeFlit { flit 5 1 with cols := (flit 5 1).cols.set 9 0 } = none := by decide +kernel

/-- Edge 0 is up, with a bundle of 64 lanes and a free spare and a control bundle. -/
def edgeRuns (f : EdgeSide → EdgeSide) : State :=
  let b : BundleEnd := { up := true, mask := 2 ^ 64 - 1, spares := 2 ^ 64 }
  [e0, ⟨0, true⟩].foldl (fun s e => ewg (setEdgeSide s e (f { bundles := [(0, b)], ctrl := [(0, { up := true })] })) e edgeStatusState 3) r0

/-- The far end has sent three flits of edge 0, and the near end has taken `n`. -/
def expects (n : Nat) : State := edgeRuns (fun x => { x with rxNext := n, txNext := 3 })

theorem test_DataFlits_delivers :
    (edgeUp (expects 3) e0 = true ∧ endRuns (expects 3) e0 = true ∧ (bundleOf (expects 3) e0 0).up = true ∧
      (bundleOf (expects 3) e0 0).sparing = none ∧ (bundleOf (expects 3) e0 0).aside = false) ∧
    hasSent (keepFlit (expects 3) (farEnd e0) (flit 0 0)) (farEnd e0) 3 0 = true ∧
    after (.dataFlitReceive e0 0 (flit 0 0)) (expects 3) (fun t => ((edgeSide t e0).rxNext,
      (edgeSide t e0).delivered, (edgeSide t (farEnd e0)).replay)) =
      some (4, [words], [{ seq := 3, bundle := 0 }]) ∧
    after (.dataFlitReceive e0 0 (flit 0 0)) (expects 4) (fun t => ((edgeSide t e0).rxNext,
      (edgeSide t e0).delivered)) = some (4, []) := by decide +kernel

theorem test_DataFlits_early_and_corrected :
    after (.dataFlitReceive e0 0 (flit 0 0)) (expects 0) (fun t =>
      ((edgeSide t e0).rxHeld.map Prod.fst, (edgeSide t e0).delivered)) = some ([3], []) ∧
    after (.dataFlitReceive e0 0 (flit 63 1)) (expects 3) (fun t => ((bundleOf t e0 0).counts,
      erg t e0 corrCount, (edgeSide t e0).rxNext)) = some ([(63, 1)], 1, 4) := by decide +kernel

/-- Edge 0 trains. -/
def trains (st : Nat) : State := [e0, farEnd e0].foldl (fun s e => ewg s e edgeStatusState st) r0

theorem test_DataFlits_not_sent_and_held :
    hasSent (keepFlit (expects 3) (farEnd e0) (flit 0 0)) (farEnd e0) 3 1 = false ∧
    hasSent (keepFlit (edgeRuns (fun x => { x with txNext := 4 })) (farEnd e0) (flit 0 0)) (farEnd e0) 3 0 =
      false ∧
    (edgeUp (trains 1) e0 = false ∧ comesUp (trains 1) e0 = true ∧ endRuns (trains 1) (farEnd e0) = true) ∧
    after (.dataFlitReceive e0 0 (flit 0 0)) (trains 1) (fun t => ((edgeSide t (farEnd e0)).held,
      (edgeSide t e0).delivered)) = some ([flit 0 0], []) := by decide +kernel

/-- The near end keeps flits 5 and 6, and the far end has taken all below `n`. -/
def keeps (n : Nat) : State := edgeRuns (fun x => { x with
  rxNext := n, txNext := 7, replay := [{ seq := 5, bundle := 0 }, { seq := 6, bundle := 0 }] })

theorem test_DataFlits_ack :
    after (.dataFlitAck e0 5) (keeps 7) (fun t => (edgeSide t e0).replay.map Kept.seq) = some [6] ∧
    after (.dataFlitAck e0 6) (keeps 6) (fun t => (edgeSide t e0).replay.map Kept.seq) = some [6] ∧
    after .laneCountDecay (edgeRuns (fun x => { x with
      bundles := [(0, { up := true, counts := [(1, 1), (2, 5)] })] })) (fun t => (bundleOf t e0 0).counts) =
      some [(2, 2)] := by decide +kernel

/-- Lane 9 of the bundle is spared by lane 64. -/
def spares : State := edgeRuns (fun x => { x with
  bundles := [(0, { up := true, mask := 2 ^ 64 - 1, spares := 2 ^ 64, sparing := some (9, 64) })] })

theorem test_LinksRecover_sparing : edgeUp spares e0 = true ∧ (bundleOf spares e0 0).sparing = some (9, 64) ∧
    after (.sparingComplete 0 0 true) spares (fun t => ((bundleOf t e0 0).mask, (edgeSide t e0).epoch)) =
      some (2 ^ 65 - 1 - 2 ^ 9, 2) ∧
    after (.sparingComplete 0 0 false) spares (fun t => ((bundleOf t e0 0).mask, (bundleOf t e0 0).failing)) =
      some (2 ^ 64 - 1, [9]) := by decide +kernel

/-- Edge 0 reconciles. -/
def reconciles (a b : Nat) : State :=
  setEdgeSide (setEdgeSide (trains 2) e0 { epoch := a }) (farEnd e0) { epoch := b }

theorem test_LinksRecover_reconcile_differs : edgeTrains (reconciles 1 2) 0 2 = true ∧
    (edgeSide (reconciles 1 2) e0).epoch ≠ (edgeSide (reconciles 1 2) ⟨0, true⟩).epoch := by
  decide +kernel

theorem test_LinksRecover_reconcile_same :
    mapHash (reconciles 2 2) e0 = mapHash (reconciles 2 2) ⟨0, true⟩ ∧
    edgeTrains (reconciles 2 2) 0 2 = true := by
  refine ⟨?_, by decide +kernel⟩
  unfold mapHash
  rw [show laneMap (reconciles 2 2) e0 = laneMap (reconciles 2 2) ⟨0, true⟩ by decide +kernel]

theorem test_LinksRecover_training : edgeTrains (trains 1) 0 1 = true ∧
    after (.edgeTrainingComplete 0 ⟨5, [List.replicate 68 9], 3⟩) (trains 1) (fun t =>
      ((bundleOf t e0 0).mask, (bundleOf t e0 0).spares, edgeUp t e0, (edgeSide t e0).epoch)) =
      some (2 ^ 64 - 1, 15 * 2 ^ 64, true, 2) := by decide +kernel

/-- R199: a bundle without 64 good lanes does not come up. -/
theorem test_LinksRecover_bundles : (trainBundle {} 5 (List.replicate 68 1)).up = false ∧
    (trainBundle {} 5 (List.replicate 68 9)).up = true := by decide +kernel

/-- Both control bundles of edge 0 are up, and the near end has sent flit 4. -/
def control (fails : Nat) : State := edgeRuns (fun x => { x with
  ctrl := [(0, { up := true, fails := fails, unacked := [(4, 1)] }), (1, { up := true })] })

theorem test_ControlFlits_receive :
    (endRuns (control 3) e0 = true ∧ (ctrlOf (control 3) e0 0).up = true) ∧
    after (.controlFlitReceive e0 0 ⟨1, ctrlCrc 1, 4, true⟩) (control 3) (fun t =>
      ((ctrlOf t e0 0).unacked, (ctrlOf t e0 0).fails)) = some ([], 0) ∧
    after (.controlFlitReceive e0 0 ⟨1, ctrlCrc 1, 7, false⟩) (control 3) (fun t =>
      (ctrlOf t e0 0).received) = some [7] := by decide +kernel

theorem test_ControlFlits_timeout :
    after (.controlAckTimeout e0 0) (control 3) (fun t => ((ctrlOf t e0 0).fails, (ctrlOf t e0 0).up,
      erg t e0 ctrlRetry)) = some (4, true, 1) ∧
    after (.controlAckTimeout e0 0) (control 15) (fun t => ((ctrlOf t e0 0).up, (ctrlOf t e0 1).unacked)) =
      some (false, [(0, 1)]) := by decide +kernel

/-! ### Optics -/

/-- A qualification descriptor (R210) of key slot 0 and no other field than CAPS. -/
def descriptor : List Byte :=
  leBytes 16 (0x4F454431 + 1 * 2 ^ 32) ++ leBytes 8 (0x14 * 2 ^ 32) ++ List.replicate 232 0

theorem test_OpticalEngines_admits (key : List Byte) (h : Config.keySlot false 0 = some key)
    (v : Config.edVerify key (sha512 (descriptor.take 0xC0)) ((descriptor.drop 0xC0).take 64) = true) :
    admitReason r0 (some descriptor) = 0 := by
  have e : fieldOf descriptor 0x28 1 = 0 := by decide +kernel
  have a : ¬ (fieldOf descriptor 0 4 ≠ 0x4F454431 ∨ fieldOf descriptor 4 2 ≠ 1) := by decide +kernel
  have b : (zeroBytes descriptor 6 8 && zeroBytes descriptor 0x29 0x30 &&
    zeroBytes descriptor 0x3C 0xC0) = true := by decide +kernel
  have c : bit (rg r0 fuseSlot fuseStateRevQual) 0 = false := by decide +kernel
  have d : ¬ (bits (fieldOf descriptor 0x14 4) 0 4 ≠ 4 ∨ (!bit (fieldOf descriptor 0x14 4) 4) = true) := by
    decide +kernel
  simp only [admitReason, e]
  rw [if_neg a, if_neg (by simp [b]), if_neg (by simp [c])]
  simp only [h]
  rw [if_neg (by simp [v]), if_neg d]

theorem test_OpticalEngines_refuses :
    (performs r0 (oeSlot 0) = true ∧ rg r0 (oeSlot 0) oeStatusAdmit ≤ 1 ∧ oeTurn r0 0 = true ∧ oeTurn r0 7 = false) ∧
    after (.oeAdmission 0 ⟨none, 0, 0, []⟩) r0 (fun t => (rg t (oeSlot 0) oeStatusAdmit,
      rg t (oeSlot 0) oeStatusReason, bit (rg t (oeSlot 0) hdrSticky) 0)) = some (3, 1, true) ∧
    after (.oeRetry .pcie1 7) (setF (oeSlot 7) oeStatusAdmit 3 r0) (fun t =>
      rg t (oeSlot 7) oeStatusAdmit) = some 1 ∧
    after (.oeRetry .pcie1 7) (setF (oeSlot 7) oeStatusAdmit 2 r0) (fun t =>
      rg t (oeSlot 7) oeStatusAdmit) = some 2 := by decide +kernel

/-- OE die 0 is admitted with a least power of 10.0 dBm; group 0 waits for light. -/
def admitted : State :=
  updGroup (setF (oeSlot 0) oeStatusModUp 15 (setF (oeSlot 0) oeStatusAdmit 2 { r0 with
    oe := [(0, { laserMin := 100 })] })) 0 (fun x => { x with waitLight := true })

theorem test_OpticalEngines_laser :
    after (.laserMonitor 0 [100, 101, 102, 103, 104, 105, 106, 170]) admitted (fun t =>
      (rg t (oeSlot 0) (laserMon 0), rg t (oeSlot 0) (laserMon 1), rg t (oeSlot 0) hdrSticky)) =
      some (0x67666564, 0xAA6A6968, 0) ∧
    after (.groupLightRecheck 0 [100, 100, 100, 100]) admitted (fun t => (ggt t 0 groupStatusState,
      (optGroup t 0).waitLight)) = some (2, false) ∧
    after (.groupLightRecheck 0 [100, 100, 99, 100]) admitted (fun t => (optGroup t 0).waitLight) =
      some true := by decide +kernel

/-- What the clauses on an OE die ask: its turn, and powers that are all in range. -/
theorem test_OpticalEngines_hypotheses :
    (oeRuns r0 0 = true ∧ oeOff r0 0 = false ∧ rg r0 (oeSlot 0) oeStatusAdmit = 0 ∧ oeTurn r0 1 = false) ∧
    oeRuns admitted 0 = true ∧ rg admitted (oeSlot 0) oeStatusAdmit = 2 ∧ (optGroup admitted 0).waitLight = true ∧
    after (.oeAdmission 1 ⟨none, 0, 0, []⟩) r0 (fun t => t.regs) = some [] ∧
    after (.laserMonitor 0 [99, 101, 102, 103, 104, 105, 106, 171]) admitted (fun t =>
      rg t (oeSlot 0) hdrSticky / 8 % 4) = some 3 := by decide +kernel

/-- Group 0, of port 0, has a state. -/
def groupIn (st : Nat) (f : OptGroup → OptGroup) : State := updGroup (gst u0 0 groupStatusState st) 0 f

theorem test_GroupsTrainAndRetrain_training :
    (groupPort (groupIn 2 id) 0 = some 0 ∧ inTraining (groupIn 2 id) 0 = true ∧
      neighbourPos (groupIn 2 id) 0 = some 1) ∧
    after (.groupTrainingComplete 0 ⟨2, 0, 0xFF, 0xFF⟩) (groupIn 2 id) (fun t => (ggt t 0 groupStatusState,
      (optGroup t 0).miswired, bit (rg t 3 hdrSticky) 0)) = some (4, true, true) ∧
    after (.groupTrainingComplete 0 ⟨1, 0, 0xFE, 0xFD⟩) (groupIn 2 id) (fun t => (ggt t 0 groupStatusState,
      ggt t 0 groupStatusWidth, ggt t 0 groupStatusTxLanes, ggt t 0 groupStatusRxLanes)) =
      some (3, 6, 0x7E, 0x7D) := by decide +kernel

theorem test_GroupsTrainAndRetrain_few :
    after (.groupTrainingComplete 0 ⟨1, 0, 0x07, 0xFF⟩) (groupIn 2 id) (fun t => (ggt t 0 groupStatusState,
      ggt t 0 groupStatusWidth)) = some (4, 0) ∧
    after (.groupAbsent 0) (groupIn 2 id) (fun t => ggt t 0 groupStatusState) = some 1 ∧
    after (.absentGroupProbe 0 true) (setF (oeSlot 0) oeStatusModUp 15 (groupIn 1 id)) (fun t => ggt t 0 groupStatusState) = some 2 ∧
    after (.absentGroupProbe 0 false) (groupIn 1 id) (fun t => ggt t 0 groupStatusState) = some 1 := by
  decide +kernel

theorem test_GroupsTrainAndRetrain_lane :
    groupUp (groupIn 3 id) 0 = true ∧
    after (.optLaneFail 0 ⟨7, .power 10⟩) (groupIn 3 id) (fun t => ggt t 0 groupStatusState) = some 3 ∧
    after (.optLaneFail 0 ⟨7, .power 9⟩) (groupIn 3 id) (fun t => (ggt t 0 groupStatusState,
      (optGroup t 0).retraining, bit (rg t (oeSlot 0) hdrSticky) 1)) = some (2, true, true) ∧
    after (.groupRetrainComplete 0 ⟨1, 0, 0xFF, 0x7F⟩) (groupIn 2 (fun x => { x with retraining := true }))
      (fun t => (ggt t 0 groupStatusState, ggt t 0 groupStatusWidth, (optGroup t 0).retraining)) =
      some (3, 6, false) := by decide +kernel

/-- R215, R221: a wavelength below its minimum fails lanes 0 and 4 of an up group, and sends one in its first
training back to its light. -/
def lit (st : Nat) (f : OptGroup → OptGroup) : State :=
  setF (oeSlot 0) oeStatusAdmit 2 { groupIn st f with oe := [(0, { laserMin := 100 })] }

theorem test_GroupsTrainAndRetrain_wavelength :
    let low : List Int := 99 :: List.replicate 7 100
    after (.laserMonitor 0 low) (lit 3 id) (fun t => ((optGroup t 0).retraining, groupUp t 0,
      bit (rg t (oeSlot 0) hdrSticky) 1)) = some (true, false, true) ∧
    after (.laserMonitor 0 low) (lit 2 (fun x => { x with retraining := true })) (fun t => ((optGroup t 0).failed,
      (optGroup t 0).failedTx)) = some (0x11, 0x11) ∧
    after (.laserMonitor 0 low) (lit 2 id) (fun t => (ggt t 0 groupStatusState, (optGroup t 0).waitLight)) =
      some (0, true) ∧ inTraining (lit 2 id) 0 = true := by decide +kernel

/-- R221: a lane that failed in the retrain and passed starts a further one. -/
theorem test_GroupsTrainAndRetrain_late :
    after (.optLaneFail 0 ⟨7, .lock⟩) (groupIn 2 (fun x => { x with retraining := true })) (fun t =>
      ((optGroup t 0).failed, bit (rg t (oeSlot 0) hdrSticky) 1)) = some (0x80, true) ∧
    after (.groupRetrainComplete 0 ⟨1, 0, 0xFF, 0xFF⟩) (groupIn 2 (fun x => { x with
      retraining := true, failed := 0x80 })) (fun t => (ggt t 0 groupStatusState,
      (optGroup t 0).retraining)) = some (2, true) := by decide +kernel

/-! ### The fabric -/

/-- Port 0 has an up group, and job 7 has a state. -/
def fabric (j : Job) : State := { groupIn 3 id with jobs := mset {} [] 7 j }

/-- Job 7 runs here, in epoch 2. -/
def runsJob : State := fabric { member := true, state := 1, epoch := 2 }

/-- A store of 32 bytes at 0x2000 from position 1, for job 7 in epoch 2. -/
def rst : Packet :=
  { type := 5, len := 1, dest := 0, src := 1, job := 7, epoch := 2, addr := 0x2000, bytes := 31
    payload := List.replicate 64 5 }

theorem test_RouterChecksPackets_refused : portUp runsJob 0 = true ∧
    (isMalformed { rst with resv := 1 } = true ∧ isMalformed { rst with addr := 0x27E1 } = true ∧
      isMalformed { rst with addr := 0x27E0 } = false ∧ isMalformed rst = false) ∧
    after (.routerPacketEnter (some 0) { rst with resv := 1 }) runsJob (fun t => (rg t 3 discMalf,
      t.outq.map (fun w => (w.port, w.pkt.type, w.pkt.status, w.pkt.dest)))) = some (1, [(0, 8, 7, 1)]) ∧
    after (.routerPacketEnter (some 0) rst) (fabric {}) (fun t => (rg t 3 discTransit,
      t.outq.map (fun w => (w.pkt.type, w.pkt.status)))) = some (1, [(8, 6)]) := by decide +kernel

theorem test_RouterChecksPackets_stale_and_routed :
    after (.routerPacketEnter (some 0) { rst with epoch := 3 }) runsJob (fun t => (rg t 3 discStale,
      t.outq)) = some (1, []) ∧
    after (.routerPacketEnter (some 0) rst) runsJob (fun t => t.inbox) = some [rst] ∧
    after (.routerPacketEnter (some 0) { rst with dest := 2 }) (fabric { transit := true }) (fun t =>
      t.outq) = some [⟨0, 2, false, { rst with dest := 2 }, some (0, { rst with dest := 2 }), false⟩] := by decide +kernel

/-- A packet for position 2 of which a part has arrived on port 0, and one for this package. -/
def inPart (p : Packet) (out : Option (Nat × Packet)) : State :=
  setLink (fabric { transit := true }) 0 { rx := 1, seen := 1, part := [⟨2, p, 1, 0, out.isSome, out⟩] }

theorem test_RouterChecksPackets_part :
    (openPart (inPart { rst with dest := 2 } none) 0 { rst with dest := 2 }).isSome = true ∧
    after (.routerPacketEnter (some 0) { rst with dest := 2 }) (inPart { rst with dest := 2 } none) (fun t =>
      (t.outq.map (fun w => (w.port, w.cut)), (linkOf t 0).part.map PartIn.entered)) = some ([(0, true)], [true]) ∧
    (openPart (inPart rst none) 0 rst).isSome = true ∧
    after (.routerPacketEnter (some 0) rst) (inPart rst none) (fun t => (t.inbox, t.outq)) = some ([], []) := by
  decide +kernel

/-- A packet of the package itself without a job. -/
def admin (dest : Nat) : Packet := { type := 0xC, dest := dest }

theorem test_RouterChecksPackets_own :
    isMalformed (admin 0) = false ∧ nextPort r0 0 = none ∧
    after (.routerPacketEnter none (admin 0)) { r0 with inject := [admin 0] } (fun t =>
      (t.inject, t.inbox)) = some ([], [admin 0]) := by decide +kernel

/-- A package inside the mesh. -/
def inside : State := { r0 with pins := { straps := ⟨5, 6, 7, 0, 0, false⟩ } }

/-- R236: X first, then Y, then Z. -/
theorem test_RoutesApproach_ways :
    ([0x71C5 - 0, 0x7186, 0x7184, 0x71C5, 0x7145, 0x8185, 0x6185, 0x7185].map (nextPort inside)) =
      [some 2, some 0, some 1, some 2, some 3, some 4, some 5, none] ∧ myPos inside = 0x7185 ∧
    ([0, 1, 2, 3, 4, 5].map (neighbourPos inside)) =
      [some 0x7186, some 0x7184, some 0x71C5, some 0x7145, some 0x8185, some 0x6185] := by decide +kernel

theorem test_RoutesApproach_waits : portShut { inside with inject := [admin 0x7186] } 0 = false ∧
    after (.routerPacketEnter none (admin 0x7186)) { inside with inject := [admin 0x7186] }
      (fun t => (t.inject, t.outq)) = some ([], [⟨0, 0, false, admin 0x7186, none, false⟩]) := by decide +kernel

/-- A packet waits for port 0 with just the credits it takes. -/
def waits : State := setLink { runsJob with outq := [⟨0, 2, false, rst, none, false⟩] } 0
  { used := [(2, 1790)], tx := 16383 }

/-- The codeword that carries it. -/
def itsCodeword : Codeword := { pad := 2, seq := 16383, flits := [.head rst, .body 2] }

theorem test_LinksCarryPackets_may : headOf waits 0 2 false = some ⟨0, 2, false, rst, none, false⟩ ∧
    canStart waits ⟨0, 2, false, rst, none, false⟩ = true ∧ vcTurn waits 0 2 = true ∧
    canStart (setLink waits 0 { used := [(2, 1791)] }) ⟨0, 2, false, rst, none, false⟩ = false := by decide +kernel

theorem test_LinksCarryPackets_started :
    after (.packetLinkStart 0 2 false) waits (fun t => (t.outq, t.tx)) =
      some ([], [(0, { itsCodeword with ack := 16383 })]) ∧
    after (.packetLinkStart 0 2 false) waits (fun t => ((linkOf t 0).used, (linkOf t 0).replay,
      (linkOf t 0).tx)) = some ([(2, 1792)], [itsCodeword], 0) := by decide +kernel

/-- Credits come back in a link flit. -/
def giveBack : Flit := .link (.credit 2 false 5)

theorem test_LinksCarryPackets_code :
    after (.codewordReceive 0 { bad := 9 }) runsJob (fun t => t.tx) =
      some [(0, { kind := .nak, ack := 16383 })] ∧
    after (.codewordReceive 0 { bad := 7, fum := true }) runsJob (fun t => t.tx.length) = some 1 ∧
    after (.codewordReceive 0 { bad := 8, pad := 3, flits := [giveBack] }) waits (fun t =>
      ((linkOf t 0).used, (linkOf t 0).rx, t.tx.map (fun x => x.2.kind))) =
      some ([(2, 1785)], 1, [.idle]) := by decide +kernel

theorem test_LinksCarryPackets_order :
    after (.codewordReceive 0 { seq := 1, ack := 16383, pad := 3, flits := [giveBack] }) waits (fun t =>
      ((linkOf t 0).used, (linkOf t 0).rx, (linkOf t 0).early.length)) = some ([(2, 1790)], 0, 1) ∧
    after (.codewordReceive 0 { seq := 16383, pad := 3, flits := [giveBack] }) waits (fun t =>
      ((linkOf t 0).used, (linkOf t 0).rx)) = some ([(2, 1790)], 0) ∧
    after (.codewordReceive 0 { kind := .nak, seq := 16383, ack := 16382 }) (setLink runsJob 0
      { replay := [itsCodeword] }) (fun t => t.tx.map Prod.fst) = some [0] ∧
    after (.codewordReceive 0 { kind := .idle, ack := 16383 }) (setLink runsJob 0 { replay := [itsCodeword] })
      (fun t => (linkOf t 0).replay) = some [] := by decide +kernel

theorem test_LinksCarryPackets_parts :
    after (.codewordReceive 0 { pad := 3, flits := [.head rst] }) runsJob (fun t => (t.arrived,
      (linkOf t 0).rx, (linkOf t 0).ack)) = some ([], 1, 16383) ∧
    after (.codewordReceive 0 { pad := 3, seq := 1, flits := [.body 2] }) (setLink runsJob 0
      { rx := 1, seen := 1, part := [{ vc := 2, pkt := rst, left := 1, first := 0 }] }) (fun t => (t.arrived, (linkOf t 0).ack)) =
      some ([(0, rst)], 1) ∧
    after (.linkFlitReceive 0 ⟨1, 0, .truncate 2⟩) (setLink runsJob 0
      { rx := 1, seen := 1, part := [{ vc := 2, pkt := rst, left := 1, first := 0 }] }) (fun t => (t.arrived, (linkOf t 0).part)) =
      some ([], []) := by decide +kernel

/-- Ports 0 and 2 are up, and a packet from port 2 is to leave on port 0 with its last flit still to come. -/
def cutThrough : State :=
  let p := { rst with dest := 2 }
  let s := updGroup (gst (fabric { transit := true }) 2 groupStatusState 3) 2 id
  { setLink s 2 { rx := 1, seen := 1, part := [⟨2, p, 1, 0, true, none⟩] } with
    outq := [⟨0, 2, false, p, some (2, p), true⟩] }

/-- R230: the part that has arrived leaves; a truncation follows where the rest does not come. -/
theorem test_LinksCarryPackets_cut :
    (canStart cutThrough ⟨0, 2, false, { rst with dest := 2 }, some (2, { rst with dest := 2 }), true⟩ = true ∧
      vcTurn cutThrough 0 2 = true ∧ portUp cutThrough 2 = true) ∧
    after (.packetLinkStart 0 2 false) cutThrough (fun t => (t.tx.map (fun c => (c.1, c.2.flits)),
      (linkOf t 2).part.map PartIn.out)) =
      some ([(0, [.head { rst with dest := 2 }])], [some (0, { rst with dest := 2 })]) ∧
    after (.linkFlitReceive 2 ⟨1, 16383, .truncate 2⟩) (nextOf (.packetLinkStart 0 2 false) cutThrough) (fun t =>
      ((linkOf t 0).replay.map Codeword.flits, (linkOf t 2).part)) =
      some ([[.head { rst with dest := 2 }], [.link (.truncate 2)]], []) := by decide +kernel

/-- Port 0 has lost its groups; a packet waits, another is not acknowledged. -/
def loses : State := setLink { groupIn 4 id with outq := [⟨0, 2, false, rst, none, false⟩] } 0
  { replay := [{ itsCodeword with flits := [.head { rst with dest := 1 }, .body 2] }] }

theorem test_PortsGoDown_port :
    (portDark loses 0 = false ∧ portUp loses 0 = false ∧ (linkOf loses 0).isDown = false) ∧
    after (.portDown 0) loses (fun t => ((linkOf t 0).isDown, rg t 3 discRoute,
      bit (rg t 3 hdrSticky) 1, t.inbox)) = some (true, 2, true, [rst]) := by decide +kernel

theorem test_PortsGoDown_admin :
    after (.adminReceive 0 0x3F) runsJob (fun t => (t.nbrUp, t.sidestep)) =
      some ([(0, 0x3F)], [(2, 1), (3, 1), (4, 1), (5, 1)]) ∧
    after .adminExchangeSend runsJob (fun t => t.inject.map (fun p => (p.type, p.dest, p.len))) =
      some [(0xC, 1, 1)] := by decide +kernel

/-- R240: what an aborted job had not delivered is discarded with its port. -/
theorem test_PortsGoDown_stale : jobCheck { loses with jobs := [(7, { member := true, state := 2, epoch := 2 })] }
      { rst with dest := 1 } = 2 ∧
    after (.portDown 0) { loses with jobs := [(7, { member := true, state := 2, epoch := 2 })], outq := [] } (fun t =>
      (rg t 3 discStale, rg t 3 discRoute)) = some (1, 0) := by decide +kernel

/-- A packet that has waited, for a job in a state. -/
def waited (detour : Bool) (st : Nat) : State :=
  { fabric { member := true, state := st } with outq := [⟨0, 2, detour, rst, none, false⟩] }

theorem test_PortsGoDown_timeouts :
    (waited true 1).outq[0]? = some ⟨0, 2, true, rst, none, false⟩ ∧
    after (.detourCreditTimeout 0) (waited true 1) (fun t => (rg t 3 discRoute,
      t.outq.map (fun w => w.pkt.status))) = some (1, [5]) ∧
    after (.detourCreditTimeout 0) (waited false 1) (fun t => rg t 3 discRoute) = some 0 ∧
    after (.packetWaitTimeout 0) (waited false 1) (fun t => (rg t 3 discRoute,
      t.outq.map (fun w => w.pkt.status))) = some (1, [5]) ∧
    after (.packetWaitTimeout 0) (waited false 2) (fun t => (rg t 3 discRoute, t.outq)) =
      some (1, []) := by decide +kernel

/-! ### Remote accesses and fabric time -/

/-- A request has been delivered; job 7 has a window over the first 64 KiB; the board is of shape 1. -/
def target (p : Packet) : State :=
  { runsJob with
    inbox := [p], pins := { straps := ⟨0, 0, 0, 1, 0, false⟩ }
    jw := [(0, { valid := true, base := 0, units := 1, job := 7 })] }

theorem test_RemoteAccesses_store :
    (remoteCheck (target rst) rst = 0 ∧ rst.rseq = expectSeq (target rst) rst ∧
      isPaired (target rst) = false ∧ pairedForm (target rst) = false) ∧
    after (.remoteStore rst) (target rst) (fun t => (rdByte t 0x1FFF, rdByte t 0x2000, rdByte t 0x201F,
      rdByte t 0x2020)) = some (0, 5, 5, 0) ∧
    after (.remoteStore rst) (target rst) (fun t => (t.inject.map (fun p => (p.type, p.dest, p.status)),
      expectSeq t rst)) = some ([(7, 1, 0)], 1) := by decide +kernel

theorem test_RemoteAccesses_refused :
    remoteCheck (target { rst with addr := 0x10000 }) { rst with addr := 0x10000 } = 2 ∧
    remoteCheck (target { rst with src := 2 }) { rst with src := 2 } = 3 ∧
    after (.remoteStore { rst with addr := 0x10000 }) (target { rst with addr := 0x10000 }) (fun t =>
      (t.mem, t.inject.map (fun p => p.status))) = some ([], [2]) := by decide +kernel

/-- R248: one ahead of its turn is held, one behind it is dropped; R191: one whose channel is held waits. -/
theorem test_RemoteAccesses_early :
    after (.remoteStore { rst with rseq := 3 }) (target { rst with rseq := 3 }) (fun t => (t.remote.early.length,
      t.inbox)) = some (1, []) ∧
    after (.remoteStore { rst with rseq := 65535 }) (target { rst with rseq := 65535 }) (fun t =>
      (t.remote.early, t.inbox)) = some ([], []) ∧
    after (.remoteStore { rst with rseq := 3, job := 9 }) { target { rst with rseq := 3, job := 9 } with
      remote := { early := List.replicate 64 { rst with rseq := 5 } } } (fun t => (t.remote.early.length,
      t.inbox)) = some (64, []) ∧
    remoteHeld (target rst) rst = false ∧
    (let p := { rst with type := 4, len := 0 }
     remoteHeld (holdAt (target p) 0x2000) p = true ∧
     after (.remoteLoad p) (holdAt (target p) 0x2000) (fun t => t.inbox) = some [p]) := by decide +kernel

/-- A fetch-add of 2^64 − 1 to 3. -/
def rfa : Packet := { rst with type := 6, payload := List.replicate 8 0xFF }

theorem test_RemoteAccesses_fetchAdd :
    after (.remoteFetchAdd rfa) (wrLe (target rfa) 0x2000 8 3) (fun t => (rdLe t 0x2000 8,
      t.inject.map (fun p => leNat (p.payload.take 8)))) = some (2, [3]) ∧
    after (.remoteLoad { rst with type := 4, len := 0 }) (wrLe (target { rst with type := 4, len := 0 }) 0x2000 8 3)
      (fun t => t.inject.map (fun p => (p.len, leNat p.payload))) = some [(1, 3)] := by decide +kernel

/-- A load of BAR4 is outstanding to position 1 under tag 4. -/
def issued : State :=
  { runsJob with
    inbox := [{ type := 7, src := 1, tag := 4, job := 7, epoch := 2 }, { type := 8, src := 1, status := 5, job := 7 }]
    remote := { out := [⟨4, 1, 7, false, 4, .bar4 0 none, 0⟩] } }

theorem test_RemoteAccesses_issuer :
    after (.remoteResponse { type := 7, src := 1, tag := 4, job := 7, epoch := 2 }) issued (fun t =>
      (t.remote.out, rg t 0x103 hdrSticky)) = some ([], 0) ∧
    after (.remoteResponse { type := 7, src := 1, tag := 4, job := 7, epoch := 2 })
      { issued with remote := {} } (fun t => t.inbox.length) = some 1 ∧
    after (.remoteRequestTimeout 4) issued (fun t => (t.remote.out, decide (rg t 0x103 hdrSticky ≠ 0))) =
      some ([], true) ∧
    after (.nackReceive { type := 8, src := 1, status := 5, job := 7 }) issued (fun t =>
      (t.inbox.length, bit (rg t 3 hdrSticky) 2)) = some (1, true) := by decide +kernel

/-- The counter stands at 10,000 ns. -/
def clock : State := setF 3 ftCtl 0 (setF 3 ftStatusSync 1 { runsJob with ft := { t := 10000 } })

theorem test_FabricTime_tsync :
    after (.tsyncReceive 0 3 1 10400) clock (fun t => (t.ft.t, t.ft.slew, t.ft.behind, t.ft.parent)) =
      some (10000, 400, 0, some 0) ∧
    after (.tsyncReceive 0 3 1 11001) clock (fun t => (t.ft.t, rg t 3 ftStatusHops)) = some (11001, 2) ∧
    after (.tsyncReceive 0 3 1 8999) clock (fun t => (t.ft.t, t.ft.behind)) = some (10000, 1001) := by
  decide +kernel

/-- R253: a neighbour that is not the best only gives the parent; a master takes no correction; a port that is down
gives nothing. -/
theorem test_FabricTime_parents :
    (bestAdv { clock with ft := { adv := [(0, 3 * 256 + 1 + 1)] } } = some (3 * 256 + 1, 0) ∧
      isMaster { clock with ft := { adv := [(0, 3 * 256 + 1 + 1)] } } = false) ∧
    after (.tsyncReceive 0 3 1 10400) runsJob (fun t => (t.ft.t, t.ft.slew)) = some (0, 0) ∧
    after (.tsyncReceive 0 3 1 9800) clock (fun t => (t.ft.slew, rg t 3 ftStatusSync)) = some (-200, 1) ∧
    after (.tsyncReceive 5 3 1 10400) clock (fun t => t.ft.adv) = some [] := by decide +kernel

theorem test_FabricTime_master :
    isMaster runsJob = true ∧ isMaster clock = false ∧
    after .tsyncSend runsJob (fun t => (rg t 3 ftStatusMaster,
      t.inject.map (fun p => (p.type, p.dest)))) = some (1, [(0xB, 1)]) ∧
    after .ftHoldover clock (fun t => (rg t 3 ftStatusSync, rg t 3 ftStatusHoldover)) = some (0, 1) ∧
    after .ftHoldover runsJob (fun t => rg t 3 ftStatusHoldover) = some 0 := by decide +kernel

/-! ### Queues, collectives and Geyser -/

/-- Job 7 runs here, a route table gives it ranks 0 at (0, 0, 0) and 1 at (1, 0, 0), and its window is the first
64 KiB. -/
def member : State :=
  { runsJob with
    rtHdr := [(0, 7 * 65536 + 2)], rtEnt := [(1, 1)]
    jw := [(0, { valid := true, base := 0, units := 1, job := 7 })] }

/-- Queue 0 with two members, ready for Q_CFG. -/
def twoMembers (f : Cq → Cq) : State := { member with cqs := [(0, f { members := 2 })] }

/-- Q_CFG for job 7, group 3: EN, free in order, one tree. -/
def qcfg : BitVec 32 := BitVec.ofNat 32 (2 ^ 31 + 2 ^ 27 + 2 ^ 23 + 3 * 8192 + 7)

theorem test_QueuesConfigure_enable :
    performs (twoMembers id) 0x102 = true ∧
    after (.queueEnable .pcie0 0 qcfg) (twoMembers id) (fun t => ((cqOf t 0).state, (cqOf t 0).rank,
      (cqOf t 0).group)) = some (1, 0, 3) ∧
    after (.queueEnable .pcie0 0 (qcfg - 1)) (twoMembers id) (fun t => ((cqOf t 0).state,
      (cqOf t 0).reason)) = some (3, 1) := by decide +kernel

theorem test_QueuesConfigure_disable :
    after (.queueDisable .pcie0 0 0) (twoMembers (fun c => { c with en := true, state := 1 })) (fun t =>
      ((cqOf t 0).en, (cqOf t 0).state)) = some (false, 0) ∧
    after (.queueDisable .pcie0 0 0) (twoMembers (fun c => { c with
      en := true, state := 1, ops := [{ id := 0, desc := 0, poster := .host 0 0, num := 0, started := true }] }))
      (fun t => (cqOf t 0).en) = some true := by decide +kernel

theorem test_QueuesConfigure_quota :
    after (.gqQuotaWrite .pcie1 1 24576) (setF 0x201 gqSelJob 7 r0) (fun t => (quotaOf t 1 7 0,
      (geyser t 1).rej)) = some (24576, false) ∧
    after (.gqQuotaWrite .pcie1 1 24577) (setF 0x201 gqSelJob 7 r0) (fun t => (quotaOf t 1 7 0,
      (geyser t 1).rej)) = some (0, true) ∧
    after (.gqQuotaWrite .pcie1 1 5) r0 (fun t => t.geysers) = some [] := by decide +kernel

theorem test_JobsAndRoutesWritten_jobs :
    after (.jobDataWrite .pcie0 0x90000005) (setF 3 jobSel 9 r0) (fun t => (jobOf t 9)) =
      some ⟨true, false, 1, 5⟩ ∧
    after (.jobDataWrite .pcie0 0xB0000005) (setF 3 jobSel 9 r0) (fun t => t.jobs) = some [] ∧
    after (.jobDataWrite .pcie0 0x90000002) (setF 3 jobSel 7 { r0 with jobs := [(7, ⟨true, false, 2, 2⟩)] })
      (fun t => (jobOf t 7).state) = some 2 ∧
    after (.jobDataWrite .pcie0 0x90000003) (setF 3 jobSel 7 { r0 with jobs := [(7, ⟨true, false, 2, 2⟩)] })
      (fun t => (jobOf t 7).state) = some 1 := by decide +kernel

theorem test_JobsAndRoutesWritten_routes :
    after (.rtDataWrite .pcie0 0x78000) (setF 3 rtSelHdr 1 r0) (fun t => (rtJob t 0, rtCount t 0)) =
      some (7, 32768) ∧
    after (.rtDataWrite .pcie0 0x78001) (setF 3 rtSelHdr 1 r0) (fun t => t.rtHdr) = some [] ∧
    after (.rtDataWrite .pcie0 9) (setF 3 rtSelIndex 32767 (setF 3 rtSelTable 63 r0)) (fun t =>
      rtPos t 63 32767) = some 9 ∧
    after (.rtDataWrite .pcie0 9) (twoMembers (fun c => { c with en := true, state := 1 })) (fun t =>
      t.rtEnt) = some [(1, 1)] := by decide +kernel

/-- A SEND, or a RECV, of 64 bytes at `a` with rank 1 under tag 5 (R272). -/
def transfer (op a : Nat) : Nat :=
  fld 166 op + fld 256 64 + fld 192 1 + fld 176 5 + (if op = 1 then fld 448 a else fld 384 a)

/-- An operation of queue 0 that is not started, or is. -/
def opFor (w : Nat) (started : Bool) : Op :=
  { id := 4, desc := w, poster := .host 0 1, num := 5, started := started }

/-- Queue 0 serves group 3 with one operation. -/
def serves (o : Op) : State :=
  twoMembers (fun c => { c with en := true, state := 1, job := 7, group := 3, ops := [o] })

theorem test_OperationsRunInOrder_start :
    opWindows (serves (opFor (transfer 2 0x100) false)) (cqOf (serves (opFor (transfer 2 0x100) false)) 0)
      (transfer 2 0x100) = true ∧
    after (.collOpStart 0) (serves (opFor (transfer 2 0x100) false)) (fun t => (t.inject.map (fun p =>
      (p.type, p.dest, p.node, leNat p.payload)), (cqOf t 0).ops.map Op.started)) =
      some ([(3, 1, 0x1000, 64 + 2 ^ 64)], [true]) ∧
    after (.collOpStart 0) (serves (opFor (transfer 2 0x10000) false)) (fun t =>
      (cqOf t 0).ops.map (fun o => (o.ready, o.code))) = some [(true, 3)] := by decide +kernel

theorem test_OperationsRunInOrder_limits :
    after (.collOpStart 0) (twoMembers (fun c => { c with
      state := 1, ops := List.replicate 16 (opFor 0 true) ++ [opFor (transfer 2 0x100) false] })) (fun t =>
      (cqOf t 0).ops.countP Op.started) = some 16 ∧
    after (.collOpStart 0) (twoMembers (fun c => { c with
      state := 1, ops := [opFor (fld 166 10) true, opFor (fld 166 10) false] })) (fun t =>
      (cqOf t 0).ops.countP Op.started) = some 1 := by decide +kernel

theorem test_OperationsRunInOrder_complete :
    after (.collOpComplete 0 4) (serves { opFor 0 true with ready := true, code := 1 }) (fun t =>
      (cqOf t 0).ops) = some [] ∧
    after (.collOpComplete 0 4) (serves (opFor 0 true)) (fun t => (cqOf t 0).ops.length) = some 1 ∧
    after (.queueAbortComplete 7) (twoMembers (fun c => { c with
      state := 2, job := 7, ops := [{ opFor 0 true with ready := true, code := 4 }] })) (fun t =>
      (cqOf t 0).ops) = some [] := by decide +kernel

/-- An ERUPT of job 7 in epoch 2. -/
def erupt : Packet := { type := 0xA, src := 1, job := 7, epoch := 2 }

theorem test_OperationsRunInOrder_erupt :
    eruptOk { runsJob with inbox := [erupt] } erupt = true ∧
    after (.eruptReceive erupt) { runsJob with inbox := [erupt] } (fun t => (jobOf t 7).state) = some 2 ∧
    after (.eruptReceive { erupt with epoch := 1 }) { runsJob with inbox := [{ erupt with epoch := 1 }] }
      (fun t => ((jobOf t 7).state, rg t 3 discStale)) = some (1, 1) := by decide +kernel

/-- An MSG packet of rank 1 under tag 5. -/
def msg (node : Nat) (pay : List Byte) : Packet :=
  { type := 3, src := 1, job := 7, epoch := 2, group := 3, node := node, tag := 5, payload := pay }

/-- Queue 0 with one operation and a packet delivered. -/
def gets (o : Op) (p : Packet) : State := { serves o with inbox := [p] }

theorem test_TransfersMeetOperations_place :
    queueFor (serves (opFor 0 true)) 7 3 = some 0 ∧ queueFor member 7 3 = none ∧
    rankAt (serves (opFor 0 true)) (cqOf (serves (opFor 0 true)) 0) 0 1 = some 1 ∧
    after (.msgDataReceive (msg 0 [])) { member with inbox := [msg 0 []] } (fun t =>
      rg t 0x102 collDisc) = some 1 := by decide +kernel

theorem test_TransfersMeetOperations_grants :
    after (.ctsReceive (msg 0x1000 (leBytes 8 64 ++ [1]))) (gets (opFor (transfer 1 0x100) true)
      (msg 0x1000 (leBytes 8 64 ++ [1]))) (fun t => (t.inject.map (fun p => (p.type, p.node, p.dest)),
      (cqOf t 0).ops.map Op.sent)) = some ([(3, 0, 1)], [[1]]) ∧
    after (.ctsReceive (msg 0x1000 (leBytes 8 65 ++ [1]))) (gets (opFor (transfer 1 0x100) true)
      (msg 0x1000 (leBytes 8 65 ++ [1]))) (fun t => (t.inject.map Packet.node,
      (cqOf t 0).ops.map (fun o => (o.code, o.detail)))) = some ([0x2000], [(6, 1)]) ∧
    after (.ctsReceive (msg 0x1000 (leBytes 8 64 ++ [1]))) (gets (opFor (transfer 1 0x100) false)
      (msg 0x1000 (leBytes 8 64 ++ [1]))) (fun t => t.grants.length) = some 1 := by decide +kernel

theorem test_TransfersMeetOperations_data :
    after (.msgDataReceive (msg 0 (List.replicate 64 9))) (gets (opFor (transfer 2 0x100) true)
      (msg 0 (List.replicate 64 9))) (fun t => (rdByte t 0x100, rdByte t 0x13F, rdByte t 0x140,
      (cqOf t 0).ops.map Op.ready)) = some (9, 9, 0, [true]) ∧
    after (.msgDoneReceive (msg 0x2000 [])) (gets (opFor (transfer 1 0x100) true) (msg 0x2000 [])) (fun t =>
      rg t 0x102 collDisc) = some 1 ∧
    after (.msgDoneReceive { msg 0x2000 [] with bytes := 1 }) (gets (opFor (transfer 2 0x100) true)
      { msg 0x2000 [] with bytes := 1 }) (fun t => (cqOf t 0).ops.map (fun o => (o.code, o.detail))) =
      some [(6, 1)] := by decide +kernel

/-- R191: what the engine cannot read yet waits; R277: a DONE ends what was sent. -/
theorem test_TransfersMeetOperations_done :
    msgHeld (gets (opFor (transfer 1 0x100) true) (msg 0x1000 (leBytes 8 64 ++ [1])))
      (msg 0x1000 (leBytes 8 64 ++ [1])) = false ∧
    (let p := msg 0x1000 (leBytes 8 64 ++ [1])
     msgHeld (holdAt (gets (opFor (transfer 1 0x100) true) p) 0x100) p = true) ∧
    after (.msgDoneReceive (msg 0x2000 [])) (gets { opFor (transfer 1 0x100) true with sent := [1] }
      (msg 0x2000 [])) (fun t => (cqOf t 0).ops.map (fun o => (o.ready, o.code))) = some [(true, 1)] := by
  decide +kernel

/-- An all-reduce of one bucket of one chunk from 0x1000 to 0x2000. -/
def allReduce : Nat := fld 166 5 + fld 208 1 + fld 156 1 + fld 448 0x1000 + fld 384 0x2000

theorem test_TransfersMeetOperations_result :
    after (.msgResultReceive (msg 0x3000 [8])) (gets (opFor allReduce true) (msg 0x3000 [8])) (fun t =>
      (rdByte t 0x2020, (cqOf t 0).ops.map (fun o => o.rx))) = some (8, [[(0, 1)]]) ∧
    after (.msgResultReceive (msg 0x3000 [8])) (gets (opFor (transfer 2 0x100) true) (msg 0x3000 [8]))
      (fun t => rg t 0x102 collDisc) = some 1 := by decide +kernel

/-- The reservation of bucket 0 of node 1 for its four children. -/
def itsResv : Resv :=
  { job := 7, group := 3, bucket := 0, host := 0x8001, q := 0, op := 4, desc := 0, num := 0, win := 2
    credit := [(0, 2), (1, 2), (2, 2), (3, 2)], sent := 0, chunks := 2, tree := 0, fan := 2, members := 4
    order := 1, seen := [] }

/-- A group of four members in free order whose first node this package hosts, as rank 1. -/
def hosts (slots : List Slot) (p : Packet) : State :=
  { runsJob with
    rtHdr := [(0, 7 * 65536 + 4)], rtEnt := [(0, 1), (2, 2), (3, 3)], inbox := [p]
    cqs := [(0, { en := true, state := 1, order := 1, fan := 2, members := 4, rank := 1, job := 7, group := 3 })]
    geysers := [(0, { resv := [itsResv], slots := slots })] }

/-- A chunk of one block from rank 2: its first element is 1, the others 0. -/
def red : Packet :=
  { type := 1, src := 2, job := 7, epoch := 2, group := 3, node := 2, len := 1, exps := [127]
    payload := [0x00, 0x40] ++ List.replicate 62 0 }

/-- The slot that holds the same from rank 0. -/
def half : Slot :=
  { job := 7, group := 3, bucket := 0, chunk := 0, host := 0x8001, op := 4, len := 1, exps := [127]
    data := [0x00, 0x40] ++ List.replicate 62 0, got := [0], done := false }

/-- 1 + 1 is 2: under the exponent 128. -/
theorem test_ReductionPackets_chunks :
    redError (hosts [] red) 0 red = none ∧ redError (hosts [] { red with chunk := 2 }) 0 { red with chunk := 2 } =
      some 2 ∧
    after (.redChunkReceive 0 ⟨red, []⟩) (hosts [] red) (fun t => (geyser t 0).slots.map (fun x => (x.got,
      x.exps))) = some [([2], [127])] ∧
    after (.redChunkReceive 0 ⟨red, []⟩) (hosts [half] red) (fun t => ((geyser t 0).slots.map (fun x => (x.got,
      x.exps, x.data.take 2)), rg t 0x101 combineCount)) = some ([([0, 2], [128], [0x00, 0x40])], 1) := by
  decide +kernel

/-- A third chunk for the last of three children. -/
def last : Slot := { half with got := [0, 1, 3] }

/-- R267: what the read of the slot finds. -/
theorem test_ReductionPackets_memory :
    after (.redChunkReceive 0 ⟨red, [.corrected]⟩) (hosts [half] red) (fun t => ((geyser t 0).slots.map Slot.exps,
      bit (rg t 0x101 hdrSticky) 5)) = some ([[128]], true) ∧
    after (.redChunkReceive 0 ⟨red, [.uncorrectable]⟩) (hosts [half] red) (fun t => ((jobOf t 7).state,
      bit (rg t 0x101 hdrSticky) 6, rg t 0x101 combineCount)) = some (2, true, 0) ∧
    redError (hosts [last] red) 0 red = none ∧ last.got.length + 1 = itsResv.credit.length ∧
    after (.redChunkReceive 0 ⟨red, []⟩) (hosts [last] red) (fun t => ((geyser t 0).slots,
      rg t 0x101 combineCount)) = some ([], 1) := by decide +kernel

/-- R267: after an uncorrectable read the slot waits for the rest and combines none of it. -/
theorem test_ReductionPackets_lost :
    geyserHeld (hosts [half] red) red = false ∧
    after (.redChunkReceive 0 ⟨red, []⟩) (hosts [{ half with lost := true }] red) (fun t =>
      ((geyser t 0).slots.map (fun x => (x.got, x.exps)), rg t 0x101 combineCount)) =
      some ([([0, 2], [127])], 0) := by decide +kernel

/-- A packet of the group about node 1. -/
def resv (len : Nat) (pay : List Byte) : Packet :=
  { type := 2, src := 1, job := 7, epoch := 2, group := 3, node := 1, len := len, payload := pay }

/-- A grant for bucket 0 of node 1, of which a chunk has left. -/
def granted (ended : Bool) : State :=
  { gets (opFor 0 true) (resv 0 []) with
    credits := [{ job := 7, group := 3, bucket := 0, node := 1, n := 1, ended := ended, left := 1 }] }

theorem test_ReductionPackets_credits :
    after (.resvGrantReceive ⟨resv 1 [2, 0, 0, 0, 1, 0], []⟩) (gets (opFor 0 true) (resv 1 [2, 0, 0, 0, 1, 0]))
      (fun t => (creditOf t 7 3 0 1, creditOf t 7 3 1 1)) = some (2, 2) ∧
    after (.resvCreditReceive ⟨resv 0 [], []⟩) (gets (opFor 0 true) (resv 0 [])) (fun t => t.credits) =
      some [] ∧
    after (.resvCreditReceive ⟨resv 0 [], []⟩) (granted false) (fun t => creditOf t 7 3 0 1) = some 2 ∧
    after (.resvCreditReceive ⟨resv 0 [], []⟩) (granted true) (fun t => (creditOf t 7 3 0 1, t.credits)) =
      some (0, []) := by decide +kernel

/-- A contribution of rank 0 to a tiny collective. -/
def fum (node chunk : Nat) : Packet :=
  { type := 9, src := 1, job := 7, epoch := 2, group := 3, node := node, chunk := chunk, tag := 5 }

/-- This package is rank 1 of two, which hosts the root of the fumarole tree. -/
def rank1 (p : Packet) : State :=
  let s := serves (opFor (transfer 2 0x100) true)
  { s with
    rtEnt := [(0, 1)], inbox := [p], cqs := [(0, { cqOf s 0 with rank := 1 })] }

theorem test_ReductionPackets_fumarole :
    hostedNode 1 1 = some (1, 0) ∧ (childNodes 1 0 2 1).map (nodeField 1) = [0, 1] ∧
    after (.fumReceive (fum 0 0)) (rank1 (fum 0 0)) (fun t => (cqOf t 0).fum.map (fun x => (x.1, x.2.1))) =
      some [(0, 5)] ∧
    after (.fumReceive (fum 9 0)) (rank1 (fum 9 0)) (fun t => (cqOf t 0).fum.length) = some 0 ∧
    after (.fumReceive (fum 0 2)) (rank1 (fum 0 2)) (fun t => (cqOf t 0).fum.length) = some 0 := by
  decide +kernel

/-! ### The host interface -/

/-- Command port 0 of PCIe port 0. -/
def port (f : CPort → CPort) : State := { r0 with cports := [(0, f { en := true })] }

theorem test_PortsAndRings_ports :
    after (.portCfgWrite .pcie0 0 0xC5040000) r0 (fun t => cportOf t 0 0) =
      some { en := true, kind := 1, queue := 5, ring := 1 } ∧
    after (.portCfgWrite .pcie0 0 0) (port id) (fun t => (cportOf t 0 0).en) = some false ∧
    after (.portCfgWrite .pcie0 0 0) (port (fun c => { c with cmds := [{ handle := 1, raw := 0 }] })) (fun t =>
      (cportOf t 0 0).en) = some true ∧
    after (.portCfgWrite .pcie0 0 0xC5040000) (setF 0x103 portSel 255 r0) (fun t => t.cports) = some [] := by
  decide +kernel

theorem test_PortsAndRings_rings :
    after (.ringCfgWrite .pcie0 0 0xC8038007) r0 (fun t => ringOf t 0 0) =
      some { en := true, size := 9, vector := 3, irqEn := true, holdoff := 7 } ∧
    after (.ringCfgWrite .pcie0 0 0x48038007) { r0 with rings := [(0, { en := true, tail := 4 })] } (fun t =>
      ((ringOf t 0 0).en, (ringOf t 0 0).tail)) = some (false, 4) ∧
    after (.ringHeadWrite .pcie0 0 5) { r0 with rings := [(0, { tail := 261 })] } (fun t =>
      (ringOf t 0 0).head) = some 5 ∧
    after (.ringHeadWrite .pcie0 0 4) { r0 with rings := [(0, { tail := 261 })] } (fun t =>
      (ringOf t 0 0).head) = some 0 := by decide +kernel

/-- Ring 0 of port 0 with a record that waits. -/
def ring (f : Ring → Ring) : State :=
  { r0 with rings := [(0, f { en := true, base := 0x1000, waiting := [⟨7, 1, 2, 3, 1, false⟩] })] }

theorem test_PortsAndRings_record :
    after (.completionRecordWrite 0 0) (ring (fun x => { x with tail := 511, head := 256 })) (fun t =>
      (t.hostOut.map (fun w => (w.addr, w.data.length, w.data.getD 31 9)), (ringOf t 0 0).tail)) =
      some ([(0x1000 + 32 * 255, 32, 0)], 512) ∧
    after (.completionRecordWrite 0 0) (ring (fun x => { x with tail := 256 })) (fun t => t.hostOut) =
      some [] ∧
    after (.completionRecordWrite 0 0) (ring id) (fun t => t.hostOut.map (fun w => w.data.getD 31 9)) =
      some [1] := by decide +kernel

theorem test_PortsAndRings_holdoff :
    after (.msixHoldoffExpiry 0 0) (ring (fun x => { x with holding := true })) (fun t =>
      (ringOf t 0 0).holding) = some false ∧
    after (.msixHoldoffExpiry 0 0) (ring (fun x => { x with holding := true, owed := true })) (fun t =>
      ((ringOf t 0 0).holding, (ringOf t 0 0).owed)) = some (true, false) := by decide +kernel

theorem test_SubmitAccepts_ports :
    after (.cmdNop 0 0 8) (port id) (fun t => (t.resp, (cportOf t 0 0).seq)) = some (.value 1, 2) ∧
    after (.cmdNop 0 0 8) r0 (fun t => (t.resp, t.cports)) = some (.value (2 ^ 64 - 1), []) ∧
    after (.cmdNop 0 0 4) (port id) (fun t => (t.resp, rg t 0x103 hdrSticky, (cportOf t 0 0).seq)) =
      some (.value (2 ^ 32 - 1), 1, 1) ∧
    after (.cmdAbort 1 255 8) { r0 with cports := [(511, { desc := 3 })] } (fun t => (t.resp,
      (cportOf t 1 255).seq)) = some (.value (511 * 2 ^ 48 + 1), 2) := by decide +kernel

/-- A queue port whose DESC holds a RECV. -/
def queuePort (st : Nat) : State :=
  { twoMembers (fun c => { c with en := true, state := st, job := 7, group := 3 }) with
    cports := [(0, { en := true, kind := 1, desc := transfer 2 0x100 })] }

theorem test_SubmitAccepts_posts :
    qdValid (queuePort 1) 0 (transfer 2 0x100) = true ∧
    after (.queuePostHost 0 0 8) (queuePort 1) (fun t => ((cqOf t 0).nextId, (cqOf t 0).ops.map Op.num,
      (cportOf t 0 0).cmds.map Cmd.queueKind)) = some (1, [5], [true]) ∧
    after (.queuePostHost 0 0 8) (queuePort 2) (fun t => ((cqOf t 0).ops, (ringOf t 0 0).waiting.map CRec.status,
      (cportOf t 0 0).cmds)) = some ([], [7], []) ∧
    after (.queuePostHost 0 0 8) { queuePort 1 with cqs := [(0, { ops := List.replicate 256 (opFor 0 true) })] }
      (fun t => t.resp) = some (.value (2 ^ 64 - 1)) := by decide +kernel

/-- A port that holds a command. -/
def holds (w : Nat) : State := port (fun c => { c with desc := w })

/-- A package where nothing waits is quiet, whatever its ports hold in DESC. -/
theorem quiet_holds (w : Nat) (h : (watchedPages (holds w)).all (fun k =>
    !mayPend (holds w) k && !(tremorOf (holds w) k).pend) = true) : Quiet (holds w) := by
  refine ⟨rfl, fun k cp h => ?_, rfl, rfl, rfl, fun _ h => by simp [holds, port, r0, State.reset] at h,
    fun d _ => ⟨rfl, rfl, rfl, rfl⟩, fun k hk => ?_⟩
  · simp [holds, port] at h
    obtain ⟨-, rfl⟩ := h
    rfl
  · simpa using List.all_eq_true.mp h k hk

theorem test_CommandsStart_quiet : Quiet (holds 0x100) ∧ Quiet (holds (2 ^ 64)) ∧ Quiet (holds 6) ∧
    Quiet (holds 3) ∧ Quiet (holds (2 + 2 ^ 10)) ∧ Quiet (holds (4 + fld 64 6 + fld 80 31 + fld 128 5)) ∧
    Quiet (holds (5 + fld 64 4)) := by
  refine ⟨quiet_holds _ ?_, quiet_holds _ ?_, quiet_holds _ ?_, quiet_holds _ ?_, quiet_holds _ ?_,
    quiet_holds _ ?_, quiet_holds _ ?_⟩ <;> decide +kernel

/-- The status and result of the record of a command. -/
def record (c : Instr) (w : Nat) : Option (List (Nat × Nat)) :=
  after c (holds w) (fun t => (ringOf t 0 0).waiting.map (fun x => (x.status, x.result)))

theorem test_CommandsStart_records :
    record (.cmdNop 0 0 8) 0x100 = some [(1, 0)] ∧ record (.cmdNop 0 0 8) (2 ^ 64) = some [(2, 0)] ∧
    record (.cmdNop 0 0 8) (2 ^ 28) = some [(2, 0)] ∧ record (.cmdNop 0 0 8) 6 = some [(2, 0)] ∧
    record (.cmdAbort 0 0 8) 3 = some [(2, 0)] ∧ record (.cmdSeqRun 0 0 8) (2 + 2 ^ 10) = some [(2, 0)] := by decide +kernel

theorem test_CommandsStart_seqRun :
    dieRuns (setF 0 lobeModeFencedW 1 (holds (2 + 2 ^ 128))) 1 = false ∧
    after (.cmdSeqRun 0 0 8) (setF 0 lobeModeFencedW 1 (holds (2 + 2 ^ 128))) (fun t =>
      (ringOf t 0 0).waiting.map CRec.status) = some [4] := by decide +kernel

theorem test_CommandsStart_waits :
    testOk { handle := 1, raw := 4 + fld 64 6 + fld 80 31 + fld 128 5 } = true ∧
    after (.cmdTest 0 0 8) (holds (4 + fld 64 6 + fld 80 31 + fld 128 5)) (fun t => t.tests.map (fun x =>
      (x.kind, x.unit, x.deadline))) = some [(6, 31, 5)] ∧
    after (.cmdWaitFault 0 0 8) (holds (5 + fld 64 4)) (fun t => (cportOf t 0 0).cmds.map Cmd.started) =
      some [true] := by decide +kernel

theorem test_HostMovesData_bar4 :
    boardCheck (traffic u0) true 0 2020 28 = 0 ∧ bdSlot 2020 = mySlot u0 ∧
    barHeld (traffic u0) (barReq u0 0 2020 2) = false ∧
    after (.bar4Write 0 2020 (List.replicate 28 6)) u0 (fun t => (rdByte t 2019, rdByte t 2020, rdByte t 2047,
      rdByte t 2048)) = some (0, 6, 6, 0) ∧
    after (.bar4Read 0 2020 2) (nextOf (.bar4Write 0 2021 [6]) u0) (fun t => t.resp) =
      some (.bytes [0, 6]) := by decide +kernel

theorem test_HostMovesData_bar4_refused : boardCheck (traffic (setF 0x103 bar4Job 7 u0)) false 7 0 1 ≠ 0 ∧
    barHeld (traffic (setF 0x103 bar4Job 7 u0)) (barReq (setF 0x103 bar4Job 7 u0) 0 0 1) = false ∧
    after (.bar4Write 0 0x40000000 [6]) (setF 0x103 bar4Job 7 r0) (fun t => (t.mem, rg t 0x103 hiErrValid,
      rg t 0x103 hiErrOffset, bit (rg t 0x103 hdrSticky) 1)) = some ([], 1, 1, true) ∧
    after (.bar4Read 0 0 1) (setF 0x103 bar4Job 7 u0) (fun t => t.resp) = some .completerAbort := by
  decide +kernel

/-- R320, R191 and R322: beyond a BAR4 of 1 MiB; while the way is not open; an uncorrectable sector. -/
theorem test_HostMovesData_bar4_ends :
    after (.bar4Write 0 0xFFFFF [6, 7]) { u0 with bar4Size := [(0, 0)] } (fun t => t.mem) = some [] ∧
    after (.bar4Write 0 0xFFFFE [6, 7]) { u0 with bar4Size := [(0, 0)] } (fun t => rdByte t 0xFFFFF) = some 7 ∧
    after (.bar4Read 0 2020 2) r0 (fun t => (t.resp, t.barWait.length)) = some (.pending, 1) ∧
    after (.bar4Read 0 2020 2) { u0 with errs := [(0x7E0, 2)] } (fun t => t.resp) = some .poisoned := by
  decide +kernel

/-- A DMA of 40 bytes that has started. -/
def dma (w : Nat) : State :=
  { u0 with cports := [(0, { en := true, cmds := [{ handle := 1, raw := 1 + fld 192 40 + w, started := true }] })] }

theorem test_HostMovesData_dma :
    (dmaOf (dma (fld 64 0x100 + fld 128 0x200)) 0 0).isSome = true ∧
    after (.dmaComplete 0 0 (.data [])) (wrLe (dma (fld 64 0x100 + fld 128 0x200)) 0x100 2 0x0908) (fun t =>
      (rdLe t 0x200 2, (ringOf t 0 0).waiting.map (fun x => (x.status, x.result)))) =
      some (0x0908, [(1, 40)]) ∧
    after (.dmaComplete 0 0 (.data (List.replicate 40 3))) (dma (fld 256 1 + fld 128 0x200)) (fun t =>
      (rdByte t 0x200, rdByte t 0x227, rdByte t 0x228)) = some (3, 3, 0) := by decide +kernel

/-- What the clauses on a DMA ask. -/
theorem test_HostMovesData_dma_bad :
    let s := { dma (fld 64 0x100 + fld 128 0x200) with errs := [(0x120, 2)] }
    (dmaOf s 0 0).map (fun c => (dmaSrcHost c, dmaSrcFar s c, dmaDstFar s c, c.err)) =
      some (false, false, false, 0) ∧
    (reportBad s .hostDma 0x100 40).2 = some 0x120 ∧ isHeld s (.half 0) (primaryAddr s 0x100) 40 = false := by
  decide +kernel

/-- R191, R331: a DMA waits for a held channel; R330: the host's reads fail. -/
theorem test_HostMovesData_dma_ends :
    (let s := holdAt (dma (fld 64 0x100 + fld 128 0x200)) 0x100
     (dmaOf s 0 0).isSome = true ∧ isHeld s (.half 0) (primaryAddr s 0x100) 40 = true) ∧
    (dmaOf (dma (fld 256 1 + fld 128 0x200)) 0 0).map (fun c => (dmaSrcHost c, c.issued, c.err)) = some (true, 0, 0) := by decide +kernel

/-! ### Faults and resets -/

/-- Job 7 is active. -/
def active : State := { r0 with jobs := [(7, { member := true, state := 1 })] }

theorem test_FaultsAndResetsAsked_lobeMode :
    activeJobs active = [7] ∧ activeJobs r0 = [] ∧
    after (.lobeModeWrite .pcie0 1) active (fun t => (rg t 0 lobeModeRejected, rg t 0 lobeModeMode)) =
      some (1, 0) ∧
    after (.lobeModeWrite .pcie0 0) (setF 0 lobeModeCur 2 r0) (fun t => rg t 0 lobeModeCur) = some 2 := by
  decide +kernel

/-- R364, R389: while the package is held any request with GO is a full package reset, which leaves P4 only with a
valid Caldera image; one with a TARGET that is no lobe starts nothing else. -/
theorem test_FaultsAndResetsAsked_held :
    (rg (setF 0 resetStatusHeld 1 r0) 0 resetStatusHeld = 1 ∧ performs (setF 0 resetStatusHeld 1 r0) 0 = true) ∧
    after (.resetReq .pcie0 0x32) (setF 0 resetStatusHeld 1 r0) (fun t => (rg t 4 pwrStateCur,
      rg t 8 secStatusStage, rg t 0 resetStatusHeld)) = some (4, 7, 0) ∧
    after (.resetReq .pcie0 0x32) r0 (fun t => (rg t 4 pwrStateCur, rg t 0 resetStatusHeld)) = some (0, 0) := by decide +kernel

theorem test_FaultsAndResetsAsked_requests :
    after (.resetReq .pcie0 0x10) r0 (fun t => t.regs) = some [] ∧
    after (.resetReq .pcie0 0x60) r0 (fun t => t.regs) = some [] ∧ performs r0 0 = true := by decide +kernel

/-- Factory test mode under a token that enables injection (R400). -/
def testMode : State := { setF 8 secStatusTest 1 r0 with boot := { test := true, scope := 1 } }

theorem test_FaultsAndResetsAsked_inject :
    after (.faultInject .pcie0 0x3) r0 (fun t => t.regs) = some [] ∧
    mayInject testMode = true ∧ mayInject (setF 8 secStatusTest 1 r0) = false ∧
    after (.faultInject .pcie0 (0x3 + 0x04000000)) testMode (fun t => bit (rg t 3 hdrSticky) 1) = some true ∧
    after (.faultInject .pcie0 0x3FF) testMode (fun t => t.due) = some [] := by
  decide +kernel

theorem test_FaultsAndResetsAsked_log :
    after (.logCapture .pcie1 4097) { r0 with log := [(1, { index := 4097 })] } (fun t => t.logCap.index) =
      some 4097 ∧
    after .quietPeriodExpiry r0 (fun t => t.regs) = some [] := by decide +kernel

/-- A sticky bit of the router's page is set, and its class is Corrected. -/
def sticky : State := setF 3 (hdrClass (pgType 3) 2) 0 (setF 3 hdrSticky 4 r0)

theorem test_FaultsAndResetsAsked_quiet : rg sticky 1 faCtlQuietEn = 1 ∧ quietBits sticky = [(3, 4)] ∧
    memoryWf sticky = true ∧ keysUp sticky.regs = true ∧
    after .quietPeriodExpiry sticky (fun t => (rg t 3 hdrSticky, rg t 1 recoveryCount)) = some (0, 1) := by
  decide +kernel

/-- A reset is in progress. -/
def inReset (sc : Scope) : State := { r0 with resets := [{ scope := sc }] }

theorem test_ResetsEndAndWiden_going :
    (∃ x ∈ (inReset .full).resets, x.scope = .full ∧ x.wait = false) ∧
    (∃ x ∈ (inReset (.tile 0 3 4)).resets, x.scope = .tile 0 3 4 ∧ x.wait = false) ∧
    nextScope (.tile 0 3 4) = some (.cluster 0 3) ∧
    demandScope (inReset (.tile 0 3 4)) (.cluster 0 3) = some (.cluster 0 3) ∧
    after (.resetEscalation (.level .full)) (inReset .full) (fun t => (t.resets, rg t 0 resetStatusHeld)) =
      some ([], 1) := by decide +kernel

/-- With SAMPLE_CTL.EN zero a reset samples no tile (R360). -/
theorem sampleScope_off (s : State) (sc : Scope) (b : Option Scope) (h : Option (Nat × Nat × Nat))
    (off : rg s hangSlot sampleCtlEn = 0) : sampleScope s sc b h = s := by
  have one (d c t l : Nat) (x : Bool) : sampleTile s d c t l x = s := by
    unfold sampleTile
    split
    · rfl
    · rw [if_pos (by simp [off, bit])]
  have all (f : State → Nat × Nat × Nat → State) (hf : ∀ x, f s x = s) (xs : List (Nat × Nat × Nat)) :
      forEach xs s f = s := by
    induction xs with
    | nil => rfl
    | cons x xs ih => rw [forEach, List.foldl_cons, hf]; exact ih
  unfold sampleScope
  refine all _ (fun x => ?_) _
  obtain ⟨d, c, t⟩ := x
  simp only [one, ite_self]

/-- A Geyser restarts. -/
def restarting : State := { r0 with restarts := [.geyser 0] }

theorem test_ResetsEndAndWiden_engine : demandScope restarting .package = some .package ∧
    demandScope (takeEvents (raise (sampleScope { restarting with restarts := [] } .package none none)
      { slot := engineEPage (.geyser 0), src := 0xF, detail := 4, forced := true })) .package =
      some .package ∧
    after (.resetEnd (.engine (.geyser 0)) ⟨true, true, [], []⟩) restarting (fun t => t.restarts) = some [] := by
  rw [sampleScope_off _ _ _ _ (by decide +kernel)]
  decide +kernel

/-- A full package reset waits for the package's ERUPT packets. -/
def erupting : State := { inReset .full with inject := [{ type := 0xA, job := 7 }] }

theorem test_ResetsEndAndWiden_waits : eruptsLeave erupting = true ∧ eruptsLeave (inReset .full) = false ∧
    after (.resetEnd (.level .full) ⟨true, true, [], []⟩) erupting (fun t => t.resets.length) = some 1 := by
  decide +kernel

theorem test_ResetsEndAndWiden_idle :
    after (.resetEscalation (.level .package)) r0 (fun t => t.regs) = some [] ∧
    after (.resetEscalation (.engine (.geyser 0))) r0 (fun t => t.regs) = some [] ∧
    hangs r0 (tileSlot 0 0 0) = false ∧
    after (.tremorWindowExpiry (tileSlot 0 0 0)) r0 (fun t => t.regs) = some [] := by decide +kernel

/-- A chunk of a Geyser that has come from every child pends; one that waits for a sibling does not (R353). -/
def whole : Slot := { half with got := [0, 1, 2, 3] }

theorem test_ResetsEndAndWiden_geyser : hangs (hosts [whole] red) 0x101 = true ∧
    hangs (hosts [half] red) 0x101 = false ∧
    after (.tremorWindowExpiry 0x101) (hosts [whole] red) (fun t => (t.restarts, (geyser t 0).slots)) =
      some ([.geyser 0], []) := by decide +kernel

theorem test_ResetsEndAndWiden_abort :
    after (.abortTimeout (.queueJob 0 7)) { serves (opFor 0 true) with aborts := [.queueJob 0 7] } (fun t =>
      (t.aborts, t.restarts, (cqOf t 0).ops)) = some ([], [.collective 0], []) ∧
    after (.abortTimeout (.dma 3)) r0 (fun t => t.regs) = some [] := by decide +kernel

/-! ### Power, clocks and boot -/

theorem test_PowerRequests_held :
    (bigReset (inReset (.lobe 1)) = true ∧ performs (inReset (.lobe 1)) 4 = true) ∧
    after (.powerReqP3 .pcie0) (inReset (.lobe 1)) (fun t => (t.heldPower, t.enterPower)) =
      some (some ⟨3, 0⟩, none) := by decide +kernel

theorem test_PowerRequests_taken :
    powerRejected r0 ⟨0, 0⟩ = true ∧ powerRejected r0 ⟨3, 0⟩ = false ∧ powerRejected active ⟨3, 0⟩ = true ∧
    after (.powerReqP0 .pcie0) r0 (fun t => rg t 4 pwrStateRejected) = some 1 ∧
    after (.powerReqP2 .pcie1 1) r0 (fun t => t.enterPower) = some (some ⟨2, 1⟩) ∧
    after (.powerReqP4 .pcie1) active (fun t => (t.enterPower, rg t 4 pwrStateRejected)) =
      some (none, 1) := by decide +kernel

theorem test_PowerRequests_p3 :
    rg (setF 4 pwrStateCur 3 r0) 4 pwrStateCur = 3 ∧ demandScope (setF 4 pwrStateCur 3 r0) .package =
      some .package ∧ powerRejected (setF 4 pwrStateCur 3 r0) ⟨0, 0⟩ = false ∧
    after .powerStateEntered r0 (fun t => t.regs) = some [] ∧
    after .powerStateEntered { r0 with enterPower := some ⟨4, 0⟩, mem := [(3, 1)] } (fun t =>
      (rg t 4 pwrStateCur, t.mem)) = some (4, []) := by decide +kernel

theorem test_SuppliesAndBrake_brake :
    after .brakePinAssert r0 (fun t => (rg t 4 brakeStatusPin, rg t 4 brakeStatusEngaged)) = some (1, 1) ∧
    after .brakePinAssert (setF 4 brakeStatusVin 1 r0) (fun t => rg t 4 brakeStatusEngaged) = some 0 ∧
    after .brakePinRelease (setF 4 brakeStatusPin 1 r0) (fun t => rg t 4 brakeStatusPin) = some 0 ∧
    after (.brakeCauseClear .therm) (setF 4 brakeStatusTherm 1 r0) (fun t => rg t 4 brakeStatusTherm) =
      some 0 := by decide +kernel

/-- R383: without VAUX33 the pin has its level all the same; while VIO18 is lost it counts as low. -/
theorem test_SuppliesAndBrake_pin :
    after .brakePinAssert { r0 with pins := { vauxOk := false } } (fun t => (t.pins.brakeLow, t.regs)) =
      some (true, []) ∧
    after .brakePinRelease (setF 4 brakeStatusPin 1 { r0 with pins := { vioOk := false } }) (fun t =>
      rg t 4 brakeStatusPin) = some 1 := by decide +kernel

theorem test_SuppliesAndBrake_limiter :
    after (.limiterStep 5151) r0 (fun t => (t.limSteps, rg t 4 brakeStatusLimit)) = some (1, 1) ∧
    after (.limiterStep 5150) { r0 with limSteps := 1 } (fun t => t.limSteps) = some 1 ∧
    after (.limiterStep 5000) { r0 with limSteps := 1 } (fun t => t.limSteps) = some 1 ∧
    after (.limiterStep 4999) { r0 with limSteps := 1 } (fun t => (t.limSteps, rg t 4 brakeStatusLimit)) =
      some (0, 0) := by decide +kernel

theorem test_SuppliesAndBrake_supplies :
    after .supVinLow r0 (fun t => (rg t 4 brakeStatusVin, bit (rg t 6 hdrSticky) 0)) = some (1, true) ∧
    after .supVinHigh r0 (fun t => (t.shutoff, rg t 4 pwrStateCur)) = some (some .vinHigh, 4) ∧
    after .supplyRestart r0 (fun t => t.regs) = some [] ∧
    after .supplyRestart { inReset .full with shutoff := some .vinHigh, resets := [{ scope := .full, wait := true }] }
      (fun t => (t.shutoff, t.resets.map ActiveReset.wait)) = some (none, []) ∧
    demandScope { r0 with shutoff := some .vinHigh } .full = some .full := by decide +kernel

theorem test_SuppliesAndBrake_thermal :
    after (.thermWarn 19) r0 (fun t => (t.hot, bit (rg t 7 hdrSticky) 0)) = some ([(15, 1)], true) ∧
    after (.thermHot 21) r0 (fun t => (rg t 4 brakeStatusTherm, bit (rg t 7 hdrSticky) 1)) =
      some (1, true) ∧
    after (.thermTrip 0) r0 (fun t => t.shutoff) = some (some .thermTrip) ∧
    after (.thermTrip 22) r0 (fun t => t.regs) = some [] ∧
    after .supVinHigh { r0 with pins := { vauxOk := false } } (fun t => t.regs) = some [] := by
  decide +kernel

theorem test_ClocksAndRails_clocks :
    after (.refclkLoss 0) r0 (fun t => (rg t 5 clkStatusRef0Ok, rg t 5 clkStatusRefSel)) = some (0, 1) ∧
    after (.refclkLoss 1) { r0 with pins := { ref0 := false } } (fun t => rg t 5 clkStatusHoldover) =
      some 1 ∧
    after .slowclkLoss r0 (fun t => (rg t 5 clkStatusSlowOk, rg t 5 clkStatusBackup)) = some (0, 1) := by
  decide +kernel

/-- R428, R377: a port's link follows its reference. -/
theorem test_ClocksAndRails_links :
    after (.refclkLoss 0) (setF 0x103 hiLinkWidth 16 r0) (fun t => rg t 0x103 hiLinkWidth) = some 0 ∧
    clockRuns { r0 with pins := { ref0 := true } } 26 = true ∧
    after (.refclkLoss 1) { r0 with pins := { vauxOk := false } } (fun t => (t.pins.ref1, t.regs)) =
      some (false, []) := by decide +kernel

theorem test_ClocksAndRails_rails :
    after .vioLoss r0 (fun t => (rg t 4 brakeStatusPin, rg t 0xB mgmtStatusVioOk)) = some (1, 0) ∧
    after .vioRestore { r0 with pins := { vioOk := false } } (fun t => (t.pins.vioOk,
      rg t 4 brakeStatusPin)) = some (true, 0) ∧
    after .vauxLoss { setF 0xA fuseStateSvnCal 5 r0 with flash := [(3, 1)] } (fun t => (t.flash,
      rg t 0xA fuseStateSvnCal, rg t 4 pwrStateCur)) = some ([(3, 1)], 5, 4) := by decide +kernel

/-- A package without VAUX33 whose flash is erased. -/
def unpowered : State := nextOf .vauxLoss r0

theorem test_BootAndMeasure_none : unpowered.pins.vauxOk = false ∧
    copyValid unpowered .solfatara false = false ∧ copyValid unpowered .solfatara true = false ∧
    after .powerOn unpowered (fun t => (t.boot.solOk, rg t 8 secStatusStage)) = some (false, 7) ∧
    after .powerOn r0 (fun t => t.regs) = some [] := by decide +kernel

/-- The header of a Solfatara image of no bytes, key slot 0, COMMIT set, SVN 4, revoking slots 0 and 1 (R387). -/
def header : List Byte :=
  leBytes 8 (0x4B465731 + 1 * 2 ^ 32 + 1 * 2 ^ 48 + 1 * 2 ^ 56) ++ [4, 0, 3, 2] ++ leBytes 4 0 ++ sha512 [] ++
    List.replicate 176 0

/-- The flash with a copy A of that header. -/
def flashed (s : State) : State :=
  { s with flash := ((List.range 256).zip header).map (fun (k, b) => (k, b)) }

theorem test_BootAndMeasure_fields :
    copyHeader (flashed unpowered) .solfatara false = header ∧ fieldOf header 9 1 = 0 ∧
    fieldOf header 7 1 % 2 = 1 ∧ (header.drop 0x10).take 64 = sha512 [] := by decide +kernel

theorem test_BootAndMeasure_valid (key : List Byte) (h : Config.keySlot true 0 = some key)
    (v : Config.edVerify key (imageDigest (flashed unpowered) .solfatara false) ((header.drop 0xC0).take 64) =
      true) : copyValid (flashed unpowered) .solfatara false = true := by
  have a : copyHeader (flashed unpowered) .solfatara false = header := by decide +kernel
  have b : fieldOf header 9 1 = 0 := by decide +kernel
  have c : copyFresh (flashed unpowered) .solfatara false = true := by decide +kernel
  have d : (fieldOf header 0 4 = 0x4B465731 ∧ fieldOf header 4 2 = 1 ∧ fieldOf header 6 1 = 1 ∧
      zeroBytes header 0x50 0xC0 = true ∧ bits (fieldOf header 7 1) 1 7 = 0 ∧
      bits (fieldOf header 0x0A 1) 4 4 = 0 ∧ bits (fieldOf header 0x0B 1) 4 4 = 0 ∧
      fieldOf header 8 1 ≤ 64 ∧ fieldOf header 0x0C 4 = 0 ∧
      (header.drop 0x10).take 64 = sha512 (flashBytes (flashed unpowered) 256 0)) ∧
      bit (rg (flashed unpowered) fuseSlot fuseStateRevFw) 0 = false := by decide +kernel
  obtain ⟨⟨d1, d2, d3, d4, d5, d6, d7, d8, d9, d10⟩, d11⟩ := d
  have o : copyOpen (flashed unpowered) .solfatara false = false := by decide +kernel
  simp [copyValid, copySigned, o, a, b, c, d1, d2, d3, d4, d5, d6, d7, d8, d9, d10, d11, h, v, imageType, copyAt]

theorem test_BootAndMeasure_straps :
    let s := { r0 with pins := { sampled := false } }
    after (.strapSample { meshX := 5, plan := 3 }) s (fun t => (t.pins.straps.meshX, rg t 0 optPlanPlan,
      t.pins.sampled)) = some (5, 3, true) ∧
    after (.strapSample { meshX := 5, plan := 3 }) r0 (fun t => t.pins.straps.meshX) = some 0 := by
  decide +kernel

theorem test_BootAndMeasure_vin48 :
    after .vin48Ready r0 (fun t => t.resets) = some [] ∧
    demandScope { r0 with pins := { vin48On := false } } .full = some .full := by decide +kernel

theorem test_BootAndMeasure_fuses :
    fieldOf (copyHeader (setF 8 secStatusStage 5 (flashed r0)) .solfatara
      (bootedCopy (setF 8 secStatusStage 5 (flashed r0)) .solfatara)) 7 1 % 2 = 1 ∧
    after (.fuseCommit .solfatara) (setF 8 secStatusStage 4 (flashed r0)) (fun t =>
      rg t 0xA fuseStateRevFw) = some 0 := by decide +kernel

/-- R401: the register is extended with the digest of itself and EXT_DATA. -/
theorem test_BootAndMeasure_extend :
    performs r0 9 = true ∧
    after (.mrExtend .pcie0 1) r0 (fun t => (mget [] t.mr 7).length) = some 64 := by decide +kernel

/-! ### Landom records, self-test and management -/

theorem test_LandomSegments_requests :
    segKind r0 = 0 ∧
    after (.segOpen .pcie0) r0 (fun t => (rg t 9 segStatusBusy, t.seg.map SegRun.code)) =
      some (1, some 2) ∧
    after (.segOpen .pcie0) (setF 9 segStatusBusy 1 r0) (fun t => (rg t 9 segCtlRejected, t.seg)) =
      some (1, none) := by decide +kernel

/-- A STATE request, with a code, and a DEST of some bytes at 0x4000. -/
def seg (code len : Nat) : State :=
  { r0 with seg := some { code := code, kind := 5, job := 7, dest := 0x4000, destLen := len } }

theorem test_LandomSegments_refused : performs r0 9 = true ∧
    after .segmentComplete r0 (fun t => t.regs) = some [] ∧
    after .segmentComplete (seg 2 0) (fun t => (rg t 9 segStatusCode, t.mem, t.seg)) =
      some (2, [], none) ∧
    awaitsSnap (seg 1 0) { code := 1, kind := 5, job := 7, dest := 0x4000, destLen := 0 } = false := by
  decide +kernel

/-- R396 to R398: a STATE segment of job 7 into 64 KiB at 0x8000; a held channel keeps it waiting. -/
def segWaits : State := { u0 with
  seg := some { code := 1, kind := 5, job := 7, dest := 0x8000, destLen := 65536 } }

theorem test_LandomSegments_waits :
    awaitsSnap segWaits { code := 1, kind := 5, job := 7, dest := 0x8000, destLen := 65536 } = false ∧
    bothWait segWaits (.half 0) 0x8000 65536 = false ∧
    after .segmentComplete (updMem segWaits 0 (fun m => { m with hold := some {
      chan := 128, kind := .retrain
      queue := [{ addr := 0x8000, reader := none, bytes := [(0x8000, 1)], symbols := [0] }] } })) (fun t =>
      (t.seg.isSome, t.mem)) = some (true, []) := by decide +kernel

/-- A TEST of a kind that waits, for no command. -/
def tests (kind unit : Nat) (started : Bool) (s : State) : State :=
  { s with tests := [⟨0, kind, 0, unit, 5, none, started⟩] }

theorem test_TestsAndRecalibration_starts :
    after (.testStart 0) (tests 4 9 false r0) (fun t => (t.tests.map Test.started,
      (die t 0).mem.hold.map Hold.chan)) = some ([true], some 9) ∧
    after (.testStart 0) (tests 6 9 false r0) (fun t => t.tests) = some [] ∧
    after (.testStart 0) (tests 2 0 false (setF (seqSlot 0) seqStatusState 1 r0)) (fun t =>
      t.tests.map Test.started) = some [false] := by decide +kernel

theorem test_TestsAndRecalibration_ends :
    after (.testEnd 0 true true 0 7) (tests 4 9 true r0) (fun t => (t.tests, (die t 0).mem.hold)) =
      some ([], none) ∧
    testRuns (tests 4 9 true r0) ⟨0, 4, 0, 9, 5, none, true⟩ = true ∧
    after (.testEnd 0 true true 0 7) (tests 4 9 false r0) (fun t => t.tests.length) = some 1 ∧
    after (.testDeadlineExpiry 0) (tests 4 9 false r0) (fun t => t.tests) = some [] := by decide +kernel

/-- Edge 0 is up with two bundles. -/
def twoBundles : State := edgeRuns (fun x => { x with
  bundles := [(0, { up := true }), (1, { up := true })] })

theorem test_TestsAndRecalibration_links :
    (linkTested twoBundles (.bundle 0 0) = false ∧ edgeUp twoBundles e0 = true ∧
      bundleBusy twoBundles e0 0 = false ∧ endRuns twoBundles e0 = true) ∧
    after (.linkRecalibration (.bundle 0 0)) twoBundles (fun t => (bundleOf t e0 0).aside) = some true ∧
    after (.linkRecalibration (.bundle 0 0)) (edgeRuns id) (fun t => (bundleOf t e0 0).aside) =
      some false ∧
    groupBusy (gst (groupIn 3 id) 8 groupStatusState 3) 0 = false ∧ groupBusy (groupIn 3 id) 0 = true := by
  decide +kernel

/-- R373: what a recalibration finds failing acts on the link. -/
theorem test_TestsAndRecalibration_outcomes :
    let aside := nextOf (.linkRecalibration (.bundle 0 0)) twoBundles
    let group := updGroup (gst (gst (groupIn 3 id) 0 groupStatusTxLanes 0xFF) 0 groupStatusRxLanes 0xFF) 0
      (fun x => { x with recal := true })
    (bundleOf aside e0 0).aside = true ∧
    after (.linkRecalibrationEnd (.bundle 0 0 none)) aside (fun t => ((bundleOf t e0 0).aside, (bundleOf t e0 0).up)) =
      some (false, true) ∧
    after (.linkRecalibrationEnd (.bundle 0 0 (some 3))) aside (fun t => (bundleOf t e0 0).up) = some false ∧
    linkTested group (.group 0) = false ∧ performs group (oeSlot 0) = true ∧
    after (.linkRecalibrationEnd (.group 0 0xFF 0xFF)) group (fun t => (optGroup t 0).recal) = some false ∧
    after (.linkRecalibrationEnd (.group 0 0xFF 0x7F)) group (fun t => (ggt t 0 groupStatusWidth,
      bit (rg t (oeSlot 0) hdrSticky) 1)) = some (6, true) := by decide +kernel

/-- R367, R370: a test of what is dark reports that it is not there; a BUSY target and a deadline of its own. -/
theorem test_TestsAndRecalibration_absent :
    testAbsent (tests 6 9 false r0) ⟨0, 6, 0, 9, 5, none, false⟩ = true ∧
    (testAbsent (tests 4 9 false r0) ⟨0, 4, 0, 9, 5, none, false⟩ = false ∧
      targetFree (tests 4 9 false r0) ⟨0, 4, 0, 9, 5, none, false⟩ = true) ∧
    targetFree (tests 2 0 false (setF (seqSlot 0) seqStatusState 1 r0)) ⟨0, 2, 0, 0, 5, none, false⟩ = false := by
  decide +kernel

theorem test_PinsAndManagement_pins :
    after (.functionLevelReset 0) (setF 0x103 portSel 9 (port id)) (fun t => (t.cports, rg t 0x103 portSel)) =
      some ([], 0) ∧
    after (.perstDeassert 0) { r0 with pins := { perst := [(0, true)] } } (fun t => mget false t.pins.perst 0) =
      some false ∧
    after (.i3cEntdaa 9) r0 (fun t => (rg t 0xB mgmtStatusAssigned, rg t 0xB mgmtStatusDynAddr)) =
      some (1, 9) ∧ endpointOn r0 = true ∧
    endpointOn { r0 with pins := { vioOk := false } } = false := by decide +kernel

/-- The management endpoint has an address. -/
def addressed : State := nextOf (.i3cEntdaa 9) r0

theorem test_PinsAndManagement_endpoint :
    answers addressed = true ∧ answers r0 = false ∧
    after .pldmPollEvent { addressed with alertQ := [⟨3, 1, 2, 7⟩] } (fun t => t.alertQ) = some [] ∧
    after (.pldmSensorRead .powerState) addressed (fun t => (t.resp, t.free)) = some (.value 0, 0) ∧
    (takesUpdates addressed = true ∧ takesUpdates { addressed with pins := { vioOk := false } } = false) ∧
    after (.jtagInstruction .extest) r0 (fun t => (t.jtag, rg t 0xD jtagStatusScanActive)) =
      some (.bypass, 0) ∧
    after (.jtagInstruction .extest) (setF 4 pwrStateCur 4 r0) (fun t => (t.jtag,
      rg t 0xD jtagStatusScanActive)) = some (.extest, 1) := by decide +kernel

/-- R423: parts of an update of copy B follow one another, and the copy is open until the last. -/
theorem test_PinsAndManagement_update :
    let one := nextOf (.pldmFirmwareUpdate .die ⟨[7, 8], false⟩) addressed
    bootedCopy addressed .die = false ∧
    (mget 0xFF one.flash 0x800000, mget 0xFF one.flash 0x800001, copyOpen one .die true) = (7, 8, true) ∧
    after (.pldmFirmwareUpdate .die ⟨[9], true⟩) one (fun t => (mget 0xFF t.flash 0x800001,
      mget 0xFF t.flash 0x800002, copyOpen t .die true)) = some (8, 9, false) := by decide +kernel

/-- R426: TRST_N low selects IDCODE; a scan answers the pins, and BYPASS a zero. -/
theorem test_PinsAndManagement_scan :
    let p4 := setF 4 pwrStateCur 4 r0
    after (.jtagInstruction (.testReset true)) { p4 with jtag := .extest } (fun t => (t.jtag, t.pins.trstLow)) =
      some (.idcode, true) ∧
    after (.jtagInstruction .extest) { p4 with pins := { trstLow := true } } (fun t => t.jtag) = some p4.jtag ∧
    after (.jtagInstruction (.scan 5 9)) { p4 with jtag := .extest } (fun t => (t.resp, t.boundary)) =
      some (.value 5, 9) ∧
    after (.jtagInstruction (.scan 5 9)) { p4 with jtag := .bypass } (fun t => (t.resp, t.boundary)) =
      some (.value 0, p4.boundary) ∧
    after (.jtagInstruction (.other 9)) r0 (fun t => t.jtag) = some .bypass := by decide +kernel

/-! ### Number formats -/

theorem test_FormatsKeepTheirValues_edges :
    floDecode floF8A 0x7E ≠ .nan ∧ (floConv floF8A (.stoch 0xFFFFFF) (floDecode floF8A 0x7E)).1 = 0x7E ∧
    (floConv floF32 (.stoch 0) (floDecode floF32 0x80000001)).1 = 0x80000001 ∧
    (floConv floF16 .zero (floDecode floF16 0x7C00)).1 = 0x7C00 := by decide +kernel

theorem test_IntegersSaturate_edges :
    ([127, 128, -128, -129].map (fun n => intDecode 8 (intConv 8 (.stoch 0xFFFFFF) (valOfInt n)).1)) =
      [127, 127, -128, -128] := by decide +kernel

end Sys2Proof.Tests
end

section
/-!
PROOFS. Every command keeps what `Keeps` says (`exec_keeps`), so every step keeps the canonical forms of memory
and of the register store.
-/

namespace Sys2Proof.Machine

/-- What every command keeps, but the two that change the strap levels. -/
theorem exec_keeps (c : Instr) (s : State) (hstrap : ∀ p, c ≠ .strapSample p) (hvaux : c ≠ .vauxLoss) :
    KeepsO s (exec c s) := by
  have hk : Keeps s s := .refl s
  cases c with
  | strapSample p => exact absurd rfl (hstrap p)
  | vauxLoss => exact absurd rfl hvaux
  | registerWrite => exact execRegisterWrite_keeps hk ..
  | racRead => exact execRacRead_keeps hk ..
  | bar0BadAccess => exact execBar0BadAccess_keeps hk ..
  | lobeModeWrite => exact execLobeModeWrite_keeps hk ..
  | censusSnap => exact execCensusSnap_keeps hk ..
  | censusClear => exact execCensusClear_keeps hk ..
  | censusOpDone => exact execCensusOpDone_keeps hk ..
  | seqStart => exact execSeqStart_keeps hk ..
  | seqStop => exact execSeqStop_keeps hk ..
  | digClear => exact execDigClear_keeps hk ..
  | jwCtlWrite => exact execJwCtlWrite_keeps hk ..
  | memSplitWrite => exact execMemSplitWrite_keeps hk ..
  | mapoutReqWrite => exact execMapoutReqWrite_keeps hk ..
  | oeRetry => exact execOeRetry_keeps hk ..
  | jobDataWrite => exact execJobDataWrite_keeps hk ..
  | rtDataWrite => exact execRtDataWrite_keeps hk ..
  | gqQuotaWrite => exact execGqQuotaWrite_keeps hk ..
  | queueEnable => exact execQueueEnable_keeps hk ..
  | queueDisable => exact execQueueDisable_keeps hk ..
  | portCfgWrite => exact execPortCfgWrite_keeps hk ..
  | ringCfgWrite => exact execRingCfgWrite_keeps hk ..
  | ringHeadWrite => exact execRingHeadWrite_keeps hk ..
  | resetReq => exact execResetReq_keeps hk ..
  | powerReqP0 => exact execPowerReqP0_keeps hk ..
  | powerReqP2 => exact execPowerReqP2_keeps hk ..
  | powerReqP3 => exact execPowerReqP3_keeps hk ..
  | powerReqP4 => exact execPowerReqP4_keeps hk ..
  | mrExtend => exact execMrExtend_keeps hk ..
  | faultInject => exact execFaultInject_keeps hk ..
  | logCapture => exact execLogCapture_keeps hk ..
  | ftLoRead => exact execFtLoRead_keeps hk ..
  | cmdNop => exact execCmdNop_keeps hk ..
  | cmdDma => exact execCmdDma_keeps hk ..
  | cmdSeqRun => exact execCmdSeqRun_keeps hk ..
  | cmdAbort => exact execCmdAbort_keeps hk ..
  | cmdTest => exact execCmdTest_keeps hk ..
  | cmdWaitFault => exact execCmdWaitFault_keeps hk ..
  | queuePostHost => exact execQueuePostHost_keeps hk ..
  | segOpen => exact execSegOpen_keeps hk ..
  | segPeriodic => exact execSegPeriodic_keeps hk ..
  | segCheckpoint => exact execSegCheckpoint_keeps hk ..
  | segClose => exact execSegClose_keeps hk ..
  | segState => exact execSegState_keeps hk ..
  | segmentComplete => exact execSegmentComplete_keeps hk ..
  | bar4Read => exact execBar4Read_keeps hk ..
  | bar4Write => exact execBar4Write_keeps hk ..
  | taskDispatch => exact execTaskDispatch_keeps hk ..
  | taskTake => exact execTaskTake_keeps hk ..
  | taskComplete => exact execTaskComplete_keeps hk ..
  | tileClockGate => exact execTileClockGate_keeps hk ..
  | clusterGroupGate => exact execClusterGroupGate_keeps hk ..
  | clusterGroupReady => exact execClusterGroupReady_keeps hk ..
  | tileRestart => exact execTileRestart_keeps hk ..
  | rotationStart => exact execRotationStart_keeps hk ..
  | rotationComplete => exact execRotationComplete_keeps hk ..
  | onlineTestPassEnd => exact execOnlineTestPassEnd_keeps hk ..
  | clusterFence => exact execClusterFence_keeps hk ..
  | phaseStart => exact execPhaseStart_keeps hk ..
  | phaseAttemptEnd => exact execPhaseAttemptEnd_keeps hk ..
  | phaseComplete => exact execPhaseComplete_keeps hk ..
  | stepEnd => exact execStepEnd_keeps hk ..
  | leafTake => exact execLeafTake_keeps hk ..
  | crossDieDepSignal => exact execCrossDieDepSignal_keeps hk ..
  | mirrorExchangeReceive => exact execMirrorExchangeReceive_keeps hk ..
  | pairSelfTestStart => exact execPairSelfTestStart_keeps hk ..
  | pairSelfTestResult => exact execPairSelfTestResult_keeps hk ..
  | sectorRead => exact execSectorRead_keeps hk ..
  | sectorWrite => exact execSectorWrite_keeps hk ..
  | scrubRead => exact execScrubRead_keeps hk ..
  | bankRefresh => exact execBankRefresh_keeps hk ..
  | memCalibration => exact execMemCalibration_keeps hk ..
  | channelHoldStart => exact execChannelHoldStart_keeps hk ..
  | channelHoldRelease => exact execChannelHoldRelease_keeps hk ..
  | dataFlitReceive => exact execDataFlitReceive_keeps hk ..
  | sparingComplete => exact execSparingComplete_keeps hk ..
  | dataFlitAck => exact execDataFlitAck_keeps hk ..
  | laneCountDecay => exact execLaneCountDecay_keeps hk ..
  | controlFlitReceive => exact execControlFlitReceive_keeps hk ..
  | controlAckTimeout => exact execControlAckTimeout_keeps hk ..
  | reconcileHashExchange => exact execReconcileHashExchange_keeps hk ..
  | edgeTrainingComplete => exact execEdgeTrainingComplete_keeps hk ..
  | oeAdmission => exact execOeAdmission_keeps hk ..
  | laserMonitor => exact execLaserMonitor_keeps hk ..
  | groupTrainingComplete => exact execGroupTrainingComplete_keeps hk ..
  | groupAbsent => exact execGroupAbsent_keeps hk ..
  | absentGroupProbe => exact execAbsentGroupProbe_keeps hk ..
  | optLaneFail => exact execOptLaneFail_keeps hk ..
  | groupRetrainComplete => exact execGroupRetrainComplete_keeps hk ..
  | routerPacketEnter => exact execRouterPacketEnter_keeps hk ..
  | packetLinkStart => exact execPacketLinkStart_keeps hk ..
  | codewordReceive => exact execCodewordReceive_keeps hk ..
  | linkFlitReceive => exact execLinkFlitReceive_keeps hk ..
  | portDown => exact execPortDown_keeps hk ..
  | adminExchangeSend => exact execAdminExchangeSend_keeps hk ..
  | adminReceive => exact execAdminReceive_keeps hk ..
  | detourCreditTimeout => exact execDetourCreditTimeout_keeps hk ..
  | packetWaitTimeout => exact execPacketWaitTimeout_keeps hk ..
  | remoteLoad => exact execRemoteLoad_keeps hk ..
  | remoteStore => exact execRemoteStore_keeps hk ..
  | remoteFetchAdd => exact execRemoteFetchAdd_keeps hk ..
  | remoteResponse => exact execRemoteResponse_keeps hk ..
  | nackReceive => exact execNackReceive_keeps hk ..
  | remoteRequestTimeout => exact execRemoteRequestTimeout_keeps hk ..
  | tsyncSend => exact execTsyncSend_keeps hk ..
  | tsyncReceive => exact execTsyncReceive_keeps hk ..
  | ftHoldover => exact execFtHoldover_keeps hk ..
  | eruptReceive => exact execEruptReceive_keeps hk ..
  | queueAbortComplete => exact execQueueAbortComplete_keeps hk ..
  | redChunkReceive => exact execRedChunkReceive_keeps hk ..
  | resvGrantReceive => exact execResvGrantReceive_keeps hk ..
  | resvCreditReceive => exact execResvCreditReceive_keeps hk ..
  | collOpStart => exact execCollOpStart_keeps hk ..
  | ctsReceive => exact execCtsReceive_keeps hk ..
  | msgDataReceive => exact execMsgDataReceive_keeps hk ..
  | msgDoneReceive => exact execMsgDoneReceive_keeps hk ..
  | msgResultReceive => exact execMsgResultReceive_keeps hk ..
  | fumReceive => exact execFumReceive_keeps hk ..
  | collOpComplete => exact execCollOpComplete_keeps hk ..
  | dmaComplete => exact execDmaComplete_keeps hk ..
  | completionRecordWrite => exact execCompletionRecordWrite_keeps hk ..
  | msixHoldoffExpiry => exact execMsixHoldoffExpiry_keeps hk ..
  | quietPeriodExpiry => exact execQuietPeriodExpiry_keeps hk ..
  | tremorWindowExpiry => exact execTremorWindowExpiry_keeps hk ..
  | resetEnd => exact execResetEnd_keeps hk ..
  | resetEscalation => exact execResetEscalation_keeps hk ..
  | abortTimeout => exact execAbortTimeout_keeps hk ..
  | testStart => exact execTestStart_keeps hk ..
  | testEnd => exact execTestEnd_keeps hk ..
  | testDeadlineExpiry => exact execTestDeadlineExpiry_keeps hk ..
  | linkRecalibration => exact execLinkRecalibration_keeps hk ..
  | linkRecalibrationEnd => exact execLinkRecalibrationEnd_keeps hk ..
  | brakePinAssert => exact execBrakePinAssert_keeps hk ..
  | brakePinRelease => exact execBrakePinRelease_keeps hk ..
  | limiterStep => exact execLimiterStep_keeps hk ..
  | supVinLow => exact execSupVinLow_keeps hk ..
  | supVinHigh => exact execSupVinHigh_keeps hk ..
  | supOvercurrent => exact execSupOvercurrent_keeps hk ..
  | supVauxLow => exact execSupVauxLow_keeps hk ..
  | thermWarn => exact execThermWarn_keeps hk ..
  | thermHot => exact execThermHot_keeps hk ..
  | thermTrip => exact execThermTrip_keeps hk ..
  | brakeCauseClear => exact execBrakeCauseClear_keeps hk ..
  | supplyRestart => exact execSupplyRestart_keeps hk ..
  | refclkLoss => exact execRefclkLoss_keeps hk ..
  | slowclkLoss => exact execSlowclkLoss_keeps hk ..
  | vinCollapse => exact execVinCollapse_keeps hk ..
  | vioLoss => exact execVioLoss_keeps hk ..
  | vioRestore => exact execVioRestore_keeps hk ..
  | powerOn => exact execPowerOn_keeps hk ..
  | vin48Ready => exact execVin48Ready_keeps hk ..
  | fuseCommit => exact execFuseCommit_keeps hk ..
  | perstAssert => exact execPerstAssert_keeps hk ..
  | perstDeassert => exact execPerstDeassert_keeps hk ..
  | functionLevelReset => exact execFunctionLevelReset_keeps hk ..
  | i3cEntdaa => exact execI3cEntdaa_keeps hk ..
  | pldmSensorRead => exact execPldmSensorRead_keeps hk ..
  | pldmFirmwareUpdate => exact execPldmFirmwareUpdate_keeps hk ..
  | pldmPollEvent => exact execPldmPollEvent_keeps hk ..
  | jtagInstruction => exact execJtagInstruction_keeps hk ..
  | promotionLatchReceive => exact execPromotionLatchReceive_keeps hk ..
  | groupLightRecheck => exact execGroupLightRecheck_keeps hk ..
  | refclkRestore => exact execRefclkRestore_keeps hk ..
  | slowclkRestore => exact execSlowclkRestore_keeps hk ..
  | powerStateEntered => exact execPowerStateEntered_keeps hk ..
  | stackTempBelow85 => exact execStackTempBelow85_keeps hk ..

/-- Setting the strap levels keeps the invariant. -/
theorem inv_straps {s : State} (p : Straps) (h : Inv s) :
    Inv { s with pins := { s.pins with straps := p } } := h

/-- What keeps the forms of a state keeps its invariant. -/
theorem Keeps.inv {s t : State} (k : Keeps s t) (h : Inv s) : Inv t := by
  obtain ⟨hmem, hregs⟩ := h
  exact ⟨k.mem hmem, k.regs hregs⟩

/-- Every command keeps the invariant. -/
theorem exec_inv {c : Instr} {s t : State} (ht : exec c s = .next t) (h : Inv s) : Inv t := by
  by_cases hstrap : ∃ p, c = .strapSample p
  · obtain ⟨p, rfl⟩ := hstrap
    obtain k | k := execStrapSample_keeps s p
    · exact (k.of t ht).inv h
    · exact (k.of t ht).inv (inv_straps p h)
  · by_cases hvaux : c = .vauxLoss
    · subst hvaux
      exact ((execVauxLoss_keeps s).of t ht).inv (inv_straps {} h)
    · exact ((exec_keeps c s (fun p hp => hstrap ⟨p, hp⟩) hvaux).of t ht).inv h

/-- What `tickFabric` keeps. -/
theorem tickFabric_keeps {s0 s : State} (hk : Keeps s0 s) : Keeps s0 (tickFabric s) :=
  Keeps.ite (fun _ => Keeps.fields.mpr hk) (fun _ => hk)

/-- What `issueAll` keeps. -/
theorem issueAll_keeps {s0 s : State} (hk : Keeps s0 s) : Keeps s0 (issueAll s) :=
  forEach_keeps _ _ hk fun _ d ht => Keeps.ite (fun _ => issueDie_keeps ht d) (fun _ => ht)

/-- What a microsecond on an empty queue keeps. -/
theorem idle_keeps (s : State) : Keeps s (idle s) := by
  have hclock : Keeps s { s with clock := s.clock + 1 } := Keeps.fields.mpr (.refl s)
  have hissue := issueAll_keeps (countAvail_keeps (tickFabric_keeps hclock))
  refine notePending_keeps (forEach_keeps _ progress ?_ fun _ slot ht => progress_keeps ht slot)
  exact forEach_keeps _ dmaMoves hissue fun _ k ht => dmaMoves_keeps ht k

/-- Settles O4: every operation of the machine keeps the forms (`Keeps`), so every command and the passing of a
microsecond do. -/
theorem stepKeepsForm : Obligations.StepKeepsForm := by
  intro s t hinv hstep
  unfold step at hstep
  split at hstep
  · obtain rfl : idle s = t := Host.Outcome.next.inj hstep
    exact (idle_keeps s).inv hinv
  · exact exec_inv hstep hinv

end Sys2Proof.Machine
end

section
/-!
PROOFS. Every command completes: each arm of the dispatch answers a next state on each of its paths.
-/

namespace Sys2Proof.Machine

/-- The outcome is a next state. -/
def Completes (o : Host.Outcome State Fault Refusal) : Prop := ∃ t, o = .next t

/-- A next state. -/
theorem Completes.next (t : State) : Completes (.next t) := ⟨t, rfl⟩

/-- Either way of a choice of outcomes. -/
theorem Completes.ite {p : Prop} [Decidable p] {a b : Host.Outcome State Fault Refusal}
    (ha : Completes a) (hb : Completes b) : Completes (if p then a else b) := by
  split
  · exact ha
  · exact hb

/-- A choice of two next states. -/
theorem Completes.iteNext {p : Prop} [Decidable p] (a b : State) :
    Completes (if p then .next a else .next b) := .ite (.next a) (.next b)

/-- A dispatch: the die may not dispatch, no phase is ready, its descriptors cannot be read, or a task goes out. -/
theorem execTaskDispatch_completes (d : Die) (s : State) : Completes (execTaskDispatch d s) := by
  refine .ite (.next _) ?_
  split
  · exact .iteNext _ _
  · exact .next _

/-- The end of a task: none is on the tile, it cannot end yet, or its reads were clean or spoiled it. -/
theorem execTaskComplete_completes (d : Die) (c : Cluster) (t : TileIx) (s : State) :
    Completes (execTaskComplete d c t s) := by
  unfold execTaskComplete
  split
  · exact .next _
  · split
    · exact .next _
    · refine .ite (.next _) ?_
      split
      · exact .next _
      · exact .next _

/-- The start of a rotation: with a cluster to relieve, or with none. -/
theorem execRotationStart_completes (d : Die) (s : State) : Completes (execRotationStart d s) := by
  refine .ite ?_ (.next _)
  split
  · exact .next _
  · exact .next _

/-- The end of a rotation: none is in progress, or it may end or not. -/
theorem execRotationComplete_completes (d : Die) (s : State) : Completes (execRotationComplete d s) := by
  unfold execRotationComplete
  split
  · exact .next _
  · exact .iteNext _ _

/-- The end of a census operation: none is in progress, or one with or without a snapshot. -/
theorem execCensusOpDone_completes (d : Die) (s : State) : Completes (execCensusOpDone d s) := by
  unfold execCensusOpDone
  split
  · exact .next _
  · exact .iteNext _ _

/-- The start of the lobe self-test: it is wanted, or not. -/
theorem execPairSelfTestStart_completes (s : State) : Completes (execPairSelfTestStart s) := by
  unfold execPairSelfTestStart
  split
  · exact .iteNext _ _
  · exact .next _

/-- The result of the lobe self-test: it runs, or not. -/
theorem execPairSelfTestResult_completes (west east : Bool) (s : State) :
    Completes (execPairSelfTestResult west east s) := by
  unfold execPairSelfTestResult
  split
  · exact .next _
  · exact .next _

/-- Settles O2, by the arms of the dispatch: most answer a next state outright, the others on either side of
their choices. -/
theorem everyCommandCompletes : Obligations.EveryCommandCompletes := by
  intro c s
  change Completes (exec c s)
  cases c with
  | censusOpDone => exact execCensusOpDone_completes ..
  | segmentComplete => exact .iteNext _ _
  | taskDispatch => exact execTaskDispatch_completes ..
  | taskTake => exact .iteNext _ _
  | taskComplete => exact execTaskComplete_completes ..
  | tileClockGate => exact .iteNext _ _
  | clusterGroupGate => exact .ite (.iteNext _ _) (.next _)
  | clusterGroupReady => exact .iteNext _ _
  | tileRestart => exact .iteNext _ _
  | rotationStart => exact execRotationStart_completes ..
  | rotationComplete => exact execRotationComplete_completes ..
  | onlineTestPassEnd => exact .ite (.next _) (.iteNext _ _)
  | clusterFence => exact .iteNext _ _
  | phaseStart => exact .iteNext _ _
  | phaseAttemptEnd => exact .iteNext _ _
  | phaseComplete => exact .iteNext _ _
  | stepEnd => exact .iteNext _ _
  | leafTake => exact .iteNext _ _
  | crossDieDepSignal => exact .iteNext _ _
  | mirrorExchangeReceive => exact .iteNext _ _
  | pairSelfTestStart => exact execPairSelfTestStart_completes ..
  | pairSelfTestResult => exact execPairSelfTestResult_completes ..
  | bankRefresh => exact .iteNext _ _
  | memCalibration => exact .iteNext _ _
  | channelHoldStart => exact .iteNext _ _
  | channelHoldRelease => exact .iteNext _ _
  | sparingComplete => exact .iteNext _ _
  | controlAckTimeout => exact .iteNext _ _
  | reconcileHashExchange => exact .iteNext _ _
  | edgeTrainingComplete => exact .iteNext _ _
  | oeAdmission => exact .iteNext _ _
  | laserMonitor => exact .iteNext _ _
  | groupTrainingComplete => exact .iteNext _ _
  | groupAbsent => exact .iteNext _ _
  | absentGroupProbe => exact .iteNext _ _
  | optLaneFail => exact .iteNext _ _
  | groupRetrainComplete => exact .iteNext _ _
  | collOpStart => exact .iteNext _ _
  | promotionLatchReceive => exact .iteNext _ _
  | groupLightRecheck => exact .iteNext _ _
  | _ => exact .next _

end Sys2Proof.Machine
end

section
/-!
PROOFS. Laws that the statements' proofs share: a change for each element of a list, and what a map answers.
-/

namespace Sys2Proof.Machine

/-- A map answers its default or one of its entries. -/
theorem mget_eq_default_or_mem {α : Type} (d : α) (m : Map α) (k : Nat) :
    mget d m k = d ∨ (k, mget d m k) ∈ m := by
  induction m with
  | nil => exact .inl rfl
  | cons e m ih =>
    obtain ⟨a, v⟩ := e
    by_cases ha : a = k
    · subst ha; simp [mget]
    · simpa [mget, ha, Ne.symm ha] using ih

/-! ### A change for each element of a list -/

/-- A change that does nothing for any element of a list does nothing for the list. -/
theorem forEach_eq_self {α : Type} (xs : List α) (s : State) (f : State → α → State)
    (h : ∀ x ∈ xs, f s x = s) : forEach xs s f = s := by
  induction xs with
  | nil => rfl
  | cons x xs ih =>
    calc forEach (x :: xs) s f = forEach xs (f s x) f := rfl
      _ = forEach xs s f := by rw [h x List.mem_cons_self]
      _ = s := ih fun y hy => h y (List.mem_cons_of_mem x hy)

/-- A change for each element of an empty list. -/
theorem forEach_of_nil {α : Type} {xs : List α} (hxs : xs = []) (s : State) (f : State → α → State) :
    forEach xs s f = s := by subst hxs; rfl

/-- A field that no element's change moves. -/
theorem rg_forEach_frame {α : Type} (xs : List α) (s : State) (f : State → α → State) (slot : Nat) (g : Fld)
    (h : ∀ t, ∀ x ∈ xs, rg (f t x) slot g = rg t slot g) : rg (forEach xs s f) slot g = rg s slot g := by
  induction xs generalizing s with
  | nil => rfl
  | cons x xs ih =>
    calc rg (forEach (x :: xs) s f) slot g = rg (forEach xs (f s x) f) slot g := rfl
      _ = rg (f s x) slot g := ih _ fun t y hy => h t y (List.mem_cons_of_mem x hy)
      _ = rg s slot g := h s x List.mem_cons_self

/-- A field that one element's change sets and no other's moves. -/
theorem rg_forEach_of_mem {α : Type} {xs : List α} (s : State) (f : State → α → State) (slot : Nat) (g : Fld)
    {y : α} {v : Nat} (hy : y ∈ xs) (hself : ∀ t, rg (f t y) slot g = v)
    (hother : ∀ t, ∀ x ∈ xs, x ≠ y → rg (f t x) slot g = rg t slot g) : rg (forEach xs s f) slot g = v := by
  induction xs generalizing s with
  | nil => cases hy
  | cons x xs ih =>
    have htail : ∀ t, ∀ z ∈ xs, z ≠ y → rg (f t z) slot g = rg t slot g :=
      fun t z hz => hother t z (List.mem_cons_of_mem x hz)
    change rg (forEach xs (f s x) f) slot g = v
    by_cases hmem : y ∈ xs
    · exact ih _ hmem htail
    · obtain rfl : y = x := (List.mem_cons.mp hy).resolve_right hmem
      rw [rg_forEach_frame _ _ _ _ _ fun t z hz => htail t z hz fun hzy => hmem (hzy ▸ hz), hself]

/-- Changes of register fields alone. -/
theorem forEach_regs {α : Type} (xs : List α) (s : State) (f : State → α → State)
    (h : ∀ t x, f t x = { t with regs := (f t x).regs }) :
    forEach xs s f = { s with regs := (forEach xs s f).regs } := by
  induction xs generalizing s with
  | nil => rfl
  | cons x xs ih =>
    change forEach xs (f s x) f = { s with regs := (forEach xs (f s x) f).regs }
    rw [ih (f s x), h s x]

/-- Events raised for the elements of a list that satisfy `p`. -/
theorem forEach_raise {α : Type} (xs : List α) (s : State) (p : α → Bool) (e : α → Event) :
    forEach xs s (fun s x => if p x then raise s (e x) else s) =
      { s with due := s.due ++ (xs.filter p).map e } := by
  induction xs generalizing s with
  | nil => simp [forEach]
  | cons x xs ih =>
    change forEach xs (if p x then raise s (e x) else s) _ = _
    rw [ih]
    by_cases hp : p x
    · simp [hp, raise]
    · simp [hp]

end Sys2Proof.Machine
end

section
/-!
PROOFS. On a quiet package each of the steps of `settle` does nothing: what it would take, start or move is
not there.
-/

namespace Sys2Proof.Machine

/-- A command port without a running DMA sends nothing. -/
theorem pumpDma_of_none {s : State} {p n : Nat} (h : dmaOf s p n = none) (m : Nat) : pumpDma m s p n = s := by
  cases m with
  | zero => rfl
  | succ m => simp [pumpDma, h]

end Sys2Proof.Machine

namespace Sys2Proof

open Sys2Proof.Machine

/-! ### What a quiet package lacks -/

section
variable {s : State} (hq : Quiet s)
include hq

/-- No command port holds a command. -/
theorem Quiet.cportOf_cmds (p n : Nat) : (cportOf s p n).cmds = [] := by
  obtain hd | hm := mget_eq_default_or_mem ({} : CPort) s.cports (256 * p + n)
  · exact congrArg CPort.cmds hd
  · exact hq.started _ _ hm

/-- No host command waits or runs. -/
theorem Quiet.allCmds_nil : allCmds s = [] :=
  List.flatMap_eq_nil_iff.mpr fun x hx => hq.started x.1 x.2 hx

/-- No DMA runs. -/
theorem Quiet.dmaOf_none (p n : Nat) : dmaOf s p n = none := by
  unfold dmaOf
  rw [hq.cportOf_cmds]
  rfl

/-- No task is dispatched. -/
theorem Quiet.live_nil {d : Nat} (hd : d < 4) : (die s d).live = [] := by
  obtain ⟨hlive, -⟩ := hq.idle d hd
  exact hlive

/-- No sequencer runs. -/
theorem Quiet.seqRunning_false {d : Nat} (hd : d < 4) : seqRunning s d = false := by
  obtain ⟨-, -, hrun, -⟩ := hq.idle d hd
  exact hrun

/-- No sequencer waits for its start. -/
theorem Quiet.wants_false {d : Nat} (hd : d < 4) : (seqOf s d).wants = false := by
  obtain ⟨-, -, -, hwants⟩ := hq.idle d hd
  exact hwants

/-- No phase is started. -/
theorem Quiet.startedPhases_nil {d : Nat} (hd : d < 4) : startedPhases s d = [] := by
  obtain ⟨-, hphases, -⟩ := hq.idle d hd
  rw [startedPhases, hphases]
  rfl

/-! ### The steps of `settle` -/

/-- No store waits for an edge. -/
theorem Quiet.flushPosted_eq : flushPosted s = s := by
  simp [flushPosted, hq.stores]

/-- No BAR4 read waits. -/
theorem Quiet.releaseBars_eq : releaseBars s = s := by
  have hs : { s with barWait := [] } = s := by rw [← hq.bars]
  rw [releaseBars, hs, forEach_of_nil hq.bars]

/-- No raised event is taken. -/
theorem Quiet.drain_eq (n : Nat) : drain n s = s := by
  cases n with
  | zero => rfl
  | succ n => simp [drain, hq.due]

/-- No task is released. -/
theorem Quiet.releaseHeld_eq {d : Nat} (hd : d < 4) : releaseHeld s d = s := by
  have hr : released s d = [] := by
    have hl : liveTasks s d = [] := by simp [liveTasks, hq.live_nil hd]
    rw [released, hl]
    rfl
  rw [releaseHeld, hr]
  rfl

/-- No sequencer stops. -/
theorem Quiet.settleSeq_eq {d : Nat} (hd : d < 4) : settleSeq s d = s := by
  simp [settleSeq, hq.seqRunning_false hd]

/-- No event is taken and no sequencer stops. -/
theorem Quiet.takeEvents_eq : takeEvents s = s := by
  rw [takeEvents, hq.drain_eq]
  refine forEach_eq_self _ _ _ fun d hd => ?_
  have hd4 := List.mem_range.mp hd
  rw [hq.releaseHeld_eq hd4, hq.settleSeq_eq hd4]

/-- No sequencer starts. -/
theorem Quiet.startWaiting_eq : startWaiting s = s := by
  refine forEach_eq_self _ _ _ fun d hd => ?_
  simp [hq.wants_false (List.mem_range.mp hd)]

/-- No remote request leaves. -/
theorem Quiet.pumpWaiting_eq : pumpWaiting s = s := by
  have hs : { s with remote := { s.remote with waiting := [] } } = s := by rw [← hq.remote]
  rw [pumpWaiting, hs, forEach_of_nil hq.remote]

/-- No DMA moves. -/
theorem Quiet.pumpDmas_eq : pumpDmas s = s := by
  exact forEach_eq_self _ _ _ fun k _ => pumpDma_of_none (hq.dmaOf_none _ _) _

/-- No host command starts. -/
theorem Quiet.pumpHost_eq : pumpHost (allCmds s).length s = s := by
  rw [hq.allCmds_nil]
  rfl

/-- No phase posts. -/
theorem Quiet.postWaiting_eq : postWaiting s = s := by
  refine forEach_eq_self _ _ _ fun d hd => ?_
  rw [forEach_of_nil (hq.startedPhases_nil (List.mem_range.mp hd))]

/-- No full package reset boots. -/
theorem Quiet.bootWhenDue_eq : bootWhenDue s = s := by
  have hr : s.resets.any (fun r => r.scope = .full && !r.wait && !r.booted) = false := by
    rw [List.any_eq_false]
    intro r hr
    by_cases hf : r.scope = .full
    · obtain hw | hb := hq.boots r hr hf <;> simp [*]
    · simp [hf]
  rw [bootWhenDue, hr]
  rfl

/-- No engine's PENDING changes. -/
theorem Quiet.notePending_eq : notePending s = s := by
  have hn : forEach (watchedPages s) s noteWork = s := by
    refine forEach_eq_self _ _ _ fun slot hslot => ?_
    obtain ⟨hmay, hpend⟩ := hq.work slot hslot
    simp [noteWork, setPending, hmay, hpend]
  rw [notePending, hn]

end

/-- Settles O6: each step of `settle` finds nothing to do. -/
theorem quietSettles : Obligations.QuietSettles := by
  intro s hq
  simp only [settle, hq.flushPosted_eq, hq.releaseBars_eq, hq.takeEvents_eq, hq.startWaiting_eq, hq.pumpWaiting_eq,
    hq.pumpDmas_eq, hq.pumpHost_eq, hq.postWaiting_eq, hq.bootWhenDue_eq, hq.notePending_eq]

end Sys2Proof
end

section
/-!
PROOFS. The state after reset.
-/

namespace Sys2Proof.Machine

/-- JTAG_ID after reset: all but MANUF, a constant of the part, which stands in bits 11 to 1. -/
theorem readReg_reset_jtagId :
    readReg State.reset .pcie0 0xD080 = 0x17404000 + Config.jtagManuf % 2 ^ 11 * 2 + 1 := by
  have hruns : performs State.reset 0xD = true := by decide +kernel
  change (if performs State.reset 0xD then _ else 0) = _
  rw [hruns]
  rfl

/-- Settles O3: the fields by what `State.reset` lists, JTAG_ID by its fixed part, the other registers by reading
each of them. -/
theorem resetState : Obligations.ResetState := by
  unfold Obligations.ResetState
  refine ⟨rfl, rfl, rfl, rfl, rfl, rfl, rfl, ⟨rfl, rfl⟩, ?_, ?_, ?_⟩
  · rw [readReg_reset_jtagId]
    omega
  · rw [readReg_reset_jtagId]
    omega
  · decide +kernel

end Sys2Proof.Machine
end

section
/-!
PROOFS. Writes of the common header, and how an access of BAR0 finds its page.
-/

namespace Sys2Proof.Machine

/-! ### The page and the offset of an access of BAR0 -/

/-- The page slot of an address of BAR0. -/
theorem pageOff_div (slot : Nat) {o : Nat} (ho : o < 4096) : (slot * 4096 + o) / 4096 = slot := by omega

/-- The offset within its page of an address of BAR0. -/
theorem pageOff_mod (slot : Nat) {o : Nat} (ho : o < 4096) : (slot * 4096 + o) % 4096 = o := by omega

/-- An access to a page below the MSI-X range is taken from a requester that reaches the package. -/
theorem pageOff_taken {s : State} {r : Requester} {slot o : Nat} (hslot : slot < 0x3FF0) (ho : o < 4096)
    (hreach : reached s r = true) : ¬(slot * 4096 + o ≥ 2 ^ 26 ∨ (!reached s r) = true) := by
  rw [hreach]
  simp only [Bool.not_true, Bool.false_eq_true, or_false]
  omega

/-- What a write of BAR0 leads to. -/
theorem settles_registerWrite {s u : State} {r : Requester} {off width val set : Nat}
    (h : writeBar0 s r off width val set = u) : Settles (.registerWrite r .bar0 off width ⟨val, set⟩) s u :=
  congrArg (fun t => Host.Outcome.next (settle t)) h

/-- What a read of BAR0 leads to. -/
theorem settles_racRead {s u : State} {r : Requester} {off width k : Nat}
    (h : readAccess s r off width k = u) : Settles (.racRead r ⟨.bar0, off, width⟩ k) s u :=
  congrArg (fun t => Host.Outcome.next (settle t)) h

/-- What a read of FT_LO leads to. -/
theorem settles_ftLoRead {s u : State} {r : Requester}
    (h : readAccess s r (routerSlot * 4096 + 0xB0) 4 0 = u) : Settles (.ftLoRead r) s u :=
  congrArg (fun t => Host.Outcome.next (settle t)) h

/-! ### The header -/

/-- A header's class fields stand at bit addresses of their own. -/
theorem fkey_hdrClass_ne {slot ty m n : Nat} (h : m ≠ n) :
    fkey slot (hdrClass ty m) ≠ fkey slot (hdrClass ty n) := by
  simp only [fkey, hdrClass]
  omega

/-- Sources that a page takes as raised in the cycle of a write: their events follow it. -/
theorem setSticky_eq (s : State) (slot set : Nat) :
    setSticky s slot set = { s with
      due := s.due ++ ((List.range 16).filter (fun n => bit set n && hasSource (pgType slot) n)).map
        (fun n => { slot := slot, src := n }) } :=
  forEach_raise _ _ (fun n => bit set n && hasSource (pgType slot) n) _

/-- Nibble `j` of a write to the word of FAULT_CLASS whose first source is `first`. -/
def writeClass (slot first val : Nat) (s : State) (j : Nat) : State :=
  if hasSource (pgType slot) (first + j) ∧ bits val (4 * j) 4 ≤ 4 then
    wg s slot (hdrClass (pgType slot) (first + j)) (bits val (4 * j) 4)
  else s

/-- A write of a word of FAULT_CLASS is one of its eight nibbles. -/
theorem writeHeader_class (s : State) (slot val : Nat) {k : Nat} (hk : k < 2) :
    writeHeader s slot (0x20 + 4 * k) val = forEach (List.range 8) s (writeClass slot (8 * k) val) := by
  obtain rfl | rfl : k = 0 ∨ k = 1 := by omega
  · rfl
  · rfl

/-- A nibble moves register fields alone. -/
theorem writeClass_regs (slot first val : Nat) (s : State) (j : Nat) :
    writeClass slot first val s j = { s with regs := (writeClass slot first val s j).regs } := by
  unfold writeClass
  split
  · rfl
  · rfl

/-- A nibble leaves the classes of the other sources alone. -/
theorem rg_writeClass_other (slot val : Nat) (s : State) {first j n : Nat} (h : n ≠ first + j) :
    rg (writeClass slot first val s j) slot (hdrClass (pgType slot) n) = rg s slot (hdrClass (pgType slot) n) := by
  unfold writeClass
  split
  · exact rg_wg_other s _ (fkey_hdrClass_ne h)
  · rfl

/-- A write of a word of FAULT_CLASS: the class of each source afterwards. -/
theorem rg_writeHeader_class (s : State) (slot val : Nat) {k n : Nat} (hk : k < 2) :
    rg (writeHeader s slot (0x20 + 4 * k) val) slot (hdrClass (pgType slot) n) =
      if n / 8 = k ∧ hasSource (pgType slot) n ∧ val / 2 ^ (4 * (n % 8)) % 16 ≤ 4
      then val / 2 ^ (4 * (n % 8)) % 16 else rg s slot (hdrClass (pgType slot) n) := by
  rw [writeHeader_class s slot val hk]
  have hn : n / 8 = k → 8 * k + n % 8 = n := by omega
  split
  · next h =>
    obtain ⟨hword, hsource, hclass⟩ := h
    refine rg_forEach_of_mem s _ slot _ (y := n % 8) (List.mem_range.mpr (by omega)) (fun t => ?_)
      fun t j _ hj => rg_writeClass_other slot val t (by omega)
    have htakes : hasSource (pgType slot) (8 * k + n % 8) ∧ bits val (4 * (n % 8)) 4 ≤ 4 := by
      rw [hn hword]
      exact ⟨hsource, hclass⟩
    rw [writeClass, if_pos htakes, hn hword, rg_wg_same]
    exact Nat.mod_mod _ _
  · next h =>
    refine rg_forEach_frame _ s _ slot _ fun t j hj => ?_
    by_cases hnj : n = 8 * k + j
    · have hj8 := List.mem_range.mp hj
      obtain ⟨hword, hnibble⟩ : n / 8 = k ∧ n % 8 = j := by omega
      have hleaves : ¬(hasSource (pgType slot) (8 * k + j) ∧ bits val (4 * j) 4 ≤ 4) := by
        rw [← hnj, ← hnibble]
        exact fun hc => h ⟨hword, hc⟩
      rw [writeClass, if_neg hleaves]
    · exact rg_writeClass_other slot val t hnj

/-- The header's other registers take no write (R334). -/
theorem writeHeader_readOnly (s : State) (slot val : Nat) {o : Nat}
    (ho : o ∈ [0x00, 0x04, 0x08, 0x14, 0x28, 0x30]) : writeHeader s slot o val = s := by
  simp only [List.mem_cons, List.not_mem_nil, or_false] at ho
  obtain rfl | rfl | rfl | rfl | rfl | rfl := ho
  all_goals rfl

/-- A write of BAR0 within a page's header: it reaches the header where that runs, and nothing where not. -/
theorem writeBar0_header {s : State} {r : Requester} {slot o : Nat} (val set : Nat) (hslot : slot < 0x3FF0)
    (hpage : pgType slot ≠ 0) (hreach : reached s r = true) (ho : o < 0x80) (halign : o % 4 = 0) :
    writeBar0 s r (slot * 4096 + o) 4 val set =
      if headerRuns s slot then
        if o = 0x18 then setSticky (writeHeader s slot o (val % 2 ^ 32)) slot set
        else writeHeader s slot o (val % 2 ^ 32)
      else s := by
  have hpageOff : o < 4096 := by omega
  have hmsix : ¬slot * 4096 + o ≥ 0x3FF0000 := by omega
  have hshape : badShape (slot * 4096 + o) 4 = false := by
    have : (slot * 4096 + o) % 4 = 0 := by omega
    simp [badShape, this]
  rw [writeBar0, pageOff_div slot hpageOff, pageOff_mod slot hpageOff, if_neg (pageOff_taken hslot hpageOff hreach),
    if_neg hmsix, hshape, if_neg Bool.false_ne_true, if_neg hpage, if_pos ho]
  cases headerRuns s slot <;> rfl

/-- Settles O8, by what a write of the header does offset by offset (`writeHeader`). -/
theorem headerWrites : Obligations.HeaderWrites := by
  intro r slot val set s hslot hpage hval hreach
  have hmod : val % 2 ^ 32 = val := Nat.mod_eq_of_lt hval
  refine ⟨fun hruns => ?_, fun hstill o ho halign => ?_⟩
  · have hw {o : Nat} (ho : o < 0x80) (halign : o % 4 = 0) (hne : o ≠ 0x18) :
        Settles (.registerWrite r .bar0 (slot * 4096 + o) 4 ⟨val, set⟩) s (writeHeader s slot o val) := by
      have hb := writeBar0_header val set hslot hpage hreach ho halign
      rw [hmod, if_pos hruns, if_neg hne] at hb
      exact settles_registerWrite hb
    refine ⟨?_, hw (by decide) rfl (by decide), hw (by decide) rfl (by decide), hw (by decide) rfl (by decide),
      ?_, ?_⟩
    · have hb := writeBar0_header val set hslot hpage hreach (o := 0x18) (by decide) rfl
      rw [hmod, if_pos hruns, if_pos rfl, setSticky_eq] at hb
      exact settles_registerWrite hb
    · intro k hk
      refine ⟨_, hw (by omega) (by omega) (by omega), ?_, fun n _ => rg_writeHeader_class s slot val hk⟩
      rw [writeHeader_class s slot val hk]
      exact forEach_regs _ _ _ (writeClass_regs slot (8 * k) val)
    · intro o ho
      obtain ⟨hlow, halign, hne⟩ : o < 0x80 ∧ o % 4 = 0 ∧ o ≠ 0x18 :=
        (by decide : ∀ o ∈ [0x00, 0x04, 0x08, 0x14, 0x28, 0x30], o < 0x80 ∧ o % 4 = 0 ∧ o ≠ 0x18) o ho
      simpa only [writeHeader_readOnly s slot val ho] using hw hlow halign hne
  · have hb := writeBar0_header val set hslot hpage hreach ho halign
    rw [hstill] at hb
    exact settles_registerWrite hb

end Sys2Proof.Machine
end

section
/-!
PROOFS. Reads with effects: what a read of BAR0 does to a register of a block that takes accesses.
-/

namespace Sys2Proof.Machine

/-! ### The RAC fields of a register -/

/-- The directory has the page types 1 to 0x28. -/
theorem pgType_lt (slot : Nat) : pgType slot < 0x29 := by
  unfold pgType
  dsimp only
  repeat' split
  all_goals omega

/-- In the register tables no two RAC fields of a register start at the same bit. -/
theorem racFields_table :
    ∀ ty ∈ List.range 0x29, ∀ f ∈ blockFields ty, ∀ g ∈ blockFields ty,
      f.acc = .rac ∧ g.acc = .rac ∧ f.off = g.off ∧ f.lo = g.lo → f = g := by
  decide +kernel

/-- The RAC fields of a register stand at bit addresses of their own. -/
theorem racFields_fkey_inj {slot off : Nat} {f g : Fld} (hf : f ∈ racFields slot off) (hg : g ∈ racFields slot off)
    (hkey : fkey slot f = fkey slot g) : f = g := by
  simp only [racFields, List.mem_filter, Bool.and_eq_true, decide_eq_true_eq] at hf hg
  obtain ⟨hfm, hfo, hfa⟩ := hf
  obtain ⟨hgm, hgo, hga⟩ := hg
  have hoff : f.off = g.off := hfo.trans hgo.symm
  have hlo : f.lo = g.lo := by
    simp only [fkey] at hkey
    omega
  exact racFields_table _ (List.mem_range.mpr (pgType_lt slot)) f hfm g hgm ⟨hfa, hga, hoff, hlo⟩

/-- FT_LO has no RAC field. -/
theorem racFields_ftLo : racFields routerSlot 0xB0 = [] := by decide +kernel

/-! ### The effect of a read -/

/-- A read of a register with RAC fields sets these alone. -/
theorem readEffect_of_rac (t : State) {slot off : Nat} (k : Nat) {f : Fld} (hf : f ∈ racFields slot off) :
    readEffect t slot off k =
      forEach (racFields slot off) t (fun t f => wg t slot f (satAdd f.w f.reset (fget f k))) := by
  have hft : ¬(slot = routerSlot ∧ off = 0xB0) := by
    rintro ⟨rfl, rfl⟩
    rw [racFields_ftLo] at hf
    cases hf
  rw [readEffect, if_neg hft]

/-- A sum that saturates at a field's largest value fits the field. -/
theorem satAdd_mod (w n k : Nat) : satAdd w n k % 2 ^ w = satAdd w n k := by
  have hpos : 0 < 2 ^ w := Nat.two_pow_pos w
  refine Nat.mod_eq_of_lt ?_
  unfold satAdd
  omega

/-- A read sets an RAC field to its reset value, with the coincident events counted on from there (R11). -/
theorem rg_readEffect_rac (t : State) {slot off : Nat} (k : Nat) {f : Fld} (hf : f ∈ racFields slot off) :
    rg (readEffect t slot off k) slot f = satAdd f.w f.reset (fget f k) := by
  rw [readEffect_of_rac t k hf]
  refine rg_forEach_of_mem t _ slot f hf (fun u => ?_) fun u g hg hne => ?_
  · rw [rg_wg_same, satAdd_mod]
  · exact rg_wg_other u _ fun hkey => hne (racFields_fkey_inj hf hg hkey).symm

/-- A read of FT_LO latches FT_HI. -/
theorem readEffect_ftLo (t : State) (k : Nat) :
    readEffect t routerSlot 0xB0 k = wg t routerSlot ftHi (t.ft.t / 2 ^ 32) := by
  rw [readEffect, racFields_ftLo, if_pos ⟨rfl, rfl⟩]
  rfl

/-! ### The read -/

/-- What a read leaves of a block's register: woken, measured, and with the effect of the read. -/
def afterRead (s : State) (slot o k : Nat) : State := readEffect (measure (wakeFor s slot) slot o) slot o k

/-- A read of a 4-byte register of a block that takes accesses. -/
theorem readAccess_of_performs {s : State} {r : Requester} {slot o : Nat} (k : Nat) (hslot : slot < 0x3FF0)
    (hpage : pgType slot ≠ 0) (hruns : performs s slot = true) (hreach : reached s r = true) (hlow : 0x80 ≤ o)
    (hhigh : o < 4096) (halign : o % 4 = 0) :
    readAccess s r (slot * 4096 + o) 4 k =
      { afterRead s slot o k with
        resp := .value (readReg (measure (wakeFor s slot) slot o) r (slot * 4096 + o)) } := by
  have hmsix : ¬0x3FF0000 ≤ slot * 4096 + o := by omega
  have hshape : ¬(4 ≠ 4 ∨ (slot * 4096 + o) % 4 ≠ 0) := by omega
  rw [readAccess, if_neg (pageOff_taken hslot hhigh hreach), if_neg hmsix, if_neg hshape, readPage,
    pageOff_div slot hhigh, pageOff_mod slot hhigh, if_pos ⟨hpage, hlow, hruns⟩]
  rfl

/-- A read of a block that is not gated wakes nothing. -/
theorem wakeFor_of_level {slot : Nat} (s : State) (hlevel : isDiePage slot = true → 1 < pgLevel (pgType slot)) :
    wakeFor s slot = s := by
  have hd : (isDiePage slot && pgLevel (pgType slot) ≤ 1) = false := by
    cases hdie : isDiePage slot
    · rfl
    · have := hlevel hdie
      simp only [Bool.true_and, decide_eq_false_iff_not]
      omega
  have hp : pagePower s slot = 0 ∨ pagePower s slot = 3 := by
    rw [pagePower, hd]
    split
    · exact .inl rfl
    · exact .inr rfl
  rw [wakeFor, if_neg (by omega)]

/-- A performed read of a stored register. -/
theorem readReg_stored {s : State} (r : Requester) {slot o : Nat} (hslot : slot < 0x3FF0) (hpage : pgType slot ≠ 0)
    (hruns : performs s slot = true) (hlow : 0x80 ≤ o) (hhigh : o < 4096) :
    readReg s r (slot * 4096 + o) = (specialRead s slot o).getD (storedRead s slot o) := by
  rw [readReg, pageOff_div slot hhigh, pageOff_mod slot hhigh, if_neg (by omega),
    if_neg hpage, if_neg (by omega), if_pos hruns]

/-! ### Registers that are one count -/

/-- A register whose word is one RAC count: neither computed nor measured, of a block that is never gated. -/
structure IsCount (slot : Nat) (f : Fld) : Prop where
  slot_lt  : slot < 0x3FF0
  page     : pgType slot ≠ 0
  awake    : isDiePage slot = true → 1 < pgLevel (pgType slot)
  low      : 0x80 ≤ f.off
  high     : f.off < 4096
  aligned  : f.off % 4 = 0
  word     : f = ⟨f.off, 0, 32, .rac, 0⟩
  alone    : (blockFields (pgType slot)).filter (fun g => g.off = f.off) = [f]
  stored   : ∀ s, specialRead s slot f.off = none
  unmeasured : ∀ s, measure s slot f.off = s

/-- REG_DROP is a count. -/
theorem isCount_regDrop : IsCount 0 regDrop where
  slot_lt := by decide
  page := by decide
  awake := by decide
  low := by decide
  high := by decide
  aligned := by decide
  word := rfl
  alone := by decide +kernel
  stored _ := rfl
  unmeasured _ := rfl

/-- The page of a memory gateway. -/
theorem pgType_mgSlot (d : Die) : pgType (mgSlot d) = 0x1E := by decide +revert

/-- What the register table says of the counts of a memory gateway. -/
theorem mgCounts_table :
    ∀ f ∈ [ceCount, ueCount, turnCount], 0x80 ≤ f.off ∧ f.off < 4096 ∧ f.off % 4 = 0 ∧
      f = ⟨f.off, 0, 32, .rac, 0⟩ ∧ (blockFields 0x1E).filter (fun g => g.off = f.off) = [f] := by
  decide +kernel

/-- The counts of a memory gateway are neither computed nor measured. -/
theorem mgCounts_plain (s : State) (d : Die) {f : Fld} (hf : f ∈ [ceCount, ueCount, turnCount]) :
    specialRead s (mgSlot d) f.off = none ∧ measure s (mgSlot d) f.off = s := by
  unfold specialRead measure
  rw [pgType_mgSlot]
  simp only [List.mem_cons, List.not_mem_nil, or_false] at hf
  obtain rfl | rfl | rfl := hf
  all_goals exact ⟨rfl, rfl⟩

/-- The counts of a memory gateway are counts. -/
theorem isCount_mgSlot (d : Die) {f : Fld} (hf : f ∈ [ceCount, ueCount, turnCount]) : IsCount (mgSlot d) f := by
  obtain ⟨hlow, hhigh, haligned, hword, halone⟩ := mgCounts_table f hf
  have hslot : mgSlot d < 0x3FF0 := by decide +revert
  have hpage : pgType (mgSlot d) ≠ 0 := by rw [pgType_mgSlot]; decide
  have hlevel : 1 < pgLevel (pgType (mgSlot d)) := by rw [pgType_mgSlot]; decide
  exact {
    slot_lt := hslot, page := hpage, awake := fun _ => hlevel, low := hlow, high := hhigh, aligned := haligned
    word := hword, alone := by rw [pgType_mgSlot]; exact halone
    stored := fun s => (mgCounts_plain s d hf).1, unmeasured := fun s => (mgCounts_plain s d hf).2 }

section
variable {slot : Nat} {f : Fld} (h : IsCount slot f)
include h

/-- Among the fields of its register, any choice that takes the count takes it alone. -/
theorem IsCount.filter_eq (p : Fld → Bool) (hp : p f = true) :
    (blockFields (pgType slot)).filter (fun g => g.off = f.off && p g) = [f] := by
  calc (blockFields (pgType slot)).filter (fun g => g.off = f.off && p g)
      = ((blockFields (pgType slot)).filter (fun g => g.off = f.off)).filter p := by
        simp only [List.filter_filter, Bool.and_comm]
    _ = [f] := by rw [h.alone, List.filter_cons_of_pos hp, List.filter_nil]

/-- The count is the one RAC field of its register. -/
theorem IsCount.racFields_eq : racFields slot f.off = [f] :=
  h.filter_eq (fun g => g.acc = .rac) (by rw [h.word]; rfl)

/-- A performed read answers the count. -/
theorem IsCount.readReg_eq {s : State} (r : Requester) (hruns : performs s slot = true) :
    readReg s r (slot * 4096 + f.off) = rg s slot f % 2 ^ 32 := by
  have hf : (blockFields (pgType slot)).filter (fun g => g.off = f.off && g.acc ≠ .wo) = [f] :=
    h.filter_eq (fun g => g.acc ≠ .wo) (by rw [h.word]; rfl)
  have hput : fput f (rg s slot f) = rg s slot f % 2 ^ 32 := by rw [fput, h.word, Nat.pow_zero, Nat.mul_one]
  rw [readReg_stored r h.slot_lt h.page hruns h.low h.high, h.stored, Option.getD_none, storedRead, hf,
    List.map_singleton, List.sum_singleton, hput]

/-- The effect of a read leaves the events that coincide with it. -/
theorem IsCount.afterRead_eq (s : State) {k : Nat} (hk : k < 2 ^ 32) : afterRead s slot f.off k = wg s slot f k := by
  have hmem : f ∈ racFields slot f.off := by rw [h.racFields_eq]; exact List.mem_singleton_self f
  have hcount : satAdd f.w f.reset (fget f k) = k := by
    rw [h.word]
    simp only [satAdd, fget, bits]
    omega
  rw [afterRead, wakeFor_of_level s h.awake, h.unmeasured, readEffect_of_rac s k hmem, h.racFields_eq]
  exact congrArg (wg s slot f) hcount

/-- A read of a count. -/
theorem IsCount.readAccess_eq {s : State} {r : Requester} {k : Nat} (hk : k < 2 ^ 32)
    (hruns : performs s slot = true) (hreach : reached s r = true) :
    readAccess s r (slot * 4096 + f.off) 4 k =
      { wg s slot f k with resp := .value (rg s slot f % 2 ^ 32) } := by
  rw [readAccess_of_performs k h.slot_lt h.page hruns hreach h.low h.high h.aligned, h.afterRead_eq s hk,
    wakeFor_of_level s h.awake, h.unmeasured, h.readReg_eq r hruns]

/-- A read of a count answers it and leaves the coincident events in it, and nothing else. -/
theorem IsCount.settles_read {s : State} {r : Requester} {k : Nat} (hk : k < 2 ^ 32) (hreach : reached s r = true)
    (hruns : performs s slot = true) :
    ∃ u, Settles (.racRead r ⟨.bar0, slot * 4096 + f.off, 4⟩ k) s u ∧
      u.resp = .value (rg s slot f % 2 ^ 32) ∧ rg u slot f = k ∧
      (∀ a g, fkey a g ≠ fkey slot f → rg u a g = rg s a g) ∧
      u = { s with regs := u.regs, resp := u.resp } := by
  refine ⟨{ wg s slot f k with resp := .value (rg s slot f % 2 ^ 32) }, ?_, rfl, ?_, fun a g hkey => ?_, rfl⟩
  · exact settles_racRead (h.readAccess_eq hk hruns hreach)
  · calc rg (wg s slot f k) slot f = k % 2 ^ f.w := rg_wg_same s slot f k
      _ = k := by rw [h.word]; exact Nat.mod_eq_of_lt hk
  · exact rg_wg_other s k hkey

end

/-! ### FT_LO -/

/-- A read of FT_LO answers the low word of fabric time and latches the high one (R251). -/
theorem readAccess_ftLo {s : State} {r : Requester} (hruns : performs s routerSlot = true)
    (hreach : reached s r = true) :
    readAccess s r (routerSlot * 4096 + 0xB0) 4 0 =
      { wg s routerSlot ftHi (s.ft.t / 2 ^ 32) with resp := .value (s.ft.t % 2 ^ 32) } := by
  have hwake : wakeFor s routerSlot = s := wakeFor_of_level s (by decide)
  have hmeasure : measure s routerSlot 0xB0 = s := rfl
  have hvalue : readReg s r (routerSlot * 4096 + 0xB0) = s.ft.t % 2 ^ 32 := by
    rw [readReg_stored r (by decide) (by decide) hruns (by decide) (by decide)]
    rfl
  rw [readAccess_of_performs 0 (by decide) (by decide) hruns hreach (by decide) (by decide) rfl, afterRead, hwake,
    hmeasure, readEffect_ftLo, hvalue]

/-- Settles O11: the RAC fields of any register by the effect of its read, the counts as registers of one such
field, FT_LO by the latch of FT_HI. -/
theorem readsWithEffects : Obligations.ReadsWithEffects := by
  refine ⟨?_, ?_, ?_⟩
  · intro r slot o k s hslot hpage hruns hreach hlow hhigh halign
    refine ⟨_, settles_racRead (readAccess_of_performs k hslot hpage hruns hreach hlow hhigh halign),
      fun f hf hoff hacc => ?_⟩
    have hrac : f ∈ racFields slot o := by
      simp only [racFields, List.mem_filter, Bool.and_eq_true, decide_eq_true_eq]
      exact ⟨hf, hoff, hacc⟩
    exact rg_readEffect_rac _ k hrac
  · intro r k d s hk hreach
    exact ⟨isCount_regDrop.settles_read hk hreach, (isCount_mgSlot d (by decide)).settles_read hk hreach,
      (isCount_mgSlot d (by decide)).settles_read hk hreach, (isCount_mgSlot d (by decide)).settles_read hk hreach⟩
  · intro r s hruns hreach
    exact settles_ftLoRead (readAccess_ftLo hruns hreach)

end Sys2Proof.Machine
end

section
/-!
PROOFS. What is asked of faults and resets: LOBE_MODE, RESET_REQ, INJECT, LOG_SEL and the quiet period.
-/

namespace Sys2Proof.Machine

/-! ### Writes of a register by a row of its own -/

/-- A write that reaches a block that takes accesses and is never gated. -/
theorem guardedWrite_of_performs {s : State} {r : Requester} {slot : Nat} (off : Nat) (f : State → State)
    (hawake : isDiePage slot = true → 1 < pgLevel (pgType slot)) (hruns : performs s slot = true)
    (hreach : reached s r = true) : guardedWrite s r slot off f = f s := by
  rw [guardedWrite, hreach, if_neg (by decide), if_pos hruns, wakeFor_of_level s hawake]

/-- A write of RESET_REQ stores LEVEL and TARGET. -/
theorem writeStored_resetReq (s : State) (val : Nat) :
    writeStored s solSlot 0x110 val =
      wg (wg s solSlot resetReqLevel (fget resetReqLevel val)) solSlot resetReqTarget (fget resetReqTarget val) := by
  have hfields : (blockFields (pgType solSlot)).filter (fun f => f.off = 0x110) =
      [resetReqGo, resetReqLevel, resetReqTarget] := by decide +kernel
  rw [writeStored, hfields]
  rfl

/-- A write of INJECT where factory test mode enables it stores SOURCE, JOB and SLOT. -/
theorem writeStored_inject {s : State} (val : Nat) (hmay : mayInject s = true) :
    writeStored s faSlot 0xBC val =
      wg (wg (wg s faSlot injectSource (fget injectSource val)) faSlot injectJob (fget injectJob val))
        faSlot injectSlot (fget injectSlot val) := by
  have hfields : (blockFields (pgType faSlot)).filter (fun f => f.off = 0xBC) =
      [injectGo, injectSource, injectJob, injectSlot] := by decide +kernel
  have hfield (t : State) (f : Fld) (ht : mayInject t = true) (hoff : f.off = 0xBC) (hacc : f.acc = .rw) :
      writeField t faSlot val f = wg t faSlot f (fget f val) := by
    have htakes : fieldTakes t faSlot f (fget f val) = true := by
      rw [fieldTakes, hoff]
      exact ht
    simp only [writeField, hacc, htakes, if_true]
  rw [writeStored, hfields]
  simp only [forEach, List.foldl_cons, List.foldl_nil]
  rw [show writeField s faSlot val injectGo = s from rfl, hfield s _ hmay rfl rfl,
    hfield (wg s _ _ _) _ hmay rfl rfl, hfield (wg (wg s _ _ _) _ _ _) _ hmay rfl rfl]

/-- A write of LOG_SEL stores INDEX. -/
theorem writeStored_logSel (s : State) (val : Nat) :
    writeStored s logSlot 0x84 val = wg s logSlot logSel (fget logSel val) := by
  have hfields : (blockFields (pgType logSlot)).filter (fun f => f.off = 0x84) = [logSel] := by decide +kernel
  rw [writeStored, hfields]
  rfl

/-! ### LOBE_MODE -/

/-- The fields of LOBE_MODE that take a write of MODE. -/
def storeLobeMode (s : State) (m : Nat) : State :=
  if rg s solSlot lobeModeCur = 2 then wg s solSlot lobeModeMode m
  else wg (wg s solSlot lobeModeMode m) solSlot lobeModeCur m

/-- MODE is stored, and a change of it is measured. -/
theorem setLobeMode_eq (s : State) (m : Nat) :
    setLobeMode s m =
      if m = rg s solSlot lobeModeMode then storeLobeMode s m else measureSettings (storeLobeMode s m) := by
  have hcur : rg (wg s solSlot lobeModeMode m) solSlot lobeModeCur = rg s solSlot lobeModeCur :=
    rg_wg_other s m (by decide)
  simp only [setLobeMode, storeLobeMode, hcur]

/-- A measurement of the settings leaves the other measurement registers alone. -/
theorem mget_mr_measureSettings (s : State) {k : Nat} (hk : k ≠ 5) :
    mget [] (measureSettings s).mr k = mget [] s.mr k := mget_mset_other _ _ _ hk

/-- The fields of LOBE_MODE are all that a write of MODE stores. -/
theorem storeLobeMode_regs (s : State) (m : Nat) :
    storeLobeMode s m = { s with regs := (storeLobeMode s m).regs } := by
  unfold storeLobeMode
  split
  · rfl
  · rfl

/-- MODE after a write of it. -/
theorem rg_storeLobeMode_mode (s : State) (m : Nat) : rg (storeLobeMode s m) solSlot lobeModeMode = m % 2 := by
  unfold storeLobeMode
  split
  · exact rg_wg_same s solSlot lobeModeMode m
  · rw [rg_wg_other _ m (by decide)]
    exact rg_wg_same s solSlot lobeModeMode m

/-- CUR after a write of MODE: a Degraded package stays so (R23). -/
theorem rg_storeLobeMode_cur (s : State) (m : Nat) :
    rg (storeLobeMode s m) solSlot lobeModeCur = if rg s solSlot lobeModeCur = 2 then 2 else m % 4 := by
  unfold storeLobeMode
  split
  · next hdegraded => rw [rg_wg_other _ m (by decide), hdegraded]
  · exact rg_wg_same _ solSlot lobeModeCur m

/-- A field after a write of MODE, measured or not. -/
theorem rg_setLobeMode (s : State) (m slot : Nat) (f : Fld) :
    rg (setLobeMode s m) slot f = rg (storeLobeMode s m) slot f := by
  rw [setLobeMode_eq]
  split
  · rfl
  · rfl

/-- A write of MODE moves register fields and measurement registers alone. -/
theorem setLobeMode_frame (s : State) (m : Nat) :
    setLobeMode s m = { s with regs := (setLobeMode s m).regs, mr := (setLobeMode s m).mr } := by
  rw [setLobeMode_eq, storeLobeMode_regs]
  split
  · rfl
  · rfl

/-- The measurement registers beside MR5 after a write of MODE. -/
theorem mget_mr_setLobeMode (s : State) (m : Nat) {k : Nat} (hk : k ≠ 5) :
    mget [] (setLobeMode s m).mr k = mget [] s.mr k := by
  have hmr : (storeLobeMode s m).mr = s.mr := by rw [storeLobeMode_regs]
  rw [setLobeMode_eq]
  split
  · rw [hmr]
  · rw [mget_mr_measureSettings _ hk, hmr]

/-- A write of MODE that leaves it as it is measures nothing. -/
theorem mr_setLobeMode_of_eq {s : State} {m : Nat} (hm : m = rg s solSlot lobeModeMode) :
    (setLobeMode s m).mr = s.mr := by
  rw [setLobeMode_eq, if_pos hm, storeLobeMode_regs]

/-- A performed write of LOBE_MODE. -/
theorem ends_lobeModeWrite {s : State} {r : Requester} (val : BitVec 32) (hruns : performs s solSlot = true)
    (hreach : reached s r = true) :
    Ends (.lobeModeWrite r val) s
      (if activeJobs s = [] then setLobeMode s (fget lobeModeMode val.toNat) else incr s solSlot lobeModeRejected) := by
  refine congrArg Host.Outcome.next ?_
  rw [writeLobeMode, guardedWrite_of_performs _ _ (by decide) hruns hreach]
  simp only [List.isEmpty_iff]

/-- MODE of a written value. -/
theorem fget_lobeModeMode (v : Nat) : fget lobeModeMode v = v % 2 := congrArg (· % 2) (Nat.div_one v)

/-- A write of LOBE_MODE without an active job. -/
theorem lobeModeWrite_of_no_job {s : State} {r : Requester} (val : BitVec 32) (hruns : performs s solSlot = true)
    (hreach : reached s r = true) (hjobs : activeJobs s = []) :
    ∃ u, Ends (.lobeModeWrite r val) s u ∧ rg u solSlot lobeModeMode = val.toNat % 2 ∧
      rg u solSlot lobeModeCur = (if rg s solSlot lobeModeCur = 2 then 2 else val.toNat % 2) ∧
      (val.toNat % 2 = rg s solSlot lobeModeMode → u.mr = s.mr) ∧
      (∀ k, k ≠ 5 → mget [] u.mr k = mget [] s.mr k) ∧ u = { s with regs := u.regs, mr := u.mr } := by
  have hend := ends_lobeModeWrite val hruns hreach
  rw [if_pos hjobs, fget_lobeModeMode] at hend
  have hmod4 : val.toNat % 2 % 4 = val.toNat % 2 := by omega
  refine ⟨_, hend, ?_, ?_, mr_setLobeMode_of_eq, fun k hk => mget_mr_setLobeMode s _ hk, setLobeMode_frame s _⟩
  · rw [rg_setLobeMode, rg_storeLobeMode_mode, Nat.mod_mod]
  · rw [rg_setLobeMode, rg_storeLobeMode_cur, hmod4]

/-! ### RESET_REQ -/

/-- LEVEL of a written value. -/
theorem fget_resetReqLevel (v : Nat) : fget resetReqLevel v = v / 16 % 8 := rfl

/-- TARGET of a written value. -/
theorem fget_resetReqTarget (v : Nat) : fget resetReqTarget v = v % 4 := congrArg (· % 4) (Nat.div_one v)

/-- A write of RESET_REQ leaves HELD alone. -/
theorem rg_writeStored_resetReq_held (s : State) (val : Nat) :
    rg (writeStored s solSlot 0x110 val) solSlot resetStatusHeld = rg s solSlot resetStatusHeld := by
  rw [writeStored_resetReq, rg_wg_other _ _ (by decide), rg_wg_other _ _ (by decide)]

/-- The scope that a request asks for: of a held package always the full one, else what its LEVEL and TARGET name. -/
def askedScope (s : State) (val : Nat) : Option Scope :=
  if rg s solSlot resetStatusHeld = 1 then some .full else requestScope (val / 16 % 8) (val % 4)

/-- A performed write of RESET_REQ with GO: outside levels 2 to 5 nothing, else the request is stored and its
scope, where it names one, is demanded. -/
theorem settles_resetReq {s : State} {r : Requester} (val : BitVec 32) (hruns : performs s solSlot = true)
    (hreach : reached s r = true) :
    Settles (.resetReq r val) s
      (if val.toNat / 16 % 8 < 2 ∨ 5 < val.toNat / 16 % 8 then s
       else (askedScope s val.toNat).elim (writeStored s solSlot 0x110 val.toNat)
         (requestReset (writeStored s solSlot 0x110 val.toNat))) := by
  refine congrArg (fun t => Host.Outcome.next (settle t)) ?_
  rw [writeResetReq, guardedWrite_of_performs _ _ (by decide) hruns hreach, fget_resetReqLevel, fget_resetReqTarget,
    askedScope]
  simp only [Bool.not_true, Bool.false_eq_true, if_false, rgB, rg_writeStored_resetReq_held, decide_eq_true_eq]
  split
  · rfl
  · split
    · rfl
    · split
      · next hscope => rw [hscope]; rfl
      · next hscope => rw [hscope]; rfl

/-- A request that names a scope: it ends a hold and demands the scope, logged as HANG of the hang engine's page. -/
theorem resetReq_of_asked {s : State} {r : Requester} {val : BitVec 32} {sc : Scope}
    (hruns : performs s solSlot = true) (hreach : reached s r = true)
    (hlevel : 2 ≤ val.toNat / 16 % 8 ∧ val.toNat / 16 % 8 ≤ 5) (hasked : askedScope s val.toNat = some sc) :
    ∃ w, rg w solSlot resetStatusHeld = 0 ∧ w = { s with regs := w.regs } ∧
      Settles (.resetReq r val) s
        (demandWith w sc none none
          (fun _ => { slot := 0xF, src := 0xF, detail := scopeLevel sc, forced := true })) := by
  have hset := settles_resetReq val hruns hreach
  rw [if_neg (by omega), hasked, Option.elim_some, requestReset, hangEvent] at hset
  refine ⟨wg (writeStored s solSlot 0x110 val.toNat) solSlot resetStatusHeld 0, rg_wg_same _ _ _ _, ?_, hset⟩
  rw [writeStored_resetReq]
  rfl

/-- Outside levels 2 to 5 nothing follows. -/
theorem resetReq_of_level_outside {s : State} {r : Requester} {val : BitVec 32} (hruns : performs s solSlot = true)
    (hreach : reached s r = true) (hlevel : val.toNat / 16 % 8 < 2 ∨ 5 < val.toNat / 16 % 8) :
    Settles (.resetReq r val) s s := by
  have hset := settles_resetReq val hruns hreach
  rwa [if_pos hlevel] at hset

/-- A lobe reset of a target that is no lobe is stored alone. -/
theorem resetReq_of_no_lobe {s : State} {r : Requester} {val : BitVec 32} (hruns : performs s solSlot = true)
    (hreach : reached s r = true) (hheld : rg s solSlot resetStatusHeld ≠ 1) (hlevel : val.toNat / 16 % 8 = 3)
    (htarget : 2 ≤ val.toNat % 4) : ∃ w, Settles (.resetReq r val) s w ∧ w = { s with regs := w.regs } := by
  have hasked : askedScope s val.toNat = none := by
    rw [askedScope, if_neg hheld, hlevel]
    exact if_neg (by omega)
  have hset := settles_resetReq val hruns hreach
  rw [if_neg (by omega), hasked] at hset
  refine ⟨_, hset, ?_⟩
  rw [Option.elim_none, writeStored_resetReq]
  rfl

/-- The scopes that a request asks for, and the levels that ask for them. -/
theorem askedScope_of_request {s : State} {v : Nat} {sc : Scope}
    (h : rg s solSlot resetStatusHeld = 1 ∧ 2 ≤ v / 16 % 8 ∧ v / 16 % 8 ≤ 5 ∧ sc = .full ∨
      rg s solSlot resetStatusHeld ≠ 1 ∧ (v / 16 % 8 = 2 ∧ sc = .die (dieN (v % 4)) ∨
        v / 16 % 8 = 3 ∧ v % 4 < 2 ∧ sc = .lobe (halfN (v % 4)) ∨
        v / 16 % 8 = 4 ∧ sc = .package ∨ v / 16 % 8 = 5 ∧ sc = .full)) :
    (2 ≤ v / 16 % 8 ∧ v / 16 % 8 ≤ 5) ∧ askedScope s v = some sc := by
  unfold askedScope
  obtain ⟨hheld, hlow, hhigh, rfl⟩ | ⟨hheld, hnamed⟩ := h
  · exact ⟨⟨hlow, hhigh⟩, if_pos hheld⟩
  · rw [if_neg hheld]
    obtain ⟨hlevel, rfl⟩ | ⟨hlevel, hlobe, rfl⟩ | ⟨hlevel, rfl⟩ | ⟨hlevel, rfl⟩ := hnamed
    · exact ⟨by omega, by rw [hlevel]; rfl⟩
    · exact ⟨by omega, by rw [hlevel]; exact if_pos hlobe⟩
    · exact ⟨by omega, by rw [hlevel]; rfl⟩
    · exact ⟨by omega, by rw [hlevel]; rfl⟩

/-! ### INJECT -/

/-- The event that a write of INJECT asks for. -/
theorem injectEvent_writeStored {s : State} (val : Nat) (hmay : mayInject s = true) :
    injectEvent (writeStored s faSlot 0xBC val) =
      { slot := val % 2 ^ 14, src := val / 2 ^ 26 % 16, job := val / 2 ^ 14 % 2 ^ 12, injected := true } := by
  have hslot : fget injectSlot val % 2 ^ 14 = val % 2 ^ 14 := by
    simp only [fget, bits, injectSlot]
    omega
  have hsrc : fget injectSource val % 2 ^ 4 = val / 2 ^ 26 % 16 := Nat.mod_mod _ _
  have hjob : fget injectJob val % 2 ^ 12 = val / 2 ^ 14 % 2 ^ 12 := Nat.mod_mod _ _
  rw [writeStored_inject val hmay, injectEvent, rg_wg_same, rg_wg_other (f := injectSource) _ _ (by decide),
    rg_wg_other (f := injectSource) _ _ (by decide), rg_wg_same, rg_wg_other (f := injectJob) _ _ (by decide),
    rg_wg_same]
  simp only [Event.mk.injEq, and_true]
  exact ⟨hslot, hsrc, hjob⟩

/-- A performed write of INJECT where nothing enables it. -/
theorem faultInject_of_not_mayInject {s : State} {r : Requester} (val : BitVec 32) (hruns : performs s faSlot = true)
    (hreach : reached s r = true) (hmay : mayInject s = false) : Settles (.faultInject r val) s s := by
  refine congrArg (fun t => Host.Outcome.next (settle t)) ?_
  rw [writeInject, guardedWrite_of_performs _ _ (by decide) hruns hreach, hmay]
  rfl

/-- A performed write of INJECT where factory test mode enables it: the event is raised where its page has the source. -/
theorem faultInject_of_mayInject {s : State} {r : Requester} (val : BitVec 32) (hruns : performs s faSlot = true)
    (hreach : reached s r = true) (hmay : mayInject s = true) :
    ∃ u, Settles (.faultInject r val) s u ∧ u = { s with regs := u.regs, due := u.due } ∧
      u.due = if pgType (val.toNat % 2 ^ 14) ≠ 0 ∧
          hasSource (pgType (val.toNat % 2 ^ 14)) (val.toNat / 2 ^ 26 % 16) = true then
        s.due ++ [{ slot := val.toNat % 2 ^ 14, src := val.toNat / 2 ^ 26 % 16
                    job := val.toNat / 2 ^ 14 % 2 ^ 12, injected := true }]
        else s.due := by
  refine ⟨writeInject s r val.toNat true, rfl, ?_⟩
  rw [writeInject, guardedWrite_of_performs _ _ (by decide) hruns hreach]
  simp only [hmay, Bool.not_true, Bool.false_eq_true, if_false, injectEvent_writeStored _ hmay, Bool.true_and,
    Bool.and_eq_true, decide_eq_true_eq]
  rw [writeStored_inject _ hmay]
  split
  · exact ⟨rfl, rfl⟩
  · exact ⟨rfl, rfl⟩

/-! ### LOG_SEL -/

/-- A performed write of LOG_SEL captures the entry in its slot of the log. -/
theorem logCapture_captures {s : State} {r : Requester} (val : BitVec 32) (hruns : performs s logSlot = true)
    (hreach : reached s r = true) :
    ∃ u, Ends (.logCapture r val) s u ∧ rg u logSlot logSel = val.toNat ∧
      u.logCap = mget {} s.log (val.toNat % 4096) ∧ u = { s with regs := u.regs, logCap := u.logCap } := by
  have hindex : fget logSel val.toNat % 2 ^ 32 = val.toNat := by
    have := val.isLt
    simp only [fget, bits, logSel]
    omega
  refine ⟨writeLogSel s r val.toNat, rfl, ?_⟩
  rw [writeLogSel, guardedWrite_of_performs _ _ (by decide) hruns hreach, writeStored_logSel]
  exact ⟨(rg_wg_same s logSlot logSel _).trans hindex, rfl, rfl⟩

/-! ### The quiet period -/

/-- The entries of a map with rising keys are ordered by them. -/
theorem pairwise_keys_of_keysUp {α : Type} {m : Map α} (h : keysUp m = true) :
    m.Pairwise (fun x y => x.1 < y.1) := by
  induction m with
  | nil => exact .nil
  | cons e m ih =>
    simp only [keysUp, Bool.and_eq_true, List.all_eq_true, decide_eq_true_eq] at h
    obtain ⟨habove, htail⟩ := h
    exact .cons habove (ih htail)

/-- The pages with sticky bits are listed in the order of their slots. -/
theorem pairwise_stickyPages {s : State} (h : keysUp s.regs = true) :
    (stickyPages s).Pairwise (fun x y => x.1 < y.1) := by
  refine (pairwise_keys_of_keysUp h).filterMap _ fun x y hxy x' hx y' hy => ?_
  simp only [Option.ite_none_right_eq_some, Option.some.injEq] at hx hy
  obtain ⟨hxmod, rfl⟩ := hx
  obtain ⟨hymod, rfl⟩ := hy
  dsimp only
  omega

/-- The quiet period clears each page once. -/
theorem pairwise_quietBits {s : State} (h : keysUp s.regs = true) :
    (quietBits s).Pairwise (fun x y => x.1 ≠ y.1) := by
  have hslots : (stickyPages s).Pairwise (fun x y => x.1 ≠ y.1) :=
    (pairwise_stickyPages h).imp fun hxy => Nat.ne_of_lt hxy
  unfold quietBits
  refine List.Pairwise.filter _ ?_
  rw [List.pairwise_map]
  exact hslots

/-- The quiet period on one page: its bits `x.2` clear. -/
def clearSticky (s : State) (x : Nat × Nat) : State :=
  wg s x.1 hdrSticky (rg s x.1 hdrSticky - (rg s x.1 hdrSticky &&& x.2))

/-- A quiet period with bits to clear clears them page by page and counts itself. -/
theorem quietClear_of_bits {s : State} (hen : rg s faSlot faCtlQuietEn = 1) (hbits : quietBits s ≠ []) :
    quietClear s = incr (forEach (quietBits s) s clearSticky) faSlot recoveryCount := by
  have hgo : ¬((!rgB s faSlot faCtlQuietEn) = true ∨ (quietBits s).isEmpty = true) := by
    simp [rgB, hen, hbits]
  rw [quietClear, if_neg hgo]
  rfl

/-- A quiet period that is not enabled, or has nothing to clear, does nothing. -/
theorem quietClear_eq_self {s : State} (h : rg s faSlot faCtlQuietEn ≠ 1 ∨ quietBits s = []) :
    quietClear s = s := by
  have hstay : (!rgB s faSlot faCtlQuietEn) = true ∨ (quietBits s).isEmpty = true := by
    simpa [rgB] using h
  rw [quietClear, if_pos hstay]

/-- FAULT_STICKY of two pages stands at two places. -/
theorem fkey_hdrSticky_ne {a b : Nat} (h : a ≠ b) : fkey a hdrSticky ≠ fkey b hdrSticky := by
  simp only [fkey]
  omega

/-- RECOVERY_COUNT is no page's FAULT_STICKY. -/
theorem fkey_hdrSticky_ne_recoveryCount (slot : Nat) : fkey slot hdrSticky ≠ fkey faSlot recoveryCount := by
  simp only [fkey, hdrSticky, recoveryCount, faSlot]
  omega

/-- Clearing one page leaves the sticky bits of the others alone. -/
theorem rg_clearSticky_other (s : State) {x : Nat × Nat} {slot : Nat} (h : slot ≠ x.1) :
    rg (clearSticky s x) slot hdrSticky = rg s slot hdrSticky := rg_wg_other s _ (fkey_hdrSticky_ne h)

/-- Each page's bits clear, whichever pages are cleared before and after it. -/
theorem rg_forEach_clearSticky {xs : List (Nat × Nat)} (s : State) (hxs : xs.Pairwise (fun x y => x.1 ≠ y.1))
    {slot m : Nat} (hmem : (slot, m) ∈ xs) :
    rg (forEach xs s clearSticky) slot hdrSticky =
      (rg s slot hdrSticky - (rg s slot hdrSticky &&& m)) % 2 ^ 16 := by
  induction xs generalizing s with
  | nil => cases hmem
  | cons x xs ih =>
    obtain ⟨hhead, htail⟩ := List.pairwise_cons.mp hxs
    change rg (forEach xs (clearSticky s x) clearSticky) slot hdrSticky = _
    obtain rfl | hlater := List.mem_cons.mp hmem
    · rw [rg_forEach_frame xs _ clearSticky slot hdrSticky fun t y hy => rg_clearSticky_other t (hhead y hy)]
      exact rg_wg_same s slot hdrSticky _
    · rw [ih _ htail hlater, rg_clearSticky_other s (hhead _ hlater).symm]

/-- The quiet period clears the bits that its list gives for each page, counts itself, and moves nothing else. -/
theorem quietPeriod_clears {s : State} (hen : rg s faSlot faCtlQuietEn = 1) (hbits : quietBits s ≠ [])
    (hinv : Inv s) :
    ∃ u, Ends .quietPeriodExpiry s u ∧
      (∀ slot m, (slot, m) ∈ quietBits s →
        rg u slot hdrSticky = (rg s slot hdrSticky - (rg s slot hdrSticky &&& m)) % 2 ^ 16) ∧
      rg u faSlot recoveryCount = min (rg s faSlot recoveryCount + 1) (2 ^ 32 - 1) ∧
      u = { s with regs := u.regs } := by
  obtain ⟨-, hkeys⟩ := hinv
  have hend : Ends .quietPeriodExpiry s (incr (forEach (quietBits s) s clearSticky) faSlot recoveryCount) :=
    congrArg Host.Outcome.next (quietClear_of_bits hen hbits)
  refine ⟨_, hend, fun slot m hmem => ?_, ?_, ?_⟩
  · rw [incr, rg_wg_other _ _ (fkey_hdrSticky_ne_recoveryCount slot)]
    exact rg_forEach_clearSticky s (pairwise_quietBits hkeys) hmem
  · have hcount : rg (forEach (quietBits s) s clearSticky) faSlot recoveryCount = rg s faSlot recoveryCount :=
      rg_forEach_frame _ _ _ _ _ fun t x _ => rg_wg_other t _ (fkey_hdrSticky_ne_recoveryCount x.1).symm
    rw [incr, rg_wg_same, satAdd_mod, hcount]
    rfl
  · rw [forEach_regs _ s clearSticky fun _ _ => rfl]
    rfl

/-- Settles O50, instruction by instruction: what the write of each register stores, and for the quiet period that
the sticky pages stand in the order of their slots, so that each is cleared once. -/
theorem faultsAndResetsAsked : Obligations.FaultsAndResetsAsked := by
  intro r val s
  refine ⟨fun hruns hreach => ⟨fun hjobs => ?_, lobeModeWrite_of_no_job val hruns hreach,
      resetReq_of_level_outside hruns hreach, fun sc hsc => ?_, resetReq_of_no_lobe hruns hreach⟩,
    fun hruns hreach => ⟨faultInject_of_not_mayInject val hruns hreach, faultInject_of_mayInject val hruns hreach⟩,
    logCapture_captures val, fun hstay => congrArg Host.Outcome.next (quietClear_eq_self hstay), quietPeriod_clears⟩
  · have hend := ends_lobeModeWrite val hruns hreach
    rwa [if_neg hjobs] at hend
  · obtain ⟨hlevel, hasked⟩ := askedScope_of_request hsc
    exact resetReq_of_asked hruns hreach hlevel hasked

end Sys2Proof.Machine
end

section
/-!
PROOFS. The floating-point formats: a value that a format holds meets no rounding and no overflow, so its conversion
keeps it.
-/

namespace Sys2Proof.Machine

/-! ### Exact values are not rounded -/

/-- The random word of a stochastic rounding is a 24-bit one (R44). -/
def Rmode.InRange (rm : Rmode) : Prop := ∀ r, rm = .stoch r → r < 2 ^ 24

/-- A value that is a multiple of the unit is that multiple, with nothing left. -/
theorem quant_same_unit (m : Nat) (e : Int) : quant m e e = (m, 0, 1) := by simp [quant]

/-- No mode rounds where nothing is left. -/
theorem roundsUp_exact {rm : Rmode} (hrm : rm.InRange) (n : Nat) : roundsUp rm n 0 1 = false := by
  cases rm with
  | nearest => rfl
  | zero => rfl
  | stoch r => simpa [roundsUp] using hrm r rfl

/-- A comparison where the first value has the finer unit. -/
theorem magGe_of_finer (m : Nat) (e : Int) (n k : Nat) (strict : Bool) :
    magGe m e n (e + k) strict = if strict then decide (n * 2 ^ k < m) else decide (n * 2 ^ k ≤ m) := by
  have hlow : min e (e + k) = e := by omega
  have hsteps : (e + k - e).toNat = k := by omega
  simp only [magGe, hlow, hsteps, Int.sub_self, Int.toNat_zero, Nat.pow_zero, Nat.mul_one, gt_iff_lt, ge_iff_le]

/-- A comparison of a value with one whose unit is half its own. -/
theorem magGe_half_unit (m n : Nat) (e : Int) : magGe m e n (e - 1) false = decide (n ≤ m * 2) := by
  have hlow : min e (e - 1) = e - 1 := by omega
  have hsteps : (e - (e - 1)).toNat = 1 := by omega
  simp only [magGe, hlow, hsteps, Int.sub_self, Int.toNat_zero, Nat.pow_zero, Nat.pow_one, Nat.mul_one, ge_iff_le,
    Bool.false_eq_true, if_false]

/-- Over a common unit every mode overflows just above the largest value. -/
theorem overflows_same_unit (rm : Rmode) (m n : Nat) (e : Int) : overflows rm m e n e = decide (n < m) := by
  cases rm with
  | nearest =>
    rw [overflows, magGe_half_unit]
    exact decide_eq_decide.mpr (by omega)
  | zero => simpa [overflows, Nat.succ_le_iff] using magGe_of_finer m e (n + 1) 0 false
  | stoch r => simpa [overflows] using magGe_of_finer m e n 0 true

/-- No mode overflows at or below the largest value. -/
theorem overflows_of_le (rm : Rmode) {m n k : Nat} (e : Int) (h : m ≤ n * 2 ^ k) :
    overflows rm m e n (e + k) = false := by
  have hunit : 1 ≤ 2 ^ k := Nat.one_le_two_pow
  cases rm with
  | nearest =>
    cases k with
    | zero =>
      rw [overflows, Int.natCast_zero, Int.add_zero, magGe_half_unit]
      exact decide_eq_false (by omega)
    | succ k =>
      have hhalf : e + ((k + 1 : Nat) : Int) - 1 = e + k := by omega
      have hpos : 1 ≤ 2 ^ k := Nat.one_le_two_pow
      have hodd : (2 * n + 1) * 2 ^ k = n * 2 ^ (k + 1) + 2 ^ k := by
        rw [Nat.succ_mul, Nat.pow_succ, Nat.mul_comm 2 n, Nat.mul_assoc, Nat.mul_comm (2 ^ k)]
      rw [overflows, hhalf, magGe_of_finer]
      exact decide_eq_false (by omega)
  | zero =>
    have hnext : (n + 1) * 2 ^ k = n * 2 ^ k + 2 ^ k := Nat.succ_mul n (2 ^ k)
    rw [overflows, magGe_of_finer]
    exact decide_eq_false (by omega)
  | stoch r =>
    rw [overflows, magGe_of_finer]
    exact decide_eq_false (by omega)

/-! ### The patterns of a floating-point format -/

/-- The exponent field of a pattern. -/
def Flo.expo (f : Flo) (p : Nat) : Nat := bits p f.mb f.eb

/-- The mantissa field of a pattern. -/
def Flo.frac (f : Flo) (p : Nat) : Nat := bits p 0 f.mb

/-- A pattern without its sign. -/
def Flo.magnitude (f : Flo) (p : Nat) : Nat := p % 2 ^ (f.eb + f.mb)

/-- The significand of a finite pattern, with the leading one of a normal. -/
def Flo.sig (f : Flo) (p : Nat) : Nat := if f.expo p = 0 then f.frac p else 2 ^ f.mb + f.frac p

/-- How many doublings the unit of a finite pattern stands above that of the subnormals. -/
def Flo.step (f : Flo) (p : Nat) : Nat := f.expo p - 1

/-- The exponent of the unit of the subnormals. -/
def Flo.qmin (f : Flo) : Int := 1 - (f.bias : Int) - f.mb

/-- A sign put on a pattern without one. -/
def Flo.signed (f : Flo) (neg : Bool) (a : Nat) : Nat := if neg then a + 2 ^ (f.eb + f.mb) else a

/-- The pattern of an infinity without its sign. -/
def Flo.infPat (f : Flo) : Nat := (2 ^ f.eb - 1) * 2 ^ f.mb

/-- The magnitude of a pattern holds its exponent and its mantissa. -/
theorem Flo.magnitude_eq (f : Flo) (p : Nat) : f.magnitude p = f.frac p + f.expo p * 2 ^ f.mb := by
  rw [Flo.magnitude, Flo.frac, Flo.expo, bits, bits, Nat.add_comm f.eb, Nat.pow_add, Nat.mod_mul, Nat.pow_zero,
    Nat.div_one, Nat.mul_comm (2 ^ f.mb)]

/-- A pattern is its magnitude with its sign. -/
theorem Flo.signed_magnitude {f : Flo} {p : Nat} (h : p < 2 ^ f.width) :
    f.signed (p.testBit (f.eb + f.mb)) (f.magnitude p) = p := by
  have htop : p < 2 ^ (f.eb + f.mb) * 2 := by
    rwa [Flo.width, Nat.add_assoc, Nat.add_comm, Nat.pow_succ] at h
  have hsplit := Nat.mod_add_div p (2 ^ (f.eb + f.mb))
  have hquot : p / 2 ^ (f.eb + f.mb) < 2 := Nat.div_lt_of_lt_mul htop
  rw [Flo.signed, Flo.magnitude, Nat.testBit_eq_decide_div_mod_eq, Nat.mod_eq_of_lt hquot]
  obtain hzero | hone := Nat.le_one_iff_eq_zero_or_eq_one.mp (Nat.le_of_lt_succ hquot)
  · rw [hzero] at hsplit ⊢
    simpa using hsplit
  · rw [hone] at hsplit ⊢
    simpa using hsplit

/-- The value of a pattern by its fields. -/
theorem floDecode_fields (f : Flo) (p : Nat) : floDecode f p =
    if f.ieee && f.expo p == 2 ^ f.eb - 1 then
      (if f.frac p = 0 then .inf (p.testBit (f.eb + f.mb)) else .nan)
    else if f.nanOnes && f.expo p == 2 ^ f.eb - 1 && f.frac p == 2 ^ f.mb - 1 then .nan
    else if f.expo p = 0 then .fin (p.testBit (f.eb + f.mb)) (f.frac p) f.qmin
    else .fin (p.testBit (f.eb + f.mb)) (2 ^ f.mb + f.frac p) ((f.expo p : Int) - f.bias - f.mb) := rfl

/-- What a pattern can decode to (R28). -/
theorem floDecode_cases (f : Flo) (p : Nat) :
    floDecode f p = .nan ∨
    (f.ieee = true ∧ f.expo p = 2 ^ f.eb - 1 ∧ f.frac p = 0 ∧ floDecode f p = .inf (p.testBit (f.eb + f.mb))) ∨
    ((f.ieee = true → f.expo p ≠ 2 ^ f.eb - 1) ∧
      (f.nanOnes = true → ¬(f.expo p = 2 ^ f.eb - 1 ∧ f.frac p = 2 ^ f.mb - 1)) ∧
      floDecode f p = .fin (p.testBit (f.eb + f.mb)) (f.sig p) (f.qmin + f.step p)) := by
  have hdec := floDecode_fields f p
  simp only [Bool.and_eq_true, beq_iff_eq] at hdec
  by_cases hspecial : f.ieee = true ∧ f.expo p = 2 ^ f.eb - 1
  · rw [if_pos hspecial] at hdec
    obtain ⟨hieee, hexpo⟩ := hspecial
    by_cases hfrac : f.frac p = 0
    · exact .inr (.inl ⟨hieee, hexpo, hfrac, by rw [hdec, if_pos hfrac]⟩)
    · exact .inl (by rw [hdec, if_neg hfrac])
  rw [if_neg hspecial] at hdec
  by_cases hones : (f.nanOnes = true ∧ f.expo p = 2 ^ f.eb - 1) ∧ f.frac p = 2 ^ f.mb - 1
  · exact .inl (by rw [hdec, if_pos hones])
  rw [if_neg hones] at hdec
  refine .inr (.inr ⟨fun hieee hexpo => hspecial ⟨hieee, hexpo⟩,
    fun hnan ⟨hexpo, hfrac⟩ => hones ⟨⟨hnan, hexpo⟩, hfrac⟩, ?_⟩)
  rw [hdec, Flo.sig, Flo.step]
  split
  · next hexpo => rw [hexpo]; simp
  · next hexpo =>
    have hunit : (f.expo p : Int) - f.bias - f.mb = f.qmin + (f.expo p - 1 : Nat) := by
      rw [Flo.qmin]; omega
    rw [hunit]

/-! ### Significands in normal form -/

/-- A significand and its unit in the form that a pattern holds: no wider than the mantissa with its leading one,
which only the unit of the subnormals may lack. -/
structure Flo.Normal (f : Flo) (m k : Nat) : Prop where
  narrow : m < 2 * 2 ^ f.mb
  full   : k = 0 ∨ 2 ^ f.mb ≤ m

/-- A finite pattern holds its significand in normal form. -/
theorem Flo.normal_sig (f : Flo) (p : Nat) : f.Normal (f.sig p) (f.step p) := by
  have hfrac : f.frac p < 2 ^ f.mb := Nat.mod_lt _ (Nat.two_pow_pos _)
  rw [Flo.sig, Flo.step]
  split
  · next hexpo => exact ⟨by omega, .inl (by omega)⟩
  · exact ⟨by omega, .inr (by omega)⟩

/-- The significand and the unit of a pattern make up its magnitude. -/
theorem Flo.sig_add_step (f : Flo) (p : Nat) : f.sig p + f.step p * 2 ^ f.mb = f.magnitude p := by
  rw [Flo.magnitude_eq, Flo.sig, Flo.step]
  split
  · next hexpo => simp [hexpo]
  · next hexpo =>
    obtain ⟨x, hx⟩ := Nat.exists_eq_succ_of_ne_zero hexpo
    rw [hx, Nat.succ_sub_one, Nat.succ_mul]
    omega

/-- Among normal forms the patterns stand in the order of the values. -/
theorem Flo.Normal.le_of_pattern_le {f : Flo} {m k n j : Nat} (hm : f.Normal m k) (hn : f.Normal n j)
    (h : m + k * 2 ^ f.mb ≤ n + j * 2 ^ f.mb) : ∃ i, j = k + i ∧ m ≤ n * 2 ^ i := by
  obtain ⟨hmlt, hmfull⟩ := hm
  obtain ⟨hnlt, hnfull⟩ := hn
  obtain hlt | heq | hgt := Nat.lt_trichotomy j k
  · obtain ⟨i, rfl⟩ := Nat.exists_eq_add_of_lt hlt
    have hexpand : (j + i + 1) * 2 ^ f.mb = j * 2 ^ f.mb + i * 2 ^ f.mb + 2 ^ f.mb := by
      rw [Nat.succ_mul, Nat.add_mul]
    omega
  · exact ⟨0, by omega, by rw [heq] at h; omega⟩
  · obtain ⟨i, rfl⟩ := Nat.exists_eq_add_of_lt hgt
    have hdouble : n * 2 ≤ n * 2 ^ (i + 1) := Nat.mul_le_mul_left n (Nat.le_pow (Nat.succ_pos i))
    exact ⟨i + 1, by omega, by omega⟩

/-- The unit that the conversion chooses for a normal form is its own. -/
theorem Flo.Normal.unit {f : Flo} {m k : Nat} (h : f.Normal m k) (hm : m ≠ 0) :
    max ((Nat.log2 m : Int) + (f.qmin + k) - f.mb) f.qmin = f.qmin + k := by
  obtain ⟨hnarrow, hfull⟩ := h
  have hhigh : m.log2 < f.mb + 1 := (Nat.log2_lt hm).mpr (by rw [Nat.pow_succ]; omega)
  obtain rfl | hfull := hfull
  · omega
  · have hlow : f.mb ≤ m.log2 := (Nat.le_log2 hm).mpr hfull
    omega

/-! ### The largest value of a format -/

/-- The largest finite magnitude that the special values of a format leave (R28). -/
def Flo.largest (f : Flo) : Nat :=
  if f.ieee then f.infPat - 1 else if f.nanOnes then 2 ^ (f.eb + f.mb) - 2 else 2 ^ (f.eb + f.mb) - 1

/-- The format's largest pattern is the largest finite magnitude, and is a finite value. -/
structure Flo.Sound (f : Flo) : Prop where
  maxPat : f.maxPat = f.largest
  range  : f.maxPat < 2 ^ (f.eb + f.mb)
  number : floDecode f f.maxPat ≠ .nan
  finite : ∀ neg, floDecode f f.maxPat ≠ .inf neg

/-- The eight element formats name their largest values. -/
theorem sound_of_mem {f : Flo} (hf : f ∈ [floF32, floBF16, floF16, floF8A, floF8B, floF6A, floF6B, floF4]) :
    f.Sound := by
  have hall : ∀ f ∈ [floF32, floBF16, floF16, floF8A, floF8B, floF6A, floF6B, floF4],
      f.maxPat = f.largest ∧ f.maxPat < 2 ^ (f.eb + f.mb) ∧ floDecode f f.maxPat ≠ .nan ∧
        ∀ neg, floDecode f f.maxPat ≠ .inf neg := by decide
  obtain ⟨hmax, hrange, hnumber, hfinite⟩ := hall f hf
  exact ⟨hmax, hrange, hnumber, hfinite⟩

/-- A finite pattern is at most the largest. -/
theorem Flo.magnitude_le_largest {f : Flo} {p : Nat} (hieee : f.ieee = true → f.expo p ≠ 2 ^ f.eb - 1)
    (hones : f.nanOnes = true → ¬(f.expo p = 2 ^ f.eb - 1 ∧ f.frac p = 2 ^ f.mb - 1)) :
    f.magnitude p ≤ f.largest := by
  have hexpo : f.expo p < 2 ^ f.eb := Nat.mod_lt _ (Nat.two_pow_pos _)
  have hfrac : f.frac p < 2 ^ f.mb := Nat.mod_lt _ (Nat.two_pow_pos _)
  have hbelow : f.expo p ≠ 2 ^ f.eb - 1 → f.magnitude p < f.infPat := fun hne => by
    have hnext : (f.expo p + 1) * 2 ^ f.mb ≤ f.infPat := Nat.mul_le_mul_right _ (by omega)
    rw [Nat.succ_mul] at hnext
    rw [Flo.magnitude_eq]
    omega
  have htop : f.infPat + 2 ^ f.mb = 2 ^ (f.eb + f.mb) := by
    rw [Flo.infPat, ← Nat.succ_mul, Nat.succ_eq_add_one, Nat.sub_add_cancel Nat.one_le_two_pow, Nat.pow_add]
  have hany : f.magnitude p < 2 ^ (f.eb + f.mb) := Nat.mod_lt _ (Nat.two_pow_pos _)
  rw [Flo.largest]
  split
  · next hi => exact Nat.le_sub_one_of_lt (hbelow (hieee hi))
  split
  · next hn =>
    by_cases he : f.expo p = 2 ^ f.eb - 1
    · have hne : f.frac p ≠ 2 ^ f.mb - 1 := fun hfr => hones hn ⟨he, hfr⟩
      have hmag : f.magnitude p = f.frac p + f.infPat := by rw [Flo.magnitude_eq, he, Flo.infPat]
      omega
    · have := hbelow he
      omega
  · omega

/-- The largest pattern of a format, as the conversion reads it. -/
theorem Flo.Sound.decode_maxPat {f : Flo} (h : f.Sound) :
    ∃ neg, floDecode f f.maxPat = .fin neg (f.sig f.maxPat) (f.qmin + f.step f.maxPat) := by
  obtain hnan | ⟨-, -, -, hinf⟩ | ⟨-, -, hfin⟩ := floDecode_cases f f.maxPat
  · exact absurd hnan h.number
  · exact absurd hinf (h.finite _)
  · exact ⟨_, hfin⟩

/-! ### Conversion -/

/-- A normal form whose pattern is at most the largest does not overflow. -/
theorem Flo.Sound.not_overflows {f : Flo} (h : f.Sound) (rm : Rmode) {m k : Nat} (hnormal : f.Normal m k)
    (hle : m + k * 2 ^ f.mb ≤ f.maxPat) :
    overflows rm m (f.qmin + k) (f.sig f.maxPat) (f.qmin + f.step f.maxPat) = false := by
  have hmax : f.sig f.maxPat + f.step f.maxPat * 2 ^ f.mb = f.maxPat := by
    rw [Flo.sig_add_step, Flo.magnitude, Nat.mod_eq_of_lt h.range]
  obtain ⟨i, hunits, hbound⟩ := hnormal.le_of_pattern_le (f.normal_sig f.maxPat) (by rwa [hmax])
  rw [hunits, Int.natCast_add, ← Int.add_assoc]
  exact overflows_of_le rm _ hbound

/-- A normal form whose pattern is at most the largest is converted into that pattern. -/
theorem floConv_of_normal {f : Flo} (hf : f.Sound) {rm : Rmode} (hrm : rm.InRange) (neg : Bool) {m k : Nat}
    (hnormal : f.Normal m k) (hle : m + k * 2 ^ f.mb ≤ f.maxPat) :
    (floConv f rm (.fin neg m (f.qmin + k))).1 = f.signed neg (m + k * 2 ^ f.mb) := by
  by_cases hm : m = 0
  · have hk : k = 0 := hnormal.full.resolve_right (by have := Nat.two_pow_pos f.mb; omega)
    simp [floConv, hm, hk, Flo.signed]
  · obtain ⟨s, hmax⟩ := hf.decode_maxPat
    have hunit : max ((Nat.log2 m : Int) + (f.qmin + k) - f.mb) (1 - (f.bias : Int) - f.mb) = f.qmin + k :=
      hnormal.unit hm
    have hsteps : (f.qmin + k - (1 - (f.bias : Int) - f.mb)).toNat = k := by rw [Flo.qmin]; omega
    have hover := hf.not_overflows rm hnormal hle
    simp only [floConv, hm, if_false, hmax, hover, hunit, hsteps, quant_same_unit, roundsUp_exact hrm,
      Bool.false_eq_true, Nat.min_eq_left hle]
    rfl

/-- An infinity is converted into that of a format that has them, in every mode. -/
theorem floConv_inf {f : Flo} (rm : Rmode) (neg : Bool) (h : f.ieee = true) :
    (floConv f rm (.inf neg)).1 = f.signed neg f.infPat := by
  simp [floConv, h, Flo.signed, Flo.infPat]

/-- The conversion into a format keeps every value that the format holds. -/
theorem floConv_floDecode {f : Flo} (hf : f.Sound) {rm : Rmode} (hrm : rm.InRange) {p : Nat} (hp : p < 2 ^ f.width)
    (hnan : floDecode f p ≠ .nan) : (floConv f rm (floDecode f p)).1 = p := by
  obtain hdec | ⟨hieee, hexpo, hfrac, hdec⟩ | ⟨hieee, hones, hdec⟩ := floDecode_cases f p
  · exact absurd hdec hnan
  · have hmag : f.magnitude p = f.infPat := by rw [Flo.magnitude_eq, hexpo, hfrac, Nat.zero_add, Flo.infPat]
    rw [hdec, floConv_inf rm _ hieee, ← hmag, Flo.signed_magnitude hp]
  · have hle : f.sig p + f.step p * 2 ^ f.mb ≤ f.maxPat := by
      rw [Flo.sig_add_step, hf.maxPat]
      exact Flo.magnitude_le_largest hieee hones
    rw [hdec, floConv_of_normal hf hrm _ (f.normal_sig p) hle, Flo.sig_add_step, Flo.signed_magnitude hp]

/-- Settles O59: a pattern holds its value in normal form, over its own unit nothing is left to round, and the patterns
stand in the order of the values, so none passes the largest. -/
theorem formatsKeepTheirValues : Obligations.FormatsKeepTheirValues := by
  intro f hf rm p hrm hp hnan
  exact floConv_floDecode (sound_of_mem hf) hrm hp hnan

end Sys2Proof.Machine
end

section
/-!
PROOFS. The integer formats: an integer is its own rounding, and saturates where its format ends.
-/

namespace Sys2Proof.Machine

/-- The largest magnitude of a `w`-bit integer of a sign. -/
def intLimit (w : Nat) (neg : Bool) : Nat := if neg then 2 ^ (w - 1) else 2 ^ (w - 1) - 1

/-- The `w`-bit pattern of a sign and a magnitude. -/
def intPattern (w : Nat) (neg : Bool) (n : Nat) : Nat := if neg && n != 0 then 2 ^ w - n else n

/-- The conversion of a finite value is its rounding, cut at the limit of its sign. -/
theorem intConv_fin (w : Nat) (rm : Rmode) (neg : Bool) {m : Nat} (hm : m ≠ 0) (e : Int) :
    (intConv w rm (.fin neg m e)).1 = intPattern w neg
      (if overflows rm m e (intLimit w neg) 0 then intLimit w neg else min (roundInt rm m e) (intLimit w neg)) := by
  unfold intConv
  dsimp only
  rw [if_neg hm]
  by_cases hover : overflows rm m e (intLimit w neg) 0 = true
  · rw [if_pos hover]
    exact congrArg Prod.fst (if_pos hover)
  · rw [if_neg hover]
    exact congrArg Prod.fst (if_neg hover)

/-- The conversion of an integer cuts its magnitude at the limit of its sign, in every mode. -/
theorem intConv_valOfInt (w : Nat) {rm : Rmode} (hrm : rm.InRange) (n : Int) :
    (intConv w rm (valOfInt n)).1 = intPattern w (n < 0) (min n.natAbs (intLimit w (n < 0))) := by
  by_cases hzero : n = 0
  · simp [hzero, valOfInt, intConv, intPattern]
  · have hround : roundInt rm n.natAbs 0 = n.natAbs := by simp [roundInt, quant_same_unit, roundsUp_exact hrm]
    rw [valOfInt, intConv_fin w rm _ (Int.natAbs_ne_zero.mpr hzero), overflows_same_unit, hround]
    simp only [decide_eq_true_eq]
    split
    · next habove => rw [Nat.min_eq_right (Nat.le_of_lt habove)]
    · rfl

/-- A pattern decodes to the magnitude and the sign that it was made of. -/
theorem intDecode_intPattern {w : Nat} (hw : 0 < w) {neg : Bool} {k : Nat} (h : k ≤ intLimit w neg) :
    intDecode w (intPattern w neg k) = if neg then -(k : Int) else k := by
  obtain ⟨v, rfl⟩ := Nat.exists_eq_succ_of_ne_zero (Nat.ne_of_gt hw)
  have hpos := Nat.two_pow_pos v
  have hpow : 2 ^ (v + 1) = 2 * 2 ^ v := by rw [Nat.pow_succ, Nat.mul_comm]
  have hcast : ((2 ^ (v + 1) : Nat) : Int) = 2 ^ (v + 1) := Int.natCast_pow 2 (v + 1)
  have hsmall : ∀ k, k < 2 ^ v → intDecode (v + 1) k = k := fun k hk => by
    rw [intDecode, Nat.succ_sub_one, Nat.testBit_lt_two_pow hk]
    rfl
  cases neg with
  | false =>
    have hlimit : k ≤ 2 ^ v - 1 := h
    exact hsmall k (by omega)
  | true =>
    by_cases hk : k = 0
    · subst hk
      exact hsmall 0 hpos
    · have hlimit : k ≤ 2 ^ v := h
      have htop : (2 ^ (v + 1) - k).testBit v = true :=
        Nat.testBit_of_two_pow_le_and_two_pow_add_one_gt (by omega) (by omega)
      simp only [intDecode, intPattern, Nat.succ_eq_add_one, Nat.add_sub_cancel, Bool.true_and, bne_iff_ne, ne_eq, hk,
        not_false_eq_true, if_true, htop]
      rw [← hcast]
      omega

/-- A magnitude cut at the limit of its sign is the integer cut at the two limits. -/
theorem signed_min_intLimit (w : Nat) (n : Int) :
    (if n < 0 then -((min n.natAbs (intLimit w (n < 0)) : Nat) : Int) else (min n.natAbs (intLimit w (n < 0)) : Nat)) =
      max (-(2 : Int) ^ (w - 1)) (min ((2 : Int) ^ (w - 1) - 1) n) := by
  have hpos := Nat.two_pow_pos (w - 1)
  have hcast : ((2 ^ (w - 1) : Nat) : Int) = 2 ^ (w - 1) := Int.natCast_pow 2 (w - 1)
  rw [← hcast]
  by_cases hneg : n < 0
  · simp only [hneg, if_true, intLimit, decide_true]
    omega
  · simp only [hneg, if_false, intLimit, decide_false, Bool.false_eq_true]
    omega

/-- Settles O60: an integer is its own rounding, and overflows where its magnitude passes the limit of its sign. -/
theorem integersSaturate : Obligations.IntegersSaturate := by
  intro w hw rm n hrm
  have hwidth : 0 < w := by
    simp only [List.mem_cons, List.not_mem_nil, or_false] at hw
    omega
  rw [intConv_valOfInt w hrm, intDecode_intPattern hwidth (Nat.min_le_right _ _)]
  simp only [decide_eq_true_eq]
  exact signed_min_intLimit w n

end Sys2Proof.Machine
end

section
/-!
PROOFS. An idle tile takes a task: which queue it takes from, the descriptors that it reads with the errors that they
meet, and the four ends of its start.
-/

namespace Sys2Proof.Machine

/-! ### The errors of a read leave the task queues alone -/

/-- What no element's change moves. -/
theorem forEach_frame {α β : Type} (part : State → β) (xs : List α) (s : State) (f : State → α → State)
    (h : ∀ t x, part (f t x) = part t) : part (forEach xs s f) = part s := by
  induction xs generalizing s with
  | nil => rfl
  | cons x xs ih => exact (ih (f s x)).trans (h s x)

@[simp] theorem setErr_queues (s : State) (a n : Nat) : (setErr s a n).queues = s.queues := rfl

@[simp] theorem reportError_queues (s : State) (d kind a ch cb : Nat) :
    (reportError s d kind a ch cb).queues = s.queues := by
  unfold reportError
  dsimp only
  split
  · rfl
  · rfl

@[simp] theorem queueRepair_queues (s : State) (d ch row a : Nat) : (queueRepair s d ch row a).queues = s.queues := by
  unfold queueRepair
  dsimp only
  split
  · rfl
  split
  · rfl
  · rfl

@[simp] theorem repairCandidate_queues (s : State) (d ch cb a : Nat) :
    (repairCandidate s d ch cb a).queues = s.queues := by
  unfold repairCandidate
  dsimp only [useFree]
  split
  · rfl
  split
  · split
    · rfl
    · exact queueRepair_queues _ _ _ _ _
  · exact queueRepair_queues _ _ _ _ _

@[simp] theorem foundBad_queues (s : State) (a : Nat) (scrub : Bool) : (foundBad s a scrub).queues = s.queues := by
  simp [foundBad]

@[simp] theorem foundCorrected_queues (s : State) (a : Nat) (repairs : Bool) :
    (foundCorrected s a repairs).queues = s.queues := by
  unfold foundCorrected
  dsimp only
  split
  · cases repairs with
    | true => simp
    | false => simp
  · simp

@[simp] theorem checkErrs_queues (s : State) (bys : List Reader) (es : List (Nat × Nat)) :
    (checkErrs s bys es).1.queues = s.queues := by
  refine forEach_frame State.queues es s _ fun t x => ?_
  dsimp only
  split
  · rfl
  split
  · exact foundBad_queues _ _ _
  · exact foundCorrected_queues _ _ _

/-! ### The queue that a tile takes from -/

/-- A tile takes the head of the queue that its cluster empties in a rotation. -/
theorem entryFor_of_outgoing {s : State} {d c v id : Nat} {rest : List Nat} (hout : outgoingFor s d c = some v)
    (hq : queueOf s d v = id :: rest) : entryFor s d c = some (v, id, rest) := by
  simp [entryFor, workFor, hout, hq, takeFrom]

/-- Where a cluster empties no queue with an entry, its tiles look to their own queue and then to a victim's. -/
theorem workFor_of_no_outgoing {s : State} {d c : Nat}
    (hout : ∀ o, outgoingFor s d c = some o → queueOf s d o = []) :
    workFor s d c = workFor.own s d c := by
  unfold workFor
  split
  · next o ho => simp [hout o ho]
  · rfl

/-- A tile then takes the head of its own queue. -/
theorem entryFor_of_own {s : State} {d c id : Nat} {rest : List Nat}
    (hout : ∀ o, outgoingFor s d c = some o → queueOf s d o = []) (hq : queueOf s d c = id :: rest) :
    entryFor s d c = some (c, id, rest) := by
  simp [entryFor, workFor_of_no_outgoing hout, workFor.own, hq, takeFrom]

/-- With its own queue empty a tile takes the tail of its victim's. -/
theorem entryFor_of_victim {s : State} {d c v id : Nat} {rest : List Nat}
    (hout : ∀ o, outgoingFor s d c = some o → queueOf s d o = []) (hown : queueOf s d c = [])
    (hvictim : victimOf s d c = some v) (hq : queueOf s d v = rest ++ [id]) :
    entryFor s d c = some (v, id, rest) := by
  simp [entryFor, workFor_of_no_outgoing hout, workFor.own, hown, hvictim, hq, takeFrom]

/-- The state with an entry taken from a queue: its engine has retired an event, and an entry of
another cluster's is counted in TASK_STOLEN. -/
def entryTaken (s : State) (d c v : Nat) (rest : List Nat) : State :=
  let q := retire (setQueue s d v rest) (clusterSlot d v)
  if v = c then q
  else wg q (dcSlot d) taskStolen (min (rg s (dcSlot d) taskStolen + 1) (2 ^ taskStolen.w - 1))

/-- Taking an entry changes no die. -/
@[simp] theorem entryTaken_dies (s : State) (d c v : Nat) (rest : List Nat) :
    (entryTaken s d c v rest).dies = s.dies := by
  unfold entryTaken
  split
  · rfl
  · rfl

/-- The queue that an entry was taken from holds the rest. -/
theorem queueOf_entryTaken (s : State) (d c v : Nat) (rest : List Nat) :
    queueOf (entryTaken s d c v rest) d v = rest := by
  have hqueues : (entryTaken s d c v rest).queues = (setQueue s d v rest).queues := by
    unfold entryTaken
    split
    · rfl
    · rfl
  rw [queueOf, hqueues]
  exact queueOf_setQueue_same s d v rest

/-- A tile that finds an entry whose task is known starts it. -/
theorem takeTask_of_entry {s : State} {d : Die} {c : Cluster} (t : TileIx) {v id : Nat} {rest : List Nat}
    {k : LiveTask} (hentry : entryFor s d c = some (v, id, rest)) (hlive : liveOfId s d id = some k) :
    takeTask s d c t = startTask (entryTaken s d c v rest) d c t k := by
  have hknown : liveOfId (entryTaken s d c v rest) d id = some k := by
    rw [← hlive, liveOfId, liveOfId, liveTasks, liveTasks, die, die, entryTaken_dies]
  simp only [takeTask, hentry]
  split
  · next k' hk' =>
    obtain rfl : k' = k := Option.some.inj (hk'.symm.trans hknown)
    rfl
  · next hnone => exact absurd (hnone.symm.trans hknown) nofun

/-- A tile that may not take a task, or cannot read it yet, is left as it is. -/
theorem taskTake_ends {s : State} {d : Die} {c : Cluster} {t : TileIx}
    (h : tileIdle s d c t = false ∨ jobHeld s d = true ∨ takeWaits s d c = true) : Ends (.taskTake d c t) s s := by
  change execTaskTake d c t s = .next s
  rw [execTaskTake, if_neg]
  rintro ⟨hidle, hheld, hwaits⟩
  simp only [Bool.not_eq_true'] at hheld hwaits
  simp [hidle, hheld, hwaits] at h

/-- An idle tile that can read what it takes takes it. -/
theorem taskTake_settles {s : State} {d : Die} {c : Cluster} {t : TileIx} (hidle : tileIdle s d c t = true)
    (hheld : jobHeld s d = false) (hwaits : takeWaits s d c = false) :
    Settles (.taskTake d c t) s (takeTask s d c t) := by
  change execTaskTake d c t s = .next (settle (takeTask s d c t))
  rw [execTaskTake, if_pos (by simp [hidle, hheld, hwaits])]

/-! ### The start of a task -/

/-- A tile reads the descriptors of a task: the state with their errors met, and the first uncorrectable sector. -/
def descsRead (s : State) (d : Die) (c : Cluster) (t : TileIx) (k : LiveTask) : State × Option Nat :=
  if k.piece.isSome then (s, none) else checkErrs s (taskReaders d c t) (rangeErrs s d (tdRanges k))

/-- The descriptors that a tile has read of a task; a piece has none. -/
def descsOf (s : State) (d : Nat) (k : LiveTask) : List (Option Nat) :=
  if k.piece.isSome then [] else readTds s d k

/-- Reading descriptors leaves the task queues alone. -/
theorem descsRead_queues (s : State) (d : Die) (c : Cluster) (t : TileIx) (k : LiveTask) :
    (descsRead s d c t k).1.queues = s.queues := by
  unfold descsRead
  split
  · rfl
  · exact checkErrs_queues _ _ _

section
variable {s x : State} {bad : Option Nat} {d : Die} {c : Cluster} {t : TileIx} {k : LiveTask}

/-- What the start of a task comes to once its descriptors are read. -/
theorem startTask_of_descsRead (hread : descsRead s d c t k = (x, bad)) : startTask s d c t k =
    if bad.isSome then holdTask x d c t k { runOf x d k (descsOf x d k) with spoiled := true }
    else if k.piece.isNone && !taskValid k (descsOf x d k) then
      raise (endBadTask x d k 2) { slot := dcSlot d, src := srcTaskMalformed, job := (seqOf x d).job }
    else if !liveWindowsOk x d k (descsOf x d k) then endBadTask x d k 3
    else holdTask x d c t k (runOf x d k (descsOf x d k)) := by
  obtain ⟨rfl, rfl⟩ : (descsRead s d c t k).1 = x ∧ (descsRead s d c t k).2 = bad := by
    rw [hread]
    exact ⟨rfl, rfl⟩
  rfl

/-- A start fails the check of R121 where the task is no piece and is not valid. -/
theorem fails_iff_not_valid (tds : List (Option Nat)) :
    (k.piece.isNone && !taskValid k tds) = true ↔ ¬(k.piece.isSome = true ∨ taskValid k tds = true) := by
  cases k.piece with
  | none => simp
  | some n => simp

/-- A task that an uncorrectable sector reaches, or that passes its checks, is held by the tile. -/
theorem startTask_holds (hread : descsRead s d c t k = (x, bad)) (h : bad.isSome = true ∨
      (k.piece.isSome = true ∨ taskValid k (descsOf x d k) = true) ∧ liveWindowsOk x d k (descsOf x d k) = true) :
    startTask s d c t k = holdTask x d c t k { runOf x d k (descsOf x d k) with spoiled := bad.isSome } := by
  rw [startTask_of_descsRead hread]
  cases bad with
  | some a => rfl
  | none =>
    obtain ⟨hvalid, hwindows⟩ := h.resolve_left Bool.false_ne_true
    rw [Option.isSome_none, if_neg Bool.false_ne_true, if_neg fun hfails => (fails_iff_not_valid _).mp hfails hvalid,
      if_neg (by simp [hwindows])]
    rfl

/-- A task with a bad descriptor ends MALFORMED. -/
theorem startTask_malformed (hread : descsRead s d c t k = (x, none))
    (hvalid : ¬(k.piece.isSome = true ∨ taskValid k (descsOf x d k) = true)) :
    startTask s d c t k = raise (endBadTask x d k 2)
      { slot := dcSlot d, src := srcTaskMalformed, job := (seqOf x d).job } := by
  rw [startTask_of_descsRead hread, Option.isSome_none, if_neg Bool.false_ne_true,
    if_pos ((fails_iff_not_valid _).mpr hvalid)]

/-- A task outside the windows of its job ends WINDOW. -/
theorem startTask_window (hread : descsRead s d c t k = (x, none))
    (hvalid : k.piece.isSome = true ∨ taskValid k (descsOf x d k) = true)
    (hwindows : liveWindowsOk x d k (descsOf x d k) = false) : startTask s d c t k = endBadTask x d k 3 := by
  rw [startTask_of_descsRead hread, Option.isSome_none, if_neg Bool.false_ne_true,
    if_neg fun hfails => (fails_iff_not_valid _).mp hfails hvalid, if_pos (by simp [hwindows])]

end

/-! ### The tile that holds a task -/

/-- A tile that takes a task changes its die, its tile and the free values alone. -/
theorem holdTask_frame (s : State) (d c t : Nat) (k : LiveTask) (r : RunTask) :
    holdTask s d c t k r = { s with
      dies := (holdTask s d c t k r).dies, tiles := (holdTask s d c t k r).tiles
      free := (holdTask s d c t k r).free } := rfl

/-- A tile whose scratchpad has been used is as it was but for that. -/
theorem tileOf_scratchUsed (s : State) (d c t : Nat) :
    tileOf (scratchUsed s d c t) d c t = { tileOf s d c t with pad := s.free + 1 } := tileOf_setTile_same ..

/-- The tile holds the task, and its scratchpad is another. -/
theorem tileOf_holdTask (s : State) (d c t : Nat) (k : LiveTask) (r : RunTask) :
    tileOf (holdTask s d c t k r) d c t =
      { tileOf s d c t with task := some r, pad := (tileOf (holdTask s d c t k r) d c t).pad } := by
  simp only [holdTask, tileOf_scratchUsed, tileOf_setTile_same]
  rfl

/-- Setting a tile leaves every other alone. -/
theorem setTile_tiles_other (s : State) {d c t n : Nat} (x : Tile) (hn : n ≠ tileKey d c t) :
    mget {} (setTile s d c t x).tiles n = mget {} s.tiles n := mget_mset_other _ _ _ hn

/-- Using a scratchpad leaves every other tile alone. -/
theorem scratchUsed_tiles_other (s : State) {d c t n : Nat} (hn : n ≠ tileKey d c t) :
    mget {} (scratchUsed s d c t).tiles n = mget {} s.tiles n := setTile_tiles_other _ _ hn

/-- Every other tile is as it was. -/
theorem holdTask_tiles_other (s : State) {d c t n : Nat} (k : LiveTask) (r : RunTask) (hn : n ≠ tileKey d c t) :
    mget {} (holdTask s d c t k r).tiles n = mget {} s.tiles n := by
  rw [holdTask, scratchUsed_tiles_other _ hn, setTile_tiles_other _ _ hn]
  rfl

/-- The task is marked as running on the tile. -/
theorem live_holdTask (s : State) (d c t : Nat) (k : LiveTask) (r : RunTask) :
    (die (holdTask s d c t k r) d).live =
      updFirst (fun x => x.id = k.id) (fun x => { x with st := .running (16 * c + t) }) (die s d).live :=
  congrArg DieSt.live (die_setDie_same s d _)

/-- What a tile holds of a task, with the paths written as the descriptors' own choices. -/
theorem runOf_spoiled (s : State) (d : Nat) (k : LiveTask) (tds : List (Option Nat)) (spoiled : Bool) :
    { runOf s d k tds with spoiled := spoiled } =
      { id := k.id, tds := tds, spoiled := spoiled
        narrow := tds.map (fun z => (z.map (takesNarrow (rgB s (mgSlot d) memCtlNarrowEn))).getD false)
        adder := rgB s (mgSlot d) memCtlNarrowEn && usesAdd tds : RunTask } := by
  simp only [runOf, RunTask.mk.injEq, true_and, and_true]
  refine List.map_congr_left fun z _ => ?_
  cases z with
  | none => rfl
  | some td => rfl

/-- Settles O17, by the queue that the entry comes from and by the four ends of the start. -/
theorem tileTakesTask : Obligations.TileTakesTask := by
  refine ⟨fun d c t s => taskTake_ends, fun d c t id k v rest s hidle hheld hwaits hlive hsource => ?_⟩
  have hentry : entryFor s d c = some (v, id, rest) := by
    obtain ⟨hout, hq⟩ | ⟨hout, ⟨rfl, hq⟩ | ⟨-, hown, hvictim, hq⟩⟩ := hsource
    · exact entryFor_of_outgoing hout hq
    · exact entryFor_of_own hout hq
    · exact entryFor_of_victim hout hown hvictim hq
  have hsettles : Settles (.taskTake d c t) s (startTask (entryTaken s d c v rest) d c t k) :=
    takeTask_of_entry t hentry hlive ▸ taskTake_settles hidle hheld hwaits
  intro q w y x tds valid narrowEn run
  have hread : descsRead (entryTaken s d c v rest) d c t k = (x, y.2) := rfl
  refine ⟨fun hholds => ?_, fun hclean hvalid => ?_, fun hclean hvalid hwindows => ?_⟩
  · rw [startTask_holds hread hholds, runOf_spoiled] at hsettles
    refine ⟨_, hsettles, holdTask_frame .., tileOf_holdTask .., fun n => holdTask_tiles_other x k _, ?_,
      live_holdTask ..⟩
    have hqueues : x.queues = (entryTaken s d c v rest).queues := descsRead_queues ..
    exact (congrArg (fun m => mget [] m (d.val * 33 + v)) hqueues).trans (queueOf_entryTaken ..)
  · rw [hclean] at hread
    rwa [startTask_malformed hread hvalid] at hsettles
  · rw [hclean] at hread
    rwa [startTask_window hread hvalid hwindows] at hsettles

end Sys2Proof.Machine
end

section
/-!
PROOFS. The ash census: a clear and a snapshot start at the write of CENSUS_CTL and end by a command of their own.
-/

namespace Sys2Proof.Machine

variable {s : State} {d : Die}

/-! ### What shows that a clear or a snapshot runs -/

/-- What a starting clear (`false`) or snapshot (`true`) shows: which of them runs, and BUSY. -/
def showCensusOp (s : State) (d : Nat) (snap : Bool) : State :=
  wg (updDie s d (fun x => { x with censusOp := some snap })) (dcSlot d) censusStatusBusy 1

/-- What an ending one takes back. -/
def hideCensusOp (s : State) (d : Nat) : State :=
  wg (updDie s d (fun x => { x with censusOp := none })) (dcSlot d) censusStatusBusy 0

@[simp] theorem die_updDie_same (s : State) (d : Nat) (f : DieSt → DieSt) : die (updDie s d f) d = f (die s d) :=
  die_setDie_same s d _

@[simp] theorem showCensusOp_busy (s : State) (d : Nat) (snap : Bool) :
    rg (showCensusOp s d snap) (dcSlot d) censusStatusBusy = 1 := rg_wg_same _ _ _ _

@[simp] theorem showCensusOp_censusOp (s : State) (d : Nat) (snap : Bool) :
    (die (showCensusOp s d snap) d).censusOp = some snap :=
  congrArg DieSt.censusOp (die_updDie_same s d fun x => { x with censusOp := some snap })

@[simp] theorem showCensusOp_mem (s : State) (d : Nat) (snap : Bool) : (showCensusOp s d snap).mem = s.mem := rfl

/-- SKIPPED stands beside BUSY and is left alone. -/
theorem showCensusOp_skipped (s : State) (d : Nat) (snap : Bool) :
    rg (showCensusOp s d snap) (dcSlot d) censusStatusSkipped = rg s (dcSlot d) censusStatusSkipped :=
  rg_wg_other _ _ (by simp [fkey, censusStatusSkipped, censusStatusBusy])

@[simp] theorem hideCensusOp_busy (s : State) (d : Nat) :
    rg (hideCensusOp s d) (dcSlot d) censusStatusBusy = 0 := rg_wg_same _ _ _ _

@[simp] theorem hideCensusOp_censusOp (s : State) (d : Nat) : (die (hideCensusOp s d) d).censusOp = none :=
  congrArg DieSt.censusOp (die_updDie_same s d fun x => { x with censusOp := none })

theorem hideCensusOp_snapCount (s : State) (d : Nat) :
    rg (hideCensusOp s d) (dcSlot d) censusStatusSnapCount = rg s (dcSlot d) censusStatusSnapCount :=
  rg_wg_other _ _ (by simp [fkey, censusStatusSnapCount, censusStatusBusy])

/-! ### A write of CENSUS_CTL -/

/-- The die control page stands above the pages that gating stops. -/
theorem one_lt_pgLevel_dcSlot : ∀ d : Die, 1 < pgLevel (pgType (dcSlot d)) := by decide

/-- The die control page is never gated, so a write of it finds the state as it is. -/
theorem guardedWrite_dieControl {r : Requester} (off : Nat) (f : State → State)
    (hruns : performs s (dcSlot d) = true) (hreach : reached s r = true) :
    guardedWrite s r (dcSlot d) off f = f s :=
  guardedWrite_of_performs off f (fun _ => one_lt_pgLevel_dcSlot d) hruns hreach

/-- A write of CLEAR alone that reaches the block. -/
theorem censusClear_ends {r : Requester} (hruns : performs s (dcSlot d) = true) (hreach : reached s r = true) :
    Ends (.censusClear r d) s (writeCensusCtl s d false true) :=
  congrArg Host.Outcome.next (guardedWrite_dieControl 0x88 _ hruns hreach)

/-- A write of SNAP that reaches the block; bit 1 of the value is CLEAR. -/
theorem censusSnap_ends {r : Requester} (val : BitVec 32) (hruns : performs s (dcSlot d) = true)
    (hreach : reached s r = true) :
    Ends (.censusSnap r d val) s (writeCensusCtl s d true (val.getLsbD 1)) :=
  congrArg Host.Outcome.next (guardedWrite_dieControl 0x88 _ hruns hreach)

/-- A busy census ignores the write. -/
theorem writeCensusCtl_of_busy {d : Nat} (snap clear : Bool) (hbusy : rg s (dcSlot d) censusStatusBusy = 1) :
    writeCensusCtl s d snap clear = s := by
  simp [writeCensusCtl, rgB, hbusy]

/-- CLEAR alone clears the counters. -/
theorem writeCensusCtl_clear {d : Nat} (hidle : rg s (dcSlot d) censusStatusBusy = 0) :
    writeCensusCtl s d false true = showCensusOp (clearCensus s d) d false := by
  simp [writeCensusCtl, rgB, hidle, startClear, showCensusOp]

/-- SNAP starts a snapshot, whatever CLEAR says. -/
theorem writeCensusCtl_snap {d : Nat} (clear : Bool) (hidle : rg s (dcSlot d) censusStatusBusy = 0) :
    writeCensusCtl s d true clear = startSnap s d clear := by
  simp [writeCensusCtl, rgB, hidle]

/-- A snapshot whose area does not reach memory is skipped; with CLEAR set it still clears. -/
theorem startSnap_of_unreached {d : Nat} (clear : Bool) (hfar : allReach s (censusBase s d) (2 ^ 21) = false) :
    startSnap s d clear =
      let skipped := wg s (dcSlot d) censusStatusSkipped 1
      if clear then showCensusOp (clearCensus skipped d) d false else skipped := by
  have hfar' : allReach s (censusBase s d) censusBytes = false := hfar
  simp [startSnap, hfar', startClear, showCensusOp]

/-- Any other copies the counters and clears them. -/
theorem startSnap_of_reached {d : Nat} (clear : Bool) (hnear : allReach s (censusBase s d) (2 ^ 21) = true) :
    startSnap s d clear = showCensusOp (clearCensus (copyCensus s d) d) d true := by
  have hnear' : allReach s (censusBase s d) censusBytes = true := hnear
  simp [startSnap, hnear', showCensusOp]

@[simp] theorem clearCensus_mem (s : State) (d : Nat) : (clearCensus s d).mem = s.mem := rfl

@[simp] theorem rg_clearCensus (s : State) (d slot : Nat) (f : Fld) : rg (clearCensus s d) slot f = rg s slot f := rfl

/-- Every counter of a cleared die reads 0: no key of the die is left among the entries. -/
theorem mget_clearCensus (s : State) (d : Nat) {k : Nat} (hk : k < 65536) :
    mget 0 (clearCensus s d).census (d * 65536 + k) = 0 := by
  refine (mget_eq_default_or_mem 0 (clearCensus s d).census (d * 65536 + k)).resolve_right fun hmem => ?_
  have hother : (d * 65536 + k) / 65536 ≠ d := by simpa using (List.mem_filter.mp hmem).2
  omega

/-- So does every counter once the clear, or the snapshot that cleared them, shows. -/
theorem mget_showCensusOp_clearCensus (s : State) (d : Nat) (snap : Bool) {k : Nat} (hk : k < 65536) :
    mget 0 (showCensusOp (clearCensus s d) d snap).census (d * 65536 + k) = 0 := mget_clearCensus s d hk

/-! ### The end -/

/-- The end of a running clear or snapshot; a snapshot is counted. -/
theorem censusOpDone_ends {snap : Bool} (hop : (die s d).censusOp = some snap) :
    Ends (.censusOpDone d) s (if snap then countSnap (hideCensusOp s d) d else hideCensusOp s d) := by
  change execCensusOpDone d s = _
  rw [execCensusOpDone, hop]
  cases snap with
  | false => rfl
  | true => rfl

theorem countSnap_snapCount (s : State) (d : Nat) :
    rg (countSnap s d) (dcSlot d) censusStatusSnapCount = (rg s (dcSlot d) censusStatusSnapCount + 1) % 2 ^ 29 :=
  rg_wg_same _ _ _ _

theorem countSnap_busy (s : State) (d : Nat) :
    rg (countSnap s d) (dcSlot d) censusStatusBusy = rg s (dcSlot d) censusStatusBusy :=
  rg_wg_other _ _ (by simp [fkey, censusStatusSnapCount, censusStatusBusy])

/-- Settles O22: a write by BUSY, by SNAP and by whether the snapshot area reaches memory, an end by whether it is
a snapshot's. -/
theorem censusCommands : Obligations.CensusCommands := by
  intro r d val s hruns hreach key
  have hclear := censusClear_ends hruns hreach
  have hsnap := censusSnap_ends val hruns hreach
  refine ⟨fun hbusy => ?_, fun hidle => ?_, fun snap hop => ?_⟩
  · rw [writeCensusCtl_of_busy _ _ hbusy] at hclear hsnap
    exact ⟨hclear, hsnap⟩
  · rw [writeCensusCtl_clear hidle] at hclear
    rw [writeCensusCtl_snap _ hidle] at hsnap
    refine ⟨⟨_, hclear, showCensusOp_busy .., showCensusOp_censusOp ..,
      fun _ => mget_showCensusOp_clearCensus _ _ _, rfl⟩,
      fun hfar hkeep => ?_, fun hfar hzero => ?_, fun hnear => ?_⟩
    · rwa [startSnap_of_unreached _ hfar, hkeep, if_neg Bool.false_ne_true] at hsnap
    · rw [startSnap_of_unreached _ hfar, hzero, if_pos rfl] at hsnap
      have hskipped : rg (showCensusOp (clearCensus (wg s (dcSlot d) censusStatusSkipped 1) d) d false) (dcSlot d)
          censusStatusSkipped = 1 := by
        rw [showCensusOp_skipped, rg_clearCensus, rg_wg_same]
        rfl
      exact ⟨_, hsnap, hskipped, showCensusOp_busy .., showCensusOp_censusOp ..,
        fun _ => mget_showCensusOp_clearCensus _ _ _, rfl⟩
    · rw [startSnap_of_reached _ hnear] at hsnap
      exact ⟨_, hsnap, showCensusOp_busy .., showCensusOp_censusOp ..,
        (showCensusOp_mem ..).trans (clearCensus_mem ..), fun _ => mget_showCensusOp_clearCensus _ _ _⟩
  · refine ⟨_, censusOpDone_ends hop, ?_⟩
    cases snap with
    | false =>
      exact ⟨hideCensusOp_censusOp .., hideCensusOp_busy .., fun _ => hideCensusOp_snapCount .., nofun, rfl,
        fun _ => rfl⟩
    | true =>
      have hcount := countSnap_snapCount (hideCensusOp s d) d
      rw [hideCensusOp_snapCount] at hcount
      exact ⟨hideCensusOp_censusOp .., (countSnap_busy ..).trans (hideCensusOp_busy ..), nofun, fun _ => hcount, rfl,
        nofun⟩

end Sys2Proof.Machine
end

section
/-!
PROOFS. A task ends: what it comes to is counted, its phase takes its result and its tile is freed; one that has read
an uncorrectable sector is spoiled.
-/

namespace Sys2Proof.Machine

/-! ### Counters and the census -/

/-- A counter stops at its field's largest value. -/
theorem rg_incr_same (s : State) (slot : Nat) (f : Fld) (k : Nat) :
    rg (incr s slot f k) slot f = min (rg s slot f + k) (2 ^ f.w - 1) :=
  (rg_wg_same s slot f _).trans (satAdd_mod f.w _ k)

/-- A field at another place is left alone. -/
theorem rg_incr_other (s : State) {a b : Nat} {f g : Fld} (k : Nat) (h : fkey a f ≠ fkey b g) :
    rg (incr s b g k) a f = rg s a f := rg_wg_other s _ h

/-- Fields at bit 0 of two registers of a page stand at different places. -/
theorem fkey_ne_of_off_ne {slot : Nat} {f g : Fld} (hf : f.lo = 0) (hg : g.lo = 0) (hoff : f.off ≠ g.off) :
    fkey slot f ≠ fkey slot g := by
  simp only [fkey, hf, hg]
  omega

/-- A field at bit 0 of its register is not CENSUS_STATUS.SAT. -/
theorem fkey_ne_censusStatusSat {a b : Nat} {f : Fld} (hlo : f.lo = 0) : fkey a f ≠ fkey b censusStatusSat := by
  simp only [fkey, hlo, censusStatusSat]
  omega

/-- The census moves its counters and CENSUS_STATUS.SAT alone. -/
theorem countCensus_frame {β : Type} (part : State → β) (s : State) (d layer fmt : Nat) (cs : List Cls)
    (hcensus : ∀ u m, part { u with census := m } = part u)
    (hsat : ∀ u, part (wg u (dcSlot d) censusStatusSat 1) = part u) :
    part (countCensus s d layer fmt cs) = part s := by
  unfold countCensus
  dsimp only
  split
  · rfl
  split
  · exact (hsat _).trans (hcensus _ _)
  · exact hcensus _ _

/-! ### What a completed task comes to, part by part -/

/-- The census of a task's final outputs. -/
def outputsCounted (s : State) (d : Nat) (k : LiveTask) (o : TaskOut) : State :=
  forEach o.classes s (fun s (f, cs) => countCensus s d (censusLayer s d k) f cs)

/-- Its clamped indices, clamped writes and dropped writes counted beside. -/
def resultCounted (s : State) (d : Nat) (k : LiveTask) (o : TaskOut) : State :=
  incr (incr (incr (outputsCounted s d k o) (dcSlot d) taIdxClamp o.idx) (dcSlot d) taWrClamp o.clamps)
    (dcSlot d) boxDrop o.drops

/-- A phase with a task's drops, latch and digest. -/
def phaseWithResult (o : TaskOut) (latch : Bool) (digest : Nat) (p : Phase) : Phase :=
  { p with
    drops := p.drops + o.drops, latch := p.latch || latch, digest := (p.digest + digest) % 2 ^ 128 }

/-- A result's writes are visible, it is counted, and its phase has taken it. -/
def resultTaken (s : State) (d : Nat) (k : LiveTask) (o : TaskOut) : State :=
  updPhase (resultCounted (forEach o.stores s (fun s m => writeMap s d m)) d k o) d k.phase
    (phaseWithResult o (setsLatch (lyTrig (phaseOf s d k.phase).entry) o) (digestOf s d o.stores))

/-- The task's status stands in memory. -/
def resultReported (s : State) (d : Nat) (k : LiveTask) (o : TaskOut) : State :=
  writeTaskStatus (resultTaken s d k o) d k (if o.drops = 0 then 0 else 1) o.drops

/-- TASK_BOX_DROP is raised where writes were dropped, and the tile is free. -/
def tileFreed (s : State) (d c t : Nat) (r : RunTask) (o : TaskOut) : State :=
  taskProgress (dropTask (if o.drops = 0 then s
    else raise s { slot := dcSlot d, src := srcTaskBoxDrop, job := (seqOf s d).job }) d c t) d c t r

/-- A completing task goes through these in turn; then what follows in its phase follows. -/
theorem completeTask_eq (s : State) (d c t : Nat) (k : LiveTask) (r : RunTask) :
    completeTask s d c t k r =
      let o := taskResult s d k r.tds
      afterTask (endLive (tileFreed (resultReported s d k o) d c t r o) d k) d k.phase := rfl

section
variable (s : State) (d : Die) (k : LiveTask) (o : TaskOut)

/-- Counting a result moves no memory. -/
theorem resultCounted_mem : (resultCounted s d k o).mem = s.mem :=
  forEach_frame State.mem o.classes s _ fun _ _ =>
    countCensus_frame State.mem _ _ _ _ _ (fun _ _ => rfl) fun _ => rfl

/-- It changes no die. -/
theorem resultCounted_dies : (resultCounted s d k o).dies = s.dies :=
  forEach_frame State.dies o.classes s _ fun _ _ =>
    countCensus_frame State.dies _ _ _ _ _ (fun _ _ => rfl) fun _ => rfl

/-- The census moves no register field but CENSUS_STATUS.SAT, so none at bit 0 of its register. -/
theorem rg_outputsCounted {slot : Nat} {f : Fld} (hlo : f.lo = 0) :
    rg (outputsCounted s d k o) slot f = rg s slot f :=
  forEach_frame (fun u => rg u slot f) o.classes s _ fun _ _ =>
    countCensus_frame (fun u => rg u slot f) _ _ _ _ _ (fun _ _ => rfl) fun u =>
      rg_wg_other u _ (fkey_ne_censusStatusSat hlo)

/-- TA_IDX_CLAMP counts a result's clamped indices. -/
theorem resultCounted_taIdxClamp : rg (resultCounted s d k o) (dcSlot d) taIdxClamp =
    min (rg s (dcSlot d) taIdxClamp + o.idx) (2 ^ taIdxClamp.w - 1) := by
  rw [resultCounted, rg_incr_other _ _ (fkey_ne_of_off_ne rfl rfl (by decide)),
    rg_incr_other _ _ (fkey_ne_of_off_ne rfl rfl (by decide)), rg_incr_same,
    rg_outputsCounted _ _ _ _ rfl]

/-- TA_WR_CLAMP counts its clamped writes. -/
theorem resultCounted_taWrClamp : rg (resultCounted s d k o) (dcSlot d) taWrClamp =
    min (rg s (dcSlot d) taWrClamp + o.clamps) (2 ^ taWrClamp.w - 1) := by
  rw [resultCounted, rg_incr_other _ _ (fkey_ne_of_off_ne rfl rfl (by decide)), rg_incr_same,
    rg_incr_other _ _ (fkey_ne_of_off_ne rfl rfl (by decide)),
    rg_outputsCounted _ _ _ _ rfl]

/-- BOX_DROP counts its dropped writes. -/
theorem resultCounted_boxDrop : rg (resultCounted s d k o) (dcSlot d) boxDrop =
    min (rg s (dcSlot d) boxDrop + o.drops) (2 ^ boxDrop.w - 1) := by
  rw [resultCounted, rg_incr_same, rg_incr_other _ _ (fkey_ne_of_off_ne rfl rfl (by decide)),
    rg_incr_other _ _ (fkey_ne_of_off_ne rfl rfl (by decide)),
    rg_outputsCounted _ _ _ _ rfl]

end

/-- A phase reads as it was changed. -/
@[simp] theorem phaseOf_updPhase_same (s : State) (d ph : Nat) (f : Phase → Phase) :
    phaseOf (updPhase s d ph f) d ph = f (phaseOf s d ph) := by
  simp only [phaseOf, updPhase, updSeq, seqOf, die_updDie_same, mget_mset_same]

/-- The phase of a task takes its result. -/
theorem phaseOf_resultTaken (s : State) (d : Die) (k : LiveTask) (o : TaskOut) :
    phaseOf (resultTaken s d k o) d k.phase =
      phaseWithResult o (setsLatch (lyTrig (phaseOf s d k.phase).entry) o) (digestOf s d o.stores)
        (phaseOf (forEach o.stores s (fun s m => writeMap s d m)) d k.phase) := by
  rw [resultTaken, phaseOf_updPhase_same]
  simp only [phaseOf, seqOf, die, resultCounted_dies]

/-! ### The tile of a task that ends -/

@[simp] theorem progress_tiles (s : State) (slot : Nat) : (progress s slot).tiles = s.tiles := rfl

@[simp] theorem traffic_tiles (s : State) : (traffic s).tiles = s.tiles :=
  forEach_frame State.tiles _ s dieTraffic fun _ _ => rfl

/-- Progress and passed accesses change no tile. -/
@[simp] theorem taskProgress_tiles (s : State) (d c t : Nat) (r : RunTask) :
    (taskProgress s d c t r).tiles = s.tiles := by
  unfold taskProgress
  dsimp only
  split
  · exact traffic_tiles s
  · exact traffic_tiles s

/-- A tile that drops its task holds none. -/
theorem task_dropTask (s : State) (d c t : Nat) : (tileOf (dropTask s d c t) d c t).task = none := by
  rw [dropTask, tileOf_scratchUsed, tileOf_setTile_same]

/-- A freed tile holds no task. -/
theorem task_tileFreed (s : State) (d c t : Nat) (r : RunTask) (o : TaskOut) :
    (tileOf (tileFreed s d c t r o) d c t).task = none := by
  rw [tileFreed, tileOf, taskProgress_tiles]
  exact task_dropTask _ d c t

/-- The task that a tile holds is spoiled by an uncorrectable sector. -/
theorem task_spoilTask (s : State) (d : Die) (c : Cluster) (t : TileIx) (narrow : Bool) :
    (tileOf (spoilTask s (.task d c t narrow)) d c t).task =
      (tileOf s d c t).task.map (fun r => { r with spoiled := true }) :=
  congrArg Tile.task (tileOf_setTile_same ..)

/-! ### The command -/

section
variable {s x : State} {d : Die} {c : Cluster} {t : TileIx} {r : RunTask} {k : LiveTask}

/-- A task that does not go on, or that must wait, is left as it is. -/
theorem taskComplete_ends (htask : (tileOf s d c t).task = some r) (hlive : liveOfId s d r.id = some k)
    (hstays : taskRuns s d c t r = false ∨ taskWaits s d k r = true) : Ends (.taskComplete d c t) s s := by
  change execTaskComplete d c t s = .next s
  simp only [execTaskComplete, htask, hlive]
  exact if_pos (hstays.imp_left fun hruns => hruns ▸ rfl)

/-- Any other reads its sectors, and is spoiled or completes. -/
theorem taskComplete_settles {bad : Bool} (htask : (tileOf s d c t).task = some r)
    (hlive : liveOfId s d r.id = some k) (hruns : taskRuns s d c t r = true) (hwaits : taskWaits s d k r = false)
    (hread : taskRead s d c t k r = (x, bad)) : Settles (.taskComplete d c t) s
      (if bad then spoilTask x (.task d c t false) else completeTask x d c t k r) := by
  change execTaskComplete d c t s = .next (settle _)
  simp only [execTaskComplete, htask, hlive, hread]
  have hgoes : ¬((!taskRuns s d c t r) = true ∨ taskWaits s d k r = true) := by
    rw [hruns, hwaits]
    decide
  rw [if_neg hgoes]
  cases bad with
  | true => rfl
  | false => rfl

end

/-- Settles O18, by whether the task goes on and whether a sector that it reads is uncorrectable. -/
theorem taskCompletes : Obligations.TaskCompletes := by
  refine ⟨fun d c t r k s => taskComplete_ends, fun d c t r k s x bad htask hlive hruns hwaits hread => ?_⟩
  have hsettles := taskComplete_settles htask hlive hruns hwaits hread
  intro o z trig counts
  refine ⟨fun hbad => ?_, fun hclean => ?_⟩
  · rw [if_pos hbad] at hsettles
    refine ⟨_, hsettles, fun q hq => ?_, rfl, rfl, rfl⟩
    rw [task_spoilTask] at hq
    obtain ⟨q₀, -, rfl⟩ := Option.map_eq_some_iff.mp hq
    rfl
  · rw [if_neg (ne_true_of_eq_false hclean), completeTask_eq] at hsettles
    exact ⟨_, resultReported x d k o, resultTaken x d k o, hsettles, task_tileFreed .., rfl, rfl,
      resultCounted_mem z d k o, resultCounted_boxDrop z d k o, resultCounted_taIdxClamp z d k o,
      resultCounted_taWrClamp z d k o, phaseOf_resultTaken x d k o⟩

end Sys2Proof.Machine
end

section
/-!
PROOFS. What an entry of a task queue wakes: its cluster's gated tiles are to restart, its group wakes and the package
leaves P1.
-/

namespace Sys2Proof.Machine

/-! ### What a wake leaves alone -/

/-- The wake of a cluster's group, which ends P1. -/
def wakeGroup (s : State) (d c : Nat) : State :=
  let s := startWake s d c
  if rg s pwrSlot pwrStateCur = 1 then wg s pwrSlot pwrStateCur 0 else s

/-- A wake demands the restart of the cluster's tiles, and then the cluster's group. -/
theorem wakeServer_eq (s : State) (d c : Nat) : wakeServer s d c = wakeGroup (demandTiles s d c) d c := rfl

/-- What neither the wake of a group nor the end of P1 moves. -/
theorem wakeGroup_frame {β : Type} (part : State → β) (s : State) (d c : Nat)
    (hgated : ∀ u v, part (wg u (dpSlot d) groupGated v) = part u)
    (hwaking : ∀ u m, part { u with waking := m } = part u)
    (hcur : ∀ u v, part (wg u pwrSlot pwrStateCur v) = part u) : part (wakeGroup s d c) = part s := by
  have hgroup : part (startWake s d c) = part s := by
    unfold startWake
    dsimp only
    split
    · exact (hwaking _ _).trans (hgated _ _)
    · rfl
  unfold wakeGroup
  dsimp only
  split
  · exact (hcur _ _).trans hgroup
  · exact hgroup

/-- What neither the restart of a tile nor the wake of its group moves. -/
theorem wakeServer_frame {β : Type} (part : State → β) (s : State) (d c : Nat)
    (htile : ∀ u t, part (setTile u d c t { tileOf u d c t with restart := true }) = part u)
    (hgated : ∀ u v, part (wg u (dpSlot d) groupGated v) = part u)
    (hwaking : ∀ u m, part { u with waking := m } = part u)
    (hcur : ∀ u v, part (wg u pwrSlot pwrStateCur v) = part u) : part (wakeServer s d c) = part s := by
  have htiles : part (demandTiles s d c) = part s := forEach_frame part _ s _ fun u t => by
    dsimp only
    split
    · exact htile u t
    · rfl
  rw [wakeServer_eq, wakeGroup_frame part _ d c hgated hwaking hcur, htiles]

section
variable (s : State) (d c : Nat)

@[simp] theorem wakeServer_mem : (wakeServer s d c).mem = s.mem :=
  wakeServer_frame State.mem s d c (fun _ _ => rfl) (fun _ _ => rfl) (fun _ _ => rfl) fun _ _ => rfl

@[simp] theorem wakeServer_due : (wakeServer s d c).due = s.due :=
  wakeServer_frame State.due s d c (fun _ _ => rfl) (fun _ _ => rfl) (fun _ _ => rfl) fun _ _ => rfl

@[simp] theorem wakeServer_census : (wakeServer s d c).census = s.census :=
  wakeServer_frame State.census s d c (fun _ _ => rfl) (fun _ _ => rfl) (fun _ _ => rfl) fun _ _ => rfl

@[simp] theorem wakeServer_dies : (wakeServer s d c).dies = s.dies :=
  wakeServer_frame State.dies s d c (fun _ _ => rfl) (fun _ _ => rfl) (fun _ _ => rfl) fun _ _ => rfl

@[simp] theorem wakeServer_queues : (wakeServer s d c).queues = s.queues :=
  wakeServer_frame State.queues s d c (fun _ _ => rfl) (fun _ _ => rfl) (fun _ _ => rfl) fun _ _ => rfl

end

/-- Setting a tile that keeps its task changes no tile's task. -/
theorem task_setTile (s : State) (d c t : Nat) {x : Tile} (hx : x.task = (tileOf s d c t).task) (k : Nat) :
    (mget {} (setTile s d c t x).tiles k).task = (mget {} s.tiles k).task := by
  by_cases hk : k = tileKey d c t
  · subst hk
    exact (congrArg Tile.task (tileOf_setTile_same s d c t x)).trans hx
  · rw [setTile_tiles_other s x hk]

/-- A wake takes no task and gives none. -/
@[simp] theorem task_wakeServer (s : State) (d c k : Nat) :
    (mget {} (wakeServer s d c).tiles k).task = (mget {} s.tiles k).task :=
  wakeServer_frame (fun u => (mget {} u.tiles k).task) s d c
    (fun u t => task_setTile u d c t (x := { tileOf u d c t with restart := true }) rfl k) (fun _ _ => rfl)
    (fun _ _ => rfl) fun _ _ => rfl

/-- SPARE_STATUS does not show a wake. -/
theorem rotState_wakeServer (s : State) (d c : Nat) :
    rg (wakeServer s d c) (dcSlot d) spareStatusRotState = rg s (dcSlot d) spareStatusRotState := by
  refine wakeServer_frame (fun u => rg u (dcSlot d) spareStatusRotState) s d c (fun _ _ => rfl)
    (fun u v => rg_wg_other u v ?_) (fun _ _ => rfl) fun u v => rg_wg_other u v ?_
  · simp only [fkey, dcSlot, dpSlot, dieSlot, spareStatusRotState, groupGated]
    omega
  · simp only [fkey, dcSlot, dieSlot, pwrSlot, spareStatusRotState, pwrStateCur]
    omega

/-! ### The restart of gated tiles -/

/-- Tiles of a cluster stand at places of their own. -/
theorem tileKey_ne {d c t u : Nat} (h : t ≠ u) : tileKey d c t ≠ tileKey d c u := by
  simp only [tileKey]
  omega

/-- The demand for a restart, tile by tile. -/
def demandTile (s : State) (d c t : Nat) : State :=
  if (tileOf s d c t).gated then setTile s d c t { tileOf s d c t with restart := true } else s

/-- The demand on one tile leaves another alone. -/
theorem tileOf_demandTile_other (s : State) (d c : Nat) {t u : Nat} (h : u ≠ t) :
    tileOf (demandTile s d c t) d c u = tileOf s d c u := by
  unfold demandTile
  split
  · exact setTile_tiles_other s _ (tileKey_ne h)
  · rfl

/-- The demand on a cluster goes through its tiles. -/
theorem demandTiles_eq (s : State) (d c : Nat) :
    demandTiles s d c = forEach (List.range 16) s (fun s t => demandTile s d c t) := rfl

/-- A gated tile that the demand has reached is to restart, and stays so. -/
theorem restart_forEach_demandTile {d c u : Nat} (ts : List Nat) (s : State)
    (hgated : (tileOf s d c u).gated = true) (hreached : u ∈ ts ∨ (tileOf s d c u).restart = true) :
    (tileOf (forEach ts s (fun s t => demandTile s d c t)) d c u).restart = true := by
  induction ts generalizing s with
  | nil => exact hreached.resolve_left List.not_mem_nil
  | cons t ts ih =>
    change (tileOf (forEach ts (demandTile s d c t) _) d c u).restart = true
    by_cases hut : u = t
    · subst hut
      have hself : tileOf (demandTile s d c u) d c u = { tileOf s d c u with restart := true } := by
        rw [demandTile, if_pos hgated, tileOf_setTile_same]
      exact ih _ (by rw [hself]; exact hgated) (.inr (by rw [hself]))
    · have hother := tileOf_demandTile_other s d c hut
      refine ih _ (by rw [hother]; exact hgated) ?_
      rw [hother]
      exact hreached.imp_left fun hmem => (List.mem_cons.mp hmem).resolve_left hut

/-- An enqueue on a cluster demands the restart of each of its gated tiles. -/
theorem restart_wakeServer {s : State} {d c : Nat} {t : TileIx} (hgated : (tileOf s d c t).gated = true) :
    (tileOf (wakeServer s d c) d c t).restart = true := by
  have htile : tileOf (wakeServer s d c) d c t = tileOf (demandTiles s d c) d c t :=
    wakeGroup_frame (fun u => tileOf u d c t) _ d c (fun _ _ => rfl) (fun _ _ => rfl) fun _ _ => rfl
  rw [htile, demandTiles_eq]
  exact restart_forEach_demandTile (List.range 16) s hgated (.inl (List.mem_range.mpr t.isLt))

end Sys2Proof.Machine
end

section
/-!
PROOFS. A dispatch: the task is listed with what it depends on, and is held, enters its HOME queue, or waits for room
in it.
-/

namespace Sys2Proof.Machine

/-! ### A task enters its HOME queue -/

/-- A task as a queue holds it. -/
def asQueued (t : LiveTask) : LiveTask := { t with st := .queued }

/-- Its entry stands, and its task is listed as queued; the wake is still to come. -/
def entryAdded (s : State) (d : Nat) (t : LiveTask) : State :=
  let home := mapPhys s d t.home
  updLive (setQueue s d home (queueOf s d home ++ [t.id])) d t.id asQueued

/-- An entry wakes the cluster of its queue. -/
theorem enqueue_eq (s : State) (d : Nat) (t : LiveTask) :
    enqueue s d t = wakeServer (entryAdded s d t) d (mapPhys s d t.home) := rfl

section
variable (s : State) (d : Nat) (t : LiveTask)

@[simp] theorem enqueue_mem : (enqueue s d t).mem = s.mem := wakeServer_mem ..

@[simp] theorem enqueue_due : (enqueue s d t).due = s.due := wakeServer_due ..

@[simp] theorem enqueue_census : (enqueue s d t).census = s.census := wakeServer_census ..

/-- An enqueue moves no task to or from a tile. -/
@[simp] theorem task_enqueue (k : Nat) :
    (mget {} (enqueue s d t).tiles k).task = (mget {} s.tiles k).task := task_wakeServer ..

/-- An enqueue changes how its own task is listed, and no more of the die. -/
theorem die_enqueue : die (enqueue s d t) d =
    { die s d with live := updFirst (fun u => u.id = t.id) asQueued (die s d).live } := by
  rw [enqueue_eq, die, wakeServer_dies]
  exact die_updDie_same _ d _

/-- The entry stands at the tail of the HOME queue. -/
theorem queueOf_enqueue_home :
    queueOf (enqueue s d t) d (mapPhys s d t.home) = queueOf s d (mapPhys s d t.home) ++ [t.id] := by
  rw [enqueue_eq, queueOf, wakeServer_queues]
  exact queueOf_setQueue_same s d _ _

/-- Every other queue is as it was. -/
theorem queues_enqueue_other {k : Nat} (hk : k ≠ d * 33 + mapPhys s d t.home) :
    mget [] (enqueue s d t).queues k = mget [] s.queues k := by
  rw [enqueue_eq, wakeServer_queues]
  exact mget_mset_other _ _ _ hk

end

/-- Changing the first match of a list whose last element alone matches. -/
theorem updFirst_append_singleton {α : Type} {p : α → Bool} (f : α → α) {xs : List α} {x : α}
    (hxs : ∀ y ∈ xs, p y = false) (hx : p x = true) : updFirst p f (xs ++ [x]) = xs ++ [f x] := by
  induction xs with
  | nil => simp [updFirst, hx]
  | cons y ys ih =>
    have hys := ih fun z hz => hxs z (List.mem_cons_of_mem y hz)
    simp [updFirst, hxs y List.mem_cons_self, hys]

/-! ### The parts of a dispatch -/

/-- The tasks that the dispatch check lists beside a task. -/
def otherTasks (s : State) (d : Nat) (t : LiveTask) : List LiveTask :=
  (die s d).live.filter (fun u => u.id ≠ t.id)

/-- A dispatched task is numbered and listed. -/
def taskAdded (s : State) (d : Nat) (t : LiveTask) : State :=
  updDie s d (fun x => { x with
    nextId := max x.nextId (t.id + 1), live := x.live.filter (fun u => u.id ≠ t.id) ++ [t] })

/-- A phase that has dispatched a task. -/
def phaseAdvanced (t : LiveTask) (p : Phase) : Phase := { p with next := p.next + 1, last := some t.index }

/-- Its phase and the sequencer's engine count it. -/
def taskListed (s : State) (d ph : Nat) (t : LiveTask) : State :=
  retire (updPhase (taskAdded s d t) d ph (phaseAdvanced t)) (seqSlot d)

/-- Where a listed task goes. -/
def taskPlaced (s : State) (d : Nat) (t : LiveTask) : State :=
  if isBlocked s d t then incr s (dcSlot d) taskHeld
  else if hasRoom s d t then enqueue s d t else s

/-- A dispatch lists the task and places it. -/
theorem dispatchTask_eq (s : State) (d ph : Nat) : dispatchTask s d ph =
    let t := checkedTask s d (nextWork s d ph)
    taskPlaced (taskListed s d ph t) d t := rfl

/-- What neither way of a listed task moves. -/
theorem taskPlaced_frame {β : Type} (part : State → β) (s : State) (d : Nat) (t : LiveTask)
    (hheld : part (incr s (dcSlot d) taskHeld) = part s) (hqueued : part (enqueue s d t) = part s) :
    part (taskPlaced s d t) = part s := by
  unfold taskPlaced
  split
  · exact hheld
  · split
    · exact hqueued
    · rfl

section
variable (s : State) (d ph : Nat) (t : LiveTask)

/-- Listing a task changes its die and the counts of the sequencer's engine alone. With the state taken apart, each
field is compared by itself. -/
theorem taskListed_frame : taskListed s d ph t =
    { s with dies := (taskListed s d ph t).dies, tremor := (taskListed s d ph t).tremor } := by
  cases s
  rfl

@[simp] theorem taskListed_mem : (taskListed s d ph t).mem = s.mem := by rw [taskListed_frame]

@[simp] theorem taskListed_due : (taskListed s d ph t).due = s.due := by rw [taskListed_frame]

@[simp] theorem taskListed_census : (taskListed s d ph t).census = s.census := by rw [taskListed_frame]

@[simp] theorem taskListed_tiles : (taskListed s d ph t).tiles = s.tiles := by rw [taskListed_frame]

@[simp] theorem taskListed_queues : (taskListed s d ph t).queues = s.queues := by rw [taskListed_frame]

@[simp] theorem taskListed_regs : (taskListed s d ph t).regs = s.regs := by rw [taskListed_frame]

/-- Listing a task leaves CLUSTER_MAP alone. -/
theorem mapPhys_taskListed (l : Nat) : mapPhys (taskListed s d ph t) d l = mapPhys s d l :=
  rg_congr (taskListed_regs ..) _ _

/-- A die whose phase was changed is as it was but for its sequencer. -/
theorem die_updPhase (f : Phase → Phase) :
    die (updPhase s d ph f) d = { die s d with seq := seqOf (updPhase s d ph f) d } := by
  rw [seqOf, updPhase, updSeq, die_updDie_same]

theorem nextId_taskListed : (die (taskListed s d ph t) d).nextId = max (die s d).nextId (t.id + 1) := by
  change (die (updPhase (taskAdded s d t) d ph (phaseAdvanced t)) d).nextId = _
  rw [die_updPhase, taskAdded, die_updDie_same]

theorem live_taskListed : (die (taskListed s d ph t) d).live = otherTasks s d t ++ [t] := by
  change (die (updPhase (taskAdded s d t) d ph (phaseAdvanced t)) d).live = _
  rw [die_updPhase, taskAdded, die_updDie_same]
  rfl

theorem phaseOf_taskListed : phaseOf (taskListed s d ph t) d ph = phaseAdvanced t (phaseOf s d ph) := by
  change phaseOf (updPhase (taskAdded s d t) d ph (phaseAdvanced t)) d ph = _
  have hphase : phaseOf (taskAdded s d t) d ph = phaseOf s d ph := by
    rw [phaseOf, seqOf, taskAdded, die_updDie_same]
    rfl
  rw [phaseOf_updPhase_same, hphase]

/-- A listed task is blocked by those listed beside it. -/
theorem isBlocked_taskListed :
    isBlocked (taskListed s d ph t) d t = (otherTasks s d t ++ [t]).any (holdsBack t) := by
  rw [isBlocked, liveTasks, live_taskListed]

/-- Listing a task moves no queue. -/
theorem hasRoom_taskListed : hasRoom (taskListed s d ph t) d t = hasRoom s d t := by
  cases s
  rfl

end

/-! ### Where the listed task goes -/

section
variable {s : State} {d : Nat} {t : LiveTask}

/-- A blocked task is counted in TASK_HELD. -/
theorem taskPlaced_of_blocked (h : isBlocked s d t = true) : taskPlaced s d t = incr s (dcSlot d) taskHeld :=
  if_pos h

/-- A task that is not blocked enters its queue where that has room. -/
theorem taskPlaced_of_room (h : isBlocked s d t = false) (hroom : hasRoom s d t = true) :
    taskPlaced s d t = enqueue s d t := by
  rw [taskPlaced, if_neg (ne_true_of_eq_false h), if_pos hroom]

/-- It waits as it is listed where its queue has none. -/
theorem taskPlaced_of_no_room (h : isBlocked s d t = false) (hroom : hasRoom s d t = false) :
    taskPlaced s d t = s := by
  rw [taskPlaced, if_neg (ne_true_of_eq_false h), if_neg (ne_true_of_eq_false hroom)]

end

/-- A die whose task is placed is as it was but for the tasks of the check. -/
theorem die_taskPlaced (s : State) (d : Nat) (t : LiveTask) :
    die (taskPlaced s d t) d = { die s d with live := (die (taskPlaced s d t) d).live } := by
  unfold taskPlaced
  split
  · rfl
  · split
    · rw [die_enqueue]
    · rfl

theorem nextId_taskPlaced (s : State) (d : Nat) (t : LiveTask) :
    (die (taskPlaced s d t) d).nextId = (die s d).nextId := by rw [die_taskPlaced]

theorem phaseOf_taskPlaced (s : State) (d : Nat) (t : LiveTask) (ph : Nat) :
    phaseOf (taskPlaced s d t) d ph = phaseOf s d ph := by
  rw [phaseOf, seqOf, die_taskPlaced]
  rfl

section
variable (s : State) (d ph : Nat) (t : LiveTask)

/-- A blocked task is listed and counted, and nothing else changes. -/
theorem held_frame : incr (taskListed s d ph t) (dcSlot d) taskHeld = { s with
    dies := (incr (taskListed s d ph t) (dcSlot d) taskHeld).dies
    regs := (incr (taskListed s d ph t) (dcSlot d) taskHeld).regs
    tremor := (incr (taskListed s d ph t) (dcSlot d) taskHeld).tremor } := by
  cases s
  rfl

/-- TASK_HELD counts it. -/
theorem taskHeld_held : rg (incr (taskListed s d ph t) (dcSlot d) taskHeld) (dcSlot d) taskHeld =
    min (rg s (dcSlot d) taskHeld + 1) (2 ^ 32 - 1) := by
  rw [rg_incr_same, rg_congr (taskListed_regs ..)]
  rfl

/-- An enqueue of the task that was listed last marks it as queued. -/
theorem live_listed : (die (enqueue (taskListed s d ph t) d t) d).live =
    otherTasks s d t ++ [asQueued t] := by
  rw [die_enqueue, live_taskListed]
  refine updFirst_append_singleton asQueued (fun u hu => ?_) (decide_eq_true rfl)
  exact decide_eq_false (of_decide_eq_true (List.mem_filter.mp hu).2)

/-- A listed task's entry stands at the tail of its HOME queue. -/
theorem queueOf_listed_home : queueOf (enqueue (taskListed s d ph t) d t) d (mapPhys s d t.home) =
    queueOf s d (mapPhys s d t.home) ++ [t.id] := by
  have hhome := queueOf_enqueue_home (taskListed s d ph t) d t
  rw [mapPhys_taskListed] at hhome
  rw [hhome, queueOf, taskListed_queues, queueOf]

/-- Every other queue is as it was. -/
theorem queues_listed_other {k : Nat} (hk : k ≠ d * 33 + mapPhys s d t.home) :
    mget [] (enqueue (taskListed s d ph t) d t).queues k = mget [] s.queues k := by
  rw [← mapPhys_taskListed s d ph t] at hk
  rw [queues_enqueue_other _ _ _ hk, taskListed_queues]

end

/-! ### The command -/

section
variable {s : State} {d : Die} {ph : Nat}

/-- A die that may not dispatch, or has nothing to, is left as it is. -/
theorem taskDispatch_ends (h : dieRuns s d = false ∨ mayDispatch s d = false ∨ dispatchPhase s d = none) :
    Ends (.taskDispatch d) s s := by
  change execTaskDispatch d s = .next s
  unfold execTaskDispatch
  split
  · rfl
  · next hgo =>
    simp only [Bool.not_eq_true', not_or, Bool.not_eq_false] at hgo
    obtain ⟨hruns, hmay⟩ := hgo
    have hphase : dispatchPhase s d = none := by simpa [hruns, hmay] using h
    rw [hphase]

section
variable (hruns : dieRuns s d = true) (hmay : mayDispatch s d = true) (hphase : dispatchPhase s d = some ph)
include hruns hmay hphase

/-- A dispatch waits for what it reads; then it checks it and dispatches. -/
theorem exec_taskDispatch : exec (.taskDispatch d) s = .next (if waitsDie s d (dispatchReads s d ph) then s
    else settle (dispatchTask (checkDie s d (dispatchReads s d ph)) d ph)) := by
  change execTaskDispatch d s = _
  have hgo : ¬((!dieRuns s d) = true ∨ (!mayDispatch s d) = true) := by simp [hruns, hmay]
  rw [execTaskDispatch, if_neg hgo, hphase, apply_ite Host.Outcome.next]

theorem taskDispatch_ends_of_waits (hwaits : waitsDie s d (dispatchReads s d ph) = true) :
    Ends (.taskDispatch d) s s := by
  have hexec := exec_taskDispatch hruns hmay hphase
  rwa [if_pos hwaits] at hexec

/-- A dispatch that need not wait checks what it reads, and lists and places the task. -/
theorem taskDispatch_settles (hwaits : waitsDie s d (dispatchReads s d ph) = false) :
    let x := checkDie s d (dispatchReads s d ph)
    let t := checkedTask x d (nextWork x d ph)
    Settles (.taskDispatch d) s (taskPlaced (taskListed x d ph t) d t) := by
  have hexec := exec_taskDispatch hruns hmay hphase
  rwa [if_neg (ne_true_of_eq_false hwaits), dispatchTask_eq] at hexec

end
end

/-- Settles O16: a dispatch lists its task and places it, by whether it is blocked and whether its queue has room. -/
theorem taskDispatches : Obligations.TaskDispatches := by
  refine ⟨fun d s => taskDispatch_ends, fun d ph s hruns hmay hphase => ?_⟩
  intro reads x t others waits home
  refine ⟨taskDispatch_ends_of_waits hruns hmay hphase, fun hreads => ⟨rfl, ?_⟩⟩
  have hblocked : isBlocked (taskListed x d ph t) d t = waits := isBlocked_taskListed x d ph t
  have hroom : hasRoom (taskListed x d ph t) d t = hasRoom x d t := hasRoom_taskListed x d ph t
  have hsettles : Settles (.taskDispatch d) s (taskPlaced (taskListed x d ph t) d t) :=
    taskDispatch_settles hruns hmay hphase hreads
  -- The rest holds of any task that is listed and placed in any state.
  clear_value t x
  refine ⟨taskPlaced (taskListed x d ph t) d t, hsettles, ?_, ?_, ?_, ?_, ?_,
    fun k => ?_, fun hwaits => ?_, fun hwaits hfree => ?_, fun hwaits hfull => ?_⟩
  · exact (nextId_taskPlaced ..).trans (nextId_taskListed ..)
  · exact (phaseOf_taskPlaced ..).trans (phaseOf_taskListed ..)
  · exact (taskPlaced_frame State.mem _ d t (incr_mem ..) (enqueue_mem ..)).trans (taskListed_mem ..)
  · exact (taskPlaced_frame State.due _ d t (incr_due ..) (enqueue_due ..)).trans (taskListed_due ..)
  · exact (taskPlaced_frame State.census _ d t (incr_census ..) (enqueue_census ..)).trans (taskListed_census ..)
  · refine (taskPlaced_frame (fun u => (mget {} u.tiles k).task) _ d t ?_ (task_enqueue ..)).trans ?_
    · rw [incr_tiles]
    · rw [taskListed_tiles]
  · rw [taskPlaced_of_blocked (hblocked.trans hwaits)]
    exact ⟨live_taskListed x d ph t, taskHeld_held .., held_frame x d ph t⟩
  · rw [taskPlaced_of_room (hblocked.trans hwaits) (hroom.trans hfree)]
    exact ⟨live_listed x d ph t, queueOf_listed_home x d ph t, fun k => queues_listed_other x d ph t⟩
  · rw [taskPlaced_of_no_room (hblocked.trans hwaits) (hroom.trans hfull)]
    exact ⟨live_taskListed x d ph t, taskListed_frame x d ph t⟩

end Sys2Proof.Machine
end

section
/-!
PROOFS. The gating of idle tiles and of quiet cluster groups, and the wakes in order of demand.
-/

namespace Sys2Proof.Machine

/-! ### Clock gates of tiles -/

section
variable {s : State} {d : Die} {c : Cluster} {t : TileIx}

/-- An idle tile with nothing to take gates its clock. -/
theorem tileClockGate_ends (hidle : tileIdle s d c t = true) (hwork : workFor s d c = none) :
    Ends (.tileClockGate d c t) s (setTile s d c t { tileOf s d c t with gated := true, restart := false }) :=
  if_pos ⟨hidle, by rw [hwork]; rfl⟩

/-- A gated tile whose restart is demanded restarts its clock. -/
theorem tileRestart_ends (hgated : (tileOf s d c t).gated = true) (hrestart : (tileOf s d c t).restart = true)
    (hserves : clusterServes s d c = true) :
    Ends (.tileRestart d c t) s (setTile s d c t { tileOf s d c t with gated := false, restart := false }) :=
  if_pos ⟨hgated, hrestart, hserves⟩

/-- A tile that runs, or whose restart nothing has demanded, is left as it is. -/
theorem tileRestart_ends_self (h : (tileOf s d c t).gated = false ∨ (tileOf s d c t).restart = false) :
    Ends (.tileRestart d c t) s s := by
  refine if_neg fun hgo => ?_
  obtain ⟨hgated, hrestart, -⟩ := hgo
  simp [hgated, hrestart] at h

end

/-! ### The order of wakes -/

/-- The first die of a turn that has an entry gives the group that wakes: where every entry is one group's, it is that
group's die, whosever turn it is. -/
theorem findSome?_turn_of_all_eq {key turn : Nat} {ks : List Nat} (hkey : key / 11 < 4) (hmem : key ∈ ks)
    (hall : ∀ k ∈ ks, k = key) :
    ((List.range 4).map (fun i => (turn + i) % 4)).findSome? (fun d => ks.find? (fun k => k / 11 = d)) =
      some key := by
  have hturn : key / 11 ∈ (List.range 4).map (fun i => (turn + i) % 4) :=
    List.mem_map.mpr ⟨(key / 11 + 4 - turn % 4) % 4, List.mem_range.mpr (by omega), by omega⟩
  obtain ⟨a, ha⟩ : ∃ a, ((List.range 4).map (fun i => (turn + i) % 4)).findSome?
      (fun d => ks.find? (fun k => k / 11 = d)) = some a := by
    rw [← Option.isSome_iff_exists, List.findSome?_isSome_iff]
    exact ⟨_, hturn, List.find?_isSome.mpr ⟨key, hmem, decide_eq_true rfl⟩⟩
  obtain ⟨d, -, hfind⟩ := List.exists_of_findSome?_eq_some ha
  rw [ha, hall a (List.mem_of_find?_eq_some hfind)]

/-- A demand on a die that runs, which came before those of every other group, is served next. -/
theorem nextReady_of_first {s : State} {d : Die} {g : Group} {t : Nat} (hruns : performs s (dpSlot d) = true)
    (hmem : (d.val * 11 + g.val, t) ∈ s.waking)
    (hfirst : ∀ k v, (k, v) ∈ s.waking → k ≠ d.val * 11 + g.val → t < v) :
    nextReady s = some (d.val * 11 + g.val) := by
  have hdie : (d.val * 11 + g.val) / 11 = d.val := by omega
  have hwaker : (d.val * 11 + g.val, t) ∈ wakers s :=
    List.mem_filter.mpr ⟨hmem, by simpa [hdie] using hruns⟩
  obtain ⟨m, hm⟩ : ∃ m, ((wakers s).map Prod.snd).min? = some m :=
    Option.isSome_iff_exists.mp (List.isSome_min?_of_mem (List.mem_map_of_mem hwaker))
  obtain ⟨hin, hmin⟩ := List.min?_eq_some_iff.mp hm
  have hmt : m ≤ t := hmin t (List.mem_map_of_mem hwaker)
  have hown : ∀ k, (k, m) ∈ wakers s → k = d.val * 11 + g.val := fun k hk =>
    Decidable.byContradiction fun hother =>
      absurd (hfirst k m (List.mem_filter.mp hk).1 hother) (Nat.not_lt.mpr hmt)
  obtain ⟨⟨k, m'⟩, hkm, rfl⟩ := List.mem_map.mp hin
  unfold nextReady
  rw [hm]
  refine findSome?_turn_of_all_eq (by omega) ?_ fun j hj => ?_
  · exact List.mem_filterMap.mpr ⟨(k, m'), hkm, by simp [hown k hkm]⟩
  · obtain ⟨⟨i, v⟩, hiv, hij⟩ := List.mem_filterMap.mp hj
    simp only [Option.ite_none_right_eq_some, Option.some.injEq] at hij
    obtain ⟨rfl, rfl⟩ := hij
    exact hown i hiv

/-! ### Power gates of groups -/

/-- A group that is shown as gated. -/
def groupGatedNow (s : State) (d g : Nat) : State :=
  wg s (dpSlot d) groupGated (setBits (rg s (dpSlot d) groupGated) g 1 1)

/-- A gated group leaves the power state to be judged as it was. -/
theorem pwrStateCur_groupGatedNow (s : State) (d g : Nat) :
    rg (groupGatedNow s d g) pwrSlot pwrStateCur = rg s pwrSlot pwrStateCur := by
  refine rg_wg_other s _ ?_
  simp only [fkey, dpSlot, dieSlot, pwrSlot, pwrStateCur, groupGated]
  omega

/-- A quiet group that is on is gated; where it was the last, the package goes to P1. -/
theorem clusterGroupGate_ends {s : State} {d : Die} {g : Group} (hruns : performs s (dpSlot d) = true)
    (hgated : isGated s d g = false) (hwaking : isWaking s d g = false)
    (hquiet : ∀ k < 3, clusterQuiet s d (3 * g.val + k) = true) :
    let u := groupGatedNow s d g
    Ends (.clusterGroupGate d g) s
      (if rg s pwrSlot pwrStateCur = 0 ∧ allGated u = true ∧ noTask u = true then wg u pwrSlot pwrStateCur 1
       else u) := by
  intro u
  have hclusters : [3 * g.val, 3 * g.val + 1, 3 * g.val + 2].all (clusterQuiet s d) = true := by
    simpa using And.intro (hquiet 0 (by omega)) ⟨hquiet 1 (by omega), hquiet 2 (by omega)⟩
  have hgo : performs s (dpSlot d) = true ∧ (!isGated s d g) = true ∧ (!isWaking s d g) = true ∧
      [3 * g.val, 3 * g.val + 1, 3 * g.val + 2].all (clusterQuiet s d) = true :=
    ⟨hruns, by rw [hgated]; rfl, by rw [hwaking]; rfl, hclusters⟩
  change execClusterGroupGate d g s = _
  rw [← pwrStateCur_groupGatedNow s d g, execClusterGroupGate, if_pos hgo, apply_ite Host.Outcome.next]
  rfl

/-- Settles O19: the tiles' gates and the groups' by the conditions of their commands, the order of wakes by the
earliest demand. -/
theorem idleTilesGate : Obligations.IdleTilesGate := by
  refine ⟨fun d c t s => ⟨tileClockGate_ends, tileRestart_ends, tileRestart_ends_self⟩,
    fun d c s t ti hhome hgated => ?_,
    fun d g s => ⟨fun hnext => ⟨groupReadyNow s d g, if_pos hnext, rfl⟩, fun hnext => if_neg hnext,
      fun t => nextReady_of_first, clusterGroupGate_ends⟩⟩
  subst hhome
  exact restart_wakeServer hgated

end Sys2Proof.Machine
end

section
/-!
PROOFS. The spare cluster: a rotation starts and ends, an online test of the spare passes or fails, and a cluster is
fenced.
-/

namespace Sys2Proof.Machine

/-! ### The fields of a die control page -/

/-- A one set at a place reads as one. -/
theorem bit_setBits_one {n k w : Nat} (hk : k < w) : bit (setBits n k 1 1 % 2 ^ w) k = true := by
  have hpos : 0 < 2 ^ k := Nat.two_pow_pos k
  have hsplit : setBits n k 1 1 = n % 2 ^ k + 2 ^ k * (n / 2 ^ k - n / 2 ^ k % 2 + 1) := by
    have hdiv := Nat.div_add_mod n (2 ^ k)
    have hle : n / 2 ^ k % 2 ≤ n / 2 ^ k := Nat.mod_le _ _
    simp only [setBits, bits, Nat.pow_one, Nat.reduceMod, Nat.one_mul]
    rw [Nat.mul_add, Nat.mul_sub, Nat.mul_one, Nat.mul_comm (n / 2 ^ k % 2)]
    have hmul : 2 ^ k * (n / 2 ^ k % 2) ≤ 2 ^ k * (n / 2 ^ k) := Nat.mul_le_mul_left _ hle
    omega
  rw [bit, Nat.testBit_mod_two_pow, decide_eq_true hk, Bool.true_and, Nat.testBit_eq_decide_div_mod_eq, hsplit,
    Nat.add_mul_div_left _ _ hpos, Nat.div_eq_of_lt (Nat.mod_lt _ hpos)]
  exact decide_eq_true (by omega)

/-- A marked cluster has failed. -/
theorem clusterFailed_markCluster (s : State) (d c : Nat) : clusterFailed (markCluster s d c) d c = true := by
  unfold clusterFailed markCluster
  by_cases hc : c < 32
  · rw [if_pos hc, if_pos hc, rg_wg_same]
    exact bit_setBits_one hc
  · rw [if_neg hc, if_neg hc, rgB, rg_wg_same]
    rfl

/-- Marking a cluster changes CLUSTER_FAILED alone. -/
theorem markCluster_frame (s : State) (d c : Nat) :
    markCluster s d c = { s with regs := (markCluster s d c).regs } := by
  cases s
  unfold markCluster
  split
  · rfl
  · rfl

/-- SPARE_STATUS as a rotation's end or a lost spare leaves it. -/
def spareShown (s : State) (d spare rotState : Nat) : State :=
  wg (wg s (dcSlot d) spareStatusSpare spare) (dcSlot d) spareStatusRotState rotState

section
variable (s : State) (d spare rotState : Nat)

@[simp] theorem spareShown_due : (spareShown s d spare rotState).due = s.due := rfl

@[simp] theorem spareShown_dies : (spareShown s d spare rotState).dies = s.dies := rfl

theorem spareOf_spareShown : spareOf (spareShown s d spare rotState) d = spare % 2 ^ 6 := by
  have hplace : fkey (dcSlot d) spareStatusSpare ≠ fkey (dcSlot d) spareStatusRotState := by
    simp only [fkey, spareStatusSpare, spareStatusRotState]
    omega
  rw [spareOf, spareShown, rg_wg_other _ _ hplace]
  exact rg_wg_same ..

theorem rotState_spareShown :
    rg (spareShown s d spare rotState) (dcSlot d) spareStatusRotState = rotState % 2 ^ 2 := rg_wg_same ..

/-- SPARE_STATUS stands before the other registers of the page that a fence moves. -/
theorem rg_spareShown_other {f : Fld} (hoff : spareStatusSpare.off + 4 ≤ f.off) :
    rg (spareShown s d spare rotState) (dcSlot d) f = rg s (dcSlot d) f := by
  refine (rg_wg_other _ _ ?_).trans (rg_wg_other _ _ ?_)
  · simp only [fkey, spareStatusRotState, spareStatusSpare] at hoff ⊢
    omega
  · simp only [fkey, spareStatusSpare] at hoff ⊢
    omega

theorem clusterFailed_spareShown (c : Nat) :
    clusterFailed (spareShown s d spare rotState) d c = clusterFailed s d c := by
  rw [clusterFailed, rgB, rg_spareShown_other _ _ _ _ (by decide), rg_spareShown_other _ _ _ _ (by decide)]
  rfl

end

/-! ### The loss of the spare -/

/-- A die without a spare shows none. -/
theorem noSpare_eq (s : State) (d : Nat) :
    noSpare s d = spareShown (updDie s d (fun x => { x with spareTested := false })) d 0x3F 2 := rfl

section
variable (s : State) (d c : Nat)

theorem clusterFailed_failSpare : clusterFailed (failSpare s d c) d c = true := by
  change clusterFailed (noSpare (markCluster s d c) d) d c = true
  rw [noSpare_eq, clusterFailed_spareShown]
  exact clusterFailed_markCluster s d c

theorem spareOf_failSpare : spareOf (failSpare s d c) d = 0x3F := by
  change spareOf (noSpare (markCluster s d c) d) d = 0x3F
  rw [noSpare_eq]
  exact (spareOf_spareShown ..).trans rfl

theorem spareTested_failSpare : (die (failSpare s d c) d).spareTested = false :=
  congrArg DieSt.spareTested (die_updDie_same _ d fun x => { x with spareTested := false })

theorem due_failSpare : (failSpare s d c).due = s.due ++ [{ slot := dcSlot d, src := 2 }] := by
  have hmark : (markCluster s d c).due = s.due := by rw [markCluster_frame]
  rw [← hmark]
  rfl

end

/-! ### The start of a rotation -/

/-- CLUSTER_MAP is all that a new cluster of a logical index changes. -/
theorem remap_frame (s : State) (d from_ into : Nat) :
    remap s d from_ into = { s with regs := (remap s d from_ into).regs } :=
  forEach_regs _ s _ fun t l => by
    split
    · rfl
    · rfl

@[simp] theorem remap_dies (s : State) (d from_ into : Nat) : (remap s d from_ into).dies = s.dies := by
  rw [remap_frame]

/-- A die in its next rotation, for which the spare's test is spent. -/
def inRotation (s : State) (d out l : Nat) (x : DieSt) : DieSt :=
  { x with rot := some ⟨spareOf s d, out, l⟩, rotCount := (die s d).rotCount + 1, spareTested := false }

/-- A rotation as its die notes it, with the time from which the incoming cluster serves. -/
def rotationNoted (s : State) (d out l : Nat) : State :=
  { updDie s d (inRotation s d out l) with served := mset 0 s.served (d * 33 + spareOf s d) ((die s d).rotCount + 1) }

/-- Its logical index is the incoming cluster's, and SPARE_STATUS shows it. -/
def rotationShown (s : State) (d out l : Nat) : State :=
  wg (remap (rotationNoted s d out l) d out (spareOf s d)) (dcSlot d) spareStatusRotState 1

/-- A rotation that starts wakes the incoming cluster where tasks wait for the outgoing one. -/
theorem startRotation_of_find {s : State} {d out l : Nat}
    (hl : (List.range 32).find? (fun l => mapPhys s d l = out) = some l) : startRotation s d out =
      if (queueOf (rotationShown s d out l) d out).isEmpty then rotationShown s d out l
      else wakeServer (rotationShown s d out l) d (spareOf s d) := by
  simp only [startRotation, hl]
  rfl

section
variable (s : State) (d out l : Nat)

/-- Before the wake a rotation has changed registers, its die and the order of service alone. -/
theorem rotationShown_frame : rotationShown s d out l = { s with
    regs := (rotationShown s d out l).regs, dies := (rotationShown s d out l).dies
    served := (rotationShown s d out l).served } := by
  unfold rotationShown
  rw [remap_frame]
  generalize (remap (rotationNoted s d out l) d out (spareOf s d)).regs = regs
  cases s
  rfl

@[simp] theorem rotationShown_queues : (rotationShown s d out l).queues = s.queues := by rw [rotationShown_frame]

@[simp] theorem rotationShown_mem : (rotationShown s d out l).mem = s.mem := by rw [rotationShown_frame]

@[simp] theorem rotationShown_tiles : (rotationShown s d out l).tiles = s.tiles := by rw [rotationShown_frame]

theorem die_rotationShown : die (rotationShown s d out l) d = inRotation s d out l (die s d) := by
  rw [rotationShown, die, wg_dies, remap_dies]
  exact die_updDie_same s d (inRotation s d out l)

theorem rotState_rotationShown : rg (rotationShown s d out l) (dcSlot d) spareStatusRotState = 1 := rg_wg_same ..

end

section
variable {s : State} {d out l : Nat} (hl : (List.range 32).find? (fun l => mapPhys s d l = out) = some l)
include hl

/-- What a wake does not move, the start of a rotation leaves as it shows the rotation. -/
theorem startRotation_frame {β : Type} (part : State → β)
    (hwake : ∀ u c, part (wakeServer u d c) = part u) :
    part (startRotation s d out) = part (rotationShown s d out l) := by
  rw [startRotation_of_find hl]
  split
  · rfl
  · exact hwake _ _

end

section
variable {s : State} {d : Die}

/-- A rotation starts from a tested spare that is under no test. -/
theorem rotationStart_ends {out : Nat} (hruns : performs s (dcSlot d) = true) (hrot : (die s d).rot = none)
    (htested : (die s d).spareTested = true) (hspare : spareOf s d ≠ 0x3F)
    (htest : underTest s d (spareOf s d) = false) (hen : rg s (dcSlot d) rotateCtlEn = 1)
    (hout : longestServing s d = some out) : Ends (.rotationStart d) s (startRotation s d out) := by
  change execRotationStart d s = _
  have hgo : canRotate s d = true ∧ rgB s (dcSlot d) rotateCtlEn = true := by
    simp [canRotate, rgB, hruns, hrot, htested, hspare, htest, hen]
  rw [execRotationStart, if_pos hgo, hout]

/-- A spare under test keeps out of a rotation. -/
theorem rotationStart_ends_self (htest : underTest s d (spareOf s d) = true) : Ends (.rotationStart d) s s := by
  refine if_neg fun hgo => ?_
  obtain ⟨hcan, -⟩ := hgo
  simp [canRotate, htest] at hcan

/-! ### The end of a rotation -/

/-- The outgoing cluster becomes the spare. -/
theorem rotationComplete_ends {r : Rotation} (hruns : performs s (dcSlot d) = true) (hrot : (die s d).rot = some r)
    (hdone : outgoingDone s d r.outgoing = true) (hfailed : clusterFailed s d r.outgoing = false) :
    Ends (.rotationComplete d) s
      (spareShown (updDie s d (fun x => { x with rot := none })) d r.outgoing 0) := by
  have hkept : clusterFailed (updDie s d (fun x => { x with rot := none })) d r.outgoing = false := hfailed
  change execRotationComplete d s = _
  rw [execRotationComplete, hrot]
  dsimp only
  rw [if_pos ⟨hruns, hdone⟩, endRotation, hkept, if_neg Bool.false_ne_true]
  rfl

/-! ### Online tests of the spare -/

/-- A CLUSTER test of the spare preempts its online test. -/
theorem onlineTestPassEnd_ends_self (pass : Bool) (htest : underTest s d (spareOf s d) = true) :
    Ends (.onlineTestPassEnd d pass) s s := if_pos (.inr (.inr (.inl htest)))

/-- A spare that has passed its online test is tested, and the pass is counted. -/
def onlinePassed (s : State) (d : Die) : State :=
  updDie (wg s stSlot (onlinePasses d) (rg s stSlot (onlinePasses d) + 1)) d (fun x => { x with spareTested := true })

section
variable (hruns : performs s (dcSlot d) = true) (hspare : spareOf s d ≠ 0x3F) (hrot : (die s d).rot = none)
  (htest : underTest s d (spareOf s d) = false)
include hruns hspare hrot htest

theorem exec_onlineTestPassEnd (pass : Bool) : exec (.onlineTestPassEnd d pass) s =
    .next (if pass then onlinePassed s d else settle (failSpare s d (spareOf s d))) := by
  have hgo : ¬(spareOf s d = 0x3F ∨ (die s d).rot.isSome = true ∨ underTest s d (spareOf s d) = true ∨
      (!performs s (dcSlot d)) = true) := by
    simp [hruns, hspare, hrot, htest]
  change execOnlineTestPassEnd d pass s = _
  rw [execOnlineTestPassEnd, if_neg hgo, apply_ite Host.Outcome.next]
  rfl

theorem onlineTestPassEnd_ends : Ends (.onlineTestPassEnd d true) s (onlinePassed s d) :=
  exec_onlineTestPassEnd hruns hspare hrot htest true

theorem onlineTestPassEnd_settles :
    Settles (.onlineTestPassEnd d false) s (failSpare s d (spareOf s d)) :=
  exec_onlineTestPassEnd hruns hspare hrot htest false

end
end

/-- Settles O20, command by command: a rotation's start and end, and the two ends of an online test. -/
theorem spareRotates : Obligations.SpareRotates := by
  intro d s hruns inc
  refine ⟨fun out l hrot htested hspare htest hen hout hl => ?_, fun htest => ⟨rotationStart_ends_self htest,
      fun pass => onlineTestPassEnd_ends_self pass htest⟩, fun r hrot hdone hfailed hlt => ?_,
    fun hspare hrot htest => ⟨?_, ?_⟩⟩
  · have hdie := startRotation_frame hl (fun u => die u d) fun u c => by rw [die, wakeServer_dies, die]
    rw [die_rotationShown] at hdie
    refine ⟨_, rotationStart_ends hruns hrot htested hspare htest hen hout, congrArg DieSt.rot hdie,
      congrArg DieSt.spareTested hdie, ?_, ?_, ?_, fun k => ?_, fun hempty => ?_⟩
    · exact (startRotation_frame hl (fun u => rg u (dcSlot d) spareStatusRotState) fun u c =>
        rotState_wakeServer u d c).trans (rotState_rotationShown s d out l)
    · exact (startRotation_frame hl State.queues fun u c => wakeServer_queues u d c).trans
        (rotationShown_queues s d out l)
    · exact (startRotation_frame hl State.mem fun u c => wakeServer_mem u d c).trans (rotationShown_mem s d out l)
    · refine (startRotation_frame hl (fun u => (mget {} u.tiles k).task) fun u c => task_wakeServer u d c k).trans ?_
      rw [rotationShown_tiles]
    · have hstill : (queueOf (rotationShown s d out l) d out).isEmpty = true := by
        rw [queueOf, rotationShown_queues, ← queueOf, hempty]
        rfl
      rw [startRotation_of_find hl, if_pos hstill]
      exact rotationShown_frame s d out l
  · refine ⟨_, rotationComplete_ends hruns hrot hdone hfailed, ?_, ?_, rotState_spareShown .., ?_⟩
    · rw [die, spareShown_dies]
      exact congrArg DieSt.rot (die_updDie_same s d fun x => { x with rot := none })
    · rw [spareOf_spareShown, Nat.mod_eq_of_lt (by omega)]
    · cases s
      rfl
  · refine ⟨_, onlineTestPassEnd_ends hruns hspare hrot htest, ?_, rg_wg_same .., ?_⟩
    · exact congrArg DieSt.spareTested (die_updDie_same _ d fun x => { x with spareTested := true })
    · cases s
      rfl
  · exact ⟨_, onlineTestPassEnd_settles hruns hspare hrot htest, spareTested_failSpare .., spareOf_failSpare ..,
      clusterFailed_failSpare .., due_failSpare ..⟩

/-! ### The fence of a cluster -/

/-- A cluster that has failed is left alone. -/
theorem fenceCluster_of_failed {s : State} {d c : Nat} (hfailed : clusterFailed s d c = true) :
    fenceCluster s d c = s := if_pos hfailed

/-- A fence of the spare that no rotation has is a failed online test. -/
theorem fenceCluster_of_spare {s : State} {d c : Nat} (hfailed : clusterFailed s d c = false)
    (hspare : spareOf s d = c ∧ (die s d).rot = none) : fenceCluster s d c = failSpare s d c := by
  obtain ⟨hspare, hrot⟩ := hspare
  rw [fenceCluster, if_neg (ne_true_of_eq_false hfailed), if_pos ⟨hspare, by rw [hrot]; rfl⟩]

/-- The logical index of a marked cluster passes to a free spare, or is orphaned. -/
def indexPassed (s : State) (d c : Nat) : State :=
  if !isMapped s d c then markCluster s d c
  else if (die s d).rot.isNone && spareOf s d ≠ 0x3F then startRotation (markCluster s d c) d c
  else dropIncoming (orphan (markCluster s d c) d c) d c

/-- The tasks of a fenced cluster's tiles end, and CLUSTER_FENCED is raised. -/
def clusterStopped (s : State) (d c : Nat) : State :=
  raise (forEach (List.range 16) s (fun s t => fenceTile s d c t)) { slot := dcSlot d, src := srcClusterFenced }

/-- A fence of any other cluster passes its index on and stops it. -/
theorem fenceCluster_of_other {s : State} {d c : Nat} (hfailed : clusterFailed s d c = false)
    (hother : ¬(spareOf s d = c ∧ (die s d).rot = none)) :
    fenceCluster s d c =
      let u := clusterStopped (indexPassed s d c) d c
      if allClustersFailed u d then fenceLobe u (if d < 2 then 0 else 1) else u := by
  rw [← Option.isNone_iff_eq_none] at hother
  rw [fenceCluster, if_neg (ne_true_of_eq_false hfailed), if_neg hother]
  rfl

/-- A fence on a die whose control page runs takes its course. -/
theorem clusterFence_settles {s : State} {d : Die} (c : Cluster) (hruns : performs s (dcSlot d) = true) :
    Settles (.clusterFence d c) s (fenceCluster s d c) := if_pos hruns

/-- Settles O21, by whether the cluster has failed already, is the spare, or serves. -/
theorem clusterFences : Obligations.ClusterFences := by
  intro d c s hruns
  have hsettles := clusterFence_settles c hruns
  refine ⟨fun hfailed => ?_, fun hfailed hspare hrot => ?_, fun hfailed hother => ?_⟩
  · rwa [fenceCluster_of_failed hfailed] at hsettles
  · rw [fenceCluster_of_spare hfailed ⟨hspare, hrot⟩] at hsettles
    exact ⟨_, hsettles, clusterFailed_failSpare .., spareOf_failSpare .., due_failSpare ..⟩
  · rw [fenceCluster_of_other hfailed hother] at hsettles
    refine ⟨markCluster s d c, indexPassed s d c, clusterFailed_markCluster .., markCluster_frame ..,
      fun hunmapped => ?_, fun hmapped hrot hfree => ?_, fun hmapped hbusy => ?_, hsettles⟩
    · rw [indexPassed, if_pos (by rw [hunmapped]; rfl)]
    · simp [indexPassed, hmapped, hrot, hfree]
    · have hnone : ¬((die s d).rot.isNone && decide (spareOf s d ≠ 0x3F)) = true := by
        simpa [Decidable.imp_iff_not_or] using hbusy
      rw [indexPassed, if_neg (by rw [hmapped]; decide), if_neg hnone]

end Sys2Proof.Machine
end

section
/-!
PROOFS. Rules of the training sequencers' state: what a die, its sequencer and its phases read as after a change,
what a change of a die beside its sequencer leaves alone, and on what a read of a die depends.
-/

namespace Sys2Proof.Machine

/-! ### Dies, sequencers and phases after a change -/

section
variable (s : State) {d e : Nat}

theorem die_updDie_other (f : DieSt → DieSt) (h : e ≠ d) : die (updDie s d f) e = die s e :=
  die_setDie_other s _ h

@[simp] theorem seqOf_updSeq_same (f : Seq → Seq) : seqOf (updSeq s d f) d = f (seqOf s d) :=
  congrArg DieSt.seq (die_updDie_same ..)

theorem seqOf_updDie_other (f : DieSt → DieSt) (h : e ≠ d) : seqOf (updDie s d f) e = seqOf s e :=
  congrArg DieSt.seq (die_updDie_other s f h)

/-- A change of a die that keeps its sequencer changes no sequencer. -/
theorem seqOf_updDie_of_seq {f : DieSt → DieSt} (hf : ∀ x, (f x).seq = x.seq) (e : Nat) :
    seqOf (updDie s d f) e = seqOf s e := by
  by_cases h : e = d
  · subst h
    rw [seqOf, die_updDie_same, hf, seqOf]
  · exact seqOf_updDie_other s f h

@[simp] theorem seqOf_updPhase_same (ph : Nat) (f : Phase → Phase) : seqOf (updPhase s d ph f) d =
    { seqOf s d with phases := mset {} (seqOf s d).phases ph (f (phaseOf s d ph)) } :=
  seqOf_updSeq_same ..

@[simp] theorem seqOf_retire (slot k : Nat) : seqOf (retire s slot k) d = seqOf s d := rfl

@[simp] theorem phaseOf_retire (slot k ph : Nat) : phaseOf (retire s slot k) d ph = phaseOf s d ph := rfl

end

/-- An entry stands in the map that it is put into. -/
theorem mem_mins {α : Type} (m : Map α) (k : Nat) (v : α) : (k, v) ∈ mins m k v := by
  induction m with
  | nil => exact List.mem_singleton_self _
  | cons e m ih =>
    obtain ⟨a, w⟩ := e
    unfold mins
    split
    · exact List.mem_cons_of_mem _ ih
    · split
      · exact List.mem_cons_self
      · exact List.mem_cons_self

/-! ### What a change of a die beside its sequencer leaves alone -/

section
variable (s : State) (d : Nat) (f : DieSt → DieSt)

theorem performs_updDie (slot : Nat) : performs (updDie s d f) slot = performs s slot := by
  cases s
  rfl

theorem dieRuns_updDie (e : Nat) : dieRuns (updDie s d f) e = dieRuns s e :=
  congrArg (· && _) (performs_updDie s d f _)

variable {f} (hf : ∀ x, (f x).seq = x.seq)
include hf

theorem phaseOf_updDie_of_seq (e ph : Nat) : phaseOf (updDie s d f) e ph = phaseOf s e ph :=
  congrArg (fun q : Seq => mget ({} : Phase) q.phases ph) (seqOf_updDie_of_seq s hf e)

theorem jobHeld_updDie_of_seq (e : Nat) : jobHeld (updDie s d f) e = jobHeld s e := by
  simp only [jobHeld, stuckDies, startedPhases, seqOf_updDie_of_seq s hf, phaseOf_updDie_of_seq s d hf]
  rfl

/-- A die starts phases as before. -/
theorem startsPhases_updDie_of_seq (e : Nat) : startsPhases (updDie s d f) e = startsPhases s e := by
  rw [startsPhases, seqOf_updDie_of_seq s hf, dieRuns_updDie, jobHeld_updDie_of_seq s d hf]
  rfl

end

/-! ### What a die reads from memory -/

/-- Bytes read depend on memory alone. -/
theorem rdBytes_congr {a b : State} (hmem : a.mem = b.mem) (x n : Nat) : rdBytes a x n = rdBytes b x n := by
  induction n generalizing x with
  | zero => rfl
  | succ n ih => rw [rdBytes, rdBytes, ih, rdByte, hmem, rdByte]

/-- What a die reads depends on memory and on the form of its addresses alone. -/
theorem loadDie_congr {a b : State} (hmem : a.mem = b.mem) (hform : pairedForm a = pairedForm b) (d x n : Nat) :
    loadDie a d x n = loadDie b d x n := by
  rw [loadDie, dieAddr, hform, rdLe, rdBytes_congr hmem, loadDie, dieAddr, rdLe]

/-! ### Places of the fields of sequencers' pages -/

/-- Fields of registers of two sequencers' pages, or of different registers of one, stand at different places. -/
theorem fkey_seqSlot_ne {a b : Nat} {f g : Fld} (hf : f.lo < 32 ∧ f.off < 4092) (hg : g.lo < 32 ∧ g.off < 4092)
    (h : a ≠ b ∨ f.off + 4 ≤ g.off ∨ g.off + 4 ≤ f.off) : fkey (seqSlot a) f ≠ fkey (seqSlot b) g := by
  simp only [fkey, seqSlot, dieSlot]
  omega

end Sys2Proof.Machine
end

section
/-!
PROOFS. Gradient counters take leaves in rank order.
-/

namespace Sys2Proof.Machine

section
variable {s : State} {d l : Nat} {c : Counter}

/-- A counter whose next leaf is not there, or cannot be read yet, is left as it is. -/
theorem takeLeaf_of_none (hc : (seqOf s d).counters.find? (fun x => x.1 = l) = some (l, c))
    (hnext : nextLeaf c = none) : takeLeaf s d l = s := by
  simp only [takeLeaf, hc, hnext]

theorem takeLeaf_of_waits {leaf r : Nat} (hc : (seqOf s d).counters.find? (fun x => x.1 = l) = some (l, c))
    (hnext : nextLeaf c = some (r, leaf)) (hwaits : waitsDie s d (leafReads c leaf r) = true) :
    takeLeaf s d l = s := by
  simp only [takeLeaf, hc, hnext]
  exact if_pos hwaits

/-- A counter that has taken the leaf at `leaf`, whose sectors have the digest `dg`. -/
def leafTaken (c : Counter) (r dg : Nat) : Counter :=
  { c with
    next := c.next + 1, waiting := c.waiting.filter (fun x => x.1 ≠ r), digest := (c.digest + dg) % 2 ^ 128 }

/-- The counter's writes are visible, and it stands at the next rank. -/
def leafWritten (x : State) (d l : Nat) (c : Counter) (r leaf : Nat) : State :=
  let m := leafWrites (dieView x d) c leaf
  retire (updSeq (writeMap x d m) d (fun q => { q with
    counters := mins q.counters l (leafTaken c r (digestOf x d [m])) })) (seqSlot d)

theorem takeLeaf_of_reads {leaf r : Nat} (hc : (seqOf s d).counters.find? (fun x => x.1 = l) = some (l, c))
    (hnext : nextLeaf c = some (r, leaf)) (hwaits : waitsDie s d (leafReads c leaf r) = false) :
    takeLeaf s d l = leafWritten (checkDie s d (leafReads c leaf r)) d l c r leaf := by
  simp only [takeLeaf, hc, hnext]
  exact if_neg (ne_true_of_eq_false hwaits)

/-- The counter of the layer is the one that has taken the leaf. -/
theorem mem_counters_leafWritten (x : State) (r leaf : Nat) :
    (l, leafTaken c r (digestOf x d [leafWrites (dieView x d) c leaf])) ∈
      (seqOf (leafWritten x d l c r leaf) d).counters := by
  rw [leafWritten, seqOf_retire, seqOf_updSeq_same]
  exact mem_mins ..

end

/-- A running sequencer lets the counter of a layer take its next leaf. -/
theorem leafTake_settles {s : State} {d : Die} (l : Nat) (hgoes : goesOn s d = true) (hruns : seqRunning s d = true) :
    Settles (.leafTake d l) s (detectMissing (takeLeaf s d l) d) := if_pos ⟨hgoes, hruns⟩

/-- Settles O27, by whether the next leaf is there and whether it can be read. -/
theorem leavesInOrder : Obligations.LeavesInOrder := by
  intro d l c s hgoes hruns hc
  have hsettles := leafTake_settles l hgoes hruns
  refine ⟨fun leaf hnext => ⟨fun hwaits => ?_, fun hwaits => ?_⟩, fun hnone => ?_⟩
  · rwa [takeLeaf_of_waits hc hnext hwaits] at hsettles
  · rw [takeLeaf_of_reads hc hnext hwaits] at hsettles
    exact ⟨_, hsettles, rfl, _, mem_counters_leafWritten .., rfl, rfl, rfl⟩
  · rwa [takeLeaf_of_none hc hnone] at hsettles

end Sys2Proof.Machine
end

section
/-!
PROOFS. Phases and steps end: RUN_DIG counts the digest, a leaf is handed over, and SEQ_STEP counts the step.
-/

namespace Sys2Proof.Machine

/-! ### RUN_DIG -/

/-- RUN_DIG reads back the word that it was set to. -/
theorem rg_setRunDigest (s : State) (d v : Nat) {n : Nat} (hn : n < 4) :
    rg (setRunDigest s d v) (seqSlot d) (runDig n) = v / 2 ^ (32 * n) % 2 ^ 32 := by
  refine rg_forEach_of_mem s _ _ _ (List.mem_range.mpr hn) (fun t => ?_) fun t k _ hk => ?_
  · exact (rg_wg_same ..).trans (Nat.mod_mod _ _)
  · exact rg_wg_other _ _ (fkey_ne_of_off_ne rfl rfl (by simp only [runDig]; omega))

/-- A number of 128 bits by its words. -/
theorem sum_words (v : Nat) : ((List.range 4).map (fun n => v / 2 ^ (32 * n) % 2 ^ 32 * 2 ^ (32 * n))).sum =
    v % 2 ^ 128 := by
  have hword (n : Nat) : v % 2 ^ (32 * (n + 1)) =
      v % 2 ^ (32 * n) + v / 2 ^ (32 * n) % 2 ^ 32 * 2 ^ (32 * n) := by
    rw [Nat.mul_succ, Nat.pow_add, Nat.mod_mul, Nat.mul_comm (2 ^ (32 * n))]
  have hsum (k : Nat) : ((List.range k).map (fun n => v / 2 ^ (32 * n) % 2 ^ 32 * 2 ^ (32 * n))).sum =
      v % 2 ^ (32 * k) := by
    induction k with
    | zero => simp [Nat.mod_one]
    | succ k ih => rw [List.range_succ, List.map_append, List.sum_append, ih, hword]; simp
  exact hsum 4

/-- RUN_DIG holds 128 bits. -/
theorem runDigest_setRunDigest (s : State) (d v : Nat) : runDigest (setRunDigest s d v) d = v % 2 ^ 128 := by
  rw [runDigest, ← sum_words]
  refine congrArg List.sum (List.map_congr_left fun n hn => ?_)
  rw [rg_setRunDigest s d v (List.mem_range.mp hn)]

/-- Setting RUN_DIG changes registers alone. -/
theorem setRunDigest_frame (s : State) (d v : Nat) :
    setRunDigest s d v = { s with regs := (setRunDigest s d v).regs } :=
  forEach_regs _ s _ fun _ _ => rfl

/-! ### The end of a phase -/

/-- RUN_DIG with a phase's digest added. -/
def digestAdded (s : State) (d dg : Nat) : State := setRunDigest s d ((runDigest s d + dg) % 2 ^ 128)

theorem runDigest_digestAdded (s : State) (d dg : Nat) :
    runDigest (digestAdded s d dg) d = (runDigest s d + dg) % 2 ^ 128 := by
  rw [digestAdded, runDigest_setRunDigest, Nat.mod_mod]

section
variable {s : State} {d ph : Nat}

/-- A phase that can complete does, unless it is compared first. -/
theorem advancePhase_of_canComplete (hcan : canComplete s d ph = true) : advancePhase s d ph =
    if mustCompare s d ph then updPhase s d ph (fun p => { p with stage := .exchange })
    else completePhase s d ph := by
  have hstage : (phaseOf s d ph).stage ≠ .exchange := by
    intro hexchange
    simp [canComplete, hexchange] at hcan
  simp [advancePhase, hstage, hcan]

/-- A phase without a leaf completes with its digest counted. -/
theorem completePhase_of_no_leaf (h : phType (phaseOf s d ph).desc ≠ 2 ∨ phAux (phaseOf s d ph).desc = 0) :
    completePhase s d ph = detectMissing
      (endPhase (digestAdded s d (phaseOf s d ph).digest) d ph (doneCode (phaseOf s d ph))) d := by
  have hno : ¬(phType (phaseOf s d ph).desc = 2 ∧ phAux (phaseOf s d ph).desc ≠ 0) :=
    fun ⟨htype, haux⟩ => h.elim (· htype) haux
  simp only [completePhase, if_neg hno, Bool.not_true, Bool.false_eq_true, if_false, digestAdded]

/-- A backward phase with a leaf hands it over first; a refused one fails it. -/
theorem completePhase_of_leaf {x : State} {taken : Bool} (htype : phType (phaseOf s d ph).desc = 2)
    (haux : phAux (phaseOf s d ph).desc ≠ 0)
    (hleaf : handLeaf s d (phLayer (phaseOf s d ph).desc) (phaseOf s d ph).acc = (x, taken)) :
    completePhase s d ph =
      if taken then detectMissing
        (endPhase (digestAdded x d (phaseOf s d ph).digest) d ph (doneCode (phaseOf s d ph))) d
      else endPhase (markFailed x d ph) d ph 3 := by
  simp only [completePhase, if_pos (And.intro htype haux), hleaf]
  cases taken with
  | true => rfl
  | false => rfl

end

/-- A die that goes on brings its phase on. -/
theorem phaseComplete_settles {s : State} {d : Die} (ph : Nat) (hgoes : goesOn s d = true) :
    Settles (.phaseComplete d ph) s (advancePhase s d ph) := if_pos hgoes

/-! ### The end of a step -/

/-- SEQ_STEP counts a step. -/
def stepCounted (s : State) (d : Nat) : State := wg s (seqSlot d) seqStep (rg s (seqSlot d) seqStep + 1)

section
variable (s : State) (d : Nat)

theorem seqStep_stepCounted :
    rg (stepCounted s d) (seqSlot d) seqStep = (rg s (seqSlot d) seqStep + 1) % 2 ^ 32 := rg_wg_same ..

theorem state_stepCounted : rg (stepCounted s d) (seqSlot d) seqStatusState = rg s (seqSlot d) seqStatusState :=
  rg_wg_other _ _ (fkey_seqSlot_ne (by decide) (by decide) (.inr (by decide)))

theorem loop_stepCounted : rg (stepCounted s d) (seqSlot d) seqCtlLoop = rg s (seqSlot d) seqCtlLoop :=
  rg_wg_other _ _ (fkey_seqSlot_ne (by decide) (by decide) (.inr (by decide)))

/-- A running sequencer with LOOP begins the next step; any other stops. -/
theorem endStep_eq : endStep s d =
    if rg s (seqSlot d) seqStatusState = 1 ∧ rg s (seqSlot d) seqCtlLoop = 1 then beginStep (stepCounted s d) d
    else finishRun (wg (stepCounted s d) (seqSlot d) seqStatusState 0) d 1 := by
  rw [← state_stepCounted, ← loop_stepCounted]
  simp only [endStep, rgB, decide_eq_true_eq]
  rfl

/-- A step begins on a die alone. -/
theorem beginStep_frame : beginStep s d = { s with dies := (beginStep s d).dies } := by
  cases s
  rfl

/-- The receives of each queue that count for a die, as a step samples them. -/
def recvCounts : Map Nat := s.cqs.filterMap (fun (q, c) =>
  let n := mget 0 c.recv (recvDie s d)
  if n = 0 then none else some (q, n))

/-- A new step's phases, counters and constants are none. -/
theorem seqOf_beginStep : seqOf (beginStep s d) d = { seqOf s d with
    stepNo := stepOf s d, phases := [], counters := [], consts := [], recvBase := recvCounts s d } := by
  refine Eq.trans ?_ (seqOf_updSeq_same s (fun q => { q with
    stepNo := stepOf s d, phases := [], counters := [], consts := [], recvBase := recvCounts s d }))
  exact seqOf_updDie_of_seq _ (by intro; rfl) d

theorem rg_beginStep (slot : Nat) (f : Fld) : rg (beginStep s d) slot f = rg s slot f := rfl

end

/-- A step whose phases are complete ends. -/
theorem stepEnd_settles {s : State} {d : Die} (hgoes : goesOn s d = true) (hdone : stepDone s d = true) :
    Settles (.stepEnd d) s (endStep s d) := if_pos ⟨hgoes, hdone⟩

/-- Settles O26: a phase by whether it has a leaf and is compared, a step by whether the sequencer goes on. -/
theorem phasesAndStepsEnd : Obligations.PhasesAndStepsEnd := by
  intro d ph s hgoes m p code
  have hphase := phaseComplete_settles ph hgoes
  refine ⟨fun hcan hmust => ⟨fun hnone => ?_, fun x taken htype haux hleaf => ?_⟩, fun hcan hmust => ?_,
    fun hdone => ?_⟩
  · rw [advancePhase_of_canComplete hcan, if_neg (ne_true_of_eq_false hmust), completePhase_of_no_leaf hnone] at hphase
    exact ⟨_, hphase, setRunDigest_frame .., runDigest_digestAdded ..⟩
  · rw [advancePhase_of_canComplete hcan, if_neg (ne_true_of_eq_false hmust),
      completePhase_of_leaf htype haux hleaf] at hphase
    refine ⟨fun htaken => ?_, fun hrefused => ?_⟩
    · rw [if_pos htaken] at hphase
      exact ⟨_, hphase, setRunDigest_frame .., runDigest_digestAdded ..⟩
    · rwa [if_neg (ne_true_of_eq_false hrefused)] at hphase
  · rwa [advancePhase_of_canComplete hcan, if_pos hmust] at hphase
  · have hstep := stepEnd_settles hgoes hdone
    rw [endStep_eq] at hstep
    refine ⟨fun hruns hloop => ?_, fun hstops => ?_⟩
    · rw [if_pos ⟨hruns, hloop⟩] at hstep
      refine ⟨_, hstep, seqStep_stepCounted s d, ?_, ?_, ?_, (state_stepCounted s d).trans hruns, ?_⟩
      · rw [seqOf_beginStep]
      · rw [seqOf_beginStep]
      · rw [seqOf_beginStep]
      · exact beginStep_frame ..
    · rw [if_neg (not_and_of_not_or_not hstops)] at hstep
      refine ⟨_, hstep, ?_, rg_wg_same .., rfl⟩
      rw [rg_wg_other _ _ (fkey_seqSlot_ne (by decide) (by decide) (.inr (by decide)))]
      exact seqStep_stepCounted s d

end Sys2Proof.Machine
end

section
/-!
PROOFS. Messages between dies: completions for cross-die DEPs, the values of Paired mode, and lobe self-test.
-/

namespace Sys2Proof.Machine

/-! ### The completion of another die's phase -/

/-- The receiver is told of the completion, with the step of the phase. -/
def depTold (s : State) (src dst ph : Nat) : State :=
  updDie s src (fun x => { x with told := mset 0 x.told (4 * ph + dst) ((seqOf s src).stepNo + 1) })

theorem told_depTold (s : State) (src dst ph : Nat) :
    mget 0 (die (depTold s src dst ph) src).told (4 * ph + dst) = (seqOf s src).stepNo + 1 := by
  rw [depTold, die_updDie_same]
  exact mget_mset_same 0 (die s src).told (4 * ph + dst) ((seqOf s src).stepNo + 1)

/-- A receiver that starts no phases is told alone. -/
theorem receiveDep_of_not_startsPhases {s : State} {dst : Nat} (src ph : Nat) (h : startsPhases s dst = false) :
    receiveDep s src dst ph = depTold s src dst ph := by
  have hstill : startsPhases (depTold s src dst ph) dst = false :=
    (startsPhases_updDie_of_seq _ _ (by intro; rfl) _).trans h
  exact if_neg (ne_true_of_eq_false hstill)

section
variable {s : State} {src dst : Die} {ph : Nat}

theorem crossDieDepSignal_ends (hopen : ctrlOpen s src dst = false) : Ends (.crossDieDepSignal src dst ph) s s :=
  if_neg fun hpasses => ne_true_of_eq_false hopen hpasses.2

theorem crossDieDepSignal_settles (hdone : isDone (phaseOf s src ph) = true) (hopen : ctrlOpen s src dst = true) :
    Settles (.crossDieDepSignal src dst ph) s (receiveDep s src dst ph) := if_pos ⟨hdone, hopen⟩

end

/-! ### The values of a mirror die -/

/-- A die holds the value that its mirror has sent about a phase. -/
def valueReceived (s : State) (d ph v : Nat) : State :=
  updDie s d (fun x => { x with mirror := mset 0 x.mirror ph v })

/-- A comparison waits while the mirror does not hold this die's value. -/
theorem comparePair_of_missing {s : State} {d ph : Nat} (h : mget 0 (die s (mirrorDie d)).mirror ph = 0) :
    comparePair s d ph = s := if_pos (.inr (.inl h))

/-- The values of a phase that waits for its comparison are received. -/
theorem receiveMirror_of_missing {s : State} {d : Die} {ph : Nat}
    (hstage : (phaseOf s (mirrorDie d) ph).stage = .exchange) (hcompared : isCompared s (mirrorDie d) ph = true)
    (htries : (phaseOf s (mirrorDie d) ph).tries < 2) (hmissing : mget 0 (die s (mirrorDie d)).mirror ph = 0) :
    receiveMirror s d ph = valueReceived s d ph (mirrorValue s (mirrorDie d) ph + 1) := by
  have hne : mirrorDie d ≠ d := by
    unfold mirrorDie
    omega
  have hsends : ¬((phaseOf s (mirrorDie d) ph).stage ≠ .exchange ∨ (!isCompared s (mirrorDie d) ph) = true ∨
      (phaseOf s (mirrorDie d) ph).tries ≥ 2) := by
    simp only [hstage, hcompared, ne_eq, not_true, Bool.not_true, Bool.false_eq_true, false_or]
    omega
  refine (if_neg hsends).trans (comparePair_of_missing ?_)
  rwa [die_updDie_other _ _ hne]

theorem mirror_valueReceived (s : State) (d ph v : Nat) : mget 0 (die (valueReceived s d ph v) d).mirror ph = v := by
  rw [valueReceived, die_updDie_same]
  exact mget_mset_same (0 : Nat) ..

theorem mirrorExchangeReceive_settles {s : State} {d : Die} {ph : Nat} (hruns : dieRuns s d = true)
    (hmirror : dieRuns s (mirrorDie d) = true) (hopen : ctrlOpen s (mirrorDie d) d = true)
    (hwaits : waitsDie s (mirrorDie d) (postReads s (mirrorDie d) ph) = false) :
    Settles (.mirrorExchangeReceive d ph) s
      (receiveMirror (checkDie s (mirrorDie d) (postReads s (mirrorDie d) ph)) d ph) :=
  if_pos ⟨hruns, hmirror, hopen, by rw [hwaits]; rfl⟩

/-! ### Lobe self-test -/

section
variable {s : State} {ph : Nat}

theorem pairSelfTestStart_ends (hwanted : s.pairTest = .wanted ph) (hdrained : pairDrained s = true)
    (hfree : lobeTested s = false) :
    Ends .pairSelfTestStart s { s with pairTest := .running ph (pairDies s) } := by
  change execPairSelfTestStart s = _
  simp [execPairSelfTestStart, hwanted, hdrained, hfree]

theorem pairSelfTestStart_ends_self (hwanted : s.pairTest = .wanted ph)
    (hwaits : pairDrained s = false ∨ lobeTested s = true) : Ends .pairSelfTestStart s s := by
  change execPairSelfTestStart s = _
  have hstays : ¬(pairDrained s && !lobeTested s) = true := by
    obtain h | h := hwaits
    · simp [h]
    · simp [h]
  simp only [execPairSelfTestStart, hwanted, if_neg hstays]

end

/-- The self-test is over, and PAIR_LAST of the dies that it served shows an outcome. -/
def pairTested (s : State) (outcome : Nat) : State :=
  { setOutcome s ((pairDies s).map Prod.fst) outcome with pairTest := .idle }

section
variable (s : State) (outcome : Nat)

theorem pairTested_frame :
    pairTested s outcome = { s with regs := (pairTested s outcome).regs, pairTest := .idle } := by
  have houtcome : setOutcome s ((pairDies s).map Prod.fst) outcome =
      { s with regs := (setOutcome s ((pairDies s).map Prod.fst) outcome).regs } :=
    forEach_regs _ s _ fun _ _ => rfl
  rw [pairTested, houtcome]

theorem outcome_pairTested {x : Nat × Nat} (hx : x ∈ pairDies s) :
    rg (pairTested s outcome) (seqSlot x.1) pairLastOutcome = outcome % 2 ^ 2 := by
  refine rg_forEach_of_mem s _ _ _ (List.mem_map_of_mem hx) (fun t => rg_wg_same ..) fun t e _ he => ?_
  refine rg_wg_other _ _ ?_
  simp only [fkey, seqSlot, dieSlot]
  omega

/-- The dies that a self-test served raise PAIR_UNRESOLVED, which ends their jobs. -/
theorem unresolved_eq : unresolved s =
    forEach ((pairDies s).map Prod.snd).eraseDups
      (takeEvents { pairTested s 3 with due := s.due ++ (pairDies s).map (fun x =>
        { slot := seqSlot x.1, src := srcPairUnresolved, job := x.2 }) })
      (fun w j => if (List.range 4).any (fun d => decide (seqJob w d = j)) then abortJob w j none else w) := by
  have hraised := forEach_raise (pairDies s) (pairTested s 3) (fun _ => true) fun x =>
    { slot := seqSlot x.1, src := srcPairUnresolved, job := x.2 }
  have hdue : (pairTested s 3).due = s.due := by rw [pairTested_frame]
  rw [List.filter_eq_self.mpr fun _ _ => rfl, hdue] at hraised
  rw [← hraised]
  rfl

end

section
variable {s : State} {ph : Nat} {ds : List (Nat × Nat)} (hruns : s.pairTest = .running ph ds)
include hruns

theorem pairSelfTestResult_settles (west east : Bool) :
    Settles (.pairSelfTestResult west east) s (endPairTest s west east) := by
  change execPairSelfTestResult west east s = _
  simp only [execPairSelfTestResult, hruns]

end

/-- Settles O28: the two messages, the start of the self-test, and its result by the lobes that pass. -/
theorem diesAgree : Obligations.DiesAgree := by
  refine ⟨fun src dst ph s => ⟨crossDieDepSignal_ends, fun hdone hidle hne hopen => ?_, ?_⟩,
    fun ph s hwanted => ⟨pairSelfTestStart_ends hwanted, pairSelfTestStart_ends_self hwanted⟩,
    fun ph ds s hruns => ?_⟩
  · have hsettles := crossDieDepSignal_settles hdone hopen
    rw [receiveDep_of_not_startsPhases _ _ hidle] at hsettles
    exact ⟨_, hsettles, told_depTold .., rfl⟩
  · intro m reads x hruns hmirror hopen hwaits hstage hcompared htries hmissing
    refine ⟨valueReceived x src ph (mirrorValue x m ph + 1), ?_, mirror_valueReceived .., rfl⟩
    have hreceived : receiveMirror x src ph = valueReceived x src ph (mirrorValue x m ph + 1) :=
      receiveMirror_of_missing hstage hcompared htries hmissing
    rw [← hreceived]
    exact mirrorExchangeReceive_settles hruns hmirror hopen hwaits
  · intro failed
    have hsettles := pairSelfTestResult_settles hruns
    have hfailed : failed (pairTested s 2) := ⟨pairTested_frame s 2, fun x hx => outcome_pairTested s 2 hx⟩
    refine ⟨⟨pairTested s 3, pairTested_frame s 3, fun x hx => outcome_pairTested s 3 hx, ?_⟩,
      ⟨_, hsettles false false, hfailed⟩, ⟨_, hsettles false true, hfailed⟩, ⟨_, hsettles true false, hfailed⟩⟩
    have hpasses := hsettles true true
    rwa [endPairTest, if_pos ⟨rfl, rfl⟩, unresolved_eq] at hpasses

end Sys2Proof.Machine
end

section
/-!
PROOFS. The next ready phase starts, each kind as its rule says.
-/

namespace Sys2Proof.Machine

/-! ### A phase that starts -/

/-- A phase that starts is working, on its layer's entry. -/
def phaseStarted (z : State) (d ph ly : Nat) : State :=
  retire (updPhase z d ph (fun p => { p with stage := .working, entry := ly })) (seqSlot d)

section
variable (z : State) (d ph ly : Nat)

@[simp] theorem phaseOf_phaseStarted :
    phaseOf (phaseStarted z d ph ly) d ph = { phaseOf z d ph with stage := .working, entry := ly } :=
  (phaseOf_retire ..).trans (phaseOf_updPhase_same ..)

@[simp] theorem loadDie_phaseStarted (a n : Nat) : loadDie (phaseStarted z d ph ly) d a n = loadDie z d a n :=
  loadDie_congr (a := phaseStarted z d ph ly) (b := z) rfl rfl ..

/-- Its sequencer is as it was but for the phase. -/
theorem seqOf_phaseStarted : seqOf (phaseStarted z d ph ly) d = { seqOf z d with
    phases := mset {} (seqOf z d).phases ph { phaseOf z d ph with stage := .working, entry := ly } } :=
  (seqOf_retire ..).trans (seqOf_updPhase_same ..)

@[simp] theorem phaseAddr_phaseStarted (i : Nat) : phaseAddr (phaseStarted z d ph ly) d i = phaseAddr z d i := by
  rw [phaseAddr, seqOf_phaseStarted, phaseAddr]

@[simp] theorem counters_phaseStarted : (seqOf (phaseStarted z d ph ly) d).counters = (seqOf z d).counters := by
  rw [seqOf_phaseStarted]

end

/-! ### Each kind -/

section
variable {z : State} {d ph : Nat}

/-- An entry that is not accepted makes the phase malformed. -/
theorem startPhase_of_not_layerOk (hly : layerOk (readLayer z d (phLayer (phaseOf z d ph).desc)) = false) :
    startPhase z d ph =
      endMalformed (phaseStarted z d ph (readLayer z d (phLayer (phaseOf z d ph).desc))) d ph := by
  simp only [startPhase, hly]
  rfl

section
variable (hly : layerOk (readLayer z d (phLayer (phaseOf z d ph).desc)) = true)
include hly

/-- A forward or backward phase starts at its layer's start position, armed under PROMO_EN. -/
theorem startPhase_of_pass (htype : phType (phaseOf z d ph).desc = 1 ∨ phType (phaseOf z d ph).desc = 2) :
    startPhase z d ph =
      let ly := readLayer z d (phLayer (phaseOf z d ph).desc)
      updPhase (phaseStarted z d ph ly) d ph (fun p => { p with
        rung := lyStartPos ly, rungStart := lyStartPos ly
        promote := phPromote (phaseOf z d ph).desc = 1 && rgB z (seqSlot d) seqCtlPromoEn }) := by
  obtain htype | htype := htype
  · simp only [startPhase, hly, htype]
    rfl
  · simp only [startPhase, hly, htype]
    rfl

theorem startPhase_of_recomp (htype : phType (phaseOf z d ph).desc = 3) :
    startPhase z d ph = startRecomp (phaseStarted z d ph (readLayer z d (phLayer (phaseOf z d ph).desc))) d ph := by
  simp only [startPhase, hly, htype]
  rfl

theorem startPhase_of_prefetch (htype : phType (phaseOf z d ph).desc = 4) :
    startPhase z d ph =
      startPosting (phaseStarted z d ph (readLayer z d (phLayer (phaseOf z d ph).desc))) d ph := by
  simp only [startPhase, hly, htype]
  rfl

/-- An exchange posts at once, with the digest of its layer's counter. -/
theorem startPhase_of_exchange (htype : phType (phaseOf z d ph).desc = 5) :
    startPhase z d ph = startPosting
      (updPhase (phaseStarted z d ph (readLayer z d (phLayer (phaseOf z d ph).desc))) d ph (fun p => { p with
        digest := (mget {} (seqOf z d).counters (phLayer (phaseOf z d ph).desc)).digest })) d ph := by
  rw [← counters_phaseStarted z d ph (readLayer z d (phLayer (phaseOf z d ph).desc))]
  simp only [startPhase, hly, htype]
  rfl

/-- An OPT phase with a bad OPT block is malformed. -/
theorem startPhase_of_not_optValid (htype : phType (phaseOf z d ph).desc = 6)
    (hbad : optValid (loadDie z d (phAddr0 (phaseOf z d ph).desc) 64)
      (readLayer z d (phLayer (phaseOf z d ph).desc)) = false) :
    startPhase z d ph =
      endMalformed (phaseStarted z d ph (readLayer z d (phLayer (phaseOf z d ph).desc))) d ph := by
  rw [← loadDie_phaseStarted z d ph (readLayer z d (phLayer (phaseOf z d ph).desc))] at hbad
  simp only [startPhase, hly, htype]
  exact if_pos (congrArg (!·) hbad)

/-- One with a valid OPT block keeps it and forms its step constants. -/
theorem startPhase_of_optValid (htype : phType (phaseOf z d ph).desc = 6)
    (hvalid : optValid (loadDie z d (phAddr0 (phaseOf z d ph).desc) 64)
      (readLayer z d (phLayer (phaseOf z d ph).desc)) = true) :
    startPhase z d ph =
      let ly := readLayer z d (phLayer (phaseOf z d ph).desc)
      formConst (updPhase (phaseStarted z d ph ly) d ph (fun p => { p with
        block := loadDie z d (phAddr0 (phaseOf z d ph).desc) 64 })) d (phLayer (phaseOf z d ph).desc) ly := by
  rw [← loadDie_phaseStarted z d ph (readLayer z d (phLayer (phaseOf z d ph).desc))] at hvalid ⊢
  simp only [startPhase, hly, htype]
  exact if_neg (ne_true_of_eq_false (congrArg (!·) hvalid))

end

/-! ### A recomputation -/

/-- A phase that is skipped. -/
def phaseSkipped (z : State) (d ph : Nat) : State := updPhase z d ph (fun p => { p with skipped := true })

section
variable (hen : rg z (seqSlot d) seqCtlRecompEn ≠ 1)
include hen

theorem startRecomp_of_disabled : startRecomp z d ph =
    if isCompared (phaseSkipped z d ph) d ph then workDone (phaseSkipped z d ph) d ph
    else endPhase (phaseSkipped z d ph) d ph 5 := by
  have hoff : (!rgB z (seqSlot d) seqCtlRecompEn) = true := by simp [rgB, hen]
  simp only [startRecomp, if_pos hoff]
  rfl

/-- A recomputation that is disabled ends skipped. -/
theorem startRecomp_of_not_compared (halone : isCompared (phaseSkipped z d ph) d ph = false) :
    startRecomp z d ph = endPhase (phaseSkipped z d ph) d ph 5 := by
  rw [startRecomp_of_disabled hen, if_neg (ne_true_of_eq_false halone)]

/-- In Paired mode it is compared first. -/
theorem startRecomp_of_compared (hcompared : isCompared (phaseSkipped z d ph) d ph = true) :
    startRecomp z d ph = updPhase (phaseSkipped z d ph) d ph (fun p => { p with stage := .exchange }) := by
  rw [startRecomp_of_disabled hen, if_pos hcompared, workDone, if_pos hcompared]

end

/-- One that is enabled reads the descriptors that it replays. -/
theorem startRecomp_of_enabled (hen : rg z (seqSlot d) seqCtlRecompEn = 1) :
    startRecomp z d ph = afterTask (updPhase z d ph (fun p => { p with
      sub := phCount0 (phaseOf z d ph).desc
      replays := (List.range (phCount1 (phaseOf z d ph).desc)).map (fun k =>
        loadDie z d (phaseAddr z d (phCount0 (phaseOf z d ph).desc + k)) 64) })) d ph := by
  have hon : ¬(!rgB z (seqSlot d) seqCtlRecompEn) = true := by simp [rgB, hen]
  simp only [startRecomp, if_neg hon]

end

/-! ### The command -/

/-- A die that starts phases examines them and starts the one that it chooses. -/
theorem phaseStart_settles {s : State} {d : Die} (hstarts : startsPhases s d = true) :
    Settles (.phaseStart d) s (startNext s d) := if_pos hstarts

section
variable {s v : State} {d : Nat}

theorem startNext_of_none (hchoose : choosePhase s d = (v, none)) : startNext s d = detectMissing v d := by
  simp only [startNext, hchoose]

/-- The chosen phase starts, unless it cannot read what its start reads. -/
theorem startNext_of_some {ph : Nat} (hchoose : choosePhase s d = (v, some ph)) : startNext s d =
    if waitsDie v d (startReads v d ph) then detectMissing v d
    else detectMissing (startPhase (checkDie v d (startReads v d ph)) d ph) d := by
  simp only [startNext, hchoose]

end

/-- Settles O24, by whether a phase is chosen and can be read, and by the kind of the one that is. -/
theorem phaseStarts : Obligations.PhaseStarts := by
  intro d s v o hstarts hchoose ends
  have hsettles := phaseStart_settles hstarts
  refine ⟨fun hnone => ?_, fun ph hsome hwaits => ?_, fun ph hsome hreads => ?_⟩
  · subst hnone
    rwa [startNext_of_none hchoose] at hsettles
  · subst hsome
    rwa [startNext_of_some hchoose, if_pos hwaits] at hsettles
  · subst hsome
    rw [startNext_of_some hchoose, if_neg (ne_true_of_eq_false hreads)] at hsettles
    intro z w ly x
    have hstarted : ends (startPhase z d ph) := hsettles
    refine ⟨fun hbad => ?_, fun hly htype => ⟨_, hstarted, ?_, ?_⟩, fun hly htype => ?_, fun hly htype => ?_,
      fun hly htype => ?_, fun hly htype => ?_⟩
    · rwa [startPhase_of_not_layerOk hbad] at hstarted
    · rw [startPhase_of_pass hly htype, phaseOf_updPhase_same, phaseOf_phaseStarted]
    · rw [startPhase_of_pass hly htype]
      rfl
    · have hx : x = phaseStarted z d ph ly := rfl
      have hrecomp : startPhase z d ph = startRecomp x d ph := startPhase_of_recomp hly htype
      rw [hrecomp] at hstarted
      intro skip
      refine ⟨fun hen halone => ?_, fun hen hcompared => ?_, fun hen => ?_⟩
      · rwa [startRecomp_of_not_compared (z := x) hen halone] at hstarted
      · rwa [startRecomp_of_compared (z := x) hen hcompared] at hstarted
      · rw [startRecomp_of_enabled (z := x) hen, hx] at hstarted
        simp only [phaseOf_phaseStarted, loadDie_phaseStarted, phaseAddr_phaseStarted] at hstarted
        exact hstarted
    · rwa [startPhase_of_prefetch hly htype] at hstarted
    · rwa [startPhase_of_exchange hly htype] at hstarted
    · refine ⟨fun hbad => ?_, fun hvalid => ?_⟩
      · rwa [startPhase_of_not_optValid hly htype hbad] at hstarted
      · rwa [startPhase_of_optValid hly htype hvalid] at hstarted

end Sys2Proof.Machine
end

section
/-!
PROOFS. What no store of a die moves: one lemma per step of a store, over any part of the state that memory, the
sectors' errors and their reports, free values, waiting stores and raised events leave alone.
-/

namespace Sys2Proof.Machine

/-- A part of the state that a store and the reports of its errors leave alone. -/
structure StoreFrame {β : Type} (part : State → β) : Prop where
  mem : ∀ s m, part { s with mem := m } = part s
  errs : ∀ s es xs, part { s with errs := es, seen := xs } = part s
  free : ∀ s n, part { s with free := n } = part s
  posted : ∀ s xs, part { s with posted := xs } = part s
  due : ∀ s xs, part { s with due := xs } = part s
  ctl : ∀ s d f, part (updMem s d f) = part s
  report : ∀ s d f v, f.off * 8 + f.lo < 32768 → part (wg s (mgSlot d) f v) = part s
  repairs : ∀ s v, part (wg s solSlot memRepairQueued v) = part s

namespace StoreFrame

section
variable {β : Type} {part : State → β} (h : StoreFrame part) (s : State)
include h

/-! ### Errors of sectors -/

theorem setErr_eq (a n : Nat) : part (setErr s a n) = part s := h.errs ..

theorem raise_eq (e : Event) : part (raise s e) = part s := h.due ..

theorem reportError_eq (d kind a ch cb : Nat) : part (reportError s d kind a ch cb) = part s := by
  unfold reportError
  dsimp only
  split
  · rfl
  · iterate 6 rw [h.report _ _ _ _ (by decide)]

theorem queueRepair_eq (d ch row a : Nat) : part (queueRepair s d ch row a) = part s := by
  unfold queueRepair
  dsimp only
  split
  · rfl
  split
  · exact (h.repairs ..).trans (h.ctl ..)
  · exact h.raise_eq ..

theorem repairCandidate_eq (d ch cb a : Nat) : part (repairCandidate s d ch cb a) = part s := by
  unfold repairCandidate
  dsimp only [useFree]
  split
  · rfl
  split
  · split
    · exact (h.ctl ..).trans (h.free ..)
    · exact (h.queueRepair_eq ..).trans (h.free ..)
  · exact h.queueRepair_eq ..

theorem foundBad_eq (a : Nat) (scrub : Bool) : part (foundBad s a scrub) = part s := by
  unfold foundBad
  dsimp only
  rw [h.raise_eq, h.repairCandidate_eq, h.reportError_eq, incr, h.report _ _ _ _ (by decide), h.setErr_eq]

theorem foundCorrected_eq (a : Nat) : part (foundCorrected s a) = part s := by
  unfold foundCorrected
  dsimp only
  split
  · rw [h.raise_eq, if_neg Bool.false_ne_true, h.repairCandidate_eq, h.reportError_eq, h.ctl, h.raise_eq, incr,
      h.report _ _ _ _ (by decide)]
  · rw [h.ctl, h.raise_eq, incr, h.report _ _ _ _ (by decide)]

theorem rmwRead_eq (a : Nat) : part (rmwRead s a).1 = part s := by
  unfold rmwRead
  split
  · rfl
  · exact (h.foundCorrected_eq ..).trans (h.setErr_eq ..)
  · exact h.foundBad_eq ..

/-! ### Bytes -/

theorem wrBytes_eq (a : Nat) (bs : List Byte) : part (wrBytes s a bs) = part s := by
  rw [Machine.wrBytes_eq]
  exact h.mem ..

theorem wrPairs_eq (ps : List (Nat × Byte)) : part (wrPairs s ps) = part s :=
  forEach_frame part ps s _ fun _ _ => h.mem ..

theorem codeFinds_eq (a symbols : Nat) : part (codeFinds s a symbols).1 = part s := by
  unfold codeFinds
  dsimp only [useFree, freeBytes]
  split
  · rfl
  split
  · exact h.free ..
  · exact (h.wrBytes_eq ..).trans ((h.free ..).trans (h.free ..))

/-! ### A store on its way -/

theorem bufferWrite_eq (d : Nat) (k : Hold) (x : Access) : part (bufferWrite s d k x) = part s := by
  have hput (t : State) (c : Nat) (f : MemCtl → MemCtl) :
      part (if c < 2 then wrPairs (updMem t d f) x.bytes else updMem t d f) = part t := by
    split
    · exact (h.wrPairs_eq ..).trans (h.ctl ..)
    · exact h.ctl ..
  unfold bufferWrite
  dsimp only
  split
  · exact hput s 0 _
  · exact (hput _ _ _).trans (h.codeFinds_eq ..)

theorem writeHeld_eq (d : Nat) (k : Hold) (x : Access) : part (writeHeld s d k x) = part s := by
  unfold writeHeld
  split
  · exact h.ctl ..
  · exact h.bufferWrite_eq ..

theorem storeMasked_eq (ps : List (Nat × Byte)) : part (storeMasked s ps) = part s := by
  unfold storeMasked
  split
  · rfl
  split
  · exact h.writeHeld_eq ..
  split
  · exact (h.wrPairs_eq ..).trans (h.setErr_eq ..)
  · next a _ _ _ _ _ =>
    have hread := h.rmwRead_eq s a
    split
    · next hwrites =>
      rw [hwrites] at hread
      exact (h.wrPairs_eq ..).trans hread
    · next hstays =>
      rw [hstays] at hread
      exact hread

theorem storeVia_eq (src : Source) (ps : List (Nat × Byte)) : part (storeVia s src ps) = part s := by
  unfold storeVia
  dsimp only
  split
  · rfl
  split
  · exact h.storeMasked_eq ..
  split
  · exact h.storeMasked_eq ..
  · exact h.posted ..

theorem storeSectors_eq (n : Nat) (src : Source) (a : Nat) (bs : List Byte) :
    part (storeSectors n s src a bs) = part s := by
  induction n generalizing s a bs with
  | zero => rfl
  | succ n ih =>
    unfold storeSectors
    dsimp only
    split
    · rfl
    · exact (ih ..).trans (h.storeVia_eq ..)

/-- A store of a die leaves such a part alone. -/
theorem storeDie_eq (d a : Nat) (bs : List Byte) : part (storeDie s d a bs) = part s := by
  unfold storeDie storeIf
  split
  · exact h.storeSectors_eq ..
  · rfl

end

/-! ### Such parts -/

/-- The sequencers are such a part. -/
theorem sequencer (e : Nat) : StoreFrame (fun s => seqOf s e) where
  mem _ _ := rfl
  errs _ _ _ := rfl
  free _ _ := rfl
  posted _ _ := rfl
  due _ _ := rfl
  ctl s _ _ := seqOf_updDie_of_seq s (by intro; rfl) e
  report _ _ _ _ _ := rfl
  repairs _ _ := rfl

/-- The fields of a sequencer's page are such parts. -/
theorem sequencerField (e : Nat) {f : Fld} (hf : f.off * 8 + f.lo < 32768) : StoreFrame (fun s => rg s (seqSlot e) f) where
  mem _ _ := rfl
  errs _ _ _ := rfl
  free _ _ := rfl
  posted _ _ := rfl
  due _ _ := rfl
  ctl _ _ _ := rfl
  report s d g v hg := rg_wg_other s v (by simp only [fkey, seqSlot, mgSlot, dieSlot]; omega)
  repairs s v := rg_wg_other s v (by simp only [fkey, seqSlot, dieSlot, solSlot, memRepairQueued]; omega)

end StoreFrame

end Sys2Proof.Machine
end

section
/-!
PROOFS. An attempt is committed or run again one rung up, alone or with its promotion group.
-/

namespace Sys2Proof.Machine

/-! ### Events of the ring -/

/-- An event of the ring leaves alone what its store, the records, EVT_LOST and EVT_HEAD do not hold. -/
theorem ringEvent_frame {β : Type} {part : State → β} (h : StoreFrame part) (s : State) (d ph rTo kind : Nat)
    (hrecords : ∀ u xs, part { u with records := xs } = part u)
    (hlost : ∀ u v, part (wg u (seqSlot d) seqStatusEvtLost v) = part u)
    (hhead : ∀ u v, part (wg u (seqSlot d) evtHead v) = part u) : part (ringEvent s d ph rTo kind) = part s := by
  unfold ringEvent
  dsimp only
  rw [hhead, h.storeDie_eq]
  split
  · exact (hrecords ..).trans (hlost ..)
  · rfl

section
variable (s : State) (d ph rTo kind : Nat)

@[simp] theorem seqOf_ringEvent (e : Nat) : seqOf (ringEvent s d ph rTo kind) e = seqOf s e :=
  ringEvent_frame (.sequencer e) s d ph rTo kind (fun _ _ => rfl) (fun _ _ => rfl) fun _ _ => rfl

@[simp] theorem phaseOf_ringEvent (e i : Nat) : phaseOf (ringEvent s d ph rTo kind) e i = phaseOf s e i := by
  rw [phaseOf, seqOf_ringEvent, phaseOf]

@[simp] theorem promoCount_ringEvent (e : Nat) :
    rg (ringEvent s d ph rTo kind) (seqSlot e) promoCount = rg s (seqSlot e) promoCount :=
  ringEvent_frame (.sequencerField e (by decide)) s d ph rTo kind (fun _ _ => rfl)
    (fun u v => rg_wg_other u v (fkey_seqSlot_ne (by decide) (by decide) (.inr (by decide))))
    fun u v => rg_wg_other u v (fkey_seqSlot_ne (by decide) (by decide) (.inr (by decide)))

end

/-! ### A member's attempt -/

/-- A phase whose attempt is discarded, to run again one rung up. -/
def rungRaised (p : Phase) : Phase :=
  { p with rung := p.rung + 1, next := 0, last := none, latch := false, latched := false, drops := 0, digest := 0 }

/-- An attempt is discarded, noted in the ring and counted in PROMO_COUNT. -/
def attemptReplayed (s : State) (d ph : Nat) : State :=
  updPhase (incr (ringEvent s d ph ((phaseOf s d ph).rung + 1) 0) (seqSlot d) promoCount) d ph rungRaised

/-- An attempt is committed, and its ended tasks hold no later phase any more. -/
def attemptCommitted (s : State) (d ph : Nat) : State :=
  dropEnded (updPhase s d ph (fun p => { p with committed := true, latched := false })) d ph

section
variable {s : State} {d ph : Nat}

/-- An attempt with a latch, below the top of its ladder, is run again. -/
theorem resolveMember_of_below (h : (phaseOf s d ph).rung + 1 < lyLadderLen (phaseOf s d ph).entry) :
    resolveMember s d ph true = attemptReplayed s d ph := if_pos ⟨rfl, h⟩

/-- One at the top is noted in the ring and committed. -/
theorem resolveMember_of_top (h : ¬(phaseOf s d ph).rung + 1 < lyLadderLen (phaseOf s d ph).entry) :
    resolveMember s d ph true =
      workDone (attemptCommitted (ringEvent s d ph (phaseOf s d ph).rung 1) d ph) d ph :=
  if_neg fun hboth => h hboth.2

/-- One without a latch is committed. -/
theorem resolveMember_of_clear : resolveMember s d ph false = workDone (attemptCommitted s d ph) d ph := by
  simp only [resolveMember, Bool.false_eq_true, false_and, if_false]
  rfl

end

section
variable (s : State) (d ph : Nat)

theorem seqOf_incr (slot : Nat) (f : Fld) (k : Nat) : seqOf (incr s slot f k) d = seqOf s d := rfl

theorem phaseOf_incr (slot : Nat) (f : Fld) (k : Nat) : phaseOf (incr s slot f k) d ph = phaseOf s d ph := rfl

theorem rg_updPhase (f : Phase → Phase) (slot : Nat) (g : Fld) : rg (updPhase s d ph f) slot g = rg s slot g := rfl

theorem phaseOf_attemptReplayed : phaseOf (attemptReplayed s d ph) d ph = rungRaised (phaseOf s d ph) := by
  rw [attemptReplayed, phaseOf_updPhase_same, phaseOf_incr, phaseOf_ringEvent]

theorem promoCount_attemptReplayed : rg (attemptReplayed s d ph) (seqSlot d) promoCount =
    min (rg s (seqSlot d) promoCount + 1) (2 ^ promoCount.w - 1) := by
  rw [attemptReplayed, rg_updPhase, rg_incr_same, promoCount_ringEvent]

theorem phaseOf_attemptCommitted :
    phaseOf (attemptCommitted s d ph) d ph = { phaseOf s d ph with committed := true, latched := false } :=
  (phaseOf_updDie_of_seq _ _ (by intro; rfl) ..).trans (phaseOf_updPhase_same ..)

variable {e : Nat} (he : e ≠ d)
include he

theorem seqOf_attemptReplayed_other : seqOf (attemptReplayed s d ph) e = seqOf s e := by
  rw [attemptReplayed, updPhase, updSeq, seqOf_updDie_other _ _ he, seqOf_incr, seqOf_ringEvent]

theorem promoCount_attemptReplayed_other :
    rg (attemptReplayed s d ph) (seqSlot e) promoCount = rg s (seqSlot e) promoCount := by
  rw [attemptReplayed, rg_updPhase, rg_incr_other _ _ (fkey_seqSlot_ne (by decide) (by decide) (.inl he)),
    promoCount_ringEvent]

end

/-! ### The group -/

/-- A die forgets the latches of a group's members. -/
def latchesDropped (g : List (Nat × Nat)) (s : State) (e : Nat) : State :=
  updDie s e (fun x => { x with latches := mkeep x.latches (fun k => !g.any (fun f => decide (k = 4 * f.2 + f.1))) })

@[simp] theorem phaseOf_latchesDropped (g : List (Nat × Nat)) (s : State) (e d ph : Nat) :
    phaseOf (latchesDropped g s e) d ph = phaseOf s d ph := phaseOf_updDie_of_seq _ _ (by intro; rfl) ..

theorem seqOf_latchesDropped (g : List (Nat × Nat)) (s : State) (e d : Nat) :
    seqOf (latchesDropped g s e) d = seqOf s d := seqOf_updDie_of_seq _ (by intro; rfl) _

@[simp] theorem rg_latchesDropped (g : List (Nat × Nat)) (s : State) (e slot : Nat) (f : Fld) :
    rg (latchesDropped g s e) slot f = rg s slot f := rfl

/-- Dropping latches and committing change a die alone. -/
theorem committed_frame (g : List (Nat × Nat)) (s : State) (d ph : Nat) :
    attemptCommitted (latchesDropped g s d) d ph =
      { s with dies := (attemptCommitted (latchesDropped g s d) d ph).dies } := by
  cases s
  rfl

/-- A member of a group forgets the latches and resolves its attempt under the combined one. -/
def memberResolved (g : List (Nat × Nat)) (latch : Bool) (s : State) (x : Nat × Nat) : State :=
  resolveMember (latchesDropped g s x.1) x.1 x.2 latch

section
variable {s : State} {d ph : Nat}

theorem resolveGroup_of_not_ready (h : groupReady s (stepOf s d) (groupOf s d ph) = false) :
    resolveGroup s d ph = s := if_pos (congrArg (!·) h)

/-- A group that is ready resolves each member's attempt. -/
theorem resolveGroup_of_ready (h : groupReady s (stepOf s d) (groupOf s d ph) = true) :
    resolveGroup s d ph = forEach (groupOf s d ph) s
      (memberResolved (groupOf s d ph) ((groupOf s d ph).any (fun x => (phaseOf s x.1 x.2).latch))) :=
  if_neg (ne_true_of_eq_false (congrArg (!·) h))

/-- A phase alone in its group is ready once its attempt has ended. -/
theorem groupReady_alone (h : (phaseOf s d ph).latched = true) : groupReady s (stepOf s d) [(d, ph)] = true := by
  simp [groupReady, h]

/-- A phase alone in its group resolves under its own latch. -/
theorem resolveGroup_alone (hgroup : groupOf s d ph = [(d, ph)]) (h : (phaseOf s d ph).latched = true) :
    resolveGroup s d ph = resolveMember (latchesDropped [(d, ph)] s d) d ph (phaseOf s d ph).latch := by
  have hready := groupReady_alone h
  rw [← hgroup] at hready
  rw [resolveGroup_of_ready hready, hgroup, List.any_cons, List.any_nil, Bool.or_false]
  rfl

/-- A group has one member on each of its dies. -/
theorem pairwise_groupOf : (groupOf s d ph).Pairwise (fun x y => x.1 ≠ y.1) := by
  refine List.Pairwise.filterMap _ (R := (· ≠ ·)) (fun a b hne x hx y hy => ?_) List.nodup_range
  have hdie (e : Nat) (z : Nat × Nat) (hz : z ∈ (if e = d then some (d, ph)
      else (groupMember s d (phaseOf s d ph).desc e).map (fun i => (e, i)))) : z.1 = e := by
    split at hz
    · next he =>
      obtain rfl := Option.mem_some_iff.mp hz
      exact he.symm
    · obtain ⟨i, -, rfl⟩ := Option.map_eq_some_iff.mp hz
      rfl
  rwa [hdie a x hx, hdie b y hy]

end

/-! ### A group that runs again -/

/-- Does a member's attempt stand below the top of its ladder? -/
def BelowTop (s : State) (x : Nat × Nat) : Prop :=
  (phaseOf s x.1 x.2).rung + 1 < lyLadderLen (phaseOf s x.1 x.2).entry

/-- A die's sequencer and its PROMO_COUNT are the same in two states. -/
def SameSequencer (e : Nat) (s t : State) : Prop :=
  seqOf t e = seqOf s e ∧ rg t (seqSlot e) promoCount = rg s (seqSlot e) promoCount

/-- A member's attempt is run again one rung up, and counted. -/
def RunsAgain (x : Nat × Nat) (s t : State) : Prop :=
  phaseOf t x.1 x.2 = rungRaised (phaseOf s x.1 x.2) ∧
  rg t (seqSlot x.1) promoCount = min (rg s (seqSlot x.1) promoCount + 1) (2 ^ promoCount.w - 1)

theorem SameSequencer.phaseOf_eq {e : Nat} {s t : State} (h : SameSequencer e s t) (ph : Nat) :
    phaseOf t e ph = phaseOf s e ph := by
  rw [phaseOf, h.1, phaseOf]

theorem SameSequencer.belowTop {s t : State} {x : Nat × Nat} (h : SameSequencer x.1 s t) (hx : BelowTop s x) :
    BelowTop t x := by
  rwa [BelowTop, h.phaseOf_eq]

section
variable (g : List (Nat × Nat)) {s : State} {x : Nat × Nat} (hx : BelowTop s x)
include hx

theorem memberResolved_of_belowTop :
    memberResolved g true s x = attemptReplayed (latchesDropped g s x.1) x.1 x.2 := by
  refine resolveMember_of_below ?_
  rw [phaseOf_latchesDropped]
  exact hx

theorem memberResolved_runsAgain : RunsAgain x s (memberResolved g true s x) := by
  rw [memberResolved_of_belowTop g hx]
  refine ⟨?_, promoCount_attemptReplayed ..⟩
  rw [phaseOf_attemptReplayed, phaseOf_latchesDropped]

theorem memberResolved_sameSequencer {e : Nat} (he : e ≠ x.1) : SameSequencer e s (memberResolved g true s x) := by
  rw [memberResolved_of_belowTop g hx]
  exact ⟨(seqOf_attemptReplayed_other _ _ _ he).trans (seqOf_latchesDropped ..),
    promoCount_attemptReplayed_other _ _ _ he⟩

end

/-- Members below their tops that run again leave the sequencers of other dies alone. -/
theorem sameSequencer_forEach (g : List (Nat × Nat)) {xs : List (Nat × Nat)} {s : State} {e : Nat}
    (hdies : xs.Pairwise (fun x y => x.1 ≠ y.1)) (hbelow : ∀ x ∈ xs, BelowTop s x) (he : ∀ x ∈ xs, e ≠ x.1) :
    SameSequencer e s (forEach xs s (memberResolved g true)) := by
  induction xs generalizing s with
  | nil => exact ⟨rfl, rfl⟩
  | cons x xs ih =>
    obtain ⟨hother, hothers⟩ := List.pairwise_cons.mp hdies
    have hx := hbelow x List.mem_cons_self
    have hstep := memberResolved_sameSequencer g hx (he x List.mem_cons_self)
    have hrest := ih (s := memberResolved g true s x) hothers
      (fun y hy => (memberResolved_sameSequencer g hx (hother y hy).symm).belowTop
        (hbelow y (List.mem_cons_of_mem _ hy)))
      fun y hy => he y (List.mem_cons_of_mem _ hy)
    exact ⟨hrest.1.trans hstep.1, hrest.2.trans hstep.2⟩

/-- Members below their tops each run again once. -/
theorem runsAgain_forEach (g : List (Nat × Nat)) {xs : List (Nat × Nat)} {s : State}
    (hdies : xs.Pairwise (fun x y => x.1 ≠ y.1)) (hbelow : ∀ x ∈ xs, BelowTop s x) :
    ∀ x ∈ xs, RunsAgain x s (forEach xs s (memberResolved g true)) := by
  induction xs generalizing s with
  | nil => exact fun x hx => absurd hx List.not_mem_nil
  | cons x xs ih =>
    obtain ⟨hother, hothers⟩ := List.pairwise_cons.mp hdies
    have hx := hbelow x List.mem_cons_self
    have hsame (y : Nat × Nat) (hy : y ∈ xs) : SameSequencer y.1 s (memberResolved g true s x) :=
      memberResolved_sameSequencer g hx (hother y hy).symm
    have hbelow' : ∀ y ∈ xs, BelowTop (memberResolved g true s x) y := fun y hy =>
      (hsame y hy).belowTop (hbelow y (List.mem_cons_of_mem _ hy))
    intro y hy
    obtain rfl | hy := List.mem_cons.mp hy
    · have hfirst := memberResolved_runsAgain g hx
      have hrest := sameSequencer_forEach g hothers hbelow' hother
      exact ⟨(hrest.phaseOf_eq _).trans hfirst.1, hrest.2.trans hfirst.2⟩
    · have hlater := ih hothers hbelow' y hy
      rwa [RunsAgain, (hsame y hy).phaseOf_eq, (hsame y hy).2] at hlater

/-! ### The commands -/

/-- The end of an attempt of a die that goes on is resolved with its group. -/
theorem phaseAttemptEnd_settles {s : State} {d : Die} {ph : Nat} (hgoes : goesOn s d = true)
    (hended : attemptEnded s d ph = true) (hawaits : awaitsCommit (phaseOf s d ph) = true) :
    Settles (.phaseAttemptEnd d ph) s
      (resolveGroup (updPhase s d ph (fun p => { p with latched := true })) d ph) :=
  if_pos ⟨hgoes, hended, hawaits⟩

/-- A change of a die beside its sequencer changes no group's members. -/
theorem groupMember_updDie_of_seq (s : State) (c : Nat) {f : DieSt → DieSt} (hf : ∀ x, (f x).seq = x.seq)
    (d w e : Nat) : groupMember (updDie s c f) d w e = groupMember s d w e := by
  have hload (a n : Nat) : loadDie (updDie s c f) e a n = loadDie s e a n :=
    loadDie_congr (a := updDie s c f) (b := s) rfl rfl ..
  simp only [groupMember, comesTo, phases, phaseAddr, descOf, seqOf_updDie_of_seq s hf,
    phaseOf_updDie_of_seq s c hf, hload]
  rfl

/-- A die holds another die's latch, with the step that it belongs to. -/
def latchReceived (s : State) (src dst ph : Nat) : State :=
  updDie s dst (fun x => { x with
    latches := mset 0 x.latches (4 * ph + src) (latchValue (phaseOf s src ph).latch (stepOf s src)) })

theorem latch_latchReceived (s : State) (src dst ph : Nat) :
    mget 0 (die (latchReceived s src dst ph) dst).latches (4 * ph + src) =
      latchValue (phaseOf s src ph).latch (stepOf s src) := by
  rw [latchReceived, die_updDie_same]
  exact mget_mset_same 0 (die s dst).latches (4 * ph + src) _

/-- A latch for a die without a member is kept alone. -/
theorem receiveLatch_of_no_member {s : State} {src dst ph : Nat} (hlatched : (phaseOf s src ph).latched = true)
    (hmember : groupMember s src (phaseOf s src ph).desc dst = none) :
    receiveLatch s src dst ph = latchReceived s src dst ph := by
  have hstill : groupMember (latchReceived s src dst ph) src (phaseOf s src ph).desc dst = none :=
    (groupMember_updDie_of_seq _ _ (by intro; rfl) ..).trans hmember
  have hsent : ¬(!(phaseOf s src ph).latched) = true := ne_true_of_eq_false (congrArg (!·) hlatched)
  unfold latchReceived at hstill
  simp only [receiveLatch, if_neg hsent, hstill]
  rfl

theorem promotionLatchReceive_settles {s : State} {src dst : Die} (ph : Nat) (hne : src ≠ dst)
    (hsrc : dieRuns s src = true) (hdst : dieRuns s dst = true) (hopen : ctrlOpen s src dst = true) :
    Settles (.promotionLatchReceive src dst ph) s (receiveLatch s src dst ph) :=
  if_pos ⟨hne, hsrc, hdst, hopen⟩

/-- Settles O25: a phase alone by its latch and rung, a group by whether it is ready and by its combined latch. -/
theorem attemptsResolve : Obligations.AttemptsResolve := by
  intro d e ph s p v g together
  have hphase : phaseOf v d ph = { p with latched := true } := phaseOf_updPhase_same ..
  have hcounted (c : Nat) : rg v (seqSlot c) promoCount = rg s (seqSlot c) promoCount := rg_updPhase ..
  refine ⟨fun hgoes hended hawaits => ?_, fun hne hd he hopen hlatched hmember => ?_⟩
  · have hsettles : Settles (.phaseAttemptEnd d ph) s (resolveGroup v d ph) :=
      phaseAttemptEnd_settles hgoes hended hawaits
    refine ⟨fun hgroup => ?_, fun hwaits => ?_, fun hready htogether hbelow => ?_, fun hready hclear => ?_⟩
    · rw [resolveGroup_alone hgroup (by rw [hphase])] at hsettles
      have hstart : phaseOf (latchesDropped [(d.val, ph)] v d) d ph = { p with latched := true } :=
        (phaseOf_latchesDropped ..).trans hphase
      have hlatch : (phaseOf v d ph).latch = p.latch := by rw [hphase]
      rw [hlatch] at hsettles
      refine ⟨fun hset hbelow => ?_, fun hset htop => ?_, fun hclear => ?_⟩
      · rw [hset, resolveMember_of_below (by rw [hstart]; exact hbelow)] at hsettles
        have hcount := promoCount_attemptReplayed (latchesDropped [(d.val, ph)] v d) d ph
        rw [rg_latchesDropped, hcounted] at hcount
        refine ⟨_, hsettles, hcount, ?_⟩
        rw [phaseOf_attemptReplayed, hstart]
        exact ⟨rfl, rfl, rfl, rfl, rfl⟩
      · rw [hset, resolveMember_of_top (by rw [hstart]; exact htop)] at hsettles
        refine ⟨_, hsettles, ?_⟩
        rw [phaseOf_attemptCommitted, phaseOf_ringEvent, hstart]
        exact ⟨rfl, rfl⟩
      · rw [hclear, resolveMember_of_clear] at hsettles
        refine ⟨_, hsettles, ?_⟩
        rw [phaseOf_attemptCommitted, hstart]
        refine ⟨rfl, rfl, ?_, ?_⟩
        · rw [committed_frame]
          rfl
        · rw [committed_frame]
          rfl
    · rwa [resolveGroup_of_not_ready hwaits] at hsettles
    · rw [resolveGroup_of_ready hready] at hsettles
      have hlatch : (groupOf v d ph).any (fun x => (phaseOf v x.1 x.2).latch) = true := htogether
      rw [hlatch] at hsettles
      refine ⟨_, hsettles, fun x hx => ?_⟩
      obtain ⟨hagain, hcount⟩ := runsAgain_forEach g pairwise_groupOf hbelow x hx
      rw [hcounted] at hcount
      refine ⟨?_, ?_, ?_, ?_, hcount⟩
      · exact congrArg Phase.rung hagain
      · exact congrArg Phase.next hagain
      · exact congrArg Phase.latch hagain
      · exact congrArg Phase.drops hagain
    · rw [resolveGroup_of_ready hready] at hsettles
      have hlatch : (groupOf v d ph).any (fun x => (phaseOf v x.1 x.2).latch) = false := hclear
      have hcommits : memberResolved (groupOf v d ph) false = fun y x =>
          workDone (attemptCommitted (latchesDropped (groupOf v d ph) y x.1) x.1 x.2) x.1 x.2 :=
        funext fun y => funext fun x => resolveMember_of_clear
      rwa [hlatch, hcommits] at hsettles
  · have hsettles := promotionLatchReceive_settles ph hne hd he hopen
    rw [receiveLatch_of_no_member hlatched hmember] at hsettles
    exact ⟨_, hsettles, latch_latchReceived .., rfl⟩

end Sys2Proof.Machine
end

section
/-!
PROOFS. SEQ_CTL and DIG_CTL: start, stop and clear. A write of SEQ_CTL moves fields of that register alone, so whether
a die runs and what it can read stay as they were.
-/

namespace Sys2Proof.Machine

/-! ### Stored fields of a sequencer's page -/

theorem pgType_seqSlot (d : Die) : pgType (seqSlot d) = 0x1D := by decide +revert

theorem one_lt_pgLevel_seqSlot (d : Die) : 1 < pgLevel (pgType (seqSlot d)) := by decide +revert

theorem pgPower_seqSlot (d : Die) : pgPower (seqSlot d) < 65 := by decide +revert

theorem lo_seqFields : ∀ f ∈ blockFields 0x1D, f.lo < 32 := by decide

theorem writeField_frame (s : State) (slot val : Nat) (f : Fld) :
    writeField s slot val f = { s with regs := (writeField s slot val f).regs } := by
  unfold writeField
  dsimp only
  split
  · split
    · rfl
    · rfl
  · rfl
  · rfl

theorem rg_writeField_other (s : State) {slot a : Nat} (val : Nat) {f g : Fld} (h : fkey a g ≠ fkey slot f) :
    rg (writeField s slot val f) a g = rg s a g := by
  unfold writeField
  dsimp only
  split
  · split
    · exact rg_wg_other _ _ h
    · rfl
  · exact rg_wg_other _ _ h
  · rfl

/-- A register write changes registers alone. -/
theorem writeStored_frame (s : State) (slot off val : Nat) :
    writeStored s slot off val = { s with regs := (writeStored s slot off val).regs } :=
  forEach_regs _ s _ fun t f => writeField_frame t slot val f

/-- A register write leaves fields alone that stand elsewhere. -/
theorem rg_writeStored_other (s : State) {slot a off : Nat} (val : Nat) {g : Fld}
    (h : ∀ f ∈ blockFields (pgType slot), f.off = off → fkey a g ≠ fkey slot f) :
    rg (writeStored s slot off val) a g = rg s a g := by
  refine rg_forEach_frame _ s _ a g fun t f hf => rg_writeField_other t val ?_
  obtain ⟨hmem, hoff⟩ := List.mem_filter.mp hf
  exact h f hmem (of_decide_eq_true hoff)

/-! ### States that differ in one sequencer's SEQ_CTL -/

/-- A state with another register store. -/
def withRegs (s : State) (r : Map Nat) : State := { s with regs := r }

/-- The store `r` differs from the registers of `s` in SEQ_CTL of die `d` alone. -/
structure SeqCtlOnly (d : Nat) (s : State) (r : Map Nat) : Prop where
  elsewhere : ∀ slot f, slot ≠ seqSlot d → f.off * 8 + f.lo < 32768 → rg (withRegs s r) slot f = rg s slot f
  beyond : ∀ f, 0x84 ≤ f.off → f.off < 4092 → f.lo < 32 → rg (withRegs s r) (seqSlot d) f = rg s (seqSlot d) f

/-- A write of SEQ_CTL leads to such a state. -/
theorem writeStored_seqCtl (s : State) (d : Die) (val : Nat) :
    ∃ r, writeStored s (seqSlot d) 0x80 val = withRegs s r ∧ SeqCtlOnly d s r := by
  have hframe := writeStored_frame s (seqSlot d) 0x80 val
  refine ⟨_, hframe, fun slot g hslot hg => ?_, fun g hlow hhigh hg => ?_⟩
  · rw [withRegs, ← hframe]
    refine rg_writeStored_other s val fun f hf hoff => ?_
    rw [pgType_seqSlot] at hf
    have hlo := lo_seqFields f hf
    simp only [fkey]
    omega
  · rw [withRegs, ← hframe]
    refine rg_writeStored_other s val fun f hf hoff => ?_
    rw [pgType_seqSlot] at hf
    have hlo := lo_seqFields f hf
    simp only [fkey]
    omega

namespace SeqCtlOnly

variable {d : Nat} {s : State} {r : Map Nat} (h : SeqCtlOnly d s r)
include h

theorem sol_eq {f : Fld} (hf : f.off * 8 + f.lo < 32768) : rg (withRegs s r) solSlot f = rg s solSlot f :=
  h.elsewhere _ _ (by simp only [solSlot, seqSlot, dieSlot]; omega) hf

theorem pwr_eq {f : Fld} (hf : f.off * 8 + f.lo < 32768) : rg (withRegs s r) pwrSlot f = rg s pwrSlot f :=
  h.elsewhere _ _ (by simp only [pwrSlot, seqSlot, dieSlot]; omega) hf

/-! ### Whether a die runs -/

theorem lobeOff_eq (l : Nat) : lobeOff (withRegs s r) l = lobeOff s l := by
  unfold lobeOff rgB
  split
  · rw [h.pwr_eq (by decide)]
  · rw [h.pwr_eq (by decide)]

theorem lobeFenced_eq (l : Nat) : lobeFenced (withRegs s r) l = lobeFenced s l := by
  unfold lobeFenced rgB
  split
  · rw [h.sol_eq (by decide)]
  · rw [h.sol_eq (by decide)]

theorem domainOn_eq {dom : Nat} (hdom : dom < 65) : domainOn (withRegs s r) dom = domainOn s dom := by
  have hoe : ¬65 ≤ dom := by omega
  simp only [domainOn, ge_iff_le, hoe, decide_false, Bool.false_and, h.lobeOff_eq, h.pwr_eq (f := pwrStateCur) (by decide)]
  rfl

theorem performs_seqSlot_eq (e : Die) : performs (withRegs s r) (seqSlot e) = performs s (seqSlot e) := by
  have hlevel : ¬pgLevel (pgType (seqSlot e)) ≤ 1 := Nat.not_le.mpr (one_lt_pgLevel_seqSlot e)
  simp only [performs, pagePower, pageReset, pageFenced, pageInReset, rgB, hlevel, decide_false, Bool.and_false,
    Bool.false_and, Bool.or_false, h.domainOn_eq (pgPower_seqSlot e), h.lobeFenced_eq,
    h.sol_eq (f := resetStatusHeld) (by decide)]
  rfl

theorem dieRuns_eq (e : Die) : dieRuns (withRegs s r) e = dieRuns s e :=
  congrArg (· && _) (h.performs_seqSlot_eq e)

/-! ### What a die can read -/

theorem pairedForm_eq : pairedForm (withRegs s r) = pairedForm s := by
  rw [pairedForm, h.sol_eq (by decide), pairedForm]

theorem dieAddr_eq (e a : Nat) : dieAddr (withRegs s r) e a = dieAddr s e a := by
  rw [dieAddr, h.pairedForm_eq, dieAddr]

theorem loadDie_eq (e a n : Nat) : loadDie (withRegs s r) e a n = loadDie s e a n :=
  loadDie_congr (a := withRegs s r) (b := s) rfl h.pairedForm_eq ..

theorem shareBase_eq (m : Dom) : shareBase (withRegs s r) m = shareBase s m := by
  cases m with
  | pkg => rfl
  | buffer e => rfl
  | lobe l => rw [shareBase, h.sol_eq (by decide), shareBase]
  | dieLocal e => rw [shareBase, h.sol_eq (by decide), h.sol_eq (by decide), shareBase]

theorem locate_eq (a : Nat) : locate (withRegs s r) a = locate s a := by
  have hlive (m : Dom) : liveOf (withRegs s r) m = liveOf s m := rfl
  have hentry (m : Dom) (i : Nat) : tableEntry (withRegs s r) m i = tableEntry s m i := rfl
  simp only [locate, hlive, hentry, h.shareBase_eq]

theorem heldAt_eq (a : Nat) : heldAt (withRegs s r) a = heldAt s a := by
  have hctl (e : Nat) : memCtl (withRegs s r) e = memCtl s e := rfl
  simp only [heldAt, hctl, h.locate_eq]

theorem hopOpen_eq (k : Hop) : hopOpen (withRegs s r) k = hopOpen s k := by
  have hpage (e : EdgeEnd) : (edgeSet e).1 ≠ seqSlot d ∧
      (edgeStatusState (edgeSet e).2).off * 8 + (edgeStatusState (edgeSet e).2).lo < 32768 := by
    have hedge := e.edge.isLt
    unfold edgeSet
    dsimp only
    split
    · simp only [rilSlot, seqSlot, dieSlot, edgeStatusState]
      omega
    split
    · simp only [cedgeSlot, halfSlot, seqSlot, dieSlot, edgeStatusState]
      omega
    · simp only [rilSlot, seqSlot, dieSlot, edgeStatusState]
      omega
  have hstate (e : EdgeEnd) : erg (withRegs s r) e edgeStatusState = erg s e edgeStatusState :=
    h.elsewhere _ _ (hpage e).1 (hpage e).2
  cases k with
  | spine => rfl
  | edge i => simp only [hopOpen, hstate]

theorem edgesOpen_eq : edgesOpen (withRegs s r) = edgesOpen s := by
  simp only [edgesOpen, h.hopOpen_eq]

theorem pathShut_eq (src : Source) (a n : Nat) : pathShut (withRegs s r) src a n = pathShut s src a n := by
  have hhop : hopOpen (withRegs s r) = hopOpen s := funext h.hopOpen_eq
  simp only [pathShut, diesOf, chansOf, pathOpen, h.locate_eq, hhop]

theorem isHeld_eq (src : Source) (a n : Nat) : isHeld (withRegs s r) src a n = isHeld s src a n := by
  have hgranule : granuleHeld (withRegs s r) = granuleHeld s := by
    funext g
    simp only [granuleHeld, h.heldAt_eq]
  simp only [isHeld, hgranule, h.edgesOpen_eq, h.pathShut_eq]
  rfl

/-- A die waits for what it waited for. -/
theorem waitsDie_eq (e : Nat) (rs : List (Nat × Nat)) : waitsDie (withRegs s r) e rs = waitsDie s e rs := by
  simp only [waitsDie, dieRanges, h.dieAddr_eq, h.isHeld_eq]

/-! ### The sequencer itself -/

theorem state_eq : rg (withRegs s r) (seqSlot d) seqStatusState = rg s (seqSlot d) seqStatusState :=
  h.beyond _ (by decide) (by decide) (by decide)

theorem seqRunning_eq : seqRunning (withRegs s r) d = seqRunning s d := by
  rw [seqRunning, h.state_eq, seqRunning]

theorem seqJobAt_eq : seqJobAt (withRegs s r) d = seqJobAt s d := by
  rw [seqJobAt, h.beyond _ (by decide) (by decide) (by decide), h.beyond _ (by decide) (by decide) (by decide), seqJobAt]

end SeqCtlOnly

/-! ### The start with a job block -/

/-- Without sectors in error a read reports nothing. -/
theorem checkDie_of_no_errs {s : State} (d : Nat) (rs : List (Nat × Nat)) (herrs : s.errs = []) :
    checkDie s d rs = s := by
  rw [checkDie, herrs]
  rfl

/-- A start waits no more. -/
def startTaken (s : State) (d : Nat) : State := updSeq s d (fun q => { q with wants := false })

/-- What a sequencer takes of a job block. -/
def jobLoaded (w : Nat) (cmd : Option (Nat × Nat)) : Seq :=
  { progBase := jbProgBase w, layerBase := jbLayerBase w, lrBase := jbLrBase w
    evtBase := jbEvtBase w, progCount := jbProgCount w, lrCount := jbLrCount w
    evtCount := jbEvtCount w, job := jbJob w, cmd := cmd }

/-- STATE reads running, the event ring is empty, and the sequencer has its job block. -/
def seqStarted (s : State) (d w : Nat) (cmd : Option (Nat × Nat)) : State :=
  let s := wg (wg s (seqSlot d) seqStatusState 1) (seqSlot d) evtHead 0
  updSeq { s with seg := s.seg.map (fun q => { q with heads := mset 0 q.heads d 0 }) } d (fun _ => jobLoaded w cmd)

/-- STATE reads failed, and SEQ_MALFORMED names no job. -/
def startRefused (s : State) (d : Nat) : State :=
  raise (wg s (seqSlot d) seqStatusState 3) { slot := seqSlot d, src := srcSeqMalformed }

theorem state_startRefused (s : State) (d : Nat) : rg (startRefused s d) (seqSlot d) seqStatusState = 3 := by
  change rg (wg s (seqSlot d) seqStatusState 3) (seqSlot d) seqStatusState = 3
  rw [rg_wg_same]
  rfl

/-- What a start reads is not changed by its waiting. -/
theorem loadDie_startTaken (s : State) (d a n : Nat) : loadDie (startTaken s d) d a n = loadDie s d a n :=
  loadDie_congr (a := startTaken s d) (b := s) rfl rfl ..

section
variable {s : State} {d addr : Nat} (herrs : s.errs = [])
include herrs

/-- A start with an accepted block begins a step. -/
theorem startSeq_of_jobBlockOk (hok : jobBlockOk s addr (loadDie s d addr 64) = true) : startSeq s d addr none =
    beginStep (seqStarted (startTaken s d) d (loadDie s d addr 64) none) d := by
  have hread : checkDie (startTaken s d) d [(addr, 64)] = startTaken s d := checkDie_of_no_errs _ _ herrs
  rw [← loadDie_startTaken] at hok ⊢
  unfold startSeq
  rw [← startTaken, hread]
  exact if_neg (ne_true_of_eq_false (congrArg (!·) hok))

/-- Any other block is refused. -/
theorem startSeq_of_not_jobBlockOk (hbad : jobBlockOk s addr (loadDie s d addr 64) = false) :
    startSeq s d addr none = startRefused (startTaken s d) d := by
  have hread : checkDie (startTaken s d) d [(addr, 64)] = startTaken s d := checkDie_of_no_errs _ _ herrs
  rw [← loadDie_startTaken] at hbad
  unfold startSeq
  rw [← startTaken, hread]
  exact if_pos (congrArg (!·) hbad)

end

section
variable (s : State) (d w : Nat)

theorem state_started : rg (beginStep (seqStarted s d w none) d) (seqSlot d) seqStatusState = 1 := by
  rw [rg_beginStep]
  change rg (wg (wg s (seqSlot d) seqStatusState 1) (seqSlot d) evtHead 0) (seqSlot d) seqStatusState = 1
  rw [rg_wg_other _ _ (fkey_seqSlot_ne (by decide) (by decide) (.inr (by decide))), rg_wg_same]
  rfl

theorem evtHead_started : rg (beginStep (seqStarted s d w none) d) (seqSlot d) evtHead = 0 := by
  rw [rg_beginStep]
  change rg (wg (wg s (seqSlot d) seqStatusState 1) (seqSlot d) evtHead 0) (seqSlot d) evtHead = 0
  rw [rg_wg_same, Nat.zero_mod]

/-- The started sequencer is at a new step of its job block. -/
theorem seqOf_started : ∃ n base, seqOf (beginStep (seqStarted s d w none) d) d =
    { jobLoaded w none with stepNo := n, recvBase := base } := by
  rw [seqOf_beginStep, seqStarted, seqOf_updSeq_same]
  exact ⟨_, _, rfl⟩

theorem started_frame : beginStep (seqStarted (startTaken s d) d w none) d = { s with
    regs := (beginStep (seqStarted (startTaken s d) d w none) d).regs
    dies := (beginStep (seqStarted (startTaken s d) d w none) d).dies
    seg := (beginStep (seqStarted (startTaken s d) d w none) d).seg } := by
  cases s
  rfl

end

/-! ### The commands -/

section
variable {s : State} {r : Requester} {d : Die} (hruns : performs s (seqSlot d) = true) (hreach : reached s r = true)
include hruns hreach

theorem guardedWrite_sequencer (off : Nat) (f : State → State) : guardedWrite s r (seqSlot d) off f = f s :=
  guardedWrite_of_performs off f (fun _ => one_lt_pgLevel_seqSlot d) hruns hreach

/-- START without STOP starts a sequencer that does not run, on a die that may. -/
theorem seqStart_settles {val : BitVec 32} {m : Map Nat} (hwrite : writeStored s (seqSlot d) 0x80 val.toNat = withRegs s m)
    (hm : SeqCtlOnly d s m) (hstop : val.getLsbD 1 = false) (hidle : seqRunning s d = false)
    (hlobe : mget 0 s.lobeIdle (d.val / 2) = 0) : Settles (.seqStart r d val) s (startHere (withRegs s m) d) := by
  change execSeqStart r d val s = _
  have hstill : ¬(seqRunning (withRegs s m) d = true ∨ (!dieRuns (withRegs s m) d) = true) := by
    rw [hm.seqRunning_eq, hm.dieRuns_eq, hidle, dieRuns, hruns, lobeOf, hlobe]
    decide
  have hbit : ¬bit val.toNat 1 = true := ne_true_of_eq_false hstop
  rw [execSeqStart, guardedWrite_sequencer hruns hreach, writeSeqCtl, hwrite, if_neg hbit, if_pos rfl, seqStartNow,
    if_neg hstill]

/-- STOP is written with the other fields. -/
theorem seqStop_ends {val : BitVec 32} {m : Map Nat} (hwrite : writeStored s (seqSlot d) 0x80 val.toNat = withRegs s m) :
    Ends (.seqStop r d val) s (seqStopNow (withRegs s m) d) := by
  change execSeqStop r d val s = _
  rw [execSeqStop, guardedWrite_sequencer hruns hreach, writeSeqCtl, hwrite]
  rfl

theorem digClear_ends (val : BitVec 32) : Ends (.digClear r d val) s
    (setRunDigest (writeStored s (seqSlot d) 0xA0 val.toNat) d 0) := by
  change execDigClear r d val s = _
  rw [execDigClear, guardedWrite_sequencer hruns hreach]
  rfl

end

/-- A start that waits is given up. -/
def startGivenUp (s : State) (d : Nat) : State := if (seqOf s d).wants then startTaken s d else s

section
variable (s : State) (d : Nat)

theorem wants_startGivenUp : (seqOf (startGivenUp s d) d).wants = false := by
  unfold startGivenUp
  split
  · rw [startTaken, seqOf_updSeq_same]
  · next h => exact eq_false_of_ne_true h

theorem startGivenUp_frame : startGivenUp s d = { s with dies := (startGivenUp s d).dies } := by
  unfold startGivenUp
  split
  · rfl
  · rfl

/-- A running sequencer that is to stop gives up a start that waits. -/
theorem seqStopNow_of_runs {s : State} {d : Nat} (h : rg s (seqSlot d) seqStatusState = 1) :
    seqStopNow s d = wg (startGivenUp s d) (seqSlot d) seqStatusState 2 := by
  have hstill : rg (startGivenUp s d) (seqSlot d) seqStatusState = 1 := by
    rwa [startGivenUp_frame]
  exact if_pos hstill

end

/-- Settles O23: START by whether the job block can be read and is accepted, then STOP and CLR. -/
theorem sequencerStartsStops : Obligations.SequencerStartsStops := by
  intro r d val s hruns hreach m addr w
  obtain ⟨regs, hwrite, hregs⟩ := writeStored_seqCtl s d val.toNat
  refine ⟨fun hstop hidle hlobe => ?_, fun hstate => ?_, ?_⟩
  · have hsettles := seqStart_settles hruns hreach hwrite hregs hstop hidle hlobe
    have haddr : seqJobAt s d = addr := rfl
    have hload : loadDie (withRegs s regs) d addr 64 = w := hregs.loadDie_eq ..
    rw [startHere, hregs.seqJobAt_eq, hregs.waitsDie_eq, haddr] at hsettles
    refine ⟨fun hwaits => ?_, fun hreads herrs hok => ?_, fun hreads herrs hbad => ?_⟩
    · rw [if_pos hwaits] at hsettles
      refine ⟨_, hsettles, ?_, hregs.state_eq, rfl⟩
      rw [seqOf_updSeq_same]
    · rw [if_neg (ne_true_of_eq_false hreads), startSeq_of_jobBlockOk (s := withRegs s regs) herrs (hload ▸ hok),
        hload] at hsettles
      obtain ⟨n, base, hseq⟩ := seqOf_started (startTaken (withRegs s regs) d) d w
      refine ⟨_, hsettles, state_started .., evtHead_started .., ?_⟩
      rw [hseq]
      exact ⟨rfl, rfl, rfl, rfl, rfl, rfl, rfl, rfl, rfl, rfl, started_frame ..⟩
    · rw [if_neg (ne_true_of_eq_false hreads),
        startSeq_of_not_jobBlockOk (s := withRegs s regs) herrs (hload ▸ hbad)] at hsettles
      exact ⟨_, hsettles, state_startRefused .., rfl, rfl⟩
  · have hends := seqStop_ends hruns hreach hwrite
    rw [seqStopNow_of_runs (hregs.state_eq.trans hstate)] at hends
    refine ⟨_, hends, rg_wg_same .., wants_startGivenUp .., ?_⟩
    rw [startGivenUp_frame]
    rfl
  · refine ⟨_, digClear_ends hruns hreach val, fun n hn => ?_, ?_⟩
    · rw [rg_setRunDigest _ _ _ hn, Nat.zero_div, Nat.zero_mod]
    · rw [setRunDigest_frame, writeStored_frame]

end Sys2Proof.Machine
end

section
/-!
PROOFS. Refresh, calibration and holds of memory channels: what the effects of accesses keep of every die's hold, what
the end of a hold comes to, and what each command does.
-/

namespace Sys2Proof.Machine

/-! ### Memory control -/

@[simp] theorem memCtl_updMem_same (s : State) (d : Nat) (f : MemCtl → MemCtl) :
    memCtl (updMem s d f) d = f (memCtl s d) :=
  congrArg DieSt.mem (die_updDie_same ..)

/-- A change that leaves a part of memory control alone leaves it alone on every die. -/
theorem memCtl_updMem_frame {β : Type} (part : MemCtl → β) (s : State) (d : Nat) {f : MemCtl → MemCtl}
    (hf : ∀ m, part (f m) = part m) (e : Nat) : part (memCtl (updMem s d f) e) = part (memCtl s e) := by
  by_cases he : e = d
  · subst he
    rw [memCtl_updMem_same, hf]
  · exact congrArg (fun x : DieSt => part x.mem) (die_updDie_other s _ he)

/-- Fields at different places of their pages have different keys. -/
theorem fkey_ne_of_place_ne {a b : Nat} {f g : Fld} (hf : f.off * 8 + f.lo < 32768) (hg : g.off * 8 + g.lo < 32768)
    (hne : f.off * 8 + f.lo ≠ g.off * 8 + g.lo) : fkey a f ≠ fkey b g := by
  simp only [fkey]
  omega

/-! ### What the effects of accesses keep of the holds -/

/-- Every die's hold, its soft repairs and HOLD_STATUS.ACTIVE are as they were, and events have only been added. -/
structure KeepsHolds (s t : State) : Prop where
  hold : ∀ e, (memCtl t e).hold = (memCtl s e).hold
  soft : ∀ e, (memCtl t e).soft = (memCtl s e).soft
  active : ∀ e, rg t (mgSlot e) holdStatusActive = rg s (mgSlot e) holdStatusActive
  due : s.due <+: t.due

namespace KeepsHolds

theorem refl (s : State) : KeepsHolds s s := ⟨fun _ => rfl, fun _ => rfl, fun _ => rfl, [], List.append_nil _⟩

section
variable {s t : State} (h : KeepsHolds s t)
include h

/-! #### The parts of the state -/

/-- A change outside the dies, the registers and the raised events. -/
theorem elsewhere {u : State} (hdies : u.dies = t.dies) (hregs : u.regs = t.regs) (hdue : u.due = t.due) :
    KeepsHolds s u where
  hold e := by rw [memCtl, die, hdies]; exact h.hold e
  soft e := by rw [memCtl, die, hdies]; exact h.soft e
  active e := (rg_congr hregs ..).trans (h.active e)
  due := hdue ▸ h.due

theorem afterWg (slot : Nat) {f : Fld} (v : Nat)
    (hf : f.off * 8 + f.lo < 32768 ∧ f.off * 8 + f.lo ≠ holdStatusActive.off * 8 + holdStatusActive.lo) :
    KeepsHolds s (wg t slot f v) where
  hold := h.hold
  soft := h.soft
  active e := (rg_wg_other t v (fkey_ne_of_place_ne (by decide) hf.1 hf.2.symm)).trans (h.active e)
  due := h.due

theorem afterUpdMem (d : Nat) {f : MemCtl → MemCtl} (hf : ∀ m, (f m).hold = m.hold ∧ (f m).soft = m.soft) :
    KeepsHolds s (updMem t d f) where
  hold e := (memCtl_updMem_frame MemCtl.hold t d (fun m => (hf m).1) e).trans (h.hold e)
  soft e := (memCtl_updMem_frame MemCtl.soft t d (fun m => (hf m).2) e).trans (h.soft e)
  active := h.active
  due := h.due

theorem afterIncr (slot : Nat) {f : Fld} (k : Nat)
    (hf : f.off * 8 + f.lo < 32768 ∧ f.off * 8 + f.lo ≠ holdStatusActive.off * 8 + holdStatusActive.lo) :
    KeepsHolds s (incr t slot f k) := h.afterWg slot _ hf

theorem afterRaise (e : Event) : KeepsHolds s (raise t e) :=
  ⟨h.hold, h.soft, h.active, h.due.trans ⟨[e], rfl⟩⟩

/-- A change that keeps the holds keeps them however often it is made. -/
theorem afterForEach {α : Type} (xs : List α) {f : State → α → State}
    (hf : ∀ u x, KeepsHolds s u → KeepsHolds s (f u x)) : KeepsHolds s (forEach xs t f) := by
  induction xs generalizing t with
  | nil => exact h
  | cons x xs ih => exact ih (hf t x h)

/-! #### Errors of sectors -/

theorem afterSetErr (a n : Nat) : KeepsHolds s (setErr t a n) := h.elsewhere rfl rfl rfl

theorem afterReportError (d kind a ch cb : Nat) : KeepsHolds s (reportError t d kind a ch cb) := by
  unfold reportError
  dsimp only
  split
  · exact h
  · iterate 6 refine afterWg ?_ _ _ (by decide)
    exact h

theorem afterQueueRepair (d ch row a : Nat) : KeepsHolds s (queueRepair t d ch row a) := by
  unfold queueRepair
  dsimp only
  split
  · exact h
  split
  · refine afterWg ?_ _ _ (by decide)
    exact h.afterUpdMem d fun _ => ⟨rfl, rfl⟩
  · exact h.afterRaise _

theorem afterRepairCandidate (d ch cb a : Nat) : KeepsHolds s (repairCandidate t d ch cb a) := by
  have hfree : KeepsHolds s { t with free := t.free + 1 } := h.elsewhere rfl rfl rfl
  unfold repairCandidate
  dsimp only [useFree]
  split
  · exact h
  split
  · split
    · exact hfree.afterUpdMem d fun _ => ⟨rfl, rfl⟩
    · exact hfree.afterQueueRepair ..
  · exact h.afterQueueRepair ..

theorem afterFoundBad (a : Nat) (scrub : Bool) : KeepsHolds s (foundBad t a scrub) := by
  unfold foundBad
  dsimp only
  refine afterRaise (afterRepairCandidate (afterReportError (afterIncr ?_ _ _ (by decide)) ..) ..) _
  exact h.afterSetErr ..

theorem afterFoundCorrected (a : Nat) (repairs : Bool) : KeepsHolds s (foundCorrected t a repairs) := by
  have hcounted (d k : Nat) (e : Event) (es : List SectorEntry) :
      KeepsHolds s (updMem (raise (incr t (mgSlot d) ceCount k) e) d (fun m => { m with sectors := es })) :=
    afterUpdMem (afterRaise (afterIncr h _ _ (by decide)) _) d fun _ => ⟨rfl, rfl⟩
  unfold foundCorrected
  dsimp only
  split
  · refine afterRaise ?_ _
    cases repairs with
    | true => exact (hcounted ..).afterReportError ..
    | false => exact ((hcounted ..).afterReportError ..).afterRepairCandidate ..
  · exact hcounted ..

theorem afterCodeFinds (a symbols : Nat) : KeepsHolds s (codeFinds t a symbols).1 := by
  unfold codeFinds
  dsimp only [useFree, freeBytes]
  split
  · exact h
  split
  · exact h.elsewhere rfl rfl rfl
  · rw [wrBytes_eq]
    exact h.elsewhere rfl rfl rfl

/-! #### Accesses -/

theorem afterRetire (slot k : Nat) : KeepsHolds s (retire t slot k) := h.elsewhere rfl rfl rfl

theorem afterTurnBus (d ch dir : Nat) : KeepsHolds s (turnBus t d ch dir) := by
  have hturned (p : Nat × State) (hp : KeepsHolds s p.2) :
      let v := updMem p.2 d (fun m => { m with dirs := mset 0 m.dirs ch dir })
      KeepsHolds s (if p.1 = 0 ∨ p.1 = dir then v else incr v (mgSlot d) turnCount) := by
    have hdirs : KeepsHolds s (updMem p.2 d (fun m => { m with dirs := mset 0 m.dirs ch dir })) :=
      hp.afterUpdMem d fun _ => ⟨rfl, rfl⟩
    dsimp only
    split
    · exact hdirs
    · exact hdirs.afterIncr _ _ (by decide)
  unfold turnBus
  dsimp only [useFree]
  refine hturned _ ?_
  split
  · exact h.elsewhere rfl rfl rfl
  · exact h

theorem afterTurnFor (d ch : Nat) (ts : List Nat) : KeepsHolds s (turnFor t d ch ts) :=
  h.afterForEach ts fun _ x hu => hu.afterTurnBus d ch x

theorem afterNoteSeen (by_ : Reader) (a : Nat) : KeepsHolds s (noteSeen t by_ a) := by
  unfold noteSeen
  split
  · exact h
  · exact h.elsewhere rfl rfl rfl

theorem afterSpoilTask (by_ : Reader) : KeepsHolds s (spoilTask t by_) := by
  unfold spoilTask
  split
  · exact h.elsewhere rfl rfl rfl
  · exact h

theorem afterReadOne (by_ : Reader) (a symbols : Nat) : KeepsHolds s (readOne t by_ a symbols) := by
  have hcode := h.afterCodeFinds a symbols
  unfold readOne
  generalize codeFinds t a symbols = p at hcode ⊢
  obtain ⟨u, _ | _ | n⟩ := p
  · exact hcode.afterSetErr ..
  · exact ((hcode.afterSetErr ..).afterFoundCorrected ..).afterNoteSeen ..
  · exact ((hcode.afterFoundBad ..).afterNoteSeen ..).afterSpoilTask ..

theorem afterWrPairs (ps : List (Nat × Byte)) : KeepsHolds s (wrPairs t ps) :=
  h.afterForEach ps fun _ _ hu => hu.elsewhere rfl rfl rfl

theorem afterReaderEffect (d : Nat) (by_ : Reader) (x : Access) : KeepsHolds s (readerEffect t d by_ x) :=
  (h.afterForEach _ fun _ _ hu => hu.afterReadOne ..).afterRetire ..

theorem afterWriteEffect (d : Nat) (x : Access) (buffered : Bool) : KeepsHolds s (writeEffect t d x buffered).1 := by
  have hput (u : State) (hu : KeepsHolds s u) : KeepsHolds s (if buffered then u else wrPairs u x.bytes) := by
    split
    · exact hu
    · exact hu.afterWrPairs _
  have hretired := h.afterRetire (mgSlot d) 1
  unfold writeEffect
  dsimp only
  split
  · exact hput _ (hretired.afterSetErr ..)
  · have hcode := hretired.afterCodeFinds x.addr (x.symbols.getD 0 (errOf (retire t (mgSlot d)) x.addr))
    generalize codeFinds (retire t (mgSlot d)) x.addr _ = p at hcode ⊢
    obtain ⟨u, _ | _ | n⟩ := p
    · exact hput _ (hcode.afterSetErr ..)
    · exact hput _ ((hcode.afterFoundCorrected ..).afterSetErr ..)
    · exact hcode.afterFoundBad ..

theorem afterAccessEffect (d : Nat) (x : Access) : KeepsHolds s (accessEffect t d x).1 := by
  unfold accessEffect
  split
  · exact h.afterReaderEffect ..
  · exact h.afterWriteEffect ..

theorem afterIssueAccess (d ch : Nat) (x : Access) : KeepsHolds s (issueAccess t d ch x) := by
  unfold issueAccess
  dsimp only
  refine afterTurnFor ?_ ..
  split
  · exact h.afterAccessEffect ..
  · exact h

theorem afterIssueQueue (k d ch : Nat) (q : List Access) (read : Bool) (n : Nat) :
    KeepsHolds s (issueQueue k t d ch q read n) := by
  induction k generalizing t q read n with
  | zero => exact h
  | succ k ih =>
    unfold issueQueue
    split
    · exact h
    split
    · exact h
    · exact ih (h.afterIssueAccess ..) ..

theorem afterIssueChannel (d ch : Nat) (behind : List Access) : KeepsHolds s (issueChannel t d ch behind) := by
  refine afterIssueQueue ?_ ..
  exact h.afterUpdMem d fun _ => ⟨rfl, rfl⟩

end

end KeepsHolds

/-! ### Refresh and calibration -/

theorem chanLive_of_performs {ch : Fin 1024} {s : State} (hin : ch.val ∉ s.outDie)
    (hruns : performs s (mgSlot (ch.val / 256)) = true) : chanLive s ch = true := by
  simp [chanLive, chanDie, hin, hruns]

/-- The request that is made waits, and those that waited go on waiting. -/
theorem mem_waiting_askHold (s : State) (ch : Nat) (k : HoldKind) :
    (ch, k) ∈ (memCtl (askHold s ch k) (chanDie ch)).waiting ∧
      ∀ y ∈ (memCtl s (chanDie ch)).waiting, y ∈ (memCtl (askHold s ch k) (chanDie ch)).waiting := by
  rw [askHold, memCtl_updMem_same]
  split
  · next hwaits => exact ⟨List.contains_iff_mem.mp hwaits, fun y hy => hy⟩
  · exact ⟨List.mem_append_right _ (List.mem_singleton_self _), fun y hy => List.mem_append_left _ hy⟩

theorem rg_askHold (s : State) (ch : Nat) (k : HoldKind) (slot : Nat) (f : Fld) :
    rg (askHold s ch k) slot f = rg s slot f := rfl

/-- A calibration step that is counted with the stack's corrections. -/
def calibrationCounted (s : State) (ch n : Nat) : State :=
  incr (incr s (mgSlot (chanDie ch)) stackCeCount n) (chanPhy ch) calCountSteps

/-- A calibration step with what its drift asks for. -/
def calibrated (s : State) (ch n : Nat) (retrain : Bool) : State :=
  let counted := calibrationCounted s ch n
  if retrain then incr (askHold counted ch .retrain) (chanPhy ch) calCountRetrains else counted

theorem stackCeCount_calibrationCounted (s : State) (ch n : Nat) :
    rg (calibrationCounted s ch n) (mgSlot (chanDie ch)) stackCeCount =
      min (rg s (mgSlot (chanDie ch)) stackCeCount + n) (2 ^ 32 - 1) :=
  (rg_incr_other _ _ (fkey_ne_of_place_ne (by decide) (by decide) (by decide))).trans (rg_incr_same ..)

theorem stackCeCount_calibrated (s : State) (ch n : Nat) (retrain : Bool) :
    rg (calibrated s ch n retrain) (mgSlot (chanDie ch)) stackCeCount =
      min (rg s (mgSlot (chanDie ch)) stackCeCount + n) (2 ^ 32 - 1) := by
  cases retrain with
  | false => exact stackCeCount_calibrationCounted ..
  | true =>
    change rg (incr (askHold (calibrationCounted s ch n) ch .retrain) (chanPhy ch) calCountRetrains) _ _ = _
    rw [rg_incr_other _ _ (fkey_ne_of_place_ne (by decide) (by decide) (by decide)), rg_askHold]
    exact stackCeCount_calibrationCounted ..

theorem calibrated_frame (s : State) (ch n : Nat) (retrain : Bool) :
    calibrated s ch n retrain =
      { s with regs := (calibrated s ch n retrain).regs, dies := (calibrated s ch n retrain).dies } := by
  cases retrain with
  | false => rfl
  | true => rfl

section
variable {ch : Fin 1024} {s : State} (n : Nat) (x : CalStep)

theorem memCalibration_ends (hlive : chanLive s ch = true)
    (hgo : x.periodic = false ∨ rg s (chanPhy ch) calCtlEn = 1) :
    Ends (.memCalibration ch n x) s (calibrated s ch n x.retrain) := by
  have hsteps : (chanLive s ch && (!x.periodic || rgB s (chanPhy ch) calCtlEn)) = true := by
    simpa [hlive, rgB] using hgo
  refine (if_pos hsteps).trans (congrArg Host.Outcome.next ?_)
  cases x.retrain with
  | false => rfl
  | true => rfl

/-- With CAL_CTL.EN = 0 no periodic step runs (R372). -/
theorem memCalibration_ends_self (hperiodic : x.periodic = true) (hoff : rg s (chanPhy ch) calCtlEn ≠ 1) :
    Ends (.memCalibration ch n x) s s := by
  refine if_neg ?_
  simp [hperiodic, rgB, hoff]

end

/-! ### The start of a hold -/

/-- A die that has begun to hold a channel. -/
def holdStarted (s : State) (d ch : Nat) (k : HoldKind) (rest : List (Nat × HoldKind)) : State :=
  let m := updMem s d (fun m => { m with hold := some { chan := ch, kind := k }, waiting := rest })
  incr (wg (wg m (mgSlot d) holdStatusActive 1) (mgSlot d) holdStatusChannel ch) (mgSlot d) holdStatusHolds

theorem memCtl_holdStarted (s : State) (d ch : Nat) (k : HoldKind) (rest : List (Nat × HoldKind)) :
    memCtl (holdStarted s d ch k rest) d =
      { memCtl s d with hold := some { chan := ch, kind := k }, waiting := rest } :=
  memCtl_updMem_same s d fun m => { m with hold := some { chan := ch, kind := k }, waiting := rest }

/-- HOLD_STATUS shows the channel, and one hold more. -/
theorem holdStatus_holdStarted (s : State) (d ch : Nat) (k : HoldKind) (rest : List (Nat × HoldKind)) :
    let u := holdStarted s d ch k rest
    rg u (mgSlot d) holdStatusActive = 1 ∧ rg u (mgSlot d) holdStatusChannel = ch % 1024 ∧
      rg u (mgSlot d) holdStatusHolds = min (rg s (mgSlot d) holdStatusHolds + 1) 65535 := by
  have hne {f g : Fld} (hf : f.off * 8 + f.lo < 32768) (hg : g.off * 8 + g.lo < 32768)
      (h : f.off * 8 + f.lo ≠ g.off * 8 + g.lo) : fkey (mgSlot d) f ≠ fkey (mgSlot d) g :=
    fkey_ne_of_place_ne hf hg h
  refine ⟨?_, ?_, ?_⟩
  · rw [holdStarted, rg_incr_other _ _ (hne (by decide) (by decide) (by decide)),
      rg_wg_other _ _ (hne (by decide) (by decide) (by decide)), rg_wg_same]
    rfl
  · rw [holdStarted, rg_incr_other _ _ (hne (by decide) (by decide) (by decide)), rg_wg_same]
    rfl
  · rw [holdStarted, rg_incr_same, rg_wg_other _ _ (hne (by decide) (by decide) (by decide)),
      rg_wg_other _ _ (hne (by decide) (by decide) (by decide))]
    rfl

section
variable {s : State} {d : Die} (hruns : performs s (mgSlot d) = true)
include hruns

theorem channelHoldStart_ends {ch : Nat} {k : HoldKind} {rest : List (Nat × HoldKind)}
    (hfree : (memCtl s d).hold = none) (hwaiting : (memCtl s d).waiting = (ch, k) :: rest) :
    Ends (.channelHoldStart d) s (holdStarted s d ch k rest) := by
  refine (if_pos hruns).trans (congrArg _ ?_)
  simp only [startHold, hfree, hwaiting]
  rfl

/-- A die holds one channel at a time. -/
theorem channelHoldStart_ends_self {h : Hold} (hheld : (memCtl s d).hold = some h) :
    Ends (.channelHoldStart d) s s := by
  refine (if_pos hruns).trans (congrArg _ ?_)
  simp only [startHold, hheld]

end

/-! ### The end of a hold -/

/-- A die whose channel is held no more. -/
def holdFreed (s : State) (d : Nat) : State :=
  wg (updMem s d (fun m => { m with hold := none })) (mgSlot d) holdStatusActive 0

theorem memCtl_holdFreed (s : State) (d : Nat) : memCtl (holdFreed s d) d = { memCtl s d with hold := none } :=
  memCtl_updMem_same s d fun m => { m with hold := none }

section
variable {s : State} {d : Nat} {h : Hold} (hheld : (memCtl s d).hold = some h)
include hheld

/-- The buffer drains and what waited issues, as the effects of accesses. -/
theorem dropHold_keepsHolds : KeepsHolds (holdFreed s d) (dropHold s d) := by
  unfold dropHold
  rw [hheld]
  refine KeepsHolds.afterIssueChannel ?_ ..
  exact (KeepsHolds.refl _).afterForEach h.buffer fun _ _ hu => (hu.afterWriteEffect ..).afterTurnFor ..

/-- The channel is freed. -/
theorem dropHold_freed :
    (memCtl (dropHold s d) d).hold = none ∧ rg (dropHold s d) (mgSlot d) holdStatusActive = 0 := by
  have hkeeps := dropHold_keepsHolds hheld
  exact ⟨(hkeeps.hold d).trans (congrArg MemCtl.hold (memCtl_holdFreed s d)),
    (hkeeps.active d).trans (rg_wg_same ..)⟩

theorem soft_dropHold : (memCtl (dropHold s d) d).soft = (memCtl s d).soft :=
  ((dropHold_keepsHolds hheld).soft d).trans (by rw [memCtl_holdFreed])

/-- Where nothing waits, nothing is issued. -/
theorem dropHold_of_still (hstill : h.buffer = [] ∧ h.queue = [] ∧ mget [] (memCtl s d).queue h.chan = []) :
    dropHold s d = updMem (holdFreed s d) d (fun m => { m with queue := mset [] m.queue h.chan [] }) := by
  obtain ⟨hbuffer, hqueue, hissued⟩ := hstill
  have hempty : mget [] (memCtl (holdFreed s d) d).queue h.chan = [] := by
    rw [memCtl_holdFreed]
    exact hissued
  unfold dropHold
  rw [hheld]
  dsimp only
  rw [hbuffer, hqueue]
  change issueChannel (holdFreed s d) d h.chan [] = _
  rw [issueChannel, hempty]
  rfl

/-- Events that the end of a hold raises: none where nothing waits. -/
theorem due_dropHold : ∃ es, (dropHold s d).due = s.due ++ es ∧
    (h.buffer = [] ∧ h.queue = [] ∧ mget [] (memCtl s d).queue h.chan = [] → es = []) := by
  obtain ⟨es, hes⟩ := (dropHold_keepsHolds hheld).due
  refine ⟨es, hes.symm, fun hstill => ?_⟩
  rw [dropHold_of_still hheld hstill] at hes
  exact List.append_right_eq_self.mp hes

theorem dropHold_frame_of_still (hstill : h.buffer = [] ∧ h.queue = [] ∧ mget [] (memCtl s d).queue h.chan = []) :
    dropHold s d = { s with regs := (dropHold s d).regs, dies := (dropHold s d).dies } := by
  rw [dropHold_of_still hheld hstill]
  rfl

/-! ### Each outcome -/

variable (pass readable : Bool)

theorem endHold_of_test (hkind : h.kind = .test) : endHold s d pass readable = s := by
  simp only [endHold, hheld, hkind]

theorem endHold_of_softRepair {row : Nat} (hkind : h.kind = .softRepair row) :
    endHold s d pass readable = dropHold (softRepaired s d h.chan row) d := by
  simp only [endHold, hheld, hkind]

theorem endHold_of_pass (hkind : h.kind = .retrain) : endHold s d true readable = dropHold s d := by
  simp only [endHold, hheld, hkind, if_true]

theorem endHold_of_first_failure (hkind : h.kind = .retrain) (htries : h.tries = 0) :
    endHold s d false readable = updMem s d (fun m => { m with hold := some { h with tries := 1 } }) := by
  simp only [endHold, hheld, hkind, Bool.false_eq_true, if_false, htries, if_true]

theorem endHold_of_readable (hkind : h.kind = .retrain) (htries : h.tries ≠ 0) :
    endHold s d false true = raise (dropHold s d) (chanEvent d srcMemRetrain h.chan) := by
  simp only [endHold, hheld, hkind, Bool.false_eq_true, if_false, htries, if_true]

theorem endHold_of_unreadable (hkind : h.kind = .retrain) (htries : h.tries ≠ 0) :
    endHold s d false false = failChannel (dropHold s d) d h.chan := by
  simp only [endHold, hheld, hkind, Bool.false_eq_true, if_false, htries]

end

theorem endHold_of_no_hold {s : State} {d : Nat} (hfree : (memCtl s d).hold = none) (pass readable : Bool) :
    endHold s d pass readable = s := by
  simp only [endHold, hfree]

/-! ### A channel that fails -/

/-- A channel that has failed its retrains, with MEM_CH_FAIL raised. -/
def channelFailed (s : State) (d ch : Nat) : State :=
  raise (updMem s d (fun m => { m with failing := m.failing ++ [ch] })) (chanEvent d srcMemChFail ch)

theorem memCtl_channelFailed (s : State) (d ch : Nat) :
    memCtl (channelFailed s d ch) d = { memCtl s d with failing := (memCtl s d).failing ++ [ch] } :=
  memCtl_updMem_same s d fun m => { m with failing := m.failing ++ [ch] }

theorem mem_failing_channelFailed (s : State) (d ch : Nat) : ch ∈ (memCtl (channelFailed s d ch) d).failing := by
  rw [memCtl_channelFailed]
  exact List.mem_append_right _ (List.mem_singleton_self _)

/-- MEM_CH_FAIL is taken first; the lobe is then fenced, unless it is fenced or in reset by then (R192, R344). -/
theorem failChannel_eq (s : State) (d ch : Nat) :
    failChannel s d ch = if lobeFenced (takeEvents (channelFailed s d ch)) (d / 2) ∨
        lobeInReset (takeEvents (channelFailed s d ch)) (d / 2) then takeEvents (channelFailed s d ch)
      else fenceLobe (takeEvents (channelFailed s d ch)) (if d < 2 then 0 else 1) := rfl

/-! ### Soft repair -/

/-- A soft repair leaves the holds to their end. -/
theorem hold_softRepaired (s : State) (d ch row : Nat) (e : Nat) :
    (memCtl (softRepaired s d ch row) e).hold = (memCtl s e).hold := by
  have hrefl := KeepsHolds.refl s
  unfold softRepaired
  dsimp only
  split
  · refine Eq.trans (memCtl_updMem_frame MemCtl.hold _ d ?_ e) (KeepsHolds.hold ?_ e)
    · exact fun _ => rfl
    · exact hrefl.afterForEach _ fun _ _ hu => (hu.afterSetErr ..).afterFoundCorrected ..
  · refine KeepsHolds.hold (KeepsHolds.afterQueueRepair ?_ ..) e
    exact hrefl.afterForEach _ fun _ _ hu => hu.afterFoundBad ..

/-- A row without an uncorrectable sector is repaired. -/
theorem mem_soft_softRepaired {s : State} {ch row : Nat} (d : Nat)
    (hrow : (rowErrs s ch row).all (fun x => decide (x.2 < 2)) = true) :
    (ch, row) ∈ (memCtl (softRepaired s d ch row) d).soft := by
  rw [softRepaired, if_pos hrow, memCtl_updMem_same]
  exact List.mem_append_right _ (List.mem_singleton_self _)

/-! ### The commands -/

section
variable {s : State} {d : Die} (hruns : performs s (mgSlot d) = true)
include hruns

theorem channelHoldRelease_settles {pass readable : Bool} {u : State} (hends : endHold s d pass readable = u) :
    Settles (.channelHoldRelease d pass readable) s u :=
  (if_pos hruns).trans (congrArg (fun t => Host.Outcome.next (settle t)) hends)

end

/-- Settles O15: each command by the equation of its outcome, the end of a hold by what the effects of accesses keep of
the holds. -/
theorem channelsAreKept : Obligations.ChannelsAreKept := by
  refine ⟨fun ch n k s => ⟨fun hin hruns => ?_, rfl⟩, fun d s hruns =>
    ⟨fun ch k rest hfree hwaiting hch => ?_, fun h => channelHoldStart_ends_self hruns,
      fun hfree pass readable => channelHoldRelease_settles hruns (endHold_of_no_hold hfree pass readable),
      fun h pass readable hheld => ?_⟩⟩
  · have hlive := chanLive_of_performs hin hruns
    refine ⟨if_pos hlive, fun x => ⟨memCalibration_ends_self n x, fun hgo =>
      ⟨_, memCalibration_ends n x hlive hgo, stackCeCount_calibrated .., calibrated_frame .., fun hretrain => ?_,
        fun hretrain => ?_⟩⟩⟩
    · rw [hretrain]
      rfl
    · rw [hretrain]
      exact mem_waiting_askHold (calibrationCounted s ch n) ch .retrain
  · obtain ⟨hactive, hchannel, hholds⟩ := holdStatus_holdStarted s d ch k rest
    exact ⟨_, channelHoldStart_ends hruns hfree hwaiting, memCtl_holdStarted .., hactive,
      hchannel.trans (Nat.mod_eq_of_lt hch), hholds, rfl⟩
  · have hfreed := dropHold_freed hheld
    obtain ⟨es, hdue, hstill⟩ := due_dropHold hheld
    refine ⟨fun hkind => channelHoldRelease_settles hruns (endHold_of_test hheld pass readable hkind),
      fun hkind => ⟨?pass, fun htries => ?again, fun htries => ?inService, fun htries => ?fenced⟩,
      fun row hkind => ?softRepair⟩
    case pass =>
      exact ⟨_, channelHoldRelease_settles hruns (endHold_of_pass hheld readable hkind), hfreed,
        dropHold_frame_of_still hheld⟩
    case again =>
      exact ⟨_, channelHoldRelease_settles hruns (endHold_of_first_failure hheld readable hkind htries),
        congrArg MemCtl.hold (memCtl_updMem_same s d fun m => { m with hold := some { h with tries := 1 } }), rfl⟩
    case inService =>
      exact ⟨_, es, channelHoldRelease_settles hruns (endHold_of_readable hheld hkind htries), hfreed,
        congrArg (· ++ _) hdue, hstill⟩
    case fenced =>
      refine ⟨channelFailed (dropHold s d) d h.chan, es, ?_, mem_failing_channelFailed .., hstill,
        congrArg (· ++ _) hdue, ?_⟩
      · exact ⟨(congrArg MemCtl.hold (memCtl_channelFailed ..)).trans hfreed.1, hfreed.2⟩
      · exact channelHoldRelease_settles hruns ((endHold_of_unreadable hheld hkind htries).trans (failChannel_eq ..))
    case softRepair =>
      have hstays := (hold_softRepaired s d h.chan row d).trans hheld
      refine ⟨_, channelHoldRelease_settles hruns (endHold_of_softRepair hheld pass readable hkind),
        dropHold_freed hstays, fun hrow => ?_⟩
      exact (soft_dropHold hstays).symm ▸ mem_soft_softRepaired d hrow

end Sys2Proof.Machine
end

section
/-!
PROOFS. Writes of sectors: what the report of an error moves and what it leaves alone, the bytes that a masked write
puts into memory, and the four ends of a write to a channel that is not held.
-/

namespace Sys2Proof.Machine

/-! ### The report of an error -/

/-- The fields that the report of a sector's error sets beside the counts: the die's error registers and the number of
rows queued for repair. -/
def reportFields : List Fld := [errAddrLo, errAddrHi, errInfoValid, errInfoKind, errInfoCb, errChan, memRepairQueued]

/-- Does the field stand within a page, elsewhere than the fields that a report sets? -/
def offReport (f : Fld) : Bool :=
  decide (f.off * 8 + f.lo < 32768) && reportFields.all (fun g => f.off * 8 + f.lo ≠ g.off * 8 + g.lo)

theorem rg_wg_of_offReport (s : State) {slot page : Nat} {f g : Fld} (v : Nat) (hf : offReport f = true)
    (hg : g ∈ reportFields) : rg (wg s page g v) slot f = rg s slot f := by
  have hin : ∀ g ∈ reportFields, g.off * 8 + g.lo < 32768 := by decide
  simp only [offReport, Bool.and_eq_true, decide_eq_true_eq, List.all_eq_true] at hf
  exact rg_wg_other s v (fkey_ne_of_place_ne hf.1 (hin g hg) (hf.2 g hg))

section
variable (s : State) (d ch a : Nat)

theorem reportError_frame (kind cb : Nat) :
    reportError s d kind a ch cb = { s with regs := (reportError s d kind a ch cb).regs } := by
  unfold reportError
  dsimp only
  split
  · rfl
  · rfl

theorem rg_reportError (kind cb : Nat) {slot : Nat} {f : Fld} (hf : offReport f = true) :
    rg (reportError s d kind a ch cb) slot f = rg s slot f := by
  unfold reportError
  dsimp only
  split
  · rfl
  · iterate 6 rw [rg_wg_of_offReport _ _ hf (by decide)]

theorem queueRepair_frame (row : Nat) : queueRepair s d ch row a = { s with
    regs := (queueRepair s d ch row a).regs
    dies := (queueRepair s d ch row a).dies
    due := (queueRepair s d ch row a).due } := by
  unfold queueRepair
  dsimp only
  split
  · rfl
  split
  · rfl
  · rfl

theorem rg_queueRepair (row : Nat) {slot : Nat} {f : Fld} (hf : offReport f = true) :
    rg (queueRepair s d ch row a) slot f = rg s slot f := by
  unfold queueRepair
  dsimp only
  split
  · rfl
  split
  · exact rg_wg_of_offReport _ _ hf (by decide)
  · rfl

theorem repairCandidate_frame (cb : Nat) : repairCandidate s d ch cb a = { s with
    regs := (repairCandidate s d ch cb a).regs
    dies := (repairCandidate s d ch cb a).dies
    due := (repairCandidate s d ch cb a).due
    free := (repairCandidate s d ch cb a).free } := by
  unfold repairCandidate
  dsimp only [useFree]
  split
  · rfl
  split
  · split
    · rfl
    · rw [queueRepair_frame]
  · rw [queueRepair_frame]

theorem rg_repairCandidate (cb : Nat) {slot : Nat} {f : Fld} (hf : offReport f = true) :
    rg (repairCandidate s d ch cb a) slot f = rg s slot f := by
  unfold repairCandidate
  dsimp only [useFree]
  split
  · rfl
  split
  · split
    · rfl
    · exact rg_queueRepair _ _ _ _ _ hf
  · exact rg_queueRepair _ _ _ _ _ hf

/-- What is queued for repair may raise an event of its own. -/
theorem due_repairCandidate (cb : Nat) : ∃ es, (repairCandidate s d ch cb a).due = s.due ++ es := by
  obtain ⟨es, hes⟩ := ((KeepsHolds.refl s).afterRepairCandidate d ch cb a).due
  exact ⟨es, hes.symm⟩

end

/-- The job of an address depends on the job windows and on whether addresses are in West form. -/
theorem jobAt_congr {s t : State} (hjw : t.jw = s.jw)
    (hmode : rg t solSlot lobeModeMode = rg s solSlot lobeModeMode) (a : Nat) : jobAt t a = jobAt s a := by
  unfold jobAt pairedForm
  rw [hjw, hmode]

/-! ### An uncorrectable sector -/

section
variable (s : State) (a : Nat) (scrub : Bool)

theorem foundBad_frame : foundBad s a scrub = { s with
    errs := mset 0 s.errs (sectorOf a) 2
    regs := (foundBad s a scrub).regs
    dies := (foundBad s a scrub).dies
    due := (foundBad s a scrub).due
    free := (foundBad s a scrub).free } := by
  unfold foundBad
  dsimp only
  rw [repairCandidate_frame, reportError_frame]
  rfl

@[simp] theorem foundBad_mem : (foundBad s a scrub).mem = s.mem := by rw [foundBad_frame]

theorem errOf_foundBad : errOf (foundBad s a scrub) a = 2 := by
  have herrs : (foundBad s a scrub).errs = mset 0 s.errs (sectorOf a) 2 := by rw [foundBad_frame]
  rw [errOf, herrs, mget_mset_same]

variable {s a} {ch cb d : Nat} (hplace : sectorPlace s a = (ch, cb, d))
include hplace

theorem ueCount_foundBad :
    rg (foundBad s a scrub) (mgSlot d) ueCount = min (rg s (mgSlot d) ueCount + 1) (2 ^ 32 - 1) := by
  unfold foundBad
  rw [hplace]
  dsimp only
  rw [rg_congr (raise_regs ..), rg_repairCandidate _ _ _ _ _ (by decide), rg_reportError _ _ _ _ _ _ (by decide)]
  exact rg_incr_same ..

/-- Beside the event of the sector, a row that finds no room among those queued for repair may raise one. -/
theorem due_foundBad : ∃ es, (foundBad s a scrub).due = s.due ++ es ++
    [memEvent d (if scrub then srcMemUeScrub else srcMemUe) (if scrub then 0 else jobAt s a) a ch] := by
  unfold foundBad
  rw [hplace]
  dsimp only
  generalize hreported : reportError (incr (setErr s a 2) (mgSlot d) ueCount) d (if scrub then 2 else 1) (sectorOf a) ch
    cb = t
  have ht : t = { setErr s a 2 with regs := t.regs } := by
    rw [← hreported, reportError_frame]
    rfl
  have hjob : jobAt (repairCandidate t d ch cb a) a = jobAt s a := by
    refine jobAt_congr ?_ ?_ a
    · rw [repairCandidate_frame, ht]
      rfl
    · rw [rg_repairCandidate _ _ _ _ _ (by decide), ← hreported, rg_reportError _ _ _ _ _ _ (by decide),
        rg_incr_other _ _ (fkey_ne_of_place_ne (by decide) (by decide) (by decide))]
      rfl
  obtain ⟨es, hes⟩ := due_repairCandidate t d ch a cb
  have hdue : t.due = s.due := by
    rw [ht]
    rfl
  exact ⟨es, by rw [raise, hes, hdue, hjob]⟩

end

/-! ### A corrected sector -/

section
variable (s : State) (a : Nat)

theorem foundCorrected_frame : foundCorrected s a = { s with
    regs := (foundCorrected s a).regs
    dies := (foundCorrected s a).dies
    due := (foundCorrected s a).due
    free := (foundCorrected s a).free } := by
  unfold foundCorrected
  dsimp only
  split
  · rw [if_neg Bool.false_ne_true, repairCandidate_frame, reportError_frame]
    rfl
  · rfl

@[simp] theorem foundCorrected_mem : (foundCorrected s a).mem = s.mem := by rw [foundCorrected_frame]

theorem ceCount_foundCorrected {s : State} {a ch cb d : Nat} (hplace : sectorPlace s a = (ch, cb, d)) :
    rg (foundCorrected s a) (mgSlot d) ceCount = min (rg s (mgSlot d) ceCount + 1) (2 ^ 32 - 1) := by
  unfold foundCorrected
  rw [hplace]
  dsimp only
  split
  · rw [if_neg Bool.false_ne_true, rg_congr (raise_regs ..), rg_repairCandidate _ _ _ _ _ (by decide),
      rg_reportError _ _ _ _ _ _ (by decide)]
    exact rg_incr_same ..
  · exact rg_incr_same ..

end

/-! ### The bytes of a masked write -/

theorem rdByte_wrPairs_of_notMem (s : State) (ps : List (Nat × Byte)) {x : Nat} (hx : x ∉ ps.map Prod.fst) :
    rdByte (wrPairs s ps) x = rdByte s x := by
  induction ps generalizing s with
  | nil => rfl
  | cons p ps ih =>
    simp only [List.map_cons, List.mem_cons, not_or] at hx
    obtain ⟨hne, hrest⟩ := hx
    exact (ih (wrByte s p.1 p.2) hrest).trans (rdByte_wrByte_other _ _ hne)

/-- Of pairs with an address each of its own, every one reads back. -/
theorem rdByte_wrPairs_of_mem (s : State) {ps : List (Nat × Byte)} (hps : (ps.map Prod.fst).Nodup) {x : Nat} {b : Byte}
    (hx : (x, b) ∈ ps) : rdByte (wrPairs s ps) x = b := by
  induction ps generalizing s with
  | nil => cases hx
  | cons p ps ih =>
    obtain ⟨hnew, hrest⟩ := List.nodup_cons.mp hps
    rcases List.mem_cons.mp hx with rfl | hx
    · exact (rdByte_wrPairs_of_notMem (wrByte s x b) ps hnew).trans (rdByte_wrByte_same ..)
    · exact ih (wrByte s p.1 p.2) hrest hx

theorem maskedBytes_nodup (a : Nat) (data : List Byte) (mask : Nat) :
    ((maskedBytes a data mask).map Prod.fst).Nodup := by
  rw [maskedBytes, List.map_map]
  exact List.Pairwise.map _ (fun i j hne hij => hne (Nat.add_left_cancel hij))
    (List.Pairwise.filter _ List.nodup_range)

theorem mem_maskedBytes {a mask i : Nat} {data : List Byte} (hi : i < data.length) (hsector : a % 32 + i < 32)
    (hmask : bit mask i = true) : (a + i, data.getD i 0) ∈ maskedBytes a data mask :=
  List.mem_map_of_mem (f := fun i => (a + i, data.getD i 0))
    (List.mem_filter.mpr ⟨List.mem_range.mpr (by omega), hmask⟩)

/-! ### The bytes that are written -/

/-- The sector of `a` takes the bytes of a masked write, clean. -/
def sectorTakes (s : State) (a : Nat) (data : List Byte) (mask : Nat) : State :=
  wrPairs (setErr s a 0) (maskedBytes a data mask)

section
variable (s : State) (a : Nat) (data : List Byte) (mask : Nat)

theorem sectorTakes_frame : sectorTakes s a data mask =
    { setErr s a 0 with mem := (sectorTakes s a data mask).mem } := by
  unfold sectorTakes
  generalize setErr s a 0 = t
  generalize maskedBytes a data mask = ps
  induction ps generalizing t with
  | nil => rfl
  | cons p ps ih => exact ih (wrByte t p.1 p.2)

theorem errOf_sectorTakes : errOf (sectorTakes s a data mask) a = 0 := by
  have herrs : (sectorTakes s a data mask).errs = mset 0 s.errs (sectorOf a) 0 := by
    rw [sectorTakes_frame]
    rfl
  rw [errOf, herrs, mget_mset_same]

theorem due_sectorTakes : (sectorTakes s a data mask).due = s.due := by
  rw [sectorTakes_frame]
  rfl

theorem rg_sectorTakes (slot : Nat) (f : Fld) : rg (sectorTakes s a data mask) slot f = rg s slot f := by
  rw [sectorTakes_frame]
  rfl

variable {a data mask}

theorem rdByte_sectorTakes {i : Nat} (hi : i < data.length) (hsector : a % 32 + i < 32) (hmask : bit mask i = true) :
    rdByte (sectorTakes s a data mask) (a + i) = data.getD i 0 :=
  rdByte_wrPairs_of_mem _ (maskedBytes_nodup ..) (mem_maskedBytes hi hsector hmask)

theorem rdByte_sectorTakes_other {x : Nat} (hx : x ∉ (maskedBytes a data mask).map Prod.fst) :
    rdByte (sectorTakes s a data mask) x = rdByte s x :=
  rdByte_wrPairs_of_notMem _ _ hx

end

/-- Bytes that memory holds, by memory alone. -/
theorem rdByte_congr {s t : State} (hmem : t.mem = s.mem) (x : Nat) : rdByte t x = rdByte s x := by
  rw [rdByte, hmem, rdByte]

theorem retire_mem (s : State) (slot k : Nat) : (retire s slot k).mem = s.mem := rfl

/-- Such a sector's bytes, once its access waits to be issued. -/
theorem sectorTakes_queued {s t : State} (hmem : t.mem = s.mem) (a mask d ch : Nat) (data : List Byte) (x : Access)
    (ts : List Nat) :
    let u := joinQueue (sectorTakes t a data mask) d ch x ts
    errOf u a = 0 ∧
      (∀ i, i < data.length → a % 32 + i < 32 → bit mask i = true → rdByte u (a + i) = data.getD i 0) ∧
      ∀ x, x ∉ (maskedBytes a data mask).map Prod.fst → rdByte u x = rdByte s x :=
  ⟨errOf_sectorTakes .., fun _ hi hsector hmask => rdByte_sectorTakes t hi hsector hmask,
    fun x hx => (rdByte_sectorTakes_other t hx).trans (rdByte_congr hmem x)⟩

/-! ### The effect of a write -/

/-- The access of a masked write. -/
def maskedWrite (s : State) (a : Nat) (data : List Byte) (mask k : Nat) : Access :=
  { addr := a, reader := none, bytes := maskedBytes a data mask, symbols := [k], since := s.clock }

section
variable (s : State) (d a mask : Nat) (data : List Byte)

/-- A whole sector is written without a read. -/
theorem writeEffect_of_whole (k : Nat) (hwhole : (maskedBytes a data mask).length = 32) :
    writeEffect s d (maskedWrite s a data mask k) false = (sectorTakes (retire s (mgSlot d)) a data mask, [2]) := by
  simp [writeEffect, maskedWrite, sectorTakes, hwhole]

variable {a mask data} (hpart : (maskedBytes a data mask).length ≠ 32)
include hpart

theorem writeEffect_of_clean :
    writeEffect s d (maskedWrite s a data mask 0) false = (sectorTakes (retire s (mgSlot d)) a data mask, [1, 2]) := by
  simp [writeEffect, maskedWrite, sectorTakes, codeFinds, hpart]

theorem writeEffect_of_corrected : writeEffect s d (maskedWrite s a data mask 1) false =
    (sectorTakes (foundCorrected (retire s (mgSlot d)) a) a data mask, [1, 2]) := by
  simp [writeEffect, maskedWrite, sectorTakes, codeFinds, hpart]

theorem writeEffect_of_bad : writeEffect s d (maskedWrite s a data mask 2) false =
    (foundBad (retire s (mgSlot d)) a false, [1]) := by
  simp [writeEffect, maskedWrite, codeFinds, hpart]

end

/-! ### A write to a channel that is not held -/

theorem sectorPlace_retire (s : State) (slot k a : Nat) : sectorPlace (retire s slot k) a = sectorPlace s a := rfl

theorem sectorPlace_of_sectorAt {s : State} {a ch cb d : Nat} (hat : sectorAt s a = some (ch, cb, d)) :
    sectorPlace s a = (ch, cb, d) := by
  simp only [sectorAt, placeOf] at hat
  split at hat
  · split at hat
    · next hloc =>
      split at hat
      · obtain ⟨rfl, rfl, rfl⟩ := hat
        simp [sectorPlace, hloc]
      · cases hat
    · cases hat
  · cases hat

section
variable {s : State} {a ch cb d mask k : Nat} {data : List Byte}

theorem sectorWrite_of_empty (hps : maskedBytes a data mask = []) : Settles (.sectorWrite a ⟨data, mask⟩ k) s s := by
  change Host.Outcome.next (settle (writeSector s a data mask k)) = _
  simp [writeSector, hps]

/-- The write takes effect and waits in its channel's queue to be issued. -/
theorem sectorWrite_performed (hat : sectorAt s a = some (ch, cb, d)) (hheld : heldChan s d ≠ some ch)
    (hps : maskedBytes a data mask ≠ []) {t : State} {ts : List Nat}
    (heffect : writeEffect s d (maskedWrite s a data mask k) false = (t, ts)) :
    Settles (.sectorWrite a ⟨data, mask⟩ k) s (joinQueue t d ch (maskedWrite s a data mask k) ts) := by
  have hperformed : performAccess s d ch (maskedWrite s a data mask k) =
      joinQueue t d ch (maskedWrite s a data mask k) ts := by
    rw [performAccess, accessEffect, show (maskedWrite s a data mask k).reader = none from rfl, heffect]
  have hopen (h : Hold) (hh : (memCtl s d).hold = some h) : h.chan ≠ ch := fun hc =>
    hheld (by rw [heldChan, hh, ← hc]; rfl)
  have hsome : (maskedBytes a data mask).isEmpty = false := by simpa using hps
  change Host.Outcome.next (settle (writeSector s a data mask k)) = _
  unfold writeSector
  simp only [hsome, hat, Bool.false_eq_true, if_false]
  split
  · next h hh =>
    rw [if_pos (hopen h hh)]
    exact congrArg (fun u => Host.Outcome.next (settle u)) hperformed
  · exact congrArg (fun u => Host.Outcome.next (settle u)) hperformed

end

end Sys2Proof.Machine

namespace Sys2Proof

open Sys2Proof.Machine

/-- Settles O14, by whether the write covers the sector and, where it covers a part, by what the read of the sector
finds. -/
theorem sectorWrites : Obligations.SectorWrites := by
  unfold Obligations.SectorWrites
  intro a ch cb d mask k data s hat hheld hk
  dsimp only
  refine ⟨sectorWrite_of_empty, fun hps => ?_⟩
  have hplace : sectorPlace (retire s (mgSlot d)) a = (ch, cb, d) :=
    (sectorPlace_retire ..).trans (sectorPlace_of_sectorAt hat)
  have hsettles {k : Nat} {t : State} {ts : List Nat} :=
    sectorWrite_performed (k := k) (t := t) (ts := ts) hat hheld hps
  by_cases hwhole : (maskedBytes a data mask).length = 32
  · refine ⟨_, hsettles (writeEffect_of_whole s d a mask data k hwhole),
      fun _ => sectorTakes_queued (retire_mem ..) .., fun _ => due_sectorTakes .., fun hpart => ?_, fun hpart => ?_⟩
    · omega
    · omega
  obtain rfl | rfl | rfl : k = 0 ∨ k = 1 ∨ k = 2 := by omega
  case inl =>
    exact ⟨_, hsettles (writeEffect_of_clean s d hwhole), fun _ => sectorTakes_queued (retire_mem ..) ..,
      fun _ => due_sectorTakes .., fun _ hk => absurd hk (by decide), fun _ hk => absurd hk (by decide)⟩
  case inr.inl =>
    refine ⟨_, hsettles (writeEffect_of_corrected s d hwhole),
      fun _ => sectorTakes_queued ((foundCorrected_mem ..).trans (retire_mem ..)) .., fun hclean => ?_, fun _ _ => ?_,
      fun _ hk => absurd hk (by decide)⟩
    · omega
    · exact (rg_sectorTakes ..).trans (ceCount_foundCorrected hplace)
  case inr.inr =>
    refine ⟨_, hsettles (writeEffect_of_bad s d hwhole), fun hclean => ?_, fun hclean => ?_,
      fun _ hk => absurd hk (by decide), fun _ _ => ?_⟩
    · omega
    · omega
    · exact ⟨rdByte_congr ((foundBad_mem ..).trans (retire_mem ..)), errOf_foundBad .., ueCount_foundBad _ hplace,
        due_foundBad _ hplace⟩

end Sys2Proof
end

section
/-!
PROOFS. What follows a command puts no number into the register store that is wider than a field: a write of a field
stores as many bits as the field has, and a reset only takes entries away. One lemma per operation that `settle` is made
of, each from the lemmas of the operations that it calls.
-/

namespace Sys2Proof.Machine

/-! ### Entries of the register store -/

/-- A filter of the keys keeps an entry or leaves its default. -/
theorem mget_mkeep {α : Type} (d : α) (m : Map α) (p : Nat → Bool) (k : Nat) :
    mget d (mkeep m p) k = if p k then mget d m k else d := by
  induction m with
  | nil => exact (ite_self d).symm
  | cons e m ih =>
    obtain ⟨a, v⟩ := e
    unfold mkeep at *
    rw [List.filter_cons]
    grind [mget]

/-- What the register store holds at `k` has at most 64 bits. -/
def Fits (k : Nat) (m : Map Nat) : Prop := mget 0 m k < 2 ^ 64

section
variable {k : Nat} {m : Map Nat} (h : Fits k m)
include h

theorem Fits.mset {j v : Nat} (d : Nat) (hv : v < 2 ^ 64) : Fits k (mset d m j v) := by
  unfold Fits Machine.mset
  by_cases hk : k = j
  · subst hk
    split
    · rw [mget_mdel_same]
      decide
    · rwa [mget_mins_same]
  · split
    · rwa [mget_mdel_other _ _ hk]
    · rwa [mget_mins_other _ _ _ hk]

theorem Fits.mkeep (p : Nat → Bool) : Fits k (mkeep m p) := by
  unfold Fits
  rw [mget_mkeep]
  split
  · exact h
  · decide

end

/-! ### The shared operations -/

section
variable {k : Nat} {s : State}

theorem wg_fits (h : Fits k s.regs) (slot f v) (hf : f.w ≤ 64) : Fits k (wg s slot f v).regs :=
  h.mset _ (Nat.lt_of_lt_of_le (Nat.mod_lt _ (Nat.two_pow_pos _)) (Nat.pow_le_pow_right (by decide) hf))

theorem incr_fits (h : Fits k s.regs) (slot f v) (hf : f.w ≤ 64) : Fits k (incr s slot f v).regs := wg_fits h _ _ _ hf

theorem gst_fits (h : Fits k s.regs) (g f v) (hf : ∀ n, (f n).w ≤ 64) : Fits k (gst s g f v).regs :=
  wg_fits h _ _ _ (hf _)

theorem ewg_fits (h : Fits k s.regs) (e f v) (hf : ∀ n, (f n).w ≤ 64) : Fits k (ewg s e f v).regs :=
  wg_fits h _ _ _ (hf _)

theorem ite_fits {c : Prop} [Decidable c] {a b : State} (ha : Fits k a.regs) (hb : Fits k b.regs) :
    Fits k (if c then a else b).regs := by
  split
  · exact ha
  · exact hb

theorem forEach_fits {α : Type} {xs : List α} (h : Fits k s.regs) (f : State → α → State)
    (hf : ∀ t x, Fits k t.regs → Fits k (f t x).regs) : Fits k (forEach xs s f).regs := by
  induction xs generalizing s with
  | nil => exact h
  | cons x xs ih => exact ih (hf s x h)

theorem foldl_fits {α : Type} {xs : List α} (h : Fits k s.regs) (f : State → α → State)
    (hf : ∀ t x, Fits k t.regs → Fits k (f t x).regs) : Fits k (xs.foldl f s).regs := forEach_fits h f hf

/-! ### Operations that leave the registers alone -/

theorem wrBytes_regs (a bs) : (wrBytes s a bs).regs = s.regs := by rw [wrBytes_eq]

theorem wrPairs_regs (ps) : (wrPairs s ps).regs = s.regs := forEach_frame State.regs ps s _ fun _ _ => rfl

@[simp] theorem retire_regs (slot i) : (retire s slot i).regs = s.regs := rfl
@[simp] theorem updCmd_regs (p n h f) : (updCmd s p n h f).regs = s.regs := rfl
@[simp] theorem setErr_regs (a n) : (setErr s a n).regs = s.regs := rfl
@[simp] theorem waitHeld_regs (d h x) : (waitHeld s d h x).regs = s.regs := rfl
@[simp] theorem updLive_regs (d id f) : (updLive s d id f).regs = s.regs := rfl
@[simp] theorem dropEnded_regs (d ph) : (dropEnded s d ph).regs = s.regs := rfl
@[simp] theorem dropTask_regs (d c t) : (dropTask s d c t).regs = s.regs := rfl
@[simp] theorem noteStop_regs (d c) : (noteStop s d c).regs = s.regs := rfl
@[simp] theorem seqEvent_regs (d src) : (seqEvent s d src).regs = s.regs := rfl
@[simp] theorem updGroup_regs (g f) : (updGroup s g f).regs = s.regs := rfl
@[simp] theorem stopQueue_regs (q from_) : (stopQueue s q from_).regs = s.regs := rfl
@[simp] theorem clearDom_regs (d) : (clearDom s d).regs = s.regs := rfl
@[simp] theorem moveTraffic_regs (i) : (moveTraffic s i).regs = s.regs := rfl
@[simp] theorem flushEnd_regs (e) : (flushEnd s e).regs = s.regs := rfl
@[simp] theorem dropHeld_regs (e) : (dropHeld s e).regs = s.regs := rfl
@[simp] theorem dropPosted_regs (gone) : (dropPosted s gone).regs = s.regs := rfl
@[simp] theorem extendMr_regs (i d) : (extendMr s i d).regs = s.regs := rfl
@[simp] theorem reportCopy_regs (img b) : (reportCopy s img b).regs = s.regs := rfl
@[simp] theorem beginStep_regs (d) : (beginStep s d).regs = s.regs := rfl
@[simp] theorem notePending_regs : (notePending s).regs = s.regs := rfl
@[simp] theorem issue_regs (r) : (issue s r).regs = s.regs := rfl
@[simp] theorem dropAbort_regs (p n) : (dropAbort s p n).regs = s.regs := rfl

variable (h : Fits k s.regs)
include h

/-! ### Completions, the log and the errors of sectors -/

theorem complete_fits (handle status result detail) : Fits k (complete s handle status result detail).regs := by
  unfold complete
  grind [updCPort_regs, updRing_regs]

theorem logWrite_fits (e c masked first) : Fits k (logWrite s e c masked first).regs := by
  unfold logWrite
  grind [wg_fits, logStatus]

theorem keepPair_fits (e c masked first) : Fits k (keepPair s e c masked first).regs := by
  unfold keepPair
  grind

theorem waitFaults_fits (c index) : Fits k (waitFaults s c index).regs := by
  unfold waitFaults
  grind [forEach_fits, complete_fits]

theorem alert_fits (e c) : Fits k (alert s e c).regs := by
  unfold alert
  grind [incr_fits, evtStatusEvtDrop]

theorem record_fits (e) : Fits k (record s e).regs := by
  unfold record
  grind [wg_fits, incr_fits, logWrite_fits, waitFaults_fits, keepPair_fits, alert_fits, hdrSticky, classCount]

theorem reportError_fits (d kind a ch cb) : Fits k (reportError s d kind a ch cb).regs := by
  unfold reportError
  grind [wg_fits, errInfoValid, errInfoKind, errAddrLo, errAddrHi, errInfoCb, errChan]

theorem queueRepair_fits (d ch row a) : Fits k (queueRepair s d ch row a).regs := by
  unfold queueRepair
  grind [updMem_regs, wg_fits, raise_regs, memRepairQueued]

theorem repairCandidate_fits (d ch cb a) : Fits k (repairCandidate s d ch cb a).regs := by
  unfold repairCandidate
  grind [useFree, updMem_regs, queueRepair_fits]

theorem foundBad_fits (a scrub) : Fits k (foundBad s a scrub).regs := by
  unfold foundBad
  grind [setErr_regs, incr_fits, reportError_fits, repairCandidate_fits, raise_regs, ueCount]

theorem foundCorrected_fits (a repairs) : Fits k (foundCorrected s a repairs).regs := by
  unfold foundCorrected
  grind [incr_fits, raise_regs, updMem_regs, reportError_fits, repairCandidate_fits, ceCount]

theorem rmwRead_fits (a) : Fits k (rmwRead s a).1.regs := by
  unfold rmwRead
  grind [foundCorrected_fits, setErr_regs, foundBad_fits]

theorem codeFinds_fits (a symbols) : Fits k (codeFinds s a symbols).1.regs := by
  unfold codeFinds
  grind [useFree, freeBytes, wrBytes_regs]

/-! ### Accesses, holds and stores -/

theorem turnBus_fits (d ch dir) : Fits k (turnBus s d ch dir).regs := by
  unfold turnBus
  grind [useFree, updMem_regs, incr_fits, turnCount]

theorem turnFor_fits (d ch ts) : Fits k (turnFor s d ch ts).regs := by
  unfold turnFor
  grind [forEach_fits, turnBus_fits]

theorem spoilTask_fits (by_) : Fits k (spoilTask s by_).regs := by
  unfold spoilTask
  grind [setTile_regs]

theorem noteSeen_fits (by_ a) : Fits k (noteSeen s by_ a).regs := by
  unfold noteSeen
  grind

theorem readOne_fits (by_ a symbols) : Fits k (readOne s by_ a symbols).regs := by
  unfold readOne
  grind [codeFinds_fits, setErr_regs, noteSeen_fits, foundCorrected_fits, spoilTask_fits, foundBad_fits]

theorem readerEffect_fits (d by_ x) : Fits k (readerEffect s d by_ x).regs := by
  unfold readerEffect
  grind [forEach_fits, readOne_fits, retire_regs]

theorem writeEffect_fits (d x buffered) : Fits k (writeEffect s d x buffered).1.regs := by
  unfold writeEffect
  grind [wrPairs_regs, retire_regs, setErr_regs, codeFinds_fits, foundCorrected_fits, foundBad_fits]

theorem accessEffect_fits (d x) : Fits k (accessEffect s d x).1.regs := by
  unfold accessEffect
  grind [readerEffect_fits, writeEffect_fits]

theorem issueAccess_fits (d ch x) : Fits k (issueAccess s d ch x).regs := by
  unfold issueAccess
  grind [accessEffect_fits, turnFor_fits]

theorem issueQueue_fits (m d ch q read n) : Fits k (issueQueue m s d ch q read n).regs := by
  induction m generalizing s q read n with
  | zero => exact h
  | succ m ih => unfold issueQueue; grind [issueAccess_fits]

theorem issueChannel_fits (d ch behind) : Fits k (issueChannel s d ch behind).regs := by
  unfold issueChannel
  grind [updMem_regs, issueQueue_fits]

theorem dropHold_fits (d) : Fits k (dropHold s d).regs := by
  unfold dropHold
  grind [wg_fits, updMem_regs, forEach_fits, writeEffect_fits, turnFor_fits, issueChannel_fits, holdStatusActive]

theorem bufferWrite_fits (d hold x) : Fits k (bufferWrite s d hold x).regs := by
  unfold bufferWrite
  grind [codeFinds_fits, updMem_regs, wrPairs_regs]

theorem writeHeld_fits (d hold x) : Fits k (writeHeld s d hold x).regs := by
  unfold writeHeld
  grind [waitHeld_regs, bufferWrite_fits]

theorem storeMasked_fits (ps) : Fits k (storeMasked s ps).regs := by
  unfold storeMasked
  grind [writeHeld_fits, wrPairs_regs, setErr_regs, rmwRead_fits]

theorem storeVia_fits (src ps) : Fits k (storeVia s src ps).regs := by
  unfold storeVia
  grind [storeMasked_fits]

theorem flushPosted_fits : Fits k (flushPosted s).regs := by
  unfold flushPosted
  grind [forEach_fits, storeVia_fits]

theorem storeSectors_fits (n src a bs) : Fits k (storeSectors n s src a bs).regs := by
  induction n generalizing s a bs with
  | zero => exact h
  | succ n ih => unfold storeSectors; grind [storeVia_fits]

theorem store_fits (src a bs) : Fits k (store s src a bs).regs := by
  unfold store
  grind [storeSectors_fits]

theorem storeIf_fits (src a bs) : Fits k (storeIf s src a bs).regs := by
  unfold storeIf
  grind [store_fits]

theorem storeBoth_fits (src a bs) : Fits k (storeBoth s src a bs).regs := by
  unfold storeBoth
  grind [forEach_fits, store_fits]

theorem storeDie_fits (d a bs) : Fits k (storeDie s d a bs).regs := by
  unfold storeDie
  grind [storeIf_fits]

theorem checkErrs_fits (bys es) : Fits k (checkErrs s bys es).1.regs := by
  unfold checkErrs
  grind [forEach_fits, foundBad_fits, foundCorrected_fits]

theorem checkRead_fits (by_ a n) : Fits k (checkRead s by_ a n).1.regs := by
  unfold checkRead
  grind [checkErrs_fits]

theorem checkDie_fits (d rs) : Fits k (checkDie s d rs).regs := by
  unfold checkDie
  grind [checkErrs_fits]

theorem dmaStore_fits (c off bs) : Fits k (dmaStore s c off bs).regs := by
  unfold dmaStore
  grind [storeBoth_fits]

theorem dmaCut_fits (c) : Fits k (dmaCut s c).1.regs := by
  unfold dmaCut
  grind [useFree, freeBytes, dmaStore_fits, checkRead_fits]

/-! ### Tasks and sequencers -/

theorem startWake_fits (d c) : Fits k (startWake s d c).regs := by
  unfold startWake
  grind [wg_fits, groupGated]

theorem demandTiles_fits (d c) : Fits k (demandTiles s d c).regs := by
  unfold demandTiles
  grind [forEach_fits, setTile_regs]

theorem wakeServer_fits (d c) : Fits k (wakeServer s d c).regs := by
  unfold wakeServer
  grind [startWake_fits, demandTiles_fits, wg_fits, pwrStateCur]

theorem enqueue_fits (d t) : Fits k (enqueue s d t).regs := by
  unfold enqueue
  grind [setQueue_regs, wakeServer_fits, updLive_regs]

theorem enqueueAll_fits (ts d) : Fits k (enqueueAll ts s d).regs := by
  induction ts generalizing s with
  | nil => exact h
  | cons t ts ih => unfold enqueueAll; grind [enqueue_fits]

theorem releaseHeld_fits (d) : Fits k (releaseHeld s d).regs := by
  unfold releaseHeld
  grind [enqueueAll_fits]

theorem writeTaskStatus_fits (d t code drops) : Fits k (writeTaskStatus s d t code drops).regs :=
    by
  unfold writeTaskStatus
  grind [storeDie_fits]

theorem clearTasks_fits (d) : Fits k (clearTasks s d).regs := by
  unfold clearTasks
  grind [forEach_fits, dropTask_regs, updDie_regs]

theorem endPhase_fits (d ph code) : Fits k (endPhase s d ph code).regs := by
  unfold endPhase
  grind [storeDie_fits, retire_regs, updPhase_regs, dropEnded_regs]

theorem finishRun_fits (d status detail) : Fits k (finishRun s d status detail).regs := by
  unfold finishRun
  grind [updSeq_regs, complete_fits]

theorem finishStopped_fits (d) : Fits k (finishStopped s d).regs := by
  unfold finishStopped
  grind [finishRun_fits]

theorem settleSeq_fits (d) : Fits k (settleSeq s d).regs := by
  unfold settleSeq
  grind [finishStopped_fits, wg_fits, seqStatusState]

theorem markFailed_fits (d ph) : Fits k (markFailed s d ph).regs := by
  unfold markFailed
  grind [updPhase_regs, dropEnded_regs, seqEvent_regs, noteStop_regs]

theorem nextReplay_fits (n d ph) : Fits k (nextReplay n s d ph).regs := by
  induction n generalizing s with
  | zero => exact h
  | succ n ih => unfold nextReplay; grind [updPhase_regs]

theorem endFailed_fits (d ph) : Fits k (endFailed s d ph).regs := by
  unfold endFailed
  grind [nextReplay_fits, endPhase_fits]

theorem abortSeq_fits (d c) : Fits k (abortSeq s d c).regs := by
  unfold abortSeq
  grind [noteStop_regs, forEach_fits, writeTaskStatus_fits, clearTasks_fits, endPhase_fits, finishStopped_fits,
    wg_fits, seqStatusState]

/-! ### Ports and their groups -/

theorem moveFum_fits (p) : Fits k (moveFum s p).regs := by
  have hfum (t : State) (ht : Fits k t.regs) (g v : Nat) : Fits k (gst t g groupStatusFum v).regs :=
    gst_fits ht _ _ _ fun _ => Nat.le_of_ble_eq_true rfl
  unfold moveFum
  dsimp only
  grind

theorem putCodeword_fits (p cw) : Fits k (putCodeword s p cw).regs := by
  unfold putCodeword
  grind [setLink_regs]

theorem sendCodeword_fits (p fum fs) : Fits k (sendCodeword s p fum fs).regs := by
  unfold sendCodeword
  grind [setLink_regs, putCodeword_fits]

theorem replayAll_fits (p) : Fits k (replayAll s p).regs := by
  unfold replayAll
  grind [forEach_fits, putCodeword_fits]

theorem payCredits_fits (p) : Fits k (payCredits s p).regs := by
  unfold payCredits
  grind [forEach_fits, setLink_regs, sendCodeword_fits]

theorem returnCredit_fits (src) : Fits k (returnCredit s src).regs := by
  unfold returnCredit
  grind [payCredits_fits, setLink_regs]

theorem sendTruncate_fits (p vc) : Fits k (sendTruncate s p vc).regs := by
  unfold sendTruncate
  grind [sendCodeword_fits]

theorem dropCut_fits (port x) : Fits k (dropCut s port x).regs := by
  unfold dropCut
  grind [sendTruncate_fits]

theorem unCut_fits (port) : Fits k (unCut s port).regs := by
  unfold unCut
  grind [forEach_fits, setLink_regs]

theorem freeWait_fits (w) : Fits k (freeWait s w).regs := by
  unfold freeWait
  grind [returnCredit_fits]

theorem portComes_fits (p wasUp) : Fits k (portComes s p wasUp).regs := by
  unfold portComes
  grind [forEach_fits, dropCut_fits, payCredits_fits, replayAll_fits, setLink_regs]

theorem startRetrain_fits (g) : Fits k (startRetrain s g).regs := by
  unfold startRetrain
  grind [gst_fits, updGroup_regs, replayAll_fits, moveFum_fits, groupStatusState, groupStatusRetrains]

theorem wantRetrain_fits (g) : Fits k (wantRetrain s g).regs := by
  unfold wantRetrain
  grind [updGroup_regs, startRetrain_fits]

theorem groupReturn_fits (g) : Fits k (groupReturn s g).regs := by
  unfold groupReturn
  grind [updGroup_regs, gst_fits, portComes_fits, moveFum_fits, groupStatusState]

theorem startTraining_fits (g) : Fits k (startTraining s g).regs := by
  unfold startTraining
  grind [gst_fits, updGroup_regs, groupStatusState]

theorem groupBack_fits (g) : Fits k (groupBack s g).regs := by
  unfold groupBack
  grind [groupReturn_fits, wantRetrain_fits]

theorem nextRetrain_fits (p) : Fits k (nextRetrain s p).regs := by
  unfold nextRetrain
  grind [startRetrain_fits]

/-! ### Queues and the abort of a job -/

theorem deliverStatus_fits (q poster id code detail origin fo) : Fits k (deliverStatus s q poster id code detail
    origin fo).regs := by
  unfold deliverStatus
  grind [complete_fits, storeDie_fits, updPhase_regs, endFailed_fits, markFailed_fits]

theorem completeOp_fits (q o) : Fits k (completeOp s q o).regs := by
  unfold completeOp
  grind [updCq_regs, retire_regs, raise_regs, deliverStatus_fits]

theorem sendErupts_fits (j src skip) : Fits k (sendErupts s j src skip).regs := by
  unfold sendErupts
  grind [forEach_fits, incr_fits, eruptSent]

theorem freeGeysers_fits (j) : Fits k (freeGeysers s j).regs := by
  unfold freeGeysers
  grind [forEach_fits, updGeyser_regs]

theorem setOutcome_fits (ds outcome) : Fits k (setOutcome s ds outcome).regs := by
  unfold setOutcome
  grind [forEach_fits, wg_fits, pairLastOutcome]

theorem dropWanted_fits : Fits k (dropWanted s).regs := by
  unfold dropWanted
  grind

theorem dropTraffic_fits (j) : Fits k (dropTraffic s j).regs := by
  unfold dropTraffic
  grind [forEach_fits, freeWait_fits, incr_fits, sendTruncate_fits, setLink_regs, discStale]

theorem abortJob_fits (j from_) : Fits k (abortJob s j from_).regs := by
  unfold abortJob
  split
  · exact h
  dsimp only
  generalize hended : dropWanted _ = t
  have ht : Fits k t.regs := by
    subst hended
    refine dropWanted_fits (forEach_fits (freeGeysers_fits (dropTraffic_fits (forEach_fits ?_ _ ?_) j) j) _ ?_)
    · grind [setJob_regs]
    · exact fun _ _ hu => hu
    · grind [abortSeq_fits]
  split
  · grind [sendErupts_fits]
  · exact sendErupts_fits ht ..

/-! ### Resets -/

theorem mapOutDie_fits (ch) : Fits k (mapOutDie s ch).regs := by
  unfold mapOutDie
  grind [clearDom_regs]

theorem mapOutPkg_fits : Fits k (mapOutPkg s).regs := by
  unfold mapOutPkg
  grind [clearDom_regs]

theorem setAside_fits (i b on) : Fits k (setAside s i b on).regs := by
  unfold setAside
  grind [forEach_fits, setEdgeSide_regs, moveTraffic_regs]

theorem edgeReset_fits (e) : Fits k (edgeReset s e).regs := by
  unfold edgeReset
  grind [forEach_fits, setEdgeSide_regs, raise_regs]

theorem resetEdges_fits (ds caldera) : Fits k (resetEdges s ds caldera).regs := by
  unfold resetEdges
  grind [forEach_fits, flushEnd_regs, dropHeld_regs, edgeReset_fits]

theorem markEdges_fits (d st) : Fits k (markEdges s d st).regs := by
  unfold markEdges
  grind [forEach_fits, ewg_fits, edgeStatusState, edgeStatusCtrlUp]

theorem fenceEdges_fits (l) : Fits k (fenceEdges s l).regs := by
  unfold fenceEdges
  grind [markEdges_fits]

theorem trainEdges_fits (sc) : Fits k (trainEdges s sc).regs := by
  unfold trainEdges
  grind [markEdges_fits, forEach_fits]

theorem sampleTile_fits (d c t level hung) : Fits k (sampleTile s d c t level hung).regs := by
  have hstored (src : Source) (a b : Nat) (data rec_ : List Byte) :
      Fits k (incr (store (store { s with free := s.free + 2 } src a data) src b rec_) hangSlot sampleCount).regs :=
    incr_fits (store_fits (store_fits (s := { s with free := s.free + 2 }) h ..) ..) _ _ _ (by decide)
  unfold sampleTile
  split
  · exact h
  · dsimp only
    with_reducible exact ite_fits h (ite_fits (wg_fits h _ _ _ (by decide)) (hstored ..))

theorem sampleScope_fits (sc before hung) : Fits k (sampleScope s sc before hung).regs := by
  unfold sampleScope
  grind [forEach_fits, sampleTile_fits]

theorem resetPages_fits (sc keep) : Fits k (resetPages s sc keep).regs :=
  h.mkeep fun j => !resetsPage sc (j / 32768) || keptAcross s sc j || keep j

theorem showHolds_fits : Fits k (showHolds s).regs := by
  unfold showHolds
  grind [forEach_fits, wg_fits, holdStatusActive, holdStatusChannel]

theorem failStarted_fits (d) : Fits k (failStarted s d).regs := by
  unfold failStarted
  grind [forEach_fits, clearTasks_fits, endPhase_fits, seqEvent_regs]

theorem resetDie_fits (d) : Fits k (resetDie s d).regs := by
  unfold resetDie
  grind [clearTasks_fits, finishStopped_fits, noteStop_regs, updDie_regs, clearDom_regs]

theorem logOnly_fits (e) : Fits k (logOnly s e).regs := by
  unfold logOnly
  grind [logWrite_fits, waitFaults_fits]

theorem repairRow_fits (d keep ch row) : Fits k (repairRow s d keep ch row).regs := by
  unfold repairRow
  grind [useFree, updMem_regs, logOnly_fits, forEach_fits, setErr_regs, foundCorrected_fits, wrBytes_regs]

theorem hardRepair_fits (d keep) : Fits k (hardRepair s d keep).regs := by
  unfold hardRepair
  grind [updMem_regs, wg_fits, forEach_fits, repairRow_fits, memRepairQueued]

theorem resetMemory_fits (d keep) : Fits k (resetMemory s d keep).regs := by
  unfold resetMemory
  grind [hardRepair_fits, updMem_regs]

theorem abortCommands_fits : Fits k (abortCommands s).regs := by
  unfold abortCommands
  grind [forEach_fits, dmaCut_fits, complete_fits]

theorem abortOps_fits (qs) : Fits k (abortOps s qs).regs := by
  unfold abortOps
  grind [forEach_fits, stopQueue_regs, completeOp_fits]

theorem darkenGroups_fits : Fits k (darkenGroups s).regs := by
  have hgroup (t : State) (g : Nat) (ht : Fits k t.regs) : Fits k (updGroup (gst (gst (gst (gst (gst t g
      groupStatusState 0) g groupStatusWidth 0) g groupStatusFum 0) g groupStatusTxLanes 0) g groupStatusRxLanes 0) g
      (fun _ => {})).regs := by
    rw [updGroup_regs]
    iterate 5 refine gst_fits ?_ _ _ _ fun _ => Nat.le_of_ble_eq_true rfl
    exact ht
  unfold darkenGroups
  refine forEach_fits h _ fun t p ht => ?_
  have hgroups := forEach_fits (xs := portGroupList t p) ht _ hgroup
  grind [forEach_fits, unCut_fits, dropCut_fits, setLink_regs, returnCredit_fits]

theorem takeSettings_fits : Fits k (takeSettings s).regs := by
  unfold takeSettings
  grind [wg_fits, forEach_fits, clearDom_regs, mapOutDie_fits, mapOutPkg_fits, darkenGroups_fits, memSplitCurPkg,
    memSplitCurLobe, mapoutReqPending, optPlanDarkCur]

theorem enterDie_fits (d) : Fits k (enterDie s d).regs := by
  unfold enterDie
  grind [dropPosted_regs, resetEdges_fits, resetDie_fits, failStarted_fits]

theorem enterLobe_fits (l) : Fits k (enterLobe s l).regs := by
  unfold enterLobe
  grind [forEach_fits, resetMemory_fits, resetDie_fits, dropPosted_regs, resetEdges_fits]

theorem endWork_fits : Fits k (endWork s).regs := by
  unfold endWork
  grind [forEach_fits, abortJob_fits, abortCommands_fits, abortOps_fits]

theorem clearEngines_fits : Fits k (clearEngines s).regs := by
  unfold clearEngines
  grind [forEach_fits, updMem_regs]

theorem enterPackage_fits (takes keep) : Fits k (enterPackage s takes keep).regs := by
  unfold enterPackage
  grind [endWork_fits, takeSettings_fits, forEach_fits, resetMemory_fits, resetDie_fits, clearEngines_fits,
    resetEdges_fits]

theorem dropLobe_fits (l) : Fits k (dropLobe s l).regs := by
  unfold dropLobe
  grind [resetEdges_fits, resetDie_fits, dropPosted_regs, markEdges_fits]

theorem clearOutside_fits : Fits k (clearOutside s).regs :=
  h.mkeep fun j => !carriesErupts (j / 32768)

theorem enterFull_fits (takes) : Fits k (enterFull s takes).regs := by
  unfold enterFull
  grind [enterPackage_fits]

theorem enterScope_fits (sc takes) : Fits k (enterScope s sc takes).regs := by
  unfold enterScope
  grind [enterDie_fits, enterLobe_fits, enterPackage_fits, enterFull_fits]

theorem showResets_fits : Fits k (showResets s).regs := by
  unfold showResets
  grind [wg_fits, resetStatusInProgress]

theorem retrainGroups_fits : Fits k (retrainGroups s).regs := by
  unfold retrainGroups
  grind [forEach_fits, groupReturn_fits, updGroup_regs, startTraining_fits, nextRetrain_fits]

theorem startLevel_fits (sc before) : Fits k (startLevel s sc before).regs := by
  unfold startLevel
  have hentered (takes : Bool) (keep : Nat → Bool) :
      Fits k (trainEdges (showHolds (resetPages (enterScope s sc takes) sc keep)) sc).regs :=
    trainEdges_fits (showHolds_fits (resetPages_fits (enterScope_fits h ..) ..)) sc
  grind [retrainGroups_fits, incr_fits, wg_fits, showResets_fits, resetCount, resetStatusLastLevel,
    resetStatusEscalated]

theorem beginReset_fits (sc) : Fits k (beginReset s sc).regs := by
  unfold beginReset
  grind [startLevel_fits, sampleScope_fits]

/-! ### Fences and the aggregator -/

theorem surviveMismatch_fits (l) : Fits k (surviveMismatch s l).regs := by
  unfold surviveMismatch
  grind [forEach_fits, updPhase_regs]

theorem setFence_fits (l) : Fits k (setFence s l).regs := by
  unfold setFence
  grind [wg_fits, lobeModeFencedW, lobeModeFencedE, lobeModePrimary, lobeModeCur]

theorem fenceJobs_fits (l cur) : Fits k (fenceJobs s l cur).regs := by
  unfold fenceJobs
  grind [forEach_fits, abortJob_fits]

theorem fenceOnly_fits (l) : Fits k (fenceOnly s l).regs := by
  unfold fenceOnly
  grind [setOutcome_fits, surviveMismatch_fits, fenceEdges_fits, setFence_fits, fenceJobs_fits]

theorem fenceLobe_fits (l) : Fits k (fenceLobe s l).regs := by
  unfold fenceLobe
  grind [startLevel_fits, fenceOnly_fits, sampleScope_fits]

theorem fenceBoth_fits : Fits k (fenceBoth s).regs := by
  unfold fenceBoth
  grind [fenceOnly_fits, startLevel_fits, sampleScope_fits]

theorem demand_fits (sc) : Fits k (demand s sc).regs := by
  unfold demand
  grind [fenceLobe_fits, beginReset_fits]

theorem classActions_fits (es) : Fits k (classActions s es).regs := by
  unfold classActions
  grind [demand_fits, fenceBoth_fits, fenceLobe_fits, forEach_fits, abortJob_fits]

theorem takeBatch_fits (es) : Fits k (takeBatch s es).regs := by
  unfold takeBatch
  grind [classActions_fits, forEach_fits, record_fits]

theorem drain_fits (n) : Fits k (drain n s).regs := by
  induction n generalizing s with
  | zero => exact h
  | succ n ih => unfold drain; grind [takeBatch_fits]

theorem takeEvents_fits : Fits k (takeEvents s).regs := by
  unfold takeEvents
  grind [forEach_fits, drain_fits, settleSeq_fits, releaseHeld_fits]

/-! ### Boot -/

theorem pickCopy_fits (img) : Fits k (pickCopy s img).1.regs := by
  unfold pickCopy
  grind [reportCopy_regs]

theorem bootSolfatara_fits : Fits k (bootSolfatara s).regs := by
  unfold bootSolfatara
  grind [pickCopy_fits, wg_fits, secStatusStage, secStatusSolB]

theorem powerDown_fits : Fits k (powerDown s).regs := by
  have hcleared : Fits k (clearEngines (dropLobe (dropLobe (endWork s) 0) 1)).regs :=
    clearEngines_fits (dropLobe_fits (dropLobe_fits (endWork_fits h) _) _)
  have hlost := forEach_fits (xs := List.range 4) (clearOutside_fits (resetPages_fits hcleared .full
    fun k => pgPower (k / 32768) = 64)) losePower fun _ _ ht => ht
  unfold powerDown
  grind [wg_fits, showResets_fits, pwrStateOffW, pwrStateOffE, resetStatusHeld, pwrStateCur]

theorem showClocks_fits : Fits k (showClocks s).regs := by
  unfold showClocks
  grind [wg_fits, clkStatusRef0Ok, clkStatusRef1Ok, clkStatusRefSel, clkStatusHoldover, clkStatusSlowOk,
    clkStatusBackup]

theorem drawBytes_fits (n) : Fits k (drawBytes s n).2.regs := by
  unfold drawBytes
  grind

theorem bootCaldera_fits : Fits k (bootCaldera s).1.regs := by
  unfold bootCaldera
  have hstage (t : State) (ht : Fits k t.regs) (v : Nat) : Fits k (wg t secSlot secStatusStage v).regs :=
    wg_fits ht _ _ _ (by decide)
  grind [extendMr_regs, wg_fits, pickCopy_fits, secStatusSolB, secStatusTest, secStatusCalB]

theorem bootDies_fits : Fits k (bootDies s).regs := by
  unfold bootDies
  grind [drawBytes_fits, pickCopy_fits, extendMr_regs, wg_fits, secStatusDieB]

theorem leaveScan_fits : Fits k (leaveScan s).regs := by
  unfold leaveScan
  grind [wg_fits, jtagStatusScanActive]

theorem bootFull_fits : Fits k (bootFull s).regs := by
  have hcleared := clearOutside_fits h
  have hdies (t : State) (ht : Fits k t.regs) : Fits k (showClocks (leaveScan (bootDies t))).regs :=
    showClocks_fits (leaveScan_fits (bootDies_fits ht))
  unfold bootFull
  grind [bootSolfatara_fits, bootCaldera_fits, wg_fits, powerDown_fits, secStatusStage, clkStatusRefSel]

theorem bootWhenDue_fits : Fits k (bootWhenDue s).regs := by
  unfold bootWhenDue
  grind [takeEvents_fits, bootFull_fits]

/-! ### Posts, and sequencers that start -/

theorem readSource_fits (q a n) : Fits k (readSource s q a n).1.regs := by
  unfold readSource
  grind [checkRead_fits]

theorem postOp_fits (q w poster) : Fits k (postOp s q w poster).1.regs := by
  unfold postOp
  grind [forEach_fits, readSource_fits, deliverStatus_fits, raise_regs, updCq_regs]

theorem postList_fits (n d ph) : Fits k (postList n s d ph).regs := by
  induction n generalizing s with
  | zero => exact h
  | succ n ih => unfold postList; grind [endFailed_fits, checkDie_fits, updPhase_regs, postOp_fits]

theorem postWaiting_fits : Fits k (postWaiting s).regs := by
  unfold postWaiting
  grind [forEach_fits, postList_fits]

theorem startSeq_fits (d addr cmd) : Fits k (startSeq s d addr cmd).regs := by
  unfold startSeq
  grind [checkDie_fits, updSeq_regs, raise_regs, wg_fits, complete_fits, beginStep_regs, seqStatusState, evtHead]

theorem startHere_fits (d) : Fits k (startHere s d).regs := by
  unfold startHere
  grind [updSeq_regs, startSeq_fits]

theorem startWaiting_fits : Fits k (startWaiting s).regs := by
  unfold startWaiting
  grind [forEach_fits, startHere_fits]

/-! ### DMA and BAR4 -/

theorem countDma_fits (p n c moved) : Fits k (countDma s p n c moved).regs := by
  unfold countDma
  grind [updCmd_regs, retire_regs]

theorem endDma_fits (c status moved) : Fits k (endDma s c status moved).regs := by
  unfold endDma
  grind [complete_fits, countDma_fits]

theorem reportBad_fits (by_ a n) : Fits k (reportBad s by_ a n).1.regs := by
  unfold reportBad
  grind [checkRead_fits]

theorem request_fits (r) : Fits k (request s r).regs := by
  unfold request
  grind [issue_regs]

theorem pumpWaiting_fits : Fits k (pumpWaiting s).regs := by
  unfold pumpWaiting
  grind [forEach_fits, request_fits]

theorem barFail_fits (p off job status) : Fits k (barFail s p off job status).regs := by
  unfold barFail
  grind [wg_fits, raise_regs, hiErrValid, hiErrStatus, hiErrOffset]

theorem barDo_fits (r) : Fits k (barDo s r).regs := by
  have hpart (x : BarAcc) (y : Nat × Nat) (hx : Fits k x.st.regs) :
      Fits k (barReadPart r s.remote.nextRead x y.1 y.2).st.regs := by
    unfold barReadPart
    grind [barFail_fits, reportBad_fits]
  have hparts :
      Fits k ((reqParts r).foldl (fun x y => barReadPart r s.remote.nextRead x y.1 y.2) { st := s }).st.regs :=
    List.foldlRecOn (motive := fun x : BarAcc => Fits k x.st.regs) _ _ h fun x hx y _ => hpart x y hx
  unfold barDo
  grind [request_fits, foldl_fits]

theorem barRead_fits (r) : Fits k (barRead s r).regs := by
  unfold barRead
  grind [barDo_fits]

theorem releaseBars_fits : Fits k (releaseBars s).regs := by
  unfold releaseBars
  grind [forEach_fits, barRead_fits]

theorem pumpOne_fits (p n c) : ∀ t, pumpOne s p n c = some t → Fits k t.regs := by
  unfold pumpOne
  grind [updCmd_regs, issue_regs, reportBad_fits]

theorem pumpDma_fits (m p n) : Fits k (pumpDma m s p n).regs := by
  induction m generalizing s with
  | zero => exact h
  | succ m ih => unfold pumpDma; grind [pumpOne_fits]

theorem pumpDmas_fits : Fits k (pumpDmas s).regs := by
  unfold pumpDmas
  grind [forEach_fits, pumpDma_fits]

/-! ### Host commands -/

theorem startDma_fits (p n c) : Fits k (startDma s p n c).regs := by
  unfold startDma
  grind [complete_fits, pumpDma_fits]

theorem setSeqJob_fits (d a) : Fits k (setSeqJob s d a).regs := by
  unfold setSeqJob
  grind [wg_fits, seqJobHi, seqJobLo]

theorem startSeqRun_fits (p c) : Fits k (startSeqRun s p c).regs := by
  unfold startSeqRun
  grind [complete_fits, startSeq_fits, setSeqJob_fits]

theorem startTest_fits (p c) : Fits k (startTest s p c).regs := by
  unfold startTest
  grind [complete_fits]

theorem startWaitFault_fits (c) : Fits k (startWaitFault s c).regs := by
  unfold startWaitFault
  grind [complete_fits]

theorem cutDma_fits (c status) : Fits k (cutDma s c status).regs := by
  unfold cutDma
  grind [dmaCut_fits, dropAbort_regs, endDma_fits]

theorem forgetPost_fits (handle) : Fits k (forgetPost s handle).regs := by
  unfold forgetPost
  grind [forEach_fits, updCq_regs]

theorem abortCmd_fits (c) : Fits k (abortCmd s c).regs := by
  unfold abortCmd
  grind [complete_fits, forgetPost_fits, cutDma_fits, forEach_fits, updSeq_regs]

theorem leaveTest_fits (t) : Fits k (leaveTest s t).regs := by
  unfold leaveTest
  grind [updDie_regs, dropHold_fits, setAside_fits, groupBack_fits]

theorem untest_fits (c) : Fits k (untest s c).regs := by
  unfold untest
  grind [forEach_fits, leaveTest_fits]

theorem endPosts_fits (p job) : Fits k (endPosts s p job).regs := by
  unfold endPosts
  grind [forEach_fits, completeOp_fits]

theorem faultJob_fits (p j) : Fits k (faultJob s p j).regs := by
  unfold faultJob
  grind [useFree, takeBatch_fits, abortJob_fits]

theorem startAbort_fits (p c) : Fits k (startAbort s p c).regs := by
  unfold startAbort
  grind [complete_fits, endPosts_fits, faultJob_fits, forEach_fits, abortCmd_fits, untest_fits]

theorem startCmd_fits (p n c) : Fits k (startCmd s p n c).regs := by
  unfold startCmd
  grind [updCmd_regs, complete_fits, startDma_fits, startSeqRun_fits, startAbort_fits, startTest_fits,
    startWaitFault_fits]

theorem pumpRound_fits : Fits k (pumpRound s).regs := by
  unfold pumpRound
  grind [forEach_fits, startCmd_fits]

theorem pumpHost_fits (m) : Fits k (pumpHost m s).regs := by
  induction m generalizing s with
  | zero => exact h
  | succ m ih => unfold pumpHost; grind [pumpRound_fits]

theorem settle_fits : Fits k (settle s).regs := by
  unfold settle
  dsimp only
  rw [notePending_regs]
  exact bootWhenDue_fits (takeEvents_fits (postWaiting_fits (pumpHost_fits (pumpDmas_fits (pumpWaiting_fits
    (startWaiting_fits (takeEvents_fits (releaseBars_fits (flushPosted_fits h)))))) _)))

end

end Sys2Proof.Machine
end

section
/-!
PROOFS. Reads of sectors: the register store of a state may hold a number that its field has no room for, and a granule
read that finds no error leaves it there, where the statement has the count stop at the field's largest value.
-/

namespace Sys2Proof.Machine

/-- A tile runs a task, and CE_COUNT of its die holds more than its 32 bits can. -/
def wideCount : State :=
  let s := setTile State.reset 0 1 2 { task := some { id := 1, tds := [] } }
  { s with regs := mset 0 s.regs (fkey (mgSlot 0) ceCount) (2 ^ 64) }

theorem wideCount_place : ∃ cb, sectorAt wideCount 0 = some (0, cb, 0) ∧ heldChan wideCount 0 ≠ some 0 ∧
    canRead wideCount (.task 0 1 2 false) = true := ⟨0, by decide +kernel⟩

/-- A read of eight clean sectors, and all that follows it, leaves the count as it is. -/
theorem ceCount_wideCount_read :
    rg (settle (readSector wideCount 0 (.task 0 1 2 false) (List.replicate 8 0))) (mgSlot 0) ceCount = 2 ^ 64 := by
  decide +kernel

theorem settle_eq_of_sectorRead {a : Nat} {by_ : Reader} {sy : List Nat} {s u : State}
    (h : Settles (.sectorRead a by_ sy) s u) : settle (readSector s a by_ sy) = settle u := Host.Outcome.next.inj h

/-- A count that stands at its limit does not go beyond it by what follows a command. -/
theorem ceCount_settle_of_le {u : State} (h : rg u (mgSlot 0) ceCount ≤ 2 ^ 32 - 1) :
    rg (settle u) (mgSlot 0) ceCount < 2 ^ 64 :=
  settle_fits (k := fkey (mgSlot 0) ceCount) (Nat.lt_of_le_of_lt h (by decide))

/-- Refutes O13: the statement does not ask that the counts fit their fields. Where CE_COUNT of a die holds 2 ^ 64, a
task's main path reads eight clean sectors and the count stays; no state with the count that the statement gives,
2 ^ 32 - 1, settles into one with more than 64 bits in the field. -/
theorem not_sectorsAreRead : ¬ Obligations.SectorsAreRead := by
  unfold Obligations.SectorsAreRead
  rintro ⟨hreads, -, -⟩
  obtain ⟨cb, hat, hheld, hcan⟩ := wideCount_place
  obtain ⟨-, -, -, hgranule⟩ := hreads 0 0 cb 0 (.task 0 1 2 false) (List.replicate 8 0) wideCount hat
  obtain ⟨u, hsettles, -, -, hcount, -⟩ := hgranule 0 1 2 rfl hcan hheld rfl (by decide)
  have hwide := ceCount_wideCount_read
  rw [settle_eq_of_sectorRead hsettles] at hwide
  exact absurd hwide (Nat.ne_of_lt (ceCount_settle_of_le (Nat.le_trans (Nat.le_of_eq hcount) (Nat.min_le_right ..))))

end Sys2Proof.Machine
end

section
/-!
PROOFS. The code of the data flit (R195, R196): multiplication by α is linear, so both check words follow a change of
one column, and what a choice of copies answers satisfies the words of that choice.
-/

namespace Sys2Proof.Machine

/-! ### The field of the code -/

/-- Multiplication by α shifts, and folds bit 31 back. -/
theorem gfX_eq (low : Nat) {a : Nat} (ha : a < 2 ^ 32) :
    gfX low a = a <<< 1 % 2 ^ 32 ^^^ (if a.testBit 31 then low else 0) := by
  rw [gfX, Nat.shiftLeft_eq, Nat.pow_one]
  by_cases h : 2 ^ 31 ≤ a
  · have hmod : a * 2 % 2 ^ 32 = a * 2 - 2 ^ 32 := by omega
    rw [if_pos h, if_pos (Nat.testBit_of_two_pow_le_and_two_pow_add_one_gt h ha), hmod]
  · have hmod : a * 2 % 2 ^ 32 = a * 2 := by omega
    rw [if_neg h, if_neg (ne_true_of_eq_false (Nat.testBit_lt_two_pow (Nat.lt_of_not_le h))), hmod, Nat.xor_zero]

theorem gfX_lt {a : Nat} (ha : a < 2 ^ 32) : gfX rilPoly a < 2 ^ 32 := by
  rw [gfX_eq rilPoly ha]
  refine Nat.xor_lt_two_pow (Nat.mod_lt _ (by decide)) ?_
  split <;> decide

theorem gfX_xor (low : Nat) {a b : Nat} (ha : a < 2 ^ 32) (hb : b < 2 ^ 32) :
    gfX low (a ^^^ b) = gfX low a ^^^ gfX low b := by
  rw [gfX_eq low (Nat.xor_lt_two_pow ha hb), gfX_eq low ha, gfX_eq low hb, Nat.shiftLeft_xor_distrib,
    Nat.xor_mod_two_pow, Nat.testBit_xor]
  cases a.testBit 31 <;> cases b.testBit 31 <;> simp [Nat.xor_left_comm, Nat.xor_comm]

theorem gfXPow_lt (j : Nat) {a : Nat} (ha : a < 2 ^ 32) : gfXPow rilPoly j a < 2 ^ 32 := by
  induction j generalizing a with
  | zero => exact ha
  | succ j ih => exact ih (gfX_lt ha)

theorem gfXPow_gfX (low j a : Nat) : gfXPow low j (gfX low a) = gfX low (gfXPow low j a) := by
  induction j generalizing a with
  | zero => rfl
  | succ j ih => exact ih (gfX low a)

/-! ### The check words -/

theorem xorAll_cons (c : Nat) (cols : List Nat) : xorAll (c :: cols) = c ^^^ xorAll cols := by
  rw [xorAll, List.foldl_cons, Nat.zero_xor, xorAll]
  conv_lhs => rw [← Nat.xor_zero c]
  exact List.foldl_assoc

theorem checkQ_cons (c : Nat) (cols : List Nat) : checkQ (c :: cols) = c ^^^ gfX rilPoly (checkQ cols) := rfl

theorem checkP_lt {cols : List Nat} (hcols : ∀ c ∈ cols, c < 2 ^ 32) : checkP cols < 2 ^ 32 := by
  induction cols with
  | nil => decide
  | cons c cols ih =>
    rw [List.forall_mem_cons] at hcols
    rw [checkP, xorAll_cons]
    exact Nat.xor_lt_two_pow hcols.1 (ih hcols.2)

theorem checkQ_lt {cols : List Nat} (hcols : ∀ c ∈ cols, c < 2 ^ 32) : checkQ cols < 2 ^ 32 := by
  induction cols with
  | nil => decide
  | cons c cols ih =>
    rw [List.forall_mem_cons] at hcols
    exact Nat.xor_lt_two_pow hcols.1 (gfX_lt (ih hcols.2))

/-- A change of one column changes P by as much. -/
theorem checkP_set (cols : List Nat) (d : Nat) {l : Nat} (hl : l < cols.length) :
    checkP (cols.set l (cols.getD l 0 ^^^ d)) = checkP cols ^^^ d := by
  induction cols generalizing l with
  | nil => exact absurd hl (Nat.not_lt_zero l)
  | cons c cols ih =>
    cases l with
    | zero =>
      simp only [checkP, List.set_cons_zero, List.getD_cons_zero, xorAll_cons]
      exact Nat.xor_right_comm ..
    | succ l =>
      simp only [checkP, List.set_cons_succ, List.getD_cons_succ, xorAll_cons] at ih ⊢
      rw [ih (Nat.lt_of_succ_lt_succ hl), Nat.xor_assoc]

/-- A change of column `l` changes Q by α^l times as much. -/
theorem checkQ_set {cols : List Nat} (hcols : ∀ c ∈ cols, c < 2 ^ 32) {d : Nat} (hd : d < 2 ^ 32) {l : Nat}
    (hl : l < cols.length) :
    checkQ (cols.set l (cols.getD l 0 ^^^ d)) = checkQ cols ^^^ gfXPow rilPoly l d := by
  induction cols generalizing l with
  | nil => exact absurd hl (Nat.not_lt_zero l)
  | cons c cols ih =>
    rw [List.forall_mem_cons] at hcols
    cases l with
    | zero => exact Nat.xor_right_comm ..
    | succ l =>
      have htail := ih hcols.2 (Nat.lt_of_succ_lt_succ hl)
      rw [List.set_cons_succ, List.getD_cons_succ, checkQ_cons, checkQ_cons, htail,
        gfX_xor rilPoly (checkQ_lt hcols.2) (gfXPow_lt l hd), gfXPow, gfXPow_gfX, Nat.xor_assoc]

/-! ### The copies and the payload -/

theorem sum_digits_lt {d : Nat → Nat} (hd : ∀ i, d i < 4) (n : Nat) :
    ((List.range n).map fun i => d i * 4 ^ i).sum < 4 ^ n := by
  induction n with
  | zero => exact Nat.zero_lt_one
  | succ n ih =>
    have hdigit : d n * 4 ^ n ≤ 3 * 4 ^ n := Nat.mul_le_mul_right _ (Nat.le_of_lt_succ (hd n))
    rw [List.range_succ, List.map_append, List.sum_append, Nat.pow_succ, List.map_singleton, List.sum_singleton]
    omega

theorem checkCopy_lt (f : DataFlit) (j : Nat) : checkCopy f j < 2 ^ 32 :=
  sum_digits_lt (fun _ => Nat.mod_lt _ (by decide)) 16

theorem flitCols_lt (f : DataFlit) : ∀ c ∈ flitCols f, c < 2 ^ 32 := by
  intro c hc
  obtain ⟨l, -, rfl⟩ := List.mem_map.1 hc
  exact Nat.mod_lt _ (by decide)

theorem length_flitCols (f : DataFlit) : (flitCols f).length = 64 := by
  rw [flitCols, List.length_map, List.length_range]

/-- The lanes of a copy, the first at `lo`. -/
def copyLanes (lo : Nat) : List Nat := (List.range 16).map (· + lo)

/-- The choices of one word's copies `x` on the lanes from `lx` and `y` on those from `ly`, each with the lanes of the
copy that it rejects. -/
def copyChoices (x y lx ly : Nat) : List (Nat × List Nat) :=
  if x = y then [(x, [])] else [(x, copyLanes ly), (y, copyLanes lx)]

/-- One choice for each word. -/
def bothWords (p q : Nat × List Nat) : Nat × Nat × Option (List Nat) :=
  (p.1, q.1, if p.2.isEmpty && q.2.isEmpty then none else some (p.2 ++ q.2))

theorem candidates_eq (f : DataFlit) :
    candidates f = (copyChoices (checkCopy f 0) (checkCopy f 2) 0 32).flatMap fun p =>
      (copyChoices (checkCopy f 1) (checkCopy f 3) 16 48).map (bothWords p) := rfl

theorem mem_copyChoices {x y lx ly : Nat} {c : Nat × List Nat} (hc : c ∈ copyChoices x y lx ly) :
    c.1 = x ∨ c.1 = y := by
  unfold copyChoices at hc
  split at hc
  · exact .inl (congrArg Prod.fst (List.mem_singleton.1 hc))
  · rcases List.mem_pair.1 hc with rfl | rfl
    · exact .inl rfl
    · exact .inr rfl

/-- Copies that agree leave one choice. -/
theorem copyChoices_of_agree {x y w : Nat} (hx : x = w) (hy : y = w) (lx ly : Nat) :
    copyChoices x y lx ly = [(w, [])] := by
  rw [copyChoices, if_pos (hx.trans hy.symm), hx]

/-- Where one copy is right, the choices before the first right one are wrong. -/
theorem copyChoices_of_right {x y w : Nat} (h : x = w ∨ y = w) (lx ly : Nat) :
    ∃ wrong lanes rest, copyChoices x y lx ly = wrong ++ (w, lanes) :: rest ∧ ∀ c ∈ wrong, c.1 ≠ w := by
  unfold copyChoices
  by_cases hx : x = w
  · subst hx
    split
    · exact ⟨[], [], [], rfl, fun _ hc => nomatch hc⟩
    · exact ⟨[], _, _, rfl, fun _ hc => nomatch hc⟩
  · obtain rfl := h.resolve_left hx
    rw [if_neg hx]
    refine ⟨[(x, copyLanes ly)], _, [], rfl, fun c hc => ?_⟩
    rwa [List.mem_singleton.1 hc]

/-- Each choice takes one of P's copies and one of Q's. -/
theorem mem_candidates {f : DataFlit} {c : Nat × Nat × Option (List Nat)} (hc : c ∈ candidates f) :
    (c.1 = checkCopy f 0 ∨ c.1 = checkCopy f 2) ∧ (c.2.1 = checkCopy f 1 ∨ c.2.1 = checkCopy f 3) := by
  rw [candidates_eq] at hc
  obtain ⟨p, hp, hc⟩ := List.mem_flatMap.1 hc
  obtain ⟨q, hq, rfl⟩ := List.mem_map.1 hc
  exact ⟨mem_copyChoices hp, mem_copyChoices hq⟩

/-! ### One choice of copies -/

section
variable {cols : List Nat} {c : Nat × Nat × Option (List Nat)}

/-- A clean payload is delivered as it is. -/
theorem tryCopies_of_clean (hp : c.1 = checkP cols) (hq : c.2.1 = checkQ cols) :
    tryCopies cols c = some (cols, none) :=
  if_pos ⟨by rw [hp, Nat.xor_self], by rw [hq, Nat.xor_self]⟩

/-- A choice that has one word right and the other wrong answers nothing. -/
theorem tryCopies_of_hurt (h : ¬(c.1 = checkP cols ↔ c.2.1 = checkQ cols)) : tryCopies cols c = none := by
  unfold tryCopies
  dsimp only
  simp only [ne_eq, Nat.xor_eq_zero_iff]
  rw [if_neg fun hclean => h ⟨fun _ => hclean.2, fun _ => hclean.1⟩,
    if_neg fun hboth => h ⟨fun hp => absurd hp hboth.1, fun hq => absurd hq hboth.2⟩]

/-- What a choice answers is the payload as it is, or with one column corrected by the syndrome of P where that of Q
is the one of this column. -/
theorem tryCopies_cases {out : List Nat} {o : Option Nat} (h : tryCopies cols c = some (out, o)) :
    (c.1 = checkP cols ∧ c.2.1 = checkQ cols ∧ out = cols ∧ o = none) ∨
    ∃ l < 64, gfXPow rilPoly l (c.1 ^^^ checkP cols) = c.2.1 ^^^ checkQ cols ∧
      out = cols.set l (cols.getD l 0 ^^^ (c.1 ^^^ checkP cols)) ∧ o = some l := by
  unfold tryCopies at h
  dsimp only at h
  simp only [ne_eq, Nat.xor_eq_zero_iff] at h
  by_cases hclean : c.1 = checkP cols ∧ c.2.1 = checkQ cols
  · rw [if_pos hclean] at h
    cases h
    exact .inl ⟨hclean.1, hclean.2, rfl, rfl⟩
  · rw [if_neg hclean] at h
    split at h
    · cases hfind : (List.range 64).find? fun l =>
          decide (gfXPow rilPoly l (c.1 ^^^ checkP cols) = c.2.1 ^^^ checkQ cols) with
      | none => rw [hfind] at h; cases h
      | some l =>
        rw [hfind] at h
        obtain ⟨-, heq⟩ := Option.ite_none_right_eq_some.1 h
        cases heq
        have hsyndrome := List.find?_some hfind
        exact .inr ⟨l, List.mem_range.1 (List.mem_of_find?_eq_some hfind), of_decide_eq_true hsyndrome, rfl, rfl⟩
    · cases h

/-- What a choice answers satisfies its two words, and only the column that it names has changed. -/
theorem tryCopies_eq_some (hcols : ∀ x ∈ cols, x < 2 ^ 32) (hlen : cols.length = 64) (hp : c.1 < 2 ^ 32)
    {out : List Nat} {o : Option Nat} (h : tryCopies cols c = some (out, o)) :
    checkP out = c.1 ∧ checkQ out = c.2.1 ∧ out.length = 64 ∧ ∀ i, o ≠ some i → out.getD i 0 = cols.getD i 0 := by
  obtain ⟨hcp, hcq, rfl, rfl⟩ | ⟨l, hl, hsyndrome, rfl, rfl⟩ := tryCopies_cases h
  · exact ⟨hcp.symm, hcq.symm, hlen, fun _ _ => rfl⟩
  · rw [← hlen] at hl
    refine ⟨?_, ?_, by rw [List.length_set, hlen], fun i hi => ?_⟩
    · rw [checkP_set _ _ hl, Nat.xor_comm, Nat.xor_xor_cancel_right]
    · rw [checkQ_set hcols (Nat.xor_lt_two_pow hp (checkP_lt hcols)) hl, hsyndrome, Nat.xor_comm,
        Nat.xor_xor_cancel_right]
    · have hne : l ≠ i := fun he => hi (congrArg some he)
      rw [List.getD_eq_getElem?_getD, List.getElem?_set_ne hne, List.getD_eq_getElem?_getD]

end

/-! ### The decoder -/

section
variable {f : DataFlit}

/-- With both copies of P right and one of Q, the first right choice is delivered. -/
theorem decodeFlit_of_rightP (hp0 : checkCopy f 0 = checkP (flitCols f)) (hp2 : checkCopy f 2 = checkP (flitCols f))
    (hq : checkCopy f 1 = checkQ (flitCols f) ∨ checkCopy f 3 = checkQ (flitCols f)) :
    decodeFlit f = some (flitCols f, none) := by
  obtain ⟨wrong, lanes, rest, hchoices, hwrong⟩ := copyChoices_of_right hq 16 48
  rw [decodeFlit, candidates_eq, copyChoices_of_agree hp0 hp2, hchoices, List.flatMap_singleton, List.map_append,
    List.map_cons, List.findSome?_eq_some_iff]
  refine ⟨_, _, _, rfl, tryCopies_of_clean rfl rfl, fun c hc => ?_⟩
  obtain ⟨q, hq, rfl⟩ := List.mem_map.1 hc
  exact tryCopies_of_hurt fun h => hwrong q hq (h.1 rfl)

/-- With both copies of Q right and one of P, the first right choice is delivered. -/
theorem decodeFlit_of_rightQ (hp : checkCopy f 0 = checkP (flitCols f) ∨ checkCopy f 2 = checkP (flitCols f))
    (hq1 : checkCopy f 1 = checkQ (flitCols f)) (hq3 : checkCopy f 3 = checkQ (flitCols f)) :
    decodeFlit f = some (flitCols f, none) := by
  obtain ⟨wrong, lanes, rest, hchoices, hwrong⟩ := copyChoices_of_right hp 0 32
  rw [decodeFlit, candidates_eq, copyChoices_of_agree hq1 hq3, hchoices]
  simp only [List.map_singleton, List.flatMap_append, List.flatMap_cons, List.singleton_append]
  rw [List.findSome?_eq_some_iff]
  refine ⟨_, _, _, rfl, tryCopies_of_clean rfl rfl, fun c hc => ?_⟩
  obtain ⟨p, hp, hc⟩ := List.mem_flatMap.1 hc
  obtain rfl := List.mem_singleton.1 hc
  exact tryCopies_of_hurt fun h => hwrong p hp (h.2 rfl)

end

/-- Settles O29, by the choice of copies that answers. -/
theorem flitCodeCorrects : Obligations.FlitCodeCorrects := by
  refine ⟨fun f cols o h => ?_, fun f h => ?_⟩
  · obtain ⟨c, hc, hanswer⟩ := List.exists_of_findSome?_eq_some h
    obtain ⟨hp, hq⟩ := mem_candidates hc
    have hlt : c.1 < 2 ^ 32 := by rcases hp with hp | hp <;> exact hp ▸ checkCopy_lt ..
    obtain ⟨hcp, hcq, hlen, hkept⟩ := tryCopies_eq_some (flitCols_lt f) (length_flitCols f) hlt hanswer
    exact ⟨by rwa [hcp], by rwa [hcq], hlen, hkept⟩
  · obtain ⟨hp0, hp2, hq⟩ | ⟨hp, hq1, hq3⟩ := h
    · exact decodeFlit_of_rightP hp0 hp2 hq
    · exact decodeFlit_of_rightQ hp hq1 hq3

end Sys2Proof.Machine
end

section
/-!
PROOFS. Rules of the Rilun edges' state: what an end of an edge, its bundles and its registers read as after a change
of one end, of each bundle of an end, and of both ends of an edge.
-/

namespace Sys2Proof.Machine

/-! ### The ends of the edges -/

/-- The place of an end in the table of ends is its own. -/
theorem endKey_ne {e e' : EdgeEnd} (h : e' ≠ e) : 2 * e'.edge.val + b2n e'.far ≠ 2 * e.edge.val + b2n e.far := by
  obtain ⟨k, far⟩ := e
  obtain ⟨k', far'⟩ := e'
  simp only [ne_eq, EdgeEnd.mk.injEq, Fin.ext_iff, not_and] at h
  cases far <;> cases far' <;> simp_all [b2n] <;> omega

section
variable (s : State) {e e' : EdgeEnd}

theorem edgeSide_setEdgeSide_other (x : EdgeSide) (h : e' ≠ e) : edgeSide (setEdgeSide s e x) e' = edgeSide s e' :=
  mget_mset_other _ _ _ (endKey_ne h)

@[simp] theorem edgeSide_ewg (f : Nat → Fld) (v : Nat) : edgeSide (ewg s e f v) e' = edgeSide s e' := rfl

end

/-! ### Changes of one end -/

/-- `F` changes at the end that it is given by `φ` what the table of ends holds, and nothing at the others. -/
def ActsOn (F : State → EdgeEnd → State) (φ : EdgeSide → EdgeSide) : Prop :=
  ∀ s e e', edgeSide (F s e) e' = if e' = e then φ (edgeSide s e) else edgeSide s e'

theorem actsOn_set (φ : EdgeSide → EdgeSide) : ActsOn (fun s e => setEdgeSide s e (φ (edgeSide s e))) φ := by
  intro s e e'
  by_cases h : e' = e
  · rw [if_pos h, h, edgeSide_setEdgeSide_same]
  · rw [if_neg h, edgeSide_setEdgeSide_other _ _ h]

namespace ActsOn
variable {F G : State → EdgeEnd → State} {φ ψ : EdgeSide → EdgeSide}

theorem comp (hG : ActsOn G ψ) (hF : ActsOn F φ) : ActsOn (fun s e => G (F s e) e) (ψ ∘ φ) := by
  intro s e e'
  rw [hG, hF, hF, if_pos rfl]
  split <;> rfl

theorem forEach {α : Type} {H : α → State → EdgeEnd → State} {χ : α → EdgeSide → EdgeSide}
    (h : ∀ i, ActsOn (H i) (χ i)) (xs : List α) :
    ActsOn (fun s e => Machine.forEach xs s fun s i => H i s e) (fun x => xs.foldl (fun x i => χ i x) x) := by
  induction xs with
  | nil => exact fun s e e' => by split <;> simp_all [Machine.forEach]
  | cons i xs ih => exact ih.comp (h i)

/-- A change of both ends of an edge. -/
theorem edgeSide_ends (h : ActsOn F φ) (s : State) (k : Fin 6) (far : Bool) :
    edgeSide (Machine.forEach (edgeEnds k) s F) ⟨k, far⟩ = φ (edgeSide s ⟨k, far⟩) := by
  change edgeSide (F (F s ⟨k, false⟩) ⟨k, true⟩) ⟨k, far⟩ = _
  rw [h, h, h]
  cases far <;> simp

end ActsOn

/-! ### Bundles -/

/-- An end with bundle `n` changed. -/
def withBundle (n : Nat) (f : BundleEnd → BundleEnd) (x : EdgeSide) : EdgeSide :=
  { x with bundles := mset {} x.bundles n (f (mget {} x.bundles n)) }

theorem actsOn_updBundle (n : Nat) (f : BundleEnd → BundleEnd) :
    ActsOn (fun s e => updBundle s e n f) (withBundle n f) := actsOn_set (withBundle n f)

@[simp] theorem bundle_withBundle_same (n : Nat) (f : BundleEnd → BundleEnd) (x : EdgeSide) :
    mget {} (withBundle n f x).bundles n = f (mget {} x.bundles n) := mget_mset_same ..

theorem bundle_withBundle_other {n m : Nat} (f : BundleEnd → BundleEnd) (x : EdgeSide) (h : m ≠ n) :
    mget {} (withBundle n f x).bundles m = mget {} x.bundles m := mget_mset_other _ _ _ h

/-- An end with its first `n` bundles changed. -/
def withBundles (n : Nat) (f : Nat → BundleEnd → BundleEnd) (x : EdgeSide) : EdgeSide :=
  (List.range n).foldl (fun x i => withBundle i (f i) x) x

theorem withBundles_succ (n : Nat) (f : Nat → BundleEnd → BundleEnd) (x : EdgeSide) :
    withBundles (n + 1) f x = withBundle n (f n) (withBundles n f x) := by
  rw [withBundles, List.range_succ, List.foldl_append]
  rfl

theorem bundle_withBundles (n : Nat) (f : Nat → BundleEnd → BundleEnd) (x : EdgeSide) (i : Nat) :
    mget {} (withBundles n f x).bundles i = if i < n then f i (mget {} x.bundles i) else mget {} x.bundles i := by
  induction n with
  | zero => rfl
  | succ n ih =>
    rw [withBundles_succ]
    by_cases h : i = n
    · subst h
      rw [bundle_withBundle_same, ih, if_neg (Nat.lt_irrefl _), if_pos (Nat.lt_succ_self _)]
    · rw [bundle_withBundle_other _ _ h, ih]
      simp only [show i < n + 1 ↔ i < n by omega]

@[simp] theorem epoch_withBundles (n : Nat) (f : Nat → BundleEnd → BundleEnd) (x : EdgeSide) :
    (withBundles n f x).epoch = x.epoch := by
  induction n with
  | zero => rfl
  | succ n ih => rwa [withBundles_succ]

theorem actsOn_updBundles (n : Nat) (f : Nat → BundleEnd → BundleEnd) :
    ActsOn (fun s e => forEach (List.range n) s fun s i => updBundle s e i (f i)) (withBundles n f) :=
  ActsOn.forEach (fun i => actsOn_updBundle i (f i)) (List.range n)

/-- What `updBoth` leaves in the bundle that it changes, at either end. -/
theorem bundleOf_updBoth (s : State) (k : Fin 6) (b : Nat) (f : BundleEnd → BundleEnd) (far : Bool) :
    bundleOf (updBoth s k b f) ⟨k, far⟩ b = f (bundleOf s ⟨k, far⟩ b) := by
  rw [bundleOf, updBoth, (actsOn_updBundle b f).edgeSide_ends, bundle_withBundle_same, bundleOf]

/-- Traffic that moves to other bundles changes the kept flits and the turn alone. -/
theorem edgeSide_moveTraffic {β : Type} (part : EdgeSide → β)
    (hpart : ∀ x fs t, part { x with replay := fs, turn := t } = part x) (s : State) (k : Fin 6) (e : EdgeEnd) :
    part (edgeSide (moveTraffic s k) e) = part (edgeSide s e) := by
  refine forEach_frame (fun s => part (edgeSide s e)) _ s _ fun t far => ?_
  by_cases h : e = ⟨k, far⟩
  · subst h
    rw [edgeSide_setEdgeSide_same, hpart]
  · exact congrArg part (edgeSide_setEdgeSide_other _ _ h)

@[simp] theorem bundleOf_setEdgeState (s : State) (k : Fin 6) (st : Nat) (e : EdgeEnd) (b : Nat) :
    bundleOf (setEdgeState s k st) e b = bundleOf s e b := rfl

@[simp] theorem due_raise (s : State) (x : Event) : (raise s x).due = s.due ++ [x] := rfl

@[simp] theorem due_updBoth (s : State) (k : Fin 6) (b : Nat) (f : BundleEnd → BundleEnd) :
    (updBoth s k b f).due = s.due := rfl

@[simp] theorem due_moveTraffic (s : State) (k : Fin 6) : (moveTraffic s k).due = s.due := rfl

theorem bundleOf_moveTraffic (s : State) (k : Fin 6) (e : EdgeEnd) (b : Nat) :
    bundleOf (moveTraffic s k) e b = bundleOf s e b :=
  congrArg (fun m => mget ({} : BundleEnd) m b) (edgeSide_moveTraffic EdgeSide.bundles (fun _ _ _ => rfl) s k e)

@[simp] theorem bundleOf_raise (s : State) (x : Event) (e : EdgeEnd) (b : Nat) :
    bundleOf (raise s x) e b = bundleOf s e b := rfl

/-! ### Control bundles -/

/-- An end with control bundle `cb` changed. -/
def withCtrl (cb : Nat) (f : CtrlEnd → CtrlEnd) (x : EdgeSide) : EdgeSide :=
  { x with ctrl := mset {} x.ctrl cb (f (mget {} x.ctrl cb)) }

theorem actsOn_updCtrl (cb : Nat) (f : CtrlEnd → CtrlEnd) : ActsOn (fun s e => updCtrl s e cb f) (withCtrl cb f) :=
  actsOn_set (withCtrl cb f)

/-- Training of the control bundles leaves the data bundles and the epochs alone. -/
theorem edgeSide_trainCtrl {β : Type} (part : EdgeSide → β) (hpart : ∀ x m, part { x with ctrl := m } = part x)
    (s : State) (k : Fin 6) (up : Nat) (far : Bool) :
    part (edgeSide (trainCtrl s k up) ⟨k, far⟩) = part (edgeSide s ⟨k, far⟩) := by
  rw [trainCtrl, (ActsOn.forEach (fun cb => actsOn_updCtrl cb fun _ => { up := bit up cb }) [0, 1]).edgeSide_ends]
  exact (hpart ..).trans (hpart ..)

/-! ### Changes of the edges alone -/

/-- Nothing but the ends of edges and registers has changed. -/
def EdgesOnly (s t : State) : Prop := t = { s with edges := t.edges, regs := t.regs }

theorem EdgesOnly.trans {s t u : State} (h : EdgesOnly s t) (h' : EdgesOnly t u) : EdgesOnly s u :=
  Eq.trans h' (congrArg (fun x : State => { x with edges := u.edges, regs := u.regs }) h)

theorem EdgesOnly.forEach {α : Type} {f : State → α → State} (hf : ∀ s x, EdgesOnly s (f s x)) (xs : List α)
    (s : State) : EdgesOnly s (Machine.forEach xs s f) := by
  induction xs generalizing s with
  | nil => exact rfl
  | cons x xs ih => exact (hf s x).trans (ih (f s x))

theorem edgesOnly_ewg (s : State) (e : EdgeEnd) (f : Nat → Fld) (v : Nat) : EdgesOnly s (ewg s e f v) := rfl

theorem edgesOnly_updCtrl (s : State) (e : EdgeEnd) (cb : Nat) (f : CtrlEnd → CtrlEnd) :
    EdgesOnly s (updCtrl s e cb f) := rfl

theorem edgesOnly_trainCtrl (s : State) (k : Fin 6) (up : Nat) : EdgesOnly s (trainCtrl s k up) :=
  .forEach (fun s e => .forEach (fun s cb => edgesOnly_updCtrl s e cb _) _ s) _ s

theorem edgesOnly_setEdgeState (s : State) (k : Fin 6) (st : Nat) : EdgesOnly s (setEdgeState s k st) :=
  .forEach (fun s e => edgesOnly_ewg s e _ _) _ s

/-! ### Registers of the ends -/

/-- A field of the edge sets: its offset counts from the set's base. -/
structure IsEdgeField (f : Nat → Fld) : Prop where
  off : ∀ b, (f b).off = b + (f 0).off
  lo : ∀ b, (f b).lo = (f 0).lo
  inSet : (f 0).off + 4 ≤ 64 ∧ (f 0).lo < 32

/-- The sets of two ends are apart. -/
theorem edgeSet_apart {e e' : EdgeEnd} (h : e ≠ e') :
    (edgeSet e).1 * 4096 + (edgeSet e).2 + 64 ≤ (edgeSet e').1 * 4096 + (edgeSet e').2 ∨
    (edgeSet e').1 * 4096 + (edgeSet e').2 + 64 ≤ (edgeSet e).1 * 4096 + (edgeSet e).2 := by
  obtain ⟨k, far⟩ := e
  obtain ⟨k', far'⟩ := e'
  revert k k' far far'
  decide

theorem fkey_edgeSet_ne {e e' : EdgeEnd} {f g : Nat → Fld} (hf : IsEdgeField f) (hg : IsEdgeField g)
    (h : e ≠ e' ∨ (f 0).off * 8 + (f 0).lo ≠ (g 0).off * 8 + (g 0).lo) :
    fkey (edgeSet e).1 (f (edgeSet e).2) ≠ fkey (edgeSet e').1 (g (edgeSet e').2) := by
  have hfoff := hf.inSet
  have hgoff := hg.inSet
  rw [fkey, fkey, hf.off, hf.lo, hg.off, hg.lo]
  by_cases he : e = e'
  · subst he
    have := h.resolve_left (not_not_intro rfl)
    omega
  · have := edgeSet_apart he
    omega

section
variable (s : State) {e e' : EdgeEnd} {f g : Nat → Fld}

@[simp] theorem erg_ewg_same (v : Nat) : erg (ewg s e f v) e f = v % 2 ^ (f (edgeSet e).2).w := rg_wg_same ..

theorem erg_ewg_other (v : Nat) (hf : IsEdgeField f) (hg : IsEdgeField g)
    (h : e ≠ e' ∨ (f 0).off * 8 + (f 0).lo ≠ (g 0).off * 8 + (g 0).lo) : erg (ewg s e' g v) e f = erg s e f :=
  rg_wg_other s v (fkey_edgeSet_ne hf hg h)

/-- A field of both ends of an edge. -/
theorem erg_ewg_ends (hf : IsEdgeField f) (v : Nat) (k : Fin 6) (far : Bool) :
    erg (forEach (edgeEnds k) s fun s e => ewg s e f v) ⟨k, far⟩ f = v % 2 ^ (f (edgeSet ⟨k, far⟩).2).w := by
  change erg (ewg (ewg s ⟨k, false⟩ f v) ⟨k, true⟩ f v) ⟨k, far⟩ f = _
  cases far
  · rw [erg_ewg_other _ _ hf hf (.inl (by simp)), erg_ewg_same]
  · exact erg_ewg_same ..

theorem isEdgeField_state : IsEdgeField edgeStatusState := ⟨fun _ => rfl, fun _ => rfl, by decide⟩
theorem isEdgeField_epochLast : IsEdgeField mapEpochLast := ⟨fun _ => rfl, fun _ => rfl, by decide⟩
theorem erg_setEdgeState (k : Fin 6) {st : Nat} (hst : st < 8) (far : Bool) :
    erg (setEdgeState s k st) ⟨k, far⟩ edgeStatusState = st :=
  (erg_ewg_ends s isEdgeField_state st k far).trans (Nat.mod_eq_of_lt hst)

end

end Sys2Proof.Machine
end

section
/-!
PROOFS. The links recover: sparing (R198), reconciliation (R206) and full training (R203, R204).
-/

namespace Sys2Proof.Machine

/-! ### Sparing -/

/-- A bundle in which the spare carries data for the failing lane. -/
def spared (lane spare : Nat) (x : BundleEnd) : BundleEnd :=
  { x with
    mask := setBits (setBits x.mask lane 1 0) spare 1 1
    spares := setBits x.spares spare 1 0
    counts := mset 0 (mset 0 x.counts lane 0) spare 0
    sparing := none }

theorem actsOn_commitSpare (b lane spare : Nat) : ActsOn (fun s e => commitSpare s e b lane spare)
    ((fun x => { x with epoch := nextEpoch x.epoch }) ∘ withBundle b (spared lane spare)) :=
  (actsOn_set fun x => { x with epoch := nextEpoch x.epoch }).comp (actsOn_updBundle b (spared lane spare))

/-- The spare is no longer free, and the sparing is over. -/
def unspared (spare : Nat) (x : BundleEnd) : BundleEnd :=
  { x with spares := setBits x.spares spare 1 0, sparing := none }

section
variable {s : State} {k : Fin 6} {b lane spare : Nat}

theorem endSparing_of_agreed (h : (bundleOf s ⟨k, false⟩ b).sparing = some (lane, spare)) :
    endSparing s k b true = moveTraffic (forEach (edgeEnds k) s fun s e => commitSpare s e b lane spare) k := by
  simp only [endSparing, h, if_true]

/-- Both ends have the spare in the failing lane's place, and the next epoch. -/
theorem edgeSide_commitSpare_ends (far : Bool) :
    edgeSide (forEach (edgeEnds k) s fun s e => commitSpare s e b lane spare) ⟨k, far⟩ =
      { withBundle b (spared lane spare) (edgeSide s ⟨k, far⟩) with
        epoch := nextEpoch (edgeSide s ⟨k, far⟩).epoch } :=
  (actsOn_commitSpare b lane spare).edgeSide_ends s k far

theorem bundleOf_commitSpare_ends (far : Bool) :
    bundleOf (forEach (edgeEnds k) s fun s e => commitSpare s e b lane spare) ⟨k, far⟩ b =
      spared lane spare (bundleOf s ⟨k, far⟩ b) := by
  rw [bundleOf, edgeSide_commitSpare_ends]
  exact bundle_withBundle_same ..

theorem endSparing_of_disagreed (h : (bundleOf s ⟨k, false⟩ b).sparing = some (lane, spare))
    (hnone : lowestSpare (unspared spare (bundleOf s ⟨k, false⟩ b)) = none) :
    endSparing s k b false =
      raise (moveTraffic (updBoth (updBoth s k b (unspared spare)) k b fun x => { x with failing := [lane] }) k)
        (laneEvent ⟨k, false⟩ srcLaneMarginal b lane) := by
  have hspares : lowestSpare (bundleOf (updBoth s k b (unspared spare)) ⟨k, false⟩ b) = none := by
    rwa [bundleOf_updBoth]
  simp only [endSparing, h, Bool.false_eq_true, if_false]
  split
  · next hsome => cases hsome.symm.trans hspares
  · rfl

/-- An edge that is up ends its sparing. -/
theorem sparingComplete_settles {s : State} {k : Fin 6} (b : Fin 40) (agreed : Bool)
    (hup : edgeUp s ⟨k, false⟩ = true) : Settles (.sparingComplete k b agreed) s (endSparing s k b agreed) :=
  if_pos hup

end

/-! ### Reconciliation -/

section
variable (s : State) (k : Fin 6)

theorem mapHash_congr {s t : State} {e : EdgeEnd} (hb : (edgeSide t e).bundles = (edgeSide s e).bundles)
    (he : (edgeSide t e).epoch = (edgeSide s e).epoch) : mapHash t e = mapHash s e := by
  simp only [mapHash, laneMap, bundleOf, hb, he]

/-- The map hashes and epochs of the two ends agree. -/
abbrev MapsAgree : Prop :=
  mapHash s ⟨k, false⟩ = mapHash s ⟨k, true⟩ ∧ (edgeSide s ⟨k, false⟩).epoch = (edgeSide s ⟨k, true⟩).epoch

/-- Training of the control bundles leaves the lane maps alone. -/
theorem mapsAgree_trainCtrl (up : Nat) : MapsAgree (trainCtrl s k up) k ↔ MapsAgree s k := by
  have hb := edgeSide_trainCtrl EdgeSide.bundles (fun _ _ => rfl) s k up
  have he := edgeSide_trainCtrl EdgeSide.epoch (fun _ _ => rfl) s k up
  rw [MapsAgree, MapsAgree, mapHash_congr (hb false) (he false), mapHash_congr (hb true) (he true), he, he]

/-- MAP_EPOCH.LAST of both ends shows how the reconciliation went. -/
def lastShown (v : Nat) : State := forEach (edgeEnds k) s fun s e => ewg s e mapEpochLast v

/-- Both ends discard their maps. -/
def mapsDiscarded : State :=
  forEach (edgeEnds k) s fun s e =>
    forEach (List.range (bundleCount k)) s fun s n =>
      updBundle s e n fun x => { x with up := false, mask := 0, spares := 0 }

/-- Without a control bundle, the die at the edge is lost. -/
theorem reconcile_of_noCtrl {up : Nat} (hup : up = 0) :
    reconcile s k up = ctrlLost (setEdgeState (trainCtrl s k up) k 0) ⟨k, false⟩ 1 := if_pos hup

/-- With a control bundle, the ends resume on their maps or discard them. -/
theorem reconcile_of_ctrl {up : Nat} (hup : up ≠ 0) : reconcile s k up =
    let t := trainCtrl s k up
    let v := lastShown t k (if MapsAgree t k then 1 else 2)
    if MapsAgree t k then resumeEdge v k else setEdgeState (mapsDiscarded v k) k 1 := if_neg hup

theorem reconcile_of_agree {up : Nat} (hup : up ≠ 0) (h : MapsAgree s k) :
    reconcile s k up = resumeEdge (lastShown (trainCtrl s k up) k 1) k := by
  have hsame := (mapsAgree_trainCtrl s k up).2 h
  rw [reconcile_of_ctrl s k hup]
  dsimp only
  rw [if_pos hsame, if_pos hsame]

theorem reconcile_of_differ {up : Nat} (hup : up ≠ 0) (h : ¬MapsAgree s k) :
    reconcile s k up = setEdgeState (mapsDiscarded (lastShown (trainCtrl s k up) k 2) k) k 1 := by
  have hsame := mt (mapsAgree_trainCtrl s k up).1 h
  rw [reconcile_of_ctrl s k hup]
  dsimp only
  rw [if_neg hsame, if_neg hsame]

theorem erg_lastShown (far : Bool) : erg (lastShown s k 1) ⟨k, far⟩ mapEpochLast = 1 :=
  erg_ewg_ends s isEdgeField_epochLast 1 k far

theorem edgeSide_lastShown (v : Nat) (e : EdgeEnd) : edgeSide (lastShown s k v) e = edgeSide s e := rfl

/-- A discarded bundle is down and marks no lane. -/
theorem bundleOf_mapsDiscarded {n : Nat} (hn : n < bundleCount k) (far : Bool) :
    bundleOf (mapsDiscarded s k) ⟨k, far⟩ n = { bundleOf s ⟨k, far⟩ n with up := false, mask := 0, spares := 0 } := by
  rw [bundleOf, mapsDiscarded, (actsOn_updBundles _ fun _ _ => _).edgeSide_ends, bundle_withBundles, if_pos hn]
  rfl

theorem reconcile_settles {s : State} {k : Fin 6} (up : Fin 4) (h : edgeTrains s k 2 = true) :
    Settles (.reconcileHashExchange ⟨k, up⟩) s (reconcile s k up) := if_pos h

end

/-! ### Full training -/

section
variable (s : State) (k : Fin 6) (m : EdgeMargins)

/-- Spare selection has run for every bundle of both ends. -/
def bundlesTrained : State :=
  forEach (edgeEnds k) s fun s e =>
    forEach (List.range (bundleCount k)) s fun s n =>
      updBundle s e n fun x => trainBundle x m.least (m.bundles.getD n [])

/-- Both ends have the epoch `ep`. -/
def epochSet (ep : Nat) : State :=
  forEach (edgeEnds k) s fun s e => setEdgeSide s e { edgeSide s e with epoch := ep }

/-- Maps, epochs and control bundles are those of the full training. -/
def edgeTrained : State :=
  trainCtrl (epochSet (bundlesTrained s k m) k
    (nextEpoch (max (edgeSide (bundlesTrained s k m) ⟨k, false⟩).epoch
      (edgeSide (bundlesTrained s k m) ⟨k, true⟩).epoch))) k m.ctrlUp

theorem edgeSide_bundlesTrained (far : Bool) : edgeSide (bundlesTrained s k m) ⟨k, far⟩ =
    withBundles (bundleCount k) (fun n x => trainBundle x m.least (m.bundles.getD n [])) (edgeSide s ⟨k, far⟩) :=
  (actsOn_updBundles _ _).edgeSide_ends s k far

theorem edgeSide_epochSet (ep : Nat) (far : Bool) :
    edgeSide (epochSet s k ep) ⟨k, far⟩ = { edgeSide s ⟨k, far⟩ with epoch := ep } :=
  (actsOn_set fun x => { x with epoch := ep }).edgeSide_ends s k far

theorem epoch_edgeTrained (far : Bool) : (edgeSide (edgeTrained s k m) ⟨k, far⟩).epoch =
    nextEpoch (max (edgeSide s ⟨k, false⟩).epoch (edgeSide s ⟨k, true⟩).epoch) := by
  rw [edgeTrained, edgeSide_trainCtrl EdgeSide.epoch fun _ _ => rfl, edgeSide_epochSet]
  dsimp only
  rw [edgeSide_bundlesTrained, edgeSide_bundlesTrained, epoch_withBundles, epoch_withBundles]

theorem bundleOf_edgeTrained {n : Nat} (hn : n < bundleCount k) (far : Bool) :
    bundleOf (edgeTrained s k m) ⟨k, far⟩ n =
      trainBundle (bundleOf s ⟨k, far⟩ n) m.least (m.bundles.getD n []) := by
  rw [bundleOf, edgeTrained, edgeSide_trainCtrl EdgeSide.bundles fun _ _ => rfl, edgeSide_epochSet]
  change mget {} (edgeSide (bundlesTrained s k m) ⟨k, far⟩).bundles n = _
  rw [edgeSide_bundlesTrained, bundle_withBundles, if_pos hn, bundleOf]

/-- What follows the training, by the bundles that have come up. -/
theorem trainEdge_eq : trainEdge s k m =
    let v := edgeTrained s k m
    let w := if upMask (edgeSide v ⟨k, false⟩) = 0 then
        raise (setEdgeState v k 0) (laneEvent ⟨k, false⟩ srcEdgeDown 0 0) else v
    if m.ctrlUp % 4 = 0 then ctrlLost (setEdgeState w k 0) ⟨k, false⟩ 1
    else if upMask (edgeSide v ⟨k, false⟩) = 0 then w else resumeEdge v k := by
  dsimp only [trainEdge, edgeTrained, epochSet, bundlesTrained]
  split_ifs <;> rfl

theorem edgeTraining_settles {s : State} {k : Fin 6} (m : EdgeMargins) (h : edgeTrains s k 1 = true) :
    Settles (.edgeTrainingComplete k m) s (trainEdge s k m) := if_pos h

end

/-! ### The commands -/

section
variable {s : State} {k : Fin 6}

theorem sparing_agreed {b : Fin 40} {lane spare : Nat} (hup : edgeUp s ⟨k, false⟩ = true)
    (hsparing : (bundleOf s ⟨k, false⟩ b).sparing = some (lane, spare)) :
    ∃ u, Settles (.sparingComplete k b true) s u ∧ ∀ far : Bool,
      bundleOf u ⟨k, far⟩ b = spared lane spare (bundleOf s ⟨k, far⟩ b) ∧
      (edgeSide u ⟨k, far⟩).epoch = nextEpoch (edgeSide s ⟨k, far⟩).epoch := by
  have hsettles := sparingComplete_settles b true hup
  rw [endSparing_of_agreed hsparing] at hsettles
  refine ⟨_, hsettles, fun far => ⟨?_, ?_⟩⟩
  · rw [bundleOf_moveTraffic, bundleOf_commitSpare_ends]
  · rw [edgeSide_moveTraffic EdgeSide.epoch fun _ _ _ => rfl, edgeSide_commitSpare_ends]

theorem sparing_disagreed {b : Fin 40} {lane spare : Nat} (hup : edgeUp s ⟨k, false⟩ = true)
    (hsparing : (bundleOf s ⟨k, false⟩ b).sparing = some (lane, spare))
    (hnone : lowestSpare (unspared spare (bundleOf s ⟨k, false⟩ b)) = none) :
    ∃ u, Settles (.sparingComplete k b false) s u ∧ ∀ far : Bool,
      bundleOf u ⟨k, far⟩ b = { unspared spare (bundleOf s ⟨k, far⟩ b) with failing := [lane] } ∧
      u.due = s.due ++ [laneEvent ⟨k, false⟩ srcLaneMarginal b lane] := by
  have hsettles := sparingComplete_settles b false hup
  rw [endSparing_of_disagreed hsparing hnone] at hsettles
  refine ⟨_, hsettles, fun far => ⟨?_, ?_⟩⟩
  · rw [bundleOf_raise, bundleOf_moveTraffic, bundleOf_updBoth, bundleOf_updBoth]
  · rw [due_raise, due_moveTraffic, due_updBoth, due_updBoth]

section
variable {up : Fin 4} (hwaits : edgeTrains s k 2 = true)
include hwaits

theorem reconcile_noCtrl (hup : up = 0) : ∃ v, Settles (.reconcileHashExchange ⟨k, up⟩) s (ctrlLost v ⟨k, false⟩ 1) ∧
    (∀ far, erg v ⟨k, far⟩ edgeStatusState = 0) ∧ EdgesOnly s v := by
  have hsettles := reconcile_settles up hwaits
  rw [reconcile_of_noCtrl s k (congrArg Fin.val hup)] at hsettles
  exact ⟨_, hsettles, erg_setEdgeState _ k (by decide),
    (edgesOnly_trainCtrl s k up).trans (edgesOnly_setEdgeState ..)⟩

theorem reconcile_agree (hup : up ≠ 0) (hsame : MapsAgree s k) :
    ∃ v, Settles (.reconcileHashExchange ⟨k, up⟩) s (resumeEdge v k) ∧
      ∀ far, (edgeSide v ⟨k, far⟩).bundles = (edgeSide s ⟨k, far⟩).bundles ∧ erg v ⟨k, far⟩ mapEpochLast = 1 := by
  have hsettles := reconcile_settles up hwaits
  rw [reconcile_of_agree s k (fun h => hup (Fin.ext h)) hsame] at hsettles
  refine ⟨_, hsettles, fun far => ⟨?_, erg_lastShown _ k far⟩⟩
  rw [edgeSide_lastShown, edgeSide_trainCtrl EdgeSide.bundles fun _ _ => rfl]

theorem reconcile_differ (hup : up ≠ 0) (hdiffer : ¬MapsAgree s k) :
    ∃ u, Settles (.reconcileHashExchange ⟨k, up⟩) s u ∧ ∀ far, erg u ⟨k, far⟩ edgeStatusState = 1 ∧
      ∀ n < bundleCount k, (bundleOf u ⟨k, far⟩ n).up = false ∧ (bundleOf u ⟨k, far⟩ n).mask = 0 := by
  have hsettles := reconcile_settles up hwaits
  rw [reconcile_of_differ s k (fun h => hup (Fin.ext h)) hdiffer] at hsettles
  refine ⟨_, hsettles, fun far => ⟨erg_setEdgeState _ k (by decide) far, fun n hn => ?_⟩⟩
  rw [bundleOf_setEdgeState, bundleOf_mapsDiscarded _ k hn]
  exact ⟨rfl, rfl⟩

end

end

/-- Settles O31, by the command and its outcome. -/
theorem linksRecover : Obligations.LinksRecover := by
  refine ⟨fun k b lane spare s hup hsparing => ⟨?_, fun hnone => ?_⟩, fun k m s =>
    ⟨fun up hwaits => ⟨fun hup => ?_, fun hup hsame => ?_, fun hup hdiffer => ?_⟩, fun htrains => ?_⟩⟩
  · obtain ⟨u, hsettles, hends⟩ := sparing_agreed hup hsparing
    refine ⟨u, hsettles, fun far => ?_⟩
    obtain ⟨hbundle, hepoch⟩ := hends far
    dsimp only
    rw [hbundle]
    exact ⟨rfl, rfl, rfl, hepoch⟩
  · obtain ⟨u, hsettles, hends⟩ := sparing_disagreed hup hsparing hnone
    refine ⟨u, hsettles, fun far => ?_⟩
    obtain ⟨hbundle, hdue⟩ := hends far
    rw [hbundle]
    exact ⟨rfl, rfl, hdue⟩
  · obtain ⟨v, hsettles, hstate, hframe⟩ := reconcile_noCtrl hwaits hup
    exact ⟨v, hsettles, hstate false, hstate true, hframe⟩
  · obtain ⟨v, hsettles, hends⟩ := reconcile_agree hwaits hup hsame
    exact ⟨v, hsettles, (hends false).1, (hends true).1, (hends false).2, (hends true).2⟩
  · obtain ⟨u, hsettles, hends⟩ := reconcile_differ hwaits hup hdiffer
    obtain ⟨hnear, hnearMaps⟩ := hends false
    obtain ⟨hfar, hfarMaps⟩ := hends true
    exact ⟨u, hsettles, hnear, hfar, fun n hn =>
      ⟨(hnearMaps n hn).1, (hnearMaps n hn).2, (hfarMaps n hn).1, (hfarMaps n hn).2⟩⟩
  · have hsettles := edgeTraining_settles m htrains
    rw [trainEdge_eq] at hsettles
    refine ⟨edgeTrained s k m, epoch_edgeTrained s k m false, ?_, fun n hn e he => ?_, hsettles⟩
    · rw [epoch_edgeTrained, epoch_edgeTrained]
    · rcases List.mem_pair.1 he with rfl | rfl
      · exact bundleOf_edgeTrained s k m hn false
      · exact bundleOf_edgeTrained s k m hn true

end Sys2Proof.Machine
end

section
/-!
PROOFS. What follows a command does not undo that a retry of control bundle 0 has been raised and recorded. A state is
`Astray` where that event waits to be taken, where the log has an entry that no retry of control bundle 1 writes, or
where the registers that have the event logged are not as in the counterexample below. One lemma per operation that
`settle` is made of, each from the lemmas of the operations that it calls, in the order of those about `Fits`.
-/

namespace Sys2Proof.Machine

/-! ### A register that has not been written -/

/-- Key `k` of the register store holds `v` behind an entry with a larger key, where no write puts an entry; `big` says
whether such an entry went before. -/
def untouched (k v : Nat) : Bool → Map Nat → Bool
  | _, [] => false
  | big, (a, w) :: m => if a = k then big && w = v else untouched k v (big || k < a) m

/-- The entry of key `k` is not as the counterexample has it. -/
def Touched (k v : Nat) (m : Map Nat) : Prop := ¬untouched k v false m = true

section
variable (k v : Nat)

theorem untouched_mono (m : Map Nat) {b c : Bool} (hbc : b = true → c = true)
    (h : untouched k v b m = true) : untouched k v c m = true := by
  induction m generalizing b c with
  | nil => exact h
  | cons e m ih => grind [untouched]

theorem not_untouched_of_absent (m : Map Nat) {b : Bool} (hm : ∀ e ∈ m, e.1 ≠ k) : ¬untouched k v b m = true := by
  induction m generalizing b with
  | nil => exact Bool.false_ne_true
  | cons e m ih => grind [untouched]

/-- A write puts the entry before every larger key. -/
theorem touched_mins_same (w : Nat) (m : Map Nat) : Touched k v (mins m k w) := by
  induction m with
  | nil => simp [Touched, mins, untouched]
  | cons e m ih =>
    obtain ⟨a, u⟩ := e
    unfold mins
    split
    · next hlt => simpa [Touched, untouched, Nat.ne_of_lt hlt, Nat.lt_asymm hlt] using ih
    · split <;> simp [Touched, untouched]

theorem untouched_of_mins_other {j : Nat} (hj : j ≠ k) (w : Nat) (m : Map Nat) {b : Bool}
    (h : untouched k v b (mins m j w) = true) : untouched k v b m = true := by
  induction m generalizing b with
  | nil => simp [mins, untouched, hj] at h
  | cons e m ih =>
    obtain ⟨a, u⟩ := e
    unfold mins at h
    grind [untouched, untouched_mono]

theorem untouched_of_mkeep {p : Nat → Bool} (hp : p k = true) (m : Map Nat) {b : Bool}
    (h : untouched k v b (mkeep m p) = true) : untouched k v b m = true := by
  unfold mkeep at h
  induction m generalizing b with
  | nil => exact h
  | cons e m ih => grind [untouched, untouched_mono]

variable {k v} {m : Map Nat} (h : Touched k v m)
include h

theorem Touched.mkeep (p : Nat → Bool) : Touched k v (mkeep m p) := by
  by_cases hp : p k = true
  · exact fun hu => h (untouched_of_mkeep k v hp m hu)
  · refine not_untouched_of_absent k v _ fun e he hk => hp ?_
    exact hk ▸ (List.mem_filter.1 he).2

theorem Touched.mset (d j w : Nat) : Touched k v (mset d m j w) := by
  unfold Machine.mset
  split
  · rw [mdel_eq_filter]
    exact h.mkeep (fun a => decide (a ≠ j))
  · by_cases hj : j = k
    · exact hj ▸ touched_mins_same j v w m
    · exact fun hu => h (untouched_of_mins_other k v hj w m hu)

end

/-! ### The shared operations -/

/-- Source and DETAIL of a retry of control bundle 1. -/
def IsRetry (src detail : Nat) : Prop := src = srcCtrlRetry ∧ detail = 1

/-- An event that is logged by its class alone, and is no retry of control bundle 1. -/
def Plain (e : Event) : Prop := e.forced = false ∧ ¬IsRetry e.src e.detail

/-- The end whose control bundle 1 is retried. -/
def retryEnd : EdgeEnd := ⟨0, false⟩

/-- The event that the statement has: the retry of control bundle 0. -/
def retryZero : Event := edgeEvent retryEnd srcCtrlRetry 0 0

/-- Key of the class of retries at the end. -/
def retryClassKey : Nat := fkey (edgeSet retryEnd).1 (hdrClass (pgType (edgeSet retryEnd).1) srcCtrlRetry)

/-- Key of LOG of CLASS_ACT3. -/
def actLogKey : Nat := fkey faSlot (classActLog 3)

/-- Events that wait are plain, and the retry of control bundle 0 waits among them, or is not logged for the registers,
or the log tells of another event than a retry of control bundle 1. -/
def Strays (regs : Map Nat) (due : List Event) (log : Map LogEntry) : Prop :=
  (∀ e ∈ due, Plain e) ∧
  (retryZero ∈ due ∨ Touched retryClassKey 3 regs ∨ Touched actLogKey 1 regs ∨
    ∃ x ∈ log, ¬IsRetry x.2.source x.2.detail)

/-- `Strays` of a state. -/
abbrev Astray (s : State) : Prop := Strays s.regs s.due s.log

section
variable {s : State} (h : Astray s)
include h

theorem wg_strays (slot f v) : Astray (wg s slot f v) := by
  obtain ⟨hdue, hraised | hclass | hlog | hentry⟩ := h
  · exact ⟨hdue, .inl hraised⟩
  · exact ⟨hdue, .inr (.inl (hclass.mset _ _ _))⟩
  · exact ⟨hdue, .inr (.inr (.inl (hlog.mset _ _ _)))⟩
  · exact ⟨hdue, .inr (.inr (.inr hentry))⟩

theorem incr_strays (slot f v) : Astray (incr s slot f v) := wg_strays h ..

theorem gst_strays (g f v) : Astray (gst s g f v) := wg_strays h ..

theorem ewg_strays (e f v) : Astray (ewg s e f v) := wg_strays h ..

/-- Registers that a reset takes away. -/
theorem mkeep_strays (p : Nat → Bool) : Strays (mkeep s.regs p) s.due s.log := by
  obtain ⟨hdue, hraised | hclass | hlog | hentry⟩ := h
  · exact ⟨hdue, .inl hraised⟩
  · exact ⟨hdue, .inr (.inl (hclass.mkeep p))⟩
  · exact ⟨hdue, .inr (.inr (.inl (hlog.mkeep p)))⟩
  · exact ⟨hdue, .inr (.inr (.inr hentry))⟩

theorem raise_strays {e : Event} (he : Plain e) : Astray (raise s e) := by
  obtain ⟨hdue, hcause⟩ := h
  refine ⟨fun x hx => ?_, hcause.imp_left (List.mem_append_left _)⟩
  rcases List.mem_append.1 hx with hx | hx
  · exact hdue x hx
  · rwa [List.mem_singleton.1 hx]

omit h in
theorem ite_strays {c : Prop} [Decidable c] {a b : State} (ha : Astray a) (hb : Astray b) :
    Astray (if c then a else b) := by
  split
  · exact ha
  · exact hb

theorem forEach_strays {α : Type} {xs : List α} (f : State → α → State)
    (hf : ∀ t x, Astray t → Astray (f t x)) : Astray (forEach xs s f) := by
  induction xs generalizing s with
  | nil => exact h
  | cons x xs ih => exact ih (hf s x h)

theorem foldl_strays {α : Type} {xs : List α} (f : State → α → State)
    (hf : ∀ t x, Astray t → Astray (f t x)) : Astray (xs.foldl f s) := forEach_strays h f hf

/-! ### Operations that leave registers, events and log alone -/

theorem updCPort_strays (p n f) : Astray (updCPort s p n f) := h
theorem updRing_strays (p r f) : Astray (updRing s p r f) := h
theorem updCmd_strays (p n handle f) : Astray (updCmd s p n handle f) := h
theorem updMem_strays (d f) : Astray (updMem s d f) := h
theorem updDie_strays (d f) : Astray (updDie s d f) := h
theorem updSeq_strays (d f) : Astray (updSeq s d f) := h
theorem updPhase_strays (d ph f) : Astray (updPhase s d ph f) := h
theorem setTile_strays (d c t x) : Astray (setTile s d c t x) := h
theorem setQueue_strays (d c q) : Astray (setQueue s d c q) := h
theorem setLink_strays (p x) : Astray (setLink s p x) := h
theorem setJob_strays (j x) : Astray (setJob s j x) := h
theorem updGeyser_strays (g f) : Astray (updGeyser s g f) := h
theorem updCq_strays (q f) : Astray (updCq s q f) := h
theorem setEdgeSide_strays (e x) : Astray (setEdgeSide s e x) := h
theorem wrBytes_strays (a bs) : Astray (wrBytes s a bs) := by rw [wrBytes_eq]; exact h
theorem wrPairs_strays (ps) : Astray (wrPairs s ps) := forEach_strays h _ fun _ _ ht => ht
theorem retire_strays (slot n) : Astray (retire s slot n) := h
theorem setErr_strays (a n) : Astray (setErr s a n) := h
theorem waitHeld_strays (d hold a) : Astray (waitHeld s d hold a) := h
theorem updLive_strays (d id f) : Astray (updLive s d id f) := h
theorem dropEnded_strays (d ph) : Astray (dropEnded s d ph) := h
theorem dropTask_strays (d c t) : Astray (dropTask s d c t) := h
theorem noteStop_strays (d c) : Astray (noteStop s d c) := h
theorem updGroup_strays (g f) : Astray (updGroup s g f) := h
theorem stopQueue_strays (q from_) : Astray (stopQueue s q from_) := h
theorem clearDom_strays (d) : Astray (clearDom s d) := h
theorem moveTraffic_strays (i) : Astray (moveTraffic s i) := h
theorem flushEnd_strays (e) : Astray (flushEnd s e) := h
theorem dropHeld_strays (e) : Astray (dropHeld s e) := h
theorem dropPosted_strays (gone) : Astray (dropPosted s gone) := h
theorem extendMr_strays (i d) : Astray (extendMr s i d) := h
theorem beginStep_strays (d) : Astray (beginStep s d) := h
theorem notePending_strays : Astray (notePending s) := h
theorem issue_strays (r) : Astray (issue s r) := h
theorem dropAbort_strays (p n) : Astray (dropAbort s p n) := h

theorem seqEvent_strays (d src) : Astray (seqEvent s d src) := raise_strays h ⟨rfl, fun he => nomatch he.2⟩
theorem reportCopy_strays (img b) : Astray (reportCopy s img b) := raise_strays h ⟨rfl, fun he => nomatch he.2⟩

/-! ### Completions, the log and the errors of sectors -/

theorem complete_strays (handle status result detail) : Astray (complete s handle status result detail) := by
  unfold complete
  grind [updCPort_strays, updRing_strays]

omit h in
/-- An entry that names a page or a class is not the empty one. -/
theorem logEntry_ne_empty {e : Event} {c : Nat} {masked first : Bool} (hne : e.slot ≠ 0 ∨ first = true ∨ 2 ≤ c) :
    logEntry s e c masked first ≠ {} := by
  intro hempty
  have hslot : e.slot = 0 := congrArg LogEntry.slot hempty
  have hflags : c + 16 * b2n masked + 32 * b2n first + _ + _ = 0 := congrArg LogEntry.flags hempty
  rcases hne with hne | rfl | hne
  · exact hne hslot
  · simp [b2n] at hflags
  · omega

omit h in
/-- Once the entry of another event stands in the log, the log tells of it. -/
theorem logWrite_strays {e : Event} {c : Nat} {masked first : Bool} (hdue : ∀ e ∈ s.due, Plain e)
    (he : ¬IsRetry e.src e.detail) (hne : e.slot ≠ 0 ∨ first = true ∨ 2 ≤ c) :
    Astray (logWrite s e c masked first) := by
  refine ⟨hdue, .inr (.inr (.inr ⟨(rg s logSlot logStatus % 4096, logEntry s e c masked first), ?_, he⟩))⟩
  change _ ∈ mset _ s.log _ _
  rw [mset, if_neg (logEntry_ne_empty hne)]
  exact mem_mins ..

theorem keepPair_strays (e c masked first) : Astray (keepPair s e c masked first) := by
  unfold keepPair
  grind

theorem waitFaults_strays (c index) : Astray (waitFaults s c index) := by
  unfold waitFaults
  grind [forEach_strays, complete_strays]

theorem alert_strays (e c) : Astray (alert s e c) := by
  unfold alert
  grind [incr_strays]

/-- An event's sticky bit and its class's count. -/
def counted (s : State) (e : Event) : State :=
  incr (if e.bare then s else wg s e.slot hdrSticky (rg s e.slot hdrSticky ||| 2 ^ e.src)) faSlot
    (classCount (actingClass s e))

/-- The log with an event, where its class and its sticky bit have it logged. -/
def logged (s : State) (e : Event) : State :=
  let c := actingClass s e
  let t := counted s e
  if e.forced ∨ (rgB t faSlot (classActLog c) ∧ (!isSticky s e ∨ c ≥ 2)) then
    let w := logWrite t e c (isMasked s e) (!isSticky s e)
    if isMasked s e then w else waitFaults w c (rg t logSlot logStatus)
  else keepPair t e c (isMasked s e) (!isSticky s e)

omit h in
theorem record_eq (e : Event) : record s e =
    if rgB (logged s e) faSlot (classActAlert (actingClass s e)) ∧ !isMasked s e then
      alert (logged s e) e (actingClass s e) else logged s e := rfl

theorem counted_strays (e) : Astray (counted s e) := incr_strays (ite_strays h (wg_strays h ..)) ..

omit h in
theorem counted_due (e : Event) : (counted s e).due = s.due := by
  unfold counted
  grind [incr_due, wg_due]

section
variable {e : Event}

omit h in
theorem record_strays_of_logged (hlogged : Astray (logged s e)) : Astray (record s e) := by
  rw [record_eq]
  exact ite_strays (alert_strays hlogged ..) hlogged

omit h in
/-- An event that is logged. -/
theorem logged_strays_of_logs (hdue : ∀ e ∈ s.due, Plain e) (he : ¬IsRetry e.src e.detail)
    (hlogs : rgB (counted s e) faSlot (classActLog (actingClass s e)) = true)
    (hclass : (!isSticky s e) = true ∨ actingClass s e ≥ 2) : Astray (logged s e) := by
  rw [← counted_due e] at hdue
  have hw := logWrite_strays (masked := isMasked s e) hdue he (.inr hclass)
  unfold logged
  dsimp only
  rw [if_pos (.inr ⟨hlogs, hclass⟩)]
  exact ite_strays hw (waitFaults_strays hw ..)

omit h in
theorem logged_strays (hcounted : Astray (counted s e)) (he : Plain e) : Astray (logged s e) := by
  obtain ⟨hforced, hretry⟩ := he
  by_cases hlogs : rgB (counted s e) faSlot (classActLog (actingClass s e)) = true ∧
      ((!isSticky s e) = true ∨ actingClass s e ≥ 2)
  · exact logged_strays_of_logs (counted_due (s := s) e ▸ hcounted.1) hretry hlogs.1 hlogs.2
  · unfold logged
    dsimp only
    rw [if_neg (not_or.2 ⟨ne_true_of_eq_false hforced, hlogs⟩)]
    exact keepPair_strays hcounted ..

theorem record_strays (he : Plain e) : Astray (record s e) :=
  record_strays_of_logged (logged_strays (counted_strays h e) he)

end

/-! ### The retry of control bundle 0 is recorded -/

section
omit h

theorem mget_of_untouched {k v : Nat} (d : Nat) {m : Map Nat} {big : Bool} (hu : untouched k v big m = true) :
    mget d m k = v := by
  induction m generalizing big with
  | nil => cases hu
  | cons e m ih => grind [untouched, mget]

theorem plain_retryZero : Plain retryZero := ⟨rfl, fun h => nomatch h.2⟩

/-- Whatever a state is that has only plain events waiting, it is astray once the retry of bundle 0 is recorded. -/
theorem record_retryZero_strays (hdue : ∀ e ∈ s.due, Plain e) : Astray (record s retryZero) := by
  by_cases hclass : Touched retryClassKey 3 s.regs
  · exact record_strays ⟨hdue, .inr (.inl hclass)⟩ plain_retryZero
  · have hthree : classOf s retryZero.slot retryZero.src = 3 := mget_of_untouched _ (not_not.1 hclass)
    have hacts : actingClass s retryZero = 3 := by
      rw [actingClass, hthree]
      rfl
    refine record_strays_of_logged ?_
    by_cases hact : Touched actLogKey 1 (counted s retryZero).regs
    · exact logged_strays ⟨counted_due (s := s) retryZero ▸ hdue, .inr (.inr (.inl hact))⟩ plain_retryZero
    · have hone : rg (counted s retryZero) faSlot (classActLog 3) = 1 := mget_of_untouched _ (not_not.1 hact)
      refine logged_strays_of_logs hdue plain_retryZero.2 ?_ (.inr ?_)
      · rw [hacts, rgB, hone]
        rfl
      · rw [hacts]
        decide

/-! ### Recording leaves the waiting events alone -/

theorem complete_due (handle status result detail : Nat) : (complete s handle status result detail).due = s.due := by
  unfold complete
  grind [updCPort_due, updRing_due]

theorem waitFaults_due (c index : Nat) : (waitFaults s c index).due = s.due :=
  forEach_frame State.due _ s _ fun t x => by split; exacts [complete_due .., rfl]

theorem alert_due (e : Event) (c : Nat) : (alert s e c).due = s.due := by
  unfold alert
  grind [incr_due]

theorem keepPair_due (e : Event) (c : Nat) (masked first : Bool) : (keepPair s e c masked first).due = s.due := by
  unfold keepPair
  grind

theorem logWrite_due (e : Event) (c : Nat) (masked first : Bool) : (logWrite s e c masked first).due = s.due := rfl

theorem record_due (e : Event) : (record s e).due = s.due := by
  have hlogged : (logged s e).due = s.due := by
    unfold logged
    grind [counted_due, logWrite_due, waitFaults_due, keepPair_due]
  rw [record_eq]
  split
  · rw [alert_due, hlogged]
  · exact hlogged

end

theorem reportError_strays (d kind a ch cb) : Astray (reportError s d kind a ch cb) := by
  unfold reportError
  grind [wg_strays]

theorem queueRepair_strays (d ch row a) : Astray (queueRepair s d ch row a) := by
  unfold queueRepair
  grind [updMem_strays, wg_strays, raise_strays, Plain, IsRetry, srcCtrlRetry, memEvent, srcMemRepairFull]

theorem repairCandidate_strays (d ch cb a) : Astray (repairCandidate s d ch cb a) := by
  unfold repairCandidate
  grind [useFree, updMem_strays, queueRepair_strays]

theorem foundBad_strays (a scrub) : Astray (foundBad s a scrub) := by
  unfold foundBad
  grind [setErr_strays, incr_strays, reportError_strays, repairCandidate_strays, raise_strays, Plain,
    IsRetry, srcCtrlRetry, memEvent, srcMemUe, srcMemUeScrub]

theorem foundCorrected_strays (a repairs) : Astray (foundCorrected s a repairs) := by
  unfold foundCorrected
  grind [incr_strays, raise_strays, updMem_strays, reportError_strays, repairCandidate_strays, Plain,
    IsRetry, srcCtrlRetry, memEvent, srcMemCe, srcMemCeRepeat]

theorem rmwRead_strays (a) : Astray (rmwRead s a).1 := by
  unfold rmwRead
  grind [foundCorrected_strays, setErr_strays, foundBad_strays]

theorem codeFinds_strays (a symbols) : Astray (codeFinds s a symbols).1 := by
  unfold codeFinds
  grind [useFree, freeBytes, wrBytes_strays]

/-! ### Accesses, holds and stores -/

theorem turnBus_strays (d ch dir) : Astray (turnBus s d ch dir) := by
  unfold turnBus
  grind [useFree, updMem_strays, incr_strays]

theorem turnFor_strays (d ch ts) : Astray (turnFor s d ch ts) := by
  unfold turnFor
  grind [forEach_strays, turnBus_strays]

theorem spoilTask_strays (by_) : Astray (spoilTask s by_) := by
  unfold spoilTask
  grind [setTile_strays]

theorem noteSeen_strays (by_ a) : Astray (noteSeen s by_ a) := by
  unfold noteSeen
  grind

theorem readOne_strays (by_ a symbols) : Astray (readOne s by_ a symbols) := by
  unfold readOne
  grind [codeFinds_strays, setErr_strays, noteSeen_strays, foundCorrected_strays, spoilTask_strays,
    foundBad_strays]

theorem readerEffect_strays (d by_ x) : Astray (readerEffect s d by_ x) := by
  unfold readerEffect
  grind [forEach_strays, readOne_strays, retire_strays]

theorem writeEffect_strays (d x buffered) : Astray (writeEffect s d x buffered).1 := by
  unfold writeEffect
  grind [wrPairs_strays, retire_strays, setErr_strays, codeFinds_strays, foundCorrected_strays, foundBad_strays]

theorem accessEffect_strays (d x) : Astray (accessEffect s d x).1 := by
  unfold accessEffect
  grind [readerEffect_strays, writeEffect_strays]

theorem issueAccess_strays (d ch x) : Astray (issueAccess s d ch x) := by
  unfold issueAccess
  grind [accessEffect_strays, turnFor_strays]

theorem issueQueue_strays (m d ch q read n) : Astray (issueQueue m s d ch q read n) := by
  induction m generalizing s q read n with
  | zero => exact h
  | succ m ih => unfold issueQueue; grind [issueAccess_strays]

theorem issueChannel_strays (d ch behind) : Astray (issueChannel s d ch behind) := by
  unfold issueChannel
  grind [updMem_strays, issueQueue_strays]

theorem dropHold_strays (d) : Astray (dropHold s d) := by
  unfold dropHold
  grind [wg_strays, updMem_strays, forEach_strays, writeEffect_strays, turnFor_strays, issueChannel_strays]

theorem bufferWrite_strays (d hold x) : Astray (bufferWrite s d hold x) := by
  unfold bufferWrite
  grind [codeFinds_strays, updMem_strays, wrPairs_strays]

theorem writeHeld_strays (d hold x) : Astray (writeHeld s d hold x) := by
  unfold writeHeld
  grind [waitHeld_strays, bufferWrite_strays]

theorem storeMasked_strays (ps) : Astray (storeMasked s ps) := by
  unfold storeMasked
  grind [writeHeld_strays, wrPairs_strays, setErr_strays, rmwRead_strays]

theorem storeVia_strays (src ps) : Astray (storeVia s src ps) := by
  unfold storeVia
  grind [storeMasked_strays]

theorem flushPosted_strays : Astray (flushPosted s) := by
  unfold flushPosted
  grind [forEach_strays, storeVia_strays]

theorem storeSectors_strays (n src a bs) : Astray (storeSectors n s src a bs) := by
  induction n generalizing s a bs with
  | zero => exact h
  | succ n ih => unfold storeSectors; grind [storeVia_strays]

theorem store_strays (src a bs) : Astray (store s src a bs) := by
  unfold store
  grind [storeSectors_strays]

theorem storeIf_strays (src a bs) : Astray (storeIf s src a bs) := by
  unfold storeIf
  grind [store_strays]

theorem storeBoth_strays (src a bs) : Astray (storeBoth s src a bs) := by
  unfold storeBoth
  grind [forEach_strays, store_strays]

theorem storeDie_strays (d a bs) : Astray (storeDie s d a bs) := by
  unfold storeDie
  grind [storeIf_strays]

theorem checkErrs_strays (bys es) : Astray (checkErrs s bys es).1 := by
  unfold checkErrs
  grind [forEach_strays, foundBad_strays, foundCorrected_strays]

theorem checkRead_strays (by_ a n) : Astray (checkRead s by_ a n).1 := by
  unfold checkRead
  grind [checkErrs_strays]

theorem checkDie_strays (d rs) : Astray (checkDie s d rs) := by
  unfold checkDie
  grind [checkErrs_strays]

theorem dmaStore_strays (c off bs) : Astray (dmaStore s c off bs) := by
  unfold dmaStore
  grind [storeBoth_strays]

theorem dmaCut_strays (c) : Astray (dmaCut s c).1 := by
  unfold dmaCut
  grind [useFree, freeBytes, dmaStore_strays, checkRead_strays]

/-! ### Tasks and sequencers -/

theorem startWake_strays (d c) : Astray (startWake s d c) := by
  unfold startWake
  grind [wg_strays]

theorem demandTiles_strays (d c) : Astray (demandTiles s d c) := by
  unfold demandTiles
  grind [forEach_strays, setTile_strays]

theorem wakeServer_strays (d c) : Astray (wakeServer s d c) := by
  unfold wakeServer
  grind [startWake_strays, demandTiles_strays, wg_strays]

theorem enqueue_strays (d t) : Astray (enqueue s d t) := by
  unfold enqueue
  grind [setQueue_strays, wakeServer_strays, updLive_strays]

theorem enqueueAll_strays (ts d) : Astray (enqueueAll ts s d) := by
  induction ts generalizing s with
  | nil => exact h
  | cons t ts ih => unfold enqueueAll; grind [enqueue_strays]

theorem releaseHeld_strays (d) : Astray (releaseHeld s d) := by
  unfold releaseHeld
  grind [enqueueAll_strays]

theorem writeTaskStatus_strays (d t code drops) : Astray (writeTaskStatus s d t code drops) :=
    by
  unfold writeTaskStatus
  grind [storeDie_strays]

theorem clearTasks_strays (d) : Astray (clearTasks s d) := by
  unfold clearTasks
  grind [forEach_strays, dropTask_strays, updDie_strays]

theorem endPhase_strays (d ph code) : Astray (endPhase s d ph code) := by
  unfold endPhase
  grind [storeDie_strays, retire_strays, updPhase_strays, dropEnded_strays]

theorem finishRun_strays (d status detail) : Astray (finishRun s d status detail) := by
  unfold finishRun
  grind [updSeq_strays, complete_strays]

theorem finishStopped_strays (d) : Astray (finishStopped s d) := by
  unfold finishStopped
  grind [finishRun_strays]

theorem settleSeq_strays (d) : Astray (settleSeq s d) := by
  unfold settleSeq
  grind [finishStopped_strays, wg_strays]

theorem markFailed_strays (d ph) : Astray (markFailed s d ph) := by
  unfold markFailed
  grind [updPhase_strays, dropEnded_strays, seqEvent_strays, noteStop_strays]

theorem nextReplay_strays (n d ph) : Astray (nextReplay n s d ph) := by
  induction n generalizing s with
  | zero => exact h
  | succ n ih => unfold nextReplay; grind [updPhase_strays]

theorem endFailed_strays (d ph) : Astray (endFailed s d ph) := by
  unfold endFailed
  grind [nextReplay_strays, endPhase_strays]

theorem abortSeq_strays (d c) : Astray (abortSeq s d c) := by
  unfold abortSeq
  grind [noteStop_strays, forEach_strays, writeTaskStatus_strays, clearTasks_strays, endPhase_strays,
    finishStopped_strays, wg_strays]

/-! ### Ports and their groups -/

theorem moveFum_strays (p) : Astray (moveFum s p) := by
  have hfum (t : State) (ht : Astray t) (g v : Nat) : Astray (gst t g groupStatusFum v) :=
    gst_strays ht _ _ _
  unfold moveFum
  dsimp only
  grind

theorem putCodeword_strays (p cw) : Astray (putCodeword s p cw) := by
  unfold putCodeword
  grind [setLink_strays]

theorem sendCodeword_strays (p fum fs) : Astray (sendCodeword s p fum fs) := by
  unfold sendCodeword
  grind [setLink_strays, putCodeword_strays]

theorem replayAll_strays (p) : Astray (replayAll s p) := by
  unfold replayAll
  grind [forEach_strays, putCodeword_strays]

theorem payCredits_strays (p) : Astray (payCredits s p) := by
  unfold payCredits
  grind [forEach_strays, setLink_strays, sendCodeword_strays]

theorem returnCredit_strays (src) : Astray (returnCredit s src) := by
  unfold returnCredit
  grind [payCredits_strays, setLink_strays]

theorem sendTruncate_strays (p vc) : Astray (sendTruncate s p vc) := by
  unfold sendTruncate
  grind [sendCodeword_strays]

theorem dropCut_strays (port x) : Astray (dropCut s port x) := by
  unfold dropCut
  grind [sendTruncate_strays]

theorem unCut_strays (port) : Astray (unCut s port) := by
  unfold unCut
  grind [forEach_strays, setLink_strays]

theorem freeWait_strays (w) : Astray (freeWait s w) := by
  unfold freeWait
  grind [returnCredit_strays]

theorem portComes_strays (p wasUp) : Astray (portComes s p wasUp) := by
  unfold portComes
  grind [forEach_strays, dropCut_strays, payCredits_strays, replayAll_strays, setLink_strays]

theorem startRetrain_strays (g) : Astray (startRetrain s g) := by
  unfold startRetrain
  grind [gst_strays, updGroup_strays, replayAll_strays, moveFum_strays]

theorem wantRetrain_strays (g) : Astray (wantRetrain s g) := by
  unfold wantRetrain
  grind [updGroup_strays, startRetrain_strays]

theorem groupReturn_strays (g) : Astray (groupReturn s g) := by
  unfold groupReturn
  grind [updGroup_strays, gst_strays, portComes_strays, moveFum_strays]

theorem startTraining_strays (g) : Astray (startTraining s g) := by
  unfold startTraining
  grind [gst_strays, updGroup_strays]

theorem groupBack_strays (g) : Astray (groupBack s g) := by
  unfold groupBack
  grind [groupReturn_strays, wantRetrain_strays]

theorem nextRetrain_strays (p) : Astray (nextRetrain s p) := by
  unfold nextRetrain
  grind [startRetrain_strays]

/-! ### Queues and the abort of a job -/

theorem deliverStatus_strays (q poster id code detail origin fo) : Astray (deliverStatus s q poster id code detail
    origin fo) := by
  unfold deliverStatus
  grind [complete_strays, storeDie_strays, updPhase_strays, endFailed_strays, markFailed_strays]

theorem completeOp_strays (q o) : Astray (completeOp s q o) := by
  unfold completeOp
  grind [updCq_strays, retire_strays, raise_strays, deliverStatus_strays, Plain, IsRetry, srcCtrlRetry, opErrEvent]

theorem sendErupts_strays (j src skip) : Astray (sendErupts s j src skip) := by
  unfold sendErupts
  grind [forEach_strays, incr_strays]

theorem freeGeysers_strays (j) : Astray (freeGeysers s j) := by
  unfold freeGeysers
  grind [forEach_strays, updGeyser_strays]

theorem setOutcome_strays (ds outcome) : Astray (setOutcome s ds outcome) := by
  unfold setOutcome
  grind [forEach_strays, wg_strays]

theorem dropWanted_strays : Astray (dropWanted s) := by
  unfold dropWanted
  grind

theorem dropTraffic_strays (j) : Astray (dropTraffic s j) := by
  unfold dropTraffic
  grind [forEach_strays, freeWait_strays, incr_strays, sendTruncate_strays, setLink_strays]

theorem abortJob_strays (j from_) : Astray (abortJob s j from_) := by
  unfold abortJob
  split
  · exact h
  dsimp only
  generalize hended : dropWanted _ = t
  have ht : Astray t := by
    subst hended
    refine dropWanted_strays (forEach_strays (freeGeysers_strays (dropTraffic_strays (forEach_strays ?_ _ ?_) j) j)
      _ ?_)
    · grind [setJob_strays]
    · exact fun _ _ hu => hu
    · grind [abortSeq_strays]
  split
  · grind [sendErupts_strays]
  · exact sendErupts_strays ht ..

/-! ### Resets -/

theorem mapOutDie_strays (ch) : Astray (mapOutDie s ch) := by
  unfold mapOutDie
  grind [clearDom_strays]

theorem mapOutPkg_strays : Astray (mapOutPkg s) := by
  unfold mapOutPkg
  grind [clearDom_strays]

theorem setAside_strays (i b on) : Astray (setAside s i b on) := by
  unfold setAside
  grind [forEach_strays, setEdgeSide_strays, moveTraffic_strays]

theorem edgeReset_strays (e) : Astray (edgeReset s e) := by
  unfold edgeReset
  grind [forEach_strays, setEdgeSide_strays, raise_strays, Plain, IsRetry, srcCtrlRetry, edgeEvent]

theorem resetEdges_strays (ds caldera) : Astray (resetEdges s ds caldera) := by
  unfold resetEdges
  grind [forEach_strays, flushEnd_strays, dropHeld_strays, edgeReset_strays]

theorem markEdges_strays (d st) : Astray (markEdges s d st) := by
  unfold markEdges
  grind [forEach_strays, ewg_strays]

theorem fenceEdges_strays (l) : Astray (fenceEdges s l) := by
  unfold fenceEdges
  grind [markEdges_strays]

theorem trainEdges_strays (sc) : Astray (trainEdges s sc) := by
  unfold trainEdges
  grind [markEdges_strays, forEach_strays]

theorem sampleTile_strays (d c t level hung) : Astray (sampleTile s d c t level hung) := by
  have hstored (src : Source) (a b : Nat) (data rec_ : List Byte) :
      Astray (incr (store (store { s with free := s.free + 2 } src a data) src b rec_) hangSlot sampleCount) :=
    incr_strays (store_strays (store_strays (s := { s with free := s.free + 2 }) h ..) ..) _ _ _
  unfold sampleTile
  split
  · exact h
  · dsimp only
    with_reducible exact ite_strays h (ite_strays (wg_strays h _ _ _) (hstored ..))

theorem sampleScope_strays (sc before hung) : Astray (sampleScope s sc before hung) := by
  unfold sampleScope
  grind [forEach_strays, sampleTile_strays]

theorem resetPages_strays (sc keep) : Astray (resetPages s sc keep) :=
  mkeep_strays h fun j => !resetsPage sc (j / 32768) || keptAcross s sc j || keep j

theorem showHolds_strays : Astray (showHolds s) := by
  unfold showHolds
  grind [forEach_strays, wg_strays]

theorem failStarted_strays (d) : Astray (failStarted s d) := by
  unfold failStarted
  grind [forEach_strays, clearTasks_strays, endPhase_strays, seqEvent_strays]

theorem resetDie_strays (d) : Astray (resetDie s d) := by
  unfold resetDie
  grind [clearTasks_strays, finishStopped_strays, noteStop_strays, updDie_strays, clearDom_strays]

theorem logOnly_strays {e : Event} (he : ¬IsRetry e.src e.detail) (hslot : e.slot ≠ 0) : Astray (logOnly s e) := by
  have hw := logWrite_strays (c := actingClass s e) (masked := isMasked s e) (first := !isSticky s e)
    h.1 he (.inl hslot)
  exact ite_strays hw (waitFaults_strays hw ..)

theorem logZeroed_strays (d job a ch) : Astray (logOnly s (memEvent d srcMemUeScrub job a ch)) :=
  logOnly_strays h (fun hretry => nomatch hretry.1) (by simp [memEvent, mgSlot, dieSlot])

theorem repairRow_strays (d keep ch row) : Astray (repairRow s d keep ch row) := by
  unfold repairRow
  grind [useFree, updMem_strays, logZeroed_strays, forEach_strays, setErr_strays, foundCorrected_strays,
    wrBytes_strays]

theorem hardRepair_strays (d keep) : Astray (hardRepair s d keep) := by
  unfold hardRepair
  grind [updMem_strays, wg_strays, forEach_strays, repairRow_strays]

theorem resetMemory_strays (d keep) : Astray (resetMemory s d keep) := by
  unfold resetMemory
  grind [hardRepair_strays, updMem_strays]

theorem abortCommands_strays : Astray (abortCommands s) := by
  unfold abortCommands
  grind [forEach_strays, dmaCut_strays, complete_strays]

theorem abortOps_strays (qs) : Astray (abortOps s qs) := by
  unfold abortOps
  grind [forEach_strays, stopQueue_strays, completeOp_strays]

theorem darkenGroups_strays : Astray (darkenGroups s) := by
  have hgroup (t : State) (g : Nat) (ht : Astray t) : Astray (updGroup (gst (gst (gst (gst (gst t g
      groupStatusState 0) g groupStatusWidth 0) g groupStatusFum 0) g groupStatusTxLanes 0) g groupStatusRxLanes 0) g
      (fun _ => {})) := by
    refine updGroup_strays ?_ ..
    iterate 5 refine gst_strays ?_ _ _ _
    exact ht
  unfold darkenGroups
  refine forEach_strays h _ fun t p ht => ?_
  have hgroups := forEach_strays (xs := portGroupList t p) ht _ hgroup
  grind [forEach_strays, unCut_strays, dropCut_strays, setLink_strays, returnCredit_strays]

theorem takeSettings_strays : Astray (takeSettings s) := by
  unfold takeSettings
  grind [wg_strays, forEach_strays, clearDom_strays, mapOutDie_strays, mapOutPkg_strays, darkenGroups_strays]

theorem enterDie_strays (d) : Astray (enterDie s d) := by
  unfold enterDie
  grind [dropPosted_strays, resetEdges_strays, resetDie_strays, failStarted_strays]

theorem enterLobe_strays (l) : Astray (enterLobe s l) := by
  unfold enterLobe
  grind [forEach_strays, resetMemory_strays, resetDie_strays, dropPosted_strays, resetEdges_strays]

theorem endWork_strays : Astray (endWork s) := by
  unfold endWork
  grind [forEach_strays, abortJob_strays, abortCommands_strays, abortOps_strays]

theorem clearEngines_strays : Astray (clearEngines s) := by
  unfold clearEngines
  grind [forEach_strays, updMem_strays]

theorem enterPackage_strays (takes keep) : Astray (enterPackage s takes keep) := by
  unfold enterPackage
  grind [endWork_strays, takeSettings_strays, forEach_strays, resetMemory_strays, resetDie_strays,
    clearEngines_strays, resetEdges_strays]

theorem dropLobe_strays (l) : Astray (dropLobe s l) := by
  unfold dropLobe
  grind [resetEdges_strays, resetDie_strays, dropPosted_strays, markEdges_strays]

theorem clearOutside_strays : Astray (clearOutside s) :=
  mkeep_strays h fun j => !carriesErupts (j / 32768)

theorem enterFull_strays (takes) : Astray (enterFull s takes) := by
  unfold enterFull
  grind [enterPackage_strays]

theorem enterScope_strays (sc takes) : Astray (enterScope s sc takes) := by
  unfold enterScope
  grind [enterDie_strays, enterLobe_strays, enterPackage_strays, enterFull_strays]

theorem showResets_strays : Astray (showResets s) := by
  unfold showResets
  grind [wg_strays]

theorem retrainGroups_strays : Astray (retrainGroups s) := by
  unfold retrainGroups
  grind [forEach_strays, groupReturn_strays, updGroup_strays, startTraining_strays, nextRetrain_strays]

theorem startLevel_strays (sc before) : Astray (startLevel s sc before) := by
  unfold startLevel
  have hentered (takes : Bool) (keep : Nat → Bool) :
      Astray (trainEdges (showHolds (resetPages (enterScope s sc takes) sc keep)) sc) :=
    trainEdges_strays (showHolds_strays (resetPages_strays (enterScope_strays h ..) ..)) sc
  grind [retrainGroups_strays, incr_strays, wg_strays, showResets_strays]

theorem beginReset_strays (sc) : Astray (beginReset s sc) := by
  unfold beginReset
  grind [startLevel_strays, sampleScope_strays]

/-! ### Fences and the aggregator -/

theorem surviveMismatch_strays (l) : Astray (surviveMismatch s l) := by
  unfold surviveMismatch
  grind [forEach_strays, updPhase_strays]

theorem setFence_strays (l) : Astray (setFence s l) := by
  unfold setFence
  grind [wg_strays]

theorem fenceJobs_strays (l cur) : Astray (fenceJobs s l cur) := by
  unfold fenceJobs
  grind [forEach_strays, abortJob_strays]

theorem fenceOnly_strays (l) : Astray (fenceOnly s l) := by
  unfold fenceOnly
  grind [setOutcome_strays, surviveMismatch_strays, fenceEdges_strays, setFence_strays, fenceJobs_strays]

theorem fenceLobe_strays (l) : Astray (fenceLobe s l) := by
  unfold fenceLobe
  grind [startLevel_strays, fenceOnly_strays, sampleScope_strays]

theorem fenceBoth_strays : Astray (fenceBoth s) := by
  unfold fenceBoth
  grind [fenceOnly_strays, startLevel_strays, sampleScope_strays]

theorem demand_strays (sc) : Astray (demand s sc) := by
  unfold demand
  grind [fenceLobe_strays, beginReset_strays]

theorem classActions_strays (es) : Astray (classActions s es) := by
  unfold classActions
  grind [demand_strays, fenceBoth_strays, fenceLobe_strays, forEach_strays, abortJob_strays]

section
omit h

theorem mem_bySlot {e : Event} {es : List Event} : e ∈ bySlot es ↔ e ∈ es := by
  have hfold (acc : List Event) : e ∈ es.foldl bySlot.after acc ↔ e ∈ acc ∨ e ∈ es := by
    induction es generalizing acc with
    | nil => simp
    | cons x es ih =>
      rw [List.foldl_cons, ih, bySlot.after, List.mem_append, List.mem_cons, List.mem_cons, or_left_comm,
        ← List.mem_append, List.takeWhile_append_dropWhile]
      tauto
  exact (hfold []).trans (by simp)

theorem forEach_record_strays {xs : List (Event × Nat)} (hxs : ∀ x ∈ xs, Plain x.1) (hdue : ∀ e ∈ s.due, Plain e)
    (hs : Astray s ∨ ∃ x ∈ xs, x.1 = retryZero) : Astray (forEach xs s fun s x => record s x.1) := by
  induction xs generalizing s with
  | nil => exact hs.resolve_right fun ⟨x, hx, _⟩ => nomatch hx
  | cons x xs ih =>
    rw [List.forall_mem_cons] at hxs
    obtain ⟨hx, hxs⟩ := hxs
    refine ih hxs (record_due (s := s) x.1 ▸ hdue) ?_
    rcases hs with hs | ⟨y, hy, hretry⟩
    · exact .inl (record_strays hs hx)
    · rcases List.mem_cons.1 hy with rfl | hy
      · left
        change Astray (record s y.1)
        rw [hretry]
        exact record_retryZero_strays hdue
      · exact .inr ⟨y, hy, hretry⟩

end

/-- The events that wait are taken, with others. -/
theorem takeBatch_strays {es : List Event} (hes : ∀ e ∈ es, Plain e) (hsub : ∀ e ∈ s.due, e ∈ es) :
    Astray (takeBatch { s with due := [] } es) := by
  refine classActions_strays (forEach_record_strays (s := { s with due := [] }) ?_ (List.forall_mem_nil _) ?_) _
  · intro x hx
    obtain ⟨e, he, rfl⟩ := List.mem_map.1 hx
    exact hes e (mem_bySlot.1 he)
  · obtain ⟨-, hraised | hcause⟩ := h
    · exact .inr ⟨_, List.mem_map.2 ⟨retryZero, mem_bySlot.2 (hsub _ hraised), rfl⟩, rfl⟩
    · exact .inl ⟨List.forall_mem_nil _, .inr hcause⟩

theorem drain_strays (n) : Astray (drain n s) := by
  induction n generalizing s with
  | zero => exact h
  | succ n ih =>
    unfold drain
    split
    · exact h
    · exact ih (takeBatch_strays h h.1 fun _ he => he)

theorem takeEvents_strays : Astray (takeEvents s) := by
  unfold takeEvents
  grind [forEach_strays, drain_strays, settleSeq_strays, releaseHeld_strays]

/-! ### Boot -/

theorem pickCopy_strays (img) : Astray (pickCopy s img).1 := by
  unfold pickCopy
  grind [reportCopy_strays]

theorem bootSolfatara_strays : Astray (bootSolfatara s) := by
  unfold bootSolfatara
  grind [pickCopy_strays, wg_strays]

theorem powerDown_strays : Astray (powerDown s) := by
  have hcleared : Astray (clearEngines (dropLobe (dropLobe (endWork s) 0) 1)) :=
    clearEngines_strays (dropLobe_strays (dropLobe_strays (endWork_strays h) _) _)
  have hlost := forEach_strays (xs := List.range 4) (clearOutside_strays (resetPages_strays hcleared .full
    fun k => pgPower (k / 32768) = 64)) losePower fun _ _ ht => ht
  unfold powerDown
  grind [wg_strays, showResets_strays]

theorem showClocks_strays : Astray (showClocks s) := by
  unfold showClocks
  grind [wg_strays]

theorem drawBytes_strays (n) : Astray (drawBytes s n).2 := by
  unfold drawBytes
  grind

theorem bootCaldera_strays : Astray (bootCaldera s).1 := by
  unfold bootCaldera
  have hstage (t : State) (ht : Astray t) (v : Nat) : Astray (wg t secSlot secStatusStage v) :=
    wg_strays ht _ _ _
  grind [extendMr_strays, wg_strays, pickCopy_strays]

theorem bootDies_strays : Astray (bootDies s) := by
  unfold bootDies
  grind [drawBytes_strays, pickCopy_strays, extendMr_strays, wg_strays]

theorem leaveScan_strays : Astray (leaveScan s) := by
  unfold leaveScan
  grind [wg_strays]

theorem bootFull_strays : Astray (bootFull s) := by
  have hcleared := clearOutside_strays h
  have hdies (t : State) (ht : Astray t) : Astray (showClocks (leaveScan (bootDies t))) :=
    showClocks_strays (leaveScan_strays (bootDies_strays ht))
  unfold bootFull
  grind [bootSolfatara_strays, bootCaldera_strays, wg_strays, powerDown_strays]

theorem bootWhenDue_strays : Astray (bootWhenDue s) := by
  unfold bootWhenDue
  grind [takeEvents_strays, bootFull_strays]

/-! ### Posts, and sequencers that start -/

theorem readSource_strays (q a n) : Astray (readSource s q a n).1 := by
  unfold readSource
  grind [checkRead_strays]

theorem postOp_strays (q w poster) : Astray (postOp s q w poster).1 := by
  unfold postOp
  grind [forEach_strays, readSource_strays, deliverStatus_strays, raise_strays, updCq_strays, Plain,
    IsRetry, srcCtrlRetry, opErrEvent]

theorem postList_strays (n d ph) : Astray (postList n s d ph) := by
  induction n generalizing s with
  | zero => exact h
  | succ n ih => unfold postList; grind [endFailed_strays, checkDie_strays, updPhase_strays, postOp_strays]

theorem postWaiting_strays : Astray (postWaiting s) := by
  unfold postWaiting
  grind [forEach_strays, postList_strays]

theorem startSeq_strays (d addr cmd) : Astray (startSeq s d addr cmd) := by
  unfold startSeq
  grind [checkDie_strays, updSeq_strays, raise_strays, wg_strays, complete_strays, beginStep_strays,
    Plain, IsRetry, srcCtrlRetry]

theorem startHere_strays (d) : Astray (startHere s d) := by
  unfold startHere
  grind [updSeq_strays, startSeq_strays]

theorem startWaiting_strays : Astray (startWaiting s) := by
  unfold startWaiting
  grind [forEach_strays, startHere_strays]

/-! ### DMA and BAR4 -/

theorem countDma_strays (p n c moved) : Astray (countDma s p n c moved) := by
  unfold countDma
  grind [updCmd_strays, retire_strays]

theorem endDma_strays (c status moved) : Astray (endDma s c status moved) := by
  unfold endDma
  grind [complete_strays, countDma_strays]

theorem reportBad_strays (by_ a n) : Astray (reportBad s by_ a n).1 := by
  unfold reportBad
  grind [checkRead_strays]

theorem request_strays (r) : Astray (request s r) := by
  unfold request
  grind [issue_strays]

theorem pumpWaiting_strays : Astray (pumpWaiting s) := by
  unfold pumpWaiting
  grind [forEach_strays, request_strays]

theorem barFail_strays (p off job status) : Astray (barFail s p off job status) := by
  unfold barFail
  grind [wg_strays, raise_strays, Plain, IsRetry, srcCtrlRetry]

theorem barDo_strays (r) : Astray (barDo s r) := by
  have hpart (x : BarAcc) (y : Nat × Nat) (hx : Astray x.st) :
      Astray (barReadPart r s.remote.nextRead x y.1 y.2).st := by
    unfold barReadPart
    grind [barFail_strays, reportBad_strays]
  have hparts :
      Astray ((reqParts r).foldl (fun x y => barReadPart r s.remote.nextRead x y.1 y.2) { st := s }).st :=
    List.foldlRecOn (motive := fun x : BarAcc => Astray x.st) _ _ h fun x hx y _ => hpart x y hx
  unfold barDo
  grind [request_strays, foldl_strays]

theorem barRead_strays (r) : Astray (barRead s r) := by
  unfold barRead
  grind [barDo_strays]

theorem releaseBars_strays : Astray (releaseBars s) := by
  unfold releaseBars
  grind [forEach_strays, barRead_strays]

theorem pumpOne_strays (p n c) : ∀ t, pumpOne s p n c = some t → Astray t := by
  unfold pumpOne
  grind [updCmd_strays, issue_strays, reportBad_strays]

theorem pumpDma_strays (m p n) : Astray (pumpDma m s p n) := by
  induction m generalizing s with
  | zero => exact h
  | succ m ih => unfold pumpDma; grind [pumpOne_strays]

theorem pumpDmas_strays : Astray (pumpDmas s) := by
  unfold pumpDmas
  grind [forEach_strays, pumpDma_strays]

/-! ### Host commands -/

theorem startDma_strays (p n c) : Astray (startDma s p n c) := by
  unfold startDma
  grind [complete_strays, pumpDma_strays]

theorem setSeqJob_strays (d a) : Astray (setSeqJob s d a) := by
  unfold setSeqJob
  grind [wg_strays]

theorem startSeqRun_strays (p c) : Astray (startSeqRun s p c) := by
  unfold startSeqRun
  grind [complete_strays, startSeq_strays, setSeqJob_strays]

theorem startTest_strays (p c) : Astray (startTest s p c) := by
  unfold startTest
  grind [complete_strays]

theorem startWaitFault_strays (c) : Astray (startWaitFault s c) := by
  unfold startWaitFault
  grind [complete_strays]

theorem cutDma_strays (c status) : Astray (cutDma s c status) := by
  unfold cutDma
  grind [dmaCut_strays, dropAbort_strays, endDma_strays]

theorem forgetPost_strays (handle) : Astray (forgetPost s handle) := by
  unfold forgetPost
  grind [forEach_strays, updCq_strays]

theorem abortCmd_strays (c) : Astray (abortCmd s c) := by
  unfold abortCmd
  grind [complete_strays, forgetPost_strays, cutDma_strays, forEach_strays, updSeq_strays]

theorem leaveTest_strays (t) : Astray (leaveTest s t) := by
  unfold leaveTest
  grind [updDie_strays, dropHold_strays, setAside_strays, groupBack_strays]

theorem untest_strays (c) : Astray (untest s c) := by
  unfold untest
  grind [forEach_strays, leaveTest_strays]

theorem endPosts_strays (p job) : Astray (endPosts s p job) := by
  unfold endPosts
  grind [forEach_strays, completeOp_strays]

theorem faultJob_strays (p j) : Astray (faultJob s p j) := by
  have htaken := takeBatch_strays (s := (useFree s).2) (es := s.due ++ [{
    slot := hiSlot p, src := Config.freeValue s.free % 16, job := j, bare := true }]) h ?_
    fun _ he => List.mem_append_left _ he
  · exact ite_strays htaken (abortJob_strays htaken ..)
  · refine List.forall_mem_append.2 ⟨h.1, List.forall_mem_singleton.2 ⟨rfl, fun hretry => nomatch hretry.2⟩⟩

theorem startAbort_strays (p c) : Astray (startAbort s p c) := by
  unfold startAbort
  grind [complete_strays, endPosts_strays, faultJob_strays, forEach_strays, abortCmd_strays, untest_strays]

theorem startCmd_strays (p n c) : Astray (startCmd s p n c) := by
  unfold startCmd
  grind [updCmd_strays, complete_strays, startDma_strays, startSeqRun_strays, startAbort_strays,
    startTest_strays, startWaitFault_strays]

theorem pumpRound_strays : Astray (pumpRound s) := by
  unfold pumpRound
  grind [forEach_strays, startCmd_strays]

theorem pumpHost_strays (m) : Astray (pumpHost m s) := by
  induction m generalizing s with
  | zero => exact h
  | succ m ih => unfold pumpHost; grind [pumpRound_strays]

theorem settle_strays : Astray (settle s) := by
  unfold settle
  exact notePending_strays (bootWhenDue_strays (takeEvents_strays (postWaiting_strays (pumpHost_strays
    (pumpDmas_strays (pumpWaiting_strays (startWaiting_strays (takeEvents_strays (releaseBars_strays
      (flushPosted_strays h)))))) _))))

end

end Sys2Proof.Machine
end

section
/-!
PROOFS. Control flits (R200): a retry of control bundle 1 is recorded with DETAIL 1, and the statement has the event of
bundle 0 raised.
-/

namespace Sys2Proof.Machine

/-- Control bundle 1 of an end is up with a flit that is not acknowledged. Retries have class 3 there, whose FENCE is
off and whose events are logged; the registers that say so stand behind one with a larger key, where no write puts an
entry, so that what follows a command can take them away but not bring them about. -/
def retryState : State :=
  { setEdgeSide State.reset retryEnd { ctrl := [(1, { up := true, unacked := [(4, 1)] })] } with
    regs := [(2 ^ 40, 1), (actLogKey, 1), (retryClassKey, 3), (fkey faSlot (classActFence 3), 0)] }

/-- What the flit's timeout leads to. -/
def retryOutcome : State := settle (ctrlResend retryState retryEnd (1 : Half))

theorem retryState_waits : (ctrlOf retryState retryEnd (1 : Half)).up = true ∧
    (ctrlOf retryState retryEnd (1 : Half)).unacked ≠ [] ∧ (ctrlOf retryState retryEnd (1 : Half)).fails = 0 ∧
    retryState.due = [] := by decide +kernel

theorem retryOutcome_due : retryOutcome.due = [] := by decide +kernel

/-- The log has the retry, with DETAIL 1, and no other entry. -/
theorem retryOutcome_log : retryOutcome.log.map (fun x => (x.2.source, x.2.detail)) = [(5, 1)] := by decide +kernel

theorem retryOutcome_untouched : untouched retryClassKey 3 false retryOutcome.regs = true ∧
    untouched actLogKey 1 false retryOutcome.regs = true := by decide +kernel

theorem not_astray_retryOutcome : ¬Astray retryOutcome := by
  rintro ⟨-, hraised | hclass | hact | ⟨x, hx, hother⟩⟩
  · rw [retryOutcome_due] at hraised
    cases hraised
  · exact hclass retryOutcome_untouched.1
  · exact hact retryOutcome_untouched.2
  · have hmem := List.mem_map_of_mem (f := fun x : Nat × LogEntry => (x.2.source, x.2.detail)) hx
    rw [retryOutcome_log, List.mem_singleton, Prod.mk.injEq] at hmem
    exact hother hmem

theorem controlAckTimeout_settles {s : State} {e : EdgeEnd} {cb : Half}
    (hup : (ctrlOf s e cb).up = true) (hunacked : (ctrlOf s e cb).unacked ≠ []) :
    Settles (.controlAckTimeout e cb) s (ctrlResend s e cb) := if_pos ⟨hup, hunacked⟩

theorem settle_eq_of_settles {c : Instr} {s u v : State} (hu : Settles c s u) (hv : Settles c s v) :
    settle u = settle v := Host.Outcome.next.inj (hu.symm.trans hv)

/-- Refutes O32: the event that a retry raises names its control bundle in DETAIL (`ctrlResend`), and the statement has
DETAIL 0 for both bundles. Where retries have a class whose events are always logged, the log tells a retry of bundle 1
from one of bundle 0, so no state with the event of the statement leads where the timeout on bundle 1 leads. -/
theorem not_controlFlits : ¬ Obligations.ControlFlits := by
  unfold Obligations.ControlFlits
  intro h
  obtain ⟨hup, hunacked, hfails, hnone⟩ := retryState_waits
  obtain ⟨v, hsettles, -, -, hdue⟩ := (h retryEnd 1 ⟨0, 0, 0, false⟩ retryState).2 hup hunacked
  have hlast : ¬(ctrlOf retryState retryEnd (1 : Half)).fails + 1 ≥ 16 := by
    rw [hfails]
    decide
  rw [if_neg hlast] at hsettles
  rw [hnone, List.nil_append] at hdue
  have hsame := settle_eq_of_settles (controlAckTimeout_settles hup hunacked) hsettles
  have hastray : Astray (settle v) := by
    refine settle_strays ?_
    rw [Astray, hdue]
    exact ⟨List.forall_mem_singleton.2 plain_retryZero, .inl (List.mem_singleton_self _)⟩
  rw [← hsame] at hastray
  exact not_astray_retryOutcome hastray

end Sys2Proof.Machine
end

section
/-!
PROOFS. Rules of the lane groups: what a group's state and a field of its GROUP_STATUS read as after a change of this
or of another group, and which parts of the state the traffic of the ports and retrains leave alone.
-/

namespace Sys2Proof.Machine

/-! ### GROUP_STATUS and the groups' state -/

/-- A field of GROUP_STATUS (R224): a place in the word of each group of an OE die. -/
structure IsGroupField (f : Nat → Fld) : Prop where
  off : ∀ n, (f n).off = 0x88 + 4 * n
  lo : ∀ n, (f n).lo = (f 0).lo
  inWord : (f 0).lo < 32

theorem isGroupField_state : IsGroupField groupStatusState := ⟨fun _ => rfl, fun _ => rfl, by decide⟩
theorem isGroupField_width : IsGroupField groupStatusWidth := ⟨fun _ => rfl, fun _ => rfl, by decide⟩
theorem isGroupField_fum : IsGroupField groupStatusFum := ⟨fun _ => rfl, fun _ => rfl, by decide⟩
theorem isGroupField_txLanes : IsGroupField groupStatusTxLanes := ⟨fun _ => rfl, fun _ => rfl, by decide⟩
theorem isGroupField_rxLanes : IsGroupField groupStatusRxLanes := ⟨fun _ => rfl, fun _ => rfl, by decide⟩
theorem isGroupField_retrains : IsGroupField groupStatusRetrains := ⟨fun _ => rfl, fun _ => rfl, by decide⟩

/-- Two groups of one OE die. -/
def SameDieOther (g h : Nat) : Prop := g ≠ h ∧ g / 4 = h / 4

/-- Different fields of any two groups, and any fields of two groups of a die, have different keys. -/
theorem fkey_group_ne {f f' : Nat → Fld} {g h : Nat} (hf : IsGroupField f) (hf' : IsGroupField f')
    (hne : (f 0).lo ≠ (f' 0).lo ∨ SameDieOther g h) :
    fkey (oeSlot (g / 4)) (f (g % 4)) ≠ fkey (oeSlot (h / 4)) (f' (h % 4)) := by
  have hlo := hf.inWord
  have hlo' := hf'.inWord
  rw [fkey, fkey, hf.off, hf'.off, hf.lo, hf'.lo]
  rcases hne with hfield | ⟨hgroup, hdie⟩
  · omega
  · rw [hdie]
    omega

section
variable (s : State) {g h : Nat} {f f' : Nat → Fld}

@[simp] theorem ggt_gst_same (v : Nat) : ggt (gst s g f v) g f = v % 2 ^ (f (g % 4)).w := rg_wg_same ..

theorem ggt_gst_other (v : Nat) (hf : IsGroupField f) (hf' : IsGroupField f')
    (hne : (f 0).lo ≠ (f' 0).lo ∨ SameDieOther g h) : ggt (gst s h f' v) g f = ggt s g f :=
  rg_wg_other s v (fkey_group_ne hf hf' hne)

@[simp] theorem ggt_updGroup (φ : OptGroup → OptGroup) : ggt (updGroup s h φ) g f = ggt s g f := rfl

@[simp] theorem optGroup_gst (v : Nat) : optGroup (gst s h f v) g = optGroup s g := rfl

@[simp] theorem optGroup_updGroup_same (φ : OptGroup → OptGroup) :
    optGroup (updGroup s g φ) g = φ (optGroup s g) :=
  mget_mset_same ..

theorem optGroup_updGroup_other (φ : OptGroup → OptGroup) (hne : g ≠ h) :
    optGroup (updGroup s h φ) g = optGroup s g :=
  mget_mset_other _ _ _ hne

@[simp] theorem optGroup_raise (e : Event) : optGroup (raise s e) g = optGroup s g := rfl

@[simp] theorem ggt_raise (e : Event) : ggt (raise s e) g f = ggt s g f := rfl

theorem groupUp_iff : groupUp s g = true ↔ ggt s g groupStatusState = 3 := decide_eq_true_iff

theorem inTraining_iff : inTraining s g = true ↔
    ggt s g groupStatusState = 2 ∧ (optGroup s g).retraining = false ∧ (optGroup s g).recal = false := by
  simp [inTraining, and_assoc]

@[simp] theorem groupPort_updGroup (φ : OptGroup → OptGroup) : groupPort (updGroup s h φ) g = groupPort s g := rfl

@[simp] theorem groupPort_raise (e : Event) : groupPort (raise s e) g = groupPort s g := rfl

/-- The port plan stands on the page of the Solfatara controller, GROUP_STATUS on those of the OE dies. -/
theorem groupPort_gst (v : Nat) (hf : IsGroupField f) : groupPort (gst s h f v) g = groupPort s g := by
  have hplan : rg (gst s h f v) solSlot optPlanPlan = rg s solSlot optPlanPlan := by
    refine rg_wg_other s v ?_
    have hlo := hf.inWord
    simp only [fkey, hf.off, hf.lo, oeSlot, halfSlot, solSlot, optPlanPlan]
    omega
  simp only [groupPort, flashPlan, hplan]
  rfl

end

/-- Nothing but registers and the groups' state has changed. -/
def GroupsOnly (s t : State) : Prop := t = { s with regs := t.regs, groups := t.groups }

namespace GroupsOnly
variable {s t u : State}

theorem trans (hst : GroupsOnly s t) (htu : GroupsOnly t u) : GroupsOnly s u :=
  Eq.trans htu (congrArg (fun x : State => { x with regs := u.regs, groups := u.groups }) hst)

theorem gst (s : State) (g : Nat) (f : Nat → Fld) (v : Nat) : GroupsOnly s (gst s g f v) := rfl

theorem updGroup (s : State) (g : Nat) (φ : OptGroup → OptGroup) : GroupsOnly s (updGroup s g φ) := rfl

theorem due_eq (hst : GroupsOnly s t) : t.due = s.due := by rw [hst]

theorem links_eq (hst : GroupsOnly s t) : t.links = s.links := by rw [hst]

end GroupsOnly

/-! ### What the fumarole role and the ports' traffic leave alone -/

/-- A part of the state that the fumarole role, the links and the packets that wait and leave on them are not of. -/
structure TrafficFrame {β : Type} (part : State → β) : Prop where
  fum : ∀ s g v, part (gst s g groupStatusFum v) = part s
  links : ∀ s m, part { s with links := m } = part s
  tx : ∀ s xs, part { s with tx := xs } = part s
  outq : ∀ s xs, part { s with outq := xs } = part s

namespace TrafficFrame

section
variable {β : Type} {part : State → β} (h : TrafficFrame part) (s : State)
include h

theorem setLink_eq (p : Nat) (l : Link) : part (setLink s p l) = part s := h.links ..

theorem moveFum_eq (p : Nat) : part (moveFum s p) = part s := by
  unfold moveFum
  dsimp only
  split
  · split
    · rfl
    split
    · exact (h.fum ..).trans (h.fum ..)
    · exact h.fum ..
  · split
    · exact h.fum ..
    · rfl

theorem putCodeword_eq (p : Nat) (cw : Codeword) : part (putCodeword s p cw) = part s := by
  unfold putCodeword
  dsimp only
  split
  · exact (h.setLink_eq ..).trans (h.tx ..)
  · exact h.tx ..

theorem sendCodeword_eq (p : Nat) (fum : Bool) (fs : List Flit) : part (sendCodeword s p fum fs) = part s := by
  unfold sendCodeword
  dsimp only
  split
  · exact (h.putCodeword_eq ..).trans (h.setLink_eq ..)
  · exact h.setLink_eq ..

theorem replayAll_eq (p : Nat) : part (replayAll s p) = part s :=
  forEach_frame part _ s _ fun t cw => h.putCodeword_eq t p cw

theorem payCredits_eq (p : Nat) : part (payCredits s p) = part s := by
  unfold payCredits
  dsimp only
  split
  · rfl
  · exact (forEach_frame part _ _ _ fun t fs => h.sendCodeword_eq t p false fs).trans (h.setLink_eq ..)

theorem dropCut_eq (port : Nat) (x : PartIn) : part (dropCut s port x) = part s := by
  unfold dropCut
  split
  · rfl
  split
  · exact h.sendCodeword_eq ..
  · exact h.outq ..

theorem portComes_eq (p : Nat) (wasUp : Bool) : part (portComes s p wasUp) = part s := by
  unfold portComes
  split
  · rfl
  · exact (h.payCredits_eq ..).trans ((h.replayAll_eq ..).trans ((h.setLink_eq ..).trans
      (forEach_frame part _ s _ fun t x => h.dropCut_eq t p x)))

end

/-- Which port a group belongs to is such a part. -/
theorem groupPort (g : Nat) : TrafficFrame (fun s => Machine.groupPort s g) where
  fum s _ v := groupPort_gst s v isGroupField_fum
  links _ _ := rfl
  tx _ _ := rfl
  outq _ _ := rfl

/-- The fields of GROUP_STATUS but for FUM are such parts. -/
theorem groupField (g : Nat) {f : Nat → Fld} (hf : IsGroupField f) (hfum : (f 0).lo ≠ 24) :
    TrafficFrame (fun s => ggt s g f) where
  fum s _ v := ggt_gst_other s v hf isGroupField_fum (.inl hfum)
  links _ _ := rfl
  tx _ _ := rfl
  outq _ _ := rfl

/-- A group's state beside its registers is such a part. -/
theorem optGroup (g : Nat) : TrafficFrame (fun s => Machine.optGroup s g) where
  fum _ _ _ := rfl
  links _ _ := rfl
  tx _ _ := rfl
  outq _ _ := rfl

/-- The raised events are such a part. -/
theorem due : TrafficFrame State.due where
  fum _ _ _ := rfl
  links _ _ := rfl
  tx _ _ := rfl
  outq _ _ := rfl

end TrafficFrame

/-! ### Retrains (R221, R356) -/

/-- A part of the state that the traffic of the ports and what is held of group `h` are not of. -/
structure GroupFrame {β : Type} (h : Nat) (part : State → β) : Prop extends TrafficFrame part where
  status : ∀ s f v, IsGroupField f → part (gst s h f v) = part s
  own : ∀ s φ, part (updGroup s h φ) = part s

namespace GroupFrame

section
variable {β : Type} {part : State → β} {h : Nat} (hpart : GroupFrame h part) (s : State)
include hpart

theorem startRetrain_eq : part (startRetrain s h) = part s := by
  have hbegins (t : State) (v : Nat) (φ : OptGroup → OptGroup) :
      part (updGroup (gst (gst t h groupStatusState 2) h groupStatusRetrains v) h φ) = part t := by
    rw [hpart.own, hpart.status _ _ _ isGroupField_retrains, hpart.status _ _ _ isGroupField_state]
  unfold startRetrain
  dsimp only
  split
  · split
    · rw [hpart.replayAll_eq, hpart.moveFum_eq, hbegins]
    split
    · rw [hpart.moveFum_eq, hbegins]
    · exact hbegins ..
  · exact hbegins ..

theorem wantRetrain_eq : part (wantRetrain s h) = part s := by
  unfold wantRetrain
  dsimp only
  split
  · exact hpart.own ..
  · exact hpart.startRetrain_eq s

end

/-- The STATE of another group of the die is such a part. -/
theorem groupState {g h : Nat} (hother : SameDieOther g h) : GroupFrame h (fun s => ggt s g groupStatusState) where
  toTrafficFrame := .groupField g isGroupField_state (by decide)
  status s _ v hf := ggt_gst_other s v isGroupField_state hf (.inr hother)
  own _ _ := rfl

/-- The state of another group is such a part. -/
theorem optGroup {g h : Nat} (hne : g ≠ h) : GroupFrame h (fun s => Machine.optGroup s g) where
  toTrafficFrame := .optGroup g
  status _ _ _ _ := rfl
  own s φ := optGroup_updGroup_other s φ hne

/-- The raised events are such a part. -/
theorem due (h : Nat) : GroupFrame h State.due where
  toTrafficFrame := .due
  status _ _ _ _ := rfl
  own _ _ := rfl

end GroupFrame

section
variable (s : State) (g : Nat)

/-- A group that starts a retrain, before the traffic of its port has moved. -/
def retrainBegun : State :=
  updGroup (gst (gst s g groupStatusState 2) g groupStatusRetrains
    (ggt (gst s g groupStatusState 2) g groupStatusRetrains + 1)) g
    (fun x => { x with retraining := true, due := false, failed := 0, failedTx := 0 })

/-- What moves the traffic of the port leaves what the start of a retrain has set. -/
theorem startRetrain_part {β : Type} {part : State → β} (hpart : TrafficFrame part) :
    part (startRetrain s g) = part (retrainBegun s g) := by
  unfold startRetrain
  dsimp only
  split
  · split
    · exact (hpart.replayAll_eq ..).trans (hpart.moveFum_eq ..)
    split
    · exact hpart.moveFum_eq ..
    · rfl
  · rfl

theorem state_startRetrain : ggt (startRetrain s g) g groupStatusState = 2 := by
  rw [startRetrain_part s g (.groupField g isGroupField_state (by decide)), retrainBegun, ggt_updGroup,
    ggt_gst_other _ _ isGroupField_state isGroupField_retrains (.inl (by decide)), ggt_gst_same]
  rfl

theorem retraining_startRetrain : (optGroup (startRetrain s g) g).retraining = true := by
  rw [startRetrain_part s g (.optGroup g), retrainBegun, optGroup_updGroup_same]

/-- A group that is to retrain does so at once, or waits for its turn. -/
theorem wantRetrain_retrains :
    groupUp (wantRetrain s g) g = false ∧ (optGroup (wantRetrain s g) g).retraining = true ∨
    (optGroup (wantRetrain s g) g).due = true := by
  unfold wantRetrain
  dsimp only
  split
  · right
    rw [optGroup_updGroup_same]
  · left
    refine ⟨?_, retraining_startRetrain s g⟩
    rw [groupUp, state_startRetrain]
    rfl

end

end Sys2Proof.Machine
end

section
/-!
PROOFS. Lane groups train, fail and retrain (R215, R219 to R221, R227).
-/

namespace Sys2Proof.Machine

/-! ### The end of a training -/

section
variable (s : State) (g : Nat) (r : GroupResult)

/-- The transmit lanes that passed and had light. -/
def passedTx : Nat := r.tx - (r.tx &&& darkLanes s g)

/-- The receive lanes that passed and had light. -/
def passedRx : Nat := r.rx - (r.rx &&& darkLanes s g)

/-- The width that the lanes which passed allow (R220). -/
def passedWidth : Nat :=
  groupWidth (bit (rg s (oeSlot (g / 4)) oeStatusMod16gt) (g % 4)) (passedTx s g r) (passedRx s g r)

/-- The results are taken: no lane counts as failed. -/
def resultsTaken : State := updGroup s g (fun x => { x with failed := 0, failedTx := 0, retraining := false })

/-- GROUP_STATUS of a group that is down. -/
def shownDown : State :=
  gst (gst (gst (gst s g groupStatusState 4) g groupStatusWidth 0) g groupStatusTxLanes 0) g groupStatusRxLanes 0

/-- GROUP_STATUS of a group that is up at a width. -/
def shownUp (w tx rx : Nat) : State :=
  gst (gst (gst (gst s g groupStatusState 3) g groupStatusWidth w) g groupStatusTxLanes (lowestLanes tx w)) g
    groupStatusRxLanes (lowestLanes rx w)

/-- A group beside a wrong partner is held down (R227). -/
def heldDown (p : Nat) : State :=
  raise (shownDown (updGroup (resultsTaken s g) g fun x => { x with miswired := true }) g) (portEvent p srcFabMiswire)

/-- A group has come up at the width of its results. -/
def cameUp : State :=
  shownUp (updGroup (resultsTaken s g) g fun x => { x with miswired := false }) g (passedWidth s g r) (passedTx s g r)
    (passedRx s g r)

theorem finishTraining_eq {p : Nat} (hp : groupPort s g = some p) : finishTraining s g r =
    if some r.partner ≠ neighbourPos s p then heldDown s g p
    else if passedWidth s g r = 0 then
      if (optGroup s g).retraining then raise (shownDown (resultsTaken s g) g) (groupEvent g srcOptGroupDown)
      else shownDown (resultsTaken s g) g
    else portComes (moveFum (cameUp s g r) p) p (portUp s p) := by
  simp only [finishTraining, hp]
  rfl

theorem state_shownDown : ggt (shownDown s g) g groupStatusState = 4 := by
  rw [shownDown, ggt_gst_other _ _ isGroupField_state isGroupField_rxLanes (.inl (by decide)),
    ggt_gst_other _ _ isGroupField_state isGroupField_txLanes (.inl (by decide)),
    ggt_gst_other _ _ isGroupField_state isGroupField_width (.inl (by decide)), ggt_gst_same]
  rfl

theorem width_shownDown : ggt (shownDown s g) g groupStatusWidth = 0 := by
  rw [shownDown, ggt_gst_other _ _ isGroupField_width isGroupField_rxLanes (.inl (by decide)),
    ggt_gst_other _ _ isGroupField_width isGroupField_txLanes (.inl (by decide)), ggt_gst_same]
  rfl

theorem groupWidth_le (slow : Bool) (tx rx : Nat) : groupWidth slow tx rx ≤ 8 := by
  unfold groupWidth
  dsimp only
  split_ifs <;> omega

/-- A group has eight lanes. -/
theorem lowestLanes_lt (m w : Nat) : lowestLanes m w < 256 := by
  have hlanes : List.Sublist
      ((((List.range 8).filter (m.testBit ·)).take w).map (2 ^ ·)) ((List.range 8).map (2 ^ ·)) :=
    ((List.take_sublist ..).trans List.filter_sublist).map _
  exact Nat.lt_of_le_of_lt (hlanes.sum_le_sum fun _ _ => Nat.zero_le _) (by decide)

theorem status_shownUp {w : Nat} (hw : w ≤ 8) (tx rx : Nat) :
    ggt (shownUp s g w tx rx) g groupStatusState = 3 ∧ ggt (shownUp s g w tx rx) g groupStatusWidth = w ∧
    ggt (shownUp s g w tx rx) g groupStatusTxLanes = lowestLanes tx w ∧
    ggt (shownUp s g w tx rx) g groupStatusRxLanes = lowestLanes rx w := by
  refine ⟨?_, ?_, ?_, ?_⟩ <;> unfold shownUp
  · rw [ggt_gst_other _ _ isGroupField_state isGroupField_rxLanes (.inl (by decide)),
      ggt_gst_other _ _ isGroupField_state isGroupField_txLanes (.inl (by decide)),
      ggt_gst_other _ _ isGroupField_state isGroupField_width (.inl (by decide)), ggt_gst_same]
    rfl
  · rw [ggt_gst_other _ _ isGroupField_width isGroupField_rxLanes (.inl (by decide)),
      ggt_gst_other _ _ isGroupField_width isGroupField_txLanes (.inl (by decide)), ggt_gst_same]
    exact Nat.mod_eq_of_lt (Nat.lt_of_le_of_lt hw (show 8 < 2 ^ 4 by decide))
  · rw [ggt_gst_other _ _ isGroupField_txLanes isGroupField_rxLanes (.inl (by decide)), ggt_gst_same]
    exact Nat.mod_eq_of_lt (lowestLanes_lt ..)
  · rw [ggt_gst_same]
    exact Nat.mod_eq_of_lt (lowestLanes_lt ..)

theorem optGroup_shownDown : optGroup (shownDown s g) g = optGroup s g := rfl

theorem groupsOnly_shownDown : GroupsOnly s (shownDown s g) :=
  (((GroupsOnly.gst ..).trans (.gst ..)).trans (.gst ..)).trans (.gst ..)

theorem groupsOnly_shownUp (w tx rx : Nat) : GroupsOnly s (shownUp s g w tx rx) :=
  (((GroupsOnly.gst ..).trans (.gst ..)).trans (.gst ..)).trans (.gst ..)

theorem groupsOnly_resultsTaken : GroupsOnly s (resultsTaken s g) := .updGroup ..

theorem groupPort_shownDown (h : Nat) : groupPort (shownDown s g) h = groupPort s h := by
  rw [shownDown, groupPort_gst _ _ isGroupField_rxLanes, groupPort_gst _ _ isGroupField_txLanes,
    groupPort_gst _ _ isGroupField_width, groupPort_gst _ _ isGroupField_state]

theorem groupPort_shownUp (w tx rx h : Nat) : groupPort (shownUp s g w tx rx) h = groupPort s h := by
  rw [shownUp, groupPort_gst _ _ isGroupField_rxLanes, groupPort_gst _ _ isGroupField_txLanes,
    groupPort_gst _ _ isGroupField_width, groupPort_gst _ _ isGroupField_state]

/-- The end of a training leaves the port plan alone. -/
theorem groupPort_finishTraining (h : Nat) : groupPort (finishTraining s g r) h = groupPort s h := by
  cases hp : groupPort s g with
  | none => simp only [finishTraining, hp]
  | some p =>
    rw [finishTraining_eq s g r hp]
    split
    · rw [heldDown, groupPort_raise, groupPort_shownDown, groupPort_updGroup, resultsTaken, groupPort_updGroup]
    split
    · split
      · rw [groupPort_raise, groupPort_shownDown, resultsTaken, groupPort_updGroup]
      · rw [groupPort_shownDown, resultsTaken, groupPort_updGroup]
    · rw [(TrafficFrame.groupPort h).portComes_eq, (TrafficFrame.groupPort h).moveFum_eq, cameUp, groupPort_shownUp,
        groupPort_updGroup, resultsTaken, groupPort_updGroup]

end

/-! ### Lanes that fail -/

section
variable (s : State) (g rx tx : Nat)

/-- Lanes that fail are remembered, and their failure is raised. -/
def lanesNoted : State :=
  raise (updGroup s g fun x => { x with failed := x.failed ||| rx, failedTx := x.failedTx ||| tx })
    (groupEvent g srcOptLaneFail)

theorem lanesNoted_eq : lanesNoted s g rx tx =
    { s with groups := (lanesNoted s g rx tx).groups, due := (lanesNoted s g rx tx).due } := rfl

theorem optGroup_lanesNoted : optGroup (lanesNoted s g rx tx) g =
    { optGroup s g with failed := (optGroup s g).failed ||| rx, failedTx := (optGroup s g).failedTx ||| tx } := by
  rw [lanesNoted, optGroup_raise, optGroup_updGroup_same]

variable {s g}

theorem failLanes_idle (hdown : groupUp s g = false) (hretraining : (optGroup s g).retraining = false)
    (hrecal : (optGroup s g).recal = false) : failLanes s g rx tx = s := by
  simp [failLanes, hdown, hretraining, hrecal]

/-- A group that retrains, or is aside for a test, remembers the lanes alone. -/
theorem failLanes_busy (hbusy : (optGroup s g).retraining = true ∨ (optGroup s g).recal = true) :
    failLanes s g rx tx = lanesNoted s g rx tx := by
  unfold failLanes
  rcases hbusy with hretraining | hrecal
  · simp only [hretraining, Bool.not_true, Bool.false_eq_true, false_and, and_false, if_false, true_or, if_true]
    rfl
  · simp only [hrecal, Bool.not_true, Bool.false_eq_true, and_false, if_false, true_or, or_true, if_true]
    rfl

/-- A group that carries traffic, and does not wait for its retrain, retrains. -/
theorem failLanes_up (hup : groupUp s g = true) (hretraining : (optGroup s g).retraining = false)
    (hrecal : (optGroup s g).recal = false) (hdue : (optGroup s g).due = false) :
    failLanes s g rx tx = wantRetrain (lanesNoted s g rx tx) g := by
  simp only [failLanes, hup, hretraining, hrecal, hdue, Bool.not_true, Bool.false_eq_true, false_and, or_self, if_false]
  rfl

/-- A failure of lanes that are in use is raised. -/
theorem due_failLanes (huse : groupUp s g = true ∨ (optGroup s g).retraining = true ∨ (optGroup s g).recal = true) :
    (failLanes s g rx tx).due = s.due ++ [groupEvent g srcOptLaneFail] := by
  by_cases hbusy : (optGroup s g).retraining = true ∨ (optGroup s g).recal = true
  · rw [failLanes_busy rx tx hbusy]
    rfl
  · obtain ⟨hretraining, hrecal⟩ := not_or.1 hbusy
    simp only [failLanes, huse.resolve_right hbusy, hretraining, hrecal, Bool.not_true, Bool.false_eq_true, false_and,
      false_or, if_false]
    split
    · rfl
    · exact (GroupFrame.due g).wantRetrain_eq _

/-- What a failure of lanes changes is held of the group, or is its event. -/
theorem failLanes_frame {β : Type} {part : State → β} (hpart : GroupFrame g part)
    (hraise : ∀ t e, part (raise t e) = part t) : part (failLanes s g rx tx) = part s := by
  have hnoted : part (lanesNoted s g rx tx) = part s := (hraise ..).trans (hpart.own ..)
  unfold failLanes
  dsimp only
  split
  · rfl
  split
  · exact hnoted
  · exact (hpart.wantRetrain_eq _).trans hnoted

theorem due_prefix_failLanes : s.due <+: (failLanes s g rx tx).due := by
  by_cases huse : groupUp s g = true ∨ (optGroup s g).retraining = true ∨ (optGroup s g).recal = true
  · exact ⟨_, (due_failLanes rx tx huse).symm⟩
  · obtain ⟨hdown, hretraining, hrecal⟩ := by simpa only [not_or, Bool.not_eq_true] using huse
    rw [failLanes_idle rx tx hdown hretraining hrecal]

end

/-! ### The laser monitor -/

section
variable (s : State) (g fresh : Nat)

/-- The lanes of a group, transmit or receive, that lie on wavelengths of its OE die (R212). -/
def lanesOn : Nat := ((List.range 8).map (fun l => b2n (bit fresh (4 * (g % 4 / 2) + l % 4)) * 2 ^ l)).sum

/-- A group in its first training goes back to wait for light (R215). -/
def backToLight : State := gst (updGroup s g fun y => { y with waitLight := true }) g groupStatusState 0

/-- Wavelengths fail for a group. -/
def loseLight : State :=
  if lanesOn g fresh = 0 then s
  else if ggt s g groupStatusState = 2 ∧ !(optGroup s g).retraining ∧ !(optGroup s g).recal then backToLight s g
  else failLanes s g (lanesOn g fresh) (lanesOn g fresh)

variable {s g fresh}

theorem loseLight_training (hlanes : lanesOn g fresh ≠ 0) (htraining : inTraining s g = true) :
    loseLight s g fresh = backToLight s g := by
  rw [loseLight, if_neg hlanes, if_pos (by simpa using (inTraining_iff s).1 htraining)]

theorem loseLight_fails (hlanes : lanesOn g fresh ≠ 0) (htraining : inTraining s g = false) :
    loseLight s g fresh = failLanes s g (lanesOn g fresh) (lanesOn g fresh) := by
  rw [loseLight, if_neg hlanes, if_neg]
  intro hin
  rw [(inTraining_iff s).2 (by simpa using hin)] at htraining
  cases htraining

theorem inTraining_of_use
    (huse : groupUp s g = true ∨ (optGroup s g).retraining = true ∨ (optGroup s g).recal = true) :
    inTraining s g = false := by
  rw [Bool.eq_false_iff]
  intro htraining
  obtain ⟨hstate, hretraining, hrecal⟩ := (inTraining_iff s).1 htraining
  rw [hretraining, hrecal, groupUp_iff, hstate] at huse
  simp at huse

end

/-- Nothing that a group's own turn at the laser monitor reads has changed, and events have only been added. -/
structure GroupKept (g : Nat) (s t : State) : Prop where
  state : ggt t g groupStatusState = ggt s g groupStatusState
  group : optGroup t g = optGroup s g
  due : s.due <+: t.due

namespace GroupKept
variable {g h : Nat} {s t u : State}

theorem refl (s : State) : GroupKept g s s := ⟨rfl, rfl, List.prefix_rfl⟩

theorem trans (hst : GroupKept g s t) (htu : GroupKept g t u) : GroupKept g s u :=
  ⟨htu.state.trans hst.state, htu.group.trans hst.group, hst.due.trans htu.due⟩

theorem raise (s : State) (e : Event) : GroupKept g s (raise s e) := ⟨rfl, rfl, List.prefix_append ..⟩

theorem setLow (s : State) (o : Nat) (x : Oe) (low : Nat) : GroupKept g s (setLow s o x low) :=
  ⟨rfl, rfl, List.prefix_rfl⟩

theorem forEach {α : Type} {f : State → α → State} (xs : List α) (s : State)
    (hf : ∀ t, ∀ x ∈ xs, GroupKept g t (f t x)) : GroupKept g s (forEach xs s f) := by
  induction xs generalizing s with
  | nil => exact refl s
  | cons x xs ih =>
    exact (hf s x List.mem_cons_self).trans (ih _ fun t y hy => hf t y (List.mem_cons_of_mem x hy))

/-- The turn of another group of the OE die. -/
theorem loseLight (hother : SameDieOther g h) (s : State) (fresh : Nat) : GroupKept g s (loseLight s h fresh) := by
  unfold Machine.loseLight
  split
  · exact refl s
  split
  · refine ⟨?_, ?_, List.prefix_rfl⟩
    · rw [backToLight, ggt_gst_other _ _ isGroupField_state isGroupField_state (.inr hother), ggt_updGroup]
    · rw [backToLight, optGroup_gst, optGroup_updGroup_other _ _ hother.1]
  · exact ⟨failLanes_frame _ _ (.groupState hother) fun _ _ => rfl,
      failLanes_frame _ _ (.optGroup hother.1) fun _ _ => rfl, due_prefix_failLanes ..⟩

theorem groupUp (hst : GroupKept g s t) : groupUp t g = groupUp s g := by
  rw [Machine.groupUp, Machine.groupUp, hst.state]

theorem inTraining (hst : GroupKept g s t) : inTraining t g = inTraining s g := by
  rw [Machine.inTraining, Machine.inTraining, hst.state, hst.group]

end GroupKept

/-- What a change for each element of a list without repetition makes of one element's part. -/
theorem exists_turn {α : Type} {R : State → State → Prop} {f : State → α → State} {xs : List α} {x : α}
    (hmem : x ∈ xs) (hnodup : xs.Nodup) (s : State)
    (hothers : ∀ ys : List α, (∀ y ∈ ys, y ∈ xs ∧ y ≠ x) → ∀ t, R t (forEach ys t f)) :
    ∃ v, R s v ∧ R (f v x) (forEach xs s f) := by
  obtain ⟨pre, post, rfl⟩ := List.append_of_mem hmem
  obtain ⟨-, hpost, hapart⟩ := List.nodup_append.1 hnodup
  refine ⟨forEach pre s f, hothers pre (fun y hy => ⟨List.mem_append_left _ hy,
    hapart y hy x List.mem_cons_self⟩) s, ?_⟩
  have hsplit : forEach (pre ++ x :: post) s f = forEach post (f (forEach pre s f) x) f := List.foldl_append
  rw [hsplit]
  exact hothers post (fun y hy => ⟨List.mem_append_right _ (List.mem_cons_of_mem x hy),
    fun heq => (List.nodup_cons.1 hpost).1 (heq ▸ hy)⟩) _

section
variable (s : State) (o : Nat) (power : List Int)

/-- LASER_MON shows the powers. -/
def powersShown : State :=
  forEach [0, 1] s fun s f => wg s (oeSlot o) (laserMon f)
    ((List.range 4).map fun k => monByte (power.getD (4 * f + k) 0) * 2 ^ (8 * k)).sum

/-- The wavelengths that are low now. -/
def lowNow : Nat := lowOf (mget {} s.oe o).laserMin power

/-- The wavelengths that have become low. -/
def lowFresh : Nat := lowNow s o power - (lowNow s o power &&& (mget {} s.oe o).low)

/-- The monitor before the groups' turns: the powers are shown, the low wavelengths taken up and raised. -/
def lowsRaised : State :=
  forEach ((List.range 8).filter (bit (lowNow s o power) ·))
    (setLow (powersShown s o power) o (mget {} s.oe o) (lowNow s o power))
    fun s _ => raise s { slot := oeSlot o, src := srcLaserLow }

theorem rg_powersShown {slot : Nat} {f : Fld} (hf : f.off + 4 ≤ 0x98) (hlo : f.lo < 32) :
    rg (powersShown s o power) slot f = rg s slot f := by
  refine rg_forEach_frame _ _ _ _ _ fun t k hk => rg_wg_other t _ ?_
  have hk : k ≤ 1 := by
    rcases List.mem_pair.1 hk with rfl | rfl <;> decide
  exact fkey_ne_of_place_ne (by omega) (by simp only [laserMon]; omega) (by simp only [laserMon]; omega)

theorem oe_powersShown : (powersShown s o power).oe = s.oe := by
  rw [powersShown]
  exact forEach_frame State.oe _ s _ fun t k => wg_oe t ..

theorem monitorLaser_eq (hadmit : rg s (oeSlot o) oeStatusAdmit = 2) : monitorLaser s o power =
    forEach ((List.range 8).filter fun k => decide (170 < power.getD k 0))
      (forEach (oeGroups o) (lowsRaised s o power) fun t h => loseLight t h (lowFresh s o power))
      fun s _ => raise s { slot := oeSlot o, src := srcLaserHigh } := by
  have hshown : rg (powersShown s o power) (oeSlot o) oeStatusAdmit = 2 := by
    rw [rg_powersShown s o power (by decide) (by decide), hadmit]
  unfold monitorLaser
  dsimp only
  rw [← powersShown]
  simp only [hshown, oe_powersShown, if_true]
  rfl

theorem groupKept_powersShown (g : Nat) : GroupKept g s (powersShown s o power) where
  state := rg_powersShown s o power (by simp only [groupStatusState]; omega) (show 29 < 32 by decide)
  group := by
    rw [optGroup, powersShown, forEach_frame State.groups _ s _ fun t k => wg_groups t ..]
    rfl
  due := by
    rw [powersShown, forEach_frame State.due _ s _ fun t k => wg_due t ..]

theorem groupKept_lowsRaised (g : Nat) : GroupKept g s (lowsRaised s o power) := by
  have hset := (groupKept_powersShown s o power g).trans (.setLow _ o (mget {} s.oe o) (lowNow s o power))
  exact hset.trans (.forEach _ _ fun t _ _ => .raise t _)

/-- The turn of a group of the die, from what it is before the monitor to what it is after it. -/
theorem exists_groupTurn {g : Nat} (hg : g / 4 = o) (hadmit : rg s (oeSlot o) oeStatusAdmit = 2) :
    ∃ v, GroupKept g s v ∧ GroupKept g (loseLight v g (lowFresh s o power)) (monitorLaser s o power) := by
  have hmem : g ∈ oeGroups o := List.mem_map.2 ⟨g % 4, List.mem_range.2 (by omega), by omega⟩
  have hnodup : (oeGroups o).Nodup := List.nodup_range.map fun _ _ => Nat.add_right_cancel
  have hothers : ∀ ys : List Nat, (∀ y ∈ ys, y ∈ oeGroups o ∧ y ≠ g) → ∀ t,
      GroupKept g t (forEach ys t fun t h => loseLight t h (lowFresh s o power)) := by
    refine fun ys hys t => .forEach ys t fun t y hy => .loseLight ⟨(hys y hy).2.symm, ?_⟩ t _
    obtain ⟨m, hm, rfl⟩ := List.mem_map.1 (hys y hy).1
    have hm := List.mem_range.1 hm
    omega
  obtain ⟨v, hbefore, hafter⟩ := exists_turn hmem hnodup (lowsRaised s o power) hothers
  rw [monitorLaser_eq s o power hadmit]
  exact ⟨v, (groupKept_lowsRaised s o power g).trans hbefore, hafter.trans (.forEach _ _ fun t _ _ => .raise t _)⟩

end

section
variable {s v u : State} {g fresh : Nat} (hbefore : GroupKept g s v) (hafter : GroupKept g (loseLight v g fresh) u)
  (hlanes : lanesOn g fresh ≠ 0)
include hbefore hafter hlanes

theorem groupTurn_raises
    (huse : groupUp s g = true ∨ (optGroup s g).retraining = true ∨ (optGroup s g).recal = true) :
    groupEvent g srcOptLaneFail ∈ u.due := by
  rw [← hbefore.groupUp, ← hbefore.group] at huse
  refine hafter.due.subset ?_
  rw [loseLight_fails hlanes (inTraining_of_use huse), due_failLanes _ _ huse]
  exact List.mem_append_right _ (List.mem_singleton_self _)

theorem groupTurn_retrains (hup : groupUp s g = true) (hretraining : (optGroup s g).retraining = false)
    (hrecal : (optGroup s g).recal = false) (hdue : (optGroup s g).due = false) :
    groupUp u g = false ∧ (optGroup u g).retraining = true ∨ (optGroup u g).due = true := by
  rw [← hbefore.groupUp] at hup
  rw [← hbefore.group] at hretraining hrecal hdue
  rw [hafter.groupUp, hafter.group, loseLight_fails hlanes (inTraining_of_use (.inl hup)),
    failLanes_up _ _ hup hretraining hrecal hdue]
  exact wantRetrain_retrains ..

theorem groupTurn_notes (hbusy : (optGroup s g).retraining = true ∨ (optGroup s g).recal = true) :
    (optGroup u g).failed = (optGroup s g).failed ||| lanesOn g fresh ∧
    (optGroup u g).failedTx = (optGroup s g).failedTx ||| lanesOn g fresh := by
  rw [← hbefore.group] at hbusy
  rw [hafter.group, loseLight_fails hlanes (inTraining_of_use (.inr hbusy)), failLanes_busy _ _ hbusy,
    optGroup_lanesNoted, hbefore.group]
  exact ⟨rfl, rfl⟩

theorem groupTurn_waits (htraining : inTraining s g = true) :
    ggt u g groupStatusState = 0 ∧ (optGroup u g).waitLight = true := by
  rw [← hbefore.inTraining] at htraining
  rw [hafter.state, hafter.group, loseLight_training hlanes htraining, backToLight, ggt_gst_same, optGroup_gst,
    optGroup_updGroup_same]
  exact ⟨rfl, rfl⟩

end

/-! ### The commands -/

section
variable {s : State} {g : Fin 32} (hruns : oeRuns s (g / 4) = true)
include hruns

theorem groupTrainingComplete_settles (r : GroupResult) (htraining : inTraining s g = true) :
    Settles (.groupTrainingComplete g r) s (finishTraining s g r) := if_pos ⟨hruns, htraining⟩

theorem groupAbsent_ends (htraining : inTraining s g = true) :
    Ends (.groupAbsent g) s (gst s g groupStatusState 1) := if_pos ⟨hruns, htraining⟩

theorem optLaneFail_settles {f : LaneFail} (hfails : laneFailed s g f.cause = true) :
    Settles (.optLaneFail g f) s (failLanes s g (2 ^ f.lane.val) 0) := if_pos ⟨hruns, hfails⟩

theorem groupRetrainComplete_settles (r : GroupResult) (hretraining : (optGroup s g).retraining = true) :
    Settles (.groupRetrainComplete g r) s (endRetrain s g r) := if_pos ⟨hruns, hretraining⟩

theorem absentGroupProbe_ends (habsent : ggt s g groupStatusState = 1) :
    Ends (.absentGroupProbe g true) s (startTraining s g) := if_pos ⟨hruns, habsent, rfl⟩

end

theorem optLaneFail_ends_self {s : State} {g : Fin 32} {f : LaneFail} (hholds : laneFailed s g f.cause ≠ true) :
    Ends (.optLaneFail g f) s s := if_neg fun h => hholds h.2

theorem absentGroupProbe_ends_self (s : State) (g : Fin 32) : Ends (.absentGroupProbe g false) s s :=
  if_neg fun h => Bool.false_ne_true h.2.2

theorem laserMonitor_settles {s : State} {o : Fin 8} (power : List Int) (hruns : oeRuns s o = true) :
    Settles (.laserMonitor o power) s (monitorLaser s o power) := if_pos hruns

/-! ### The ends of a first training and of a retrain -/

section
variable {s : State} {g p : Nat} {r : GroupResult} (hp : groupPort s g = some p)
include hp

theorem finishTraining_wrong (hpartner : some r.partner ≠ neighbourPos s p) :
    finishTraining s g r = heldDown s g p := by
  rw [finishTraining_eq s g r hp, if_pos hpartner]

theorem finishTraining_wide (hpartner : some r.partner = neighbourPos s p) (hwide : 4 ≤ passedWidth s g r) :
    finishTraining s g r = portComes (moveFum (cameUp s g r) p) p (portUp s p) := by
  rw [finishTraining_eq s g r hp, if_neg (not_not_intro hpartner), if_neg (by omega)]

theorem finishTraining_narrow (hfirst : (optGroup s g).retraining = false)
    (hpartner : some r.partner = neighbourPos s p) (hnarrow : passedWidth s g r = 0) :
    finishTraining s g r = shownDown (resultsTaken s g) g := by
  rw [finishTraining_eq s g r hp, if_neg (not_not_intro hpartner), if_pos hnarrow,
    if_neg (hfirst ▸ Bool.false_ne_true)]

theorem endRetrain_eq : endRetrain s g r =
    if ((optGroup s g).failed &&& r.rx ≠ 0 ∨ (optGroup s g).failedTx &&& r.tx ≠ 0) ∧
      (optGroup (finishTraining s g r) g).miswired = false
    then startRetrain (finishTraining s g r) g else nextRetrain (finishTraining s g r) p := by
  simp only [endRetrain, groupPort_finishTraining, hp, Bool.or_eq_true, decide_eq_true_eq, Bool.not_eq_true']

end

/-! ### A probe finds light -/

section
variable {s : State} {g p : Nat}

theorem state_backToLight : ggt (backToLight s g) g groupStatusState = 0 := ggt_gst_same ..

theorem waitLight_backToLight : (optGroup (backToLight s g) g).waitLight = true := by
  rw [backToLight, optGroup_gst, optGroup_updGroup_same]

variable (hp : groupPort s g = some p) (hlit : portDark s p = false) (hmodule : moduleUp s g = true)
include hp hlit hmodule

/-- A group that may train does, where its laser light is within limits, and waits for it otherwise. -/
theorem startTraining_eq : startTraining s g =
    if lowLanes s g ≠ 0 then backToLight s g
    else gst (updGroup s g (fun x => { x with waitLight := false, failed := 0, failedTx := 0 })) g
      groupStatusState 2 := by
  simp only [startTraining, hp, hlit, hmodule, Bool.not_true, Bool.false_eq_true, or_self, if_false]
  rfl

theorem startTraining_outcome :
    (lowLanes s g = 0 → ggt (startTraining s g) g groupStatusState = 2) ∧
    (lowLanes s g ≠ 0 → ggt (startTraining s g) g groupStatusState = 0 ∧
      (optGroup (startTraining s g) g).waitLight = true) ∧
    startTraining s g = { s with regs := (startTraining s g).regs, groups := (startTraining s g).groups } := by
  rw [startTraining_eq hp hlit hmodule]
  refine ⟨fun hlight => ?_, fun hdark => ?_, ?_⟩
  · rw [if_neg (not_not_intro hlight), ggt_gst_same]
    rfl
  · rw [if_pos hdark]
    exact ⟨state_backToLight, waitLight_backToLight⟩
  · split <;> rfl

end

/-! ### The statement, command by command -/

/-- A receive lane has been remembered, and its failure raised. -/
def LaneNoted (s : State) (g : Fin 32) (lane : Fin 8) (v : State) : Prop :=
  (optGroup v g).failed = (optGroup s g).failed ||| 2 ^ lane.val ∧
  v.due = s.due ++ [groupEvent g srcOptLaneFail] ∧ v = { s with groups := v.groups, due := v.due }

theorem laneNoted_lanesNoted (s : State) (g : Fin 32) (lane : Fin 8) :
    LaneNoted s g lane (lanesNoted s g (2 ^ lane.val) 0) :=
  ⟨congrArg OptGroup.failed (optGroup_lanesNoted ..), rfl, lanesNoted_eq ..⟩

section
variable {s : State} {g : Fin 32} (hruns : oeRuns s (g / 4) = true)
include hruns

section
variable {p : Nat} (hp : groupPort s g = some p) (htraining : inTraining s g = true) (r : GroupResult)
include hp htraining

theorem firstTraining_wrong (hpartner : some r.partner ≠ neighbourPos s p) :
    ∃ u, Settles (.groupTrainingComplete g r) s u ∧
      ggt u g groupStatusState = 4 ∧ (optGroup u g).miswired = true ∧
      u.due = s.due ++ [portEvent p srcFabMiswire] ∧ u.links = s.links := by
  have hsettles := groupTrainingComplete_settles hruns r htraining
  rw [finishTraining_wrong hp hpartner] at hsettles
  have hshown := ((groupsOnly_resultsTaken s g).trans (.updGroup _ g fun x => { x with miswired := true })).trans
    (groupsOnly_shownDown _ g)
  refine ⟨_, hsettles, ?_, ?_, ?_, ?_⟩ <;> rw [heldDown]
  · rw [ggt_raise, state_shownDown]
  · rw [optGroup_raise, optGroup_shownDown, optGroup_updGroup_same]
  · rw [due_raise, hshown.due_eq]
  · rw [raise_links, hshown.links_eq]

theorem firstTraining_wide (hpartner : some r.partner = neighbourPos s p) (hwide : 4 ≤ passedWidth s g r) :
    ∃ v, Settles (.groupTrainingComplete g r) s (portComes (moveFum v p) p (portUp s p)) ∧
      ggt v g groupStatusState = 3 ∧ ggt v g groupStatusWidth = passedWidth s g r ∧
      ggt v g groupStatusTxLanes = lowestLanes (passedTx s g r) (passedWidth s g r) ∧
      ggt v g groupStatusRxLanes = lowestLanes (passedRx s g r) (passedWidth s g r) ∧
      v = { s with regs := v.regs, groups := v.groups } := by
  have hsettles := groupTrainingComplete_settles hruns r htraining
  rw [finishTraining_wide hp hpartner hwide] at hsettles
  obtain ⟨hstate, hwidth, htx, hrx⟩ := status_shownUp (updGroup (resultsTaken s g) g fun x =>
    { x with miswired := false }) g (groupWidth_le ..) (passedTx s g r) (passedRx s g r)
  exact ⟨cameUp s g r, hsettles, hstate, hwidth, htx, hrx, ((groupsOnly_resultsTaken s g).trans (.updGroup ..)).trans
    (groupsOnly_shownUp ..)⟩

theorem firstTraining_narrow (hpartner : some r.partner = neighbourPos s p) (hnarrow : passedWidth s g r = 0) :
    ∃ u, Settles (.groupTrainingComplete g r) s u ∧
      ggt u g groupStatusState = 4 ∧ ggt u g groupStatusWidth = 0 ∧
      u = { s with regs := u.regs, groups := u.groups } := by
  obtain ⟨-, hfirst, -⟩ := (inTraining_iff s).1 htraining
  have hsettles := groupTrainingComplete_settles hruns r htraining
  rw [finishTraining_narrow hp hfirst hpartner hnarrow] at hsettles
  exact ⟨_, hsettles, state_shownDown .., width_shownDown ..,
    (groupsOnly_resultsTaken s g).trans (groupsOnly_shownDown ..)⟩

end

theorem groupAbsent_shows (htraining : inTraining s g = true) : ∃ u, Ends (.groupAbsent g) s u ∧
    ggt u g groupStatusState = 1 ∧ u = { s with regs := u.regs } :=
  ⟨_, groupAbsent_ends hruns htraining, ggt_gst_same .., rfl⟩

section
variable {lane : Fin 8} {cause : LaneCause} (hfails : laneFailed s g cause = true)
include hfails

theorem laneFail_retrains (hup : groupUp s g = true) (hretraining : (optGroup s g).retraining = false)
    (hrecal : (optGroup s g).recal = false) (hdue : (optGroup s g).due = false) :
    ∃ v, Settles (.optLaneFail g ⟨lane, cause⟩) s (wantRetrain v g) ∧ LaneNoted s g lane v := by
  have hsettles := optLaneFail_settles hruns (f := ⟨lane, cause⟩) hfails
  rw [failLanes_up _ _ hup hretraining hrecal hdue] at hsettles
  exact ⟨_, hsettles, laneNoted_lanesNoted s g lane⟩

theorem laneFail_notes (hbusy : (optGroup s g).retraining = true ∨ (optGroup s g).recal = true) :
    ∃ v, Settles (.optLaneFail g ⟨lane, cause⟩) s v ∧ LaneNoted s g lane v := by
  have hsettles := optLaneFail_settles hruns (f := ⟨lane, cause⟩) hfails
  rw [failLanes_busy _ _ hbusy] at hsettles
  exact ⟨_, hsettles, laneNoted_lanesNoted s g lane⟩

end

end

/-- Settles O34: the end of a first training by its partner and the width that its lanes allow, a lane that fails by
what its group does meanwhile, the end of a retrain by whether a lane failed late, and the laser monitor by the group's
own turn, which no other group's turn touches (`exists_groupTurn`). -/
theorem groupsTrainAndRetrain : Obligations.GroupsTrainAndRetrain := by
  refine ⟨fun g p r s hruns hp htraining => ⟨firstTraining_wrong hruns hp htraining r,
    firstTraining_wide hruns hp htraining r, firstTraining_narrow hruns hp htraining r,
    groupAbsent_shows hruns htraining⟩, fun g lane cause r s hruns => ?_,
    fun g power o s hg hruns hadmit hlanes => ?_⟩
  · have hcause : laneFailed s g cause = true ↔ (match cause with
        | .power v => v < (mget {} s.oe (g / 4)).rxSens + 10
        | .lock => True) := by
      cases cause with
      | power v => exact decide_eq_true_iff
      | lock => exact iff_of_true rfl trivial
    refine ⟨fun hholds => optLaneFail_ends_self fun hfails => hholds (hcause.1 hfails),
      fun hfails => laneFail_retrains hruns (hcause.2 hfails), fun hfails => laneFail_notes hruns (hcause.2 hfails),
      fun p hretraining hp => ?_, fun habsent => ⟨fun p hp hlit hmodule => ⟨_, absentGroupProbe_ends hruns habsent,
        startTraining_outcome hp hlit hmodule⟩, absentGroupProbe_ends_self s g⟩⟩
    have hsettles := groupRetrainComplete_settles hruns r hretraining
    rw [endRetrain_eq hp] at hsettles
    refine ⟨fun hlate hwired => ?_, fun hends => ?_⟩
    · rwa [if_pos ⟨hlate, hwired⟩] at hsettles
    · rwa [if_neg fun hmore => hends.elim (· hmore.1) fun hmiswired =>
        Bool.false_ne_true (hmore.2.symm.trans hmiswired)] at hsettles
  · obtain ⟨v, hbefore, hafter⟩ := exists_groupTurn s o power hg hadmit
    refine ⟨_, laserMonitor_settles power hruns, ?_, groupTurn_retrains hbefore hafter hlanes,
      groupTurn_notes hbefore hafter hlanes, groupTurn_waits hbefore hafter hlanes⟩
    have hevent : groupEvent g srcOptLaneFail = { slot := oeSlot o, src := 1, part := g % 4 } := by
      rw [groupEvent, hg]
      rfl
    intro huse
    rw [← hevent]
    exact groupTurn_raises hbefore hafter hlanes huse

end Sys2Proof.Machine
end

section
/-!
PROOFS. A step runs the command at the front of the queue; what no command does.
-/

namespace Sys2Proof.Machine

/-- Settles O1: a step takes the queue apart. -/
theorem stepRunsCommand : Obligations.StepRunsCommand := fun _ _ _ => rfl

/-- Setting the strap levels moves neither the queue nor the counter of free values. -/
theorem Keeps.of_straps {s t : State} {p : Straps} (k : Keeps { s with pins := { s.pins with straps := p } } t) :
    t.pending = s.pending ∧ s.free ≤ t.free := ⟨k.pending, k.free⟩

/-- Every command leaves the queue alone and does not lower the counter of free values. -/
theorem exec_pending_free {c : Instr} {s t : State} (ht : exec c s = .next t) :
    t.pending = s.pending ∧ s.free ≤ t.free := by
  by_cases hstrap : ∃ p, c = .strapSample p
  · obtain ⟨p, rfl⟩ := hstrap
    obtain k | k := execStrapSample_keeps s p
    · exact ⟨(k.of t ht).pending, (k.of t ht).free⟩
    · exact (k.of t ht).of_straps
  · by_cases hvaux : c = .vauxLoss
    · subst hvaux
      exact ((execVauxLoss_keeps s).of t ht).of_straps
    · have k := (exec_keeps c s (fun p hp => hstrap ⟨p, hp⟩) hvaux).of t ht
      exact ⟨k.pending, k.free⟩

/-- Settles O5, by what every command keeps (`Keeps`). -/
theorem commandsKeep : Obligations.CommandsKeep :=
  ⟨fun _ _ _ => exec_pending_free, fun c s t ht hstrap hvaux => ((exec_keeps c s hstrap hvaux).of t ht).straps⟩

end Sys2Proof.Machine
end

section
/-!
PROOFS. Accesses that are refused or dropped (R321, R340 to R342), and BAR2 and the size of BAR4 (R320, R323).
-/

namespace Sys2Proof.Machine

/-! ### Dropped writes -/

/-- A dropped write is counted, and its offset and requester are shown. -/
theorem dropWrite_eq_dropped (s : State) (r : Requester) (off : Nat) :
    dropWrite s r off = dropped s off (sourceCode r) := by
  have hcode : reqCode r = sourceCode r := by cases r <;> rfl
  rw [dropWrite, hcode]
  rfl

/-- A write to a block that does not take accesses is dropped. -/
theorem guardedWrite_of_not_performs {s : State} {r : Requester} {slot : Nat} (off : Nat) (f : State → State)
    (hruns : performs s slot = false) (hreach : reached s r = true) :
    guardedWrite s r slot off f = dropped s (slot * 4096 + off) (sourceCode r) := by
  rw [guardedWrite, hreach, if_neg (by decide), hruns, if_neg (by decide), dropWrite_eq_dropped]

/-- A write of a requester that does not reach the package does nothing. -/
theorem guardedWrite_of_not_reached {s : State} {r : Requester} (slot off : Nat) (f : State → State)
    (hreach : reached s r = false) : guardedWrite s r slot off f = s := by
  rw [guardedWrite, hreach]
  rfl

/-- The sequencer page of a die, the pages of a half and the attach page of an OE die, by their offsets. -/
theorem seqSlot_eq (d : Nat) : 0x401 + 0x400 * d = seqSlot d := by
  unfold seqSlot dieSlot
  omega

theorem geySlot_eq (h : Nat) : 0x101 + 0x100 * h = geySlot h := by
  unfold geySlot halfSlot
  omega

theorem collSlot_eq (h : Nat) : 0x102 + 0x100 * h = collSlot h := by
  unfold collSlot halfSlot
  omega

theorem hiSlot_eq (p : Nat) : 0x103 + 0x100 * p = hiSlot p := by
  unfold hiSlot halfSlot
  omega

theorem oeSlot_eq (o : Nat) : 0x10C + 0x100 * (o / 2 % 2) + o % 2 + 2 * (o / 4) = oeSlot o := by
  unfold oeSlot halfSlot
  omega

/-- The command is a guarded write of the register `o` of the page `slot`, with or without what follows. -/
def WritesRow (c : Instr) (s : State) (r : Requester) (slot o : Nat) : Prop :=
  ∃ f, Ends c s (guardedWrite s r slot o f) ∨ Settles c s (guardedWrite s r slot o f)

/-- A guarded write that nothing follows. -/
theorem WritesRow.ends {c : Instr} {s : State} {r : Requester} {slot o : Nat} (f : State → State)
    (h : Ends c s (guardedWrite s r slot o f)) : WritesRow c s r slot o := ⟨f, .inl h⟩

/-- A guarded write that is followed by what may follow it. -/
theorem WritesRow.settles {c : Instr} {s : State} {r : Requester} {slot o : Nat} (f : State → State)
    (h : Settles c s (guardedWrite s r slot o f)) : WritesRow c s r slot o := ⟨f, .inr h⟩

/-- Each command that is a write of one block-specific register is a guarded write of it. -/
theorem exec_rowRegister {c : Instr} (s : State) {r : Requester} {slot o : Nat}
    (hrow : rowRegister c = some (r, slot, o)) : WritesRow c s r slot o := by
  cases c with
  | lobeModeWrite => cases hrow; exact .ends _ rfl
  | censusSnap => cases hrow; exact .ends _ rfl
  | censusClear => cases hrow; exact .ends _ rfl
  | seqStart => cases hrow; rw [seqSlot_eq]; exact .settles _ rfl
  | seqStop => cases hrow; rw [seqSlot_eq]; exact .ends _ rfl
  | digClear => cases hrow; rw [seqSlot_eq]; exact .ends _ rfl
  | jwCtlWrite => cases hrow; exact .ends _ rfl
  | memSplitWrite => cases hrow; exact .ends _ rfl
  | mapoutReqWrite => cases hrow; exact .ends _ rfl
  | oeRetry => cases hrow; rw [oeSlot_eq]; exact .ends _ rfl
  | jobDataWrite => cases hrow; exact .settles _ rfl
  | rtDataWrite => cases hrow; exact .settles _ rfl
  | gqQuotaWrite => cases hrow; rw [geySlot_eq]; exact .settles _ rfl
  | queueEnable => cases hrow; rw [collSlot_eq]; exact .settles _ rfl
  | queueDisable => cases hrow; rw [collSlot_eq]; exact .settles _ rfl
  | portCfgWrite => cases hrow; rw [hiSlot_eq]; exact .settles _ rfl
  | ringCfgWrite => cases hrow; rw [hiSlot_eq]; exact .settles _ rfl
  | ringHeadWrite => cases hrow; rw [hiSlot_eq]; exact .settles _ rfl
  | resetReq => cases hrow; exact .settles _ rfl
  | powerReqP0 => cases hrow; exact .settles _ rfl
  | powerReqP2 => cases hrow; exact .settles _ rfl
  | powerReqP3 => cases hrow; exact .settles _ rfl
  | powerReqP4 => cases hrow; exact .settles _ rfl
  | mrExtend => cases hrow; exact .ends _ rfl
  | faultInject => cases hrow; exact .settles _ rfl
  | logCapture => cases hrow; exact .ends _ rfl
  | segOpen => cases hrow; exact .ends _ rfl
  | segPeriodic => cases hrow; exact .ends _ rfl
  | segCheckpoint => cases hrow; exact .ends _ rfl
  | segClose => cases hrow; exact .ends _ rfl
  | segState => cases hrow; exact .ends _ rfl
  | _ => cases hrow

/-! ### Accesses of unassigned slots and of a wrong shape -/

/-- An access of BAR0 outside the MSI-X range is inside BAR0. -/
theorem not_outside_bar0 {s : State} {r : Requester} {off : Nat} (hoff : off < 0x3FF0000)
    (hreach : reached s r = true) : ¬(off ≥ 2 ^ 26 ∨ (!reached s r) = true) := by
  rw [hreach]
  simp only [Bool.not_true, Bool.false_eq_true, or_false]
  omega

/-- A write to an unassigned slot. -/
theorem writeBar0_unassigned {s : State} {r : Requester} {off : Nat} (val set : Nat) (hoff : off < 0x3FF0000)
    (halign : off % 4 = 0) (hpage : pgType (off / 4096) = 0) (hreach : reached s r = true) :
    writeBar0 s r off 4 val set = badAccess (dropped s off (sourceCode r)) r := by
  have hshape : badShape off 4 = false := by simp [badShape, halign]
  rw [writeBar0, if_neg (not_outside_bar0 hoff hreach), if_neg (Nat.not_le.mpr hoff), hshape, if_neg (by decide),
    if_pos hpage, unassignedWrite, dropWrite_eq_dropped]

/-- A read of an unassigned slot. -/
theorem readAccess_unassigned {s : State} {r : Requester} {off : Nat} (k : Nat) (hoff : off < 0x3FF0000)
    (halign : off % 4 = 0) (hpage : pgType (off / 4096) = 0) (hreach : reached s r = true) :
    readAccess s r off 4 k = { s with resp := .value 0 } := by
  have hshape : ¬(4 ≠ 4 ∨ off % 4 ≠ 0) := by omega
  have hslot : ¬off / 4096 ≥ 0x3FF0 := by omega
  have hread : readReg s r off = 0 := by
    rw [readReg, if_neg hslot, if_pos hpage]
  rw [readAccess, if_neg (not_outside_bar0 hoff hreach), if_neg (Nat.not_le.mpr hoff), if_neg hshape, readPage,
    if_neg (fun h => h.1 hpage), hread]

/-- The requester behind a port reaches the package. -/
theorem reached_portReq (s : State) (p : Half) : reached s (portReq p) = true := by
  unfold portReq
  split
  · rfl
  · rfl

/-- The code of a port's requester is the port's number. -/
theorem sourceCode_portReq (p : Half) : sourceCode (portReq p) = p.val := by decide +revert

/-- HI_BAD_ACCESS of a port. -/
theorem badAccess_portReq (s : State) (p : Half) :
    badAccess s (portReq p) = { s with due := s.due ++ [{ slot := 0x103 + 0x100 * p.val, src := 0 }] } := by
  obtain rfl | rfl : p = 0 ∨ p = 1 := by decide +revert
  · rfl
  · rfl

/-- What an access that is refused leads to. -/
theorem settles_bar0BadAccess {s u : State} {p : Half} {write : Bool} {off width : Nat}
    (h : badBar0 s p write off width = u) : Settles (.bar0BadAccess p write off width) s u :=
  congrArg (fun t => Host.Outcome.next (settle t)) h

/-- A refused access of an unassigned slot. -/
theorem badBar0_unassigned {p : Half} {off : Nat} (s : State) (write : Bool) (hoff : off < 0x3FF0000)
    (halign : off % 4 = 0) (hpage : pgType (off / 4096) = 0) : badBar0 s p write off 4 =
      if write then { dropped s off p.val with
        due := s.due ++ [{ slot := 0x103 + 0x100 * p.val, src := 0 }] }
      else { s with resp := .value 0 } := by
  have hout : ¬(off ≥ 2 ^ 26 ∨ 0x3FF0000 ≤ off) := by omega
  have hshape : badShape off 4 = false := by simp [badShape, halign]
  rw [badBar0, if_neg hout, hshape, if_neg (by decide), if_pos hpage, unassignedWrite, dropWrite_eq_dropped,
    sourceCode_portReq, badAccess_portReq]
  rfl

/-- Settles O7: every command that writes one register is a guarded write of it, and an unassigned slot takes no
access. -/
theorem blockDropsWrite : Obligations.BlockDropsWrite := by
  refine ⟨fun c s r slot o hrow => ?_, fun r off val set s hoff halign hpage hreach => ⟨?_, ?_⟩,
    fun p off s hoff halign hpage => ⟨?_, ?_⟩⟩
  · obtain ⟨f, hwrite⟩ := exec_rowRegister s hrow
    refine ⟨fun hreach hruns => ?_, fun hreach => ?_⟩
    · rwa [guardedWrite_of_not_performs o f hruns hreach] at hwrite
    · rwa [guardedWrite_of_not_reached slot o f hreach] at hwrite
  · refine settles_registerWrite ((writeBar0_unassigned val set hoff halign hpage hreach).trans ?_)
    cases r <;> rfl
  · exact settles_racRead (readAccess_unassigned set hoff halign hpage hreach)
  · exact settles_bar0BadAccess (badBar0_unassigned s true hoff halign hpage)
  · exact settles_bar0BadAccess (badBar0_unassigned s false hoff halign hpage)

/-- HI_BAD_ACCESS is Corrected after reset. -/
theorem classOf_badAccess_reset : ∀ p : Half, classOf State.reset (0x103 + 0x100 * p.val) 0 = 0 := by decide

/-- Settles O10: the shape of an access is tested before its page is looked at. -/
theorem accessesRefused : Obligations.AccessesRefused := by
  intro p off width val set s hoff hbad e r
  have hreach : reached s r = true := reached_portReq s p
  have hshape : badShape off width = true := by simpa [badShape, hoff] using hbad
  have hout : ¬(off ≥ 2 ^ 26 ∨ 0x3FF0000 ≤ off) := by omega
  refine ⟨classOf_badAccess_reset p, settles_registerWrite ?_, settles_racRead ?_, settles_bar0BadAccess ?_,
    settles_bar0BadAccess ?_⟩
  · rw [writeBar0, if_neg (not_outside_bar0 hoff hreach), if_neg (Nat.not_le.mpr hoff), hshape, if_pos rfl]
    exact badAccess_portReq s p
  · rw [readAccess, if_neg (not_outside_bar0 hoff hreach), if_neg (Nat.not_le.mpr hoff), if_pos hbad]
    exact badAccess_portReq _ p
  · rw [badBar0, if_neg hout, hshape, if_pos rfl]
    exact badAccess_portReq s p
  · rw [badBar0, if_neg hout, hshape, if_pos rfl]
    exact badAccess_portReq _ p

/-! ### BAR2 and the size of BAR4 -/

/-- The widths of a write of BAR2. -/
theorem natural_pow (k : Fin 7) (n o : Nat) : natural (n * 4096 + o) (2 ^ k.val) = decide (o % 2 ^ k.val = 0) := by
  have hwidth : [1, 2, 4, 8, 16, 32, 64].contains (2 ^ k.val) = true := by decide +revert
  have hpage : (n * 4096 + o) % 2 ^ k.val = o % 2 ^ k.val := by
    have hdvd : 2 ^ k.val ∣ 4096 := by decide +revert
    rw [Nat.add_mod, Nat.mod_eq_zero_of_dvd (hdvd.mul_left n), Nat.zero_add, Nat.mod_mod]
  rw [natural, hwidth, hpage, Bool.true_and]

/-- A write of a command port page, by the offset within it. -/
theorem writeBar2_eq (s : State) (p : Half) {n o : Nat} (val : Nat) (k : Fin 7) (hn : n < 256) (ho : o < 4096) :
    writeBar2 s p (n * 4096 + o) (2 ^ k.val) val =
      if domainOn s (58 + 4 * p.val) = true ∧ o % 2 ^ k.val = 0 ∧ o + 2 ^ k.val ≤ 64 then
        updCPort s p n (fun x => { x with desc := setBits x.desc (8 * o) (8 * 2 ^ k.val) val })
      else s := by
  rw [writeBar2, pageOff_div n ho, pageOff_mod n ho, natural_pow]
  refine if_congr ?_ rfl rfl
  simp only [Bool.and_eq_true, decide_eq_true_eq]
  tauto

/-- What a write of BAR2 leads to. -/
theorem settles_writeBar2 {s u : State} {r : Requester} {p : Half} {off width val set : Nat}
    (h : writeBar2 s p off width val = u) : Settles (.registerWrite r (.bar2 p) off width ⟨val, set⟩) s u :=
  congrArg (fun t => Host.Outcome.next (settle t)) h

/-- What a write of the size of BAR4 leads to. -/
theorem settles_writeBar4Size {s u : State} {r : Requester} {p : Half} {off val set : Nat}
    (h : writeBar4Size s p val = u) : Settles (.registerWrite r (.bar4Size p) off 4 ⟨val, set⟩) s u :=
  congrArg (fun t => Host.Outcome.next (settle t)) h

/-- A read of a command port page, by the offset within it. -/
theorem readPort_eq (s : State) (p : Half) {n o : Nat} (width : Nat) (hn : n < 256) (ho : o < 4096) :
    readPort s p (n * 4096 + o) width =
      if o = 0x40 then submitAny s p n width
      else if o < 0x48 ∧ 0x40 < o + width then badSubmit s p width
      else { s with resp := .value 0 } := by
  have hpage : ¬2 ^ 20 ≤ n * 4096 + o := by omega
  rw [readPort, if_neg hpage, pageOff_div n ho, pageOff_mod n ho]

/-- Settles O9, by the offset of an access within its command port page. -/
theorem descTakesBytes : Obligations.DescTakesBytes := by
  intro r p n o val set k s hn ho c read
  have hwidth : 0 < 2 ^ k.val := Nat.two_pow_pos _
  refine ⟨fun hon halign hfits => ?_, fun hignored => ?_, fun hbeside => ?_, fun hne hlow hreach => ?_,
    fun hmin hmax => ?_, fun hout => ?_, rfl⟩
  · exact settles_writeBar2 ((writeBar2_eq s p val k hn ho).trans (if_pos ⟨hon, halign, hfits⟩))
  · refine settles_writeBar2 ((writeBar2_eq s p val k hn ho).trans (if_neg ?_))
    rintro ⟨hon, halign, hfits⟩
    obtain h | h | h := hignored
    · exact absurd (hon.symm.trans h) (by decide)
    · exact h halign
    · omega
  · refine congrArg Host.Outcome.next ((readPort_eq s p _ hn ho).trans ?_)
    rw [if_neg (show ¬o = 0x40 by omega), if_neg (show ¬(o < 0x48 ∧ 0x40 < o + 2 ^ k.val) by omega)]
  · refine congrArg Host.Outcome.next ((readPort_eq s p _ hn ho).trans ?_)
    rw [if_neg hne, if_pos ⟨hlow, hreach⟩]
    exact congrArg settle (badAccess_portReq _ p)
  · refine ⟨{ s with bar4Size := mset 14 s.bar4Size p val }, settles_writeBar4Size (if_pos ⟨hmin, hmax⟩), ?_, rfl⟩
    exact mget_mset_same ..
  · exact settles_writeBar4Size (if_neg (by omega))

end Sys2Proof.Machine
end

section
/-!
PROOFS. The registers that configure queues, quotas, jobs and route tables (R237, R240, R241, R254, R260, R270).
-/

namespace Sys2Proof.Machine

variable {s : State} {r : Requester} {h : Half}

/-- The low bits of a number. -/
theorem bits_zero_lo (n w : Nat) : bits n 0 w = n % 2 ^ w := congrArg (· % 2 ^ w) (Nat.div_one n)

/-! ### Pages that are never gated -/

theorem awake_collSlot (h : Half) : isDiePage (collSlot h) = true → 1 < pgLevel (pgType (collSlot h)) := by
  decide +revert

theorem awake_geySlot (h : Half) : isDiePage (geySlot h) = true → 1 < pgLevel (pgType (geySlot h)) := by
  decide +revert

theorem awake_hiSlot (p : Half) : isDiePage (hiSlot p) = true → 1 < pgLevel (pgType (hiSlot p)) := by
  decide +revert

theorem awake_routerSlot : isDiePage routerSlot = true → 1 < pgLevel (pgType routerSlot) := by decide

/-! ### Q_CFG -/

/-- The fields of Q_CFG but EN, by their places. -/
theorem cfgFields_eq (c : Cq) (v : Nat) : cfgFields c v = { c with
    order := v / 2 ^ 30 % 2, fan := v / 2 ^ 27 % 8, trees := v / 2 ^ 23 % 16
    group := v / 2 ^ 13 % 1024, job := v % 4096 } := by
  rw [cfgFields, bits_zero_lo]
  rfl

/-- A write of Q_CFG with EN = 1 to an engine that takes accesses. -/
theorem settles_queueEnable {u : State} {val : BitVec 32} (hruns : performs s (collSlot h) = true)
    (hreach : reached s r = true) (hu : enableQueue s (selQueue s h) val.toNat = u) :
    Settles (.queueEnable r h val) s u :=
  congrArg (fun t => Host.Outcome.next (settle t))
    ((guardedWrite_of_performs 0x84 _ (awake_collSlot h) hruns hreach).trans hu)

/-- A write of Q_CFG with EN = 0 to an engine that takes accesses. -/
theorem settles_queueDisable {u : State} {val : BitVec 32} (hruns : performs s (collSlot h) = true)
    (hreach : reached s r = true) (hu : disableQueue s (selQueue s h) val.toNat = u) :
    Settles (.queueDisable r h val) s u :=
  congrArg (fun t => Host.Outcome.next (settle t))
    ((guardedWrite_of_performs 0x84 _ (awake_collSlot h) hruns hreach).trans hu)

section
variable {q : Nat} (v : Nat)

/-- An enabled queue ignores an enable. -/
theorem enableQueue_of_en (hen : (cqOf s q).en = true) : enableQueue s q v = s := by
  rw [enableQueue, if_pos hen]

/-- The configuration that an enable asks for. -/
def askedQueue (c : Cq) (v : Nat) : Cq := { cfgFields c v with en := true }

/-- A configuration that fails a check is refused. -/
theorem enableQueue_refused (hen : (cqOf s q).en = false)
    (hreason : queueReason s q (askedQueue (cqOf s q) v) ≠ 0) : enableQueue s q v =
      updCq s q (fun _ => { askedQueue (cqOf s q) v with
        state := 3, reason := queueReason s q (askedQueue (cqOf s q) v) }) := by
  rw [enableQueue, if_neg (by simp [hen])]
  exact if_pos hreason

/-- A configuration that passes every check starts its queue. -/
theorem enableQueue_started {k : Nat} (hen : (cqOf s q).en = false)
    (hreason : queueReason s q (askedQueue (cqOf s q) v) = 0)
    (hrank : rankAt s (askedQueue (cqOf s q) v) 0 (myPos s) = some k) : enableQueue s q v =
      updCq s q (fun _ => { askedQueue (cqOf s q) v with
        state := 1, reason := 0, rank := k, num := 0, recv := [], fum := [] }) := by
  rw [enableQueue, if_neg (by simp [hen])]
  refine (if_neg (not_not.mpr hreason)).trans ?_
  change updCq s q (fun _ => { askedQueue (cqOf s q) v with
    state := 1, reason := 0, rank := (rankAt s (askedQueue (cqOf s q) v) 0 (myPos s)).getD 0
    num := 0, recv := [], fum := [] }) = _
  rw [hrank]
  rfl

/-- An enabled queue with an operation in flight ignores a disable. -/
theorem disableQueue_of_inflight (hen : (cqOf s q).en = true) (hfly : inflight (cqOf s q) ≠ 0) :
    disableQueue s q v = s := by
  rw [disableQueue, if_neg (by simp [hen]), if_pos hfly]

/-- An enabled queue with nothing in flight is disabled. -/
theorem disableQueue_of_still (hen : (cqOf s q).en = true) (hstill : inflight (cqOf s q) = 0) :
    disableQueue s q v = updCq s q (fun c => { c with en := false, state := 0, reason := 0, rank := 0 }) := by
  rw [disableQueue, if_neg (by simp [hen]), if_neg (not_not.mpr hstill)]

/-- A disabled queue takes the fields. -/
theorem disableQueue_of_disabled (hen : (cqOf s q).en = false) :
    disableQueue s q v = updCq s q (fun c => { cfgFields c v with en := false }) := by
  have hkeep : cfgFields (cqOf s q) v = { cfgFields (cqOf s q) v with en := false } := by
    rw [← hen]
    rfl
  rw [disableQueue, if_pos (by simp [hen]), updCq, updCq, hkeep]

end

/-! ### GQ_DATA -/

/-- A write of GQ_DATA to a Geyser that takes accesses. -/
theorem settles_gqQuotaWrite {u : State} {val : BitVec 32} (hruns : performs s (geySlot h) = true)
    (hreach : reached s r = true) (hu : setQuota s h val.toNat = u) : Settles (.gqQuotaWrite r h val) s u :=
  congrArg (fun t => Host.Outcome.next (settle t))
    ((guardedWrite_of_performs 0x88 _ (awake_geySlot h) hruns hreach).trans hu)

/-- Settles O41: a write of Q_CFG or of GQ_DATA, by the state of the queue or of the Geyser that it finds. -/
theorem queuesConfigure : Obligations.QueuesConfigure := by
  intro r h val s
  rw [collSlot_eq, geySlot_eq]
  intro v q c x put
  have hx : x = askedQueue c v := by rw [askedQueue, cfgFields_eq]
  refine ⟨fun hruns hreach => ?_, fun hruns hreach => ?_⟩
  · have hput (f : Cq → Cq) : updCq s q f = put (f c) := rfl
    rw [hx]
    refine ⟨fun hen => ?_, fun hen hreason => ?_, fun k hen hreason hrank => ?_, fun hen hfly => ?_,
      fun hen hstill => ?_, fun hen => ?_⟩
    · exact settles_queueEnable hruns hreach (enableQueue_of_en v hen)
    · exact settles_queueEnable hruns hreach (enableQueue_refused v hen hreason)
    · exact settles_queueEnable hruns hreach (enableQueue_started v hen hreason hrank)
    · exact settles_queueDisable hruns hreach (disableQueue_of_inflight v hen hfly)
    · exact settles_queueDisable hruns hreach (disableQueue_of_still v hen hstill)
    · exact settles_queueDisable hruns hreach (disableQueue_of_disabled v hen)
  · intro m job grp n fits
    have hn : bits v 0 15 = n := bits_zero_lo v 15
    refine ⟨fun hjob => ?_, fun hjob hfits => ?_, fun hjob hfits => ?_⟩
    · exact settles_gqQuotaWrite hruns hreach (if_pos hjob)
    · refine ⟨updGeyser s h fun g => { g with quota := mset 0 g.quota (job * 1024 + grp) n, rej := false },
        settles_gqQuotaWrite hruns hreach ?_, ?_, ?_, ?_, ?_, rfl⟩
      · refine (if_neg hjob).trans ?_
        rw [hn]
        exact if_pos hfits
      · unfold quotaOf
        rw [geyser_updGeyser_same, mget_mset_same]
      all_goals rw [geyser_updGeyser_same]
    · refine settles_gqQuotaWrite hruns hreach ((if_neg hjob).trans ?_)
      rw [hn]
      exact if_neg hfits

/-! ### JOB_DATA -/

/-- A write of JOB_DATA that reaches the router. -/
theorem settles_jobDataWrite {u : State} {val : BitVec 32} (hruns : performs s routerSlot = true)
    (hreach : reached s r = true) (hu : setJobData s val.toNat = u) : Settles (.jobDataWrite r val) s u :=
  congrArg (fun t => Host.Outcome.next (settle t))
    ((guardedWrite_of_performs 0x8C _ awake_routerSlot hruns hreach).trans hu)

/-- A write of RT_DATA that reaches the router. -/
theorem settles_rtDataWrite {u : State} {val : BitVec 32} (hruns : performs s routerSlot = true)
    (hreach : reached s r = true) (hu : setRtData s val.toNat = u) : Settles (.rtDataWrite r val) s u :=
  congrArg (fun t => Host.Outcome.next (settle t))
    ((guardedWrite_of_performs 0x94 _ awake_routerSlot hruns hreach).trans hu)

/-- The entry that a value of JOB_DATA spells. -/
def jobWritten (v : Nat) : Job := ⟨bit v 31, bit v 30, bits v 28 2, bits v 0 8⟩

/-- The top bit of a 32-bit value. -/
theorem bit_top {v : Nat} (hv : v < 2 ^ 32) : bit v 31 = decide (v / 2 ^ 31 = 1) := by
  rw [bit, Nat.testBit_eq_decide_div_mod_eq]
  have : v / 2 ^ 31 % 2 = v / 2 ^ 31 := Nat.mod_eq_of_lt (by omega)
  rw [this]

/-- Its fields by their places. -/
theorem jobWritten_eq {v : Nat} (hv : v < 2 ^ 32) : jobWritten v =
    ⟨decide (v / 2 ^ 31 = 1), decide (v / 2 ^ 30 % 2 = 1), v / 2 ^ 28 % 4, v % 256⟩ := by
  rw [jobWritten, bit_top hv, bits_zero_lo, bit, Nat.testBit_eq_decide_div_mod_eq]
  rfl

/-- Is the value not taken: the reserved state, a return to active in one epoch, or the end of a job that is served? -/
def JobIgnored (s : State) (j : Nat) (new : Job) : Prop :=
  j = 0 ∨ new.state = 3 ∨ (jobOf s j).state = 2 ∧ new.state = 1 ∧ new.epoch = (jobOf s j).epoch ∨
    new.member = false ∧ new.state = 0 ∧ jobIdle s j = false

/-- The state in which a job takes its entry: a new epoch has dropped what belonged to the old one. -/
def epochTurned (s : State) (j : Nat) (new : Job) : State :=
  if new.epoch = (jobOf s j).epoch then s else forgetEpoch s j

/-- What a write of JOB_DATA does. -/
theorem setJobData_eq (s : State) (v : Nat) :
    (JobIgnored s (rg s routerSlot jobSel) (jobWritten v) → setJobData s v = s) ∧
    (¬JobIgnored s (rg s routerSlot jobSel) (jobWritten v) → setJobData s v =
      restoreLobes (setJob (epochTurned s (rg s routerSlot jobSel) (jobWritten v)) (rg s routerSlot jobSel)
        (jobWritten v))) := by
  set j := rg s routerSlot jobSel
  set new := jobWritten v
  have heq : setJobData s v =
      if j = 0 ∨ new.state = 3 then s
      else if (jobOf s j).state = 2 ∧ new.state = 1 ∧ new.epoch = (jobOf s j).epoch then s
      else if !new.member && new.state = 0 && !jobIdle s j then s
      else restoreLobes (setJob (epochTurned s j new) j new) := rfl
  have hends : (!new.member && decide (new.state = 0) && !jobIdle s j) = true ↔
      new.member = false ∧ new.state = 0 ∧ jobIdle s j = false := by
    simp [and_assoc]
  rw [heq]
  refine ⟨fun hign => ?_, fun htakes => ?_⟩
  · split_ifs with h1 h2 h3
    · rfl
    · rfl
    · rfl
    · rw [hends] at h3
      unfold JobIgnored at hign
      tauto
  · unfold JobIgnored at htakes
    rw [if_neg (by tauto), if_neg (by tauto), if_neg (by rw [hends]; tauto)]

/-- No lobe waits for the last job's end. -/
theorem restoreLobes_of_none (hidle : s.lobeIdle = []) : restoreLobes s = s := by
  rw [restoreLobes, if_pos (by simp [hidle])]

/-- A new epoch moves request numbers and queue traffic alone. -/
theorem epochTurned_frame (s : State) (j : Nat) (new : Job) :
    epochTurned s j new = { s with
      remote := (epochTurned s j new).remote, inbox := (epochTurned s j new).inbox } := by
  unfold epochTurned
  split
  · rfl
  · rfl

/-- A job takes its entry. -/
theorem jobDataWrite_takes {val : BitVec 32} (hruns : performs s routerSlot = true) (hreach : reached s r = true)
    (htakes : ¬JobIgnored s (rg s routerSlot jobSel) (jobWritten val.toNat)) (hidle : s.lobeIdle = []) :
    ∃ u, Settles (.jobDataWrite r val) s u ∧ jobOf u (rg s routerSlot jobSel) = jobWritten val.toNat ∧
      (∀ k, k ≠ rg s routerSlot jobSel → jobOf u k = jobOf s k) ∧
      ((jobWritten val.toNat).epoch = (jobOf s (rg s routerSlot jobSel)).epoch →
        u.remote = s.remote ∧ u.inbox = s.inbox) ∧
      u = { s with jobs := u.jobs, remote := u.remote, inbox := u.inbox } := by
  set j := rg s routerSlot jobSel
  set new := jobWritten val.toNat
  have hframe := epochTurned_frame s j new
  have hjobs : (epochTurned s j new).jobs = s.jobs := by rw [hframe]
  have hlobes : (setJob (epochTurned s j new) j new).lobeIdle = [] := by
    rw [setJob, hframe]
    exact hidle
  refine ⟨setJob (epochTurned s j new) j new, settles_jobDataWrite hruns hreach ?_, ?_, fun k hk => ?_,
    fun hsame => ?_, ?_⟩
  · rw [(setJobData_eq s val.toNat).2 htakes, restoreLobes_of_none hlobes]
  · exact mget_mset_same ..
  · unfold jobOf setJob
    rw [mget_mset_other _ _ _ hk, hjobs]
  · have hturn : epochTurned s j new = s := if_pos hsame
    rw [hturn]
    exact ⟨rfl, rfl⟩
  · unfold setJob
    rw [hframe]

/-! ### RT_DATA -/

/-- What a write of RT_DATA does where no enabled queue names the table. -/
theorem setRtData_free {v : Nat} (hfree : tableInUse s (rg s routerSlot rtSelTable) = false) : setRtData s v =
    if rg s routerSlot rtSelHdr = 1 then
      if v % 65536 > 32768 then s
      else { s with
        rtHdr := mset 0 s.rtHdr (rg s routerSlot rtSelTable) (v / 65536 % 4096 * 65536 + v % 65536) }
    else { s with
      rtEnt := mset 0 s.rtEnt (rg s routerSlot rtSelTable * 32768 + rg s routerSlot rtSelIndex) (v % 65536) } := by
  rw [setRtData, if_neg (by simp [hfree]), bits_zero_lo]
  exact if_congr decide_eq_true_iff rfl rfl

/-- Settles O42: JOB_DATA by what a value is ignored for, RT_DATA by the use of the table. -/
theorem jobsAndRoutesWritten : Obligations.JobsAndRoutesWritten := by
  intro r val s hruns hreach v j old new ends
  have hnew : new = jobWritten v := (jobWritten_eq val.isLt).symm
  rw [hnew]
  refine ⟨fun hign => ?_, fun hj hres hreturn hends hidle => ?_, ?_⟩
  · refine settles_jobDataWrite hruns hreach ((setJobData_eq s v).1 ?_)
    simp only [ends, hnew] at hign
    exact hign
  · refine jobDataWrite_takes hruns hreach ?_ hidle
    rintro (h | h | h | h)
    · exact hj h
    · exact hres h
    · exact hreturn h
    · refine hends ?_
      simp only [ends, hnew]
      exact h
  · intro n k
    refine ⟨fun huse => settles_rtDataWrite hruns hreach (if_pos huse), fun hfree => ⟨fun hhdr hbig => ?_,
      fun hhdr hfits => ?_, fun hent => ?_⟩⟩
    · exact settles_rtDataWrite hruns hreach ((setRtData_free hfree).trans ((if_pos hhdr).trans (if_pos hbig)))
    · refine ⟨{ s with rtHdr := mset 0 s.rtHdr n (v / 65536 % 4096 * 65536 + v % 65536) },
        settles_rtDataWrite hruns hreach ((setRtData_free hfree).trans ((if_pos hhdr).trans (if_neg ?_))), ?_, ?_, rfl⟩
      · exact Nat.not_lt.mpr hfits
      · unfold rtJob
        rw [mget_mset_same]
        unfold bits
        omega
      · unfold rtCount
        rw [mget_mset_same, bits_zero_lo]
        omega
    · exact settles_rtDataWrite hruns hreach ((setRtData_free hfree).trans (if_neg hent))

end Sys2Proof.Machine
end

section
/-!
PROOFS. Command ports and completion rings: their registers, records and vectors (R325, R328 to R330).
-/

namespace Sys2Proof.Machine

variable {s : State} {r : Requester} {p : Half}

/-! ### PORT_CFG, RING_CFG and RING_HEAD -/

/-- A write of PORT_CFG to a host interface that takes accesses. -/
theorem settles_portCfgWrite {u : State} {val : BitVec 32} (hruns : performs s (hiSlot p) = true)
    (hreach : reached s r = true) (hu : setPortCfg s p val.toNat = u) : Settles (.portCfgWrite r p val) s u :=
  congrArg (fun t => Host.Outcome.next (settle t))
    ((guardedWrite_of_performs 0xA0 _ (awake_hiSlot p) hruns hreach).trans hu)

/-- A write of RING_CFG to a host interface that takes accesses. -/
theorem settles_ringCfgWrite {u : State} {val : BitVec 32} (hruns : performs s (hiSlot p) = true)
    (hreach : reached s r = true) (hu : setRingCfg s p val.toNat = u) : Settles (.ringCfgWrite r p val) s u :=
  congrArg (fun t => Host.Outcome.next (settle t))
    ((guardedWrite_of_performs 0x90 _ (awake_hiSlot p) hruns hreach).trans hu)

/-- A write of RING_HEAD to a host interface that takes accesses. -/
theorem settles_ringHeadWrite {u : State} {val : BitVec 32} (hruns : performs s (hiSlot p) = true)
    (hreach : reached s r = true) (hu : setRingHead s p val.toNat = u) : Settles (.ringHeadWrite r p val) s u :=
  congrArg (fun t => Host.Outcome.next (settle t))
    ((guardedWrite_of_performs 0x94 _ (awake_hiSlot p) hruns hreach).trans hu)

/-- The top bit of a 32-bit value says that it is large. -/
theorem bit_top_eq_le {v : Nat} (hv : v < 2 ^ 32) : bit v 31 = decide (2 ^ 31 ≤ v) := by
  rw [bit_top hv]
  exact decide_eq_decide.mpr (by omega)

section
variable {n v : Nat}

/-- Port 255 has no configuration. -/
theorem setPortCfg_port255 (hsel : rg s (hiSlot p) portSel = 255) : setPortCfg s p v = s := if_pos hsel

/-- An enabled port without commands is disabled. -/
theorem setPortCfg_disables (hv : v < 2 ^ 31) (hsel : rg s (hiSlot p) portSel = n) (hn : n ≠ 255)
    (hen : (cportOf s p n).en = true) (hcmds : (cportOf s p n).cmds = []) :
    setPortCfg s p v = updCPort s p n (fun c => { c with en := false }) := by
  subst hsel
  have hoff : (!bit v 31) = true ∧ (cportOf s p (rg s (hiSlot p) portSel)).cmds.isEmpty = true := by
    rw [bit_top_eq_le (Nat.lt_trans hv (by decide)), hcmds, decide_eq_false (Nat.not_le.mpr hv)]
    exact ⟨rfl, rfl⟩
  exact (if_neg hn).trans ((if_pos hen).trans (if_pos hoff))

/-- An enabled port keeps its configuration while it holds commands, and where the write does not disable it. -/
theorem setPortCfg_kept (hv : v < 2 ^ 32) (hsel : rg s (hiSlot p) portSel = n)
    (hen : (cportOf s p n).en = true) (hkept : 2 ^ 31 ≤ v ∨ (cportOf s p n).cmds ≠ []) :
    setPortCfg s p v = s := by
  subst hsel
  have hon : ¬((!bit v 31) = true ∧ (cportOf s p (rg s (hiSlot p) portSel)).cmds.isEmpty = true) := by
    rw [bit_top_eq_le hv, List.isEmpty_iff]
    rintro ⟨hlow, hnone⟩
    obtain hhigh | hsome := hkept
    · rw [decide_eq_true hhigh] at hlow
      exact Bool.false_ne_true hlow
    · exact hsome hnone
  by_cases hn : rg s (hiSlot p) portSel = 255
  · exact setPortCfg_port255 hn
  · exact (if_neg hn).trans ((if_pos hen).trans (if_neg hon))

/-- A disabled port takes its fields. -/
theorem setPortCfg_takes (hv : v < 2 ^ 32) (hsel : rg s (hiSlot p) portSel = n) (hn : n ≠ 255)
    (hen : (cportOf s p n).en = false) : setPortCfg s p v = updCPort s p n (fun c => { c with
      en := decide (2 ^ 31 ≤ v), kind := v / 2 ^ 30 % 2, queue := v / 2 ^ 24 % 64
      ring := v / 2 ^ 18 % 64, seq := if 2 ^ 31 ≤ v then 1 else c.seq }) := by
  subst hsel
  refine (if_neg hn).trans ((if_neg (by simp [hen])).trans ?_)
  rw [bit_top_eq_le hv]
  simp only [decide_eq_true_eq]
  rfl

end

/-- What RING_CFG makes of a ring: its fields, and EN with the positions. -/
def ringWritten (x : Ring) (used : Bool) (v : Nat) : Ring :=
  let y := { x with
    size := if 8 ≤ v / 2 ^ 27 % 16 then v / 2 ^ 27 % 16 else x.size
    vector := v / 2 ^ 16 % 2048, irqEn := decide (v / 2 ^ 15 % 2 = 1), holdoff := v % 256 }
  if 2 ^ 31 ≤ v then if x.en then y else { y with en := true, tail := 0, head := 0 }
  else if used then y else { y with en := false }

/-- A write of RING_CFG changes the selected ring. -/
theorem setRingCfg_eq {v : Nat} (s : State) (p : Half) (hv : v < 2 ^ 32) :
    setRingCfg s p v = updRing s p (rg s (hiSlot p) ringSel) (fun x =>
      ringWritten x (ringInUse s p (rg s (hiSlot p) ringSel)) v) := by
  have hirq : bit v 15 = decide (v / 2 ^ 15 % 2 = 1) := by rw [bit, Nat.testBit_eq_decide_div_mod_eq]
  rw [setRingCfg, bit_top_eq_le hv, hirq, bits_zero_lo]
  simp only [decide_eq_true_eq]
  rfl

/-- The fields of the ring that RING_CFG leaves. -/
theorem ringWritten_fields (x : Ring) (used : Bool) (v : Nat) :
    (ringWritten x used v).size = (if 8 ≤ v / 2 ^ 27 % 16 then v / 2 ^ 27 % 16 else x.size) ∧
    (ringWritten x used v).vector = v / 2 ^ 16 % 2048 ∧
    (ringWritten x used v).irqEn = decide (v / 2 ^ 15 % 2 = 1) ∧ (ringWritten x used v).holdoff = v % 256 := by
  unfold ringWritten
  dsimp only
  split_ifs
  all_goals exact ⟨rfl, rfl, rfl, rfl⟩

/-- A ring that is enabled starts empty; one that is enabled already keeps its positions. -/
theorem ringWritten_enables (x : Ring) (used : Bool) {v : Nat} (hv : 2 ^ 31 ≤ v) :
    (ringWritten x used v).en = true ∧
    (x.en = false → (ringWritten x used v).tail = 0 ∧ (ringWritten x used v).head = 0) := by
  unfold ringWritten
  dsimp only
  rw [if_pos hv]
  split
  next hen => exact ⟨hen, fun hoff => absurd (hen.symm.trans hoff) (by decide)⟩
  next => exact ⟨rfl, fun _ => ⟨rfl, rfl⟩⟩

/-- A ring in use is not disabled. -/
theorem ringWritten_disables (x : Ring) (used : Bool) {v : Nat} (hv : v < 2 ^ 31) :
    (ringWritten x used v).en = (x.en && used) ∧
    (ringWritten x used v).tail = x.tail ∧ (ringWritten x used v).head = x.head := by
  unfold ringWritten
  dsimp only
  rw [if_neg (Nat.not_le.mpr hv)]
  cases used
  · exact ⟨(Bool.and_false _).symm, rfl, rfl⟩
  · exact ⟨(Bool.and_true _).symm, rfl, rfl⟩

/-! ### Records and vectors -/

section
variable (k : Nat)

/-- Without a record, or without room for one, nothing is written. -/
theorem writeRecord_waits (h : (ringOf s p k).waiting = [] ∨ (ringOf s p k).en = false ∨
    2 ^ (ringOf s p k).size ≤ ringUsed (ringOf s p k)) : writeRecord s p k = s := by
  unfold writeRecord
  dsimp only
  split
  next => rfl
  next c cs hwait =>
    refine if_pos ?_
    obtain hnone | hoff | hfull := h
    · exact absurd (hwait.symm.trans hnone) (List.cons_ne_nil c cs)
    · exact .inl (by rw [hoff]; rfl)
    · exact .inr hfull

/-- The bytes of a record, its last two one by one. -/
theorem recordBytes_eq (c : CRec) (phase : Nat) : recordBytes c phase =
    leBytes 8 c.handle ++ leBytes 8 c.result ++ leBytes 8 c.time ++ leBytes 4 c.detail ++
      leBytes 2 c.status ++ [0, BitVec.ofNat 8 phase] := by
  unfold recordBytes
  rw [List.append_assoc]
  rfl

@[simp] theorem ringOf_sendMsix (s : State) (q v p k : Nat) : ringOf (sendMsix s q v) p k = ringOf s p k := by
  unfold sendMsix
  split <;> rfl

@[simp] theorem hostOut_sendMsix (s : State) (q v : Nat) : (sendMsix s q v).hostOut = s.hostOut := by
  unfold sendMsix
  split <;> rfl

/-- A record that has room is written at the tail, and leaves the ring's list. -/
theorem writeRecord_writes {c : CRec} {cs : List CRec} (hwait : (ringOf s p k).waiting = c :: cs)
    (hen : (ringOf s p k).en = true) (hroom : ringUsed (ringOf s p k) < 2 ^ (ringOf s p k).size) :
    (writeRecord s p k).hostOut = s.hostOut ++
      [⟨p, (ringOf s p k).base + 32 * ((ringOf s p k).tail % 2 ^ (ringOf s p k).size),
        recordBytes c (ringPhase (ringOf s p k))⟩] ∧
    (ringOf (writeRecord s p k) p k).tail = ((ringOf s p k).tail + 1) % 65536 ∧
    (ringOf (writeRecord s p k) p k).waiting = cs ∧
    (c.irq = false → (writeRecord s p k).msix = s.msix) := by
  have htakes : ¬((!(ringOf s p k).en) = true ∨ 2 ^ (ringOf s p k).size ≤ ringUsed (ringOf s p k)) := by
    rw [hen]
    exact not_or.mpr ⟨by decide, Nat.not_le.mpr hroom⟩
  unfold writeRecord
  dsimp only
  rw [hwait]
  dsimp only
  rw [if_neg htakes]
  by_cases hirq : (c.irq && (ringOf s p k).irqEn) = true
  · rw [if_pos hirq]
    have hset : c.irq ≠ false := fun h => by simp [h] at hirq
    split
    · exact ⟨rfl, congrArg Ring.tail (ringOf_updRing_same ..), congrArg Ring.waiting (ringOf_updRing_same ..),
        fun h => absurd h hset⟩
    · rw [ringOf_sendMsix, hostOut_sendMsix]
      exact ⟨rfl, congrArg Ring.tail (ringOf_updRing_same ..), congrArg Ring.waiting (ringOf_updRing_same ..),
        fun h => absurd h hset⟩
  · rw [if_neg hirq]
    exact ⟨rfl, congrArg Ring.tail (ringOf_updRing_same ..), congrArg Ring.waiting (ringOf_updRing_same ..),
      fun _ => rfl⟩

end

/-- What the end of a holdoff does, by what the ring owes. -/
theorem holdoffEnds_eq (s : State) (p : Half) (k : Nat) : holdoffEnds s p k =
    if (ringOf s p k).holding = true then
      if (ringOf s p k).owed = true then
        sendMsix (updRing s p k (fun x => { x with owed := false })) p (ringOf s p k).vector
      else updRing s p k (fun x => { x with holding := false })
    else s := by
  unfold holdoffEnds
  cases h : (ringOf s p k).holding
  · simp [h]
  · simp [h]

/-- Settles O46: the registers by the state of the port and of the ring that they select, a record by the room of
its ring, a holdoff by what is owed. -/
theorem portsAndRings : Obligations.PortsAndRings := by
  intro r p val s
  rw [hiSlot_eq]
  intro v m
  have hv : v < 2 ^ 32 := val.isLt
  refine ⟨fun hruns hreach => ?_, fun k => ?_⟩
  · intro n c put
    refine ⟨fun hn => ?_, fun hn hen hlow hcmds => ?_, fun hen hkept => ?_, fun hn hen => ?_, ?_⟩
    · exact settles_portCfgWrite hruns hreach (setPortCfg_port255 hn)
    · exact settles_portCfgWrite hruns hreach (setPortCfg_disables hlow rfl hn hen hcmds)
    · exact settles_portCfgWrite hruns hreach (setPortCfg_kept hv rfl hen hkept)
    · exact settles_portCfgWrite hruns hreach (setPortCfg_takes hv rfl hn hen)
    intro k x head
    refine ⟨?_, fun hfits => ?_, fun hover => ?_⟩
    · refine ⟨_, settles_ringCfgWrite hruns hreach (setRingCfg_eq s p hv), rfl, ?_⟩
      dsimp only
      rw [ringOf_updRing_same]
      obtain ⟨hsize, hvector, hirq, hhold⟩ := ringWritten_fields x (ringInUse s p k) v
      exact ⟨hsize, hvector, hirq, hhold, ringWritten_enables x _, ringWritten_disables x _⟩
    · exact settles_ringHeadWrite hruns hreach (if_pos hfits)
    · exact settles_ringHeadWrite hruns hreach (if_neg (Nat.not_le.mpr hover))
  · intro x put
    refine ⟨fun hwaits => ?_, fun c cs hwait hen hroom => ?_, fun hoff => ?_, fun hon hnone => ?_,
      fun hon howed => ?_⟩
    · exact congrArg Host.Outcome.next (writeRecord_waits k.val hwaits)
    · obtain ⟨hout, htail, hrest, hmsix⟩ := writeRecord_writes k.val hwait hen hroom
      refine ⟨writeRecord s p k, rfl, ?_, htail, hrest, hmsix⟩
      rw [hout, recordBytes_eq]
      rfl
    · exact congrArg Host.Outcome.next ((holdoffEnds_eq s p k).trans (if_neg (by simp [x, hoff])))
    · exact congrArg Host.Outcome.next
        ((holdoffEnds_eq s p k).trans ((if_pos hon).trans (if_neg (by simp [x, hnone]))))
    · exact congrArg Host.Outcome.next ((holdoffEnds_eq s p k).trans ((if_pos hon).trans (if_pos howed)))

end Sys2Proof.Machine
end

section
/-!
PROOFS. A read of SUBMIT: what it answers, the accepted command, and the post to a queue (R271, R323 to R325).
-/

namespace Sys2Proof.Machine

variable {s : State} {p : Half} {n : Fin 256} {width : Nat}

/-- Does a read of SUBMIT of a port of command kind find it BUSY? -/
def PortFull (s : State) (p : Half) (n : Fin 256) : Prop :=
  n ≠ 255 ∧ ((cportOf s p n).en = false ∨ 64 ≤ (cportOf s p n).cmds.length)

/-- The state after an accepted command: its handle is answered, and the port lists it. -/
def acceptedState (s : State) (p : Half) (n : Fin 256) (queueKind : Bool) : State :=
  { s with
    resp := .value (portHandle s p n)
    cports := mset {} s.cports (256 * p.val + n.val)
      { cportOf s p n with
        seq := nextSeq (cportOf s p n).seq
        cmds := (cportOf s p n).cmds ++
          [{ handle := portHandle s p n, raw := (cportOf s p n).desc, queueKind := queueKind
             started := queueKind }] } }

/-- The sequence number wraps to 1 before it is all ones. -/
theorem nextSeq_eq (q : Nat) : nextSeq q = if q + 1 < 2 ^ 48 - 1 then q + 1 else 1 := by
  unfold nextSeq
  split_ifs
  · omega
  · rfl
  · rfl
  · omega

/-- Port 255 is the one that the number 255 names. -/
theorem portNumber_ne_255 : (n.val ≠ 255) ↔ n ≠ 255 := by
  rw [ne_eq, ne_eq, Fin.ext_iff]
  rfl

/-- BUSY of a port that is not of queue kind. -/
theorem submitBusy_iff_of_command (hkind : n = 255 ∨ (cportOf s p n).kind = 0) :
    submitBusy s p n = true ↔ PortFull s p n := by
  unfold submitBusy PortFull
  dsimp only
  rw [Bool.and_eq_true, decide_eq_true_eq, portNumber_ne_255]
  refine and_congr_right fun hn => ?_
  rw [hkind.resolve_left hn]
  simp

/-- BUSY of a port of queue kind: its queue's room counts too. -/
theorem submitBusy_iff_of_queue (hn : n ≠ 255) (hkind : (cportOf s p n).kind = 1) :
    submitBusy s p n = true ↔ PortFull s p n ∨ 256 ≤ (cqOf s (cportOf s p n).queue).ops.length := by
  unfold submitBusy PortFull queueRoom
  dsimp only
  rw [Bool.and_eq_true, decide_eq_true_eq, portNumber_ne_255, hkind]
  simp [hn, or_assoc]

/-- A busy port answers all ones. -/
theorem submit_busy (hbusy : submitBusy s p n = true) : submit s p n = { s with resp := .value (2 ^ 64 - 1) } :=
  if_pos hbusy

/-- A port that is not busy accepts its command. -/
theorem submit_accepts (hbusy : submitBusy s p n = false) :
    submit s p n = acceptedState s p n (decide ((cportOf s p n).kind = 1) && decide (n ≠ 255)) := by
  have hn : decide (n.val ≠ 255) = decide (n ≠ 255) := decide_eq_decide.mpr portNumber_ne_255
  refine (if_neg (by simp [hbusy])).trans ?_
  rw [hn]
  rfl

/-- Only a port of queue kind does not take commands. -/
theorem takesCommands_of_command (hkind : n = 255 ∨ (cportOf s p n).kind = 0) : takesCommands s p n = true := by
  unfold takesCommands
  obtain rfl | h := hkind
  · rfl
  · simp [h]

/-- The accepted state of a port that is not of queue kind. -/
theorem submit_of_command (hkind : n = 255 ∨ (cportOf s p n).kind = 0) (hfree : ¬PortFull s p n) :
    submit s p n = acceptedState s p n false := by
  have hbusy : submitBusy s p n = false :=
    Bool.eq_false_iff.mpr fun h => hfree ((submitBusy_iff_of_command hkind).mp h)
  have hqueue : (decide ((cportOf s p n).kind = 1) && decide (n ≠ 255)) = false := by
    obtain rfl | h := hkind
    · simp
    · simp [h]
  rw [submit_accepts hbusy, hqueue]

/-- A read of SUBMIT whose DESC names the row's opcode. -/
theorem submitCmd_of_op {ok : Nat → Bool} (hkind : n = 255 ∨ (cportOf s p n).kind = 0)
    (hop : ok ((cportOf s p n).desc % 256) = true) :
    submitCmd s p n width ok = if width = 8 then settle (submit s p n) else badSubmit s p width := by
  have hdesc : ok (descOp s p n) = true := by
    rw [descOp, bits_zero_lo]
    exact hop
  exact if_pos (by rw [takesCommands_of_command hkind, hdesc]; rfl)

/-- A read of SUBMIT that is not 8 bytes wide raises HI_BAD_ACCESS. -/
theorem badSubmit_eq (s : State) (p : Half) (width : Nat) : badSubmit s p width = settle { s with
    resp := .value (2 ^ (8 * width) - 1)
    due := s.due ++ [{ slot := 0x103 + 0x100 * p.val, src := 0 }] } :=
  congrArg settle (badAccess_portReq { s with resp := .value (2 ^ (8 * width) - 1) } p)

/-! ### Posts -/

/-- Reading no sector in error leaves everything as it is. -/
theorem readSource_of_no_errs (h : s.errs = []) (q a k : Nat) : (readSource s q a k).1 = s := by
  have hnone (b m : Nat) : errsIn s b m = [] := by rw [errsIn, h]; rfl
  unfold readSource checkRead
  rw [hnone]
  rfl

/-- Nothing is found by the reads of a posted descriptor where there is no table in memory, or no sector in error. -/
theorem auxReads_find_nothing {c : Cq} {w : Nat} (q : Nat) (h : auxReads c w = [] ∨ s.errs = []) :
    forEach (auxReads c w) s (fun s r => (readSource s q r.1 r.2).1) = s := by
  obtain hnone | hclean := h
  · rw [hnone]
    rfl
  · exact forEach_eq_self _ _ _ fun r _ => readSource_of_no_errs hclean q r.1 r.2

/-- A valid descriptor enters a started queue with the next id. -/
theorem postOp_enters {q w : Nat} (poster : Poster) (hstate : (cqOf s q).state = 1) (hvalid : qdValid s q w = true)
    (hclean : auxReads (cqOf s q) w = [] ∨ s.errs = []) : ∃ o : Op,
    o.id = (cqOf s q).nextId ∧ o.desc = w ∧ o.poster = poster ∧ o.started = false ∧ o.ready = false ∧
    ∃ k, (postOp s q w poster).1 = updCq s q (fun c => { c with
      ops := c.ops ++ [o], nextId := c.nextId + 1, num := k }) := by
  have hrun : ¬(cqOf s q).state ≠ 1 := not_not.mpr hstate
  unfold postOp
  dsimp only
  rw [if_neg hrun, if_neg hrun, auxReads_find_nothing q hclean, if_neg (by simp [hvalid])]
  exact ⟨_, rfl, rfl, rfl, rfl, rfl, _, rfl⟩

/-- A queue that is stopped answers Q_STOPPED to a post of the host. -/
theorem postOp_stopped {q w h : Nat} {p : Nat} (hstate : (cqOf s q).state ≠ 1) :
    ∃ result, (postOp s q w (.host p h)).1 = complete s h stQStopped result := by
  unfold postOp
  dsimp only
  rw [if_pos hstate, if_pos hstate]
  exact ⟨_, rfl⟩

/-- A post through a port that is not busy. -/
theorem queuePostHost_settles (hn : n ≠ 255) (hkind : (cportOf s p n).kind = 1) (hbusy : submitBusy s p n = false) :
    Settles (.queuePostHost p n 8) s (postOp (acceptedState s p n true) (cportOf s p n).queue (cportOf s p n).desc
      (.host p (portHandle s p n))).1 := by
  have htakes : ¬takesCommands s p n = true := by
    unfold takesCommands
    rw [hkind]
    simpa using portNumber_ne_255.mpr hn
  have hqueue : (decide ((cportOf s p n).kind = 1) && decide (n ≠ 255)) = true := by simp [hkind, hn]
  refine congrArg Host.Outcome.next
    ((if_neg htakes).trans ((if_neg (not_not.mpr rfl)).trans ((if_neg (by simp [hbusy])).trans ?_)))
  have hport : cportOf (acceptedState s p n true) p n = { cportOf s p n with
      seq := nextSeq (cportOf s p n).seq
      cmds := (cportOf s p n).cmds ++ [{ handle := portHandle s p n, raw := (cportOf s p n).desc
                                         queueKind := true, started := true }] } :=
    mget_mset_same ..
  change settle (postOp (submit s p n) (cportOf (submit s p n) p n).queue (cportOf (submit s p n) p n).desc
    (.host p (portHandle s p n))).1 = _
  rw [submit_accepts hbusy, hqueue, hport]

/-- A post through a busy port. -/
theorem queuePostHost_busy (hn : n ≠ 255) (hkind : (cportOf s p n).kind = 1) (hbusy : submitBusy s p n = true) :
    Ends (.queuePostHost p n 8) s { s with resp := .value (2 ^ 64 - 1) } := by
  have htakes : ¬takesCommands s p n = true := by
    unfold takesCommands
    rw [hkind]
    simpa using portNumber_ne_255.mpr hn
  exact congrArg Host.Outcome.next
    ((if_neg htakes).trans ((if_neg (not_not.mpr rfl)).trans ((if_pos hbusy).trans (submit_busy hbusy))))

/-- Settles O47: a command's read of SUBMIT by its width and BUSY, a post by the room and the state of its queue. -/
theorem submitAccepts : Obligations.SubmitAccepts := by
  intro p n width s x
  rw [← nextSeq_eq x.seq]
  intro h rows accepted full
  refine ⟨fun k hk hkind hop => ?_, fun hn hkind hwidth => ⟨fun hbusy => ?_, fun hfull hroom => ?_⟩⟩
  · have hrow : exec k.1 s = .next (submitCmd s p n width k.2) := by
      simp only [rows, List.mem_cons, List.not_mem_nil, or_false] at hk
      obtain rfl | rfl | rfl | rfl | rfl | rfl := hk
      all_goals rfl
    rw [submitCmd_of_op hkind hop] at hrow
    refine ⟨fun hwide => ?_, fun hwidth hfull => ?_, fun hwidth hfree => ?_⟩
    · rw [if_neg hwide, badSubmit_eq] at hrow
      exact hrow
    · rw [if_pos hwidth, submit_busy ((submitBusy_iff_of_command hkind).mpr hfull)] at hrow
      exact hrow
    · rw [if_pos hwidth, submit_of_command hkind hfree] at hrow
      exact hrow
  · subst hwidth
    exact queuePostHost_busy hn hkind ((submitBusy_iff_of_queue hn hkind).mpr hbusy)
  · subst hwidth
    have hbusy : submitBusy s p n = false := Bool.eq_false_iff.mpr fun h =>
      ((submitBusy_iff_of_queue hn hkind).mp h).elim hfull (Nat.not_le.mpr hroom)
    have hpost := queuePostHost_settles hn hkind hbusy
    intro q
    refine ⟨fun hstate hvalid hclean => ?_, fun hstate => ?_⟩
    · obtain ⟨o, hid, hdesc, hposter, hstart, hready, k, hops⟩ :=
        postOp_enters (s := acceptedState s p n true) (.host p (portHandle s p n)) hstate hvalid hclean
      rw [hops] at hpost
      refine ⟨_, hpost, ?_, ⟨o, ?_, hid, hdesc, hposter, hstart, hready⟩, rfl⟩
      · exact congrArg Cq.nextId (cqOf_updCq_same ..)
      · exact congrArg Cq.ops (cqOf_updCq_same ..)
    · obtain ⟨w, hstop⟩ := postOp_stopped (s := acceptedState s p n true) (w := x.desc) (h := portHandle s p n)
        (p := p.val) hstate
      rw [hstop] at hpost
      exact ⟨w, hpost⟩

end Sys2Proof.Machine
end

section
/-!
PROOFS. A command that a quiet package accepts starts at once, and nothing else does (R323 to R327).
-/

namespace Sys2Proof.Machine

/-! ### A package that is quiet but for its host commands -/

/-- Nothing is left to follow a command but host commands that are to start, and what shows the engines' work. -/
structure Still (s : State) : Prop where
  due    : s.due = []
  remote : s.remote.waiting = []
  bars   : s.barWait = []
  stores : s.posted = []
  boots  : ∀ r ∈ s.resets, r.scope = .full → r.wait = true ∨ r.booted = true
  idle   : ∀ d, d < 4 → (die s d).live = [] ∧ (seqOf s d).phases = [] ∧ seqRunning s d = false ∧
    (seqOf s d).wants = false

/-- A quiet package is still. -/
theorem still_of_quiet {s : State} (hq : Quiet s) : Still s :=
  ⟨hq.due, hq.remote, hq.bars, hq.stores, hq.boots, hq.idle⟩

section
variable {s : State} (hs : Still s)
include hs

/-- What an access answers, the command ports, the rings and the tests are not looked at. -/
theorem Still.frame (resp : Resp) (cports : Map CPort) (rings : Map Ring) (tests : List Test) (next : Nat) :
    Still { s with resp := resp, cports := cports, rings := rings, tests := tests, nextTest := next } :=
  ⟨hs.due, hs.remote, hs.bars, hs.stores, hs.boots, hs.idle⟩

theorem Still.flushPosted_eq : flushPosted s = s := by simp [flushPosted, hs.stores]

theorem Still.releaseBars_eq : releaseBars s = s := by
  have heq : { s with barWait := [] } = s := by rw [← hs.bars]
  rw [releaseBars, heq, forEach_of_nil hs.bars]

theorem Still.drain_eq (n : Nat) : drain n s = s := by
  cases n with
  | zero => rfl
  | succ n => simp [drain, hs.due]

theorem Still.takeEvents_eq : takeEvents s = s := by
  rw [takeEvents, hs.drain_eq]
  refine forEach_eq_self _ _ _ fun d hd => ?_
  obtain ⟨hlive, -, hrun, -⟩ := hs.idle d (List.mem_range.mp hd)
  have hheld : releaseHeld s d = s := by
    have hnone : released s d = [] := by rw [released, liveTasks, hlive]; rfl
    rw [releaseHeld, hnone]
    rfl
  rw [hheld, settleSeq, hrun]
  rfl

theorem Still.startWaiting_eq : startWaiting s = s := by
  refine forEach_eq_self _ _ _ fun d hd => ?_
  obtain ⟨-, -, -, hwants⟩ := hs.idle d (List.mem_range.mp hd)
  simp [hwants]

theorem Still.pumpWaiting_eq : pumpWaiting s = s := by
  have heq : { s with remote := { s.remote with waiting := [] } } = s := by rw [← hs.remote]
  rw [pumpWaiting, heq, forEach_of_nil hs.remote]

theorem Still.postWaiting_eq : postWaiting s = s := by
  refine forEach_eq_self _ _ _ fun d hd => ?_
  obtain ⟨-, hphases, -⟩ := hs.idle d (List.mem_range.mp hd)
  have hnone : startedPhases s d = [] := by rw [startedPhases, hphases]; rfl
  rw [forEach_of_nil hnone]

theorem Still.bootWhenDue_eq : bootWhenDue s = s := by
  have hnone : s.resets.any (fun r => r.scope = .full && !r.wait && !r.booted) = false := by
    rw [List.any_eq_false]
    intro r hr
    by_cases hf : r.scope = .full
    · obtain hw | hb := hs.boots r hr hf <;> simp [*]
    · simp [hf]
  rw [bootWhenDue, hnone]
  rfl

end

/-- PENDING of the engines is seen in their tremor counters alone. -/
theorem notePending_frame (s : State) : ∃ tremor free, notePending s = { s with tremor := tremor, free := free } :=
  ⟨_, _, rfl⟩

/-- A command port is what the map of the ports says. -/
theorem cportOf_congr {s t : State} (h : s.cports = t.cports) (p n : Nat) : cportOf s p n = cportOf t p n := by
  rw [cportOf, cportOf, h]

/-- Where no DMA runs, what follows a command on a still package is the start of the commands that wait. -/
theorem settle_of_still {s u : State} (hs : Still s) (hdma : ∀ p n, dmaOf s p n = none)
    (hpump : pumpHost (allCmds s).length s = u) (hu : Still u) : settle s = notePending u := by
  have hmove : pumpDmas s = s := forEach_eq_self _ _ _ fun k _ => pumpDma_of_none (hdma _ _) _
  simp only [settle, hs.flushPosted_eq, hs.releaseBars_eq, hs.takeEvents_eq, hs.startWaiting_eq, hs.pumpWaiting_eq,
    hmove, hpump, hu.postWaiting_eq, hu.takeEvents_eq, hu.bootWhenDue_eq]

/-! ### Writing a key twice -/

section
variable {α : Type} (m : Map α) (k : Nat) (v w : α)

theorem mins_mins : mins (mins m k v) k w = mins m k w := by
  induction m with
  | nil => simp [mins]
  | cons e m ih =>
    obtain ⟨a, x⟩ := e
    obtain hlt | heq | hgt := Nat.lt_trichotomy a k
    · simp [mins, hlt, ih]
    · simp [mins, heq]
    · simp [mins, Nat.not_lt.mpr hgt.le, hgt.ne']

theorem mdel_mins : mdel (mins m k v) k = mdel m k := by
  induction m with
  | nil => simp [mins, mdel]
  | cons e m ih =>
    obtain ⟨a, x⟩ := e
    unfold mins
    split_ifs with hlt heq
    · have hne : a ≠ k := by omega
      simp [mdel, hne, ih]
    · simp [mdel, heq]
    · simp [mdel]

/-- A second write of a key leaves nothing of the first, where the first stood in the map. -/
theorem mset_mset [DecidableEq α] {d v : α} (hv : v ≠ d) (w : α) : mset d (mset d m k v) k w = mset d m k w := by
  unfold mset
  rw [if_neg hv, mins_mins, mdel_mins]

/-- What a map holds after a write is the entry written or stood there. -/
theorem mem_mset [DecidableEq α] {d v : α} {e : Nat × α} (he : e ∈ mset d m k v) : e = (k, v) ∨ e ∈ m := by
  have hins : ∀ m : Map α, e ∈ mins m k v → e = (k, v) ∨ e ∈ m := by
    intro m
    induction m with
    | nil => exact fun h => .inl (List.mem_singleton.mp h)
    | cons x m ih =>
      obtain ⟨a, y⟩ := x
      unfold mins
      simp only [List.mem_cons]
      split_ifs
      · rintro h
        obtain h | h := List.mem_cons.mp h
        · exact .inr (.inl h)
        · exact (ih h).imp id .inr
      · exact fun h => (List.mem_cons.mp h).imp id .inr
      · exact fun h => (List.mem_cons.mp h).imp id List.mem_cons.mp
  have hdel : ∀ m : Map α, e ∈ mdel m k → e ∈ m := by
    intro m
    induction m with
    | nil => exact id
    | cons x m ih =>
      obtain ⟨a, y⟩ := x
      unfold mdel
      split_ifs
      · exact fun h => List.mem_cons_of_mem _ (ih h)
      · exact fun h => List.mem_cons.mpr ((List.mem_cons.mp h).imp id ih)
  unfold mset at he
  split_ifs at he
  · exact .inr (hdel m he)
  · exact hins m he

end

/-! ### The start of the only command -/

/-- Every listed command has started. -/
def AllStarted (s : State) : Prop := ∀ e ∈ s.cports, ∀ c ∈ e.2.cmds, c.started = true

/-- No port has a command to start. -/
theorem nextStart_of_allStarted {s : State} (h : AllStarted s) (p n : Nat) : nextStart s p n = none := by
  have hport : ∀ c ∈ (cportOf s p n).cmds, c.started = true := by
    obtain hd | hm := mget_eq_default_or_mem ({} : CPort) s.cports (256 * p + n)
    · intro c hc
      rw [cportOf, hd] at hc
      exact absurd hc (List.not_mem_nil)
    · exact h _ hm
  unfold nextStart
  dsimp only
  rw [List.takeWhile_eq_self_iff.mpr hport, List.drop_length]

/-- Rounds over started commands start nothing. -/
theorem pumpHost_of_allStarted {s : State} (h : AllStarted s) (m : Nat) : pumpHost m s = s := by
  have hnone : (allCmds s).any (fun c => !c.started) = false := by
    rw [List.any_eq_false]
    intro c hc
    obtain ⟨e, he, hmem⟩ := List.mem_flatMap.mp hc
    simp [h e he c hmem]
  cases m with
  | zero => rfl
  | succ m => rw [pumpHost, hnone]; rfl

/-- A change that one key of a list makes, once. -/
theorem forEach_once {xs : List Nat} {s u : State} (f : State → Nat → State) {k : Nat} (hk : k ∈ xs)
    (hfirst : f s k = u) (hagain : ∀ j, f u j = u) (hother : ∀ j, j ≠ k → f s j = s) : forEach xs s f = u := by
  induction xs with
  | nil => cases hk
  | cons x xs ih =>
    change forEach xs (f s x) f = u
    by_cases hx : x = k
    · rw [hx, hfirst]
      exact forEach_eq_self _ _ _ fun j _ => hagain j
    · rw [hother x hx]
      exact ih ((List.mem_cons.mp hk).resolve_left (Ne.symm hx))

/-- What the start of a command with a good header does, by its opcode. -/
def startByOp (s : State) (p n : Nat) (c : Cmd) : State :=
  match cmdOp c with
  | 0 => if bits c.raw 64 448 = 0 then complete s c.handle stOk 0 else complete s c.handle stMalformed 0
  | 1 => startDma s p n c
  | 2 => startSeqRun s p c
  | 3 => startAbort s p c
  | 4 => startTest s p c
  | 5 => startWaitFault s c
  | _ => complete s c.handle stMalformed 0

section
variable (s : State) (p : Half) (n : Fin 256)

/-- The accepted command before its start. -/
def waitingCmd : Cmd := { handle := portHandle s p n, raw := (cportOf s p n).desc }

/-- The accepted command as it runs. -/
def runningCmd : Cmd := { handle := portHandle s p n, raw := (cportOf s p n).desc, started := true }

/-- The port with these commands, after it has given a handle. -/
def portAfter (cmds : List Cmd) : CPort :=
  { cportOf s p n with seq := nextSeq (cportOf s p n).seq, cmds := cmds }

/-- The state in which the port has given a handle and holds these commands. -/
def withCmds (cmds : List Cmd) : State :=
  { s with
    resp := .value (portHandle s p n)
    cports := mset {} s.cports (256 * p.val + n.val) (portAfter s p n cmds) }

/-- The state in which the command has ended with this record. -/
def afterRecord (status result : Nat) : State :=
  updRing (withCmds s p n []) p (cportOf s p n).ring (fun r => { r with waiting := r.waiting ++
    [⟨portHandle s p n, result, s.ft.t, 0, status, cmdIrq (runningCmd s p n)⟩] })

/-- The record waits in the port's ring. -/
theorem ringOf_afterRecord (status result : Nat) :
    (ringOf (afterRecord s p n status result) p (cportOf s p n).ring).waiting =
      (ringOf s p (cportOf s p n).ring).waiting ++
        [⟨portHandle s p n, result, s.ft.t, 0, status, cmdIrq (runningCmd s p n)⟩] := by
  unfold afterRecord
  rw [ringOf_updRing_same]
  rfl

@[simp] theorem cportOf_withCmds (cmds : List Cmd) : cportOf (withCmds s p n cmds) p n = portAfter s p n cmds :=
  mget_mset_same ..

end

/-- The hypotheses under which a command is the only one of its package. -/
structure OnlyCommand (s : State) (p : Half) (n : Fin 256) : Prop where
  quiet : Quiet s
  en    : (cportOf s p n).en = true
  kind  : (cportOf s p n).kind = 0
  cmds  : (cportOf s p n).cmds = []
  seq   : (cportOf s p n).seq < 2 ^ 48
  port  : n.val ≠ 255

section
variable {s : State} {p : Half} {n : Fin 256} (ho : OnlyCommand s p n)
include ho

/-- The port stands in the list of ports: it is enabled. -/
theorem OnlyCommand.portAfter_ne_default (cmds : List Cmd) : portAfter s p n cmds ≠ {} := by
  intro h
  have hen : (cportOf s p n).en = false := congrArg CPort.en h
  exact Bool.false_ne_true (hen.symm.trans ho.en)

/-- The port's commands change a second time. -/
theorem OnlyCommand.updCPort_withCmds (cmds : List Cmd) (f : List Cmd → List Cmd) :
    updCPort (withCmds s p n cmds) p n (fun x => { x with cmds := f x.cmds }) = withCmds s p n (f cmds) := by
  unfold updCPort
  rw [cportOf_withCmds]
  change { s with
    resp := _, cports := mset {} (mset {} s.cports (256 * p.val + n.val) _) (256 * p.val + n.val) _ } = _
  rw [mset_mset _ _ (ho.portAfter_ne_default cmds)]
  rfl

/-- The read of SUBMIT accepts the command. -/
theorem OnlyCommand.submit_eq : submit s p n = withCmds s p n [waitingCmd s p n] := by
  have hfree : ¬PortFull s p n := by
    rintro ⟨-, hoff | hmany⟩
    · exact Bool.false_ne_true (hoff.symm.trans ho.en)
    · rw [ho.cmds] at hmany
      exact absurd hmany (by decide)
  rw [submit_of_command (.inr ho.kind) hfree, acceptedState, ho.cmds]
  rfl

/-- The command is marked as started. -/
theorem OnlyCommand.updCmd_started : updCmd (withCmds s p n [waitingCmd s p n]) p n
    (portHandle s p n) (fun c => { c with started := true }) = withCmds s p n [runningCmd s p n] := by
  rw [updCmd, ho.updCPort_withCmds]
  congr 1
  exact if_pos (decide_eq_true rfl)

/-- The port of the handle. -/
theorem OnlyCommand.handlePort_eq : handlePort (portHandle s p n) = (p.val, n.val) := by
  have hseq := ho.seq
  have hn := n.isLt
  have hport : portHandle s p n / 2 ^ 48 = 256 * p.val + n.val := by
    unfold portHandle handleOf
    omega
  rw [handlePort, hport]
  exact Prod.ext (by dsimp only; omega) (by dsimp only; omega)

/-- The command ends: it leaves its port, and its record waits for its ring. -/
theorem OnlyCommand.complete_eq (status result : Nat) :
    complete (withCmds s p n [runningCmd s p n]) (portHandle s p n) status result =
      afterRecord s p n status result := by
  have hfind : cmdOf (withCmds s p n [runningCmd s p n]) p n (portHandle s p n) = some (runningCmd s p n) := by
    rw [cmdOf, cportOf_withCmds]
    exact List.find?_cons_of_pos (decide_eq_true rfl)
  have hleave : [runningCmd s p n].filter (fun x => decide (x.handle ≠ portHandle s p n)) = [] :=
    List.filter_cons_of_neg (by simp [runningCmd])
  unfold complete
  rw [ho.handlePort_eq]
  dsimp only
  rw [hfind, ho.updCPort_withCmds, hleave, cportOf_withCmds]
  rfl

/-- All commands have started where the port's have. -/
theorem OnlyCommand.allStarted {cmds : List Cmd} (hcmds : ∀ c ∈ cmds, c.started = true) {t : State}
    (ht : t.cports = (withCmds s p n cmds).cports) : AllStarted t := by
  intro e he c hc
  rw [ht] at he
  obtain rfl | hold := mem_mset _ _ he
  · exact hcmds c hc
  · rw [ho.quiet.started e.1 e.2 hold] at hc
    exact absurd hc List.not_mem_nil

/-- A port other than the command's has none. -/
theorem OnlyCommand.nextStart_other (cmds : List Cmd) {k : Nat} (hk : k ≠ 256 * p.val + n.val) :
    nextStart (withCmds s p n cmds) (k / 256) (k % 256) = none := by
  have hkey : 256 * (k / 256) + k % 256 = k := by omega
  have hnone : (cportOf (withCmds s p n cmds) (k / 256) (k % 256)).cmds = [] := by
    have hkept : cportOf (withCmds s p n cmds) (k / 256) (k % 256) = cportOf s (k / 256) (k % 256) := by
      unfold cportOf
      rw [hkey]
      exact mget_mset_other _ _ _ hk
    rw [hkept, ho.quiet.cportOf_cmds]
  unfold nextStart
  rw [hnone]
  rfl

omit ho in
/-- The command starts where it may. -/
theorem nextStart_withCmds
    (hmay : mayStart (withCmds s p n [waitingCmd s p n]) p n []
      (waitingCmd s p n) = true) :
    nextStart (withCmds s p n [waitingCmd s p n]) p n =
      some (waitingCmd s p n) := by
  unfold nextStart
  rw [cportOf_withCmds]
  exact if_pos hmay

/-- What the command's start does follows at once, and nothing else. -/
theorem OnlyCommand.settle_submit {u : State} {cmds : List Cmd}
    (hmay : mayStart (withCmds s p n [waitingCmd s p n]) p n []
      (waitingCmd s p n) = true)
    (hstart : startCmd (withCmds s p n [waitingCmd s p n]) p n
      (waitingCmd s p n) = u)
    (hcmds : ∀ c ∈ cmds, c.started = true) (hports : u.cports = (withCmds s p n cmds).cports) (hu : Still u) :
    settle (submit s p n) = notePending u := by
  have hall : AllStarted u := ho.allStarted hcmds hports
  rw [ho.submit_eq]
  set c : Cmd := waitingCmd s p n
  set t : State := withCmds s p n [c]
  have hmem : (256 * p.val + n.val, portAfter s p n [c]) ∈ t.cports := by
    change _ ∈ mset _ _ _ _
    rw [mset, if_neg (ho.portAfter_ne_default [c])]
    exact mem_mins ..
  have hlisted : c ∈ allCmds t := List.mem_flatMap.mpr ⟨_, hmem, List.mem_singleton_self c⟩
  have hwaits : (allCmds t).any (fun x => !x.started) = true := List.any_eq_true.mpr ⟨c, hlisted, rfl⟩
  have hround : pumpRound t = u := by
    refine forEach_once _ (List.mem_map.mpr ⟨_, hmem, rfl⟩) ?_ (fun j => ?_) (fun j hj => ?_)
    · have hport : (256 * p.val + n.val) / 256 = p.val ∧ (256 * p.val + n.val) % 256 = n.val := by
        have := n.isLt
        omega
      dsimp only
      rw [hport.1, hport.2, nextStart_withCmds hmay]
      exact hstart
    · rw [nextStart_of_allStarted hall]
    · rw [ho.nextStart_other [c] hj]
  refine settle_of_still ((still_of_quiet ho.quiet).frame ..) (fun q m => ?_) ?_ hu
  · unfold dmaOf
    rw [List.find?_eq_none]
    intro x hx
    suffices x.started = false by simp [this]
    by_cases hkey : 256 * q + m = 256 * p.val + n.val
    · have hsame : cportOf t q m = portAfter s p n [c] := by
        unfold cportOf
        rw [hkey]
        exact mget_mset_same ..
      rw [hsame] at hx
      rw [List.mem_singleton.mp hx]
      rfl
    · have hsame : cportOf t q m = cportOf s q m := mget_mset_other _ _ _ hkey
      rw [hsame, ho.quiet.cportOf_cmds] at hx
      exact absurd hx List.not_mem_nil
  · obtain ⟨m, hm⟩ : ∃ m, (allCmds t).length = m + 1 :=
      Nat.exists_eq_add_one.mpr (List.length_pos_of_mem hlisted)
    rw [hm, pumpHost, if_pos hwaits, hround, pumpHost_of_allStarted hall]

/-! ### What each command does -/

omit ho in
/-- A command that is no DMA, and no SEQ_RUN that reads its job block, starts at once. -/
theorem mayStart_waitingCmd {t : State} (hdma : cmdOp (runningCmd s p n) ≠ 1)
    (hblock : cmdOp (runningCmd s p n) = 2 → jobBlockHeld t (waitingCmd s p n) = false) :
    mayStart t p n [] (waitingCmd s p n) = true := by
  have hone : decide (cmdOp (waitingCmd s p n) ≠ 1) = true := decide_eq_true hdma
  have htwo : (decide (cmdOp (waitingCmd s p n) ≠ 2) || !jobBlockHeld t (waitingCmd s p n)) = true := by
    by_cases h : cmdOp (runningCmd s p n) = 2
    · rw [hblock h]
      exact Bool.or_true _
    · exact Bool.or_eq_true_iff.mpr (.inl (decide_eq_true h))
  unfold mayStart
  rw [hone, Bool.or_assoc _ (decide (cmdOp (waitingCmd s p n) ≠ 2)), htwo]
  simp

/-- What a command's start does, from the state in which it has started. -/
theorem OnlyCommand.startCmd_eq : startCmd (withCmds s p n [waitingCmd s p n]) p n
      (waitingCmd s p n) =
    if headerOk (runningCmd s p n) = false ∨ cmdOp (runningCmd s p n) = 3 then
      complete (withCmds s p n [runningCmd s p n]) (portHandle s p n) stMalformed (stepResult s (runningCmd s p n))
    else startByOp (withCmds s p n [runningCmd s p n]) p n (runningCmd s p n) := by
  have hcond : ((!headerOk (runningCmd s p n)) = true ∨ (cmdOp (runningCmd s p n) = 3) ≠ (n.val = 255)) ↔
      headerOk (runningCmd s p n) = false ∨ cmdOp (runningCmd s p n) = 3 := by
    have hport : (n.val = 255) = False := eq_false ho.port
    rw [hport, Bool.not_eq_true', ne_eq, eq_iff_iff, iff_false, not_not]
  unfold startCmd
  dsimp only
  have hset := ho.updCmd_started
  change updCmd _ p n (waitingCmd s p n).handle _ = _ at hset
  rw [hset]
  exact if_congr hcond rfl rfl

/-- An accepted command of a row, as the step takes it. -/
theorem OnlyCommand.exec_submit {c : Instr} {ok : Nat → Bool} (hexec : exec c s = .next (submitCmd s p n 8 ok))
    (hop : ok (cmdOp (runningCmd s p n)) = true) : exec c s = .next (settle (submit s p n)) := by
  have hdesc : ok ((cportOf s p n).desc % 2 ^ 8) = true := by
    rw [← bits_zero_lo]
    exact hop
  rw [hexec, submitCmd_of_op (.inr ho.kind) hdesc, if_pos rfl]

end

/-- The command has ended with this status and result, and nothing else has changed in memory or in a register. -/
def EndsWith (s : State) (p : Half) (n : Fin 256) (c : Instr) (status result : Nat) : Prop :=
  ∃ t, Ends c s t ∧ t.resp = .value (portHandle s p n) ∧ (cportOf t p n).cmds = [] ∧
    (ringOf t p (cportOf s p n).ring).waiting = (ringOf s p (cportOf s p n).ring).waiting ++
      [⟨portHandle s p n, result, s.ft.t, 0, status, cmdIrq (runningCmd s p n)⟩] ∧
    t.mem = s.mem ∧ t.regs = s.regs

section
variable {s : State} {p : Half} {n : Fin 256} (ho : OnlyCommand s p n)
include ho

/-- A command whose start ends it has left its record. -/
theorem OnlyCommand.endsWith {c : Instr} {ok : Nat → Bool} {status result : Nat}
    (hexec : exec c s = .next (submitCmd s p n 8 ok)) (hop : ok (cmdOp (runningCmd s p n)) = true)
    (hmay : mayStart (withCmds s p n [waitingCmd s p n]) p n [] (waitingCmd s p n) = true)
    (hstart : startCmd (withCmds s p n [waitingCmd s p n]) p n (waitingCmd s p n) =
      complete (withCmds s p n [runningCmd s p n]) (portHandle s p n) status result) :
    EndsWith s p n c status result := by
  rw [ho.complete_eq] at hstart
  have hsettle : settle (submit s p n) = notePending (afterRecord s p n status result) :=
    ho.settle_submit (cmds := []) hmay hstart (fun _ h => absurd h List.not_mem_nil) rfl
      ((still_of_quiet ho.quiet).frame ..)
  obtain ⟨tremor, free, hnote⟩ := notePending_frame (afterRecord s p n status result)
  rw [hnote] at hsettle
  refine ⟨_, (ho.exec_submit hexec hop).trans (congrArg _ hsettle), rfl, ?_, ?_, rfl, rfl⟩
  · rw [cportOf_congr (t := withCmds s p n []), cportOf_withCmds]
    · rfl
    · rfl
  · exact ringOf_afterRecord s p n status result

/-- A command with a bad header, and an ABORT of another port than 255, is MALFORMED. -/
theorem OnlyCommand.startCmd_malformed
    (hbad : headerOk (runningCmd s p n) = false ∨ cmdOp (runningCmd s p n) = 3) :
    startCmd (withCmds s p n [waitingCmd s p n]) p n (waitingCmd s p n) =
      complete (withCmds s p n [runningCmd s p n]) (portHandle s p n) stMalformed (stepResult s (runningCmd s p n)) :=
  ho.startCmd_eq.trans (if_pos hbad)

/-- A command with a good header does what its opcode says. -/
theorem OnlyCommand.startCmd_op (hclean : headerOk (runningCmd s p n) = true)
    (hne : cmdOp (runningCmd s p n) ≠ 3) :
    startCmd (withCmds s p n [waitingCmd s p n]) p n (waitingCmd s p n) =
      startByOp (withCmds s p n [runningCmd s p n]) p n (runningCmd s p n) := by
  have hgood : ¬(headerOk (runningCmd s p n) = false ∨ cmdOp (runningCmd s p n) = 3) := by
    rw [hclean]
    exact not_or.mpr ⟨by decide, hne⟩
  exact ho.startCmd_eq.trans (if_neg hgood)

end

/-- RESULT of a command that is no SEQ_RUN. -/
theorem stepResult_of_op {c : Cmd} (s : State) (hop : cmdOp c ≠ 2) : stepResult s c = 0 := if_neg fun h => hop h.1

/-- Are the reserved fields of a header clear? -/
theorem headerOk_iff (c : Cmd) : headerOk c = true ↔ c.raw / 2 ^ 10 % 64 = 0 ∧ c.raw / 2 ^ 28 % 2 ^ 36 = 0 := by
  rw [headerOk, Bool.and_eq_true, decide_eq_true_eq, decide_eq_true_eq]
  rfl

/-! ### The opcodes -/

section
variable (t : State) (p n : Nat) {c : Cmd}

theorem startByOp_nop (hop : cmdOp c = 0) : startByOp t p n c =
    if bits c.raw 64 448 = 0 then complete t c.handle stOk 0 else complete t c.handle stMalformed 0 := by
  unfold startByOp
  simp only [hop]

theorem startByOp_seqRun (hop : cmdOp c = 2) : startByOp t p n c = startSeqRun t p c := by
  unfold startByOp
  simp only [hop]

theorem startByOp_test (hop : cmdOp c = 4) : startByOp t p n c = startTest t p c := by
  unfold startByOp
  simp only [hop]

theorem startByOp_waitFault (hop : cmdOp c = 5) : startByOp t p n c = startWaitFault t c := by
  unfold startByOp
  simp only [hop]

theorem startByOp_reserved (hop : 6 ≤ cmdOp c) : startByOp t p n c = complete t c.handle stMalformed 0 := by
  unfold startByOp
  split
  case h_7 => rfl
  all_goals omega

end

section
variable {s : State} {p : Half} {n : Fin 256} (ho : OnlyCommand s p n)
include ho

/-- A command with a good header ends as its opcode says. -/
theorem OnlyCommand.endsWith_op {c : Instr} {ok : Nat → Bool} {status result : Nat}
    (hexec : exec c s = .next (submitCmd s p n 8 ok)) (hok : ok (cmdOp (runningCmd s p n)) = true)
    (hmay : mayStart (withCmds s p n [waitingCmd s p n]) p n [] (waitingCmd s p n) = true)
    (hclean : headerOk (runningCmd s p n) = true) (hne : cmdOp (runningCmd s p n) ≠ 3)
    (hstart : startByOp (withCmds s p n [runningCmd s p n]) p n (runningCmd s p n) =
      complete (withCmds s p n [runningCmd s p n]) (portHandle s p n) status result) :
    EndsWith s p n c status result :=
  ho.endsWith hexec hok hmay ((ho.startCmd_op hclean hne).trans hstart)

/-- A command with a bad header, and an ABORT, ends MALFORMED. -/
theorem OnlyCommand.endsWith_malformed {c : Instr} {ok : Nat → Bool}
    (hexec : exec c s = .next (submitCmd s p n 8 ok)) (hok : ok (cmdOp (runningCmd s p n)) = true)
    (hmay : mayStart (withCmds s p n [waitingCmd s p n]) p n [] (waitingCmd s p n) = true)
    (hbad : headerOk (runningCmd s p n) = false ∨ cmdOp (runningCmd s p n) = 3) :
    EndsWith s p n c stMalformed (stepResult s (runningCmd s p n)) :=
  ho.endsWith hexec hok hmay (ho.startCmd_malformed hbad)

/-- A command that goes on runs alone: its start leaves it in its port, and adds no more than a test. -/
theorem OnlyCommand.runs {c : Instr} {ok : Nat → Bool} {tests : List Test} {next : Nat}
    (hexec : exec c s = .next (submitCmd s p n 8 ok)) (hok : ok (cmdOp (runningCmd s p n)) = true)
    (hmay : mayStart (withCmds s p n [waitingCmd s p n]) p n [] (waitingCmd s p n) = true)
    (hclean : headerOk (runningCmd s p n) = true) (hne : cmdOp (runningCmd s p n) ≠ 3)
    (hstart : startByOp (withCmds s p n [runningCmd s p n]) p n (runningCmd s p n) =
      { withCmds s p n [runningCmd s p n] with tests := tests, nextTest := next }) :
    ∃ u, Ends c s u ∧ u.tests = tests ∧
      ∃ c, (cportOf u p n).cmds = [c] ∧ c.handle = portHandle s p n ∧ c.started = true := by
  have hsettle : settle (submit s p n) =
      notePending { withCmds s p n [runningCmd s p n] with tests := tests, nextTest := next } := by
    refine ho.settle_submit (cmds := [runningCmd s p n]) hmay ((ho.startCmd_op hclean hne).trans hstart)
      (fun c hc => ?_) rfl ((still_of_quiet ho.quiet).frame ..)
    rw [List.mem_singleton.mp hc]
    rfl
  obtain ⟨tremor, free, hnote⟩ :=
    notePending_frame { withCmds s p n [runningCmd s p n] with tests := tests, nextTest := next }
  rw [hnote] at hsettle
  refine ⟨_, (ho.exec_submit hexec hok).trans (congrArg _ hsettle), rfl, runningCmd s p n, ?_, rfl, rfl⟩
  rw [cportOf_congr (t := withCmds s p n [runningCmd s p n]), cportOf_withCmds]
  · rfl
  · rfl

end

/-- A SEQ_RUN that does not start its sequencer does not wait for its job block. -/
theorem jobBlockHeld_of_ends {t : State} {c : Cmd} (h : headerOk c = false ∨ 3 < bits c.raw 128 8 ∨
    dieRuns t (bits c.raw 128 8) = false) : jobBlockHeld t c = false := by
  unfold jobBlockHeld
  obtain h | h | h := h
  · simp [h]
  · simp [Nat.not_le.mpr h]
  · simp [h]

/-- Settles O48: the opcode and the checks of its command decide how its start ends. -/
theorem commandsStart : Obligations.CommandsStart := by
  intro p n s hq x raw h hen hkind hcmds hseq hport clean body ends
  have ho : OnlyCommand s p n := ⟨hq, hen, hkind, hcmds, hseq, hport⟩
  set c : Cmd := runningCmd s p n with hc
  have hop : cmdOp c = raw % 256 := bits_zero_lo raw 8
  have hclean : headerOk c = true ↔ clean := headerOk_iff c
  have hunclean (hne : ¬clean) : headerOk c = false := Bool.eq_false_iff.mpr fun h => hne (hclean.mp h)
  have hirq : cmdIrq c = decide (raw / 2 ^ 8 % 2 = 1) := Nat.testBit_eq_decide_div_mod_eq ..
  have hends {i : Instr} {status result : Nat} (he : EndsWith s p n i status result) : ends i status result := by
    unfold EndsWith at he
    rw [← hc, hirq] at he
    exact he
  have hmay (hne1 : raw % 256 ≠ 1) (hne2 : raw % 256 ≠ 2) :
      mayStart (withCmds s p n [waitingCmd s p n]) p n [] (waitingCmd s p n) = true :=
    mayStart_waitingCmd (hop ▸ hne1) fun h2 => absurd (hop.symm.trans h2) hne2
  have hzero (hne2 : raw % 256 ≠ 2) : stepResult s c = 0 := stepResult_of_op s (hop ▸ hne2)
  have hseqRun (h2 : raw % 256 = 2) (hblock : jobBlockHeld (withCmds s p n [waitingCmd s p n])
      (waitingCmd s p n) = false) : mayStart (withCmds s p n [waitingCmd s p n]) p n [] (waitingCmd s p n) = true :=
    mayStart_waitingCmd (by rw [← hc, hop, h2]; decide) fun _ => hblock
  have hstep (h2 : raw % 256 = 2) (hdie : raw / 2 ^ 128 % 256 < 4) :
      stepResult s c = rg s (0x401 + 0x400 * (raw / 2 ^ 128 % 256)) seqStep := by
    rw [seqSlot_eq]
    exact if_pos ⟨hop.trans h2, Nat.lt_succ_iff.mp hdie⟩
  refine ⟨fun h0 hcl hbody => hends ?_, fun h0 hbad => hends ?_, fun h6 => hends ?_, fun h3 => hends ?_,
    fun h2 hcl hrest hdie => hends ?_, fun h2 hcl hdie => hends ?_, fun h2 hcl hrest hdie hoff => hends ?_,
    fun h4 hcl hok => ?_, fun h5 hcl hmin hrest => ?_⟩
  · refine ho.endsWith_op (ok := fun o => o = 0 || 6 ≤ o) rfl ?_ (hmay ?_ ?_) (hclean.mpr hcl) ?_ ?_
    · simp [← hc, hop, h0]
    · omega
    · omega
    · rw [← hc, hop]
      omega
    · rw [startByOp_nop _ _ _ (hop.trans h0)]
      exact if_pos hbody
  · have hnop : (fun o => decide (o = 0) || decide (6 ≤ o)) (cmdOp c) = true := by simp [hop, h0]
    have hm := hmay (by omega) (by omega)
    by_cases hcl : clean
    · refine ho.endsWith_op rfl hnop hm (hclean.mpr hcl) (by rw [← hc, hop]; omega) ?_
      rw [startByOp_nop _ _ _ (hop.trans h0)]
      exact if_neg (hbad.resolve_left (not_not.mpr hcl))
    · rw [← hzero (by omega)]
      exact ho.endsWith_malformed rfl hnop hm (.inl (hunclean hcl))
  · have hnop : (fun o => decide (o = 0) || decide (6 ≤ o)) (cmdOp c) = true := by simp [hop, h6]
    have hm := hmay (by omega) (by omega)
    by_cases hcl : clean
    · refine ho.endsWith_op rfl hnop hm (hclean.mpr hcl) (by rw [← hc, hop]; omega) ?_
      exact startByOp_reserved _ _ _ (hop ▸ h6)
    · rw [← hzero (by omega)]
      exact ho.endsWith_malformed rfl hnop hm (.inl (hunclean hcl))
  · rw [← hzero (by omega)]
    exact ho.endsWith_malformed (ok := fun o => o = 3) rfl (decide_eq_true (hop.trans h3))
      (hmay (by omega) (by omega)) (.inr (hop.trans h3))
  · refine ho.endsWith_op (ok := fun o => o = 2) rfl (decide_eq_true (hop.trans h2))
      (hseqRun h2 (jobBlockHeld_of_ends (.inr (.inl hdie)))) (hclean.mpr hcl) (by rw [← hc, hop]; omega) ?_
    rw [startByOp_seqRun _ _ _ (hop.trans h2)]
    exact if_pos hdie
  · rw [← hstep h2 hdie]
    exact ho.endsWith_malformed (ok := fun o => o = 2) rfl (decide_eq_true (hop.trans h2))
      (hseqRun h2 (jobBlockHeld_of_ends (.inl (hunclean hcl)))) (.inl (hunclean hcl))
  · refine ho.endsWith_op (ok := fun o => o = 2) rfl (decide_eq_true (hop.trans h2))
      (hseqRun h2 (jobBlockHeld_of_ends (.inr (.inr hoff)))) (hclean.mpr hcl) (by rw [← hc, hop]; omega) ?_
    rw [startByOp_seqRun _ _ _ (hop.trans h2), seqSlot_eq]
    exact (if_neg (Nat.not_lt.mpr (Nat.lt_succ_iff.mp hdie))).trans ((if_neg (not_not.mpr hrest)).trans
      (if_pos ((congrArg (!·) hoff).trans rfl)))
  · have htest : ¬(!testOk c) = true := by
      rw [Bool.not_eq_true']
      exact ne_of_eq_of_ne hok (by decide)
    obtain ⟨u, hu, htests, hport⟩ := ho.runs (c := .cmdTest p n 8) (ok := fun o => o = 4) rfl
      (decide_eq_true (hop.trans h4)) (hmay (by omega) (by omega)) (hclean.mpr hcl) (by rw [← hc, hop]; omega)
      ((startByOp_test _ _ _ (hop.trans h4)).trans (if_neg htest))
    exact ⟨_, u, hu, htests, rfl, rfl, rfl, rfl, rfl, rfl, hport⟩
  · have hbody : ¬(bits c.raw 64 8 > 4 ∨ bits c.raw 72 440 ≠ 0) :=
      not_or.mpr ⟨Nat.not_lt.mpr hmin, not_not.mpr hrest⟩
    obtain ⟨u, hu, -, hport⟩ := ho.runs (c := .cmdWaitFault p n 8) (ok := fun o => o = 5) rfl
      (decide_eq_true (hop.trans h5)) (hmay (by omega) (by omega)) (hclean.mpr hcl) (by rw [← hc, hop]; omega)
      ((startByOp_waitFault _ _ _ (hop.trans h5)).trans (if_neg hbody))
    exact ⟨u, hu, hport⟩

end Sys2Proof.Machine
end

section
/-!
PROOFS. The way of a packet through the mesh: dimension order (R236), and packets of the package that enter its
router.
-/

namespace Sys2Proof.Machine

/-! ### Positions -/

/-- The coordinates of an encoded position. -/
theorem coord_encPos {x y z : Nat} (hx : x < 64) (hy : y < 64) (hz : z < 16) :
    coord (encPos x y z) 0 = x ∧ coord (encPos x y z) 1 = y ∧ coord (encPos x y z) 2 = z := by
  simp only [coord, encPos, bits]
  omega

section
variable {s : State} {dest : Nat}

/-- A packet has no way along an axis on which it has arrived. -/
theorem axisPort_eq_none {a : Nat} : axisPort s dest a = none ↔ coord (myPos s) a = coord dest a := by
  unfold axisPort
  dsimp only
  split_ifs
  · exact iff_of_false (by simp) (by omega)
  · exact iff_of_false (by simp) (by omega)
  · exact iff_of_true rfl (by omega)

/-- The port along an axis leads to the destination's side. -/
theorem axisPort_eq_some {a q : Nat} (h : axisPort s dest a = some q) :
    q = 2 * a ∧ coord (myPos s) a < coord dest a ∨ q = 2 * a + 1 ∧ coord dest a < coord (myPos s) a := by
  unfold axisPort at h
  dsimp only at h
  split_ifs at h with hup hdown
  · exact .inl ⟨(Option.some.inj h).symm, hup⟩
  · exact .inr ⟨(Option.some.inj h).symm, hdown⟩

/-- A packet has no next port where all its coordinates agree. -/
theorem nextPort_eq_none : nextPort s dest = none ↔ ∀ k < 3, coord (myPos s) k = coord dest k := by
  rw [nextPort, List.findSome?_eq_none_iff]
  simp only [axisPort_eq_none, List.mem_cons, List.not_mem_nil, or_false, forall_eq_or_imp, forall_eq]
  refine ⟨fun ⟨h0, h1, h2⟩ k hk => ?_, fun h => ⟨h 0 (by decide), h 1 (by decide), h 2 (by decide)⟩⟩
  obtain rfl | rfl | rfl : k = 0 ∨ k = 1 ∨ k = 2 := by omega
  · exact h0
  · exact h1
  · exact h2

/-- The next port lies on the first axis whose coordinate differs. -/
theorem nextPort_eq_some {q : Nat} (h : nextPort s dest = some q) :
    ∃ a < 3, axisPort s dest a = some q ∧ ∀ k < a, coord (myPos s) k = coord dest k := by
  have hfirst : nextPort s dest =
      ((axisPort s dest 0).or ((axisPort s dest 1).or (axisPort s dest 2))) := by
    unfold nextPort
    simp only [List.findSome?_cons, List.findSome?_nil]
    cases axisPort s dest 0
    · cases axisPort s dest 1
      · cases axisPort s dest 2
        · rfl
        · rfl
      · rfl
    · rfl
  rw [hfirst, Option.or_eq_some_iff, Option.or_eq_some_iff] at h
  obtain h0 | ⟨h0, h1 | ⟨h1, h2⟩⟩ := h
  · exact ⟨0, by decide, h0, fun k hk => absurd hk (Nat.not_lt_zero k)⟩
  · refine ⟨1, by decide, h1, fun k hk => ?_⟩
    obtain rfl : k = 0 := by omega
    exact axisPort_eq_none.mp h0
  · refine ⟨2, by decide, h2, fun k hk => ?_⟩
    obtain rfl | rfl : k = 0 ∨ k = 1 := by omega
    · exact axisPort_eq_none.mp h0
    · exact axisPort_eq_none.mp h1

end

/-- The straps name a position of the mesh. -/
def StrapsInMesh (s : State) : Prop :=
  s.pins.straps.meshX < 64 ∧ s.pins.straps.meshY < 64 ∧ s.pins.straps.meshZ < 16

/-- A neighbour's coordinates are this package's, but for one step on the port's axis. -/
theorem coord_neighbourPos {s : State} (hmesh : StrapsInMesh s) {a q pos : Nat} (ha : a < 3)
    (hq : q = 2 * a ∨ q = 2 * a + 1) (hpos : neighbourPos s q = some pos) :
    (q = 2 * a → coord pos a = coord (myPos s) a + 1) ∧
    (q = 2 * a + 1 → coord pos a + 1 = coord (myPos s) a) ∧
    ∀ k < 3, k ≠ a → coord pos k = coord (myPos s) k := by
  obtain ⟨hx, hy, hz⟩ := hmesh
  have hme := coord_encPos hx hy hz
  have hstep (x y z : Nat) (hx' : x < 64) (hy' : y < 64) (hz' : z < 16) (h : pos = encPos x y z) :
      coord pos 0 = x ∧ coord pos 1 = y ∧ coord pos 2 = z := h ▸ coord_encPos hx' hy' hz'
  have hthree (k : Nat) (hk : k < 3) : k = 0 ∨ k = 1 ∨ k = 2 := by omega
  unfold myPos
  obtain rfl | rfl | rfl := hthree a ha
  all_goals
    obtain rfl | rfl := hq
    all_goals
      simp only [neighbourPos] at hpos
      split_ifs at hpos with hin
      have hnew := hstep _ _ _ (by omega) (by omega) (by omega) (Option.some.inj hpos).symm
      refine ⟨by omega, by omega, fun k hk hne => ?_⟩
      obtain rfl | rfl | rfl := hthree k hk
      all_goals omega

/-- Hops between two positions, along each axis. -/
def meshHops (a b : Nat) : Nat := ((List.range 3).map (fun k => absDiff (coord a k) (coord b k))).sum

theorem meshHops_eq (a b : Nat) : meshHops a b = absDiff (coord a 0) (coord b 0) + absDiff (coord a 1) (coord b 1) +
    absDiff (coord a 2) (coord b 2) := by
  simp [meshHops, List.range_succ, Nat.add_assoc]

/-- A position that differs on one axis alone, by a step toward the destination, is one hop nearer to it. -/
theorem meshHops_step {pos me dest a : Nat} (ha : a < 3) (hother : ∀ k < 3, k ≠ a → coord pos k = coord me k)
    (hstep : absDiff (coord pos a) (coord dest a) + 1 = absDiff (coord me a) (coord dest a)) :
    meshHops pos dest + 1 = meshHops me dest := by
  rw [meshHops_eq, meshHops_eq]
  obtain rfl | rfl | rfl : a = 0 ∨ a = 1 ∨ a = 2 := by omega
  · rw [hother 1 (by decide) (by decide), hother 2 (by decide) (by decide)]
    omega
  · rw [hother 0 (by decide) (by decide), hother 2 (by decide) (by decide)]
    omega
  · rw [hother 0 (by decide) (by decide), hother 1 (by decide) (by decide)]
    omega

/-! ### Packets of the package -/

section
variable {s : State} {p : Packet}

/-- A packet without a job passes the check of its job. -/
theorem jobCheck_of_no_job (s : State) (hjob : p.job = 0) : jobCheck s p = 0 := if_pos hjob

/-- A packet that passes its checks is routed. -/
theorem enterRouter_routes {src : Option (Nat × Packet)} (hgood : isMalformed p = false) (hjob : jobCheck s p = 0) :
    enterRouter s p src = routeOut s p src := by
  unfold enterRouter
  simp only [hgood, hjob, Bool.false_eq_true, if_false]

/-- A packet without a detour that has no next port has arrived. -/
theorem wayOf_here (hdetour : p.detour = false) (hport : nextPort s p.dest = none) : wayOf s p = .here := by
  unfold wayOf
  simp only [hdetour, Bool.false_eq_true, if_false, hport]

/-- A packet without a detour leaves on its next port, where that can be used. -/
theorem wayOf_out {q : Nat} (hdetour : p.detour = false) (hport : nextPort s p.dest = some q)
    (hopen : portShut s q = false) : wayOf s p = .out q p := by
  unfold wayOf
  simp only [hdetour, Bool.false_eq_true, if_false, hport, hopen, Bool.not_false, if_true]

/-- A packet that has arrived is delivered, which frees its buffer. -/
theorem routeOut_here {src : Option (Nat × Packet)} (hway : wayOf s p = .here) :
    routeOut s p src = returnCredit { s with inbox := s.inbox ++ [p] } src := by
  unfold routeOut routeTo
  rw [hway]
  rfl

/-- A packet that goes on waits for its port. -/
theorem routeOut_out {q : Packet} {o : Nat} {src : Option (Nat × Packet)} (hway : wayOf s p = .out o q) :
    routeOut s p src = waitOut s o q src := by
  unfold routeOut routeTo
  rw [hway]
  rfl

/-- A packet of the package enters its router. -/
theorem routerPacketEnter_own (hmem : p ∈ s.inject) :
    Ends (.routerPacketEnter none p) s (enterRouter { s with inject := s.inject.erase p } p) :=
  congrArg Host.Outcome.next (if_pos (List.contains_iff_mem.mpr hmem))

end

/-- Settles O36: the next port lies on the first axis that differs, and the neighbour there is a step nearer. -/
theorem routesApproach : Obligations.RoutesApproach := by
  intro s t dest hx hy hz hdest far
  have hmesh : StrapsInMesh s := ⟨hx, hy, hz⟩
  refine ⟨?_, fun hstraps => ?_, nextPort_eq_none, fun q pos hport hpos => ?_,
    fun p hmem hgood hjob hdetour hd => ⟨fun hport => ?_, fun q hport hopen => ?_⟩⟩
  · unfold myPos encPos
    omega
  · unfold nextPort axisPort myPos
    rw [hstraps]
  · obtain ⟨a, ha, haxis, hbefore⟩ := nextPort_eq_some hport
    have hside := axisPort_eq_some haxis
    obtain ⟨hup, hdown, hother⟩ := coord_neighbourPos hmesh ha (hside.imp And.left And.left) hpos
    have hqa : q / 2 = a := by omega
    rw [hqa]
    refine ⟨meshHops_step ha hother ?_, hbefore, hother⟩
    unfold absDiff
    omega
  · have henter := routerPacketEnter_own hmem
    have hway : wayOf { s with inject := s.inject.erase p } p = .here := wayOf_here hdetour (hd ▸ hport)
    rw [enterRouter_routes hgood (jobCheck_of_no_job _ hjob), routeOut_here hway] at henter
    exact henter
  · have henter := routerPacketEnter_own hmem
    have hway : wayOf { s with inject := s.inject.erase p } p = .out q p := wayOf_out hdetour (hd ▸ hport) hopen
    rw [enterRouter_routes hgood (jobCheck_of_no_job _ hjob), routeOut_out hway, waitOut, hdetour] at henter
    exact henter

end Sys2Proof.Machine
end

section
/-!
PROOFS. What the traffic of the links changes, and the packets that arrive at the router (R230 to R240).
-/

namespace Sys2Proof.Machine

/-! ### What leaves on the links changes the links and what has left on them -/

/-- No more than the links, and the codewords that have left on them, has changed. -/
def LinksOnly (s t : State) : Prop := t = { s with links := t.links, tx := t.tx }

namespace LinksOnly

variable {s t u : State}

theorem refl (s : State) : LinksOnly s s := rfl

theorem trans (hst : LinksOnly s t) (htu : LinksOnly t u) : LinksOnly s u := by
  unfold LinksOnly at *
  rw [htu, hst]

theorem forEach {α : Type} {f : State → α → State} (h : ∀ t x, LinksOnly t (f t x)) :
    ∀ (xs : List α) (s : State), LinksOnly s (Machine.forEach xs s f)
  | [], s => refl s
  | x :: xs, s => (h s x).trans (forEach h xs (f s x))

theorem setLink (s : State) (p : Nat) (l : Link) : LinksOnly s (Machine.setLink s p l) := rfl

theorem putCodeword (s : State) (p : Nat) (cw : Codeword) : LinksOnly s (Machine.putCodeword s p cw) := by
  unfold Machine.putCodeword
  dsimp only
  split
  · rfl
  · rfl

theorem sendCodeword (s : State) (p : Nat) (fum : Bool) (fs : List Flit) :
    LinksOnly s (Machine.sendCodeword s p fum fs) := by
  unfold Machine.sendCodeword
  dsimp only
  split
  · exact (setLink ..).trans (putCodeword ..)
  · exact setLink ..

theorem payCredits (s : State) (p : Nat) : LinksOnly s (Machine.payCredits s p) := by
  unfold Machine.payCredits
  dsimp only
  split
  · exact refl s
  · exact (setLink ..).trans (forEach (fun t fs => sendCodeword t p false fs) _ _)

theorem returnCredit (s : State) (src : Option (Nat × Packet)) : LinksOnly s (Machine.returnCredit s src) := by
  unfold Machine.returnCredit
  split
  · exact refl s
  · dsimp only
    split
    · exact refl s
    · exact (setLink ..).trans (payCredits ..)

theorem freeWait (s : State) (w : OutWait) : LinksOnly s (Machine.freeWait s w) := by
  unfold Machine.freeWait
  split
  · exact refl s
  · exact returnCredit ..

theorem regs_eq (h : LinksOnly s t) : t.regs = s.regs := by rw [h]

theorem jobs_eq (h : LinksOnly s t) : t.jobs = s.jobs := by rw [h]

theorem rg_eq (h : LinksOnly s t) (slot : Nat) (f : Fld) : rg t slot f = rg s slot f := by rw [rg, rg, h.regs_eq]

/-- A counter counts what it has counted before, and one more. -/
theorem incr_eq (h : LinksOnly s t) (slot : Nat) (f : Fld) :
    incr t slot f = wg t slot f (min (rg s slot f + 1) (2 ^ f.w - 1)) := by
  rw [incr, h.rg_eq]
  rfl

end LinksOnly

/-! ### A packet that has arrived on an up port -/

section
variable {s : State} {port : FabPort} {p : Packet} (hup : portUp s port = true)
include hup

/-- A packet of which a part has arrived. -/
theorem routerPacketEnter_part {x : PartIn} (hpart : openPart s port p = some x) :
    Ends (.routerPacketEnter (some port) p) s (enterCut s port x) := by
  refine congrArg Host.Outcome.next ((if_neg (by simp [hup])).trans ?_)
  rw [hpart]

/-- A packet that has arrived whole. -/
theorem routerPacketEnter_whole (hwhole : openPart s port p = none) :
    Ends (.routerPacketEnter (some port) p) s
      (enterRouter { s with arrived := s.arrived.erase (port.val, p) } p (some (port.val, p))) := by
  refine congrArg Host.Outcome.next ((if_neg (by simp [hup])).trans ?_)
  rw [hwhole]

end

/-- The open part of a packet is one of the parts that arrive, of that packet. -/
theorem mem_of_openPart {s : State} {port : Nat} {p : Packet} {x : PartIn} (h : openPart s port p = some x) :
    x ∈ (linkOf s port).part ∧ x.pkt = p := by
  unfold openPart at h
  dsimp only at h
  split_ifs at h
  refine ⟨List.mem_of_find?_eq_some h, ?_⟩
  have hx := List.find?_some h
  rw [Bool.and_eq_true, decide_eq_true_eq] at hx
  exact hx.1

section
variable {s : State} {p : Packet} {src : Option (Nat × Packet)}

/-- A malformed packet is counted, and its source told. -/
theorem enterRouter_malformed (hbad : isMalformed p = true) :
    enterRouter s p src = sendNack (incr (returnCredit s src) routerSlot discMalf) p 7 := if_pos hbad

/-- A packet of a job without a place here is counted, and its source told. -/
theorem enterRouter_transit (hgood : isMalformed p = false) (hjob : jobCheck s p = 1) :
    enterRouter s p src = sendNack (incr (returnCredit s src) routerSlot discTransit) p 6 := by
  unfold enterRouter
  simp only [hgood, hjob, Bool.false_eq_true, if_false]

/-- A stale packet is counted. -/
theorem enterRouter_stale (hgood : isMalformed p = false) (hjob : jobCheck s p = 2) :
    enterRouter s p src = incr (returnCredit s src) routerSlot discStale := by
  unfold enterRouter
  simp only [hgood, hjob, Bool.false_eq_true, if_false]

/-- A packet of a job that is neither a member nor in transit here. -/
theorem jobCheck_transit (hjob : 0 < p.job) (hmember : (jobOf s p.job).member = false)
    (htransit : (jobOf s p.job).transit = false) : jobCheck s p = 1 := by
  unfold jobCheck
  simp [hjob.ne', hmember, htransit]

/-- A packet of a member job that is not running in the packet's epoch, but for an ERUPT. -/
theorem jobCheck_stale (hjob : 0 < p.job) (hmember : (jobOf s p.job).member = true) (htype : p.type ≠ 0xA)
    (hstale : (jobOf s p.job).state ≠ 1 ∨ p.epoch ≠ (jobOf s p.job).epoch) : jobCheck s p = 2 := by
  unfold jobCheck
  simp only [hjob.ne', if_false, hmember, Bool.not_true, Bool.false_and, Bool.false_eq_true, if_true, htype,
    false_and, if_pos hstale]

/-- A packet of a member job that runs in its epoch, or of a job in transit. -/
theorem jobCheck_passes (h : (jobOf s p.job).member = true ∧ (jobOf s p.job).state = 1 ∧
    p.epoch = (jobOf s p.job).epoch ∨ (jobOf s p.job).member = false ∧ (jobOf s p.job).transit = true) :
    jobCheck s p = 0 := by
  unfold jobCheck
  obtain ⟨hmember, hstate, hepoch⟩ | ⟨hmember, htransit⟩ := h
  · simp [hmember, hstate, hepoch]
  · simp [hmember, htransit]

end

/-- A packet of which a part has arrived is taken where it goes on to another port. -/
theorem enterCut_out {s : State} {port o : Nat} {x : PartIn} {q : Packet} (hgood : isMalformed x.pkt = false)
    (hjob : jobCheck s x.pkt = 0) (hway : wayOf s x.pkt = .out o q) : enterCut s port x =
      { setLink s port { linkOf s port with part := (linkOf s port).part.map (fun y =>
          if y = x then { y with entered := true } else y) } with
        outq := s.outq ++ [⟨o, x.vc, q.detour, q, some (port, x.pkt), true⟩] } := by
  have hcheck : ¬(isMalformed x.pkt = true ∨ jobCheck s x.pkt ≠ 0) := by
    rw [hgood, hjob]
    decide
  unfold enterCut
  rw [if_neg hcheck, hway]
  rfl

/-- It waits where it does not. -/
theorem enterCut_waits {s : State} {port : Nat} {x : PartIn}
    (h : isMalformed x.pkt = true ∨ jobCheck s x.pkt ≠ 0 ∨ ∀ o q, wayOf s x.pkt ≠ .out o q) :
    enterCut s port x = s := by
  unfold enterCut
  split_ifs with hcheck
  · rfl
  · split
    next o q hway => exact absurd hway (((or_assoc.mpr h).resolve_left hcheck) o q)
    next => rfl

/-- Settles O35: a part by its way, a whole packet by the checks one after another. -/
theorem routerChecksPackets : Obligations.RouterChecksPackets := by
  intro port p s hup c v j from_ count
  have hcount (f : Fld) : incr (returnCredit v from_) routerSlot f = count f :=
    (LinksOnly.returnCredit v from_).incr_eq ..
  refine ⟨fun x hpart => ⟨fun hwaits => ?_, fun o q hgood hjob hway => ?_⟩, fun hwhole hbad => ?_,
    fun hwhole hgood hjob => ⟨fun hmember htransit => ?_, fun hmember htype hstale => ?_,
      fun hpasses hdetour => ⟨fun hport => ?_, fun q hport hopen => ?_⟩⟩, fun hmem hgood hjob hdetour hport => ?_⟩
  · obtain ⟨-, rfl⟩ := mem_of_openPart hpart
    have henter := routerPacketEnter_part hup hpart
    rw [enterCut_waits hwaits] at henter
    exact henter
  · obtain ⟨hmem, rfl⟩ := mem_of_openPart hpart
    have henter := routerPacketEnter_part hup hpart
    rw [enterCut_out hgood hjob hway] at henter
    have hlink := linkOf_setLink_same s port.val { linkOf s port with part := (linkOf s port).part.map (fun y =>
      if y = x then { y with entered := true } else y) }
    refine ⟨_, henter, rfl, ?_, rfl⟩
    exact (congrArg Link.part hlink) ▸ List.mem_map.mpr ⟨x, hmem, if_pos rfl⟩
  · have henter := routerPacketEnter_whole hup hwhole
    rw [enterRouter_malformed hbad, hcount] at henter
    exact henter
  · have henter := routerPacketEnter_whole hup hwhole
    rw [enterRouter_transit (s := v) hgood (jobCheck_transit hjob hmember htransit), hcount] at henter
    exact henter
  · have henter := routerPacketEnter_whole hup hwhole
    rw [enterRouter_stale (s := v) hgood (jobCheck_stale hjob hmember htype hstale), hcount] at henter
    exact henter
  · have henter := routerPacketEnter_whole hup hwhole
    have hway : wayOf v p = .here := wayOf_here hdetour hport
    rw [enterRouter_routes (s := v) hgood (jobCheck_passes hpasses), routeOut_here hway] at henter
    exact henter
  · have henter := routerPacketEnter_whole hup hwhole
    have hway : wayOf v p = .out q p := wayOf_out hdetour hport hopen
    rw [enterRouter_routes (s := v) hgood (jobCheck_passes hpasses), routeOut_out hway, waitOut, hdetour] at henter
    exact henter
  · have henter := routerPacketEnter_own hmem
    have hway : wayOf { s with inject := s.inject.erase p } p = .here := wayOf_here hdetour hport
    rw [enterRouter_routes hgood (jobCheck_of_no_job _ hjob), routeOut_here hway] at henter
    exact henter

end Sys2Proof.Machine
end

section
/-!
PROOFS. Ports that go down, the exchange of port states, and packets that wait too long (R230, R243 to R245).
-/

namespace Sys2Proof.Machine

variable {s : State}

/-! ### Ports that go down -/

/-- A port that is dark, up or down already does not go down. -/
theorem portGoesDown_kept {port : Nat}
    (h : portDark s port = true ∨ portUp s port = true ∨ (linkOf s port).isDown = true) : portGoesDown s port = s :=
  if_pos h

/-- The state in which a port has given up what it was forwarding in part. -/
def cutsDropped (s : State) (port : Nat) : State :=
  forEach (linkOf s port).part (unCut s port) (fun y x => dropCut y port x)

/-- The state in which a port's link is down and nothing waits for it. -/
def linkEmptied (s : State) (port : Nat) : State :=
  { setLink s port { linkOf s port with isDown := true, part := [], early := [], replay := [], owed := [] } with
    outq := s.outq.filter (fun w => w.port ≠ port) }

theorem linkOf_linkEmptied (s : State) (port : Nat) : linkOf (linkEmptied s port) port =
    { linkOf s port with isDown := true, part := [], early := [], replay := [], owed := [] } :=
  linkOf_setLink_same s port _

/-- What a port that goes down had not delivered is routed again. -/
theorem portGoesDown_eq {port : Nat} (hdark : portDark s port = false) (hup : portUp s port = false)
    (hdown : (linkOf s port).isDown = false) : portGoesDown s port =
      raise (forEach ((cutsDropped s port).outq.filter (fun w => w.port = port))
        (forEach ((cutOnto s port).foldl List.erase (storedPackets (linkOf (cutsDropped s port) port)))
          (linkEmptied (cutsDropped s port) port) rerouteStored)
        (fun z w => routeOut z w.pkt w.src)) (portEvent port srcFabPortDown) :=
  if_neg (by simp [hdark, hup, hdown])

/-! ### The exchange of port states -/

/-- The state in which a neighbour's port states are taken. -/
def adminTaken (s : State) (port up : Nat) : State :=
  { s with
    inbox := match s.inbox.find? (fun p => p.type = 0xC && some p.src = neighbourPos s port) with
      | some p => s.inbox.erase p
      | none => s.inbox
    nbrUp := mset 0 s.nbrUp port (up % 64) }

theorem takeAdmin_eq {port : Nat} (up : Nat) (hup : portUp s port = true) :
    takeAdmin s port up = recomputeDetours (adminTaken s port up) := if_neg (by simp [hup])

/-- What an ADMIN packet shows of itself. -/
def adminHead (q : Packet) : Nat × Nat × Nat × Nat × Nat := (q.type, q.len, q.job, q.dest, q.src)

/-- The ADMIN packet for a neighbour. -/
def adminPacket (s : State) (pos : Nat) : Packet :=
  { type := 0xC, len := 1, dest := pos, src := myPos s, payload := (freeBytes s 64).1 }

/-- The ADMIN packet of a port leaves, where the port has a neighbour. -/
def sendAdminOn (s : State) (port : Nat) : State :=
  match neighbourPos s port with
  | none => s
  | some pos =>
    { s with inject := s.inject ++ [adminPacket s pos], free := (freeBytes s 64).2.free }

theorem sendAdmin_eq (s : State) : sendAdmin s = forEach ((List.range 6).filter (portUp s)) s sendAdminOn := by
  unfold sendAdmin
  congr 1

/-- The heads of the ADMIN packets for the neighbours on a list of ports. -/
def adminHeads (s : State) (xs : List Nat) : List (Nat × Nat × Nat × Nat × Nat) :=
  xs.filterMap (fun k => (neighbourPos s k).map (fun pos => (0xC, 1, 0, pos, myPos s)))

/-- One ADMIN packet leaves on every port of a list that has a neighbour. -/
theorem forEach_sendAdminOn (xs : List Nat) : ∀ s : State, ∃ (ps : List Packet) (free : Nat),
    forEach xs s sendAdminOn = { s with inject := s.inject ++ ps, free := free } ∧
    ps.map adminHead = adminHeads s xs := by
  induction xs with
  | nil => exact fun s => ⟨[], s.free, by simp [forEach], rfl⟩
  | cons x xs ih =>
    intro s
    cases hpos : neighbourPos s x with
    | none =>
      have hkept : sendAdminOn s x = s := by rw [sendAdminOn, hpos]
      obtain ⟨ps, free, hsent, hheads⟩ := ih s
      refine ⟨ps, free, ?_, ?_⟩
      · change forEach xs (sendAdminOn s x) sendAdminOn = _
        rw [hkept, hsent]
      · rw [hheads, adminHeads, adminHeads, List.filterMap_cons, hpos]
        rfl
    | some pos =>
      obtain ⟨ps, free, hsent, hheads⟩ := ih (sendAdminOn s x)
      have hone : sendAdminOn s x =
          { s with inject := s.inject ++ [adminPacket s pos], free := (freeBytes s 64).2.free } := by
        rw [sendAdminOn, hpos]
      rw [hone] at hsent hheads
      refine ⟨adminPacket s pos :: ps, free, ?_, ?_⟩
      · change forEach xs (sendAdminOn s x) sendAdminOn = _
        rw [hone, hsent, List.append_assoc]
        rfl
      · rw [List.map_cons, hheads, adminHeads, adminHeads, List.filterMap_cons, hpos]
        rfl

/-! ### Packets that wait too long -/

/-- The state in which a packet that has waited has been counted and has left its buffer. -/
def waitDropped (s : State) (n : Nat) (w : OutWait) : State :=
  wg (freeWait { s with outq := s.outq.eraseIdx n } w) 3 discRoute
    (min (rg s 3 discRoute + 1) (2 ^ discRoute.w - 1))

/-- A packet that is discarded for want of a route is counted, and its source told where it is to be. -/
theorem discardRoute_wait (s : State) (n : Nat) (w : OutWait) (nack : Bool) :
    discardRoute (freeWait { s with outq := s.outq.eraseIdx n } w) w.pkt nack =
      if nack then sendNack (waitDropped s n w) w.pkt 5 else waitDropped s n w := by
  have hcount : incr (freeWait { s with outq := s.outq.eraseIdx n } w) routerSlot discRoute = waitDropped s n w :=
    (LinksOnly.freeWait { s with outq := s.outq.eraseIdx n } w).incr_eq ..
  rw [discardRoute, hcount]

theorem detourTimeout_eq {n : Nat} {w : OutWait} (hw : s.outq[n]? = some w) : detourTimeout s n =
    if w.detour then sendNack (waitDropped s n w) w.pkt 5 else s := by
  unfold detourTimeout
  rw [hw]
  dsimp only
  rw [discardRoute_wait]
  rfl

theorem waitTimeout_eq {n : Nat} {w : OutWait} (hw : s.outq[n]? = some w) : waitTimeout s n =
    if (jobOf s w.pkt.job).state ≠ 2 then sendNack (waitDropped s n w) w.pkt 5 else waitDropped s n w := by
  unfold waitTimeout
  rw [hw]
  dsimp only
  rw [discardRoute_wait]
  exact if_congr decide_eq_true_iff rfl rfl

/-- Settles O38: a port by whether it may go down, an exchange port by port, a timeout by what its packet is. -/
theorem portsGoDown : Obligations.PortsGoDown := by
  refine ⟨fun port up s => ⟨fun hkept => ?_, fun hdark hup hdown => ?_, fun hup => ?_, ?_⟩, fun n w s hw => ?_⟩
  · exact congrArg (fun t => Host.Outcome.next (settle t)) (portGoesDown_kept hkept)
  · have hlink := linkOf_linkEmptied (cutsDropped s port) port
    refine ⟨linkEmptied (cutsDropped s port) port, ?_, ?_, ?_, ?_, rfl, rfl⟩
    · exact congrArg (fun t => Host.Outcome.next (settle t)) (portGoesDown_eq hdark hup hdown)
    all_goals rw [hlink]
  · exact ⟨adminTaken s port up, congrArg Host.Outcome.next (takeAdmin_eq up hup), rfl, rfl⟩
  · obtain ⟨ps, free, hsent, hheads⟩ := forEach_sendAdminOn ((List.range 6).filter (portUp s)) s
    refine ⟨_, congrArg Host.Outcome.next ((sendAdmin_eq s).trans hsent), rfl, ps, rfl, hheads⟩
  · intro v
    refine ⟨fun hon => ?_, fun hoff => ?_, fun habort => ?_, fun hruns => ?_⟩
    · exact congrArg Host.Outcome.next ((detourTimeout_eq hw).trans (if_pos hon))
    · exact congrArg Host.Outcome.next ((detourTimeout_eq hw).trans (if_neg (by simp [hoff])))
    · exact congrArg Host.Outcome.next ((waitTimeout_eq hw).trans (if_neg (not_not.mpr habort)))
    · exact congrArg Host.Outcome.next ((waitTimeout_eq hw).trans (if_pos hruns))

end Sys2Proof.Machine
end

section
/-!
PROOFS. Optical links: what a link sends and takes, and packets that start on it (R228 to R230, R234).
-/

namespace Sys2Proof.Machine

/-! ### What a port sends changes its link's sending side -/

/-- The link has sent: its receiving side, its credits taken and its turn of the channels are as before. -/
def SentOnly (l l' : Link) : Prop :=
  l' = { l with tx := l'.tx, replay := l'.replay, turn := l'.turn, owed := l'.owed }

theorem SentOnly.trans {l m n : Link} (hlm : SentOnly l m) (hmn : SentOnly m n) : SentOnly l n := by
  unfold SentOnly at *
  rw [hmn, hlm]

/-- A port has sent: its link's sending side, and what has left on the links, are all that has changed. -/
structure PortSent (port : Nat) (s t : State) : Prop where
  links : LinksOnly s t
  own   : SentOnly (linkOf s port) (linkOf t port)
  other : ∀ q, q ≠ port → linkOf t q = linkOf s q

namespace PortSent

variable {port : Nat} {s t u : State}

theorem refl (port : Nat) (s : State) : PortSent port s s := ⟨rfl, rfl, fun _ _ => rfl⟩

theorem trans (hst : PortSent port s t) (htu : PortSent port t u) : PortSent port s u :=
  ⟨hst.links.trans htu.links, hst.own.trans htu.own, fun q hq => (htu.other q hq).trans (hst.other q hq)⟩

theorem forEach {α : Type} {f : State → α → State} (h : ∀ t x, PortSent port t (f t x)) :
    ∀ (xs : List α) (s : State), PortSent port s (Machine.forEach xs s f)
  | [], s => refl port s
  | x :: xs, s => (h s x).trans (forEach h xs (f s x))

theorem setLink (s : State) {l : Link} (hl : SentOnly (linkOf s port) l) :
    PortSent port s (Machine.setLink s port l) :=
  ⟨rfl, by rw [linkOf_setLink_same]; exact hl, fun _ hq => linkOf_setLink_other s l hq⟩

/-- Codewords that have left. -/
theorem tx (s : State) (xs : List (Nat × Codeword)) : PortSent port s { s with tx := xs } :=
  ⟨rfl, rfl, fun _ _ => rfl⟩

theorem putCodeword (s : State) (cw : Codeword) : PortSent port s (Machine.putCodeword s port cw) := by
  unfold Machine.putCodeword
  dsimp only
  split
  · exact (tx s _).trans (setLink _ rfl)
  · exact tx s _

theorem sendCodeword (s : State) (fum : Bool) (fs : List Flit) :
    PortSent port s (Machine.sendCodeword s port fum fs) := by
  unfold Machine.sendCodeword
  dsimp only
  split
  · exact (setLink s (by exact rfl)).trans (putCodeword ..)
  · exact setLink s (by exact rfl)

theorem payCredits (s : State) : PortSent port s (Machine.payCredits s port) := by
  unfold Machine.payCredits
  dsimp only
  split
  · exact refl port s
  · exact (setLink s (by exact rfl)).trans (forEach (fun t fs => sendCodeword t false fs) _ _)

theorem returnCredit (s : State) (p : Packet) : PortSent port s (Machine.returnCredit s (some (port, p))) := by
  unfold Machine.returnCredit
  dsimp only
  split
  · exact refl port s
  · exact (setLink s (by exact rfl)).trans (payCredits _)

/-- What the receiving side of a link holds is as before. -/
theorem received (h : PortSent port s t) : (linkOf t port).rx = (linkOf s port).rx ∧
    (linkOf t port).seen = (linkOf s port).seen ∧ (linkOf t port).ack = (linkOf s port).ack ∧
    (linkOf t port).early = (linkOf s port).early ∧ (linkOf t port).part = (linkOf s port).part ∧
    (linkOf t port).used = (linkOf s port).used := by
  have hown := h.own
  unfold SentOnly at hown
  rw [hown]
  exact ⟨rfl, rfl, rfl, rfl, rfl, rfl⟩

/-- Which groups of a port are up, and its lanes, are as before. -/
theorem portUp_eq (h : PortSent port s t) (q : Nat) : portUp t q = portUp s q := by
  rw [h.links]
  rfl

theorem bulkLanes_eq (h : PortSent port s t) (q : Nat) : bulkLanes t q = bulkLanes s q := by
  rw [h.links]
  rfl

end PortSent

/-! ### Data codewords -/

/-- The data codewords of a packet's flits, from a sequence number on, as the replay store keeps them. -/
def dealtCodewords (fum : Bool) (n : Nat) (fss : List (List Flit)) : List Codeword :=
  fss.mapIdx (fun i fs => { fum := fum, pad := slotsOf fum - fs.length, seq := (n + i) % 16384, flits := fs })

theorem dealtCodewords_cons (fum : Bool) (n : Nat) (fs : List Flit) (fss : List (List Flit)) :
    dealtCodewords fum n (fs :: fss) =
      { fum := fum, pad := slotsOf fum - fs.length, seq := n % 16384, flits := fs } ::
        dealtCodewords fum ((n + 1) % 16384) fss := by
  unfold dealtCodewords
  rw [List.mapIdx_cons, Nat.add_zero]
  congr 1
  refine List.mapIdx_eq_mapIdx_iff.mpr fun i hi => ?_
  have hseq : (n + (i + 1)) % 16384 = ((n + 1) % 16384 + i) % 16384 := by omega
  rw [hseq]

/-- Codewords as they leave: each on the lane whose turn it is, with the ACK of the moment. -/
def sentCodewords (port : Nat) (fum : Bool) (turn lanes ack : Nat) (cws : List Codeword) : List (Nat × Codeword) :=
  cws.mapIdx (fun i c => (port, { c with lane := if fum then 0 else (turn + i) % lanes, ack := ack }))

theorem sentCodewords_cons (port : Nat) (fum : Bool) (turn lanes ack : Nat) (c : Codeword) (cws : List Codeword) :
    sentCodewords port fum turn lanes ack (c :: cws) =
      (port, { c with lane := if fum then 0 else turn % lanes, ack := ack }) ::
        sentCodewords port fum (if fum then turn else turn % lanes + 1) lanes ack cws := by
  unfold sentCodewords
  rw [List.mapIdx_cons, Nat.add_zero]
  congr 1
  refine List.mapIdx_eq_mapIdx_iff.mpr fun i hi => ?_
  cases fum
  · have hlane : (turn + (i + 1)) % lanes = (turn % lanes + 1 + i) % lanes := by
      rw [Nat.add_right_comm, Nat.add_assoc, Nat.add_comm i 1, Nat.mod_add_mod]
    rw [if_neg (by decide), if_neg (by decide), if_neg (by decide), hlane]
  · rfl

section
variable {s : State} {port : Nat}

/-- A data codeword of an up port leaves, and stays in the replay store. -/
theorem sendCodeword_up (fum : Bool) (fs : List Flit) (hup : portUp s port = true) :
    (sendCodeword s port fum fs).tx = s.tx ++ [(port,
      { fum := fum, pad := slotsOf fum - fs.length, seq := (linkOf s port).tx, flits := fs
        lane := if fum then 0 else (linkOf s port).turn % max 1 (bulkLanes s port), ack := (linkOf s port).ack })] ∧
    linkOf (sendCodeword s port fum fs) port = { linkOf s port with
      tx := ((linkOf s port).tx + 1) % 16384
      replay := (linkOf s port).replay ++
        [{ fum := fum, pad := slotsOf fum - fs.length, seq := (linkOf s port).tx, flits := fs }]
      turn := if fum then (linkOf s port).turn
        else (linkOf s port).turn % max 1 (bulkLanes s port) + 1 } := by
  have hup' (l : Link) : portUp (setLink s port l) port = true := hup
  unfold sendCodeword
  dsimp only
  rw [if_pos (hup' _)]
  unfold putCodeword
  dsimp only
  rw [linkOf_setLink_same]
  cases fum
  · rw [if_pos ⟨rfl, by decide⟩]
    refine ⟨rfl, ?_⟩
    rw [linkOf_setLink_same]
    rfl
  · rw [if_neg (by simp)]
    exact ⟨rfl, linkOf_setLink_same ..⟩

/-- The codewords of a packet leave one after another, and stay in the replay store. -/
theorem forEach_sendCodeword (fum : Bool) (fss : List (List Flit)) (hup : portUp s port = true)
    (htx : (linkOf s port).tx < 16384) :
    (forEach fss s (fun s fs => sendCodeword s port fum fs)).tx = s.tx ++
      sentCodewords port fum (linkOf s port).turn (max 1 (bulkLanes s port)) (linkOf s port).ack
        (dealtCodewords fum (linkOf s port).tx fss) ∧
    (linkOf (forEach fss s (fun s fs => sendCodeword s port fum fs)) port).replay =
      (linkOf s port).replay ++ dealtCodewords fum (linkOf s port).tx fss ∧
    (linkOf (forEach fss s (fun s fs => sendCodeword s port fum fs)) port).tx =
      ((linkOf s port).tx + fss.length) % 16384 := by
  induction fss generalizing s with
  | nil => exact ⟨(List.append_nil _).symm, (List.append_nil _).symm, (Nat.mod_eq_of_lt htx).symm⟩
  | cons fs fss ih =>
    obtain ⟨hsent, hlink⟩ := sendCodeword_up fum fs hup
    have hport := PortSent.sendCodeword (port := port) s fum fs
    have hnext : (linkOf (sendCodeword s port fum fs) port).tx < 16384 := by
      rw [hlink]
      exact Nat.mod_lt _ (by decide)
    obtain ⟨hsents, hreplay, htxs⟩ := ih ((hport.portUp_eq port).trans hup) hnext
    change (forEach fss (sendCodeword s port fum fs) _).tx = _ ∧
      (linkOf (forEach fss (sendCodeword s port fum fs) _) port).replay = _ ∧
      (linkOf (forEach fss (sendCodeword s port fum fs) _) port).tx = _
    rw [hsents, hreplay, htxs, hsent, hlink, hport.bulkLanes_eq, dealtCodewords_cons, sentCodewords_cons,
      List.append_assoc, List.append_assoc, List.singleton_append, List.singleton_append, Nat.mod_eq_of_lt htx]
    refine ⟨rfl, rfl, ?_⟩
    simp only [List.length_cons]
    omega

end

/-! ### Flits dealt to codewords -/

/-- Dealt in runs of one length, a list's elements are those of the list. -/
theorem flatMap_runs {α : Type} {k : Nat} (xs : List α) (n : Nat) (hn : xs.length ≤ n * k) :
    (List.range n).flatMap (fun i => (xs.drop (i * k)).take k) = xs := by
  have hprefix : ∀ m, (List.range m).flatMap (fun i => (xs.drop (i * k)).take k) = xs.take (m * k) := by
    intro m
    induction m with
    | zero => simp
    | succ m ih =>
      rw [List.range_succ, List.flatMap_append, ih, Nat.succ_mul, List.take_add]
      simp
  rw [hprefix, List.take_of_length_le hn]

/-- The flits of the codewords are the flits dealt to them. -/
theorem flatten_dealFlits (fum : Bool) (fs : List Flit) : (dealFlits fum fs).flatten = fs := by
  have hslots : 0 < slotsOf fum := by cases fum <;> decide
  have hmany : fs.length ≤ cdiv fs.length (slotsOf fum) * slotsOf fum := by
    have hdiv := Nat.div_add_mod (fs.length + slotsOf fum - 1) (slotsOf fum)
    have hmod := Nat.mod_lt (fs.length + slotsOf fum - 1) hslots
    unfold cdiv
    rw [Nat.mul_comm]
    omega
  unfold dealFlits
  rw [← List.flatMap_def]
  exact flatMap_runs fs _ hmany

/-- The flits of codewords that leave an up port are those dealt to them. -/
theorem forEach_sendCodeword_flits {port : Nat} (fum : Bool) (fss : List (List Flit)) :
    ∀ s : State, portUp s port = true → ∃ cs : List (Nat × Codeword),
      (forEach fss s (fun s fs => sendCodeword s port fum fs)).tx = s.tx ++ cs ∧ (∀ c ∈ cs, c.1 = port) ∧
      cs.flatMap (fun c => c.2.flits) = fss.flatten := by
  induction fss with
  | nil => exact fun s _ => ⟨[], (List.append_nil _).symm, fun _ h => absurd h List.not_mem_nil, rfl⟩
  | cons fs fss ih =>
    intro s hup
    obtain ⟨c, hsent, hc, hfs⟩ : ∃ c : Nat × Codeword, (sendCodeword s port fum fs).tx = s.tx ++ [c] ∧
        c.1 = port ∧ c.2.flits = fs := ⟨_, (sendCodeword_up fum fs hup).1, rfl, rfl⟩
    obtain ⟨cs, hsents, hport, hflits⟩ :=
      ih _ (((PortSent.sendCodeword (port := port) s fum fs).portUp_eq port).trans hup)
    refine ⟨c :: cs, ?_, List.forall_mem_cons.mpr ⟨hc, hport⟩, ?_⟩
    · exact hsents.trans (by rw [hsent, List.append_assoc]; rfl)
    · rw [List.flatMap_cons, hflits, hfs, List.flatten_cons]

end Sys2Proof.Machine
end

section
/-!
PROOFS. Packets that start on a link, and codewords that are received (R228 to R230, R234).
-/

namespace Sys2Proof.Machine

/-! ### A waiting packet starts -/

/-- The state in which a waiting packet has left its queue and taken its credits. -/
def outqTaken (s : State) (w : OutWait) : State :=
  setLink { s with outq := s.outq.erase w } w.port { linkOf s w.port with
    used := mset 0 (linkOf s w.port).used (creditKey w.vc w.detour)
      (mget 0 (linkOf s w.port).used (creditKey w.vc w.detour) + creditCost w.pkt)
    last := if w.vc = 1 ∨ w.vc = 2 then w.vc else (linkOf s w.port).last }

section
variable {s : State} {w : OutWait}

theorem linkOf_outqTaken (s : State) (w : OutWait) : linkOf (outqTaken s w) w.port = { linkOf s w.port with
    used := mset 0 (linkOf s w.port).used (creditKey w.vc w.detour)
      (mget 0 (linkOf s w.port).used (creditKey w.vc w.detour) + creditCost w.pkt)
    last := if w.vc = 1 ∨ w.vc = 2 then w.vc else (linkOf s w.port).last } :=
  linkOf_setLink_same ..

theorem linkOf_outqTaken_other (s : State) {w : OutWait} {q : Nat} (hq : q ≠ w.port) :
    linkOf (outqTaken s w) q = linkOf s q := linkOf_setLink_other { s with outq := s.outq.erase w } _ hq

/-- The packet that a virtual channel and class of an output would start is one of that output. -/
theorem headOf_spec {port vc : Nat} {detour : Bool} (h : headOf s port vc detour = some w) :
    w.port = port ∧ w.vc = vc ∧ w.detour = detour := by
  have hw := List.find?_some h
  simp only [Bool.and_eq_true, decide_eq_true_eq] at hw
  obtain ⟨⟨hport, hvc⟩, hdetour⟩ := hw
  exact ⟨hport, hvc, hdetour⟩

/-- A packet starts on an up port alone. -/
theorem portUp_of_canStart (h : canStart s w = true) : portUp s w.port = true := by
  simp only [canStart, Bool.and_eq_true] at h
  obtain ⟨⟨⟨hup, -⟩, -⟩, -⟩ := h
  exact hup

/-- The next packet of an output's channel and class starts. -/
theorem packetLinkStart_starts {port : FabPort} {vc : Fin 4} {detour : Bool}
    (hhead : headOf s port vc detour = some w) (hcan : canStart s w = true) (hturn : vcTurn s port vc = true) :
    Ends (.packetLinkStart port vc detour) s (startOnLink s w) := by
  refine congrArg Host.Outcome.next ?_
  unfold linkStart
  rw [hhead]
  exact if_pos (by rw [hcan, hturn]; rfl)

/-- A packet that has arrived whole leaves in its codewords, and frees the buffer that it filled. -/
theorem startOnLink_whole (hcut : w.cut = false) : startOnLink s w =
    returnCredit (sendFlits (outqTaken s w) w.port w.pkt (packetFlits w.pkt)) w.src := by
  have hwhole : ¬w.cut = true := by rw [hcut]; decide
  exact if_neg hwhole

/-- Flits that leave are sent by their port. -/
theorem sendFlits_portSent (s : State) (port : Nat) (p : Packet) (fs : List Flit) :
    PortSent port s (sendFlits s port p fs) :=
  PortSent.forEach (fun t x => PortSent.sendCodeword t _ x) _ s

/-- What flits that leave on an up port come to. -/
theorem sendFlits_up {port : Nat} (p : Packet) (fs : List Flit) (hup : portUp s port = true)
    (htx : (linkOf s port).tx < 16384) :
    (sendFlits s port p fs).tx = s.tx ++
      sentCodewords port (decide (packetVc p.type = 3)) (linkOf s port).turn (max 1 (bulkLanes s port))
        (linkOf s port).ack
        (dealtCodewords (decide (packetVc p.type = 3)) (linkOf s port).tx (dealFlits (packetVc p.type = 3) fs)) ∧
    (linkOf (sendFlits s port p fs) port).replay = (linkOf s port).replay ++
      dealtCodewords (decide (packetVc p.type = 3)) (linkOf s port).tx (dealFlits (packetVc p.type = 3) fs) ∧
    (linkOf (sendFlits s port p fs) port).tx =
      ((linkOf s port).tx + (dealFlits (packetVc p.type = 3) fs).length) % 16384 :=
  forEach_sendCodeword _ _ hup htx

/-- The state in which the part of a packet that has arrived has left. -/
def cutSent (s : State) (w : OutWait) (x : PartIn) : State :=
  sendFlits (outqTaken s w) w.port w.pkt ((packetFlits w.pkt).take (flitsOf w.pkt - x.left))

/-- A packet that has arrived in part: that part leaves, and the rest is to follow. -/
theorem startOnLink_cut {i : Nat} {p : Packet} {x : PartIn} (hcut : w.cut = true) (hsrc : w.src = some (i, p))
    (hi : i ≠ w.port) (hx : (linkOf s i).part.find? (fun x => x.entered && waitsCut i x w) = some x) :
    startOnLink s w = setLink (cutSent s w x) i { linkOf (cutSent s w x) i with
      part := (linkOf (cutSent s w x) i).part.map (fun y =>
        if y = x then { y with out := some (w.port, w.pkt) } else y) } := by
  have hfind : (linkOf (outqTaken s w) i).part.find? (fun x => x.entered && waitsCut i x w) = some x := by
    rw [linkOf_outqTaken_other s hi]
    exact hx
  refine (if_pos hcut).trans ?_
  change startCut (outqTaken s w) w = _
  unfold startCut
  rw [hsrc]
  dsimp only
  rw [hfind]
  rfl

end

/-! ### Codewords in error, and what ACK covers -/

/-- The state in which a codeword's ACK has freed what it covers, and the credits that wait for room have left. -/
def ackFreed (s : State) (port ack : Nat) : State := payCredits (setLink s port (ackLink (linkOf s port) ack)) port

/-- An idle or a NAK codeword leaves with the ACK of the moment. -/
theorem sendBare_eq (s : State) (port : Nat) {kind : CwKind} (seq : Nat) (hkind : kind ≠ .data) :
    sendBare s port kind seq =
      { s with tx := s.tx ++ [(port, { kind := kind, seq := seq, ack := (linkOf s port).ack })] } := by
  have hbare : ¬(kind = .data ∧ (!false) = true) := fun h => hkind h.1
  exact if_neg hbare

section
variable {s : State} {port : FabPort} {cw : Codeword}

/-- A codeword with more bad symbols than its code corrects is answered with a NAK. -/
theorem codewordReceive_bad (hup : portUp s port = true) (hbad : corrects cw.fum < cw.bad) :
    Ends (.codewordReceive port cw) s { s with
      tx := s.tx ++ [(port.val, { kind := .nak, seq := (linkOf s port).rx, ack := (linkOf s port).ack })] } := by
  refine congrArg Host.Outcome.next ((if_neg (by simp [hup])).trans ((if_pos hbad).trans ?_))
  exact sendBare_eq s port _ (by decide)

section
variable (hup : portUp s port = true) (hgood : cw.bad ≤ corrects cw.fum)
include hup hgood

theorem codewordReceive_idle (hkind : cw.kind = .idle) :
    Ends (.codewordReceive port cw) s (ackFreed s port cw.ack) := by
  refine congrArg Host.Outcome.next ((if_neg (by simp [hup])).trans ((if_neg (Nat.not_lt.mpr hgood)).trans ?_))
  simp only [hkind]
  rfl

theorem codewordReceive_nak (hkind : cw.kind = .nak) :
    Ends (.codewordReceive port cw) s (resendFrom (ackFreed s port cw.ack) port cw.seq) := by
  refine congrArg Host.Outcome.next ((if_neg (by simp [hup])).trans ((if_neg (Nat.not_lt.mpr hgood)).trans ?_))
  simp only [hkind]
  rfl

theorem codewordReceive_data (hkind : cw.kind = .data) :
    Ends (.codewordReceive port cw) s (takeCodeword (ackFreed s port cw.ack) port cw) := by
  refine congrArg Host.Outcome.next ((if_neg (by simp [hup])).trans ((if_neg (Nat.not_lt.mpr hgood)).trans ?_))
  simp only [hkind]
  rfl

end

/-- What ACK frees is of the sending side. -/
theorem ackFreed_portSent (s : State) (port ack : Nat) : PortSent port s (ackFreed s port ack) := by
  have hack : SentOnly (linkOf s port) (ackLink (linkOf s port) ack) := by
    unfold ackLink
    split
    · rfl
    · rfl
  exact (PortSent.setLink s hack).trans (PortSent.payCredits _)

end

/-! ### A data codeword in its turn -/

section
variable {s : State} {port : Nat} {cw : Codeword}

/-- The flits of a codeword are taken. -/
def flitsTaken (s : State) (port : Nat) (cw : Codeword) : State :=
  forEach cw.flits s (fun s f => takeFlit s port cw.seq f)

/-- The receiving side of a link after a codeword. -/
def linkAccepted (l : Link) (seq : Nat) : Link :=
  { l with
    rx := (seq + 1) % 16384, seen := if isFresh l seq then (seq + 1) % 16384 else l.seen
    ack := ackOf { l with rx := (seq + 1) % 16384, seen := if isFresh l seq then (seq + 1) % 16384 else l.seen } }

theorem acceptCodeword_eq (s : State) (port : Nat) (cw : Codeword) : acceptCodeword s port cw =
    setLink (flitsTaken s port cw) port (linkAccepted (linkOf (flitsTaken s port cw) port) cw.seq) := rfl

theorem linkOf_acceptCodeword (s : State) (port : Nat) (cw : Codeword) :
    linkOf (acceptCodeword s port cw) port = linkAccepted (linkOf (flitsTaken s port cw) port) cw.seq :=
  linkOf_setLink_same ..

/-- A codeword in sequence, with none that waits for its turn, is taken and acknowledged. -/
theorem takeCodeword_next (hseq : cw.seq = (linkOf s port).rx) (hearly : (linkOf s port).early = []) :
    takeCodeword s port cw = sendBare (acceptCodeword s port cw) port .idle
      (linkOf (acceptCodeword s port cw) port).tx := by
  unfold takeCodeword
  dsimp only
  rw [if_pos hseq, hearly]
  rfl

/-- A codeword taken before is dropped. -/
theorem takeCodeword_before (hseq : cw.seq ≠ (linkOf s port).rx) (hle : seqLe cw.seq (linkOf s port).rx = true) :
    takeCodeword s port cw = s := by
  unfold takeCodeword
  dsimp only
  rw [if_neg hseq, if_pos (.inl hle)]

/-- A codeword that comes ahead of its turn waits. -/
theorem takeCodeword_ahead (hseq : cw.seq ≠ (linkOf s port).rx) (hle : seqLe cw.seq (linkOf s port).rx = false)
    (hearly : (linkOf s port).early = []) :
    takeCodeword s port cw = setLink s port { linkOf s port with early := [cw] } := by
  unfold takeCodeword
  dsimp only
  rw [if_neg hseq, hle, hearly]
  rfl

/-! ### Flits that no forwarded packet follows -/

/-- Flits have been taken that nothing forwarded has followed: packets may have arrived, and the link has received. -/
structure PlainTaken (port : Nat) (s t : State) : Prop where
  frame   : t = { s with arrived := t.arrived, links := t.links }
  replay  : (linkOf t port).replay = (linkOf s port).replay
  waiting : ∀ x ∈ (linkOf t port).part, x.entered = false

theorem PlainTaken.trans {t u : State} (hst : PlainTaken port s t) (htu : PlainTaken port t u) :
    PlainTaken port s u := by
  refine ⟨?_, htu.replay.trans hst.replay, htu.waiting⟩
  rw [htu.frame, hst.frame]

/-- A link whose receiving side changes, with no packet that is being forwarded. -/
theorem PlainTaken.setLink (s : State) {l : Link} (hreplay : l.replay = (linkOf s port).replay)
    (hpart : ∀ x ∈ l.part, x.entered = false) : PlainTaken port s (Machine.setLink s port l) := by
  refine ⟨rfl, ?_, ?_⟩
  · rw [linkOf_setLink_same]
    exact hreplay
  · rw [linkOf_setLink_same]
    exact hpart

theorem PlainTaken.arrivePacket (hpart : ∀ x ∈ (linkOf s port).part, x.entered = false) (seq : Nat) (p : Packet) :
    PlainTaken port s (Machine.arrivePacket s port seq p) := by
  unfold Machine.arrivePacket
  split
  · exact ⟨rfl, rfl, hpart⟩
  · exact ⟨rfl, rfl, hpart⟩

/-- A flit that is no truncation mark, where no packet is being forwarded. -/
theorem takeFlit_plain {f : Flit} (seq : Nat) (hpart : ∀ x ∈ (linkOf s port).part, x.entered = false)
    (hmark : ∀ c, f ≠ .link (.truncate c)) : PlainTaken port s (takeFlit s port seq f) := by
  have hfilter (p : PartIn → Bool) : ∀ x ∈ (linkOf s port).part.filter p, x.entered = false :=
    fun x hx => hpart x (List.mem_of_mem_filter hx)
  have hpush (p : PartIn → Bool) {y : PartIn} (hy : y.entered = false) :
      ∀ x ∈ (linkOf s port).part.filter p ++ [y], x.entered = false := by
    intro x hx
    obtain hx | hx := List.mem_append.mp hx
    · exact hfilter p x hx
    · rw [List.mem_singleton.mp hx]
      exact hy
  have harrive {l : Link} (hset : PlainTaken port s (setLink s port l)) (p : Packet) :
      PlainTaken port s (arrivePacket (setLink s port l) port seq p) := hset.trans (.arrivePacket hset.waiting seq p)
  cases f with
  | head p =>
    unfold takeFlit
    dsimp only
    split
    · exact harrive (.setLink s (by rfl) (hfilter _)) p
    · exact .setLink s rfl (hpush _ rfl)
  | body vc =>
    unfold takeFlit
    dsimp only
    split
    · exact ⟨rfl, rfl, hpart⟩
    next x hx =>
      have hx' : x.entered = false := hpart x (List.mem_of_find?_eq_some hx)
      rw [hx', if_neg (by decide)]
      split
      · exact harrive (.setLink s (by rfl) (hfilter _)) x.pkt
      · exact .setLink s rfl (hpush _ rfl)
  | link f =>
    cases f with
    | credit vc d n =>
      unfold takeFlit
      dsimp only
      split
      · exact .setLink s rfl hpart
      · exact ⟨rfl, rfl, hpart⟩
    | truncate vc => exact absurd rfl (hmark vc)

/-- The flits of a codeword without truncation marks, where no packet is being forwarded. -/
theorem flitsTaken_plain (hpart : ∀ x ∈ (linkOf s port).part, x.entered = false)
    (hmark : ∀ c, Flit.link (.truncate c) ∉ cw.flits) : PlainTaken port s (flitsTaken s port cw) := by
  unfold flitsTaken
  generalize cw.flits = fs at hmark
  induction fs generalizing s with
  | nil => exact ⟨rfl, rfl, hpart⟩
  | cons f fs ih =>
    have hfirst : PlainTaken port s (takeFlit s port cw.seq f) :=
      takeFlit_plain cw.seq hpart fun c h => hmark c (h ▸ List.mem_cons_self)
    exact hfirst.trans (ih hfirst.waiting fun c h => hmark c (List.mem_cons_of_mem f h))

/-! ### Single flits -/

theorem flitsTaken_singleton {f : Flit} (hflits : cw.flits = [f]) :
    flitsTaken s port cw = takeFlit s port cw.seq f := by
  rw [flitsTaken, hflits]
  rfl

/-- A packet that has arrived whole for the first time is handed on. -/
theorem arrivePacket_fresh {seq : Nat} (p : Packet) (hfresh : isFresh (linkOf s port) seq = true) :
    arrivePacket s port seq p = { s with arrived := s.arrived ++ [(port, p)] } := if_pos hfresh

/-- A packet without payload arrives with its header. -/
theorem takeFlit_head {seq : Nat} {p : Packet} (hlen : p.len = 0) (hfresh : isFresh (linkOf s port) seq = true) :
    (takeFlit s port seq (.head p)).arrived = s.arrived ++ [(port, p)] := by
  unfold takeFlit
  dsimp only
  rw [if_pos hlen, arrivePacket_fresh _ (by rw [linkOf_setLink_same]; exact hfresh)]
  rfl

/-- A packet arrives with its last payload flit. -/
theorem takeFlit_last {seq : Nat} {vc : Fin 4} {x : PartIn}
    (hx : (linkOf s port).part.find? (fun x => x.vc = vc.val) = some x) (hleft : x.left = 1)
    (hentered : x.entered = false) (hfresh : isFresh (linkOf s port) seq = true) :
    (takeFlit s port seq (.body vc)).arrived = s.arrived ++ [(port, x.pkt)] ∧
    (linkOf (takeFlit s port seq (.body vc)) port).part = (linkOf s port).part.filter (fun x => x.vc ≠ vc.val) := by
  unfold takeFlit
  dsimp only
  rw [hx]
  dsimp only
  rw [hentered, if_neg (by decide), if_pos hleft, if_pos hleft,
    arrivePacket_fresh _ (by rw [linkOf_setLink_same]; exact hfresh)]
  exact ⟨rfl, congrArg Link.part (linkOf_setLink_same ..)⟩

/-- A link flit takes effect the first time that it comes. -/
theorem takeFlit_link {seq : Nat} (f : LinkFlit) (hfresh : isFresh (linkOf s port) seq = true) :
    takeFlit s port seq (.link f) = takeLinkFlit s port f := if_pos hfresh

/-- Credits come back. -/
theorem used_takeLinkFlit_credit (s : State) (port : Nat) (vc : Fin 4) (d : Bool) (n : Nat) :
    mget 0 (linkOf (takeLinkFlit s port (.credit vc d n)) port).used (creditKey vc d) =
      mget 0 (linkOf s port).used (creditKey vc d) - n := by
  unfold takeLinkFlit
  dsimp only
  rw [linkOf_setLink_same]
  exact mget_mset_same ..

/-- A truncation mark discards the packet that has come in part. -/
theorem part_takeLinkFlit_truncate (vc : Fin 4) (hpart : ∀ x ∈ (linkOf s port).part, x.entered = false) :
    (linkOf (takeLinkFlit s port (.truncate vc)) port).part =
      (linkOf s port).part.filter (fun x => x.vc ≠ vc.val) := by
  unfold takeLinkFlit
  dsimp only
  split
  next hnone =>
    refine (List.filter_eq_self.mpr fun x hx => ?_).symm
    have hne := List.find?_eq_none.mp hnone x hx
    simpa using hne
  next x hx =>
    have hentered : x.entered = false := hpart x (List.mem_of_find?_eq_some hx)
    have hdrop (t : State) : dropCut t port x = t := if_pos (by rw [hentered]; rfl)
    rw [hdrop]
    obtain ⟨-, -, -, -, hkept, -⟩ := (PortSent.returnCredit (port := port) (setLink s port
      { linkOf s port with part := (linkOf s port).part.filter (fun x => x.vc ≠ vc.val) }) x.pkt).received
    rw [hkept, linkOf_setLink_same]

/-- A data codeword stays in the replay store of its port. -/
theorem replay_sendCodeword (s : State) (o : Nat) (fum : Bool) (fs : List Flit) :
    ∃ c ∈ (linkOf (sendCodeword s o fum fs) o).replay, c.flits = fs := by
  refine ⟨{ fum := fum, pad := slotsOf fum - fs.length, seq := (linkOf s o).tx, flits := fs }, ?_, rfl⟩
  have hput (t : State) (c : Codeword) : (linkOf (putCodeword t o c) o).replay = (linkOf t o).replay := by
    unfold putCodeword
    dsimp only
    split
    · rw [linkOf_setLink_same]
    · rfl
  unfold sendCodeword
  dsimp only
  split
  · rw [hput, linkOf_setLink_same]
    exact List.mem_append_right _ (List.mem_singleton_self _)
  · rw [linkOf_setLink_same]
    exact List.mem_append_right _ (List.mem_singleton_self _)

/-- What has been forwarded of a discarded packet is truncated in turn. -/
theorem takeLinkFlit_truncate_forwarded {vc : Fin 4} {x : PartIn} {o : Nat} {q : Packet}
    (hx : (linkOf s port).part.find? (fun x => x.vc = vc.val) = some x) (hentered : x.entered = true)
    (hout : x.out = some (o, q)) (ho : o ≠ port) :
    ∃ c ∈ (linkOf (takeLinkFlit s port (.truncate vc)) o).replay,
      c.flits = [.link (.truncate (vcN (packetVc q.type)))] := by
  unfold takeLinkFlit
  dsimp only
  rw [hx]
  dsimp only
  have hdrop (t : State) : dropCut t port x = sendTruncate t o (packetVc q.type) := by
    unfold dropCut
    rw [hentered, hout, if_neg (by decide)]
  rw [(PortSent.returnCredit (port := port) _ x.pkt).other o ho, hdrop]
  exact replay_sendCodeword ..

end

section
variable {s : State} {port : FabPort} {vc : Fin 4} {detour : Bool} {w : OutWait}
  (hhead : headOf s port vc detour = some w) (hcan : canStart s w = true) (hturn : vcTurn s port vc = true)
include hhead hcan hturn

/-- A packet that has arrived whole starts. -/
theorem packetLinkStart_whole (hcut : w.cut = false) (htx : (linkOf s port).tx < 16384) :
    let fum := decide (packetVc w.pkt.type = 3)
    let cws := dealtCodewords fum (linkOf s port).tx (dealFlits fum (packetFlits w.pkt))
    ∃ v, Ends (.packetLinkStart port vc detour) s (returnCredit v w.src) ∧ v.outq = s.outq.erase w ∧
      v.tx = s.tx ++ sentCodewords port fum (linkOf s port).turn (max 1 (bulkLanes s port)) (linkOf s port).ack cws ∧
      mget 0 (linkOf v port).used (creditKey vc detour) =
        mget 0 (linkOf s port).used (creditKey vc detour) + creditCost w.pkt ∧
      (linkOf v port).replay = (linkOf s port).replay ++ cws ∧
      (linkOf v port).tx = ((linkOf s port).tx + cws.length) % 16384 ∧
      v = { s with outq := v.outq, tx := v.tx, links := v.links } := by
  obtain ⟨hport, hvc, hdetour⟩ := headOf_spec hhead
  have hup : portUp s port = true := hport ▸ portUp_of_canStart hcan
  have hlink : linkOf (outqTaken s w) port = _ := hport ▸ linkOf_outqTaken s w
  have hstart := packetLinkStart_starts hhead hcan hturn
  rw [startOnLink_whole hcut, hport] at hstart
  obtain ⟨hsent, hreplay, hnext⟩ := sendFlits_up w.pkt (packetFlits w.pkt) (s := outqTaken s w) hup
    (by rw [hlink]; exact htx)
  have hframe := (sendFlits_portSent (outqTaken s w) port w.pkt (packetFlits w.pkt)).links
  obtain ⟨-, -, -, -, -, hused⟩ := (sendFlits_portSent (outqTaken s w) port w.pkt (packetFlits w.pkt)).received
  rw [hlink] at hsent hreplay hnext hused
  have hlen (n : Nat) (fss : List (List Flit)) :
      (dealtCodewords (decide (packetVc w.pkt.type = 3)) n fss).length = fss.length := List.length_mapIdx
  refine ⟨_, hstart, ?_, hsent, ?_, hreplay, ?_, ?_⟩
  · rw [hframe]
    rfl
  · rw [hused, hvc, hdetour]
    exact mget_mset_same ..
  · rw [hlen]
    exact hnext
  · unfold LinksOnly at hframe
    rw [hframe]
    rfl

/-- A packet that has arrived in part starts with that part. -/
theorem packetLinkStart_cut {i : Nat} {p : Packet} {x : PartIn} (hcut : w.cut = true) (hsrc : w.src = some (i, p))
    (hi : i ≠ port.val) (hx : (linkOf s i).part.find? (fun x => x.entered && waitsCut i x w) = some x) :
    ∃ v cs, Ends (.packetLinkStart port vc detour) s v ∧ v.outq = s.outq.erase w ∧
      v.tx = s.tx ++ cs ∧ (∀ c ∈ cs, c.1 = port.val) ∧
      cs.flatMap (fun c => c.2.flits) = (packetFlits w.pkt).take (1 + w.pkt.len - x.left) ∧
      mget 0 (linkOf v port).used (creditKey vc detour) =
        mget 0 (linkOf s port).used (creditKey vc detour) + creditCost w.pkt ∧
      { x with out := some (port.val, w.pkt) } ∈ (linkOf v i).part := by
  obtain ⟨hport, hvc, hdetour⟩ := headOf_spec hhead
  have hup : portUp s port = true := hport ▸ portUp_of_canStart hcan
  have hi' : i ≠ w.port := hport ▸ hi
  have hstart := packetLinkStart_starts hhead hcan hturn
  rw [startOnLink_cut hcut hsrc hi' hx] at hstart
  have hsent : PortSent port (outqTaken s w) (cutSent s w x) := hport ▸ sendFlits_portSent ..
  obtain ⟨cs, htx, hcs, hflits⟩ := forEach_sendCodeword_flits (port := port) (packetVc w.pkt.type = 3)
    (dealFlits (packetVc w.pkt.type = 3) ((packetFlits w.pkt).take (flitsOf w.pkt - x.left))) (outqTaken s w) hup
  refine ⟨_, cs, hstart, ?_, ?_, hcs, hflits.trans (flatten_dealFlits ..), ?_, ?_⟩
  · rw [setLink_outq, hsent.links]
    rfl
  · rw [setLink_tx, cutSent, hport]
    exact htx
  · obtain ⟨-, -, -, -, -, hused⟩ := hsent.received
    have hlink : linkOf (outqTaken s w) port = _ := hport ▸ linkOf_outqTaken s w
    rw [linkOf_setLink_other _ _ hi.symm, hused, hlink, hvc, hdetour]
    exact mget_mset_same ..
  · have hpart : x ∈ (linkOf (cutSent s w x) i).part := by
      rw [hsent.other i hi, linkOf_outqTaken_other s hi']
      exact List.mem_of_find?_eq_some hx
    rw [linkOf_setLink_same, hport]
    exact List.mem_map.mpr ⟨x, hpart, if_pos rfl⟩

end

end Sys2Proof.Machine
end

section
/-!
PROOFS. What optical links carry (R228 to R230, R234, R408).
-/

namespace Sys2Proof.Machine

section
variable {s : State} {port : FabPort} {cw : Codeword}

/-- A data codeword in sequence: it is taken, and acknowledged by an idle codeword. -/
theorem codewordReceive_next (hup : portUp s port = true) (hgood : cw.bad ≤ corrects cw.fum) (hkind : cw.kind = .data)
    (hseq : cw.seq = (linkOf s port).rx) (hearly : (linkOf s port).early = []) :
    Ends (.codewordReceive port cw) s (sendBare (acceptCodeword (ackFreed s port cw.ack) port cw) port .idle
      (linkOf (acceptCodeword (ackFreed s port cw.ack) port cw) port).tx) := by
  obtain ⟨hrx, -, -, hwait, -⟩ := (ackFreed_portSent s port cw.ack).received
  have htake := codewordReceive_data hup hgood hkind
  rw [takeCodeword_next (hseq.trans hrx.symm) (hwait.trans hearly)] at htake
  exact htake

end

section
variable {s : State} {port : Nat} {cw : Codeword}

/-- After a codeword in sequence, and with no packet being forwarded, the link has received. -/
theorem acceptCodeword_plain (hpart : ∀ x ∈ (linkOf s port).part, x.entered = false)
    (hmark : ∀ c, Flit.link (.truncate c) ∉ cw.flits) :
    (linkOf (acceptCodeword s port cw) port).replay = (linkOf s port).replay ∧
    acceptCodeword s port cw = { s with
      arrived := (acceptCodeword s port cw).arrived, links := (acceptCodeword s port cw).links } := by
  have hplain := flitsTaken_plain hpart hmark
  refine ⟨?_, ?_⟩
  · rw [linkOf_acceptCodeword]
    exact hplain.replay
  · rw [acceptCodeword_eq, setLink, hplain.frame]

theorem arrived_acceptCodeword (s : State) (port : Nat) (cw : Codeword) :
    (acceptCodeword s port cw).arrived = (flitsTaken s port cw).arrived := rfl

theorem part_acceptCodeword (s : State) (port : Nat) (cw : Codeword) :
    (linkOf (acceptCodeword s port cw) port).part = (linkOf (flitsTaken s port cw) port).part := by
  rw [linkOf_acceptCodeword]
  rfl

theorem used_acceptCodeword (s : State) (port : Nat) (cw : Codeword) :
    (linkOf (acceptCodeword s port cw) port).used = (linkOf (flitsTaken s port cw) port).used := by
  rw [linkOf_acceptCodeword]
  rfl

theorem linkOf_acceptCodeword_other (s : State) {port o : Nat} (cw : Codeword) (ho : o ≠ port) :
    linkOf (acceptCodeword s port cw) o = linkOf (flitsTaken s port cw) o :=
  linkOf_setLink_other _ _ ho

end

/-- Settles O37: a start by whether its packet is whole, a codeword by its errors, its kind and its place in the
sequence. -/
theorem linksCarryPackets : Obligations.LinksCarryPackets := by
  intro port vc detour n ack cw lf s l key
  refine ⟨fun w hhead hcan hturn => ⟨fun hcut htx => ?_, fun i p x hcut hsrc hi hx => ?_⟩, rfl, fun hup => ?_⟩
  · exact packetLinkStart_whole hhead hcan hturn hcut htx
  · exact packetLinkStart_cut hhead hcan hturn hcut hsrc hi hx
  intro least freed
  have hfreed : freed = ackFreed s port cw.ack := by
    simp only [freed, ackFreed, ackLink, l]
    cases (linkOf s port).replay.findIdx? fun c => decide (c.seq = cw.ack)
    · rfl
    · rfl
  have hsent : PortSent port s freed := hfreed ▸ ackFreed_portSent s port cw.ack
  obtain ⟨hrx, hseen, hack, hearly, hpart, hused⟩ := hsent.received
  rw [hfreed]
  rw [hfreed] at hrx hseen hearly hpart hused
  refine ⟨fun hbad => codewordReceive_bad hup hbad, fun hgood hkind => codewordReceive_idle hup hgood hkind,
    fun hgood hkind => codewordReceive_nak hup hgood hkind, fun hgood hkind hne => ?_,
    fun hgood hkind hseq hnone => ?_⟩
  · have htake := codewordReceive_data hup hgood hkind
    have hne' : cw.seq ≠ (linkOf (ackFreed s port cw.ack) port).rx := hrx ▸ hne
    refine ⟨fun hle => ?_, fun hle hnone => ?_⟩
    · rw [takeCodeword_before hne' (hrx ▸ hle)] at htake
      exact htake
    · rw [takeCodeword_ahead hne' (hrx ▸ hle) (hearly.trans hnone)] at htake
      exact ⟨_, htake, linkOf_setLink_same .., rfl⟩
  · have hfresh (h : isFresh l cw.seq = true) : isFresh (linkOf (ackFreed s port cw.ack) port) cw.seq = true := by
      unfold isFresh at *
      rw [hseen]
      exact h
    have hstill (h : ∀ x ∈ l.part, x.entered = false) :
        ∀ x ∈ (linkOf (ackFreed s port cw.ack) port).part, x.entered = false := hpart ▸ h
    refine ⟨_, codewordReceive_next hup hgood hkind hseq hnone, ?_, ?_, fun hwhole hmark => ?_, fun hnew hwhole => ?_,
      fun x o q hnew hx hentered hout ho hflits => ?_⟩
    · rw [linkOf_acceptCodeword]
      rfl
    · rw [linkOf_acceptCodeword]
      rfl
    · exact acceptCodeword_plain (hstill hwhole) hmark
    · refine ⟨fun p hflits hlen => ?_, fun x hflits hx hleft => ?_, fun hflits => ?_, fun hflits => ?_⟩
      · rw [arrived_acceptCodeword, flitsTaken_singleton hflits, takeFlit_head hlen (hfresh hnew),
          (ackFreed_portSent s port cw.ack).links]
      · obtain ⟨harrived, hrest⟩ := takeFlit_last (hpart ▸ hx) hleft (hwhole x (List.mem_of_find?_eq_some hx))
          (hfresh hnew)
        rw [arrived_acceptCodeword, part_acceptCodeword, flitsTaken_singleton hflits, harrived, hrest, hpart,
          (ackFreed_portSent s port cw.ack).links]
        exact ⟨rfl, rfl⟩
      · rw [used_acceptCodeword, flitsTaken_singleton hflits, takeFlit_link _ (hfresh hnew)]
        exact (used_takeLinkFlit_credit ..).trans (by rw [hused]; rfl)
      · rw [part_acceptCodeword, flitsTaken_singleton hflits, takeFlit_link _ (hfresh hnew),
          part_takeLinkFlit_truncate vc (hstill hwhole), hpart]
    · rw [linkOf_acceptCodeword_other _ _ ho, flitsTaken_singleton hflits, takeFlit_link _ (hfresh hnew)]
      exact takeLinkFlit_truncate_forwarded (hpart ▸ hx) hentered hout ho

end Sys2Proof.Machine
end

section
/-!
PROOFS. What the collective engines change, and what they read that such changes leave alone.
-/

namespace Sys2Proof.Machine

/-- No more has changed than the queues and what the collective engines and the Geysers hold, send and report. -/
def QueueOnly (s t : State) : Prop := t = { s with
  cqs := t.cqs, starts := t.starts, inbox := t.inbox, inject := t.inject, grants := t.grants, geysers := t.geysers
  credits := t.credits, tremor := t.tremor, due := t.due }

namespace QueueOnly

variable {s t : State} (h : QueueOnly s t)
include h

theorem mem_eq : t.mem = s.mem := by rw [h]

theorem myPos_eq : myPos t = myPos s := by rw [h]; rfl

theorem domSize_eq (d : Dom) : domSize t d = domSize s d := by rw [h]; rfl

theorem jw_eq : t.jw = s.jw := by rw [h]

theorem rg_eq (slot : Nat) (f : Fld) : rg t slot f = rg s slot f := by rw [h]; rfl

theorem primaryAddr_eq (a : Nat) : primaryAddr t a = primaryAddr s a := by rw [h]; rfl

theorem reachFrom_eq (k a n : Nat) : reachFrom k t a n = reachFrom k s a n := by
  induction k generalizing a n with
  | zero => rfl
  | succ k ih => simp only [reachFrom, h.domSize_eq, ih]

theorem calRead_eq (a n : Nat) : calRead t a n = calRead s a n := by
  rw [calRead, h.primaryAddr_eq, rdBytes_congr h.mem_eq, calRead]

theorem sizeEntry_eq (a k : Nat) : sizeEntry t a k = sizeEntry s a k := by
  simp only [sizeEntry, h.calRead_eq]

theorem sizeSum_eq (a k : Nat) (f : Nat × Nat → Nat) : sizeSum t a k f = sizeSum s a k f := by
  simp only [sizeSum, h.sizeEntry_eq]

theorem ownerOf_eq (c : Cq) (w b : Nat) : ownerOf t c w b = ownerOf s c w b := by
  simp only [ownerOf, h.calRead_eq]

theorem ownersOk_eq (c : Cq) (w : Nat) : ownersOk t c w = ownersOk s c w := by
  simp only [ownersOk, h.ownerOf_eq]

theorem myBuckets_eq (c : Cq) (w r : Nat) : myBuckets t c w r = myBuckets s c w r := by
  simp only [myBuckets, h.ownerOf_eq]

theorem resultPlace_eq (c : Cq) (w b k : Nat) : resultPlace t c w b k = resultPlace s c w b k := by
  simp only [resultPlace, h.myBuckets_eq]

theorem allReach_eq (a n : Nat) : allReach t a n = allReach s a n := h.reachFrom_eq ..

theorem pairedForm_eq : pairedForm t = pairedForm s := by rw [h]; rfl

theorem isPaired_eq : isPaired t = isPaired s := by rw [h]; rfl

theorem inWindows_eq (job a n : Nat) : inWindows t job a n = inWindows s job a n := by
  simp only [inWindows, mirrorReaches, h.pairedForm_eq, h.isPaired_eq, h.allReach_eq, h.jw_eq]

theorem opReads_eq (c : Cq) (w r : Nat) : opReads t c w r = opReads s c w r := by
  simp only [opReads, h.sizeSum_eq]

theorem opWrites_eq (c : Cq) (w r : Nat) : opWrites t c w r = opWrites s c w r := by
  simp only [opWrites, h.sizeSum_eq, h.myBuckets_eq]

theorem opWindows_eq (c : Cq) (w : Nat) : opWindows t c w = opWindows s c w := by
  simp only [opWindows, h.opReads_eq, h.opWrites_eq, h.inWindows_eq]

theorem posAt_eq (c : Cq) (k r : Nat) : posAt t c k r = posAt s c k r := by rw [h]; rfl

theorem rankAt_eq (c : Cq) (k pos : Nat) : rankAt t c k pos = rankAt s c k pos := by
  simp only [rankAt, h.posAt_eq]

theorem bcastKids_eq (c : Cq) (w k : Nat) : bcastKids t c w k = bcastKids s c w k := by
  simp only [bcastKids, bcastRanks, rank0, h.rankAt_eq, h.posAt_eq, h.myPos_eq]

theorem bcastParent_eq (c : Cq) (w k : Nat) : bcastParent t c w k = bcastParent s c w k := by
  simp only [bcastParent, bcastRanks, rank0, h.rankAt_eq, h.posAt_eq, h.myPos_eq]

theorem sendsTo_eq (c : Cq) (w : Nat) : sendsTo t c w = sendsTo s c w := by
  have hkids : bcastKids t c w = bcastKids s c w := funext (h.bcastKids_eq c w)
  simp only [sendsTo, bcastAllKids, hkids]

theorem receivesFrom_eq (c : Cq) (w : Nat) : receivesFrom t c w = receivesFrom s c w := by
  have hparent : bcastParent t c w = bcastParent s c w := funext (h.bcastParent_eq c w)
  simp only [receivesFrom, bcastParents, hparent]

theorem sendBytes_eq (w r : Nat) : sendBytes t w r = sendBytes s w r := by
  simp only [sendBytes, h.sizeEntry_eq]

theorem recvBytes_eq (w r : Nat) : recvBytes t w r = recvBytes s w r := by
  simp only [recvBytes, h.sizeEntry_eq]

theorem recvPackets_eq (c : Cq) (w r : Nat) : recvPackets t c w r = recvPackets s c w r := by
  simp only [recvPackets, h.recvBytes_eq, h.bcastParent_eq]

theorem dataPlace_eq (o : Op) (r i : Nat) : dataPlace t o r i = dataPlace s o r i := by
  simp only [dataPlace, h.sizeSum_eq, h.recvBytes_eq]

theorem grantFits_eq (c : Cq) (o : Op) (r tag op : Nat) : grantFits t c o r tag op = grantFits s c o r tag op := by
  simp only [grantFits, h.sendsTo_eq]

theorem expectsData_eq (c : Cq) (o : Op) (r tag : Nat) : expectsData t c o r tag = expectsData s c o r tag := by
  simp only [expectsData, h.receivesFrom_eq, h.recvPackets_eq]

theorem expectsDone_eq (c : Cq) (o : Op) (r tag : Nat) (mismatch : Bool) :
    expectsDone t c o r tag mismatch = expectsDone s c o r tag mismatch := by
  simp only [expectsDone, h.receivesFrom_eq]

theorem resultChunks_eq (c : Cq) (w : Nat) : resultChunks t c w = resultChunks s c w := by
  simp only [resultChunks, h.myBuckets_eq]

theorem expectsResult_eq (c : Cq) (o : Op) (p : Packet) : expectsResult t c o p = expectsResult s c o p := by
  simp only [expectsResult, h.resultPlace_eq, h.resultChunks_eq]

end QueueOnly

end Sys2Proof.Machine
end

section
/-!
PROOFS. Queue operations: their starts, their ends, and the aborts that end them together (R240, R273 to R277, R285).
-/

namespace Sys2Proof.Machine

/-! ### Operations of a queue -/

/-- The first element that satisfies a predicate is found again after it has been changed, where it still does. -/
theorem find?_updFirst {α : Type} {p : α → Bool} {f : α → α} {xs : List α} {x : α} (hx : xs.find? p = some x)
    (hf : p (f x) = true) : (updFirst p f xs).find? p = some (f x) := by
  induction xs with
  | nil => cases hx
  | cons y ys ih =>
    unfold updFirst
    by_cases hy : p y = true
    · rw [List.find?_cons_of_pos hy] at hx
      rw [if_pos hy, Option.some.inj hx]
      exact List.find?_cons_of_pos hf
    · rw [List.find?_cons_of_neg hy] at hx
      rw [if_neg hy, List.find?_cons_of_neg hy]
      exact ih hx

section
variable {s : State} {q id : Nat} {o : Op}

/-- The number of an operation that a queue finds by it. -/
theorem id_of_opOf (h : opOf s q id = some o) : o.id = id := by simpa using List.find?_some h

/-- An operation that has been changed, its number kept. -/
theorem opOf_updOp (h : opOf s q id = some o) {f : Op → Op} (hf : (f o).id = o.id) :
    opOf (updOp s q id f) q id = some (f o) := by
  unfold opOf updOp
  rw [cqOf_updCq_same]
  exact find?_updFirst h (decide_eq_true (hf.trans (id_of_opOf h)))

/-- An operation that is not finished takes a code. -/
theorem opOf_finishOp (h : opOf s q id = some o) (hready : o.ready = false) (code detail : Nat) :
    opOf (finishOp s q id code detail) q id = some { o with ready := true, code := code, detail := detail } := by
  unfold finishOp
  rw [opOf_updOp h]
  · rw [hready]
    rfl
  · rw [hready]
    rfl

/-- Changing an operation changes the queues alone. -/
theorem updOp_frame (s : State) (q id : Nat) (f : Op → Op) :
    updOp s q id f = { s with cqs := (updOp s q id f).cqs } := rfl

theorem finishOp_frame (s : State) (q id code detail : Nat) :
    finishOp s q id code detail = { s with cqs := (finishOp s q id code detail).cqs } := rfl

end

/-- What an engine does, with its progress counted, is what it does but for the tremor counters. -/
theorem engineDoes_frame (s : State) (q n : Nat) (f : State → State) :
    engineDoes s q n f = { f s with tremor := (engineDoes s q n f).tremor } := rfl

theorem opOf_engineDoes (s : State) (q n : Nat) (f : State → State) (r id : Nat) :
    opOf (engineDoes s q n f) r id = opOf (f s) r id := rfl

/-! ### Starts -/

section
variable {s : State} {q : Nat} {o : Op}

/-- A queue that starts none: it is stopped or full, nothing waits, or a TINY waits for another. -/
theorem nextOp_eq_none {c : Cq} (h : c.state ≠ 1 ∨ 16 ≤ inflight c ∨
    c.ops.all (fun x => x.started || x.ready) = true ∨
    c.ops.find? (fun x => !x.started && !x.ready) = some o ∧
      (isTiny o.desc && c.ops.any (fun x => x.started && isTiny x.desc)) = true) : nextOp c = none := by
  unfold nextOp
  split_ifs with hstop
  · rfl
  obtain hall | ⟨hfirst, halone⟩ := (or_assoc.mpr h).resolve_left hstop
  · have hnone : c.ops.find? (fun x => !x.started && !x.ready) = none := by
      rw [List.find?_eq_none]
      intro x hx
      have := List.all_eq_true.mp hall x hx
      cases hs : x.started <;> simp_all
    rw [hnone]
  · rw [hfirst]
    exact if_pos halone

/-- A started queue with room starts the first operation that waits. -/
theorem nextOp_eq_some {c : Cq} (hstate : c.state = 1) (hroom : inflight c < 16)
    (hfirst : c.ops.find? (fun x => !x.started && !x.ready) = some o)
    (halone : (isTiny o.desc && c.ops.any (fun x => x.started && isTiny x.desc)) = false) : nextOp c = some o := by
  have hgo : ¬(c.state ≠ 1 ∨ 16 ≤ inflight c) := by omega
  unfold nextOp
  rw [if_neg hgo, hfirst]
  exact if_neg (by rw [halone]; decide)

/-- The operation as it has begun. -/
def begunOp (s : State) (o : Op) : Op := { o with started := true, start := s.starts }

/-- The state in which an operation has begun. -/
def opBegun (s : State) (q : Nat) (o : Op) : State :=
  updOp { s with starts := s.starts + 1 } q o.id (fun o => { o with started := true, start := s.starts })

theorem opOf_opBegun (h : opOf s q o.id = some o) : opOf (opBegun s q o) q o.id = some (begunOp s o) :=
  opOf_updOp (s := { s with starts := s.starts + 1 }) h rfl

theorem cqOf_opBegun (s : State) (q : Nat) (o : Op) : cqOf (opBegun s q o) q = { cqOf s q with
    ops := updFirst (fun x => x.id = o.id) (fun o => { o with started := true, start := s.starts }) (cqOf s q).ops } :=
  cqOf_updCq_same ..

/-- A queue's engine finds nothing in a table where there is none, or where no sector is in error. -/
theorem readTable_finds_nothing {w : Nat} (h : auxReads (cqOf s q) w = [] ∨ s.errs = []) :
    readTable s q w = (s, false) := by
  unfold readTable
  obtain hnone | hclean := h
  · rw [hnone]
    rfl
  · have hread (a n : Nat) : readSource s q a n = (s, false) := by
      have hnone : errsIn s (primaryAddr s a) n = [] := by rw [errsIn, hclean]; rfl
      unfold readSource checkRead
      rw [hnone]
      rfl
    induction auxReads (cqOf s q) w with
    | nil => rfl
    | cons r rs ih =>
      simp only [List.foldl_cons, hread]
      exact ih

/-- The begin of an operation is seen in the queues alone. -/
theorem opBegun_queueOnly (s : State) (q : Nat) (o : Op) : QueueOnly s (opBegun s q o) := rfl

/-- An operation starts by what its table holds and where it reaches. -/
theorem startOp_eq (hnext : nextOp (cqOf s q) = some o) (hclean : auxReads (cqOf s q) o.desc = [] ∨ s.errs = []) :
    startOp s q =
      if !opWindows s (cqOf s q) o.desc then finishOp (opBegun s q o) q o.id stWindow
      else if !ownersOk s (cqOf s q) o.desc then finishOp (opBegun s q o) q o.id stMalformed
      else if isReduction (qdOp o.desc) then startReduction (opBegun s q o) q (begunOp s o)
      else if isTiny o.desc then startTiny (opBegun s q o) q (begunOp s o)
      else startTransfer (opBegun s q o) q (begunOp s o) := by
  have hread : readTable (opBegun s q o) q o.desc = (opBegun s q o, false) := by
    refine readTable_finds_nothing ?_
    rw [cqOf_opBegun]
    exact hclean
  unfold startOp
  dsimp only
  rw [hnext]
  dsimp only
  change (match readTable (opBegun s q o) q o.desc with
    | (s', bad) => if (!opWindows s' (cqOf s q) o.desc) = true then finishOp s' q o.id stWindow
      else if bad = true then finishOp s' q o.id stDataError
      else if (!ownersOk s' (cqOf s q) o.desc) = true then finishOp s' q o.id stMalformed
      else if isReduction (qdOp o.desc) = true then startReduction s' q (begunOp s o)
      else if isTiny o.desc = true then startTiny s' q (begunOp s o)
      else startTransfer s' q (begunOp s o)) = _
  rw [hread]
  dsimp only
  rw [(opBegun_queueOnly s q o).opWindows_eq, (opBegun_queueOnly s q o).ownersOk_eq, if_neg Bool.false_ne_true]

/-- A queue with nothing to start. -/
theorem collOpStart_idle {q : Fin 64} (hnext : nextOp (cqOf s q) = none) :
    ∃ u, Settles (.collOpStart q) s u ∧ u = { s with tremor := u.tremor } := by
  have hkept : startOp s q = s := by
    unfold startOp
    dsimp only
    rw [hnext]
  refine ⟨engineDoes s q 0 (fun s => startOp s q), if_neg (by rw [hnext]; exact Bool.false_ne_true), ?_⟩
  rw [engineDoes_frame, hkept]

section
variable {q : Fin 64} (hnext : nextOp (cqOf s q) = some o)
include hnext

/-- An operation waits while what it reads cannot be read. -/
theorem collOpStart_held (hheld : readsHeld s q o = true) : Ends (.collOpStart q) s s :=
  if_pos (by rw [hnext]; exact hheld)

/-- It starts once it can. -/
theorem collOpStart_starts (hheld : readsHeld s q o = false) :
    Settles (.collOpStart q) s (engineDoes s q 0 (fun s => startOp s q)) :=
  if_neg (by rw [hnext]; exact ne_true_of_eq_false hheld)

end

/-! ### A receive's start -/

/-- No grant meets a RECV. -/
theorem takeWaiting_recv (hop : opOf s q o.id = some o) (hrecv : qdOp o.desc = 2) : takeWaiting s q o.id = s := by
  refine forEach_eq_self _ _ _ fun r _ => ?_
  rw [hop]
  dsimp only
  have hnone : s.grants.find? (fun g => g.half = q / 32 && g.job = (cqOf s q).job && g.group = (cqOf s q).group &&
      g.src = posAt s (cqOf s q) 0 r && grantFits s (cqOf s q) o r g.tag g.op) = none := by
    rw [List.find?_eq_none]
    intro g _
    simp [grantFits, hrecv]
  rw [hnone]

/-- An operation that may be finished takes at most a code. -/
theorem checkFinished_kept {id : Nat} (hop : opOf s q id = some o) :
    (∃ ready code detail, opOf (checkFinished s q id) q id =
      some { o with ready := ready, code := code, detail := detail }) ∧
    checkFinished s q id = { s with cqs := (checkFinished s q id).cqs } := by
  unfold checkFinished
  rw [hop]
  dsimp only
  split
  · refine ⟨?_, rfl⟩
    cases hready : o.ready with
    | false => exact ⟨_, _, _, opOf_finishOp hop hready _ _⟩
    | true =>
      refine ⟨o.ready, o.code, o.detail, ?_⟩
      unfold finishOp
      rw [opOf_updOp hop]
      · rw [if_pos hready]
      · rw [if_pos hready]
  · exact ⟨⟨_, _, _, hop⟩, rfl⟩

end

/-- A packet for another package leaves by the router. -/
theorem sendPkt_away {s : State} {p : Packet} (h : p.dest ≠ myPos s) :
    sendPkt s p = { s with inject := s.inject ++ [p] } := if_neg h

/-- The CTS of a receive that starts. -/
def recvCts (s : State) (q : Nat) (o : Op) : Packet :=
  msgPkt s (cqOf s q) 0 (qdPeer o.desc) 0x1000 o.num 0 (leBytes 8 (qdBytes o.desc) ++ leBytes 1 1 ++ leBytes 55 0)

/-- The CTS of a receive is the same once it has begun. -/
theorem recvCts_opBegun (s : State) (q : Nat) (o : Op) :
    recvCts (opBegun s q o) q (begunOp s o) = recvCts s q o := by
  unfold recvCts
  rw [cqOf_opBegun]
  rfl

/-- A receive that starts grants its sender. -/
theorem startTransfer_recv {s : State} {q : Nat} {o : Op} (hop : opOf s q o.id = some o) (hrecv : qdOp o.desc = 2)
    (hready : o.ready = false) (haway : posAt s (cqOf s q) 0 (qdPeer o.desc) ≠ myPos s) :
    startTransfer s q o = checkFinished { s with inject := s.inject ++ [recvCts s q o] } q o.id := by
  have hlocal : localPart s q o = s := by
    unfold localPart
    simp only [hrecv]
  have hfrom : receivesFrom s (cqOf s q) o.desc = [qdPeer o.desc] := by
    unfold receivesFrom
    simp only [hrecv]
  have hcts : sendCts s (cqOf s q) (qdPeer o.desc) o.num (recvBytes s o.desc (qdPeer o.desc)) (expectedOp o.desc) =
      { s with inject := s.inject ++ [recvCts s q o] } := by
    have hbytes : recvBytes s o.desc (qdPeer o.desc) = qdBytes o.desc := if_neg (by rw [hrecv]; decide)
    have hasks : expectedOp o.desc = 1 := if_pos hrecv
    rw [hbytes, hasks]
    exact sendPkt_away haway
  unfold startTransfer
  dsimp only
  rw [hlocal, hop]
  dsimp only
  rw [hready, if_neg Bool.false_ne_true, hfrom]
  change checkFinished (takeWaiting (sendCts s (cqOf s q) (qdPeer o.desc) o.num (recvBytes s o.desc (qdPeer o.desc))
    (expectedOp o.desc)) q o.id) q o.id = _
  rw [hcts, takeWaiting_recv (s := { s with inject := s.inject ++ [recvCts s q o] }) hop hrecv]

/-! ### Ends that leave a queue -/

/-- No operation has come to a queue. -/
def QueuesShrink (s t : State) : Prop := ∀ q, ∀ x ∈ (cqOf t q).ops, x ∈ (cqOf s q).ops

theorem QueuesShrink.of_cqs {s t : State} (h : t.cqs = s.cqs) : QueuesShrink s t := by
  intro q x hx
  unfold cqOf at *
  rwa [h] at hx

theorem QueuesShrink.trans {s t u : State} (hst : QueuesShrink s t) (htu : QueuesShrink t u) : QueuesShrink s u :=
  fun q x hx => hst q x (htu q x hx)

/-- Changes that let operations go, one element after another, and what each has brought about and none undoes. -/
theorem forEach_shrinks {α : Type} {f : State → α → State} {P : α → State → Prop}
    (hshrink : ∀ s x, QueuesShrink s (f s x)) (hdone : ∀ s x, P x (f s x))
    (hkeep : ∀ x s t, QueuesShrink s t → P x s → P x t) :
    ∀ (xs : List α) (s : State), QueuesShrink s (forEach xs s f) ∧ ∀ x ∈ xs, P x (forEach xs s f)
  | [], s => ⟨fun _ _ h => h, fun _ h => absurd h List.not_mem_nil⟩
  | x :: xs, s => by
    obtain ⟨htail, hrest⟩ := forEach_shrinks hshrink hdone hkeep xs (f s x)
    refine ⟨(hshrink s x).trans htail, fun y hy => ?_⟩
    obtain rfl | hy := List.mem_cons.mp hy
    · exact hkeep y _ _ htail (hdone s y)
    · exact hrest y hy

/-- The queues are a part of the state that a store leaves alone. -/
theorem storeFrame_cqs : StoreFrame State.cqs where
  mem _ _ := rfl
  errs _ _ _ := rfl
  free _ _ := rfl
  posted _ _ := rfl
  due _ _ := rfl
  ctl _ _ _ := rfl
  report _ _ _ _ _ := rfl
  repairs _ _ := rfl

section
variable (s : State) (d ph : Nat)

theorem cqs_updPhase (f : Phase → Phase) : (updPhase s d ph f).cqs = s.cqs := rfl

theorem cqs_dropEnded : (dropEnded s d ph).cqs = s.cqs := rfl

theorem cqs_retire (slot : Nat) : (retire s slot).cqs = s.cqs := rfl

theorem cqs_seqEvent (src : Nat) : (seqEvent s d src).cqs = s.cqs := rfl

theorem cqs_noteStop (c : StopCause) : (noteStop s d c).cqs = s.cqs := rfl

theorem cqs_complete (h status result detail : Nat) : (complete s h status result detail).cqs = s.cqs := by
  unfold complete
  dsimp only
  split
  · rfl
  · rfl

theorem cqs_endPhase (code : Nat) : (endPhase s d ph code).cqs = s.cqs := by
  have hstore := storeFrame_cqs.storeDie_eq s d (phaseAddr s d ph + 56) (leBytes 8 (phaseStatus (phaseOf s d ph) code))
  unfold endPhase
  dsimp only
  rw [← hstore]
  generalize storeDie s d (phaseAddr s d ph + 56) (leBytes 8 (phaseStatus (phaseOf s d ph) code)) = t
  split
  · rw [cqs_dropEnded, cqs_updPhase, cqs_retire, cqs_updPhase]
  · rw [cqs_retire, cqs_updPhase]

theorem cqs_nextReplay (n : Nat) : (nextReplay n s d ph).cqs = s.cqs := by
  induction n generalizing s with
  | zero => rfl
  | succ n ih =>
    unfold nextReplay
    split
    · exact ih _
    · rfl

theorem cqs_endFailed : (endFailed s d ph).cqs = s.cqs := by
  unfold endFailed
  dsimp only
  split
  · exact (cqs_endPhase ..).trans (cqs_nextReplay ..)
  · exact cqs_nextReplay ..

theorem cqs_markFailed : (markFailed s d ph).cqs = s.cqs := by
  unfold markFailed
  dsimp only
  split
  · rfl
  · rw [cqs_seqEvent, cqs_noteStop, cqs_dropEnded, cqs_updPhase]

/-- A status is delivered outside the queues. -/
theorem cqs_deliverStatus (q : Nat) (poster : Poster) (id code detail origin fo : Nat) :
    (deliverStatus s q poster id code detail origin fo).cqs = s.cqs := by
  cases poster with
  | host p h => exact cqs_complete ..
  | seq d ph addr =>
    have hstore := storeFrame_cqs.storeDie_eq s d addr (leBytes 8 (opStatus code detail origin fo))
    unfold deliverStatus
    dsimp only
    rw [← hstore]
    generalize storeDie s d addr (leBytes 8 (opStatus code detail origin fo)) = t
    split
    · split
      · rfl
      · exact (cqs_endFailed ..).trans (cqs_markFailed ..)
    · rfl

end

/-- A change of a queue that keeps its operations. -/
theorem ops_updCq {s : State} {q : Nat} {f : Cq → Cq} (hf : ∀ c, (f c).ops = c.ops) (r : Nat) :
    (cqOf (updCq s q f) r).ops = (cqOf s r).ops := by
  by_cases hr : r = q
  · subst hr
    rw [cqOf_updCq_same, hf]
  · rw [cqOf_updCq_other _ _ hr]

/-- The operations of the queues after one has completed. -/
theorem ops_completeOp (s : State) (q : Nat) (o : Op) (r : Nat) : (cqOf (completeOp s q o) r).ops =
    (cqOf (updCq s q (fun c => { c with ops := c.ops.filter (fun x => x.id ≠ o.id) })) r).ops := by
  have hdeliver (t : State) (fo : Nat) : cqOf (deliverStatus t q o.poster o.id o.code o.detail o.origin fo) r =
      cqOf t r := by
    unfold cqOf
    rw [cqs_deliverStatus]
  unfold completeOp
  dsimp only
  rw [hdeliver]
  generalize updCq s q (fun c => { c with ops := c.ops.filter (fun x => x.id ≠ o.id) }) = t
  have hraise (u : State) (e : Event) (p : Prop) [Decidable p] : cqOf (if p then raise u e else u) r = cqOf u r := by
    split
    · rfl
    · rfl
  rw [hraise]
  cases o.poster with
  | host p h => rfl
  | seq d ph addr =>
    dsimp only
    split
    · exact ops_updCq (s := retire t (collSlot (q / 32))) (q := q)
        (f := fun c => { c with recv := mset 0 c.recv d ((mget 0 c.recv d + 1) % 2 ^ 32) }) (fun _ => rfl) r
    · rfl

/-- A completed operation leaves its queue, and none comes. -/
theorem completeOp_leaves (s : State) (q : Nat) (o : Op) :
    QueuesShrink s (completeOp s q o) ∧ ∀ z ∈ (cqOf (completeOp s q o) q).ops, z.id ≠ o.id := by
  refine ⟨fun r x hx => ?_, fun z hz => ?_⟩
  · rw [ops_completeOp] at hx
    by_cases hr : r = q
    · subst hr
      rw [cqOf_updCq_same] at hx
      exact List.mem_of_mem_filter hx
    · rwa [cqOf_updCq_other _ _ hr] at hx
  · rw [ops_completeOp, cqOf_updCq_same] at hz
    simpa using (List.mem_filter.mp hz).2

/-- The finished operations of a queue complete together. -/
theorem completeReady_leaves (q : Nat) (os : List Op) (s : State) :
    QueuesShrink s (forEach os s (fun s o => completeOp s q o)) ∧
    ∀ o ∈ os, ∀ z ∈ (cqOf (forEach os s (fun s o => completeOp s q o)) q).ops, z.id ≠ o.id :=
  forEach_shrinks (P := fun (o : Op) t => ∀ z ∈ (cqOf t q).ops, z.id ≠ o.id)
    (fun s o => (completeOp_leaves s q o).1) (fun s o => (completeOp_leaves s q o).2)
    (fun o s t (hst : QueuesShrink s t) (hs : ∀ z ∈ (cqOf s q).ops, z.id ≠ o.id) z hz => hs z (hst q z hz)) os s

/-- One queue of an aborted job: its finished operations complete. -/
def completeQueue (job : Nat) (s : State) (e : Nat × Cq) : State :=
  if e.2.job = job ∧ e.2.state = 2 then
    forEach (e.2.ops.filter (fun o => o.ready)) s (fun s o => completeOp s e.1 o)
  else s

/-- Has what was finished of a stopped queue of a job left it? -/
def QueueEmptied (job : Nat) (e : Nat × Cq) (t : State) : Prop :=
  e.2.job = job → e.2.state = 2 → ∀ y ∈ e.2.ops, y.ready = true → ∀ z ∈ (cqOf t e.1).ops, z.id ≠ y.id

/-- A job's aborted operations leave their queues together. -/
theorem completeAborted_empties (s : State) (job : Nat) :
    ∀ e ∈ s.cqs, QueueEmptied job e (completeAborted s job) := by
  refine (forEach_shrinks (f := completeQueue job) (P := QueueEmptied job) (fun t e => ?_) (fun t e => ?_)
    (fun e _ _ hst hs hjob hstate y hy hready z hz => hs hjob hstate y hy hready z (hst _ z hz)) _ _).2
  · unfold completeQueue
    split
    · exact (completeReady_leaves ..).1
    · exact fun _ _ h => h
  · intro hjob hstate y hy hready z hz
    unfold completeQueue at hz
    rw [if_pos ⟨hjob, hstate⟩] at hz
    exact (completeReady_leaves e.1 _ t).2 y (List.mem_filter.mpr ⟨hy, hready⟩) z hz

/-! ### Eruptions -/

theorem hasPacket_of_mem {s : State} {p : Packet} {type : Nat} (hmem : p ∈ s.inbox) (htype : p.type = type) :
    hasPacket s p type = true := by
  rw [hasPacket, decide_eq_true htype, Bool.true_and]
  exact List.contains_iff_mem.mpr hmem

/-- An ERUPT that has been delivered is taken. -/
theorem eruptReceive_settles {s : State} {p : Packet} (hmem : p ∈ s.inbox) (htype : p.type = 0xA) :
    Settles (.eruptReceive p) s
      (if eruptOk s p then abortJob { s with inbox := s.inbox.erase p } p.job (some p.src)
      else incr { s with inbox := s.inbox.erase p } routerSlot discStale) :=
  congrArg Host.Outcome.next (if_pos (hasPacket_of_mem hmem htype))

/-- Settles O43: a start by what is due and what it reaches, an end by whether the operation has finished. -/
theorem operationsRunInOrder : Obligations.OperationsRunInOrder := by
  intro q o p s c first alone
  refine ⟨fun hidle => ?_, fun hstate hroom hfirst halone hop => ?_, fun hop hready => ?_, fun hop hready => ?_,
    fun j => ?_, fun hmem htype => ?_⟩
  · exact collOpStart_idle (nextOp_eq_none hidle)
  · have hnext : nextOp c = some o := nextOp_eq_some hstate hroom hfirst halone
    have hwaits : c.ops.find? (fun x => !x.started && !x.ready) = some o := hfirst
    obtain ⟨-, hready⟩ : o.started = false ∧ o.ready = false := by simpa using List.find?_some hwaits
    refine ⟨fun hheld => collOpStart_held hnext hheld, fun hheld hwin hclean => ?_,
      fun hheld hwin hrecv hbytes haway => ?_⟩
    · have hstart : startOp s q = finishOp (opBegun s q o) q o.id stWindow :=
        (startOp_eq hnext hclean).trans (if_pos (by rw [hwin]; rfl))
      refine ⟨_, collOpStart_starts hnext hheld, ?_, ?_⟩
      · rw [opOf_engineDoes, hstart]
        exact opOf_finishOp (opOf_opBegun hop) hready stWindow 0
      · have hframe := finishOp_frame (opBegun s q o) q o.id stWindow 0
        rw [engineDoes_frame, hstart]
        generalize finishOp (opBegun s q o) q o.id stWindow 0 = t at hframe ⊢
        generalize t.cqs = queues at hframe
        rw [hframe]
        rfl
    · have hclean : auxReads c o.desc = [] := by
        unfold auxReads
        simp only [hrecv]
      have howners : ownersOk s c o.desc = true := by
        unfold ownersOk
        rw [hrecv]
        rfl
      have hstart : startOp s q = startTransfer (opBegun s q o) q (begunOp s o) := by
        rw [startOp_eq hnext (.inl hclean), hwin, howners, hrecv, if_neg (by decide), if_neg (by decide),
          if_neg (by decide), if_neg]
        unfold isTiny
        rw [hrecv]
        decide
      have hpos : posAt (opBegun s q o) (cqOf (opBegun s q o) q) 0 (qdPeer o.desc) ≠ myPos (opBegun s q o) := by
        rw [(opBegun_queueOnly s q o).posAt_eq, (opBegun_queueOnly s q o).myPos_eq, cqOf_opBegun]
        exact haway
      have hbegun : opOf (opBegun s q o) q (begunOp s o).id = some (begunOp s o) := opOf_opBegun hop
      rw [startTransfer_recv hbegun hrecv hready hpos] at hstart
      obtain ⟨⟨ready, code, detail, hx⟩, hframe⟩ := checkFinished_kept
        (s := { opBegun s q o with inject := (opBegun s q o).inject ++ [recvCts (opBegun s q o) q (begunOp s o)] })
        hbegun
      refine ⟨_, collOpStart_starts hnext hheld, ⟨{ begunOp s o with
        ready := ready, code := code, detail := detail }, ?_, rfl, rfl, rfl⟩, ?_, ?_⟩
      · rw [opOf_engineDoes, hstart]
        exact hx
      · rw [engineDoes_frame, hstart]
        exact (congrArg State.inject hframe).trans (congrArg (fun c => s.inject ++ [c]) (recvCts_opBegun s q o))
      · rw [engineDoes_frame, hstart]
        generalize checkFinished _ q (begunOp s o).id = t at hframe ⊢
        generalize t.cqs = queues at hframe
        rw [hframe]
        rfl
  · exact congrArg (fun t => Host.Outcome.next (settle t)) (by unfold finishCollOp; rw [hop]; exact if_pos hready)
  · exact congrArg (fun t => Host.Outcome.next (settle t))
      (by unfold finishCollOp; rw [hop]; exact if_neg (ne_true_of_eq_false hready))
  · exact ⟨completeAborted s j, rfl, fun k x hx hjob hstate => completeAborted_empties s j (k, x) hx hjob hstate⟩
  · have htake := eruptReceive_settles hmem htype
    refine ⟨fun hok => ?_, fun hstale => ?_⟩
    · rwa [if_pos hok] at htake
    · rw [if_neg (ne_true_of_eq_false hstale)] at htake
      exact htake

end Sys2Proof.Machine
end

section
/-!
PROOFS. MSG packets: the operations that they meet, and their discards (R277 to R283, R433).
-/

namespace Sys2Proof.Machine

/-! ### Discards -/

theorem collSlot_page (q : Nat) : 0x102 + 0x100 * (q / 32) = collSlot (q / 32) := collSlot_eq _

section
variable {s : State} {p : Packet}

theorem takePacket_queueOnly (s : State) (p : Packet) : QueueOnly s (takePacket s p) := rfl

/-- A packet of a group that no queue serves. -/
theorem dropMsg_unserved (hq : queueFor s p.job p.group = none) :
    dropMsg (takePacket s p) p = incr (takePacket s p) (collSlot 0) collDisc := by
  have hv : queueFor (takePacket s p) p.job p.group = none := hq
  unfold dropMsg
  rw [hv]
  rfl

/-- A packet that a queue's engine discards. -/
theorem dropMsg_served {q : Nat} (hq : queueFor s p.job p.group = some q) :
    dropMsg (takePacket s p) p = incr (takePacket s p) (collSlot (q / 32)) collDisc := by
  have hv : queueFor (takePacket s p) p.job p.group = some q := hq
  unfold dropMsg
  rw [hv]
  rfl

theorem msgPlace_unserved (hq : queueFor s p.job p.group = none) : msgPlace (takePacket s p) p = none := by
  have hv : queueFor (takePacket s p) p.job p.group = none := hq
  unfold msgPlace
  rw [hv]

theorem msgPlace_served {q : Nat} (hq : queueFor s p.job p.group = some q) :
    msgPlace (takePacket s p) p = (rankAt s (cqOf s q) 0 p.src).map (fun r => (q, r)) := by
  have hv : queueFor (takePacket s p) p.job p.group = some q := hq
  unfold msgPlace
  rw [hv]
  dsimp only
  rw [(takePacket_queueOnly s p).rankAt_eq]
  rfl

end

/-! ### What each packet is taken by -/

/-- What takes a packet of each kind. -/
def msgTaken (s : State) (p : Packet) : Instr → State
  | .ctsReceive _ => takeCts s p
  | .msgDataReceive _ => takeDataPacket s p
  | .msgDoneReceive _ => takeDonePacket s p
  | _ => takeResultPacket s p

/-- The kinds of MSG packets, with the NODE of each. -/
def msgKinds (p : Packet) : List (Nat × Instr) :=
  [(0x1000, Instr.ctsReceive p), (0, .msgDataReceive p), (0x2000, .msgDoneReceive p), (0x3000, .msgResultReceive p)]

section
variable {s : State} {p : Packet}

/-- A packet for which the engine cannot read yet waits. -/
theorem msg_waits (hheld : msgHeld s p = true) : ∀ k ∈ msgKinds p, Ends k.2 s s := by
  have hstays (a b : Bool) (t : State) : Host.Outcome.next (φ := Fault) (ρ := Refusal)
      (if a && b && !msgHeld s p then t else s) = .next s := by
    rw [hheld, Bool.not_true, Bool.and_false]
    rfl
  intro k hk
  simp only [msgKinds, List.mem_cons, List.not_mem_nil, or_false] at hk
  obtain rfl | rfl | rfl | rfl := hk
  · exact hstays ..
  · exact hstays ..
  · exact hstays ..
  · exact hstays ..

section
variable (hmem : p ∈ s.inbox) (htype : p.type = 3) (hfree : msgHeld s p = false)
include hmem htype hfree

theorem ctsReceive_settles (hnode : p.node = 0x1000) : Settles (.ctsReceive p) s (takeCts s p) :=
  congrArg Host.Outcome.next (if_pos (by rw [hasPacket_of_mem hmem htype, hnode, hfree]; rfl))

theorem msgDataReceive_settles (hnode : p.node ∉ [0x1000, 0x2000, 0x3000]) :
    Settles (.msgDataReceive p) s (takeDataPacket s p) := by
  have hdata : isDataNode p = true := by simpa [isDataNode, and_assoc] using hnode
  exact congrArg Host.Outcome.next (if_pos (by rw [hasPacket_of_mem hmem htype, hdata, hfree]; rfl))

theorem msgDoneReceive_settles (hnode : p.node = 0x2000) : Settles (.msgDoneReceive p) s (takeDonePacket s p) :=
  congrArg Host.Outcome.next (if_pos (by rw [hasPacket_of_mem hmem htype, hnode, hfree]; rfl))

theorem msgResultReceive_settles (hnode : p.node = 0x3000) :
    Settles (.msgResultReceive p) s (takeResultPacket s p) :=
  congrArg Host.Outcome.next (if_pos (by rw [hasPacket_of_mem hmem htype, hnode, hfree]; rfl))

/-- A packet of each kind is taken. -/
theorem msg_taken : ∀ k ∈ msgKinds p, p.node = k.1 → Settles k.2 s (msgTaken s p k.2) := by
  intro k hk hnode
  simp only [msgKinds, List.mem_cons, List.not_mem_nil, or_false] at hk
  obtain rfl | rfl | rfl | rfl := hk
  · exact ctsReceive_settles hmem htype hfree hnode
  · have hzero : p.node = 0 := hnode
    exact msgDataReceive_settles hmem htype hfree (by rw [hzero]; decide)
  · exact msgDoneReceive_settles hmem htype hfree hnode
  · exact msgResultReceive_settles hmem htype hfree hnode

end

/-- A packet without a queue or a rank is discarded, of whatever kind. -/
theorem msgTaken_misplaced (hplace : msgPlace (takePacket s p) p = none) (i : Instr) :
    msgTaken s p i = dropMsg (takePacket s p) p := by
  have hcts : takeCts s p = dropMsg (takePacket s p) p := by
    unfold takeCts
    dsimp only
    rw [hplace]
  have hdata : takeDataPacket s p = dropMsg (takePacket s p) p := by
    unfold takeDataPacket
    dsimp only
    rw [hplace]
  have hdone : takeDonePacket s p = dropMsg (takePacket s p) p := by
    unfold takeDonePacket
    dsimp only
    rw [hplace]
  have hresult : takeResultPacket s p = dropMsg (takePacket s p) p := by
    unfold takeResultPacket
    dsimp only
    rw [hplace]
  unfold msgTaken
  split
  · exact hcts
  · exact hdata
  · exact hdone
  · exact hresult

end

/-! ### Packets that meet an operation, and those that meet none -/

/-- What an engine does depends on the state alone that it finds. -/
theorem engineDoes_congr {s : State} {q n : Nat} {f g : State → State} (h : f s = g s) :
    engineDoes s q n f = engineDoes s q n g := by
  unfold engineDoes
  dsimp only
  rw [h]

/-- A CTS by the operation that it fits, if there is one. -/
def ctsBy (s : State) (p : Packet) (q r : Nat) : Option Op → State
  | some o => takeGrant s q o r (leNat (p.payload.take 8)) (leNat ((p.payload.drop 8).take 1)) false
  | none => holdGrant s q p (leNat (p.payload.take 8)) (leNat ((p.payload.drop 8).take 1))

/-- A DATA packet by the operation that expects it. -/
def dataBy (s : State) (p : Packet) (q r : Nat) : Option Op → State
  | some o => engineDoes s q 1 (fun s => takeData s q o r (msgIndex p) p.payload)
  | none => incr s (collSlot (q / 32)) collDisc

/-- A DONE by the operation that expects it. -/
def doneBy (s : State) (p : Packet) (q r : Nat) : Option Op → State
  | some o => engineDoes s q 1 (fun s => takeDone s q o r (isMismatch p))
  | none =>
    if !isMismatch p && s.grants.any (isEarlyDone q p) then
      engineDoes { s with grants := updFirst (isEarlyDone q p) (fun g => { g with done := true }) s.grants } q 1 id
    else incr s (collSlot (q / 32)) collDisc

/-- A RESULT by the operation that expects it. -/
def resultBy (s : State) (p : Packet) (q : Nat) : Option Op → State
  | some o => engineDoes s q 1 (fun s => takeResult s q o p.bucket p.chunk p.exps p.payload)
  | none => incr s (collSlot (q / 32)) collDisc

section
variable (s : State) (p : Packet) (q r : Nat) (o : Op)

theorem dataBy_some : dataBy s p q r (some o) =
    engineDoes s q 1 (fun s => takeData s q o r (msgIndex p) p.payload) := rfl

theorem doneBy_some : doneBy s p q r (some o) = engineDoes s q 1 (fun s => takeDone s q o r (isMismatch p)) := rfl

theorem doneBy_early {s : State} {p : Packet} {q r : Nat} (hmis : isMismatch p = false)
    (hany : s.grants.any (isEarlyDone q p) = true) : doneBy s p q r none =
      engineDoes { s with grants := updFirst (isEarlyDone q p) (fun g => { g with done := true }) s.grants } q 1 id :=
  if_pos (by rw [hmis, hany]; rfl)

theorem doneBy_late {s : State} {p : Packet} {q r : Nat}
    (hlate : isMismatch p = true ∨ s.grants.any (isEarlyDone q p) = false) :
    doneBy s p q r none = incr s (collSlot (q / 32)) collDisc := by
  refine if_neg ?_
  obtain h | h := hlate
  · simp [h]
  · simp [h]

theorem resultBy_some : resultBy s p q (some o) =
    engineDoes s q 1 (fun s => takeResult s q o p.bucket p.chunk p.exps p.payload) := rfl

end

section
variable {s : State} {p : Packet} {q r : Nat}
variable (hq : queueFor s p.job p.group = some q) (hr : rankAt s (cqOf s q) 0 p.src = some r)
include hq hr

theorem msgPlace_ranked : msgPlace (takePacket s p) p = some (q, r) := by
  rw [msgPlace_served hq, hr]
  rfl

theorem takeCts_eq : takeCts s p = engineDoes (takePacket s p) q 1 (fun t => ctsBy t p q r
    ((cqOf s q).ops.find? (fun o => o.started && !o.ready &&
      grantFits s (cqOf s q) o r p.tag (leNat ((p.payload.drop 8).take 1))))) := by
  unfold takeCts
  dsimp only
  rw [msgPlace_ranked hq hr]
  dsimp only
  refine engineDoes_congr ?_
  simp only [(takePacket_queueOnly s p).grantFits_eq]
  unfold ctsBy
  rfl

theorem takeDataPacket_eq (hnode : p.node = 0) : takeDataPacket s p =
    dataBy (takePacket s p) p q r ((cqOf s q).ops.find? (fun o => expectsData s (cqOf s q) o r p.tag)) := by
  unfold takeDataPacket
  dsimp only
  rw [msgPlace_ranked hq hr]
  dsimp only
  rw [if_pos hnode, dropMsg_served hq]
  simp only [(takePacket_queueOnly s p).expectsData_eq]
  unfold dataBy
  rfl

/-- A packet of a NODE that is none is discarded. -/
theorem takeDataPacket_unknown (hnode : p.node ≠ 0) :
    takeDataPacket s p = incr (takePacket s p) (collSlot (q / 32)) collDisc := by
  unfold takeDataPacket
  dsimp only
  rw [msgPlace_ranked hq hr]
  dsimp only
  rw [if_neg hnode]
  exact dropMsg_served hq

theorem takeDonePacket_eq : takeDonePacket s p = doneBy (takePacket s p) p q r
    ((cqOf s q).ops.find? (fun o => expectsDone s (cqOf s q) o r p.tag (isMismatch p))) := by
  unfold takeDonePacket
  dsimp only
  rw [msgPlace_ranked hq hr]
  dsimp only
  rw [dropMsg_served hq]
  simp only [(takePacket_queueOnly s p).expectsDone_eq]
  unfold doneBy
  rfl

theorem takeResultPacket_eq : takeResultPacket s p = resultBy (takePacket s p) p q
    ((cqOf s q).ops.find? (fun o => expectsResult s (cqOf s q) o p)) := by
  unfold takeResultPacket
  dsimp only
  rw [msgPlace_ranked hq hr]
  dsimp only
  rw [dropMsg_served hq]
  simp only [(takePacket_queueOnly s p).expectsResult_eq]
  unfold resultBy
  rfl

end

end Sys2Proof.Machine
end

section
/-!
PROOFS. What a packet does at the operation that it meets (R277, R279 to R282).
-/

namespace Sys2Proof.Machine

/-! ### Packets that leave, and stores -/

/-- A state without its packets that are to leave and that have come. -/
def unsent (s : State) : State := { s with inject := [], inbox := [] }

theorem eq_of_unsent {s t : State} (h : unsent t = unsent s) :
    t = { s with inject := t.inject, inbox := t.inbox } :=
  congrArg (fun x : State => { x with inject := t.inject, inbox := t.inbox }) h

theorem unsent_sendPkt (s : State) (p : Packet) : unsent (sendPkt s p) = unsent s := by
  unfold sendPkt
  split
  · rfl
  · rfl

theorem unsent_sendDone (s : State) (c : Cq) (r tag : Nat) (mismatch : Bool) :
    unsent (sendDone s c r tag mismatch) = unsent s := unsent_sendPkt ..

theorem unsent_forward (s : State) (c : Cq) (o : Op) (r i : Nat) (bs : List Byte) :
    unsent (forward s c o r i bs) = unsent s := by
  have hsent (on : Prop) [Decidable on] (p : Packet) : unsent (if on then sendPkt s p else s) = unsent s := by
    split
    · exact unsent_sendPkt ..
    · rfl
  exact hsent ..

/-- A store of both copies leaves the queues alone. -/
theorem cqs_storeBoth (s : State) (src : Source) (a : Nat) (bs : List Byte) :
    (storeBoth s src a bs).cqs = s.cqs :=
  forEach_frame State.cqs _ s _ fun t b => storeFrame_cqs.storeSectors_eq t _ src b bs

section
variable {s t : State} {q id : Nat} {o : Op}

theorem opOf_storeBoth (src : Source) (a : Nat) (bs : List Byte) :
    opOf (storeBoth s src a bs) q id = opOf s q id := by
  unfold opOf cqOf
  rw [cqs_storeBoth]

theorem opOf_unsent (h : unsent t = unsent s) : opOf t q id = opOf s q id :=
  congrArg (fun x : State => opOf x q id) (a₁ := unsent t) (a₂ := unsent s) h

/-- An operation that may be finished once packets have left. -/
theorem checkFinished_sent (hsent : unsent t = unsent s) (hop : opOf s q id = some o) :
    (∃ ready code detail, opOf (checkFinished t q id) q id =
      some { o with ready := ready, code := code, detail := detail }) ∧
    unsent (checkFinished t q id) = { unsent s with cqs := (checkFinished t q id).cqs } := by
  obtain ⟨hkept, hframe⟩ := checkFinished_kept ((opOf_unsent hsent).trans hop)
  refine ⟨hkept, ?_⟩
  rw [← hsent, hframe]
  rfl

/-- An engine whose action sends nothing. -/
theorem engineDoes_quiet {n : Nat} {f : State → State} (hinject : (f s).inject = s.inject)
    (hinbox : (f s).inbox = s.inbox) : engineDoes s q n f = retire (f s) (collSlot (q / 32)) n := by
  have hnone : enginePackets (f s) = enginePackets s := by
    unfold enginePackets
    rw [hinject, hinbox]
  unfold engineDoes
  dsimp only
  rw [hnone, Nat.sub_self, Nat.add_zero]

/-! ### Grants -/

/-- A grant whose size or operation disagrees ends the operation with MISMATCH. -/
theorem takeGrant_mismatch {r bytes op : Nat} {done : Bool} (hne : bytes ≠ sendBytes s o.desc r ∨ op ≠ qdOp o.desc)
    (haway : posAt s (cqOf s q) 0 r ≠ myPos s) :
    takeGrant s q o r bytes op done =
      finishOp { s with
        inject := s.inject ++ [{ msgPkt s (cqOf s q) 0 r 0x2000 o.num 0 [] with bytes := 1 }] } q o.id stMismatch r := by
  unfold takeGrant
  dsimp only
  rw [if_pos hne.symm]
  exact congrArg (fun t => finishOp t q o.id stMismatch r) (sendPkt_away haway)

/-! ### Data and results -/

/-- What an engine does, its progress counted, where packets may have left. -/
theorem engineDoes_sent {w : State} {n : Nat} {f : State → State}
    (h : unsent (f s) = { unsent w with cqs := (f s).cqs }) :
    engineDoes s q n f = { w with
      cqs := (engineDoes s q n f).cqs, inject := (engineDoes s q n f).inject, inbox := (engineDoes s q n f).inbox
      tremor := (engineDoes s q n f).tremor } := by
  have hf : f s = { w with cqs := (f s).cqs, inject := (f s).inject, inbox := (f s).inbox } :=
    congrArg (fun x : State => { x with inject := (f s).inject, inbox := (f s).inbox }) h
  have hcqs : (engineDoes s q n f).cqs = (f s).cqs := rfl
  have hinject : (engineDoes s q n f).inject = (f s).inject := rfl
  have hinbox : (engineDoes s q n f).inbox = (f s).inbox := rfl
  rw [hcqs, hinject, hinbox]
  exact (engineDoes_frame ..).trans
    (congrArg (fun x : State => { x with tremor := (engineDoes s q n f).tremor }) hf)

/-- An operation that has taken a packet: it is counted, packets may have left, and it may be finished. -/
theorem checkFinished_counted {w : State} {f : Op → Op} {k v : Nat} (hop : opOf w q o.id = some o)
    (hid : (f o).id = o.id) (hrx : mget 0 (f o).rx k = v) (hdesc : (f o).desc = o.desc)
    (hsent : unsent t = unsent (updOp w q o.id f)) :
    (∃ x, opOf (checkFinished t q o.id) q o.id = some x ∧ mget 0 x.rx k = v ∧ x.desc = o.desc) ∧
    unsent (checkFinished t q o.id) = { unsent w with cqs := (checkFinished t q o.id).cqs } := by
  obtain ⟨⟨ready, code, detail, hx⟩, hframe⟩ := checkFinished_sent hsent (opOf_updOp hop hid)
  exact ⟨⟨_, hx, hrx, hdesc⟩, hframe⟩

/-- Data is written where the operation puts it, and counted. -/
theorem takeData_meets {r i a n : Nat} {pay : List Byte} (hop : opOf s q o.id = some o)
    (hplace : dataPlace s o r i = (a, n)) :
    (∃ x, opOf (takeData s q o r i pay) q o.id = some x ∧ mget 0 x.rx r = mget 0 o.rx r + 1 ∧ x.desc = o.desc) ∧
    unsent (takeData s q o r i pay) = { unsent (storeBoth s (engineSource q) a (pay.take n)) with
      cqs := (takeData s q o r i pay).cqs } := by
  have hstored : opOf (storeBoth s (engineSource q) a (pay.take n)) q o.id = some o := (opOf_storeBoth ..).trans hop
  unfold takeData
  rw [hplace]
  dsimp only
  generalize storeBoth s (engineSource q) a (pay.take n) = w at hstored ⊢
  have hforward (u : State) (p : Prop) [Decidable p] : unsent (if p then
      forEach o.sent u (fun t k => forward t (cqOf s q) o k i (pay.take n)) else u) = unsent u := by
    split
    · exact forEach_frame unsent _ _ _ fun t k => unsent_forward ..
    · rfl
  have hdone (u : State) (p : Prop) [Decidable p] :
      unsent (if p then sendDone u (cqOf s q) r o.num else u) = unsent u := by
    split
    · exact unsent_sendDone ..
    · rfl
  refine checkFinished_counted (f := fun x => { x with
    rx := mset 0 x.rx r (mget 0 x.rx r + 1)
    rxed := if qdOp o.desc = 8 ∨ qdOp o.desc = 9 then x.rxed ++ [(i, pay.take n)] else x.rxed })
    hstored rfl (mget_mset_same 0 o.rx r (mget 0 o.rx r + 1)) rfl ?_
  rw [hdone, hforward]

/-- A result of an operation with an owner that is no rank ends it. -/
theorem takeResult_unowned {b chunk : Nat} {exps data : List Byte}
    (howners : ownersOk s (cqOf s q) o.desc = false) :
    takeResult s q o b chunk exps data = finishOp s q o.id stMalformed :=
  if_pos (by rw [howners]; rfl)

/-- A result is written where the operation puts it, and counted. -/
theorem takeResult_meets {b chunk a : Nat} {exps data : List Byte} (hop : opOf s q o.id = some o)
    (hready : o.ready = false) (howners : ownersOk s (cqOf s q) o.desc = true)
    (hplace : resultPlace s (cqOf s q) o.desc b chunk = some a) :
    (∃ x, opOf (takeResult s q o b chunk exps data) q o.id = some x ∧ mget 0 x.rx 0 = mget 0 o.rx 0 + 1 ∧
      x.desc = o.desc) ∧
    unsent (takeResult s q o b chunk exps data) =
      { unsent (storeBoth s (engineSource q) a (chunkToBytes exps data)) with
        cqs := (takeResult s q o b chunk exps data).cqs } := by
  have htakes : takesResults s q o.id = true := by
    unfold takesResults
    rw [hop, Option.any_some, hready]
    rfl
  have hstored : opOf (storeBoth s (engineSource q) a (chunkToBytes exps data)) q o.id = some o :=
    (opOf_storeBoth ..).trans hop
  unfold takeResult
  dsimp only
  rw [howners, htakes, if_pos rfl, hplace]
  dsimp only
  generalize storeBoth s (engineSource q) a (chunkToBytes exps data) = w at hstored ⊢
  have hdelivers (u : State) (ks : List Nat) (f : State → Nat → Packet) :
      unsent (forEach ks u (fun s k => sendPkt s (f s k))) = unsent u :=
    forEach_frame unsent _ _ _ fun t k => unsent_sendPkt ..
  refine checkFinished_counted (f := fun x => { x with rx := mset 0 x.rx 0 (mget 0 x.rx 0 + 1) })
    hstored rfl (mget_mset_same 0 o.rx 0 (mget 0 o.rx 0 + 1)) rfl ?_
  split
  · split
    · exact hdelivers ..
    · rfl
  · rfl

/-! ### DONE -/

theorem takeDone_mismatch (s : State) (q : Nat) (o : Op) (r : Nat) :
    takeDone s q o r true = finishOp s q o.id stMismatch r := rfl

/-- A receiver's report is noted. -/
theorem takeDone_reported {r : Nat} (hop : opOf s q o.id = some o) :
    (∃ ready code detail, opOf (takeDone s q o r false) q o.id = some { o with
      doneBy := o.doneBy ++ [r], ready := ready, code := code, detail := detail }) ∧
    takeDone s q o r false = { s with cqs := (takeDone s q o r false).cqs } := by
  obtain ⟨hkept, hframe⟩ := checkFinished_kept (s := updOp s q o.id (fun o => { o with doneBy := o.doneBy ++ [r] }))
    (opOf_updOp hop rfl)
  exact ⟨hkept, hframe.trans rfl⟩

end

end Sys2Proof.Machine
end

section
/-!
PROOFS. MSG packets meet operations or are discarded (R277 to R283, R433).
-/

namespace Sys2Proof.Machine

section
variable {s : State} {p : Packet} {q r : Nat} {o : Op}
variable (hmem : p ∈ s.inbox) (htype : p.type = 3) (hfree : msgHeld s p = false)
variable (hq : queueFor s p.job p.group = some q) (hr : rankAt s (cqOf s q) 0 p.src = some r)
include hmem htype hfree hq hr

/-! ### Grants -/

/-- A grant for an operation that has not started is held. -/
theorem cts_held (hnode : p.node = 0x1000)
    (hnone : (cqOf s q).ops.find? (fun o => o.started && !o.ready &&
      grantFits s (cqOf s q) o r p.tag (leNat ((p.payload.drop 8).take 1))) = none)
    (hroom : s.grants.countP (fun g => g.half = q / 32) < 262144) :
    Settles (.ctsReceive p) s (retire { takePacket s p with grants := s.grants ++ [⟨q / 32, p.job, p.group, p.src,
      p.tag, leNat (p.payload.take 8), leNat ((p.payload.drop 8).take 1), false⟩] } (collSlot (q / 32))) := by
  have hheld : ctsBy (takePacket s p) p q r none = { takePacket s p with grants := s.grants ++ [⟨q / 32, p.job,
      p.group, p.src, p.tag, leNat (p.payload.take 8), leNat ((p.payload.drop 8).take 1), false⟩] } := if_pos hroom
  have htake := ctsReceive_settles hmem htype hfree hnode
  rw [takeCts_eq hq hr, hnone, engineDoes_quiet, hheld] at htake
  · exact htake
  · rw [hheld]
  · rw [hheld]

/-- A grant that disagrees ends its operation. -/
theorem cts_mismatch (hnode : p.node = 0x1000)
    (hfirst : (cqOf s q).ops.find? (fun o => o.started && !o.ready &&
      grantFits s (cqOf s q) o r p.tag (leNat ((p.payload.drop 8).take 1))) = some o)
    (hne : leNat (p.payload.take 8) ≠ sendBytes s o.desc r ∨ leNat ((p.payload.drop 8).take 1) ≠ qdOp o.desc)
    (haway : posAt s (cqOf s q) 0 r ≠ myPos s) (hop : opOf s q o.id = some o) :
    ∃ u, Settles (.ctsReceive p) s u ∧
      opOf u q o.id = some { o with ready := true, code := 6, detail := r } ∧
      u.inject = s.inject ++ [{ msgPkt s (cqOf s q) 0 r 0x2000 o.num 0 [] with bytes := 1 }] ∧
      u = { takePacket s p with cqs := u.cqs, inject := u.inject, tremor := u.tremor } := by
  have hready : o.ready = false := by
    have := List.find?_some hfirst
    simp only [Bool.and_eq_true, Bool.not_eq_true'] at this
    exact this.1.2
  have hends := takeGrant_mismatch (s := takePacket s p) (q := q) (done := false)
    (by rw [(takePacket_queueOnly s p).sendBytes_eq]; exact hne) haway
  have htake := ctsReceive_settles hmem htype hfree hnode
  rw [takeCts_eq hq hr, hfirst, engineDoes_congr (g := fun _ => _) hends] at htake
  exact ⟨_, htake, opOf_finishOp (s := { takePacket s p with inject := _ }) hop hready stMismatch r, rfl, rfl⟩

/-! ### Data and results -/

/-- Data is written where an operation expects it. -/
theorem data_meets (hnode : p.node = 0)
    (hfirst : (cqOf s q).ops.find? (fun o => expectsData s (cqOf s q) o r p.tag) = some o)
    (hop : opOf s q o.id = some o) {a n : Nat} (hplace : dataPlace s o r (msgIndex p) = (a, n)) :
    ∃ u, Settles (.msgDataReceive p) s u ∧
      (∃ x, opOf u q o.id = some x ∧ mget 0 x.rx r = mget 0 o.rx r + 1 ∧ x.desc = o.desc) ∧
      u = { storeBoth (takePacket s p) (engineSource q) a (p.payload.take n) with
        cqs := u.cqs, inject := u.inject, inbox := u.inbox, tremor := u.tremor } := by
  obtain ⟨hmeets, hframe⟩ := takeData_meets (s := takePacket s p) (pay := p.payload) hop
    (((takePacket_queueOnly s p).dataPlace_eq ..).trans hplace)
  have htake := msgDataReceive_settles hmem htype hfree (by rw [hnode]; decide)
  rw [takeDataPacket_eq hq hr hnode, hfirst, dataBy_some] at htake
  exact ⟨_, htake, hmeets, engineDoes_sent (f := fun s => takeData s q o r (msgIndex p) p.payload) hframe⟩

/-- A result of an operation whose owners are ranks is written where the operation puts it. -/
theorem result_meets (hnode : p.node = 0x3000)
    (hfirst : (cqOf s q).ops.find? (fun o => expectsResult s (cqOf s q) o p) = some o)
    (hop : opOf s q o.id = some o) (howners : ownersOk s (cqOf s q) o.desc = true) {a : Nat}
    (hplace : resultPlace s (cqOf s q) o.desc p.bucket p.chunk = some a) :
    ∃ u, Settles (.msgResultReceive p) s u ∧
      (∃ x, opOf u q o.id = some x ∧ mget 0 x.rx 0 = mget 0 o.rx 0 + 1 ∧ x.desc = o.desc) ∧
      u = { storeBoth (takePacket s p) (engineSource q) a (p.exps ++ List.replicate 32 0 ++ p.payload) with
        cqs := u.cqs, inject := u.inject, inbox := u.inbox, tremor := u.tremor } := by
  have hready : o.ready = false := by
    have := List.find?_some hfirst
    simp only [expectsResult, Bool.and_eq_true, Bool.not_eq_true'] at this
    exact this.1.1.1.1.1.1.1.2
  obtain ⟨hmeets, hframe⟩ := takeResult_meets (s := takePacket s p) (exps := p.exps) (data := p.payload) hop hready
    (((takePacket_queueOnly s p).ownersOk_eq ..).trans howners)
    (((takePacket_queueOnly s p).resultPlace_eq ..).trans hplace)
  have htake := msgResultReceive_settles hmem htype hfree hnode
  rw [takeResultPacket_eq hq hr, hfirst, resultBy_some] at htake
  exact ⟨_, htake, hmeets,
    engineDoes_sent (f := fun s => takeResult s q o p.bucket p.chunk p.exps p.payload) hframe⟩

/-- A result of an operation with an owner that is no rank ends the operation. -/
theorem result_malformed (hnode : p.node = 0x3000)
    (hfirst : (cqOf s q).ops.find? (fun o => expectsResult s (cqOf s q) o p) = some o)
    (hop : opOf s q o.id = some o) (howners : ownersOk s (cqOf s q) o.desc = false) :
    ∃ u, Settles (.msgResultReceive p) s u ∧
      opOf u q o.id = some { o with ready := true, code := 2, detail := 0 } ∧
      u = { takePacket s p with cqs := u.cqs, tremor := u.tremor } := by
  have hready : o.ready = false := by
    have := List.find?_some hfirst
    simp only [expectsResult, Bool.and_eq_true, Bool.not_eq_true'] at this
    exact this.1.1.1.1.1.1.1.2
  have hends := takeResult_unowned (s := takePacket s p) (b := p.bucket) (chunk := p.chunk) (exps := p.exps)
    (data := p.payload) (((takePacket_queueOnly s p).ownersOk_eq ..).trans howners)
  have htake := msgResultReceive_settles hmem htype hfree hnode
  rw [takeResultPacket_eq hq hr, hfirst, resultBy_some, engineDoes_congr (g := fun _ => _) hends] at htake
  exact ⟨_, htake, opOf_finishOp (s := takePacket s p) hop hready stMalformed 0, rfl⟩

/-! ### DONE -/

/-- A DONE meets the operation that expects it. -/
theorem done_meets (hnode : p.node = 0x2000)
    (hfirst : (cqOf s q).ops.find? (fun o => expectsDone s (cqOf s q) o r p.tag (isMismatch p)) = some o)
    (hop : opOf s q o.id = some o) :
    ∃ u, Settles (.msgDoneReceive p) s u ∧ u = { takePacket s p with cqs := u.cqs, tremor := u.tremor } ∧
      (isMismatch p = true → opOf u q o.id = some { o with ready := true, code := 6, detail := r }) ∧
      (isMismatch p = false → ∃ x, opOf u q o.id = some x ∧ x.doneBy = o.doneBy ++ [r] ∧
        x.desc = o.desc ∧ x.rx = o.rx ∧ x.sent = o.sent) := by
  have hready : o.ready = false := by
    have := List.find?_some hfirst
    simp only [expectsDone, Bool.and_eq_true, Bool.not_eq_true'] at this
    exact this.1.1.2
  have htake := msgDoneReceive_settles hmem htype hfree hnode
  rw [takeDonePacket_eq hq hr, hfirst, doneBy_some] at htake
  cases hmis : isMismatch p with
  | true =>
    rw [hmis] at htake
    exact ⟨_, htake, rfl, fun _ => opOf_finishOp (s := takePacket s p) hop hready stMismatch r,
      fun h => absurd h.symm Bool.false_ne_true⟩
  | false =>
    rw [hmis] at htake
    obtain ⟨⟨ready, code, detail, hx⟩, hframe⟩ := takeDone_reported (s := takePacket s p) (r := r) hop
    refine ⟨_, htake, ?_, fun h => absurd h Bool.false_ne_true, fun _ => ⟨_, hx, rfl, rfl, rfl, rfl⟩⟩
    rw [engineDoes_frame, hframe]

/-- A DONE that no operation expects is kept with the grant of its pair of zero bytes. -/
theorem done_early (hnode : p.node = 0x2000)
    (hnone : (cqOf s q).ops.find? (fun o => expectsDone s (cqOf s q) o r p.tag (isMismatch p)) = none)
    (hmis : isMismatch p = false) (hany : s.grants.any (isEarlyDone q p) = true) :
    Settles (.msgDoneReceive p) s (retire { takePacket s p with
      grants := updFirst (isEarlyDone q p) (fun g => { g with done := true }) s.grants } (collSlot (q / 32))) := by
  have htake := msgDoneReceive_settles hmem htype hfree hnode
  rw [takeDonePacket_eq hq hr, hnone, doneBy_early (s := takePacket s p) hmis hany, engineDoes_quiet rfl rfl] at htake
  exact htake

/-- Any other that no operation expects is discarded. -/
theorem done_discarded (hnode : p.node = 0x2000)
    (hnone : (cqOf s q).ops.find? (fun o => expectsDone s (cqOf s q) o r p.tag (isMismatch p)) = none)
    (hlate : isMismatch p = true ∨ s.grants.any (isEarlyDone q p) = false) :
    Settles (.msgDoneReceive p) s (incr (takePacket s p) (collSlot (q / 32)) collDisc) := by
  have htake := msgDoneReceive_settles hmem htype hfree hnode
  rw [takeDonePacket_eq hq hr, hnone, doneBy_late (s := takePacket s p) hlate] at htake
  exact htake

end

/-- Settles O44: each packet by the operation that expects it, or by its discard. -/
theorem transfersMeetOperations : Obligations.TransfersMeetOperations := by
  intro p s hmem htype v kinds discard
  have hdiscard (m : Nat) : discard m = incr (takePacket s p) (collSlot m) collDisc := by
    rw [← collSlot_eq]
    rfl
  refine ⟨fun hheld => msg_waits hheld, fun k hk hnode hfree => ⟨fun hq => ?_, fun q hq hr => ?_⟩,
    fun q r hq hr hfree => ?_⟩
  · have htake := msg_taken hmem htype hfree k hk hnode
    rw [msgTaken_misplaced (msgPlace_unserved hq), dropMsg_unserved hq] at htake
    rwa [hdiscard]
  · have hplace : msgPlace (takePacket s p) p = none := by
      rw [msgPlace_served hq, hr]
      rfl
    have htake := msg_taken hmem htype hfree k hk hnode
    rw [msgTaken_misplaced hplace, dropMsg_served hq] at htake
    rwa [hdiscard]
  · intro c bytes op page
    refine ⟨fun hnode hnone hroom => ?_, fun o hnode hfirst hne haway hop => ?_, fun o hnode hfirst hop => ?_,
      fun hnode hnone => ?_, fun hnode => ?_, fun o hnode hfirst hop => ?_, fun hnode hnone => ?_,
      fun o a hnode hfirst hop hplace => ⟨fun howners => ?_, fun howners => ?_⟩, fun hnode hnone => ?_⟩
    · have htake := cts_held hmem htype hfree hq hr hnode hnone hroom
      rwa [← collSlot_eq] at htake
    · exact cts_mismatch hmem htype hfree hq hr hnode hfirst hne haway hop
    · rcases hplace : dataPlace s o r (p.bucket * 65536 + p.chunk) with ⟨a, n⟩
      exact data_meets hmem htype hfree hq hr hnode hfirst hop hplace
    · have htake := msgDataReceive_settles hmem htype hfree (by rw [hnode]; decide)
      rw [takeDataPacket_eq hq hr hnode, hnone] at htake
      rw [hdiscard]
      exact htake
    · have hunknown := msgDataReceive_settles hmem htype hfree (fun h => hnode (List.mem_cons_of_mem _ h))
      rw [takeDataPacket_unknown hq hr (fun h => hnode (by rw [h]; decide))] at hunknown
      rwa [hdiscard]
    · exact done_meets hmem htype hfree hq hr hnode hfirst hop
    · refine ⟨fun hlate => ?_, fun hmis hany => ?_⟩
      · rw [hdiscard]
        exact done_discarded hmem htype hfree hq hr hnode hnone hlate
      · have htake := done_early hmem htype hfree hq hr hnode hnone hmis hany
        rwa [← collSlot_eq] at htake
    · exact result_malformed hmem htype hfree hq hr hnode hfirst hop howners
    · exact result_meets hmem htype hfree hq hr hnode hfirst hop howners hplace
    · have htake := msgResultReceive_settles hmem htype hfree hnode
      rw [takeResultPacket_eq hq hr, hnone] at htake
      rw [hdiscard]
      exact htake

end Sys2Proof.Machine
end

section
/-!
PROOFS. Packets to the Geysers: chunks and their slots, grants and returned credits, and the contributions of tiny
collectives (R257 to R267, R284).
-/

namespace Sys2Proof.Machine

/-! ### Slots -/

section
variable (s : State) (h : Nat)

theorem geyser_updGeyser (f : Geyser → Geyser) : geyser (updGeyser s h f) h = f (geyser s h) := mget_mset_same ..

/-- Only a slot's own chunk is of its reservation and chunk. -/
theorem chunk_of_isSlotOf {r : Resv} {chunk : Nat} {x : Slot} (hx : isSlotOf r chunk x = true) : x.chunk = chunk := by
  simp only [isSlotOf, Bool.and_eq_true, decide_eq_true_eq] at hx
  exact hx.1.1.2

/-- The chunk that has been put into its slot. -/
theorem slotOf_putSlot {r r' : Resv} {chunk : Nat} {x : Slot} (hr : isSlotOf r = isSlotOf r')
    (hx : isSlotOf r chunk x = true) : slotOf (putSlot s h r' x) h r chunk = some x := by
  have hnone : ((geyser s h).slots.filter (fun y => !isSlotOf r' x.chunk y)).find? (isSlotOf r chunk) = none := by
    rw [List.find?_eq_none]
    intro y hy
    rw [chunk_of_isSlotOf hx, ← hr] at hy
    simpa using (List.mem_filter.mp hy).2
  unfold slotOf putSlot
  rw [geyser_updGeyser, List.find?_append, hnone]
  simp [hx]

/-- Changing a reservation leaves the slots. -/
theorem slotOf_updResv (r r' : Resv) (f : Resv → Resv) (chunk : Nat) :
    slotOf (updResv s h r f) h r' chunk = slotOf s h r' chunk := by
  unfold slotOf updResv
  rw [geyser_updGeyser]

end

/-- A reservation that a child's chunk has reached: the child has a credit less, and the chunk is noted. -/
def takenResv (child chunk : Nat) (r : Resv) : Resv := { r with
  credit := r.credit.map (fun (k, n) => if k = child then (k, n - 1) else (k, n))
  seen := r.seen ++ [(chunk, child)] }

section
variable {s : State} {h : Nat} {r : Resv} {chunk child len : Nat} {exps data : List Byte} {mem : List SlotRead}
variable {y : Slot}

/-- The state in which a chunk has reached its reservation. -/
def chunkReached (s : State) (h : Nat) (r : Resv) (chunk child : Nat) : State :=
  updResv s h r (takenResv child chunk)

/-- A first chunk is kept. -/
theorem enterSlot_first (hnone : slotOf s h r chunk = none) :
    enterSlot s h r chunk child len exps data mem = putSlot (chunkReached s h r chunk child) h (takenResv child chunk r)
      ⟨r.job, r.group, r.bucket, chunk, r.host, r.op, len, exps, data, [child], false, false⟩ := by
  have hslot : slotOf (chunkReached s h r chunk child) h (takenResv child chunk r) chunk = none :=
    (slotOf_updResv ..).trans hnone
  unfold enterSlot
  change (match slotOf (chunkReached s h r chunk child) h (takenResv child chunk r) chunk with
    | none => _ | some x => _) = _
  rw [hslot]
  rfl

/-- A later chunk by what the slot's memory gives. -/
theorem enterSlot_later (hslot : slotOf s h r chunk = some y) :
    enterSlot s h r chunk child len exps data mem =
      if y.lost then putSlot (chunkReached s h r chunk child) h (takenResv child chunk r)
        { y with got := y.got ++ [child] }
      else match readSlot (chunkReached s h r chunk child) h (takenResv child chunk r) mem with
      | (s, false) => putSlot s h (takenResv child chunk r) { y with got := y.got ++ [child], lost := true }
      | (s, true) =>
        let x := combineInto (takenResv child chunk r) y child len exps data
        let s := incr (incr (retire s (geySlot h)) (geySlot h) combineCount) (geySlot h) specialCount
          (specialBlocks x.exps)
        if x.got.length = (takenResv child chunk r).credit.length then
          releaseResult s h (takenResv child chunk r) x (mem.drop 1)
        else putSlot s h (takenResv child chunk r) x := by
  have hreached : slotOf (chunkReached s h r chunk child) h (takenResv child chunk r) chunk = some y :=
    (slotOf_updResv ..).trans hslot
  unfold enterSlot
  change (match slotOf (chunkReached s h r chunk child) h (takenResv child chunk r) chunk with
    | none => _ | some x => _) = _
  rw [hreached]
  rfl

end

/-! ### Credits -/

/-- The first element of a kind is found by a narrower kind that it is of. -/
theorem find?_and_of_first {α : Type} {p q : α → Bool} {xs : List α} {x : α} (hx : xs.find? p = some x)
    (hq : q x = true) : xs.find? (fun x => p x && q x) = some x := by
  induction xs with
  | nil => cases hx
  | cons y ys ih =>
    by_cases hy : p y = true
    · rw [List.find?_cons_of_pos hy] at hx
      cases hx
      exact List.find?_cons_of_pos (by rw [hy, hq]; rfl)
    · rw [List.find?_cons_of_neg hy] at hx
      rw [List.find?_cons_of_neg (by simp [hy])]
      exact ih hx

/-- A change of the first element of a kind is not seen by a narrower kind that it is not of, before or after. -/
theorem find?_and_updFirst {α : Type} {p q : α → Bool} {f : α → α} {xs : List α}
    (hq : ∀ x, xs.find? p = some x → q x = false ∧ q (f x) = false) :
    (updFirst p f xs).find? (fun x => p x && q x) = xs.find? (fun x => p x && q x) := by
  induction xs with
  | nil => rfl
  | cons y ys ih =>
    unfold updFirst
    by_cases hy : p y = true
    · obtain ⟨hold, hnew⟩ := hq y (List.find?_cons_of_pos hy)
      rw [if_pos hy, List.find?_cons_of_neg (by simp [hnew]), List.find?_cons_of_neg (by simp [hold])]
    · rw [if_neg hy, List.find?_cons_of_neg (by simp [hy]), List.find?_cons_of_neg (by simp [hy])]
      exact ih fun x hx => hq x ((List.find?_cons_of_neg hy).trans hx)

/-- A grant that is not over is found among those that are left. -/
theorem find?_dropSpent (p : Credit → Bool) (cs : List Credit) :
    (dropSpent cs).find? (fun c => p c && !c.ended) = cs.find? (fun c => p c && !c.ended) := by
  unfold dropSpent
  rw [List.find?_filter]
  congr
  funext c
  cases c.ended with
  | true => simp
  | false => simp

section
variable {s : State} {job group b node : Nat}

/-- What a returned credit does to the grant that it is for. -/
def creditBack (c : Credit) : Credit :=
  if c.ended then { c with left := c.left - 1 } else { c with n := c.n + 1, back := c.back + 1 }

/-- The credits that a sender holds are those of its first grant that is not over. -/
theorem creditOf_eq (s : State) (job group b node : Nat) : creditOf s job group b node =
    ((s.credits.find? (fun c => isCredit job group b node c && !c.ended)).map Credit.n).getD 0 := by
  unfold creditOf
  cases s.credits.find? (fun c => isCredit job group b node c && !c.ended) with
  | none => rfl
  | some c => rfl

theorem creditOf_backCredit : creditOf (backCredit s job group b node) job group b node =
    (((updFirst (isCredit job group b node) creditBack s.credits).find?
      (fun c => isCredit job group b node c && !c.ended)).map Credit.n).getD 0 := by
  have hcredits : (backCredit s job group b node).credits =
      dropSpent (updFirst (isCredit job group b node) creditBack s.credits) := rfl
  rw [creditOf_eq, hcredits, find?_dropSpent]

/-- A credit that comes back counts unless its grant is over. -/
theorem creditOf_backCredit_found {x : Credit} (hx : s.credits.find? (isCredit job group b node) = some x) :
    creditOf (backCredit s job group b node) job group b node =
      if x.ended then creditOf s job group b node else creditOf s job group b node + 1 := by
  rw [creditOf_backCredit]
  cases hended : x.ended with
  | true =>
    rw [find?_and_updFirst, if_pos rfl, creditOf_eq]
    intro y hy
    cases hx.symm.trans hy
    simp [creditBack, hended]
  | false =>
    have hback : creditBack x = { x with n := x.n + 1, back := x.back + 1 } := if_neg (by rw [hended]; decide)
    have hfound : (updFirst (isCredit job group b node) creditBack s.credits).find? (isCredit job group b node) =
        some (creditBack x) := by
      have hkind : isCredit job group b node x = true := List.find?_some hx
      refine find?_updFirst hx ?_
      rw [hback]
      exact hkind
    rw [find?_and_of_first hfound (by simp [hback, hended]), if_neg Bool.false_ne_true, creditOf_eq,
      find?_and_of_first hx (by simp [hended]), hback]
    rfl

/-- One for no grant is of no use. -/
theorem creditOf_backCredit_none (hnone : s.credits.find? (isCredit job group b node) = none) :
    creditOf (backCredit s job group b node) job group b node = creditOf s job group b node := by
  rw [creditOf_backCredit, find?_and_updFirst, creditOf_eq]
  intro x hx
  cases hnone.symm.trans hx

/-- Each bucket of a grant gets its credits. -/
theorem forEach_addCredit (n : Nat) (bs : List Nat) (s : State) :
    forEach bs s (fun s b => addCredit s job group b node n) =
      { s with credits := s.credits ++ bs.map (fun b =>
        { job := job, group := group, bucket := b, node := node, n := n }) } := by
  induction bs generalizing s with
  | nil => rw [List.map_nil, List.append_nil]; rfl
  | cons b bs ih =>
    exact (ih _).trans (congrArg (fun cs => { s with credits := cs }) (List.append_assoc ..))

end

/-! ### The packets -/

section
variable {s : State} {p : Packet} {q : Nat} {mem : List SlotRead}
variable (hmem : p ∈ s.inbox) (hq : queueFor s p.job p.group = some q)

section
variable (hheld : geyserHeld s p = true)
include hheld

/-- A packet for which the engine cannot read yet waits. -/
theorem geyser_waits : (∀ g, Ends (.redChunkReceive g ⟨p, mem⟩) s s) ∧ Ends (.resvCreditReceive ⟨p, mem⟩) s s ∧
    Ends (.resvGrantReceive ⟨p, mem⟩) s s := by
  have hstays (a b : Bool) (t : State) : Host.Outcome.next (φ := Fault) (ρ := Refusal)
      (if a && b && !geyserHeld s p then t else s) = .next s := by
    rw [hheld, Bool.not_true, Bool.and_false]
    rfl
  exact ⟨fun g => hstays .., hstays .., hstays ..⟩

end

section
variable (hfree : geyserHeld s p = false)
include hmem hq hfree

theorem redChunkReceive_settles {g : Half} (htype : p.type = 1) (hg : g.val = p.bucket % (cqOf s q).trees % 2) :
    Settles (.redChunkReceive g ⟨p, mem⟩) s (takeRed s g p mem) := by
  have hhalf : (redHalf s p).all (fun k => k = g.val) = true := by
    unfold redHalf
    rw [hq, hg]
    exact decide_eq_true rfl
  exact congrArg Host.Outcome.next (if_pos (by rw [hasPacket_of_mem hmem htype, hhalf, hfree]; rfl))

end

section
variable (hfree : geyserHeld s p = false)
include hmem hfree

theorem resvCreditReceive_settles (htype : p.type = 2) (hlen : p.len = 0) :
    Settles (.resvCreditReceive ⟨p, mem⟩) s (takeResvCredit s p mem) :=
  congrArg Host.Outcome.next (if_pos (by rw [hasPacket_of_mem hmem htype, hlen, hfree]; rfl))

theorem resvGrantReceive_settles (htype : p.type = 2) (hlen : p.len = 1) :
    Settles (.resvGrantReceive ⟨p, mem⟩) s (takeResvGrant s p mem) :=
  congrArg Host.Outcome.next (if_pos (by rw [hasPacket_of_mem hmem htype, hlen, hfree]; rfl))

end

theorem fumReceive_settles (htype : p.type = 9) (hmem : p ∈ s.inbox) : Settles (.fumReceive p) s (takeFum s p) :=
  congrArg Host.Outcome.next (if_pos (hasPacket_of_mem hmem htype))

end

/-! ### Chunks -/

section
variable {s : State} {p : Packet} {q h : Nat} {mem : List SlotRead}

theorem redError_takePacket : redError (takePacket s p) h p = redError s h p := rfl

theorem takeRed_refused {src : Nat} (hbad : redError s h p = some src) :
    takeRed s h p mem = geyError (takePacket s p) h src p.job p.group p.bucket p.node := by
  unfold takeRed
  dsimp only
  rw [redError_takePacket, hbad]

theorem takeRed_taken (hq : queueFor s p.job p.group = some q) (hok : redError s h p = none) {n : Nat × Nat}
    {f : Nat} {x : Resv} (hnode : myNode s (cqOf s q) (p.bucket % (cqOf s q).trees) = some (n, f))
    (hresv : resvFor s h p.job p.group p.bucket f p.node = some x) :
    takeRed s h p mem = enterSlot (takePacket s p) h x p.chunk p.node p.len p.exps p.payload mem := by
  have hhosted : (queueFor (takePacket s p) p.job p.group).bind (fun q => myNode (takePacket s p)
      (cqOf (takePacket s p) q) (p.bucket % (cqOf (takePacket s p) q).trees)) = some (n, f) := by
    have hv : queueFor (takePacket s p) p.job p.group = some q := hq
    rw [hv]
    exact hnode
  have hfor : resvFor (takePacket s p) h p.job p.group p.bucket f p.node = some x := hresv
  unfold takeRed
  dsimp only
  rw [redError_takePacket, hok]
  dsimp only
  rw [hhosted]
  dsimp only
  rw [hfor]

end

/-! ### A slot's chunks -/

section
variable {s : State} {h : Nat} {r : Resv} {chunk child len : Nat} {exps data : List Byte} {mem : List SlotRead}
variable {y : Slot}

/-- What a Geyser reports of a reservation. -/
def resvEvent (h src : Nat) (r : Resv) : Event :=
  { slot := geySlot h, src := src, job := r.job, detail := r.group + r.bucket * 2 ^ 16 + r.host * 2 ^ 32 }

/-- A corrected read is raised alone. -/
theorem geyError_corrected (s : State) (h job group b node : Nat) :
    geyError s h srcGeyMemCe job group b node = raise s
      { slot := geySlot h, src := srcGeyMemCe, job := job, detail := group + b * 2 ^ 16 + node * 2 ^ 32 } := by
  unfold geyError
  dsimp only
  rw [if_pos (.inr rfl)]

/-- Any other is raised, and the report registers may take it. -/
theorem geyError_raises (s : State) (h src job group b node : Nat) :
    ∃ regs, geyError s h src job group b node = { s with regs := regs, due := s.due ++
      [{ slot := geySlot h, src := src, job := job, detail := group + b * 2 ^ 16 + node * 2 ^ 32 }] } := by
  unfold geyError
  dsimp only
  split
  · exact ⟨_, rfl⟩
  · exact ⟨_, rfl⟩

/-- A kept slot is still the one of its reservation. -/
theorem slotOf_kept {v : State} {x : Slot} (hslot : slotOf s h r chunk = some y) (hkey : isSlotOf r chunk x =
    isSlotOf r chunk y) : slotOf (putSlot v h (takenResv child chunk r) x) h r chunk = some x :=
  slotOf_putSlot v h rfl (hkey.trans (List.find?_some hslot))

/-- A chunk that has been combined: it is counted, with its special blocks. -/
def combinedInto (s : State) (h : Nat) (exps : List Byte) : State :=
  incr (incr (retire s (geySlot h)) (geySlot h) combineCount) (geySlot h) specialCount (specialBlocks exps)

theorem combinedInto_frame (s : State) (h : Nat) (exps : List Byte) : combinedInto s h exps = { s with
    regs := (combinedInto s h exps).regs, tremor := (combinedInto s h exps).tremor } := rfl

theorem rg_combinedInto_combineCount : rg (combinedInto s h exps) (geySlot h) combineCount =
    min (rg s (geySlot h) combineCount + 1) (2 ^ 32 - 1) := by
  unfold combinedInto
  rw [rg_incr_other _ _ (fkey_ne_of_off_ne rfl rfl (by decide)), rg_incr_same]
  rfl

theorem rg_combinedInto_specialCount : rg (combinedInto s h exps) (geySlot h) specialCount =
    min (rg s (geySlot h) specialCount + specialBlocks exps) (2 ^ 32 - 1) := by
  unfold combinedInto
  rw [rg_incr_same, rg_incr_other _ _ (fkey_ne_of_off_ne rfl rfl (by decide))]
  rfl

/-- What a chunk and the kept one combine to (R258, R259, R268). -/
def combinedChunk (r : Resv) (y : Slot) (child len : Nat) (exps data : List Byte) : List Byte × List Byte :=
  let order := r.credit.map Prod.fst
  if r.order = 1 ∨ order.idxOf (y.got.headD 0) ≤ order.idxOf child then geyserNode len (y.exps, y.data) (exps, data)
  else geyserNode len (exps, data) (y.exps, y.data)

/-- The slot after a chunk has been combined with what it holds. -/
def combinedSlot (r : Resv) (y : Slot) (child len : Nat) (exps data : List Byte) : Slot :=
  { y with
    exps := (combinedChunk r y child len exps data).1
    data := (combinedChunk r y child len exps data).2
    got := y.got ++ [child] }

theorem combineInto_takenResv : combineInto (takenResv child chunk r) y child len exps data =
    combinedSlot r y child len exps data := by
  have horder : (takenResv child chunk r).credit.map Prod.fst = r.credit.map Prod.fst := by
    unfold takenResv
    rw [List.map_map]
    refine List.map_congr_left fun x _ => ?_
    dsimp only [Function.comp]
    split
    · rfl
    · rfl
  have hordered : (takenResv child chunk r).order = r.order := rfl
  unfold combineInto combinedSlot combinedChunk
  dsimp only
  rw [horder, hordered]
  by_cases hleft : r.order = 1 ∨
      (r.credit.map Prod.fst).idxOf (y.got.headD 0) ≤ (r.credit.map Prod.fst).idxOf child
  · have hfirst : (decide (r.order = 1) || decide ((r.credit.map Prod.fst).idxOf (y.got.headD 0) ≤
        (r.credit.map Prod.fst).idxOf child)) = true := by simpa using hleft
    rw [if_pos hleft, if_pos hfirst]
  · have hfirst : ¬(decide (r.order = 1) || decide ((r.credit.map Prod.fst).idxOf (y.got.headD 0) ≤
        (r.credit.map Prod.fst).idxOf child)) = true := by simpa using hleft
    rw [if_neg hleft, if_neg hfirst]

/-- The state that a read of a slot without an uncorrectable error leaves. -/
def slotRead (s : State) (h : Nat) (r : Resv) (found : SlotRead) : State :=
  if found = .corrected then raise s (resvEvent h srcGeyMemCe r) else s

theorem readSlot_good (hgood : mem.headD .clean ≠ .uncorrectable) :
    readSlot s h r mem = (slotRead s h r (mem.headD .clean), true) := by
  unfold readSlot
  cases hfound : mem.headD .clean with
  | clean => rfl
  | corrected => exact congrArg (fun t => (t, true)) (geyError_corrected ..)
  | uncorrectable => exact absurd hfound hgood

theorem readSlot_bad (hbad : mem.headD .clean = .uncorrectable) :
    readSlot s h r mem = (geyError s h srcGeyMemUe r.job r.group r.bucket r.host, false) := by
  unfold readSlot
  rw [hbad]

/-- The state in which a chunk has been combined with what its slot holds. -/
def chunkCombined (s : State) (h : Nat) (r : Resv) (chunk child : Nat) (found : SlotRead) (exps : List Byte) : State :=
  combinedInto (slotRead (chunkReached s h r chunk child) h r found) h exps

section
variable (hslot : slotOf s h r chunk = some y)
include hslot

theorem enterSlot_lost (hlost : y.lost = true) : enterSlot s h r chunk child len exps data mem =
    putSlot (chunkReached s h r chunk child) h (takenResv child chunk r) { y with got := y.got ++ [child] } := by
  rw [enterSlot_later hslot, if_pos hlost]

/-- A slot that cannot be read combines none. -/
theorem enterSlot_unreadable (hlost : y.lost = false) (hbad : mem.headD .clean = .uncorrectable) :
    enterSlot s h r chunk child len exps data mem =
      putSlot (geyError (chunkReached s h r chunk child) h srcGeyMemUe r.job r.group r.bucket r.host) h
        (takenResv child chunk r) { y with got := y.got ++ [child], lost := true } := by
  rw [enterSlot_later hslot, hlost, if_neg Bool.false_ne_true, readSlot_bad hbad]
  rfl

/-- A chunk is combined, and the last child's lets the result leave. -/
theorem enterSlot_combines (hlost : y.lost = false) (hgood : mem.headD .clean ≠ .uncorrectable) :
    enterSlot s h r chunk child len exps data mem =
      if y.got.length + 1 = r.credit.length then
        releaseResult (chunkCombined s h r chunk child (mem.headD .clean) (combinedChunk r y child len exps data).1) h
          (takenResv child chunk r) (combinedSlot r y child len exps data) (mem.drop 1)
      else putSlot (chunkCombined s h r chunk child (mem.headD .clean) (combinedChunk r y child len exps data).1) h
        (takenResv child chunk r) (combinedSlot r y child len exps data) := by
  have hgot : (combinedSlot r y child len exps data).got.length = y.got.length + 1 := List.length_append
  have hcredit : (takenResv child chunk r).credit.length = r.credit.length := List.length_map ..
  rw [enterSlot_later hslot, hlost, if_neg Bool.false_ne_true, readSlot_good hgood]
  dsimp only
  rw [combineInto_takenResv, hgot, hcredit]
  rfl

end

end

end Sys2Proof.Machine
end

section
/-!
PROOFS. What the packets to a Geyser do (R257 to R267, R284).
-/

namespace Sys2Proof.Machine

section
variable {s : State} {h : Nat} {r : Resv} {chunk child len : Nat} {exps data : List Byte} {mem : List SlotRead}
variable {y : Slot}

/-- A chunk that has reached its reservation is seen in the Geysers alone. -/
theorem chunkReached_frame (s : State) (h : Nat) (r : Resv) (chunk child : Nat) :
    chunkReached s h r chunk child = { s with geysers := (chunkReached s h r chunk child).geysers } := rfl

theorem putSlot_frame (s : State) (h : Nat) (r : Resv) (x : Slot) :
    putSlot s h r x = { s with geysers := (putSlot s h r x).geysers } := rfl

/-- What a combined chunk leaves of the counts, of what is raised and of the rest. -/
structure ChunkCombined (s : State) (h : Nat) (r : Resv) (found : SlotRead) (exps : List Byte) (t : State) : Prop where
  counted : rg t (geySlot h) combineCount = min (rg s (geySlot h) combineCount + 1) (2 ^ 32 - 1)
  special : rg t (geySlot h) specialCount = min (rg s (geySlot h) specialCount + specialBlocks exps) (2 ^ 32 - 1)
  clean : found = .clean → t.due = s.due
  corrected : found = .corrected → t.due = s.due ++ [resvEvent h srcGeyMemCe r]
  frame : t = { s with geysers := t.geysers, regs := t.regs, tremor := t.tremor, due := t.due }

/-- The Geysers are no part of it. -/
theorem ChunkCombined.putSlot {found : SlotRead} {t : State} (hc : ChunkCombined s h r found exps t) (r' : Resv)
    (x : Slot) : ChunkCombined s h r found exps (putSlot t h r' x) where
  counted := hc.counted
  special := hc.special
  clean := hc.clean
  corrected := hc.corrected
  frame := by
    rw [putSlot_frame]
    exact congrArg (fun u : State => { u with geysers := (Machine.putSlot t h r' x).geysers }) hc.frame

theorem chunkCombined_combines (s : State) (h : Nat) (r : Resv) (chunk child : Nat) (found : SlotRead)
    (exps : List Byte) : ChunkCombined s h r found exps (chunkCombined s h r chunk child found exps) := by
  have hregs : (slotRead (chunkReached s h r chunk child) h r found).regs = s.regs := by
    unfold slotRead
    split
    · rfl
    · rfl
  have hrg (f : Fld) : rg (slotRead (chunkReached s h r chunk child) h r found) (geySlot h) f = rg s (geySlot h) f := by
    unfold rg
    rw [hregs]
  refine ⟨?_, ?_, ?_, ?_, ?_⟩
  · unfold chunkCombined
    rw [rg_combinedInto_combineCount, hrg]
  · unfold chunkCombined
    rw [rg_combinedInto_specialCount, hrg]
  · rintro rfl
    rfl
  · rintro rfl
    rfl
  · have hread : ∃ gs xs, slotRead (chunkReached s h r chunk child) h r found =
        { s with geysers := gs, due := xs } := by
      unfold slotRead
      split
      · exact ⟨_, _, rfl⟩
      · exact ⟨_, _, rfl⟩
    obtain ⟨gs, xs, hread⟩ := hread
    have hframe := combinedInto_frame (slotRead (chunkReached s h r chunk child) h r found) h exps
    unfold chunkCombined
    rw [hread] at hframe ⊢
    generalize combinedInto { s with geysers := gs, due := xs } h exps = t at hframe ⊢
    rw [hframe]

end

section
variable {s : State} {p : Packet} {q : Nat} {g : Half} {mem : List SlotRead} {x : Resv} {n : Nat × Nat} {f : Nat}
variable (hmem : p ∈ s.inbox) (hq : queueFor s p.job p.group = some q) (hfree : geyserHeld s p = false)
variable (htype : p.type = 1) (hg : g.val = p.bucket % (cqOf s q).trees % 2)
include hmem hq hfree htype hg

/-- A chunk that fails a check is reported. -/
theorem chunk_refused {src : Nat} (hbad : redError s g p = some src) :
    Settles (.redChunkReceive g ⟨p, mem⟩) s
      (geyError (takePacket s p) g src p.job p.group p.bucket p.node) := by
  have htake := redChunkReceive_settles (mem := mem) hmem hq hfree htype hg
  rwa [takeRed_refused hbad] at htake

variable (hok : redError s g p = none) (hnode : myNode s (cqOf s q) (p.bucket % (cqOf s q).trees) = some (n, f))
variable (hresv : resvFor s g p.job p.group p.bucket f p.node = some x)
include hok hnode hresv

/-- Any other enters the slot of its reservation. -/
theorem chunk_enters : Settles (.redChunkReceive g ⟨p, mem⟩) s
    (enterSlot (takePacket s p) g x p.chunk p.node p.len p.exps p.payload mem) := by
  have htake := redChunkReceive_settles (mem := mem) hmem hq hfree htype hg
  rwa [takeRed_taken hq hok hnode hresv] at htake

theorem chunk_first (hnone : slotOf s g x p.chunk = none) : ∃ u, Settles (.redChunkReceive g ⟨p, mem⟩) s u ∧
    slotOf u g x p.chunk = some ⟨x.job, x.group, x.bucket, p.chunk, x.host, x.op, p.len, p.exps,
      p.payload, [p.node], false, false⟩ ∧ u = { takePacket s p with geysers := u.geysers } := by
  have henter := chunk_enters (mem := mem) hmem hq hfree htype hg hok hnode hresv
  rw [enterSlot_first (s := takePacket s p) hnone] at henter
  exact ⟨_, henter, slotOf_putSlot _ _ rfl (by simp [isSlotOf]), rfl⟩

section
variable {y : Slot} (hslot : slotOf s g x p.chunk = some y)
include hslot

theorem chunk_lost (hlost : y.lost = true) : ∃ u, Settles (.redChunkReceive g ⟨p, mem⟩) s u ∧
    slotOf u g x p.chunk = some { y with got := y.got ++ [p.node] } ∧
    u = { takePacket s p with geysers := u.geysers } := by
  have henter := chunk_enters (mem := mem) hmem hq hfree htype hg hok hnode hresv
  rw [enterSlot_lost (s := takePacket s p) hslot hlost] at henter
  exact ⟨_, henter, slotOf_kept hslot rfl, rfl⟩

theorem chunk_unreadable (hlost : y.lost = false) (hbad : mem.headD .clean = .uncorrectable) :
    ∃ u, Settles (.redChunkReceive g ⟨p, mem⟩) s u ∧
      slotOf u g x p.chunk = some { y with got := y.got ++ [p.node], lost := true } ∧
      u.due = s.due ++ [resvEvent g srcGeyMemUe x] ∧
      u = { takePacket s p with geysers := u.geysers, regs := u.regs, due := u.due } := by
  have henter := chunk_enters (mem := mem) hmem hq hfree htype hg hok hnode hresv
  rw [enterSlot_unreadable (s := takePacket s p) hslot hlost hbad] at henter
  obtain ⟨regs, hreport⟩ := geyError_raises (chunkReached (takePacket s p) g x p.chunk p.node) g srcGeyMemUe x.job
    x.group x.bucket x.host
  rw [hreport] at henter
  exact ⟨_, henter, slotOf_kept hslot rfl, rfl, rfl⟩

section
variable (hlost : y.lost = false) (hgood : mem.headD .clean ≠ .uncorrectable)
include hlost hgood

theorem chunk_combined (hmore : y.got.length + 1 ≠ x.credit.length) :
    ∃ u, Settles (.redChunkReceive g ⟨p, mem⟩) s u ∧
      slotOf u g x p.chunk = some (combinedSlot x y p.node p.len p.exps p.payload) ∧
      ChunkCombined (takePacket s p) g x (mem.headD .clean) (combinedChunk x y p.node p.len p.exps p.payload).1 u := by
  have henter := chunk_enters (mem := mem) hmem hq hfree htype hg hok hnode hresv
  rw [enterSlot_combines (s := takePacket s p) hslot hlost hgood, if_neg hmore] at henter
  exact ⟨_, henter, slotOf_kept hslot rfl, (chunkCombined_combines ..).putSlot ..⟩

theorem chunk_completes (hlast : y.got.length + 1 = x.credit.length) :
    ∃ w x', Settles (.redChunkReceive g ⟨p, mem⟩) s
        (releaseResult w g x' (combinedSlot x y p.node p.len p.exps p.payload) (mem.drop 1)) ∧
      ChunkCombined (takePacket s p) g x (mem.headD .clean) (combinedChunk x y p.node p.len p.exps p.payload).1 w ∧
      sameResv x x' = true ∧ x'.seen = x.seen ++ [(p.chunk, p.node)] ∧ x'.sent = x.sent := by
  have henter := chunk_enters (mem := mem) hmem hq hfree htype hg hok hnode hresv
  rw [enterSlot_combines (s := takePacket s p) hslot hlost hgood, if_pos hlast] at henter
  exact ⟨_, _, henter, chunkCombined_combines .., by simp [sameResv, sameNode, takenResv], rfl, rfl⟩

end

end

end

/-! ### Contributions to tiny collectives -/

section
variable {s : State} {p : Packet} {q : Nat}

/-- A contribution goes to the engine of the queue that serves its group. -/
theorem takeFum_served (hq : queueFor s p.job p.group = some q) {u : State}
    (hdoes : (if p.chunk = 0 then tinyArrive (takePacket s p) q p else if p.chunk = 1 then
        match tinyOp (cqOf s q) p.tag with
        | some o => tinyDown (takePacket s p) q o p.payload
        | none => takePacket s p
      else takePacket s p) = u)
    (hinject : u.inject = s.inject) (hinbox : u.inbox = s.inbox.erase p) :
    takeFum s p = retire u (collSlot (q / 32)) := by
  have hv : queueFor (takePacket s p) p.job p.group = some q := hq
  unfold takeFum
  dsimp only
  rw [hv]
  subst hdoes
  exact engineDoes_quiet hinject hinbox

variable (hq : queueFor s p.job p.group = some q)
include hq

section
variable (hchunk : p.chunk = 0) {n : Nat × Nat} (hnode : hostedNode 1 (cqOf s q).rank = some n)
include hchunk hnode

/-- A contribution that the node does not expect is dropped. -/
theorem takeFum_unexpected (hother : p.node ∉ (childNodes n.1 n.2 (cqOf s q).members 1).map (nodeField 1)) :
    takeFum s p = retire (takePacket s p) (collSlot (q / 32)) := by
  have hn : hostedNode 1 (cqOf (takePacket s p) q).rank = some n := hnode
  have hnot : ((childNodes n.1 n.2 (cqOf s q).members 1).map (nodeField 1)).contains p.node = false := by
    simpa using hother
  refine takeFum_served hq ((if_pos hchunk).trans ?_) rfl rfl
  unfold tinyArrive
  dsimp only
  rw [hn]
  exact if_pos (congrArg not hnot)

/-- One that no operation waits for is held in the queue's slot. -/
theorem takeFum_held (hkid : p.node ∈ (childNodes n.1 n.2 (cqOf s q).members 1).map (nodeField 1))
    (hnone : tinyOp (cqOf s q) p.tag = none) :
    takeFum s p = retire { takePacket s p with cqs := mset {} s.cqs q { cqOf s q with
      fum := (cqOf s q).fum ++ [(p.node, p.tag, p.payload)] } } (collSlot (q / 32)) := by
  have hn : hostedNode 1 (cqOf (takePacket s p) q).rank = some n := hnode
  have ho : tinyOp (cqOf (takePacket s p) q) p.tag = none := hnone
  have hin : ((childNodes n.1 n.2 (cqOf s q).members 1).map (nodeField 1)).contains p.node = true :=
    List.contains_iff_mem.mpr hkid
  refine takeFum_served hq ((if_pos hchunk).trans ?_) rfl rfl
  unfold tinyArrive
  dsimp only
  rw [hn]
  dsimp only
  rw [ho]
  refine (if_neg (ne_true_of_eq_false (congrArg not hin))).trans ?_
  split
  · next h => cases h
  · rfl

end

/-- Any other packet of the fumarole tree changes nothing. -/
theorem takeFum_unknown (hchunk : 2 ≤ p.chunk) : takeFum s p = retire (takePacket s p) (collSlot (q / 32)) :=
  takeFum_served hq (by rw [if_neg (by omega), if_neg (by omega)]) rfl rfl

end

/-- Settles O45: the chunks by what their slot holds and gives, grants and credits, and tiny contributions. -/
theorem reductionPackets : Obligations.ReductionPackets := by
  intro p q mem s hmem hq v c t
  refine ⟨fun hheld => geyser_waits hheld, fun g hg htype hfree => ⟨fun src hbad => ?_, fun n f x hok hnode hresv => ?_⟩,
    fun htype hlen hfree => ?_, fun htype hlen hfree => ?_, fun htype hchunk n hnode => ?_, fun htype hchunk => ?_⟩
  · exact chunk_refused hmem hq hfree htype hg hbad
  · refine ⟨fun hnone => chunk_first hmem hq hfree htype hg hok hnode hresv hnone, fun y hslot => ?_⟩
    intro page ev order mine kept e z found combined
    have hpage : page = geySlot g := geySlot_eq g
    have hev (src : Nat) : ev src = resvEvent g src x := by
      unfold resvEvent
      rw [← hpage]
    have he : e = combinedChunk x y p.node p.len p.exps p.payload := rfl
    have hcombined (w : State) (hw : ChunkCombined v g x found e.1 w) : combined w := by
      obtain ⟨hcounted, hspecial, hclean, hcorrected, hframe⟩ := hw
      refine ⟨?_, ?_, hclean, fun hfound => ?_, hframe⟩
      · rw [hpage]
        exact hcounted
      · rw [hpage]
        exact hspecial
      · rw [hev]
        exact hcorrected hfound
    refine ⟨fun hlost => chunk_lost hmem hq hfree htype hg hok hnode hresv hslot hlost,
      fun hlost hgood hmore => ?_, fun hlost hgood hlast => ?_, fun hlost hbad => ?_⟩
    · obtain ⟨u, hu, hkept, hdone⟩ :=
        chunk_combined hmem hq hfree htype hg hok hnode hresv hslot hlost hgood hmore
      exact ⟨u, hu, hkept, hcombined u hdone⟩
    · obtain ⟨w, x', hw, hdone, hsame⟩ :=
        chunk_completes hmem hq hfree htype hg hok hnode hresv hslot hlost hgood hlast
      exact ⟨w, x', hw, hcombined w hdone, hsame⟩
    · rw [hev]
      exact chunk_unreadable hmem hq hfree htype hg hok hnode hresv hslot hlost hbad
  · exact ⟨backCredit v p.job p.group p.bucket p.node, resvCreditReceive_settles hmem hfree htype hlen, rfl,
      fun x hx => creditOf_backCredit_found (s := v) hx, fun hnone => creditOf_backCredit_none (s := v) hnone⟩
  · intro b0 b1 bs w
    have htake := resvGrantReceive_settles (mem := mem) hmem hfree htype hlen
    have hv : queueFor (takePacket s p) p.job p.group = some q := hq
    unfold takeResvGrant at htake
    dsimp only at htake
    rw [hv] at htake
    dsimp only at htake
    rw [forEach_addCredit] at htake
    exact htake
  · intro kids
    have htake := fumReceive_settles htype hmem
    refine ⟨fun hother => ?_, fun hkid hnone => ?_⟩
    · rw [takeFum_unexpected hq hchunk hnode hother, ← collSlot_eq] at htake
      exact htake
    · rw [takeFum_held hq hchunk hnode hkid hnone, ← collSlot_eq] at htake
      exact htake
  · have htake := fumReceive_settles htype hmem
    rwa [takeFum_unknown hq hchunk, ← collSlot_eq] at htake

end Sys2Proof.Machine
end

section
/-!
PROOFS. A store for which nothing waits: it writes its bytes and no others, and beside memory moves only the hold
buffers and what readers have met (R171, R181, R191, R207).
-/

namespace Sys2Proof.Machine

/-! ### Bytes in a row -/

theorem wrPairs_withAddrs (s : State) (a : Nat) (bs : List Byte) : wrPairs s (withAddrs a bs) = wrBytes s a bs := by
  induction bs generalizing s a with
  | nil => rfl
  | cons b bs ih => exact ih (wrByte s a b) (a + 1)

theorem withAddrs_length (a : Nat) (bs : List Byte) : (withAddrs a bs).length = bs.length := by
  induction bs generalizing a with
  | nil => rfl
  | cons b bs ih => exact congrArg (· + 1) (ih (a + 1))

theorem wrBytes_append (s : State) (a : Nat) (xs ys : List Byte) :
    wrBytes s a (xs ++ ys) = wrBytes (wrBytes s a xs) (a + xs.length) ys := by
  induction xs generalizing s a with
  | nil => rfl
  | cons x xs ih =>
    have hplace : a + (x :: xs).length = a + 1 + xs.length := by rw [List.length_cons]; omega
    rw [hplace]
    exact ih (wrByte s a x) (a + 1)

/-- Bytes are written into memory whatever else the state holds. -/
theorem wrBytes_congr {s t : State} (h : t.mem = s.mem) (a : Nat) (bs : List Byte) :
    (wrBytes t a bs).mem = (wrBytes s a bs).mem := by
  induction bs generalizing s t a with
  | nil => exact h
  | cons b bs ih => exact ih (congrArg (fun m => mset memDefault m a b) h) _

/-! ### Granules -/

/-- The ranges of the domains begin and end at boundaries of 2,048 bytes. -/
theorem dom_aligned (d : Dom) : domBase d % 2048 = 0 ∧ domMax d % 2048 = 0 := by
  cases d with
  | pkg => exact ⟨rfl, rfl⟩
  | lobe l => exact ⟨by simp only [domBase]; omega, by simp only [domMax]; decide⟩
  | dieLocal d => exact ⟨by simp only [domBase]; omega, by simp only [domMax]; decide⟩
  | buffer d => exact ⟨by simp only [domBase]; omega, by simp only [domMax]; decide⟩

/-- Addresses of one block lie in one domain. -/
theorem domOf_block {x y : Nat} (h : x / 2048 = y / 2048) : domOf x = domOf y := by
  have hin (d : Dom) : (decide (domBase d ≤ x) && decide (x < domBase d + domMax d)) =
      (decide (domBase d ≤ y) && decide (y < domBase d + domMax d)) := by
    obtain ⟨hbase, hmax⟩ := dom_aligned d
    rw [← Bool.decide_and, ← Bool.decide_and]
    refine decide_eq_decide.mpr ⟨fun hx => ?_, fun hy => ?_⟩
    · omega
    · omega
  unfold domOf
  congr
  funext d
  exact hin d

theorem domBase_le_of_domOf {a : Nat} {d : Dom} (h : domOf a = some d) : domBase d ≤ a := by
  have := List.find?_some h
  simp only [Bool.and_eq_true, decide_eq_true_eq] at this
  exact this.1

section
variable (s : State) {x y : Nat} (h : x / 256 = y / 256)
include h

/-- Addresses of one granule lie on one channel, or on none. -/
theorem locate_granule : (locate s x = none ∧ locate s y = none) ∨
    ∃ ch u v, locate s x = some (ch, u) ∧ locate s y = some (ch, v) := by
  have hdom : domOf x = domOf y := domOf_block (by omega)
  unfold locate
  rw [hdom]
  cases hd : domOf y with
  | none => exact .inl ⟨rfl, rfl⟩
  | some d =>
    have hplace : (x - domBase d) / 256 = (y - domBase d) / 256 := by
      have hx := domBase_le_of_domOf (hdom.trans hd)
      have hy := domBase_le_of_domOf hd
      have hbase := (dom_aligned d).1
      omega
    cases d with
    | buffer d => exact .inl ⟨rfl, rfl⟩
    | _ =>
      dsimp only
      rw [hplace]
      split
      · exact .inl ⟨rfl, rfl⟩
      · split
        · exact .inr ⟨_, _, _, rfl, rfl⟩
        · exact .inl ⟨rfl, rfl⟩

theorem ownerDie_granule : ownerDie s x = ownerDie s y := by
  have hdom : domOf x = domOf y := domOf_block (by omega)
  unfold ownerDie
  rw [hdom]
  obtain ⟨hx, hy⟩ | ⟨ch, u, v, hx, hy⟩ := locate_granule s h
  · rw [hx, hy]
  · rw [hx, hy]

theorem heldAt_granule : heldAt s x = heldAt s y := by
  have hsector : sectorOf x / 256 = sectorOf y / 256 := by unfold sectorOf; omega
  unfold heldAt
  obtain ⟨hx, hy⟩ | ⟨ch, u, v, hx, hy⟩ := locate_granule s hsector
  · rw [hx, hy]
  · rw [hx, hy]

end

/-! ### Holds -/

/-- The hold at an address is one of a die, for the channel that the address lies on. -/
theorem heldAt_eq_some {s : State} {a d : Nat} {h : Hold} : heldAt s a = some (d, h) ↔
    anyHold s = true ∧
    ∃ ch off, locate s (sectorOf a) = some (ch, off) ∧ d = chanDie ch ∧ (memCtl s d).hold = some h ∧ h.chan = ch := by
  have hany : anyHold s = !(List.range 4).all (fun d => (memCtl s d).hold.isNone) := by
    unfold anyHold
    rw [List.not_all_eq_any_not]
    simp
  unfold heldAt
  rw [hany]
  cases (List.range 4).all (fun d => (memCtl s d).hold.isNone) with
  | true => simp
  | false =>
    cases hloc : locate s (sectorOf a) with
    | none => simp
    | some v =>
      obtain ⟨ch, off⟩ := v
      simp only [Bool.false_eq_true, if_false, Option.map_eq_some_iff, Option.filter_eq_some_iff, Prod.mk.injEq,
        Bool.not_false, true_and, Option.some.injEq]
      constructor
      · rintro ⟨g, ⟨hhold, hchan⟩, rfl, rfl⟩
        exact ⟨ch, off, ⟨rfl, rfl⟩, rfl, hhold, of_decide_eq_true hchan⟩
      · rintro ⟨ch', off', ⟨rfl, rfl⟩, rfl, hhold, hchan⟩
        exact ⟨h, ⟨hhold, decide_eq_true hchan⟩, rfl, rfl⟩

/-- The holds of `t` are those of `s`, with at most `m` bytes more in the buffer of each. -/
def HoldsFill (s t : State) (m : Nat) : Prop := ∀ x d h', heldAt t x = some (d, h') →
  ∃ h, heldAt s x = some (d, h) ∧ h'.queue = h.queue ∧ bufferBytes h' ≤ bufferBytes h + m

/-- Has a hold room for `n` bytes, no write being behind it? -/
def roomFor (h : Hold) (n : Nat) : Prop :=
  h.queue.any (fun y => y.reader.isNone) = false ∧ bufferBytes h + n ≤ 262144

/-! ### One sector -/

section
variable {s : State} {a : Nat} {bs : List Byte}

/-- Changes that leave the locations and every die's memory control leave the holds. -/
theorem HoldsFill.of_eq {t : State} (hloc : ∀ x, locate t x = locate s x) (hctl : ∀ e, memCtl t e = memCtl s e)
    (m : Nat) : HoldsFill s t m := by
  have hheld (x : Nat) : heldAt t x = heldAt s x := by
    unfold heldAt
    simp only [hctl, hloc]
  intro x d h' hx
  exact ⟨h', (hheld x).symm.trans hx, rfl, Nat.le_add_right ..⟩

/-- The hold of a die with one write more in its buffer. -/
def bufferTakes (s : State) (d : Nat) (h : Hold) (x : Access) : State :=
  updMem s d (fun m => { m with hold := some { h with buffer := h.buffer ++ [{ x with symbols := [0] }] } })

theorem bufferTakes_fills {d : Nat} {h : Hold} (hheld : heldAt s a = some (d, h)) (x : Access) :
    HoldsFill s (bufferTakes s d h x) x.bytes.length := by
  obtain ⟨hany, ch, off, -, hd, hhold, hchan⟩ := heldAt_eq_some.mp hheld
  intro y e h' hy
  obtain ⟨-, ch', off', hloc, he, hhold', hchan'⟩ := heldAt_eq_some.mp hy
  by_cases hed : e = d
  · subst hed
    unfold bufferTakes at hhold'
    rw [memCtl_updMem_same] at hhold'
    cases hhold'
    refine ⟨h, heldAt_eq_some.mpr ⟨hany, ch', off', hloc, he, hhold, hchan'⟩, rfl, ?_⟩
    unfold bufferBytes
    simp
  · have hother : memCtl (bufferTakes s d h x) e = memCtl s e :=
      congrArg DieSt.mem (die_updDie_other s _ hed)
    rw [hother] at hhold'
    exact ⟨h', heldAt_eq_some.mpr ⟨hany, ch', off', hloc, he, hhold', hchan'⟩, rfl, Nat.le_add_right ..⟩

/-- A write of clean bytes enters a hold buffer that has room. -/
theorem writeHeld_passes {d : Nat} {h : Hold} {x : Access} (hroom : roomFor h x.bytes.length)
    (hclean : x.symbols = [0]) : writeHeld s d h x = wrPairs (bufferTakes s d h x) x.bytes := by
  obtain ⟨hqueue, hbytes⟩ := hroom
  have hpass : ¬(h.queue.any (fun y => y.reader.isNone) = true ∨ bufferBytes h + x.bytes.length > 262144) := by
    rw [hqueue]
    simpa using hbytes
  have hfinds : codeFinds s x.addr (x.symbols.getD 0 (errOf s x.addr)) = (s, 0) := by
    rw [hclean]
    exact if_pos (Nat.zero_le 2)
  unfold writeHeld
  rw [if_neg hpass]
  unfold bufferWrite
  rw [hfinds, ite_self]
  rfl

/-- Where no sector is in error, one that is written whole stays clean. -/
theorem setErr_clean (herrs : s.errs = []) : ∃ seen, setErr s a 0 = { s with seen := seen } := by
  have hkept : mset 0 s.errs (sectorOf a) 0 = s.errs := by
    rw [herrs]
    rfl
  unfold setErr
  rw [hkept]
  exact ⟨_, rfl⟩

theorem rmwRead_clean (herrs : s.errs = []) : rmwRead s a = (s, true) := by
  have herr : errOf s a = 0 := by
    unfold errOf
    rw [herrs]
    rfl
  simp only [rmwRead, herr]

/-- Bytes in a row, beside what a store moves of the rest of the state. -/
theorem wrBytes_beside (t : State) (hmem : t.mem = s.mem) :
    wrBytes t a bs = { t with mem := (wrBytes s a bs).mem } :=
  (wrBytes_eq t a bs).trans (congrArg (fun m => { t with mem := m }) (wrBytes_congr hmem a bs))

/-- What a store of one sector comes to. -/
def SectorStored (s : State) (a : Nat) (bs : List Byte) (t : State) : Prop :=
  (∃ dies seen, t = { wrBytes s a bs with dies := dies, seen := seen }) ∧ HoldsFill s t bs.length

/-- Bytes that are written into memory move no hold. -/
theorem SectorStored.of_seen (seen : List (Reader × Nat)) :
    SectorStored s a bs (wrPairs { s with seen := seen } (withAddrs a bs)) := by
  rw [wrPairs_withAddrs, wrBytes_beside (s := s) { s with seen := seen } rfl]
  exact ⟨⟨s.dies, seen, (congrArg (fun u : State => { u with dies := s.dies, seen := seen }) (wrBytes_eq s a bs)).symm⟩,
    .of_eq (fun _ => rfl) (fun _ => rfl) _⟩

/-- A store of bytes of one sector, where no sector is in error and a hold of its channel has room. -/
theorem storeMasked_passes {b : Byte} (herrs : s.errs = [])
    (hroom : ∀ d h, heldAt s a = some (d, h) → roomFor h (b :: bs).length) :
    SectorStored s a (b :: bs) (storeMasked s (withAddrs a (b :: bs))) := by
  have herr : errOf s a = 0 := by
    unfold errOf
    rw [herrs]
    rfl
  have hlen := withAddrs_length a (b :: bs)
  unfold withAddrs at hlen ⊢
  unfold storeMasked
  dsimp only
  split
  · next d h hheld =>
    have hfits : roomFor h ((a, b) :: withAddrs (a + 1) bs).length := hlen ▸ hroom d h hheld
    have hfills := bufferTakes_fills hheld { addr := a, reader := none, bytes := (a, b) :: withAddrs (a + 1) bs
                                             symbols := [0], since := s.clock }
    rw [herr, writeHeld_passes hfits rfl]
    dsimp only at hfills ⊢
    rw [hlen] at hfills
    generalize { addr := a, reader := none, bytes := (a, b) :: withAddrs (a + 1) bs
                 symbols := [0], since := s.clock : Access } = x at hfills ⊢
    have hwritten : wrPairs (bufferTakes s d h x) ((a, b) :: withAddrs (a + 1) bs) =
        { bufferTakes s d h x with mem := (wrBytes s a (b :: bs)).mem } :=
      (wrPairs_withAddrs _ a (b :: bs)).trans (wrBytes_beside _ rfl)
    rw [hwritten]
    refine ⟨⟨(bufferTakes s d h x).dies, s.seen, ?_⟩, fun y e h' hy => hfills y e h' hy⟩
    rw [wrBytes_eq s a (b :: bs)]
    rfl
  · obtain ⟨seen, hseen⟩ := setErr_clean (a := a) herrs
    rw [rmwRead_clean herrs, hseen]
    split
    · exact SectorStored.of_seen (bs := b :: bs) seen
    · exact SectorStored.of_seen (bs := b :: bs) s.seen

/-! ### Stores -/

/-- A store for which nothing waits: no sector is in error, no store waits before it, its paths are open, and the
holds of its channels have room. -/
structure StorePasses (s : State) (src : Source) (a n : Nat) : Prop where
  errs : s.errs = []
  posted : s.posted = []
  path : edgesOpen s = true ∨ ∀ x, a ≤ x → x < a + n → pathOpen s src (ownerDie s x) = true
  room : ∀ x d h, a ≤ x → x < a + n → heldAt s x = some (d, h) → roomFor h n

/-- A sector's bytes go straight to their controller. -/
theorem storeVia_passes {src : Source} {b : Byte} {n : Nat} (h : StorePasses s src a (n + 1)) :
    storeVia s src (withAddrs a (b :: bs)) = storeMasked s (withAddrs a (b :: bs)) := by
  unfold withAddrs storeVia
  dsimp only
  rw [h.posted]
  split
  · rfl
  · next hshut =>
    obtain hopen | hpath := h.path
    · exact absurd (by rw [hopen]; rfl) hshut
    · exact if_pos (by rw [hpath a (Nat.le_refl a) (by omega)]; rfl)

/-- The rest of a store passes once a sector of it has been stored. -/
theorem StorePasses.rest {src : Source} {t : State} {xs ys : List Byte} (h : StorePasses s src a (xs ++ ys).length)
    (hstored : SectorStored s a xs t) : StorePasses t src (a + xs.length) ys.length := by
  rw [List.length_append] at h
  obtain ⟨⟨dies, seen, rfl⟩, hfills⟩ := hstored
  rw [wrBytes_eq] at hfills ⊢
  refine ⟨h.errs, h.posted, ?_, fun x d h' hlo hhi hheld => ?_⟩
  · exact h.path.imp id fun hpath x hlo hhi => hpath x (by omega) (by omega)
  · obtain ⟨g, hg, hqueue, hbytes⟩ := hfills x d h' hheld
    obtain ⟨hclear, hroom⟩ := h.room x d g (by omega) (by omega) hg
    exact ⟨by rw [hqueue]; exact hclear, by omega⟩

theorem storeSectors_nil (k : Nat) (s : State) (src : Source) (a : Nat) : storeSectors k s src a [] = s := by
  cases k with
  | zero => rfl
  | succ k => rfl

/-- A store for which nothing waits writes its bytes. -/
theorem storeSectors_passes {src : Source} (k : Nat) : ∀ {s : State} {a : Nat} {bs : List Byte}, bs.length < k →
    StorePasses s src a bs.length →
    ∃ dies seen, storeSectors k s src a bs = { wrBytes s a bs with dies := dies, seen := seen } := by
  induction k with
  | zero => exact fun h => absurd h (Nat.not_lt_zero _)
  | succ k ih =>
    intro s a bs hk hpasses
    cases bs with
    | nil => exact ⟨s.dies, s.seen, rfl⟩
    | cons b bs =>
      obtain ⟨m, hm⟩ : ∃ m, 32 - a % 32 = m + 1 := ⟨31 - a % 32, by omega⟩
      have hsplit : b :: bs.take m ++ bs.drop m = b :: bs := congrArg (b :: ·) (List.take_append_drop m bs)
      have hstored : SectorStored s a (b :: bs.take m) (storeVia s src (withAddrs a (b :: bs.take m))) := by
        rw [storeVia_passes hpasses]
        refine storeMasked_passes hpasses.errs fun d h hheld => ?_
        obtain ⟨hclear, hroom⟩ := hpasses.room a d h (Nat.le_refl a) (by simp) hheld
        refine ⟨hclear, Nat.le_trans (Nat.add_le_add_left ?_ _) hroom⟩
        simp
      have hpasses' : StorePasses s src a (b :: bs.take m ++ bs.drop m).length := by rwa [hsplit]
      have hsector : storeSectors (k + 1) s src a (b :: bs) =
          storeSectors k (storeVia s src (withAddrs a (b :: bs.take m))) src (a + (m + 1)) (bs.drop m) := by
        rw [storeSectors]
        dsimp only
        rw [hm]
        rfl
      have hrest := hpasses'.rest hstored
      obtain ⟨⟨dies, seen, ht⟩, -⟩ := hstored
      rw [hsector]
      generalize storeVia s src (withAddrs a (b :: bs.take m)) = t at ht hrest ⊢
      have hmem : t.mem = (wrBytes s a (b :: bs.take m)).mem := by rw [ht]
      by_cases hlong : m ≤ bs.length
      · have hplace : (b :: bs.take m).length = m + 1 := by rw [List.length_cons, List.length_take_of_le hlong]
        rw [hplace] at hrest
        have hfuel : (bs.drop m).length < k := by
          rw [List.length_drop]
          rw [List.length_cons] at hk
          omega
        obtain ⟨dies', seen', hu⟩ := ih hfuel hrest
        have hbytes := wrBytes_append s a (b :: bs.take m) (bs.drop m)
        rw [hsplit, hplace] at hbytes
        refine ⟨dies', seen', ?_⟩
        rw [hu, wrBytes_beside t hmem, ← hbytes, ht, wrBytes_eq s a (b :: bs), wrBytes_eq s a (b :: bs.take m)]
      · have hall : bs.take m = bs := List.take_of_length_le (by omega)
        have hnone : bs.drop m = [] := List.drop_eq_nil_of_le (by omega)
        rw [hnone, storeSectors_nil, ht, hall]
        exact ⟨dies, seen, rfl⟩

end

end Sys2Proof.Machine
end

section
/-!
PROOFS. When nothing waits for a store inside one block of 2,048 bytes (R171, R191, R207).
-/

namespace Sys2Proof.Machine

section
variable {s : State} {a n : Nat}

/-- Where bytes reach memory, their domain has some. -/
theorem dom_of_reaches (h : reaches s a n = true) : n ≠ 0 ∧ ∃ d, domOf a = some d ∧ domSize s d ≠ 0 := by
  obtain ⟨hn, hreach⟩ : n ≠ 0 ∧ allReach s a n = true := by simpa [reaches] using h
  refine ⟨hn, ?_⟩
  change reachFrom 11 s a n = true at hreach
  rw [reachFrom] at hreach
  cases hdom : domOf a with
  | none => simp [hdom, hn] at hreach
  | some d =>
    refine ⟨d, rfl, fun hsize => ?_⟩
    have hbase := domBase_le_of_domOf hdom
    have hnone : domBase d + domSize s d - a = 0 := by omega
    simp [hdom, hn, hnone] at hreach

/-- A domain with memory, other than a buffer, has a live channel. -/
theorem liveOf_ne_nil {d : Dom} (hsize : domSize s d ≠ 0) (hbuffer : ∀ e, d ≠ .buffer e) : liveOf s d ≠ [] := by
  intro hnone
  have hclosed : domClosed s d = true := by
    unfold domClosed
    cases d with
    | buffer e => exact absurd rfl (hbuffer e)
    | pkg => simp [hnone]
    | lobe l => simp [hnone]
    | dieLocal e => simp [hnone]
  exact hsize (if_pos hclosed)

/-- An address of such a domain lies on a channel. -/
theorem locate_isSome {d : Dom} (hdom : domOf a = some d) (hlive : liveOf s d ≠ []) (hbuffer : ∀ e, d ≠ .buffer e) :
    ∃ ch off, locate s a = some (ch, off) := by
  have hlen : (liveOf s d).length ≠ 0 := fun h => hlive (List.length_eq_zero_iff.mp h)
  have hentry (i : Nat) : ∃ ch, tableEntry s d i = some ch := by
    have hin : i % (liveOf s d).length < (liveOf s d).length := Nat.mod_lt _ (Nat.pos_of_ne_zero hlen)
    refine ⟨(liveOf s d)[i % (liveOf s d).length], ?_⟩
    unfold tableEntry
    dsimp only
    rw [if_neg (by simpa using hlive), List.getElem?_eq_getElem hin]
  unfold locate
  rw [hdom]
  cases d with
  | buffer e => exact absurd rfl (hbuffer e)
  | _ =>
    dsimp only
    rw [if_neg hlen]
    split
    · exact ⟨_, _, rfl⟩
    · next hnone => 
      obtain ⟨ch, hch⟩ := hentry _
      rw [hch] at hnone
      cases hnone

/-- An open path to every byte of a block that reaches memory. -/
theorem pathOpen_of_pathShut {src : Source} (hreach : reaches s a n = true) (hblock : a % 2048 + n ≤ 2048)
    (hshut : pathShut s src a n = false) {x : Nat} (hlo : a ≤ x) (hhi : x < a + n) :
    pathOpen s src (ownerDie s x) = true := by
  obtain ⟨hn, d, hdom, hsize⟩ := dom_of_reaches hreach
  have hx : domOf x = some d := (domOf_block (by omega)).trans hdom
  have howner : ownerDie s x ∈ diesOf s a n := by
    by_cases hbuffer : ∃ e, d = .buffer e
    · obtain ⟨e, rfl⟩ := hbuffer
      unfold ownerDie diesOf
      rw [hx, hdom]
      dsimp only
      rw [if_neg hn]
      exact List.mem_singleton.mpr rfl
    · have hbuffer : ∀ e, d ≠ .buffer e := fun e he => hbuffer ⟨e, he⟩
      have hlive := liveOf_ne_nil hsize hbuffer
      have hgranule : (a / 256 * 256 + 256 * (x / 256 - a / 256)) / 256 = x / 256 := by omega
      obtain ⟨ch, off, hloc⟩ := locate_isSome hx hlive hbuffer
      have hchan : ch ∈ chansOf s a n := by
        unfold chansOf
        refine List.mem_filterMap.mpr ⟨x / 256 - a / 256, List.mem_range.mpr (by omega), ?_⟩
        obtain ⟨-, hnone⟩ | ⟨ch', u, v, hu, hv⟩ := locate_granule s hgranule
        · rw [hnone] at hloc
          cases hloc
        · rw [hloc] at hv
          cases hv
          rw [hu]
          rfl
      unfold ownerDie diesOf
      rw [hx, hdom, hloc]
      cases d with
      | buffer e => exact absurd rfl (hbuffer e)
      | _ => exact List.mem_eraseDups.mpr (List.mem_map_of_mem hchan)
  have := List.any_eq_false.mp hshut _ howner
  simpa using this

/-- A store that need not wait passes. -/
theorem storePasses_of_storeWaits {src : Source} (hreach : reaches s a n = true) (hblock : a % 2048 + n ≤ 2048)
    (herrs : s.errs = []) (hposted : s.posted = []) (hwaits : storeWaits s src a n = false) :
    StorePasses s src a n := by
  obtain ⟨hpath, hhold⟩ : (edgesOpen s = false → pathShut s src a n = false) ∧ _ := by
    unfold storeWaits at hwaits
    rw [Bool.or_eq_false_iff] at hwaits
    exact ⟨by simpa using hwaits.1, hwaits.2⟩
  refine ⟨herrs, hposted, ?_, fun x d h hlo hhi hheld => ?_⟩
  · cases hopen : edgesOpen s with
    | true => exact .inl rfl
    | false => exact .inr fun x hlo hhi => pathOpen_of_pathShut hreach hblock (hpath hopen) hlo hhi
  · have hany : anyHold s = true := (heldAt_eq_some.mp hheld).1
    have hgranule : max a (a / 256 * 256 + 256 * (x / 256 - a / 256)) / 256 = x / 256 := by omega
    have hin : (max a (a / 256 * 256 + 256 * (x / 256 - a / 256)),
        min (a + n) (a / 256 * 256 + 256 * (x / 256 - a / 256 + 1)) -
          max a (a / 256 * 256 + 256 * (x / 256 - a / 256))) ∈ granules a n := by
      unfold granules
      rw [if_neg (by omega)]
      exact List.mem_map_of_mem (f := fun k => (max a (a / 256 * 256 + 256 * k),
        min (a + n) (a / 256 * 256 + 256 * (k + 1)) - max a (a / 256 * 256 + 256 * k)))
        (List.mem_range.mpr (by omega))
    rw [hany, Bool.true_and] at hhold
    have hroom := List.any_eq_false.mp hhold _ hin
    rw [heldAt_granule s hgranule, hheld] at hroom
    simpa [roomFor] using hroom

end

end Sys2Proof.Machine
end

section
/-!
PROOFS. What the traffic of accesses that are not followed one by one leaves alone (R175, log entry 119).
-/

namespace Sys2Proof.Machine

/-- A field of another page than a memory gateway's is no count of bus turns. -/
theorem fkey_ne_turnCount {slot d : Nat} {f : Fld} (hslot : slot ≠ mgSlot d) (hf : f.off * 8 + f.lo < 32768) :
    fkey slot f ≠ fkey (mgSlot d) turnCount := by
  simp only [fkey, turnCount]
  omega

/-- No more has changed than the counts of bus turns, the directions of the buses and the free values. -/
structure TrafficOnly (s t : State) : Prop where
  frame : t = { s with regs := t.regs, dies := t.dies, free := t.free }
  regs : ∀ {slot : Nat} (f : Fld), (∀ d, slot ≠ mgSlot d) → f.off * 8 + f.lo < 32768 → rg t slot f = rg s slot f
  hold : ∀ e, (memCtl t e).hold = (memCtl s e).hold

theorem dieTraffic_only (s : State) (d : Nat) : TrafficOnly s (dieTraffic s d) where
  frame := rfl
  regs f hslot hf := mget_mins_other _ _ _ (fkey_ne_turnCount (hslot d) hf)
  hold e := memCtl_updMem_frame MemCtl.hold _ d (f := fun m => { m with dirs := [], mixed := true }) (fun _ => rfl) e

theorem TrafficOnly.trans {s t u : State} (h : TrafficOnly s t) (h' : TrafficOnly t u) : TrafficOnly s u where
  frame := h'.frame.trans (congrArg (fun x : State => { x with regs := u.regs, dies := u.dies, free := u.free }) h.frame)
  regs f hslot hf := (h'.regs f hslot hf).trans (h.regs f hslot hf)
  hold e := (h'.hold e).trans (h.hold e)

theorem traffic_only (s : State) : TrafficOnly s (traffic s) :=
  (((dieTraffic_only s 0).trans (dieTraffic_only _ 1)).trans (dieTraffic_only _ 2)).trans (dieTraffic_only _ 3)

theorem solSlot_ne_mgSlot (d : Nat) : solSlot ≠ mgSlot d := by
  simp only [solSlot, mgSlot, dieSlot]
  omega

theorem hiSlot_ne_mgSlot (p d : Nat) : hiSlot p ≠ mgSlot d := by
  simp only [hiSlot, halfSlot, mgSlot, dieSlot]
  omega

theorem edgeSet_ne_mgSlot (e : EdgeEnd) (d : Nat) : (edgeSet e).1 ≠ mgSlot d := by
  have hedge := e.edge.isLt
  unfold edgeSet
  dsimp only
  split
  · simp only [rilSlot, mgSlot, dieSlot]
    omega
  split
  · simp only [cedgeSlot, halfSlot, mgSlot, dieSlot]
    omega
  · simp only [rilSlot, mgSlot, dieSlot]
    omega

namespace TrafficOnly

variable {s t : State} (h : TrafficOnly s t)
include h

theorem sol_eq {f : Fld} (hf : f.off * 8 + f.lo < 32768) : rg t solSlot f = rg s solSlot f :=
  h.regs f solSlot_ne_mgSlot hf

theorem isPaired_eq : isPaired t = isPaired s := by
  rw [isPaired, h.sol_eq (by decide), isPaired]

theorem pairedForm_eq : pairedForm t = pairedForm s := by
  rw [pairedForm, h.sol_eq (by decide), pairedForm]

theorem mem_eq : t.mem = s.mem := by rw [h.frame]

theorem jobAt_eq (a : Nat) : jobAt t a = jobAt s a := by
  have hjw : t.jw = s.jw := by rw [h.frame]
  simp only [jobAt, h.pairedForm_eq, hjw]

theorem primaryAddr_eq (a : Nat) : primaryAddr t a = primaryAddr s a := by
  rw [primaryAddr, h.pairedForm_eq, h.sol_eq (by decide), h.jobAt_eq, primaryAddr]

theorem copyAddrs_eq (a : Nat) : copyAddrs t a = copyAddrs s a := by
  simp only [copyAddrs, h.isPaired_eq, h.jobAt_eq, h.primaryAddr_eq]

theorem shareBase_eq (m : Dom) : shareBase t m = shareBase s m := by
  cases m with
  | pkg => rfl
  | buffer e => rfl
  | lobe l => rw [shareBase, h.sol_eq (by decide), shareBase]
  | dieLocal e => rw [shareBase, h.sol_eq (by decide), h.sol_eq (by decide), shareBase]

theorem liveOf_eq (m : Dom) : liveOf t m = liveOf s m := by
  rw [h.frame]
  rfl

theorem locate_eq (a : Nat) : locate t a = locate s a := by
  simp only [locate, tableEntry, h.liveOf_eq, h.shareBase_eq]

theorem heldAt_eq (a : Nat) : heldAt t a = heldAt s a := by
  simp only [heldAt, h.hold, h.locate_eq]

theorem anyHold_eq : anyHold t = anyHold s := by
  simp only [anyHold, h.hold]

theorem hopOpen_eq (k : Hop) : hopOpen t k = hopOpen s k := by
  have hstate (e : EdgeEnd) : erg t e edgeStatusState = erg s e edgeStatusState := by
    have hplace : ∀ base ∈ [0x80, 0xC0], (edgeStatusState base).off * 8 + (edgeStatusState base).lo < 32768 := by decide
    refine h.regs _ (edgeSet_ne_mgSlot e) (hplace _ ?_)
    unfold edgeSet
    dsimp only
    split
    · exact List.mem_cons_self
    split
    · exact List.mem_cons_self
    · exact List.mem_cons_of_mem _ List.mem_cons_self
  cases k with
  | spine => rfl
  | edge i => simp only [hopOpen, hstate]

theorem pathShut_eq (src : Source) (a n : Nat) : pathShut t src a n = pathShut s src a n := by
  have hhop : hopOpen t = hopOpen s := funext h.hopOpen_eq
  simp only [pathShut, diesOf, chansOf, pathOpen, h.locate_eq, hhop]

theorem storeWaits_eq (src : Source) (a n : Nat) : storeWaits t src a n = storeWaits s src a n := by
  simp only [storeWaits, edgesOpen, h.hopOpen_eq, h.pathShut_eq, h.anyHold_eq, h.heldAt_eq]

theorem bothWait_eq (src : Source) (a n : Nat) : bothWait t src a n = bothWait s src a n := by
  simp only [bothWait, h.copyAddrs_eq, h.storeWaits_eq]

end TrafficOnly

end Sys2Proof.Machine
end

section
/-!
PROOFS. Accesses through BAR4 to this package's memory (R320, R322).
-/

namespace Sys2Proof.Machine

/-! ### Failures -/

/-- A check of a board address answers one of few codes. -/
theorem boardCheck_lt (s : State) (write : Bool) (job a n : Nat) : boardCheck s write job a n < 128 := by
  have hlocal (b : Nat) : localCheck s write job b n < 128 := by
    unfold localCheck
    split_ifs
    · decide
    · decide
    · decide
    · decide
  unfold boardCheck
  split_ifs
  · decide
  · decide
  · decide
  · exact hlocal _

/-- What a failed access leaves: a report that stands stays, and another takes the failure. -/
structure BarFailed (s : State) (m off job code : Nat) (u : State) : Prop where
  mem : u.mem = s.mem
  due : u.due = s.due ++ [{ slot := m, src := 1, job := job }]
  stands : rg s m hiErrValid = 1 → ∀ f ∈ [hiErrValid, hiErrStatus, hiErrOffset], rg u m f = rg s m f
  takes : rg s m hiErrValid ≠ 1 → rg u m hiErrValid = 1 ∧ rg u m hiErrStatus = code ∧
    rg u m hiErrOffset = off / 2 ^ 30 % 2 ^ 24

theorem barFail_failed {s : State} {p off job code : Nat} (hcode : code < 128) :
    BarFailed s (hiSlot p) off job code (barFail s p off job code) := by
  have hne {f g : Fld} (hplace : f.off * 8 + f.lo < 32768 ∧ g.off * 8 + g.lo < 32768 ∧
      f.off * 8 + f.lo ≠ g.off * 8 + g.lo) : fkey (hiSlot p) f ≠ fkey (hiSlot p) g :=
    fkey_ne_of_place_ne hplace.1 hplace.2.1 hplace.2.2
  unfold barFail
  dsimp only
  by_cases hvalid : rg s (hiSlot p) hiErrValid = 1
  · rw [if_pos (show rgB s (hiSlot p) hiErrValid = true from decide_eq_true hvalid)]
    exact ⟨rfl, rfl, fun _ f _ => rfl, fun h => absurd hvalid h⟩
  · rw [if_neg (by simpa [rgB] using hvalid)]
    refine ⟨rfl, rfl, fun h => absurd h hvalid, fun _ => ⟨?_, ?_, ?_⟩⟩
    · exact (rg_wg_other _ _ (hne (by decide))).trans ((rg_wg_other _ _ (hne (by decide))).trans (rg_wg_same ..))
    · exact (rg_wg_other _ _ (hne (by decide))).trans ((rg_wg_same ..).trans (Nat.mod_eq_of_lt hcode))
    · exact rg_wg_same ..

/-- Traffic has moved nothing that a failure tells of. -/
theorem BarFailed.of_traffic {s t u : State} {p off job code : Nat} (ht : TrafficOnly s t)
    (h : BarFailed t (hiSlot p) off job code u) : BarFailed s (hiSlot p) off job code u := by
  have hdue : t.due = s.due := by rw [ht.frame]
  have hrg {f : Fld} (hf : f.off * 8 + f.lo < 32768) : rg t (hiSlot p) f = rg s (hiSlot p) f :=
    ht.regs f (hiSlot_ne_mgSlot p) hf
  have hreport : ∀ f ∈ [hiErrValid, hiErrStatus, hiErrOffset], f.off * 8 + f.lo < 32768 := by decide
  obtain ⟨hmem, hraised, hstands, htakes⟩ := h
  rw [hrg (by decide)] at hstands htakes
  exact ⟨hmem.trans ht.mem_eq, hdue ▸ hraised, fun hv f hf => (hstands hv f hf).trans (hrg (hreport f hf)), htakes⟩

/-! ### One part -/

section
variable {p : Half} {off len : Nat} {s : State}

theorem bar4Read_outside (h : 2 ^ (bar4Code s p + 20) < off + len) : Ends (.bar4Read p off len) s s :=
  congrArg Host.Outcome.next (if_neg (by simpa [inBar4] using h))

theorem bar4Read_inside (h : off + len ≤ 2 ^ (bar4Code s p + 20)) :
    Settles (.bar4Read p off len) s (barRead (traffic s) (barReq s p off len)) :=
  congrArg Host.Outcome.next (if_pos (by simpa [inBar4] using h))

theorem bar4Write_outside {data : List Byte} (h : 2 ^ (bar4Code s p + 20) < off + data.length) :
    Ends (.bar4Write p off data) s s :=
  congrArg Host.Outcome.next (if_neg (by simpa [inBar4] using h))

theorem bar4Write_inside {data : List Byte} (h : off + data.length ≤ 2 ^ (bar4Code s p + 20)) :
    Settles (.bar4Write p off data) s (barWrite (traffic s) p off data) :=
  congrArg Host.Outcome.next (if_pos (by simpa [inBar4] using h))

/-- An access inside one block has one part. -/
theorem reqParts_block {r : BarReq} (hlen : 0 < r.len) (hblock : r.off % 2048 + r.len ≤ 2048) :
    reqParts r = [(r.off, r.len)] := by
  have hchunk : chunkLen r.off r.len = r.len := Nat.min_eq_left (by omega)
  obtain ⟨n, hn⟩ : ∃ n, r.len = n + 1 := ⟨r.len - 1, by omega⟩
  unfold reqParts barParts
  dsimp only
  rw [if_neg (by omega), hchunk, Nat.sub_self, hn]
  rfl

theorem reqParts_barReq (s : State) (p : Nat) (hlen : 0 < len) (hblock : off % 2048 + len ≤ 2048) :
    reqParts (barReq s p off len) = [(off, len)] := by
  have hoff : (barReq s p off len).off = off := rfl
  have hn : (barReq s p off len).len = len := rfl
  rw [reqParts_block (by rwa [hn]) (by rwa [hoff, hn]), hoff, hn]

/-- The traffic moves no field that an access carries. -/
theorem barReq_traffic : barReq (traffic s) p off len = barReq s p off len := by
  have hrg {f : Fld} (hf : f.off * 8 + f.lo < 32768) : rg (traffic s) (hiSlot p) f = rg s (hiSlot p) f :=
    (traffic_only s).regs f (hiSlot_ne_mgSlot p) hf
  unfold barReq
  rw [hrg (by decide), hrg (by decide), hrg (by decide)]

/-- A change for each pair of a list of one. -/
theorem forEach_pair (f : State → Nat → Nat → State) (s : State) (a b : Nat) :
    forEach [(a, b)] s (fun s (x, y) => f s x y) = f s a b := rfl

/-- A write inside one block is one part. -/
theorem barWrite_block {q : Nat} {data : List Byte} (hlen : 0 < data.length)
    (hblock : off % 2048 + data.length ≤ 2048) :
    barWrite s q off data = barWritePart s (barReq s q off data.length) off data := by
  have hall : (data.drop (off - off)).take data.length = data := by
    rw [Nat.sub_self, List.drop_zero, List.take_length]
  unfold barWrite
  dsimp only
  rw [reqParts_barReq s q hlen hblock]
  generalize barReq s q off data.length = r
  have hone := forEach_pair (fun s o n => barWritePart s r o ((data.drop (o - off)).take n)) s off data.length
  dsimp only at hone
  rw [hall] at hone
  exact hone

end

/-! ### Reads -/

/-- A read that meets sectors in error leaves what no store moves either. -/
theorem StoreFrame.checkErrs_eq {β : Type} {part : State → β} (h : StoreFrame part) (s : State) (bys : List Reader)
    (es : List (Nat × Nat)) : part (checkErrs s bys es).1 = part s := by
  refine forEach_frame part es s _ fun t x => ?_
  obtain ⟨k, v⟩ := x
  dsimp only
  split
  · exact h.errs t t.errs _
  split
  · exact h.foundBad_eq ..
  · exact h.foundCorrected_eq ..

/-- The primary copy of an address is told by registers that no store reports in. -/
theorem storeFrame_primaryAddr (a : Nat) : StoreFrame (fun s => primaryAddr s a) where
  mem _ _ := rfl
  errs _ _ _ := rfl
  free _ _ := rfl
  posted _ _ := rfl
  due _ _ := rfl
  ctl _ _ _ := rfl
  report s d f v hf := by
    have hrg (g : Fld) (hg : g.off * 8 + g.lo < 32768) : rg (wg s (mgSlot d) f v) solSlot g = rg s solSlot g := by
      refine rg_wg_other _ _ ?_
      simp only [fkey, solSlot, mgSlot, dieSlot]
      omega
    have hform : pairedForm (wg s (mgSlot d) f v) = pairedForm s := by
      rw [pairedForm, hrg _ (by decide), pairedForm]
    have hjob : jobAt (wg s (mgSlot d) f v) a = jobAt s a := by
      simp only [jobAt, hform]
      rfl
    rw [primaryAddr, hform, hrg _ (by decide), hjob, primaryAddr]
  repairs s v := by
    have hrg {g : Fld} (hg : fkey solSlot g ≠ fkey solSlot memRepairQueued) :
        rg (wg s solSlot memRepairQueued v) solSlot g = rg s solSlot g := rg_wg_other _ _ hg
    have hform : pairedForm (wg s solSlot memRepairQueued v) = pairedForm s := by
      rw [pairedForm, hrg (by decide), pairedForm]
    have hjob : jobAt (wg s solSlot memRepairQueued v) a = jobAt s a := by
      simp only [jobAt, hform]
      rfl
    rw [primaryAddr, hform, hrg (by decide), hjob, primaryAddr]

theorem primaryAddr_reportBad {s x : State} {by_ : Reader} {a n : Nat} {bad : Option Nat}
    (h : reportBad s by_ a n = (x, bad)) (b : Nat) : primaryAddr x b = primaryAddr s b := by
  have hx : x = (reportBad s by_ a n).1 := by rw [h]
  rw [hx]
  exact (storeFrame_primaryAddr b).checkErrs_eq ..

theorem foldl_pair {β : Type} (f : β → Nat → Nat → β) (x : β) (a b : Nat) :
    [(a, b)].foldl (fun x (y, z) => f x y z) x = f x a b := rfl

section
variable {s : State} {q off len : Nat} (hlen : 0 < len) (hblock : off % 2048 + len ≤ 2048)
include hlen hblock

/-- The one part of a read inside one block. -/
theorem barParts_block (r : BarReq) (id : Nat) (x : BarAcc) (hr : r.off = off ∧ r.len = len) :
    (reqParts r).foldl (fun x (o, n) => barReadPart r id x o n) x = barReadPart r id x off len := by
  obtain ⟨rfl, rfl⟩ := hr
  rw [reqParts_block hlen hblock]
  exact foldl_pair (fun x o n => barReadPart r id x o n) x r.off r.len

/-- A read that fails its check is aborted. -/
theorem barDo_failed (r : BarReq) (hr : r.off = off ∧ r.len = len)
    (hcheck : boardCheck s false r.job (r.base + off) len ≠ 0) : barDo s r =
      { barFail s r.port off r.job (boardCheck s false r.job (r.base + off) len) with resp := .completerAbort } := by
  have hpart : barReadPart r s.remote.nextRead { st := s } off len =
      { st := barFail s r.port off r.job (boardCheck s false r.job (r.base + off) len), failed := true } :=
    if_pos hcheck
  unfold barDo
  dsimp only
  rw [barParts_block hlen hblock r _ _ hr, hpart]
  rfl

/-- A read of this package's memory answers its bytes, or poison. -/
theorem barDo_local (r : BarReq) (hr : r.off = off ∧ r.len = len)
    (hcheck : boardCheck s false r.job (r.base + off) len = 0) (hslot : bdSlot (r.base + off) = mySlot s) {x : State}
    {bad : Option Nat} (hread : reportBad s .bar4 (bdLocal (r.base + off)) len = (x, bad)) : barDo s r = { x with
      resp := if bad.isSome then .poisoned else .bytes (rdBytes x (primaryAddr s (bdLocal (r.base + off))) len) } := by
  have hpart : barReadPart r s.remote.nextRead { st := s } off len =
      { st := x, got := mset [] [] off (rdBytes x (primaryAddr x (bdLocal (r.base + off))) len)
        poison := bad.isSome } := by
    unfold barReadPart
    dsimp only
    rw [hcheck, if_neg (fun h => h rfl), hslot, if_neg (fun h => h rfl), hread]
    rfl
  have hbytes (bs : List Byte) : barBytes (mset [] [] off bs) = bs := by
    unfold mset
    split
    · next hnone =>
      rw [hnone]
      rfl
    · exact List.append_nil bs
  unfold barDo
  dsimp only
  rw [barParts_block hlen hblock r _ _ hr, hpart]
  dsimp only
  rw [hbytes, primaryAddr_reportBad hread]
  rfl

end

/-! ### Writes -/

/-- A copy of an address lies at the same place of its block. -/
theorem primaryAddr_mod (s : State) (a : Nat) : primaryAddr s a % 2048 = a % 2048 := by
  have hmirror : (mirrorOf a).getD a % 2048 = a % 2048 := by
    unfold mirrorOf
    split
    · simp only [Option.getD_some]; omega
    · simp only [Option.getD_some]; omega
    · simp only [Option.getD_some]; omega
    · simp only [Option.getD_some]; omega
    · simp only [Option.getD_some]; omega
    · rfl
  unfold primaryAddr
  split
  · exact hmirror
  · rfl

theorem bdLocal_mod (a : Nat) : bdLocal a % 2048 = a % 2048 := by
  unfold bdLocal bits
  omega

/-- What passes the check of a write on this package reaches memory. -/
theorem reaches_of_localCheck {s : State} {write : Bool} {job a n : Nat} (h : localCheck s write job a n = 0) :
    reaches s (primaryAddr s a) n = true := by
  by_contra hreach
  have hbad : (!reaches s (primaryAddr s a) n || (write && !copiesReach s a n)) = true := by
    rw [Bool.eq_false_of_not_eq_true hreach]
    rfl
  unfold localCheck at h
  rw [if_pos hbad] at h
  exact absurd h (by decide)

theorem localCheck_of_boardCheck {s : State} {write : Bool} {job a n : Nat} (h : boardCheck s write job a n = 0)
    (hslot : bdSlot a = mySlot s) : localCheck s write job (bdLocal a) n = 0 := by
  unfold boardCheck at h
  split at h
  · exact absurd h (by decide)
  · rwa [if_neg (fun hne => hne hslot)] at h

theorem copyAddrs_single {s : State} (hpaired : isPaired s = false) (a : Nat) : copyAddrs s a = [primaryAddr s a] := by
  unfold copyAddrs
  rw [hpaired]
  rfl

/-- Where there are no two copies, a store writes the primary one. -/
theorem storeBoth_single {s : State} (hpaired : isPaired s = false) (src : Source) (a : Nat) (bs : List Byte) :
    storeBoth s src a bs = store s src (primaryAddr s a) bs := by
  unfold storeBoth
  rw [copyAddrs_single hpaired]
  rfl

/-- A store inside one block, for which nothing waits, writes its bytes and no others. -/
theorem storeBoth_writes {s : State} {src : Source} {a : Nat} {bs : List Byte} (hpaired : isPaired s = false)
    (herrs : s.errs = []) (hposted : s.posted = []) (hwaits : bothWait s src a bs.length = false)
    (hreach : reaches s (primaryAddr s a) bs.length = true) (hblock : a % 2048 + bs.length ≤ 2048) :
    ∃ dies seen, storeBoth s src a bs = { wrBytes s (primaryAddr s a) bs with dies := dies, seen := seen } := by
  have hwait : storeWaits s src (primaryAddr s a) bs.length = false := by
    unfold bothWait at hwaits
    rwa [copyAddrs_single hpaired, List.any_cons, List.any_nil, Bool.or_false] at hwaits
  rw [storeBoth_single hpaired]
  exact storeSectors_passes _ (Nat.lt_succ_self _)
    (storePasses_of_storeWaits hreach (by rw [primaryAddr_mod]; exact hblock) herrs hposted hwait)

/-- A write of a part by what its check answers. -/
theorem barWritePart_failed {s : State} {r : BarReq} {off : Nat} {bs : List Byte}
    (hcheck : boardCheck s true r.job (r.base + off) bs.length ≠ 0) : barWritePart s r off bs =
      barFail s r.port off r.job (boardCheck s true r.job (r.base + off) bs.length) := if_pos hcheck

theorem barWritePart_local {s : State} {r : BarReq} {off : Nat} {bs : List Byte}
    (hcheck : boardCheck s true r.job (r.base + off) bs.length = 0) (hslot : bdSlot (r.base + off) = mySlot s) :
    barWritePart s r off bs = storeBoth s (.half r.port) (bdLocal (r.base + off)) bs := by
  unfold barWritePart
  dsimp only
  rw [if_neg (fun h => h hcheck), if_neg (fun h => h hslot)]

end Sys2Proof.Machine
end

section
/-!
PROOFS. Host accesses and DMAs that move their bytes (R320, R322, R330, R331).
-/

namespace Sys2Proof.Machine

/-! ### Events that a store raises -/

/-- What has been raised is still to be taken, with what has been raised since. -/
def DueGrows (s t : State) : Prop := ∃ es, t.due = s.due ++ es

namespace DueGrows

theorem of_due {s t : State} (h : t.due = s.due) : DueGrows s t := ⟨[], by rw [h, List.append_nil]⟩

theorem trans {s t u : State} (h : DueGrows s t) (h' : DueGrows t u) : DueGrows s u := by
  obtain ⟨es, hes⟩ := h
  obtain ⟨fs, hfs⟩ := h'
  exact ⟨es ++ fs, by rw [hfs, hes, List.append_assoc]⟩

theorem keeping {s t u : State} (h : DueGrows s t) (hu : u.due = t.due) : DueGrows s u := h.trans (of_due hu)

theorem forEach {α : Type} {f : State → α → State} (hf : ∀ t x, DueGrows t (f t x)) (xs : List α) (s : State) :
    DueGrows s (forEach xs s f) := by
  induction xs generalizing s with
  | nil => exact of_due rfl
  | cons x xs ih => exact (hf s x).trans (ih (f s x))

end DueGrows

section
variable (s : State)

theorem raise_dueGrows (e : Event) : DueGrows s (raise s e) := ⟨[e], rfl⟩

theorem reportError_due (d kind a ch cb : Nat) : (reportError s d kind a ch cb).due = s.due := by
  unfold reportError
  dsimp only
  split
  · rfl
  · rfl

theorem queueRepair_dueGrows (d ch row a : Nat) : DueGrows s (queueRepair s d ch row a) := by
  unfold queueRepair
  dsimp only
  split
  · exact .of_due rfl
  split
  · exact .of_due rfl
  · exact raise_dueGrows ..

theorem repairCandidate_dueGrows (d ch cb a : Nat) : DueGrows s (repairCandidate s d ch cb a) := by
  unfold repairCandidate
  dsimp only [useFree]
  split
  · exact .of_due rfl
  split
  · split
    · exact .of_due rfl
    · exact DueGrows.trans (t := { s with free := s.free + 1 }) (.of_due rfl) (queueRepair_dueGrows ..)
  · exact queueRepair_dueGrows ..

theorem foundBad_dueGrows (a : Nat) (scrub : Bool) : DueGrows s (foundBad s a scrub) := by
  unfold foundBad
  dsimp only
  refine DueGrows.trans ?_ (raise_dueGrows ..)
  refine DueGrows.trans ?_ (repairCandidate_dueGrows ..)
  exact .of_due (reportError_due ..)

theorem foundCorrected_dueGrows (a : Nat) : DueGrows s (foundCorrected s a) := by
  unfold foundCorrected
  dsimp only
  have hce (e : Event) (slot : Nat) : DueGrows s (raise (incr s slot ceCount) e) := raise_dueGrows ..
  split
  · refine DueGrows.trans ?_ (raise_dueGrows ..)
    rw [if_neg Bool.false_ne_true]
    refine DueGrows.trans ?_ (repairCandidate_dueGrows ..)
    exact (hce _ _).keeping (reportError_due ..)
  · exact (hce _ _).keeping rfl

theorem rmwRead_dueGrows (a : Nat) : DueGrows s (rmwRead s a).1 := by
  unfold rmwRead
  split
  · exact .of_due rfl
  · exact DueGrows.trans (t := setErr s a 0) (.of_due rfl) (foundCorrected_dueGrows ..)
  · exact foundBad_dueGrows ..

theorem wrBytes_due (a : Nat) (bs : List Byte) : (wrBytes s a bs).due = s.due := by
  rw [wrBytes_eq]

theorem wrPairs_due (ps : List (Nat × Byte)) : (wrPairs s ps).due = s.due :=
  forEach_frame State.due ps s _ fun _ _ => rfl

theorem codeFinds_due (a symbols : Nat) : (codeFinds s a symbols).1.due = s.due := by
  unfold codeFinds
  dsimp only [useFree, freeBytes]
  split
  · rfl
  split
  · rfl
  · exact wrBytes_due ..

theorem bufferWrite_due (d : Nat) (h : Hold) (x : Access) : (bufferWrite s d h x).due = s.due := by
  have hput (t : State) (c : Nat) (f : MemCtl → MemCtl) :
      (if c < 2 then wrPairs (updMem t d f) x.bytes else updMem t d f).due = t.due := by
    split
    · exact wrPairs_due ..
    · rfl
  unfold bufferWrite
  dsimp only
  split
  · exact hput s 0 _
  · exact (hput _ _ _).trans (codeFinds_due ..)

theorem storeMasked_dueGrows (ps : List (Nat × Byte)) : DueGrows s (storeMasked s ps) := by
  unfold storeMasked
  split
  · exact .of_due rfl
  split
  · unfold writeHeld
    split
    · exact .of_due rfl
    · exact .of_due (bufferWrite_due ..)
  split
  · exact .of_due (wrPairs_due ..)
  · next a _ _ _ _ _ =>
    have hread := rmwRead_dueGrows s a
    split
    · next hwrites =>
      rw [hwrites] at hread
      exact hread.keeping (wrPairs_due ..)
    · next hstays =>
      rw [hstays] at hread
      exact hread

theorem storeVia_dueGrows (src : Source) (ps : List (Nat × Byte)) : DueGrows s (storeVia s src ps) := by
  unfold storeVia
  dsimp only
  split
  · exact .of_due rfl
  split
  · exact storeMasked_dueGrows ..
  split
  · exact storeMasked_dueGrows ..
  · exact .of_due rfl

theorem storeSectors_dueGrows (n : Nat) (src : Source) (a : Nat) (bs : List Byte) :
    DueGrows s (storeSectors n s src a bs) := by
  induction n generalizing s a bs with
  | zero => exact .of_due rfl
  | succ n ih =>
    unfold storeSectors
    dsimp only
    split
    · exact .of_due rfl
    · exact (storeVia_dueGrows ..).trans (ih ..)

theorem storeBoth_dueGrows (src : Source) (a : Nat) (bs : List Byte) : DueGrows s (storeBoth s src a bs) :=
  DueGrows.forEach (fun _ _ => storeSectors_dueGrows ..) _ _

theorem checkRead_dueGrows (by_ : Reader) (a n : Nat) : DueGrows s (checkRead s by_ a n).1 := by
  refine DueGrows.forEach (fun t x => ?_) (errsIn s a n) s
  obtain ⟨k, v⟩ := x
  dsimp only
  split
  · exact .of_due rfl
  split
  · exact foundBad_dueGrows ..
  · exact foundCorrected_dueGrows ..

/-! ### A DMA that is cut short -/

theorem dmaStore_dueGrows (c : Cmd) (off : Nat) (bs : List Byte) : DueGrows s (dmaStore s c off bs) := by
  unfold dmaStore
  split
  · exact .of_due rfl
  · exact storeBoth_dueGrows ..

theorem dmaCut_dueGrows (c : Cmd) : DueGrows s (dmaCut s c).1 := by
  unfold dmaCut
  dsimp only [useFree, freeBytes]
  split
  · exact .of_due rfl
  split
  · exact DueGrows.trans (.of_due rfl) (dmaStore_dueGrows ..)
  · refine DueGrows.trans ?_ (dmaStore_dueGrows ..)
    exact DueGrows.trans (.of_due rfl) (checkRead_dueGrows ..)

end

/-! ### DMAs -/

theorem TrafficOnly.dmaOf_eq {s t : State} (h : TrafficOnly s t) (p n : Nat) : dmaOf t p n = dmaOf s p n := by
  rw [h.frame]
  rfl

section
variable {s : State} {p n : Nat} {c : Cmd} (hrun : dmaOf s p n = some c) (herr : c.err ≠ stAborted)
include hrun herr

theorem finishDma_local (hsrc : dmaSrcHost c = false) (hfar : dmaSrcFar s c = false) (hdst : dmaDstFar s c = false)
    (a : HostAnswer) : finishDma s p n a =
      if isHeld s (.half p) (primaryAddr s (bdLocal (dmaSrc c))) (dmaBytes c) ∨ dmaStoreWaits s c then s
      else dmaCopy s c := by
  unfold finishDma
  rw [hrun]
  dsimp only
  rw [if_neg herr, hsrc, hfar, hdst, if_neg (by simp), if_neg (by simp)]

theorem finishDma_hostData (hsrc : dmaSrcHost c = true) (hnew : c.issued = 0) (bs : List Byte) :
    finishDma s p n (.data bs) = dmaHostData s p n c bs := by
  unfold finishDma
  rw [hrun]
  dsimp only
  rw [if_neg herr, if_pos ⟨hsrc, hnew⟩]

theorem finishDma_hostError (hsrc : dmaSrcHost c = true) (hnew : c.issued = 0) :
    finishDma s p n .error = cutDma (raise s (hostErrEvent p (cmdJob c))) c stHostError := by
  unfold finishDma
  rw [hrun]
  dsimp only
  rw [if_neg herr, if_pos ⟨hsrc, hnew⟩]

end

section
variable {s y : State} {c : Cmd}

theorem dmaCopy_clean (hread : reportBad s .hostDma (bdLocal (dmaSrc c)) (dmaBytes c) = (y, none)) :
    dmaCopy s c = endDma (dmaStore y c 0 (rdBytes y (primaryAddr y (bdLocal (dmaSrc c))) (dmaBytes c))) c stOk
      (dmaBytes c) := by
  unfold dmaCopy
  dsimp only
  rw [hread]

theorem dmaCopy_bad {b : Nat} (hread : reportBad s .hostDma (bdLocal (dmaSrc c)) (dmaBytes c) = (y, some b)) :
    ∃ i, i ≤ b - primaryAddr y (bdLocal (dmaSrc c)) ∧ dmaCopy s c =
      endDma (dmaStore { y with free := y.free + 1 } c 0
        (rdBytes { y with free := y.free + 1 } (primaryAddr y (bdLocal (dmaSrc c))) i)) c stDataError i := by
  unfold dmaCopy
  dsimp only
  rw [hread]
  exact ⟨_, Nat.min_le_left .., rfl⟩

theorem dmaHostData_waits {p n : Nat} {bs : List Byte}
    (h : bs.length ≠ dmaBytes c ∨ dmaDstFar s c = false ∧ dmaStoreWaits s c = true) : dmaHostData s p n c bs = s := by
  unfold dmaHostData
  split
  · rfl
  · next hlen =>
    obtain ⟨hfar, hwaits⟩ := h.resolve_left hlen
    rw [hfar, if_neg Bool.false_ne_true, if_pos hwaits]

theorem dmaHostData_ends {p n : Nat} {bs : List Byte} (hlen : bs.length = dmaBytes c) (hfar : dmaDstFar s c = false)
    (hwaits : dmaStoreWaits s c = false) : dmaHostData s p n c bs = endDma (dmaStore s c 0 bs) c stOk (dmaBytes c) := by
  unfold dmaHostData
  rw [if_neg (fun h => h hlen), hfar, if_neg Bool.false_ne_true, hwaits, if_neg Bool.false_ne_true, hlen]

/-- One whose host reads fail is cut short, and the failure is raised. -/
theorem cutDma_raised {e : Event} (herr : c.err ≠ stAborted) (status : Nat) :
    ∃ v i, cutDma (raise s e) c status = endDma v c status i ∧ ∃ es, v.due = s.due ++ e :: es := by
  obtain ⟨es, hes⟩ := dmaCut_dueGrows (raise s e) c
  refine ⟨(dmaCut (raise s e) c).1, (dmaCut (raise s e) c).2, ?_, es, hes.trans (List.append_assoc ..)⟩
  unfold cutDma
  dsimp only
  rw [if_neg herr]

end

section
variable {s : State} {p : Half} {n : Fin 256} {c : Cmd} (hrun : dmaOf s p n = some c)
include hrun

/-- A running DMA finishes as far as it can, once its traffic has passed. -/
theorem dmaComplete_settles (a : HostAnswer) :
    Settles (.dmaComplete p n a) s (finishDma (traffic s) p n a) := by
  have htraffic : dmaTraffic s p n = traffic s := if_pos (by rw [hrun]; rfl)
  exact congrArg (fun t => Host.Outcome.next (settle (finishDma t p n a))) htraffic

end

/-! ### Accesses of one block -/

section
variable {s : State} {p : Half} {off : Nat}

/-- The address that an access through BAR4 names. -/
def barAt (s : State) (p : Half) (off : Nat) : Nat := (barReq s p off 0).base + off

theorem barAt_mod (s : State) (p : Half) (off : Nat) : bdLocal (barAt s p off) % 2048 = off % 2048 := by
  rw [bdLocal_mod]
  unfold barAt barReq
  dsimp only
  omega

theorem BarFailed.withResp {u : State} {m job e : Nat} (h : BarFailed s m off job e u) (r : Resp) :
    BarFailed s m off job e { u with resp := r } := by
  obtain ⟨hmem, hdue, hstands, htakes⟩ := h
  exact ⟨hmem, hdue, hstands, htakes⟩

/-- A read that fails the check answers with an abort, and the failure is recorded. -/
theorem barDo_fails {w : State} (ht : TrafficOnly s w) {len : Nat} (hlen : 0 < len) (hblock : off % 2048 + len ≤ 2048)
    (hcheck : boardCheck w false (rg s (hiSlot p) bar4Job) (barAt s p off) len ≠ 0) :
    BarFailed s (hiSlot p) off (rg s (hiSlot p) bar4Job)
        (boardCheck w false (rg s (hiSlot p) bar4Job) (barAt s p off) len) (barDo w (barReq s p off len)) ∧
      (barDo w (barReq s p off len)).resp = .completerAbort := by
  have hdo := barDo_failed hlen hblock (barReq s p off len) ⟨rfl, rfl⟩ hcheck
  have hfail := (barFail_failed (s := w) (p := p) (off := off) (job := rg s (hiSlot p) bar4Job)
    (boardCheck_lt w false (rg s (hiSlot p) bar4Job) (barAt s p off) len)).of_traffic ht
  rw [hdo]
  exact ⟨hfail.withResp .completerAbort, rfl⟩

section
variable {len : Nat} (hlen : 0 < len) (hblock : off % 2048 + len ≤ 2048) (hin : off + len ≤ 2 ^ (bar4Code s p + 20))
include hin

theorem bar4Read_waits (hheld : barHeld (traffic s) (barReq s p off len) = true) :
    Settles (.bar4Read p off len) s
      { traffic s with resp := .pending, barWait := s.barWait ++ [barReq s p off len] } := by
  have hread := bar4Read_inside hin
  have hwait : (traffic s).barWait = s.barWait := by rw [(traffic_only s).frame]
  unfold barRead at hread
  rwa [if_pos hheld, hwait] at hread

theorem bar4Read_goes (hfree : barHeld (traffic s) (barReq s p off len) = false) :
    Settles (.bar4Read p off len) s (barDo (traffic s) (barReq s p off len)) := by
  have hread := bar4Read_inside hin
  unfold barRead at hread
  rwa [if_neg (ne_true_of_eq_false hfree)] at hread

include hlen hblock

theorem bar4Read_failed (hfree : barHeld (traffic s) (barReq s p off len) = false)
    (hcheck : boardCheck (traffic s) false (rg s (hiSlot p) bar4Job) (barAt s p off) len ≠ 0) :
    ∃ u, Settles (.bar4Read p off len) s u ∧ BarFailed s (hiSlot p) off (rg s (hiSlot p) bar4Job)
      (boardCheck (traffic s) false (rg s (hiSlot p) bar4Job) (barAt s p off) len) u ∧ u.resp = .completerAbort :=
  ⟨_, bar4Read_goes hin hfree, barDo_fails (traffic_only s) hlen hblock hcheck⟩

theorem bar4Read_bytes (hfree : barHeld (traffic s) (barReq s p off len) = false)
    (hcheck : boardCheck (traffic s) false (rg s (hiSlot p) bar4Job) (barAt s p off) len = 0)
    (hslot : bdSlot (barAt s p off) = mySlot s) {x : State} {bad : Option Nat}
    (hread : reportBad (traffic s) .bar4 (bdLocal (barAt s p off)) len = (x, bad)) :
    Settles (.bar4Read p off len) s { x with
      resp := if bad.isSome then .poisoned else
        .bytes (rdBytes x (primaryAddr (traffic s) (bdLocal (barAt s p off))) len) } := by
  have hmine : bdSlot (barAt s p off) = mySlot (traffic s) := by
    rw [hslot, (traffic_only s).frame]
    rfl
  have hgoes := bar4Read_goes hin hfree
  rwa [barDo_local hlen hblock (barReq s p off len) ⟨rfl, rfl⟩ hcheck hmine hread] at hgoes

end

section
variable {data : List Byte} (hlen : 0 < data.length) (hblock : off % 2048 + data.length ≤ 2048)
variable (hin : off + data.length ≤ 2 ^ (bar4Code s p + 20))
include hlen hblock hin

theorem bar4Write_part :
    Settles (.bar4Write p off data) s (barWritePart (traffic s) (barReq s p off data.length) off data) := by
  have hwrite := bar4Write_inside hin
  rwa [barWrite_block hlen hblock, barReq_traffic] at hwrite

theorem bar4Write_failed
    (hcheck : boardCheck (traffic s) true (rg s (hiSlot p) bar4Job) (barAt s p off) data.length ≠ 0) :
    ∃ u, Settles (.bar4Write p off data) s u ∧ BarFailed s (hiSlot p) off (rg s (hiSlot p) bar4Job)
      (boardCheck (traffic s) true (rg s (hiSlot p) bar4Job) (barAt s p off) data.length) u := by
  have hwrite := bar4Write_part hlen hblock hin
  rw [barWritePart_failed (r := barReq s p off data.length) hcheck] at hwrite
  exact ⟨_, hwrite, (barFail_failed (boardCheck_lt ..)).of_traffic (traffic_only s)⟩

variable (hcheck : boardCheck (traffic s) true (rg s (hiSlot p) bar4Job) (barAt s p off) data.length = 0)
variable (hslot : bdSlot (barAt s p off) = mySlot s)
include hcheck hslot

theorem bar4Write_stores :
    Settles (.bar4Write p off data) s (storeBoth (traffic s) (.half p) (bdLocal (barAt s p off)) data) := by
  have hmine : bdSlot (barAt s p off) = mySlot (traffic s) := by
    rw [hslot, (traffic_only s).frame]
    rfl
  have hwrite := bar4Write_part hlen hblock hin
  rwa [barWritePart_local (r := barReq s p off data.length) hcheck hmine] at hwrite

omit hlen hin in
theorem bar4Write_bytes (hpaired : isPaired s = false) (herrs : s.errs = []) (hposted : s.posted = [])
    (hwaits : bothWait s (.half p) (bdLocal (barAt s p off)) data.length = false) :
    ∃ dies seen, storeBoth (traffic s) (.half p) (bdLocal (barAt s p off)) data =
      { wrBytes (traffic s) (primaryAddr (traffic s) (bdLocal (barAt s p off))) data with dies := dies, seen := seen } := by
  have hmine : bdSlot (barAt s p off) = mySlot (traffic s) := by
    rw [hslot, (traffic_only s).frame]
    rfl
  have ht := traffic_only s
  exact storeBoth_writes (ht.isPaired_eq.trans hpaired) (by rw [ht.frame]; exact herrs)
    (by rw [ht.frame]; exact hposted) ((ht.bothWait_eq ..).trans hwaits)
    (reaches_of_localCheck (localCheck_of_boardCheck hcheck hmine)) (by rw [barAt_mod]; exact hblock)

end

end

/-- Settles O49: each access by its check and by what its memory gives, each DMA by where it moves its bytes. -/
theorem hostMovesData : Obligations.HostMovesData := by
  intro p s w
  refine ⟨?_, ?_⟩
  · intro off data m len a at_ read write code failed
    have hm : m = hiSlot p := hiSlot_eq p
    have hfailed (u : State) (e : Nat) (hu : BarFailed s (hiSlot p) off (rg s (hiSlot p) bar4Job) e u) : failed u e := by
      obtain ⟨hmem, hdue, hstands, htakes⟩ := hu
      rw [← hm] at hdue hstands htakes
      exact ⟨hmem, hdue, hstands, htakes⟩
    have ha : a = barAt s p off := by
      unfold barAt barReq
      rw [← hm]
    have hcode (b : Bool) : code b = boardCheck w b (rg s (hiSlot p) bar4Job) (barAt s p off) len := by
      rw [← ha, ← hm]
    refine ⟨fun hout => ⟨bar4Read_outside hout, bar4Write_outside hout⟩, fun hlen hblock hin => ?_⟩
    refine ⟨bar4Read_waits hin, fun hbad => ?_, fun hbad hfree => ?_, fun hok hslot hfree x bad hread => ?_,
      fun hok hslot => ?_⟩
    · rw [hcode] at hbad ⊢
      obtain ⟨u, hu, hfail⟩ := bar4Write_failed hlen hblock hin hbad
      exact ⟨u, hu, hfailed u _ hfail⟩
    · rw [hcode] at hbad ⊢
      obtain ⟨u, hu, hfail, hresp⟩ := bar4Read_failed hlen hblock hin hfree hbad
      exact ⟨u, hu, hfailed u _ hfail, hresp⟩
    · rw [hcode] at hok
      have hbytes := bar4Read_bytes hlen hblock hin hfree hok (ha ▸ hslot) (ha ▸ hread)
      rwa [← ha] at hbytes
    · rw [hcode] at hok
      have hstores := bar4Write_stores hlen hblock hin hok (ha ▸ hslot)
      rw [← ha] at hstores
      refine ⟨hstores, fun hpaired herrs hposted hwaits => ?_⟩
      obtain ⟨dies, seen, hwritten⟩ :=
        bar4Write_bytes hblock hok (ha ▸ hslot) hpaired herrs hposted (ha ▸ hwaits)
      rw [← ha] at hwritten
      have hread (x : Nat) : rdByte (storeBoth w (.half p) (bdLocal a) data) x = rdByte (wrBytes w at_ data) x := by
        rw [hwritten]
        rfl
      refine ⟨fun i hi => (hread _).trans (rdByte_wrBytes_inside w at_ data hi), fun x hx => ?_⟩
      exact (hread _).trans ((rdByte_wrBytes_outside w at_ data hx).trans (rdByte_congr (traffic_only s).mem_eq x))
  · intro n c hrun herr a k
    have hw : dmaOf w p n = some c := ((traffic_only s).dmaOf_eq ..).trans hrun
    have hends (ans : HostAnswer) := dmaComplete_settles hrun ans
    refine ⟨?_, fun bs hsrc hnew => ?_, fun hsrc hnew => ?_⟩
    · intro ans hsrc hfar hdst waits
      have hlocal := hends ans
      rw [finishDma_local hw herr hsrc hfar hdst] at hlocal
      refine ⟨fun hwaits => ?_, fun hgoes y bad hread => ⟨fun hnone => ?_, fun b hbad => ?_⟩⟩
      · rwa [if_pos hwaits] at hlocal
      · subst hnone
        rwa [if_neg hgoes, dmaCopy_clean hread] at hlocal
      · subst hbad
        obtain ⟨i, hi, hcopy⟩ := dmaCopy_bad hread
        rw [if_neg hgoes, hcopy] at hlocal
        exact ⟨i, hi, hlocal⟩
    · have hdata := hends (.data bs)
      rw [finishDma_hostData hw herr hsrc hnew] at hdata
      refine ⟨fun hwaits => ?_, fun hlen hfar hwaits => ?_⟩
      · rwa [dmaHostData_waits hwaits] at hdata
      · rwa [dmaHostData_ends hlen hfar hwaits] at hdata
    · have herror := hends .error
      rw [finishDma_hostError hw herr hsrc hnew] at herror
      obtain ⟨v, i, hcut, es, hdue⟩ := cutDma_raised (s := w) (e := hostErrEvent p (cmdJob c)) herr stHostError
      have hwdue : w.due = s.due := (congrArg State.due (traffic_only s).frame).trans rfl
      rw [hcut] at herror
      rw [hwdue] at hdue
      refine ⟨v, i, herror, es, hdue.trans ?_⟩
      unfold hostErrEvent
      rw [hiSlot_eq]
      rfl

end Sys2Proof.Machine
end

section
/-!
PROOFS. Tests of the self-test controller, and the recalibration of links (R366 to R370, R373).
-/

namespace Sys2Proof.Machine

/-! ### A test by its number -/

section
variable {s : State} {n : Nat} {t : Test} (ht : testOf s n = some t)
include ht

theorem testStart_settles : Settles (.testStart n) s (startQueued s t) := by
  unfold Settles
  change Host.Outcome.next (match testOf s n with | some t => _ | none => _) = _
  rw [ht]

theorem testDeadline_settles : Settles (.testDeadlineExpiry n) s (expireTest s t) := by
  unfold Settles
  change Host.Outcome.next (match testOf s n with | some t => _ | none => _) = _
  rw [ht]

theorem testEnd_settles (pass readable : Bool) (unit elapsed : Nat) :
    Settles (.testEnd n pass readable unit elapsed) s (endTest s t pass readable unit elapsed) := by
  unfold Settles
  change Host.Outcome.next (match testOf s n with | some t => _ | none => _) = _
  rw [ht]

end

/-! ### Starts and deadlines -/

/-- A test is the first of its target, none of which runs, and the target's page is not in reset. -/
def isFirst (s : State) (t : Test) : Prop :=
  (s.tests.takeWhile (fun x => decide (x.id ≠ t.id))).any (sameTarget t) = false ∧
    s.tests.any (fun x => x.started && sameTarget t x) = false ∧ pageInReset s (testPage t) = false

section
variable {s : State} {t : Test}

theorem startQueued_started (hstarted : t.started = true) : startQueued s t = s := if_pos (.inl hstarted)

theorem startQueued_first (hnew : t.started = false) (hfirst : isFirst s t) : startQueued s t =
    if testAbsent s t then reportTest s t stOk (2 * 2 ^ 28)
    else if targetFree s t then
      takeTarget { s with tests := s.tests.map (fun x => if x.id = t.id then { x with started := true } else x) } t
    else s := by
  obtain ⟨hbefore, hruns, hpage⟩ := hfirst
  unfold startQueued
  dsimp only
  rw [hbefore, hruns, hpage, hnew, if_neg (by simp)]

theorem startQueued_busy (hthere : testAbsent s t = false) (hbusy : targetFree s t = false) :
    startQueued s t = s := by
  unfold startQueued
  dsimp only
  rw [hthere, hbusy, if_neg Bool.false_ne_true, if_neg Bool.false_ne_true, ite_self]

theorem expireTest_keeps_test (h : t.started = true ∨ t.deadline = 0) : expireTest s t = s := if_pos h

theorem expireTest_expires (hnew : t.started = false) (hdeadline : 0 < t.deadline) :
    expireTest s t = reportTest s t stBusy 0 :=
  if_neg fun h => h.elim (ne_true_of_eq_false hnew) (Nat.ne_of_gt hdeadline)

theorem complete_tests (handle status result detail : Nat) :
    (complete s handle status result detail).tests = s.tests := by
  unfold complete
  dsimp only
  split
  · rfl
  · rfl

/-- A test that is reported leaves the controller, with the record of its command. -/
theorem reportTest_cases (s : State) (t : Test) (status detail : Nat) :
    (reportTest s t status detail).tests = s.tests.filter (fun x => decide (x.id ≠ t.id)) ∧
    ∀ p h, t.cmd = some (p, h) → reportTest s t status detail =
      complete { s with tests := s.tests.filter (fun x => decide (x.id ≠ t.id)) } h status 0 detail := by
  unfold reportTest
  dsimp only
  split
  · next p h hcmd =>
    refine ⟨complete_tests .., fun p' h' hcmd' => ?_⟩
    cases hcmd.symm.trans hcmd'
    rfl
  · next hcmd => exact ⟨rfl, fun p h hcmd' => nomatch hcmd.symm.trans hcmd'⟩

/-- A test that does not run does not end. -/
theorem endTest_idle (pass readable : Bool) (unit elapsed : Nat) (hidle : testRuns s t = false) :
    endTest s t pass readable unit elapsed = s := if_pos (congrArg (!·) hidle)

theorem endTest_runs (pass readable : Bool) (unit elapsed : Nat) (hruns : testRuns s t = true) :
    endTest s t pass readable unit elapsed =
      if pass then passTarget (reportTest s t stOk (testDetail pass unit elapsed)) t
      else failTarget (reportTest s t stOk (testDetail pass unit elapsed)) t readable unit := by
  unfold endTest
  rw [hruns, if_neg (by decide)]

end

/-! ### Recalibration -/

section
variable {s : State} {k : Fin 6} {b : Nat}

/-- Both ends of an edge mark a bundle as aside, or as back in service. -/
def markAside (s : State) (k : Fin 6) (b : Nat) (on : Bool) : State :=
  forEach (edgeEnds k) s (fun s e => setEdgeSide s e (withBundle b (fun x => { x with aside := on }) (edgeSide s e)))

theorem setAside_eq (on : Bool) : setAside s k b on = moveTraffic (markAside s k b on) k := rfl

theorem edgesOnly_markAside (on : Bool) : EdgesOnly s (markAside s k b on) := by
  unfold markAside
  refine .forEach (fun _ _ => ?_) _ _
  rfl

theorem edgesOnly_moveTraffic (s : State) (k : Fin 6) : EdgesOnly s (moveTraffic s k) := by
  unfold moveTraffic
  refine .forEach (fun _ _ => ?_) _ _
  rfl

theorem edgesOnly_setAside (on : Bool) : EdgesOnly s (setAside s k b on) :=
  (edgesOnly_markAside on).trans (edgesOnly_moveTraffic ..)

theorem setAside_regs (on : Bool) : (setAside s k b on).regs = s.regs :=
  (moveTraffic_regs ..).trans (forEach_frame State.regs (edgeEnds k) s _ fun _ _ => rfl)

theorem setAside_edges (on : Bool) : setAside s k b on = { s with edges := (setAside s k b on).edges } := by
  have honly : setAside s k b on =
      { s with edges := (setAside s k b on).edges, regs := (setAside s k b on).regs } := edgesOnly_setAside on
  rwa [setAside_regs] at honly

theorem bundleOf_markAside (on far : Bool) : (bundleOf (markAside s k b on) ⟨k, far⟩ b).aside = on := by
  rw [bundleOf, markAside, (actsOn_set _).edgeSide_ends, bundle_withBundle_same]

theorem bundleOf_setAside (on far : Bool) : (bundleOf (setAside s k b on) ⟨k, far⟩ b).aside = on := by
  rw [setAside_eq, bundleOf_moveTraffic, bundleOf_markAside]

theorem endBundleRecal_inService (h : (bundleOf s ⟨k, false⟩ b).aside = false) (failed : Option Nat) :
    endBundleRecal s k b failed = s := if_pos (congrArg (!·) h)

theorem endBundleRecal_passes (h : (bundleOf s ⟨k, false⟩ b).aside = true) :
    endBundleRecal s k b none = setAside s k b false := by
  unfold endBundleRecal
  dsimp only
  rw [h, if_neg (by decide)]

theorem endBundleRecal_fails (h : (bundleOf s ⟨k, false⟩ b).aside = true) (lane : Nat) :
    endBundleRecal s k b (some lane) =
      if (lowestSpare (bundleOf (setAside s k b false) ⟨k, false⟩ b)).isSome ∧
        erg (setAside s k b false) ⟨k, false⟩ laneCtlSpareEn = 1 then laneFails (setAside s k b false) ⟨k, false⟩ b lane
      else bundleDown (setAside s k b false) ⟨k, false⟩ b lane := by
  unfold endBundleRecal
  dsimp only
  rw [h, if_neg (by decide)]

end

section
variable {s : State} {k : Fin 6} {b : Fin 40} (htested : linkTested s (.bundle k b) = false)
include htested

theorem recal_bundle : Ends (.linkRecalibration (.bundle k b)) s
    (if !edgeUp s ⟨k, false⟩ ∨ !(bundleOf s ⟨k, false⟩ b).up ∨ bundleBusy s ⟨k, false⟩ b ∨ !endRuns s ⟨k, false⟩ then s
      else setAside s k b true) :=
  congrArg Host.Outcome.next (if_neg (ne_true_of_eq_false htested))

theorem recalEnd_bundle (failed : Option (Fin 68)) : Settles (.linkRecalibrationEnd (.bundle k b failed)) s
    (endBundleRecal s k b (failed.map Fin.val)) :=
  congrArg (fun t => Host.Outcome.next (settle t)) (if_neg (ne_true_of_eq_false htested))

end

section
variable {s : State} {g : Fin 32} (htested : linkTested s (.group g) = false)
include htested

theorem recal_group : Ends (.linkRecalibration (.group g)) s
    (if groupBusy s g ∨ !groupUp s g ∨ !performs s (oeSlot (g / 4)) then s else groupAside s g) :=
  congrArg Host.Outcome.next (if_neg (ne_true_of_eq_false htested))

theorem recalEnd_group (tx rx : Nat) :
    Settles (.linkRecalibrationEnd (.group g tx rx)) s (endGroupRecal s g tx rx) :=
  congrArg (fun t => Host.Outcome.next (settle t)) (if_neg (ne_true_of_eq_false htested))

end

theorem endGroupRecal_inService {s : State} {g : Nat} (h : (optGroup s g).recal = false) (tx rx : Nat) :
    endGroupRecal s g tx rx = s := if_pos (.inr (congrArg (!·) h))

theorem endGroupRecal_aside {s : State} {g : Nat} (hperforms : performs s (oeSlot (g / 4)) = true)
    (h : (optGroup s g).recal = true) (tx rx : Nat) : endGroupRecal s g tx rx =
      if ggt s g groupStatusTxLanes &&& tx = ggt s g groupStatusTxLanes ∧
        ggt s g groupStatusRxLanes &&& rx = ggt s g groupStatusRxLanes then groupBack s g
      else relaneGroup (raise s (groupEvent g srcOptLaneFail)) g (ggt s g groupStatusTxLanes &&& tx)
        (ggt s g groupStatusRxLanes &&& rx) := by
  unfold endGroupRecal
  rw [hperforms, h, if_neg (by decide)]

theorem settles_of_eq {c : Instr} {s u v : State} (h : Settles c s u) (hu : u = v) : Settles c s v := hu ▸ h

theorem ends_of_eq {c : Instr} {s u v : State} (h : Ends c s u) (hu : u = v) : Ends c s v := hu ▸ h

/-- Settles O57: tests by whether they have started, run or expire; links by whether they are in service. -/
theorem testsAndRecalibration : Obligations.TestsAndRecalibration := by
  intro n readable unit elapsed k b lane g tx rx s
  refine ⟨fun t ht => ?_, ?_, fun htested hperforms => ?_⟩
  · intro first time
    refine ⟨fun hstarted => ⟨?_, ?_⟩, fun hnew => ⟨fun hfirst habsent => ?_, fun hfirst hthere hfree => ?_,
      fun hthere hbusy => ?_, fun hdeadline => ?_, fun hdeadline => ?_⟩, fun hidle => ?_, fun hruns => ⟨?_, ?_⟩⟩
    · exact settles_of_eq (testStart_settles ht) (startQueued_started hstarted)
    · exact settles_of_eq (testDeadline_settles ht) (expireTest_keeps_test (.inl hstarted))
    · refine settles_of_eq (testStart_settles ht) ((startQueued_first hnew hfirst).trans ?_)
      rw [if_pos habsent]
      rfl
    · refine settles_of_eq (testStart_settles ht) ((startQueued_first hnew hfirst).trans ?_)
      rw [hthere, if_neg Bool.false_ne_true, if_pos hfree]
    · exact settles_of_eq (testStart_settles ht) (startQueued_busy hthere hbusy)
    · obtain ⟨htests, hcompletes⟩ := reportTest_cases s t stBusy 0
      exact ⟨_, settles_of_eq (testDeadline_settles ht) (expireTest_expires hnew hdeadline), htests,
        fun p h hcmd => by rw [htests]; exact hcompletes p h hcmd⟩
    · exact settles_of_eq (testDeadline_settles ht) (expireTest_keeps_test (.inr hdeadline))
    · exact settles_of_eq (testEnd_settles ht ..) (endTest_idle _ _ _ _ hidle)
    · refine settles_of_eq (testEnd_settles ht ..) ((endTest_runs _ _ _ _ hruns).trans ?_)
      rw [if_pos rfl, testDetail, if_pos rfl, Nat.zero_add, if_pos rfl, Nat.add_zero]
      rfl
    · refine settles_of_eq (testEnd_settles ht ..) ((endTest_runs _ _ _ _ hruns).trans ?_)
      rw [if_neg Bool.false_ne_true, testDetail, if_neg Bool.false_ne_true, if_neg Bool.false_ne_true]
      rfl
  · intro e htested
    refine ⟨fun hbusy => ?_, fun hedge hup hfree hruns => ?_, fun hout => ?_, fun hin => ?_, fun haside => ?_⟩
    · exact ends_of_eq (recal_bundle htested) (if_pos (.inr (.inr (.inl hbusy))))
    · refine ends_of_eq (recal_bundle htested) (if_neg ?_)
      rw [hedge, hup, hfree, hruns]
      decide
    · refine ends_of_eq (recal_bundle htested) (if_pos ?_)
      rcases hout with h | h | h
      · exact .inl (congrArg (!·) h)
      · exact .inr (.inl (congrArg (!·) h))
      · exact .inr (.inr (.inr (congrArg (!·) h)))
    · exact settles_of_eq (recalEnd_bundle htested lane) (endBundleRecal_inService hin _)
    · refine ⟨setAside_edges false, fun far => bundleOf_setAside false far,
        settles_of_eq (recalEnd_bundle htested none) (endBundleRecal_passes haside), fun l => ?_⟩
      exact settles_of_eq (recalEnd_bundle htested (some l)) (endBundleRecal_fails haside l)
  · refine ⟨fun hbusy => ?_, fun hdown => ?_, fun hfree hup => ?_, fun hin => ?_, fun haside => ?_⟩
    · exact ends_of_eq (recal_group htested) (if_pos (.inl hbusy))
    · exact ends_of_eq (recal_group htested) (if_pos (.inr (.inl (congrArg (!·) hdown))))
    · refine ends_of_eq (recal_group htested) (if_neg ?_)
      rw [hfree, hup, hperforms]
      decide
    · exact settles_of_eq (recalEnd_group htested tx rx) (endGroupRecal_inService hin tx rx)
    · have hends := settles_of_eq (recalEnd_group htested tx rx) (endGroupRecal_aside hperforms haside tx rx)
      exact ⟨fun htx hrx => settles_of_eq hends (if_pos ⟨htx, hrx⟩),
        fun hlost => settles_of_eq hends (if_neg fun h => hlost.elim (fun hl => hl h.1) (fun hl => hl h.2))⟩

end Sys2Proof.Machine
end

section
/-!
PROOFS. Segments of the Landom records: their requests, what the checks of what they read leave alone, and their
completion (R395 to R398).
-/

namespace Sys2Proof.Machine

/-! ### What checked reads leave alone -/

theorem checkErrs_mem (s : State) (bys : List Reader) (es : List (Nat × Nat)) : (checkErrs s bys es).1.mem = s.mem := by
  refine forEach_frame State.mem es s _ fun t x => ?_
  dsimp only
  split
  · rfl
  split
  · exact foundBad_mem ..
  · exact foundCorrected_mem ..

/-- The Landom records are no part of memory. -/
theorem storeFrame_records : StoreFrame State.records where
  mem _ _ := rfl
  errs _ _ _ := rfl
  free _ _ := rfl
  posted _ _ := rfl
  due _ _ := rfl
  ctl _ _ _ := rfl
  report _ _ _ _ _ := rfl
  repairs _ _ := rfl

section
variable (s : State) (rs : List (Nat × Nat))

theorem checkReads_mem : (checkReads s rs).mem = s.mem := checkErrs_mem ..

theorem checkReads_records : (checkReads s rs).records = s.records := storeFrame_records.checkErrs_eq ..

theorem checkReads_clean (herrs : s.errs = []) : checkReads s rs = s := by
  unfold checkReads
  rw [herrs]
  rfl

end

/-! ### Requests -/

/-- What a request that starts is to be: its code is that of its checks, its fields are the block's. -/
structure SegTaken (s : State) (q : SegRun) : Prop where
  code : q.code = segCheck s (segBlock s)
  kind : q.kind = segKind s
  job : q.job = fieldOf (segBlock s) 0x0E 2
  dest : q.dest = fieldOf (segBlock s) 0 8
  destLen : q.destLen = fieldOf (segBlock s) 8 4
  aborted : q.aborted = (decide (segKind s ≠ 5) && jobAborted s q.job)

theorem startSegment_eq (s : State) : ∃ q rs, SegTaken s q ∧
    startSegment s = wg { checkReads s rs with seg := some q } attSlot segStatusBusy 1 := by
  unfold startSegment
  dsimp only
  refine ⟨_, _, ?_, rfl⟩
  exact ⟨rfl, rfl, rfl, rfl, rfl, rfl⟩

section
variable {s : State} {r : Requester} (hruns : performs s attSlot = true) (hreach : reached s r = true)
include hruns hreach

theorem writeSegCtl_eq (mine : Nat → Bool) : writeSegCtl s r true mine =
    if rgB s attSlot segStatusBusy then incr s attSlot segCtlRejected
    else if mine (segKind s) then startSegment s else s :=
  guardedWrite_of_performs 0x110 _ (by decide) hruns hreach

end

/-! ### Completion -/

section
variable (s : State)

/-- What SEG_STATUS shows of a request that has completed. -/
structure SegShown (code len : Nat) (u : State) : Prop where
  seg : u.seg = none
  busy : rg u attSlot segStatusBusy = 0
  code : rg u attSlot segStatusCode = code % 2 ^ 3
  len : rg u attSlot segStatusLen = len % 2 ^ 28

theorem endSegment_eq (code len : Nat) : endSegment s code len =
    { s with regs := (endSegment s code len).regs, seg := none } := rfl

theorem endSegment_shows (code len : Nat) : SegShown code len (endSegment s code len) where
  seg := rfl
  busy := by
    unfold endSegment
    dsimp only
    rw [rg_wg_other _ _ (by decide), rg_wg_other _ _ (by decide), rg_wg_same]
    rfl
  code := by
    unfold endSegment
    dsimp only
    rw [rg_wg_other _ _ (by decide), rg_wg_same]
    rfl
  len := rg_wg_same ..

/-- No more has changed than registers and dies. -/
def SequencersOnly (s t : State) : Prop := t = { s with regs := t.regs, dies := t.dies }

theorem SequencersOnly.trans {s t u : State} (h : SequencersOnly s t) (h' : SequencersOnly t u) : SequencersOnly s u :=
  Eq.trans h' (congrArg (fun x : State => { x with regs := u.regs, dies := u.dies }) h)

theorem SequencersOnly.forEach {α : Type} {f : State → α → State} (hf : ∀ s x, SequencersOnly s (f s x)) (xs : List α)
    (s : State) : SequencersOnly s (Machine.forEach xs s f) := by
  induction xs generalizing s with
  | nil => exact rfl
  | cons x xs ih => exact (hf s x).trans (ih (f s x))

theorem seedDies_only (q : SegRun) (x : Record) : SequencersOnly s (seedDies s q x) := by
  unfold seedDies
  split
  · exact rfl
  · exact .forEach (fun _ _ => by exact rfl) _ _

theorem copyEvents_only (q : SegRun) (x : Record) : SequencersOnly s (copyEvents s q x) := by
  unfold copyEvents
  split
  · exact rfl
  · exact .forEach (fun _ _ => by exact rfl) _ _

/-- The state with a segment's record gone on from it, before the segment is stored. -/
def segAdvanced (v : State) (q : SegRun) (x : Record) : State :=
  let w := copyEvents (seedDies v q x) q x
  if q.kind = 5 then w else setRecord w q.job (advance v q x (segment v q x))

variable (q : SegRun) (x : Record)

theorem segAdvanced_eq : segAdvanced s q x =
    { s with regs := (segAdvanced s q x).regs, dies := (segAdvanced s q x).dies,
             records := (segAdvanced s q x).records } := by
  have honly : SequencersOnly s (copyEvents (seedDies s q x) q x) :=
    (seedDies_only s q x).trans (copyEvents_only _ q x)
  unfold segAdvanced
  generalize copyEvents (seedDies s q x) q x = w at honly
  dsimp only
  rw [honly]
  split
  · rfl
  · rfl

theorem recordOf_segAdvanced (hkind : q.kind ≠ 5) :
    recordOf (segAdvanced s q x) q.job = advance s q x (segment s q x) := by
  unfold segAdvanced
  rw [if_neg hkind]
  exact mget_mset_same ..

theorem segAdvanced_state (hkind : q.kind = 5) : (segAdvanced s q x).records = s.records := by
  have honly : SequencersOnly s (copyEvents (seedDies s q x) q x) :=
    (seedDies_only s q x).trans (copyEvents_only _ q x)
  unfold segAdvanced
  rw [if_pos hkind]
  exact (congrArg State.records honly).trans rfl

theorem writeSegment_eq : writeSegment s q x =
    let v := checkReads s (segReads s q x)
    let seg := segment v q x
    if q.destLen < seg.length then endSegment v segSmall seg.length
    else endSegment (storeBoth (segAdvanced v q x) (.half 0) q.dest seg) segOk seg.length := rfl

end

section
variable {s : State} {q : SegRun} (hseg : s.seg = some q)
include hseg

theorem completeSegment_eq : completeSegment s =
    if q.code ≠ segOk then endSegment s q.code 0
    else if awaitsSnap s q || (segReads s q (segRecord s q)).any (fun x => isHeld s (.half 0) x.1 x.2) ||
        bothWait s (.half 0) q.dest q.destLen then s
    else writeSegment s q (segRecord s q) := by
  unfold completeSegment
  rw [hseg]

end

theorem completeSegment_none {s : State} (hseg : s.seg = none) : completeSegment s = s := by
  unfold completeSegment
  rw [hseg]

/-- Settles O56: a request by BUSY and its kind, a completion by its code, by what it waits for and by its size. -/
theorem landomSegments : Obligations.LandomSegments := by
  intro r s hruns rows shows
  have hcompletes : Settles .segmentComplete s (completeSegment s) := if_pos hruns
  have hshows {u : State} {code len : Nat} (h : SegShown code len u) : shows u code len := ⟨h.seg, h.busy, h.code, h.len⟩
  refine ⟨fun hreach c hc => ?_, fun hnone => ?_, fun q hseg => ?_⟩
  · have hrows : ∀ c ∈ rows, exec c.1 s = .next (writeSegCtl s r true c.2) := by
      simp only [rows, List.forall_mem_cons, List.not_mem_nil, false_imp_iff, implies_true, and_true]
      exact ⟨rfl, rfl, rfl, rfl, rfl⟩
    have hends : Ends c.1 s _ := (hrows c hc).trans (congrArg Host.Outcome.next (writeSegCtl_eq hruns hreach c.2))
    refine ⟨fun hbusy => ?_, fun hfree hother => ?_, fun hfree hmine => ?_⟩
    · exact ends_of_eq hends (if_pos (decide_eq_true hbusy))
    · refine ends_of_eq hends ((if_neg ?_).trans (if_neg (ne_true_of_eq_false hother)))
      exact fun h => hfree (of_decide_eq_true h)
    · obtain ⟨q, rs, hq, hstarts⟩ := startSegment_eq s
      refine ⟨_, q, ends_of_eq hends ((if_neg ?_).trans ((if_pos hmine).trans hstarts)), rg_wg_same .., rfl, hq.code,
        hq.kind, hq.job, hq.dest, hq.destLen, hq.aborted, checkReads_mem .., checkReads_records .., fun herrs => ?_⟩
      · exact fun h => hfree (of_decide_eq_true h)
      · rw [checkReads_clean s rs herrs]
        rfl
  · exact settles_of_eq hcompletes (completeSegment_none hnone)
  · have hends := settles_of_eq hcompletes (completeSegment_eq hseg)
    refine ⟨fun hbad => ?_, fun hok => ?_⟩
    · exact ⟨_, settles_of_eq hends (if_pos hbad), hshows (endSegment_shows ..), endSegment_eq ..⟩
    · intro x waits
      have hgoes := settles_of_eq hends (if_neg (fun h => h hok))
      refine ⟨fun hwaits => ?_, fun hready => ?_⟩
      · refine settles_of_eq hgoes (if_pos ?_)
        rcases hwaits with h | h | h
        · rw [h]
          rfl
        · rw [h, Bool.or_true]
        · rw [h, Bool.or_true]
          rfl
      · intro v seg
        have hready' : ¬ (awaitsSnap s q || (segReads s q x).any (fun x => isHeld s (.half 0) x.1 x.2) ||
            bothWait s (.half 0) q.dest q.destLen) = true := by
          simp only [Bool.or_eq_true]
          exact fun h => hready (h.elim (fun h => h.elim .inl fun h => .inr (.inr h)) fun h => .inr (.inl h))
        have hwrites := settles_of_eq (settles_of_eq hgoes (if_neg hready')) (writeSegment_eq s q x)
        refine ⟨fun hsmall => ?_, fun hfits => ?_⟩
        · exact ⟨_, settles_of_eq hwrites (if_pos hsmall), hshows (endSegment_shows ..), endSegment_eq ..⟩
        · exact ⟨segAdvanced v q x, _, settles_of_eq hwrites (if_neg (Nat.not_lt.2 hfits)),
            hshows (endSegment_shows ..), endSegment_eq .., segAdvanced_eq v q x, recordOf_segAdvanced v q x,
            segAdvanced_state v q x⟩

end Sys2Proof.Machine
end

section
/-!
PROOFS. The pages of the Solfatara domain: the brake, the clocks, and the supply and temperature monitors (R379, R383,
R384, R386, R430).
-/

namespace Sys2Proof.Machine

/-- Fields of different pages stand at different places. -/
theorem fkey_ne_of_slot_ne {a b : Nat} {f g : Fld} (hslot : a ≠ b) (hf : f.off * 8 + f.lo < 32768)
    (hg : g.off * 8 + g.lo < 32768) : fkey a f ≠ fkey b g := by
  simp only [fkey]
  omega

/-! ### The brake -/

/-- The bits of BRAKE_STATUS that are causes of the brake. -/
def brakeCauses : List Fld := [brakeStatusPin, brakeStatusTherm, brakeStatusVin]

section
variable {s : State} {cause : Fld}

theorem setBrake_off : setBrake s cause false = wg s pwrSlot cause 0 := rfl

theorem setBrake_frame (on : Bool) : setBrake s cause on = { s with regs := (setBrake s cause on).regs } := by
  unfold setBrake
  dsimp only
  split
  · rfl
  · rfl

/-- A field that is neither the cause nor ENGAGED. -/
theorem rg_setBrake_other (on : Bool) {slot : Nat} {f : Fld} (hcause : fkey slot f ≠ fkey pwrSlot cause)
    (hcount : fkey slot f ≠ fkey pwrSlot brakeStatusEngaged) : rg (setBrake s cause on) slot f = rg s slot f := by
  unfold setBrake
  dsimp only
  split
  · rw [rg_incr_other _ _ hcount, rg_wg_other _ _ hcause]
  · exact rg_wg_other _ _ hcause

variable (hcause : cause ∈ brakeCauses)
include hcause

theorem brakeCause_ne_engaged : fkey pwrSlot cause ≠ fkey pwrSlot brakeStatusEngaged ∧ cause.w = 1 := by
  have hall : ∀ f ∈ brakeCauses, fkey pwrSlot f ≠ fkey pwrSlot brakeStatusEngaged ∧ f.w = 1 := by decide
  exact hall cause hcause

theorem rg_setBrake_cause (on : Bool) : rg (setBrake s cause on) pwrSlot cause = b2n on := by
  obtain ⟨hne, hwidth⟩ := brakeCause_ne_engaged hcause
  have hbit : rg (wg s pwrSlot cause (b2n on)) pwrSlot cause = b2n on := by
    rw [rg_wg_same, hwidth]
    cases on
    · rfl
    · rfl
  unfold setBrake
  dsimp only
  split
  · rw [rg_incr_other _ _ hne, hbit]
  · exact hbit

/-- ENGAGED counts when the brake engages. -/
theorem rg_setBrake_engaged (on : Bool) : rg (setBrake s cause on) pwrSlot brakeStatusEngaged =
    if on && !braked s then min (rg s pwrSlot brakeStatusEngaged + 1) 65535
    else rg s pwrSlot brakeStatusEngaged := by
  have hne := (brakeCause_ne_engaged hcause).1.symm
  unfold setBrake
  dsimp only
  split
  · rw [rg_incr_same, rg_wg_other _ _ hne]
    rfl
  · exact rg_wg_other _ _ hne

theorem rg_setBrake_engages : rg (setBrake s cause true) pwrSlot brakeStatusEngaged =
    if braked s then rg s pwrSlot brakeStatusEngaged else min (rg s pwrSlot brakeStatusEngaged + 1) 65535 := by
  rw [rg_setBrake_engaged hcause]
  cases braked s
  · rfl
  · rfl

end

theorem whilePowered_on {s : State} (f : State → State) (hon : s.pins.vauxOk = true) : whilePowered s f = f s := if_pos hon

theorem whilePowered_off {s : State} (f : State → State) (hoff : s.pins.vauxOk = false) : whilePowered s f = s :=
  if_neg (ne_true_of_eq_false hoff)

/-! ### The clocks -/

theorem showClocks_frame (s : State) : showClocks s = { s with regs := (showClocks s).regs } := by
  unfold showClocks
  dsimp only
  split
  · split
    · rfl
    · rfl
  · split
    · rfl
    · rfl

/-- The clocks are shown on their own page. -/
theorem rg_showClocks_other (s : State) {slot : Nat} {f : Fld} (hslot : slot ≠ clkSlot)
    (hf : f.off * 8 + f.lo < 32768) : rg (showClocks s) slot f = rg s slot f := by
  have hne {g : Fld} (hg : g.off * 8 + g.lo < 32768) : fkey slot f ≠ fkey clkSlot g := fkey_ne_of_slot_ne hslot hf hg
  have hfirst : rg (wg (wg s clkSlot clkStatusRef0Ok (b2n s.pins.ref0)) clkSlot clkStatusRef1Ok (b2n s.pins.ref1)) slot f =
      rg s slot f := by
    rw [rg_wg_other _ _ (hne (by decide)), rg_wg_other _ _ (hne (by decide))]
  unfold showClocks
  dsimp only
  split
  · rw [rg_wg_other _ _ (hne (by decide)), rg_wg_other _ _ (hne (by decide))]
    split
    · rw [rg_wg_other _ _ (hne (by decide)), hfirst]
    · exact hfirst
  · rw [rg_wg_other _ _ (hne (by decide)), rg_wg_other _ _ (hne (by decide)), rg_wg_other _ _ (hne (by decide))]
    split
    · rw [rg_wg_other _ _ (hne (by decide)), hfirst]
    · exact hfirst

/-! ### The monitors -/

theorem setBrake_due {s : State} {cause : Fld} (on : Bool) : (setBrake s cause on).due = s.due :=
  (congrArg State.due (setBrake_frame on)).trans rfl

section
variable (s : State)

/-- A shut-off switches everything off, in P4, and its event carries the time of its detection. -/
structure ShutOff (x : Shutoff) (slot src : Nat) (u : State) : Prop where
  shutoff : u.shutoff = some x
  mem : u.mem = []
  resets : u.resets = []
  cur : rg u pwrSlot pwrStateCur = 4
  due : ∃ es, u.due = es ++ [{ slot := slot, src := src, stamp := some (s.ft.t, unsynced s) }]

theorem cur_powerDown : rg (powerDown s) pwrSlot pwrStateCur = 4 := by
  unfold powerDown showResets
  dsimp only
  rw [rg_wg_other _ _ (by decide), rg_wg_same]
  rfl

/-- A peak that is measured is a register and takes a free value. -/
theorem measurePeak_frame (slot : Nat) (f : Fld) (least top : Nat) : measurePeak s slot f least top =
    { s with regs := (measurePeak s slot f least top).regs, free := (measurePeak s slot f least top).free } := rfl

theorem rg_measurePeak_other {slot a : Nat} {f g : Fld} (least top : Nat) (h : fkey a g ≠ fkey slot f) :
    rg (measurePeak s slot f least top) a g = rg s a g := rg_wgFree_other (useFree s).2 _ h

theorem shutOffBy_shutOff (x : Shutoff) (slot src : Nat) :
    ShutOff s x slot src (shutOffBy s x (monEvent slot src)) := by
  have hcur := cur_powerDown s
  have hmem : (powerDown s).mem = [] := rfl
  have hresets : (powerDown s).resets = [] := rfl
  unfold shutOffBy shutOff
  generalize powerDown s = t at hcur hmem hresets
  have hframe := measurePeak_frame { t with shutoff := some x } pwrSlot wakeStatusPeakSlew 0 65535
  refine ⟨congrArg State.shutoff hframe, (congrArg State.mem hframe).trans hmem,
    (congrArg State.resets hframe).trans hresets, ?_, _, rfl⟩
  exact (rg_measurePeak_other { t with shutoff := some x } 0 65535 (by decide)).trans hcur

theorem collapseVin_shutOff : ShutOff s .vinCollapse supSlot srcVinLow (collapseVin s) := by
  obtain ⟨hshut, hmem, hresets, hcur, hdue⟩ := shutOffBy_shutOff s .vinCollapse supSlot srcVinLow
  unfold collapseVin
  generalize shutOffBy s .vinCollapse (monEvent supSlot srcVinLow) = u at hshut hmem hresets hcur hdue
  have hframe := setBrake_frame (s := incr u supSlot vinLoss) (cause := brakeStatusVin) true
  refine ⟨?_, ?_, ?_, ?_, ?_⟩
  · exact (congrArg State.shutoff hframe).trans hshut
  · exact (congrArg State.mem hframe).trans hmem
  · exact (congrArg State.resets hframe).trans hresets
  · exact (rg_setBrake_other true (by decide) (by decide)).trans ((rg_incr_other _ _ (by decide)).trans hcur)
  · exact hdue.imp fun es hes => (congrArg State.due hframe).trans hes

end

/-! ### Restarts -/

/-- A shut-off is no part of the traffic of the ports. -/
theorem trafficFrame_shutoff : TrafficFrame State.shutoff where
  fum _ _ _ := rfl
  links _ _ := rfl
  tx _ _ := rfl
  outq _ _ := rfl

section
variable (s : State)

theorem unCut_shutoff (port : Nat) : (unCut s port).shutoff = s.shutoff := by
  unfold unCut
  dsimp only
  exact forEach_frame State.shutoff _ _ _ fun _ _ => rfl

theorem darkenGroups_shutoff : (darkenGroups s).shutoff = s.shutoff := by
  refine forEach_frame State.shutoff _ s _ fun t p => ?_
  dsimp only
  refine (forEach_frame State.shutoff _ _ _ fun u w => ?_).trans ?_
  · exact (congrArg State.shutoff (LinksOnly.returnCredit u w.src)).trans rfl
  · refine (forEach_frame State.shutoff _ _ _ fun u x => trafficFrame_shutoff.dropCut_eq u p x).trans ?_
    exact (unCut_shutoff _ p).trans (forEach_frame State.shutoff _ t _ fun _ _ => rfl)

theorem mapOutDie_shutoff (ch : Nat) : (mapOutDie s ch).shutoff = s.shutoff := by
  unfold mapOutDie
  split
  · rfl
  · rfl

theorem mapOutPkg_shutoff : (mapOutPkg s).shutoff = s.shutoff := by
  unfold mapOutPkg
  dsimp only
  split
  · rfl
  · rfl

theorem ite_shutoff {c : Prop} [Decidable c] {a b : State} {x : Option Shutoff} (ha : a.shutoff = x)
    (hb : b.shutoff = x) : (if c then a else b).shutoff = x := by
  split
  · exact ha
  · exact hb

theorem takeSettings_shutoff : (takeSettings s).shutoff = s.shutoff := by
  have hcleared (t : State) (ds : List Dom) : (forEach ds t clearDom).shutoff = t.shutoff :=
    forEach_frame State.shutoff ds t _ fun _ _ => rfl
  unfold takeSettings
  dsimp only
  refine (darkenGroups_shutoff _).trans ((mapOutPkg_shutoff _).trans (ite_shutoff ((mapOutDie_shutoff ..).trans ?_) ?_))
  · exact ite_shutoff (hcleared ..) rfl
  · exact ite_shutoff (hcleared ..) rfl

end

section
variable {s : State} {x : Shutoff} (hshut : s.shutoff = some x) (hvaux : x ≠ .vaux)
include hshut hvaux

theorem restartSupply_eq : restartSupply s =
    if s.resets.any (fun r => r.wait) then
      { takeSettings { s with shutoff := none } with
        resets := (takeSettings { s with shutoff := none }).resets.map (fun r => { r with wait := false }) }
    else match demandScope { s with shutoff := none } .full with
      | some sc => beginReset { s with shutoff := none } sc
      | none => { s with shutoff := none } := by
  unfold restartSupply
  rw [hshut]
  cases x with
  | vaux => exact absurd rfl hvaux
  | vinHigh => rfl
  | overcurrent => rfl
  | vauxLow => rfl
  | thermTrip => rfl
  | vinCollapse => rfl

end

theorem restartSupply_stays {s : State} (h : s.shutoff = none ∨ s.shutoff = some .vaux) : restartSupply s = s := by
  unfold restartSupply
  rcases h with h | h
  · rw [h]
  · rw [h]

end Sys2Proof.Machine
end

section
/-!
PROOFS. What the brake, the limiter and the monitors do, with VAUX33 and without (R379, R383, R384, R386, R430).
-/

namespace Sys2Proof.Machine

/-! ### With VAUX33 -/

section
variable {s : State} (hon : s.pins.vauxOk = true)
include hon

theorem brakePin_ends (low : Bool) : setPin s low = takePin { s with pins := { s.pins with brakeLow := low } } :=
  whilePowered_on _ hon

/-- The pin's level engages or releases the brake, but counts as low without VIO18. -/
theorem brakePin_takes (low : Bool) : ∃ u, setPin s low = u ∧ rg u pwrSlot brakeStatusPin = b2n (low || !s.pins.vioOk) ∧
    rg u pwrSlot brakeStatusEngaged = (if (low || !s.pins.vioOk) && !braked s then
      min (rg s pwrSlot brakeStatusEngaged + 1) 65535 else rg s pwrSlot brakeStatusEngaged) ∧
    u.pins = { s.pins with brakeLow := low } ∧ u = { s with regs := u.regs, pins := u.pins } := by
  have hcause : brakeStatusPin ∈ brakeCauses := .head _
  have hframe := setBrake_frame (s := { s with pins := { s.pins with brakeLow := low } }) (cause := brakeStatusPin)
    (low || !s.pins.vioOk)
  refine ⟨_, brakePin_ends hon low, rg_setBrake_cause hcause _, rg_setBrake_engaged hcause _, ?_, ?_⟩
  · exact (congrArg State.pins hframe).trans rfl
  · exact hframe.trans (by rw [takePin, pinBrake, hframe])

theorem supVinLow_settles :
    Settles .supVinLow s (raise (setBrake s brakeStatusVin true) { slot := supSlot, src := srcVinLow }) :=
  congrArg Host.Outcome.next (whilePowered_on _ hon)

theorem supVinHigh_settles : Settles .supVinHigh s (shutOffBy s .vinHigh (monEvent supSlot srcVinHigh)) :=
  congrArg Host.Outcome.next (whilePowered_on _ hon)

theorem supOvercurrent_settles :
    Settles .supOvercurrent s (shutOffBy s .overcurrent (monEvent supSlot srcOvercurrent)) :=
  congrArg Host.Outcome.next (whilePowered_on _ hon)

theorem supVauxLow_settles : Settles .supVauxLow s (shutOffBy s .vauxLow (monEvent supSlot srcVauxLow)) :=
  congrArg Host.Outcome.next (whilePowered_on _ hon)

theorem vinCollapse_settles : Settles .vinCollapse s (collapseVin s) :=
  congrArg Host.Outcome.next (whilePowered_on _ hon)

section
variable {k : Fin 32} (hk : k.val < 22)
include hk

theorem thermWarn_settles :
    Settles (.thermWarn k) s (raise (noteHot s k) { slot := thermSlot, src := srcThermWarn }) :=
  congrArg Host.Outcome.next ((whilePowered_on _ hon).trans (if_pos (decide_eq_true hk)))

theorem thermHot_settles : Settles (.thermHot k) s
    (raise (setBrake (noteHot s k) brakeStatusTherm true) { slot := thermSlot, src := srcThermHot }) :=
  congrArg Host.Outcome.next ((whilePowered_on _ hon).trans (if_pos (decide_eq_true hk)))

theorem thermTrip_settles : Settles (.thermTrip k) s (shutOffBy s .thermTrip (monEvent thermSlot srcThermTrip)) :=
  congrArg Host.Outcome.next ((whilePowered_on _ hon).trans (if_pos (decide_eq_true hk)))

end

theorem therm_ends {k : Fin 32} (hk : 22 ≤ k.val) :
    Ends (.thermWarn k) s s ∧ Ends (.thermHot k) s s ∧ Ends (.thermTrip k) s s := by
  have hno : ¬ hasThreshold k = true := fun h => Nat.not_lt.2 hk (of_decide_eq_true h)
  exact ⟨congrArg Host.Outcome.next ((whilePowered_on _ hon).trans (if_neg hno)),
    congrArg Host.Outcome.next ((whilePowered_on _ hon).trans (if_neg hno)),
    congrArg Host.Outcome.next ((whilePowered_on _ hon).trans (if_neg hno))⟩

end

/-- A stack at its warning threshold is noted, and nothing else is. -/
theorem noteHot_eq (s : State) (k : Nat) : noteHot s k = { s with hot := (noteHot s k).hot } ∧
    (4 ≤ k → k < 20 → mget 0 (noteHot s k).hot (k - 4) = 1) := by
  unfold noteHot
  split
  · exact ⟨rfl, fun _ _ => mget_mset_same 0 s.hot (k - 4) 1⟩
  · next hno => exact ⟨rfl, fun h4 h20 => absurd ⟨h4, h20⟩ hno⟩

/-- A monitor's event that brakes. -/
theorem braking_event {s : State} {cause : Fld} (hcause : cause ∈ brakeCauses) (e : Event) :
    rg (raise (setBrake s cause true) e) pwrSlot cause = 1 ∧
    rg (raise (setBrake s cause true) e) pwrSlot brakeStatusEngaged =
      (if braked s then rg s pwrSlot brakeStatusEngaged else min (rg s pwrSlot brakeStatusEngaged + 1) 65535) ∧
    (raise (setBrake s cause true) e).due = s.due ++ [e] ∧ raise (setBrake s cause true) e =
      { s with regs := (raise (setBrake s cause true) e).regs, due := (raise (setBrake s cause true) e).due } := by
  have hbit := rg_setBrake_cause (s := s) hcause true
  have hcount := rg_setBrake_engages (s := s) hcause
  have hframe := setBrake_frame (s := s) (cause := cause) true
  generalize setBrake s cause true = t at hbit hcount hframe
  refine ⟨hbit, hcount, congrArg (· ++ [e]) ((congrArg State.due hframe).trans rfl), ?_⟩
  rw [hframe]
  rfl

theorem frame_afterHot {s t u : State} (ht : t = { s with hot := t.hot })
    (hu : u = { t with regs := u.regs, due := u.due }) : u = { s with regs := u.regs, hot := u.hot, due := u.due } := by
  have hhot : u.hot = t.hot := (congrArg State.hot hu).trans rfl
  rw [hhot]
  exact hu.trans (congrArg (fun x : State => { x with regs := u.regs, due := u.due }) ht)

/-- How many steps the limiter has taken. -/
def limiterSteps (n watts : Nat) : Nat :=
  if 5150 < watts then min (n + 1) 100 else if watts < 5000 then n - 1 else n

theorem b2n_ne_zero (n : Nat) : b2n (decide (n ≠ 0)) = if n = 0 then 0 else 1 := by
  cases n with
  | zero => rfl
  | succ n => rfl

theorem stepLimiter_eq (s : State) (watts : Nat) : stepLimiter s watts =
    wg { s with limSteps := limiterSteps s.limSteps watts } pwrSlot brakeStatusLimit
      (if limiterSteps s.limSteps watts = 0 then 0 else 1) :=
  congrArg (wg { s with limSteps := limiterSteps s.limSteps watts } pwrSlot brakeStatusLimit) (b2n_ne_zero _)

/-! ### A restart -/

section
variable {s : State} {x : Shutoff} (hshut : s.shutoff = some x) (hvaux : x ≠ .vaux)
include hshut hvaux

theorem restartSupply_begins (hidle : ∀ y ∈ s.resets, y.wait = false) (hfull : demandScope s .full = some .full) :
    restartSupply s = beginReset { s with shutoff := none } .full := by
  have hany : ¬ s.resets.any (fun r => r.wait) = true := by
    rw [List.any_eq_true]
    rintro ⟨y, hy, hwait⟩
    exact Bool.false_ne_true ((hidle y hy).symm.trans hwait)
  have hscope : demandScope { s with shutoff := none } .full = some .full := hfull
  rw [restartSupply_eq hshut hvaux, if_neg hany, hscope]

theorem restartSupply_resumes (hwaits : ∃ y ∈ s.resets, y.wait = true) :
    (restartSupply s).shutoff = none ∧ ∀ y ∈ (restartSupply s).resets, y.wait = false := by
  rw [restartSupply_eq hshut hvaux, if_pos (List.any_eq_true.2 hwaits)]
  refine ⟨takeSettings_shutoff _, fun y hy => ?_⟩
  obtain ⟨z, -, rfl⟩ := List.mem_map.1 hy
  rfl

end

/-- Settles O53: each event by its own rule, with VAUX33 and without; a restart by what waits for it. -/
theorem suppliesAndBrake : Obligations.SuppliesAndBrake := by
  intro k watts c s cause engaged off
  have hoff {c : Instr} {x : Shutoff} {slot src : Nat} {u : State} (hu : Settles c s u) (h : ShutOff s x slot src u) :
      off c x slot src := ⟨u, hu, h.shutoff, h.mem, h.resets, h.cur, h.due⟩
  refine ⟨fun hvaux => ⟨?_, ?_, ?_⟩, fun hvaux => ?_, fun h => ?_, fun x hshut hvaux => ⟨fun hidle hfull => ?_, fun hwaits => ?_⟩⟩
  · exact congrArg Host.Outcome.next (whilePowered_off _ hvaux)
  · exact congrArg Host.Outcome.next (whilePowered_off _ hvaux)
  · have hnothing {i : Instr} {f : State → State} (hi : exec i s = .next (whilePowered s f)) : Ends i s s :=
      hi.trans (congrArg Host.Outcome.next (whilePowered_off f hvaux))
    simp only [List.forall_mem_cons, List.not_mem_nil, false_imp_iff, implies_true, and_true]
    exact ⟨hnothing rfl, hnothing rfl, hnothing rfl, hnothing rfl, hnothing rfl, hnothing rfl, hnothing rfl, hnothing rfl,
      hnothing rfl, hnothing rfl⟩
  · refine ⟨?_, fun hvio => ?_, fun hvio => ?_, ?_, ?_, ?_, hoff (supVinHigh_settles hvaux) (shutOffBy_shutOff ..),
      hoff (supOvercurrent_settles hvaux) (shutOffBy_shutOff ..), hoff (supVauxLow_settles hvaux) (shutOffBy_shutOff ..),
      hoff (vinCollapse_settles hvaux) (collapseVin_shutOff s), fun hk => ⟨hoff (thermTrip_settles hvaux hk)
      (shutOffBy_shutOff ..), ?_, ?_⟩, fun hk => therm_ends hvaux hk⟩
    · obtain ⟨u, hu, hpin, hcount, hpins, hframe⟩ := brakePin_takes hvaux true
      refine ⟨u, congrArg Host.Outcome.next hu, hpin, congrArg Pins.brakeLow hpins, hcount.trans ?_, hframe⟩
      simp only [engaged]
      cases braked s
      · rfl
      · rfl
    · obtain ⟨u, hu, hpin, hcount, hpins, hframe⟩ := brakePin_takes hvaux false
      rw [hvio] at hpin hcount
      exact ⟨u, congrArg Host.Outcome.next hu, hpin, hcount, congrArg Pins.brakeLow hpins, hframe⟩
    · obtain ⟨u, hu, hpin, hcount, hpins, hframe⟩ := brakePin_takes hvaux false
      rw [hvio] at hpin
      exact ⟨u, congrArg Host.Outcome.next hu, hpin, congrArg Pins.brakeLow hpins, hframe⟩
    · exact congrArg Host.Outcome.next ((whilePowered_on _ hvaux).trans rfl)
    · exact congrArg Host.Outcome.next ((whilePowered_on _ hvaux).trans (stepLimiter_eq s watts))
    · obtain ⟨hbit, hcount, hdue, hframe⟩ := braking_event (s := s) (cause := brakeStatusVin) (by decide)
        { slot := supSlot, src := srcVinLow }
      exact ⟨_, supVinLow_settles hvaux, hbit, hcount, hdue, hframe⟩
    · obtain ⟨hframe, hhot⟩ := noteHot_eq s k
      refine ⟨_, thermWarn_settles hvaux hk, ?_, hhot, ?_⟩
      · exact congrArg (· ++ [_]) ((congrArg State.due hframe).trans rfl)
      · rw [hframe]
        rfl
    · obtain ⟨hnote, -⟩ := noteHot_eq s k
      obtain ⟨hbit, -, hdue, hframe⟩ := braking_event (s := noteHot s k) (cause := brakeStatusTherm) (by decide)
        { slot := thermSlot, src := srcThermHot }
      refine ⟨_, thermHot_settles hvaux hk, hdue.trans ?_, hbit, frame_afterHot hnote hframe⟩
      exact congrArg (· ++ [_]) ((congrArg State.due hnote).trans rfl)
  · exact settles_of_eq rfl (restartSupply_stays h)
  · exact settles_of_eq rfl (restartSupply_begins hshut hvaux hidle hfull)
  · exact ⟨_, rfl, (restartSupply_resumes hshut hvaux hwaits).1, (restartSupply_resumes hshut hvaux hwaits).2⟩

end Sys2Proof.Machine
end

section
/-!
PROOFS. The clocks with the host links that they serve, and the losses of VAUX33 and VIO18 (R202, R317, R377, R428, R430).
-/

namespace Sys2Proof.Machine

/-! ### CLK_STATUS -/

/-- What CLK_STATUS shows of the clocks that are present, after `s`. -/
structure ClocksShown (s : State) (p : Pins) (u : State) : Prop where
  ref0 : rg u clkSlot clkStatusRef0Ok = b2n p.ref0
  ref1 : rg u clkSlot clkStatusRef1Ok = b2n p.ref1
  holdover : rg u clkSlot clkStatusHoldover = b2n (!p.ref0 && !p.ref1)
  slow : rg u clkSlot clkStatusSlowOk = b2n p.slow
  refSel : rg u clkSlot clkStatusRefSel = if !p.ref0 && p.ref1 then 1 else rg s clkSlot clkStatusRefSel
  backup : rg u clkSlot clkStatusBackup = if p.slow then rg s clkSlot clkStatusBackup else 1

theorem b2n_mod (b : Bool) : b2n b % 2 ^ 1 = b2n b := by
  cases b
  · rfl
  · rfl

/-- A field after a write under a condition of another one. -/
theorem rg_ite_wg_other {c : Prop} [Decidable c] {a b : Nat} {f g : Fld} (s : State) (v : Nat)
    (h : fkey a f ≠ fkey b g) : rg (if c then wg s b g v else s) a f = rg s a f := by
  split
  · exact rg_wg_other s v h
  · rfl

/-- A field after a write under a condition. -/
theorem rg_ite_wg_same {c : Prop} [Decidable c] {a : Nat} {f : Fld} (s : State) (v : Nat) :
    rg (if c then wg s a f v else s) a f = if c then v % 2 ^ f.w else rg s a f := by
  split
  · exact rg_wg_same ..
  · rfl

/-- The writes of `showClocks`: the references, the choice of the reference, then the other clocks. -/
theorem showClocks_eq (s : State) : showClocks s =
    let p := s.pins
    let t := wg (wg s clkSlot clkStatusRef0Ok (b2n p.ref0)) clkSlot clkStatusRef1Ok (b2n p.ref1)
    let u := if !p.ref0 && p.ref1 then wg t clkSlot clkStatusRefSel 1 else t
    let w := wg (wg u clkSlot clkStatusHoldover (b2n (!p.ref0 && !p.ref1))) clkSlot clkStatusSlowOk (b2n p.slow)
    if (!p.slow) = true then wg w clkSlot clkStatusBackup 1 else w := by
  unfold showClocks
  dsimp only
  cases s.pins.slow
  · rfl
  · rfl

theorem showClocks_shown (s : State) : ClocksShown s s.pins (showClocks s) := by
  rw [showClocks_eq]
  dsimp only
  refine ⟨?_, ?_, ?_, ?_, ?_, ?_⟩
  · rw [rg_ite_wg_other _ _ (by decide), rg_wg_other _ _ (by decide), rg_wg_other _ _ (by decide),
      rg_ite_wg_other _ _ (by decide), rg_wg_other _ _ (by decide), rg_wg_same]
    exact b2n_mod _
  · rw [rg_ite_wg_other _ _ (by decide), rg_wg_other _ _ (by decide), rg_wg_other _ _ (by decide),
      rg_ite_wg_other _ _ (by decide), rg_wg_same]
    exact b2n_mod _
  · rw [rg_ite_wg_other _ _ (by decide), rg_wg_other _ _ (by decide), rg_wg_same]
    exact b2n_mod _
  · rw [rg_ite_wg_other _ _ (by decide), rg_wg_same]
    exact b2n_mod _
  · rw [rg_ite_wg_other _ _ (by decide), rg_wg_other _ _ (by decide), rg_wg_other _ _ (by decide), rg_ite_wg_same,
      rg_wg_other _ _ (by decide), rg_wg_other _ _ (by decide)]
    rfl
  · rw [rg_ite_wg_same, rg_wg_other _ _ (by decide), rg_wg_other _ _ (by decide), rg_ite_wg_other _ _ (by decide),
      rg_wg_other _ _ (by decide), rg_wg_other _ _ (by decide)]
    cases s.pins.slow
    · rfl
    · rfl

/-- Registers of other pages show nothing of the clocks. -/
theorem ClocksShown.congr {s t u v : State} {p : Pins} (h : ClocksShown s p u) (hs : t.regs = s.regs)
    (hu : ∀ f : Fld, f.off * 8 + f.lo < 32768 → rg v clkSlot f = rg u clkSlot f) : ClocksShown t p v := by
  obtain ⟨href0, href1, hholdover, hslow, hrefSel, hbackup⟩ := h
  refine ⟨?_, ?_, ?_, ?_, ?_, ?_⟩
  · rwa [hu _ (by decide)]
  · rwa [hu _ (by decide)]
  · rwa [hu _ (by decide)]
  · rwa [hu _ (by decide)]
  · rwa [hu _ (by decide), rg_congr hs]
  · rwa [hu _ (by decide), rg_congr hs]

/-! ### The host links -/

/-- A link that has trained: its width and its rate are those of the bus, FLIT mode goes with the highest rate. -/
structure LinkTrained (u : State) (p : Nat) : Prop where
  width : rg u (hiSlot p) hiLinkWidth ∈ [4, 8, 16]
  speed : rg u (hiSlot p) hiLinkSpeed ∈ [1, 2, 3]
  flit : rg u (hiSlot p) hiLinkFlit = 1 ↔ rg u (hiSlot p) hiLinkSpeed = 3

section
variable (s : State) (p : Nat)

theorem hiLink_ne : fkey (hiSlot p) hiLinkFlit ≠ fkey (hiSlot p) hiLinkWidth ∧
    fkey (hiSlot p) hiLinkSpeed ≠ fkey (hiSlot p) hiLinkWidth ∧
    fkey (hiSlot p) hiLinkSpeed ≠ fkey (hiSlot p) hiLinkFlit := by
  simp only [fkey, hiLinkFlit, hiLinkWidth, hiLinkSpeed]
  omega

theorem trainLink_stays (h : mget false s.pins.perst p = true ∨ clockRuns s (26 + p) = false) : trainLink s p = s :=
  if_pos (h.imp id fun hclock => congrArg (!·) hclock)

/-- A trained link's HI_LINK, from the free value that the training takes. -/
def linkShown (i : Nat) (t : State) : State :=
  let v := Config.freeValue i
  wgFree (wgFree (wgFree t (hiSlot p) hiLinkSpeed (1 + v % 3)) (hiSlot p) hiLinkFlit (b2n (1 + v % 3 = 3))) (hiSlot p)
    hiLinkWidth ([4, 8, 16].getD (v / 3 % 3) 16)

theorem trainLink_trains (hperst : mget false s.pins.perst p = false) (hclock : clockRuns s (26 + p) = true) :
    trainLink s p = linkShown p s.free { s with free := s.free + 1 } := by
  unfold trainLink
  rw [hperst, hclock, if_neg (by decide)]
  rfl

theorem linkShown_trained (i : Nat) (t : State) : LinkTrained (linkShown p i t) p := by
  obtain ⟨hflitWidth, hspeedWidth, hspeedFlit⟩ := hiLink_ne p
  have hwidth : ∀ n < 3, [4, 8, 16].getD n 16 % 2 ^ 5 ∈ [4, 8, 16] := by decide
  have hspeed : ∀ n < 3, (1 + n) % 2 ^ 2 ∈ [1, 2, 3] ∧ (b2n (1 + n = 3) % 2 ^ 1 = 1 ↔ (1 + n) % 2 ^ 2 = 3) := by decide
  have hrate : rg (linkShown p i t) (hiSlot p) hiLinkSpeed = (1 + Config.freeValue i % 3) % 2 ^ 2 := by
    unfold linkShown
    rw [rg_wgFree_other _ _ hspeedWidth, rg_wgFree_other _ _ hspeedFlit, rg_wgFree_same]
    rfl
  have hmode : rg (linkShown p i t) (hiSlot p) hiLinkFlit = b2n (1 + Config.freeValue i % 3 = 3) % 2 ^ 1 := by
    unfold linkShown
    rw [rg_wgFree_other _ _ hflitWidth, rg_wgFree_same]
    rfl
  obtain ⟨hin, hflit⟩ := hspeed (Config.freeValue i % 3) (Nat.mod_lt _ (by decide))
  refine ⟨?_, ?_, ?_⟩
  · unfold linkShown
    rw [rg_wgFree_same]
    exact hwidth _ (Nat.mod_lt _ (by decide))
  · rwa [hrate]
  · rwa [hrate, hmode]

theorem trainLink_frame : trainLink s p = { s with regs := (trainLink s p).regs, free := (trainLink s p).free } := by
  unfold trainLink
  split
  · rfl
  · rfl

/-- Where the link has trained, its clock runs; where it has not, nothing has changed. -/
theorem trainLink_cases : (trainLink s p = s ∧ (mget false s.pins.perst p = true ∨ clockRuns s (26 + p) = false)) ∨
    LinkTrained (trainLink s p) p := by
  by_cases h : mget false s.pins.perst p = true ∨ clockRuns s (26 + p) = false
  · exact .inl ⟨trainLink_stays s p h, h⟩
  · obtain ⟨hperst, hclock⟩ := not_or.1 h
    rw [trainLink_trains s p (Bool.eq_false_iff.2 hperst) (by simpa using hclock)]
    exact .inr (linkShown_trained ..)

variable {s p} {slot : Nat} {f : Fld} (hslot : slot ≠ hiSlot p) (hf : f.off * 8 + f.lo < 32768)
include hslot hf

theorem rg_trainLink_other : rg (trainLink s p) slot f = rg s slot f := by
  have hne {g : Fld} (hg : g.off * 8 + g.lo < 32768) : fkey slot f ≠ fkey (hiSlot p) g := fkey_ne_of_slot_ne hslot hf hg
  unfold trainLink
  split
  · rfl
  · dsimp only [useFree]
    rw [rg_wgFree_other _ _ (hne (by decide)), rg_wgFree_other _ _ (hne (by decide)), rg_wgFree_other _ _ (hne (by decide))]
    rfl

theorem rg_dropLink_other : rg (dropLink s p) slot f = rg s slot f := by
  have hne {g : Fld} (hg : g.off * 8 + g.lo < 32768) : fkey slot f ≠ fkey (hiSlot p) g := fkey_ne_of_slot_ne hslot hf hg
  unfold dropLink
  rw [rg_wg_other _ _ (hne (by decide)), rg_wg_other _ _ (hne (by decide)), rg_wg_other _ _ (hne (by decide))]

end

theorem dropLink_down (s : State) (p : Nat) :
    rg (dropLink s p) (hiSlot p) hiLinkWidth = 0 ∧ rg (dropLink s p) (hiSlot p) hiLinkSpeed = 0 := by
  obtain ⟨-, hspeedWidth, hspeedFlit⟩ := hiLink_ne p
  unfold dropLink
  rw [rg_wg_same, rg_wg_other _ _ hspeedWidth, rg_wg_other _ _ hspeedFlit, rg_wg_same]
  exact ⟨rfl, rfl⟩

/-! ### VAUX33 -/

theorem mget_map_snd {α β : Type} (d : α) (f : α → β) (m : Map α) (k : Nat) :
    mget (f d) (m.map (fun e => (e.1, f e.2))) k = f (mget d m k) := by
  induction m with
  | nil => rfl
  | cons e m ih =>
    obtain ⟨a, v⟩ := e
    by_cases ha : a = k
    · simp [mget, ha]
    · simp [mget, ha, ih]

section
variable (s : State)

theorem edgeSide_lostAll (e : EdgeEnd) : edgeSide (lostAll s) e = fusedLanes (edgeSide s e) :=
  mget_map_snd ({} : EdgeSide) fusedLanes s.edges (2 * e.edge.val + b2n e.far)

/-- The lanes that fuses exclude take no part after a loss of VAUX33 either. -/
theorem fused_lostAll (e : EdgeEnd) (b : Nat) : (bundleOf (lostAll s) e b).fused = (bundleOf s e b).fused := by
  rw [bundleOf, edgeSide_lostAll]
  exact (congrArg BundleEnd.fused (mget_map_snd ({} : BundleEnd) (fun y : BundleEnd => ({ fused := y.fused } : BundleEnd))
    (edgeSide s e).bundles b)).trans rfl

theorem rg_lostAll_fuse {f : Fld} (hf : f.off * 8 + f.lo < 32768) :
    rg (lostAll s) fuseSlot f = rg s fuseSlot f := by
  have hpage : fkey fuseSlot f / 32768 = fuseSlot := by
    simp only [fkey, fuseSlot]
    omega
  unfold lostAll
  rw [rg_wg_other _ _ (fkey_ne_of_slot_ne (by decide) hf (by decide))]
  refine (mget_mkeep f.reset s.regs (fun k => decide (k / 32768 = fuseSlot)) _).trans ?_
  rw [hpage, if_pos (by decide)]
  rfl

end

end Sys2Proof.Machine
end

section
/-!
PROOFS. What the losses and returns of clocks and of supplies do (R202, R377, R428, R430).
-/

namespace Sys2Proof.Machine

/-! ### A reference clock -/

/-- The pins with a reference clock's presence set. -/
def withRef (s : State) (n : Half) (on : Bool) : State :=
  { s with pins := if n = 0 then { s.pins with ref0 := on } else { s.pins with ref1 := on } }

/-- Whether the clock was there. -/
def hadRef (s : State) (n : Half) : Bool := if n = 0 then s.pins.ref0 else s.pins.ref1

section
variable {s : State} (n : Half)

theorem vauxOk_withRef (on : Bool) : (withRef s n on).pins.vauxOk = s.pins.vauxOk := by
  unfold withRef
  dsimp only
  split
  · rfl
  · rfl

theorem withRef_loss : withRef s n false =
    { s with pins := { s.pins with
        ref0 := decide (n ≠ 0) && s.pins.ref0, ref1 := decide (n ≠ 1) && s.pins.ref1 } } := by
  match n with
  | 0 => rfl
  | 1 => rfl

theorem withRef_return : withRef s n true =
    { s with pins := { s.pins with
        ref0 := decide (n = 0) || s.pins.ref0, ref1 := decide (n = 1) || s.pins.ref1 } } := by
  match n with
  | 0 => rfl
  | 1 => rfl

theorem setRef_eq (on : Bool) : setRef s n on = whilePowered (withRef s n on) (fun t =>
    if hadRef s n = on then showClocks t
    else if on then trainLink (showClocks t) n else dropLink (showClocks t) n) := rfl

theorem setRef_off (hoff : s.pins.vauxOk = false) (on : Bool) : setRef s n on = withRef s n on :=
  (setRef_eq n on).trans (whilePowered_off _ ((vauxOk_withRef n on).trans hoff))

theorem setRef_on (hon : s.pins.vauxOk = true) (on : Bool) : setRef s n on =
    if hadRef s n = on then showClocks (withRef s n on)
    else if on then trainLink (showClocks (withRef s n on)) n else dropLink (showClocks (withRef s n on)) n :=
  (setRef_eq n on).trans (whilePowered_on _ ((vauxOk_withRef n on).trans hon))

end

/-- The clocks as they are shown, with what else has changed. -/
structure ShownOnly (s : State) (p : Pins) (u : State) : Prop where
  shown : ClocksShown s p u
  frame : u = { s with regs := u.regs, pins := p, free := u.free }

section
variable (s : State) (p : Pins)

theorem showClocks_shownOnly : ShownOnly s p (showClocks { s with pins := p }) where
  shown := (showClocks_shown { s with pins := p }).congr rfl fun _ _ => rfl
  frame := by
    rw [showClocks_frame]

theorem ShownOnly.thenLink {s t u : State} {p : Pins} (h : ShownOnly s p t)
    (hu : u = { t with regs := u.regs, free := u.free })
    (hclk : ∀ f : Fld, f.off * 8 + f.lo < 32768 → rg u clkSlot f = rg t clkSlot f) : ShownOnly s p u where
  shown := h.shown.congr rfl hclk
  frame := hu.trans (congrArg (fun x : State => { x with regs := u.regs, free := u.free }) h.frame)

theorem clkSlot_ne_hiSlot (n : Nat) : clkSlot ≠ hiSlot n := by
  simp only [clkSlot, hiSlot, halfSlot]
  omega

theorem ShownOnly.trainLink {s t : State} {p : Pins} (h : ShownOnly s p t) (n : Nat) :
    ShownOnly s p (trainLink t n) :=
  h.thenLink (trainLink_frame t n) fun _ hf => rg_trainLink_other (clkSlot_ne_hiSlot n) hf

theorem ShownOnly.dropLink {s t : State} {p : Pins} (h : ShownOnly s p t) (n : Nat) : ShownOnly s p (dropLink t n) :=
  h.thenLink rfl fun _ hf => rg_dropLink_other (clkSlot_ne_hiSlot n) hf

end

section
variable {s : State} {n : Half} (hon : s.pins.vauxOk = true)
include hon

theorem setRef_shown {p : Pins} {on : Bool} (hp : withRef s n on = { s with pins := p }) :
    ShownOnly s p (setRef s n on) := by
  have hclocks := showClocks_shownOnly s p
  rw [setRef_on n hon, hp]
  split
  · exact hclocks
  split
  · exact hclocks.trainLink n
  · exact hclocks.dropLink n

/-- A clock that was there, or was not, moves no link. -/
theorem setRef_same {on : Bool} (hsame : hadRef s n = on) :
    rg (setRef s n on) (hiSlot n) hiLinkWidth = rg s (hiSlot n) hiLinkWidth ∧ (setRef s n on).free = s.free := by
  rw [setRef_on n hon, if_pos hsame]
  refine ⟨rg_showClocks_other _ (clkSlot_ne_hiSlot n).symm (by decide), ?_⟩
  rw [showClocks_frame]
  rfl

theorem setRef_lost (hwas : hadRef s n = true) : rg (setRef s n false) (hiSlot n) hiLinkWidth = 0 ∧
    rg (setRef s n false) (hiSlot n) hiLinkSpeed = 0 := by
  rw [setRef_on n hon, if_neg (by rw [hwas]; decide), if_neg (by decide)]
  exact dropLink_down ..

theorem setRef_back (hwas : hadRef s n = false) (hperst : mget false s.pins.perst n = false)
    (hclock : clockRuns (setRef s n true) (26 + n) = true) : LinkTrained (setRef s n true) n := by
  have heq : setRef s n true = trainLink (showClocks (withRef s n true)) n := by
    rw [setRef_on n hon, if_neg (by rw [hwas]; decide), if_pos rfl]
  have hpins : (showClocks (withRef s n true)).pins.perst = s.pins.perst := by
    rw [showClocks_frame, withRef_return]
  rw [heq] at hclock ⊢
  rcases trainLink_cases (showClocks (withRef s n true)) n with ⟨hstays, hno⟩ | htrained
  · rw [hstays] at hclock
    rw [hpins, hperst, hclock] at hno
    exact absurd hno (by decide)
  · exact htrained

end

/-! ### VIO18 -/

section
variable {s : State} (hon : s.pins.vauxOk = true)
include hon

theorem vioLoss_takes : ∃ u, loseVio s = u ∧ u.pins.vioOk = false ∧ rg u mgmtSlot mgmtStatusVioOk = 0 ∧
    rg u mgmtSlot mgmtStatusAssigned = 0 ∧ rg u pwrSlot brakeStatusPin = 1 ∧
    u = { s with regs := u.regs, pins := u.pins } := by
  have htakes : loseVio s = takePin (wg (wg { s with pins := { s.pins with vioOk := false } } mgmtSlot mgmtStatusVioOk 0)
      mgmtSlot mgmtStatusAssigned 0) := whilePowered_on _ hon
  have hlow (t : State) (ht : t.pins.vioOk = false) : takePin t = setBrake t brakeStatusPin true := by
    rw [takePin, pinBrake, ht, Bool.not_false, Bool.or_true]
  rw [hlow _ rfl] at htakes
  refine ⟨_, htakes, ?_, ?_, ?_, rg_setBrake_cause (.head _) true, ?_⟩
  · rw [setBrake_frame]
    rfl
  · rw [rg_setBrake_other _ (by decide) (by decide), rg_wg_other _ _ (by decide), rg_wg_same]
    rfl
  · rw [rg_setBrake_other _ (by decide) (by decide), rg_wg_same]
    rfl
  · rw [setBrake_frame]
    rfl

theorem vioRestore_takes : ∃ u, Ends .vioRestore s u ∧ u.pins.vioOk = true ∧ rg u mgmtSlot mgmtStatusVioOk = 1 ∧
    rg u pwrSlot brakeStatusPin = b2n s.pins.brakeLow ∧ u = { s with regs := u.regs, pins := u.pins } := by
  have htakes : Ends .vioRestore s
      (setBrake (wg { s with pins := { s.pins with vioOk := true } } mgmtSlot mgmtStatusVioOk 1) brakeStatusPin
        (s.pins.brakeLow || false)) := congrArg Host.Outcome.next (whilePowered_on _ hon)
  rw [Bool.or_false] at htakes
  refine ⟨_, htakes, ?_, ?_, rg_setBrake_cause (.head _) _, ?_⟩
  · rw [setBrake_frame]
    rfl
  · rw [rg_setBrake_other _ (by decide) (by decide), rg_wg_same]
    rfl
  · rw [setBrake_frame]
    rfl

end

/-- Settles O54: without VAUX33 only the pins change; with it each clock is shown, and a link follows its reference. -/
theorem clocksAndRails : Obligations.ClocksAndRails := by
  intro n s was hi shows
  have hport : hi = hiSlot n := hiSlot_eq n
  have hshows {u : State} {ref0 ref1 slow : Bool}
      (h : ShownOnly s { s.pins with ref0 := ref0, ref1 := ref1, slow := slow } u) : shows u ref0 ref1 slow := by
    obtain ⟨⟨href0, href1, hholdover, hslow, hrefSel, hbackup⟩, hframe⟩ := h
    exact ⟨href0, href1, hholdover, hslow, hrefSel, hbackup, hframe⟩
  refine ⟨fun hoff => ?_, fun hon => ⟨?_, ?_, ?_, ?_, ?_, ?_⟩, ?_⟩
  · intro put
    refine ⟨?_, ?_, ?_, ?_, ?_, ?_⟩
    · refine congrArg Host.Outcome.next ((setRef_off n hoff false).trans ?_)
      rfl
    · refine congrArg Host.Outcome.next ((setRef_off n hoff true).trans ?_)
      rfl
    · exact congrArg Host.Outcome.next (whilePowered_off _ hoff)
    · exact congrArg Host.Outcome.next (whilePowered_off _ hoff)
    · exact congrArg Host.Outcome.next (whilePowered_off _ hoff)
    · exact congrArg Host.Outcome.next (whilePowered_off _ hoff)
  · rw [hport]
    exact ⟨setRef s n false, rfl, hshows (setRef_shown hon (withRef_loss n)), fun hwas => setRef_lost hon hwas,
      fun hwas => setRef_same hon hwas⟩
  · rw [hport]
    refine ⟨setRef s n true, rfl, hshows (setRef_shown hon (withRef_return n)), fun hwas => setRef_same hon hwas,
      fun hwas hperst hclock => ?_⟩
    have htrained := setRef_back hon hwas hperst hclock
    exact ⟨htrained.width, htrained.speed⟩
  · refine ⟨showClocks { s with pins := { s.pins with slow := false } }, congrArg Host.Outcome.next (whilePowered_on _ hon),
      hshows (showClocks_shownOnly s _), ?_⟩
    rw [showClocks_frame]
  · refine ⟨showClocks { s with pins := { s.pins with slow := true } }, congrArg Host.Outcome.next (whilePowered_on _ hon),
      hshows (showClocks_shownOnly s _), ?_⟩
    rw [showClocks_frame]
  · obtain ⟨u, hu, htakes⟩ := vioLoss_takes hon
    exact ⟨u, congrArg Host.Outcome.next hu, htakes⟩
  · exact vioRestore_takes hon
  · refine ⟨lostAll s, rfl, rfl, rfl, rfl, rfl, rfl, rg_wg_same .., rfl, rfl, rfl, fused_lostAll s, fun img => ?_⟩
    refine rg_lostAll_fuse s ?_
    cases img with
    | solfatara => decide
    | caldera => decide
    | die => decide

end Sys2Proof.Machine
end

section
/-!
PROOFS. Power-on and straps, what the boot takes from the flash, commits of images, and the measurement registers that
software extends (R387 to R391, R400, R401, R419, R427).
-/

namespace Sys2Proof.Machine

/-! ### Images -/

/-- What the checks of the firmware copies read is as it was: the flash, the fuses and the updates. -/
structure SameImages (s t : State) : Prop where
  flash : t.flash = s.flash
  updates : t.boot.updates = s.boot.updates
  fuses : ∀ f : Fld, f.off * 8 + f.lo < 32768 → rg t fuseSlot f = rg s fuseSlot f

namespace SameImages

section
variable {s t : State} (h : SameImages s t) (img : Image) (b : Bool)
include h

theorem flashBytes_eq (a n : Nat) : flashBytes t a n = flashBytes s a n := by rw [flashBytes, flashBytes, h.flash]

theorem copyHeader_eq : copyHeader t img b = copyHeader s img b := h.flashBytes_eq ..

theorem imageDigest_eq : imageDigest t img b = imageDigest s img b := by
  rw [imageDigest, imageDigest, h.copyHeader_eq]

theorem copyOpen_eq : copyOpen t img b = copyOpen s img b := by rw [copyOpen, copyOpen, h.updates]

theorem copySigned_eq : copySigned t img b = copySigned s img b := by
  simp only [copySigned, h.copyHeader_eq, h.flashBytes_eq, h.imageDigest_eq, h.fuses fuseStateRevFw (by decide)]

theorem copyFresh_eq : copyFresh t img b = copyFresh s img b := by
  have hplace : (floorField img).off * 8 + (floorField img).lo < 32768 := by
    cases img with
    | solfatara => decide
    | caldera => decide
    | die => decide
  rw [copyFresh, copyFresh, copySvn, copySvn, h.copyHeader_eq, h.fuses _ hplace]

theorem copyValid_eq : copyValid t img b = copyValid s img b := by
  rw [copyValid, copyValid, h.copyOpen_eq, h.copySigned_eq, h.copyFresh_eq]

end

end SameImages

/-! ### The Solfatara firmware -/

/-- The event of a copy that is not valid. -/
def copyEvent (s : State) (b : Bool) : Event :=
  { slot := secSlot, src := if copySigned s .solfatara b && !copyOpen s .solfatara b then 1 else 0 }

/-- The Solfatara firmware of copy `b` runs. -/
def solfataraRuns (s : State) (b : Bool) : State :=
  wg (wg { s with boot := { s.boot with
    solOk := true, solB := b, solDigest := imageDigest s .solfatara b, solNew := false } } secSlot secStatusStage 1)
    secSlot secStatusSolB (b2n b)

section
variable {s : State}

theorem bootSolfatara_first (hfirst : copyValid s .solfatara false = true) :
    bootSolfatara s = solfataraRuns s false := by
  unfold bootSolfatara pickCopy
  rw [if_pos hfirst]
  rfl

theorem bootSolfatara_second (hfirst : copyValid s .solfatara false = false)
    (hsecond : copyValid s .solfatara true = true) :
    bootSolfatara s = solfataraRuns (raise s (copyEvent s false)) true := by
  have hvalid : copyValid (reportCopy s .solfatara false) .solfatara true = true := hsecond
  unfold bootSolfatara pickCopy
  rw [if_neg (ne_true_of_eq_false hfirst)]
  dsimp only
  rw [if_pos hvalid]
  rfl

theorem bootSolfatara_none (hfirst : copyValid s .solfatara false = false)
    (hsecond : copyValid s .solfatara true = false) : bootSolfatara s =
      wg { raise (raise s (copyEvent s false)) (copyEvent s true) with
        boot := { s.boot with solOk := false, solNew := false } } secSlot secStatusStage 7 := by
  have hvalid : copyValid (reportCopy s .solfatara false) .solfatara true = false := hsecond
  unfold bootSolfatara pickCopy
  rw [if_neg (ne_true_of_eq_false hfirst)]
  dsimp only
  rw [if_neg (ne_true_of_eq_false hvalid)]
  rfl

/-- What the Solfatara domain shows of its firmware, and where the package stands. -/
theorem solfataraRuns_shown (b : Bool) : rg (solfataraRuns s b) secSlot secStatusStage = 1 ∧
    rg (solfataraRuns s b) secSlot secStatusSolB = b2n b ∧
    rg (solfataraRuns s b) pwrSlot pwrStateCur = rg s pwrSlot pwrStateCur := by
  unfold solfataraRuns
  refine ⟨?_, ?_, ?_⟩
  · rw [rg_wg_other _ _ (by decide), rg_wg_same]
    rfl
  · rw [rg_wg_same]
    exact b2n_mod b
  · exact (rg_wg_other _ _ (by decide)).trans (rg_wg_other _ _ (by decide))

end

/-! ### Power-on -/

/-- The Solfatara domain with its supplies, before its firmware. -/
def poweredUp (s : State) : State :=
  takePin (showClocks (wg (wg { s with pins := { s.pins with vauxOk := true, vioOk := true }, shutoff := none }
    pwrSlot pwrStateCur 4) mgmtSlot mgmtStatusVioOk 1))

section
variable (s : State)

theorem powerUp_off (hoff : s.pins.vauxOk = false) : powerUp s = bootSolfatara (poweredUp s) :=
  if_neg (ne_true_of_eq_false hoff)

theorem poweredUp_frame : poweredUp s =
    { s with regs := (poweredUp s).regs, pins := { s.pins with vauxOk := true, vioOk := true }, shutoff := none } := by
  unfold poweredUp takePin
  rw [setBrake_frame, showClocks_frame]
  rfl

theorem cur_poweredUp : rg (poweredUp s) pwrSlot pwrStateCur = 4 := by
  unfold poweredUp takePin
  rw [rg_setBrake_other _ (by decide) (by decide), rg_showClocks_other _ (by decide) (by decide),
    rg_wg_other _ _ (by decide), rg_wg_same]
  rfl

theorem sameImages_poweredUp : SameImages s (poweredUp s) where
  flash := by rw [poweredUp_frame]
  updates := by rw [poweredUp_frame]
  fuses f hf := by
    have hne {slot : Nat} {g : Fld} (hslot : fuseSlot ≠ slot) (hg : g.off * 8 + g.lo < 32768) :
        fkey fuseSlot f ≠ fkey slot g := fkey_ne_of_slot_ne hslot hf hg
    unfold poweredUp takePin
    rw [rg_setBrake_other _ (hne (by decide) (by decide)) (hne (by decide) (by decide)),
      rg_showClocks_other _ (by decide) hf, rg_wg_other _ _ (hne (by decide) (by decide)),
      rg_wg_other _ _ (hne (by decide) (by decide))]
    rfl

end

/-! ### Commits -/

/-- A set bit is taken away. -/
theorem testBit_sub_two_pow {x k : Nat} (hk : x.testBit k = true) (n : Nat) :
    (x - 2 ^ k).testBit n = (x.testBit n && decide (n ≠ k)) := by
  obtain ⟨y, rfl⟩ := Nat.exists_eq_add_of_le (Nat.ge_two_pow_of_testBit hk)
  have hy : y.testBit k = false := by simpa [Nat.testBit_two_pow_add_eq] using hk
  rw [Nat.add_sub_cancel_left]
  rcases Nat.lt_trichotomy n k with hlt | rfl | hgt
  · rw [Nat.testBit_two_pow_add_gt hlt, decide_eq_true (Nat.ne_of_lt hlt), Bool.and_true]
  · rw [hy, decide_eq_false (fun h => h rfl), Bool.and_false]
  · obtain ⟨m, rfl⟩ := Nat.exists_eq_add_of_lt hgt
    have heven : y / 2 ^ k % 2 = 0 := by
      rw [Nat.testBit_eq_decide_div_mod_eq, decide_eq_false_iff_not] at hy
      omega
    have hquot : (2 ^ k + y) / 2 ^ (k + 1) = y / 2 ^ (k + 1) := by
      rw [Nat.pow_succ, ← Nat.div_div_eq_div_mul, ← Nat.div_div_eq_div_mul, Nat.add_div_left _ (Nat.two_pow_pos k)]
      omega
    rw [decide_eq_true (by omega), Bool.and_true, show k + m + 1 = m + (k + 1) by omega, Nat.testBit_add,
      Nat.testBit_add, hquot]

/-- The slots that a committed image revokes: its own is not among them. -/
def revokedSlots (h : List Byte) : Nat :=
  if bit (fieldOf h 0x0A 1) (fieldOf h 9 1) then fieldOf h 0x0A 1 - 2 ^ fieldOf h 9 1 else fieldOf h 0x0A 1

theorem bit_revokedSlots (h : List Byte) (n : Nat) :
    bit (revokedSlots h) n = (bit (fieldOf h 0x0A 1) n && decide (n ≠ fieldOf h 9 1)) := by
  unfold revokedSlots
  split
  · next hown => exact testBit_sub_two_pow hown n
  · next hother =>
    by_cases hn : n = fieldOf h 9 1
    · rw [hn, Bool.eq_false_iff.2 hother, Bool.false_and]
    · rw [decide_eq_true hn, Bool.and_true]

section
variable {s : State} {img : Image}

theorem commitFuses_eq : commitFuses s img =
    let h := copyHeader s img (bootedCopy s img)
    if rg s secSlot secStatusStage ≠ 5 ∨ !imageRuns s img ∨ !bit (fieldOf h 7 1) 0 then s
    else
      let t := wg s fuseSlot (floorField img) (max (rg s fuseSlot (floorField img)) (lowSvn s img))
      let u := wg t fuseSlot fuseStateRevFw (rg t fuseSlot fuseStateRevFw ||| revokedSlots h)
      wg u fuseSlot fuseStateRevQual (rg u fuseSlot fuseStateRevQual ||| fieldOf h 0x0B 1) := rfl

theorem floorField_place : fkey fuseSlot (floorField img) ≠ fkey fuseSlot fuseStateRevFw ∧
    fkey fuseSlot (floorField img) ≠ fkey fuseSlot fuseStateRevQual ∧ (floorField img).w = 7 := by
  cases img with
  | solfatara => decide
  | caldera => decide
  | die => decide

theorem bit_zero_iff (n : Nat) : bit n 0 = true ↔ n % 2 = 1 := by
  rw [bit, Nat.testBit_eq_decide_div_mod_eq, decide_eq_true_iff, Nat.pow_zero, Nat.div_one]

theorem commitFuses_stays (h : rg s secSlot secStatusStage ≠ 5 ∨ imageRuns s img = false ∨
    fieldOf (copyHeader s img (bootedCopy s img)) 7 1 % 2 = 0) : commitFuses s img = s := by
  refine if_pos (h.imp_right fun h => h.imp (fun hruns => congrArg (!·) hruns) fun heven => ?_)
  rw [Bool.eq_false_iff.2 (fun hbit => absurd ((bit_zero_iff _).1 hbit) (by omega))]
  rfl

/-- The fuses after a commit. -/
theorem commitFuses_fuses (hstage : rg s secSlot secStatusStage = 5) (hruns : imageRuns s img = true)
    (hcommit : fieldOf (copyHeader s img (bootedCopy s img)) 7 1 % 2 = 1) :
    rg (commitFuses s img) fuseSlot (floorField img) =
        max (rg s fuseSlot (floorField img)) (lowSvn s img) % 2 ^ 7 ∧
      (∀ n < 4, bit (rg (commitFuses s img) fuseSlot fuseStateRevFw) n = (bit (rg s fuseSlot fuseStateRevFw) n ||
        bit (revokedSlots (copyHeader s img (bootedCopy s img))) n)) ∧
      rg (commitFuses s img) fuseSlot fuseStateRevQual =
        (rg s fuseSlot fuseStateRevQual ||| fieldOf (copyHeader s img (bootedCopy s img)) 0x0B 1) % 2 ^ 4 ∧
      commitFuses s img = { s with regs := (commitFuses s img).regs } := by
  obtain ⟨hfw, hqual, hwidth⟩ := floorField_place (img := img)
  have hgoes : ¬ (rg s secSlot secStatusStage ≠ 5 ∨ (!imageRuns s img) = true ∨
      (!bit (fieldOf (copyHeader s img (bootedCopy s img)) 7 1) 0) = true) := by
    rw [hruns, (bit_zero_iff _).2 hcommit]
    exact fun h => h.elim (fun h => h hstage) (by decide)
  rw [commitFuses_eq]
  dsimp only
  rw [if_neg hgoes]
  refine ⟨?_, fun n hn => ?_, ?_, rfl⟩
  · rw [rg_wg_other _ _ hqual, rg_wg_other _ _ hfw, rg_wg_same, hwidth]
  · rw [rg_wg_other _ _ (by decide), rg_wg_same, rg_wg_other _ _ hfw.symm, bit, Nat.testBit_mod_two_pow,
      Nat.testBit_or]
    exact (congrArg (· && _) (decide_eq_true hn)).trans (Bool.true_and _)
  · rw [rg_wg_same, rg_wg_other _ _ (by decide), rg_wg_other _ _ hqual.symm]
    rfl

end

/-! ### Extends by software -/

section
variable (s : State)

/-- A write of EXT_CTL stores SEL. -/
theorem writeStored_extCtl (val : Nat) : writeStored s attSlot 0x104 val = wg s attSlot extCtlSel (val % 2) := by
  have hfields : (blockFields (pgType attSlot)).filter (fun f => f.off = 0x104) = [extCtlGo, extCtlSel] := by decide +kernel
  rw [writeStored, hfields]
  exact congrArg (wg s attSlot extCtlSel) (congrArg (· % 2) (Nat.div_one val))

theorem extBytes_wg_extCtlSel (v : Nat) : extBytes (wg s attSlot extCtlSel v) = extBytes s := by
  refine List.flatMap_congr fun n hn => ?_
  have hplace : fkey attSlot (extData n) ≠ fkey attSlot extCtlSel := by
    have hlt := List.mem_range.1 hn
    simp only [fkey, extData, extCtlSel]
    omega
  rw [rg_wg_other s v hplace]

end

end Sys2Proof.Machine
end

section
/-!
PROOFS. Power-on, the sampling of the straps, VIN48, commits and extends (R387 to R391, R400, R401, R419, R427).
-/

namespace Sys2Proof.Machine

/-! ### Power-on -/

section
variable {s : State} (hoff : s.pins.vauxOk = false)
include hoff

theorem powerOn_settles : Settles .powerOn s (bootSolfatara (poweredUp s)) :=
  congrArg (fun t => Host.Outcome.next (settle t)) (powerUp_off s hoff)

theorem powerOn_first (hfirst : copyValid s .solfatara false = true) : ∃ u, Settles .powerOn s u ∧
    u.pins.vauxOk = true ∧ u.pins.vioOk = true ∧ rg u pwrSlot pwrStateCur = 4 ∧ rg u secSlot secStatusStage = 1 ∧
    rg u secSlot secStatusSolB = 0 ∧ u.boot.solOk = true ∧ u.boot.solDigest = imageDigest s .solfatara false ∧
    u.due = s.due ∧ u.shutoff = none ∧
    u = { s with regs := u.regs, pins := u.pins, boot := u.boot, shutoff := u.shutoff } := by
  have hsame := sameImages_poweredUp s
  have hframe := poweredUp_frame s
  have hcur := cur_poweredUp s
  have hboots := bootSolfatara_first ((hsame.copyValid_eq .solfatara false).trans hfirst)
  have hdigest := hsame.imageDigest_eq .solfatara false
  have hsettles := settles_of_eq (powerOn_settles hoff) hboots
  generalize poweredUp s = w at hframe hcur hdigest hsettles
  obtain ⟨hstage, hcopy, hstays⟩ := solfataraRuns_shown (s := w) false
  refine ⟨_, hsettles, ?_, ?_, hstays.trans hcur, hstage, hcopy, rfl, hdigest, ?_, ?_, ?_⟩
  · exact congrArg (fun x : State => x.pins.vauxOk) hframe
  · exact congrArg (fun x : State => x.pins.vioOk) hframe
  · exact (congrArg State.due hframe).trans rfl
  · exact (congrArg State.shutoff hframe).trans rfl
  · unfold solfataraRuns
    rw [hframe]
    rfl

theorem powerOn_second (hfirst : copyValid s .solfatara false = false) (hsecond : copyValid s .solfatara true = true) :
    ∃ u x, Settles .powerOn s u ∧ rg u secSlot secStatusStage = 1 ∧ rg u secSlot secStatusSolB = 1 ∧
    u.boot.solOk = true ∧ u.boot.solDigest = imageDigest s .solfatara true ∧
    u.due = s.due ++ [{ slot := secSlot, src := x }] ∧ x ≤ 1 ∧
    u = { s with regs := u.regs, pins := u.pins, boot := u.boot, shutoff := u.shutoff, due := u.due } := by
  have hsame := sameImages_poweredUp s
  have hframe := poweredUp_frame s
  have hboots := bootSolfatara_second ((hsame.copyValid_eq .solfatara false).trans hfirst)
    ((hsame.copyValid_eq .solfatara true).trans hsecond)
  have hdigest := hsame.imageDigest_eq .solfatara true
  have hsettles := settles_of_eq (powerOn_settles hoff) hboots
  generalize poweredUp s = w at hframe hdigest hsettles
  obtain ⟨hstage, hcopy, -⟩ := solfataraRuns_shown (s := raise w (copyEvent w false)) true
  refine ⟨_, if copySigned w .solfatara false && !copyOpen w .solfatara false then 1 else 0, hsettles, hstage, hcopy,
    rfl, hdigest, congrArg (· ++ [_]) ((congrArg State.due hframe).trans rfl), ?_, ?_⟩
  · split
    · exact Nat.le_refl 1
    · exact Nat.zero_le 1
  · unfold solfataraRuns
    generalize copyEvent w false = e
    rw [hframe]
    rfl

theorem powerOn_none (hfirst : copyValid s .solfatara false = false) (hsecond : copyValid s .solfatara true = false) :
    ∃ u, Settles .powerOn s u ∧ rg u secSlot secStatusStage = 7 ∧ u.boot.solOk = false ∧ rg u pwrSlot pwrStateCur = 4 ∧
    u.due = s.due ++ [copyEvent s false, copyEvent s true] := by
  have hsame := sameImages_poweredUp s
  have hframe := poweredUp_frame s
  have hcur := cur_poweredUp s
  have hboots := bootSolfatara_none ((hsame.copyValid_eq .solfatara false).trans hfirst)
    ((hsame.copyValid_eq .solfatara true).trans hsecond)
  have hevent (b : Bool) : copyEvent (poweredUp s) b = copyEvent s b := by
    rw [copyEvent, copyEvent, hsame.copySigned_eq, hsame.copyOpen_eq]
  rw [hevent, hevent] at hboots
  have hsettles := settles_of_eq (powerOn_settles hoff) hboots
  generalize poweredUp s = w at hframe hcur hsettles
  generalize copyEvent s false = e at hsettles
  generalize copyEvent s true = e' at hsettles
  refine ⟨_, hsettles, rg_wg_same .., rfl, ?_, ?_⟩
  · exact (rg_wg_other _ _ (by decide)).trans hcur
  · refine (List.append_assoc ..).trans (congrArg (· ++ _) ((congrArg State.due hframe).trans rfl))

end

/-! ### Straps and VIN48 -/

section
variable {s : State} {p : Straps}

theorem sampleStraps_stays (h : s.pins.vauxOk = false ∨ s.pins.vioOk = false ∨ s.pins.sampled = true) :
    sampleStraps s p = s :=
  if_pos (h.imp (fun h => congrArg (!·) h) fun h => h.imp (fun h => congrArg (!·) h) id)

theorem flashOk_planTaken (t : State) (plan : Nat) :
    rg (wg { wg t solSlot optPlanFlashOk 0 with planOf := [] } solSlot optPlanPlan plan) solSlot optPlanFlashOk = 0 :=
  (rg_wg_other _ _ (by decide)).trans (rg_wg_same t solSlot optPlanFlashOk 0)

/-- A plan that is not the flash's, without factory test mode. -/
theorem sampleStraps_takes (hvaux : s.pins.vauxOk = true) (hvio : s.pins.vioOk = true) (hnew : s.pins.sampled = false)
    (hplan : p.plan % 8 ≠ 7) (htest : p.test = false) : sampleStraps s p =
      wg { wg { s with pins := { s.pins with straps := p, sampled := true } } solSlot optPlanFlashOk 0 with planOf := [] }
        solSlot optPlanPlan p.plan := by
  unfold sampleStraps
  rw [hvaux, hvio, hnew, if_neg (by decide)]
  unfold takeToken takePlan
  dsimp only
  rw [htest, if_pos (by decide), if_pos hplan]

theorem vinReady_stays (h : s.pins.vauxOk = false ∨ s.boot.solOk = false ∨ s.pins.vin48On = true ∨ s.shutoff ≠ none ∨
    s.pins.ref0 = false ∧ s.pins.ref1 = false) : vinReady s = s := by
  have hno : (s.pins.vauxOk && s.boot.solOk && !s.pins.vin48On && s.shutoff.isNone &&
      (s.pins.ref0 || s.pins.ref1)) = false := by
    rcases h with h | h | h | h | ⟨h0, h1⟩
    · rw [h]; rfl
    · rw [h, Bool.and_false]; rfl
    · rw [h, Bool.not_true, Bool.and_false]; rfl
    · rw [Bool.eq_false_iff.2 (fun hnone => h (Option.isNone_iff_eq_none.1 hnone)), Bool.and_false]; rfl
    · rw [h0, h1, Bool.or_false, Bool.and_false]
  exact if_neg (ne_true_of_eq_false hno)

theorem vinReady_begins (hvaux : s.pins.vauxOk = true) (hsol : s.boot.solOk = true) (hnew : s.pins.vin48On = false)
    (hshut : s.shutoff = none) (href : s.pins.ref0 = true ∨ s.pins.ref1 = true)
    (hfull : demandScope s .full = some .full) :
    vinReady s = beginReset { s with pins := { s.pins with vin48On := true } } .full := by
  have hscope : demandScope { s with pins := { s.pins with vin48On := true } } .full = some .full := hfull
  have hready : (s.pins.vauxOk && s.boot.solOk && !s.pins.vin48On && s.shutoff.isNone &&
      (s.pins.ref0 || s.pins.ref1)) = true := by
    rw [hvaux, hsol, hnew, hshut, (Bool.or_eq_true _ _).mpr href]
    rfl
  unfold vinReady
  rw [if_pos hready]
  dsimp only at hscope ⊢
  rw [hscope]

end

/-! ### Extends -/

theorem mrExtend_ends {s : State} {r : Requester} (val : BitVec 32) (hruns : performs s attSlot = true)
    (hreach : reached s r = true) : Ends (.mrExtend r val) s
      (extendMr (wg s attSlot extCtlSel (val.toNat % 2)) (6 + val.toNat % 2) (extBytes s)) := by
  have hsel : rg (wg s attSlot extCtlSel (val.toNat % 2)) attSlot extCtlSel = val.toNat % 2 := by
    rw [rg_wg_same]
    exact Nat.mod_mod ..
  refine congrArg Host.Outcome.next ((guardedWrite_of_performs 0x104 _ (by decide) hruns hreach).trans ?_)
  dsimp only
  rw [if_pos rfl, writeStored_extCtl, hsel, extBytes_wg_extCtlSel]

/-- Settles O55: power-on by the copies that are valid, straps and VIN48 by what is there, a commit by its image. -/
theorem bootAndMeasure : Obligations.BootAndMeasure := by
  intro r val p img s
  refine ⟨fun hon => ?_, fun hoff => ⟨powerOn_first hoff, powerOn_second hoff, powerOn_none hoff⟩, fun h => ?_,
    fun hvaux hvio hnew hplan htest => ?_, fun h => ?_, fun hvaux hsol hnew hshut href hfull => ?_, ?_,
    fun hruns hreach => ?_⟩
  · exact congrArg (fun t => Host.Outcome.next (settle t)) (if_pos hon)
  · exact congrArg (fun t => Host.Outcome.next (settle t)) (sampleStraps_stays h)
  · have htakes := sampleStraps_takes hvaux hvio hnew hplan htest
    refine ⟨_, congrArg (fun t => Host.Outcome.next (settle t)) htakes, rfl, rfl, rg_wg_same .., ?_, rfl, rfl⟩
    exact flashOk_planTaken _ p.plan
  · exact congrArg (fun t => Host.Outcome.next (settle t)) (vinReady_stays h)
  · exact congrArg (fun t => Host.Outcome.next (settle t)) (vinReady_begins hvaux hsol hnew hshut href hfull)
  · intro h f key
    refine ⟨fun hstays => congrArg Host.Outcome.next (commitFuses_stays hstays), fun hstage himage hcommit => ?_⟩
    obtain ⟨hfloor, hslots, hqual, hframe⟩ := commitFuses_fuses hstage himage hcommit
    refine ⟨_, rfl, hfloor, fun n hn => ?_, hqual, hframe⟩
    rw [hslots n hn, bit_revokedSlots]
  · refine ⟨_, mrExtend_ends val hruns hreach, mget_mset_same .., fun k hk => mget_mset_other _ _ _ hk, rfl⟩

end Sys2Proof.Machine
end

section
/-!
PROOFS. Resets of a host port: what stopped DMAs and forgotten handles leave alone, and what the reset clears
(R317, R318, R320, R335, R428).
-/

namespace Sys2Proof.Machine

/-! ### What a port's reset leaves alone before it clears the port -/

/-- A part of the state that neither stopped DMAs move nor the handles that operations and tests hold. -/
structure PortFrame {β : Type} (part : State → β) : Prop extends StoreFrame part where
  host : ∀ s xs, part { s with hostOut := xs } = part s
  aborts : ∀ s xs, part { s with aborts := xs } = part s
  queues : ∀ s q f, part (updCq s q f) = part s
  waits : ∀ s ts r, part { s with tests := ts, remote := r } = part s

namespace PortFrame

section
variable {β : Type} {part : State → β} (h : PortFrame part) (s : State)
include h

theorem storeBoth_eq (src : Source) (a : Nat) (bs : List Byte) : part (storeBoth s src a bs) = part s :=
  forEach_frame part _ s _ fun _ _ => h.storeSectors_eq ..

theorem dmaStore_eq (c : Cmd) (off : Nat) (bs : List Byte) : part (dmaStore s c off bs) = part s := by
  unfold dmaStore
  split
  · exact h.host ..
  · exact h.storeBoth_eq ..

theorem dmaCut_eq (c : Cmd) : part (dmaCut s c).1 = part s := by
  unfold dmaCut
  dsimp only [useFree, freeBytes]
  split
  · rfl
  split
  · exact (h.dmaStore_eq ..).trans ((h.free ..).trans (h.free ..))
  · exact (h.dmaStore_eq ..).trans ((h.checkErrs_eq ..).trans (h.free ..))

theorem stopDmas_eq (p : Nat) : part (stopDmas s p) = part s := by
  unfold stopDmas
  refine forEach_frame part _ s _ fun t x => ?_
  exact (h.dmaCut_eq ..).trans (h.aborts ..)

theorem forgetHandles_eq (p : Nat) (hseq : ∀ t d f, part (updSeq t d f) = part t) :
    part (forgetHandles s p) = part s := by
  unfold forgetHandles
  dsimp only
  refine (h.waits ..).trans ?_
  refine (forEach_frame part _ _ _ fun t d => hseq ..).trans ?_
  exact forEach_frame part _ s _ fun t x => h.queues ..

end

/-- The command ports, the rings, the jobs and the pins. -/
theorem tables : PortFrame (fun s => (s.cports, s.rings, s.jobs, s.pins)) where
  mem _ _ := rfl
  errs _ _ _ := rfl
  free _ _ := rfl
  posted _ _ := rfl
  due _ _ := rfl
  ctl _ _ _ := rfl
  report _ _ _ _ _ := rfl
  repairs _ _ := rfl
  host _ _ := rfl
  aborts _ _ := rfl
  queues _ _ _ := rfl
  waits _ _ _ := rfl

/-- The fields of a port's page. -/
theorem portField (p : Nat) {f : Fld} (hf : f.off * 8 + f.lo < 32768) : PortFrame (fun s => rg s (hiSlot p) f) where
  mem _ _ := rfl
  errs _ _ _ := rfl
  free _ _ := rfl
  posted _ _ := rfl
  due _ _ := rfl
  ctl _ _ _ := rfl
  report s _ _ v hg := rg_wg_other s v (fkey_ne_of_slot_ne (hiSlot_ne_mgSlot p _) hf hg)
  repairs s v := rg_wg_other s v (fkey_ne_of_slot_ne (by simp only [hiSlot, halfSlot, solSlot]; omega) hf (by decide))
  host _ _ := rfl
  aborts _ _ := rfl
  queues _ _ _ := rfl
  waits _ _ _ := rfl

end PortFrame

/-! ### What it clears -/

/-- The port with its DMAs stopped and its handles forgotten. -/
def portStopped (s : State) (p : Nat) : State := forgetHandles (stopDmas s p) p

theorem PortFrame.portStopped_eq {β : Type} {part : State → β} (h : PortFrame part) (s : State) (p : Nat)
    (hseq : ∀ t d f, part (updSeq t d f) = part t) : part (portStopped s p) = part s :=
  (h.forgetHandles_eq _ p hseq).trans (h.stopDmas_eq s p)

theorem portStopped_tables (s : State) (p : Nat) : (portStopped s p).cports = s.cports ∧
    (portStopped s p).rings = s.rings ∧ (portStopped s p).jobs = s.jobs ∧ (portStopped s p).pins = s.pins := by
  simpa using PortFrame.tables.portStopped_eq s p fun _ _ _ => rfl

section
variable (s : State) (p n : Nat) (link : Bool)

theorem cportOf_resetPort (hn : n < 256) (q : Nat) :
    cportOf (resetPort s p link) q n = if q = p then {} else cportOf s q n := by
  have hkey : (256 * q + n) / 256 = q := by omega
  obtain ⟨hports, -⟩ := portStopped_tables s p
  refine (mget_mkeep {} (portStopped s p).cports (fun k => decide (k / 256 ≠ p)) _).trans ?_
  rw [hkey, hports]
  by_cases hq : q = p
  · rw [if_pos hq, if_neg (fun h => (of_decide_eq_true h : q ≠ p) hq)]
  · rw [if_neg hq, if_pos (decide_eq_true hq)]
    rfl

theorem ringOf_resetPort (hn : n < 64) (q : Nat) :
    ringOf (resetPort s p link) q n = if q = p then {} else ringOf s q n := by
  have hkey : (64 * q + n) / 64 = q := by omega
  obtain ⟨-, hrings, -⟩ := portStopped_tables s p
  refine (mget_mkeep {} (portStopped s p).rings (fun k => decide (k / 64 ≠ p)) _).trans ?_
  rw [hkey, hrings]
  by_cases hq : q = p
  · rw [if_pos hq, if_neg (fun h => (of_decide_eq_true h : q ≠ p) hq)]
  · rw [if_neg hq, if_pos (decide_eq_true hq)]
    rfl

theorem resetPort_jobs : (resetPort s p link).jobs = s.jobs := by
  obtain ⟨-, -, hjobs, -⟩ := portStopped_tables s p
  exact hjobs

theorem resetPort_pins : (resetPort s p link).pins = s.pins := by
  obtain ⟨-, -, -, hpins⟩ := portStopped_tables s p
  exact hpins

theorem bar4Code_resetPort : bar4Code (resetPort s p link) p = 14 :=
  mget_mset_same 14 (portStopped s p).bar4Size p 14

section
variable {f : Fld} (hf : f.off * 8 + f.lo < 32768)
include hf

theorem fkey_hiSlot_page : fkey (hiSlot p) f / 32768 = hiSlot p := by
  simp only [fkey]
  omega

theorem rg_resetPort_page : rg (resetPort s p link) (hiSlot p) f =
    if !link && keptLink p (fkey (hiSlot p) f) then rg s (hiSlot p) f else f.reset := by
  have hstopped : rg (portStopped s p) (hiSlot p) f = rg s (hiSlot p) f :=
    (PortFrame.portField p hf).portStopped_eq s p fun _ _ _ => rfl
  refine (mget_mkeep f.reset (portStopped s p).regs
    (fun k => !(portPages p).contains (k / 32768) || (!link && keptLink p k)) _).trans ?_
  have hmine : (portPages p).contains (hiSlot p) = true := by simp [portPages]
  rw [fkey_hiSlot_page p hf, hmine, Bool.not_true, Bool.false_or]
  exact if_congr Iff.rfl hstopped rfl

theorem keptLink_iff :
    keptLink p (fkey (hiSlot p) f) = true ↔ 1024 ≤ f.off * 8 + f.lo ∧ f.off * 8 + f.lo < 1032 := by
  unfold keptLink
  rw [decide_eq_true_iff]
  simp only [fkey]
  omega

/-- A register of the page beside HI_LINK takes its reset value. -/
theorem rg_resetPort_fresh (hoff : f.off * 8 + f.lo < 1024 ∨ 1032 ≤ f.off * 8 + f.lo) :
    rg (resetPort s p link) (hiSlot p) f = f.reset := by
  rw [rg_resetPort_page s p link hf, if_neg]
  rw [Bool.and_eq_true, keptLink_iff p hf]
  omega

/-- HI_LINK stays where the link stays up. -/
theorem rg_resetPort_link (hoff : 1024 ≤ f.off * 8 + f.lo ∧ f.off * 8 + f.lo < 1032) :
    rg (resetPort s p false) (hiSlot p) f = rg s (hiSlot p) f := by
  rw [rg_resetPort_page s p false hf, if_pos]
  exact (keptLink_iff p hf).2 hoff

end

/-- What a reset of a port leaves of both ports. -/
structure PortFresh (s : State) (p : Half) (u : State) : Prop where
  ports : ∀ n, n < 256 → cportOf u p n = {} ∧ cportOf u (1 - p.val) n = cportOf s (1 - p.val) n
  rings : ∀ k, k < 64 → ringOf u p k = {} ∧ ringOf u (1 - p.val) k = ringOf s (1 - p.val) k
  sel : rg u (hiSlot p) portSel = 0
  err : rg u (hiSlot p) hiErrValid = 0
  size : bar4Code u p = 14
  jobs : u.jobs = s.jobs

theorem resetPort_fresh (p : Half) : PortFresh s p (resetPort s p link) where
  ports n hn := ⟨(cportOf_resetPort s p n link hn p).trans (if_pos rfl),
    (cportOf_resetPort s p n link hn (1 - p.val)).trans (if_neg (by omega))⟩
  rings k hk := ⟨(ringOf_resetPort s p k link hk p).trans (if_pos rfl),
    (ringOf_resetPort s p k link hk (1 - p.val)).trans (if_neg (by omega))⟩
  sel := rg_resetPort_fresh s p link (by decide) (by decide)
  err := rg_resetPort_fresh s p link (by decide) (by decide)
  size := bar4Code_resetPort ..
  jobs := resetPort_jobs ..

end

end Sys2Proof.Machine
end

section
/-!
PROOFS. PERST_N and function-level resets, the management endpoint with its sensors and firmware updates, and JTAG
(R317, R318, R386, R400, R423 to R428).
-/

namespace Sys2Proof.Machine

/-! ### PERST_N -/

/-- PERST_N high again: the link trains where its clock runs. -/
theorem releasePerst_takes {s : State} {p : Half} (hlow : mget false s.pins.perst p = true) :
    mget false (releasePerst s p).pins.perst p = false ∧
    releasePerst s p = { s with
      regs := (releasePerst s p).regs, pins := (releasePerst s p).pins, free := (releasePerst s p).free } ∧
    (clockRuns s (26 + p) = true → LinkTrained (releasePerst s p) p) := by
  have htrains : releasePerst s p =
      trainLink { s with pins := { s.pins with perst := mset false s.pins.perst p false } } p := if_pos hlow
  have hperst : mget false (mset false s.pins.perst p false) p = false := mget_mset_same ..
  have hframe := trainLink_frame { s with pins := { s.pins with perst := mset false s.pins.perst p false } } p
  have hcases := trainLink_cases { s with pins := { s.pins with perst := mset false s.pins.perst p false } } p
  rw [htrains]
  refine ⟨?_, ?_, fun hclock => ?_⟩
  · rw [hframe]
    exact hperst
  · exact hframe.trans (by rw [hframe])
  · rcases hcases with ⟨-, hno | hno⟩ | htrained
    · exact absurd (hperst.symm.trans hno) (by decide)
    · exact absurd (hclock.symm.trans hno) (by decide)
    · exact htrained

/-! ### Sensors -/

section
variable (s : State)

/-- A sensor that measures moves registers of its page and takes free values. -/
theorem measureSensor_frame (x : Sensor) : measureSensor s x =
    { s with regs := (measureSensor s x).regs, free := (measureSensor s x).free } := by
  cases x with
  | vin => rfl
  | iin => rfl
  | pinAvg => rfl
  | vaux => rfl
  | vio => rfl
  | temp k => rfl
  | faultSummary => rfl
  | powerState => rfl

/-- A field that has measured is of 16 bits. -/
theorem rg_measureField_lt (slot : Nat) {f : Fld} (top : Nat) (hw : f.w = 16) :
    rg (measureField s slot f top) slot f < 2 ^ 16 := by
  unfold measureField
  dsimp only
  rw [rg_wgFree_same, hw]
  exact Nat.mod_lt _ (by decide)

theorem rg_measureField_other {slot : Nat} {f g : Fld} (top : Nat) (h : fkey slot g ≠ fkey slot f) :
    rg (measureField s slot f top) slot g = rg s slot g := rg_wgFree_other (useFree s).2 _ h

/-- What a sensor answers, a summary and the power state apart, is of 16 bits. -/
theorem sensorValue_lt {x : Sensor} (hsummary : x ≠ .faultSummary) (hpower : x ≠ .powerState) :
    sensorValue (measureSensor s x) x < 2 ^ 16 := by
  cases x with
  | vin => exact rg_measureField_lt _ _ _ rfl
  | iin => exact (rg_measureField_other _ _ (by decide)).trans_lt (rg_measureField_lt _ _ _ rfl)
  | pinAvg =>
    refine (rg_measurePeak_other _ _ _ (by decide)).trans_lt (rg_measureField_lt _ _ _ rfl)
  | vaux => exact rg_measureField_lt _ _ _ rfl
  | vio => exact (rg_measureField_other _ _ (by decide)).trans_lt (rg_measureField_lt _ _ _ rfl)
  | temp k => exact Nat.mod_lt _ (by decide)
  | faultSummary => exact absurd rfl hsummary
  | powerState => exact absurd rfl hpower

end

theorem sensorRead_ends {s : State} (hanswers : answers s = true) (x : Sensor) : Ends (.pldmSensorRead x) s
    { measureSensor s x with resp := .value (sensorValue (measureSensor s x) x) } :=
  congrArg Host.Outcome.next (if_pos hanswers)

/-! ### Firmware updates -/

/-- Bytes of the flash after a part of an update has been written. -/
theorem mget_flashWrite (bs : List Byte) (m : Map Byte) (a k : Nat) (n : Nat) (hn : n ≤ bs.length) :
    mget 0xFF ((List.range n).foldl (fun m j => mset 0xFF m (a + j) (bs.getD j 0xFF)) m) k =
      if a ≤ k ∧ k < a + n then bs.getD (k - a) 0xFF else mget 0xFF m k := by
  induction n with
  | zero => exact (if_neg (by omega)).symm
  | succ n ih =>
    rw [List.range_succ, List.foldl_append, List.foldl_cons, List.foldl_nil]
    by_cases hk : k = a + n
    · subst hk
      rw [mget_mset_same, if_pos (by omega), Nat.add_sub_cancel_left]
    · rw [mget_mset_other _ _ _ hk, ih (by omega)]
      exact if_congr (by omega) rfl rfl

section
variable (s : State) (img : Image) (part : FirmwarePart)

/-- Where an update has come to in the copy that did not boot. -/
def updateAt : Nat := mget 0 s.boot.updates (copyKey img (!bootedCopy s img)) - 1

/-- The bytes of a part for which the copy has room. -/
def updateBytes : List Byte := part.bytes.take ((copyAt img (!bootedCopy s img)).2 - updateAt s img)

/-- The flash as a part of an update finds it: the first one has erased the copy. -/
def updateBase : Map Byte :=
  if copyOpen s img (!bootedCopy s img) then s.flash
  else mkeep s.flash (fun k =>
    k < (copyAt img (!bootedCopy s img)).1 ||
      (copyAt img (!bootedCopy s img)).1 + (copyAt img (!bootedCopy s img)).2 ≤ k)

theorem updateFirmware_eq : updateFirmware s img part = { s with
    flash := (flashWrite { s with flash := updateBase s img } ((copyAt img (!bootedCopy s img)).1 + updateAt s img)
      (updateBytes s img part)).flash
    boot := { s.boot with
      updates := mset 0 s.boot.updates (copyKey img (!bootedCopy s img))
        (if part.last then 0 else updateAt s img + (updateBytes s img part).length + 1)
      solNew := s.boot.solNew || (part.last && decide (img = .solfatara)) } } := by
  unfold updateFirmware updateBase
  dsimp only
  split
  · rfl
  · rfl

theorem copyOpen_updateFirmware : copyOpen (updateFirmware s img part) img (!bootedCopy s img) = !part.last := by
  rw [updateFirmware_eq, copyOpen, mget_mset_same]
  cases part.last
  · rfl
  · rfl

theorem bootedCopy_updateFirmware : bootedCopy (updateFirmware s img part) img = bootedCopy s img := by
  rw [updateFirmware_eq]
  cases img with
  | solfatara => rfl
  | caldera => rfl
  | die => rfl

theorem mget_updateBase (k : Nat) : mget 0xFF (updateBase s img) k =
    if copyOpen s img (!bootedCopy s img) = true ∨ k < (copyAt img (!bootedCopy s img)).1 ∨
      (copyAt img (!bootedCopy s img)).1 + (copyAt img (!bootedCopy s img)).2 ≤ k
    then mget 0xFF s.flash k else 0xFF := by
  unfold updateBase
  by_cases hopen : copyOpen s img (!bootedCopy s img) = true
  · rw [if_pos hopen, if_pos (.inl hopen)]
  · rw [if_neg hopen, mget_mkeep]
    refine if_congr ?_ rfl rfl
    simp [hopen]

/-- A part is written where the one before it has ended, and no byte beside the copy changes. -/
theorem flash_updateFirmware (k : Nat) : mget 0xFF (updateFirmware s img part).flash k =
    if (copyAt img (!bootedCopy s img)).1 + updateAt s img ≤ k ∧
      k < (copyAt img (!bootedCopy s img)).1 + updateAt s img + (updateBytes s img part).length then
      (updateBytes s img part).getD (k - ((copyAt img (!bootedCopy s img)).1 + updateAt s img)) 0xFF
    else mget 0xFF (updateBase s img) k := by
  rw [updateFirmware_eq]
  exact mget_flashWrite _ _ _ _ _ (Nat.le_refl _)

theorem updateBytes_length : (updateBytes s img part).length ≤ (copyAt img (!bootedCopy s img)).2 - updateAt s img :=
  List.length_take_le ..

end

/-! ### JTAG -/

section
variable {s : State} (hon : s.pins.vauxOk = true) (hvio : s.pins.vioOk = true)
include hon hvio

theorem jtag_ends (j : Jtag) : Ends (.jtagInstruction j) s (driveJtag s j) :=
  congrArg Host.Outcome.next (if_pos (by rw [hon, hvio]; rfl))

theorem debugOpen_eq (hhigh : s.pins.trstLow = false) : debugOpen s = (s.boot.test && bit s.boot.scope 1) := by
  rw [debugOpen, hon, hvio, hhigh]
  simp

end

section
variable (s : State)

theorem testReset_eq (low : Bool) : (testReset s low).pins = { s.pins with trstLow := low } ∧
    (testReset s low).jtag = (if low then .idcode else s.jtag) ∧
    (low = true → rg (testReset s low) testSlot jtagStatusScanActive = 0) ∧
    testReset s low = { s with
      regs := (testReset s low).regs, pins := (testReset s low).pins, jtag := (testReset s low).jtag } := by
  cases low
  · exact ⟨rfl, rfl, fun h => absurd h (by decide), rfl⟩
  · exact ⟨rfl, rfl, fun _ => rg_wg_same .., rfl⟩

theorem driveJtag_low {j : Jtag} (hlow : s.pins.trstLow = true) (hj : ∀ x, j ≠ .testReset x) : driveJtag s j = s := by
  unfold driveJtag
  cases j with
  | testReset low => exact absurd rfl (hj low)
  | _ => exact if_pos hlow

theorem driveJtag_scan (hhigh : s.pins.trstLow = false) (pins shiftIn : Nat) :
    driveJtag s (.scan pins shiftIn) = scanJtag s pins shiftIn := if_neg (ne_true_of_eq_false hhigh)

theorem driveJtag_loads {j : Jtag} (hhigh : s.pins.trstLow = false) (hj : ∀ x, j ≠ .testReset x)
    (hscan : ∀ x y, j ≠ .scan x y) : driveJtag s j = loadJtag s j := by
  unfold driveJtag
  cases j with
  | testReset low => exact absurd rfl (hj low)
  | scan pins shiftIn => exact absurd rfl (hscan pins shiftIn)
  | _ => exact if_neg (ne_true_of_eq_false hhigh)

theorem loadJtag_shown (j : Jtag) : (loadJtag s j).jtag = jtagTaken s j ∧
    rg (loadJtag s j) testSlot jtagStatusScanActive = b2n (jtagTaken s j = .extest || jtagTaken s j = .clamp) ∧
    loadJtag s j = { s with
      regs := (loadJtag s j).regs, jtag := (loadJtag s j).jtag, resp := (loadJtag s j).resp } := by
  have hactive (t : State) (b : Bool) :
      rg (wg t testSlot jtagStatusScanActive (b2n b)) testSlot jtagStatusScanActive = b2n b := by
    rw [rg_wg_same]
    exact b2n_mod b
  unfold loadJtag
  dsimp only
  split
  · exact ⟨rfl, hactive .., rfl⟩
  · exact ⟨rfl, hactive .., rfl⟩

theorem jtagTaken_driving {j : Jtag} (hj : j = .extest ∨ j = .clamp) :
    jtagTaken s j = (if rg s pwrSlot pwrStateCur = 4 then j else .bypass) ∧
    b2n (jtagTaken s j = .extest || jtagTaken s j = .clamp) = if rg s pwrSlot pwrStateCur = 4 then 1 else 0 := by
  have htaken : jtagTaken s j = if rg s pwrSlot pwrStateCur = 4 then j else .bypass := by
    rcases hj with rfl | rfl
    · rfl
    · rfl
  refine ⟨htaken, ?_⟩
  rw [htaken]
  split
  · rcases hj with rfl | rfl
    · rfl
    · rfl
  · rfl

theorem jtagTaken_resting {j : Jtag} (hj : j = .bypass ∨ j = .idcode ∨ j = .samplePreload ∨ j = .highz) :
    jtagTaken s j = j ∧ b2n (jtagTaken s j = .extest || jtagTaken s j = .clamp) = 0 := by
  rcases hj with rfl | rfl | rfl | rfl
  · exact ⟨rfl, rfl⟩
  · exact ⟨rfl, rfl⟩
  · exact ⟨rfl, rfl⟩
  · exact ⟨rfl, rfl⟩

end

end Sys2Proof.Machine
end

section
/-!
PROOFS. PinsAndManagement: the clauses of the requests that pins and the management endpoint make, put together.
-/

namespace Sys2Proof.Machine

/-! ### Parts of an update -/

section
variable (s : State) (img : Image) (part : FirmwarePart)

/-- A byte of the copy is one of the part, or as the part has found it. -/
theorem flash_updateFirmware_copy {k : Nat} (hk : k < (copyAt img (!bootedCopy s img)).2) :
    mget 0xFF (updateFirmware s img part).flash ((copyAt img (!bootedCopy s img)).1 + k) =
      if updateAt s img ≤ k ∧ k < updateAt s img + (updateBytes s img part).length then
        (updateBytes s img part).getD (k - updateAt s img) 0xFF
      else if copyOpen s img (!bootedCopy s img) = true then
        mget 0xFF s.flash ((copyAt img (!bootedCopy s img)).1 + k) else 0xFF := by
  rw [flash_updateFirmware, mget_updateBase, Nat.add_sub_add_left]
  refine if_congr (by omega) rfl (if_congr ⟨fun h => ?_, .inl⟩ rfl rfl)
  exact h.resolve_right (by omega)

theorem flash_updateFirmware_other {k : Nat}
    (hk : k < (copyAt img (!bootedCopy s img)).1 ∨
      (copyAt img (!bootedCopy s img)).1 + (copyAt img (!bootedCopy s img)).2 ≤ k) :
    mget 0xFF (updateFirmware s img part).flash k = mget 0xFF s.flash k := by
  have hroom := updateBytes_length s img part
  rw [flash_updateFirmware, if_neg (by omega), mget_updateBase, if_pos (.inr hk)]

theorem updateFirmware_frame :
    updateFirmware s img part =
      { s with flash := (updateFirmware s img part).flash, boot := (updateFirmware s img part).boot } := by
  rw [updateFirmware_eq]

theorem updateFirmware_solNew :
    (updateFirmware s img part).boot.solNew = (s.boot.solNew || (part.last && decide (img = .solfatara))) := by
  rw [updateFirmware_eq]

end

/-! ### The ports -/

/-- Pins are no part of a port. -/
theorem PortFresh.withPins {s u : State} {p : Half} (h : PortFresh s p u) (pins : Pins) :
    PortFresh s p { u with pins := pins } where
  ports := h.ports
  rings := h.rings
  sel := h.sel
  err := h.err
  size := h.size
  jobs := h.jobs

/-! ### The endpoint -/

section
variable {s : State}

theorem i3cEntdaa_ends (hon : endpointOn s = true) (addr : BitVec 7) : Ends (.i3cEntdaa addr) s
    (wg (wg { s with resp := .value (provisionalId s) } mgmtSlot mgmtStatusDynAddr addr.toNat)
      mgmtSlot mgmtStatusAssigned 1) := congrArg Host.Outcome.next (if_pos hon)

theorem pollEvent_ends (hanswers : answers s = true) : Ends .pldmPollEvent s (pollEvent s) :=
  congrArg Host.Outcome.next (if_pos hanswers)

theorem pollEvent_oldest {y : AlertMsg} {ys : List AlertMsg} (hq : s.alertQ = y :: ys) :
    pollEvent s = { s with alertQ := ys, resp := .bytes (alertBytes y) } := by
  rw [pollEvent, hq]

theorem pollEvent_empty (hq : s.alertQ = []) : pollEvent s = { s with resp := .bytes [] } := by
  rw [pollEvent, hq]

theorem updateFirmware_ends (htakes : takesUpdates s = true) (img : Image) (part : FirmwarePart) :
    Ends (.pldmFirmwareUpdate img part) s (updateFirmware s img part) := congrArg Host.Outcome.next (if_pos htakes)

end

/-! ### The test port -/

section
variable {s : State}

theorem scanJtag_boundary (hj : s.jtag = .samplePreload ∨ s.jtag = .extest) (pins shiftIn : Nat) :
    scanJtag s pins shiftIn = { s with boundary := shiftIn, resp := .value pins } := by
  unfold scanJtag
  rcases hj with hj | hj
  · rw [hj]
  · rw [hj]

theorem scanJtag_bypass (hj : s.jtag = .bypass ∨ s.jtag = .clamp ∨ s.jtag = .highz) (pins shiftIn : Nat) :
    scanJtag s pins shiftIn = { s with resp := .value 0 } := by
  unfold scanJtag
  rcases hj with hj | hj | hj
  · rw [hj]
  · rw [hj]
  · rw [hj]

theorem jtagTaken_other {j : Jtag} {n : Nat} (hj : j = .other n) :
    jtagTaken s j = if debugOpen s then j else .bypass := by
  subst hj
  rfl

end

/-- Settles O58, clause by clause: the resets of a port by PERST_N and the function-level reset, the endpoint's
address, sensors, events and updates, then the test port. -/
theorem pinsAndManagement : Obligations.PinsAndManagement := by
  intro p addr x img part j s m fresh
  have hm : m = hiSlot p := hiSlot_eq p
  have hfresh (u : State) (h : PortFresh s p u) : fresh u :=
    ⟨h.ports, h.rings, hm ▸ h.sel, hm ▸ h.err, h.size, h.jobs⟩
  rw [hm]
  refine ⟨⟨assertPerst s p, rfl, hfresh _ ?_, mget_mset_same false (resetPort s p true).pins.perst p true⟩,
    ⟨resetPort s p false, rfl, hfresh _ (resetPort_fresh s false p), resetPort_pins .., ?_, ?_⟩,
    fun hhigh => ?_, fun hlow => ?_, fun hoff => ?_, fun hon => ?_, fun hsilent => ⟨?_, ?_⟩, fun hshut => ?_,
    fun hanswers => ⟨⟨_, _, sensorRead_ends hanswers x, rfl, ?_, ?_, ?_, ?_, ?_, ?_, ?_, ?_, ?_⟩, ?_, ?_⟩,
    fun htakes => ⟨_, updateFirmware_ends htakes img part, updateFirmware_frame .., copyOpen_updateFirmware ..,
      ?_, ?_, bootedCopy_updateFirmware .., fun k hk => flash_updateFirmware_copy s img part hk,
      fun k hk => flash_updateFirmware_other s img part hk⟩,
    fun hlost => ?_, fun hvaux hvio low pins shiftIn => ⟨?_, ?_, ?_, ?_⟩, fun hvaux hvio hhigh htest hscan => ?_⟩
  · exact (resetPort_fresh s true p).withPins _
  · exact rg_resetPort_link s p (by decide) (by decide)
  · exact rg_resetPort_link s p (by decide) (by decide)
  · exact congrArg Host.Outcome.next (if_neg (ne_true_of_eq_false hhigh))
  · obtain ⟨hperst, hframe, htrained⟩ := releasePerst_takes hlow
    refine ⟨_, rfl, hperst, hframe, fun hclock => ?_⟩
    obtain ⟨hwidth, hspeed, hflit⟩ := htrained hclock
    exact ⟨hwidth, hspeed, hflit⟩
  · exact congrArg Host.Outcome.next (if_neg (ne_true_of_eq_false hoff))
  · refine ⟨_, i3cEntdaa_ends hon addr, rg_wg_same .., ?_, rfl, rfl⟩
    rw [rg_wg_other _ _ (by decide), rg_wg_same]
    exact Nat.mod_eq_of_lt addr.isLt
  · exact congrArg Host.Outcome.next (if_neg (ne_true_of_eq_false hsilent))
  · exact congrArg Host.Outcome.next (if_neg (ne_true_of_eq_false hsilent))
  · exact congrArg Host.Outcome.next (if_neg (ne_true_of_eq_false hshut))
  · rintro rfl
    rfl
  · rintro rfl
    rfl
  · exact sensorValue_lt s
  · rintro rfl
    rfl
  · rintro rfl
    rfl
  · rintro rfl
    rfl
  · rintro rfl
    rfl
  · rintro rfl
    rfl
  · exact congrArg (fun t : State => { t with resp := .value (sensorValue (measureSensor s x) x) })
      (measureSensor_frame s x)
  · exact fun hq => (pollEvent_ends hanswers).trans (congrArg Host.Outcome.next (pollEvent_empty hq))
  · exact fun y ys hq => (pollEvent_ends hanswers).trans (congrArg Host.Outcome.next (pollEvent_oldest hq))
  · intro himg
    rw [updateFirmware_solNew, decide_eq_false himg, Bool.and_false, Bool.or_false]
  · intro himg hlast
    rw [updateFirmware_solNew, decide_eq_true himg, hlast, Bool.and_true, Bool.or_true]
  · refine congrArg Host.Outcome.next (if_neg fun h => ?_)
    obtain ⟨hvaux, hvio⟩ := Bool.and_eq_true_iff.1 h
    rcases hlost with hlost | hlost
    · exact absurd (hvaux.symm.trans hlost) (by decide)
    · exact absurd (hvio.symm.trans hlost) (by decide)
  · obtain ⟨hpins, hjtag, hactive, hframe⟩ := testReset_eq s low
    exact ⟨_, jtag_ends hvaux hvio (.testReset low), hpins, hjtag, hactive, hframe⟩
  · exact fun hlow hj => (jtag_ends hvaux hvio j).trans (congrArg Host.Outcome.next (driveJtag_low s hlow hj))
  · intro hhigh hj
    exact ends_of_eq (jtag_ends hvaux hvio (.scan pins shiftIn))
      ((driveJtag_scan s hhigh pins shiftIn).trans (scanJtag_boundary hj pins shiftIn))
  · intro hhigh hj
    exact ends_of_eq (jtag_ends hvaux hvio (.scan pins shiftIn))
      ((driveJtag_scan s hhigh pins shiftIn).trans (scanJtag_bypass hj pins shiftIn))
  · obtain ⟨hjtag, hactive, hframe⟩ := loadJtag_shown s j
    refine ⟨_, ends_of_eq (jtag_ends hvaux hvio j) (driveJtag_loads s hhigh htest hscan), fun hj => ?_, fun hj => ?_,
      fun n hj => ?_, hframe⟩
    · obtain ⟨htaken, hdrives⟩ := jtagTaken_driving s hj
      exact ⟨hjtag.trans htaken, hactive.trans hdrives⟩
    · obtain ⟨htaken, hrests⟩ := jtagTaken_resting s hj
      exact ⟨hjtag.trans htaken, hactive.trans hrests⟩
    · rw [hjtag, jtagTaken_other hj, debugOpen_eq hvaux hvio hhigh]
      exact if_congr Bool.and_eq_true_iff rfl rfl

end Sys2Proof.Machine
end

section
/-!
PROOFS. ResetsEndAndWiden fails: the end of a tile abort leaves a tile with the task that it holds where that task
is not among the die's dispatched ones, and the statement admits such a state (it is about every state, with no
invariant asked of it). The other clauses play no part.
-/

namespace Sys2Proof.Machine

/-- What the end of a tile's reset leaves in a tile whose task is not among the dispatched ones. -/
theorem task_resetTile_notLive {s : State} {d c t : Nat} (h : tileTask s d c t = none) :
    (tileOf (resetTile s d c t) d c t).task = (tileOf s d c t).task := by
  have hreset : resetTile s d c t =
      setTile s d c t { tileOf s d c t with gated := false, restart := false } := by
    rw [resetTile, h]
  rw [hreset, tileOf, setTile, mget_mset_same]

theorem endLevel_tile (s : State) (d : Die) (c : Cluster) (t : TileIx) (b : BringUp) :
    endLevel s (.tile d c t) b = resetTile s d c t := rfl

/-- A package in which a tile abort runs, on a tile whose task is not among those dispatched. -/
def tileAbortStray : State :=
  { setTile .reset 0 0 0 { task := some { id := 1, tds := [] } } with resets := [{ scope := .tile 0 0 0 }] }

theorem tileOf_tileAbortStray : tileOf tileAbortStray 0 0 0 = { task := some { id := 1, tds := [] } } :=
  mget_mset_same (α := Tile) {} State.reset.tiles (tileKey 0 0 0) { task := some { id := 1, tds := [] } }

/-- Refutes O51: the tile of `tileAbortStray` still holds its task when its abort has ended. -/
theorem not_resetsEndAndWiden : ¬ Obligations.ResetsEndAndWiden := by
  intro h
  obtain ⟨-, -, hend, -⟩ := h (.tile 0 0 0) (.geyser 0) ⟨false, false, [], []⟩ (.dma 0) 0 tileAbortStray
  obtain ⟨v, -, -, hframe, htasks, -⟩ :=
    hend ⟨{ scope := .tile 0 0 0 }, .head _, rfl, rfl⟩ (fun hwaits => absurd hwaits.1 (by decide))
  have htile : tileOf v 0 0 0 = { task := some { id := 1, tds := [] } } := by
    have htiles : v.tiles = tileAbortStray.tiles := (congrArg State.tiles hframe).trans rfl
    rw [tileOf, htiles]
    exact tileOf_tileAbortStray
  have hstray : tileTask v 0 0 0 = none := by
    have hdies : v.dies = tileAbortStray.dies := (congrArg State.dies hframe).trans rfl
    rw [tileTask, htile]
    dsimp only
    rw [liveOfId, liveTasks, die, hdies]
    rfl
  have hempty : (tileOf (endLevel v (.tile 0 0 0) ⟨false, false, [], []⟩) 0 0 0).task = none :=
    htasks (by decide) (0, 0, 0) (.head _)
  rw [endLevel_tile] at hempty
  have hkept := task_resetTile_notLive hstray
  rw [htile] at hkept
  exact absurd (hkept.symm.trans hempty) (by decide)

end Sys2Proof.Machine
end

section
/-!
PROOFS. What the end of a lobe's work leaves alone: the power sequencer's registers, the Solfatara page beside its
count of queued repairs, and the requested entry. Aborted jobs and the reset of a lobe's dies and edges write none of
them (R23, R355, R382).
-/

namespace Sys2Proof.Machine

/-- A field of the power sequencer's page or of the Solfatara page, but for the count of queued repairs. -/
structure PowerField (slot : Nat) (f : Fld) : Prop where
  page : slot = solSlot ∨ slot = pwrSlot
  off : f.off * 8 + f.lo < 32768
  other : fkey slot f ≠ fkey solSlot memRepairQueued

/-- A register and the requested entry. -/
def powerPart (slot : Nat) (f : Fld) (s : State) : Nat × Option PowerReq := (rg s slot f, s.enterPower)

section
variable (slot : Nat) (f : Fld) (s : State)

theorem powerPart_complete (k status result detail : Nat) :
    powerPart slot f (complete s k status result detail) = powerPart slot f s := by
  unfold complete
  dsimp only
  split
  · rfl
  · rfl

theorem powerPart_dropTask (d c t : Nat) : powerPart slot f (dropTask s d c t) = powerPart slot f s := rfl

theorem powerPart_clearTasks (d : Nat) : powerPart slot f (clearTasks s d) = powerPart slot f s :=
  forEach_frame (powerPart slot f) _ s _ fun t x => powerPart_dropTask slot f t d x.1 x.2

theorem powerPart_finishRun (d status detail : Nat) :
    powerPart slot f (finishRun s d status detail) = powerPart slot f s := by
  unfold finishRun
  split
  · rfl
  · exact powerPart_complete slot f (updSeq s d _) ..

theorem powerPart_finishStopped (d : Nat) : powerPart slot f (finishStopped s d) = powerPart slot f s := by
  unfold finishStopped
  split
  · rfl
  · exact powerPart_finishRun ..
  · exact powerPart_finishRun ..
  · exact powerPart_finishRun ..

theorem powerPart_resetDie (d : Nat) : powerPart slot f (resetDie s d) = powerPart slot f s := by
  have hstopped : powerPart slot f (finishStopped (noteStop (clearTasks s d) d .aborted) d) = powerPart slot f s :=
    (powerPart_finishStopped ..).trans (powerPart_clearTasks slot f s d)
  unfold resetDie
  dsimp only
  generalize finishStopped (noteStop (clearTasks s d) d .aborted) d = t at hstopped ⊢
  exact Eq.trans rfl hstopped

theorem powerPart_updPhase (d ph : Nat) (g : Phase → Phase) :
    powerPart slot f (updPhase s d ph g) = powerPart slot f s := rfl

theorem powerPart_retire (a k : Nat) : powerPart slot f (retire s a k) = powerPart slot f s := rfl

theorem powerPart_dropEnded (d ph : Nat) : powerPart slot f (dropEnded s d ph) = powerPart slot f s := rfl

theorem powerPart_flushEnd (e : EdgeEnd) : powerPart slot f (flushEnd s e) = powerPart slot f s := rfl

theorem powerPart_edgeReset (e : EdgeEnd) : powerPart slot f (edgeReset s e) = powerPart slot f s :=
  forEach_frame (powerPart slot f) _ (setEdgeSide s e _) _ fun _ _ => rfl

theorem powerPart_resetEdges (ds : List Nat) (caldera : Bool) :
    powerPart slot f (resetEdges s ds caldera) = powerPart slot f s := by
  refine forEach_frame _ _ _ _ fun t k => forEach_frame _ _ _ _ fun t far => ?_
  refine (powerPart_flushEnd ..).trans ?_
  have hend (gone : Bool) : powerPart slot f (if gone then dropHeld t ⟨k, far⟩ else edgeReset t ⟨k, far⟩) =
      powerPart slot f t := by
    split
    · rfl
    · exact powerPart_edgeReset ..
  split
  · exact hend _
  · exact hend _

theorem powerPart_dropPosted (gone : Source → Bool) : powerPart slot f (dropPosted s gone) = powerPart slot f s := rfl

theorem powerPart_freeGeysers (j : Nat) : powerPart slot f (freeGeysers s j) = powerPart slot f s := by
  unfold freeGeysers
  dsimp only
  generalize hfreed : forEach _ s _ = t
  have hpart : powerPart slot f t = powerPart slot f s := by
    rw [← hfreed]
    exact forEach_frame (powerPart slot f) _ s _ fun _ _ => rfl
  exact Eq.trans rfl hpart

theorem powerPart_dropWanted : powerPart slot f (dropWanted s) = powerPart slot f s := by
  unfold dropWanted
  split
  · split
    · rfl
    · rfl
  · rfl

end

namespace PowerField

section
variable {slot : Nat} {f : Fld} (h : PowerField slot f) (s : State)
include h

theorem powerPart_wg {b : Nat} {g : Fld} (v : Nat) (hb : 5 ≤ b ∨ b = routerSlot) (hg : g.off * 8 + g.lo < 32768) :
    powerPart slot f (wg s b g v) = powerPart slot f s := by
  have hslot : slot ≠ b := by
    have hpage := h.page
    unfold solSlot pwrSlot at hpage
    unfold routerSlot at hb
    omega
  exact congrArg (·, s.enterPower) (rg_wg_other s v (fkey_ne_of_slot_ne hslot h.off hg))

theorem store : StoreFrame (powerPart slot f) where
  mem _ _ := rfl
  errs _ _ _ := rfl
  free _ _ := rfl
  posted _ _ := rfl
  due _ _ := rfl
  ctl _ _ _ := rfl
  report s d _ v hg := h.powerPart_wg s v (.inl (by unfold mgSlot dieSlot; omega)) hg
  repairs s v := congrArg (·, s.enterPower) (rg_wg_other s v h.other)

theorem traffic : TrafficFrame (powerPart slot f) where
  fum s g v := by
    refine h.powerPart_wg s v (.inl ?_) ?_
    · unfold oeSlot halfSlot
      omega
    · simp only [groupStatusFum]
      omega
  links _ _ := rfl
  tx _ _ := rfl
  outq _ _ := rfl

/-! ### Dies -/

theorem writeTaskStatus_eq (d : Nat) (t : LiveTask) (code drops : Nat) :
    powerPart slot f (writeTaskStatus s d t code drops) = powerPart slot f s := by
  unfold writeTaskStatus
  split
  · rfl
  · exact h.store.storeDie_eq ..

theorem endPhase_eq (d ph code : Nat) : powerPart slot f (endPhase s d ph code) = powerPart slot f s := by
  unfold endPhase
  dsimp only
  split
  · rw [powerPart_dropEnded, powerPart_updPhase, powerPart_retire, powerPart_updPhase, h.store.storeDie_eq]
  · rw [powerPart_retire, powerPart_updPhase, h.store.storeDie_eq]

theorem abortSeq_eq (d : Nat) (c : StopCause) : powerPart slot f (abortSeq s d c) = powerPart slot f s := by
  unfold abortSeq
  dsimp only
  have hpage : 5 ≤ seqSlot d := by
    unfold seqSlot dieSlot
    omega
  refine (powerPart_finishStopped ..).trans ((h.powerPart_wg _ _ (.inl hpage) (by decide)).trans
    ((forEach_frame _ _ _ _ fun t ph => h.endPhase_eq t d ph _).trans ((powerPart_clearTasks ..).trans
      (forEach_frame _ _ _ _ fun t x => ?_))))
  split
  · rfl
  · exact h.writeTaskStatus_eq ..

/-! ### Edges -/

theorem ewg_eq (e : EdgeEnd) {g : Nat → Fld} (v : Nat) (hg : ∀ b, b ≤ 0xC0 → (g b).off * 8 + (g b).lo < 32768) :
    powerPart slot f (ewg s e g v) = powerPart slot f s := by
  refine h.powerPart_wg s v (.inl ?_) (hg _ ?_)
  · unfold edgeSet rilSlot cedgeSlot dieSlot halfSlot
    dsimp only
    split
    · dsimp only
      omega
    split
    · dsimp only
      omega
    · dsimp only
      omega
  · unfold edgeSet
    dsimp only
    split
    · exact Nat.le_of_ble_eq_true rfl
    split
    · exact Nat.le_of_ble_eq_true rfl
    · exact Nat.le_of_ble_eq_true rfl

theorem markEdges_eq (d st : Nat) : powerPart slot f (markEdges s d st) = powerPart slot f s := by
  refine forEach_frame _ _ _ _ fun t k => forEach_frame _ _ _ _ fun t far => ?_
  refine (h.ewg_eq _ _ _ fun b hb => ?_).trans (h.ewg_eq _ _ _ fun b hb => ?_)
  · simp only [edgeStatusCtrlUp]
    omega
  · simp only [edgeStatusState]
    omega

/-- The reset of a lobe's dies and edges. -/
theorem dropLobe_eq (l : Nat) : powerPart slot f (dropLobe s l) = powerPart slot f s := by
  unfold dropLobe
  dsimp only
  rw [h.markEdges_eq, h.markEdges_eq, powerPart_dropPosted, powerPart_resetEdges, powerPart_resetDie,
    powerPart_resetDie]

/-! ### Aborted jobs -/

theorem returnCredit_eq (src : Option (Nat × Packet)) :
    powerPart slot f (returnCredit s src) = powerPart slot f s := by
  unfold returnCredit
  split
  · rfl
  dsimp only
  split
  · rfl
  · exact (h.traffic.payCredits_eq ..).trans (h.traffic.setLink_eq ..)

theorem freeWait_eq (w : OutWait) : powerPart slot f (freeWait s w) = powerPart slot f s := by
  unfold freeWait
  split
  · rfl
  · exact h.returnCredit_eq ..

theorem stale_eq (n : Nat) : powerPart slot f (incr s routerSlot discStale n) = powerPart slot f s :=
  h.powerPart_wg s _ (.inr rfl) (by decide)

theorem dropTraffic_eq (j : Nat) : powerPart slot f (dropTraffic s j) = powerPart slot f s := by
  unfold dropTraffic
  dsimp only
  split
  · rfl
  refine (forEach_frame _ _ _ _ fun t x => forEach_frame _ _ _ _ fun t y => ?_).trans
    (forEach_frame (powerPart slot f) _ _ _ fun t w => (h.freeWait_eq ..).trans (h.stale_eq ..))
  split
  · split
    · exact (h.traffic.setLink_eq ..).trans ((h.traffic.sendCodeword_eq ..).trans (h.stale_eq ..))
    · rfl
  · rfl

theorem sendErupts_eq (j src : Nat) (skip : Option Nat) :
    powerPart slot f (sendErupts s j src skip) = powerPart slot f s := by
  refine forEach_frame _ _ _ _ fun t x => ?_
  dsimp only
  split
  · exact h.powerPart_wg _ _ (.inl (by decide)) (by decide)
  · rfl

theorem abortJob_eq (j : Nat) (from_ : Option Nat) :
    powerPart slot f (abortJob s j from_) = powerPart slot f s := by
  have hstopped (t : State) (qs : List Nat) (c : StopCause) :
      powerPart slot f (dropWanted (forEach (List.range 4) (freeGeysers (dropTraffic
        (forEach qs t fun t q => stopQueue t q from_) j) j)
          fun t d => if seqJob t d = j then abortSeq t d c else t)) = powerPart slot f t := by
    refine (powerPart_dropWanted ..).trans ((forEach_frame _ _ _ _ fun t d => ?_).trans
      ((powerPart_freeGeysers ..).trans ((h.dropTraffic_eq ..).trans (forEach_frame _ _ _ _ fun _ _ => rfl))))
    split
    · exact h.abortSeq_eq ..
    · rfl
  have hmarked : powerPart slot f (if (jobOf s j).state = 1 then setJob s j { jobOf s j with state := 2 } else s) =
      powerPart slot f s := by
    split
    · rfl
    · rfl
  unfold abortJob
  dsimp only
  split
  · rfl
  cases from_ with
  | none =>
    dsimp only
    split
    · exact (hstopped ..).trans hmarked
    · exact (h.sendErupts_eq ..).trans ((hstopped ..).trans hmarked)
  | some o => exact (h.sendErupts_eq ..).trans ((hstopped ..).trans hmarked)

/-- What a fence does with the active jobs. -/
theorem fenceJobs_eq (l : Half) (cur : Nat) : powerPart slot f (fenceJobs s l cur) = powerPart slot f s := by
  refine forEach_frame _ _ _ _ fun t j => ?_
  split
  · split
    · rfl
    · exact h.abortJob_eq ..
  split
  · split
    · exact h.abortJob_eq ..
    · rfl
  · rfl

end

end PowerField

end Sys2Proof.Machine
end

section
/-!
PROOFS. Requests of power states and entries into them (R375, R381, R382).
-/

namespace Sys2Proof.Machine

/-! ### The write of PWR_STATE -/

/-- PWR_STATE has taken a request. -/
def powerAsked (s : State) (q : PowerReq) : State :=
  wg (wg s pwrSlot pwrStateReq q.req) pwrSlot pwrStateLobe q.lobe

section
variable (s : State) (q : PowerReq)

theorem rg_powerAsked_other {slot : Nat} {f : Fld} (hreq : fkey slot f ≠ fkey pwrSlot pwrStateReq)
    (hlobe : fkey slot f ≠ fkey pwrSlot pwrStateLobe) : rg (powerAsked s q) slot f = rg s slot f :=
  (rg_wg_other _ _ hlobe).trans (rg_wg_other _ _ hreq)

theorem powerAsked_frame : powerAsked s q = { s with regs := (powerAsked s q).regs } := rfl

theorem rg_powerAsked_seqState (d : Nat) :
    rg (powerAsked s q) (seqSlot d) seqStatusState = rg s (seqSlot d) seqStatusState := by
  have hslot : seqSlot d ≠ pwrSlot := by
    unfold seqSlot dieSlot pwrSlot
    omega
  exact rg_powerAsked_other s q (fkey_ne_of_slot_ne hslot (by decide) (by decide))
    (fkey_ne_of_slot_ne hslot (by decide) (by decide))

theorem lobeFenced_powerAsked (l : Nat) : lobeFenced (powerAsked s q) l = lobeFenced s l := by
  unfold lobeFenced rgB
  split
  · rw [rg_powerAsked_other s q (by decide) (by decide)]
  · rw [rg_powerAsked_other s q (by decide) (by decide)]

theorem lobeOff_powerAsked (l : Nat) : lobeOff (powerAsked s q) l = lobeOff s l := by
  unfold lobeOff rgB
  split
  · rw [rg_powerAsked_other s q (by decide) (by decide)]
  · rw [rg_powerAsked_other s q (by decide) (by decide)]

theorem cur_powerAsked : rg (powerAsked s q) pwrSlot pwrStateCur = rg s pwrSlot pwrStateCur :=
  rg_powerAsked_other s q (by decide) (by decide)

theorem jobInLobe_powerAsked (j l : Nat) : jobInLobe (powerAsked s q) j l = jobInLobe s j l := by
  have hjob (d : Nat) : seqJob (powerAsked s q) d = seqJob s d := by
    rw [seqJob, seqRunning, rg_powerAsked_seqState]
    rfl
  rw [jobInLobe, hjob, hjob]
  rfl

theorem powerRejected_powerAsked (p : PowerReq) : powerRejected (powerAsked s q) p = powerRejected s p := by
  have hactive : activeJobs (powerAsked s q) = activeJobs s := rfl
  unfold powerRejected
  simp only [cur_powerAsked, lobeFenced_powerAsked, lobeOff_powerAsked, jobInLobe_powerAsked, hactive]

theorem demandScope_powerAsked (e : Option PowerReq) :
    demandScope { powerAsked s q with enterPower := e } .package = demandScope s .package := by
  have hheld : rgB { powerAsked s q with enterPower := e } solSlot resetStatusHeld = rgB s solSlot resetStatusHeld := by
    have hreg : rg (powerAsked s q) solSlot resetStatusHeld = rg s solSlot resetStatusHeld :=
      rg_powerAsked_other s q (by decide) (by decide)
    rw [rgB, rgB, ← hreg]
    rfl
  unfold demandScope
  dsimp only
  rw [hheld]
  rfl

end

/-- A write of PWR_STATE stores REQ and LOBE. -/
theorem writeStored_pwrState (s : State) (val : Nat) : writeStored s pwrSlot 0x80 val =
    powerAsked s ⟨fget pwrStateReq val, fget pwrStateLobe val⟩ := by
  have hfields : (blockFields (pgType pwrSlot)).filter (fun f => f.off = 0x80) =
      [pwrStateGo, pwrStateReq, pwrStateLobe, pwrStateRejected, pwrStateOffE, pwrStateOffW, pwrStateCur] := by
    decide +kernel
  rw [writeStored, hfields]
  rfl

/-- A request of PWR_STATE is one that the word of the write names. -/
theorem writePwrState_asks {s : State} {r : Requester} {q : PowerReq} (hreq : q.req < 8) (hlobe : q.lobe < 2)
    (hruns : performs s pwrSlot = true) (hreach : reached s r = true) :
    writePwrState s r (pwrWord q.req q.lobe) true = requestPower (powerAsked s q) q := by
  have hgetReq : fget pwrStateReq (pwrWord q.req q.lobe) = q.req := by
    simp only [fget, bits, pwrWord, fput, pwrStateGo, pwrStateReq, pwrStateLobe]
    omega
  have hgetLobe : fget pwrStateLobe (pwrWord q.req q.lobe) = q.lobe := by
    simp only [fget, bits, pwrWord, fput, pwrStateGo, pwrStateReq, pwrStateLobe]
    omega
  have hasked : rg (powerAsked s q) pwrSlot pwrStateReq = q.req := by
    rw [powerAsked, rg_wg_other _ _ (by decide), rg_wg_same]
    exact Nat.mod_eq_of_lt hreq
  have hnamed : rg (powerAsked s q) pwrSlot pwrStateLobe = q.lobe := by
    rw [powerAsked, rg_wg_same]
    exact Nat.mod_eq_of_lt hlobe
  refine (guardedWrite_of_performs 0x80 _ (by decide) hruns hreach).trans ?_
  dsimp only
  rw [if_pos rfl, writeStored_pwrState, hgetReq, hgetLobe, hasked, hnamed]

/-! ### What a request does -/

/-- What a request does in each of its cases: held, counted, taken as an entry, or as the exit from P3. -/
structure PowerAnswer (s : State) (q : PowerReq) (u : State) : Prop where
  held : bigReset s = true → u.heldPower = some q ∧ u = { s with regs := u.regs, heldPower := u.heldPower }
  counted : bigReset s = false → powerRejected s q = true →
    rg u pwrSlot pwrStateRejected = min (rg s pwrSlot pwrStateRejected + 1) 255 ∧ u = { s with regs := u.regs }
  enters : bigReset s = false → powerRejected s q = false →
    q.req = 4 ∨ q.req ≠ 0 ∧ rg s pwrSlot pwrStateCur < 3 →
    u.enterPower = some q ∧ u = { s with regs := u.regs, enterPower := u.enterPower }
  leaves : bigReset s = false → powerRejected s q = false → q.req = 0 → rg s pwrSlot pwrStateCur = 3 →
    demandScope s .package = some .package → ∃ v, u = beginReset v .package ∧ v.enterPower = none ∧
      v = { s with regs := v.regs, enterPower := v.enterPower }

section
variable (s : State) (q : PowerReq)

theorem takePower_rejected (hrejected : powerRejected s q = true) :
    takePower s q = incr s pwrSlot pwrStateRejected := if_pos hrejected

theorem takePower_enters (htaken : powerRejected s q = false) (hreq : q.req = 2 ∨ q.req = 3 ∨ q.req = 4)
    (hcur : q.req = 4 ∨ rg s pwrSlot pwrStateCur < 3) : takePower s q = { s with enterPower := some q } := by
  refine (if_neg (ne_true_of_eq_false htaken)).trans ?_
  rcases hreq with hreq | hreq | hreq
  · rw [hreq]
    exact if_neg (by omega)
  · rw [hreq]
    exact if_neg (by omega)
  · rw [hreq]
    rfl

theorem takePower_leaves (htaken : powerRejected s q = false) (hreq : q.req = 0)
    (hcur : rg s pwrSlot pwrStateCur = 3)
    (hdemand : demandScope { s with enterPower := none } .package = some .package) :
    takePower s q = beginReset { s with enterPower := none } .package := by
  have hstandby : rg { s with enterPower := none } pwrSlot pwrStateCur = 3 := hcur
  refine (if_neg (ne_true_of_eq_false htaken)).trans ?_
  rw [hreq]
  change leavePower { s with enterPower := none } = _
  rw [leavePower, hstandby]
  dsimp only
  rw [hdemand]
  rfl

theorem requestPower_answers (hreq : q.req = 0 ∨ q.req = 2 ∨ q.req = 3 ∨ q.req = 4) :
    PowerAnswer s q (requestPower (powerAsked s q) q) := by
  have htake (hsmall : bigReset s = false) : requestPower (powerAsked s q) q = takePower (powerAsked s q) q :=
    if_neg (ne_true_of_eq_false hsmall)
  have hrej := powerRejected_powerAsked s q q
  have hcur := cur_powerAsked s q
  refine ⟨fun hbig => ?_, fun hsmall hrejected => ?_, fun hsmall htaken hentry => ?_,
    fun hsmall htaken hzero hthree hdemand => ?_⟩
  · rw [show requestPower (powerAsked s q) q = { powerAsked s q with heldPower := some q } from if_pos hbig]
    exact ⟨rfl, rfl⟩
  · rw [htake hsmall, takePower_rejected _ _ (hrej.trans hrejected)]
    refine ⟨(rg_incr_same ..).trans ?_, rfl⟩
    rw [rg_powerAsked_other s q (by decide) (by decide)]
    rfl
  · rw [htake hsmall, takePower_enters _ _ (hrej.trans htaken) (by omega) (by omega)]
    exact ⟨rfl, rfl⟩
  · rw [htake hsmall, takePower_leaves _ _ (hrej.trans htaken) hzero (hcur.trans hthree)
      ((demandScope_powerAsked s q none).trans hdemand)]
    exact ⟨_, rfl, rfl, rfl⟩

end

/-! ### Entries -/

theorem lobeOfField_val (n : Nat) : (lobeOfField n).val = n % 2 := by
  unfold lobeOfField
  split
  · exact Eq.symm ‹_›
  · exact (Nat.mod_two_ne_zero.1 ‹_›).symm

section
variable (s : State)

theorem enterRequested_none (h : s.enterPower = none) : enterRequested s = s := by
  rw [enterRequested, h]

section
variable {s} {q : PowerReq} (hentry : s.enterPower = some q)
include hentry

theorem enterRequested_off (hreq : q.req = 2) :
    enterRequested s = switchLobeOff { s with enterPower := none } (lobeOfField q.lobe) := by
  rw [enterRequested, hentry]
  dsimp only
  rw [hreq]
  rfl

theorem enterRequested_standBy (hreq : q.req = 3) : enterRequested s = standBy { s with enterPower := none } := by
  rw [enterRequested, hentry]
  dsimp only
  rw [hreq]
  rfl

theorem enterRequested_down (hreq : q.req = 4) : enterRequested s = powerDown { s with enterPower := none } := by
  rw [enterRequested, hentry]
  dsimp only
  rw [hreq]
  rfl

end

theorem powerDown_empty : (powerDown s).mem = [] ∧ (powerDown s).resets = [] ∧ (powerDown s).heldPower = none ∧
    (powerDown s).enterPower = none := by
  unfold powerDown showResets
  generalize hlost : forEach (List.range 4) _ losePower = t
  clear hlost
  exact ⟨rfl, rfl, rfl, rfl⟩

end

section
variable (s : State) (l : Half)

theorem lobeFenced_iff : lobeFenced s l = true ↔ rg s solSlot (fencedField l) = 1 := by
  match l with
  | 0 => exact decide_eq_true_iff
  | 1 => exact decide_eq_true_iff

theorem lobeOff_iff : lobeOff s l = true ↔ rg s pwrSlot (offField l) = 1 := by
  match l with
  | 0 => exact decide_eq_true_iff
  | 1 => exact decide_eq_true_iff

theorem powerField_fenced : PowerField solSlot (fencedField l) := by
  match l with
  | 0 => exact ⟨.inl rfl, by decide, by decide⟩
  | 1 => exact ⟨.inl rfl, by decide, by decide⟩

theorem powerField_cur : PowerField pwrSlot pwrStateCur := ⟨.inr rfl, by decide, by decide⟩

theorem setFence_shown : rg (setFence s l) solSlot (fencedField l) = 1 ∧
    powerPart pwrSlot pwrStateCur (setFence s l) = powerPart pwrSlot pwrStateCur s := by
  have hcur (t : State) {f : Fld} (v : Nat) (hf : f.off * 8 + f.lo < 32768) :
      powerPart pwrSlot pwrStateCur (wg t solSlot f v) = powerPart pwrSlot pwrStateCur t :=
    congrArg (·, t.enterPower) (rg_wg_other t v (fkey_ne_of_slot_ne (by decide) (by decide) hf))
  match l with
  | 0 =>
    have hset : setFence s 0 =
        wg (wg (wg s solSlot lobeModeFencedW 1) solSlot lobeModePrimary 1) solSlot lobeModeCur 2 := rfl
    rw [hset, hcur _ _ (by decide), hcur _ _ (by decide), hcur _ _ (by decide)]
    refine ⟨?_, rfl⟩
    rw [rg_wg_other _ _ (by decide), rg_wg_other _ _ (by decide)]
    exact rg_wg_same ..
  | 1 =>
    have hset : setFence s 1 =
        wg (if isPaired (wg s solSlot lobeModeFencedE 1) then
          wg (wg s solSlot lobeModeFencedE 1) solSlot lobeModePrimary 0
        else wg s solSlot lobeModeFencedE 1) solSlot lobeModeCur 2 := rfl
    rw [hset, hcur _ _ (by decide), rg_wg_other _ _ (by decide)]
    split
    · rw [hcur _ _ (by decide), hcur _ _ (by decide), rg_wg_other _ _ (by decide)]
      exact ⟨rg_wg_same .., rfl⟩
    · rw [hcur _ _ (by decide)]
      exact ⟨rg_wg_same .., rfl⟩

/-- The lobe is fenced before it is switched off. -/
def lobeShut : State :=
  if lobeFenced s l then s else setFence (fenceJobs s l (rg s solSlot lobeModeCur)) l

theorem lobeShut_shown : rg (lobeShut s l) solSlot (fencedField l) = 1 ∧
    powerPart pwrSlot pwrStateCur (lobeShut s l) = powerPart pwrSlot pwrStateCur s := by
  unfold lobeShut
  split
  · exact ⟨(lobeFenced_iff s l).1 ‹_›, rfl⟩
  · obtain ⟨hfenced, hpart⟩ := setFence_shown (fenceJobs s l (rg s solSlot lobeModeCur)) l
    exact ⟨hfenced, hpart.trans (powerField_cur.fenceJobs_eq ..)⟩

/-- The lobe is shown to be off, and the package in P2 unless it is in P3 or P4. -/
def offShown : State :=
  if rg (wg s pwrSlot (offField l) 1) pwrSlot pwrStateCur = 3 ∨
      rg (wg s pwrSlot (offField l) 1) pwrSlot pwrStateCur = 4 then
    wg s pwrSlot (offField l) 1
  else wg (wg s pwrSlot (offField l) 1) pwrSlot pwrStateCur 2

theorem switchLobeOff_eq : switchLobeOff s l = offShown (dropLobe (lobeShut s l) l) l := rfl

/-- A lobe that is switched off is fenced and off, and the package is in P2 where it was in P0, P1 or P2. -/
structure LobeIsOff (u : State) : Prop where
  off : lobeOff u l = true
  fenced : lobeFenced u l = true
  entry : u.enterPower = s.enterPower
  cur : rg s pwrSlot pwrStateCur < 3 → rg u pwrSlot pwrStateCur = 2

theorem rg_offShown_other {slot : Nat} {f : Fld} (hoff : fkey slot f ≠ fkey pwrSlot (offField l))
    (hcur : fkey slot f ≠ fkey pwrSlot pwrStateCur) : rg (offShown s l) slot f = rg s slot f := by
  unfold offShown
  split
  · exact rg_wg_other _ _ hoff
  · exact (rg_wg_other _ _ hcur).trans (rg_wg_other _ _ hoff)

theorem offField_place : fkey pwrSlot (offField l) ≠ fkey pwrSlot pwrStateCur ∧
    fkey solSlot (fencedField l) ≠ fkey pwrSlot (offField l) ∧
    fkey solSlot (fencedField l) ≠ fkey pwrSlot pwrStateCur ∧ (offField l).w = 1 := by
  match l with
  | 0 => decide
  | 1 => decide

theorem rg_offShown_off : rg (offShown s l) pwrSlot (offField l) = 1 := by
  obtain ⟨hplace, -, -, hwidth⟩ := offField_place l
  have hset : rg (wg s pwrSlot (offField l) 1) pwrSlot (offField l) = 1 := by
    rw [rg_wg_same, hwidth]
    rfl
  unfold offShown
  split
  · exact hset
  · exact (rg_wg_other _ _ hplace).trans hset

theorem rg_offShown_cur (hcur : rg s pwrSlot pwrStateCur < 3) : rg (offShown s l) pwrSlot pwrStateCur = 2 := by
  obtain ⟨hplace, -⟩ := offField_place l
  unfold offShown
  rw [rg_wg_other _ _ hplace.symm, if_neg (by omega)]
  exact rg_wg_same ..

theorem offShown_enterPower : (offShown s l).enterPower = s.enterPower := by
  unfold offShown
  split
  · rfl
  · rfl

theorem switchLobeOff_off : LobeIsOff s l (switchLobeOff s l) := by
  obtain ⟨hfenced, hpart⟩ := lobeShut_shown s l
  obtain ⟨hdropped, -⟩ := Prod.mk.inj ((powerField_fenced l).dropLobe_eq (lobeShut s l) l)
  obtain ⟨hcur, hentry⟩ := Prod.mk.inj ((powerField_cur.dropLobe_eq (lobeShut s l) l).trans hpart)
  obtain ⟨-, hoffPlace, hcurPlace, -⟩ := offField_place l
  rw [switchLobeOff_eq]
  generalize dropLobe (lobeShut s l) l = t at hdropped hcur hentry
  refine ⟨(lobeOff_iff _ l).2 (rg_offShown_off t l), (lobeFenced_iff _ l).2 ?_,
    (offShown_enterPower t l).trans hentry, fun hlow => rg_offShown_cur t l (hcur.trans_lt hlow)⟩
  exact (rg_offShown_other t l hoffPlace hcurPlace).trans (hdropped.trans hfenced)

theorem enterPower_dropLobe (l : Nat) : (dropLobe s l).enterPower = s.enterPower :=
  (Prod.mk.inj (powerField_cur.dropLobe_eq s l)).2

theorem standBy_shown : rg (standBy s) pwrSlot pwrStateCur = 3 ∧ (standBy s).enterPower = s.enterPower := by
  have hentry := (enterPower_dropLobe (dropLobe s 0) 1).trans (enterPower_dropLobe s 0)
  unfold standBy
  generalize dropLobe (dropLobe s 0) 1 = t at hentry ⊢
  exact ⟨rg_wg_same .., hentry⟩

end

/-- The requests that rows of the statement make. -/
def powerRows (r : Requester) (l : Half) : List (Instr × PowerReq) :=
  [(.powerReqP0 r, ⟨0, 0⟩), (.powerReqP2 r l, ⟨2, l⟩), (.powerReqP3 r, ⟨3, 0⟩), (.powerReqP4 r, ⟨4, 0⟩)]

theorem powerRows_settle {s : State} {r : Requester} {l : Half} (hruns : performs s pwrSlot = true)
    (hreach : reached s r = true) : ∀ k ∈ powerRows r l,
      Settles k.1 s (requestPower (powerAsked s k.2) k.2) ∧
        PowerAnswer s k.2 (requestPower (powerAsked s k.2) k.2) := by
  have hasks {q : PowerReq} (hreq : q.req < 8) (hlobe : q.lobe < 2) :
      (.next (settle (writePwrState s r (pwrWord q.req q.lobe) true)) : Host.Outcome State Fault Refusal) =
        .next (settle (requestPower (powerAsked s q) q)) :=
    congrArg (fun t => Host.Outcome.next (settle t)) (writePwrState_asks hreq hlobe hruns hreach)
  intro k hk
  simp only [powerRows, List.mem_cons, List.not_mem_nil, or_false] at hk
  rcases hk with rfl | rfl | rfl | rfl
  · exact ⟨hasks (q := ⟨0, 0⟩) (by decide) (by decide), requestPower_answers s _ (.inl rfl)⟩
  · exact ⟨hasks (q := ⟨2, l⟩) (show 2 < 8 by decide) l.isLt, requestPower_answers s _ (.inr (.inl rfl))⟩
  · exact ⟨hasks (q := ⟨3, 0⟩) (by decide) (by decide), requestPower_answers s _ (.inr (.inr (.inl rfl)))⟩
  · exact ⟨hasks (q := ⟨4, 0⟩) (by decide) (by decide), requestPower_answers s _ (.inr (.inr (.inr rfl)))⟩

/-- Settles O52: a request by the case that it meets, an entry by the state that it enters. -/
theorem powerRequests : Obligations.PowerRequests := by
  intro r l s rows cur
  refine ⟨fun k hk hruns hreach => ?_, fun hnone => ?_,
    fun q hentry => ⟨fun hreq => ?_, fun hreq => ?_, fun hreq => ?_⟩⟩
  · obtain ⟨hsettles, hheld, hcounted, henters, hleaves⟩ := powerRows_settle hruns hreach k hk
    refine ⟨fun hbig => ⟨_, hsettles, hheld hbig⟩, fun hsmall hrejected => ⟨_, hsettles, hcounted hsmall hrejected⟩,
      fun hsmall htaken => ⟨fun hcase => ⟨_, hsettles, henters hsmall htaken hcase⟩, fun hzero hcur hdemand => ?_⟩⟩
    obtain ⟨v, hbegins, hv⟩ := hleaves hsmall htaken hzero hcur hdemand
    exact ⟨v, settles_of_eq hsettles hbegins, hv⟩
  · exact congrArg (fun t => Host.Outcome.next (settle t)) (enterRequested_none s hnone)
  · obtain ⟨hmem, hresets, hheld, hgone⟩ := powerDown_empty { s with enterPower := none }
    exact ⟨_, congrArg (fun t => Host.Outcome.next (settle t)) (enterRequested_down hentry hreq),
      cur_powerDown _, hmem, hresets, hheld, hgone⟩
  · obtain ⟨hcur, hgone⟩ := standBy_shown { s with enterPower := none }
    exact ⟨_, congrArg (fun t => Host.Outcome.next (settle t)) (enterRequested_standBy hentry hreq), hcur, hgone⟩
  · obtain ⟨hoff, hfenced, hgone, hcur⟩ := switchLobeOff_off { s with enterPower := none } (lobeOfField q.lobe)
    rw [lobeOfField_val] at hoff hfenced
    exact ⟨_, congrArg (fun t => Host.Outcome.next (settle t)) (enterRequested_off hentry hreq),
      hoff, hfenced, hgone, hcur⟩

end Sys2Proof.Machine
end

section
/-!
PROOFS. Operations that leave memory alone.
-/

namespace Sys2Proof.Machine

section
variable {s : State}

theorem forEach_mem {α : Type} (xs : List α) (f : State → α → State) (hf : ∀ t x, (f t x).mem = t.mem) :
    (forEach xs s f).mem = s.mem := forEach_frame State.mem xs s f hf

/-! ### Tables and fields -/

theorem gst_mem (g f v) : (gst s g f v).mem = s.mem := rfl

theorem ewg_mem (e f v) : (ewg s e f v).mem = s.mem := rfl

theorem updCmd_mem (p n handle f) : (updCmd s p n handle f).mem = s.mem := rfl

theorem setErr_mem (a n) : (setErr s a n).mem = s.mem := rfl

theorem waitHeld_mem (d hold a) : (waitHeld s d hold a).mem = s.mem := rfl

theorem updLive_mem (d id f) : (updLive s d id f).mem = s.mem := rfl

theorem dropEnded_mem (d ph) : (dropEnded s d ph).mem = s.mem := rfl

theorem dropTask_mem (d c t) : (dropTask s d c t).mem = s.mem := rfl

theorem noteStop_mem (d c) : (noteStop s d c).mem = s.mem := rfl

theorem updGroup_mem (g f) : (updGroup s g f).mem = s.mem := rfl

theorem stopQueue_mem (q from_) : (stopQueue s q from_).mem = s.mem := rfl

theorem moveTraffic_mem (i) : (moveTraffic s i).mem = s.mem := rfl

theorem flushEnd_mem (e) : (flushEnd s e).mem = s.mem := rfl

theorem dropHeld_mem (e) : (dropHeld s e).mem = s.mem := rfl

theorem dropPosted_mem (gone) : (dropPosted s gone).mem = s.mem := rfl

theorem extendMr_mem (i d) : (extendMr s i d).mem = s.mem := rfl

theorem beginStep_mem (d) : (beginStep s d).mem = s.mem := rfl

theorem notePending_mem : (notePending s).mem = s.mem := rfl

theorem issue_mem (r) : (issue s r).mem = s.mem := rfl

theorem dropAbort_mem (p n) : (dropAbort s p n).mem = s.mem := rfl

theorem seqEvent_mem (d src) : (seqEvent s d src).mem = s.mem := rfl

theorem reportCopy_mem (img b) : (reportCopy s img b).mem = s.mem := rfl

/-! ### Completions, the log and the errors of sectors -/

theorem complete_mem (handle status result detail) : (complete s handle status result detail).mem = s.mem := by
  unfold complete
  grind [updCPort_mem, updRing_mem]

theorem logWrite_mem (e c masked first) : (logWrite s e c masked first).mem = s.mem := rfl

theorem keepPair_mem (e c masked first) : (keepPair s e c masked first).mem = s.mem := by
  unfold keepPair
  grind

theorem waitFaults_mem (c index) : (waitFaults s c index).mem = s.mem := by
  unfold waitFaults
  grind [forEach_mem, complete_mem]

theorem alert_mem (e c) : (alert s e c).mem = s.mem := by
  unfold alert
  grind [incr_mem]

theorem record_mem (e) : (record s e).mem = s.mem := by
  unfold record
  grind [incr_mem, wg_mem, logWrite_mem, waitFaults_mem, keepPair_mem, alert_mem]

theorem reportError_mem (d kind a ch cb) : (reportError s d kind a ch cb).mem = s.mem := by
  unfold reportError
  grind [wg_mem]

theorem queueRepair_mem (d ch row a) : (queueRepair s d ch row a).mem = s.mem := by
  unfold queueRepair
  grind [updMem_mem, wg_mem, raise_mem]

theorem repairCandidate_mem (d ch cb a) : (repairCandidate s d ch cb a).mem = s.mem := by
  unfold repairCandidate
  grind [useFree, updMem_mem, queueRepair_mem]

/-- Whether or not the row may be repaired. -/
theorem mem_foundCorrected (a repairs) : (foundCorrected s a repairs).mem = s.mem := by
  unfold foundCorrected
  grind [incr_mem, raise_mem, updMem_mem, reportError_mem, repairCandidate_mem]

theorem rmwRead_mem (a) : (rmwRead s a).1.mem = s.mem := by
  unfold rmwRead
  grind [foundCorrected_mem, setErr_mem, foundBad_mem]

/-! ### Accesses -/

theorem turnBus_mem (d ch dir) : (turnBus s d ch dir).mem = s.mem := by
  unfold turnBus
  grind [useFree, updMem_mem, incr_mem]

theorem turnFor_mem (d ch ts) : (turnFor s d ch ts).mem = s.mem := by
  unfold turnFor
  grind [forEach_mem, turnBus_mem]

theorem spoilTask_mem (by_) : (spoilTask s by_).mem = s.mem := by
  unfold spoilTask
  grind [setTile_mem]

theorem noteSeen_mem (by_ a) : (noteSeen s by_ a).mem = s.mem := by
  unfold noteSeen
  grind

theorem checkRead_mem (by_ a n) : (checkRead s by_ a n).1.mem = s.mem := by
  unfold checkRead
  grind [checkErrs_mem]

theorem checkDie_mem (d rs) : (checkDie s d rs).mem = s.mem := by
  unfold checkDie
  grind [checkErrs_mem]

/-! ### Tasks and sequencers -/

theorem startWake_mem (d c) : (startWake s d c).mem = s.mem := by
  unfold startWake
  grind [wg_mem]

theorem demandTiles_mem (d c) : (demandTiles s d c).mem = s.mem := by
  unfold demandTiles
  grind [forEach_mem, setTile_mem]

theorem enqueueAll_mem (ts d) : (enqueueAll ts s d).mem = s.mem := by
  induction ts generalizing s with
  | nil => rfl
  | cons t ts ih => unfold enqueueAll; grind [enqueue_mem]

theorem releaseHeld_mem (d) : (releaseHeld s d).mem = s.mem := by
  unfold releaseHeld
  grind [enqueueAll_mem]

theorem clearTasks_mem (d) : (clearTasks s d).mem = s.mem := by
  unfold clearTasks
  grind [forEach_mem, dropTask_mem, updDie_mem]

theorem finishRun_mem (d status detail) : (finishRun s d status detail).mem = s.mem := by
  unfold finishRun
  grind [updSeq_mem, complete_mem]

theorem finishStopped_mem (d) : (finishStopped s d).mem = s.mem := by
  unfold finishStopped
  grind [finishRun_mem]

theorem settleSeq_mem (d) : (settleSeq s d).mem = s.mem := by
  unfold settleSeq
  grind [finishStopped_mem, wg_mem]

theorem markFailed_mem (d ph) : (markFailed s d ph).mem = s.mem := by
  unfold markFailed
  grind [updPhase_mem, dropEnded_mem, seqEvent_mem, noteStop_mem]

theorem nextReplay_mem (n d ph) : (nextReplay n s d ph).mem = s.mem := by
  induction n generalizing s with
  | zero => rfl
  | succ n ih => unfold nextReplay; grind [updPhase_mem]

/-! ### Ports and their groups -/

theorem moveFum_mem (p) : (moveFum s p).mem = s.mem := by
  unfold moveFum
  grind [gst_mem]

theorem putCodeword_mem (p cw) : (putCodeword s p cw).mem = s.mem := by
  unfold putCodeword
  grind [setLink_mem]

theorem sendCodeword_mem (p fum fs) : (sendCodeword s p fum fs).mem = s.mem := by
  unfold sendCodeword
  grind [setLink_mem, putCodeword_mem]

theorem replayAll_mem (p) : (replayAll s p).mem = s.mem := by
  unfold replayAll
  grind [forEach_mem, putCodeword_mem]

theorem payCredits_mem (p) : (payCredits s p).mem = s.mem := by
  unfold payCredits
  grind [forEach_mem, setLink_mem, sendCodeword_mem]

theorem returnCredit_mem (src) : (returnCredit s src).mem = s.mem := by
  unfold returnCredit
  grind [payCredits_mem, setLink_mem]

theorem sendTruncate_mem (p vc) : (sendTruncate s p vc).mem = s.mem := by
  unfold sendTruncate
  grind [sendCodeword_mem]

theorem dropCut_mem (port x) : (dropCut s port x).mem = s.mem := by
  unfold dropCut
  grind [sendTruncate_mem]

theorem unCut_mem (port) : (unCut s port).mem = s.mem := by
  unfold unCut
  grind [forEach_mem, setLink_mem]

theorem freeWait_mem (w) : (freeWait s w).mem = s.mem := by
  unfold freeWait
  grind [returnCredit_mem]

theorem portComes_mem (p wasUp) : (portComes s p wasUp).mem = s.mem := by
  unfold portComes
  grind [forEach_mem, dropCut_mem, payCredits_mem, replayAll_mem, setLink_mem]

theorem startRetrain_mem (g) : (startRetrain s g).mem = s.mem := by
  unfold startRetrain
  grind [gst_mem, updGroup_mem, replayAll_mem, moveFum_mem]

theorem wantRetrain_mem (g) : (wantRetrain s g).mem = s.mem := by
  unfold wantRetrain
  grind [updGroup_mem, startRetrain_mem]

theorem groupReturn_mem (g) : (groupReturn s g).mem = s.mem := by
  unfold groupReturn
  grind [updGroup_mem, gst_mem, portComes_mem, moveFum_mem]

theorem startTraining_mem (g) : (startTraining s g).mem = s.mem := by
  unfold startTraining
  grind [gst_mem, updGroup_mem]

theorem groupBack_mem (g) : (groupBack s g).mem = s.mem := by
  unfold groupBack
  grind [groupReturn_mem, wantRetrain_mem]

theorem nextRetrain_mem (p) : (nextRetrain s p).mem = s.mem := by
  unfold nextRetrain
  grind [startRetrain_mem]

/-! ### Jobs -/

theorem sendErupts_mem (j src skip) : (sendErupts s j src skip).mem = s.mem := by
  unfold sendErupts
  grind [forEach_mem, incr_mem]

theorem freeGeysers_mem (j) : (freeGeysers s j).mem = s.mem := by
  unfold freeGeysers
  grind [forEach_mem, updGeyser_mem]

theorem setOutcome_mem (ds outcome) : (setOutcome s ds outcome).mem = s.mem := by
  unfold setOutcome
  grind [forEach_mem, wg_mem]

theorem dropWanted_mem : (dropWanted s).mem = s.mem := by
  unfold dropWanted
  grind

theorem dropTraffic_mem (j) : (dropTraffic s j).mem = s.mem := by
  unfold dropTraffic
  grind [forEach_mem, freeWait_mem, incr_mem, sendTruncate_mem, setLink_mem]

/-! ### Edges -/

theorem setAside_mem (i b on) : (setAside s i b on).mem = s.mem := by
  unfold setAside
  grind [forEach_mem, setEdgeSide_mem, moveTraffic_mem]

theorem edgeReset_mem (e) : (edgeReset s e).mem = s.mem := by
  unfold edgeReset
  grind [forEach_mem, setEdgeSide_mem, raise_mem]

theorem resetEdges_mem (ds caldera) : (resetEdges s ds caldera).mem = s.mem := by
  unfold resetEdges
  grind [forEach_mem, flushEnd_mem, dropHeld_mem, edgeReset_mem]

theorem markEdges_mem (d st) : (markEdges s d st).mem = s.mem := by
  unfold markEdges
  grind [forEach_mem, ewg_mem]

theorem fenceEdges_mem (l) : (fenceEdges s l).mem = s.mem := by
  unfold fenceEdges
  grind [markEdges_mem]

theorem trainEdges_mem (sc) : (trainEdges s sc).mem = s.mem := by
  unfold trainEdges
  grind [markEdges_mem, forEach_mem]

/-! ### Resets -/

theorem resetPages_mem (sc keep) : (resetPages s sc keep).mem = s.mem := rfl

theorem showHolds_mem : (showHolds s).mem = s.mem := by
  unfold showHolds
  grind [forEach_mem, wg_mem]

theorem logOnly_mem (e) : (logOnly s e).mem = s.mem := by
  unfold logOnly
  grind [logWrite_mem, waitFaults_mem]

theorem darkenGroups_mem : (darkenGroups s).mem = s.mem := by
  unfold darkenGroups
  grind [updGroup_mem, gst_mem, forEach_mem, unCut_mem, dropCut_mem, setLink_mem, returnCredit_mem]

theorem clearEngines_mem : (clearEngines s).mem = s.mem := by
  unfold clearEngines
  grind [forEach_mem, updMem_mem]

theorem clearOutside_mem : (clearOutside s).mem = s.mem := rfl

theorem showResets_mem : (showResets s).mem = s.mem := by
  unfold showResets
  grind [wg_mem]

theorem retrainGroups_mem : (retrainGroups s).mem = s.mem := by
  unfold retrainGroups
  grind [forEach_mem, groupReturn_mem, updGroup_mem, startTraining_mem, nextRetrain_mem]

theorem surviveMismatch_mem (l) : (surviveMismatch s l).mem = s.mem := by
  unfold surviveMismatch
  grind [forEach_mem, updPhase_mem]

theorem setFence_mem (l) : (setFence s l).mem = s.mem := by
  unfold setFence
  grind [wg_mem]

/-! ### The boot -/

theorem pickCopy_mem (img) : (pickCopy s img).1.mem = s.mem := by
  unfold pickCopy
  grind [reportCopy_mem]

theorem bootSolfatara_mem : (bootSolfatara s).mem = s.mem := by
  unfold bootSolfatara
  grind [pickCopy_mem, wg_mem]

theorem showClocks_mem : (showClocks s).mem = s.mem := by
  unfold showClocks
  grind [wg_mem]

theorem drawBytes_mem (n) : (drawBytes s n).2.mem = s.mem := by
  unfold drawBytes
  grind

theorem bootCaldera_mem : (bootCaldera s).1.mem = s.mem := by
  unfold bootCaldera
  grind [wg_mem, extendMr_mem, pickCopy_mem]

theorem bootDies_mem : (bootDies s).mem = s.mem := by
  unfold bootDies
  grind [drawBytes_mem, pickCopy_mem, extendMr_mem, wg_mem]

theorem leaveScan_mem : (leaveScan s).mem = s.mem := by
  unfold leaveScan
  grind [wg_mem]

/-! ### Posts, sequencers that start, DMAs and BAR4 -/

theorem readSource_mem (q a n) : (readSource s q a n).1.mem = s.mem := by
  unfold readSource
  grind [checkRead_mem]

theorem startSeq_mem (d addr cmd) : (startSeq s d addr cmd).mem = s.mem := by
  unfold startSeq
  grind [checkDie_mem, updSeq_mem, raise_mem, wg_mem, complete_mem, beginStep_mem]

theorem startHere_mem (d) : (startHere s d).mem = s.mem := by
  unfold startHere
  grind [updSeq_mem, startSeq_mem]

theorem startWaiting_mem : (startWaiting s).mem = s.mem := by
  unfold startWaiting
  grind [forEach_mem, startHere_mem]

theorem countDma_mem (p n c moved) : (countDma s p n c moved).mem = s.mem := by
  unfold countDma
  grind [updCmd_mem, retire_mem]

theorem endDma_mem (c status moved) : (endDma s c status moved).mem = s.mem := by
  unfold endDma
  grind [complete_mem, countDma_mem]

theorem reportBad_mem (by_ a n) : (reportBad s by_ a n).1.mem = s.mem := by
  unfold reportBad
  grind [checkRead_mem]

theorem request_mem (r) : (request s r).mem = s.mem := by
  unfold request
  grind [issue_mem]

theorem pumpWaiting_mem : (pumpWaiting s).mem = s.mem := by
  unfold pumpWaiting
  grind [forEach_mem, request_mem]

theorem barFail_mem (p off job status) : (barFail s p off job status).mem = s.mem := by
  unfold barFail
  grind [wg_mem, raise_mem]

theorem barReadPart_mem (r : BarReq) (id : Nat) (x : BarAcc) (off len : Nat) :
    (barReadPart r id x off len).st.mem = x.st.mem := by
  unfold barReadPart
  grind [barFail_mem, reportBad_mem]

theorem barDo_mem (r) : (barDo s r).mem = s.mem := by
  have hparts :
      ((reqParts r).foldl (fun x y => barReadPart r s.remote.nextRead x y.1 y.2) { st := s }).st.mem = s.mem :=
    List.foldlRecOn (motive := fun x : BarAcc => x.st.mem = s.mem) _ _ rfl
      fun x hx y _ => (barReadPart_mem r _ x y.1 y.2).trans hx
  have hasked (t : State) (rs : List Request) : (rs.foldl request t).mem = t.mem :=
    forEach_mem rs request fun t r => request_mem r
  unfold barDo
  grind

theorem barRead_mem (r) : (barRead s r).mem = s.mem := by
  unfold barRead
  grind [barDo_mem]

theorem releaseBars_mem : (releaseBars s).mem = s.mem := by
  unfold releaseBars
  grind [forEach_mem, barRead_mem]

theorem pumpOne_mem (p n c) : ∀ t, pumpOne s p n c = some t → t.mem = s.mem := by
  unfold pumpOne
  grind [updCmd_mem, issue_mem, reportBad_mem]

theorem pumpDma_mem (m p n) : (pumpDma m s p n).mem = s.mem := by
  induction m generalizing s with
  | zero => rfl
  | succ m ih => unfold pumpDma; grind [pumpOne_mem]

theorem pumpDmas_mem : (pumpDmas s).mem = s.mem := by
  unfold pumpDmas
  grind [forEach_mem, pumpDma_mem]

/-! ### Host commands -/

theorem startDma_mem (p n c) : (startDma s p n c).mem = s.mem := by
  unfold startDma
  grind [complete_mem, pumpDma_mem]

theorem setSeqJob_mem (d a) : (setSeqJob s d a).mem = s.mem := by
  unfold setSeqJob
  grind [wg_mem]

theorem startSeqRun_mem (p c) : (startSeqRun s p c).mem = s.mem := by
  unfold startSeqRun
  grind [complete_mem, startSeq_mem, setSeqJob_mem]

theorem startTest_mem (p c) : (startTest s p c).mem = s.mem := by
  unfold startTest
  grind [complete_mem]

theorem startWaitFault_mem (c) : (startWaitFault s c).mem = s.mem := by
  unfold startWaitFault
  grind [complete_mem]

theorem forgetPost_mem (handle) : (forgetPost s handle).mem = s.mem := by
  unfold forgetPost
  grind [forEach_mem, updCq_mem]

end

end Sys2Proof.Machine
end

section
/-!
PROOFS. What follows a command keeps each property of memory that writes of bytes and the clearing of bytes keep.
The lemmas about what an operation calls are hypotheses of `grind`: it waits for the proof of a lemma that it is given
by name, and a thread for each lemma that waits takes more memory than there is.
-/

namespace Sys2Proof.Machine

/-- A property of memory that neither a write of a byte nor the clearing of bytes takes away. -/
structure MemProperty where
  holds : Map Byte → Prop
  write : ∀ {m} a b, holds m → holds (mset memDefault m a b)
  clear : ∀ {m} p, holds m → holds (mkeep m p)

/-- Nor does the loss of memory. -/
theorem MemProperty.cleared (L : MemProperty) {m : Map Byte} (h : L.holds m) : L.holds [] := by
  have hnone : mkeep m (fun _ => false) = [] := List.filter_eq_nil_iff.2 fun _ _ => Bool.false_ne_true
  exact hnone ▸ L.clear (fun _ => false) h

section
variable {L : MemProperty} {s : State} (h : L.holds s.mem)
include h

theorem forEach_kept {α : Type} {xs : List α} (f : State → α → State)
    (hf : ∀ t x, L.holds t.mem → L.holds (f t x).mem) : L.holds (forEach xs s f).mem := by
  induction xs generalizing s with
  | nil => exact h
  | cons x xs ih => exact ih (hf s x h)

theorem wrBytes_kept (a : Nat) (bs : List Byte) : L.holds (wrBytes s a bs).mem := by
  induction bs generalizing s a with
  | nil => exact h
  | cons b bs ih => exact ih (L.write _ _ h) (a + 1)

theorem wrPairs_kept (ps) : L.holds (wrPairs s ps).mem := forEach_kept h _ fun _ _ ht => L.write _ _ ht

theorem clearDom_kept (d) : L.holds (clearDom s d).mem := by
  unfold clearDom
  dsimp only
  exact L.clear _ h

/-! ### Accesses and stores -/

theorem codeFinds_kept (a symbols) : L.holds (codeFinds s a symbols).1.mem := by
  unfold codeFinds
  grind [useFree, freeBytes, wrBytes_kept]

theorem readOne_kept (by_ a symbols) : L.holds (readOne s by_ a symbols).mem := by
  unfold readOne
  have hcodeFinds := @codeFinds_kept L
  grind [setErr_mem, noteSeen_mem, mem_foundCorrected, spoilTask_mem, foundBad_mem]

theorem readerEffect_kept (d by_ x) : L.holds (readerEffect s d by_ x).mem := by
  unfold readerEffect
  have hreadOne := @readOne_kept L
  grind [forEach_kept, retire_mem]

theorem writeEffect_kept (d x buffered) : L.holds (writeEffect s d x buffered).1.mem := by
  unfold writeEffect
  have hcodeFinds := @codeFinds_kept L
  grind [wrPairs_kept, retire_mem, setErr_mem, mem_foundCorrected, foundBad_mem]

theorem accessEffect_kept (d x) : L.holds (accessEffect s d x).1.mem := by
  unfold accessEffect
  have hreaderEffect := @readerEffect_kept L
  have hwriteEffect := @writeEffect_kept L
  grind

theorem issueAccess_kept (d ch x) : L.holds (issueAccess s d ch x).mem := by
  unfold issueAccess
  have haccessEffect := @accessEffect_kept L
  grind [turnFor_mem]

theorem issueQueue_kept (m d ch q read n) : L.holds (issueQueue m s d ch q read n).mem := by
  induction m generalizing s q read n with
  | zero => exact h
  | succ m ih =>
    unfold issueQueue
    have hissueAccess := @issueAccess_kept L
    grind

theorem issueChannel_kept (d ch behind) : L.holds (issueChannel s d ch behind).mem := by
  unfold issueChannel
  have hissueQueue := @issueQueue_kept L
  grind [updMem_mem]

theorem dropHold_kept (d) : L.holds (dropHold s d).mem := by
  unfold dropHold
  have hwriteEffect := @writeEffect_kept L
  have hissueChannel := @issueChannel_kept L
  grind [wg_mem, updMem_mem, forEach_kept, turnFor_mem]

theorem bufferWrite_kept (d hold x) : L.holds (bufferWrite s d hold x).mem := by
  unfold bufferWrite
  have hcodeFinds := @codeFinds_kept L
  grind [updMem_mem, wrPairs_kept]

theorem writeHeld_kept (d hold x) : L.holds (writeHeld s d hold x).mem := by
  unfold writeHeld
  have hbufferWrite := @bufferWrite_kept L
  grind [waitHeld_mem]

theorem storeMasked_kept (ps) : L.holds (storeMasked s ps).mem := by
  unfold storeMasked
  have hwriteHeld := @writeHeld_kept L
  grind [wrPairs_kept, setErr_mem, rmwRead_mem]

theorem storeVia_kept (src ps) : L.holds (storeVia s src ps).mem := by
  unfold storeVia
  have hstoreMasked := @storeMasked_kept L
  grind

theorem flushPosted_kept : L.holds (flushPosted s).mem := by
  unfold flushPosted
  have hstoreVia := @storeVia_kept L
  grind [forEach_kept]

theorem storeSectors_kept (n src a bs) : L.holds (storeSectors n s src a bs).mem := by
  induction n generalizing s a bs with
  | zero => exact h
  | succ n ih =>
    unfold storeSectors
    have hstoreVia := @storeVia_kept L
    grind

theorem store_kept (src a bs) : L.holds (store s src a bs).mem := by
  unfold store
  have hstoreSectors := @storeSectors_kept L
  grind

theorem storeIf_kept (src a bs) : L.holds (storeIf s src a bs).mem := by
  unfold storeIf
  have hstore := @store_kept L
  grind

theorem storeBoth_kept (src a bs) : L.holds (storeBoth s src a bs).mem := by
  unfold storeBoth
  have hstore := @store_kept L
  grind [forEach_kept]

theorem storeDie_kept (d a bs) : L.holds (storeDie s d a bs).mem := by
  unfold storeDie
  have hstoreIf := @storeIf_kept L
  grind

theorem dmaStore_kept (c off bs) : L.holds (dmaStore s c off bs).mem := by
  unfold dmaStore
  have hstoreBoth := @storeBoth_kept L
  grind

theorem dmaCut_kept (c) : L.holds (dmaCut s c).1.mem := by
  unfold dmaCut
  have hdmaStore := @dmaStore_kept L
  grind [useFree, freeBytes, checkRead_mem]

/-! ### Tasks, phases and jobs -/

theorem writeTaskStatus_kept (d t code drops) : L.holds (writeTaskStatus s d t code drops).mem := by
  unfold writeTaskStatus
  have hstoreDie := @storeDie_kept L
  grind

theorem endPhase_kept (d ph code) : L.holds (endPhase s d ph code).mem := by
  unfold endPhase
  have hstoreDie := @storeDie_kept L
  grind [retire_mem, updPhase_mem, dropEnded_mem]

theorem endFailed_kept (d ph) : L.holds (endFailed s d ph).mem := by
  unfold endFailed
  have hendPhase := @endPhase_kept L
  grind [nextReplay_mem]

theorem abortSeq_kept (d c) : L.holds (abortSeq s d c).mem := by
  unfold abortSeq
  have hwriteTaskStatus := @writeTaskStatus_kept L
  have hendPhase := @endPhase_kept L
  grind [noteStop_mem, forEach_kept, clearTasks_mem, finishStopped_mem, wg_mem]

theorem deliverStatus_kept (q poster id code detail origin fo) :
    L.holds (deliverStatus s q poster id code detail origin fo).mem := by
  unfold deliverStatus
  have hstoreDie := @storeDie_kept L
  have hendFailed := @endFailed_kept L
  grind [complete_mem, updPhase_mem, markFailed_mem]

theorem completeOp_kept (q o) : L.holds (completeOp s q o).mem := by
  unfold completeOp
  have hdeliverStatus := @deliverStatus_kept L
  grind [updCq_mem, retire_mem, raise_mem]

theorem abortJob_kept (j from_) : L.holds (abortJob s j from_).mem := by
  unfold abortJob
  have habortSeq := @abortSeq_kept L
  grind [setJob_mem, forEach_mem, stopQueue_mem, dropTraffic_mem, freeGeysers_mem, forEach_kept,
    dropWanted_mem, sendErupts_mem]

/-! ### Resets -/

theorem mapOutDie_kept (ch) : L.holds (mapOutDie s ch).mem := by
  unfold mapOutDie
  grind [clearDom_kept]

theorem mapOutPkg_kept : L.holds (mapOutPkg s).mem := by
  unfold mapOutPkg
  grind [clearDom_kept]

theorem sampleTile_kept (d c t level hung) : L.holds (sampleTile s d c t level hung).mem := by
  have hstored (src : Source) (a b : Nat) (data rec_ : List Byte) :
      L.holds (incr (store (store { s with free := s.free + 2 } src a data) src b rec_) hangSlot sampleCount).mem :=
    store_kept (store_kept (s := { s with free := s.free + 2 }) h ..) ..
  unfold sampleTile
  split
  · exact h
  dsimp only
  split
  · exact h
  split
  · exact h
  · exact hstored ..

theorem sampleScope_kept (sc before hung) : L.holds (sampleScope s sc before hung).mem := by
  unfold sampleScope
  have hsampleTile := @sampleTile_kept L
  grind [forEach_kept]

theorem failStarted_kept (d) : L.holds (failStarted s d).mem := by
  unfold failStarted
  have hendPhase := @endPhase_kept L
  grind [forEach_kept, clearTasks_mem, seqEvent_mem]

theorem resetDie_kept (d) : L.holds (resetDie s d).mem := by
  unfold resetDie
  grind [clearTasks_mem, finishStopped_mem, noteStop_mem, updDie_mem, clearDom_kept]

theorem repairRow_kept (d keep ch row) : L.holds (repairRow s d keep ch row).mem := by
  unfold repairRow
  grind [useFree, updMem_mem, logOnly_mem, forEach_kept, setErr_mem, mem_foundCorrected, wrBytes_kept]

theorem hardRepair_kept (d keep) : L.holds (hardRepair s d keep).mem := by
  unfold hardRepair
  have hrepairRow := @repairRow_kept L
  grind [updMem_mem, wg_mem, forEach_kept]

theorem resetMemory_kept (d keep) : L.holds (resetMemory s d keep).mem := by
  unfold resetMemory
  have hhardRepair := @hardRepair_kept L
  grind [updMem_mem]

theorem abortCommands_kept : L.holds (abortCommands s).mem := by
  unfold abortCommands
  have hdmaCut := @dmaCut_kept L
  grind [forEach_kept, complete_mem]

theorem abortOps_kept (qs) : L.holds (abortOps s qs).mem := by
  unfold abortOps
  have hcompleteOp := @completeOp_kept L
  grind [forEach_kept, stopQueue_mem]

theorem takeSettings_kept : L.holds (takeSettings s).mem := by
  unfold takeSettings
  have hmapOutDie := @mapOutDie_kept L
  have hmapOutPkg := @mapOutPkg_kept L
  grind [wg_mem, forEach_kept, clearDom_kept, darkenGroups_mem]

theorem enterDie_kept (d) : L.holds (enterDie s d).mem := by
  unfold enterDie
  have hresetDie := @resetDie_kept L
  have hfailStarted := @failStarted_kept L
  grind [dropPosted_mem, resetEdges_mem]

theorem enterLobe_kept (l) : L.holds (enterLobe s l).mem := by
  unfold enterLobe
  have hresetMemory := @resetMemory_kept L
  have hresetDie := @resetDie_kept L
  grind [forEach_kept, dropPosted_mem, resetEdges_mem]

theorem endWork_kept : L.holds (endWork s).mem := by
  unfold endWork
  have habortJob := @abortJob_kept L
  have habortCommands := @abortCommands_kept L
  have habortOps := @abortOps_kept L
  grind [forEach_kept]

theorem enterPackage_kept (takes keep) : L.holds (enterPackage s takes keep).mem := by
  unfold enterPackage
  dsimp only
  rw [clearEngines_mem, resetEdges_mem]
  refine forEach_kept ?_ _ fun t d ht => resetMemory_kept (resetDie_kept ht d) d keep
  split
  · exact takeSettings_kept (endWork_kept h)
  · exact endWork_kept h

theorem dropLobe_kept (l) : L.holds (dropLobe s l).mem := by
  unfold dropLobe
  have hresetDie := @resetDie_kept L
  grind [resetEdges_mem, dropPosted_mem, markEdges_mem]

theorem enterFull_kept (takes) : L.holds (enterFull s takes).mem := L.cleared h

theorem enterScope_kept (sc takes) : L.holds (enterScope s sc takes).mem := by
  unfold enterScope
  have henterDie := @enterDie_kept L
  have henterLobe := @enterLobe_kept L
  have henterPackage := @enterPackage_kept L
  have henterFull := @enterFull_kept L
  grind

theorem startLevel_kept (sc before) : L.holds (startLevel s sc before).mem := by
  unfold startLevel
  have henterScope := @enterScope_kept L
  grind [resetPages_mem, showHolds_mem, trainEdges_mem, retrainGroups_mem, incr_mem, wg_mem, showResets_mem]

theorem beginReset_kept (sc) : L.holds (beginReset s sc).mem := by
  unfold beginReset
  have hstartLevel := @startLevel_kept L
  have hsampleScope := @sampleScope_kept L
  grind

theorem fenceJobs_kept (l cur) : L.holds (fenceJobs s l cur).mem := by
  unfold fenceJobs
  have habortJob := @abortJob_kept L
  grind [forEach_kept]

theorem fenceOnly_kept (l) : L.holds (fenceOnly s l).mem := by
  unfold fenceOnly
  have hfenceJobs := @fenceJobs_kept L
  grind [setOutcome_mem, surviveMismatch_mem, fenceEdges_mem, setFence_mem]

theorem fenceLobe_kept (l) : L.holds (fenceLobe s l).mem := by
  unfold fenceLobe
  have hstartLevel := @startLevel_kept L
  have hfenceOnly := @fenceOnly_kept L
  have hsampleScope := @sampleScope_kept L
  grind

theorem fenceBoth_kept : L.holds (fenceBoth s).mem := by
  unfold fenceBoth
  have hfenceOnly := @fenceOnly_kept L
  have hstartLevel := @startLevel_kept L
  have hsampleScope := @sampleScope_kept L
  grind

/-! ### Events -/

theorem demand_kept (sc) : L.holds (demand s sc).mem := by
  unfold demand
  have hfenceLobe := @fenceLobe_kept L
  have hbeginReset := @beginReset_kept L
  grind

theorem classActions_kept (es) : L.holds (classActions s es).mem := by
  unfold classActions
  have hdemand := @demand_kept L
  have hfenceBoth := @fenceBoth_kept L
  have hfenceLobe := @fenceLobe_kept L
  have habortJob := @abortJob_kept L
  grind [forEach_kept]

theorem takeBatch_kept (es) : L.holds (takeBatch s es).mem := by
  unfold takeBatch
  have hclassActions := @classActions_kept L
  grind [forEach_mem, record_mem]

theorem drain_kept (n) : L.holds (drain n s).mem := by
  induction n generalizing s with
  | zero => exact h
  | succ n ih =>
    unfold drain
    have htakeBatch := @takeBatch_kept L
    grind

theorem takeEvents_kept : L.holds (takeEvents s).mem := by
  unfold takeEvents
  have hdrain := @drain_kept L
  grind [forEach_kept, settleSeq_mem, releaseHeld_mem]

theorem powerDown_kept : L.holds (powerDown s).mem := L.cleared h

theorem bootFull_kept : L.holds (bootFull s).mem := by
  unfold bootFull
  have hpowerDown := @powerDown_kept L
  grind [bootSolfatara_mem, bootCaldera_mem, bootDies_mem, leaveScan_mem, showClocks_mem, clearOutside_mem, wg_mem]

theorem bootWhenDue_kept : L.holds (bootWhenDue s).mem := by
  unfold bootWhenDue
  have htakeEvents := @takeEvents_kept L
  have hbootFull := @bootFull_kept L
  grind

/-! ### Posts and host commands -/

theorem postOp_kept (q w poster) : L.holds (postOp s q w poster).1.mem := by
  unfold postOp
  have hdeliverStatus := @deliverStatus_kept L
  grind [forEach_kept, readSource_mem, raise_mem, updCq_mem]

theorem postList_kept (n d ph) : L.holds (postList n s d ph).mem := by
  induction n generalizing s with
  | zero => exact h
  | succ n ih =>
    unfold postList
    have hendFailed := @endFailed_kept L
    have hpostOp := @postOp_kept L
    grind [checkDie_mem, updPhase_mem]

theorem postWaiting_kept : L.holds (postWaiting s).mem := by
  unfold postWaiting
  have hpostList := @postList_kept L
  grind [forEach_kept]

theorem cutDma_kept (c status) : L.holds (cutDma s c status).mem := by
  unfold cutDma
  have hdmaCut := @dmaCut_kept L
  grind [dropAbort_mem, endDma_mem]

theorem abortCmd_kept (c) : L.holds (abortCmd s c).mem := by
  unfold abortCmd
  have hcutDma := @cutDma_kept L
  grind [complete_mem, forgetPost_mem, forEach_kept, updSeq_mem]

theorem leaveTest_kept (t) : L.holds (leaveTest s t).mem := by
  unfold leaveTest
  have hdropHold := @dropHold_kept L
  grind [updDie_mem, setAside_mem, groupBack_mem]

theorem untest_kept (c) : L.holds (untest s c).mem := by
  unfold untest
  have hleaveTest := @leaveTest_kept L
  grind [forEach_kept]

theorem endPosts_kept (p job) : L.holds (endPosts s p job).mem := by
  unfold endPosts
  have hcompleteOp := @completeOp_kept L
  grind [forEach_kept]

theorem faultJob_kept (p j) : L.holds (faultJob s p j).mem := by
  unfold faultJob
  have htakeBatch := @takeBatch_kept L
  have habortJob := @abortJob_kept L
  grind [useFree]

theorem startAbort_kept (p c) : L.holds (startAbort s p c).mem := by
  unfold startAbort
  have hendPosts := @endPosts_kept L
  have hfaultJob := @faultJob_kept L
  have habortCmd := @abortCmd_kept L
  have huntest := @untest_kept L
  grind [complete_mem, forEach_kept]

theorem startCmd_kept (p n c) : L.holds (startCmd s p n c).mem := by
  unfold startCmd
  have hstartAbort := @startAbort_kept L
  grind [updCmd_mem, complete_mem, startDma_mem, startSeqRun_mem, startTest_mem, startWaitFault_mem]

theorem pumpRound_kept : L.holds (pumpRound s).mem := by
  unfold pumpRound
  have hstartCmd := @startCmd_kept L
  grind [forEach_kept]

theorem pumpHost_kept (m) : L.holds (pumpHost m s).mem := by
  induction m generalizing s with
  | zero => exact h
  | succ m ih =>
    unfold pumpHost
    have hpumpRound := @pumpRound_kept L
    grind

/-- What follows a command keeps such a property. -/
theorem settle_kept : L.holds (settle s).mem := by
  have htaken : L.holds (takeEvents (releaseBars (flushPosted s))).mem := by
    refine takeEvents_kept ?_
    rw [releaseBars_mem]
    exact flushPosted_kept h
  unfold settle
  dsimp only
  rw [notePending_mem]
  refine bootWhenDue_kept (takeEvents_kept (postWaiting_kept (pumpHost_kept ?_ _)))
  rw [pumpDmas_mem, pumpWaiting_mem, startWaiting_mem]
  exact htaken

end

end Sys2Proof.Machine
end

section
/-!
PROOFS. RemoteAccesses fails: an access may run over the end of a window that the registers make larger than its place
in the address map, into a window without a live channel, whose bytes the wait for edges does not ask for. A store of
such bytes waits for the edge of die 0, while it has been answered. That no other state with the bytes written leads to
the same outcome is told by an entry of memory out of the order of the keys, which no write brings about
(R164, R207, R249).
-/

namespace Sys2Proof.Machine

/-! ### An entry of memory that no write brings about -/

/-- The bytes of memory as numbers. -/
def byteValues (m : Map Byte) : Map Nat := m.map (fun e => (e.1, e.2.toNat))

theorem byteValues_mins (m : Map Byte) (a : Nat) (b : Byte) :
    byteValues (mins m a b) = mins (byteValues m) a b.toNat := by
  induction m with
  | nil => rfl
  | cons e m ih =>
    obtain ⟨k, w⟩ := e
    simp only [byteValues, List.map_cons, mins] at ih ⊢
    split
    · rw [← ih]
      rfl
    split
    · rfl
    · rfl

theorem byteValues_mkeep (m : Map Byte) (p : Nat → Bool) : byteValues (mkeep m p) = mkeep (byteValues m) p := by
  simp only [byteValues, mkeep, List.filter_map]
  rfl

theorem byteValues_mset (m : Map Byte) (a : Nat) (b : Byte) :
    byteValues (mset memDefault m a b) = mset 0 (byteValues m) a b.toNat := by
  have hdefault : b.toNat = 0 ↔ b = memDefault := ⟨fun h => BitVec.eq_of_toNat_eq h, fun h => by rw [h]; rfl⟩
  unfold mset
  rw [if_congr hdefault rfl rfl]
  split
  · rw [mdel_eq_filter, mdel_eq_filter]
    exact byteValues_mkeep m fun k => decide (k ≠ a)
  · exact byteValues_mins m a b

/-- Key `k` of memory does not hold `v` behind a larger key. -/
def byteTouched (k v : Nat) : MemProperty where
  holds m := Touched k v (byteValues m)
  write a b h := by
    rw [byteValues_mset]
    exact h.mset 0 a b.toNat
  clear p h := by
    rw [byteValues_mkeep]
    exact h.mkeep p

theorem byteTouched_of_rdByte {k v : Nat} {s : State} (h : (rdByte s k).toNat ≠ v) : (byteTouched k v).holds s.mem :=
  fun hu => h ((mget_map_snd memDefault BitVec.toNat s.mem k).symm.trans (mget_of_untouched _ hu))

/-! ### The counterexample -/

/-- A store of two bytes, the last one of the package-wide window's place and the first one of the West lobe's. -/
def edgeStore : Packet := { type := 5, addr := 2 ^ 40 - 1, bytes := 1, payload := [0, 9] }

/-- The package-wide window is larger than its place and lacks channel 0, the lobe-wide one of the West lobe has
none at all; of the edges that to die 1 is up alone. -/
def edgeStoreState : State :=
  { ewg (ewg (wg .reset solSlot memSplitCurPkg 17) ⟨3, false⟩ edgeStatusState 3) ⟨3, true⟩ edgeStatusState 3 with
    mem := [(2 ^ 41, 1), (2 ^ 40, 7)], inbox := [edgeStore], outDie := List.range 512, outPkg := [0] }

theorem edgeStore_performed : edgeStore ∈ edgeStoreState.inbox ∧ edgeStore.rseq = expectSeq edgeStoreState edgeStore ∧
    edgeStoreState.remote.early = [] ∧ edgeStoreState.errs = [] ∧ edgeStoreState.posted = [] ∧
    isPaired edgeStoreState = false ∧ pairedForm edgeStoreState = false := by decide +kernel

theorem edgeStore_notHeld : remoteHeld edgeStoreState edgeStore = false := by decide +kernel

theorem edgeStore_passes : remoteCheck edgeStoreState edgeStore = 0 := by decide +kernel

/-- What the store leads to: the byte beyond the end of the place is not written. -/
def edgeStoreOutcome : State := settle (remoteArrive edgeStoreState edgeStore)

theorem edgeStore_settles :
    Settles (.remoteStore edgeStore) edgeStoreState (remoteArrive edgeStoreState edgeStore) := by
  have hwaits : hasPacket edgeStoreState edgeStore 5 = true := by decide +kernel
  exact congrArg Host.Outcome.next (if_pos hwaits)

theorem edgeStoreOutcome_untouched : untouched (2 ^ 40) 7 false (byteValues edgeStoreOutcome.mem) = true := by
  decide +kernel

/-- Refutes O39: `edgeStore` passes its check and nothing holds it, and its second byte waits for the edge of die 0. -/
theorem not_remoteAccesses : ¬ Obligations.RemoteAccesses := by
  intro h
  obtain ⟨hin, hseq, hearly, herrs, hposted, hpaired, hform⟩ := edgeStore_performed
  obtain ⟨-, hperforms⟩ :=
    h.2.1 edgeStore edgeStoreState hin hseq hearly herrs hposted edgeStore_notHeld hpaired hform
  obtain ⟨u, hsettles, -, hwritten, -⟩ := (hperforms edgeStore_passes).2.1 rfl (Nat.le_refl 2)
  have hsame : edgeStoreOutcome = settle u := settle_eq_of_settles edgeStore_settles hsettles
  have hread : rdByte u (2 ^ 40) = 9 := hwritten 1 (Nat.lt_succ_self 1)
  have htouched : (byteTouched (2 ^ 40) 7).holds (settle u).mem := by
    refine settle_kept (byteTouched_of_rdByte ?_)
    rw [hread]
    decide
  rw [← hsame] at htouched
  exact htouched edgeStoreOutcome_untouched

end Sys2Proof.Machine
end
